-- ==== Sys2Proof/Word.lean ====
section
/-! DEFINITION. The word types of the LX-4 and their plainest arithmetic (R6, R7, R12, R13). -/

namespace Sys2Proof

/-- One byte of memory (R7). -/
abbrev Byte := BitVec 8

/-- The 64-bit value of a scalar or engine register (R178, R257). -/
abbrev Word := BitVec 64

/-- A label mask: bit i names party i (R345). -/
abbrev Mask := BitVec 16

/-- The 1,024 bits of a vector register (R7, R311). -/
abbrev Vec := BitVec 1024

/-- `sign_extend` of R13, read as an integer. -/
abbrev sx {n : Nat} (v : BitVec n) : Int := v.toInt

/-- `zero_extend` of R13, read as a natural number. -/
abbrev zx {n : Nat} (v : BitVec n) : Nat := v.toNat

end Sys2Proof
end

