-- ==== Sys2Proof/Syntax.lean ====
section
/-! DEFINITION. The instructions, micro-ops and events of the LX-4 as plain syntax: one constructor of `Instr` for each
row of spec/opcode_table.json. Operand forms follow R133 to R145, R260, R308 and R330. -/

namespace Sys2Proof

/-! ## Operand parts -/

/-- A guard: the operation issues when p[g] differs from `inv` (R133, R134). -/
structure Guard where
  g : BitVec 3
  inv : Bool
  deriving DecidableEq, Repr

/-- The guard that always issues: G = 0, GS = 0 (R134). -/
def Guard.always : Guard := { g := 0, inv := false }

/-- An operand code of bits [15:10] or [9:4] (R136). Codes 46 to 62 are no operand. -/
inductive Opnd where
  | reg (n : BitVec 5)
  | latch (j : BitVec 2)
  | port (q : BitVec 3)
  | rnd
  | zero
  | ext
  deriving DecidableEq, Repr

/-- Element formats, codes 0 to 7 (R211). -/
inductive Fmt where
  | f32 | f16 | bf16 | f8e4 | f8e5 | i8 | i32 | raw
  deriving DecidableEq, Repr

/-- Width codes of the vector slots (R138). -/
inductive Width where
  | w256 | w512 | w1024
  deriving DecidableEq, Repr

/-- q of the float class (R142). -/
inductive FltQ where
  | f32 | f16 | bf16
  deriving DecidableEq, Repr

/-- q of the integer class (R142). -/
inductive IntQ where
  | i32 | i8
  deriving DecidableEq, Repr

/-- q of the lane-width class and of the element class (R142). -/
inductive LaneQ where
  | b32 | b8 | b16 | b64
  deriving DecidableEq, Repr

/-- Access sizes of form M (R140). -/
inductive MSize where
  | b1 | b2 | b4 | b8
  deriving DecidableEq, Repr

/-- Access sizes of form OA (R140). -/
inductive OSize where
  | b4 | b8
  deriving DecidableEq, Repr

/-- Scopes (R140, R373). -/
inductive Scope where
  | core | clu | die | dev | sys
  deriving DecidableEq, Repr

/-- Kinds of FENCE (R140, R391). -/
inductive FenceKind where
  | acq | rel | full
  deriving DecidableEq, Repr

/-- How CMP combines its outcome into pd (R140, R188). -/
inductive Combine where
  | write | conj | disj
  deriving DecidableEq, Repr

/-- Conditions of CMP (R140). -/
inductive Cond where
  | eq | ne | lt | le | gt | ge | ltu | leu | gtu | geu
  deriving DecidableEq, Repr

/-- Operations of PLOG (R154, R189). -/
inductive PlogOp where
  | conj | disj | xor | andn | orn | neg | mov
  deriving DecidableEq, Repr

/-- Register files that XMOV names (R140). -/
inductive XFile where
  | s | x | y | m
  deriving DecidableEq, Repr

/-- The vector file that TRPUSH and TRPULL name (R143). -/
inductive VFile where
  | x | y
  deriving DecidableEq, Repr

/-- Conditions of VCMP (R142). -/
inductive VCond where
  | eq | lt | le | un
  deriving DecidableEq, Repr

/-- Conditions of VICMP (R142). -/
inductive VICond where
  | eq | lt | le | ltu
  deriving DecidableEq, Repr

/-- Operations of KLOG (R142). -/
inductive KlogOp where
  | conj | disj | xor | andn | neg | mov | set | clr
  deriving DecidableEq, Repr

/-- Operations of VRED, each with the q of its class (R324). -/
inductive RedOp where
  | add (q : FltQ) | min (q : FltQ) | max (q : FltQ)
  | iadd (q : IntQ) | imin (q : IntQ) | imax (q : IntQ)
  deriving DecidableEq, Repr

/-- Chain lengths of the direction forms (R142). -/
inductive Chain where
  | c1 | c2 | c4 | c8 | c16
  deriving DecidableEq, Repr

/-- Selectors of RSTAT (R260). -/
inductive RstatSel where
  | cfg | ptr | resv
  deriving DecidableEq, Repr

/-- Selectors of CSTAT (R260). -/
inductive CstatSel where
  | queue | fault | stall
  deriving DecidableEq, Repr

/-- The two waiting selectors of HWAIT that claim nothing (R260). -/
inductive HwaitSel where
  | full | free
  deriving DecidableEq, Repr

/-- Selectors of RNDSTAT (R260). -/
inductive RndSel where
  | pos | held
  deriving DecidableEq, Repr

/-! ## Forms of slot 0 (R139) -/

/-- Form S3 with a destination and two operands. -/
structure FS3 where
  gd : Guard
  w : Bool
  d : BitVec 5
  a : Opnd
  b : Opnd
  deriving DecidableEq, Repr

/-- Form S3 with a destination and one operand. -/
structure FS2 where
  gd : Guard
  w : Bool
  d : BitVec 5
  a : Opnd
  deriving DecidableEq, Repr

/-- SEL: form S3 with the selecting predicate. -/
structure FSel where
  gd : Guard
  w : Bool
  d : BitVec 5
  a : Opnd
  b : Opnd
  n : BitVec 3
  deriving DecidableEq, Repr

/-- Form SI. -/
structure FSI where
  gd : Guard
  w : Bool
  d : BitVec 5
  a : Opnd
  imm : BitVec 10
  deriving DecidableEq, Repr

/-- Form SH. -/
structure FSH where
  gd : Guard
  w : Bool
  d : BitVec 5
  a : Opnd
  amount : BitVec 6
  deriving DecidableEq, Repr

/-- Form SL. -/
structure FSL where
  gd : Guard
  w : Bool
  d : BitVec 5
  imm : BitVec 16
  deriving DecidableEq, Repr

/-- Form PC. -/
structure FPC where
  gd : Guard
  comb : Combine
  pd : BitVec 3
  a : Opnd
  b : Opnd
  cond : Cond
  deriving DecidableEq, Repr

/-- Form PL. For `.neg` and `.mov` pb is zero (R154). -/
structure FPL where
  gd : Guard
  pd : BitVec 3
  pa : BitVec 3
  pb : BitVec 3
  op : PlogOp
  deriving DecidableEq, Repr

/-- Form BR. -/
structure FBR where
  gd : Guard
  disp : BitVec 21
  deriving DecidableEq, Repr

/-- Form BS. -/
structure FBS where
  gd : Guard
  idx : BitVec 14
  deriving DecidableEq, Repr

/-- A guard and one operand: forms CI and S3 without destination, and the engine forms with A alone. -/
structure FA where
  gd : Guard
  a : Opnd
  deriving DecidableEq, Repr

/-- A guard and two operands. -/
structure FAB where
  gd : Guard
  a : Opnd
  b : Opnd
  deriving DecidableEq, Repr

/-- Form Z. -/
structure FZ where
  gd : Guard
  deriving DecidableEq, Repr

/-- Form M of LD and LDS. -/
structure FLd where
  gd : Guard
  w : Bool
  d : BitVec 5
  a : Opnd
  size : MSize
  off : BitVec 8
  deriving DecidableEq, Repr

/-- Form M of ST. -/
structure FSt where
  gd : Guard
  d : BitVec 5
  a : Opnd
  size : MSize
  off : BitVec 8
  deriving DecidableEq, Repr

/-- Form FE of LDFE. -/
structure FLdfe where
  gd : Guard
  w : Bool
  d : BitVec 5
  a : Opnd
  clr : Bool
  off : BitVec 8
  deriving DecidableEq, Repr

/-- Form FE of STFE. -/
structure FStfe where
  gd : Guard
  d : BitVec 5
  a : Opnd
  off : BitVec 8
  deriving DecidableEq, Repr

/-- Form PW. -/
structure FPld where
  gd : Guard
  w : Bool
  d : BitVec 5
  a : Opnd
  win : BitVec 3
  off : BitVec 7
  deriving DecidableEq, Repr

/-- Form XM. -/
structure FXmov where
  gd : Guard
  w : Bool
  d : BitVec 5
  a : Opnd
  lane : BitVec 4
  dst : XFile
  src : XFile
  deriving DecidableEq, Repr

/-- Form SR. -/
structure FSR where
  gd : Guard
  w : Bool
  d : BitVec 5
  num : BitVec 12
  deriving DecidableEq, Repr

/-- Form SW. -/
structure FSW where
  gd : Guard
  d : BitVec 5
  num : BitVec 12
  deriving DecidableEq, Repr

/-- Form OA of LDA. -/
structure FLda where
  gd : Guard
  w : Bool
  d : BitVec 5
  a : Opnd
  scope : Scope
  size : OSize
  deriving DecidableEq, Repr

/-- Form OA of STL. -/
structure FStl where
  gd : Guard
  d : BitVec 5
  a : Opnd
  scope : Scope
  size : OSize
  deriving DecidableEq, Repr

/-- Form FN. -/
structure FFence where
  gd : Guard
  scope : Scope
  kind : FenceKind
  deriving DecidableEq, Repr

/-- Form PH. -/
structure FPhase where
  gd : Guard
  a : Opnd
  num : BitVec 8
  deriving DecidableEq, Repr

/-- TRAP of form CT. -/
structure FTrap where
  gd : Guard
  code : BitVec 8
  deriving DecidableEq, Repr

/-! ## Forms of the vector slots (R141) -/

/-- Form V3 with q of class `Q`. -/
structure FV3 (Q : Type) where
  gd : Guard
  w : Bool
  d : BitVec 5
  a : Opnd
  b : Opnd
  width : Width
  q : Q
  deriving DecidableEq, Repr

/-- Form V1 with q of class `Q`. -/
structure FV1 (Q : Type) where
  gd : Guard
  w : Bool
  d : BitVec 5
  a : Opnd
  width : Width
  q : Q
  deriving DecidableEq, Repr

/-- Form V1 with q fixed to 0b00. -/
structure FV1n where
  gd : Guard
  w : Bool
  d : BitVec 5
  a : Opnd
  width : Width
  deriving DecidableEq, Repr

/-- The push form of VMOV (R327). -/
structure FVpush where
  gd : Guard
  w : Bool
  d : BitVec 5
  a : Opnd
  port : BitVec 3
  width : Width
  deriving DecidableEq, Repr

/-- Form VC with condition `C` and q of class `Q`. -/
structure FVC (C Q : Type) where
  gd : Guard
  cond : C
  kd : BitVec 3
  a : Opnd
  b : Opnd
  width : Width
  q : Q
  deriving DecidableEq, Repr

/-- Form VK. -/
structure FVK where
  gd : Guard
  w : Bool
  d : BitVec 5
  a : Opnd
  k : BitVec 3
  width : Width
  deriving DecidableEq, Repr

/-- Form KL. For `.neg` and `.mov` kb is zero; for `.set` and `.clr` both are zero (R142). -/
structure FKL where
  gd : Guard
  kd : BitVec 3
  ka : BitVec 3
  kb : BitVec 3
  op : KlogOp
  deriving DecidableEq, Repr

/-- Form VF of VRED. -/
structure FRed where
  gd : Guard
  w : Bool
  d : BitVec 5
  a : Opnd
  op : RedOp
  width : Width
  deriving DecidableEq, Repr

/-- Form VF of VBCAST, VEXTR and VINS: a lane index of 0 to 63, which the entry bounds when it is executed (R158, R326). -/
structure FLane where
  gd : Guard
  w : Bool
  d : BitVec 5
  a : Opnd
  idx : BitVec 6
  width : Width
  q : LaneQ
  deriving DecidableEq, Repr

/-- Form VF of VCVT: neither format is RAW (R328). -/
structure FCvt where
  gd : Guard
  w : Bool
  d : BitVec 5
  a : Opnd
  src : Fmt
  dst : Fmt
  width : Width
  deriving DecidableEq, Repr

/-- Form VF of VPACK and VUNPK: a part and a fraction, whatever their values: the entry bounds them when it is executed (R158, R329). -/
structure FPack where
  gd : Guard
  w : Bool
  d : BitVec 5
  a : Opnd
  part : BitVec 3
  frac : BitVec 3
  width : Width
  deriving DecidableEq, Repr

/-- Form VM of VLD and VLDS. -/
structure FVld where
  gd : Guard
  w : Bool
  d : BitVec 5
  a : Opnd
  b : Opnd
  width : Width
  deriving DecidableEq, Repr

/-- Form VM of VST. -/
structure FVst where
  gd : Guard
  d : BitVec 5
  a : Opnd
  b : Opnd
  width : Width
  deriving DecidableEq, Repr

/-- Form VM of VSCATTER. -/
structure FScat where
  gd : Guard
  d : BitVec 5
  a : Opnd
  b : Opnd
  width : Width
  q : LaneQ
  deriving DecidableEq, Repr

/-- Form D with a destination of four bits and one operand. -/
structure FD1 where
  gd : Guard
  w : Bool
  d : BitVec 4
  a : Opnd
  chain : Chain
  deriving DecidableEq, Repr

/-- Form D with a destination and two operands. -/
structure FD2 where
  gd : Guard
  w : Bool
  d : BitVec 4
  a : Opnd
  b : Opnd
  chain : Chain
  deriving DecidableEq, Repr

/-- Form D of DNORM and DUNNORM: s chooses BF16 (R330). -/
structure FDN where
  gd : Guard
  w : Bool
  d : BitVec 4
  a : Opnd
  chain : Chain
  bf : Bool
  deriving DecidableEq, Repr

/-- Form D of DZERO. -/
structure FD0 where
  gd : Guard
  w : Bool
  d : BitVec 4
  chain : Chain
  deriving DecidableEq, Repr

/-- Form D of DNGET: the chain code is 0b000 (R336). -/
structure FDG where
  gd : Guard
  w : Bool
  d : BitVec 4
  a : Opnd
  deriving DecidableEq, Repr

/-- Form D of DMAXCOS (R340). -/
structure FDM where
  gd : Guard
  w : Bool
  d : BitVec 4
  a : Opnd
  port : BitVec 3
  chain : Chain
  acc : Bool
  deriving DecidableEq, Repr

/-! ## Forms of the engine slot (R143, R260) -/

/-- MCALL. -/
structure FMcall where
  gd : Guard
  idx : BitVec 8
  deriving DecidableEq, Repr

/-- RSET: a ring number in D. -/
structure FRset where
  gd : Guard
  ring : BitVec 4
  a : Opnd
  deriving DecidableEq, Repr

/-- An m destination and two operands. -/
structure FE2 where
  gd : Guard
  w : Bool
  md : BitVec 3
  a : Opnd
  b : Opnd
  deriving DecidableEq, Repr

/-- An m destination and one operand. -/
structure FE1 where
  gd : Guard
  w : Bool
  md : BitVec 3
  a : Opnd
  deriving DecidableEq, Repr

/-- RSTAT. -/
structure FRstat where
  gd : Guard
  w : Bool
  md : BitVec 3
  a : Opnd
  sel : RstatSel
  deriving DecidableEq, Repr

/-- A port number in D and one operand. -/
structure FPortA where
  gd : Guard
  port : BitVec 3
  a : Opnd
  deriving DecidableEq, Repr

/-- SUNBIND. -/
structure FPort where
  gd : Guard
  port : BitVec 3
  deriving DecidableEq, Repr

/-- COPY: D names the m register read as the destination. -/
structure FCopy where
  gd : Guard
  md : BitVec 3
  a : Opnd
  b : Opnd
  fill : Bool
  deriving DecidableEq, Repr

/-- RELEASE: D names the m register read as the offset. -/
structure FRel where
  gd : Guard
  md : BitVec 3
  a : Opnd
  b : Opnd
  deriving DecidableEq, Repr

/-- CSTAT. -/
structure FCstat where
  gd : Guard
  w : Bool
  md : BitVec 3
  sel : CstatSel
  deriving DecidableEq, Repr

/-- HWAIT.full and HWAIT.free. -/
structure FHwait where
  gd : Guard
  w : Bool
  md : BitVec 3
  a : Opnd
  sel : HwaitSel
  deriving DecidableEq, Repr

/-- RNDSTAT. -/
structure FRnd where
  gd : Guard
  w : Bool
  md : BitVec 3
  sel : RndSel
  deriving DecidableEq, Repr

/-- TRPUSH. -/
structure FTrpush where
  gd : Guard
  file : VFile
  r : BitVec 5
  deriving DecidableEq, Repr

/-- TRPULL. -/
structure FTrpull where
  gd : Guard
  w : Bool
  file : VFile
  r : BitVec 5
  deriving DecidableEq, Repr

/-! ## Micro-ops (R308) -/

/-- A count of ULOOP or HMRG: the field itself, or V0, V1 or V2 of m7 (SRC 1 to 3 name V(SRC − 1)). -/
inductive UCount (w : Nat) where
  | imm (n : BitVec w)
  | v0 | v1 | v2
  deriving DecidableEq, Repr

/-- Axes O, P0, P1 and P2 with codes 0 to 3 (R285, R308). -/
inductive Axis where
  | o | p0 | p1 | p2
  deriving DecidableEq, Repr

/-- Injection modes (R290). -/
inductive InjMode where
  | direct | spread | decim
  deriving DecidableEq, Repr

/-- Boundary modes of a face (R297). -/
inductive BMode where
  | clip | wrap | keep
  deriving DecidableEq, Repr

/-- Sources of DRNP (R303). The faces of a call are numbered 0 to 7. -/
inductive DrainSrc where
  | acc | op
  | halo (face : BitVec 3)
  | kept (face : BitVec 3)
  deriving DecidableEq, Repr

/-- STEP (R291, R293). -/
structure UStep where
  popx : Bool
  hold : Bool
  wring : BitVec 4
  deriving DecidableEq, Repr

/-- STEPH (R292). -/
structure UStepH where
  hold : Bool
  wring : BitVec 4
  deriving DecidableEq, Repr

/-- SLIDE (R295). `dil` and `taps` hold the value less one. -/
structure USlide where
  stride : BitVec 8
  popx : Bool
  adv : Bool
  neg : Bool
  dil : BitVec 3
  axis : Axis
  taps : BitVec 4
  wring : BitVec 4
  deriving DecidableEq, Repr

/-- SHIFT (R294). `mag` holds |δ| less one. -/
structure UShift where
  rot : Bool
  mag : BitVec 3
  neg : Bool
  op : Bool
  axis : Axis
  deriving DecidableEq, Repr

/-- INJ (R290). `n0`, `n1`, `n2` and `s` hold the value less one. -/
structure UInj where
  n2 : BitVec 10
  n1 : BitVec 10
  n0 : BitVec 10
  f2 : BitVec 9
  f1 : BitVec 9
  f0 : BitVec 9
  s : BitVec 3
  mode : InjMode
  xring : BitVec 4
  deriving DecidableEq, Repr

/-- LDP (R302). `tiles` holds the value less one. -/
structure ULdp where
  tiles : BitVec 12
  cell : BitVec 17
  op : Bool
  ring : BitVec 4
  deriving DecidableEq, Repr

/-- DRNP (R303). `tiles` holds the value less one. -/
structure UDrnp where
  tiles : BitVec 12
  cell : BitVec 18
  fill : Bool
  src : DrainSrc
  ring : BitVec 4
  deriving DecidableEq, Repr

/-- BNDM: the modes of faces 0 to 7 (R297). -/
structure UBndm where
  f0 : BMode
  f1 : BMode
  f2 : BMode
  f3 : BMode
  f4 : BMode
  f5 : BMode
  f6 : BMode
  f7 : BMode
  deriving DecidableEq, Repr

/-- UWAIT (R308). -/
inductive UWaitFor where
  | ring (r : BitVec 4) (n : BitVec 16)
  | cyc (n : BitVec 16)
  deriving DecidableEq, Repr

/-! ## Operands of events -/

/-- Units that count corrected errors (R436). A mesh link is named by its two nodes (R127). -/
inductive UnitName where
  | core (n : Nat) | slice (n : Nat) | port (n : Nat) | stack (n : Nat)
  | gateway (n : Nat) | link (a b : Nat) | engine (n : Nat)
  deriving DecidableEq, Repr

/-- A write that arrives at its home: a store of a context, by its number, or the next element of a copy (R250, R367). -/
inductive WriteRef where
  | store (id : Nat)
  | copyElem (core ctx ent : Nat)
  deriving DecidableEq, Repr

/-- A request answered by an error response (R434): a read, a write or an atomic by its number, the walk of an entry of a die's miss
table, a read of the running plane call of a core in a plane, the halo store or the microprogram store (R305), or the read of an
address for the result digest of the launch that a partition retires (R439). -/
inductive ErrRef where
  | read (id : Nat)
  | write (id : Nat)
  | atomic (id : Nat)
  | walk (die entry : Nat)
  | plane (core : Nat)
  | digest (part va : Nat)
  deriving DecidableEq, Repr

/-! ## The instructions -/

/-- Every instruction, micro-op and event of spec/opcode_table.json. -/
inductive Instr where
  | nop (f : FZ)
  | add (f : FS3)
  | sub (f : FS3)
  | mul (f : FS3)
  | mulh (f : FS3)
  | mulhu (f : FS3)
  | div (f : FS3)
  | divu (f : FS3)
  | rem (f : FS3)
  | remu (f : FS3)
  | and (f : FS3)
  | or (f : FS3)
  | xor (f : FS3)
  | andn (f : FS3)
  | shl (f : FS3)
  | shr (f : FS3)
  | sar (f : FS3)
  | min (f : FS3)
  | max (f : FS3)
  | minu (f : FS3)
  | maxu (f : FS3)
  | clz (f : FS2)
  | ctz (f : FS2)
  | popc (f : FS2)
  | sel (f : FSel)
  | addi (f : FSI)
  | andi (f : FSI)
  | ori (f : FSI)
  | xori (f : FSI)
  | shli (f : FSH)
  | shri (f : FSH)
  | sari (f : FSH)
  | movi (f : FSL)
  | movsh (f : FSL)
  | cmp (f : FPC)
  | plog (f : FPL)
  | br (f : FBR)
  | call (f : FBR)
  | calli (f : FA)
  | ret (f : FZ)
  | bswap (f : FBS)
  | ifence (f : FZ)
  | ld (f : FLd)
  | lds (f : FLd)
  | st (f : FSt)
  | ldfe (f : FLdfe)
  | stfe (f : FStfe)
  | pld (f : FPld)
  | xmov (f : FXmov)
  | sysr (f : FSR)
  | sysw (f : FSW)
  | setfmt (f : FA)
  | lda (f : FLda)
  | stl (f : FStl)
  | fence (f : FFence)
  | vsync (f : FZ)
  | aadd (f : FS3)
  | aand (f : FS3)
  | aor (f : FS3)
  | axor (f : FS3)
  | amin (f : FS3)
  | amax (f : FS3)
  | aminu (f : FS3)
  | amaxu (f : FS3)
  | aswap (f : FS3)
  | acas (f : FS3)
  | afadd (f : FAB)
  | axread (f : FS2)
  | axclr (f : FA)
  | gjoin (f : FA)
  | gleave (f : FA)
  | gbar (f : FA)
  | gquery (f : FS2)
  | snapadv (f : FAB)
  | phase (f : FPhase)
  | lblget (f : FS2)
  | lblraise (f : FAB)
  | trap (f : FTrap)
  | eret (f : FZ)
  | yield (f : FZ)
  | waite (f : FA)
  | haltctx (f : FZ)
  | dbgbrk (f : FZ)
  | vadd (f : FV3 FltQ)
  | vsub (f : FV3 FltQ)
  | vmul (f : FV3 FltQ)
  | vfma (f : FV3 FltQ)
  | vfms (f : FV3 FltQ)
  | vmin (f : FV3 FltQ)
  | vmax (f : FV3 FltQ)
  | vabs (f : FV1 FltQ)
  | vneg (f : FV1 FltQ)
  | vrcp (f : FV1n)
  | vrsq (f : FV1n)
  | vsqrt (f : FV1n)
  | vexp2 (f : FV1n)
  | vlog2 (f : FV1n)
  | vcmp (f : FVC VCond FltQ)
  | viadd (f : FV3 IntQ)
  | visub (f : FV3 IntQ)
  | vimul (f : FV3 IntQ)
  | vimad (f : FV3 IntQ)
  | vimin (f : FV3 IntQ)
  | vimax (f : FV3 IntQ)
  | vicmp (f : FVC VICond IntQ)
  | vand (f : FV3 LaneQ)
  | vor (f : FV3 LaneQ)
  | vxor (f : FV3 LaneQ)
  | vandn (f : FV3 LaneQ)
  | vshl (f : FV3 LaneQ)
  | vshr (f : FV3 LaneQ)
  | vsar (f : FV3 LaneQ)
  | vmrg (f : FVK)
  | vred (f : FRed)
  | vperm (f : FV3 LaneQ)
  | vbcast (f : FLane)
  | vextr (f : FLane)
  | vins (f : FLane)
  | vcvt (f : FCvt)
  | vpack (f : FPack)
  | vunpk (f : FPack)
  | vmov (f : FV1n)
  | vmovPush (f : FVpush)
  | klog (f : FKL)
  | vld (f : FVld)
  | vst (f : FVst)
  | vlds (f : FVld)
  | vgather (f : FV3 LaneQ)
  | vscatter (f : FScat)
  | dnorm (f : FDN)
  | dunnorm (f : FDN)
  | dmov (f : FD1)
  | dmovRaw (f : FD1)
  | dzero (f : FD0)
  | ddot (f : FD2)
  | dscale (f : FD2)
  | dadd (f : FD2)
  | dsub (f : FD2)
  | dneg (f : FD1)
  | dmul (f : FD2)
  | dmaxcos (f : FDM)
  | dnget (f : FDG)
  | dnset (f : FD2)
  | mload (f : FAB)
  | mcall (f : FMcall)
  | rset (f : FRset)
  | rpush (f : FE2)
  | rstat (f : FRstat)
  | sbind (f : FPortA)
  | sunbind (f : FPort)
  | scfgSeek (f : FPortA)
  | scfgRep (f : FPortA)
  | crec (f : FAB)
  | copy (f : FCopy)
  | cresumePatch (f : FZ)
  | cresumeRetry (f : FZ)
  | cresumeSkip (f : FZ)
  | cstat (f : FCstat)
  | hset (f : FAB)
  | hwait (f : FHwait)
  | hwaitClaim (f : FE1)
  | hquery (f : FE1)
  | trcfg (f : FA)
  | trpush (f : FTrpush)
  | trpull (f : FTrpull)
  | bclear (f : FAB)
  | release (f : FRel)
  | publish (f : FA)
  | rndseek (f : FA)
  | rndstat (f : FRnd)
  | step (u : UStep)
  | steph (u : UStepH)
  | slide (u : USlide)
  | shift (u : UShift)
  | inj (u : UInj)
  | clrp (op : Bool)
  | ldp (u : ULdp)
  | drnp (u : UDrnp)
  | hexp
  | hmrg (n : UCount 5)
  | bndm (u : UBndm)
  | uloop (n : UCount 12)
  | uend
  | uwait (u : UWaitFor)
  | uret
  | planeCallStart (core : Nat)
  | haloGrant (core : Nat)
  | haloArrival (core inbox : Nat)
  | notify (fn : Nat) (value : Word)
  | queueEnable (fn : Nat) (value : Word)
  | teardown (fn : Nat) (value : Word)
  | teardownAbort (fn : Nat) (value : Word)
  | objset (fn : Nat) (value : Word)
  | ephconsWrite (fn : Nat) (value : Word)
  | loglimitWrite (fn : Nat) (value : Word)
  | logprodWrite (fn : Nat) (value : Word)
  | registerWrite (fn off : Nat) (value : Word)
  | packetAccept (queue : Nat) (readOk : Bool)
  | placeAndLoad (part : Nat)
  | contextRetirement (core ctx : Nat)
  | launchRetirement (part : Nat)
  | ephemerisRecordWrite (part : Nat)
  | tenantPreemptionSave (part : Nat)
  | resultWriteback (core ctx : Nat)
  | fmtTakesEffect (core ctx : Nat)
  | pendingResultLands (id : Nat)
  | trapDelivery (core ctx : Nat)
  | terminalTrap (core ctx : Nat)
  | contextPreemption (core ctx : Nat)
  | contextResume (core ctx : Nat)
  | copyBegin (core : Nat)
  | copyComplete (core ctx ent : Nat)
  | copyElementFault (core ctx ent : Nat) (uncorrectable : Option Bool)
  | ringTailAdvance (core ring : Nat)
  | streamReadahead (core gen : Nat)
  | streamPushWrite (core gen : Nat)
  | transposeColumnReady (core : Nat)
  | randomVectorProduce (core : Nat)
  | walkStart (die : Nat)
  | walkComplete (die entry : Nat)
  | homeWrite (w : WriteRef)
  | remoteWriteApply (die id : Nat)
  | replicaUpdate (die line : Nat)
  | homeReadService (id : Nat) (atReplica keep : Bool)
  | writeAcknowledge (id : Nat)
  | errorResponse (r : ErrRef)
  | fullEmptyService (core granule : Nat)
  | atomicService (engine : Nat)
  | atomicRetryTimeout (id : Nat)
  | atomicAck (id : Nat)
  | serialiserStamp
  | vsyncComplete (core ctx : Nat)
  | groupRequestApply
  | snapadvComplete (core ctx : Nat)
  | releaseGateDecision
  | publishVersionWrite (core ctx ent : Nat)
  | objectAnswerDelivery (core object : Nat)
  | installDescriptor (fn : Nat)
  | writePageTableEntries (fn : Nat)
  | rangeEntries (fn : Nat)
  | egressWindow (fn : Nat)
  | publicationWindow (fn : Nat)
  | releasePolicy (fn : Nat)
  | resetPartitionRequest (fn : Nat)
  | readManifest (fn : Nat)
  | attest (fn : Nat)
  | debugAttach (fn : Nat)
  | debugHalt (fn core : Nat)
  | debugResume (fn core : Nat)
  | debugPreemptContext (fn core ctx : Nat)
  | debugStateRead (fn core ctx num : Nat)
  | readFaultRegisters (fn : Nat)
  | readHarvestMap (fn : Nat)
  | mailboxResponse (fn : Nat)
  | functionLevelReset (fn : Nat)
  | meshRoutesInstalled
  | moduleReset (failed : List UnitName)
  | linkRetrainOrDrop (link : Nat) (drop : Bool)
  | peerPortTrained (port : Nat)
  | peerPortTrainingLoss (port : Nat)
  | powerWindowEnd (milliwatts : List Nat)
  | frequencyChange (part : Nat)
  | islandOvertemp (island : Nat)
  | islandCooled (part : Nat)
  | thermalTrip
  | correctableError (u : UnitName)
  | errorWindowEnd
  | unlistedMailboxOpcode (fn : Nat)
  deriving DecidableEq, Repr

end Sys2Proof
end

