-- ==== Sys2Proof/WellFormed.lean ====
section
/-! DEFINITION. Which instructions have an encoding: the operand codes each entry accepts and the limits of its fields
(R136, R140, R142, R257, R260, R280, R308, R311, R326, R329, R330). -/

namespace Sys2Proof

/-- Operands of slot 0: a register, a latch or zero (R178). -/
def Opnd.okS : Opnd → Bool
  | .reg _ | .latch _ | .zero => true
  | _ => false

/-- Operands of slot 3: m0 to m7, a latch, zero or EXT (R257). -/
def Opnd.okE : Opnd → Bool
  | .reg n => decide (n.toNat < 8)
  | .latch _ | .zero | .ext => true
  | _ => false

/-- Base operands of vector memory (R280). -/
def Opnd.okM : Opnd → Bool
  | .reg _ | .latch _ | .zero => true
  | _ => false

/-- Offset operands of VLD, VST and VLDS (R280). -/
def Opnd.okMx : Opnd → Bool
  | .reg _ | .latch _ | .zero | .ext => true
  | _ => false

/-- A direction operand: d0 to d15, or zero (R330). -/
def Opnd.okD : Opnd → Bool
  | .reg n => decide (n.toNat < 16)
  | .zero => true
  | _ => false

/-- A y-chain operand (R330). -/
def Opnd.okYc : Opnd → Bool
  | .reg _ => true
  | _ => false

/-- A direction register operand of DNGET. -/
def Opnd.okYo : Opnd → Bool
  | .reg _ | .latch _ | .zero | .ext => true
  | _ => false

/-- Operands of XMOV: a register or zero (R204). -/
def Opnd.okX : Opnd → Bool
  | .reg _ | .zero => true
  | _ => false

/-- Lane groups of a width code (R138). -/
def Width.groups : Width → Nat
  | .w256 => 1 | .w512 => 2 | .w1024 => 4

/-- Whether a register of the file has 1,024 bits. -/
def XFile.wide : XFile → Bool
  | .s | .m => false
  | .x | .y => true

/-- The m-register limit of XMOV (R140). -/
def FXmov.mOk (f : FXmov) : Bool :=
  (f.dst != .m || decide (f.d.toNat < 8)) &&
    (match f.src, f.a with | .m, .reg n => decide (n.toNat < 8) | _, _ => true)

/-- XMOV's rules on files, m registers and the lane field (R140, R204). -/
def FXmov.ok (f : FXmov) : Bool :=
  f.a.okX && f.dst != f.src && f.mOk && (f.dst.wide != f.src.wide || f.lane == 0)

/-- Neither format is RAW (R328). -/
def FCvt.ok (f : FCvt) : Bool := f.src != .raw && f.dst != .raw

/-- A PLOG of one operand has pb zero (R154). -/
def FPL.ok (f : FPL) : Bool :=
  match f.op with
  | .neg | .mov => f.pb == 0
  | _ => true

/-- The unused masks of KLOG are zero (R142). -/
def FKL.ok (f : FKL) : Bool :=
  match f.op with
  | .neg | .mov => f.kb == 0
  | .set | .clr => f.ka == 0 && f.kb == 0
  | _ => true

/-- Whether an instruction has an encoding. Events have no encoding and no field that could be ill-formed. -/
def Instr.wf : Instr → Bool
  | .nop _ => true
  | .add f => f.a.okS && f.b.okS
  | .sub f => f.a.okS && f.b.okS
  | .mul f => f.a.okS && f.b.okS
  | .mulh f => f.a.okS && f.b.okS
  | .mulhu f => f.a.okS && f.b.okS
  | .div f => f.a.okS && f.b.okS
  | .divu f => f.a.okS && f.b.okS
  | .rem f => f.a.okS && f.b.okS
  | .remu f => f.a.okS && f.b.okS
  | .and f => f.a.okS && f.b.okS
  | .or f => f.a.okS && f.b.okS
  | .xor f => f.a.okS && f.b.okS
  | .andn f => f.a.okS && f.b.okS
  | .shl f => f.a.okS && f.b.okS
  | .shr f => f.a.okS && f.b.okS
  | .sar f => f.a.okS && f.b.okS
  | .min f => f.a.okS && f.b.okS
  | .max f => f.a.okS && f.b.okS
  | .minu f => f.a.okS && f.b.okS
  | .maxu f => f.a.okS && f.b.okS
  | .clz f => f.a.okS
  | .ctz f => f.a.okS
  | .popc f => f.a.okS
  | .sel f => f.a.okS && f.b.okS
  | .addi f => f.a.okS
  | .andi f => f.a.okS
  | .ori f => f.a.okS
  | .xori f => f.a.okS
  | .shli f => f.a.okS
  | .shri f => f.a.okS
  | .sari f => f.a.okS
  | .movi _ => true
  | .movsh _ => true
  | .cmp f => f.a.okS && f.b.okS
  | .plog f => f.ok
  | .br _ => true
  | .call _ => true
  | .calli f => f.a.okS
  | .ret _ => true
  | .bswap _ => true
  | .ifence _ => true
  | .ld f => f.a.okS
  | .lds f => f.a.okS && f.size != .b8
  | .st f => f.a.okS
  | .ldfe f => f.a.okS
  | .stfe f => f.a.okS
  | .pld f => f.a.okS
  | .xmov f => f.ok
  | .sysr _ => true
  | .sysw _ => true
  | .setfmt f => f.a.okS
  | .lda f => f.a.okS
  | .stl f => f.a.okS
  | .fence _ => true
  | .vsync _ => true
  | .aadd f => f.a.okS && f.b.okS
  | .aand f => f.a.okS && f.b.okS
  | .aor f => f.a.okS && f.b.okS
  | .axor f => f.a.okS && f.b.okS
  | .amin f => f.a.okS && f.b.okS
  | .amax f => f.a.okS && f.b.okS
  | .aminu f => f.a.okS && f.b.okS
  | .amaxu f => f.a.okS && f.b.okS
  | .aswap f => f.a.okS && f.b.okS
  | .acas f => f.a.okS && f.b.okS
  | .afadd f => f.a.okS && f.b.okS
  | .axread f => f.a.okS
  | .axclr f => f.a.okS
  | .gjoin f => f.a.okS
  | .gleave f => f.a.okS
  | .gbar f => f.a.okS
  | .gquery f => f.a.okS
  | .snapadv f => f.a.okS && f.b.okS
  | .phase f => f.a.okS
  | .lblget f => f.a.okS
  | .lblraise f => f.a.okS && f.b.okS
  | .trap _ => true
  | .eret _ => true
  | .yield _ => true
  | .waite f => f.a.okS
  | .haltctx _ => true
  | .dbgbrk _ => true
  | .vadd _ => true
  | .vsub _ => true
  | .vmul _ => true
  | .vfma _ => true
  | .vfms _ => true
  | .vmin _ => true
  | .vmax _ => true
  | .vabs _ => true
  | .vneg _ => true
  | .vrcp _ => true
  | .vrsq _ => true
  | .vsqrt _ => true
  | .vexp2 _ => true
  | .vlog2 _ => true
  | .vcmp _ => true
  | .viadd _ => true
  | .visub _ => true
  | .vimul _ => true
  | .vimad _ => true
  | .vimin _ => true
  | .vimax _ => true
  | .vicmp _ => true
  | .vand _ => true
  | .vor _ => true
  | .vxor _ => true
  | .vandn _ => true
  | .vshl _ => true
  | .vshr _ => true
  | .vsar _ => true
  | .vmrg _ => true
  | .vred _ => true
  | .vperm _ => true
  | .vbcast _ => true
  | .vextr _ => true
  | .vins _ => true
  | .vcvt f => f.ok
  | .vpack _ => true
  | .vunpk _ => true
  | .vmov _ => true
  | .vmovPush _ => true
  | .klog f => f.ok
  | .vld f => f.a.okM && f.b.okMx
  | .vst f => f.a.okM && f.b.okMx
  | .vlds f => f.a.okM && f.b.okMx
  | .vgather f => f.a.okM && f.b.okM
  | .vscatter f => f.a.okM && f.b.okM
  | .dnorm f => f.a.okYc
  | .dunnorm f => f.a.okD
  | .dmov f => f.a.okD
  | .dmovRaw f => f.a.okD
  | .dzero _ => true
  | .ddot f => f.a.okD && f.b.okD
  | .dscale f => f.a.okD && f.b.okYo
  | .dadd f => f.a.okD && f.b.okD
  | .dsub f => f.a.okD && f.b.okD
  | .dneg f => f.a.okD
  | .dmul f => f.a.okD && f.b.okD
  | .dmaxcos f => f.a.okD
  | .dnget f => f.a.okD
  | .dnset f => f.a.okD && f.b.okYo
  | .mload f => f.a.okE && f.b.okE
  | .mcall _ => true
  | .rset f => f.a.okE
  | .rpush f => f.a.okE && f.b.okE
  | .rstat f => f.a.okE
  | .sbind f => f.a.okE
  | .sunbind _ => true
  | .scfgSeek f => f.a.okE
  | .scfgRep f => f.a.okE
  | .crec f => f.a.okE && f.b.okE
  | .copy f => f.a.okE && f.b.okE
  | .cresumePatch _ => true
  | .cresumeRetry _ => true
  | .cresumeSkip _ => true
  | .cstat _ => true
  | .hset f => f.a.okE && f.b.okE
  | .hwait f => f.a.okE
  | .hwaitClaim f => f.a.okE
  | .hquery f => f.a.okE
  | .trcfg f => f.a.okE
  | .trpush _ => true
  | .trpull _ => true
  | .bclear f => f.a.okE && f.b.okE
  | .release f => f.a.okE && f.b.okE
  | .publish f => f.a.okE
  | .rndseek f => f.a.okE
  | .rndstat _ => true
  | .step _ => true
  | .steph _ => true
  | .slide _ => true
  | .shift u => !u.rot || u.op
  | .inj _ => true
  | .clrp _ => true
  | .ldp _ => true
  | .drnp _ => true
  | .hexp => true
  | .hmrg n => match n with | .imm k => decide (k.toNat ≤ 16) | _ => true
  | .bndm _ => true
  | .uloop _ => true
  | .uend => true
  | .uwait _ => true
  | .uret => true
  | .planeCallStart _ => true
  | .haloGrant _ => true
  | .haloArrival _ _ => true
  | .notify _ _ => true
  | .queueEnable _ _ => true
  | .teardown _ _ => true
  | .teardownAbort _ _ => true
  | .objset _ _ => true
  | .ephconsWrite _ _ => true
  | .loglimitWrite _ _ => true
  | .logprodWrite _ _ => true
  | .registerWrite _ _ _ => true
  | .packetAccept _ _ => true
  | .placeAndLoad _ => true
  | .contextRetirement _ _ => true
  | .launchRetirement _ => true
  | .ephemerisRecordWrite _ => true
  | .tenantPreemptionSave _ => true
  | .resultWriteback _ _ => true
  | .fmtTakesEffect _ _ => true
  | .pendingResultLands _ => true
  | .trapDelivery _ _ => true
  | .terminalTrap _ _ => true
  | .contextPreemption _ _ => true
  | .contextResume _ _ => true
  | .copyBegin _ => true
  | .copyComplete _ _ _ => true
  | .copyElementFault _ _ _ _ => true
  | .ringTailAdvance _ _ => true
  | .streamReadahead _ _ => true
  | .streamPushWrite _ _ => true
  | .transposeColumnReady _ => true
  | .randomVectorProduce _ => true
  | .walkStart _ => true
  | .walkComplete _ _ => true
  | .homeWrite _ => true
  | .remoteWriteApply _ _ => true
  | .replicaUpdate _ _ => true
  | .homeReadService _ _ _ => true
  | .writeAcknowledge _ => true
  | .errorResponse _ => true
  | .fullEmptyService _ _ => true
  | .atomicService _ => true
  | .atomicRetryTimeout _ => true
  | .atomicAck _ => true
  | .serialiserStamp => true
  | .vsyncComplete _ _ => true
  | .groupRequestApply => true
  | .snapadvComplete _ _ => true
  | .releaseGateDecision => true
  | .publishVersionWrite _ _ _ => true
  | .objectAnswerDelivery _ _ => true
  | .installDescriptor _ => true
  | .writePageTableEntries _ => true
  | .rangeEntries _ => true
  | .egressWindow _ => true
  | .publicationWindow _ => true
  | .releasePolicy _ => true
  | .resetPartitionRequest _ => true
  | .readManifest _ => true
  | .attest _ => true
  | .debugAttach _ => true
  | .debugHalt _ _ => true
  | .debugResume _ _ => true
  | .debugPreemptContext _ _ _ => true
  | .debugStateRead _ _ _ _ => true
  | .readFaultRegisters _ => true
  | .readHarvestMap _ => true
  | .mailboxResponse _ => true
  | .functionLevelReset _ => true
  | .meshRoutesInstalled => true
  | .moduleReset _ => true
  | .linkRetrainOrDrop _ _ => true
  | .peerPortTrained _ => true
  | .peerPortTrainingLoss _ => true
  | .powerWindowEnd _ => true
  | .frequencyChange _ => true
  | .islandOvertemp _ => true
  | .islandCooled _ => true
  | .thermalTrip => true
  | .correctableError _ => true
  | .errorWindowEnd => true
  | .unlistedMailboxOpcode _ => true

end Sys2Proof
end

