-- ==== Sys2Proof/Decode.lean ====
section
/-! DEFINITION. Decoding of slots, bundles and micro-words (R131 to R158, R308), total on any bits, and the encoder written
from the same tables. A word that is no instruction is refused with the class of R158. -/

namespace Sys2Proof

/-- Why an encoding is no instruction: the row of R158 that it meets, named by the load error. At run time each raises
ILLEGAL. -/
inductive BadCode where
  /-- E_OPCODE: an unassigned major, a subfield value not listed, or an operand code not accepted. -/
  | opcode
  /-- E_RESERVED: a reserved field is not zero, or an index is outside its field's range. -/
  | reserved
  /-- E_LANES: width code 0b11. -/
  | lanes
  deriving DecidableEq, Repr

/-- The result of decoding. -/
abbrev Dec := Except BadCode

/-! ## Fields of a slot (R133) -/

def fMajor (w : BitVec 32) : BitVec 6 := w.extractLsb' 26 6
def fGuard (w : BitVec 32) : Guard := { g := w.extractLsb' 23 3, inv := w.getLsbD 22 }
def fW (w : BitVec 32) : Bool := w.getLsbD 21
def fD (w : BitVec 32) : BitVec 5 := w.extractLsb' 16 5
def fA (w : BitVec 32) : BitVec 6 := w.extractLsb' 10 6
def fB (w : BitVec 32) : BitVec 6 := w.extractLsb' 4 6
def fMinor (w : BitVec 32) : BitVec 4 := w.extractLsb' 0 4

/-- Demands a condition, or refuses with the class given. -/
def need (c : Bool) (e : BadCode) : Dec Unit := if c then .ok () else .error e

/-- Demands that a reserved field is zero (R9). -/
def zeroField {n : Nat} (v : BitVec n) : Dec Unit := need (v == 0) .reserved

/-- The operand that a code names (R136). -/
def decOpnd (c : BitVec 6) : Option Opnd :=
  if c.toNat < 32 then some (.reg (c.extractLsb' 0 5))
  else if c.toNat < 36 then some (.latch (c.extractLsb' 0 2))
  else if c.toNat < 44 then some (.port ((c - 36).extractLsb' 0 3))
  else if c.toNat = 44 then some .rnd
  else if c.toNat = 45 then some .zero
  else if c.toNat = 63 then some .ext
  else none

/-- An operand that the entry accepts, or E_OPCODE (R158). -/
def opnd (ok : Opnd → Bool) (c : BitVec 6) : Dec Opnd :=
  match decOpnd c with
  | some o => if ok o then .ok o else .error .opcode
  | none => .error .opcode

/-- Every operand of R136. -/
def anyOpnd (_ : Opnd) : Bool := true

/-- A width code (R138). -/
def decWidth (c : BitVec 2) : Dec Width :=
  match c.toNat with
  | 0 => .ok .w256 | 1 => .ok .w512 | 2 => .ok .w1024 | _ => .error .lanes

def decFltQ (c : BitVec 2) : Dec FltQ :=
  match c.toNat with
  | 0 => .ok .f32 | 1 => .ok .f16 | 2 => .ok .bf16 | _ => .error .opcode

def decIntQ (c : BitVec 2) : Dec IntQ :=
  match c.toNat with
  | 0 => .ok .i32 | 1 => .ok .i8 | _ => .error .opcode

def decLaneQ (c : BitVec 2) : Dec LaneQ :=
  match c.toNat with
  | 0 => .ok .b32 | 1 => .ok .b8 | 2 => .ok .b16 | _ => .ok .b64

def decNoQ (c : BitVec 2) : Dec Unit := need (c == 0) .opcode

def decMSize (c : BitVec 2) : MSize :=
  match c.toNat with
  | 0 => .b1 | 1 => .b2 | 2 => .b4 | _ => .b8

def decOSize (c : BitVec 2) : Dec OSize :=
  match c.toNat with
  | 2 => .ok .b4 | 3 => .ok .b8 | _ => .error .opcode

def decScope (c : BitVec 3) : Dec Scope :=
  match c.toNat with
  | 0 => .ok .core | 1 => .ok .clu | 2 => .ok .die | 3 => .ok .dev | 4 => .ok .sys | _ => .error .opcode

def decFenceKind (c : BitVec 2) : Dec FenceKind :=
  match c.toNat with
  | 1 => .ok .acq | 2 => .ok .rel | 3 => .ok .full | _ => .error .opcode

def decCombine (c : BitVec 2) : Dec Combine :=
  match c.toNat with
  | 0 => .ok .write | 1 => .ok .conj | 2 => .ok .disj | _ => .error .opcode

def decCond (c : BitVec 4) : Dec Cond :=
  match c.toNat with
  | 0 => .ok .eq | 1 => .ok .ne | 2 => .ok .lt | 3 => .ok .le | 4 => .ok .gt | 5 => .ok .ge
  | 6 => .ok .ltu | 7 => .ok .leu | 8 => .ok .gtu | 9 => .ok .geu | _ => .error .opcode

def decPlogOp (c : BitVec 4) : Dec PlogOp :=
  match c.toNat with
  | 0 => .ok .conj | 1 => .ok .disj | 2 => .ok .xor | 3 => .ok .andn | 4 => .ok .orn
  | 5 => .ok .neg | 6 => .ok .mov | _ => .error .opcode

def decXFile (c : BitVec 2) : XFile :=
  match c.toNat with
  | 0 => .s | 1 => .x | 2 => .y | _ => .m

def decVCond (c : BitVec 2) : VCond :=
  match c.toNat with
  | 0 => .eq | 1 => .lt | 2 => .le | _ => .un

def decVICond (c : BitVec 2) : VICond :=
  match c.toNat with
  | 0 => .eq | 1 => .lt | 2 => .le | _ => .ltu

def decKlogOp (c : BitVec 4) : Dec KlogOp :=
  match c.toNat with
  | 0 => .ok .conj | 1 => .ok .disj | 2 => .ok .xor | 3 => .ok .andn | 4 => .ok .neg | 5 => .ok .mov
  | 6 => .ok .set | 7 => .ok .clr | _ => .error .opcode

def decFmt (c : BitVec 3) : Fmt :=
  match c.toNat with
  | 0 => .f32 | 1 => .f16 | 2 => .bf16 | 3 => .f8e4 | 4 => .f8e5 | 5 => .i8 | 6 => .i32 | _ => .raw

def decChain (c : BitVec 3) : Dec Chain :=
  match c.toNat with
  | 0 => .ok .c1 | 1 => .ok .c2 | 2 => .ok .c4 | 3 => .ok .c8 | 4 => .ok .c16 | _ => .error .opcode

/-- The reduction of VRED: an op code and a q of its class (R324). Op codes 6 and 7 are opcode errors (DEDUCED: log entry 7). -/
def decRedOp (op : BitVec 3) (q : BitVec 2) : Dec RedOp :=
  match op.toNat with
  | 0 => (decFltQ q).map .add | 1 => (decFltQ q).map .min | 2 => (decFltQ q).map .max
  | 3 => (decIntQ q).map .iadd | 4 => (decIntQ q).map .imin | 5 => (decIntQ q).map .imax
  | _ => .error .opcode

/-! ## Slot 0 (R139, R153, R154) -/

def dZ (w : BitVec 32) (k : FZ → Instr) : Dec Instr := do
  zeroField (w.extractLsb' 0 22)
  return k { gd := fGuard w }

def dS3 (w : BitVec 32) (k : FS3 → Instr) : Dec Instr := do
  let a ← opnd Opnd.okS (fA w)
  let b ← opnd Opnd.okS (fB w)
  return k { gd := fGuard w, w := fW w, d := fD w, a := a, b := b }

/-- Form S3 of a major whose sub is zero (R154). -/
def dS3z (w : BitVec 32) (k : FS3 → Instr) : Dec Instr := do
  need (fMinor w == 0) .opcode
  dS3 w k

def dS2 (w : BitVec 32) (k : FS2 → Instr) : Dec Instr := do
  let a ← opnd Opnd.okS (fA w)
  zeroField (fB w)
  return k { gd := fGuard w, w := fW w, d := fD w, a := a }

/-- Form S3 without destination: A alone. -/
def dA (w : BitVec 32) (k : FA → Instr) : Dec Instr := do
  let a ← opnd Opnd.okS (fA w)
  zeroField (w.extractLsb' 16 6)
  zeroField (fB w)
  return k { gd := fGuard w, a := a }

/-- Form S3 without destination: A and B. -/
def dAB (w : BitVec 32) (k : FAB → Instr) : Dec Instr := do
  let a ← opnd Opnd.okS (fA w)
  let b ← opnd Opnd.okS (fB w)
  zeroField (w.extractLsb' 16 6)
  return k { gd := fGuard w, a := a, b := b }

/-- Form CI. -/
def dCI (w : BitVec 32) (k : FA → Instr) : Dec Instr := do
  let a ← opnd Opnd.okS (fA w)
  zeroField (w.extractLsb' 16 6)
  zeroField (w.extractLsb' 0 10)
  return k { gd := fGuard w, a := a }

def dSel (w : BitVec 32) : Dec Instr := do
  let a ← opnd Opnd.okS (fA w)
  let b ← opnd Opnd.okS (fB w)
  zeroField (w.extractLsb' 3 1)
  return .sel { gd := fGuard w, w := fW w, d := fD w, a := a, b := b, n := w.extractLsb' 0 3 }

def dSI (w : BitVec 32) (k : FSI → Instr) : Dec Instr := do
  let a ← opnd Opnd.okS (fA w)
  return k { gd := fGuard w, w := fW w, d := fD w, a := a, imm := w.extractLsb' 0 10 }

def dSH (w : BitVec 32) : Dec Instr := do
  let k ← (match (w.extractLsb' 8 2).toNat with
    | 0 => .ok Instr.shli | 1 => .ok Instr.shri | 2 => .ok Instr.sari | _ => .error .opcode : Dec (FSH → Instr))
  let a ← opnd Opnd.okS (fA w)
  zeroField (w.extractLsb' 6 2)
  return k { gd := fGuard w, w := fW w, d := fD w, a := a, amount := w.extractLsb' 0 6 }

def dSL (w : BitVec 32) (k : FSL → Instr) : Dec Instr :=
  .ok (k { gd := fGuard w, w := fW w, d := fD w, imm := w.extractLsb' 0 16 })

def dPC (w : BitVec 32) : Dec Instr := do
  let comb ← decCombine (w.extractLsb' 19 2)
  let cond ← decCond (fMinor w)
  let a ← opnd Opnd.okS (fA w)
  let b ← opnd Opnd.okS (fB w)
  zeroField (w.extractLsb' 21 1)
  return .cmp { gd := fGuard w, comb := comb, pd := w.extractLsb' 16 3, a := a, b := b, cond := cond }

def dPL (w : BitVec 32) : Dec Instr := do
  let op ← decPlogOp (fMinor w)
  let f : FPL := { gd := fGuard w, pd := w.extractLsb' 16 3, pa := w.extractLsb' 10 3, pb := w.extractLsb' 4 3, op := op }
  zeroField (w.extractLsb' 19 3)
  zeroField (w.extractLsb' 13 3)
  zeroField (w.extractLsb' 7 3)
  need f.ok .reserved
  return .plog f

def dBR (w : BitVec 32) (k : FBR → Instr) : Dec Instr := do
  zeroField (w.extractLsb' 21 1)
  return k { gd := fGuard w, disp := w.extractLsb' 0 21 }

def dBS (w : BitVec 32) : Dec Instr := do
  zeroField (w.extractLsb' 14 8)
  return .bswap { gd := fGuard w, idx := w.extractLsb' 0 14 }

def dLd (w : BitVec 32) (signed : Bool) (k : FLd → Instr) : Dec Instr := do
  let a ← opnd Opnd.okS (fA w)
  let size := decMSize (w.extractLsb' 8 2)
  need (!(signed && size == .b8)) .opcode
  return k { gd := fGuard w, w := fW w, d := fD w, a := a, size := size, off := w.extractLsb' 0 8 }

def dSt (w : BitVec 32) : Dec Instr := do
  let a ← opnd Opnd.okS (fA w)
  zeroField (w.extractLsb' 21 1)
  return .st { gd := fGuard w, d := fD w, a := a, size := decMSize (w.extractLsb' 8 2), off := w.extractLsb' 0 8 }

def dLdfe (w : BitVec 32) : Dec Instr := do
  let a ← opnd Opnd.okS (fA w)
  zeroField (w.extractLsb' 8 1)
  return .ldfe { gd := fGuard w, w := fW w, d := fD w, a := a, clr := w.getLsbD 9, off := w.extractLsb' 0 8 }

def dStfe (w : BitVec 32) : Dec Instr := do
  let a ← opnd Opnd.okS (fA w)
  zeroField (w.extractLsb' 21 1)
  zeroField (w.extractLsb' 8 2)
  return .stfe { gd := fGuard w, d := fD w, a := a, off := w.extractLsb' 0 8 }

def dPld (w : BitVec 32) : Dec Instr := do
  let a ← opnd Opnd.okS (fA w)
  return .pld { gd := fGuard w, w := fW w, d := fD w, a := a, win := w.extractLsb' 7 3, off := w.extractLsb' 0 7 }

def dXmov (w : BitVec 32) : Dec Instr := do
  let a ← opnd Opnd.okX (fA w)
  let f : FXmov :=
    { gd := fGuard w, w := fW w, d := fD w, a := a, lane := w.extractLsb' 6 4,
      dst := decXFile (w.extractLsb' 2 2), src := decXFile (w.extractLsb' 0 2) }
  need (f.dst != f.src) .opcode
  zeroField (w.extractLsb' 4 2)
  need f.ok .reserved
  return .xmov f

def dSR (w : BitVec 32) : Dec Instr := do
  zeroField (w.extractLsb' 12 4)
  return .sysr { gd := fGuard w, w := fW w, d := fD w, num := w.extractLsb' 0 12 }

def dSW (w : BitVec 32) : Dec Instr := do
  zeroField (w.extractLsb' 21 1)
  zeroField (w.extractLsb' 12 4)
  return .sysw { gd := fGuard w, d := fD w, num := w.extractLsb' 0 12 }

def dLda (w : BitVec 32) : Dec Instr := do
  let scope ← decScope (w.extractLsb' 7 3)
  let size ← decOSize (w.extractLsb' 2 2)
  let a ← opnd Opnd.okS (fA w)
  zeroField (w.extractLsb' 4 3)
  zeroField (w.extractLsb' 0 2)
  return .lda { gd := fGuard w, w := fW w, d := fD w, a := a, scope := scope, size := size }

def dStl (w : BitVec 32) : Dec Instr := do
  let scope ← decScope (w.extractLsb' 7 3)
  let size ← decOSize (w.extractLsb' 2 2)
  let a ← opnd Opnd.okS (fA w)
  zeroField (w.extractLsb' 21 1)
  zeroField (w.extractLsb' 4 3)
  zeroField (w.extractLsb' 0 2)
  return .stl { gd := fGuard w, d := fD w, a := a, scope := scope, size := size }

def dFence (w : BitVec 32) : Dec Instr := do
  let scope ← decScope (w.extractLsb' 7 3)
  let kind ← decFenceKind (w.extractLsb' 0 2)
  zeroField (w.extractLsb' 10 12)
  zeroField (w.extractLsb' 2 5)
  return .fence { gd := fGuard w, scope := scope, kind := kind }

def dPhase (w : BitVec 32) : Dec Instr := do
  let a ← opnd Opnd.okS (fA w)
  zeroField (w.extractLsb' 16 6)
  zeroField (w.extractLsb' 0 2)
  return .phase { gd := fGuard w, a := a, num := w.extractLsb' 2 8 }

/-- Form CT (R154, R422). -/
def dCT (w : BitVec 32) : Dec Instr := do
  match (fMinor w).toNat with
  | 0 =>
    zeroField (w.extractLsb' 16 6)
    zeroField (w.extractLsb' 4 4)
    return .trap { gd := fGuard w, code := w.extractLsb' 8 8 }
  | 1 => zeroField (w.extractLsb' 4 18); return .eret { gd := fGuard w }
  | 2 => zeroField (w.extractLsb' 4 18); return .yield { gd := fGuard w }
  | 3 =>
    let a ← opnd Opnd.okS (fA w)
    zeroField (w.extractLsb' 16 6)
    zeroField (fB w)
    return .waite { gd := fGuard w, a := a }
  | 4 => zeroField (w.extractLsb' 4 18); return .haltctx { gd := fGuard w }
  | 5 => zeroField (w.extractLsb' 4 18); return .dbgbrk { gd := fGuard w }
  | _ => .error .opcode

/-- A slot 0 other than the header (R153, R154). -/
def decodeSlot0 (w : BitVec 32) : Dec Instr :=
  match (fMajor w).toNat with
  | 0x01 => dZ w .nop
  | 0x02 => dS3z w .add
  | 0x03 => dS3z w .sub
  | 0x04 => dS3z w .mul
  | 0x05 => dS3z w .mulh
  | 0x06 => dS3z w .mulhu
  | 0x07 => dS3z w .div
  | 0x08 => dS3z w .divu
  | 0x09 => dS3z w .rem
  | 0x0A => dS3z w .remu
  | 0x0B => dS3z w .and
  | 0x0C => dS3z w .or
  | 0x0D => dS3z w .xor
  | 0x0E => dS3z w .andn
  | 0x0F => dS3z w .shl
  | 0x10 => dS3z w .shr
  | 0x11 => dS3z w .sar
  | 0x12 => dS3z w .min
  | 0x13 => dS3z w .max
  | 0x14 => dS3z w .minu
  | 0x15 => dS3z w .maxu
  | 0x16 =>
    match (fMinor w).toNat with
    | 0 => dS2 w .clz
    | 1 => dS2 w .ctz
    | 2 => dS2 w .popc
    | _ => .error .opcode
  | 0x17 => dSel w
  | 0x18 => dSI w .addi
  | 0x19 => dSI w .andi
  | 0x1A => dSI w .ori
  | 0x1B => dSI w .xori
  | 0x1C => dSH w
  | 0x1D => dSL w .movi
  | 0x1E => dSL w .movsh
  | 0x1F => dPC w
  | 0x20 => dPL w
  | 0x21 => dBR w .br
  | 0x22 => dBR w .call
  | 0x23 => dCI w .calli
  | 0x24 => dZ w .ret
  | 0x25 => dBS w
  | 0x26 => dZ w .ifence
  | 0x27 => dLd w false .ld
  | 0x28 => dLd w true .lds
  | 0x29 => dSt w
  | 0x2A => dLdfe w
  | 0x2B => dStfe w
  | 0x2C => dPld w
  | 0x2D => dXmov w
  | 0x2E => dSR w
  | 0x2F => dSW w
  | 0x30 => dCI w .setfmt
  | 0x31 => dLda w
  | 0x32 => dStl w
  | 0x33 => dFence w
  | 0x34 => dZ w .vsync
  | 0x35 =>
    match (fMinor w).toNat with
    | 0 => dS3 w .aadd
    | 1 => dS3 w .aand
    | 2 => dS3 w .aor
    | 3 => dS3 w .axor
    | 4 => dS3 w .amin
    | 5 => dS3 w .amax
    | 6 => dS3 w .aminu
    | 7 => dS3 w .amaxu
    | 8 => dS3 w .aswap
    | _ => .error .opcode
  | 0x36 => dS3z w .acas
  | 0x37 =>
    match (fMinor w).toNat with
    | 0 => dAB w .afadd
    | 1 => dS2 w .axread
    | 2 => dA w .axclr
    | _ => .error .opcode
  | 0x38 =>
    match (fMinor w).toNat with
    | 0 => dA w .gjoin
    | 1 => dA w .gleave
    | 2 => dA w .gbar
    | 3 => dS2 w .gquery
    | _ => .error .opcode
  | 0x39 => do need (fMinor w == 0) .opcode; dAB w .snapadv
  | 0x3A => dPhase w
  | 0x3B =>
    match (fMinor w).toNat with
    | 0 => dS2 w .lblget
    | 1 => dAB w .lblraise
    | _ => .error .opcode
  | 0x3C => dCT w
  | _ => .error .opcode

/-! ## Slots 1 and 2 (R141, R142, R155, R330) -/

/-- The width field of the vector forms. -/
def fWidth (w : BitVec 32) : Dec Width := decWidth (w.extractLsb' 2 2)

/-- The q field of the vector forms. -/
def fQ (w : BitVec 32) : BitVec 2 := w.extractLsb' 0 2

def dV3 {Q : Type} (w : BitVec 32) (dq : BitVec 2 → Dec Q) (k : FV3 Q → Instr) : Dec Instr := do
  let q ← dq (fQ w)
  let a ← opnd anyOpnd (fA w)
  let b ← opnd anyOpnd (fB w)
  let wd ← fWidth w
  return k { gd := fGuard w, w := fW w, d := fD w, a := a, b := b, width := wd, q := q }

def dV1 {Q : Type} (w : BitVec 32) (dq : BitVec 2 → Dec Q) (k : FV1 Q → Instr) : Dec Instr := do
  let q ← dq (fQ w)
  let a ← opnd anyOpnd (fA w)
  zeroField (fB w)
  let wd ← fWidth w
  return k { gd := fGuard w, w := fW w, d := fD w, a := a, width := wd, q := q }

def dV1n (w : BitVec 32) (k : FV1n → Instr) : Dec Instr := do
  decNoQ (fQ w)
  let a ← opnd anyOpnd (fA w)
  zeroField (fB w)
  let wd ← fWidth w
  return k { gd := fGuard w, w := fW w, d := fD w, a := a, width := wd }

/-- VMOV and its push form: B is zero, or a stream port (R327). -/
def dVmov (w : BitVec 32) : Dec Instr := do
  decNoQ (fQ w)
  let a ← opnd anyOpnd (fA w)
  if fB w == 0 then
    let wd ← fWidth w
    return .vmov { gd := fGuard w, w := fW w, d := fD w, a := a, width := wd }
  else
    match decOpnd (fB w) with
    | some (.port p) =>
      let wd ← fWidth w
      return .vmovPush { gd := fGuard w, w := fW w, d := fD w, a := a, port := p, width := wd }
    | _ => .error .opcode

def dVC {C Q : Type} (w : BitVec 32) (dc : BitVec 2 → C) (dq : BitVec 2 → Dec Q) (k : FVC C Q → Instr) : Dec Instr := do
  let q ← dq (fQ w)
  let a ← opnd anyOpnd (fA w)
  let b ← opnd anyOpnd (fB w)
  zeroField (w.extractLsb' 21 1)
  let wd ← fWidth w
  return k { gd := fGuard w, cond := dc (w.extractLsb' 19 2), kd := w.extractLsb' 16 3, a := a, b := b, width := wd, q := q }

def dVK (w : BitVec 32) : Dec Instr := do
  decNoQ (fQ w)
  let a ← opnd anyOpnd (fA w)
  zeroField (w.extractLsb' 4 3)
  let wd ← fWidth w
  return .vmrg { gd := fGuard w, w := fW w, d := fD w, a := a, k := w.extractLsb' 7 3, width := wd }

def dKL (w : BitVec 32) : Dec Instr := do
  let op ← decKlogOp (fMinor w)
  let f : FKL := { gd := fGuard w, kd := w.extractLsb' 16 3, ka := w.extractLsb' 10 3, kb := w.extractLsb' 4 3, op := op }
  zeroField (w.extractLsb' 19 3)
  zeroField (w.extractLsb' 13 3)
  zeroField (w.extractLsb' 7 3)
  need f.ok .reserved
  return .klog f

def dRed (w : BitVec 32) : Dec Instr := do
  let op ← decRedOp (w.extractLsb' 7 3) (fQ w)
  let a ← opnd anyOpnd (fA w)
  zeroField (w.extractLsb' 4 3)
  let wd ← fWidth w
  return .vred { gd := fGuard w, w := fW w, d := fD w, a := a, op := op, width := wd }

def dLane (w : BitVec 32) (k : FLane → Instr) : Dec Instr := do
  let q ← decLaneQ (fQ w)
  let a ← opnd anyOpnd (fA w)
  let wd ← fWidth w
  return k { gd := fGuard w, w := fW w, d := fD w, a := a, idx := fB w, width := wd, q := q }

def dCvt (w : BitVec 32) : Dec Instr := do
  decNoQ (fQ w)
  let a ← opnd anyOpnd (fA w)
  let src := decFmt (w.extractLsb' 7 3)
  let dst := decFmt (w.extractLsb' 4 3)
  need (src != .raw && dst != .raw) .opcode
  let wd ← fWidth w
  return .vcvt { gd := fGuard w, w := fW w, d := fD w, a := a, src := src, dst := dst, width := wd }

/-- VPACK and VUNPK: the function field holds a part and a fraction (R329), where R211 speaks of format codes (DEDUCED: log entry 7). -/
def dPack (w : BitVec 32) (k : FPack → Instr) : Dec Instr := do
  decNoQ (fQ w)
  let a ← opnd anyOpnd (fA w)
  let wd ← fWidth w
  return k { gd := fGuard w, w := fW w, d := fD w, a := a, part := w.extractLsb' 7 3, frac := w.extractLsb' 4 3, width := wd }

def dVld (w : BitVec 32) (k : FVld → Instr) : Dec Instr := do
  decNoQ (fQ w)
  let a ← opnd Opnd.okM (fA w)
  let b ← opnd Opnd.okMx (fB w)
  let wd ← fWidth w
  return k { gd := fGuard w, w := fW w, d := fD w, a := a, b := b, width := wd }

def dVst (w : BitVec 32) : Dec Instr := do
  decNoQ (fQ w)
  let a ← opnd Opnd.okM (fA w)
  let b ← opnd Opnd.okMx (fB w)
  zeroField (w.extractLsb' 21 1)
  let wd ← fWidth w
  return .vst { gd := fGuard w, d := fD w, a := a, b := b, width := wd }

def dGather (w : BitVec 32) : Dec Instr := do
  let q ← decLaneQ (fQ w)
  let a ← opnd Opnd.okM (fA w)
  let b ← opnd Opnd.okM (fB w)
  let wd ← fWidth w
  return .vgather { gd := fGuard w, w := fW w, d := fD w, a := a, b := b, width := wd, q := q }

def dScat (w : BitVec 32) : Dec Instr := do
  let q ← decLaneQ (fQ w)
  let a ← opnd Opnd.okM (fA w)
  let b ← opnd Opnd.okM (fB w)
  zeroField (w.extractLsb' 21 1)
  let wd ← fWidth w
  return .vscatter { gd := fGuard w, d := fD w, a := a, b := b, width := wd, q := q }

/-- The d field of form D; bit 20 is reserved (R141). -/
def fDd (w : BitVec 32) : BitVec 4 := w.extractLsb' 16 4

def dD1 (w : BitVec 32) (ok : Opnd → Bool) (k : FD1 → Instr) : Dec Instr := do
  let ch ← decChain (w.extractLsb' 1 3)
  let a ← opnd ok (fA w)
  zeroField (w.extractLsb' 20 1)
  zeroField (fB w)
  return k { gd := fGuard w, w := fW w, d := fDd w, a := a, chain := ch }

/-- DNEG: form D with one operand and s = 0. -/
def dDneg (w : BitVec 32) : Dec Instr := do
  let ch ← decChain (w.extractLsb' 1 3)
  let a ← opnd Opnd.okD (fA w)
  zeroField (w.extractLsb' 20 1)
  zeroField (fB w)
  zeroField (w.extractLsb' 0 1)
  return .dneg { gd := fGuard w, w := fW w, d := fDd w, a := a, chain := ch }

def dDN (w : BitVec 32) (ok : Opnd → Bool) (k : FDN → Instr) : Dec Instr := do
  let ch ← decChain (w.extractLsb' 1 3)
  let a ← opnd ok (fA w)
  zeroField (w.extractLsb' 20 1)
  zeroField (fB w)
  return k { gd := fGuard w, w := fW w, d := fDd w, a := a, chain := ch, bf := w.getLsbD 0 }

def dD2 (w : BitVec 32) (okb : Opnd → Bool) (k : FD2 → Instr) : Dec Instr := do
  let ch ← decChain (w.extractLsb' 1 3)
  let a ← opnd Opnd.okD (fA w)
  let b ← opnd okb (fB w)
  zeroField (w.extractLsb' 20 1)
  zeroField (w.extractLsb' 0 1)
  return k { gd := fGuard w, w := fW w, d := fDd w, a := a, b := b, chain := ch }

def dDzero (w : BitVec 32) : Dec Instr := do
  let ch ← decChain (w.extractLsb' 1 3)
  zeroField (w.extractLsb' 20 1)
  zeroField (fA w)
  zeroField (fB w)
  zeroField (w.extractLsb' 0 1)
  return .dzero { gd := fGuard w, w := fW w, d := fDd w, chain := ch }

def dDnget (w : BitVec 32) : Dec Instr := do
  need (w.extractLsb' 1 3 == 0) .opcode
  let a ← opnd Opnd.okD (fA w)
  zeroField (w.extractLsb' 20 1)
  zeroField (fB w)
  zeroField (w.extractLsb' 0 1)
  return .dnget { gd := fGuard w, w := fW w, d := fDd w, a := a }

def dDmaxcos (w : BitVec 32) : Dec Instr := do
  let ch ← decChain (w.extractLsb' 1 3)
  let a ← opnd Opnd.okD (fA w)
  match decOpnd (fB w) with
  | some (.port p) =>
    zeroField (w.extractLsb' 20 1)
    return .dmaxcos { gd := fGuard w, w := fW w, d := fDd w, a := a, port := p, chain := ch, acc := w.getLsbD 0 }
  | _ => .error .opcode

/-- Majors that slots 1 and 2 share (R155). -/
def decodeVec (w : BitVec 32) : Dec Instr :=
  match (fMajor w).toNat with
  | 0x01 => dZ w .nop
  | 0x02 => dV3 w decFltQ .vadd
  | 0x03 => dV3 w decFltQ .vsub
  | 0x04 => dV3 w decFltQ .vmul
  | 0x05 => dV3 w decFltQ .vfma
  | 0x06 => dV3 w decFltQ .vfms
  | 0x07 => dV3 w decFltQ .vmin
  | 0x08 => dV3 w decFltQ .vmax
  | 0x09 => dV1 w decFltQ .vabs
  | 0x0A => dV1 w decFltQ .vneg
  | 0x0B => dV1n w .vrcp
  | 0x0C => dV1n w .vrsq
  | 0x0D => dV1n w .vsqrt
  | 0x0E => dV1n w .vexp2
  | 0x0F => dV1n w .vlog2
  | 0x10 => dVC w decVCond decFltQ .vcmp
  | 0x11 => dV3 w decIntQ .viadd
  | 0x12 => dV3 w decIntQ .visub
  | 0x13 => dV3 w decIntQ .vimul
  | 0x14 => dV3 w decIntQ .vimad
  | 0x15 => dV3 w decIntQ .vimin
  | 0x16 => dV3 w decIntQ .vimax
  | 0x17 => dVC w decVICond decIntQ .vicmp
  | 0x18 => dV3 w decLaneQ .vand
  | 0x19 => dV3 w decLaneQ .vor
  | 0x1A => dV3 w decLaneQ .vxor
  | 0x1B => dV3 w decLaneQ .vandn
  | 0x1C => dV3 w decLaneQ .vshl
  | 0x1D => dV3 w decLaneQ .vshr
  | 0x1E => dV3 w decLaneQ .vsar
  | 0x1F => dVK w
  | 0x20 => dRed w
  | 0x21 => dV3 w decLaneQ .vperm
  | 0x22 => dLane w .vbcast
  | 0x23 => dLane w .vextr
  | 0x24 => dLane w .vins
  | 0x25 => dCvt w
  | 0x26 => dPack w .vpack
  | 0x27 => dPack w .vunpk
  | 0x28 => dVmov w
  | 0x29 => dKL w
  | _ => .error .opcode

/-- Slot 1: the shared majors and vector memory (R155). -/
def decodeSlot1 (w : BitVec 32) : Dec Instr :=
  match (fMajor w).toNat with
  | 0x2B => dVld w .vld
  | 0x2C => dVst w
  | 0x2D => dVld w .vlds
  | 0x2E => dGather w
  | 0x2F => dScat w
  | _ => decodeVec w

/-- Slot 2: the shared majors and the directions (R155, R330). -/
def decodeSlot2 (w : BitVec 32) : Dec Instr :=
  match (fMajor w).toNat with
  | 0x30 => dDN w Opnd.okYc .dnorm
  | 0x31 => dDN w Opnd.okD .dunnorm
  | 0x32 => dD1 w Opnd.okD (if w.getLsbD 0 then .dmovRaw else .dmov)
  | 0x33 => dDzero w
  | 0x34 => dD2 w Opnd.okD .ddot
  | 0x35 => dD2 w Opnd.okYo .dscale
  | 0x36 => dD2 w Opnd.okD .dadd
  | 0x37 => dD2 w Opnd.okD .dsub
  | 0x38 => dDneg w
  | 0x39 => dD2 w Opnd.okD .dmul
  | 0x3A => dDmaxcos w
  | 0x3B => dDnget w
  | 0x3C => dD2 w Opnd.okYo .dnset
  | _ => decodeVec w

/-! ## Slot 3 (R143, R156, R260) -/

/-- An m destination: 0 to 7 (R143). -/
def fMd (w : BitVec 32) : BitVec 3 := w.extractLsb' 16 3

/-- The D field names 0 to 7 and W is as the form allows (R135, R143, R158). -/
def mdOk (w : BitVec 32) (allowW : Bool) : Dec Unit := do
  zeroField (w.extractLsb' 19 2)
  need (allowW || !fW w) .reserved

def dE2 (w : BitVec 32) (k : FE2 → Instr) : Dec Instr := do
  need (fMinor w == 0) .opcode
  let a ← opnd Opnd.okE (fA w)
  let b ← opnd Opnd.okE (fB w)
  mdOk w true
  return k { gd := fGuard w, w := fW w, md := fMd w, a := a, b := b }

def dE1 (w : BitVec 32) (k : FE1 → Instr) : Dec Instr := do
  let a ← opnd Opnd.okE (fA w)
  mdOk w true
  zeroField (fB w)
  return k { gd := fGuard w, w := fW w, md := fMd w, a := a }

/-- D = 0, A alone, sub = 0. -/
def dEA (w : BitVec 32) (k : FA → Instr) : Dec Instr := do
  need (fMinor w == 0) .opcode
  let a ← opnd Opnd.okE (fA w)
  zeroField (w.extractLsb' 16 6)
  zeroField (fB w)
  return k { gd := fGuard w, a := a }

/-- D = 0, A and B, sub = 0. -/
def dEAB (w : BitVec 32) (k : FAB → Instr) : Dec Instr := do
  need (fMinor w == 0) .opcode
  let a ← opnd Opnd.okE (fA w)
  let b ← opnd Opnd.okE (fB w)
  zeroField (w.extractLsb' 16 6)
  return k { gd := fGuard w, a := a, b := b }

def dRset (w : BitVec 32) : Dec Instr := do
  need (fMinor w == 0) .opcode
  let a ← opnd Opnd.okE (fA w)
  zeroField (w.extractLsb' 20 2)
  zeroField (fB w)
  return .rset { gd := fGuard w, ring := w.extractLsb' 16 4, a := a }

def dRstat (w : BitVec 32) : Dec Instr := do
  let sel ← (match (fMinor w).toNat with
    | 0 => .ok .cfg | 1 => .ok .ptr | 2 => .ok .resv | _ => .error .opcode : Dec RstatSel)
  let a ← opnd Opnd.okE (fA w)
  mdOk w true
  zeroField (fB w)
  return .rstat { gd := fGuard w, w := fW w, md := fMd w, a := a, sel := sel }

def dPortA (w : BitVec 32) (k : FPortA → Instr) : Dec Instr := do
  let a ← opnd Opnd.okE (fA w)
  mdOk w false
  zeroField (fB w)
  return k { gd := fGuard w, port := fMd w, a := a }

def dSunbind (w : BitVec 32) : Dec Instr := do
  need (fMinor w == 0) .opcode
  mdOk w false
  zeroField (fA w)
  zeroField (fB w)
  return .sunbind { gd := fGuard w, port := fMd w }

/-- COPY. A bit of sub[3:1] makes a code that no row lists, and not a reserved field (R158; log entry 7). -/
def dCopy (w : BitVec 32) : Dec Instr := do
  need (w.extractLsb' 1 3 == 0) .opcode
  let a ← opnd Opnd.okE (fA w)
  let b ← opnd Opnd.okE (fB w)
  mdOk w false
  return .copy { gd := fGuard w, md := fMd w, a := a, b := b, fill := w.getLsbD 0 }

def dRelease (w : BitVec 32) : Dec Instr := do
  need (fMinor w == 0) .opcode
  let a ← opnd Opnd.okE (fA w)
  let b ← opnd Opnd.okE (fB w)
  mdOk w false
  return .release { gd := fGuard w, md := fMd w, a := a, b := b }

def dCresume (w : BitVec 32) : Dec Instr := do
  let k ← (match (fMinor w).toNat with
    | 0 => .ok .cresumePatch | 1 => .ok .cresumeRetry | 2 => .ok .cresumeSkip | _ => .error .opcode : Dec (FZ → Instr))
  zeroField (w.extractLsb' 4 18)
  return k { gd := fGuard w }

def dCstat (w : BitVec 32) : Dec Instr := do
  let sel ← (match (fMinor w).toNat with
    | 0 => .ok .queue | 1 => .ok .fault | 2 => .ok .stall | _ => .error .opcode : Dec CstatSel)
  mdOk w true
  zeroField (fA w)
  zeroField (fB w)
  return .cstat { gd := fGuard w, w := fW w, md := fMd w, sel := sel }

def dHwait (w : BitVec 32) : Dec Instr :=
  match (fMinor w).toNat with
  | 0 => do
    let a ← opnd Opnd.okE (fA w)
    mdOk w true
    zeroField (fB w)
    return .hwait { gd := fGuard w, w := fW w, md := fMd w, a := a, sel := .full }
  | 1 => do
    let a ← opnd Opnd.okE (fA w)
    mdOk w true
    zeroField (fB w)
    return .hwait { gd := fGuard w, w := fW w, md := fMd w, a := a, sel := .free }
  | 2 => dE1 w .hwaitClaim
  | _ => .error .opcode

def dRndstat (w : BitVec 32) : Dec Instr := do
  let sel ← (match (fMinor w).toNat with
    | 0 => .ok .pos | 1 => .ok .held | _ => .error .opcode : Dec RndSel)
  mdOk w true
  zeroField (fA w)
  zeroField (fB w)
  return .rndstat { gd := fGuard w, w := fW w, md := fMd w, sel := sel }

def fVFile (w : BitVec 32) : VFile := if w.getLsbD 0 then .y else .x

def dTrpush (w : BitVec 32) : Dec Instr := do
  zeroField (w.extractLsb' 15 7)
  zeroField (w.extractLsb' 1 9)
  return .trpush { gd := fGuard w, file := fVFile w, r := w.extractLsb' 10 5 }

def dTrpull (w : BitVec 32) : Dec Instr := do
  zeroField (w.extractLsb' 1 15)
  return .trpull { gd := fGuard w, w := fW w, file := fVFile w, r := fD w }

def dMcall (w : BitVec 32) : Dec Instr := do
  zeroField (w.extractLsb' 16 6)
  zeroField (w.extractLsb' 0 8)
  return .mcall { gd := fGuard w, idx := w.extractLsb' 8 8 }

/-- Slot 3 (R156). A sub value that R260 does not list is an opcode error (DEDUCED: log entry 7). -/
def decodeSlot3 (w : BitVec 32) : Dec Instr :=
  match (fMajor w).toNat with
  | 0x01 => dZ w .nop
  | 0x02 => dEAB w .mload
  | 0x03 => dMcall w
  | 0x04 => dRset w
  | 0x05 => dE2 w .rpush
  | 0x06 => dRstat w
  | 0x07 => do need (fMinor w == 0) .opcode; dPortA w .sbind
  | 0x08 => dSunbind w
  | 0x09 =>
    match (fMinor w).toNat with
    | 0 => dPortA w .scfgSeek
    | 1 => dPortA w .scfgRep
    | _ => .error .opcode
  | 0x0A => dEAB w .crec
  | 0x0B => dCopy w
  | 0x0C => dCresume w
  | 0x0D => dCstat w
  | 0x0E => dEAB w .hset
  | 0x0F => dHwait w
  | 0x10 => do need (fMinor w == 0) .opcode; dE1 w .hquery
  | 0x11 => dEA w .trcfg
  | 0x12 => dTrpush w
  | 0x13 => dTrpull w
  | 0x14 => dEAB w .bclear
  | 0x15 => dRelease w
  | 0x16 => dEA w .publish
  | 0x17 => dEA w .rndseek
  | 0x18 => dRndstat w
  | _ => .error .opcode

/-- One slot of a bundle by its number; slot 0 here is not a header. -/
def decodeSlot (slot : Nat) (w : BitVec 32) : Dec Instr :=
  match slot with
  | 0 => decodeSlot0 w
  | 1 => decodeSlot1 w
  | 2 => decodeSlot2 w
  | _ => decodeSlot3 w

/-! ## Micro-words (R157, R308) -/

def decAxis (c : BitVec 2) : Axis :=
  match c.toNat with
  | 0 => .o | 1 => .p0 | 2 => .p1 | _ => .p2

def decBMode (c : BitVec 2) : Dec BMode :=
  match c.toNat with
  | 0 => .ok .clip | 1 => .ok .wrap | 2 => .ok .keep | _ => .error .reserved

/-- A count with its SRC field (R308): the field is zero when SRC is not 0. -/
def decUCount {n : Nat} (src : BitVec 2) (v : BitVec n) : Dec (UCount n) :=
  match src.toNat with
  | 0 => .ok (.imm v)
  | 1 => do zeroField v; return .v0
  | 2 => do zeroField v; return .v1
  | _ => do zeroField v; return .v2

def dUDrnp (w : BitVec 128) : Dec Instr := do
  let face : BitVec 3 := w.extractLsb' 6 3
  let src ← (match (w.extractLsb' 4 2).toNat with
    | 0 => do zeroField face; return .acc
    | 1 => do zeroField face; return .op
    | 2 => .ok (.halo face)
    | _ => .ok (.kept face) : Dec DrainSrc)
  zeroField (w.extractLsb' 40 82)
  return .drnp { tiles := w.extractLsb' 28 12, cell := w.extractLsb' 10 18, fill := w.getLsbD 9, src := src, ring := w.extractLsb' 0 4 }

def dUInj (w : BitVec 128) : Dec Instr := do
  let mode ← (match (w.extractLsb' 4 2).toNat with
    | 0 => .ok .direct | 1 => .ok .spread | 2 => .ok .decim | _ => .error .reserved : Dec InjMode)
  zeroField (w.extractLsb' 67 55)
  zeroField (w.extractLsb' 9 1)
  return .inj
    { n2 := w.extractLsb' 57 10, n1 := w.extractLsb' 47 10, n0 := w.extractLsb' 37 10, f2 := w.extractLsb' 28 9,
      f1 := w.extractLsb' 19 9, f0 := w.extractLsb' 10 9, s := w.extractLsb' 6 3, mode := mode, xring := w.extractLsb' 0 4 }

def dUBndm (w : BitVec 128) : Dec Instr := do
  let f0 ← decBMode (w.extractLsb' 0 2)
  let f1 ← decBMode (w.extractLsb' 2 2)
  let f2 ← decBMode (w.extractLsb' 4 2)
  let f3 ← decBMode (w.extractLsb' 6 2)
  let f4 ← decBMode (w.extractLsb' 8 2)
  let f5 ← decBMode (w.extractLsb' 10 2)
  let f6 ← decBMode (w.extractLsb' 12 2)
  let f7 ← decBMode (w.extractLsb' 14 2)
  zeroField (w.extractLsb' 16 106)
  return .bndm { f0 := f0, f1 := f1, f2 := f2, f3 := f3, f4 := f4, f5 := f5, f6 := f6, f7 := f7 }

/-- A micro-word (R157, R308). -/
def decodeMicro (w : BitVec 128) : Dec Instr :=
  match (w.extractLsb' 122 6).toNat with
  | 0x01 => do
    zeroField (w.extractLsb' 6 116)
    return .step { popx := w.getLsbD 5, hold := w.getLsbD 4, wring := w.extractLsb' 0 4 }
  | 0x02 => do
    zeroField (w.extractLsb' 5 117)
    return .steph { hold := w.getLsbD 4, wring := w.extractLsb' 0 4 }
  | 0x03 => do
    zeroField (w.extractLsb' 24 98)
    return .slide
      { stride := w.extractLsb' 16 8, popx := w.getLsbD 15, adv := w.getLsbD 14, neg := w.getLsbD 13,
        dil := w.extractLsb' 10 3, axis := decAxis (w.extractLsb' 8 2), taps := w.extractLsb' 4 4, wring := w.extractLsb' 0 4 }
  | 0x04 => do
    let u : UShift :=
      { rot := w.getLsbD 7, mag := w.extractLsb' 4 3, neg := w.getLsbD 3, op := w.getLsbD 2,
        axis := decAxis (w.extractLsb' 0 2) }
    zeroField (w.extractLsb' 8 114)
    need (!u.rot || u.op) .reserved
    return .shift u
  | 0x05 => dUInj w
  | 0x06 => do
    zeroField (w.extractLsb' 1 121)
    return .clrp (w.getLsbD 0)
  | 0x07 => do
    zeroField (w.extractLsb' 34 88)
    return .ldp { tiles := w.extractLsb' 22 12, cell := w.extractLsb' 5 17, op := w.getLsbD 4, ring := w.extractLsb' 0 4 }
  | 0x08 => dUDrnp w
  | 0x09 => do
    zeroField (w.extractLsb' 0 122)
    return .hexp
  | 0x0A => do
    let n : BitVec 5 := w.extractLsb' 0 5
    let c ← decUCount (w.extractLsb' 5 2) n
    need (decide (n.toNat ≤ 16)) .reserved
    zeroField (w.extractLsb' 7 115)
    return .hmrg c
  | 0x0B => dUBndm w
  | 0x0C => do
    let c ← decUCount (w.extractLsb' 12 2) (w.extractLsb' 0 12)
    zeroField (w.extractLsb' 14 108)
    return .uloop c
  | 0x0D => do
    zeroField (w.extractLsb' 0 122)
    return .uend
  | 0x0E => do
    zeroField (w.extractLsb' 21 101)
    if w.getLsbD 0 then
      zeroField (w.extractLsb' 1 4)
      return .uwait (.cyc (w.extractLsb' 5 16))
    else return .uwait (.ring (w.extractLsb' 1 4) (w.extractLsb' 5 16))
  | 0x0F => do
    zeroField (w.extractLsb' 0 122)
    return .uret
  | _ => .error .opcode

/-! ## Encoding, from the same tables -/

/-- One bit. -/
def bit1 (b : Bool) : BitVec 1 := BitVec.ofBool b

/-- The code of an operand (R136). -/
def encOpnd : Opnd → BitVec 6
  | .reg n => (0 : BitVec 1) ++ n
  | .latch j => (0b1000 : BitVec 4) ++ j
  | .port q => 36 + ((0 : BitVec 3) ++ q)
  | .rnd => 44
  | .zero => 45
  | .ext => 63

def encWidth : Width → BitVec 2
  | .w256 => 0 | .w512 => 1 | .w1024 => 2

def encFltQ : FltQ → BitVec 2
  | .f32 => 0 | .f16 => 1 | .bf16 => 2

def encIntQ : IntQ → BitVec 2
  | .i32 => 0 | .i8 => 1

def encLaneQ : LaneQ → BitVec 2
  | .b32 => 0 | .b8 => 1 | .b16 => 2 | .b64 => 3

def encMSize : MSize → BitVec 2
  | .b1 => 0 | .b2 => 1 | .b4 => 2 | .b8 => 3

def encOSize : OSize → BitVec 2
  | .b4 => 2 | .b8 => 3

def encScope : Scope → BitVec 3
  | .core => 0 | .clu => 1 | .die => 2 | .dev => 3 | .sys => 4

def encFenceKind : FenceKind → BitVec 2
  | .acq => 1 | .rel => 2 | .full => 3

def encCombine : Combine → BitVec 2
  | .write => 0 | .conj => 1 | .disj => 2

def encCond : Cond → BitVec 4
  | .eq => 0 | .ne => 1 | .lt => 2 | .le => 3 | .gt => 4 | .ge => 5 | .ltu => 6 | .leu => 7 | .gtu => 8 | .geu => 9

def encPlogOp : PlogOp → BitVec 4
  | .conj => 0 | .disj => 1 | .xor => 2 | .andn => 3 | .orn => 4 | .neg => 5 | .mov => 6

def encXFile : XFile → BitVec 2
  | .s => 0 | .x => 1 | .y => 2 | .m => 3

def encVFile : VFile → Bool
  | .x => false | .y => true

def encVCond : VCond → BitVec 2
  | .eq => 0 | .lt => 1 | .le => 2 | .un => 3

def encVICond : VICond → BitVec 2
  | .eq => 0 | .lt => 1 | .le => 2 | .ltu => 3

def encKlogOp : KlogOp → BitVec 4
  | .conj => 0 | .disj => 1 | .xor => 2 | .andn => 3 | .neg => 4 | .mov => 5 | .set => 6 | .clr => 7

def encFmt : Fmt → BitVec 3
  | .f32 => 0 | .f16 => 1 | .bf16 => 2 | .f8e4 => 3 | .f8e5 => 4 | .i8 => 5 | .i32 => 6 | .raw => 7

def encChain : Chain → BitVec 3
  | .c1 => 0 | .c2 => 1 | .c4 => 2 | .c8 => 3 | .c16 => 4

/-- Function bits [9:7] and q of VRED (R324). -/
def encRedOp : RedOp → BitVec 3 × BitVec 2
  | .add q => (0, encFltQ q) | .min q => (1, encFltQ q) | .max q => (2, encFltQ q)
  | .iadd q => (3, encIntQ q) | .imin q => (4, encIntQ q) | .imax q => (5, encIntQ q)

/-- Bits [31:22]: the major, the guard predicate and its sense (R133). -/
def encHead (major : BitVec 6) (gd : Guard) : BitVec 10 := major ++ gd.g ++ bit1 gd.inv

def eZ (maj : BitVec 6) (f : FZ) : BitVec 32 := encHead maj f.gd ++ (0 : BitVec 22)
def eZsub (maj : BitVec 6) (sub : BitVec 4) (f : FZ) : BitVec 32 := encHead maj f.gd ++ (0 : BitVec 18) ++ sub
def eS3 (maj : BitVec 6) (sub : BitVec 4) (f : FS3) : BitVec 32 :=
  encHead maj f.gd ++ bit1 f.w ++ f.d ++ encOpnd f.a ++ encOpnd f.b ++ sub
def eS2 (maj : BitVec 6) (sub : BitVec 4) (f : FS2) : BitVec 32 :=
  encHead maj f.gd ++ bit1 f.w ++ f.d ++ encOpnd f.a ++ (0 : BitVec 6) ++ sub
def eA (maj : BitVec 6) (sub : BitVec 4) (f : FA) : BitVec 32 :=
  encHead maj f.gd ++ (0 : BitVec 6) ++ encOpnd f.a ++ (0 : BitVec 6) ++ sub
def eAB (maj : BitVec 6) (sub : BitVec 4) (f : FAB) : BitVec 32 :=
  encHead maj f.gd ++ (0 : BitVec 6) ++ encOpnd f.a ++ encOpnd f.b ++ sub
def eSel (f : FSel) : BitVec 32 :=
  encHead 0x17 f.gd ++ bit1 f.w ++ f.d ++ encOpnd f.a ++ encOpnd f.b ++ (0 : BitVec 1) ++ f.n
def eSI (maj : BitVec 6) (f : FSI) : BitVec 32 := encHead maj f.gd ++ bit1 f.w ++ f.d ++ encOpnd f.a ++ f.imm
def eSH (kind : BitVec 2) (f : FSH) : BitVec 32 :=
  encHead 0x1C f.gd ++ bit1 f.w ++ f.d ++ encOpnd f.a ++ kind ++ (0 : BitVec 2) ++ f.amount
def eSL (maj : BitVec 6) (f : FSL) : BitVec 32 := encHead maj f.gd ++ bit1 f.w ++ f.d ++ f.imm
def ePC (f : FPC) : BitVec 32 :=
  encHead 0x1F f.gd ++ (0 : BitVec 1) ++ encCombine f.comb ++ f.pd ++ encOpnd f.a ++ encOpnd f.b ++ encCond f.cond
def ePL (f : FPL) : BitVec 32 :=
  encHead 0x20 f.gd ++ (0 : BitVec 3) ++ f.pd ++ (0 : BitVec 3) ++ f.pa ++ (0 : BitVec 3) ++ f.pb ++ encPlogOp f.op
def eBR (maj : BitVec 6) (f : FBR) : BitVec 32 := encHead maj f.gd ++ (0 : BitVec 1) ++ f.disp
def eBS (f : FBS) : BitVec 32 := encHead 0x25 f.gd ++ (0 : BitVec 8) ++ f.idx
def eLd (maj : BitVec 6) (f : FLd) : BitVec 32 :=
  encHead maj f.gd ++ bit1 f.w ++ f.d ++ encOpnd f.a ++ encMSize f.size ++ f.off
def eSt (f : FSt) : BitVec 32 :=
  encHead 0x29 f.gd ++ (0 : BitVec 1) ++ f.d ++ encOpnd f.a ++ encMSize f.size ++ f.off
def eLdfe (f : FLdfe) : BitVec 32 :=
  encHead 0x2A f.gd ++ bit1 f.w ++ f.d ++ encOpnd f.a ++ bit1 f.clr ++ (0 : BitVec 1) ++ f.off
def eStfe (f : FStfe) : BitVec 32 :=
  encHead 0x2B f.gd ++ (0 : BitVec 1) ++ f.d ++ encOpnd f.a ++ (0 : BitVec 2) ++ f.off
def ePld (f : FPld) : BitVec 32 := encHead 0x2C f.gd ++ bit1 f.w ++ f.d ++ encOpnd f.a ++ f.win ++ f.off
def eXmov (f : FXmov) : BitVec 32 :=
  encHead 0x2D f.gd ++ bit1 f.w ++ f.d ++ encOpnd f.a ++ f.lane ++ (0 : BitVec 2) ++ encXFile f.dst ++ encXFile f.src
def eSR (f : FSR) : BitVec 32 := encHead 0x2E f.gd ++ bit1 f.w ++ f.d ++ (0 : BitVec 4) ++ f.num
def eSW (f : FSW) : BitVec 32 := encHead 0x2F f.gd ++ (0 : BitVec 1) ++ f.d ++ (0 : BitVec 4) ++ f.num
def eLda (f : FLda) : BitVec 32 :=
  encHead 0x31 f.gd ++ bit1 f.w ++ f.d ++ encOpnd f.a ++ encScope f.scope ++ (0 : BitVec 3) ++ encOSize f.size ++ (0 : BitVec 2)
def eStl (f : FStl) : BitVec 32 :=
  encHead 0x32 f.gd ++ (0 : BitVec 1) ++ f.d ++ encOpnd f.a ++ encScope f.scope ++ (0 : BitVec 3) ++ encOSize f.size ++ (0 : BitVec 2)
def eFence (f : FFence) : BitVec 32 :=
  encHead 0x33 f.gd ++ (0 : BitVec 12) ++ encScope f.scope ++ (0 : BitVec 5) ++ encFenceKind f.kind
def ePhase (f : FPhase) : BitVec 32 := encHead 0x3A f.gd ++ (0 : BitVec 6) ++ encOpnd f.a ++ f.num ++ (0 : BitVec 2)
def eTrap (f : FTrap) : BitVec 32 := encHead 0x3C f.gd ++ (0 : BitVec 6) ++ f.code ++ (0 : BitVec 4) ++ (0 : BitVec 4)

def eV3 {Q : Type} (maj : BitVec 6) (eq : Q → BitVec 2) (f : FV3 Q) : BitVec 32 :=
  encHead maj f.gd ++ bit1 f.w ++ f.d ++ encOpnd f.a ++ encOpnd f.b ++ encWidth f.width ++ eq f.q
def eV1 {Q : Type} (maj : BitVec 6) (eq : Q → BitVec 2) (f : FV1 Q) : BitVec 32 :=
  encHead maj f.gd ++ bit1 f.w ++ f.d ++ encOpnd f.a ++ (0 : BitVec 6) ++ encWidth f.width ++ eq f.q
def eV1n (maj : BitVec 6) (f : FV1n) : BitVec 32 :=
  encHead maj f.gd ++ bit1 f.w ++ f.d ++ encOpnd f.a ++ (0 : BitVec 6) ++ encWidth f.width ++ (0 : BitVec 2)
def eVpush (f : FVpush) : BitVec 32 :=
  encHead 0x28 f.gd ++ bit1 f.w ++ f.d ++ encOpnd f.a ++ encOpnd (.port f.port) ++ encWidth f.width ++ (0 : BitVec 2)
def eVC {C Q : Type} (maj : BitVec 6) (ec : C → BitVec 2) (eq : Q → BitVec 2) (f : FVC C Q) : BitVec 32 :=
  encHead maj f.gd ++ (0 : BitVec 1) ++ ec f.cond ++ f.kd ++ encOpnd f.a ++ encOpnd f.b ++ encWidth f.width ++ eq f.q
def eVK (f : FVK) : BitVec 32 :=
  encHead 0x1F f.gd ++ bit1 f.w ++ f.d ++ encOpnd f.a ++ f.k ++ (0 : BitVec 3) ++ encWidth f.width ++ (0 : BitVec 2)
def eKL (f : FKL) : BitVec 32 :=
  encHead 0x29 f.gd ++ (0 : BitVec 3) ++ f.kd ++ (0 : BitVec 3) ++ f.ka ++ (0 : BitVec 3) ++ f.kb ++ encKlogOp f.op
def eRed (f : FRed) : BitVec 32 :=
  encHead 0x20 f.gd ++ bit1 f.w ++ f.d ++ encOpnd f.a ++ (encRedOp f.op).1 ++ (0 : BitVec 3) ++ encWidth f.width ++ (encRedOp f.op).2
def eLane (maj : BitVec 6) (f : FLane) : BitVec 32 :=
  encHead maj f.gd ++ bit1 f.w ++ f.d ++ encOpnd f.a ++ f.idx ++ encWidth f.width ++ encLaneQ f.q
def eCvt (f : FCvt) : BitVec 32 :=
  encHead 0x25 f.gd ++ bit1 f.w ++ f.d ++ encOpnd f.a ++ encFmt f.src ++ encFmt f.dst ++ encWidth f.width ++ (0 : BitVec 2)
def ePack (maj : BitVec 6) (f : FPack) : BitVec 32 :=
  encHead maj f.gd ++ bit1 f.w ++ f.d ++ encOpnd f.a ++ f.part ++ f.frac ++ encWidth f.width ++ (0 : BitVec 2)
def eVld (maj : BitVec 6) (f : FVld) : BitVec 32 :=
  encHead maj f.gd ++ bit1 f.w ++ f.d ++ encOpnd f.a ++ encOpnd f.b ++ encWidth f.width ++ (0 : BitVec 2)
def eVst (f : FVst) : BitVec 32 :=
  encHead 0x2C f.gd ++ (0 : BitVec 1) ++ f.d ++ encOpnd f.a ++ encOpnd f.b ++ encWidth f.width ++ (0 : BitVec 2)
def eScat (f : FScat) : BitVec 32 :=
  encHead 0x2F f.gd ++ (0 : BitVec 1) ++ f.d ++ encOpnd f.a ++ encOpnd f.b ++ encWidth f.width ++ encLaneQ f.q
def eD1 (maj : BitVec 6) (s : BitVec 1) (f : FD1) : BitVec 32 :=
  encHead maj f.gd ++ bit1 f.w ++ (0 : BitVec 1) ++ f.d ++ encOpnd f.a ++ (0 : BitVec 6) ++ encChain f.chain ++ s
def eDN (maj : BitVec 6) (f : FDN) : BitVec 32 :=
  encHead maj f.gd ++ bit1 f.w ++ (0 : BitVec 1) ++ f.d ++ encOpnd f.a ++ (0 : BitVec 6) ++ encChain f.chain ++ bit1 f.bf
def eD2 (maj : BitVec 6) (f : FD2) : BitVec 32 :=
  encHead maj f.gd ++ bit1 f.w ++ (0 : BitVec 1) ++ f.d ++ encOpnd f.a ++ encOpnd f.b ++ encChain f.chain ++ (0 : BitVec 1)
def eD0 (f : FD0) : BitVec 32 :=
  encHead 0x33 f.gd ++ bit1 f.w ++ (0 : BitVec 1) ++ f.d ++ (0 : BitVec 12) ++ encChain f.chain ++ (0 : BitVec 1)
def eDG (f : FDG) : BitVec 32 :=
  encHead 0x3B f.gd ++ bit1 f.w ++ (0 : BitVec 1) ++ f.d ++ encOpnd f.a ++ (0 : BitVec 10)
def eDM (f : FDM) : BitVec 32 :=
  encHead 0x3A f.gd ++ bit1 f.w ++ (0 : BitVec 1) ++ f.d ++ encOpnd f.a ++ encOpnd (.port f.port) ++ encChain f.chain ++ bit1 f.acc

/-- The D field of an m destination or a port. -/
def eMd (w : Bool) (md : BitVec 3) : BitVec 6 := bit1 w ++ (0 : BitVec 2) ++ md
def eE2 (maj : BitVec 6) (f : FE2) : BitVec 32 := encHead maj f.gd ++ eMd f.w f.md ++ encOpnd f.a ++ encOpnd f.b ++ (0 : BitVec 4)
def eE1 (maj : BitVec 6) (sub : BitVec 4) (f : FE1) : BitVec 32 :=
  encHead maj f.gd ++ eMd f.w f.md ++ encOpnd f.a ++ (0 : BitVec 6) ++ sub
def eRset (f : FRset) : BitVec 32 := encHead 0x04 f.gd ++ (0 : BitVec 2) ++ f.ring ++ encOpnd f.a ++ (0 : BitVec 10)
def eRstat (f : FRstat) : BitVec 32 :=
  encHead 0x06 f.gd ++ eMd f.w f.md ++ encOpnd f.a ++ (0 : BitVec 6) ++
    (match f.sel with | .cfg => (0 : BitVec 4) | .ptr => 1 | .resv => 2)
def ePortA (maj : BitVec 6) (sub : BitVec 4) (f : FPortA) : BitVec 32 :=
  encHead maj f.gd ++ eMd false f.port ++ encOpnd f.a ++ (0 : BitVec 6) ++ sub
def ePort (f : FPort) : BitVec 32 := encHead 0x08 f.gd ++ eMd false f.port ++ (0 : BitVec 16)
def eCopy (f : FCopy) : BitVec 32 :=
  encHead 0x0B f.gd ++ eMd false f.md ++ encOpnd f.a ++ encOpnd f.b ++ (0 : BitVec 3) ++ bit1 f.fill
def eRel (f : FRel) : BitVec 32 := encHead 0x15 f.gd ++ eMd false f.md ++ encOpnd f.a ++ encOpnd f.b ++ (0 : BitVec 4)
def eCstat (f : FCstat) : BitVec 32 :=
  encHead 0x0D f.gd ++ eMd f.w f.md ++ (0 : BitVec 12) ++
    (match f.sel with | .queue => (0 : BitVec 4) | .fault => 1 | .stall => 2)
def eHwait (f : FHwait) : BitVec 32 :=
  encHead 0x0F f.gd ++ eMd f.w f.md ++ encOpnd f.a ++ (0 : BitVec 6) ++
    (match f.sel with | .full => (0 : BitVec 4) | .free => 1)
def eRnd (f : FRnd) : BitVec 32 :=
  encHead 0x18 f.gd ++ eMd f.w f.md ++ (0 : BitVec 12) ++ (match f.sel with | .pos => (0 : BitVec 4) | .held => 1)
def eTrpush (f : FTrpush) : BitVec 32 :=
  encHead 0x12 f.gd ++ (0 : BitVec 7) ++ f.r ++ (0 : BitVec 9) ++ bit1 (encVFile f.file)
def eTrpull (f : FTrpull) : BitVec 32 :=
  encHead 0x13 f.gd ++ bit1 f.w ++ f.r ++ (0 : BitVec 15) ++ bit1 (encVFile f.file)
def eMcall (f : FMcall) : BitVec 32 := encHead 0x03 f.gd ++ (0 : BitVec 6) ++ f.idx ++ (0 : BitVec 8)
/-- The 32-bit word of a slot instruction; micro-ops and events have none. -/
def encode : Instr → Option (BitVec 32)
  | .nop f => some (eZ 0x01 f)
  | .add f => some (eS3 0x02 0 f)
  | .sub f => some (eS3 0x03 0 f)
  | .mul f => some (eS3 0x04 0 f)
  | .mulh f => some (eS3 0x05 0 f)
  | .mulhu f => some (eS3 0x06 0 f)
  | .div f => some (eS3 0x07 0 f)
  | .divu f => some (eS3 0x08 0 f)
  | .rem f => some (eS3 0x09 0 f)
  | .remu f => some (eS3 0x0A 0 f)
  | .and f => some (eS3 0x0B 0 f)
  | .or f => some (eS3 0x0C 0 f)
  | .xor f => some (eS3 0x0D 0 f)
  | .andn f => some (eS3 0x0E 0 f)
  | .shl f => some (eS3 0x0F 0 f)
  | .shr f => some (eS3 0x10 0 f)
  | .sar f => some (eS3 0x11 0 f)
  | .min f => some (eS3 0x12 0 f)
  | .max f => some (eS3 0x13 0 f)
  | .minu f => some (eS3 0x14 0 f)
  | .maxu f => some (eS3 0x15 0 f)
  | .clz f => some (eS2 0x16 0 f)
  | .ctz f => some (eS2 0x16 1 f)
  | .popc f => some (eS2 0x16 2 f)
  | .sel f => some (eSel f)
  | .addi f => some (eSI 0x18 f)
  | .andi f => some (eSI 0x19 f)
  | .ori f => some (eSI 0x1A f)
  | .xori f => some (eSI 0x1B f)
  | .shli f => some (eSH 0 f)
  | .shri f => some (eSH 1 f)
  | .sari f => some (eSH 2 f)
  | .movi f => some (eSL 0x1D f)
  | .movsh f => some (eSL 0x1E f)
  | .cmp f => some (ePC f)
  | .plog f => some (ePL f)
  | .br f => some (eBR 0x21 f)
  | .call f => some (eBR 0x22 f)
  | .calli f => some (eA 0x23 0 f)
  | .ret f => some (eZ 0x24 f)
  | .bswap f => some (eBS f)
  | .ifence f => some (eZ 0x26 f)
  | .ld f => some (eLd 0x27 f)
  | .lds f => some (eLd 0x28 f)
  | .st f => some (eSt f)
  | .ldfe f => some (eLdfe f)
  | .stfe f => some (eStfe f)
  | .pld f => some (ePld f)
  | .xmov f => some (eXmov f)
  | .sysr f => some (eSR f)
  | .sysw f => some (eSW f)
  | .setfmt f => some (eA 0x30 0 f)
  | .lda f => some (eLda f)
  | .stl f => some (eStl f)
  | .fence f => some (eFence f)
  | .vsync f => some (eZ 0x34 f)
  | .aadd f => some (eS3 0x35 0 f)
  | .aand f => some (eS3 0x35 1 f)
  | .aor f => some (eS3 0x35 2 f)
  | .axor f => some (eS3 0x35 3 f)
  | .amin f => some (eS3 0x35 4 f)
  | .amax f => some (eS3 0x35 5 f)
  | .aminu f => some (eS3 0x35 6 f)
  | .amaxu f => some (eS3 0x35 7 f)
  | .aswap f => some (eS3 0x35 8 f)
  | .acas f => some (eS3 0x36 0 f)
  | .afadd f => some (eAB 0x37 0 f)
  | .axread f => some (eS2 0x37 1 f)
  | .axclr f => some (eA 0x37 2 f)
  | .gjoin f => some (eA 0x38 0 f)
  | .gleave f => some (eA 0x38 1 f)
  | .gbar f => some (eA 0x38 2 f)
  | .gquery f => some (eS2 0x38 3 f)
  | .snapadv f => some (eAB 0x39 0 f)
  | .phase f => some (ePhase f)
  | .lblget f => some (eS2 0x3B 0 f)
  | .lblraise f => some (eAB 0x3B 1 f)
  | .trap f => some (eTrap f)
  | .eret f => some (eZsub 0x3C 1 f)
  | .yield f => some (eZsub 0x3C 2 f)
  | .waite f => some (eA 0x3C 3 f)
  | .haltctx f => some (eZsub 0x3C 4 f)
  | .dbgbrk f => some (eZsub 0x3C 5 f)
  | .vadd f => some (eV3 0x02 encFltQ f)
  | .vsub f => some (eV3 0x03 encFltQ f)
  | .vmul f => some (eV3 0x04 encFltQ f)
  | .vfma f => some (eV3 0x05 encFltQ f)
  | .vfms f => some (eV3 0x06 encFltQ f)
  | .vmin f => some (eV3 0x07 encFltQ f)
  | .vmax f => some (eV3 0x08 encFltQ f)
  | .vabs f => some (eV1 0x09 encFltQ f)
  | .vneg f => some (eV1 0x0A encFltQ f)
  | .vrcp f => some (eV1n 0x0B f)
  | .vrsq f => some (eV1n 0x0C f)
  | .vsqrt f => some (eV1n 0x0D f)
  | .vexp2 f => some (eV1n 0x0E f)
  | .vlog2 f => some (eV1n 0x0F f)
  | .vcmp f => some (eVC 0x10 encVCond encFltQ f)
  | .viadd f => some (eV3 0x11 encIntQ f)
  | .visub f => some (eV3 0x12 encIntQ f)
  | .vimul f => some (eV3 0x13 encIntQ f)
  | .vimad f => some (eV3 0x14 encIntQ f)
  | .vimin f => some (eV3 0x15 encIntQ f)
  | .vimax f => some (eV3 0x16 encIntQ f)
  | .vicmp f => some (eVC 0x17 encVICond encIntQ f)
  | .vand f => some (eV3 0x18 encLaneQ f)
  | .vor f => some (eV3 0x19 encLaneQ f)
  | .vxor f => some (eV3 0x1A encLaneQ f)
  | .vandn f => some (eV3 0x1B encLaneQ f)
  | .vshl f => some (eV3 0x1C encLaneQ f)
  | .vshr f => some (eV3 0x1D encLaneQ f)
  | .vsar f => some (eV3 0x1E encLaneQ f)
  | .vmrg f => some (eVK f)
  | .vred f => some (eRed f)
  | .vperm f => some (eV3 0x21 encLaneQ f)
  | .vbcast f => some (eLane 0x22 f)
  | .vextr f => some (eLane 0x23 f)
  | .vins f => some (eLane 0x24 f)
  | .vcvt f => some (eCvt f)
  | .vpack f => some (ePack 0x26 f)
  | .vunpk f => some (ePack 0x27 f)
  | .vmov f => some (eV1n 0x28 f)
  | .vmovPush f => some (eVpush f)
  | .klog f => some (eKL f)
  | .vld f => some (eVld 0x2B f)
  | .vst f => some (eVst f)
  | .vlds f => some (eVld 0x2D f)
  | .vgather f => some (eV3 0x2E encLaneQ f)
  | .vscatter f => some (eScat f)
  | .dnorm f => some (eDN 0x30 f)
  | .dunnorm f => some (eDN 0x31 f)
  | .dmov f => some (eD1 0x32 0 f)
  | .dmovRaw f => some (eD1 0x32 1 f)
  | .dzero f => some (eD0 f)
  | .ddot f => some (eD2 0x34 f)
  | .dscale f => some (eD2 0x35 f)
  | .dadd f => some (eD2 0x36 f)
  | .dsub f => some (eD2 0x37 f)
  | .dneg f => some (eD1 0x38 0 f)
  | .dmul f => some (eD2 0x39 f)
  | .dmaxcos f => some (eDM f)
  | .dnget f => some (eDG f)
  | .dnset f => some (eD2 0x3C f)
  | .mload f => some (eAB 0x02 0 f)
  | .mcall f => some (eMcall f)
  | .rset f => some (eRset f)
  | .rpush f => some (eE2 0x05 f)
  | .rstat f => some (eRstat f)
  | .sbind f => some (ePortA 0x07 0 f)
  | .sunbind f => some (ePort f)
  | .scfgSeek f => some (ePortA 0x09 0 f)
  | .scfgRep f => some (ePortA 0x09 1 f)
  | .crec f => some (eAB 0x0A 0 f)
  | .copy f => some (eCopy f)
  | .cresumePatch f => some (eZsub 0x0C 0 f)
  | .cresumeRetry f => some (eZsub 0x0C 1 f)
  | .cresumeSkip f => some (eZsub 0x0C 2 f)
  | .cstat f => some (eCstat f)
  | .hset f => some (eAB 0x0E 0 f)
  | .hwait f => some (eHwait f)
  | .hwaitClaim f => some (eE1 0x0F 2 f)
  | .hquery f => some (eE1 0x10 0 f)
  | .trcfg f => some (eA 0x11 0 f)
  | .trpush f => some (eTrpush f)
  | .trpull f => some (eTrpull f)
  | .bclear f => some (eAB 0x14 0 f)
  | .release f => some (eRel f)
  | .publish f => some (eA 0x16 0 f)
  | .rndseek f => some (eA 0x17 0 f)
  | .rndstat f => some (eRnd f)
  | .step _ => none
  | .steph _ => none
  | .slide _ => none
  | .shift _ => none
  | .inj _ => none
  | .clrp _ => none
  | .ldp _ => none
  | .drnp _ => none
  | .hexp => none
  | .hmrg _ => none
  | .bndm _ => none
  | .uloop _ => none
  | .uend => none
  | .uwait _ => none
  | .uret => none
  | .planeCallStart _ => none
  | .haloGrant _ => none
  | .haloArrival _ _ => none
  | .notify _ _ => none
  | .queueEnable _ _ => none
  | .teardown _ _ => none
  | .teardownAbort _ _ => none
  | .objset _ _ => none
  | .ephconsWrite _ _ => none
  | .loglimitWrite _ _ => none
  | .logprodWrite _ _ => none
  | .registerWrite _ _ _ => none
  | .packetAccept _ _ => none
  | .placeAndLoad _ => none
  | .contextRetirement _ _ => none
  | .launchRetirement _ => none
  | .ephemerisRecordWrite _ => none
  | .tenantPreemptionSave _ => none
  | .resultWriteback _ _ => none
  | .fmtTakesEffect _ _ => none
  | .pendingResultLands _ => none
  | .trapDelivery _ _ => none
  | .terminalTrap _ _ => none
  | .contextPreemption _ _ => none
  | .contextResume _ _ => none
  | .copyBegin _ => none
  | .copyComplete _ _ _ => none
  | .copyElementFault _ _ _ _ => none
  | .ringTailAdvance _ _ => none
  | .streamReadahead _ _ => none
  | .streamPushWrite _ _ => none
  | .transposeColumnReady _ => none
  | .randomVectorProduce _ => none
  | .walkStart _ => none
  | .walkComplete _ _ => none
  | .homeWrite _ => none
  | .remoteWriteApply _ _ => none
  | .replicaUpdate _ _ => none
  | .homeReadService _ _ _ => none
  | .writeAcknowledge _ => none
  | .errorResponse _ => none
  | .fullEmptyService _ _ => none
  | .atomicService _ => none
  | .atomicRetryTimeout _ => none
  | .atomicAck _ => none
  | .serialiserStamp => none
  | .vsyncComplete _ _ => none
  | .groupRequestApply => none
  | .snapadvComplete _ _ => none
  | .releaseGateDecision => none
  | .publishVersionWrite _ _ _ => none
  | .objectAnswerDelivery _ _ => none
  | .installDescriptor _ => none
  | .writePageTableEntries _ => none
  | .rangeEntries _ => none
  | .egressWindow _ => none
  | .publicationWindow _ => none
  | .releasePolicy _ => none
  | .resetPartitionRequest _ => none
  | .readManifest _ => none
  | .attest _ => none
  | .debugAttach _ => none
  | .debugHalt _ _ => none
  | .debugResume _ _ => none
  | .debugPreemptContext _ _ _ => none
  | .debugStateRead _ _ _ _ => none
  | .readFaultRegisters _ => none
  | .readHarvestMap _ => none
  | .mailboxResponse _ => none
  | .functionLevelReset _ => none
  | .meshRoutesInstalled => none
  | .moduleReset _ => none
  | .linkRetrainOrDrop _ _ => none
  | .peerPortTrained _ => none
  | .peerPortTrainingLoss _ => none
  | .powerWindowEnd _ => none
  | .frequencyChange _ => none
  | .islandOvertemp _ => none
  | .islandCooled _ => none
  | .thermalTrip => none
  | .correctableError _ => none
  | .errorWindowEnd => none
  | .unlistedMailboxOpcode _ => none

/-- The guard of a slot instruction (R134); micro-ops and events have none. -/
def Instr.guard : Instr → Option Guard
  | .nop f => some f.gd
  | .add f => some f.gd
  | .sub f => some f.gd
  | .mul f => some f.gd
  | .mulh f => some f.gd
  | .mulhu f => some f.gd
  | .div f => some f.gd
  | .divu f => some f.gd
  | .rem f => some f.gd
  | .remu f => some f.gd
  | .and f => some f.gd
  | .or f => some f.gd
  | .xor f => some f.gd
  | .andn f => some f.gd
  | .shl f => some f.gd
  | .shr f => some f.gd
  | .sar f => some f.gd
  | .min f => some f.gd
  | .max f => some f.gd
  | .minu f => some f.gd
  | .maxu f => some f.gd
  | .clz f => some f.gd
  | .ctz f => some f.gd
  | .popc f => some f.gd
  | .sel f => some f.gd
  | .addi f => some f.gd
  | .andi f => some f.gd
  | .ori f => some f.gd
  | .xori f => some f.gd
  | .shli f => some f.gd
  | .shri f => some f.gd
  | .sari f => some f.gd
  | .movi f => some f.gd
  | .movsh f => some f.gd
  | .cmp f => some f.gd
  | .plog f => some f.gd
  | .br f => some f.gd
  | .call f => some f.gd
  | .calli f => some f.gd
  | .ret f => some f.gd
  | .bswap f => some f.gd
  | .ifence f => some f.gd
  | .ld f => some f.gd
  | .lds f => some f.gd
  | .st f => some f.gd
  | .ldfe f => some f.gd
  | .stfe f => some f.gd
  | .pld f => some f.gd
  | .xmov f => some f.gd
  | .sysr f => some f.gd
  | .sysw f => some f.gd
  | .setfmt f => some f.gd
  | .lda f => some f.gd
  | .stl f => some f.gd
  | .fence f => some f.gd
  | .vsync f => some f.gd
  | .aadd f => some f.gd
  | .aand f => some f.gd
  | .aor f => some f.gd
  | .axor f => some f.gd
  | .amin f => some f.gd
  | .amax f => some f.gd
  | .aminu f => some f.gd
  | .amaxu f => some f.gd
  | .aswap f => some f.gd
  | .acas f => some f.gd
  | .afadd f => some f.gd
  | .axread f => some f.gd
  | .axclr f => some f.gd
  | .gjoin f => some f.gd
  | .gleave f => some f.gd
  | .gbar f => some f.gd
  | .gquery f => some f.gd
  | .snapadv f => some f.gd
  | .phase f => some f.gd
  | .lblget f => some f.gd
  | .lblraise f => some f.gd
  | .trap f => some f.gd
  | .eret f => some f.gd
  | .yield f => some f.gd
  | .waite f => some f.gd
  | .haltctx f => some f.gd
  | .dbgbrk f => some f.gd
  | .vadd f => some f.gd
  | .vsub f => some f.gd
  | .vmul f => some f.gd
  | .vfma f => some f.gd
  | .vfms f => some f.gd
  | .vmin f => some f.gd
  | .vmax f => some f.gd
  | .vabs f => some f.gd
  | .vneg f => some f.gd
  | .vrcp f => some f.gd
  | .vrsq f => some f.gd
  | .vsqrt f => some f.gd
  | .vexp2 f => some f.gd
  | .vlog2 f => some f.gd
  | .vcmp f => some f.gd
  | .viadd f => some f.gd
  | .visub f => some f.gd
  | .vimul f => some f.gd
  | .vimad f => some f.gd
  | .vimin f => some f.gd
  | .vimax f => some f.gd
  | .vicmp f => some f.gd
  | .vand f => some f.gd
  | .vor f => some f.gd
  | .vxor f => some f.gd
  | .vandn f => some f.gd
  | .vshl f => some f.gd
  | .vshr f => some f.gd
  | .vsar f => some f.gd
  | .vmrg f => some f.gd
  | .vred f => some f.gd
  | .vperm f => some f.gd
  | .vbcast f => some f.gd
  | .vextr f => some f.gd
  | .vins f => some f.gd
  | .vcvt f => some f.gd
  | .vpack f => some f.gd
  | .vunpk f => some f.gd
  | .vmov f => some f.gd
  | .vmovPush f => some f.gd
  | .klog f => some f.gd
  | .vld f => some f.gd
  | .vst f => some f.gd
  | .vlds f => some f.gd
  | .vgather f => some f.gd
  | .vscatter f => some f.gd
  | .dnorm f => some f.gd
  | .dunnorm f => some f.gd
  | .dmov f => some f.gd
  | .dmovRaw f => some f.gd
  | .dzero f => some f.gd
  | .ddot f => some f.gd
  | .dscale f => some f.gd
  | .dadd f => some f.gd
  | .dsub f => some f.gd
  | .dneg f => some f.gd
  | .dmul f => some f.gd
  | .dmaxcos f => some f.gd
  | .dnget f => some f.gd
  | .dnset f => some f.gd
  | .mload f => some f.gd
  | .mcall f => some f.gd
  | .rset f => some f.gd
  | .rpush f => some f.gd
  | .rstat f => some f.gd
  | .sbind f => some f.gd
  | .sunbind f => some f.gd
  | .scfgSeek f => some f.gd
  | .scfgRep f => some f.gd
  | .crec f => some f.gd
  | .copy f => some f.gd
  | .cresumePatch f => some f.gd
  | .cresumeRetry f => some f.gd
  | .cresumeSkip f => some f.gd
  | .cstat f => some f.gd
  | .hset f => some f.gd
  | .hwait f => some f.gd
  | .hwaitClaim f => some f.gd
  | .hquery f => some f.gd
  | .trcfg f => some f.gd
  | .trpush f => some f.gd
  | .trpull f => some f.gd
  | .bclear f => some f.gd
  | .release f => some f.gd
  | .publish f => some f.gd
  | .rndseek f => some f.gd
  | .rndstat f => some f.gd
  | .step _ => none
  | .steph _ => none
  | .slide _ => none
  | .shift _ => none
  | .inj _ => none
  | .clrp _ => none
  | .ldp _ => none
  | .drnp _ => none
  | .hexp => none
  | .hmrg _ => none
  | .bndm _ => none
  | .uloop _ => none
  | .uend => none
  | .uwait _ => none
  | .uret => none
  | .planeCallStart _ => none
  | .haloGrant _ => none
  | .haloArrival _ _ => none
  | .notify _ _ => none
  | .queueEnable _ _ => none
  | .teardown _ _ => none
  | .teardownAbort _ _ => none
  | .objset _ _ => none
  | .ephconsWrite _ _ => none
  | .loglimitWrite _ _ => none
  | .logprodWrite _ _ => none
  | .registerWrite _ _ _ => none
  | .packetAccept _ _ => none
  | .placeAndLoad _ => none
  | .contextRetirement _ _ => none
  | .launchRetirement _ => none
  | .ephemerisRecordWrite _ => none
  | .tenantPreemptionSave _ => none
  | .resultWriteback _ _ => none
  | .fmtTakesEffect _ _ => none
  | .pendingResultLands _ => none
  | .trapDelivery _ _ => none
  | .terminalTrap _ _ => none
  | .contextPreemption _ _ => none
  | .contextResume _ _ => none
  | .copyBegin _ => none
  | .copyComplete _ _ _ => none
  | .copyElementFault _ _ _ _ => none
  | .ringTailAdvance _ _ => none
  | .streamReadahead _ _ => none
  | .streamPushWrite _ _ => none
  | .transposeColumnReady _ => none
  | .randomVectorProduce _ => none
  | .walkStart _ => none
  | .walkComplete _ _ => none
  | .homeWrite _ => none
  | .remoteWriteApply _ _ => none
  | .replicaUpdate _ _ => none
  | .homeReadService _ _ _ => none
  | .writeAcknowledge _ => none
  | .errorResponse _ => none
  | .fullEmptyService _ _ => none
  | .atomicService _ => none
  | .atomicRetryTimeout _ => none
  | .atomicAck _ => none
  | .serialiserStamp => none
  | .vsyncComplete _ _ => none
  | .groupRequestApply => none
  | .snapadvComplete _ _ => none
  | .releaseGateDecision => none
  | .publishVersionWrite _ _ _ => none
  | .objectAnswerDelivery _ _ => none
  | .installDescriptor _ => none
  | .writePageTableEntries _ => none
  | .rangeEntries _ => none
  | .egressWindow _ => none
  | .publicationWindow _ => none
  | .releasePolicy _ => none
  | .resetPartitionRequest _ => none
  | .readManifest _ => none
  | .attest _ => none
  | .debugAttach _ => none
  | .debugHalt _ _ => none
  | .debugResume _ _ => none
  | .debugPreemptContext _ _ _ => none
  | .debugStateRead _ _ _ _ => none
  | .readFaultRegisters _ => none
  | .readHarvestMap _ => none
  | .mailboxResponse _ => none
  | .functionLevelReset _ => none
  | .meshRoutesInstalled => none
  | .moduleReset _ => none
  | .linkRetrainOrDrop _ _ => none
  | .peerPortTrained _ => none
  | .peerPortTrainingLoss _ => none
  | .powerWindowEnd _ => none
  | .frequencyChange _ => none
  | .islandOvertemp _ => none
  | .islandCooled _ => none
  | .thermalTrip => none
  | .correctableError _ => none
  | .errorWindowEnd => none
  | .unlistedMailboxOpcode _ => none

/-- The operand codes that an instruction names in its A and B fields (R136). -/
def Instr.opnds : Instr → List Opnd
  | .nop _ => []
  | .add f => [f.a, f.b]
  | .sub f => [f.a, f.b]
  | .mul f => [f.a, f.b]
  | .mulh f => [f.a, f.b]
  | .mulhu f => [f.a, f.b]
  | .div f => [f.a, f.b]
  | .divu f => [f.a, f.b]
  | .rem f => [f.a, f.b]
  | .remu f => [f.a, f.b]
  | .and f => [f.a, f.b]
  | .or f => [f.a, f.b]
  | .xor f => [f.a, f.b]
  | .andn f => [f.a, f.b]
  | .shl f => [f.a, f.b]
  | .shr f => [f.a, f.b]
  | .sar f => [f.a, f.b]
  | .min f => [f.a, f.b]
  | .max f => [f.a, f.b]
  | .minu f => [f.a, f.b]
  | .maxu f => [f.a, f.b]
  | .clz f => [f.a]
  | .ctz f => [f.a]
  | .popc f => [f.a]
  | .sel f => [f.a, f.b]
  | .addi f => [f.a]
  | .andi f => [f.a]
  | .ori f => [f.a]
  | .xori f => [f.a]
  | .shli f => [f.a]
  | .shri f => [f.a]
  | .sari f => [f.a]
  | .movi _ => []
  | .movsh _ => []
  | .cmp f => [f.a, f.b]
  | .plog _ => []
  | .br _ => []
  | .call _ => []
  | .calli f => [f.a]
  | .ret _ => []
  | .bswap _ => []
  | .ifence _ => []
  | .ld f => [f.a]
  | .lds f => [f.a]
  | .st f => [f.a]
  | .ldfe f => [f.a]
  | .stfe f => [f.a]
  | .pld f => [f.a]
  | .xmov f => [f.a]
  | .sysr _ => []
  | .sysw _ => []
  | .setfmt f => [f.a]
  | .lda f => [f.a]
  | .stl f => [f.a]
  | .fence _ => []
  | .vsync _ => []
  | .aadd f => [f.a, f.b]
  | .aand f => [f.a, f.b]
  | .aor f => [f.a, f.b]
  | .axor f => [f.a, f.b]
  | .amin f => [f.a, f.b]
  | .amax f => [f.a, f.b]
  | .aminu f => [f.a, f.b]
  | .amaxu f => [f.a, f.b]
  | .aswap f => [f.a, f.b]
  | .acas f => [f.a, f.b]
  | .afadd f => [f.a, f.b]
  | .axread f => [f.a]
  | .axclr f => [f.a]
  | .gjoin f => [f.a]
  | .gleave f => [f.a]
  | .gbar f => [f.a]
  | .gquery f => [f.a]
  | .snapadv f => [f.a, f.b]
  | .phase f => [f.a]
  | .lblget f => [f.a]
  | .lblraise f => [f.a, f.b]
  | .trap _ => []
  | .eret _ => []
  | .yield _ => []
  | .waite f => [f.a]
  | .haltctx _ => []
  | .dbgbrk _ => []
  | .vadd f => [f.a, f.b]
  | .vsub f => [f.a, f.b]
  | .vmul f => [f.a, f.b]
  | .vfma f => [f.a, f.b]
  | .vfms f => [f.a, f.b]
  | .vmin f => [f.a, f.b]
  | .vmax f => [f.a, f.b]
  | .vabs f => [f.a]
  | .vneg f => [f.a]
  | .vrcp f => [f.a]
  | .vrsq f => [f.a]
  | .vsqrt f => [f.a]
  | .vexp2 f => [f.a]
  | .vlog2 f => [f.a]
  | .vcmp f => [f.a, f.b]
  | .viadd f => [f.a, f.b]
  | .visub f => [f.a, f.b]
  | .vimul f => [f.a, f.b]
  | .vimad f => [f.a, f.b]
  | .vimin f => [f.a, f.b]
  | .vimax f => [f.a, f.b]
  | .vicmp f => [f.a, f.b]
  | .vand f => [f.a, f.b]
  | .vor f => [f.a, f.b]
  | .vxor f => [f.a, f.b]
  | .vandn f => [f.a, f.b]
  | .vshl f => [f.a, f.b]
  | .vshr f => [f.a, f.b]
  | .vsar f => [f.a, f.b]
  | .vmrg f => [f.a]
  | .vred f => [f.a]
  | .vperm f => [f.a, f.b]
  | .vbcast f => [f.a]
  | .vextr f => [f.a]
  | .vins f => [f.a]
  | .vcvt f => [f.a]
  | .vpack f => [f.a]
  | .vunpk f => [f.a]
  | .vmov f => [f.a]
  | .vmovPush f => [f.a]
  | .klog _ => []
  | .vld f => [f.a, f.b]
  | .vst f => [f.a, f.b]
  | .vlds f => [f.a, f.b]
  | .vgather f => [f.a, f.b]
  | .vscatter f => [f.a, f.b]
  | .dnorm f => [f.a]
  | .dunnorm f => [f.a]
  | .dmov f => [f.a]
  | .dmovRaw f => [f.a]
  | .dzero _ => []
  | .ddot f => [f.a, f.b]
  | .dscale f => [f.a, f.b]
  | .dadd f => [f.a, f.b]
  | .dsub f => [f.a, f.b]
  | .dneg f => [f.a]
  | .dmul f => [f.a, f.b]
  | .dmaxcos f => [f.a, .port f.port]
  | .dnget f => [f.a]
  | .dnset f => [f.a, f.b]
  | .mload f => [f.a, f.b]
  | .mcall _ => []
  | .rset f => [f.a]
  | .rpush f => [f.a, f.b]
  | .rstat f => [f.a]
  | .sbind f => [f.a]
  | .sunbind _ => []
  | .scfgSeek f => [f.a]
  | .scfgRep f => [f.a]
  | .crec f => [f.a, f.b]
  | .copy f => [f.a, f.b]
  | .cresumePatch _ => []
  | .cresumeRetry _ => []
  | .cresumeSkip _ => []
  | .cstat _ => []
  | .hset f => [f.a, f.b]
  | .hwait f => [f.a]
  | .hwaitClaim f => [f.a]
  | .hquery f => [f.a]
  | .trcfg f => [f.a]
  | .trpush _ => []
  | .trpull _ => []
  | .bclear f => [f.a, f.b]
  | .release f => [f.a, f.b]
  | .publish f => [f.a]
  | .rndseek f => [f.a]
  | .rndstat _ => []
  | .step _ => []
  | .steph _ => []
  | .slide _ => []
  | .shift _ => []
  | .inj _ => []
  | .clrp _ => []
  | .ldp _ => []
  | .drnp _ => []
  | .hexp => []
  | .hmrg _ => []
  | .bndm _ => []
  | .uloop _ => []
  | .uend => []
  | .uwait _ => []
  | .uret => []
  | .planeCallStart _ => []
  | .haloGrant _ => []
  | .haloArrival _ _ => []
  | .notify _ _ => []
  | .queueEnable _ _ => []
  | .teardown _ _ => []
  | .teardownAbort _ _ => []
  | .objset _ _ => []
  | .ephconsWrite _ _ => []
  | .loglimitWrite _ _ => []
  | .logprodWrite _ _ => []
  | .registerWrite _ _ _ => []
  | .packetAccept _ _ => []
  | .placeAndLoad _ => []
  | .contextRetirement _ _ => []
  | .launchRetirement _ => []
  | .ephemerisRecordWrite _ => []
  | .tenantPreemptionSave _ => []
  | .resultWriteback _ _ => []
  | .fmtTakesEffect _ _ => []
  | .pendingResultLands _ => []
  | .trapDelivery _ _ => []
  | .terminalTrap _ _ => []
  | .contextPreemption _ _ => []
  | .contextResume _ _ => []
  | .copyBegin _ => []
  | .copyComplete _ _ _ => []
  | .copyElementFault _ _ _ _ => []
  | .ringTailAdvance _ _ => []
  | .streamReadahead _ _ => []
  | .streamPushWrite _ _ => []
  | .transposeColumnReady _ => []
  | .randomVectorProduce _ => []
  | .walkStart _ => []
  | .walkComplete _ _ => []
  | .homeWrite _ => []
  | .remoteWriteApply _ _ => []
  | .replicaUpdate _ _ => []
  | .homeReadService _ _ _ => []
  | .writeAcknowledge _ => []
  | .errorResponse _ => []
  | .fullEmptyService _ _ => []
  | .atomicService _ => []
  | .atomicRetryTimeout _ => []
  | .atomicAck _ => []
  | .serialiserStamp => []
  | .vsyncComplete _ _ => []
  | .groupRequestApply => []
  | .snapadvComplete _ _ => []
  | .releaseGateDecision => []
  | .publishVersionWrite _ _ _ => []
  | .objectAnswerDelivery _ _ => []
  | .installDescriptor _ => []
  | .writePageTableEntries _ => []
  | .rangeEntries _ => []
  | .egressWindow _ => []
  | .publicationWindow _ => []
  | .releasePolicy _ => []
  | .resetPartitionRequest _ => []
  | .readManifest _ => []
  | .attest _ => []
  | .debugAttach _ => []
  | .debugHalt _ _ => []
  | .debugResume _ _ => []
  | .debugPreemptContext _ _ _ => []
  | .debugStateRead _ _ _ _ => []
  | .readFaultRegisters _ => []
  | .readHarvestMap _ => []
  | .mailboxResponse _ => []
  | .functionLevelReset _ => []
  | .meshRoutesInstalled => []
  | .moduleReset _ => []
  | .linkRetrainOrDrop _ _ => []
  | .peerPortTrained _ => []
  | .peerPortTrainingLoss _ => []
  | .powerWindowEnd _ => []
  | .frequencyChange _ => []
  | .islandOvertemp _ => []
  | .islandCooled _ => []
  | .thermalTrip => []
  | .correctableError _ => []
  | .errorWindowEnd => []
  | .unlistedMailboxOpcode _ => []

/-- Lane groups that a vector slot needs (R138). -/
def Instr.groups : Instr → Nat
  | .nop _ => 0
  | .add _ => 0
  | .sub _ => 0
  | .mul _ => 0
  | .mulh _ => 0
  | .mulhu _ => 0
  | .div _ => 0
  | .divu _ => 0
  | .rem _ => 0
  | .remu _ => 0
  | .and _ => 0
  | .or _ => 0
  | .xor _ => 0
  | .andn _ => 0
  | .shl _ => 0
  | .shr _ => 0
  | .sar _ => 0
  | .min _ => 0
  | .max _ => 0
  | .minu _ => 0
  | .maxu _ => 0
  | .clz _ => 0
  | .ctz _ => 0
  | .popc _ => 0
  | .sel _ => 0
  | .addi _ => 0
  | .andi _ => 0
  | .ori _ => 0
  | .xori _ => 0
  | .shli _ => 0
  | .shri _ => 0
  | .sari _ => 0
  | .movi _ => 0
  | .movsh _ => 0
  | .cmp _ => 0
  | .plog _ => 0
  | .br _ => 0
  | .call _ => 0
  | .calli _ => 0
  | .ret _ => 0
  | .bswap _ => 0
  | .ifence _ => 0
  | .ld _ => 0
  | .lds _ => 0
  | .st _ => 0
  | .ldfe _ => 0
  | .stfe _ => 0
  | .pld _ => 0
  | .xmov _ => 0
  | .sysr _ => 0
  | .sysw _ => 0
  | .setfmt _ => 0
  | .lda _ => 0
  | .stl _ => 0
  | .fence _ => 0
  | .vsync _ => 0
  | .aadd _ => 0
  | .aand _ => 0
  | .aor _ => 0
  | .axor _ => 0
  | .amin _ => 0
  | .amax _ => 0
  | .aminu _ => 0
  | .amaxu _ => 0
  | .aswap _ => 0
  | .acas _ => 0
  | .afadd _ => 0
  | .axread _ => 0
  | .axclr _ => 0
  | .gjoin _ => 0
  | .gleave _ => 0
  | .gbar _ => 0
  | .gquery _ => 0
  | .snapadv _ => 0
  | .phase _ => 0
  | .lblget _ => 0
  | .lblraise _ => 0
  | .trap _ => 0
  | .eret _ => 0
  | .yield _ => 0
  | .waite _ => 0
  | .haltctx _ => 0
  | .dbgbrk _ => 0
  | .vadd f => f.width.groups
  | .vsub f => f.width.groups
  | .vmul f => f.width.groups
  | .vfma f => f.width.groups
  | .vfms f => f.width.groups
  | .vmin f => f.width.groups
  | .vmax f => f.width.groups
  | .vabs f => f.width.groups
  | .vneg f => f.width.groups
  | .vrcp f => f.width.groups
  | .vrsq f => f.width.groups
  | .vsqrt f => f.width.groups
  | .vexp2 f => f.width.groups
  | .vlog2 f => f.width.groups
  | .vcmp f => f.width.groups
  | .viadd f => f.width.groups
  | .visub f => f.width.groups
  | .vimul f => f.width.groups
  | .vimad f => f.width.groups
  | .vimin f => f.width.groups
  | .vimax f => f.width.groups
  | .vicmp f => f.width.groups
  | .vand f => f.width.groups
  | .vor f => f.width.groups
  | .vxor f => f.width.groups
  | .vandn f => f.width.groups
  | .vshl f => f.width.groups
  | .vshr f => f.width.groups
  | .vsar f => f.width.groups
  | .vmrg f => f.width.groups
  | .vred f => f.width.groups
  | .vperm f => f.width.groups
  | .vbcast f => f.width.groups
  | .vextr f => f.width.groups
  | .vins f => f.width.groups
  | .vcvt f => f.width.groups
  | .vpack f => f.width.groups
  | .vunpk f => f.width.groups
  | .vmov f => f.width.groups
  | .vmovPush f => f.width.groups
  | .klog _ => 0
  | .vld f => f.width.groups
  | .vst f => f.width.groups
  | .vlds f => f.width.groups
  | .vgather f => f.width.groups
  | .vscatter f => f.width.groups
  | .dnorm _ => 0
  | .dunnorm _ => 0
  | .dmov _ => 0
  | .dmovRaw _ => 0
  | .dzero _ => 0
  | .ddot _ => 0
  | .dscale _ => 0
  | .dadd _ => 0
  | .dsub _ => 0
  | .dneg _ => 0
  | .dmul _ => 0
  | .dmaxcos _ => 0
  | .dnget _ => 0
  | .dnset _ => 0
  | .mload _ => 0
  | .mcall _ => 0
  | .rset _ => 0
  | .rpush _ => 0
  | .rstat _ => 0
  | .sbind _ => 0
  | .sunbind _ => 0
  | .scfgSeek _ => 0
  | .scfgRep _ => 0
  | .crec _ => 0
  | .copy _ => 0
  | .cresumePatch _ => 0
  | .cresumeRetry _ => 0
  | .cresumeSkip _ => 0
  | .cstat _ => 0
  | .hset _ => 0
  | .hwait _ => 0
  | .hwaitClaim _ => 0
  | .hquery _ => 0
  | .trcfg _ => 0
  | .trpush _ => 0
  | .trpull _ => 0
  | .bclear _ => 0
  | .release _ => 0
  | .publish _ => 0
  | .rndseek _ => 0
  | .rndstat _ => 0
  | .step _ => 0
  | .steph _ => 0
  | .slide _ => 0
  | .shift _ => 0
  | .inj _ => 0
  | .clrp _ => 0
  | .ldp _ => 0
  | .drnp _ => 0
  | .hexp => 0
  | .hmrg _ => 0
  | .bndm _ => 0
  | .uloop _ => 0
  | .uend => 0
  | .uwait _ => 0
  | .uret => 0
  | .planeCallStart _ => 0
  | .haloGrant _ => 0
  | .haloArrival _ _ => 0
  | .notify _ _ => 0
  | .queueEnable _ _ => 0
  | .teardown _ _ => 0
  | .teardownAbort _ _ => 0
  | .objset _ _ => 0
  | .ephconsWrite _ _ => 0
  | .loglimitWrite _ _ => 0
  | .logprodWrite _ _ => 0
  | .registerWrite _ _ _ => 0
  | .packetAccept _ _ => 0
  | .placeAndLoad _ => 0
  | .contextRetirement _ _ => 0
  | .launchRetirement _ => 0
  | .ephemerisRecordWrite _ => 0
  | .tenantPreemptionSave _ => 0
  | .resultWriteback _ _ => 0
  | .fmtTakesEffect _ _ => 0
  | .pendingResultLands _ => 0
  | .trapDelivery _ _ => 0
  | .terminalTrap _ _ => 0
  | .contextPreemption _ _ => 0
  | .contextResume _ _ => 0
  | .copyBegin _ => 0
  | .copyComplete _ _ _ => 0
  | .copyElementFault _ _ _ _ => 0
  | .ringTailAdvance _ _ => 0
  | .streamReadahead _ _ => 0
  | .streamPushWrite _ _ => 0
  | .transposeColumnReady _ => 0
  | .randomVectorProduce _ => 0
  | .walkStart _ => 0
  | .walkComplete _ _ => 0
  | .homeWrite _ => 0
  | .remoteWriteApply _ _ => 0
  | .replicaUpdate _ _ => 0
  | .homeReadService _ _ _ => 0
  | .writeAcknowledge _ => 0
  | .errorResponse _ => 0
  | .fullEmptyService _ _ => 0
  | .atomicService _ => 0
  | .atomicRetryTimeout _ => 0
  | .atomicAck _ => 0
  | .serialiserStamp => 0
  | .vsyncComplete _ _ => 0
  | .groupRequestApply => 0
  | .snapadvComplete _ _ => 0
  | .releaseGateDecision => 0
  | .publishVersionWrite _ _ _ => 0
  | .objectAnswerDelivery _ _ => 0
  | .installDescriptor _ => 0
  | .writePageTableEntries _ => 0
  | .rangeEntries _ => 0
  | .egressWindow _ => 0
  | .publicationWindow _ => 0
  | .releasePolicy _ => 0
  | .resetPartitionRequest _ => 0
  | .readManifest _ => 0
  | .attest _ => 0
  | .debugAttach _ => 0
  | .debugHalt _ _ => 0
  | .debugResume _ _ => 0
  | .debugPreemptContext _ _ _ => 0
  | .debugStateRead _ _ _ _ => 0
  | .readFaultRegisters _ => 0
  | .readHarvestMap _ => 0
  | .mailboxResponse _ => 0
  | .functionLevelReset _ => 0
  | .meshRoutesInstalled => 0
  | .moduleReset _ => 0
  | .linkRetrainOrDrop _ _ => 0
  | .peerPortTrained _ => 0
  | .peerPortTrainingLoss _ => 0
  | .powerWindowEnd _ => 0
  | .frequencyChange _ => 0
  | .islandOvertemp _ => 0
  | .islandCooled _ => 0
  | .thermalTrip => 0
  | .correctableError _ => 0
  | .errorWindowEnd => 0
  | .unlistedMailboxOpcode _ => 0

/-- Whether an instruction may stand in a slot (R153, R155, R156). -/
def Instr.inSlot : Instr → Nat → Bool
  | .nop _, _ => true
  | .add _, k => k == 0
  | .sub _, k => k == 0
  | .mul _, k => k == 0
  | .mulh _, k => k == 0
  | .mulhu _, k => k == 0
  | .div _, k => k == 0
  | .divu _, k => k == 0
  | .rem _, k => k == 0
  | .remu _, k => k == 0
  | .and _, k => k == 0
  | .or _, k => k == 0
  | .xor _, k => k == 0
  | .andn _, k => k == 0
  | .shl _, k => k == 0
  | .shr _, k => k == 0
  | .sar _, k => k == 0
  | .min _, k => k == 0
  | .max _, k => k == 0
  | .minu _, k => k == 0
  | .maxu _, k => k == 0
  | .clz _, k => k == 0
  | .ctz _, k => k == 0
  | .popc _, k => k == 0
  | .sel _, k => k == 0
  | .addi _, k => k == 0
  | .andi _, k => k == 0
  | .ori _, k => k == 0
  | .xori _, k => k == 0
  | .shli _, k => k == 0
  | .shri _, k => k == 0
  | .sari _, k => k == 0
  | .movi _, k => k == 0
  | .movsh _, k => k == 0
  | .cmp _, k => k == 0
  | .plog _, k => k == 0
  | .br _, k => k == 0
  | .call _, k => k == 0
  | .calli _, k => k == 0
  | .ret _, k => k == 0
  | .bswap _, k => k == 0
  | .ifence _, k => k == 0
  | .ld _, k => k == 0
  | .lds _, k => k == 0
  | .st _, k => k == 0
  | .ldfe _, k => k == 0
  | .stfe _, k => k == 0
  | .pld _, k => k == 0
  | .xmov _, k => k == 0
  | .sysr _, k => k == 0
  | .sysw _, k => k == 0
  | .setfmt _, k => k == 0
  | .lda _, k => k == 0
  | .stl _, k => k == 0
  | .fence _, k => k == 0
  | .vsync _, k => k == 0
  | .aadd _, k => k == 0
  | .aand _, k => k == 0
  | .aor _, k => k == 0
  | .axor _, k => k == 0
  | .amin _, k => k == 0
  | .amax _, k => k == 0
  | .aminu _, k => k == 0
  | .amaxu _, k => k == 0
  | .aswap _, k => k == 0
  | .acas _, k => k == 0
  | .afadd _, k => k == 0
  | .axread _, k => k == 0
  | .axclr _, k => k == 0
  | .gjoin _, k => k == 0
  | .gleave _, k => k == 0
  | .gbar _, k => k == 0
  | .gquery _, k => k == 0
  | .snapadv _, k => k == 0
  | .phase _, k => k == 0
  | .lblget _, k => k == 0
  | .lblraise _, k => k == 0
  | .trap _, k => k == 0
  | .eret _, k => k == 0
  | .yield _, k => k == 0
  | .waite _, k => k == 0
  | .haltctx _, k => k == 0
  | .dbgbrk _, k => k == 0
  | .vadd _, k => k == 1 || k == 2
  | .vsub _, k => k == 1 || k == 2
  | .vmul _, k => k == 1 || k == 2
  | .vfma _, k => k == 1 || k == 2
  | .vfms _, k => k == 1 || k == 2
  | .vmin _, k => k == 1 || k == 2
  | .vmax _, k => k == 1 || k == 2
  | .vabs _, k => k == 1 || k == 2
  | .vneg _, k => k == 1 || k == 2
  | .vrcp _, k => k == 1 || k == 2
  | .vrsq _, k => k == 1 || k == 2
  | .vsqrt _, k => k == 1 || k == 2
  | .vexp2 _, k => k == 1 || k == 2
  | .vlog2 _, k => k == 1 || k == 2
  | .vcmp _, k => k == 1 || k == 2
  | .viadd _, k => k == 1 || k == 2
  | .visub _, k => k == 1 || k == 2
  | .vimul _, k => k == 1 || k == 2
  | .vimad _, k => k == 1 || k == 2
  | .vimin _, k => k == 1 || k == 2
  | .vimax _, k => k == 1 || k == 2
  | .vicmp _, k => k == 1 || k == 2
  | .vand _, k => k == 1 || k == 2
  | .vor _, k => k == 1 || k == 2
  | .vxor _, k => k == 1 || k == 2
  | .vandn _, k => k == 1 || k == 2
  | .vshl _, k => k == 1 || k == 2
  | .vshr _, k => k == 1 || k == 2
  | .vsar _, k => k == 1 || k == 2
  | .vmrg _, k => k == 1 || k == 2
  | .vred _, k => k == 1 || k == 2
  | .vperm _, k => k == 1 || k == 2
  | .vbcast _, k => k == 1 || k == 2
  | .vextr _, k => k == 1 || k == 2
  | .vins _, k => k == 1 || k == 2
  | .vcvt _, k => k == 1 || k == 2
  | .vpack _, k => k == 1 || k == 2
  | .vunpk _, k => k == 1 || k == 2
  | .vmov _, k => k == 1 || k == 2
  | .vmovPush _, k => k == 1 || k == 2
  | .klog _, k => k == 1 || k == 2
  | .vld _, k => k == 1
  | .vst _, k => k == 1
  | .vlds _, k => k == 1
  | .vgather _, k => k == 1
  | .vscatter _, k => k == 1
  | .dnorm _, k => k == 2
  | .dunnorm _, k => k == 2
  | .dmov _, k => k == 2
  | .dmovRaw _, k => k == 2
  | .dzero _, k => k == 2
  | .ddot _, k => k == 2
  | .dscale _, k => k == 2
  | .dadd _, k => k == 2
  | .dsub _, k => k == 2
  | .dneg _, k => k == 2
  | .dmul _, k => k == 2
  | .dmaxcos _, k => k == 2
  | .dnget _, k => k == 2
  | .dnset _, k => k == 2
  | .mload _, k => k == 3
  | .mcall _, k => k == 3
  | .rset _, k => k == 3
  | .rpush _, k => k == 3
  | .rstat _, k => k == 3
  | .sbind _, k => k == 3
  | .sunbind _, k => k == 3
  | .scfgSeek _, k => k == 3
  | .scfgRep _, k => k == 3
  | .crec _, k => k == 3
  | .copy _, k => k == 3
  | .cresumePatch _, k => k == 3
  | .cresumeRetry _, k => k == 3
  | .cresumeSkip _, k => k == 3
  | .cstat _, k => k == 3
  | .hset _, k => k == 3
  | .hwait _, k => k == 3
  | .hwaitClaim _, k => k == 3
  | .hquery _, k => k == 3
  | .trcfg _, k => k == 3
  | .trpush _, k => k == 3
  | .trpull _, k => k == 3
  | .bclear _, k => k == 3
  | .release _, k => k == 3
  | .publish _, k => k == 3
  | .rndseek _, k => k == 3
  | .rndstat _, k => k == 3
  | .step _, _ => false
  | .steph _, _ => false
  | .slide _, _ => false
  | .shift _, _ => false
  | .inj _, _ => false
  | .clrp _, _ => false
  | .ldp _, _ => false
  | .drnp _, _ => false
  | .hexp, _ => false
  | .hmrg _, _ => false
  | .bndm _, _ => false
  | .uloop _, _ => false
  | .uend, _ => false
  | .uwait _, _ => false
  | .uret, _ => false
  | .planeCallStart _, _ => false
  | .haloGrant _, _ => false
  | .haloArrival _ _, _ => false
  | .notify _ _, _ => false
  | .queueEnable _ _, _ => false
  | .teardown _ _, _ => false
  | .teardownAbort _ _, _ => false
  | .objset _ _, _ => false
  | .ephconsWrite _ _, _ => false
  | .loglimitWrite _ _, _ => false
  | .logprodWrite _ _, _ => false
  | .registerWrite _ _ _, _ => false
  | .packetAccept _ _, _ => false
  | .placeAndLoad _, _ => false
  | .contextRetirement _ _, _ => false
  | .launchRetirement _, _ => false
  | .ephemerisRecordWrite _, _ => false
  | .tenantPreemptionSave _, _ => false
  | .resultWriteback _ _, _ => false
  | .fmtTakesEffect _ _, _ => false
  | .pendingResultLands _, _ => false
  | .trapDelivery _ _, _ => false
  | .terminalTrap _ _, _ => false
  | .contextPreemption _ _, _ => false
  | .contextResume _ _, _ => false
  | .copyBegin _, _ => false
  | .copyComplete _ _ _, _ => false
  | .copyElementFault _ _ _ _, _ => false
  | .ringTailAdvance _ _, _ => false
  | .streamReadahead _ _, _ => false
  | .streamPushWrite _ _, _ => false
  | .transposeColumnReady _, _ => false
  | .randomVectorProduce _, _ => false
  | .walkStart _, _ => false
  | .walkComplete _ _, _ => false
  | .homeWrite _, _ => false
  | .remoteWriteApply _ _, _ => false
  | .replicaUpdate _ _, _ => false
  | .homeReadService _ _ _, _ => false
  | .writeAcknowledge _, _ => false
  | .errorResponse _, _ => false
  | .fullEmptyService _ _, _ => false
  | .atomicService _, _ => false
  | .atomicRetryTimeout _, _ => false
  | .atomicAck _, _ => false
  | .serialiserStamp, _ => false
  | .vsyncComplete _ _, _ => false
  | .groupRequestApply, _ => false
  | .snapadvComplete _ _, _ => false
  | .releaseGateDecision, _ => false
  | .publishVersionWrite _ _ _, _ => false
  | .objectAnswerDelivery _ _, _ => false
  | .installDescriptor _, _ => false
  | .writePageTableEntries _, _ => false
  | .rangeEntries _, _ => false
  | .egressWindow _, _ => false
  | .publicationWindow _, _ => false
  | .releasePolicy _, _ => false
  | .resetPartitionRequest _, _ => false
  | .readManifest _, _ => false
  | .attest _, _ => false
  | .debugAttach _, _ => false
  | .debugHalt _ _, _ => false
  | .debugResume _ _, _ => false
  | .debugPreemptContext _ _ _, _ => false
  | .debugStateRead _ _ _ _, _ => false
  | .readFaultRegisters _, _ => false
  | .readHarvestMap _, _ => false
  | .mailboxResponse _, _ => false
  | .functionLevelReset _, _ => false
  | .meshRoutesInstalled, _ => false
  | .moduleReset _, _ => false
  | .linkRetrainOrDrop _ _, _ => false
  | .peerPortTrained _, _ => false
  | .peerPortTrainingLoss _, _ => false
  | .powerWindowEnd _, _ => false
  | .frequencyChange _, _ => false
  | .islandOvertemp _, _ => false
  | .islandCooled _, _ => false
  | .thermalTrip, _ => false
  | .correctableError _, _ => false
  | .errorWindowEnd, _ => false
  | .unlistedMailboxOpcode _, _ => false

/-! ## Micro-word encoding (R157, R308) -/

def encAxis : Axis → BitVec 2
  | .o => 0 | .p0 => 1 | .p1 => 2 | .p2 => 3

def encBMode : BMode → BitVec 2
  | .clip => 0 | .wrap => 1 | .keep => 2

def encInjMode : InjMode → BitVec 2
  | .direct => 0 | .spread => 1 | .decim => 2

/-- The SRC field and the count field (R308). -/
def encUCount {n : Nat} : UCount n → BitVec (2 + n)
  | .imm v => (0 : BitVec 2) ++ v
  | .v0 => (1 : BitVec 2) ++ (0 : BitVec n)
  | .v1 => (2 : BitVec 2) ++ (0 : BitVec n)
  | .v2 => (3 : BitVec 2) ++ (0 : BitVec n)

/-- The face and source fields of DRNP. -/
def encDrain : DrainSrc → BitVec 5
  | .acc => (0 : BitVec 5)
  | .op => (0 : BitVec 3) ++ (1 : BitVec 2)
  | .halo f => f ++ (2 : BitVec 2)
  | .kept f => f ++ (3 : BitVec 2)

/-- The 128-bit word of a micro-op; the other instructions have none. -/
def encodeMicro (i : Instr) : Option (BitVec 128) :=
  match i with
  | .step u => some ((0x01 : BitVec 6) ++ (0 : BitVec 116) ++ bit1 u.popx ++ bit1 u.hold ++ u.wring)
  | .steph u => some ((0x02 : BitVec 6) ++ (0 : BitVec 117) ++ bit1 u.hold ++ u.wring)
  | .slide u => some ((0x03 : BitVec 6) ++ (0 : BitVec 98) ++ u.stride ++ bit1 u.popx ++ bit1 u.adv ++ bit1 u.neg ++ u.dil ++
      encAxis u.axis ++ u.taps ++ u.wring)
  | .shift u => some ((0x04 : BitVec 6) ++ (0 : BitVec 114) ++ bit1 u.rot ++ u.mag ++ bit1 u.neg ++ bit1 u.op ++ encAxis u.axis)
  | .inj u => some ((0x05 : BitVec 6) ++ (0 : BitVec 55) ++ u.n2 ++ u.n1 ++ u.n0 ++ u.f2 ++ u.f1 ++ u.f0 ++ (0 : BitVec 1) ++ u.s ++
      encInjMode u.mode ++ u.xring)
  | .clrp op => some ((0x06 : BitVec 6) ++ (0 : BitVec 121) ++ bit1 op)
  | .ldp u => some ((0x07 : BitVec 6) ++ (0 : BitVec 88) ++ u.tiles ++ u.cell ++ bit1 u.op ++ u.ring)
  | .drnp u => some ((0x08 : BitVec 6) ++ (0 : BitVec 82) ++ u.tiles ++ u.cell ++ bit1 u.fill ++ encDrain u.src ++ u.ring)
  | .hexp => some ((0x09 : BitVec 6) ++ (0 : BitVec 122))
  | .hmrg n => some ((0x0A : BitVec 6) ++ (0 : BitVec 115) ++ encUCount n)
  | .bndm u => some ((0x0B : BitVec 6) ++ (0 : BitVec 106) ++ encBMode u.f7 ++ encBMode u.f6 ++ encBMode u.f5 ++ encBMode u.f4 ++
      encBMode u.f3 ++ encBMode u.f2 ++ encBMode u.f1 ++ encBMode u.f0)
  | .uloop n => some ((0x0C : BitVec 6) ++ (0 : BitVec 108) ++ encUCount n)
  | .uend => some ((0x0D : BitVec 6) ++ (0 : BitVec 122))
  | .uwait (.ring r n) => some ((0x0E : BitVec 6) ++ (0 : BitVec 101) ++ n ++ r ++ (0 : BitVec 1))
  | .uwait (.cyc n) => some ((0x0E : BitVec 6) ++ (0 : BitVec 101) ++ n ++ (0 : BitVec 4) ++ (1 : BitVec 1))
  | .uret => some ((0x0F : BitVec 6) ++ (0 : BitVec 122))
  | _ => none

/-! ## Bundles (R131, R132, R138, R144, R145) -/

/-- The header slot (R144). -/
structure Header where
  tgt : BitVec 2
  ext : BitVec 12
  stamp : BitVec 12
  deriving DecidableEq, Repr

/-- A legal bundle. `op0` is absent in a bundle with a header. -/
structure Bundle where
  hdr : Option Header
  op0 : Option Instr
  op1 : Instr
  op2 : Instr
  op3 : Instr
  deriving DecidableEq, Repr

/-- Whether a slot reads the immediate extension (R145). -/
def Instr.readsExt (i : Instr) : Bool := i.opnds.any (· == .ext)

/-- Slot k of a bundle value (R131). -/
def bundleSlot (b : BitVec 128) (k : Nat) : BitVec 32 := b.extractLsb' (32 * k) 32

/-- The header of slot 0, if it is one (R144). -/
def decHeader (w : BitVec 32) : Option Header :=
  if fMajor w = 0x3F then some { tgt := w.extractLsb' 24 2, ext := w.extractLsb' 12 12, stamp := w.extractLsb' 0 12 }
  else none

/-- Code 63 stands only in the slot that the header names (R136, R145). -/
def Bundle.extPlace (b : Bundle) : Bool :=
  let ok (k : Nat) (i : Instr) : Bool :=
    !i.readsExt || (match b.hdr with | some h => h.tgt.toNat == k | none => false)
  ok 1 b.op1 && ok 2 b.op2 && ok 3 b.op3

/-- EXT is zero where no slot reads it (R145). -/
def Bundle.extUsed (b : Bundle) : Bool :=
  match b.hdr with
  | none => true
  | some h =>
    h.ext == 0 ||
      (match h.tgt.toNat with
       | 1 => b.op1.readsExt | 2 => b.op2.readsExt | 3 => b.op3.readsExt | _ => false)

/-- The classes of R158 in the load order of R54. -/
def worstOf (es : List BadCode) : Option BadCode :=
  if es.contains .opcode then some .opcode
  else if es.contains .reserved then some .reserved
  else if es.contains .lanes then some .lanes
  else none

/-- The operand codes of a word that its entry reads where code 63 may stand, by its major alone: so they are known of a word
that is no instruction for another reason (R133, R141, R143, R280, R330). Slot 0 takes no code 63. -/
def extCodes (slot : Nat) (w : BitVec 32) : List (BitVec 6) :=
  let maj := (fMajor w).toNat
  let one : List Nat := match slot with
    | 1 => [0x09, 0x0A, 0x0B, 0x0C, 0x0D, 0x0E, 0x0F, 0x1F, 0x20, 0x22, 0x23, 0x24, 0x25, 0x26, 0x27, 0x28]
    | 2 => [0x09, 0x0A, 0x0B, 0x0C, 0x0D, 0x0E, 0x0F, 0x1F, 0x20, 0x22, 0x23, 0x24, 0x25, 0x26, 0x27, 0x28]
    | 3 => [0x04, 0x06, 0x07, 0x09, 0x0F, 0x10, 0x11, 0x16, 0x17]
    | _ => []
  let second : List Nat := match slot with
    | 1 => [0x2B, 0x2C, 0x2D]
    | 2 => [0x35, 0x3C]
    | _ => []
  let both : List Nat := match slot with
    | 1 => [0x02, 0x03, 0x04, 0x05, 0x06, 0x07, 0x08, 0x10, 0x11, 0x12, 0x13, 0x14, 0x15, 0x16, 0x17, 0x18, 0x19, 0x1A, 0x1B,
            0x1C, 0x1D, 0x1E, 0x21]
    | 2 => [0x02, 0x03, 0x04, 0x05, 0x06, 0x07, 0x08, 0x10, 0x11, 0x12, 0x13, 0x14, 0x15, 0x16, 0x17, 0x18, 0x19, 0x1A, 0x1B,
            0x1C, 0x1D, 0x1E, 0x21]
    | 3 => [0x02, 0x05, 0x0A, 0x0B, 0x0E, 0x14, 0x15]
    | _ => []
  if both.contains maj then [fA w, fB w]
  else if one.contains maj then [fA w]
  else if second.contains maj then [fB w]
  else []

/-- Whether a word names code 63, instruction or not. -/
def wordExt (slot : Nat) (w : BitVec 32) : Bool := (extCodes slot w).contains 63

/-- The class of a failed decoding. -/
def badOf {α : Type} : Dec α → List BadCode
  | .ok _ => []
  | .error e => [e]

/-- A bundle, checked whole for legality before any guard is judged (R132). Of several classes the first in the load order
stands (R54, R158), whichever slot meets it. -/
def decodeBundle (v : BitVec 128) : Dec Bundle :=
  let w0 := bundleSlot v 0
  let hdr := decHeader w0
  let d0 : Dec (Option Instr) := match hdr with
    | some _ => .ok none
    | none => (decodeSlot0 w0).map some
  let d1 := decodeSlot1 (bundleSlot v 1)
  let d2 := decodeSlot2 (bundleSlot v 2)
  let d3 := decodeSlot3 (bundleSlot v 3)
  match d0, d1, d2, d3 with
  | .ok o0, .ok o1, .ok o2, .ok o3 =>
    let b : Bundle := { hdr := hdr, op0 := o0, op1 := o1, op2 := o2, op3 := o3 }
    if !b.extPlace then .error .opcode
    else if !b.extUsed then .error .reserved
    else if o1.groups + o2.groups > 4 then .error .lanes
    else .ok b
  | _, _, _, _ =>
    let tgt : Nat := match hdr with
      | some h => h.tgt.toNat
      | none => 0
    let reads (k : Nat) : Bool := wordExt k (bundleSlot v k)
    let place : List BadCode := if [1, 2, 3].any (fun k => reads k && k != tgt) then [.opcode] else []
    let used : List BadCode := match hdr with
      | some h => if h.ext != 0 && !([1, 2, 3].any (fun k => k == tgt && reads k)) then [.reserved] else []
      | none => []
    match worstOf (badOf d0 ++ badOf d1 ++ badOf d2 ++ badOf d3 ++ place ++ used) with
    | some e => .error e
    | none => .error .opcode

/-- The NOP word of an empty slot (R209). -/
def nopWord : BitVec 32 := 0x04000000

/-- A bundle holding one slot's word and NOP in every other slot. -/
def soloBundle (slot : Nat) (w : BitVec 32) : BitVec 128 :=
  let at_ (k : Nat) : BitVec 32 := if k = slot then w else nopWord
  at_ 3 ++ at_ 2 ++ at_ 1 ++ at_ 0

/-- A bundle holding one slot's word that reads EXT: the header names the slot and lends zero. -/
def soloExtBundle (slot : Nat) (w : BitVec 32) : BitVec 128 :=
  let at_ (k : Nat) : BitVec 32 := if k = slot then w else nopWord
  let h : BitVec 32 := (0x3F : BitVec 6) ++ BitVec.ofNat 2 slot ++ (0 : BitVec 24)
  at_ 3 ++ at_ 2 ++ at_ 1 ++ h

/-- The slot in which a lone 32-bit word is read: the lowest-numbered slot in which it is an instruction. One word means
different instructions in different slots (R153, R155, R156), and the opcode table gives no slot. -/
def tableSlot (w : BitVec 32) : Nat :=
  match decodeSlot0 w with
  | .ok _ => 0
  | .error _ =>
    match decodeSlot1 w with
    | .ok _ => 1
    | .error _ =>
      match decodeSlot2 w with
      | .ok _ => 2
      | .error _ => 3

/-- The instruction that the decoder reads from a word of the opcode table: 32 bits are a slot, read in the
lowest-numbered slot in which it is an instruction, and 128 bits are a micro-word. -/
def decodeTableWord (nbits w : Nat) : Option Instr :=
  if nbits > 32 then (decodeMicro (BitVec.ofNat 128 w)).toOption
  else
    let v := BitVec.ofNat 32 w
    (decodeSlot (tableSlot v) v).toOption

/-- Bytes at ascending addresses as one little-endian value (R7). -/
def leNat : List Byte → Nat
  | [] => 0
  | b :: bs => b.toNat + 256 * leNat bs

/-- Decoding on any bytes: the first sixteen as a bundle, with the rest; missing bytes make no bundle. -/
def decodeBytes (bs : List Byte) : Option (Dec Bundle × List Byte) :=
  if bs.length < 16 then none
  else some (decodeBundle (BitVec.ofNat 128 (leNat (bs.take 16))), bs.drop 16)

end Sys2Proof
end

