-- ==== Sys2Proof/Config.lean ====
section
/-! DEFINITION. What an implementation fixes and the spec leaves open: uninterpreted constants, so that no proof can rest
on a value. -/

namespace Sys2Proof

/-- The Ed25519 and the ML-DSA-65 public key of the module's identity (R443), made at manufacture. DESIGN CHOICE (log entry 2). -/
opaque Config.identityEd : BitVec 256
opaque Config.identityMl : BitVec 15616

/-- The two signatures of the module's identity over a message (R444): the private halves never leave the module (R443). DESIGN
CHOICE (log entry 1). -/
opaque Config.identityEdSign : List Byte → BitVec 512
opaque Config.identityMlSign : List Byte → BitVec 26472

/-- The digest of the running Excia image (R441). DESIGN CHOICE (log entry 2). -/
opaque Config.firmwareDigest : BitVec 256

/-- The digest of the conversion and renormalisation tables, fixed for a silicon revision (R441). DESIGN CHOICE
(log entry 2). -/
opaque Config.conversionDigest : BitVec 256

/-- Whether Excia's own image verifies at module reset (R447). DESIGN CHOICE (log entry 2). -/
opaque Config.exciaVerifies : Bool

/-- A value the spec leaves open, numbered by the counter `freeCount` of the state (R10). DESIGN CHOICE (log entry 3). -/
opaque Config.freeWord : Nat → Word

end Sys2Proof
end

