-- ==== Sys2Proof/Machine/Table.lean ====
section
/-! DEFINITION. Finite maps from numbers as lists of pairs with strictly rising keys: the one form in which the machine
holds memories, register files and numbered objects. -/

namespace Sys2Proof.Machine

/-- Sparse data by number. -/
abbrev Table (α : Type) := List (Nat × α)

/-- What a table holds at a key; `d` where it lists nothing. -/
def tget {α : Type} (d : α) : Table α → Nat → α
  | [], _ => d
  | (k, v) :: t, n => if n = k then v else tget d t n

/-- What a table lists at a key, if anything. -/
def tfind {α : Type} : Table α → Nat → Option α
  | [], _ => none
  | (k, v) :: t, n => if n = k then some v else tfind t n

/-- Lists a value at a key, in the key's place. -/
def tput {α : Type} : Table α → Nat → α → Table α
  | [], n, x => [(n, x)]
  | (k, v) :: t, n, x =>
    if n < k then (n, x) :: (k, v) :: t
    else if n = k then (n, x) :: t
    else (k, v) :: tput t n x

/-- Removes a key. -/
def terase {α : Type} : Table α → Nat → Table α
  | [], _ => []
  | (k, v) :: t, n => if n = k then t else (k, v) :: terase t n

/-- Writes a value in canonical form: a key that would hold the default is not listed. -/
def tset {α : Type} [DecidableEq α] (d : α) (t : Table α) (n : Nat) (x : α) : Table α :=
  if x = d then terase t n else tput t n x

/-- Every key is above a bound, and keys rise strictly. -/
def tsortedFrom {α : Type} : Nat → Table α → Bool
  | _, [] => true
  | lo, (k, _) :: t => decide (lo ≤ k) && tsortedFrom (k + 1) t

/-- The canonical form: keys rise strictly and no entry holds the default. -/
def twf {α : Type} [DecidableEq α] (d : α) (t : Table α) : Bool :=
  tsortedFrom 0 t && t.all (fun e => decide (e.2 ≠ d))

/-- Changes what a table holds at a key. -/
def tmod {α : Type} (d : α) (t : Table α) (n : Nat) (f : α → α) : Table α := tput t n (f (tget d t n))

/-- A table of the values a function gives at `lo`, …, `lo + len − 1`, in canonical form. -/
def ttab {α : Type} [DecidableEq α] (d : α) (f : Nat → α) : Nat → Nat → Table α
  | _, 0 => []
  | lo, len + 1 =>
    let x := f lo
    if x = d then ttab d f (lo + 1) len else (lo, x) :: ttab d f (lo + 1) len

end Sys2Proof.Machine
end

