-- ==== Sys2Proof/Machine/State.lean ====
section
/-! DEFINITION. The state of the module as plain data: contexts, cores, engines, dies, partitions, launches, functions,
queues and the IOD, each field with the rule that names it, and the state after module reset. -/

namespace Sys2Proof.Machine

/-! ## Stops -/

/-- Why the machine stops with a fault. Nothing in the spec stops the whole module (R10). -/
inductive Fault where
  /-- Module reset failed the check of Excia's own image and the module stays in reset (R447). Raised by every step of a
  module that is held in reset other than a module reset. Safe: the hardware does nothing either. -/
  | heldInReset
  deriving DecidableEq, Repr

/-- Why an instruction has no meaning here. -/
inductive Refusal where
  /-- The instruction of this mnemonic has no meaning in the model yet. Raised by Dispatch alone. Safe. -/
  | notModelled (mnemonic : String)
  deriving DecidableEq, Repr

/-! ## Names -/

/-- Trap causes in the order of their numbers 1 to 31 (R414). -/
inductive Cause where
  | illegal | illegalDelay | misalign | sliceRange | transInvalid | transFormat | transPerm | transTarget
  | snapBound | labelStore | paramUnbound | retstackFull | callRange | copyqFull | handleState | ringBusy
  | streamEnd | xposeOrder | haloOverflow | groupRange | cellRange | pubUnbound | phaseOverlap | phaseEscape
  | overrun | copyFault | planeFault | memError | trap | brk | replayDiverge
  deriving DecidableEq, Repr

/-- Causes of `copy.fault`, 1 to 11 (R250); `phaseEscape` marks an engine access outside its phase (R410). -/
inductive CopyCause where
  | sliceRange | transInvalid | transFormat | transPerm | transTarget | snapBound | labelStore | uncorrectable
  | ibank | shape | ring | phaseEscape
  deriving DecidableEq, Repr

/-- Causes of `plane.fault`, 1 to 12 (R305); `phaseEscape` and `ended` mark calls ended by R410 and R427. -/
inductive PlaneCause where
  | format | tile | ring | inj | axis | loop | runoff | inbox | mode | exprt | uncorrectable | operand
  | phaseEscape | ended
  deriving DecidableEq, Repr

/-- Load errors with codes 0x01 to 0x10 (R54). -/
inductive LoadErr where
  | eFormat | eVersion | eSig | eUnsigned | eBudget | eOpcode | eReserved | eLanes | eRegrange | eDelay | eDepth
  | eMicro | ePhase | eFit | eParam | eBank
  deriving DecidableEq, Repr

/-- Launch statuses (R75). -/
inductive Status where
  | ok | load (e : LoadErr) | aborted | cancelled | badPacket | badPartition | badImage | trapped | partitionReset
  deriving DecidableEq, Repr

/-! ## Values with label masks -/

/-- A value of w bits with its label mask (R346). -/
structure Lab (w : Nat) where
  val : BitVec w
  mask : Mask
  deriving DecidableEq, Repr

/-- Zero with mask zero (R40). -/
def Lab.zero (w : Nat) : Lab w := { val := 0, mask := 0 }

/-- A predicate with its label mask (R346). -/
structure PredVal where
  val : Bool
  mask : Mask
  deriving DecidableEq, Repr

/-- A false predicate with mask zero. -/
def PredVal.zero : PredVal := { val := false, mask := 0 }

/-! ## Results in flight (R162 to R166) -/

/-- Where a result goes. -/
inductive Dest where
  /-- No register: a suppressed write, or a destination of s0. -/
  | nowhere
  /-- An s register, every bit. -/
  | sreg (n : Nat)
  /-- An m register, every bit. -/
  | mreg (n : Nat)
  /-- Bits [lo + len − 1 : lo] of an x or y register. -/
  | vreg (file : VFile) (n lo len : Nat)
  /-- The lanes of a direction register. -/
  | dlanes (n : Nat)
  /-- A norm register. -/
  | dnorm (n : Nat)
  /-- A predicate. -/
  | pred (n : Nat)
  /-- Bits [len − 1 : 0] of a lane mask. -/
  | kmask (n len : Nat)
  deriving DecidableEq, Repr

/-- A result on its way to a register: `vis` is the first context cycle whose bundle sees it. Slot 4 marks the result of a
DMAXCOS scan, whose destination stays pending (R340). -/
structure InFlight where
  vis : Nat
  dest : Dest
  val : BitVec 1024
  mask : Mask
  slot : Nat
  own : Bool
  issued : Nat
  /-- The slot was guarded false: only the destination's mask changes (R349). -/
  maskOnly : Bool
  /-- The entry counts as leaving bits unchanged: the old mask is joined (R347). -/
  joins : Bool := false
  deriving DecidableEq, Repr

/-- A latch entry of a slot: the result whose b0 cycle is `b0` (R167). -/
structure Latch where
  slot : Nat
  b0 : Nat
  issued : Nat
  val : BitVec 1024
  mask : Mask
  deriving DecidableEq, Repr

/-- A SETFMT in its shadow: it governs from cycle `at_` (R173). -/
structure FmtShadow where
  at_ : Nat
  fmt : Lab 4
  deriving DecidableEq, Repr

/-- Sticky flags that land in a cycle (R217). -/
structure FlagLand where
  at_ : Nat
  flags : BitVec 8
  deriving DecidableEq, Repr

/-! ## Engines of a core -/

/-- States of a buffer handle (R249). -/
inductive HState where
  | free | filling | full | draining
  deriving DecidableEq, Repr

/-- A buffer handle (R249). -/
structure Handle where
  st : HState
  skipped : Bool
  deriving DecidableEq, Repr

def Handle.reset : Handle := { st := .free, skipped := false }

/-- A ring (R235, R237): `resv` is the next tile number to be reserved, and `done` lists tiles beyond TAIL that have been
wholly written. `freed` counts the positions freed since the core's last cycle, which no push can reserve before the next. -/
structure Ring where
  base : Nat
  tile : Nat
  log2n : Nat
  src : Fmt
  snk : Fmt
  head : BitVec 32
  tail : BitVec 32
  resv : BitVec 32
  done : List (BitVec 32)
  fmt : Lab 4
  bmask : Mask
  freed : Nat := 0
  deriving DecidableEq, Repr

def Ring.reset : Ring :=
  { base := 0, tile := 0, log2n := 0, src := .raw, snk := .raw, head := 0, tail := 0, resv := 0, done := [],
    fmt := Lab.zero 4, bmask := 0, freed := 0 }

/-- One level of a stream descriptor (R240). -/
structure Level where
  stride : BitVec 32
  count : Nat
  deriving DecidableEq, Repr

/-- A stream descriptor (R240). -/
structure StreamDesc where
  base : Nat
  levels : List Level
  out : Bool
  repeat_ : Bool
  gen : Nat
  src : Fmt
  snk : Fmt
  width : Width
  deriving DecidableEq, Repr

/-- A push waiting to be written (R243). -/
structure PushItem where
  k : Nat
  val : BitVec 1024
  mask : Mask
  deriving DecidableEq, Repr

/-- A bound stream port of a context (R240 to R244). `buf` holds vectors read ahead, `pushes` pushes unwritten, `next` the
next transfer to be read ahead. `phase` is the phase open at the binding (R409). -/
structure Port where
  desc : StreamDesc
  pos : Nat
  exh : Bool
  fmt : Lab 4
  bmask : Mask
  buf : List (Lab 1024)
  next : Nat
  pushes : List PushItem
  phase : Option (Nat × Nat)
  /-- An access outside its phase has stopped the generator (R410). -/
  dead : Bool
  /-- The first island cycle whose bundles can meet a vector of it (R264), and the number of the next request at the SBIND: what its
  context did before comes first (R384). -/
  first : Nat := 0
  num : Nat := 0
  deriving DecidableEq, Repr

/-- What an entry of a copy queue does (R247, R269, R273, R362, R407). -/
inductive CopyKind where
  | copy (cmd src dst : Word) (fill : Bool)
  | bclear (first : Nat) (blocks hnd : Nat)
  | release (pol len hnd : Nat) (src off : Word)
  | publish (win : Nat) (hnd : Option Nat)
  deriving DecidableEq, Repr

/-- The stage of a queue entry. `fault` holds a fault not yet ended by CRESUME, `gate` a release handed to the gate. -/
inductive CopyStage where
  | queued | running | faulted | gate
  deriving DecidableEq, Repr

/-- A fault of a queue entry as the fault registers report it (R250). -/
structure CopyFaultRec where
  cause : CopyCause
  side : Bool
  handle : Nat
  drec : Nat
  srec : Nat
  fidx : Nat
  faddr : Word
  deriving DecidableEq, Repr

/-- An egress window (R356). -/
structure Egress where
  base : Nat
  size : Nat
  party : Nat
  deriving DecidableEq, Repr

/-- An entry of a context's copy queue (R247 to R251). `k` counts the elements done; `srec` and `drec` are the layout
records as read, and `total` is 0 until they have passed their checks (for a PUBLISH it tells the order of beginning); `tile0`
is the tile that it reserved last and `tiles` how many it reserved; `popped` counts the tiles it popped; `data` and `dmask` hold
the tile popped last, or the bytes read by a release. `failing` is an error that its next element has met, with the side: the fault is
reported once the elements before it are performed (R250, R434). -/
structure CopyEntry where
  uid : Nat
  kind : CopyKind
  cmask : Mask
  stage : CopyStage
  k : Nat
  total : Nat
  srec : BitVec 512
  drec : BitVec 512
  tile0 : BitVec 32
  tiles : Nat
  popped : Nat
  fault : Option CopyFaultRec
  reported : Bool
  data : List Byte
  dmask : Mask
  /-- The egress windows as they stood when the copy began (R356). -/
  egress : Table Egress
  phase : Option (Nat × Nat)
  failing : Option (CopyCause × Bool) := none
  /-- The number of the tile that it popped last from its source ring. -/
  src0 : BitVec 32 := 0
  deriving DecidableEq, Repr

/-- One block of the transpose unit: its rows in order, with their masks, and the island cycle of the TRPUSH that completed
it (R252, R253). -/
structure TBlock where
  rows : List (Lab 1024)
  doneAt : Nat
  ctx : Nat
  phase : Option (Nat × Nat)
  /-- The number of the next request as its last TRPUSH issued (R384). -/
  num : Nat := 0
  deriving DecidableEq, Repr

/-- The transpose unit (R252). `col` is the next column of the oldest complete block and `freeAt` the island cycle from
which its columns count. `late` is what the unit has done in a cycle and what instructions see from the next one (R259): a column of a
block delivered, or the block dropped, and the cycle. -/
structure Transpose where
  store : Bool
  w32 : Bool
  base : Nat
  pitch : Nat
  rows : List (Lab 1024)
  blocks : List TBlock
  col : Nat
  freeAt : Nat
  late : Option (Bool × Nat) := none
  deriving DecidableEq, Repr

def Transpose.reset : Transpose :=
  { store := false, w32 := false, base := 0, pitch := 0, rows := [], blocks := [], col := 0, freeAt := 0 }

/-- Halo cells retained with a plane (R301): the view, the depths and the cells of the extended box outside the plane, by
box index. -/
structure Kept where
  l0 : Nat
  l1 : Nat
  nax : Nat
  depths : List Nat
  cells : Table (BitVec 32)
  mask : Mask
  units : Nat
  deriving DecidableEq, Repr

/-- An accumulator plane with its status register (R284, R306). -/
structure Plane where
  cells : Table (BitVec 32)
  int : Bool
  mask : Mask
  sat : Bool
  hlost : Bool
  route : Bool
  clip : BitVec 32
  kept : Option Kept
  deriving DecidableEq, Repr

def Plane.reset : Plane :=
  { cells := [], int := false, mask := 0, sat := false, hlost := false, route := false, clip := 0, kept := none }

/-- One cell of an export: its number in the exporter's box, its tensor coordinate and its pattern (R298). -/
structure HaloCell where
  box : Nat
  x0 : Nat
  x1 : Nat
  x2 : Nat
  x3 : Nat
  val : BitVec 32
  deriving DecidableEq, Repr

/-- A vector clock: one entry for each die (R377). -/
structure Clock where
  d0 : Word
  d1 : Word
  d2 : Word
  d3 : Word
  deriving DecidableEq, Repr

def Clock.zero : Clock := { d0 := 0, d1 := 0, d2 := 0, d3 := 0 }

/-- An export waiting at the exporter for its grant (R298, R299), with the clock of the exporter's die at its HEXP (R385). -/
structure Export where
  owner : Nat
  tag : Nat
  from_ : Nat
  cells : List HaloCell
  mask : Mask
  order : Nat
  clk : Clock := Clock.zero
  deriving DecidableEq, Repr

/-- An inbox of a call (R299, R300). `order` numbers its grant, and then its arrival; `clk` is the clock of its export. -/
inductive InboxState where
  | free | granted | arrived | merged
  deriving DecidableEq, Repr

structure Inbox where
  st : InboxState
  from_ : Nat
  cells : List HaloCell
  mask : Mask
  order : Nat
  clk : Clock := Clock.zero
  deriving DecidableEq, Repr

/-- The injection state of a call (R290). -/
structure Inj where
  xring : Nat
  mode : InjMode
  s : Nat
  f : List Int
  n : List Nat
  deriving DecidableEq, Repr

/-- States of the plane unit (R306). -/
inductive UnitState where
  | idle | running | waitTile | waitGrant | waitMerge | waitUwait
  deriving DecidableEq, Repr

/-- A plane call in flight (R288). `args` are m0 to m7 as read. `halo` holds the halo cells by box index. `loops` holds the
open micro-loops as pairs of the first micro-word and the passes left. `wait` counts the cycles left of a UWAIT. A call that is
`ending` ends at its next micro-op boundary (R427). -/
structure Call where
  uid : Nat
  routine : Nat
  ctx : Nat
  args : List Word
  fmt : Lab 4
  mask : Mask
  started : Bool
  upc : Nat
  inj : Option Inj
  modes : List BMode
  keepSet : Bool
  halo : Table (BitVec 32)
  haloMask : Mask
  loops : List (Nat × Nat)
  hexpDone : Bool
  merged : Nat
  inboxes : List Inbox
  wait : Option Nat
  tap : Nat
  ust : UnitState
  phase : Option (Nat × Nat)
  ending : Bool := false
  /-- The tiles that its DRNPs have pushed, by ring and number (R304). -/
  pushed : List (Nat × BitVec 32) := []
  deriving DecidableEq, Repr

/-- `plane.fault` (R306). -/
structure PlaneFaultReg where
  pend : Bool
  cause : Option PlaneCause
  routine : Nat
  upc : Nat
  ctx : Nat
  deriving DecidableEq, Repr

def PlaneFaultReg.reset : PlaneFaultReg := { pend := false, cause := none, routine := 0, upc := 0, ctx := 0 }

/-! ## A context -/

/-- An asynchronous trap that waits for delivery (R415). -/
structure AsyncTrap where
  cause : Cause
  code : BitVec 8
  addr : Word
  deriving DecidableEq, Repr

/-- A synchronous trap found, whose delivery waits for pending results (R476). -/
structure TrapFound where
  cause : Cause
  code : BitVec 8
  addr : Word
  slots : BitVec 4
  async : Bool
  /-- `core.frame` in the cycle in which it was found: the due value of the trapping bundle (R421). -/
  frame : BitVec 32
  deriving DecidableEq, Repr

/-- A TRAP or DBGBRK that has issued, and is taken at the boundary after its bundle (R415): the due value of its bundle (R421), and
whether it halts the core for a debugger (R428). So is the trap of an MLOAD that its own bundle has kept waiting (log entry 42). `slots`
names the slot. -/
structure Strike where
  cause : Cause
  code : BitVec 8
  frame : BitVec 32
  halts : Bool
  slots : BitVec 4 := 1
  deriving DecidableEq, Repr

/-- A snapshot latch bank (R418). `cycle` is the context cycle of the boundary, to which every time in it is relative;
`landed` holds pending results that have arrived. The last four hold the frame of deterministic mode (R421). -/
structure Snapshot where
  cycle : Nat
  flight : List InFlight
  landed : List InFlight
  latches : List Latch
  lostAt : Option Nat
  flags : List FlagLand
  shadows : List FmtShadow
  divFree : Nat
  nds : Nat
  tgt : Option (Nat × Bool)
  retPending : Bool
  frameStart : BitVec 32
  nextStart : BitVec 32
  opens : Bool
  lastDue : Option (BitVec 32)
  /-- Stream ports and P, as they stood at the boundary. -/
  ports : Table Port := []
  rndPos : Word := 0
  deriving DecidableEq, Repr

/-- What a context is doing. -/
inductive CtxState where
  /-- Left idle by R95, or on a core without a launch. -/
  | idle
  | running
  /-- Frozen at a boundary while a trap's delivery waits (R476). -/
  | frozenTrap
  /-- Frozen at a boundary while context pre-emption waits (R429, R476). -/
  | frozenPre
  | preempted
  /-- HALTCTX or the outermost RET has issued; waits for its plane calls (R344, R427). -/
  | retiring
  | retired
  /-- Stopped after a YIELD for tenant pre-emption (R430). -/
  | stopped
  deriving DecidableEq, Repr

/-- Who asked for a context pre-emption (R429). -/
inductive PreReason where
  | debugger | coreHalt | logStall | freeze
  deriving DecidableEq, Repr

/-- What the context's next bundle waits for after VSYNC, GBAR or SNAPADV has issued (R475). -/
inductive Wait2 where
  | vsync (stamp : Option (List Word))
  | gbar (group : Nat)
  | snapadv (uid : Nat)
  deriving DecidableEq, Repr

/-- A hardware context (R159 and the rules named at the fields). -/
structure Ctx where
  st : CtxState
  /-- Launch context number j (R95). -/
  j : Nat
  /-- Context cycle count (R159). -/
  cycle : Nat
  /-- Bank bit and program counter (R148). -/
  bank : Bool
  pc : Nat
  /-- Delay slots still to issue, and the target with the bank change of a BSWAP (R172). -/
  nds : Nat
  tgt : Option (Nat × Bool)
  /-- The outermost RET is pending: the context retires after its delay slots (R194). -/
  retPending : Bool
  s : Table (Lab 64)
  x : Table (Lab 1024)
  y : Table (Lab 1024)
  m : Table (Lab 64)
  /-- Direction registers: their lanes with the mask that covers the norm too, and their norms (R331, R346). -/
  d : Table (Lab 1024)
  n : Table (BitVec 16)
  p : Table PredVal
  k : Table (Lab 128)
  /-- Return stack, top first (R190). -/
  rstack : List Nat
  flight : List InFlight
  latches : List Latch
  /-- Latch entries with a b0 cycle up to here are lost (R168). -/
  lostAt : Option Nat
  flagLands : List FlagLand
  fmt : Lab 4
  shadows : List FmtShadow
  taint : Mask
  /-- Raises of TAINT that govern from the next cycle (R350). -/
  taintNext : Mask
  fpflags : BitVec 8
  pwoob : Bool
  latchlost : Bool
  /-- BLOCK of `ctx.status` (R176). -/
  block : Nat
  /-- The last cycle in which a bundle that writes the predicate issued (R171). -/
  predWrite : Table Nat
  /-- The first cycle in which the divider is free (R182). -/
  divFree : Nat
  /-- Stall cycles that the next bundle has been held (R169). -/
  stall : Nat
  /-- Bundles skipped since one issued (R171). -/
  skips : Nat
  /-- The bundle has already blocked with code YIELD (R425). -/
  yielded : Bool
  ports : Table Port
  rndPos : Word
  rndHeld : Nat
  copyq : List CopyEntry
  copyStall : Word
  /-- The fault registers of R250 and PEND. -/
  copyFault : Option CopyFaultRec
  copyPend : Bool
  relLast : BitVec 5
  /-- Windows of the trap registers (R420). -/
  trapEn : Bool
  trapTidx : BitVec 8
  inh : Bool
  trapMask : Word
  trapAsync : Bool
  trapCode : BitVec 8
  trapSlots : BitVec 4
  trapNo : BitVec 6
  trapNds : Nat
  trapBank_ : Bool
  trapPc : Nat
  trapSwap : Bool
  trapDpc2 : Nat
  trapDpc1 : Nat
  trapAddr : Word
  trapShadow : Bool
  trapRem : Nat
  trapFmt : BitVec 4
  asyncQ : List AsyncTrap
  found : Option TrapFound
  bankTrap : Option Snapshot
  bankPre : Option Snapshot
  preReasons : List PreReason
  /-- A TRAP or DBGBRK to be taken at the next boundary. -/
  strikes : Option Strike
  /-- PC, NDS and DPC of a DBGBRK that halted the core, as words of `trap.pc` and `trap.dpc` (R428). -/
  dbg : Option (Word × Word)
  wait2 : Option Wait2
  /-- The number of the next request as the context's last VSYNC issued: what has this number or a later one comes after it (R380). -/
  syncAt : Nat := 0
  /-- Latest answers on completion objects that have arrived (R426). -/
  objAns : Table (BitVec 32)
  /-- The first cycle in which every LDA of the own slice has landed (R388), and every read of it (R390). -/
  ldaVis : Nat
  readVis : Nat
  /-- The context resumed from a pre-emption and has issued nothing since: its next switch loses no latch (R168). -/
  keepLatch : Bool
  /-- Frame start of deterministic mode, the start of the frame that a pending branch opens, whether the next bundle opens
  a frame, and the due value of the last bundle (R174, R175). -/
  frameStart : BitVec 32
  nextStart : BitVec 32
  opens : Bool
  lastDue : Option (BitVec 32)
  deriving DecidableEq, Repr

/-- A context before any launch. -/
def Ctx.reset : Ctx :=
  { st := .idle, j := 0, cycle := 0, bank := false, pc := 0, nds := 0, tgt := none, retPending := false,
    s := [], x := [], y := [], m := [], d := [], n := [], p := [], k := [], rstack := [], flight := [], latches := [],
    lostAt := none, flagLands := [], fmt := Lab.zero 4, shadows := [], taint := 0, taintNext := 0, fpflags := 0,
    pwoob := false, latchlost := false, block := 0, predWrite := [], divFree := 0, stall := 0, skips := 0, yielded := false,
    ports := [], rndPos := 0, rndHeld := 0, copyq := [], copyStall := 0, copyFault := none, copyPend := false,
    relLast := 0, trapEn := false, trapTidx := 0, inh := false, trapMask := 0, trapAsync := false, trapCode := 0,
    trapSlots := 0, trapNo := 0, trapNds := 0, trapBank_ := false, trapPc := 0, trapSwap := false, trapDpc2 := 0,
    trapDpc1 := 0, trapAddr := 0, trapShadow := false, trapRem := 0, trapFmt := 0, asyncQ := [], found := none,
    bankTrap := none, bankPre := none, preReasons := [], strikes := none, dbg := none, wait2 := none, objAns := [], ldaVis := 0, readVis := 0,
    keepLatch := false, frameStart := 0, nextStart := 0, opens := true, lastDue := none }

/-! ## A core -/

/-- A DMAXCOS scan of the core (R340): the port it reads, the operand and the running best. -/
structure Scan where
  ctx : Nat
  port : Nat
  y : Nat
  w : Bool
  chain : Nat
  a : List (BitVec 1024)
  best : Int
  idx : BitVec 32
  cnt : BitVec 32
  cand : List (BitVec 1024)
  left : Nat
  mask : Mask
  deriving DecidableEq, Repr

/-- An MLOAD that has issued and whose words cannot be read before what an earlier slot of its bundle does: the entry and the first
micro-word, the bytes in order, the number that it took, and what the limits that admit it release (R342, R370; log entry 42). -/
structure MloadHold where
  ctx : Nat
  id : Nat
  idx : Nat
  start : Nat
  pas : List Nat
  clk : Clock
  deriving DecidableEq, Repr

/-- The launch that a core belongs to (R93). -/
structure Owner where
  part : Nat
  launch : Nat
  lcore : Nat
  deriving DecidableEq, Repr

/-- A compute core (R1 and the rules named at the fields). -/
structure Core where
  owner : Option Owner
  ctxs : Table Ctx
  /-- The context that issued most recently (R161, R168), the context that holds the issue slot, if one does, and the
  context from which the search of R161 starts. -/
  last : Option Nat
  holder : Option Nat
  from_ : Nat
  /-- The freezing of a context for pre-emption has used the coming cycle of the issue slot (R476). -/
  slotSpent : Bool
  /-- Halted by the debugger or frozen (R432, R433). -/
  halted : Bool
  /-- Counters (R177, R377). -/
  frame : BitVec 32
  /-- Island cycles since the core was placed, as `frame` counts them, without a bound: the clock of the transpose unit. -/
  ticks : Nat
  bankstall : Word
  switches : Word
  skip : Word
  idle : Word
  vsync : Word
  /-- The open phase (number and base) and RESC (R411). -/
  phase : Option (Nat × Nat)
  resc : Bool
  /-- Instruction banks and their masks (R148, R346). -/
  ibank0 : Table Byte
  ibank1 : Table Byte
  imask0 : Mask
  imask1 : Mask
  /-- Microprogram store and routine table: (START, LEN) (R310). -/
  ustore : Table (BitVec 128)
  routines : Table (Nat × Nat)
  /-- The slice: bytes, full-empty bits by granule, masks by block (R232). -/
  slice : Table Byte
  fe : Table Bool
  bmask : Table Mask
  rings : Table Ring
  layouts : Table (BitVec 512)
  handles : Table Handle
  trans : Transpose
  planes : Table Plane
  calls : List Call
  planeFault : PlaneFaultReg
  exports : List Export
  /-- The context whose copy began last (R248) and the context that got a random vector last (R254). -/
  lastBegan : Nat
  lastRnd : Nat
  /-- Queue entries whose conditions to begin held at the end of the core's last cycle (R248). -/
  ready : List Nat
  /-- The random vector of this cycle has been made (R254). -/
  rndMade : Bool
  /-- Phases of groups as last delivered to the core, by module number (R405). -/
  phases : Table (BitVec 32)
  /-- Sequence tag of the next atomic request (R394). -/
  atag : BitVec 16
  scan : Option Scan
  /-- An MLOAD that holds the core in stall cycles after its issue (R342). -/
  mload : Option MloadHold := none
  /-- Full-empty requests waiting at this slice, oldest first, by the number of their read (R202). -/
  feWait : List Nat
  deriving DecidableEq, Repr

/-- A core without a launch, its slice cleared (R232). -/
def Core.reset : Core :=
  { owner := none, ctxs := [], last := none, holder := none, from_ := 3, slotSpent := false, halted := false, frame := 0, ticks := 0, bankstall := 0, switches := 0, skip := 0, idle := 0,
    vsync := 0, phase := none, resc := false, ibank0 := [], ibank1 := [], imask0 := 0, imask1 := 0, ustore := [],
    routines := [], slice := [], fe := [], bmask := [], rings := [], layouts := [], handles := [],
    trans := Transpose.reset, planes := [], calls := [], planeFault := PlaneFaultReg.reset, exports := [],
    lastBegan := 3, lastRnd := 3, ready := [], rndMade := false, phases := [], atag := 0, scan := none, feWait := [] }

/-! ## Requests in flight between cores, homes and the IOD -/

/-- How the bytes of a read become a result. -/
inductive ReadFmt where
  | zx (n : Nat)
  | sx (n : Nat)
  /-- `n` bytes, zero above, into the low `len` bits of the register. -/
  | vec (len : Nat)
  deriving DecidableEq, Repr

/-- What a pending read asks for. -/
inductive ReadKind where
  | mem
  /-- LDFE of another slice, with CLR (R200). -/
  | fe (clr : Bool)
  /-- SYSR of a register that the IOD holds (R206). -/
  | sysr (num : Nat)
  deriving DecidableEq, Repr

/-- A pending read of a context (R164). `bytes` are physical addresses, none for a byte that reads zero (R203). `clk` is the
clock it carries (R474) and `rclk` the clock of the reply (R378). `known` holds bytes of the own slice by place, read at
issue (R372). -/
structure ReadReq where
  id : Nat
  core : Nat
  ctx : Nat
  kind : ReadKind
  dest : Dest
  fmt : ReadFmt
  bytes : List (Option Nat)
  known : Table Byte
  va : Word
  mask : Mask
  acquire : Bool
  clk : Clock
  reply : Option (Lab 1024)
  rclk : Clock
  /-- The island cycle of the core by which the result lands, for a VGATHER of the own slice (R282). -/
  due : Option Nat := none
  deriving DecidableEq, Repr

/-- A write that has left a core (R377, R390). `cells` are physical addresses and bytes in ascending place. `fe` sets the
granule's bit (R201), and `clr` marks a zero fill by BCLEAR, which clears bits and block masks (R273). `raises` names blocks
whose masks alone are raised (R413). `ent` names the queue entry that sent it, and `elem` the element. A write that is `held` follows an
LDA of its own bundle, and leaves the core with its stamp once that has landed, as number `left` (R370). -/
structure WriteReq where
  id : Nat
  core : Nat
  ctx : Nat
  /-- Whether it is a write of the context itself, or of an engine of it (R390). -/
  ofCtx : Bool
  va : Word
  cells : List Host.Cell
  raises : List Nat
  mask : Mask
  fe : Bool
  clr : Bool
  ent : Option Nat
  die : Nat
  stamp : Clock
  performed : Bool
  acked : Bool
  applied : List Nat
  elem : Nat := 0
  held : Bool := false
  left : Nat := 0
  deriving DecidableEq, Repr

/-- Operations of the atomic engines (R399 to R402). -/
inductive AtomOp where
  | add | and | or | xor | min | max | minu | maxu | swap
  | cas (c : Word)
  | fadd | xread | xclr
  deriving DecidableEq, Repr

/-- The target of an atomic: a physical address, or an exact cell by its number in the module (R393). -/
inductive AtomTgt where
  | mem (pa : Nat)
  | cell (n : Nat)
  deriving DecidableEq, Repr

/-- The stage of an atomic request (R395, R397). -/
inductive AtomStage where
  | sent | applied | replied
  deriving DecidableEq, Repr

/-- An atomic request outstanding (R394, R397), with the clock that it carries (R474) and, once it is served, that of its reply
(R378). -/
structure AtomReq where
  id : Nat
  core : Nat
  ctx : Nat
  tag : BitVec 16
  engine : Nat
  /-- Station at which it arrives: 0 to 7, or 9 for the gateway (R393, R395). -/
  station : Nat
  tgt : AtomTgt
  va : Word
  op : AtomOp
  v : Word
  dest : Dest
  discard : Bool
  mask : Mask
  pmask : Mask
  clk : Clock
  stage : AtomStage
  result : Lab 64
  deriving DecidableEq, Repr

/-- A line of an atomic engine's store, with the count of services at its last service (R395). -/
structure AtomLine where
  line : Nat
  used : Nat
  deriving DecidableEq, Repr

/-- A record of a request applied (R397). -/
structure AtomRecord where
  core : Nat
  tag : BitVec 16
  result : Lab 64
  deriving DecidableEq, Repr

/-- The atomic engine of a cluster (R395). `inq` holds the requests that have arrived and have not been served, by number and in order
of arrival: those in the queues of lines and cells, and those in the input buffer. -/
structure AtomEngine where
  lastStation : Nat
  services : Nat
  inq : List Nat := []
  store : List AtomLine
  records : List AtomRecord
  deriving DecidableEq, Repr

def AtomEngine.reset : AtomEngine := { lastStation := 9, services := 0, inq := [], store := [], records := [] }

/-- An exact cell (R401). -/
structure ExactCell where
  v : BitVec 288
  pinf : Bool
  ninf : Bool
  nan : Bool
  mask : Mask
  deriving DecidableEq, Repr

def ExactCell.reset : ExactCell := { v := 0, pinf := false, ninf := false, nan := false, mask := 0 }

/-- A write that a replica has not yet taken (R474). -/
structure ReplWrite where
  cells : List Host.Cell
  die : Nat
  stamp : Clock
  deriving DecidableEq, Repr

/-- A replica of a 64-byte line on a die (R378, R474). `clk` is the clock of the home's die when the line was filled. -/
structure Replica where
  line : Nat
  data : Table Byte
  queue : List ReplWrite
  clk : Clock
  deriving DecidableEq, Repr

/-! ## Translation (R104 to R123) -/

/-- A leaf of a partition's page tables (R111): the level, the virtual address of its span and the entry. `sealed` is what the SNAPADVs
that raised its RLIM release (R408). -/
structure Leaf where
  level : Nat
  va : Nat
  entry : BitVec 128
  sealed : Clock := Clock.zero
  deriving DecidableEq, Repr

/-- A range entry (R114). `sealed` is as of a leaf. -/
structure RangeEntry where
  base : Nat
  limit : Nat
  target : Nat
  mask : Mask
  rd : Bool
  wr : Bool
  at_ : Bool
  ap : Bool
  rlim : Nat
  wlim : Nat
  sealed : Clock := Clock.zero
  deriving DecidableEq, Repr

/-- A translation held by a store, tagged with its partition (R120). -/
structure StoreEntry where
  part : Nat
  base : Nat
  size : Nat
  deriving DecidableEq, Repr

/-- An entry of a die's miss table (R121), with the numbers of the requests that wait on it. -/
structure Miss where
  part : Nat
  key : Nat
  cluster : Nat
  started : Bool
  reqs : List Nat := []
  deriving DecidableEq, Repr

/-- A die: its clock, its last-level store, its miss table, the misses that wait at its front stores while the table is full, oldest
first, and its replicas. -/
structure Die where
  clk : Clock
  store : List StoreEntry
  misses : Table Miss
  nextMiss : Nat
  atFront : List Miss := []
  replicas : List Replica
  deriving DecidableEq, Repr

def Die.reset : Die := { clk := Clock.zero, store := [], misses := [], nextMiss := 0, atFront := [], replicas := [] }

/-! ## Launches -/

/-- A launch packet (R64). -/
structure Packet where
  marker : Bool
  mode : BitVec 8
  part : Nat
  contexts : Nat
  perCore : Nat
  wmask : BitVec 8
  image : Nat
  bindings : Nat
  seed : Word
  waits : List (BitVec 32)
  signal : BitVec 16
  userTag : BitVec 32
  counterBase : Word
  deriving DecidableEq, Repr

/-- A range of a phase (R48). -/
structure PhaseRec where
  num : Nat
  engine : Nat
  write : Bool
  ctx : Nat
  off : Nat
  len : Nat
  deriving DecidableEq, Repr

/-- A declaration of the DECL section (R471): kind, index and its 64 bytes. -/
structure DeclRec where
  kind : Nat
  index : Nat
  body : BitVec 512
  deriving DecidableEq, Repr

/-- A micro routine of an image (R37). -/
structure MicroRec where
  index : Nat
  resident : Bool
  words : List (BitVec 128)
  deriving DecidableEq, Repr

/-- A rebind entry (R90). -/
structure RebindRec where
  kind : Nat
  sect : Nat
  bit : Nat
  width : Nat
  off : Nat
  deriving DecidableEq, Repr

/-- What the loader keeps of an image that passed its checks (R30 to R50, R90). -/
structure Image where
  digest : BitVec 256
  det : Bool
  entry : Nat
  code : List Byte
  ovls : List (List Byte)
  const : Option (List Byte)
  microRaw : List Byte
  micro : List MicroRec
  budget : List Nat
  mirrors : List (BitVec 32)
  params : List (Nat × Bool × Bool)
  results : List (Nat × Nat)
  targets : List Nat
  phases : List PhaseRec
  decls : List DeclRec
  rebinds : List RebindRec
  coresReq : Nat
  portsReq : Nat
  deriving DecidableEq, Repr

/-- Where an accepted launch stands (R68). -/
inductive LStage where
  | serial | waiting | placing | running
  /-- Retirement (R438): steps 1 and 2, steps 3 and 4, which wait for ring room (R78), and step 5. -/
  | retiring | record | freeing
  deriving DecidableEq, Repr

/-- What tenant pre-emption saves of a context (R430). -/
structure SavedCtx where
  j : Nat
  pc : Nat
  bank : Bool
  rstack : List Nat
  taint : Mask
  rndPos : Word
  trapEn : Bool
  trapTidx : BitVec 8
  trapMask : Word
  retired : Bool
  deriving DecidableEq, Repr

/-- An accepted launch (R67). -/
structure Launch where
  num : Nat
  queue : Nat
  pkt : Packet
  qhead : BitVec 32
  stage : LStage
  status : Status
  /-- Enabled waits not yet satisfied (R71). -/
  waitsLeft : List (BitVec 32)
  image : Option Image
  imgDigest : Option (BitVec 256)
  /-- Windows bound: index, base and size (R46). -/
  windows : Table (Nat × Nat)
  area : Word
  cores : List Nat
  start : Option Word
  end_ : Word
  digest : Option (BitVec 256)
  mloads : Nat
  microDigest : BitVec 256
  stopReq : Bool
  saved : List SavedCtx
  logPos : Option (BitVec 32)
  recStopped : Bool
  /-- What the dies of its cores must have applied before it begins (R366, R382). -/
  clk : Clock := Clock.zero
  deriving DecidableEq, Repr

/-! ## Queues, functions and partitions -/

/-- States of a queue (R59, R63). -/
inductive QState where
  | disabled | idle | pending | mapped | draining | aborting
  deriving DecidableEq, Repr

/-- A host queue (R56 to R63). -/
structure Queue where
  base : Nat
  log2size : Nat
  preempt : Bool
  enable : Bool
  teardown : Bool
  abort : Bool
  head : BitVec 32
  tail : BitVec 32
  readerr : Bool
  badtail : Bool
  st : QState
  slot : Option Nat
  mappedAt : Nat
  /-- What the records written before its last notify cover (R382). -/
  clk : Clock := Clock.zero
  deriving DecidableEq, Repr

def Queue.reset : Queue :=
  { base := 0, log2size := 0, preempt := false, enable := false, teardown := false, abort := false, head := 0, tail := 0,
    readerr := false, badtail := false, st := .disabled, slot := none, mappedAt := 0, clk := Clock.zero }

/-- A queue slot of the launch processor (R61): the queue it holds, and the queue it is reserved for while vacating. -/
structure QSlot where
  queue : Nat
  reservedFor : Option Nat
  deriving DecidableEq, Repr

/-- A mailbox response: where it goes, the partition asked for, the code, the data that follow, and the number below which every
access of the partition must have been performed first (R123, R450). -/
structure MbResponse where
  addr : Nat
  part : Nat
  code : Nat
  data : List Byte
  after : Option Nat
  /-- An egress slot that takes effect with the answer (R356). -/
  egress : Option (Nat × Option Egress) := none
  deriving DecidableEq, Repr

/-- The register page of a function (R56, R450). `requests` are doorbells not yet served, by their addresses. -/
structure Func where
  qsel : Nat
  objbase : Nat
  ephbase : Nat
  ephctl : Nat
  ephprod : BitVec 32
  ephcons : BitVec 32
  logbase : Nat
  loglimit : Word
  logprod : Word
  fstat : BitVec 4
  mbaddr : Nat
  busy : Bool
  request : Option Nat
  /-- A response formed and not yet written (R450). -/
  response : Option MbResponse
  deriving DecidableEq, Repr

def Func.reset : Func :=
  { qsel := 0, objbase := 0, ephbase := 0, ephctl := 0, ephprod := 0, ephcons := 0, logbase := 0, loglimit := 0, logprod := 0,
    fstat := 0, mbaddr := 0, busy := false, request := none, response := none }

/-- A completion object (R69). -/
structure Obj where
  val : BitVec 32
  status : Status
  last : Word
  /-- What the launches that signalled it have observed and written (R382). -/
  clk : Clock := Clock.zero
  deriving DecidableEq, Repr

def Obj.reset : Obj := { val := 0, status := .ok, last := 0, clk := Clock.zero }

/-- A partition descriptor (R84). `raw` keeps its 800 bytes for the manifest's digest. -/
structure Desc where
  quads : BitVec 16
  signreq : Bool
  detok : Bool
  parties : Nat
  slotBase : Nat
  slotCount : Nat
  cap : Nat
  ports : BitVec 64
  groupBase : Nat
  groupCount : Nat
  link : Nat
  trusted : Nat
  ceiling : Nat
  queueBase : Nat
  queueCount : Nat
  partyKeys : List (BitVec 256)
  signers : List (BitVec 256)
  raw : List Byte
  deriving DecidableEq, Repr

/-- A publication window with its version (R406). -/
structure PubWin where
  base : Nat
  size : Nat
  counter : Nat
  version : Word
  deriving DecidableEq, Repr

/-- An installed release policy with the count left (R360, R361). -/
structure Policy where
  mask : Mask
  maxBytes : Nat
  base : Nat
  size : Nat
  count : Nat
  image : BitVec 256
  serial : Nat
  deriving DecidableEq, Repr

/-- A record of the fault log (R435). -/
structure FLog where
  cause : Cause
  term : Bool
  addr : Word
  core : Nat
  ctx : Nat
  deriving DecidableEq, Repr

/-- A partition (R84 and the rules named at the fields). -/
structure Part where
  desc : Option Desc
  launches : List Launch
  nextLaunch : Nat
  objs : Table Obj
  leaves : List Leaf
  ranges : Table RangeEntry
  egress : Table Egress
  pubwins : Table PubWin
  policies : Table Policy
  /-- Highest serial installed at an index since the descriptor was installed (R361). -/
  serials : Table Nat
  /-- `rel.count`, `rel.log0` to `rel.log15` (R364). -/
  relAccepted : BitVec 32
  relRefused : BitVec 32
  relLog : Table Word
  /-- Fault log (R435) and `part.replay`. -/
  flog : Table FLog
  fcount : Word
  replayKind : BitVec 8
  replayPos : BitVec 32
  /-- Manifest SEQ (R441). -/
  seq : Word
  /-- STEP of `part.power`, a step waiting to take effect, and CAPLOW (R98). -/
  step : Nat
  nextStep : Option Nat
  caplow : Bool
  /-- A debugger is attached (R428), and the freeze of REPLAY_DIVERGE (R433). -/
  debugger : Bool
  frozen : Bool
  /-- Log entries that wait for LOGLIMIT (R80): 32 bytes each. -/
  logWait : List (List Byte)
  /-- Retirements in the order in which they began. -/
  retireOrder : List Nat
  /-- What the launches whose records have been written have observed and written (R382). -/
  recClk : Clock
  deriving DecidableEq, Repr

def Part.reset : Part :=
  { desc := none, launches := [], nextLaunch := 1, objs := [], leaves := [], ranges := [], egress := [], pubwins := [],
    policies := [], serials := [], relAccepted := 0, relRefused := 0, relLog := [], flog := [], fcount := 0, replayKind := 0,
    replayPos := 0, seq := 0, step := 0, nextStep := none, caplow := false, debugger := false,
    frozen := false, logWait := [], retireOrder := [], recClk := Clock.zero }

/-- A context named by core and hardware number. -/
structure CtxName where
  core : Nat
  ctx : Nat
  deriving DecidableEq, Repr

/-- A launch context, as the groups name it: its name stays while its launch is pre-empted and when it retires (R95, R100). -/
structure LaunchCtx where
  part : Nat
  launch : Nat
  j : Nat
  deriving DecidableEq, Repr

/-- A member's place in a group (R101). -/
structure Member where
  who : LaunchCtx
  /-- 1 member, 2 joiner, 3 leaver. -/
  rel : Nat
  arrived : Bool
  /-- It waits by GBAR: a member on the current phase, a joiner on the phase to come. -/
  waits : Bool
  deriving DecidableEq, Repr

/-- A module group (R100 to R102). -/
structure Group where
  phase : BitVec 32
  members : List Member
  deriving DecidableEq, Repr

def Group.reset : Group := { phase := 0, members := [] }

/-- Requests of group operations in issue order (R403). -/
inductive GroupOp where
  | join | leave | bar
  deriving DecidableEq, Repr

/-- A request on its way to the IOD, with the clock of its die (R404). -/
structure GroupReq where
  who : LaunchCtx
  group : Nat
  op : GroupOp
  clk : Clock := Clock.zero
  /-- For the GLEAVE of a context that retires: its seat and the number of the next request then. It takes effect after the atomics that
  the context sent before (R404). -/
  after : Option (CtxName × Nat) := none
  deriving DecidableEq, Repr

/-- A release handed to the gate (R362, R363). -/
structure GateReq where
  part : Nat
  core : Nat
  ctx : Nat
  uid : Nat
  pol : Nat
  off : Word
  data : List Byte
  mask : Mask
  image : BitVec 256
  deriving DecidableEq, Repr

/-- A SNAPADV that has written its limit and waits to complete (R119). -/
structure SnapWait where
  who : CtxName
  uid : Nat
  deriving DecidableEq, Repr

/-! ## The module -/

/-- What the outcome of a slot's attempt was. -/
inductive Verdict where
  | issued
  /-- The slot has issued and redirected or ended its context itself: ERET, HALTCTX, or a YIELD that stops it. -/
  | struck
  | raised (c : Cause) (code : BitVec 8) (addr : Word)
  | blocked (code : Nat)
  | stalled
  deriving DecidableEq, Repr

/-- The agent in focus: the core and context whose slot is executing, the slot, EXT of its bundle, and the outcome. `base`,
`ldaVis` and `readVis` are the number of the next request, and the landings of the context's LDAs and reads, as its bundle
began: what its own slots send holds none of them back (R388, R391). -/
structure Cur where
  core : Nat
  ctx : Nat
  slot : Nat
  ext : BitVec 12
  verdict : Verdict
  base : Nat
  ldaVis : Nat
  readVis : Nat
  deriving DecidableEq, Repr

/-- One turn of the schedule: which agent moves. -/
inductive Turn where
  /-- One island cycle of a core. -/
  | cycle (core : Nat)
  /-- One cycle of the 1.4 GHz reference (R76). -/
  | ref
  /-- One step of the plane unit of a core: its running call's next micro-op. -/
  | micro (core : Nat)
  /-- The host writes bytes of its own memory behind a link. -/
  | hostWrite (link addr : Nat) (bytes : List Byte)
  /-- The host writes MBADDR and MBDOOR: a request at an address. -/
  | doorbell (fn addr : Nat)
  /-- An event or instruction of the opcode table. -/
  | event (i : Instr)
  deriving DecidableEq, Repr

/-- The whole module (R1). -/
structure State where
  /-- Module reset has failed and the module stays in reset (R447). -/
  dead : Bool
  /-- Turns to come, and the core that moves when none is listed. -/
  agenda : List Turn
  focus : Nat
  cur : Cur
  /-- Numbers the free values taken (log entry 3) and the requests sent. -/
  freeCount : Nat
  nextId : Nat
  cores : Table Core
  dies : Table Die
  engines : Table AtomEngine
  /-- Cluster front stores (R120) and ring slot tables (R125). -/
  fronts : Table (List StoreEntry)
  slotTables : Table (List Nat)
  cells : Table ExactCell
  reads : List ReadReq
  writes : List WriteReq
  atoms : List AtomReq
  /-- Stack memory of the 48 ports, by physical address in the port-linear view (R83, R104). -/
  stack : Table Byte
  /-- Host memory behind each link and peer memory behind each port, by offset in the window (R104). -/
  host0 : Table Byte
  host1 : Table Byte
  peers : Table (Table Byte)
  peerUp : Table Bool
  linkUp0 : Bool
  linkUp1 : Bool
  parts : Table Part
  funcs : Table Func
  queues : Table Queue
  slots : Table QSlot
  mapCount : Nat
  groups : Table Group
  groupReqs : List GroupReq
  /-- Requests at the serialiser in order of arrival, and `dev.stamp` (R380). -/
  vsyncReqs : List CtxName
  devStamp : Word
  gate : List GateReq
  snaps : List SnapWait
  /-- Launch frame counter (R76). -/
  frame : Word
  /-- Units retired (harvest map), failing units and error counts (R436, R447). -/
  retired : List UnitName
  failing : List UnitName
  errors : List (UnitName × Nat)
  /-- Module power of the last 20 windows in milliwatts, the latest first (R448). -/
  power : List Nat
  /-- Islands above 105 °C that have not cooled below 95 °C, by their quads (R449). -/
  hotIslands : List Nat
  /-- A rebuild of the mesh waits for draining, and requests from this number on for injection, with those listed, which waited to be
  injected when the pause began (R130). -/
  meshPause : Bool
  meshMark : Nat
  meshHeld : List Nat := []
  /-- The function whose mailbox request was served last (R450). -/
  lastFn : Nat
  /-- MSI-X messages sent, by function, in order (R445). -/
  msix : List Nat
  deriving DecidableEq, Repr

/-- The default slot table of a ring (R125). -/
def slotTableReset : List Nat :=
  (List.range 64).map fun i =>
    let g := i / 8
    let j := i % 8
    if j < 5 then (5 * g + j) % 8 else if j < 7 then 9 else 8

/-- The module right after module reset (R447): no partition installed, nothing in memory, every counter zero. -/
def State.reset : State :=
  { dead := false, agenda := [], focus := 0, cur := { core := 0, ctx := 0, slot := 0, ext := 0, verdict := .issued, base := 0, ldaVis := 0, readVis := 0 },
    freeCount := 0, nextId := 0, cores := [], dies := [], engines := [], fronts := [],
    slotTables := (List.range 8).map (fun k => (k, slotTableReset)), cells := [], reads := [], writes := [],
    atoms := [], stack := [], host0 := [], host1 := [], peers := [], peerUp := [], linkUp0 := true, linkUp1 := true,
    parts := [], funcs := [], queues := [], slots := [], mapCount := 0, groups := [], groupReqs := [], vsyncReqs := [],
    devStamp := 0, gate := [], snaps := [], frame := 0, retired := [], failing := [], errors := [], power := [],
    hotIslands := [], meshPause := false, meshMark := 0, lastFn := 16, msix := [] }

end Sys2Proof.Machine
end

