-- ==== Sys2Proof/Machine/Access.lean ====
section
/-! DEFINITION. Accessors of the state: cores, contexts, partitions, launches, and where things stand on the module
(R1, R82, R83, R89). -/

namespace Sys2Proof.Machine

/-! ## Numbers and lists -/

/-- The numbers of the set bits of a mask, ascending. -/
def bitList (m width : Nat) : List Nat := (List.range width).filter (fun i => m.testBit i)

/-- Bits [hi:lo] of a number. -/
def bitsOf (v hi lo : Nat) : Nat := (v / 2 ^ lo) % 2 ^ (hi + 1 - lo)

/-- The union of label masks (R345). -/
def unionMasks : List Mask → Mask
  | [] => 0
  | m :: ms => m ||| unionMasks ms

/-- A list with one place changed. -/
def listSet {α : Type} : List α → Nat → (α → α) → List α
  | [], _, _ => []
  | x :: xs, 0, f => f x :: xs
  | x :: xs, n + 1, f => x :: listSet xs n f

/-- The distinct numbers of a list, ascending. -/
def distinct (l : List Nat) : List Nat := (l.foldl (fun (t : Table Unit) n => tput t n ()) []).map (·.1)

/-- The numbers 0 to 3, as of contexts and dies. -/
def four : List Nat := [0, 1, 2, 3]

/-! ## Cores and contexts -/

def dieOf (core : Nat) : Nat := core / 16
def clusterOf (core : Nat) : Nat := core / 8
def quadOf (core : Nat) : Nat := core / 4

def State.core (s : State) (c : Nat) : Core := tget Core.reset s.cores c

def State.modCore (s : State) (c : Nat) (f : Core → Core) : State := { s with cores := tmod Core.reset s.cores c f }

def Core.ctx (k : Core) (x : Nat) : Ctx := tget Ctx.reset k.ctxs x

def Core.modCtx (k : Core) (x : Nat) (f : Ctx → Ctx) : Core := { k with ctxs := tmod Ctx.reset k.ctxs x f }

def State.ctx (s : State) (c x : Nat) : Ctx := (s.core c).ctx x

def State.modCtx (s : State) (c x : Nat) (f : Ctx → Ctx) : State := s.modCore c (fun k => k.modCtx x f)

/-- The core and the context in focus. -/
def State.myCore (s : State) : Core := s.core s.cur.core
def State.me (s : State) : Ctx := s.ctx s.cur.core s.cur.ctx
def State.modMyCore (s : State) (f : Core → Core) : State := s.modCore s.cur.core f
def State.modMe (s : State) (f : Ctx → Ctx) : State := s.modCtx s.cur.core s.cur.ctx f

def State.die (s : State) (d : Nat) : Die := tget Die.reset s.dies d
def State.modDie (s : State) (d : Nat) (f : Die → Die) : State := { s with dies := tmod Die.reset s.dies d f }

def State.engine (s : State) (k : Nat) : AtomEngine := tget AtomEngine.reset s.engines k
def State.modEngine (s : State) (k : Nat) (f : AtomEngine → AtomEngine) : State :=
  { s with engines := tmod AtomEngine.reset s.engines k f }

def State.part (s : State) (n : Nat) : Part := tget Part.reset s.parts n
def State.modPart (s : State) (n : Nat) (f : Part → Part) : State := { s with parts := tmod Part.reset s.parts n f }

def State.func (s : State) (n : Nat) : Func := tget Func.reset s.funcs n
def State.modFunc (s : State) (n : Nat) (f : Func → Func) : State := { s with funcs := tmod Func.reset s.funcs n f }

def State.queue (s : State) (n : Nat) : Queue := tget Queue.reset s.queues n
def State.modQueue (s : State) (n : Nat) (f : Queue → Queue) : State :=
  { s with queues := tmod Queue.reset s.queues n f }

def State.group (s : State) (n : Nat) : Group := tget Group.reset s.groups n
def State.modGroup (s : State) (n : Nat) (f : Group → Group) : State :=
  { s with groups := tmod Group.reset s.groups n f }

/-! ## Launches -/

def Part.launch? (p : Part) (num : Nat) : Option Launch := p.launches.find? (fun l => l.num == num)

def Part.modLaunch (p : Part) (num : Nat) (f : Launch → Launch) : Part :=
  { p with launches := p.launches.map (fun l => if l.num = num then f l else l) }

def State.launch? (s : State) (o : Owner) : Option Launch := (s.part o.part).launch? o.launch

def State.modLaunch (s : State) (o : Owner) (f : Launch → Launch) : State :=
  s.modPart o.part (fun p => p.modLaunch o.launch f)

/-- The launch that holds a core (R93). -/
def State.launchOf (s : State) (core : Nat) : Option Launch := (s.core core).owner.bind s.launch?

/-- The partition that a core's launch belongs to; 0 where no launch holds the core. -/
def State.partOf (s : State) (core : Nat) : Nat := ((s.core core).owner.map (·.part)).getD 0

/-- The physical cores of the launch that holds a core, in logical order (R89). -/
def State.launchCores (s : State) (core : Nat) : List Nat := ((s.launchOf core).map (·.cores)).getD []

/-- Mode bits of the launch packet (R64). -/
def Launch.det (l : Launch) : Bool := l.pkt.mode.getLsbD 0
def Launch.record (l : Launch) : Bool := l.pkt.mode.getLsbD 1
def Launch.logstop (l : Launch) : Bool := l.pkt.mode.getLsbD 2
def Launch.replay (l : Launch) : Bool := l.pkt.mode.getLsbD 3
def Launch.baseGiven (l : Launch) : Bool := l.pkt.mode.getLsbD 4
def Launch.serial (l : Launch) : Bool := l.pkt.mode.getLsbD 5
def Launch.strictq (l : Launch) : Bool := l.pkt.mode.getLsbD 6

/-- Whether the core's launch is deterministic (R64, R174). -/
def State.det (s : State) (core : Nat) : Bool := ((s.launchOf core).map (·.det)).getD false

/-- The image of the core's launch. -/
def State.imageOf (s : State) (core : Nat) : Option Image := (s.launchOf core).bind (·.image)

/-- The party count of a partition (R88). -/
def Part.parties (p : Part) : Nat := (p.desc.map (·.parties)).getD 0

/-- The ports of a partition in logical order (R89). -/
def Part.portList (p : Part) : List Nat := (p.desc.map (fun d => bitList d.ports.toNat 48)).getD []

/-- The quads of a partition. -/
def Part.quadList (p : Part) : List Nat := (p.desc.map (fun d => bitList d.quads.toNat 16)).getD []

/-- The cores of a partition, ascending. -/
def Part.coreList (p : Part) : List Nat := p.quadList.flatMap (fun q => [4 * q, 4 * q + 1, 4 * q + 2, 4 * q + 3])

/-- The 64 cores of the module. -/
def allCores : List Nat := List.range 64

/-- Every context of the launch on its cores, by launch context number: the cores in logical order, each with its hardware contexts (R95). -/
def Launch.ctxNames (l : Launch) : List CtxName :=
  ((l.cores.flatMap fun c => (List.range (min l.pkt.perCore 4)).map fun x => { core := c, ctx := x })).take l.pkt.contexts

/-- The name of the launch context that runs as a context of a core. -/
def State.nameOf (s : State) (core ctx : Nat) : LaunchCtx :=
  let o := (s.core core).owner.getD { part := 0, launch := 0, lcore := 0 }
  { part := o.part, launch := o.launch, j := (s.ctx core ctx).j }

/-- Where a launch context runs, if its launch holds cores. -/
def State.seatOf (s : State) (w : LaunchCtx) : Option CtxName :=
  ((s.part w.part).launch? w.launch).bind (fun l => l.ctxNames[w.j]?)

end Sys2Proof.Machine
end

