-- ==== Sys2Proof/Machine/Translate.lean ====
section
/-! DEFINITION. Addresses and memory: the physical map (R104 to R106), the slice aperture (R109), translation and the
checks of an access (R111 to R118, R355), the bytes, masks and full-empty bits behind an address (R232, R353, R354), and
the stamping and the homes of writes (R367, R377, R474). -/

namespace Sys2Proof.Machine

/-! ## The physical map -/

/-- A region of the physical map with an offset (R104). -/
inductive Region where
  | slice (core off : Nat)
  | iod (off : Nat)
  | port (p off : Nat)
  | peer (j off : Nat)
  | host (link off : Nat)
  | interleaved (n off : Nat)
  | unassigned
  deriving DecidableEq, Repr

/-- Bytes of a slice, of a port, and of its part below the reserve (R108, R232). -/
def sliceBytes : Nat := 0x01800000
def portBytes : Nat := 0x300000000
def reserveBase : Nat := 0x2FC000000
def twelveGiB : Nat := 0x300000000

/-- The region that holds a physical address; the populated part of a peer window or an interleaved view is judged where it
is used (R104). -/
def regionOf (pa : Nat) : Region :=
  if pa < 0x80000000 then
    if pa % 0x2000000 < sliceBytes then .slice (pa / 0x2000000) (pa % 0x2000000) else .unassigned
  else if pa < 0x100000000 then .unassigned
  else if pa < 0x200000000 then .iod (pa - 0x100000000)
  else if pa < 0x10000000000 then .unassigned
  else if pa < 0x10000000000 + 48 * 0x400000000 then
    let o := pa - 0x10000000000
    if o % 0x400000000 < portBytes then .port (o / 0x400000000) (o % 0x400000000) else .unassigned
  else if pa < 0x200000000000 then .unassigned
  else if pa < 0x200000000000 + 12 * 0x10000000000 then
    .peer ((pa - 0x200000000000) / 0x10000000000) (pa % 0x10000000000)
  else if pa < 0x400000000000 then .unassigned
  else if pa < 0x600000000000 then .host 0 (pa - 0x400000000000)
  else if pa < 0x800000000000 then .host 1 (pa - 0x600000000000)
  else if pa < 0x800000000000 + 16 * 0x10000000000 then
    .interleaved ((pa - 0x800000000000) / 0x10000000000) (pa % 0x10000000000)
  else .unassigned

def slicePa (core off : Nat) : Nat := core * 0x2000000 + off
def portPa (p off : Nat) : Nat := 0x10000000000 + p * 0x400000000 + off
def peerPa (j off : Nat) : Nat := 0x200000000000 + j * 0x10000000000 + off

/-- The port-linear name of an address: the interleaved view is a second name for the same bytes (R106), as far as it is
populated (R104). -/
def State.linear (s : State) (pa : Nat) : Nat :=
  match regionOf pa with
  | .interleaved n off =>
    let ports := (s.part n).portList
    if ports.length * portBytes ≤ off then pa
    else match ports[(off / 4096) % ports.length]? with
      | some p => portPa p ((off / 4096) / ports.length * 4096 + off % 4096)
      | none => pa
  | _ => pa

/-- The die on which a linear address has its home; the IOD's windows have none (R104). -/
def homeDie (pa : Nat) : Option Nat :=
  match regionOf pa with
  | .slice c _ => some (dieOf c)
  | .port p _ => some (p / 12)
  | _ => none

/-- The core whose slice holds an address, if it lies in a slice. -/
def sliceOf (pa : Nat) : Option Nat :=
  match regionOf pa with
  | .slice c _ => some c
  | _ => none

/-! ## Bytes, masks and full-empty bits -/

/-- The byte at a linear physical address. -/
def State.peek (s : State) (pa : Nat) : Byte :=
  match regionOf pa with
  | .slice c off => tget 0 (s.core c).slice off
  | .port _ _ => tget 0 s.stack pa
  | .host 0 off => tget 0 s.host0 off
  | .host _ off => tget 0 s.host1 off
  | .peer j off => tget 0 (tget [] s.peers j) off
  | _ => 0

/-- Writes one byte at a linear physical address. -/
def State.poke (s : State) (pa : Nat) (b : Byte) : State :=
  match regionOf pa with
  | .slice c off => s.modCore c (fun k => { k with slice := tset 0 k.slice off b })
  | .port _ _ => { s with stack := tset 0 s.stack pa b }
  | .host 0 off => { s with host0 := tset 0 s.host0 off b }
  | .host _ off => { s with host1 := tset 0 s.host1 off b }
  | .peer j off => { s with peers := tmod [] s.peers j (fun t => tset 0 t off b) }
  | _ => s

def State.pokes (s : State) : List Host.Cell → State
  | [] => s
  | (a, b) :: cs => (s.poke a b).pokes cs

def State.peeks (s : State) (pas : List Nat) : List Byte := pas.map s.peek

/-- The mask of the 4 KiB block of a slice byte; zero elsewhere (R346). -/
def State.blockMask (s : State) (pa : Nat) : Mask :=
  match regionOf pa with
  | .slice c off => tget 0 (s.core c).bmask (off / 4096)
  | _ => 0

/-- Raises the mask of the block that holds a slice byte (R354). -/
def State.raiseBlock (s : State) (pa : Nat) (m : Mask) : State :=
  match regionOf pa with
  | .slice c off => s.modCore c (fun k => { k with bmask := tset 0 k.bmask (off / 4096) (tget 0 k.bmask (off / 4096) ||| m) })
  | _ => s

/-- The blocks touched by addresses, each once in a row. -/
def State.raiseBlocks (s : State) (m : Mask) : List Nat → State
  | [] => s
  | [a] => s.raiseBlock a m
  | a :: b :: as => if a / 4096 = b / 4096 then s.raiseBlocks m (b :: as) else (s.raiseBlock a m).raiseBlocks m (b :: as)

/-- The full-empty bit of the granule that holds a slice byte (R232). -/
def State.fullBit (s : State) (pa : Nat) : Bool :=
  match regionOf pa with
  | .slice c off => tget false (s.core c).fe (off / 16)
  | _ => false

def State.setFull (s : State) (pa : Nat) (v : Bool) : State :=
  match regionOf pa with
  | .slice c off => s.modCore c (fun k => { k with fe := tset false k.fe (off / 16) v })
  | _ => s

def State.setFulls (s : State) (v : Bool) : List Nat → State
  | [] => s
  | [a] => s.setFull a v
  | a :: b :: as => if a / 16 = b / 16 then s.setFulls v (b :: as) else (s.setFull a v).setFulls v (b :: as)

/-- Little-endian bytes of a value (R7). -/
def bytesOf : Nat → Nat → List Byte
  | 0, _ => []
  | n + 1, v => BitVec.ofNat 8 v :: bytesOf n (v / 256)

/-- The value of little-endian bytes (R7). -/
def leValue : List Byte → Nat
  | [] => 0
  | b :: bs => b.toNat + 256 * leValue bs

/-! ## Clocks (R377, R378) -/

def Clock.get (c : Clock) : Nat → Word
  | 0 => c.d0
  | 1 => c.d1
  | 2 => c.d2
  | _ => c.d3

def Clock.set (c : Clock) (d : Nat) (v : Word) : Clock :=
  match d with
  | 0 => { c with d0 := v }
  | 1 => { c with d1 := v }
  | 2 => { c with d2 := v }
  | _ => { c with d3 := v }

/-- c ≥ e in every entry. -/
def Clock.covers (c e : Clock) : Bool :=
  e.d0.ule c.d0 && e.d1.ule c.d1 && e.d2.ule c.d2 && e.d3.ule c.d3

/-- The least clock that covers two. -/
def Clock.join (a b : Clock) : Clock :=
  let m (x y : Word) : Word := if x.ule y then y else x
  { d0 := m a.d0 b.d0, d1 := m a.d1 b.d1, d2 := m a.d2 b.d2, d3 := m a.d3 b.d3 }

/-! ## Checks of an access -/

inductive AKind where
  | read | write | atomic
  deriving DecidableEq, Repr

/-- Who accesses and how: the partition, the cores of the launch, the requester's own core, the kind, whether it is a copy or
another engine that may reach host and peer windows (R105), the mask of the data written and the egress windows that hold
for it (R355, R356). -/
structure Access where
  part : Nat
  cores : List Nat
  own : Nat
  kind : AKind
  copy : Bool
  mask : Mask
  egress : Table Egress
  deriving DecidableEq, Repr

/-- One byte of an access that passed its checks: its linear address and the MASK of the entry that translates it; for a slice
byte, the mask of its block at this time (R353). -/
structure Hit where
  pa : Nat
  mask : Mask
  /-- What the SNAPADVs that raised the entry's limit release (R408). -/
  sealed : Clock := Clock.zero
  deriving DecidableEq, Repr

/-- A translation of one virtual address: its physical address, and what the entry allows (R111, R114). `unit` is that of
its limits and `off` the offset of the address from the base of its page or range (R118). -/
structure Xlat where
  pa : Nat
  mask : Mask
  rd : Bool
  wr : Bool
  at_ : Bool
  ap : Bool
  rlim : Nat
  wlim : Nat
  unit : Nat
  off : Nat
  size : Nat
  base : Nat
  sealed : Clock := Clock.zero
  deriving DecidableEq, Repr

/-- Fields of a page-table entry (R111). -/
def pteWlim (e : BitVec 128) : Nat := (e.extractLsb' 104 24).toNat
def pteRlim (e : BitVec 128) : Nat := (e.extractLsb' 80 24).toNat
def pteMask (e : BitVec 128) : Mask := e.extractLsb' 64 16
def pteAddr (e : BitVec 128) : Nat := (e.extractLsb' 12 40).toNat * 4096
def pteS64 (e : BitVec 128) : Bool := e.getLsbD 6
def pteAp (e : BitVec 128) : Bool := e.getLsbD 5
def pteAt (e : BitVec 128) : Bool := e.getLsbD 4
def pteWr (e : BitVec 128) : Bool := e.getLsbD 3
def pteRd (e : BitVec 128) : Bool := e.getLsbD 2
def pteLf (e : BitVec 128) : Bool := e.getLsbD 1
def pteV (e : BitVec 128) : Bool := e.getLsbD 0

/-- The span that an entry of a level maps (R110, R473). -/
def levelSpan : Nat → Nat
  | 0 => 0x1000
  | 1 => 0x200000
  | 2 => 0x40000000
  | 3 => 0x8000000000
  | _ => 0x1000000000000

/-- The range entry that covers a virtual address, if one does (R115). -/
def Part.rangeAt (p : Part) (va : Nat) : Option RangeEntry :=
  (p.ranges.find? (fun e => e.2.base ≤ va && va < e.2.limit)).map (·.2)

/-- The leaf that covers a virtual address, if one does (R112). -/
def Part.leafAt (p : Part) (va : Nat) : Option Leaf :=
  p.leaves.find? (fun l => l.va ≤ va && va < l.va + levelSpan l.level)

/-- Whether an entry is a leaf at its level by R112. -/
def leafForm (level : Nat) (e : BitVec 128) : Bool :=
  let size := if pteS64 e then 65536 else levelSpan level
  pteLf e && decide (level ≤ 2) && e.extractLsb' 52 12 == 0 && e.extractLsb' 7 5 == 0 &&
  (if pteS64 e then level == 0 else pteAddr e % size == 0) &&
  (if pteAp e then decide (pteRlim e ≤ pteWlim e) && decide (pteWlim e ≤ size / 128) else pteRlim e == 0 && pteWlim e == 0)

/-- Translation by range entries before page entries (R112, R113, R115). An install admits no leaf that breaks R112; SNAPADV on one of
16 entries that disagree can leave such a leaf. -/
def Part.translate (p : Part) (va : Nat) : Except Cause Xlat :=
  match p.rangeAt va with
  | some r =>
    .ok { pa := r.target + (va - r.base), mask := r.mask, rd := r.rd, wr := r.wr, at_ := r.at_, ap := r.ap,
          rlim := r.rlim, wlim := r.wlim, unit := 4096, off := va - r.base, size := r.limit - r.base, base := r.base
          sealed := r.sealed }
  | none =>
    match p.leafAt va with
    | none => .error .transInvalid
    | some l =>
      let e := l.entry
      if !leafForm l.level e then .error .transFormat
      else if pteS64 e then
        if (pteAddr e / 4096) % 16 = (va / 4096) % 16 then
          .ok { pa := pteAddr e / 65536 * 65536 + va % 65536, mask := pteMask e, rd := pteRd e, wr := pteWr e,
                at_ := pteAt e, ap := pteAp e, rlim := pteRlim e, wlim := pteWlim e, unit := 128, off := va % 65536,
                size := 65536, base := va / 65536 * 65536, sealed := l.sealed }
        else .error .transFormat
      else
        let n := levelSpan l.level
        .ok { pa := pteAddr e + va % n, mask := pteMask e, rd := pteRd e, wr := pteWr e, at_ := pteAt e, ap := pteAp e,
              rlim := pteRlim e, wlim := pteWlim e, unit := 128, off := va % n, size := n, base := va / n * n
              sealed := l.sealed }

/-- Step 4 of R116 with R105. -/
def admits (copy : Bool) (pa : Nat) : Bool :=
  match regionOf pa with
  | .port _ _ | .interleaved _ _ => true
  | .host _ _ | .peer _ _ => copy
  | _ => false

/-- Step 5 of R116 with R118. -/
def appendOk (k : AKind) (x : Xlat) : Bool :=
  let rd := x.off < x.rlim * x.unit
  let wr := x.rlim * x.unit ≤ x.off && x.off < x.wlim * x.unit
  match k with
  | .read => !x.ap || rd
  | .write => !x.ap || wr
  | .atomic => !x.ap

/-- Step 6 of R116 with R355, for a write of data of mask `m`. -/
def labelOk (egress : Table Egress) (m : Mask) (x : Xlat) : Bool :=
  (m &&& ~~~ x.mask) == 0 &&
  match regionOf x.pa with
  | .host _ _ | .peer _ _ =>
    match bitList m.toNat 16 with
    | [] => true
    | [i] => egress.any (fun e => e.2.party == i && decide (e.2.base ≤ x.pa) && decide (x.pa < e.2.base + e.2.size))
    | _ => false
  | _ => true

/-- The own-slice address of an offset, as a context of the core would name it (R109). -/
def ownVa (off : Nat) : Word := BitVec.ofNat 64 (0x00FFFE0080000000 + off)

/-- Where an aperture address lies, or SLICE_RANGE (R109). -/
def aperture (cores : List Nat) (own va : Nat) : Except Cause Nat :=
  let off := va % 0x2000000
  let i := (va / 0x2000000) % 64
  if sliceBytes ≤ off then .error .sliceRange
  else if (va / 0x80000000) % 2 = 1 then
    if i = 0 then .ok (slicePa own off) else .error .sliceRange
  else match cores[i]? with
    | some c => .ok (slicePa c off)
    | none => .error .sliceRange

def inAperture (va : Nat) : Bool := va / 0x100000000 == 0xFFFE00

/-- The checks of R196 and R116 on one byte. -/
def State.checkByte (s : State) (a : Access) (va : Nat) : Except Cause Hit :=
  if 0x100000000000000 ≤ va then .error .transInvalid
  else if inAperture va then
    match aperture a.cores a.own va with
    | .ok pa => .ok { pa := pa, mask := s.blockMask pa }
    | .error e => .error e
  else
    match (s.part a.part).translate va with
    | .error e => .error e
    | .ok x =>
      let perm := match a.kind with
        | .read => x.rd
        | .write => x.wr
        | .atomic => x.rd && x.wr && x.at_
      if !perm then .error .transPerm
      else if !admits a.copy x.pa then .error .transTarget
      else if !appendOk a.kind x then .error .snapBound
      else if a.kind != .read && !labelOk a.egress a.mask x then .error .labelStore
      else .ok { pa := s.linear x.pa, mask := x.mask, sealed := x.sealed }

/-- An access of n bytes is checked on every byte before any byte moves; the lowest faulting address is reported (R117). -/
def State.checkSpan (s : State) (a : Access) : Nat → Nat → Except (Cause × Word) (List Hit)
  | _, 0 => .ok []
  | va, n + 1 =>
    match s.checkByte a (va % 2 ^ 64) with
    | .error c => .error (c, BitVec.ofNat 64 va)
    | .ok h =>
      match s.checkSpan a (va + 1) n with
      | .error e => .error e
      | .ok hs => .ok (h :: hs)

/-- What a read of checked bytes acquires from the SNAPADVs that admit it (R408). The clocks of every raise of an entry are taken
together (log entry 84). -/
def sealClock (hs : List Hit) : Clock := hs.foldl (fun c h => c.join h.sealed) Clock.zero

/-- The union of the masks of the bytes of an access, as they stand now (R353). -/
def State.hitsMask (s : State) (hs : List Hit) : Mask :=
  unionMasks (hs.map (fun h => match sliceOf h.pa with | some _ => s.blockMask h.pa | none => h.mask))

/-! ## Phases (R48, R410) -/

/-- Engines that phase records name (R49): the contexts, and the engines by number. -/
abbrev PhaseEngine := Nat

/-- Whether slice offset `off` lies in a range that an engine declares in a phase (R410). -/
def phaseCovers (img : Image) (ph : Nat × Nat) (engine : PhaseEngine) (ctx : Nat) (write : Bool) (off : Nat) : Bool :=
  img.phases.any fun r =>
    decide (r.num = ph.1) && decide (r.engine = engine) && r.write == write &&
    (engine != 0 || decide (r.ctx = 0xFF) || decide (r.ctx = ctx)) &&
    decide (ph.2 + r.off ≤ off) && decide (off < ph.2 + r.off + r.len) && decide (off < sliceBytes)

/-! ## Stamps (R377, R378) -/

/-- Stamps a write of die d: the die's own entry advances by one (R377). -/
def State.stamp (s : State) (d : Nat) : State :=
  s.modDie d (fun x => { x with clk := x.clk.set d (x.clk.get d + 1) })

/-- Whether a write has been applied to a die (R377, R378). -/
def WriteReq.appliedTo (w : WriteReq) (d : Nat) : Bool := !w.held && (d == w.die || w.applied.contains d)

/-- Whether a write has been applied on every die. -/
def WriteReq.everywhere (w : WriteReq) : Bool := four.all w.appliedTo

/-- Whether a write touches one of the bytes. -/
def WriteReq.touches (w : WriteReq) (pas : List Nat) : Bool := w.cells.any (fun c => pas.contains c.1)

/-- A write is forgotten once it is performed, acknowledged and applied everywhere. -/
def State.dropDone (s : State) : State :=
  { s with writes := s.writes.filter (fun w => !(w.performed && w.acked && w.everywhere)) }

/-- The write that replicas of the lines owe (R474). -/
def State.queueReplicas (s : State) (cells : List Host.Cell) (die : Nat) (stamp : Clock) : State :=
  { s with dies := s.dies.map (fun e =>
      (e.1, { e.2 with replicas := e.2.replicas.map (fun r =>
        let cs := cells.filter (fun c => c.1 / 64 == r.line)
        if cs.isEmpty then r else { r with queue := r.queue ++ [{ cells := cs, die := die, stamp := stamp }] }) })) }

/-- A write is performed at its home: bytes, block masks, full-empty bit, and the debt of replicas (R201, R354, R367). -/
def State.perform (s : State) (cells : List Host.Cell) (m : Mask) (fe : Bool) (die : Nat) (stamp : Clock) : State :=
  let s := (s.pokes cells).raiseBlocks m (cells.map (·.1))
  let s := if fe then s.setFulls true (cells.map (·.1)) else s
  s.queueReplicas cells die stamp

/-- A part of a zero fill of whole blocks is performed: bytes and full-empty bits clear, and the mask of a block falls with its last
byte (R273). -/
def State.performClear (s : State) (cells : List Host.Cell) (die : Nat) (stamp : Clock) : State :=
  let pas := cells.map (·.1)
  let s := (s.pokes cells).setFulls false pas
  let s := (pas.filter (fun a => a % 4096 == 4095)).foldl (fun s a => match regionOf a with
    | .slice c off => s.modCore c (fun k => { k with bmask := tset 0 k.bmask (off / 4096) 0 })
    | _ => s) s
  s.queueReplicas cells die stamp

/-! ## The order of accesses (R366, R369, R375, R474) -/

/-- Sets RESC of a slice's core when bytes lie outside the ranges of an engine in its open phase (R410). -/
def State.noteArrival (s : State) (engine : Nat) (writes : List Bool) (pas : List Nat) : State :=
  match pas.head?.bind sliceOf with
  | none => s
  | some c =>
    match (s.core c).phase, s.imageOf c with
    | some ph, some img =>
      if pas.all (fun a => writes.all (fun w => phaseCovers img ph engine 0 w (a % 0x2000000))) then s
      else s.modCore c (fun k => { k with resc := true })
    | _, _ => s

/-- Whether two accesses share a byte. -/
def meets (a b : List Nat) : Bool := a.any (fun x => b.contains x)

def WriteReq.pas (w : WriteReq) : List Nat := w.cells.map (·.1) ++ w.raises
def ReadReq.pas (r : ReadReq) : List Nat := r.bytes.filterMap (fun b => b)

/-- Whether an earlier read of the same context at one of the bytes has not been performed. -/
def State.readOpen (s : State) (id core ctx : Nat) (pas : List Nat) : Bool :=
  s.reads.any (fun r => decide (r.id < id) && r.core == core && r.ctx == ctx && r.reply.isNone && meets r.pas pas)

/-- Whether an earlier read or write of the same context at one of the bytes has not been performed (R369). -/
def State.earlierAccess (s : State) (id core ctx : Nat) (pas : List Nat) : Bool :=
  s.writes.any (fun w => decide (w.id < id) && w.ofCtx && w.core == core && w.ctx == ctx && !w.performed && meets w.pas pas) ||
  s.readOpen id core ctx pas

/-- Whether an earlier atomic of the same context on some of the bytes has not been served. -/
def State.atomOpen (s : State) (id core ctx : Nat) (pas : List Nat) : Bool :=
  s.atoms.any (fun a => decide (a.id < id) && a.core == core && a.ctx == ctx && a.stage == .sent &&
    (match a.tgt with
     | .mem pa => meets ((List.range 8).map (fun i => pa + i)) pas
     | .cell _ => false))

/-- The same of any access, atomics counted. -/
def State.earlierOpen (s : State) (id core ctx : Nat) (pas : List Nat) : Bool :=
  s.earlierAccess id core ctx pas || s.atomOpen id core ctx pas

/-- A write covered by a clock is not yet performed at some of the bytes: a read that carries the clock must wait (R474). -/
def State.mustWait (s : State) (clk : Clock) (pas : List Nat) : Bool :=
  s.writes.any (fun w => !w.performed && !w.held && clk.covers w.stamp && w.touches pas)

/-- Whether a VSYNC of a context that comes before a request of it has not completed (R380). -/
def State.syncing (s : State) (id core ctx : Nat) : Bool :=
  match (s.ctx core ctx).wait2 with
  | some (.vsync _) => decide ((s.ctx core ctx).syncAt ≤ id)
  | _ => false

/-- Whether an LDA of a context that comes before a request of it has not landed, or a VSYNC has not completed (R370, R380, R388). -/
def State.acquiring (s : State) (id core ctx : Nat) : Bool :=
  s.reads.any (fun r => decide (r.id < id) && r.core == core && r.ctx == ctx && r.acquire) || s.syncing id core ctx

/-- Whether a read or an atomic that a context made before an operation of its engines is not yet performed, with what it brings to the
context's die, or an LDA or a VSYNC holds the operation: what comes before the fork happens before every event of the operation
(R370, R384, R474). -/
def State.forkWaits (s : State) (id core ctx : Nat) : Bool :=
  s.acquiring id core ctx ||
  s.reads.any (fun r => decide (r.id < id) && r.core == core && r.ctx == ctx && (match r.kind with | .sysr _ => false | _ => true)) ||
  s.atoms.any (fun a => decide (a.id < id) && a.core == core && a.ctx == ctx && a.stage != .replied)

/-- Whether a read cannot yet be served anywhere: an LDA or a VSYNC of its own bundle holds it (R370, R380), or its die lags behind what
it has acquired (R408). -/
def State.behind (s : State) (r : ReadReq) : Bool :=
  s.acquiring r.id r.core r.ctx || !(s.die (dieOf r.core)).clk.covers r.clk

def State.modWrite (s : State) (id : Nat) (f : WriteReq → WriteReq) : State :=
  { s with writes := s.writes.map (fun w => if w.id = id then f w else w) }

/-- Whether a write must follow another that is not performed: one to its bytes whose stamp it covers (R369, R375), or an earlier element
of its entry, for a write that sets bits one in its granules (R234), and for a zero fill one in its blocks (R273). -/
def State.followsOpen (s : State) (w : WriteReq) : Bool :=
  s.writes.any (fun v => v.id != w.id && !v.performed && !v.held &&
    ((w.stamp.covers v.stamp && meets v.pas w.pas) ||
     ((w.fe || w.clr) && decide (v.id < w.id) && v.ent.isSome && v.ent == w.ent && v.core == w.core && v.ctx == w.ctx &&
      (let n := if w.clr then 4096 else 16
       meets (v.pas.map (· / n)) (w.pas.map (· / n))))))

/-- Whether a request waits for a walk of its translation (R121). -/
def State.walking (s : State) (id : Nat) : Bool :=
  s.dies.any (fun d => d.2.misses.any (fun m => m.2.reqs.contains id) || d.2.atFront.any (fun m => m.reqs.contains id))

/-- Whether bytes lie outside the slices: an entry has translated their addresses. -/
def translated (pas : List Nat) : Bool := pas.any (fun a => (sliceOf a).isNone)

/-- Whether a request of a core to bytes goes over the mesh (R127, R128): it leaves the core's cluster. One to no bytes is for the IOD. -/
def overMesh (core : Nat) (pas : List Nat) : Bool :=
  pas.isEmpty || pas.any (fun a => (sliceOf a).map clusterOf != some (clusterOf core))

/-- Whether what leaves as number `id` is not injected into the mesh, whose routes are rebuilt (R130). -/
def State.notInjected (s : State) (id : Nat) : Bool := s.meshPause && (decide (s.meshMark ≤ id) || s.meshHeld.contains id)

/-- Whether a request of a core waits to be injected. -/
def State.paused (s : State) (id core : Nat) (pas : List Nat) : Bool := s.notInjected id && overMesh core pas

/-- The number with which a write left its core: its own, or that of its release where an LDA held it. -/
def WriteReq.sent (w : WriteReq) : Nat := max w.id w.left

/-- Whether an access of an engine, or of a bundle as it issues, must wait to be injected into the mesh, whose routes are rebuilt
(R130). -/
def State.noInjection (s : State) (core : Nat) (pas : List Nat) : Bool := s.meshPause && overMesh core pas

/-- The requests that have not been injected, by the numbers with which they leave: they wait for a walk, or at their core for an LDA, a
VSYNC or its die's clock. A pause of the mesh holds them (R130). -/
def State.uninjected (s : State) : List Nat :=
  (s.reads.filter (fun r => s.walking r.id || s.behind r)).map (·.id) ++
  (s.writes.filter (fun w => s.walking w.id)).map WriteReq.sent ++
  (s.atoms.filter (fun a => s.walking a.id)).map (·.id)

/-- Whether a write can be performed: its translation is found, it has been injected, the dies of its homes have applied it, earlier accesses of its context
to its bytes are done, and it follows no open write. -/
def State.canPerform (s : State) (w : WriteReq) : Bool :=
  !w.performed && !w.held && !s.walking w.id && !s.paused w.sent w.core w.pas &&
  w.pas.all (fun a => match homeDie a with | some d => w.appliedTo d | none => true) &&
  !s.earlierOpen w.id w.core w.ctx w.pas && !s.followsOpen w

/-- A write is performed at its home. -/
def State.performWrite (s : State) (w : WriteReq) : State :=
  let s := if w.clr then s.performClear w.cells w.die w.stamp else s.perform w.cells w.mask w.fe w.die w.stamp
  let s := s.raiseBlocks w.mask w.raises
  let s := if (w.pas.head?.bind sliceOf) = some w.core then s else s.noteArrival 5 [true] (w.cells.map (·.1))
  s.modWrite w.id (fun w => { w with performed := true })

/-! ## Reads at their homes -/

/-- The clocks of the dies that hold bytes. -/
def State.homeClock (s : State) (pas : List Nat) : Clock :=
  pas.foldl (fun c a => match homeDie a with
    | some d => c.join (s.die d).clk
    | none => c) Clock.zero

/-- The value that bytes become. -/
def ReadFmt.value (f : ReadFmt) (bs : List Byte) : BitVec 1024 :=
  match f with
  | .zx n => BitVec.ofNat 1024 (leValue (bs.take n))
  | .sx n => ((BitVec.ofNat (8 * n) (leValue (bs.take n))).signExtend 64).setWidth 1024
  | .vec len => BitVec.ofNat 1024 (leValue bs % 2 ^ len)

/-- The bytes of a read in place order: zero for an absent byte, those known since its issue, and the others by a function. -/
def ReadReq.value (r : ReadReq) (at_ : Nat → Byte) : BitVec 1024 :=
  r.fmt.value (((List.range r.bytes.length).zip r.bytes).map (fun e =>
    match tfind r.known e.1 with
    | some b => b
    | none => match e.2 with
      | some a => at_ a
      | none => 0))

def State.answer (s : State) (id : Nat) (v : Lab 1024) (c : Clock) : State :=
  { s with reads := s.reads.map (fun r => if r.id = id then { r with reply := some v, rclk := c } else r) }

/-- Whether a read of memory may be served at its homes (R121, R130, R369, R370, R474). -/
def State.readable (s : State) (r : ReadReq) : Bool :=
  !s.behind r && !s.walking r.id && !s.paused r.id r.core r.pas && !s.mustWait r.clk r.pas && !s.earlierOpen r.id r.core r.ctx r.pas

/-- A read of memory is served at its homes; the reply carries their clock (R378, R474). -/
def State.readHome (s : State) (r : ReadReq) : State :=
  s.answer r.id { val := r.value s.peek, mask := r.mask ||| unionMasks (r.pas.map s.blockMask) } (s.homeClock r.pas)

/-! ## What reaches a slice before the accesses of a cycle (R372, R474) -/

/-- An open write is performed if it can be, once the earlier reads of its context that it must follow have been served. -/
def State.settleWrite (s : State) (id : Nat) : State :=
  match s.writes.find? (fun w => w.id == id) with
  | none => s
  | some w =>
    let before := s.reads.filter (fun r => decide (r.id < id) && r.core == w.core && r.ctx == w.ctx && r.reply.isNone &&
      r.kind == .mem && meets r.pas w.pas)
    let s := before.foldl (fun s r => if s.readable r then s.readHome r else s) s
    if s.canPerform w then s.performWrite w else s

/-- Before the accesses that a core issues in a cycle, its slice performs every write to it that the core's die has applied, so
that the core's reads miss none that their clock covers (R372, R474; log entry 65). -/
def State.settleSlice (s : State) (core : Nat) : State :=
  (s.writes.filter (fun w => !w.performed && w.appliedTo (dieOf core) && w.pas.any (fun a => sliceOf a == some core))).foldl
    (fun s w => s.settleWrite w.id) s

/-! ## Writes that leave -/

/-- A write of a die leaves with a stamp, unless it is held. -/
def State.stampUnless (s : State) (held : Bool) (d : Nat) : State := if held then s else s.stamp d

/-- A write of a context or an engine of a core leaves the core (R377). A write of the own slice is performed in this step
(R372); another waits for HOME_WRITE, and one that follows an LDA of its bundle leaves when that has landed (R370). -/
def State.sendWrite (s : State) (core ctx : Nat) (ofCtx : Bool) (va : Word) (cells : List Host.Cell) (m : Mask)
    (fe : Bool) : State :=
  match cells with
  | [] => s
  | c :: _ =>
    let d := dieOf core
    let own := sliceOf c.1 == some core
    let held := !own && s.acquiring s.nextId core ctx
    let s := s.stampUnless held d
    let w : WriteReq :=
      { id := s.nextId, core := core, ctx := ctx, ofCtx := ofCtx, va := va, cells := cells, raises := [], mask := m, fe := fe,
        clr := false, ent := none, die := d, stamp := if held then Clock.zero else (s.die d).clk, performed := own, acked := own,
        applied := [], held := held }
    let s := { s with nextId := s.nextId + 1, writes := s.writes ++ [w] }
    if own then s.perform cells m fe d w.stamp else s

/-- The writes that an LDA held leave the core, in their order, and take their stamps (R370, R377). -/
def State.releaseHeld (s : State) : State :=
  (s.writes.filter (fun w => w.held && !s.acquiring w.id w.core w.ctx)).foldl (fun s w =>
    let s := s.stamp w.die
    { s with nextId := s.nextId + 1 }.modWrite w.id (fun v =>
      { v with held := false, stamp := (s.die w.die).clk, left := s.nextId })) s

/-- A raise of the mask of one block leaves the core: it counts as a write to the block, and no byte changes (R413). -/
def State.sendRaise (s : State) (core ctx : Nat) (va : Word) (pa : Nat) (m : Mask) : State :=
  let d := dieOf core
  let s := s.stamp d
  let own := sliceOf pa == some core
  let w : WriteReq :=
    { id := s.nextId, core := core, ctx := ctx, ofCtx := true, va := va, cells := [], raises := [pa], mask := m, fe := false,
      clr := false, ent := none, die := d, stamp := (s.die d).clk, performed := own, acked := own, applied := [] }
  let s := { s with nextId := s.nextId + 1, writes := s.writes ++ [w] }
  if own then s.raiseBlock pa m else s

/-- Where a write goes: its first byte, or the block that it raises. -/
def WriteReq.target (w : WriteReq) : Nat := ((w.cells.map (·.1)) ++ w.raises).headD 0

/-- A write that is performed in the step in which it leaves, wherever its home is: writes of engines and of atomic engines
(R234, R368). Writes to windows are not stamped (R377). -/
def State.writeNow (s : State) (die core ctx : Nat) (ofCtx : Bool) (cells : List Host.Cell) (m : Mask) (fe : Bool) :
    State :=
  match cells with
  | [] => s
  | c :: _ =>
    match homeDie c.1 with
    | none => s.pokes cells
    | some _ =>
      let s := s.stamp die
      let w : WriteReq :=
        { id := s.nextId, core := core, ctx := ctx, ofCtx := ofCtx, va := 0, cells := cells, raises := [], mask := m, fe := fe,
          clr := false, ent := none, die := die,
          stamp := (s.die die).clk, performed := true, acked := true, applied := [] }
      ({ s with nextId := s.nextId + 1, writes := s.writes ++ [w] }).perform cells m fe die w.stamp

/-- A write of an engine to its core's own slice: it follows what has reached the slice (R372, R384). -/
def State.engineWrite (s : State) (core ctx : Nat) (cells : List Host.Cell) (m : Mask) (fe : Bool) : State :=
  (s.settleSlice core).writeNow (dieOf core) core ctx false cells m fe

/-- A write of a queue entry of a core, for one of its elements: at a home on its own die, and at a window, in this step; at another
die's home once that die has applied it (R377, R378). `clr` marks a zero fill of whole blocks. -/
def State.entryWrite (s : State) (core ctx uid elem : Nat) (cells : List Host.Cell) (m : Mask) (fe clr : Bool) : State :=
  match cells with
  | [] => s
  | c :: _ =>
    match homeDie c.1 with
    | none => s.pokes cells
    | some h =>
      let d := dieOf core
      let s := s.stamp d
      let here := h == d
      let w : WriteReq :=
        { id := s.nextId, core := core, ctx := ctx, ofCtx := false, va := 0, cells := cells, raises := [], mask := m, fe := fe,
          clr := clr, ent := some uid, die := d, stamp := (s.die d).clk, performed := here, acked := here, applied := [],
          elem := elem }
      let s := { s with nextId := s.nextId + 1, writes := s.writes ++ [w] }
      if !here then s
      else if clr then s.performClear cells d w.stamp
      else s.perform cells m fe d w.stamp

end Sys2Proof.Machine
end

