-- ==== Sys2Proof/Machine/Digest.lean ====
section
/-! DEFINITION. SHA3-256 of FIPS 202, by which the spec names images, descriptors and microprograms (R33, R438, R441, R442). -/

namespace Sys2Proof.Machine

/-! ## The permutation -/

/-- The state of the permutation: lane (x, y) stands at 5y + x. -/
abbrev Sponge := List Word

def Sponge.at_ (a : Sponge) (x y : Nat) : Word := (a[5 * (y % 5) + x % 5]?).getD 0

/-- The sponge whose lane (x, y) is `f x y`. -/
def sponge (f : Nat → Nat → Word) : Sponge := (List.range 25).map fun i => f (i % 5) (i / 5)

/-- The parity of a column. -/
def Sponge.col (a : Sponge) (x : Nat) : Word := (List.range 5).foldl (fun v y => v ^^^ a.at_ x y) 0

/-- Where lane (x, y) stands on the walk that gives the rotations: from (1, 0) each step goes from (x, y) to (y, 2x + 3y), and lane
t of the walk is rotated by (t + 1)(t + 2)/2. Lane (0, 0) is not on it. -/
def walkRot (x y : Nat) : Nat → Nat → Nat → Nat → Nat
  | 0, _, _, _ => 0
  | n + 1, t, u, v => if u = x ∧ v = y then (t + 1) * (t + 2) / 2 % 64 else walkRot x y n (t + 1) v ((2 * u + 3 * v) % 5)

/-- The bits from which the round constants are made: bit 0 of the states of a shift register of eight bits. -/
def lfsr : Nat → Nat
  | 0 => 1
  | t + 1 => let r := 2 * lfsr t; if r < 256 then r else (r ^^^ 0x171) % 256

/-- The constant of round i: bit 2^j − 1 is bit j + 7i of the register. -/
def roundConst (i : Nat) : Word :=
  BitVec.ofNat 64 ((List.range 7).foldl (fun c j => c + (lfsr (j + 7 * i) % 2) * 2 ^ (2 ^ j - 1)) 0)

/-- One round: θ, then ρ and π, then χ, then ι. -/
def Sponge.round (a : Sponge) (i : Nat) : Sponge :=
  let th := sponge fun x y => a.at_ x y ^^^ a.col (x + 4) ^^^ (a.col (x + 1)).rotateLeft 1
  let rp := sponge fun x y => let u := (x + 3 * y) % 5; (th.at_ u x).rotateLeft (walkRot u x 24 0 1 0)
  sponge fun x y =>
    rp.at_ x y ^^^ (~~~ rp.at_ (x + 1) y &&& rp.at_ (x + 2) y) ^^^ (if x = 0 ∧ y = 0 then roundConst i else 0)

def Sponge.permute (a : Sponge) : Sponge := (List.range 24).foldl Sponge.round a

/-! ## Absorbing and squeezing -/

/-- A block of at most 200 bytes is added to the lanes. -/
def Sponge.mix (a : Sponge) (block : List Byte) : Sponge :=
  sponge fun x y => a.at_ x y ^^^ BitVec.ofNat 64 (leValue ((block.drop (8 * (5 * y + x))).take 8))

/-- Absorbs a padded message in blocks of `rate` bytes, of which it has at most the given number. -/
def Sponge.absorb (rate : Nat) : Nat → Sponge → List Byte → Sponge
  | 0, a, _ => a
  | n + 1, a, bs => if bs.isEmpty then a else Sponge.absorb rate n (a.mix (bs.take rate)).permute (bs.drop rate)

/-- The first `rate` bytes of the state. -/
def Sponge.out (a : Sponge) (rate : Nat) : List Byte := (a.flatMap fun w => bytesOf 8 w.toNat).take rate

/-- A message with its domain byte, padded to whole blocks: the last bit of the last block is set. -/
def spongePad (rate domain : Nat) (m : List Byte) : List Byte :=
  let p := rate - m.length % rate
  m ++ if p = 1 then [BitVec.ofNat 8 (domain + 128)] else BitVec.ofNat 8 domain :: (List.replicate (p - 2) 0 ++ [0x80])

/-- The state that has absorbed a message. -/
def spongeOf (rate domain : Nat) (m : List Byte) : Sponge :=
  let bs := spongePad rate domain m
  Sponge.absorb rate (bs.length / rate) (List.replicate 25 0) bs

/-- SHA3-256, its bytes as a little-endian value. -/
def sha3 (bs : List Byte) : BitVec 256 := BitVec.ofNat 256 (leValue ((spongeOf 136 0x06 bs).out 32))

/-- The 32 bytes of a digest. -/
def digestBytes (d : BitVec 256) : List Byte := bytesOf 32 d.toNat

end Sys2Proof.Machine
end

