-- ==== Sys2Proof/Machine/Numbers.lean ====
section
/-! DEFINITION. Numbers: the formats of R211 to R214, one rounding of an exact value (R218), IEEE 754 arithmetic with the
exceptions of R219, the conversions of R220 to R223, and the correctly rounded functions of R228. Exact values are held as
integers times powers of two; a value that is no such number is held by its floor and a mark that something follows. -/

namespace Sys2Proof.Machine

/-- Rounding modes (R215). -/
inductive RM where
  | ne | tz | up | dn
  deriving DecidableEq, Repr

def rmOf (fmt : BitVec 4) : RM :=
  match (fmt.extractLsb' 0 2).toNat with
  | 0 => .ne
  | 1 => .tz
  | 2 => .up
  | _ => .dn

def sat5 (fmt : BitVec 4) : Bool := fmt.getLsbD 2
def isat (fmt : BitVec 4) : Bool := fmt.getLsbD 3

/-! ## Flags (R217) -/

def flagINV : BitVec 8 := 0x01
def flagDZ : BitVec 8 := 0x02
def flagOVF : BitVec 8 := 0x04
def flagUNF : BitVec 8 := 0x08
def flagINX : BitVec 8 := 0x10
def flagIOVF : BitVec 8 := 0x20
def flagCSAT : BitVec 8 := 0x40
def flagNSAT : BitVec 8 := 0x80

def flagIf (c : Bool) (f : BitVec 8) : BitVec 8 := if c then f else 0

/-! ## Formats (R211, R212) -/

/-- A binary floating format: exponent and fraction widths. `top` says that its highest exponent field holds normal values
(F8E4). -/
structure FloatFmt where
  eb : Nat
  mb : Nat
  top : Bool
  deriving DecidableEq, Repr

def fp32 : FloatFmt := { eb := 8, mb := 23, top := false }
def fp16 : FloatFmt := { eb := 5, mb := 10, top := false }
def bf16 : FloatFmt := { eb := 8, mb := 7, top := false }
def f8e4 : FloatFmt := { eb := 4, mb := 3, top := true }
def f8e5 : FloatFmt := { eb := 5, mb := 2, top := false }

def FloatFmt.bias (f : FloatFmt) : Nat := 2 ^ (f.eb - 1) - 1
def FloatFmt.width (f : FloatFmt) : Nat := 1 + f.eb + f.mb
def FloatFmt.emax (f : FloatFmt) : Int := if f.top then 8 else f.bias
def FloatFmt.emin (f : FloatFmt) : Int := 1 - (f.bias : Int)
/-- The sign bit as a number. -/
def FloatFmt.signBit (f : FloatFmt) (neg : Bool) : Nat := if neg then 2 ^ (f.eb + f.mb) else 0
def FloatFmt.infBits (f : FloatFmt) : Nat := (2 ^ f.eb - 1) * 2 ^ f.mb
/-- The largest finite magnitude. -/
def FloatFmt.maxBits (f : FloatFmt) : Nat := if f.top then 2 ^ (f.eb + f.mb) - 2 else f.infBits - 1
/-- The canonical NaN (R219). -/
def FloatFmt.nanBits (f : FloatFmt) : Nat := f.infBits + 2 ^ (f.mb - 1)

def floatOf : Fmt → Option FloatFmt
  | .f32 => some fp32
  | .f16 => some fp16
  | .bf16 => some bf16
  | .f8e4 => some f8e4
  | .f8e5 => some f8e5
  | _ => none

/-- Bits of an element (R211); a RAW element is a byte. -/
def fmtBits : Fmt → Nat
  | .f32 => 32 | .f16 => 16 | .bf16 => 16 | .f8e4 => 8 | .f8e5 => 8 | .i8 => 8 | .i32 => 32 | .raw => 8

def fltFmt : FltQ → FloatFmt
  | .f32 => fp32 | .f16 => fp16 | .bf16 => bf16

/-- What a floating code stands for (R213). -/
inductive FVal where
  | nan (neg quiet : Bool) (frac : Nat)
  | inf (neg : Bool)
  | fin (neg : Bool) (m : Nat) (e : Int)
  deriving DecidableEq, Repr

def FloatFmt.decode (f : FloatFmt) (bits : Nat) : FVal :=
  let neg := bits.testBit (f.eb + f.mb)
  let ex := (bits / 2 ^ f.mb) % 2 ^ f.eb
  let fr := bits % 2 ^ f.mb
  if ex = 2 ^ f.eb - 1 && (!f.top || fr = 2 ^ f.mb - 1) then
    if f.top then .nan neg true fr
    else if fr = 0 then .inf neg else .nan neg (fr.testBit (f.mb - 1)) fr
  else if ex = 0 then .fin neg fr (f.emin - f.mb)
  else .fin neg (fr + 2 ^ f.mb) ((ex : Int) - f.bias - f.mb)

/-! ## Rounding (R218) -/

/-- A real magnitude: it lies in [m·2^e, (m + 1)·2^e), and it is m·2^e exactly when nothing follows. -/
structure Mag where
  m : Nat
  e : Int
  more : Bool
  deriving DecidableEq, Repr

def bitLen (n : Nat) : Nat := if n = 0 then 0 else Nat.log2 n + 1

/-- The integer quotient of a magnitude by 2^q after rounding, and whether it is inexact. -/
def roundAt (rm : RM) (neg : Bool) (x : Mag) (q : Int) : Nat × Bool :=
  if q ≤ x.e then (x.m * 2 ^ (x.e - q).toNat, x.more)
  else
    let sh := (q - x.e).toNat
    let n := x.m / 2 ^ sh
    let r := x.m % 2 ^ sh
    let half := 2 ^ (sh - 1)
    let inx := r != 0 || x.more
    let up := match rm with
      | .ne => decide (half < r) || (r == half && (x.more || n % 2 == 1))
      | .tz => false
      | .up => inx && !neg
      | .dn => inx && neg
    (if up then n + 1 else n, inx)

/-- A rounded result: its bits with the sign, and its flags. -/
structure Rounded where
  bits : Nat
  flags : BitVec 8
  ovf : Bool
  deriving DecidableEq, Repr

/-- `round_to` for a floating format; overflow gives infinity or the largest finite value, and F8E4 is limited by its callers
(R218). UNF is set when the result is tiny after rounding and inexact. -/
def FloatFmt.round (f : FloatFmt) (rm : RM) (neg : Bool) (x : Mag) : Rounded :=
  if x.m = 0 && !x.more then { bits := f.signBit neg, flags := 0, ovf := false }
  else
    let ex : Int := x.e + bitLen x.m - 1
    let q : Int := max ex f.emin - f.mb
    let (n, inx) := roundAt rm neg x q
    let (n', _) := roundAt rm neg x (ex - f.mb)
    let tiny := decide (ex < f.emin) && !(ex == f.emin - 1 && n' == 2 ^ (f.mb + 1))
    let tooBig := decide (f.emax < q + bitLen n - 1) ||
      (f.top && decide (f.emax = q + bitLen n - 1) && n == 2 ^ (f.mb + 1) - 1)
    if tooBig then
      let big := match rm with
        | .ne => true
        | .tz => false
        | .up => !neg
        | .dn => neg
      { bits := f.signBit neg + (if big && !f.top then f.infBits else f.maxBits), flags := flagOVF ||| flagINX, ovf := true }
    else
      let mag := if n < 2 ^ f.mb then n
        else (q + f.mb + f.bias).toNat * 2 ^ f.mb + (n - 2 ^ f.mb)
      { bits := f.signBit neg + mag, flags := flagIf inx flagINX ||| flagIf (inx && tiny) flagUNF, ovf := false }

/-- `round_to` for integers. -/
def roundInt (rm : RM) (neg : Bool) (x : Mag) : Int × Bool :=
  let (n, inx) := roundAt rm neg x 0
  (if neg then -(n : Int) else n, inx)

/-- Rounds the exact value i·2^e; `zneg` is the sign of a zero result. -/
def FloatFmt.roundExact (f : FloatFmt) (rm : RM) (zneg : Bool) (i : Int) (e : Int) : Rounded :=
  if i = 0 then { bits := f.signBit zneg, flags := 0, ovf := false }
  else f.round rm (decide (i < 0)) { m := i.natAbs, e := e, more := false }

def saturate (v lo hi : Int) : Int := if v < lo then lo else if hi < v then hi else v

/-! ## Arithmetic (R219, R315) -/

/-- The canonical NaN with the flags given. -/
def FloatFmt.nan (f : FloatFmt) (flags : BitVec 8) : Rounded := { bits := f.nanBits, flags := flags, ovf := false }

def FVal.isNan : FVal → Bool
  | .nan .. => true
  | _ => false

def FVal.signalling : FVal → Bool
  | .nan _ q _ => !q
  | _ => false

def FVal.isInf : FVal → Bool
  | .inf _ => true
  | _ => false

def FVal.isZero : FVal → Bool
  | .fin _ m _ => m == 0
  | _ => false

def FVal.neg : FVal → Bool
  | .nan n _ _ => n
  | .inf n => n
  | .fin n _ _ => n

def FVal.flip : FVal → FVal
  | .nan n q f => .nan (!n) q f
  | .inf n => .inf (!n)
  | .fin n m e => .fin (!n) m e

/-- A finite value as a signed integer times a power of two. -/
def FVal.int (x : FVal) : Int × Int :=
  match x with
  | .fin n m e => (if n then -(m : Int) else m, e)
  | _ => (0, 0)

/-- The sum of two dyadic numbers. -/
def addDyadic (a b : Int × Int) : Int × Int :=
  let e := min a.2 b.2
  (a.1 * 2 ^ (a.2 - e).toNat + b.1 * 2 ^ (b.2 - e).toNat, e)

/-- x·y + z with one rounding; `mul` and `add` are this with z = −0 or y = 1 (R315). ∞ × 0 is INV whatever z holds. -/
def FloatFmt.fma (f : FloatFmt) (rm : RM) (x y z : FVal) : Rounded :=
  let sig := x.signalling || y.signalling || z.signalling
  let bad := (x.isInf && y.isZero) || (x.isZero && y.isInf)
  if bad then f.nan flagINV
  else if x.isNan || y.isNan || z.isNan then f.nan (flagIf sig flagINV)
  else
    let pn := x.neg != y.neg
    if x.isInf || y.isInf then
      if z.isInf && z.neg != pn then f.nan flagINV
      else { bits := f.signBit pn + f.infBits, flags := 0, ovf := false }
    else if z.isInf then { bits := f.signBit z.neg + f.infBits, flags := 0, ovf := false }
    else
      let p := (x.int.1 * y.int.1, x.int.2 + y.int.2)
      let s := addDyadic p z.int
      let zn := if pn == z.neg then pn else if p.1 = 0 && z.int.1 = 0 then decide (rm = .dn)
                else decide (rm = .dn)
      f.roundExact rm zn s.1 s.2

/-- Addition. -/
def FloatFmt.add (f : FloatFmt) (rm : RM) (x y : FVal) : Rounded :=
  f.fma rm x (.fin false 1 0) y

/-- Multiplication. An exact zero takes the sign of the product. -/
def FloatFmt.mul (f : FloatFmt) (rm : RM) (x y : FVal) : Rounded :=
  let sig := x.signalling || y.signalling
  if (x.isInf && y.isZero) || (x.isZero && y.isInf) then f.nan flagINV
  else if x.isNan || y.isNan then f.nan (flagIf sig flagINV)
  else
    let pn := x.neg != y.neg
    if x.isInf || y.isInf then { bits := f.signBit pn + f.infBits, flags := 0, ovf := false }
    else f.roundExact rm pn (x.int.1 * y.int.1) (x.int.2 + y.int.2)

/-- x < y on values that are no NaN, with −0 below +0 when `zeros` is set. -/
def FVal.lt (zeros : Bool) (x y : FVal) : Bool :=
  match x, y with
  | .inf n, .inf m => n && !m
  | .inf n, _ => n
  | _, .inf m => !m
  | _, _ =>
    let a := x.int
    let b := y.int
    let e := min a.2 b.2
    let i := a.1 * 2 ^ (a.2 - e).toNat
    let j := b.1 * 2 ^ (b.2 - e).toNat
    decide (i < j) || (zeros && i == 0 && j == 0 && x.neg && !y.neg)

/-- VMIN and VMAX: bits of the lesser or greater operand (R315). -/
def FloatFmt.minmax (f : FloatFmt) (wantMax : Bool) (a b : Nat) : Rounded :=
  let x := f.decode a
  let y := f.decode b
  if x.isNan || y.isNan then f.nan (flagIf (x.signalling || y.signalling) flagINV)
  else
    let less := y.lt true x
    { bits := if less == wantMax then a else b, flags := 0, ovf := false }

/-! ## Conversions (R220 to R223) -/

/-- A NaN of a narrow format embedded in FP32 (R220). -/
def embedNan (f : FloatFmt) (neg : Bool) (frac : Nat) : Nat :=
  fp32.signBit neg + fp32.infBits + (if f.top then 0x700000 else frac * 2 ^ (23 - f.mb))

/-- To FP32, exact (R220). -/
def toFp32 (f : FloatFmt) (bits : Nat) : Nat :=
  match f.decode bits with
  | .nan n _ fr => if f.mb = 23 then bits else embedNan f n fr
  | .inf n => fp32.signBit n + fp32.infBits
  | .fin n m e => (fp32.round .ne n { m := m, e := e, more := false }).bits

/-- A finite magnitude to a narrow format, with the limits of F8E4 and SAT5 (R221, R222). -/
def narrowFin (f : FloatFmt) (fmt : BitVec 4) (neg : Bool) (x : Mag) : Nat × BitVec 8 :=
  let r := f.round (rmOf fmt) neg x
  if r.ovf && f.top then (f.signBit neg + f.maxBits, flagCSAT ||| flagOVF ||| flagINX)
  else if r.ovf && f.mb = 2 && sat5 fmt then (f.signBit neg + f.maxBits, flagCSAT ||| flagOVF ||| flagINX)
  else (r.bits, r.flags)

/-- From FP32 to a narrower format (R221). -/
def fromFp32 (f : FloatFmt) (fmt : BitVec 4) (bits : Nat) : Nat × BitVec 8 :=
  match fp32.decode bits with
  | .nan n _ fr =>
    if f.top then (f.signBit n + 0x7F, 0)
    else
      let g := fr / 2 ^ (23 - f.mb)
      (f.signBit n + f.infBits + (if g = 0 then 1 else g), 0)
  | .inf n => if f.top then (f.signBit n + f.maxBits, flagCSAT) else (f.signBit n + f.infBits, 0)
  | .fin n m e => narrowFin f fmt n { m := m, e := e, more := false }

/-- From a floating value to a signed integer of `w` bits (R222). The limit that ±∞ gives differs from it, which sets INX; a NaN is no
value that the result could differ from (log entry 82). -/
def toInt (fmt : BitVec 4) (w : Nat) (x : FVal) : Int × BitVec 8 :=
  let lo : Int := -(2 ^ (w - 1) : Nat)
  let hi : Int := (2 ^ (w - 1) : Nat) - 1
  match x with
  | .nan .. => (0, flagINV)
  | .inf n => (if n then lo else hi, flagINV ||| flagCSAT ||| flagINX)
  | .fin n m e =>
    let (i, inx) := roundInt (rmOf fmt) n { m := m, e := e, more := false }
    if i < lo then (lo, flagINV ||| flagCSAT ||| flagINX)
    else if hi < i then (hi, flagINV ||| flagCSAT ||| flagINX)
    else (i, flagIf inx flagINX)

/-- The low `w` bits of an integer as a number. -/
def wrapNat (w : Nat) (i : Int) : Nat := (i % (2 ^ w : Nat)).toNat

/-- The signed reading of the low `w` bits of a number (R13). -/
def signed (w : Nat) (n : Nat) : Int :=
  let v := n % 2 ^ w
  if v < 2 ^ (w - 1) then v else (v : Int) - (2 ^ w : Nat)

/-- One element from a source to a destination format, with its flags (R220 to R224). Neither is RAW unless both are. -/
def convert (fmt : BitVec 4) (src dst : Fmt) (bits : Nat) : Nat × BitVec 8 :=
  if src = dst then (bits, 0)
  else
    match floatOf src, floatOf dst with
    | some f, some g =>
      let w := toFp32 f bits
      if g.mb = 23 then (w, 0) else fromFp32 g fmt w
    | some f, none =>
      let (i, fl) := toInt fmt (fmtBits dst) (f.decode bits)
      (wrapNat (fmtBits dst) i, fl)
    | none, some g =>
      let i := signed (fmtBits src) bits
      if i = 0 then (0, 0) else narrowFin g fmt (decide (i < 0)) { m := i.natAbs, e := 0, more := false }
    | none, none =>
      let i := signed (fmtBits src) bits
      let j := saturate i (-(2 ^ ((fmtBits dst) - 1) : Nat)) ((2 ^ ((fmtBits dst) - 1) : Nat) - 1)
      (wrapNat (fmtBits dst) j, flagIf (i != j) flagCSAT)

/-! ## Correctly rounded functions (R228) -/

/-- Floor of the square root by bits from 2^k down. -/
def isqrtFrom (n : Nat) : Nat → Nat → Nat
  | 0, r => r
  | k + 1, r =>
    let t := r + 2 ^ k
    isqrtFrom n k (if t * t ≤ n then t else r)

def isqrt (n : Nat) : Nat := isqrtFrom n (bitLen n / 2 + 1) 0

/-- The magnitude of 1/(m·2^e), to some 100 bits. -/
def recipMag (m : Nat) (e : Int) : Mag :=
  let k := bitLen m + 100
  { m := 2 ^ k / m, e := -(k : Int) - e, more := 2 ^ k % m != 0 }

/-- The magnitude of √(m·2^e), to at least 100 bits. -/
def sqrtMag (m : Nat) (e : Int) : Mag :=
  let odd := e % 2 != 0
  let m' := (if odd then 2 * m else m) * 2 ^ 200
  let e' := (if odd then e - 1 else e) - 200
  let r := isqrt m'
  { m := r, e := e' / 2, more := r * r != m' }

/-- The magnitude of 1/√(m·2^e), to at least 100 bits. -/
def rsqrtMag (m : Nat) (e : Int) : Mag :=
  let odd := e % 2 != 0
  let m' := if odd then 2 * m else m
  let e' := if odd then e - 1 else e
  let k := 2 * (bitLen m' + 110)
  let r := isqrt (2 ^ k / m')
  { m := r, e := -((k : Int) + e') / 2, more := r * r * m' != 2 ^ k }

/-- Working places of the fixed-point series below (DEDUCED, log entry 12). -/
def fixBits : Nat := 320

/-- ln 2 × 2^320, rounded down. -/
def ln2Fix : Nat :=
  1480553391661173448385607439722553250922680800745876974795605978609098082859138712941075737848984

/-- Σ x^k/k! in fixed point, term by term. -/
def expSeries (x : Nat) : Nat → Nat → Nat → Nat
  | 0, _, _ => 0
  | fuel + 1, k, t => t + expSeries x fuel (k + 1) (t * x / 2 ^ fixBits / (k + 1))

/-- 2^f for a fraction f given in fixed point, in fixed point. -/
def exp2Fix (f : Nat) : Nat := expSeries (f * ln2Fix / 2 ^ fixBits) 80 0 (2 ^ fixBits)

/-- Σ z^(2k+1)/(2k+1) in fixed point: `p` is the current power of z. -/
def atanhSeries (z2 : Nat) : Nat → Nat → Nat → Nat
  | 0, _, _ => 0
  | fuel + 1, k, p => p / (2 * k + 1) + atanhSeries z2 fuel (k + 1) (p * z2 / 2 ^ fixBits)

/-- log₂ of m·2^e in fixed point for m ≥ 1: exact at powers of two. -/
def log2Fix (m : Nat) (e : Int) : Int :=
  let l := bitLen m
  let ex : Int := e + l - 1
  let one := 2 ^ fixBits
  let x := m * one / 2 ^ (l - 1)
  let z := (x - one) * one / (x + one)
  let ln := 2 * atanhSeries (z * z / one) 110 0 z
  ex * (one : Int) + (ln * one / ln2Fix : Nat)

/-- Whether m is a power of two. -/
def isPow2 (m : Nat) : Bool := m == 2 ^ (bitLen m - 1)

/-- log₂ of m·2^e as a sign and a magnitude. -/
def log2Mag (m : Nat) (e : Int) : Bool × Mag :=
  let i := log2Fix m e
  let exact := isPow2 m
  if i < 0 then (true, { m := if exact then i.natAbs else i.natAbs - 1, e := -(fixBits : Int), more := !exact })
  else (false, { m := i.natAbs, e := -(fixBits : Int), more := !exact })

/-- 2^v for v = i·2^e: the integer part goes to the exponent. Magnitudes beyond every format are clipped there. -/
def exp2Mag (i e : Int) : Mag :=
  let one := 2 ^ fixBits
  let big := decide (20 < e + bitLen i.natAbs)
  if big then
    if i < 0 then { m := 1, e := -5000, more := true } else { m := 1, e := 5000, more := true }
  else
    let fx : Int := if 0 ≤ e + fixBits then i * 2 ^ (e + fixBits).toNat else i / 2 ^ (-(e + fixBits)).toNat
    let n := fx / (one : Int)
    let f := (fx % (one : Int)).toNat
    if f = 0 then { m := 1, e := n, more := false }
    else { m := exp2Fix f / 2 ^ (fixBits - 300), e := n - 300, more := true }

/-- One FP32 lane of VRCP, VRSQ, VSQRT, VEXP2 or VLOG2 (R228). -/
inductive UnFn where
  | rcp | rsq | sqrt | exp2 | log2
  deriving DecidableEq, Repr

def infOf (neg : Bool) (fl : BitVec 8) : Rounded := { bits := fp32.signBit neg + fp32.infBits, flags := fl, ovf := false }
def zeroOf (neg : Bool) : Rounded := { bits := fp32.signBit neg, flags := 0, ovf := false }

def unary (fn : UnFn) (rm : RM) (bits : Nat) : Rounded :=
  let v := fp32.decode bits
  match v with
  | .nan _ q _ => fp32.nan (flagIf (!q) flagINV)
  | .inf n =>
    match fn with
    | .rcp => zeroOf n
    | .rsq => if n then fp32.nan flagINV else zeroOf false
    | .sqrt => if n then fp32.nan flagINV else infOf false 0
    | .exp2 => if n then zeroOf false else infOf false 0
    | .log2 => if n then fp32.nan flagINV else infOf false 0
  | .fin n m e =>
    if m = 0 then
      match fn with
      | .rcp => infOf n flagDZ
      | .rsq => infOf n flagDZ
      | .sqrt => zeroOf n
      | .exp2 => fp32.roundExact rm false 1 0
      | .log2 => infOf true flagDZ
    else
      match fn with
      | .rcp => fp32.round rm n (recipMag m e)
      | .rsq => if n then fp32.nan flagINV else fp32.round rm false (rsqrtMag m e)
      | .sqrt => if n then fp32.nan flagINV else fp32.round rm false (sqrtMag m e)
      | .exp2 => fp32.round rm false (exp2Mag v.int.1 v.int.2)
      | .log2 =>
        if n then fp32.nan flagINV
        else
          let (neg, x) := log2Mag m e
          if x.m = 0 && !x.more then zeroOf false else fp32.round rm neg x

end Sys2Proof.Machine
end

