-- ==== Sys2Proof/Machine/Engine.lean ====
section
/-! DEFINITION. Shared operations on the engines of a core and on groups: handles (R249), rings (R237), the skip of a copy
(R251, R271), the end of a plane call (R301, R304, R305), and group requests (R101 to R103). -/

namespace Sys2Proof.Machine

/-! ## Handles -/

def Core.handle (k : Core) (h : Nat) : Handle := tget Handle.reset k.handles h

def State.setHandle (s : State) (core h : Nat) (f : Handle → Handle) : State :=
  s.modCore core (fun k => { k with handles := tmod Handle.reset k.handles h f })

/-- A destination handle becomes FULL, with SKIPPED as given (R249). A normal completion clears it (DEDUCED: log entry 46). -/
def State.fillHandle (s : State) (core h : Nat) (skipped : Bool) : State :=
  s.setHandle core h (fun _ => { st := .full, skipped := skipped })

/-- A source handle becomes FREE (R249). -/
def State.freeHandle (s : State) (core h : Nat) : State := s.setHandle core h (fun x => { x with st := .free })

def HState.code : HState → Nat
  | .free => 0 | .filling => 1 | .full => 2 | .draining => 3

/-- The code that HQUERY returns (R249). -/
def Handle.code (h : Handle) : Nat := h.st.code + (if h.skipped then 4 else 0)

/-! ## Rings -/

def Core.ring (k : Core) (r : Nat) : Ring := tget Ring.reset k.rings r

def State.modRing (s : State) (core r : Nat) (f : Ring → Ring) : State :=
  s.modCore core (fun k => { k with rings := tmod Ring.reset k.rings r f })

def Ring.configured (r : Ring) : Bool := r.log2n != 0
def Ring.cap (r : Ring) : Nat := 2 ^ r.log2n
/-- Bytes of a tile in source format (R236). -/
def Ring.tileBytes (r : Ring) : Nat := r.tile * 64
/-- Slice offset of tile number k (R237). -/
def Ring.tileOff (r : Ring) (k : BitVec 32) : Nat := 64 * (r.base + r.tile * (k.toNat % r.cap))
/-- Tiles held: (TAIL − HEAD) mod 2³² (R237). -/
def Ring.held (r : Ring) : Nat := (r.tail - r.head).toNat
/-- Tiles reserved or held (R237). -/
def Ring.taken (r : Ring) : Nat := (r.resv - r.head).toNat

/-- Whether n more tiles can be reserved: a position freed since the core's last cycle cannot yet be (R237). -/
def Ring.canReserve (r : Ring) (n : Nat) : Bool := decide (r.taken + r.freed + n ≤ r.cap)

def Ring.reserve (r : Ring) (n : Nat) : Ring := { r with resv := r.resv + BitVec.ofNat 32 n }

/-- TAIL advances over wholly written tiles in number order; at most `fuel` of them (R237). -/
def Ring.advanceTail : Nat → Ring → Ring
  | 0, r => r
  | n + 1, r =>
    if r.done.contains r.tail then
      Ring.advanceTail n { r with tail := r.tail + 1, done := r.done.filter (fun t => t != r.tail) }
    else r

/-- TAIL stands past every tile that it can pass. -/
def Ring.settled (r : Ring) : Ring := Ring.advanceTail r.done.length r

/-- A tile is wholly written. TAIL follows in RING_TAIL_ADVANCE, or when a call or a copy ends that waits for it. -/
def Ring.written (r : Ring) (k : BitVec 32) : Ring := if r.done.contains k then r else { r with done := r.done ++ [k] }

/-- Pops n tiles: HEAD advances, and pushes of the next cycle can reserve the positions (R237). -/
def Ring.pop (r : Ring) (n : Nat) : Ring := { r with head := r.head + BitVec.ofNat 32 n, freed := r.freed + n }

/-- The bytes of a tile as slice addresses of a core. -/
def Ring.tilePas (r : Ring) (core : Nat) (k : BitVec 32) : List Nat :=
  (List.range r.tileBytes).map (fun i => slicePa core (r.tileOff k + i))

/-- Writes zero at slice addresses of a core. -/
def zeroCells (pas : List Nat) : List Host.Cell := pas.map (fun a => (a, 0))

/-! ## The copy queue -/

/-- Fields of COPY's command word (R268). -/
def cmdSrec (c : Word) : Nat := (c.extractLsb' 0 6).toNat
def cmdDrec (c : Word) : Nat := (c.extractLsb' 6 6).toNat
def cmdDhnd (c : Word) : Nat := (c.extractLsb' 12 6).toNat
def cmdShnd (c : Word) : Nat := (c.extractLsb' 18 6).toNat
def cmdShv (c : Word) : Bool := c.getLsbD 24
def cmdSkind (c : Word) : Nat := (c.extractLsb' 25 2).toNat
def cmdDkind (c : Word) : Nat := (c.extractLsb' 27 2).toNat

/-- The destination handle of an entry, if it has one (R248, R273, R362, R407). -/
def CopyKind.dhnd : CopyKind → Option Nat
  | .copy cmd _ _ _ => some (cmdDhnd cmd)
  | .bclear _ _ hnd => some hnd
  | .release _ _ hnd _ _ => some hnd
  | .publish _ hnd => hnd

/-- The source handle of an entry, if it names one. -/
def CopyKind.shnd : CopyKind → Option Nat
  | .copy cmd _ _ _ => if cmdShv cmd then some (cmdShnd cmd) else none
  | _ => none

def Ctx.entry (x : Ctx) (uid : Nat) : Option CopyEntry := x.copyq.find? (fun e => e.uid == uid)

def State.modEntry (s : State) (core ctx uid : Nat) (f : CopyEntry → CopyEntry) : State :=
  s.modCtx core ctx (fun x => { x with copyq := x.copyq.map (fun e => if e.uid = uid then f e else e) })

def State.dropEntry (s : State) (core ctx uid : Nat) : State :=
  s.modCtx core ctx (fun x => { x with copyq := x.copyq.filter (fun e => e.uid != uid) })

/-- Bytes of a layout record (R245). -/
def lrDims (r : BitVec 512) : Nat := (r.extractLsb' 0 8).toNat
def lrEsize (r : BitVec 512) : Nat := (r.extractLsb' 8 8).toNat
def lrStride (r : BitVec 512) (l : Nat) : Int := (r.extractLsb' (64 + 64 * l) 32).toInt
def lrExtent (r : BitVec 512) (l : Nat) : Nat := (r.extractLsb' (96 + 64 * l) 32).toNat

/-- The ring that an entry pushes into, if it does. -/
def CopyEntry.destRing (e : CopyEntry) : Option Nat :=
  match e.kind with
  | .copy cmd _ dst _ => if cmdDkind cmd = 1 then some (dst.toNat % 16) else none
  | _ => none

/-- The ring that an entry pops from, if it does. -/
def CopyEntry.srcRing (e : CopyEntry) : Option Nat :=
  match e.kind with
  | .copy cmd src _ _ => if cmdSkind cmd = 1 then some (src.toNat % 16) else none
  | _ => none

/-- Bytes of one element of an entry's walk: the record of its address end, the source's when both ends are addresses. -/
def CopyEntry.esize (e : CopyEntry) : Nat :=
  match e.kind with
  | .copy cmd _ _ _ => 2 ^ (if cmdSkind cmd = 0 then lrEsize e.srec else lrEsize e.drec)
  | .bclear .. => 16
  | .release .. => 16
  | .publish .. => 8

/-- Bytes of the tile reserved last that an entry has written. -/
def CopyEntry.inTile (e : CopyEntry) (r : Ring) : Nat := e.k * e.esize - (e.tiles - 1) * r.tileBytes

/-- The tile that a skipped copy has reserved and not wholly written gets zero in its unwritten bytes (R271). -/
def State.zeroReserved (s : State) (core ctx : Nat) (e : CopyEntry) : State :=
  match e.destRing with
  | none => s
  | some rn =>
    let r := (s.core core).ring rn
    if e.tiles = 0 || r.tileBytes ≤ e.inTile r then s
    else
      let pas := (r.tilePas core e.tile0).drop (e.inTile r)
      let s := s.engineWrite core ctx (zeroCells pas) e.cmask false
      s.modRing core rn (fun r => r.written e.tile0)

/-- SKIP of R251 and R271: no further element, the handle FULL with SKIPPED, the source handle FREE, the entry released. -/
def State.skipEntry (s : State) (core ctx : Nat) (e : CopyEntry) : State :=
  let s := s.zeroReserved core ctx e
  let s := match e.kind.dhnd with
    | some h => s.fillHandle core h true
    | none => s
  let s := match e.kind.shnd with
    | some h => if e.stage = CopyStage.queued then s else s.freeHandle core h
    | none => s
  let s := match e.kind with
    | .release .. => s.modCtx core ctx (fun x => { x with relLast := 0b10111 })
    | _ => s
  s.dropEntry core ctx e.uid

/-- A fault of a context's copies is reported at its boundary, one at a time and in queue order: the fault registers take it and
COPY_FAULT arises (R250, R271). `tell` raises the trap. -/
def State.reportFault (s : State) (core ctx : Nat) (tell : State → CopyFaultRec → State) : State :=
  let x := s.ctx core ctx
  if x.copyPend then s
  else match x.copyq.find? (fun e => e.stage == .faulted && !e.reported) with
    | none => s
    | some e =>
      match e.fault with
      | none => s
      | some f =>
        let s := s.modEntry core ctx e.uid (fun e => { e with reported := true })
        tell (s.modCtx core ctx (fun x => { x with copyFault := some f, copyPend := true })) f

/-! ## Plane calls -/

def Core.plane (k : Core) (n : Nat) : Plane := tget Plane.reset k.planes n

def State.modPlane (s : State) (core n : Nat) (f : Plane → Plane) : State :=
  s.modCore core (fun k => { k with planes := tmod Plane.reset k.planes n f })

/-- Argument register k of a call as captured. -/
def Call.arg (c : Call) (k : Nat) : Word := (c.args[k]?).getD 0

/-- Fields of m4 and m6 (R287). -/
def Call.plane (c : Call) : Nat := ((c.arg 4).extractLsb' 0 4).toNat
def Call.oplane (c : Call) : Nat := ((c.arg 4).extractLsb' 4 4).toNat
def Call.tag (c : Call) : Nat := ((c.arg 4).extractLsb' 24 16).toNat
def Call.int (c : Call) : Bool := (c.arg 4).getLsbD 40
def Call.opl (c : Call) : Bool := (c.arg 6).getLsbD 30
def Call.rings (c : Call) : Nat := ((c.arg 6).extractLsb' 0 16).toNat
def Call.holdsRing (c : Call) (r : Nat) : Bool := c.rings.testBit r

/-- Whether a call in flight holds a ring (R288, R239). -/
def Core.ringHeld (k : Core) (r : Nat) : Bool := k.calls.any (fun c => c.holdsRing r)

/-- Whether a call in flight holds a plane. -/
def Core.planeHeld (k : Core) (n : Nat) : Bool :=
  k.calls.any (fun c => decide (c.plane = n) || (c.opl && decide (c.oplane = n)))

/-- Ends a call without retaining: it leaves the unit, the retained faces of its plane are freed, and no export waits
(R301, R305). -/
def State.endCall (s : State) (core : Nat) (c : Call) : State :=
  s.modCore core (fun k =>
    let running := (k.calls.head?.map (fun d => d.uid)) == some c.uid
    { k with calls := k.calls.filter (fun d => d.uid != c.uid)
             exports := if running then [] else k.exports
             planes := tmod Plane.reset k.planes c.plane (fun p => { p with kept := none }) })

def PlaneCause.code : PlaneCause → Nat
  | .format => 1 | .tile => 2 | .ring => 3 | .inj => 4 | .axis => 5 | .loop => 6 | .runoff => 7 | .inbox => 8
  | .mode => 9 | .exprt => 10 | .uncorrectable => 11 | .operand => 12 | .phaseEscape => 0 | .ended => 0

def CopyCause.code : CopyCause → Nat
  | .sliceRange => 1 | .transInvalid => 2 | .transFormat => 3 | .transPerm => 4 | .transTarget => 5 | .snapBound => 6
  | .labelStore => 7 | .uncorrectable => 8 | .ibank => 9 | .shape => 10 | .ring => 11 | .phaseEscape => 0

/-! ## Groups (R101 to R103) -/

def Group.member? (g : Group) (w : LaunchCtx) : Option Member := g.members.find? (fun m => m.who == w)

def Group.setMember (g : Group) (w : LaunchCtx) (f : Member → Member) : Group :=
  { g with members := g.members.map (fun m => if m.who = w then f m else m) }

def Group.drop (g : Group) (w : LaunchCtx) : Group := { g with members := g.members.filter (fun m => m.who != w) }

/-- Whether the current phase is complete: it has members, joiners not counted, and each has arrived (R102). -/
def Group.complete (g : Group) : Bool :=
  let ms := g.members.filter (fun m => m.rel != 2)
  !ms.isEmpty && ms.all (·.arrived)

/-- The group after one phase completes (R102). -/
def Group.turn (g : Group) : Group :=
  { phase := g.phase + 1,
    members := (g.members.filter (fun m => m.rel != 3)).map (fun m =>
      if m.rel = 2 then { m with rel := 1, arrived := m.waits }
      else { m with arrived := false, waits := false }) }

/-- The members that resume when the current phase completes: those that wait by GBAR on it. -/
def Group.waiters (g : Group) : List LaunchCtx :=
  (g.members.filter (fun m => m.rel != 2 && m.waits)).map (·.who)

/-- The wait of launch contexts after GBAR ends (R102). -/
def State.resumeGbar (s : State) (g : Nat) : List LaunchCtx → State
  | [] => s
  | w :: ws =>
    (match s.seatOf w with
     | some n => s.modCtx n.core n.ctx (fun (x : Ctx) => if x.wait2 = some (Wait2.gbar g) then { x with wait2 := none } else x)
     | none => s).resumeGbar g ws

/-- The phase of a group is delivered to the cores of launch contexts (R405). Groups go by module number. -/
def State.viewGroup (s : State) (g : Nat) (whom : List LaunchCtx) : State :=
  let ph := (s.group g).phase
  (whom.filterMap s.seatOf).foldl (fun s n => s.modCore n.core (fun k => { k with phases := tput k.phases g ph })) s

/-- Completes phases of a group while they are complete. Two suffice: after the second no member is marked arrived. -/
def State.groupTurns : Nat → State → Nat → State
  | 0, s, _ => s
  | n + 1, s, g =>
    let grp := s.group g
    if grp.complete then
      let s := (s.resumeGbar g grp.waiters).modGroup g Group.turn
      State.groupTurns n (s.viewGroup g (grp.members.map (·.who))) g
    else s

/-- One request of a context on a module group (R101). -/
def Group.apply (g : Group) (w : LaunchCtx) (op : GroupOp) : Group :=
  match op, g.member? w with
  | .join, none =>
    if g.members.isEmpty then { g with members := [{ who := w, rel := 1, arrived := false, waits := false }] }
    else { g with members := g.members ++ [{ who := w, rel := 2, arrived := false, waits := false }] }
  | .join, some m => if m.rel = 3 then g.setMember w (fun m => { m with rel := 1 }) else g
  | .leave, some m =>
    if m.rel = 1 then g.setMember w (fun m => { m with rel := 3, arrived := true })
    else if m.rel = 2 then g.drop w else g
  | .leave, none => g
  | .bar, some m =>
    if m.rel = 1 then g.setMember w (fun m => { m with arrived := true, waits := true })
    else if m.rel = 2 then g.setMember w (fun m => { m with waits := true })
    else g
  | .bar, none => g

/-- A request takes effect at the IOD, and any phase that it completes (R102, R403). -/
def State.groupApply (s : State) (g : Nat) (w : LaunchCtx) (op : GroupOp) : State :=
  let grp := s.group g
  let s := s.modGroup g (fun x => x.apply w op)
  let s := match op, grp.member? w with
    | .bar, none => s.resumeGbar g [w]
    | .bar, some m => if m.rel = 3 then s.resumeGbar g [w] else s
    | _, _ => s
  let s := s.viewGroup g [w]
  State.groupTurns 2 s g

/-- Requests of a context on a group that are still on their way, in issue order (R403). -/
def State.requestsOf (s : State) (w : LaunchCtx) (g : Nat) : List GroupReq :=
  s.groupReqs.filter (fun r => r.who == w && r.group == g)

/-- What a context is towards a group, its own requests in flight counted: the relation and whether it has arrived
(R405; DEDUCED, log entry 33). -/
def State.relation (s : State) (w : LaunchCtx) (g : Nat) : Nat × Bool :=
  match (s.requestsOf w g).foldl (fun (x : Group) r => x.apply w r.op) (s.group g) |>.member? w with
  | some m => (m.rel, m.arrived)
  | none => (0, false)

/-- A context that retires or is discarded sends a GLEAVE to every group in which it is a member or a joiner, in ascending order and
after its own requests (R103); it waits for nothing first, and what it has observed and written goes with them, its atomics too
(R404; log entry 83). -/
def State.leaveGroups (s : State) (w : LaunchCtx) (clk : Clock) (after : Option (CtxName × Nat)) : State :=
  let gs := distinct (s.groups.map (·.1) ++ (s.groupReqs.filter (fun r => r.who == w)).map (·.group))
  let mine := gs.filter (fun g => (s.relation w g).1 == 1 || (s.relation w g).1 == 2)
  { s with groupReqs := s.groupReqs ++ mine.map (fun g => { who := w, group := g, op := .leave, clk := clk, after := after }) }

/-- Whether a GLEAVE of a context that has retired must wait for an atomic that the context sent before (R404). -/
def State.leaveWaits (s : State) (r : GroupReq) : Bool :=
  match r.after with
  | none => false
  | some (n, id) => s.atoms.any (fun a => decide (a.id < id) && a.core == n.core && a.ctx == n.ctx && a.stage != .replied)

/-- A GLEAVE that waits no more carries what its core's die has applied by then, the atomics that it waited for with it. -/
def State.leaveReady (s : State) (r : GroupReq) : GroupReq :=
  match r.after with
  | none => r
  | some (n, _) => { r with clk := r.clk.join (s.die (dieOf n.core)).clk, after := none }

end Sys2Proof.Machine
end

