-- ==== Sys2Proof/Machine/Ops.lean ====
section
/-! DEFINITION. The shared operations of issue: registers, results in flight and their landing (R162 to R166), latches
(R167, R168), guards (R134, R349), taking a trap (R415 to R418, R476), returning from one (R419, R424), the end of a launch
by a terminal trap (R427), and the frame of a slot's attempt (R132, R160, R170). -/

namespace Sys2Proof.Machine

/-- What an instruction and a step answer. -/
abbrev Out := Host.Outcome State Fault Refusal

/-! ## Registers (R40, R178) -/

def Ctx.sreg (x : Ctx) (n : Nat) : Lab 64 := if n = 0 then Lab.zero 64 else tget (Lab.zero 64) x.s n
def Ctx.mreg (x : Ctx) (n : Nat) : Lab 64 := tget (Lab.zero 64) x.m n
def Ctx.vreg (x : Ctx) (f : VFile) (n : Nat) : Lab 1024 :=
  match f with
  | .x => tget (Lab.zero 1024) x.x n
  | .y => tget (Lab.zero 1024) x.y n
def Ctx.dreg (x : Ctx) (n : Nat) : Lab 1024 := tget (Lab.zero 1024) x.d n
/-- A norm that nothing has written holds the zero code (R40). -/
def normZero : BitVec 16 := 0x8000
/-- The norm of a direction register, under the mask of the register (R331, R346). -/
def Ctx.nreg (x : Ctx) (n : Nat) : Lab 16 := { val := tget normZero x.n n, mask := (x.dreg n).mask }
def Ctx.kreg (x : Ctx) (n : Nat) : Lab 128 := tget (Lab.zero 128) x.k n
/-- p0 reads true with mask zero (R134, R346). -/
def Ctx.pred (x : Ctx) (n : Nat) : PredVal := if n = 0 then { val := true, mask := 0 } else tget PredVal.zero x.p n

/-! ## Guards (R134, R170) -/

def Ctx.holds (x : Ctx) (gd : Guard) : Bool := (x.pred gd.g.toNat).val != gd.inv

/-- The mask of the slot's guard joined with TAINT: the part that every result carries (R348). -/
def Ctx.base (x : Ctx) (gd : Guard) : Mask := (x.pred gd.g.toNat).mask ||| x.taint

/-! ## Landing (R162 to R166) -/

/-- Bits [lo + len − 1 : lo] of a register replaced by the low bits of a value. -/
def insertBits {w : Nat} (old v : BitVec w) (lo len : Nat) : BitVec w :=
  let m := BitVec.ofNat w ((2 ^ len - 1) * 2 ^ lo)
  (old &&& ~~~m) ||| ((v <<< lo) &&& m)

/-- Whether two results name the same register (R166). Lanes and norm of a direction register are two. -/
def Dest.same : Dest → Dest → Bool
  | .sreg a, .sreg b => a == b
  | .mreg a, .mreg b => a == b
  | .vreg f a _ _, .vreg g b _ _ => decide (f = g) && a == b
  | .dlanes a, .dlanes b => a == b
  | .dnorm a, .dnorm b => a == b
  | .pred a, .pred b => a == b
  | .kmask a _, .kmask b _ => a == b
  | _, _ => false

/-- Writes one result into its register, with the mask of R347. The lanes and the norm of a direction register have one mask, and a
result of either leaves the other unchanged (R346; log entry 66). -/
def Ctx.put (x : Ctx) (d : Dest) (v : BitVec 1024) (m : Mask) : Ctx :=
  match d with
  | .nowhere => x
  | .sreg n => { x with s := tput x.s n { val := v.setWidth 64, mask := m } }
  | .mreg n => { x with m := tput x.m n { val := v.setWidth 64, mask := m } }
  | .vreg f n lo len =>
    let old := x.vreg f n
    let new : Lab 1024 :=
      { val := insertBits old.val v lo len, mask := if lo = 0 && 1024 ≤ len then m else old.mask ||| m }
    match f with
    | .x => { x with x := tput x.x n new }
    | .y => { x with y := tput x.y n new }
  | .dlanes n => { x with d := tput x.d n { val := v, mask := (x.dreg n).mask ||| m } }
  | .dnorm n => { x with n := tput x.n n (v.setWidth 16), d := tput x.d n { x.dreg n with mask := (x.dreg n).mask ||| m } }
  | .pred n => if n = 0 then x else { x with p := tput x.p n { val := v.getLsbD 0, mask := m } }
  | .kmask n len =>
    let old := x.kreg n
    { x with k := tput x.k n { val := insertBits old.val (v.setWidth 128) 0 len,
                               mask := if 128 ≤ len then m else old.mask ||| m } }

/-- Raises the mask of a register by union and leaves its value (R349). -/
def Ctx.raiseMask (x : Ctx) (d : Dest) (m : Mask) : Ctx :=
  match d with
  | .nowhere => x
  | .sreg n => if n = 0 then x else { x with s := tput x.s n { x.sreg n with mask := (x.sreg n).mask ||| m } }
  | .mreg n => { x with m := tput x.m n { x.mreg n with mask := (x.mreg n).mask ||| m } }
  | .vreg .x n _ _ => { x with x := tput x.x n { x.vreg .x n with mask := (x.vreg .x n).mask ||| m } }
  | .vreg .y n _ _ => { x with y := tput x.y n { x.vreg .y n with mask := (x.vreg .y n).mask ||| m } }
  | .dlanes n | .dnorm n => { x with d := tput x.d n { x.dreg n with mask := (x.dreg n).mask ||| m } }
  | .pred n => if n = 0 then x else { x with p := tput x.p n { x.pred n with mask := (x.pred n).mask ||| m } }
  | .kmask n _ => { x with k := tput x.k n { x.kreg n with mask := (x.kreg n).mask ||| m } }

/-- The mask of the register that a result goes to. -/
def Ctx.maskOf (x : Ctx) : Dest → Mask
  | .nowhere => 0
  | .sreg n => (x.sreg n).mask
  | .mreg n => (x.mreg n).mask
  | .vreg f n _ _ => (x.vreg f n).mask
  | .dlanes n | .dnorm n => (x.dreg n).mask
  | .pred n => (x.pred n).mask
  | .kmask n _ => (x.kreg n).mask

/-- Which of two results that land in one cycle on one register stands (R166). -/
def InFlight.beats (a b : InFlight) : Bool :=
  if a.own != b.own then a.own
  else if a.own then decide (b.issued < a.issued) || (a.issued == b.issued && decide (b.slot < a.slot))
  else decide (b.slot < a.slot) || (a.slot == b.slot && decide (b.issued < a.issued))

/-- One result lands: its value and mask, the old mask joined where the entry counts as leaving bits unchanged, or the mask raise of a
false guard (R347, R349). -/
def Ctx.landOne (x : Ctx) (f : InFlight) : Ctx :=
  if f.maskOnly then x.raiseMask f.dest f.mask
  else x.put f.dest f.val (if f.joins then x.maskOf f.dest ||| f.mask else f.mask)

def Ctx.landAll (x : Ctx) : List InFlight → Ctx
  | [] => x
  | f :: fs => (x.landOne f).landAll fs

/-- The results whose time has come land: on each register one result stands, and the mask raises of false guards are joined
to it. Flags that are due are joined (R217), and latch entries past b3 go. -/
def Ctx.landResults (x : Ctx) : Ctx :=
  let due := x.flight.filter (fun f => decide (f.vis ≤ x.cycle))
  let vals := due.filter (fun f => !f.maskOnly)
  let wins := vals.filter (fun f => !vals.any (fun g => g.dest.same f.dest && g.beats f))
  let x := { x with flight := x.flight.filter (fun f => decide (x.cycle < f.vis)) }
  let x := x.landAll (wins ++ due.filter (·.maskOnly))
  let fl := x.flagLands.filter (fun f : FlagLand => decide (f.at_ ≤ x.cycle))
  { x with fpflags := fl.foldl (fun a (f : FlagLand) => a ||| f.flags) x.fpflags,
           flagLands := x.flagLands.filter (fun f : FlagLand => decide (x.cycle ≤ f.at_)),
           latches := x.latches.filter (fun l : Latch => decide (x.cycle ≤ l.b0 + 3)) }

/-- FMT changes that are due take effect (R173). -/
def Ctx.landFmt (x : Ctx) : Ctx :=
  let fm := x.shadows.filter (fun f : FmtShadow => decide (f.at_ ≤ x.cycle))
  { x with fmt := fm.foldl (fun _ (f : FmtShadow) => f.fmt) x.fmt,
           shadows := x.shadows.filter (fun f : FmtShadow => decide (x.cycle < f.at_)) }

def Ctx.land (x : Ctx) : Ctx := x.landResults.landFmt

/-! ## Latches (R167, R168) -/

def Ctx.latchLost (x : Ctx) (j : Nat) : Bool :=
  match x.lostAt with
  | some t => decide (x.cycle ≤ t + j)
  | none => false

/-- The latest issued of the entries of a list, if any. -/
def latestLatch : List Latch → Option Latch
  | [] => none
  | l :: ls =>
    match latestLatch ls with
    | none => some l
    | some m => if m.issued < l.issued then some l else some m

/-- Latch bj of a slot: an empty or lost entry reads zero with mask zero. -/
def Ctx.latch (x : Ctx) (slot j : Nat) : Lab 1024 :=
  if x.latchLost j then Lab.zero 1024
  else match latestLatch (x.latches.filter (fun l => l.slot == slot && l.b0 + j == x.cycle)) with
    | some l => { val := l.val, mask := l.mask }
    | none => Lab.zero 1024

/-! ## Delivering results -/

/-- A result of the slot's own unit with latency L: the latch gets it in every case, the register unless the write is
suppressed (R162, R166, R179). `joins` marks VINS and VPACK, which count as leaving bits of the register unchanged (R347). -/
def State.own (s : State) (L : Nat) (w : Bool) (d : Dest) (v : BitVec 1024) (m : Mask) (joins : Bool := false) : State :=
  s.modMe fun x =>
    let l : Latch := { slot := s.cur.slot, b0 := x.cycle + L, issued := x.cycle, val := v, mask := m }
    let f : InFlight := { vis := x.cycle + L + 1, dest := d, val := v, mask := m, slot := s.cur.slot, own := true,
                          issued := x.cycle, maskOnly := false, joins := joins }
    { x with latches := x.latches ++ [l], flight := if w || d == .nowhere then x.flight else x.flight ++ [f] }

/-- A result that enters no latch and is seen by bundles issued `dly` cycles later: directions as results of the own unit,
XMOV and TRPULL through the inbound port (R163, R331). -/
def State.quiet (s : State) (own : Bool) (dly : Nat) (w : Bool) (d : Dest) (v : BitVec 1024) (m : Mask) : State :=
  s.modMe fun x =>
    let f : InFlight := { vis := x.cycle + dly, dest := d, val := v, mask := m, slot := s.cur.slot, own := own,
                          issued := x.cycle, maskOnly := false }
    { x with flight := if w || d == .nowhere then x.flight else x.flight ++ [f] }

/-- A predicate result: it governs bundles issued at t + 1 and later, and a write of p0 is ignored (R163, R188), though the nullifier
counts it (R171; log entry 9). -/
def State.setPred (s : State) (n : Nat) (v : Bool) (m : Mask) : State :=
  (s.quiet true 1 false (.pred n) (if v then 1 else 0) m).modMe
    (fun x => { x with predWrite := tput x.predWrite n x.cycle })

/-- Sticky flags that land after a delay (R217). -/
def State.flagsIn (s : State) (dly : Nat) (f : BitVec 8) : State :=
  if f = 0 then s else s.modMe (fun x => { x with flagLands := x.flagLands ++ [{ at_ := x.cycle + dly, flags := f }] })

/-- TAINT is raised for bundles issued at t + 1 and later (R350). -/
def State.taintUp (s : State) (m : Mask) : State := s.modMe (fun x => { x with taintNext := x.taintNext ||| m })

/-- What a false guard propagates (R349): the destinations with their delays, and whether the operation would store, push,
pop, command an engine or write a system register. -/
structure FalseFx where
  dests : List (Dest × Nat)
  effect : Bool
  deriving DecidableEq, Repr

def FalseFx.none : FalseFx := { dests := [], effect := false }
def FalseFx.act : FalseFx := { dests := [], effect := true }
def FalseFx.one (w : Bool) (d : Dest) (dly : Nat) : FalseFx := { dests := if w then [] else [(d, dly)], effect := false }

def State.falseGuard (s : State) (gd : Guard) (fx : FalseFx) : State :=
  let x := s.me
  let gm := (x.pred gd.g.toNat).mask
  if gm = 0 then s
  else
    let s := s.modMe (fun x =>
      { x with flight := x.flight ++ fx.dests.map (fun e =>
                 { vis := x.cycle + e.2, dest := e.1, val := 0, mask := gm ||| x.taint, slot := s.cur.slot, own := true,
                   issued := x.cycle, maskOnly := true }) })
    if fx.effect then s.taintUp gm else s

/-! ## Pending results (R164) -/

/-- Whether a pending result of a context goes to a register that meets a test. -/
def State.pendingTo (s : State) (core ctx : Nat) (p : Dest → Bool) : Bool :=
  s.reads.any (fun r => r.core == core && r.ctx == ctx && p r.dest) ||
  s.atoms.any (fun a => a.core == core && a.ctx == ctx && !a.discard && a.stage != .replied && p a.dest) ||
  (match (s.core core).scan with
   | some c => c.ctx == ctx && !c.w && p (.vreg .y c.y 0 1024)
   | none => false) ||
  (s.ctx core ctx).flight.any (fun f => f.slot == 4 && p f.dest)

/-- Whether a register of the context in focus is pending. -/
def State.pending (s : State) (d : Dest) : Bool := s.pendingTo s.cur.core s.cur.ctx (fun e => e.same d)

/-- Whether trap delivery or pre-emption of a context must wait (R417, R429, R476). -/
def State.awaits (s : State) (core ctx : Nat) : Bool :=
  s.reads.any (fun r => r.core == core && r.ctx == ctx && r.dest != .nowhere) ||
  s.atoms.any (fun a => a.core == core && a.ctx == ctx && !a.discard && a.stage != .replied && a.dest != .nowhere) ||
  (match (s.core core).scan with
   | some c => c.ctx == ctx
   | none => false)

/-! ## Fetch (R131, R148) -/

/-- The 16 bytes at an offset of an instruction bank. -/
def Core.fetch (k : Core) (bank : Bool) (pc : Nat) : BitVec 128 :=
  let b := if bank then k.ibank1 else k.ibank0
  BitVec.ofNat 128 (leValue ((List.range 16).map (fun i => tget 0 b (pc + i))))

/-- STAMP of a bundle, 0 when it has none (R144). -/
def stampOf (b : BitVec 128) : BitVec 12 := if b.extractLsb' 26 6 = 0x3F then b.extractLsb' 0 12 else 0

/-- The due value of a context's next bundle (R174). -/
def Ctx.dueOf (x : Ctx) (stamp : BitVec 12) : BitVec 32 :=
  if stamp != 0 then x.frameStart + stamp.setWidth 32
  else if x.opens then x.frameStart
  else match x.lastDue with
    | some d => d + 1
    | none => x.frameStart

/-! ## The next bundle (R172) -/

/-- The context after a bundle has issued: sequential, within the delay slots, or on to the target. A taken branch has set
`nds` to 3. -/
def Ctx.advance (x : Ctx) : Ctx :=
  if x.nds = 0 then { x with pc := x.pc + 16, opens := false }
  else if x.nds = 1 then
    match x.tgt with
    | some (t, swap) => { x with nds := 0, tgt := none, pc := t, bank := x.bank != swap, opens := true, frameStart := x.nextStart }
    | none => { x with nds := 0, pc := x.pc + 16, opens := false }
  else { x with nds := x.nds - 1, pc := x.pc + 16, opens := false }

/-! ## Faults, launches and retirement -/

/-- Cause numbers (R414). -/
def Cause.number : Cause → Nat
  | .illegal => 1 | .illegalDelay => 2 | .misalign => 3 | .sliceRange => 4 | .transInvalid => 5 | .transFormat => 6
  | .transPerm => 7 | .transTarget => 8 | .snapBound => 9 | .labelStore => 10 | .paramUnbound => 11 | .retstackFull => 12
  | .callRange => 13 | .copyqFull => 14 | .handleState => 15 | .ringBusy => 16 | .streamEnd => 17 | .xposeOrder => 18
  | .haloOverflow => 19 | .groupRange => 20 | .cellRange => 21 | .pubUnbound => 22 | .phaseOverlap => 23
  | .phaseEscape => 24 | .overrun => 25 | .copyFault => 26 | .planeFault => 27 | .memError => 28 | .trap => 29 | .brk => 30
  | .replayDiverge => 31

/-- Causes that the fault log records when they are delivered (R435). -/
def Cause.logged (c : Cause) : Bool :=
  (decide (3 ≤ c.number) && decide (c.number ≤ 10)) || c == .phaseEscape || c == .copyFault || c == .memError

/-- Writes entry r of the fault log and advances `part.fcount` (R435). -/
def State.logFault (s : State) (part : Nat) (c : Cause) (term : Bool) (addr : Word) (core ctx : Nat) : State :=
  s.modPart part (fun p =>
    { p with flog := tput p.flog (p.fcount.toNat % 8) { cause := c, term := term, addr := addr, core := core, ctx := ctx },
             fcount := p.fcount + 1 })

/-- A launch begins retirement, and its end frame is this one (R77, R438). Launches retire one at a time in this order. -/
def State.beginRetire (s : State) (o : Owner) (st : Status) : State :=
  (s.modLaunch o (fun l => { l with stage := .retiring, status := st, end_ := s.frame })).modPart o.part
    (fun p => { p with retireOrder := p.retireOrder ++ [o.launch] })

/-- A context issues nothing more and leaves its groups; what is in flight or pending for it is discarded (R103, R427).
Atomics that have been sent are served all the same. -/
def State.discardCtx (s : State) (core ctx : Nat) : State :=
  let s := s.modCtx core ctx (fun x =>
    { x with st := .retired, flight := [], latches := [], flagLands := [], shadows := [], nds := 0, tgt := none,
             retPending := false, taint := 0, taintNext := 0, asyncQ := [], found := none, bankTrap := none,
             bankPre := none, preReasons := [], strikes := none, dbg := none, wait2 := none, block := 0 })
  let s := s.modCore core (fun k =>
    { k with scan := match k.scan with
               | some c => if c.ctx = ctx then none else some c
               | none => none
             mload := k.mload.filter (fun h => h.ctx != ctx) })
  let s : State :=
  { s with reads := s.reads.filter (fun r => !(r.core == core && r.ctx == ctx)),
           atoms := s.atoms.map (fun a => if a.core == core && a.ctx == ctx then { a with discard := true, dest := .nowhere } else a),
           vsyncReqs := s.vsyncReqs.filter (fun w => w != { core := core, ctx := ctx }) }
  let s := s.releaseHeld
  s.leaveGroups (s.nameOf core ctx) (s.die (dieOf core)).clk (some ({ core := core, ctx := ctx }, s.nextId))

/-- Whether a context has nothing left to do. -/
def Ctx.over (x : Ctx) : Bool := x.st == .retired || x.st == .stopped || x.st == .idle

/-- A context retires; the launch retires with its last one (R427, R438). -/
def State.retireCtx (s : State) (core ctx : Nat) : State :=
  let s := s.discardCtx core ctx
  match (s.core core).owner with
  | none => s
  | some o =>
    match s.launch? o with
    | none => s
    | some l =>
      if l.stage == .running && l.ctxNames.all (fun w => (s.ctx w.core w.ctx).st == .retired) && l.saved.all (·.retired)
      then s.beginRetire o l.status else s

/-- What the end of a launch does to one context: it is discarded, and a fault that waits is taken as SKIP. A terminal trap drops its
queued operations (R427); after an abort they are completed at the launch's retirement (R438). -/
def State.endCtx (s : State) (core ctx : Nat) (drops : Bool) : State :=
  let s := (s.ctx core ctx).copyq.foldl (fun s e =>
    if e.stage = CopyStage.queued then (if drops then s.dropEntry core ctx e.uid else s)
    else if e.stage = CopyStage.faulted then s.skipEntry core ctx e else s) s
  s.discardCtx core ctx

/-- A call that stands inside a micro-op: some of its taps or tiles are done, or a UWAIT counts (R307). -/
def Call.inside (c : Call) : Bool := c.tap != 0 || c.wait.isSome

/-- Plane calls of a core end as a plane fault ends them, the running one at its next micro-op boundary (R427). -/
def State.endCalls (s : State) (core : Nat) : State :=
  (s.core core).calls.foldl (fun s c =>
    if c.inside then s.modCore core (fun k => { k with calls := k.calls.map (fun d => if d.uid = c.uid then { d with ending := true } else d) })
    else s.endCall core c) s

/-- Every context and call of a launch ends and the launch begins retirement with a status (R74, R427, R438). -/
def State.endLaunch (s : State) (o : Owner) (st : Status) : State :=
  match s.launch? o with
  | none => s
  | some l =>
    if l.stage == .retiring || l.stage == .record || l.stage == .freeing then s.modLaunch o (fun l => { l with status := st })
    else
      let s := l.ctxNames.foldl (fun s w => s.endCtx w.core w.ctx (st == .trapped)) s
      let s := l.cores.foldl State.endCalls s
      s.beginRetire o st

/-- A terminal trap of a context (R416, R427): it is logged, and the launch ends with status TRAPPED. -/
def State.terminal (s : State) (core ctx : Nat) (c : Cause) (addr : Word) : State :=
  match (s.core core).owner with
  | none => s
  | some o => (s.logFault o.part c true addr core ctx).endLaunch o .trapped

/-- Whether a context issues nothing more: it has retired, or retires once its calls end. -/
def Ctx.gone (x : Ctx) : Bool := x.st == .retired || x.st == .retiring

/-- An asynchronous trap arises for a context: it waits for the next boundary, and when the context has retired the launch
ends TRAPPED (R250, R305, R415); in a halted core it waits for the resume (R432). -/
def State.raiseAsync (s : State) (core ctx : Nat) (t : AsyncTrap) : State :=
  if (s.ctx core ctx).gone && !(s.core core).halted then s.terminal core ctx t.cause t.addr
  else s.modCtx core ctx (fun x => { x with asyncQ := x.asyncQ ++ [t] })

/-- A trap that arose for a context which has retired, while its core was halted. -/
def State.lateTrap (s : State) (core ctx : Nat) : State :=
  let x := s.ctx core ctx
  match x.asyncQ with
  | [] => s
  | t :: ts => if x.gone then (s.modCtx core ctx (fun x => { x with asyncQ := ts })).terminal core ctx t.cause t.addr else s

/-! ## Taking a trap (R415 to R418, R420, R476) -/

/-- Whether a trap goes to the context's handler (R416, R420). -/
def Ctx.handles (x : Ctx) (det : Bool) (c : Cause) : Bool :=
  x.trapEn && x.trapMask.getLsbD c.number && !x.inh && (det || c != .overrun) && c != .replayDiverge

/-- The offset of the handler: the target-table entry named by TIDX (R36, R417). -/
def State.handlerAt (s : State) (core : Nat) (x : Ctx) : Option Nat :=
  ((s.imageOf core).map (·.targets)).bind (fun t => t[x.trapTidx.toNat]?)

/-- A port without its vectors read ahead and its pushes, as a bank holds it (R244, R418). -/
def Port.bare (p : Port) : Port := { p with buf := [], next := p.pos, pushes := [] }

/-- A snapshot of a context at a boundary (R418), with the results that have arrived. Flags that have landed are not in it (R217). -/
def Ctx.snapshot (x : Ctx) (landed : List InFlight) : Snapshot :=
  { cycle := x.cycle, flight := x.flight, landed := landed, latches := x.latches, lostAt := x.lostAt,
    flags := x.flagLands.filter (fun f => decide (x.cycle < f.at_)),
    shadows := x.shadows, divFree := x.divFree, nds := x.nds, tgt := x.tgt, retPending := x.retPending,
    frameStart := x.frameStart, nextStart := x.nextStart, opens := x.opens, lastDue := x.lastDue,
    ports := x.ports.map (fun e => (e.1, e.2.bare)), rndPos := x.rndPos }

/-- The context with everything in flight taken out of it. -/
def Ctx.emptied (x : Ctx) : Ctx :=
  { x with flight := [], latches := [], lostAt := none, flagLands := [], shadows := [], divFree := 0, nds := 0, tgt := none,
           retPending := false }

/-- DPC1 and DPC2: the offsets that follow PC when delay slots or a target are pending (R420). After the outermost RET no target
follows the delay slots. -/
def Ctx.dpcs (x : Ctx) : Nat × Nat :=
  match x.nds, x.tgt with
  | 2, some (t, _) => (x.pc + 16, t)
  | 2, none => (x.pc + 16, 0)
  | 1, some (t, _) => (t, t + 16)
  | _, _ => (0, 0)

/-- Steps 2 to 4 of R417, once nothing pending is awaited. `landed` holds results that arrived during the wait. -/
def State.enterHandler (s : State) (core ctx : Nat) (f : TrapFound) (at_ : Nat) : State :=
  s.modCtx core ctx fun x =>
    let landed := (x.bankTrap.map (·.landed)).getD []
    let sh := x.shadows.head?
    { x.emptied with
        st := .running, found := none, block := 0, stall := 0, skips := 0, yielded := false
        bankTrap := some (x.snapshot landed)
        trapAsync := f.async, trapCode := f.code, trapSlots := f.slots, trapNo := BitVec.ofNat 6 f.cause.number
        trapNds := x.nds, trapBank_ := x.bank, trapPc := x.pc
        trapSwap := (match x.tgt with | some (_, sw) => sw | none => false)
        trapDpc1 := x.dpcs.1, trapDpc2 := x.dpcs.2, trapAddr := f.addr
        trapShadow := sh.isSome
        trapRem := (match sh with | some h => h.at_ - x.cycle | none => 0)
        trapFmt := (match sh with | some h => h.fmt.val | none => 0)
        inh := true, rstack := x.pc :: x.rstack, pc := at_
        frameStart := f.frame + 3, opens := true, lastDue := none }

/-- Whether a PLANE_FAULT that is delivered to a context is the one that `plane.fault` records: the last that arose (R305, R306). -/
def State.faultRecorded (s : State) (core ctx : Nat) : Bool :=
  (s.core core).planeFault.ctx == ctx && !(s.ctx core ctx).asyncQ.any (fun t => t.cause == .planeFault)

/-- Completes the delivery of a trap found, when nothing pending is awaited any more (R476). -/
def State.deliver (s : State) (core ctx : Nat) : State :=
  let x := s.ctx core ctx
  match x.found with
  | none => s
  | some f =>
    if s.awaits core ctx then s
    else match s.handlerAt core x with
      | none => s.terminal core ctx f.cause f.addr
      | some at_ =>
        let s := s.enterHandler core ctx f at_
        let s := if f.cause = .planeFault && s.faultRecorded core ctx then
            s.modCore core (fun k => { k with planeFault := { k.planeFault with pend := false } })
          else s
        if f.cause.logged then s.logFault (s.partOf core) f.cause false f.addr core ctx else s

/-- Takes a trap of a context at its boundary: to its handler, at once or after the results awaited, or as a terminal trap
(R416, R417, R476). -/
def State.trapFrom (s : State) (core ctx : Nat) (f : TrapFound) : State :=
  let x := s.ctx core ctx
  if x.handles (s.det core) f.cause && decide (x.rstack.length < 16) then
    let s := s.modCtx core ctx (fun x => { x with st := .frozenTrap, found := some f, block := 12, bankTrap := none })
    s.deliver core ctx
  else s.terminal core ctx f.cause f.addr

/-- A trap that belongs to the bundle at the boundary, or to none: its handler's frame counts from this cycle (R421). -/
def State.takeTrap (s : State) (core ctx : Nat) (f : TrapFound) : State :=
  s.trapFrom core ctx { f with frame := (s.core core).frame }

/-- A TRAP or DBGBRK that issued in the bundle before this boundary is taken (R415), or the trap of its MLOAD (log entry 42). -/
def State.takeStrike (s : State) (core ctx : Nat) : State :=
  match (s.ctx core ctx).strikes with
  | none => s
  | some t =>
    (s.modCtx core ctx (fun x => { x with strikes := none })).trapFrom core ctx
      { cause := t.cause, code := t.code, addr := 0, slots := t.slots, async := false, frame := t.frame }

/-- Whether a context may take an asynchronous trap at its boundary: no handler runs, and nothing has asked for its pre-emption (R416,
R429). One that has stopped for tenant pre-emption may (R430; log entry 79). -/
def Ctx.mayTake (x : Ctx) : Bool := !x.inh && x.preReasons.isEmpty && (x.st == .running || x.st == .stopped)

/-- The head of the asynchronous traps of a context is taken at its boundary (R415, R416); a context that has stopped for tenant
pre-emption goes on to its next YIELD. -/
def State.takeAsync (s : State) (core ctx : Nat) : State :=
  let x := s.ctx core ctx
  match x.asyncQ with
  | [] => s
  | t :: ts =>
    if !x.mayTake then s
    else
      (s.modCtx core ctx (fun x => { x with asyncQ := ts })).takeTrap core ctx
        { cause := t.cause, code := t.code, addr := t.addr, slots := 0, async := true, frame := 0 }

/-! ## Resuming (R419, R421, R429) -/

/-- A port as the resumed flow finds it: bound as the bank holds it and at the position held there (R418). A port that the flow in
between left alone keeps its vectors and its pushes. -/
def Port.regain (q : Port) (now : Option Port) : Port :=
  match now with
  | none => q
  | some p =>
    if p.bare = { q with dead := p.dead } then p
    else if p.desc = q.desc && p.fmt = q.fmt && p.bmask == q.bmask && p.phase = q.phase then
      { p with pos := q.pos, exh := q.exh, next := q.pos, buf := [] }
    else q

/-- The ports whose regaining would discard pushes not yet written: those that the flow in between has bound (R244). -/
def Ctx.regainBlocked (x : Ctx) (b : Snapshot) : Bool :=
  x.ports.any (fun e => !e.2.pushes.isEmpty && match tfind b.ports e.1 with
    | none => true
    | some q => (q.regain (some e.2)).pushes.isEmpty)

/-- Every held item of a snapshot goes back, each lacking as many cycles at context cycle `base` as it lacked at the
boundary. Results of the flow that ran meanwhile are kept, but for those that meet a held one (R419). A port comes back with its generator,
also where another port has bound that generator meanwhile (DESIGN CHOICE: log entry 68). -/
def Ctx.restore (x : Ctx) (b : Snapshot) (base : Nat) : Ctx :=
  let d := base - b.cycle
  let held := b.flight.map (fun f => { f with vis := f.vis + d, issued := f.issued + d }) ++
    b.landed.map (fun f => { f with vis := base })
  let mine := x.flight.filter (fun f => f.maskOnly ||
    !held.any (fun h => !h.maskOnly && h.dest.same f.dest && max h.vis base == max f.vis base))
  { x with
      flight := mine ++ held
      latches := b.latches.map (fun l => { l with b0 := l.b0 + d, issued := l.issued + d })
      lostAt := b.lostAt.map (fun t => t + d)
      flagLands := x.flagLands ++ b.flags.map (fun f => { f with at_ := f.at_ + d })
      shadows := b.shadows.map (fun f => { f with at_ := f.at_ + d }) ++ x.shadows
      divFree := max x.divFree (b.divFree + d)
      predWrite := x.predWrite.map (fun e => (e.1, if e.2 < b.cycle then e.2 + d else base - 1))
      nds := b.nds, tgt := b.tgt, retPending := b.retPending
      ports := b.ports.map (fun e => (e.1, e.2.regain (tfind x.ports e.1)))
      rndPos := b.rndPos, rndHeld := if x.rndPos = b.rndPos then x.rndHeld else 0 }

/-- The frame of a resumed flow in deterministic mode is shifted so that its bundle falls due at `at_` (R421). -/
def Ctx.shiftFrame (x : Ctx) (b : Snapshot) (stamp : BitVec 12) (at_ : BitVec 32) : Ctx :=
  let x := { x with frameStart := b.frameStart, nextStart := b.nextStart, opens := b.opens, lastDue := b.lastDue }
  let d := at_ - x.dueOf stamp
  { x with frameStart := x.frameStart + d, nextStart := x.nextStart + d, lastDue := x.lastDue.map (fun e => e + d) }

/-- ERET (R419, R424): the popped entry is discarded, INH clears and the interrupted flow goes on at PC of `trap.pc`. The
resumed bundle issues in the next cycle at the earliest, in deterministic mode three cycles on (R421). -/
def State.eret (s : State) (core ctx : Nat) : State :=
  let det := s.det core
  let k := s.core core
  s.modCtx core ctx fun x =>
    match x.bankTrap with
    | none => x
    | some b =>
      let y := x.restore b (x.cycle + (if det then 3 else 1))
      let y := { y with inh := false, rstack := x.rstack.drop 1, pc := x.trapPc, bank := x.trapBank_, bankTrap := none,
                        stall := 0, skips := 0 }
      let stamp := stampOf (k.fetch y.bank y.pc)
      if det then y.shiftFrame b stamp (k.frame + 3) else y

/-! ## A slot's attempt -/

/-- How an attempt ends without issue: a trap with its code and address, a block with its code (R160), or a stall cycle
(R169). -/
inductive Halt where
  | raise (c : Cause) (code : BitVec 8) (addr : Word)
  | block (code : Nat)
  | stall
  deriving DecidableEq, Repr

/-- What an attempt computes: a value, or its end without issue. -/
abbrev Try := Except Halt

/-- Raises a cause that has neither code nor address. -/
def raise {α : Type} (c : Cause) : Try α := .error (.raise c 0 0)

def blocked {α : Type} (code : Nat) : Try α := .error (.block code)

/-- Goes on when a condition holds. -/
def must (c : Bool) (h : Halt) : Try Unit := if c then .ok () else .error h

/-- The end of an attempt that a check has ended, when the rest of it is looked at too: of several blocks the lowest code
stands, and a block stands before a raise (R160; log entry 13). -/
def Halt.join {α : Type} (h : Halt) (t : Try α) : Halt :=
  match h, t with
  | .block m, .error (.block n) => .block (min m n)
  | .raise _ _ _, .error (.block n) => .block n
  | _, _ => h

/-- A check and the rest of the attempt, which is looked at for a lower code when the check fails (R160). -/
def both {α β : Type} (c : Try α) (t : Try β) : Try β :=
  match c with
  | .ok _ => t
  | .error h => .error (h.join t)

/-- A value that the attempt goes on with, and a check that needs no such value: without the value it is made for a lower code
(R160). -/
def needed {α β : Type} (v : Try α) (c : Try β) : Try α :=
  match v with
  | .ok x => .ok x
  | .error h => .error (h.join c)

def State.verdict (s : State) (v : Verdict) : State := { s with cur := { s.cur with verdict := v } }

/-- The trap that the slot in focus raises. -/
def State.trapHere (s : State) (c : Cause) (code : BitVec 8) (addr : Word) : State :=
  (s.takeTrap s.cur.core s.cur.ctx
    { cause := c, code := code, addr := addr, slots := BitVec.ofNat 4 (2 ^ s.cur.slot), async := false, frame := 0 }).verdict
    (.raised c code addr)

/-- An attempt that ends without issue: a trap is taken at the boundary; a block leaves its code in BLOCK of `ctx.status`, and
a block or a stall raises OVERRUN in deterministic mode (R160, R175, R176). -/
def State.halt (s : State) : Halt → State
  | .raise c code addr => s.trapHere c code addr
  | .block n =>
    if s.det s.cur.core then s.trapHere .overrun 0 0
    else (s.modMe (fun x => { x with block := n, yielded := x.yielded || n == 11 })).verdict (.blocked n)
  | .stall => if s.det s.cur.core then s.trapHere .overrun 0 0 else s.verdict .stalled

/-- One slot's attempt: under a false guard only the guard's mask propagates (R170, R349); otherwise the body issues, raises,
blocks or stalls. -/
def slotRun (gd : Guard) (fx : State → FalseFx) (body : State → Try State) (s : State) :
    Host.Outcome State Fault Refusal :=
  if s.me.holds gd then
    match body s with
    | .ok t => .next (t.verdict .issued)
    | .error h => .next (s.halt h)
  else .next ((s.falseGuard gd (fx s)).verdict .issued)

end Sys2Proof.Machine
end

