-- ==== Sys2Proof/Machine/Operands.lean ====
section
/-! DEFINITION. Operand forms: `opnd` of slot 0 (R178), `opndv` of the vector slots (R311), `opnd3` and `obj` of slot 3
(R257), data registers (R139), stream ports (R241 to R244) and the random-bit queue (R254, R255). -/

namespace Sys2Proof.Machine

/-! ## Random vectors (R255) -/

def rndMix (z : Word) : Word :=
  let z := (z ^^^ (z >>> 31)) * 0xD1B54A32D192ED03
  let z := (z ^^^ (z >>> 29)) * 0xAEF17502108EF2D9
  z ^^^ (z >>> 32)

def rndWord (key p : Word) (w : Nat) : Word := rndMix (rndMix ((p * 16 + BitVec.ofNat 64 w) ^^^ key) ^^^ key)

/-- 64-bit lanes from lane 0 up, packed into a vector. -/
def packLanes (e : Nat) : List Nat → Nat
  | [] => 0
  | v :: vs => v % 2 ^ e + 2 ^ e * packLanes e vs

/-- Vector P under key K. -/
def rndVector (key p : Word) : Vec :=
  BitVec.ofNat 1024 (packLanes 64 ((List.range 16).map (fun w => (rndWord key p w).toNat)))

/-! ## Streams (R240 to R242) -/

def widthBits : Width → Nat
  | .w256 => 256 | .w512 => 512 | .w1024 => 1024

/-- T of R241. -/
def StreamDesc.total (d : StreamDesc) : Nat := (d.levels.map (·.count)).foldl (· * ·) 1

/-- The index of transfer k in each level, applied to the strides. -/
def walkAddr : List Level → Nat → Int
  | [], _ => 0
  | l :: ls, k => (k % l.count : Nat) * l.stride.toInt + walkAddr ls (k / l.count)

/-- The slice offset of transfer k. -/
def StreamDesc.addr (d : StreamDesc) (k : Nat) : Int := d.base + walkAddr d.levels k

/-- The register-side and slice-side formats (R240). -/
def StreamDesc.regFmt (d : StreamDesc) : Fmt := if d.out then d.src else d.snk
def StreamDesc.memFmt (d : StreamDesc) : Fmt := if d.out then d.snk else d.src

/-- Elements and bytes of one transfer (R241). -/
def StreamDesc.elems (d : StreamDesc) : Nat := widthBits d.width / fmtBits d.regFmt
def StreamDesc.bytes (d : StreamDesc) : Nat := d.elems * (fmtBits d.memFmt / 8)

def Ctx.port? (x : Ctx) (q : Nat) : Option Port := tfind x.ports q

/-- The port after one transfer has been popped or pushed (R244). -/
def Port.next1 (p : Port) : Port :=
  if p.pos + 1 < p.desc.total then { p with pos := p.pos + 1 }
  else if p.desc.repeat_ then { p with pos := 0 }
  else { p with pos := p.desc.total, exh := true }

/-- Whether a DMAXCOS scan of the context reads the port (R340). -/
def State.scanning (s : State) (q : Nat) : Bool :=
  match s.myCore.scan with
  | some c => c.ctx == s.cur.ctx && c.port == q && c.left != 0
  | none => false

/-- Pops one vector of a port for a reader of width w (R137, R242, R244). -/
def State.popPort (s : State) (q w : Nat) : Try (Lab 1024 × State) :=
  match s.me.port? q with
  | none => raise .illegal
  | some p =>
    if p.desc.out then raise .illegal
    else if p.exh then raise .streamEnd
    else if s.scanning q then blocked 1
    else match p.buf with
      | [] => blocked 1
      | v :: vs =>
        .ok ({ val := v.val &&& BitVec.ofNat 1024 (2 ^ w - 1), mask := v.mask },
             s.modMe (fun x => { x with ports := tput x.ports q { p.next1 with buf := vs } }))

/-- The key of the launch's random-bit generators (R64, R254). -/
def State.key (s : State) : Word := ((s.launchOf s.cur.core).map (·.pkt.seed)).getD 0

/-- Pops one random vector (R254). -/
def State.popRnd (s : State) (w : Nat) : Try (Lab 1024 × State) :=
  if s.me.rndHeld = 0 then blocked 2
  else .ok ({ val := rndVector s.key s.me.rndPos &&& BitVec.ofNat 1024 (2 ^ w - 1), mask := 0 },
            s.modMe (fun x => { x with rndPos := x.rndPos + 1, rndHeld := x.rndHeld - 1 }))

/-! ## Registers and latches as operands -/

/-- A register read blocks with code PENDING while a pending result goes to it (R164). -/
def State.ready (s : State) (d : Dest) : Try Unit := must (!s.pending d) (.block 7)

/-- A read of a lost latch entry sets LATCHLOST (R168). -/
def State.readLatch (s : State) (j : BitVec 2) : Lab 1024 × State :=
  (s.me.latch s.cur.slot j.toNat,
   if s.me.latchLost j.toNat then s.modMe (fun x => { x with latchlost := true }) else s)

/-- The low 64 bits of a labelled vector. -/
def Lab.low64 (l : Lab 1024) : Lab 64 := { val := l.val.setWidth 64, mask := l.mask }

/-- `opnd` of slot 0 (R178). -/
def State.opnd (s : State) (o : Opnd) : Try (Lab 64 × State) :=
  match o with
  | .reg n => do
    s.ready (.sreg n.toNat)
    return (s.me.sreg n.toNat, s)
  | .latch j => .ok ((s.readLatch j).1.low64, (s.readLatch j).2)
  | .zero => .ok (Lab.zero 64, s)
  | _ => raise .illegal

/-- A data register of slot 0 (R139). -/
def State.dataReg (s : State) (d : BitVec 5) : Try (Lab 64) := do
  s.ready (.sreg d.toNat)
  return s.me.sreg d.toNat

/-- EXT as a signed value of 64 bits (R145). -/
def State.extWord (s : State) : Word := s.cur.ext.signExtend 64

/-- `opnd3` of slot 3 (R257). -/
def State.opnd3 (s : State) (o : Opnd) : Try (Lab 64 × State) :=
  match o with
  | .reg n => do
    s.ready (.mreg n.toNat)
    return (s.me.mreg n.toNat, s)
  | .latch j => .ok ((s.readLatch j).1.low64, (s.readLatch j).2)
  | .zero => .ok (Lab.zero 64, s)
  | .ext => .ok ({ val := s.extWord, mask := 0 }, s)
  | _ => raise .illegal

/-- An m register that an entry reads beside its operands. -/
def State.mdata (s : State) (n : Nat) : Try (Lab 64) := do
  s.ready (.mreg n)
  return s.me.mreg n

/-- `obj` of slot 3: the number of an engine object below n, with its mask (R257). EXT is read as unsigned here. -/
def State.obj (s : State) (o : Opnd) (n : Nat) : Try ((Nat × Mask) × State) := do
  let (v, s) ← (match o with
    | .ext => (.ok ({ val := s.cur.ext.setWidth 64, mask := 0 }, s) : Try (Lab 64 × State))
    | _ => s.opnd3 o)
  if v.val.toNat < n then return ((v.val.toNat, v.mask), s) else raise .illegal

/-- EXT broadcast into lanes of e bits: as an integer, or rounded to a floating format (R311). -/
def extLanes (ext : BitVec 12) (e : Nat) (f : Option FloatFmt) : Vec :=
  let i := ext.toInt
  let lane : Nat := match f with
    | none => wrapNat e i
    | some f => (f.roundExact .ne false i 0).bits
  BitVec.ofNat 1024 (packLanes e (List.replicate (1024 / e) lane))

/-- The file of the slot in focus. -/
def State.vfile (s : State) : VFile := if s.cur.slot = 1 then .x else .y

/-- `opndv` of the vector slots for a reader of width w with lanes of e bits (R311). -/
def State.opndv (s : State) (o : Opnd) (w e : Nat) (f : Option FloatFmt) : Try (Lab 1024 × State) :=
  match o with
  | .reg n => do
    s.ready (.vreg s.vfile n.toNat 0 1024)
    return (s.me.vreg s.vfile n.toNat, s)
  | .latch j => .ok (s.readLatch j)
  | .port q => s.popPort q.toNat w
  | .rnd => s.popRnd w
  | .zero => .ok (Lab.zero 1024, s)
  | .ext => .ok ({ val := extLanes s.cur.ext e f, mask := 0 }, s)

/-- Two operands in order, A before B (R137). When A cannot be read B is looked at all the same, and of two blocks the lower
code stands (R160). -/
def State.opndv2 (s : State) (a b : Opnd) (w e : Nat) (f : Option FloatFmt) : Try (Lab 1024 × Lab 1024 × State) :=
  match s.opndv a w e f with
  | .ok (va, s1) => do
    let (vb, s2) ← s1.opndv b w e f
    return (va, vb, s2)
  | .error h => .error (h.join (s.opndv b w e f))

/-- Register d of a vector slot as an operand of an instruction that reads its destination. -/
def State.vdata (s : State) (d : BitVec 5) : Try (Lab 1024) := do
  s.ready (.vreg s.vfile d.toNat 0 1024)
  return s.me.vreg s.vfile d.toNat

/-! ## Lanes (R313) -/

/-- Lane j of e bits. -/
def lane (v : Vec) (e j : Nat) : Nat := (v.toNat / 2 ^ (e * j)) % 2 ^ e

/-- The n lanes of e bits of a vector. -/
def lanes (v : Vec) (e n : Nat) : List Nat := (List.range n).map (lane v e)

/-- A vector of lanes, zero above them. -/
def ofLanes (e : Nat) (ls : List Nat) : Vec := BitVec.ofNat 1024 (packLanes e ls)

def laneBits : LaneQ → Nat
  | .b32 => 32 | .b8 => 8 | .b16 => 16 | .b64 => 64

def intBits : IntQ → Nat
  | .i32 => 32 | .i8 => 8

/-- `write_v`: the latch gets the low w bits with zero above, the register takes them and keeps the rest (R312). -/
def State.writeV (s : State) (L : Nat) (wr : Bool) (d : BitVec 5) (w : Nat) (v : Vec) (m : Mask) (joins : Bool := false) : State :=
  s.own L wr (.vreg s.vfile d.toNat 0 w) (v &&& BitVec.ofNat 1024 (2 ^ w - 1)) m joins

/-- `write_s` with latency L: a destination of s0 is discarded (R179). -/
def State.writeS (s : State) (L : Nat) (wr : Bool) (d : BitVec 5) (v : Word) (m : Mask) : State :=
  s.own L wr (if d = 0 then .nowhere else .sreg d.toNat) (v.setWidth 1024) m

/-- `write_m` (R258). -/
def State.writeM (s : State) (wr : Bool) (d : BitVec 3) (v : Word) (m : Mask) : State :=
  s.own 2 wr (.mreg d.toNat) (v.setWidth 1024) m

/-- What a false guard labels when the form writes an s register with latency L (R349). -/
def fxS (wr : Bool) (d : BitVec 5) (L : Nat) (_ : State) : FalseFx := .one wr (if d = 0 then .nowhere else .sreg d.toNat) (L + 1)

def fxM (eff wr : Bool) (d : BitVec 3) (_ : State) : FalseFx := { FalseFx.one wr (.mreg d.toNat) 3 with effect := eff }

/-- Whether an operand pops. -/
def opndPops : Opnd → Bool
  | .port _ => true
  | .rnd => true
  | _ => false

/-- The same for a vector destination; operands that would pop raise TAINT. -/
def fxV (wr : Bool) (d : BitVec 5) (w L : Nat) (ops : List Opnd) (s : State) : FalseFx :=
  { FalseFx.one wr (.vreg s.vfile d.toNat 0 w) (L + 1) with effect := ops.any opndPops }

def fxAct (_ : State) : FalseFx := .act
def fxNone (_ : State) : FalseFx := .none

/-- An instruction that names a destination waits for a pending result of it, W or no W (R160, R164). -/
def State.destReady (s : State) (d : Dest) : Try Unit := s.ready d

def sDest (d : BitVec 5) : Dest := if d = 0 then .nowhere else .sreg d.toNat

end Sys2Proof.Machine
end

