-- ==== Sys2Proof/Machine/Memory.lean ====
section
/-! DEFINITION. Memory accesses of a context: alignment and checks (R196, R116, R410), the translation stores (R120, R121,
R123), loads (R164, R197 to R199), stores, and what an access waits for (R388, R390); with the slot-0 accesses LD, LDS, ST,
LDFE, STFE and PLD (R197 to R203). -/

namespace Sys2Proof.Machine

/-! ## What earlier accesses hold back -/

/-- Whether an LDA of an earlier bundle of the context has not landed: every later access waits for it (R388). -/
def State.ldaHolds (s : State) : Bool :=
  decide (s.me.cycle < s.cur.ldaVis) ||
  s.reads.any (fun r => decide (r.id < s.cur.base) && r.core == s.cur.core && r.ctx == s.cur.ctx && r.acquire)

def State.afterLda (s : State) : Try Unit := must (!s.ldaHolds) (.block 9)

/-- The attempt of a slot that accesses memory or starts an engine: it waits for the context's LDAs, and of several blocks the lowest
code stands (R160, R388). -/
def accessRun (gd : Guard) (fx : State → FalseFx) (body : State → Try State) (s : State) : Out :=
  slotRun gd fx (fun s => both s.afterLda (body s)) s

/-- Whether every read of the context in earlier bundles has been performed, atomics with it (R390). -/
def State.readsDone (s : State) : Bool :=
  decide (s.cur.readVis ≤ s.me.cycle) &&
  !s.reads.any (fun r => decide (r.id < s.cur.base) && r.core == s.cur.core && r.ctx == s.cur.ctx &&
    (match r.kind with | .sysr _ => false | _ => true)) &&
  !s.atoms.any (fun a => decide (a.id < s.cur.base) && a.core == s.cur.core && a.ctx == s.cur.ctx && a.stage != .replied)

/-- Whether scope S waits for application on every die (R390). -/
def scopeWide : Scope → Bool
  | .core => false
  | .clu => false
  | .die => false
  | .dev => true
  | .sys => true

/-- Whether every write of the context in earlier bundles is performed at a scope. `wide` is R390's last column: every die has
applied the write, and its home has performed it, so that no agent of the scope reads an older one (R370). -/
def State.writesDone (s : State) (wide : Bool) : Bool :=
  !s.writes.any (fun w => decide (w.id < s.cur.base) && w.ofCtx && w.core == s.cur.core && w.ctx == s.cur.ctx &&
    (!w.acked || (wide && !w.everywhere)))

/-- The wait of a release at a scope (R388, R391). -/
def State.drained (s : State) (wide : Bool) : Bool := s.readsDone && s.writesDone wide

/-! ## Translation stores (R120, R121, R123) -/

def StoreEntry.covers (e : StoreEntry) (part va : Nat) : Bool :=
  e.part == part && decide (e.base ≤ va) && decide (va < e.base + e.size)

/-- Whether an address needs no walk: it lies in the aperture or a range entry, or a store holds its page. -/
def State.held (s : State) (core va : Nat) : Bool :=
  let p := s.partOf core
  inAperture va || ((s.part p).rangeAt va).isSome ||
  (tget [] s.fronts (clusterOf core)).any (fun e => e.covers p va) ||
  (s.die (dieOf core)).store.any (fun e => e.covers p va)

/-- The addresses of an access at which a page begins, with its first. -/
def pageStarts (va n : Nat) : List Nat :=
  va :: (List.range ((va + n - 1) / 4096 - va / 4096)).map (fun i => (va / 4096 + i + 1) * 4096)

/-- An entry joins a store of n entries; a full store gives up one that is not architected (R120). -/
def fillStore (n free : Nat) (l : List StoreEntry) (e : StoreEntry) : List StoreEntry :=
  if l.length < n then l ++ [e] else l.eraseIdx (free % l.length) ++ [e]

/-- The front store of a cluster is filled. -/
def State.fillFront (s : State) (cluster : Nat) (e : StoreEntry) : State :=
  { s with freeCount := s.freeCount + 1,
           fronts := tmod [] s.fronts cluster (fun l => fillStore 256 (Config.freeWord s.freeCount).toNat l e) }

/-- Whether two misses have one key. -/
def Miss.same (a b : Miss) : Bool := a.part == b.part && a.key == b.key

/-- A miss joins the entry of its key, takes a new one, or waits at its front store while the table is full (R121). A requester that
looks up again while it waits is there already. -/
def Die.note (x : Die) (m : Miss) : Die :=
  match x.misses.find? (fun e => e.2.same m) with
  | some e =>
    { x with misses := tput x.misses e.1 { e.2 with reqs := e.2.reqs ++ m.reqs.filter (fun i => !e.2.reqs.contains i) } }
  | none =>
    if x.atFront.any (fun q => q.same m && q.reqs == m.reqs) then x
    else if x.misses.length < 1024 then { x with misses := tput x.misses x.nextMiss m, nextMiss := x.nextMiss + 1 }
    else { x with atFront := x.atFront ++ [m] }

/-- One page of an access is looked up: in the front store of its cluster, then in its die's store, ranges before pages, each of which
fills the front store; a miss goes to the miss table of the die (R120, R121). -/
def State.lookPage (s : State) (core : Nat) (req : Option Nat) (va : Nat) : State :=
  let p := s.partOf core
  let cl := clusterOf core
  if inAperture va || (tget [] s.fronts cl).any (fun e => e.covers p va) then s
  else match (s.part p).rangeAt va, (s.die (dieOf core)).store.find? (fun e => e.covers p va) with
    | some r, _ => s.fillFront cl { part := p, base := r.base, size := r.limit - r.base }
    | none, some e => s.fillFront cl e
    | none, none =>
      s.modDie (dieOf core) (fun x => x.note { part := p, key := va / 4096, cluster := cl, started := false, reqs := req.toList })

/-- The stores are looked up for every page of an access of a core, for the request that will wait on a miss. -/
def State.lookSpan (s : State) (core : Nat) (req : Option Nat) (va n : Nat) : State :=
  (pageStarts va n).foldl (fun s a => s.lookPage core req a) s

/-- The same for the core in focus. -/
def State.lookUp (s : State) (req : Option Nat) (va n : Nat) : State := s.lookSpan s.cur.core req va n

/-- In deterministic mode a bundle whose access misses raises OVERRUN, before anything that its walk would find (R123, R175). -/
def State.noMiss (s : State) (va n : Nat) : Try Unit :=
  must (!s.det s.cur.core || (pageStarts va n).all (fun a => decide (2 ^ 56 ≤ a) || s.held s.cur.core a)) (.raise .overrun 0 0)

/-! ## Checks of an access (R196, R116, R117, R410) -/

/-- An access of the context in focus. -/
def State.accessOf (s : State) (k : AKind) (m : Mask) : Access :=
  { part := s.partOf s.cur.core, cores := s.launchCores s.cur.core, own := s.cur.core, kind := k, copy := false, mask := m,
    egress := [] }

def aligned (va : Word) (n : Nat) : Try Unit := must (va.toNat % n == 0) (.raise .misalign 0 va)

/-- The first byte of an own-slice access that lies outside the ranges of the open phase (R410). -/
def State.escapes (s : State) (write : Bool) : List Hit → Nat → Option Nat
  | [], _ => none
  | h :: hs, i =>
    match s.myCore.phase, s.imageOf s.cur.core, regionOf h.pa with
    | some ph, some img, .slice c off =>
      if c = s.cur.core && !phaseCovers img ph 0 s.cur.ctx write off then some i else s.escapes write hs (i + 1)
    | _, _, _ => s.escapes write hs (i + 1)

/-- Whether a load or store of the own slice comes too soon, since it is performed as it issues (R372): a write to the bytes that the
core's die has applied could not yet be performed there (R474), or an atomic of the context in an earlier bundle has not been served
(R369; log entry 42). -/
def State.overdue (s : State) (hs : List Hit) : Bool :=
  let mine := (hs.map (·.pa)).filter (fun a => sliceOf a == some s.cur.core)
  s.mustWait (s.die (dieOf s.cur.core)).clk mine || s.atomOpen s.cur.base s.cur.core s.cur.ctx mine

/-- The checks of an access of n bytes, after its alignment: the bytes with their addresses, or the trap. An access of the own slice that
comes too soon is held in a stall cycle. -/
def State.span (s : State) (k : AKind) (va : Word) (n : Nat) (m : Mask) : Try (List Hit) :=
  match s.checkSpan (s.accessOf k m) va.toNat n with
  | .error (c, a) => .error (.raise c 0 a)
  | .ok hs =>
    match (if k = .atomic then none else s.escapes (k == .write) hs 0) with
    | some i => .error (.raise .phaseEscape 0 (va + BitVec.ofNat 64 i))
    | none => if k != .atomic && s.overdue hs then .error .stall else .ok hs

/-- Whether every byte lies in the own slice. -/
def State.ownBytes (s : State) (hs : List Hit) : Bool := hs.all (fun h => sliceOf h.pa == some s.cur.core)

/-- Whether an address lies in the own slice, as a false guard must tell (R349). -/
def State.ownAddr (s : State) (va : Word) : Bool :=
  inAperture va.toNat &&
  match aperture (s.launchCores s.cur.core) s.cur.core va.toNat with
  | .ok pa => sliceOf pa == some s.cur.core
  | .error _ => false

/-- The value of a register or latch operand as a false guard's address sees it. -/
def State.peekOpnd (s : State) (o : Opnd) : Word :=
  match o with
  | .reg n => (s.me.sreg n.toNat).val
  | .latch j => (s.me.latch s.cur.slot j.toNat).val.setWidth 64
  | _ => 0

/-- The cycles after issue in which a load's destination changes. -/
def State.loadDelay (s : State) (va : Word) (L : Nat) : Nat := if s.ownAddr va then L + 1 else 1

/-! ## Loads -/

/-- A request for a pending result leaves the core (R164), with the clock of its die (R474) and what the limits that admit it release: by
that it is an acquire (R408; log entry 84). -/
def State.request (s : State) (kind : ReadKind) (dest : Dest) (fmt : ReadFmt) (bytes : List (Option Nat)) (va : Word)
    (m : Mask) (acq : Bool) (seen : Clock := Clock.zero) : State :=
  let r : ReadReq :=
    { id := s.nextId, core := s.cur.core, ctx := s.cur.ctx, kind := kind, dest := dest, fmt := fmt, bytes := bytes, known := [],
      va := va, mask := m, acquire := acq || seen != Clock.zero, clk := (s.die (dieOf s.cur.core)).clk.join seen, reply := none, rclk := Clock.zero }
  { s with nextId := s.nextId + 1, reads := s.reads ++ [r] }

/-- Bytes that a pending read has already read in its own slice (R372). -/
def State.knowing (s : State) (t : Table Byte) : State :=
  { s with reads := s.reads.map (fun r => if r.id + 1 = s.nextId then { r with known := t } else r) }

/-- The masks that entries give to the bytes outside slices (R353). -/
def entryMasks (hs : List Hit) : Mask :=
  unionMasks (hs.map (fun h => match sliceOf h.pa with | some _ => 0 | none => h.mask))

/-- A load of checked bytes: with latency L from the own slice, where it is performed at issue (R372), and otherwise pending
(R164). With the write suppressed no destination is pending, and the latch of an own-slice load still gets the value
(R199). -/
def State.loadBytes (s : State) (hs : List Hit) (va : Word) (L : Nat) (wr : Bool) (d : Dest) (fmt : ReadFmt) (m : Mask)
    (acq : Bool) : State :=
  if s.ownBytes hs then
    let v := fmt.value (s.peeks (hs.map (·.pa)))
    let m := m ||| s.hitsMask hs
    (s.own L wr d v m).modMe (fun x =>
      { x with readVis := max x.readVis (x.cycle + L + 1),
               ldaVis := if acq then max x.ldaVis (x.cycle + L + 1) else x.ldaVis })
  else
    s.request .mem (if wr then .nowhere else d) fmt (hs.map (fun h => some h.pa)) va (m ||| entryMasks hs) acq (sealClock hs)

/-- A load in full: alignment, checks, stores, and the read. -/
def State.load (s : State) (va : Word) (n L : Nat) (wr : Bool) (d : Dest) (fmt : ReadFmt) (m : Mask) (acq : Bool) :
    Try State := do
  aligned va n
  s.noMiss va.toNat n
  let hs ← s.span .read va n 0
  return (s.lookUp (some s.nextId) va.toNat n).loadBytes hs va L wr d fmt m acq

/-! ## Stores -/

/-- The cells of a value's bytes at checked addresses. -/
def cellsOf (hs : List Hit) (v : Nat) : List Host.Cell := (hs.map (·.pa)).zip (bytesOf hs.length v)

/-- A store in full; `m` is the mask of the data written (R354). -/
def State.store (s : State) (va : Word) (n v : Nat) (m : Mask) (fe : Bool) : Try State := do
  aligned va n
  s.noMiss va.toNat n
  let hs ← s.span .write va n m
  return (s.lookUp (some s.nextId) va.toNat n).sendWrite s.cur.core s.cur.ctx true va (cellsOf hs v) m fe

/-! ## LD, LDS, ST (R197 to R199) -/

def sizeBytes : MSize → Nat
  | .b1 => 1 | .b2 => 2 | .b4 => 4 | .b8 => 8

/-- An address with a scaled offset (R197). -/
def offAddr (a : Word) (n : Nat) (off : BitVec 8) : Word := a + BitVec.ofNat 64 n * off.signExtend 64

def fxLoad (wr : Bool) (d : BitVec 5) (a : Opnd) (n : Nat) (off : BitVec 8) (s : State) : FalseFx :=
  .one wr (sDest d) (s.loadDelay (offAddr (s.peekOpnd a) n off) 4)

def scalarLoad (f : FLd) (fmt : ReadFmt) (s : State) : Out :=
  let n := sizeBytes f.size
  accessRun f.gd (fxLoad f.w f.d f.a n f.off) (fun s => do
    let m := s.me.base f.gd
    s.destReady (sDest f.d)
    let (a, s) ← s.opnd f.a
    s.load (offAddr a.val n f.off) n 4 f.w (sDest f.d) fmt (m ||| a.mask) false) s

/-- LD. -/
def execLd (f : FLd) (s : State) : Out := scalarLoad f (.zx (sizeBytes f.size)) s

/-- LDS. -/
def execLds (f : FLd) (s : State) : Out := scalarLoad f (.sx (sizeBytes f.size)) s

/-- ST. -/
def execSt (f : FSt) (s : State) : Out :=
  let n := sizeBytes f.size
  accessRun f.gd fxAct (fun s => do
    let m := s.me.base f.gd
    let v ← s.dataReg f.d
    let (a, s) ← s.opnd f.a
    s.store (offAddr a.val n f.off) n v.val.toNat (m ||| a.mask ||| v.mask) false) s

/-! ## LDFE, STFE (R200 to R202) -/

/-- The checks of a full-empty access: alignment, the address's high bits, then the aperture (R200). -/
def fullEmptyAddr (va : Word) : Try Unit := do
  aligned va 8
  must (decide (va.toNat < 2 ^ 56)) (.raise .transInvalid 0 va)
  must (inAperture va.toNat) (.raise .transTarget 0 va)

/-- Whether requests of other cores wait at a granule of the core (R202). -/
def State.feWaiters (s : State) (core gran : Nat) : List ReadReq :=
  (s.core core).feWait.filterMap (fun id => s.reads.find? (fun r => r.id == id &&
    (match r.bytes with
     | some pa :: _ => (match regionOf pa with | .slice c off => c == core && off / 16 == gran | _ => false)
     | _ => false)))

/-- The granule of a byte of the own slice has its bit set and no older request waits for it. -/
def State.feReady (s : State) (pa : Nat) : Bool :=
  s.fullBit pa &&
  match regionOf pa with
  | .slice c off => (s.feWaiters c (off / 16)).isEmpty
  | _ => true

/-- LDFE. With CLR the block's mask rises by the masks of the address, TAINT and the guard (R354). -/
def execLdfe (f : FLdfe) (s : State) : Out :=
  accessRun f.gd (fun s => { fxLoad f.w f.d f.a 8 f.off s with effect := f.clr }) (fun s => do
    let m := s.me.base f.gd
    both (s.destReady (sDest f.d)) do
      let (a, s) ← s.opnd f.a
      let va := offAddr a.val 8 f.off
      let am := m ||| a.mask
      fullEmptyAddr va
      let hs ← s.span .read va 8 0
      if s.ownBytes hs then
        let pa := (hs.map (·.pa)).headD 0
        if !s.feReady pa then blocked 5
        else
          let s := s.loadBytes hs va 4 f.w (sDest f.d) (.zx 8) am false
          return if f.clr then (s.setFull pa false).raiseBlock pa am else s
      else
        return s.request (.fe f.clr) (if f.w then .nowhere else sDest f.d) (.zx 8) (hs.map (fun h => some h.pa)) va am false) s

/-- STFE. -/
def execStfe (f : FStfe) (s : State) : Out :=
  accessRun f.gd fxAct (fun s => do
    let m := s.me.base f.gd
    let v ← s.dataReg f.d
    let (a, s) ← s.opnd f.a
    let va := offAddr a.val 8 f.off
    fullEmptyAddr va
    s.store va 8 v.val.toNat (m ||| a.mask ||| v.mask) true) s

/-! ## PLD (R203) -/

/-- PLD: the offset is a multiple of 8 (R203), and so is the address of an access that is made (R196; log entry 81); bytes beyond the
bound size read zero and set PWOOB. -/
def execPld (f : FPld) (s : State) : Out :=
  accessRun f.gd (fun _ => .one f.w (sDest f.d) 1) (fun s => do
    let m := s.me.base f.gd
    s.destReady (sDest f.d)
    let (a, s) ← s.opnd f.a
    let o := a.val.toNat + 8 * f.off.toNat
    match (s.launchOf s.cur.core).bind (fun l => tfind l.windows f.win.toNat) with
    | none => raise .paramUnbound
    | some (base, size) =>
      let va := BitVec.ofNat 64 (base + o)
      let k := min 8 (size - o)
      must (o % 8 == 0 && (k == 0 || va.toNat % 8 == 0)) (.raise .misalign 0 va)
      if k ≠ 0 then s.noMiss va.toNat k
      let hs ← s.span .read va k 0
      let s := if k = 0 then s else s.lookUp (some s.nextId) va.toNat k
      let s := if k < 8 then s.modMe (fun x => { x with pwoob := true }) else s
      return s.request .mem (if f.w then .nowhere else sDest f.d) (.zx 8)
        (hs.map (fun h => some h.pa) ++ List.replicate (8 - k) none) va (m ||| a.mask ||| entryMasks hs) false (sealClock hs)) s

/-! ## XMOV (R204) -/

/-- A register of one of the files that XMOV names. -/
def xreg (f : XFile) (n : Nat) : Dest :=
  match f with
  | .s => if n = 0 then .nowhere else .sreg n
  | .m => .mreg n
  | .x => .vreg .x n 0 1024
  | .y => .vreg .y n 0 1024

def xwide : XFile → Bool
  | .x => true
  | .y => true
  | _ => false

/-- The value of a source register, as the low bits of a vector. -/
def Ctx.xread (x : Ctx) (f : XFile) (n : Nat) : Lab 1024 :=
  match f with
  | .s => { val := (x.sreg n).val.setWidth 1024, mask := (x.sreg n).mask }
  | .m => { val := (x.mreg n).val.setWidth 1024, mask := (x.mreg n).mask }
  | .x => x.vreg .x n
  | .y => x.vreg .y n

/-- Where XMOV writes: a lane of a vector register from a narrow source, else the whole register. -/
def xdest (dst src : XFile) (d lane : Nat) : Dest :=
  match dst with
  | .x => if (xwide src) then .vreg .x d 0 1024 else .vreg .x d (64 * lane) 64
  | .y => if (xwide src) then .vreg .y d 0 1024 else .vreg .y d (64 * lane) 64
  | .s => xreg .s d
  | .m => xreg .m d

/-- XMOV: through the inbound port for bundles issued at t + 2 and later (R163). With W it reads and writes nothing (R204), but
waits for a pending result of the destination that it names (R160). -/
def execXmov (f : FXmov) (s : State) : Out :=
  let d := xdest f.dst f.src f.d.toNat f.lane.toNat
  slotRun f.gd (fun _ => .one f.w d 2) (fun s => do
    let m := s.me.base f.gd
    s.ready d
    if f.w then return s
    else
      let v ← (match f.a with
        | .reg n => do
          s.ready (xreg f.src n.toNat)
          return s.me.xread f.src n.toNat
        | _ => .ok (Lab.zero 1024) : Try (Lab 1024))
      let bits := if xwide f.src && !xwide f.dst then BitVec.ofNat 1024 (lane v.val 64 f.lane.toNat) else v.val
      return s.quiet false 2 false d bits (m ||| v.mask)) s

end Sys2Proof.Machine
end

