-- ==== Sys2Proof/Machine/Flags.lean ====
section
/-! DEFINITION. The sticky flags (R217): how lane results gather them, when they land, and how software clears them; with the
reduction of exact integer lanes that sets IOVF (R319). -/

namespace Sys2Proof.Machine

/-- Lane bits with the union of the lanes' flags. -/
def gather (rs : List (Nat × BitVec 8)) : List Nat × BitVec 8 :=
  (rs.map (·.1), rs.foldl (fun a r => a ||| r.2) 0)

def ofRounded (r : Rounded) : Nat × BitVec 8 := (r.bits, r.flags)

/-- Lane by lane over one, two or three vectors, with the flags of every lane. -/
def map1 (e n : Nat) (f : Nat → Nat × BitVec 8) (a : Vec) : Vec × BitVec 8 :=
  let (ls, fl) := gather ((lanes a e n).map f)
  (ofLanes e ls, fl)

def zip2 (f : Nat → Nat → Nat × BitVec 8) : List Nat → List Nat → List (Nat × BitVec 8)
  | a :: as, b :: bs => f a b :: zip2 f as bs
  | _, _ => []

def zip3 (f : Nat → Nat → Nat → Nat × BitVec 8) : List Nat → List Nat → List Nat → List (Nat × BitVec 8)
  | a :: as, b :: bs, c :: cs => f a b c :: zip3 f as bs cs
  | _, _, _ => []

def map2 (e n : Nat) (f : Nat → Nat → Nat × BitVec 8) (a b : Vec) : Vec × BitVec 8 :=
  let (ls, fl) := gather (zip2 f (lanes a e n) (lanes b e n))
  (ofLanes e ls, fl)

def map3 (e n : Nat) (f : Nat → Nat → Nat → Nat × BitVec 8) (a b c : Vec) : Vec × BitVec 8 :=
  let (ls, fl) := gather (zip3 f (lanes a e n) (lanes b e n) (lanes c e n))
  (ofLanes e ls, fl)

/-- An exact integer lane under ISAT: saturated, or reduced modulo 2^e; IOVF when it does not fit (R215, R319). -/
def intLane (sat : Bool) (e : Nat) (v : Int) : Nat × BitVec 8 :=
  let lo : Int := -(2 ^ (e - 1) : Nat)
  let hi : Int := (2 ^ (e - 1) : Nat) - 1
  (wrapNat e (if sat then saturate v lo hi else v), flagIf (decide (v < lo) || decide (hi < v)) flagIOVF)

/-- Flags that land in the current cycle stay set whatever a SYSW of the cycle clears (R217). -/
def Ctx.clearFlags (x : Ctx) (w : Word) : Ctx :=
  let fl := x.flagLands.filter (fun f : FlagLand => f.at_ == x.cycle)
  let now := fl.foldl (fun a (f : FlagLand) => a ||| f.flags) 0
  { x with fpflags := (x.fpflags &&& ~~~(w.setWidth 8)) ||| now }

end Sys2Proof.Machine
end

