-- ==== Sys2Proof/Machine/Plane.lean ====
section
/-! DEFINITION. The geometry of a plane call (R284 to R289): views, axis words, depths, the extended box and its cells, halo
units, and the registers of the plane unit (R306). -/

namespace Sys2Proof.Machine

/-! ## The call's words (R286, R287) -/

/-- An axis word. -/
structure AxisW where
  gstr : Nat
  tidx : Nat
  lead : Nat
  ext : Nat
  bound : Nat
  deriving DecidableEq, Repr

def axisOf (w : Word) : AxisW :=
  { gstr := bitsOf w.toNat 62 57, tidx := bitsOf w.toNat 56 43, lead := bitsOf w.toNat 42 34, ext := bitsOf w.toNat 33 24,
    bound := bitsOf w.toNat 23 0 }

def Call.nax (c : Call) : Nat := bitsOf (c.arg 4).toNat 9 8
def Call.l0 (c : Call) : Nat := bitsOf (c.arg 4).toNat 13 10
def Call.l1 (c : Call) : Nat := bitsOf (c.arg 4).toNat 17 14
def Call.cbase (c : Call) : Nat := bitsOf (c.arg 4).toNat 23 18
def Call.nin (c : Call) : Nat := bitsOf (c.arg 6).toNat 20 16
def Call.uin (c : Call) : Nat := bitsOf (c.arg 6).toNat 29 21
/-- V v of m7. -/
def Call.vcount (c : Call) (v : Nat) : Nat := bitsOf (c.arg 7).toNat (16 * v + 15) (16 * v)
/-- DEPTH f. -/
def Call.depth (c : Call) (f : Nat) : Nat := bitsOf (c.arg 5).toNat (6 * f + 5) (6 * f)

/-- Whether the view has an axis: O, and P axes 1 to NAX. -/
def Call.hasAxis (c : Call) (k : Nat) : Bool := decide (k ≤ c.nax)

/-- The axis words as read: an absent sub-axis reads BOUND 1, EXT 1 and zero. -/
def Call.axis (c : Call) (k : Nat) : AxisW :=
  if c.hasAxis k then axisOf (c.arg k) else { gstr := 0, tidx := 0, lead := 0, ext := 1, bound := 1 }

/-- The sizes of the four axes. -/
def Call.size (c : Call) (k : Nat) : Nat :=
  match k with
  | 0 => 512
  | 1 => 2 ^ c.l0
  | 2 => 2 ^ c.l1
  | _ => 2 ^ (8 - c.l0 - c.l1)

/-- Whether m0 to m6 keep R286 and R287, and OPLANE differs from PLANE where OPL is set (R288, check 2). -/
def Call.argsOk (c : Call) : Bool :=
  let m4 := (c.arg 4).toNat
  let view :=
    if c.nax = 1 then c.l0 = 8 && c.l1 = 0
    else if c.nax = 2 then c.l0 + c.l1 = 8 && 2 ≤ c.l0 && 2 ≤ c.l1
    else if c.nax = 3 then c.l0 + c.l1 ≤ 6 && 2 ≤ c.l0 && 2 ≤ c.l1
    else false
  decide (m4 < 2 ^ 41) && decide ((c.arg 5).toNat < 2 ^ 48) && decide ((c.arg 6).toNat < 2 ^ 31) && view &&
  decide (c.nin ≤ 16) &&
  four.all (fun k =>
    if c.hasAxis k then
      let a := c.axis k
      !(c.arg k).getLsbD 63 && decide (1 ≤ a.ext) && decide (a.ext ≤ c.size k) && decide (a.lead + a.ext ≤ c.size k) &&
      decide (1 ≤ a.bound)
    else c.arg k == 0 && c.depth (2 * k) == 0 && c.depth (2 * k + 1) == 0) &&
  !(c.opl && c.oplane == c.plane)

/-! ## Boxes (R285, R289) -/

/-- A position of the extended box. -/
structure Pos where
  c0 : Int
  c1 : Int
  c2 : Int
  c3 : Int
  deriving DecidableEq, Repr

def Pos.get (p : Pos) : Nat → Int
  | 0 => p.c0
  | 1 => p.c1
  | 2 => p.c2
  | _ => p.c3

def Pos.set (p : Pos) (k : Nat) (v : Int) : Pos :=
  match k with
  | 0 => { p with c0 := v }
  | 1 => { p with c1 := v }
  | 2 => { p with c2 := v }
  | _ => { p with c3 := v }

/-- Cells of the extended box along an axis. -/
def Call.boxLen (c : Call) (k : Nat) : Nat := c.depth (2 * k) + c.size k + c.depth (2 * k + 1)

/-- The number of cells of the box. -/
def Call.boxCells (c : Call) : Nat := c.boxLen 0 * c.boxLen 1 * c.boxLen 2 * c.boxLen 3

def Call.inPlane (c : Call) (p : Pos) : Bool := four.all (fun k => decide (0 ≤ p.get k) && decide (p.get k < c.size k))

def Call.inBox (c : Call) (p : Pos) : Bool :=
  four.all (fun k => decide (-(c.depth (2 * k) : Int) ≤ p.get k) &&
    decide (p.get k < (c.size k : Int) + (c.depth (2 * k + 1) : Nat)))

/-- The number of a position in the box, with P0 fastest and O slowest (R303). -/
def Call.boxIndex (c : Call) (p : Pos) : Nat :=
  let q (k : Nat) : Nat := (p.get k + c.depth (2 * k)).toNat
  q 1 + c.boxLen 1 * (q 2 + c.boxLen 2 * (q 3 + c.boxLen 3 * q 0))

/-- The position of a box number. -/
def Call.boxPos (c : Call) (i : Nat) : Pos :=
  let d (k : Nat) : Int := c.depth (2 * k)
  let i1 := i / c.boxLen 1
  let i2 := i1 / c.boxLen 2
  { c1 := (i % c.boxLen 1 : Nat) - d 1, c2 := (i1 % c.boxLen 2 : Nat) - d 2, c3 := (i2 % c.boxLen 3 : Nat) - d 3,
    c0 := (i2 / c.boxLen 3 : Nat) - d 0 }

/-- The plane cell at a position inside the plane (R284, R285). -/
def Call.cellIndex (c : Call) (p : Pos) : Nat :=
  p.c0.toNat * 256 + (p.c1.toNat + c.size 1 * (p.c2.toNat + c.size 2 * p.c3.toNat))

/-- The position of a plane cell. -/
def Call.cellPos (c : Call) (i : Nat) : Pos :=
  let p := i % 256
  { c0 := (i / 256 : Nat), c1 := (p % c.size 1 : Nat), c2 := (p / c.size 1 % c.size 2 : Nat),
    c3 := (p / (c.size 1 * c.size 2) : Nat) }

/-- Positions of the box outside the plane belong to the face of the lowest axis on which they are outside (R289). -/
def Call.faceOf (c : Call) (p : Pos) : Option Nat :=
  match four.find? (fun k => decide (p.get k < 0) || decide ((c.size k : Int) ≤ p.get k)) with
  | none => none
  | some k => some (2 * k + (if p.get k < 0 then 0 else 1))

/-- Halo cells of a face. -/
def Call.faceCells (c : Call) (f : Nat) : Nat :=
  let k := f / 2
  c.depth f * (four.map (fun j => if j < k then c.size j else if k < j then c.boxLen j else 1)).foldl (· * ·) 1

/-- Halo units of the eight faces. -/
def Call.faceUnits (c : Call) : Nat := ((List.range 8).map (fun f => (c.faceCells f + 511) / 512)).foldl (· + ·) 0

/-- Halo units that a call takes. -/
def Call.units (c : Call) : Nat := c.faceUnits + c.nin * c.uin

/-! ## The pool and the registers (R288, R306) -/

/-- Units held by retained faces of a core. -/
def Core.keptUnits (k : Core) : Nat := (k.planes.map (fun e => match e.2.kept with | some f => f.units | none => 0)).foldl (· + ·) 0

/-- Free halo units of a core. -/
def Core.freeUnits (k : Core) : Nat := 512 - (k.calls.map Call.units).foldl (· + ·) 0 - k.keptUnits

def UnitState.code : UnitState → Nat
  | .idle => 0 | .running => 1 | .waitTile => 2 | .waitGrant => 3 | .waitMerge => 4 | .waitUwait => 5

/-- Arrival bits of a call's inboxes: an inbox merged keeps its bit. -/
def Call.arrivals (c : Call) : Nat :=
  ((List.range c.inboxes.length).zip c.inboxes).foldl
    (fun a e => a + (if e.2.st = .arrived || e.2.st = .merged then 2 ^ e.1 else 0)) 0

def natBit (b : Bool) (n : Nat) : Nat := if b then 2 ^ n else 0

/-- `planeN.stat`. -/
def Core.planeStat (k : Core) (n : Nat) : Word :=
  let p := k.plane n
  BitVec.ofNat 64 (p.clip.toNat * 2 ^ 32 + natBit (k.planeHeld n) 7 + natBit p.kept.isSome 6 + natBit p.route 5 +
    natBit p.hlost 4 + natBit p.sat 3 + natBit p.int 2)

/-- `plane.unit`. -/
def Core.planeUnit (k : Core) : Word :=
  match k.calls with
  | [] => BitVec.ofNat 64 (k.freeUnits * 2 ^ 20)
  | c :: _ =>
    BitVec.ofNat 64 (c.routine * 2 ^ 48 + (c.upc % 4096) * 2 ^ 36 + (if c.started then c.ust.code else 0) * 2 ^ 33 +
      k.calls.length * 2 ^ 30 + k.freeUnits * 2 ^ 20 + c.arrivals)

/-- `plane.fault`. -/
def Core.planeFaultReg (k : Core) : Word :=
  let f := k.planeFault
  BitVec.ofNat 64 (natBit f.pend 40 + (match f.cause with | some c => c.code | none => 0) * 2 ^ 32 + f.routine * 2 ^ 24 +
    (f.upc % 4096) * 2 ^ 12 + f.ctx % 4 * 2 ^ 10)

end Sys2Proof.Machine
end

