-- ==== Sys2Proof/Machine/System.lean ====
section
/-! DEFINITION. System registers (R176, R177, R205 to R208, R215, R217, R235, R244, R247, R250, R252, R256, R306, R364, R377,
R411, R420, R435): their values, SYSR and SYSW; and SETFMT (R341). -/

namespace Sys2Proof.Machine

/-! ## Values -/

def fmtCode : Fmt → Nat
  | .f32 => 0 | .f16 => 1 | .bf16 => 2 | .f8e4 => 3 | .f8e5 => 4 | .i8 => 5 | .i32 => 6 | .raw => 7

/-- The value of `ringN.cfg`. -/
def Ring.cfg (r : Ring) : Word :=
  BitVec.ofNat 64 (fmtCode r.snk * 2 ^ 45 + fmtCode r.src * 2 ^ 42 + r.log2n * 2 ^ 38 + r.tile * 2 ^ 30 + r.base)

/-- The value of `ringN.ptr`. -/
def Ring.ptr (r : Ring) : Word := BitVec.ofNat 64 (r.tail.toNat * 2 ^ 32 + r.head.toNat)

/-- The value of `qN.stat` (R244). -/
def Ctx.portStat (x : Ctx) (q : Nat) : Word :=
  match x.port? q with
  | none => 0
  | some p =>
    let buf := if p.desc.out then p.pushes.length else p.buf.length
    BitVec.ofNat 64 (buf * 2 ^ 40 + p.desc.gen * 2 ^ 35 + natBit p.exh 34 + natBit p.desc.out 33 + 2 ^ 32 + p.pos % 2 ^ 32)

/-- The value of `copy.fault` (R250). -/
def Ctx.copyFaultWord (x : Ctx) : Word :=
  match x.copyFault with
  | none => BitVec.ofNat 64 (natBit x.copyPend 40)
  | some f =>
    BitVec.ofNat 64 (natBit x.copyPend 40 + f.cause.code * 2 ^ 32 + natBit f.side 31 + f.handle * 2 ^ 18 + f.drec * 2 ^ 12 +
      f.srec * 2 ^ 6)

/-- The value of `copy.queue` (R247). -/
def State.copyQueueWord (s : State) (core ctx : Nat) : Word :=
  BitVec.ofNat 64 (natBit ((s.launchOf core).map (·.strictq) |>.getD false) 8 + (s.ctx core ctx).copyq.length)

/-- The value of `trans.stat` (R252). -/
def Transpose.stat (t : Transpose) : Word :=
  BitVec.ofNat 64 (natBit t.store 15 + natBit t.w32 14 + t.blocks.length * 2 ^ 12 + t.rows.length * 2 ^ 6 + t.col)

/-- The value of `core.phase` (R411). -/
def Core.phaseWord (k : Core) : Word :=
  BitVec.ofNat 64 (natBit k.resc 48 + (match k.phase with | some (n, b) => n * 2 ^ 40 + 2 ^ 39 + b | none => 0))

/-- `trap.hnd`. -/
def Ctx.trapHnd (x : Ctx) : Word := BitVec.ofNat 64 (natBit x.inh 9 + natBit x.trapEn 8 + x.trapTidx.toNat)

/-- `trap.cause`. -/
def Ctx.trapCause (x : Ctx) : Word :=
  BitVec.ofNat 64 (natBit x.trapAsync 16 + x.trapCode.toNat * 2 ^ 8 + x.trapSlots.toNat * 2 ^ 4)

/-- `trap.pc`. -/
def Ctx.trapPcWord (x : Ctx) : Word :=
  BitVec.ofNat 64 (x.trapNds * 2 ^ 20 + natBit x.trapBank_ 18 + x.trapPc % 2 ^ 18)

/-- `trap.dpc`. -/
def Ctx.trapDpcWord (x : Ctx) : Word :=
  BitVec.ofNat 64 (natBit x.trapSwap 36 + x.trapDpc2 % 2 ^ 18 * 2 ^ 18 + x.trapDpc1 % 2 ^ 18)

/-- `trap.fmt`. -/
def Ctx.trapFmtWord (x : Ctx) : Word :=
  BitVec.ofNat 64 (natBit x.trapShadow 36 + x.trapRem * 2 ^ 32 + x.trapFmt.toNat)

/-- The trap registers by number; those above 0x201 are read in a handler only (R420). -/
def Ctx.trapReg (x : Ctx) (num : Nat) : Option Word :=
  match num with
  | 0x200 => some x.trapHnd
  | 0x201 => some x.trapMask
  | 0x202 => if x.inh then some x.trapCause else none
  | 0x203 => if x.inh then some (x.trapNo.setWidth 64) else none
  | 0x204 => if x.inh then some x.trapPcWord else none
  | 0x205 => if x.inh then some x.trapDpcWord else none
  | 0x206 => if x.inh then some x.trapAddr else none
  | 0x207 => if x.inh then some x.trapFmtWord else none
  | _ => none

/-- `ctx.status` with the BLOCK given (R176). -/
def State.statusWord (s : State) (core ctx block : Nat) : Word :=
  let x := s.ctx core ctx
  BitVec.ofNat 64 (block * 2 ^ 16 + natBit (s.det core) 8 + natBit x.pwoob 1 + natBit x.latchlost 0)

/-- The context registers of R208 and the others below 0x200. -/
def State.ctxReg (s : State) (core ctx block num : Nat) : Option Word :=
  let x := s.ctx core ctx
  let l := s.launchOf core
  match num with
  | 0x000 => some (BitVec.ofNat 64 (core * 2 ^ 24 + (((s.core core).owner.map (·.lcore)).getD 0) * 2 ^ 16 + ctx * 2 ^ 8 + x.j % 256))
  | 0x001 => some (match l with
      | none => 0
      | some l => BitVec.ofNat 64 (l.cores.length * 2 ^ 24 + l.pkt.perCore * 2 ^ 16 + l.pkt.contexts))
  | 0x002 => some (match l with
      | none => 0
      | some l => BitVec.ofNat 64 l.num)
  | 0x003 => some (BitVec.ofNat 64 x.rstack.length)
  | 0x004 => some ((l.map (·.area)).getD 0)
  | 0x010 => some (x.fmt.val.setWidth 64)
  | 0x011 => some (x.fpflags.setWidth 64)
  | 0x020 => some (s.statusWord core ctx block)
  | 0x030 => some (x.taint.setWidth 64)
  | _ => none

/-- The counters of R177 and R377, `core.phase` and the die's clock. -/
def State.coreReg (s : State) (core num : Nat) : Option Word :=
  let k := s.core core
  match num with
  | 0x300 => some (k.frame.setWidth 64)
  | 0x301 => some k.bankstall
  | 0x302 => some k.switches
  | 0x303 => some k.skip
  | 0x304 => some k.idle
  | 0x305 => some k.vsync
  | 0x306 => some k.phaseWord
  | 0x310 => some (s.die (dieOf core)).clk.d0
  | 0x311 => some (s.die (dieOf core)).clk.d1
  | 0x312 => some (s.die (dieOf core)).clk.d2
  | 0x313 => some (s.die (dieOf core)).clk.d3
  | _ => none

/-- Engine state, 0x400 to 0x4B0. -/
def State.engineReg (s : State) (core ctx num : Nat) : Option Word :=
  let k := s.core core
  let x := k.ctx ctx
  if 0x400 ≤ num && num < 0x420 then
    let r := k.ring ((num - 0x400) / 2)
    some (if num % 2 = 0 then r.cfg else r.ptr)
  else if 0x440 ≤ num && num < 0x448 then some (x.portStat (num - 0x440))
  else if 0x490 ≤ num && num < 0x4A0 then some (k.planeStat (num - 0x490))
  else match num with
    | 0x450 => some (s.copyQueueWord core ctx)
    | 0x451 => some x.copyStall
    | 0x460 => some x.copyFaultWord
    | 0x461 => some (BitVec.ofNat 64 ((x.copyFault.map (·.fidx)).getD 0))
    | 0x462 => some ((x.copyFault.map (·.faddr)).getD 0)
    | 0x470 => some x.rndPos
    | 0x480 => some k.trans.stat
    | 0x4A0 => some k.planeUnit
    | 0x4A1 => some k.planeFaultReg
    | 0x4B0 => some (x.relLast.setWidth 64)
    | _ => none

/-- A register held in the core; `block` is what BLOCK of `ctx.status` reads. -/
def State.heldReg (s : State) (core ctx block num : Nat) : Option Word :=
  if num < 0x200 then s.ctxReg core ctx block num
  else if num < 0x300 then (s.ctx core ctx).trapReg num
  else if num < 0x400 then s.coreReg core num
  else if num < 0x800 then s.engineReg core ctx num
  else none

/-- A record of the fault log as `part.flogN` (R435). -/
def FLog.word (f : FLog) : Word :=
  BitVec.ofNat 64 (f.cause.number * 2 ^ 58 + natBit f.term 57 + f.addr.toNat % 2 ^ 56)

/-- Its source as `part.fsrcN`. -/
def FLog.src (f : FLog) : Word := BitVec.ofNat 64 (f.core * 2 ^ 8 + f.ctx)

/-- A register that the IOD holds for a partition, as it stands when the IOD serves the request (R206). -/
def State.iodReg (s : State) (part num : Nat) : Option Word :=
  let p := s.part part
  if num = 0x800 then some (BitVec.ofNat 64 (natBit p.caplow 8 + p.step))
  else if num = 0x80F then some (p.relAccepted ++ p.relRefused)
  else if 0x810 ≤ num && num < 0x820 then some (tget 0 p.relLog (num - 0x810))
  else if 0x820 ≤ num && num < 0x828 then some (((tfind p.flog (num - 0x820)).map FLog.word).getD 0)
  else if 0x828 ≤ num && num < 0x830 then some (((tfind p.flog (num - 0x828)).map FLog.src).getD 0)
  else if num = 0x830 then some p.fcount
  else if num = 0x831 then some (BitVec.ofNat 64 (p.replayKind.toNat * 2 ^ 56 + p.replayPos.toNat))
  else if num = 0x840 then some s.devStamp
  else none

/-! ## SYSR (R206) -/

/-- A request for a register of the IOD leaves the core. -/
def State.requestReg (s : State) (num : Nat) (dest : Dest) (m : Mask) : State :=
  let r : ReadReq :=
    { id := s.nextId, core := s.cur.core, ctx := s.cur.ctx, kind := .sysr num, dest := dest, fmt := .zx 8, bytes := [],
      known := [], va := 0, mask := m, acquire := false, clk := Clock.zero, reply := none, rclk := Clock.zero }
  { s with nextId := s.nextId + 1, reads := s.reads ++ [r] }

/-- CLIP of `planeN.stat` is cleared by a read (R306). -/
def State.readClears (s : State) (num : Nat) : State :=
  if 0x490 ≤ num && num < 0x4A0 then s.modPlane s.cur.core (num - 0x490) (fun p => { p with clip := 0 }) else s

/-- The cycles after issue in which SYSR's destination changes. -/
def fxSysr (f : FSR) (_ : State) : FalseFx :=
  .one f.w (sDest f.d) (if f.num.toNat < 0x800 then 3 else 1)

/-- SYSR: every value carries mask zero, raised by TAINT and the guard (R352). -/
def execSysr (f : FSR) (s : State) : Out :=
  slotRun f.gd (fxSysr f) (fun s => do
    let m := s.me.base f.gd
    let num := f.num.toNat
    s.destReady (sDest f.d)
    if num < 0x800 then
      match s.heldReg s.cur.core s.cur.ctx 0 num with
      | none => raise .illegal
      | some v => return (s.readClears num).writeS 2 f.w f.d v m
    else match s.iodReg (s.partOf s.cur.core) num with
      | none => raise .illegal
      | some _ => return s.requestReg num (if f.w then .nowhere else sDest f.d) m) s

/-! ## SYSW (R207) -/

/-- Whether the bits of a value outside a register's fields are zero (R9). -/
def keepsRsv (v : Word) (fields : Nat) : Bool := v.toNat &&& fields == v.toNat

/-- The write of a register with a field that software may write; none where SYSW raises ILLEGAL. -/
def State.sysWrite (s : State) (num : Nat) (v : Word) : Option State :=
  let x := s.me
  if num = 0x011 then
    if keepsRsv v 0xFF then some (s.modMe (fun x => x.clearFlags v)) else none
  else if num = 0x020 then
    if keepsRsv v 0xF0103 then
      some (s.modMe (fun x => { x with pwoob := x.pwoob && !v.getLsbD 1, latchlost := x.latchlost && !v.getLsbD 0 }))
    else none
  else if num = 0x200 then
    let targets := ((s.imageOf s.cur.core).map (·.targets)).getD []
    if !keepsRsv v 0x3FF || (v.getLsbD 8 && decide (targets.length ≤ v.toNat % 256)) then none
    else some (s.modMe (fun x => { x with trapEn := v.getLsbD 8, trapTidx := v.setWidth 8 }))
  else if num = 0x201 then some (s.modMe (fun x => { x with trapMask := v }))
  else if num = 0x204 then
    if x.inh && keepsRsv v 0x37FFFF then
      some (s.modMe (fun x =>
        { x with trapPc := v.toNat % 2 ^ 18, trapNds := 0
                 bankTrap := x.bankTrap.map (fun b => { b with nds := 0, tgt := none, retPending := false }) }))
    else none
  else if num = 0x306 then
    if keepsRsv v 0x1FF8001FFFFFF then some (s.modMyCore (fun k => { k with resc := k.resc && !v.getLsbD 48 })) else none
  else if 0x490 ≤ num && num < 0x4A0 then
    if keepsRsv v 0xFFFFFFFF000000FC then
      some (s.modPlane s.cur.core (num - 0x490) (fun p =>
        { p with route := p.route && !v.getLsbD 5, hlost := p.hlost && !v.getLsbD 4, sat := p.sat && !v.getLsbD 3 }))
    else none
  else none

/-- SYSW. Registers whose every field is RO or RSV, those of the IOD among them, raise ILLEGAL. -/
def execSysw (f : FSW) (s : State) : Out :=
  slotRun f.gd fxAct (fun s => do
    let v ← s.dataReg f.d
    match s.sysWrite f.num.toNat v.val with
    | none => raise .illegal
    | some t => return t) s

/-! ## SETFMT (R173, R341, R351) -/

/-- SETFMT governs from t + 5. -/
def execSetfmt (f : FA) (s : State) : Out :=
  slotRun f.gd fxAct (fun s => do
    let m := s.me.base f.gd
    let (v, s) ← s.opnd f.a
    if 16 ≤ v.val.toNat then raise .illegal
    else return s.modMe (fun x =>
      { x with shadows := x.shadows ++ [{ at_ := x.cycle + 5, fmt := { val := v.val.setWidth 4, mask := m ||| v.mask } }] })) s

end Sys2Proof.Machine
end

