-- ==== Sys2Proof/Machine/Feed.lean ====
section
/-! DEFINITION. Slot 3: rings, stream ports, layout records, copies, handles, the transpose unit, releases, publication and the
random position (R257 to R279, R362, R407). -/

namespace Sys2Proof.Machine

/-! ## Shared -/

/-- The mask that a binding or a command captures from its operands (R358). -/
def State.capture (s : State) (gd : Guard) (m : Mask) : Mask := s.me.base gd ||| s.me.fmt.mask ||| m

def fmtOfCode : Nat → Fmt
  | 0 => .f32 | 1 => .f16 | 2 => .bf16 | 3 => .f8e4 | 4 => .f8e5 | 5 => .i8 | 6 => .i32 | _ => .raw

/-- A pair of format fields that joins RAW with another code is refused (R223). -/
def pairOk (a b : Fmt) : Bool := (a == .raw) == (b == .raw)

/-- An offset of a 64-byte record in the own slice. -/
def recordOffset (o : Word) : Try Unit := do
  must (o.toNat % 64 == 0) (.raise .misalign 0 0)
  must (decide (o.toNat ≤ 0x017FFFC0)) (.raise .sliceRange 0 0)

/-- The 64 bytes at an offset of the own slice, with the mask of their block, under the context's phase checks. -/
def State.readRecord (s : State) (o : Word) : Try (BitVec 512 × Mask) := do
  let pas := (List.range 64).map (fun i => slicePa s.cur.core (o.toNat + i))
  let hs : List Hit := pas.map (fun a => { pa := a, mask := 0 })
  match s.escapes false hs 0 with
  | some i => .error (.raise .phaseEscape 0 (ownVa (o.toNat + i)))
  | none => return (BitVec.ofNat 512 (leValue (s.peeks pas)), s.hitsMask hs)

/-- A result of slot 3 with a value of the core: it carries the masks of its operands, TAINT and the guard (R352). -/
def fxStat (wr : Bool) (md : BitVec 3) : State → FalseFx := fxM false wr md

def State.mReady (s : State) (md : BitVec 3) : Try Unit := s.destReady (.mreg md.toNat)

/-! ## Rings (R261 to R263) -/

/-- A configuration as RSET and `.ring` write it, if it is valid (R235, R236). -/
def ringOf (v : Word) (fmt : Lab 4) (bm : Mask) : Option Ring :=
  let n := v.toNat
  let r : Ring :=
    { base := bitsOf n 18 0, tile := bitsOf n 37 30, log2n := bitsOf n 41 38, src := fmtOfCode (bitsOf n 44 42),
      snk := fmtOfCode (bitsOf n 47 45), head := 0, tail := 0, resv := 0, done := [], fmt := fmt, bmask := bm }
  if bitsOf n 63 48 = 0 ∧ bitsOf n 29 19 = 0 ∧ 1 ≤ r.log2n ∧ 1 ≤ r.tile ∧ r.tile ≤ 128 ∧
     64 * (r.base + r.tile * 2 ^ r.log2n) ≤ sliceBytes ∧ pairOk r.src r.snk
  then some r else none

/-- Whether a ring is idle (R239). -/
def Core.ringIdle (k : Core) (n : Nat) : Bool :=
  !k.ringHeld n && (k.ring n).resv == (k.ring n).tail &&
  !k.ctxs.any (fun e => e.2.copyq.any (fun c => c.destRing == some n || c.srcRing == some n))

/-- RSET. -/
def execRset (f : FRset) (s : State) : Out :=
  accessRun f.gd fxAct (fun s => do
    let fmt := s.me.fmt
    let (a, s) ← s.opnd3 f.a
    let n := f.ring.toNat
    let bm := s.capture f.gd a.mask
    let new := if a.val = 0 then some { Ring.reset with bmask := bm } else ringOf a.val fmt bm
    match new with
    | none => raise .illegal
    | some r =>
      must (s.myCore.ringIdle n) (.raise .ringBusy 0 0)
      return s.modRing s.cur.core n (fun _ => r)) s

/-- RPUSH: it pushes all of its count or nothing, and never blocks (R262) but for an LDA of an earlier bundle (R388; log entry 21). -/
def execRpush (f : FE2) (s : State) : Out :=
  accessRun f.gd (fxM true f.w f.md) (fun s => do
    let m := s.me.base f.gd
    s.mReady f.md
    let (r, s) ← s.obj f.a 16
    let (b, s) ← s.opnd3 f.b
    let n := b.val.toNat
    let ring := s.myCore.ring r.1
    must (ring.configured && n != 0 && decide (n ≤ ring.cap)) (.raise .illegal 0 0)
    let m := m ||| r.2 ||| b.mask
    if ring.resv != ring.tail || decide (ring.cap < ring.held + n) then return s.writeM f.w f.md 0 m
    else
      let new := (List.range n).foldl (fun (x : Ring) i => x.written (ring.tail + BitVec.ofNat 32 i)) (ring.reserve n)
      return (s.modRing s.cur.core r.1 (fun _ => new)).writeM f.w f.md b.val m) s

/-- RSTAT. -/
def execRstat (f : FRstat) (s : State) : Out :=
  slotRun f.gd (fxStat f.w f.md) (fun s => do
    let m := s.me.base f.gd
    s.mReady f.md
    let (r, s) ← s.obj f.a 16
    let ring := s.myCore.ring r.1
    let v : Word := match f.sel with
      | .cfg => ring.cfg
      | .ptr => ring.ptr
      | .resv => ring.resv.setWidth 64
    return s.writeM f.w f.md v (m ||| r.2)) s

/-! ## Stream ports (R264 to R266) -/

/-- One level of a descriptor. -/
def levelOf (r : BitVec 512) (l : Nat) : Level :=
  { stride := r.extractLsb' (64 + 64 * l) 32, count := (r.extractLsb' (96 + 64 * l) 32).toNat }

/-- The span of offsets that a walk adds to its base: least and greatest. -/
def walkSpan : List Level → Int × Int
  | [] => (0, 0)
  | l :: ls =>
    let r := walkSpan ls
    let d : Int := ((l.count : Int) - 1) * l.stride.toInt
    (r.1 + min 0 d, r.2 + max 0 d)

/-- A stream descriptor, if it is valid (R240, R241). -/
def streamOf (r : BitVec 512) : Option StreamDesc :=
  let byte (i : Nat) : Nat := (r.extractLsb' (8 * i) 8).toNat
  let levels := four.map (levelOf r)
  let width : Option Width := match byte 0x2C with
    | 0 => some .w256
    | 1 => some .w512
    | 2 => some .w1024
    | _ => none
  match width with
  | none => none
  | some w =>
    let d : StreamDesc :=
      { base := (r.extractLsb' 0 64).toNat, levels := levels, out := (byte 0x28).testBit 0, repeat_ := (byte 0x28).testBit 1,
        gen := byte 0x29, src := fmtOfCode (byte 0x2A), snk := fmtOfCode (byte 0x2B), width := w }
    let sp := walkSpan levels
    let lo : Int := d.base + sp.1
    let hi : Int := d.base + sp.2 + (d.bytes : Nat)
    if d.base < 2 ^ 25 ∧ d.base % 16 = 0 ∧ levels.all (fun l => l.stride.toInt % 16 = 0 && 1 ≤ l.count && l.count ≤ 65536) ∧
       d.total < 2 ^ 32 ∧ byte 0x28 < 4 ∧ d.gen < 32 ∧ byte 0x2A < 8 ∧ byte 0x2B < 8 ∧ r.extractLsb' 360 152 = 0 ∧
       pairOk d.src d.snk ∧ 0 ≤ lo ∧ hi ≤ (sliceBytes : Int)
    then some d else none

/-- Whether a generator feeds a port of the core other than one named. -/
def Core.genUsed (k : Core) (gen ctx port : Nat) : Bool :=
  k.ctxs.any (fun e => e.2.ports.any (fun p => p.2.desc.gen == gen && !(e.1 == ctx && p.1 == port)))

/-- What SUNBIND waits for (R265, R340). -/
def State.unbindReady (s : State) (q : Nat) : Bool :=
  !s.scanning q && (match s.me.port? q with
    | none => true
    | some p => !p.desc.out || p.pushes.isEmpty)

/-- A port as a binding makes it. -/
def Port.bound (d : StreamDesc) (fmt : Lab 4) (bm : Mask) (phase : Option (Nat × Nat)) (first num : Nat := 0) : Port :=
  { desc := d, pos := 0, exh := false, fmt := fmt, bmask := bm, buf := [], next := 0, pushes := [], phase := phase,
    dead := false, first := first, num := num }

/-- SBIND: the whole effect of SUNBIND comes first, so it waits for the old binding before it reads the descriptor. -/
def execSbind (f : FPortA) (s : State) : Out :=
  slotRun f.gd fxAct (fun s => do
    let fmt := s.me.fmt
    let q := f.port.toNat
    must (s.unbindReady q) (.block 1)
    both s.afterLda do
      let (a, s) ← s.opnd3 f.a
      recordOffset a.val
      let (r, rm) ← s.readRecord a.val
      match streamOf r with
      | none => raise .illegal
      | some d =>
        must (!s.myCore.genUsed d.gen s.cur.ctx q) (.raise .illegal 0 0)
        let p := Port.bound d fmt (s.capture f.gd (a.mask ||| rm)) s.myCore.phase (s.myCore.ticks + 2) s.nextId
        return s.modMe (fun x => { x with ports := tput x.ports q p })) s

/-- SUNBIND. -/
def execSunbind (f : FPort) (s : State) : Out :=
  slotRun f.gd fxAct (fun s => do
    let q := f.port.toNat
    must (s.unbindReady q) (.block 1)
    return s.modMe (fun x => { x with ports := terase x.ports q })) s

/-- A port with its position set (R266). -/
def Port.seek (p : Port) (v : Nat) : Port :=
  let t := p.desc.total
  let p := { p with buf := [] }
  if v < t then { p with pos := v, next := v, exh := false }
  else if p.desc.repeat_ then { p with pos := v % t, next := v % t, exh := false }
  else { p with pos := t, next := t, exh := true }

/-- SCFG.seek. -/
def execScfgSeek (f : FPortA) (s : State) : Out :=
  slotRun f.gd fxAct (fun s => do
    let q := f.port.toNat
    let (a, s) ← needed (s.opnd3 f.a) (must (s.unbindReady q) (.block 1))
    match s.me.port? q with
    | none => raise .illegal
    | some p =>
      must (s.unbindReady q) (.block 1)
      return s.modMe (fun x => { x with ports := tput x.ports q (p.seek a.val.toNat) })) s

/-- SCFG.rep. -/
def execScfgRep (f : FPortA) (s : State) : Out :=
  slotRun f.gd fxAct (fun s => do
    let q := f.port.toNat
    let (a, s) ← needed (s.opnd3 f.a) (must (!s.scanning q) (.block 1))
    match s.me.port? q with
    | none => raise .illegal
    | some p =>
      must (decide (a.val.toNat < 2)) (.raise .illegal 0 0)
      must (!s.scanning q) (.block 1)
      let p := { p with desc := { p.desc with repeat_ := a.val.getLsbD 0 } }
      return s.modMe (fun x => { x with ports := tput x.ports q p })) s

/-! ## Layout records and copies (R267 to R272) -/

/-- CREC. -/
def execCrec (f : FAB) (s : State) : Out :=
  accessRun f.gd fxAct (fun s => do
    let (a, s) ← s.obj f.a 64
    let (b, s) ← s.opnd3 f.b
    recordOffset b.val
    let (r, _) ← s.readRecord b.val
    return s.modMyCore (fun k => { k with layouts := tset 0 k.layouts a.1 r })) s

/-- Whether the command and the operands of a COPY keep R268. -/
def copyLegal (cmd src dst : Word) : Bool :=
  let c := cmd.toNat
  decide (bitsOf c 63 29 = 0) && decide (cmdDkind cmd ≤ 2) && decide (cmdSkind cmd ≤ 1) &&
  (cmdDkind cmd == 0 || cmdDrec cmd == 0) && (cmdSkind cmd == 0 || cmdSrec cmd == 0) && (cmdShv cmd || cmdShnd cmd == 0) &&
  (cmdDkind cmd == 0 || cmdSkind cmd == 0) &&
  (cmdSkind cmd == 0 || decide (src.toNat < 16)) &&
  (cmdDkind cmd != 1 || decide (dst.toNat < 16)) &&
  (cmdDkind cmd != 2 || (decide (dst.toNat < 2 ^ 19) && dst.toNat % 16 == 0))

/-- The launch's queue mode (R247). -/
def State.strict (s : State) : Bool := ((s.launchOf s.cur.core).map (·.strictq)).getD false

/-- The context's copy queue has room for one more entry (R247, R269). -/
def State.queueRoom (s : State) : Try Unit :=
  must (decide (s.me.copyq.length < 16)) (if s.strict then .raise .copyqFull 0 0 else .block 3)

/-- The operands of an operation of the copy queue; while one is pending a full queue blocks with its own code (R160). -/
def State.queueOpnd (s : State) (o : Opnd) : Try (Lab 64 × State) := needed (s.opnd3 o) s.queueRoom

/-- The same for a handle, whose number is checked before an entry is sought (R273). -/
def State.queueHandle (s : State) (o : Opnd) : Try ((Nat × Mask) × State) :=
  match s.obj o 64 with
  | .error (.block n) => .error ((Halt.block n).join s.queueRoom)
  | r => r

/-- The same for an operand in m[D]. -/
def State.queueData (s : State) (d : BitVec 3) : Try (Lab 64) := needed (s.mdata d.toNat) s.queueRoom

/-- An operation takes the next entry of the context's copy queue (R247, R269). -/
def State.enqueue (s : State) (kind : CopyKind) (m : Mask) : Try State := do
  s.queueRoom
  let e : CopyEntry :=
    { uid := s.nextId, kind := kind, cmask := m, stage := .queued, k := 0, total := 0, srec := 0, drec := 0, tile0 := 0,
      tiles := 0, popped := 0, fault := none, reported := false, data := [], dmask := 0, egress := [],
      phase := s.myCore.phase }
  return { s with nextId := s.nextId + 1 }.modMe (fun x => { x with copyq := x.copyq ++ [e] })

/-- COPY: D names the m register that holds the destination. -/
def execCopy (f : FCopy) (s : State) : Out :=
  accessRun f.gd fxAct (fun s => do
    let (cmd, s) ← s.queueOpnd f.b
    let (src, s) ← s.queueOpnd f.a
    let dst ← s.queueData f.md
    must (copyLegal cmd.val src.val dst.val) (.raise .illegal 0 0)
    s.enqueue (.copy cmd.val src.val dst.val f.fill) (s.capture f.gd (cmd.mask ||| src.mask ||| dst.mask))) s

/-- The entry whose fault the fault registers report. -/
def Ctx.reportedEntry (x : Ctx) : Option CopyEntry := x.copyq.find? (fun e => e.reported && e.stage == .faulted)

/-- An entry that goes on from its element K; under PATCH the records are read and checked again (R251). -/
def CopyEntry.goOn (e : CopyEntry) (k : Core) (patch : Bool) : CopyEntry :=
  let e := { e with stage := .running, fault := none, reported := false }
  match patch, e.kind with
  | true, .copy cmd _ _ _ => { e with total := 0, srec := tget 0 k.layouts (cmdSrec cmd), drec := tget 0 k.layouts (cmdDrec cmd) }
  | _, _ => e

/-- CRESUME ends a pending fault; with PEND clear it changes nothing (R271). -/
def resumeCopy (gd : Guard) (g : State → CopyEntry → State) (s : State) : Out :=
  slotRun gd fxAct (fun s =>
    if !s.me.copyPend then .ok s
    else
      let t := match s.me.reportedEntry with
        | none => s
        | some e => g s e
      .ok (t.modMe (fun x => { x with copyPend := false }))) s

/-- CRESUME.patch. -/
def execCresumePatch (f : FZ) (s : State) : Out :=
  resumeCopy f.gd (fun s e => s.modEntry s.cur.core s.cur.ctx e.uid (fun e => e.goOn s.myCore true)) s

/-- CRESUME.retry. -/
def execCresumeRetry (f : FZ) (s : State) : Out :=
  resumeCopy f.gd (fun s e => s.modEntry s.cur.core s.cur.ctx e.uid (fun e => e.goOn s.myCore false)) s

/-- CRESUME.skip. -/
def execCresumeSkip (f : FZ) (s : State) : Out := resumeCopy f.gd (fun s e => s.skipEntry s.cur.core s.cur.ctx e) s

/-- CSTAT. -/
def execCstat (f : FCstat) (s : State) : Out :=
  slotRun f.gd (fxStat f.w f.md) (fun s => do
    s.mReady f.md
    let v : Word := match f.sel with
      | .queue => s.copyQueueWord s.cur.core s.cur.ctx
      | .fault => s.me.copyFaultWord
      | .stall => s.me.copyStall
    return s.writeM f.w f.md v (s.me.base f.gd)) s

/-- BCLEAR (R273). -/
def execBclear (f : FAB) (s : State) : Out :=
  accessRun f.gd fxAct (fun s => do
    let (v, s) ← s.queueOpnd f.a
    let (h, s) ← s.queueHandle f.b
    let va := v.val &&& ~~~0xFFF
    let n := v.val.toNat % 4096 + 1
    must (inAperture va.toNat) (.raise .transTarget 0 va)
    match aperture (s.launchCores s.cur.core) s.cur.core va.toNat with
    | .error c => .error (.raise c 0 va)
    | .ok pa =>
      must (decide (pa % 0x2000000 + 4096 * n ≤ sliceBytes)) (.raise .sliceRange 0 va)
      s.enqueue (.bclear va.toNat n h.1) (s.capture f.gd (v.mask ||| h.2))) s

/-! ## Release and publication (R362, R407) -/

/-- RELEASE: D names the m register that holds the offset. -/
def execRelease (f : FRel) (s : State) : Out :=
  accessRun f.gd fxAct (fun s => do
    let (cmd, s) ← s.queueOpnd f.b
    let (src, s) ← s.queueOpnd f.a
    let off ← s.queueData f.md
    let c := cmd.val.toNat
    let len := bitsOf c 23 0
    must (decide (bitsOf c 63 38 = 0) && decide (bitsOf c 26 24 = 0)) (.raise .illegal 0 0)
    must (len != 0 && len % 16 == 0 && decide (len ≤ 1048576)) (.raise .illegal 0 0)
    must (src.val.toNat % 16 == 0) (.raise .misalign 0 src.val)
    must (off.val.toNat % 16 == 0) (.raise .misalign 0 0)
    s.enqueue (.release (bitsOf c 31 27) len (bitsOf c 37 32) src.val off.val)
      (s.capture f.gd (cmd.mask ||| src.mask ||| off.mask))) s

/-- PUBLISH. -/
def execPublish (f : FA) (s : State) : Out :=
  accessRun f.gd fxAct (fun s => do
    let (a, s) ← s.queueOpnd f.a
    let v := a.val.toNat
    let hv := v.testBit 8
    must (decide (v < 2 ^ 15) && decide (bitsOf v 7 4 = 0)) (.raise .illegal 0 0)
    must ((tfind (s.part (s.partOf s.cur.core)).pubwins (v % 16)).isSome) (.raise .pubUnbound 0 0)
    s.enqueue (.publish (v % 16) (if hv then some (bitsOf v 14 9) else none)) (s.capture f.gd a.mask)) s

/-! ## Handles (R274 to R276) -/

def hstateOf : Nat → HState
  | 0 => .free | 1 => .filling | 2 => .full | _ => .draining

/-- HSET. -/
def execHset (f : FAB) (s : State) : Out :=
  slotRun f.gd fxAct (fun s => do
    let (h, s) ← s.obj f.a 64
    let (v, s) ← s.opnd3 f.b
    must (decide (v.val.toNat < 4)) (.raise .illegal 0 0)
    must ((s.myCore.handle h.1).st != .filling) (.raise .handleState 0 0)
    return s.setHandle s.cur.core h.1 (fun x =>
      { st := hstateOf v.val.toNat, skipped := x.skipped && v.val != 0 })) s

/-- A wait for a handle: the code returned is the one seen at issue. -/
def handleWait (gd : Guard) (wr : Bool) (md : BitVec 3) (a : Opnd) (want : HState) (claim : Bool) (s : State) : Out :=
  slotRun gd (fxM claim wr md) (fun s => do
    let m := s.me.base gd
    both (s.mReady md) do
      let (h, s) ← s.obj a 64
      let x := s.myCore.handle h.1
      must (x.st == want) (.block 4)
      let s := if claim then s.setHandle s.cur.core h.1 (fun x => { x with st := .draining }) else s
      return s.writeM wr md (BitVec.ofNat 64 x.code) (m ||| h.2)) s

/-- HWAIT.full and HWAIT.free. -/
def execHwait (f : FHwait) (s : State) : Out :=
  handleWait f.gd f.w f.md f.a (match f.sel with | .full => .full | .free => .free) false s

/-- HWAIT.claim. -/
def execHwaitClaim (f : FE1) (s : State) : Out := handleWait f.gd f.w f.md f.a .full true s

/-- HQUERY. -/
def execHquery (f : FE1) (s : State) : Out :=
  slotRun f.gd (fxStat f.w f.md) (fun s => do
    let m := s.me.base f.gd
    s.mReady f.md
    let (h, s) ← s.obj f.a 64
    return s.writeM f.w f.md (BitVec.ofNat 64 (s.myCore.handle h.1).code) (m ||| h.2)) s

/-! ## The transpose unit (R252, R253, R277, R278) -/

/-- Columns and rows of a block. -/
def transCount (w32 : Bool) : Nat := if w32 then 32 else 64

/-- A configuration, if it is valid. -/
def transOf (v : Word) : Option Transpose :=
  let n := v.toNat
  let base := bitsOf n 24 0
  let pitch := bitsOf n 47 32
  let store := n.testBit 26
  let w32 := n.testBit 25
  let ok := decide (bitsOf n 63 48 = 0) && decide (bitsOf n 31 27 = 0) &&
    (if store then base % 16 == 0 && decide (8 ≤ pitch) &&
        decide (base + (transCount w32 - 1) * 16 * pitch + 128 ≤ sliceBytes)
     else base == 0 && pitch == 0)
  if ok then some { Transpose.reset with store := store, w32 := w32, base := base, pitch := pitch } else none

/-- TRCFG. -/
def execTrcfg (f : FA) (s : State) : Out :=
  slotRun f.gd fxAct (fun s => do
    let (a, s) ← s.opnd3 f.a
    match transOf a.val with
    | none => raise .illegal
    | some t => return s.modMyCore (fun k => { k with trans := t })) s

/-- The unit after one more row; `num` is the number of the next request. -/
def Transpose.push (t : Transpose) (r : Lab 1024) (now ctx : Nat) (phase : Option (Nat × Nat)) (num : Nat) : Transpose :=
  let rows := t.rows ++ [r]
  if rows.length < transCount t.w32 then { t with rows := rows }
  else { t with rows := [], blocks := t.blocks ++ [{ rows := rows, doneAt := now, ctx := ctx, phase := phase, num := num }] }

/-- TRPUSH: held in stall cycles while both buffers hold undelivered blocks. -/
def execTrpush (f : FTrpush) (s : State) : Out :=
  accessRun f.gd fxAct (fun s => do
    s.ready (.vreg f.file f.r.toNat 0 1024)
    let r := s.me.vreg f.file f.r.toNat
    let k := s.myCore
    must (decide (k.trans.blocks.length < 2)) .stall
    let row : Lab 1024 := { val := r.val, mask := s.me.base f.gd ||| r.mask }
    return s.modMyCore (fun k => { k with trans := k.trans.push row k.ticks s.cur.ctx k.phase s.nextId })) s

/-- Column c of a block: element c of each row, with the masks of all rows. -/
def TBlock.column (b : TBlock) (w32 : Bool) (c : Nat) : Lab 1024 :=
  let e := if w32 then 32 else 16
  { val := ofLanes e (b.rows.map (fun r => lane r.val e c)), mask := unionMasks (b.rows.map (·.mask)) }

/-- Whether the next column of the oldest complete block is ready at a cycle. -/
def Transpose.ready (t : Transpose) (now : Nat) : Bool :=
  match t.blocks with
  | [] => false
  | b :: _ => decide (max b.doneAt t.freeAt + 8 + t.col ≤ now)

/-- The unit after its next column has been delivered. -/
def Transpose.delivered (t : Transpose) (now : Nat) : Transpose :=
  if t.col + 1 < transCount t.w32 then { t with col := t.col + 1 }
  else { t with col := 0, blocks := t.blocks.drop 1, freeAt := now }

/-- The unit in a cycle `at_`, in which what it has done in an earlier one shows (R259). -/
def Transpose.settled (t : Transpose) (at_ : Nat) : Transpose :=
  match t.late with
  | none => t
  | some (drop, now) =>
    if at_ ≤ now then t
    else
    let t := { t with late := none }
    if drop then { t with col := 0, blocks := t.blocks.drop 1, freeAt := now } else t.delivered now

/-- TRPULL. -/
def execTrpull (f : FTrpull) (s : State) : Out :=
  let d := Dest.vreg f.file f.r.toNat 0 1024
  slotRun f.gd (fun _ => { FalseFx.one f.w d 3 with effect := true }) (fun s => do
    let m := s.me.base f.gd
    s.destReady d
    let k := s.myCore
    match k.trans.store, k.trans.blocks with
    | true, _ => raise .xposeOrder
    | false, [] => raise .xposeOrder
    | false, b :: _ =>
      must (k.trans.ready k.ticks) .stall
      let c := b.column k.trans.w32 k.trans.col
      let s := s.modMyCore (fun k => { k with trans := k.trans.delivered k.ticks })
      return s.quiet false 3 f.w d c.val (m ||| c.mask)) s

/-! ## The random position (R279) -/

/-- RNDSEEK. -/
def execRndseek (f : FA) (s : State) : Out :=
  slotRun f.gd fxAct (fun s => do
    let (a, s) ← s.opnd3 f.a
    return s.modMe (fun x => { x with rndPos := a.val, rndHeld := 0 })) s

/-- RNDSTAT. -/
def execRndstat (f : FRnd) (s : State) : Out :=
  slotRun f.gd (fxStat f.w f.md) (fun s => do
    s.mReady f.md
    let v : Word := match f.sel with
      | .pos => s.me.rndPos
      | .held => BitVec.ofNat 64 s.me.rndHeld
    return s.writeM f.w f.md v (s.me.base f.gd)) s

end Sys2Proof.Machine
end

