-- ==== Sys2Proof/Machine/Calls.lean ====
section
/-! DEFINITION. Slot 3, plane calls: MLOAD (R342) and MCALL (R288, R343), and the microprogram digest (R442). -/

namespace Sys2Proof.Machine

/-! ## The routine table (R310) -/

def Core.routine (k : Core) (i : Nat) : Nat × Nat := tget (0, 0) k.routines i

/-- Whether two runs of micro-words meet. -/
def runsMeet (a b : Nat × Nat) : Bool := a.2 != 0 && b.2 != 0 && decide (a.1 < b.1 + b.2) && decide (b.1 < a.1 + a.2)

/-- A routine installed at an entry: its words are written, the entry takes START and LEN, and every other entry that meets the words is
emptied. -/
def Core.install (k : Core) (i start : Nat) (ws : List (BitVec 128)) : Core :=
  let run := (start, ws.length)
  let store := ((List.range ws.length).zip ws).foldl (fun t e => tset 0 t (start + e.1) e.2) k.ustore
  let rest := k.routines.filter (fun e => e.1 != i && !runsMeet e.2 run)
  { k with ustore := store, routines := tput rest i run }

/-- SHA3-256 over the routine table, each entry as bits [23:0] of R310, and the microprogram store of a core (R442). -/
def Core.microDigest (k : Core) : BitVec 256 :=
  let entries := (List.range 256).flatMap (fun i => bytesOf 4 ((k.routine i).1 % 2 ^ 12 + (k.routine i).2 % 2 ^ 12 * 2 ^ 12))
  let words := (List.range 4096).flatMap (fun i => bytesOf 16 (tget 0 k.ustore i).toNat)
  sha3 (entries ++ words)

/-! ## MLOAD (R342) -/

/-- A micro-word routine is complete at a core: the launch counts it, logical core 0 has its digest taken, and the manifest has changed
(R441, R442). -/
def State.installRoutine (s : State) (core i start : Nat) (ws : List (BitVec 128)) : State :=
  let s := s.modCore core (fun k => k.install i start ws)
  match (s.core core).owner with
  | none => s
  | some o =>
    let d := (s.core core).microDigest
    (s.modLaunch o (fun l => { l with mloads := l.mloads + 1, microDigest := if o.lcore = 0 then d else l.microDigest })).modPart o.part
      (fun p => { p with seq := p.seq + 1 })

/-- The checks of every word of an MLOAD, each a 16-byte load. -/
def State.wordSpans (s : State) (va : Word) : Nat → Nat → Try (List Hit)
  | _, 0 => .ok []
  | i, n + 1 => do
    let hs ← s.span .read (va + BitVec.ofNat 64 (16 * i)) 16 0
    let rest ← s.wordSpans va (i + 1) n
    return hs ++ rest

/-- Words of 16 bytes each. -/
def wordsFrom : Nat → List Byte → List (BitVec 128)
  | 0, _ => []
  | n + 1, bs => BitVec.ofNat 128 (leValue (bs.take 16)) :: wordsFrom n (bs.drop 16)

/-- A write that an earlier slot of the bundle in focus has sent. -/
def State.sentNow (s : State) (w : WriteReq) : Bool :=
  decide (s.cur.base ≤ w.id) && w.ofCtx && w.core == s.cur.core && w.ctx == s.cur.ctx

/-- Whether a write that a read of the core must see, other than one of this bundle, is still to be performed (R474). -/
def State.earlierWaits (s : State) (pas : List Nat) : Bool :=
  s.writes.any (fun w => !w.performed && !w.held && (s.die (dieOf s.cur.core)).clk.covers w.stamp && w.touches pas && !s.sentNow w)

/-- A byte as a read of slot 3 finds it: an earlier slot's store to memory comes before it (R366, R369). -/
def State.peekNow (s : State) (a : Nat) : Byte :=
  match (s.writes.filter (fun w => !w.performed && s.sentNow w)).reverse.findSome? (fun w => w.cells.find? (fun c => c.1 == a)) with
  | some c => c.2
  | none => s.peek a

/-- Whether an access of an earlier bundle of the context to the bytes is not performed (R369), or a write to come that a read must see, or
the core's die lags behind the bytes' homes or what the read acquires (R378, R408, R474), or the mesh takes nothing (R130). -/
def State.wordsWait (s : State) (pas : List Nat) (lim : Clock) : Bool :=
  s.readOpen s.cur.base s.cur.core s.cur.ctx pas || s.atomOpen s.cur.base s.cur.core s.cur.ctx pas || s.earlierWaits pas ||
  !(s.die (dieOf s.cur.core)).clk.covers ((s.homeClock pas).join lim) || s.noInjection s.cur.core pas

/-- Whether a read of slot 3 must wait for what an earlier slot of its own bundle does: an LDA, a VSYNC, or a read or an atomic at one of
its bytes (R366, R369, R370, R380). -/
def State.wordsFollow (s : State) (pas : List Nat) : Bool :=
  s.acquiring s.nextId s.cur.core s.cur.ctx || s.readOpen s.nextId s.cur.core s.cur.ctx pas || s.atomOpen s.nextId s.cur.core s.cur.ctx pas

/-- An MLOAD issues before its words can be read: the core is held in stall cycles until they have been (R342; log entry 42). -/
def State.holdMload (s : State) (idx start : Nat) (pas : List Nat) (lim : Clock) : State :=
  { s with nextId := s.nextId + 1 }.modMyCore (fun k =>
    { k with mload := some { ctx := s.cur.ctx, id := s.nextId, idx := idx, start := start, pas := pas, clk := lim } })

/-- Whether the words of an MLOAD that holds its core still cannot be read. -/
def State.mloadWaits (s : State) (core : Nat) (h : MloadHold) : Bool :=
  let clk := (s.die (dieOf core)).clk
  s.acquiring h.id core h.ctx || s.earlierOpen h.id core h.ctx h.pas || s.mustWait clk h.pas ||
  !clk.covers ((s.homeClock h.pas).join h.clk) || s.noInjection core h.pas

/-- Words that R157, R158 and R308 allow. -/
def legalWords (ws : List (BitVec 128)) : Bool := ws.all (fun w => (decodeMicro w).toOption.isSome)

/-- The last word of an MLOAD that holds its core is read: the routine is installed, or the context takes ILLEGAL at its boundary, where
the store and the table stand as they were (R342; log entry 42). -/
def State.finishMload (s : State) (core : Nat) : State :=
  match (s.core core).mload with
  | none => s
  | some h =>
    if s.mloadWaits core h then s
    else
      let s := s.modCore core (fun k => { k with mload := none })
      let ws := wordsFrom (h.pas.length / 16) (s.peeks h.pas)
      if legalWords ws then s.installRoutine core h.idx h.start ws
      else s.modCtx core h.ctx (fun x =>
        { x with strikes := some { cause := .illegal, code := 0, frame := (s.core core).frame, halts := false, slots := 8 } })

/-- MLOAD: the bundle is held in stall cycles while its words cannot be read; where what holds them is of the bundle itself, after its
issue. -/
def execMload (f : FAB) (s : State) : Out :=
  accessRun f.gd fxAct (fun s => do
    let (a, s) ← s.opnd3 f.a
    let (b, s) ← s.opnd3 f.b
    let d := b.val.toNat
    let idx := bitsOf d 7 0
    let start := bitsOf d 19 8
    let len := bitsOf d 31 20
    must (decide (d < 2 ^ 32) && decide (start + len ≤ 4096)) (.raise .illegal 0 0)
    must (len == 0 || a.val.toNat % 16 == 0) (.raise .misalign 0 a.val)
    let k := s.myCore
    must (!k.calls.any (fun c => c.routine == idx || runsMeet (k.routine c.routine) (start, len))) (.block 6)
    must (!s.det s.cur.core) (.raise .overrun 0 0)
    let hs ← s.wordSpans a.val 0 len
    let s := if len = 0 then s else s.lookUp none a.val.toNat (16 * len)
    let pas := hs.map (·.pa)
    must (!s.wordsWait pas (sealClock hs)) .stall
    if len ≠ 0 && s.wordsFollow pas then return s.holdMload idx start pas (sealClock hs)
    else
      let ws := wordsFrom len (pas.map s.peekNow)
      must (legalWords ws) (.raise .illegal 0 0)
      return s.installRoutine s.cur.core idx start ws) s

/-! ## MCALL (R288, R343) -/

/-- m0 to m7 with the union of their masks. -/
def State.callArgs (s : State) : Nat → Try (List Word × Mask)
  | 0 => .ok ([], 0)
  | n + 1 => do
    let (vs, m) ← s.callArgs n
    let v ← s.mdata n
    return (vs ++ [v.val], m ||| v.mask)

/-- A call as it is accepted: every halo cell zero and every boundary mode CLIP. -/
def newCall (uid routine ctx start : Nat) (args : List Word) (fmt : Lab 4) (m : Mask) (phase : Option (Nat × Nat)) : Call :=
  let c : Call :=
    { uid := uid, routine := routine, ctx := ctx, args := args, fmt := fmt, mask := m, started := false, upc := start,
      inj := none, modes := List.replicate 8 .clip, keepSet := false, halo := [], haloMask := 0, loops := [],
      hexpDone := false, merged := 0, inboxes := [], wait := none, tap := 0, ust := .idle, phase := phase }
  { c with inboxes := List.replicate c.nin { st := .free, from_ := 0, cells := [], mask := 0, order := 0 } }

/-- The checks of R288 in their order. -/
def Core.acceptCall (k : Core) (c : Call) : Try Unit := do
  must ((k.routine c.routine).2 != 0) (.raise .illegal 0 0)
  must c.argsOk (.raise .illegal 0 0)
  must ((List.range 16).all (fun r => !c.holdsRing r || (k.ring r).configured)) (.raise .illegal 0 0)
  must (decide (c.units + k.keptUnits ≤ 512)) (.raise .haloOverflow 0 0)
  let held := k.planeHeld c.plane || (c.opl && k.planeHeld c.oplane) ||
    (List.range 16).any (fun r => c.holdsRing r && k.ringHeld r)
  must (decide (k.calls.length < 4) && !held && decide (c.units ≤ k.freeUnits)) (.block 6)

/-- MCALL: an accepted call waits for the plane unit. -/
def execMcall (f : FMcall) (s : State) : Out :=
  accessRun f.gd fxAct (fun s => do
    let k := s.myCore
    let (args, am) ← needed (s.callArgs 8) (must (decide (k.calls.length < 4)) (.block 6))
    let i := f.idx.toNat
    let c := newCall s.nextId i s.cur.ctx (k.routine i).1 args s.me.fmt (s.capture f.gd am) k.phase
    k.acceptCall c
    return { s with nextId := s.nextId + 1 }.modMyCore (fun k => { k with calls := k.calls ++ [c] })) s

end Sys2Proof.Machine
end

