-- ==== Sys2Proof/Machine/Preempt.lean ====
section
/-! DEFINITION. Context pre-emption and resume (R429, R418, R244, R256), and the advance of a context past a bundle that has
issued (R172, R174, R194, R344, R427). -/

namespace Sys2Proof.Machine

/-! ## Pre-emption (R429) -/

/-- Whether every push of a context's ports has been written (R244). -/
def Ctx.pushesDone (x : Ctx) : Bool := x.ports.all (fun e => e.2.pushes.isEmpty)

/-- At a boundary a context that is asked for freezes. When it holds the issue slot, that uses the coming cycle of the slot, as the
delivery of a trap does (R429, R476). -/
def State.freeze (s : State) (core ctx : Nat) : State :=
  let x := s.ctx core ctx
  if x.st = CtxState.running && !x.preReasons.isEmpty then
    (s.modCtx core ctx (fun x => { x.land with st := .frozenPre, block := 12, bankPre := none, yielded := false })).modCore core
      (fun k => { k with slotSpent := k.slotSpent || (k.holder == some ctx && !k.halted) })
  else s

/-- The ports as pre-emption leaves them: vectors read ahead are dropped (R244). -/
def dropAhead (ps : Table Port) : Table Port := ps.map (fun e => (e.1, { e.2 with buf := [], next := e.2.pos }))

/-- The snapshot of a frozen context is taken once nothing is awaited and no push is unwritten. -/
def State.bankPreempted (s : State) (core ctx : Nat) : State :=
  let x := s.ctx core ctx
  if x.st = CtxState.frozenPre && !s.awaits core ctx && x.pushesDone then
    s.modCtx core ctx (fun x =>
      let landed := (x.bankPre.map (·.landed)).getD []
      { x.emptied with
          st := .preempted, block := 0, bankPre := some (x.snapshot landed), ports := dropAhead x.ports, rndHeld := 0 })
  else s

/-- Both steps of a context pre-emption. -/
def State.preempt (s : State) (core ctx : Nat) : State := (s.freeze core ctx).bankPreempted core ctx

/-- Asks for a context pre-emption (R429). One that has stopped for tenant pre-emption stays so, and takes no trap meanwhile. -/
def State.askPre (s : State) (core ctx : Nat) (r : PreReason) : State :=
  let x := s.ctx core ctx
  if x.over && x.st != .stopped then s
  else s.modCtx core ctx (fun x => { x with preReasons := if x.preReasons.contains r then x.preReasons else x.preReasons ++ [r] })

/-- Withdraws a reason for pre-emption. -/
def State.endPre (s : State) (core ctx : Nat) (r : PreReason) : State :=
  s.modCtx core ctx (fun x => { x with preReasons := x.preReasons.filter (fun q => q != r) })

/-- A pre-empted context that nothing holds any more resumes at its boundary: its count goes on from the value it held, and
its next switch loses no latch (R429, R168). So does one still frozen, whose snapshot is not yet taken. -/
def State.resume (s : State) (core ctx : Nat) : State :=
  let x := s.ctx core ctx
  if !x.preReasons.isEmpty then s
  else if x.st = CtxState.frozenPre then
    s.modCtx core ctx (fun x =>
      let landed := (x.bankPre.map (·.landed)).getD []
      { x with st := .running, block := 0, bankPre := none, keepLatch := true, flight := x.flight ++ landed.map (fun f => { f with vis := x.cycle }) })
  else if x.st = CtxState.preempted then
    match x.bankPre with
    | none => s
    | some b =>
      s.modCtx core ctx (fun x => { x.restore b x.cycle with st := .running, bankPre := none, keepLatch := true })
  else s

/-! ## After a bundle (R172, R194) -/

/-- A context whose plane calls have all ended leaves the state `retiring` (R344, R427). -/
def State.finishRetire (s : State) (core ctx : Nat) : State :=
  if (s.ctx core ctx).st = CtxState.retiring && !(s.core core).calls.any (fun c => c.ctx == ctx) then s.retireCtx core ctx
  else s

/-- HALTCTX and the outermost RET: the context issues nothing more and retires once its calls have ended (R194, R427). -/
def State.haltCtx (s : State) (core ctx : Nat) : State :=
  (s.modCtx core ctx (fun x => { x with st := .retiring, nds := 0, tgt := none, retPending := false, block := 0 })).finishRetire
    core ctx

/-- The context moves on to its next bundle; in deterministic mode the due value of the bundle issued is kept (R174). -/
def State.advance (s : State) (core ctx : Nat) : State :=
  let frame := (s.core core).frame
  let det := s.det core
  s.modCtx core ctx (fun x => { x.advance with lastDue := if det then some frame else x.lastDue })

/-- Whether a trap will be delivered to a context at the boundary where it stands: that of the bundle before, or an asynchronous one
(R415, R416). -/
def Ctx.trapWaits (x : Ctx) : Bool := x.strikes.isSome || (!x.asyncQ.isEmpty && !x.inh)

/-- A context that has issued the last delay slot of the outermost RET retires, once no trap is to be delivered at that boundary
(R194, R415). -/
def State.retOut (s : State) (core ctx : Nat) : State :=
  let x := s.ctx core ctx
  if x.st = CtxState.running && x.retPending && x.nds = 0 && !x.trapWaits then s.haltCtx core ctx else s

/-- After the bundle has issued: on to the next, or out of the outermost routine. -/
def State.pass (s : State) (core ctx : Nat) : State := (s.advance core ctx).retOut core ctx

end Sys2Proof.Machine
end

