-- ==== Sys2Proof/Machine/Micro.lean ====
section
/-! DEFINITION. The micro-ops of the plane unit (R290 to R305), the events of halo exports (R299) and the start of a call
(R288). -/

namespace Sys2Proof.Machine

/-! ## The running call (R288, R307, R310) -/

/-- The call that runs on the plane unit of a core: a halted core's call stands still at its next micro-op boundary (R307). -/
def State.runningCall (s : State) (core : Nat) : Option Call :=
  match (s.core core).calls with
  | [] => none
  | c :: _ => if c.started && (!(s.core core).halted || c.inside) then some c else none

/-- The micro-word that a call reads at an index, within its routine (R310). -/
def Core.wordAt (k : Core) (routine u : Nat) : Option (BitVec 128) :=
  let r := k.routine routine
  if r.1 ≤ u && u < r.1 + r.2 then some (tget 0 k.ustore u) else none

def Core.microWord (k : Core) (c : Call) : Option (BitVec 128) := k.wordAt c.routine c.upc

def State.modCall (s : State) (core : Nat) (uid : Nat) (f : Call → Call) : State :=
  s.modCore core (fun k => { k with calls := k.calls.map (fun d => if d.uid = uid then f d else d) })

/-- A call whose launch has ended leaves the unit at its micro-op boundary (R427). -/
def State.endAtBoundary (s : State) (core uid : Nat) : State :=
  match (s.core core).calls.find? (fun c => c.uid == uid) with
  | none => s
  | some c => if c.ending && !c.inside then (s.endCall core c).finishRetire core c.ctx else s

/-- A plane fault of a call: it ends, `plane.fault` holds the cause, and PLANE_FAULT arises for the caller (R305). A call that is to end
with its launch raises nothing more (R427). -/
def State.callFault (s : State) (core : Nat) (c : Call) (cause : PlaneCause) : State :=
  let s := s.endCall core c
  if c.ending then s.finishRetire core c.ctx
  else
    let s := s.modCore core (fun k =>
      { k with planeFault := { pend := true, cause := some cause, routine := c.routine, upc := c.upc, ctx := c.ctx } })
    (s.raiseAsync core c.ctx { cause := .planeFault, code := BitVec.ofNat 8 cause.code, addr := 0 }).finishRetire core c.ctx

/-- A call ends at an access outside its phase as a plane fault ends it, and its caller takes PHASE_ESCAPE (R410). -/
def State.callEscape (s : State) (core : Nat) (c : Call) (off : Nat) : State :=
  let s := s.endCall core c
  (if c.ending then s else s.raiseAsync core c.ctx { cause := .phaseEscape, code := 0, addr := ownVa off }).finishRetire core c.ctx

/-! ## What a micro-op answers -/

/-- How a micro-op leaves its call: done, at a micro-word, once more on the same word, counting the cycles of a UWAIT, or ended by URET,
each with the new state; or waiting, a fault, or an escape from the phase, with the state so far. -/
inductive MicroEnd where
  | done (s : State)
  | goto (s : State) (u : Nat)
  | again (s : State)
  | counts (s : State)
  | ended (s : State)
  deriving DecidableEq, Repr

inductive MicroStop where
  | wait (u : UnitState)
  | fault (c : PlaneCause)
  | escape (s : State) (off : Nat)
  deriving DecidableEq, Repr

abbrev MTry := Except MicroStop

def need (c : Bool) (p : PlaneCause) : MTry Unit := if c then .ok () else .error (.fault p)

/-- The call moves to a micro-word and runs on. -/
def Call.at_ (c : Call) (u : Nat) : Call := { c with upc := u, ust := .running }

/-- One micro-op of the running call of the core in focus. One that waits gives way when the call is to end (R427). -/
def microRun (body : Call → State → MTry MicroEnd) (s : State) : Out :=
  let core := s.cur.core
  match s.runningCall core with
  | none => .next s
  | some c =>
    match body c s with
    | .ok (.done t) => .next ((t.modCall core c.uid (fun d => d.at_ (d.upc + 1))).endAtBoundary core c.uid)
    | .ok (.goto t u) => .next ((t.modCall core c.uid (fun d => d.at_ u)).endAtBoundary core c.uid)
    | .ok (.again t) => .next (t.modCall core c.uid (fun d => d.at_ d.upc))
    | .ok (.counts t) => .next (t.modCall core c.uid (fun d => { d with ust := .waitUwait }))
    | .ok (.ended t) => .next (t.finishRetire core c.ctx)
    | .error (.wait u) =>
      .next (if c.ending then (s.endCall core c).finishRetire core c.ctx else s.modCall core c.uid (fun d => { d with ust := u }))
    | .error (.fault p) => .next (s.callFault core c p)
    | .error (.escape t off) => .next (t.callEscape core c off)

/-! ## Ring tiles (R237, R290, R291) -/

/-- Elements of a tile. RAW counts bytes. -/
def Ring.elems (r : Ring) : Nat := r.tileBytes * 8 / fmtBits r.src

/-- The ring that a micro-op names, if the call holds it. -/
def Call.useRing (c : Call) (s : State) (n : Nat) : MTry Ring := do
  need (c.holdsRing n) .ring
  return (s.core s.cur.core).ring n

/-- The operand plane, if the call reserves one (R305). -/
def Call.operand (c : Call) : MTry Nat := do
  need c.opl .operand
  return c.oplane

/-- The first offset of a span that engine `plane` may not access in the call's phase (R410). -/
def State.planeEscape (s : State) (c : Call) (write : Bool) (off len : Nat) : Option Nat :=
  match c.phase, s.imageOf s.cur.core with
  | some ph, some img => (List.range len).find? (fun i => !phaseCovers img ph 2 0 write (off + i))
  | _, _ => none

/-- Elements of e bits packed in bytes. -/
def elemsOf (e : Nat) (bs : List Byte) : List Nat :=
  let v := leValue bs
  (List.range (bs.length * 8 / e)).map (fun i => v / 2 ^ (e * i) % 2 ^ e)

/-- A tile at HEAD: its elements in sink format, and the masks of the ring and of the blocks it lies in (R358, R359). -/
structure Tile where
  codes : List Nat
  mask : Mask
  deriving DecidableEq, Repr

/-- Reads the tile at HEAD, or waits for it and for the writes to its bytes that the core's die has applied (R474). RAW tiles are read in patterns of 4 bytes. -/
def State.tileAt (s : State) (c : Call) (r : Ring) : MTry Tile :=
  if r.held = 0 then .error (.wait .waitTile)
  else
    let off := r.tileOff r.head
    match s.planeEscape c false off r.tileBytes with
    | some i => .error (.escape s (off + i))
    | none =>
      let pas := r.tilePas s.cur.core r.head
      if s.mustWait (s.die (dieOf s.cur.core)).clk pas then .error (.wait .running)
      else
      let m := r.bmask ||| unionMasks (pas.map s.blockMask)
      let bs := s.peeks pas
      if r.src = .raw then .ok { codes := elemsOf 32 bs, mask := m }
      else .ok { codes := (elemsOf (fmtBits r.src) bs).map (fun v => (convert r.fmt.val r.src r.snk v).1), mask := m }

/-- Pops n tiles of a ring of the core in focus. -/
def State.popTiles (s : State) (n count : Nat) : State := s.modRing s.cur.core n (fun r => r.pop count)

/-! ## Cells -/

/-- Walks the cells of a plane in ascending index, with the cells listed, the new ones in reverse, and whether one
saturated. -/
def walkCells (f : Nat → BitVec 32 → BitVec 32 × Bool) :
    Nat → Nat → Table (BitVec 32) → Table (BitVec 32) → Bool → Table (BitVec 32) × Bool
  | _, 0, _, acc, sat => (acc.reverse, sat)
  | i, n + 1, t, acc, sat =>
    match t with
    | [] =>
      let r := f i 0
      walkCells f (i + 1) n [] (if r.1 = 0 then acc else (i, r.1) :: acc) (sat || r.2)
    | (k, x) :: rest =>
      if k = i then
        let r := f i x
        walkCells f (i + 1) n rest (if r.1 = 0 then acc else (i, r.1) :: acc) (sat || r.2)
      else
        let r := f i 0
        walkCells f (i + 1) n ((k, x) :: rest) (if r.1 = 0 then acc else (i, r.1) :: acc) (sat || r.2)

def planeCells : Nat := 131072

/-- A table from pairs in ascending order of their numbers, in canonical form. -/
def tableOf (l : List (Nat × BitVec 32)) : Table (BitVec 32) := l.foldr (fun e t => tset 0 t e.1 e.2) []

/-- An integer saturated to 32 bits, and whether it was. -/
def saturate32 (v : Int) : BitVec 32 × Bool :=
  let r := saturate v (-(2 ^ 31 : Nat)) ((2 ^ 31 : Nat) - 1)
  (BitVec.ofInt 32 r, r != v)

/-- A value that a cell gains a product of: an integer, or a floating value. -/
inductive CellVal where
  | int (i : Int)
  | flt (v : FVal)
  deriving DecidableEq, Repr

/-- An element of a format that STEP admits. -/
def cellValue (f : Fmt) (code : Nat) : CellVal :=
  match floatOf f with
  | some g => .flt (g.decode code)
  | none => .int (signed (fmtBits f) code)

/-- c + w × v with one rounding, or saturated (R291). -/
def accumulate (c : BitVec 32) (w v : CellVal) : BitVec 32 × Bool :=
  match w, v with
  | .int a, .int b => saturate32 (c.toInt + a * b)
  | .flt a, .flt b => (BitVec.ofNat 32 (fp32.fma .ne a b (fp32.decode c.toNat)).bits, false)
  | _, _ => (c, false)

/-- The value one. -/
def cellOne (int : Bool) : CellVal := if int then .int 1 else .flt (.fin false 1 0)

/-- A pattern of the call's cell type as a value. -/
def patternValue (int : Bool) (p : BitVec 32) : CellVal := if int then .int p.toInt else .flt (fp32.decode p.toNat)

/-- The plane after every cell has gained w[o] × v(o, p), with a mask joined. -/
def Plane.addOuter (p : Plane) (w : Array CellVal) (v : Nat → CellVal) (m : Mask) : Plane :=
  let r := walkCells (fun i c => accumulate c ((w[i / 256]?).getD (.int 0)) (v i)) 0 planeCells p.cells [] false
  { p with cells := r.1, sat := p.sat || r.2, mask := p.mask ||| m }

/-! ## Injection (R290) -/

/-- The source index along one sub-axis. -/
def injIndex (mode : InjMode) (s : Nat) (f : Int) (i : Nat) : Option Int :=
  let d : Int := (i : Int) - f
  match mode with
  | .direct => some d
  | .spread => if d % (s : Int) = 0 then some (d / (s : Int)) else none
  | .decim => some (f + (i : Int) * (s : Int))

/-- The element index of column p, or none where zero is injected. -/
def Call.injElem (c : Call) (j : Inj) (p : Nat) : Option Nat :=
  let i (k : Nat) : Nat :=
    match k with
    | 0 => p % c.size 1
    | 1 => p / c.size 1 % c.size 2
    | _ => p / (c.size 1 * c.size 2)
  let f (k : Nat) : Int := (j.f[k]?).getD 0
  let n (k : Nat) : Nat := (j.n[k]?).getD 1
  let at_ (k : Nat) : Option Nat :=
    match injIndex j.mode j.s (f k) (i k) with
    | some x => if 0 ≤ x && x < n k then some x.toNat else none
    | none => none
  match at_ 0, at_ 1, at_ 2 with
  | some a, some b, some d => some (a + n 0 * (b + n 1 * d))
  | _, _, _ => none

/-- The sink formats that a step admits (R291). -/
def stepFmt (int : Bool) (f : Fmt) : Bool :=
  match f with
  | .i8 => int
  | .f8e4 => !int
  | .f8e5 => !int
  | .f16 => !int
  | .bf16 => !int
  | _ => false

/-- One STEP on a W ring under the call's injection state: the plane is updated and nothing popped (R291, R359). -/
def State.stepOn (s : State) (c : Call) (wring : Nat) : MTry State := do
  let w ← c.useRing s wring
  match c.inj with
  | none => .error (.fault .inj)
  | some j =>
    let x ← c.useRing s j.xring
    need (stepFmt c.int w.snk && stepFmt c.int x.snk) .format
    need (w.elems == 512 && decide (j.n.foldl (· * ·) 1 ≤ x.elems)) .tile
    let wt ← s.tileAt c w
    let xt ← s.tileAt c x
    let zero := cellValue x.snk 0
    let e := xt.codes.toArray
    let v := ((List.range 256).map (fun p =>
      match c.injElem j p with
      | some i => cellValue x.snk ((e[i]?).getD 0)
      | none => zero)).toArray
    let ws := (wt.codes.map (cellValue w.snk)).toArray
    return s.modPlane s.cur.core c.plane (fun p =>
      p.addOuter ws (fun i => (v[i % 256]?).getD zero) (c.mask ||| wt.mask ||| xt.mask))

/-- Pops the W tile and the X tile as asked; one ring named by both is popped once (R293). -/
def State.popStep (s : State) (c : Call) (wring : Nat) (popw popx : Bool) : State :=
  let x := (c.inj.map (fun j => j.xring)).getD 0
  let s := if popw then s.popTiles wring 1 else s
  if popx && !(popw && x == wring) then s.popTiles x 1 else s

/-- STEP. -/
def execStep (u : UStep) (s : State) : Out :=
  microRun (fun c s => do
    let t ← s.stepOn c u.wring.toNat
    return .done (t.popStep c u.wring.toNat (!u.hold) u.popx)) s

/-- STEPH. -/
def execSteph (u : UStepH) (s : State) : Out :=
  microRun (fun c s => do
    let o ← c.operand
    let w ← c.useRing s u.wring.toNat
    need (stepFmt c.int w.snk) .format
    need (w.elems == 512) .tile
    let wt ← s.tileAt c w
    let op := (s.core s.cur.core).plane o
    let ws := (wt.codes.map (cellValue w.snk)).toArray
    let t := s.modPlane s.cur.core c.plane (fun p =>
      p.addOuter ws (fun i => patternValue c.int (tget 0 op.cells i)) (c.mask ||| wt.mask ||| op.mask))
    return .done (if u.hold then t else t.popTiles u.wring.toNat 1)) s

/-! ## Shifting (R294, R295) -/

def axisNum : Axis → Nat
  | .o => 0 | .p0 => 1 | .p1 => 2 | .p2 => 3

/-- The cells of the box that the active plane and the halo list, with their positions. -/
def Call.listed (c : Call) (p : Plane) : List (Pos × BitVec 32) :=
  p.cells.map (fun e => (c.cellPos e.1, e.2)) ++ c.halo.map (fun e => (c.boxPos e.1, e.2))

/-- Cells at their positions, as plane cells and halo cells. -/
def Call.place (c : Call) (l : List (Pos × BitVec 32)) : Table (BitVec 32) × Table (BitVec 32) :=
  (tableOf ((l.filter (fun e => c.inPlane e.1)).map (fun e => (c.cellIndex e.1, e.2))),
   tableOf ((l.filter (fun e => !c.inPlane e.1)).map (fun e => (c.boxIndex e.1, e.2))))

/-- Moves the whole box of the active plane. -/
def State.shiftBox (s : State) (c : Call) (k : Nat) (d : Int) : State :=
  let core := s.cur.core
  let p := (s.core core).plane c.plane
  let moved := (c.listed p).map (fun e => (e.1.set k (e.1.get k + d), e.2))
  let r := c.place (moved.filter (fun e => c.inBox e.1))
  let lost := moved.any (fun e => !c.inBox e.1 && e.2 != 0)
  (s.modPlane core c.plane (fun p => { p with cells := r.1, hlost := p.hlost || lost, mask := p.mask ||| c.mask })).modCall
    core c.uid (fun d => { d with halo := r.2 })

/-- Moves the operand plane alone, within the plane. -/
def State.shiftOperand (s : State) (c : Call) (o k : Nat) (d : Int) (rot : Bool) : State :=
  s.modPlane s.cur.core o (fun p =>
    let moved := p.cells.map (fun e =>
      let q := c.cellPos e.1
      let v := q.get k + d
      (q.set k (if rot then v % (c.size k : Int) else v), e.2))
    { p with cells := (c.place (moved.filter (fun e => c.inPlane e.1))).1, mask := p.mask ||| c.mask })

/-- SHIFT. -/
def execShift (u : UShift) (s : State) : Out :=
  microRun (fun c s => do
    let k := axisNum u.axis
    let d : Int := if u.neg then -((u.mag.toNat : Int) + 1) else (u.mag.toNat : Int) + 1
    if u.op then
      let o ← c.operand
      need (c.hasAxis k) .axis
      return .done (s.shiftOperand c o k d u.rot)
    else
      need (c.hasAxis k) .axis
      return .done (s.shiftBox c k d)) s

/-- The injection state with one offset changed. -/
def Inj.offset (j : Inj) (k : Nat) (f : Int → Int) : Inj := { j with f := listSet j.f k f }

/-- SLIDE: each turn of the unit takes one tap. `tap` counts those taken. -/
def execSlide (u : USlide) (s : State) : Out :=
  microRun (fun c s => do
    let core := s.cur.core
    let k := axisNum u.axis
    let w := u.wring.toNat
    let d : Int := if u.neg then -((u.dil.toNat : Int) + 1) else (u.dil.toNat : Int) + 1
    let _ ← c.useRing s w
    need (c.hasAxis k) .axis
    need (if u.adv then k != 0 else u.stride == 0) .inj
    let s ← s.stepOn c w
    let s := s.popTiles w 1
    if c.tap < u.taps.toNat then
      let s := if u.adv then s.modCall core c.uid (fun e => { e with inj := e.inj.map (fun j => j.offset (k - 1) (fun f => f + d)) })
               else s.shiftBox c k d
      return .again (s.modCall core c.uid (fun e => { e with tap := e.tap + 1 }))
    else
      -- F[axis] stands at f0 + taps × d here, and goes to f0 + σ × STRIDE
      let back : Int := (if u.neg then -(u.stride.toNat : Int) else (u.stride.toNat : Int)) - (u.taps.toNat : Int) * d
      let s := if u.adv then s.modCall core c.uid (fun e => { e with inj := e.inj.map (fun j => j.offset (k - 1) (fun f => f + back)) })
               else s
      let s := s.modCall core c.uid (fun e => { e with tap := 0 })
      -- an X tile that stood on the W ring has been popped as its W tile
      return .done (match c.inj with
        | some j => if u.popx && j.xring != w then s.popTiles j.xring 1 else s
        | none => s)) s

/-! ## INJ, CLRP, BNDM -/

/-- Joins the call's mask to its active plane (R359). -/
def State.markPlane (s : State) (c : Call) : State :=
  s.modPlane s.cur.core c.plane (fun p => { p with mask := p.mask ||| c.mask })

/-- INJ. -/
def execInj (u : UInj) (s : State) : Out :=
  microRun (fun c s => do
    let _ ← c.useRing s u.xring.toNat
    let j : Inj :=
      { xring := u.xring.toNat, mode := u.mode, s := u.s.toNat + 1, f := [u.f0.toInt, u.f1.toInt, u.f2.toInt],
        n := [u.n0.toNat + 1, u.n1.toNat + 1, u.n2.toNat + 1] }
    need (u.mode != .direct || j.s == 1) .inj
    need ([0, 1, 2].all (fun k => c.hasAxis (k + 1) || ((j.f[k]?).getD 0 == 0 && (j.n[k]?).getD 1 == 1))) .inj
    return .done ((s.modCall s.cur.core c.uid (fun d => { d with inj := some j })).markPlane c)) s

/-- CLRP. -/
def execClrp (op : Bool) (s : State) : Out :=
  microRun (fun c s => do
    let core := s.cur.core
    let clear (p : Plane) : Plane := { p with cells := [], mask := c.mask }
    if op then
      let o ← c.operand
      return .done (s.modPlane core o clear)
    else
      return .done ((s.modPlane core c.plane clear).modCall core c.uid (fun d => { d with halo := [] }))) s

/-- BNDM. -/
def execBndm (u : UBndm) (s : State) : Out :=
  microRun (fun c s =>
    let ms := [u.f0, u.f1, u.f2, u.f3, u.f4, u.f5, u.f6, u.f7]
    .ok (.done ((s.modCall s.cur.core c.uid (fun d => { d with modes := ms, keepSet := ms.contains .keep })).markPlane c))) s

/-! ## LDP, DRNP (R302, R303) -/

/-- Cells at consecutive indices replaced. A plane has no cell past its last. -/
def fillCells (t : Table (BitVec 32)) (at_ : Nat) (vs : List Nat) : Table (BitVec 32) :=
  let new := ((List.range vs.length).zip vs).filterMap (fun e =>
    if BitVec.ofNat 32 e.2 = 0 ∨ planeCells ≤ at_ + e.1 then none else some (at_ + e.1, BitVec.ofNat 32 e.2))
  t.filter (fun e => decide (e.1 < at_)) ++ new ++ t.filter (fun e => decide (at_ + vs.length ≤ e.1))

/-- An element of a sink format as a cell pattern (R302). -/
def cellPattern (snk : Fmt) (code : Nat) : Nat :=
  match snk with
  | .raw => code
  | .i8 => wrapNat 32 (signed 8 code)
  | .i32 => code
  | f => match floatOf f with
    | some g => toFp32 g code
    | none => code

/-- LDP: each turn of the unit takes one tile. -/
def execLdp (u : ULdp) (s : State) : Out :=
  microRun (fun c s => do
    let core := s.cur.core
    let n ← (if u.op then c.operand else .ok c.plane)
    let r ← c.useRing s u.ring.toNat
    need (r.snk == .raw || ((floatOf r.snk).isSome != c.int)) .format
    let per := if r.snk = .raw then r.tileBytes / 4 else r.elems
    need (decide (u.cell.toNat + (u.tiles.toNat + 1) * per ≤ planeCells)) .tile
    let t ← s.tileAt c r
    let at_ := u.cell.toNat + c.tap * per
    let s := s.modPlane core n (fun p =>
      { p with cells := fillCells p.cells at_ (t.codes.map (cellPattern r.snk)), mask := p.mask ||| c.mask ||| t.mask })
    let s := s.popTiles u.ring.toNat 1
    if c.tap < u.tiles.toNat then return .again (s.modCall core c.uid (fun d => { d with tap := d.tap + 1 }))
    else return .done (s.modCall core c.uid (fun d => { d with tap := 0 }))) s

/-- A call of the geometry of retained faces, for the order of their cells. -/
def Kept.asCall (k : Kept) (c : Call) : Call :=
  { c with args := [0, 0, 0, 0, BitVec.ofNat 64 (k.nax * 2 ^ 8 + k.l0 * 2 ^ 10 + k.l1 * 2 ^ 14),
                    BitVec.ofNat 64 (((List.range 8).zip k.depths).foldl (fun a e => a + e.2 * 2 ^ (6 * e.1)) 0), 0, 0],
           halo := k.cells }

/-- The box numbers of a face's cells, with P0 fastest and O slowest. -/
def Call.faceList (c : Call) (f : Nat) : List Nat :=
  (List.range c.boxCells).filter (fun i => c.faceOf (c.boxPos i) == some f)

/-- The cells of a DRNP source in order from one of them, how many the source has, and its mask. -/
structure Source where
  count : Nat
  cells : Nat → Nat → List (BitVec 32)
  mask : Mask

def planeSource (p : Plane) : Source :=
  { count := planeCells, cells := fun at_ n => (List.range n).map (fun i => tget 0 p.cells (at_ + i)), mask := p.mask }

def faceSource (c : Call) (f : Nat) (m : Mask) : Source :=
  { count := c.faceCells f, cells := fun at_ n => (((c.faceList f).drop at_).take n).map (fun i => tget 0 c.halo i), mask := m }

/-- The source of a DRNP. -/
def State.drainSource (s : State) (c : Call) (src : DrainSrc) : MTry Source :=
  let k := s.core s.cur.core
  match src with
  | .acc => .ok (planeSource (k.plane c.plane))
  | .op => do
    let o ← c.operand
    return planeSource (k.plane o)
  | .halo f => .ok (faceSource c f.toNat (k.plane c.plane).mask)
  | .kept f =>
    match (k.plane c.plane).kept with
    | none => .error (.fault .tile)
    | some g => .ok (faceSource (g.asCall c) f.toNat g.mask)

/-- A cell in the ring's source format (R221, R222, R303). -/
def drainCode (c : Call) (src : Fmt) (p : BitVec 32) : Nat :=
  if src = .raw then p.toNat else (convert c.fmt.val (if c.int then .i32 else .f32) src p.toNat).1

/-- DRNP: each turn of the unit pushes one tile. -/
def execDrnp (u : UDrnp) (s : State) : Out :=
  microRun (fun c s => do
    let core := s.cur.core
    let n := u.ring.toNat
    let src ← s.drainSource c u.src
    let r ← c.useRing s n
    let e := if r.src = .raw then 32 else fmtBits r.src
    let per := r.tileBytes * 8 / e
    need (decide (u.cell.toNat + (u.tiles.toNat + 1) * per ≤ src.count)) .tile
    if !r.canReserve 1 then .error (.wait .waitTile)
    else
      let bytes := (src.cells (u.cell.toNat + c.tap * per) per).flatMap (fun p => bytesOf (e / 8) (drainCode c r.src p))
      let cells := (r.tilePas core r.resv).zip bytes
      let m := src.mask ||| c.mask
      match s.planeEscape c true (r.tileOff r.resv) r.tileBytes with
      | some i =>
        let done := cells.take (i / (e / 8) * (e / 8))
        .error (.escape (s.engineWrite core c.ctx done m u.fill) (r.tileOff r.resv + i))
      | none =>
        let s := s.engineWrite core c.ctx cells m u.fill
        let s := s.modRing core n (fun q => (q.reserve 1).written r.resv)
        let pushed := c.pushed ++ [(n, r.resv)]
        if c.tap < u.tiles.toNat then return .again (s.modCall core c.uid (fun d => { d with tap := d.tap + 1, pushed := pushed }))
        else return .done (s.modCall core c.uid (fun d => { d with tap := 0, pushed := pushed }))) s

/-! ## HEXP, HMRG (R296 to R300) -/

/-- The tensor coordinate of a position along an axis. -/
def Call.coord (c : Call) (p : Pos) (k : Nat) : Int :=
  let a := c.axis k
  (a.tidx * a.ext : Nat) + p.get k - (a.lead : Nat)

/-- Whether a position lies inside the call's extent. -/
def Call.inExtent (c : Call) (p : Pos) : Bool :=
  four.all (fun k =>
    let a := c.axis k
    let r : Int := p.get k - (a.lead : Nat)
    decide (0 ≤ r) && decide (r < (a.ext : Nat)) && decide (c.coord p k < (a.bound : Nat)))

/-- The owner of a coordinate inside the bounds: a logical core. -/
def Call.owner (c : Call) (x : List Nat) : Nat :=
  c.cbase + ((four.zip x).map (fun e => e.2 / (c.axis e.1).ext * (c.axis e.1).gstr)).foldl (· + ·) 0

/-- What HEXP does with a cell outside the extent. -/
inductive CellFate where
  | stays | clipped
  | sent (owner : Nat) (x : List Nat)
  deriving DecidableEq, Repr

/-- The fate of a position by geometry and modes alone (R297, R298). -/
def Call.fate (c : Call) (p : Pos) : CellFate :=
  if c.inExtent p then .stays
  else
    let crossed : List Nat := four.filterMap (fun k =>
      if c.coord p k < 0 then some (2 * k)
      else if ((c.axis k).bound : Int) ≤ c.coord p k then some (2 * k + 1) else none)
    let mode (f : Nat) : BMode := (c.modes[f]?).getD .clip
    if crossed.any (fun f => mode f == .clip) then .clipped
    else if crossed.any (fun f => mode f == .keep) then .stays
    else
      let x := four.map (fun k => (c.coord p k % ((c.axis k).bound : Int)).toNat)
      .sent (c.owner x) x

/-- The value of a box cell. -/
def Call.boxCell (c : Call) (p : Plane) (i : Nat) : BitVec 32 :=
  let q := c.boxPos i
  if c.inPlane q then tget 0 p.cells (c.cellIndex q) else tget 0 c.halo i

/-- The exports of a HEXP, one for each owner, with cells in ascending box number. -/
def Call.exportsOf (c : Call) (p : Plane) (self first : Nat) (clk : Clock) : List Export :=
  let sent := (List.range c.boxCells).filterMap (fun i =>
    match c.fate (c.boxPos i) with
    | .sent o x => some (o, ({ box := i, x0 := (x[0]?).getD 0, x1 := (x[1]?).getD 0, x2 := (x[2]?).getD 0,
                               x3 := (x[3]?).getD 0, val := c.boxCell p i } : HaloCell))
    | _ => none)
  let owners := distinct (sent.map (·.1))
  ((List.range owners.length).zip owners).map (fun e =>
    { owner := e.2, tag := c.tag, from_ := self, cells := (sent.filter (fun q => q.1 == e.2)).map (·.2), mask := p.mask,
      order := first + e.1, clk := clk })

/-- Box cells that leave the box become +0 (R298). -/
def State.clearBox (s : State) (core : Nat) (c : Call) (gone : Pos → Bool) : State :=
  (s.modPlane core c.plane (fun p => { p with cells := p.cells.filter (fun e => !gone (c.cellPos e.1)) })).modCall core c.uid
    (fun d => { d with halo := d.halo.filter (fun e => !gone (c.boxPos e.1)) })

/-- HEXP: its first turn sends the requests for grants, and it completes once every export has been granted. The cells of an
export leave the box with its grant. -/
def execHexp (s : State) : Out :=
  microRun (fun c s => do
    let core := s.cur.core
    if c.tap = 1 then
      if (s.core core).exports.isEmpty then return .done (s.modCall core c.uid (fun d => { d with tap := 0 }))
      else .error (.wait .waitGrant)
    else
      need (!c.hexpDone) .exprt
      let mode (f : Nat) : BMode := (c.modes[f]?).getD .clip
      need (four.all (fun k => (mode (2 * k) == .wrap) == (mode (2 * k + 1) == .wrap))) .mode
      let p := (s.core core).plane c.plane
      let self := ((s.core core).owner.map (·.lcore)).getD 0
      let es := c.exportsOf p self s.nextId (s.die (dieOf core)).clk
      need (es.all (fun e => decide (e.owner < (s.launchCores core).length))) .exprt
      let lost := ((c.listed p).filter (fun e => c.fate e.1 == .clipped && e.2 != 0)).length
      let s := s.clearBox core c (fun q => c.fate q == .clipped)
      let s := s.modPlane core c.plane (fun p => { p with clip := BitVec.ofNat 32 (min (p.clip.toNat + lost) (2 ^ 32 - 1)) })
      let s := { s with nextId := s.nextId + es.length }.modCore core (fun k => { k with exports := es })
      return .again (s.modCall core c.uid (fun d => { d with hexpDone := true, tap := 1 }))) s

/-- A count of ULOOP or HMRG. -/
def countOf {w : Nat} (n : UCount w) (c : Call) : Nat :=
  match n with
  | .imm v => v.toNat
  | .v0 => c.vcount 0
  | .v1 => c.vcount 1
  | .v2 => c.vcount 2

/-- A merged cell: added at its position, or discarded with ROUTE where that lies outside the extent (R300). -/
def Call.mergeCell (c : Call) (p : Plane) (h : HaloCell) : Plane :=
  let back (k x : Nat) : Int := (x : Int) - ((c.axis k).tidx * (c.axis k).ext : Nat) + ((c.axis k).lead : Nat)
  let q : Pos := { c0 := back 0 h.x0, c1 := back 1 h.x1, c2 := back 2 h.x2, c3 := back 3 h.x3 }
  if c.inExtent q then
    let i := c.cellIndex q
    let r := accumulate (tget 0 p.cells i) (patternValue c.int h.val) (cellOne c.int)
    { p with cells := tset 0 p.cells i r.1, sat := p.sat || r.2 }
  else { p with route := true }

/-- Inserts an inbox by an order of two numbers. -/
def insertBox (key : Inbox → Nat × Nat) (b : Inbox) : List Inbox → List Inbox
  | [] => [b]
  | d :: ds =>
    if (key b).1 < (key d).1 || ((key b).1 == (key d).1 && (key b).2 < (key d).2) then b :: d :: ds
    else d :: insertBox key b ds

def sortBoxes (key : Inbox → Nat × Nat) (l : List Inbox) : List Inbox := l.foldl (fun a b => insertBox key b a) []

/-- HMRG. -/
def execHmrg (n : UCount 5) (s : State) : Out :=
  microRun (fun c s => do
    let n := countOf n c
    if n = 0 then return .done s
    else
      need (decide (n ≤ c.nin - c.merged)) .inbox
      let arrived := sortBoxes (fun b => (0, b.order)) (c.inboxes.filter (fun b => b.st == .arrived))
      if arrived.length < n then .error (.wait .waitMerge)
      else
        let take := arrived.take n
        let s := s.modPlane s.cur.core c.plane (fun p =>
          (sortBoxes (fun b => (b.from_, b.order)) take).foldl (fun p b =>
            let p := b.cells.foldl c.mergeCell p
            { p with mask := p.mask ||| c.mask ||| b.mask }) p)
        let orders := take.map (·.order)
        return .done (s.modCall s.cur.core c.uid (fun d =>
          { d with merged := d.merged + n,
                   inboxes := d.inboxes.map (fun b =>
                     if b.st == .arrived && orders.contains b.order then { b with st := .merged } else b) }))) s

/-! ## Loops and waits (R308) -/

/-- The micro-word after the UEND that matches a loop opened before index u. -/
def Core.afterUend (k : Core) (routine : Nat) : Nat → Nat → Nat → Option Nat
  | 0, _, _ => none
  | n + 1, u, depth =>
    match k.wordAt routine u with
    | none => none
    | some w =>
      match decodeMicro w with
      | .ok .uend => if depth = 0 then some (u + 1) else k.afterUend routine n (u + 1) (depth - 1)
      | .ok (.uloop _) => k.afterUend routine n (u + 1) (depth + 1)
      | _ => k.afterUend routine n (u + 1) depth

/-- ULOOP. -/
def execUloop (n : UCount 12) (s : State) : Out :=
  microRun (fun c s => do
    let n := countOf n c
    if n = 0 then
      match (s.core s.cur.core).afterUend c.routine 4096 (c.upc + 1) 0 with
      | some u => return .goto s u
      | none => .error (.fault .runoff)
    else
      need (decide (c.loops.length < 4)) .loop
      return .done (s.modCall s.cur.core c.uid (fun d => { d with loops := (c.upc + 1, n) :: d.loops }))) s

/-- UEND. -/
def execUend (s : State) : Out :=
  microRun (fun c s =>
    match c.loops with
    | [] => .error (.fault .loop)
    | (u, n) :: ls =>
      if 1 < n then .ok (.goto (s.modCall s.cur.core c.uid (fun d => { d with loops := (u, n - 1) :: ls })) u)
      else .ok (.done (s.modCall s.cur.core c.uid (fun d => { d with loops := ls })))) s

/-- UWAIT: `.cyc` takes one turn of the unit for each cycle. -/
def execUwait (u : UWaitFor) (s : State) : Out :=
  microRun (fun c s =>
    match u with
    | .ring r n => do
      let q ← c.useRing s r.toNat
      need (decide (n.toNat ≤ q.cap)) .ring
      if q.held < n.toNat then .error (.wait .waitUwait) else return .done s
    | .cyc n =>
      let left := c.wait.getD n.toNat
      if left ≤ 1 then .ok (.done (s.modCall s.cur.core c.uid (fun d => { d with wait := none })))
      else .ok (.counts (s.modCall s.cur.core c.uid (fun d => { d with wait := some (left - 1) })))) s

/-- The faces that a call retains (R301). -/
def Call.retained (c : Call) (m : Mask) : Kept :=
  { l0 := c.l0, l1 := c.l1, nax := c.nax, depths := (List.range 8).map c.depth, cells := c.halo, mask := m, units := c.faceUnits }

/-- Whether TAIL has passed every tile that a call has pushed: its DRNP pushes are complete (R237, R262). -/
def State.pushesOut (s : State) (core : Nat) (c : Call) : Bool :=
  c.pushed.all (fun p => !((s.core core).ring p.1).done.contains p.2)

/-- URET: TAIL first passes the tiles that the call's rings hold written (R237, R304). -/
def execUret (s : State) : Out :=
  microRun (fun c s =>
    let core := s.cur.core
    let rings := (List.range 16).filter c.holdsRing
    let s := rings.foldl (fun s n => s.modRing core n Ring.settled) s
    if !(s.core core).exports.isEmpty then .error (.wait .waitGrant)
    else if !s.pushesOut core c then .error (.wait .running)
    else
      let s := s.endCall core c
      .ok (.ended (if c.keepSet then s.modPlane core c.plane (fun p => { p with kept := some (c.retained p.mask) }) else s))) s

/-! ## Events of the plane unit -/

/-- PLANE_CALL_START (R288, R306): the oldest call of a core begins to run. What its context did before the MCALL comes first, an LDA of
the MCALL's own bundle with it (R370, R384). -/
def execPlaneCallStart (core : Nat) (s : State) : Out :=
  match (s.core core).calls with
  | [] => .next s
  | c :: _ =>
    if c.started || (s.core core).halted || s.forkWaits c.uid core c.ctx then .next s
    else
      let mark (p : Plane) : Plane := { p with int := c.int }
      let s := s.modPlane core c.plane mark
      let s := if c.opl then s.modPlane core c.oplane mark else s
      .next (s.modCall core c.uid (fun d => { d with started := true, ust := .running }))

/-- The export requests that wait for a grant of a core, as pairs of the exporting core and the request. -/
def State.exportsTo (s : State) (core : Nat) : List (Nat × Export) :=
  match (s.core core).owner with
  | none => []
  | some o =>
    (s.launchCores core).flatMap (fun f => ((s.core f).exports.filter (fun e => e.owner == o.lcore)).map (fun e => (f, e)))

/-- The earliest accepted call with a tag and a free inbox, with the number of its lowest free inbox (R299). -/
def granter (tag : Nat) : List Call → Option (Call × Nat)
  | [] => none
  | c :: cs =>
    if c.tag = tag then
      match c.inboxes.findIdx? (fun b => b.st == .free) with
      | some i => some (c, i)
      | none => granter tag cs
    else granter tag cs

/-- The oldest request that can be granted. -/
def State.oldestGrant (s : State) (core : Nat) : Option ((Nat × Export) × (Call × Nat)) :=
  let cands := (s.exportsTo core).filterMap (fun e => (granter e.2.tag (s.core core).calls).map (fun g => (e, g)))
  match cands with
  | [] => none
  | c :: cs => some (cs.foldl (fun a b => if b.1.2.order < a.1.2.order then b else a) c)

/-- HALO_GRANT (R299): the oldest request that has an inbox is granted it, or the exporter's call takes a fault when the
export holds more cells than the inbox. -/
def execHaloGrant (core : Nat) (s : State) : Out :=
  match s.oldestGrant core, s.meshPause with
  | none, _ | _, true => .next s
  | some ((f, e), (c, i)), false =>
    match (s.core f).calls.head? with
    | none => .next s
    | some x =>
      if c.uin * 512 < e.cells.length then .next (s.callFault f x .inbox)
      else
        let s := s.clearBox f x (fun q => match x.fate q with
          | .sent o _ => o == e.owner
          | _ => false)
        let s := s.modCore f (fun k => { k with exports := k.exports.filter (fun d => d.order != e.order) })
        let n := s.nextId
        .next ({ s with nextId := n + 1 }.modCall core c.uid (fun d =>
          { d with inboxes := listSet d.inboxes i (fun b =>
              { b with st := .granted, from_ := e.from_, cells := e.cells, mask := e.mask, order := n, clk := e.clk }) }))

/-- Whether an export of the same exporter was granted an inbox of a core before and has not arrived: those of one path arrive in their
order (R129). -/
def Core.arrivesAfter (k : Core) (b : Inbox) : Bool :=
  k.calls.any (fun c => c.inboxes.any (fun d => d.st == .granted && d.from_ == b.from_ && decide (d.order < b.order)))

/-- HALO_ARRIVAL (R299): the last cell of a granted export is written, once the merger's die has applied what the exporter's die had
applied at the HEXP (R385). `inbox` is 16 × the call's place in the unit + the number of the inbox. -/
def execHaloArrival (core inbox : Nat) (s : State) : Out :=
  match (s.core core).calls[inbox / 16]? with
  | none => .next s
  | some c =>
    match c.inboxes[inbox % 16]? with
    | none => .next s
    | some b =>
      if b.st != .granted || (s.core core).arrivesAfter b || !(s.die (dieOf core)).clk.covers b.clk then .next s
      else
        let n := s.nextId
        .next ({ s with nextId := n + 1 }.modCall core c.uid (fun d =>
          { d with inboxes := listSet d.inboxes (inbox % 16) (fun b => { b with st := .arrived, order := n }) }))

end Sys2Proof.Machine
end

