-- ==== Sys2Proof/Machine/Boundary.lean ====
section
/-! DEFINITION. Events of a context: landing of results (R162, R164, R173), delivery of traps that wait (R417, R476), terminal
traps, pre-emption and resume (R427, R429), retirement, and answers on completion objects (R426). -/

namespace Sys2Proof.Machine

/-- Whether a context's cycle count runs. -/
def State.counts (s : State) (core ctx : Nat) : Bool :=
  let st := (s.ctx core ctx).st
  (st == .running || st == .retiring) && !(s.core core).halted

/-- RESULT_WRITEBACK (R162): results that are due stand in their registers. -/
def execResultWriteback (core ctx : Nat) (s : State) : Out :=
  .next (if s.counts core ctx then s.modCtx core ctx Ctx.landResults else s)

/-- FMT_TAKES_EFFECT (R173). -/
def execFmtTakesEffect (core ctx : Nat) (s : State) : Out :=
  .next (if s.counts core ctx then s.modCtx core ctx Ctx.landFmt else s)

/-! ## Pending results (R164, R378) -/

/-- A pending result reaches its context: its register, or the bank that a frozen context holds (R417, R418). -/
def Ctx.arrive (x : Ctx) (d : Dest) (v : BitVec 1024) (m : Mask) : Ctx :=
  let f : InFlight :=
    { vis := x.cycle, dest := d, val := v, mask := m, slot := 0, own := false, issued := x.cycle, maskOnly := false }
  let bank (b : Option Snapshot) : Option Snapshot :=
    let b := b.getD (x.snapshot [])
    some { b with landed := b.landed ++ [f] }
  if d = .nowhere then x
  else match x.st with
    | .frozenTrap => { x with bankTrap := bank x.bankTrap }
    | .frozenPre => { x with bankPre := bank x.bankPre }
    | _ => x.put d v m

/-- An LDA has landed: the reads of its bundle that follow it carry what it has acquired, and the writes leave (R370, R388). -/
def State.acquired (s : State) (r : ReadReq) : State :=
  let s : State := { s with reads := s.reads.map (fun q =>
    if q.core == r.core && q.ctx == r.ctx && decide (r.id < q.id) then { q with clk := q.clk.join r.rclk } else q) }
  s.releaseHeld

/-- A reply lands once the die's clock covers it (R378). -/
def State.landRead (s : State) (r : ReadReq) : State :=
  match r.reply with
  | none => s
  | some v =>
    if !(s.die (dieOf r.core)).clk.covers r.rclk then s
    else
      let t := { s with reads := s.reads.filter (fun q => q.id != r.id) }.modCtx r.core r.ctx (fun x => x.arrive r.dest v.val v.mask)
      if r.acquire then t.acquired r else t

/-- PENDING_RESULT_LANDS: the reply of a read, or of an atomic, once the die's clock covers it (R378). -/
def execPendingResultLands (id : Nat) (s : State) : Out :=
  match s.reads.find? (fun r => r.id == id) with
  | some r => .next (s.landRead r)
  | none =>
    match s.atoms.find? (fun a => a.id == id) with
    | none => .next s
    | some a =>
      if a.stage != .applied || !(s.die (dieOf a.core)).clk.covers a.clk then .next s
      else
        let s := { s with atoms := s.atoms.map (fun b => if b.id = id then { b with stage := .replied } else b) }
        .next (if a.discard then s
               else s.modCtx a.core a.ctx (fun x => x.arrive a.dest (a.result.val.setWidth 1024) a.result.mask))

/-! ## Traps -/

/-- TRAP_DELIVERY: a delivery that waited goes on once nothing pending is awaited (R417, R476). -/
def execTrapDelivery (core ctx : Nat) (s : State) : Out :=
  .next (if (s.ctx core ctx).st = CtxState.frozenTrap then s.deliver core ctx else s)

/-- Whether the trap that a context would take next is an asynchronous one that finds no handler: no TRAP or DBGBRK comes before it, and
the core is not halted (R415, R432). -/
def State.headless (s : State) (core ctx : Nat) : Bool :=
  let x := s.ctx core ctx
  match x.asyncQ with
  | [] => false
  | t :: _ => x.mayTake && x.strikes.isNone && !(s.core core).halted && !(x.handles (s.det core) t.cause && decide (x.rstack.length < 16))

/-- TERMINAL_TRAP: an asynchronous trap without a handler ends the launch at the boundary (R416, R427). -/
def execTerminalTrap (core ctx : Nat) (s : State) : Out :=
  .next (if s.headless core ctx then s.takeAsync core ctx else s)

/-! ## Pre-emption, resume, retirement -/

/-- CONTEXT_PREEMPTION (R429). -/
def execContextPreemption (core ctx : Nat) (s : State) : Out := .next (s.preempt core ctx)

/-- CONTEXT_RESUME (R429): enabled once no one holds the context any more. -/
def execContextResume (core ctx : Nat) (s : State) : Out := .next (s.resume core ctx)

/-- CONTEXT_RETIREMENT (R344, R427). -/
def execContextRetirement (core ctx : Nat) (s : State) : Out := .next (s.finishRetire core ctx)

/-- OBJECT_ANSWER_DELIVERY (R426): the state of an object, as it stands at the IOD, reaches the contexts of a core, once its die has
applied what the launches that signalled the object have observed and written (R382), and the mesh takes it (R130). -/
def execObjectAnswerDelivery (core object : Nat) (s : State) : Out :=
  let o := tget Obj.reset (s.part (s.partOf core)).objs object
  let v := o.val
  .next (if s.meshPause || (s.core core).owner.isNone || 4096 ≤ object || !(s.die (dieOf core)).clk.covers o.clk then s
         else s.modCore core (fun k => four.foldl (fun k x => k.modCtx x (fun c => { c with objAns := tput c.objAns object v })) k))

end Sys2Proof.Machine
end

