-- ==== Sys2Proof/Machine/RecordLog.lean ====
section
/-! DEFINITION. What the launch processor writes for a partition: FSTAT and MSI-X (R56, R445), bytes through the partition's
translation, and the record log with its stall and its replay (R79 to R81, R398, R433). -/

namespace Sys2Proof.Machine

/-- The virtual function that serves a partition, and the partition that a virtual function serves (R84). -/
def fnOf (part : Nat) : Nat := part + 1
def partOfFn (fn : Nat) : Option Nat := if 1 ≤ fn && fn ≤ 16 then some (fn - 1) else none

/-- A bit of FSTAT rises, with the function's interrupt when it was clear (R56, R445). Bits: 0 FOREIGN, 1 CFGERR, 2 EPHFULL,
3 LOGFULL. -/
def State.setFstat (s : State) (fn bit : Nat) : State :=
  if (s.func fn).fstat.getLsbD bit then s
  else { s with msix := s.msix ++ [fn] }.modFunc fn (fun f => { f with fstat := f.fstat ||| BitVec.ofNat 4 (2 ^ bit) })

def fstatFOREIGN : Nat := 0
def fstatCFGERR : Nat := 1
def fstatEPHFULL : Nat := 2
def fstatLOGFULL : Nat := 3

/-- Bytes at consecutive addresses. -/
def cellsAt (a : Nat) (bs : List Byte) : List Host.Cell := ((List.range bs.length).map (fun i => a + i)).zip bs

/-- The host link of a partition's function. -/
def Part.link (p : Part) : Nat := (p.desc.map (·.link)).getD 0

/-- A byte of host memory behind a link, by its 64-bit host address. -/
def State.hostByte (s : State) (link a : Nat) : Byte := tget 0 (if link = 0 then s.host0 else s.host1) (a % 2 ^ 64)

/-- Bytes of host memory as the device reads them on a link. -/
def State.hostGet (s : State) (link addr n : Nat) : List Byte := (List.range n).map (fun i => s.hostByte link (addr + i))

/-- Host memory with bytes written at host addresses. -/
def hostCells (t : Table Byte) (addr : Nat) (bs : List Byte) : Table Byte :=
  (cellsAt addr bs).foldl (fun t c => tset 0 t (c.1 % 2 ^ 64) c.2) t

/-- Bytes are written to host memory on a link. -/
def State.hostPoke (s : State) (link addr : Nat) (bs : List Byte) : State :=
  if link = 0 then { s with host0 := hostCells s.host0 addr bs } else { s with host1 := hostCells s.host1 addr bs }

/-- The device writes host memory at a host address, on the link of a partition (R55). -/
def State.hostPut (s : State) (part addr : Nat) (bs : List Byte) : State := s.hostPoke (s.part part).link addr bs

/-- The linear address of a virtual byte under a partition's entries, if one translates it; in the slice aperture none does (R109). -/
def State.virtPa (s : State) (part va : Nat) : Option Nat :=
  if inAperture va then none
  else match (s.part part).translate va with
    | .ok x => some (s.linear x.pa)
    | .error _ => none

/-- The launch processor writes bytes of memory. A die keeps no replica of a line that it writes (R367). -/
def State.procPut (s : State) (cells : List Host.Cell) : State :=
  { s.pokes cells with dies := s.dies.map (fun e =>
      (e.1, { e.2 with replicas := e.2.replicas.filter (fun r => !cells.any (fun c => c.1 / 64 == r.line)) })) }

/-- Writes bytes at virtual addresses: a byte that no entry translates is not written. -/
def State.virtPut (s : State) (part va : Nat) (bs : List Byte) : State :=
  s.procPut (((List.range bs.length).zip bs).filterMap (fun e => (s.virtPa part (va + e.1)).map (fun a => (a, e.2))))

/-- Reads bytes at virtual addresses: a byte that no entry translates reads zero. -/
def State.virtGet (s : State) (part va n : Nat) : List Byte :=
  (List.range n).map (fun i => ((s.virtPa part (va + i)).map s.peek).getD 0)

/-! ## Entries (R79) -/

/-- What an entry says beside the launch number and the frame. -/
structure Decision where
  kind : Nat
  core : Nat
  ctx : Nat
  addr : Nat
  grant : Nat
  deriving DecidableEq, Repr

def Decision.bytes (d : Decision) (launch : Nat) (frame : Word) : List Byte :=
  bytesOf 8 launch ++ bytesOf 1 d.kind ++ bytesOf 1 d.core ++ bytesOf 2 d.ctx ++ bytesOf 4 d.addr ++ bytesOf 8 frame.toNat ++
  bytesOf 8 d.grant

/-- Whether an entry is one that R79 lays out. -/
def Decision.real (d : Decision) : Bool := decide (1 ≤ d.kind) && decide (d.kind ≤ 3)

/-- The decision that an entry holds. -/
def decisionOf (bs : List Byte) : Decision :=
  let f (at_ n : Nat) : Nat := leValue ((bs.drop at_).take n)
  { kind := f 8 1, core := f 9 1, ctx := f 10 2, addr := f 12 4, grant := f 24 8 }

/-- Every context of a partition is asked to stop, or let go, for a stall of the log (R80, R429). -/
def State.stallPart (s : State) (part : Nat) (r : PreReason) : State :=
  (s.part part).coreList.foldl (fun s c =>
    if ((s.core c).owner.map (·.part)) = some part then four.foldl (fun s x => s.askPre c x r) s else s) s

def State.unstallPart (s : State) (part : Nat) (r : PreReason) : State :=
  (s.part part).coreList.foldl (fun s c => four.foldl (fun s x => (s.endPre c x r).resume c x) s) s

/-- Writes an entry at the log position and advances it; the launch's first entry is noted (R77, R79). -/
def State.putEntry (s : State) (part : Nat) (bs : List Byte) : State :=
  let f := s.func (fnOf part)
  let num := leValue (bs.take 8)
  let s := s.virtPut part (f.logbase + f.logprod.toNat) bs
  let s := s.modFunc (fnOf part) (fun f => { f with logprod := f.logprod + 32 })
  s.modLaunch { part := part, launch := num, lcore := 0 } (fun l =>
    { l with logPos := l.logPos.orElse (fun _ => some (BitVec.ofNat 32 (f.logprod.toNat / 32))) })

/-- Whether an entry fits below LOGLIMIT. -/
def Func.fits (f : Func) : Bool := decide (f.logprod.toNat + 32 ≤ f.loglimit.toNat)

/-- A recording launch writes an entry; one that does not fit stops its record, or the partition until LOGLIMIT rises
(R79, R80). -/
def State.record (s : State) (o : Owner) (d : Decision) : State :=
  match s.launch? o with
  | none => s
  | some l =>
    if !l.record || l.recStopped then s
    else
      let bs := d.bytes l.num s.frame
      let p := s.part o.part
      if p.logWait.isEmpty && (s.func (fnOf o.part)).fits then s.putEntry o.part bs
      else
        let s := s.setFstat (fnOf o.part) fstatLOGFULL
        if l.logstop then s.modLaunch o (fun l => { l with recStopped := true })
        else (s.modPart o.part (fun p => { p with logWait := p.logWait ++ [bs] })).stallPart o.part .logStall

/-- Entries that wait are written while they fit; once none waits, the partition goes on (R80). -/
def State.flushLog : Nat → State → Nat → State
  | 0, s, _ => s
  | n + 1, s, part =>
    match (s.part part).logWait with
    | [] => s.unstallPart part .logStall
    | bs :: rest =>
      if (s.func (fnOf part)).fits then
        State.flushLog n ((s.putEntry part bs).modPart part (fun p => { p with logWait := rest })) part
      else s

/-! ## Replay (R81, R433) -/

/-- The decision at a position of a partition's log, in entries from the next one. -/
def State.decisionAt (s : State) (part i : Nat) : Decision :=
  let f := s.func (fnOf part)
  decisionOf (s.virtGet part (f.logbase + f.logprod.toNat + 32 * i) 32)

/-- The decision that the log holds next for a partition, below LOGLIMIT or not (log entry 70). -/
def State.nextDecision (s : State) (part : Nat) : Decision := s.decisionAt part 0

/-- The first of the decisions to come, from one on, that meets a test, with its position; the search ends at an entry that R79 does not
lay out, and at LOGLIMIT (R80). -/
def State.seekDecision (s : State) (part : Nat) (p : Decision → Bool) : Nat → Nat → Option (Nat × Decision)
  | 0, _ => none
  | n + 1, i =>
    let d := s.decisionAt part i
    if !d.real then none else if p d then some (i, d) else s.seekDecision part p n (i + 1)

/-- Entries of a partition's log below LOGLIMIT that are still to come. -/
def Func.entriesLeft (f : Func) : Nat := (f.loglimit.toNat - f.logprod.toNat) / 32

def State.takeDecision (s : State) (part : Nat) : State :=
  s.modFunc (fnOf part) (fun f => { f with logprod := f.logprod + 32 })

/-- REPLAY_DIVERGE: every core of the partition is halted and frozen, and the entry is noted (R433, R435). -/
def State.diverge (s : State) (part core ctx : Nat) : State :=
  let f := s.func (fnOf part)
  let d := s.nextDecision part
  let s := s.modPart part (fun p =>
    { p with frozen := true, replayKind := BitVec.ofNat 8 d.kind, replayPos := BitVec.ofNat 32 (f.logprod.toNat / 32) })
  let s := s.logFault part .replayDiverge false 0 core ctx
  (s.part part).coreList.foldl (fun s c =>
    if ((s.core c).owner.map (·.part)) = some part then
      four.foldl (fun s x => (s.askPre c x .freeze).preempt c x) (s.modCore c (fun k => { k with halted := true }))
    else s) s

/-- A decision of a launch: recorded, or matched with the log. -/
def State.decided (s : State) (core ctx : Nat) (d : Decision) : State :=
  match (s.core core).owner with
  | none => s
  | some o =>
    match s.launch? o with
    | none => s
    | some l =>
      if l.replay then (if s.nextDecision o.part = d then s.takeDecision o.part else s.diverge o.part core ctx)
      else s.record o d

end Sys2Proof.Machine
end

