-- ==== Sys2Proof/Machine/Sync.lean ====
section
/-! DEFINITION. Slot 0, instructions that synchronise: LDA and STL (R388), FENCE (R391), VSYNC (R392, R475), the atomics
(R393 to R402), the group operations (R403 to R405), SNAPADV (R408), PHASE (R409) and the label operations (R412, R413). -/

namespace Sys2Proof.Machine

/-! ## Acquire and release -/

def osizeBytes : OSize → Nat
  | .b4 => 4 | .b8 => 8

/-- LDA: the scope orders nothing at the core itself (R389). -/
def execLda (f : FLda) (s : State) : Out :=
  let n := osizeBytes f.size
  accessRun f.gd (fun s => .one f.w (sDest f.d) (s.loadDelay (s.peekOpnd f.a) 4)) (fun s => do
    let m := s.me.base f.gd
    s.destReady (sDest f.d)
    let (a, s) ← s.opnd f.a
    s.load a.val n 4 f.w (sDest f.d) (.zx n) (m ||| a.mask) true) s

/-- STL: the checks of the address come before its wait (DEDUCED, log entry 32), and a miss in deterministic mode before what its walk
would find (R123). -/
def execStl (f : FStl) (s : State) : Out :=
  let n := osizeBytes f.size
  accessRun f.gd fxAct (fun s => do
    let m := s.me.base f.gd
    let v ← s.dataReg f.d
    let (a, s) ← s.opnd f.a
    let m := m ||| a.mask ||| v.mask
    aligned a.val n
    s.noMiss a.val.toNat n
    let _ ← s.span .write a.val n m
    must (s.drained (scopeWide f.scope)) (.block 9)
    s.store a.val n v.val.toNat m false) s

/-- FENCE (R391). -/
def execFence (f : FFence) (s : State) : Out :=
  accessRun f.gd fxNone (fun s => do
    let done := match f.kind with
      | .acq => s.readsDone
      | .rel => s.drained (scopeWide f.scope)
      | .full => s.drained (scopeWide f.scope)
    must done (.block 9)
    return s) s

def State.who (s : State) : CtxName := { core := s.cur.core, ctx := s.cur.ctx }

/-- The request of a VSYNC goes to the serialiser, and the context's next bundle waits. -/
def State.askStamp (s : State) : State :=
  { s with vsyncReqs := s.vsyncReqs ++ [s.who] }.modMe (fun x => { x with wait2 := some (.vsync none), syncAt := s.nextId })

/-- VSYNC: after the first wait its request goes to the serialiser, and the next bundle waits for the stamp (R475). -/
def execVsync (f : FZ) (s : State) : Out :=
  accessRun f.gd fxNone (fun s => do
    must (s.drained true) (.block 9)
    return s.askStamp) s

/-! ## Atomics -/

/-- The engine that serves a location (R393). -/
def engineOfPa (pa : Nat) : Nat :=
  match regionOf pa with
  | .slice c _ => clusterOf c
  | .port p _ => 2 * (p / 12) + p % 2
  | _ => 0

/-- Cells of a quad, and the engine that serves a cell by its number in the module (R393, R401). -/
def quadCells : Nat := 2048
def engineOfCell (n : Nat) : Nat := n / quadCells / 2

/-- The station at which a core's request arrives: its own in the engine's cluster, else the gateway (R393). -/
def stationAt (core engine : Nat) : Nat := if clusterOf core = engine then core % 8 else 9

/-- Atomics that a core has outstanding (R394). -/
def State.outstanding (s : State) (core : Nat) : Nat := (s.atoms.filter (fun a => a.core == core)).length

/-- An atomic request leaves the core, or is held in a stall cycle as a 33rd (R394). -/
def State.sendAtom (s : State) (engine : Nat) (tgt : AtomTgt) (va : Word) (op : AtomOp) (v : Word) (dest : Dest)
    (m pm : Mask) : Try State := do
  must (decide (s.outstanding s.cur.core < 32)) .stall
  let c := s.cur.core
  let a : AtomReq :=
    { id := s.nextId, core := c, ctx := s.cur.ctx, tag := s.myCore.atag, engine := engine, station := stationAt c engine,
      tgt := tgt, va := va, op := op, v := v, dest := dest, discard := dest == .nowhere, mask := m, pmask := pm,
      clk := (s.die (dieOf c)).clk, stage := .sent, result := Lab.zero 64 }
  let s := { s with nextId := s.nextId + 1, atoms := s.atoms ++ [a] }
  return s.modMyCore (fun k => { k with atag := k.atag + 1 })

/-- What a false guard does for an atomic with a destination. -/
def fxAtom (w : Bool) (d : BitVec 5) (_ : State) : FalseFx := { FalseFx.one w (sDest d) 1 with effect := true }

/-- The checks and the sending of an atomic on memory (R394). -/
def State.memAtom (s : State) (va : Word) (op : AtomOp) (v : Word) (dest : Dest) (m : Mask) : Try State := do
  aligned va 8
  s.noMiss va.toNat 8
  let hs ← s.span .atomic va 8 m
  let s := s.lookUp (some s.nextId) va.toNat 8
  let pa := (hs.map (·.pa)).headD 0
  s.sendAtom (engineOfPa pa) (.mem pa) va op v dest m (entryMasks hs)

/-- An integer atomic (R399). -/
def atomic (op : AtomOp) (f : FS3) (s : State) : Out :=
  accessRun f.gd (fxAtom f.w f.d) (fun s => do
    let m := s.me.base f.gd
    s.destReady (sDest f.d)
    let (a, s) ← s.opnd f.a
    let (b, s) ← s.opnd f.b
    s.memAtom a.val op b.val (if f.w then .nowhere else sDest f.d) (m ||| a.mask ||| b.mask)) s

/-- AADD. -/
def execAadd (f : FS3) (s : State) : Out := atomic .add f s

/-- AAND. -/
def execAand (f : FS3) (s : State) : Out := atomic .and f s

/-- AOR. -/
def execAor (f : FS3) (s : State) : Out := atomic .or f s

/-- AXOR. -/
def execAxor (f : FS3) (s : State) : Out := atomic .xor f s

/-- AMIN. -/
def execAmin (f : FS3) (s : State) : Out := atomic .min f s

/-- AMAX. -/
def execAmax (f : FS3) (s : State) : Out := atomic .max f s

/-- AMINU. -/
def execAminu (f : FS3) (s : State) : Out := atomic .minu f s

/-- AMAXU. -/
def execAmaxu (f : FS3) (s : State) : Out := atomic .maxu f s

/-- ASWAP. -/
def execAswap (f : FS3) (s : State) : Out := atomic .swap f s

/-- ACAS: the compare value is read from s[d] at issue (R400). -/
def execAcas (f : FS3) (s : State) : Out :=
  accessRun f.gd (fxAtom f.w f.d) (fun s => do
    let m := s.me.base f.gd
    let c ← s.dataReg f.d
    let (a, s) ← s.opnd f.a
    let (b, s) ← s.opnd f.b
    s.memAtom a.val (.cas c.val) b.val (if f.w then .nowhere else sDest f.d) (m ||| a.mask ||| b.mask ||| c.mask)) s

/-! ## Exact cells -/

/-- The physical quads of the launch, ascending (R89). -/
def State.launchQuads (s : State) : List Nat := ((s.launchCores s.cur.core).map quadOf).dedup

/-- The cell that an operand names, by its number in the module, or CELL_RANGE (R401). -/
def State.cellOf (s : State) (k : Word) : Try Nat :=
  if 2 ^ 15 ≤ k.toNat then raise .cellRange
  else match s.launchQuads[k.toNat / quadCells]? with
    | some q => .ok (q * quadCells + k.toNat % quadCells)
    | none => raise .cellRange

/-- AFADD (R402). -/
def execAfadd (f : FAB) (s : State) : Out :=
  accessRun f.gd fxAct (fun s => do
    let m := s.me.base f.gd
    let (a, s) ← s.opnd f.a
    let (b, s) ← s.opnd f.b
    let n ← s.cellOf a.val
    s.sendAtom (engineOfCell n) (.cell n) 0 .fadd b.val .nowhere (m ||| a.mask ||| b.mask) 0) s

/-- AXREAD (R402). -/
def execAxread (f : FS2) (s : State) : Out :=
  accessRun f.gd (fxAtom f.w f.d) (fun s => do
    let m := s.me.base f.gd
    s.destReady (sDest f.d)
    let (a, s) ← s.opnd f.a
    let n ← s.cellOf a.val
    s.sendAtom (engineOfCell n) (.cell n) 0 .xread 0 (if f.w then .nowhere else sDest f.d) (m ||| a.mask) 0) s

/-- AXCLR (R402). -/
def execAxclr (f : FA) (s : State) : Out :=
  accessRun f.gd fxAct (fun s => do
    let m := s.me.base f.gd
    let (a, s) ← s.opnd f.a
    let n ← s.cellOf a.val
    s.sendAtom (engineOfCell n) (.cell n) 0 .xclr 0 .nowhere (m ||| a.mask) 0) s

/-! ## Groups -/

/-- The module group that a partition group number names, or GROUP_RANGE (R100). -/
def State.groupOf (s : State) (g : Word) : Try Nat :=
  match (s.part (s.partOf s.cur.core)).desc with
  | none => raise .groupRange
  | some d => if g.toNat < d.groupCount then .ok (d.groupBase + g.toNat) else raise .groupRange

/-- The context in focus, as the groups name it. -/
def State.groupName (s : State) : LaunchCtx := s.nameOf s.cur.core s.cur.ctx

def State.askGroup (s : State) (g : Nat) (op : GroupOp) : State :=
  { s with groupReqs := s.groupReqs ++ [{ who := s.groupName, group := g, op := op, clk := (s.die (dieOf s.cur.core)).clk }] }

/-- GJOIN (R403). -/
def execGjoin (f : FA) (s : State) : Out :=
  slotRun f.gd fxAct (fun s => do
    let (a, s) ← s.opnd f.a
    let g ← s.groupOf a.val
    return s.askGroup g .join) s

/-- GLEAVE: a member first waits for its accesses at `.dev` (R403). -/
def execGleave (f : FA) (s : State) : Out :=
  slotRun f.gd fxAct (fun s => do
    let (a, s) ← s.opnd f.a
    let g ← s.groupOf a.val
    must ((s.relation s.groupName g).1 != 1 || s.drained true) (.block 9)
    return s.askGroup g .leave) s

/-- GBAR: a member or joiner first waits for its accesses at `.dev`, and its next bundle waits for the phase (R403, R475). -/
def execGbar (f : FA) (s : State) : Out :=
  slotRun f.gd fxAct (fun s => do
    let (a, s) ← s.opnd f.a
    let g ← s.groupOf a.val
    let r := (s.relation s.groupName g).1
    let waits := r == 1 || r == 2
    must (!waits || s.drained true) (.block 9)
    let s := s.askGroup g .bar
    return if waits then s.modMe (fun x => { x with wait2 := some (.gbar g) }) else s) s

/-- GQUERY (R405). -/
def execGquery (f : FS2) (s : State) : Out :=
  slotRun f.gd (fxS f.w f.d 2) (fun s => do
    let m := s.me.base f.gd
    s.destReady (sDest f.d)
    let (a, s) ← s.opnd f.a
    let g ← s.groupOf a.val
    let r := s.relation s.groupName g
    let phase := tget 0 s.myCore.phases g
    return s.writeS 2 f.w f.d (phase ++ BitVec.ofNat 32 (r.1 + if r.2 then 4 else 0)) (m ||| a.mask)) s

/-! ## SNAPADV -/

/-- The new RLIM of the entry that translates an address (R408): every entry of a 64 KiB page takes it. A raise releases what its
context has observed and written, `clk`, to the readers that it admits. -/
def Part.raiseLimit (p : Part) (va n : Nat) (clk : Clock) : Part :=
  let release (old : Nat) (c : Clock) : Clock := if old < n then c.join clk else c
  match p.rangeAt va with
  | some r =>
    { p with ranges := p.ranges.map (fun e =>
        if e.2.base = r.base then (e.1, { e.2 with rlim := max e.2.rlim n, sealed := release e.2.rlim e.2.sealed }) else e) }
  | none =>
    match p.leafAt va with
    | none => p
    | some l =>
      let same := fun (e : Leaf) =>
        if pteS64 l.entry then pteS64 e.entry && e.level == l.level && e.va / 65536 == va / 65536 else e.va == l.va
      { p with leaves := p.leaves.map (fun e =>
          if same e then
            { e with entry := insertBits e.entry (BitVec.ofNat 128 (max (pteRlim e.entry) n)) 80 24
                     sealed := release (pteRlim e.entry) e.sealed }
          else e) }

/-- SNAPADV writes its limit, in units, and the context's next bundle waits for it to complete. -/
def State.advanceLimit (s : State) (va n : Nat) : State :=
  let uid := s.nextId
  let w : SnapWait := { who := s.who, uid := uid }
  let s := { s with nextId := uid + 1, snaps := s.snaps ++ [w] }
  (s.modPart (s.partOf s.cur.core) (fun p => p.raiseLimit va n (s.die (dieOf s.cur.core)).clk)).modMe (fun x =>
    { x with wait2 := some (.snapadv uid) })

/-- SNAPADV: the checks of R408 in their order, the first wait, and the new limit (R475). -/
def execSnapadv (f : FAB) (s : State) : Out :=
  accessRun f.gd fxAct (fun s => do
    let (a, s) ← s.opnd f.a
    let (b, s) ← s.opnd f.b
    let va := a.val
    let stop (c : Cause) : Halt := .raise c 0 va
    must (!inAperture va.toNat) (stop .transTarget)
    must (decide (va.toNat < 2 ^ 56)) (stop .transInvalid)
    match (s.part (s.partOf s.cur.core)).translate va.toNat with
    | .error c => .error (stop c)
    | .ok x =>
      must (x.ap && x.wr) (stop .transPerm)
      must (b.val.toNat % x.unit == 0) (stop .misalign)
      must (decide (b.val.toNat / x.unit ≤ x.wlim)) (stop .snapBound)
      must (s.drained true) (.block 9)
      return s.advanceLimit va.toNat (b.val.toNat / x.unit)) s

/-! ## PHASE -/

/-- Engine operations of a core that are outstanding, by the engine of R49 and the phase that each keeps (R409). -/
def Core.operations (k : Core) : List (Nat × Option (Nat × Nat)) :=
  k.ctxs.flatMap (fun e => e.2.copyq.map (fun c => (1, c.phase)) ++ e.2.ports.map (fun p => (4, p.2.phase))) ++
  k.calls.map (fun c => (2, c.phase)) ++
  (if k.trans.store then k.trans.blocks.map (fun b => (3, b.phase)) else [])

/-- Whether two ranges of two phases meet, one of them written, for different engines. -/
def clash (img : Image) (engine : Nat) (old new : Nat × Nat) : Bool :=
  img.phases.any fun r => decide (r.num = old.1) && decide (r.engine = engine) &&
    img.phases.any fun q => decide (q.num = new.1) && decide (q.engine ≠ engine) && (r.write || q.write) &&
      decide (old.2 + r.off < new.2 + q.off + q.len) && decide (new.2 + q.off < old.2 + r.off + r.len)

def State.openPhase (s : State) (ph : Nat × Nat) : State := s.modMyCore (fun k => { k with phase := some ph })

/-- Whether a phase clashes with an operation of the core still outstanding. -/
def State.overlaps (s : State) (new : Nat × Nat) : Bool :=
  match s.imageOf s.cur.core with
  | none => false
  | some img => s.myCore.operations.any (fun o => match o.2 with
    | none => false
    | some old => clash img o.1 old new)

/-- PHASE does nothing outside deterministic mode (R409). -/
def execPhase (f : FPhase) (s : State) : Out :=
  slotRun f.gd (fun s => if s.det s.cur.core then FalseFx.act else FalseFx.none) (fun s => do
    if !s.det s.cur.core then return s
    else
      let (b, s) ← s.opnd f.a
      let base := b.val.toNat
      must (base % 16 == 0) (.raise .misalign 0 0)
      must (decide (base ≤ 0x017FFFF0)) (.raise .sliceRange 0 0)
      must (!s.overlaps (f.num.toNat, base)) (.raise .phaseOverlap 0 0)
      return s.openPhase (f.num.toNat, base)) s

/-! ## Labels -/

/-- LBLGET (R412). -/
def execLblget (f : FS2) (s : State) : Out :=
  slotRun f.gd (fxS f.w f.d 2) (fun s => do
    let m := s.me.base f.gd
    s.destReady (sDest f.d)
    let (a, s) ← s.opnd f.a
    return s.writeS 2 f.w f.d (a.mask.setWidth 64) (m ||| a.mask)) s

/-- Raises the mask of the block at an address of the aperture (R413). -/
def State.raiseAt (s : State) (t : Word) (m : Mask) : Try State := do
  must (inAperture t.toNat) (.raise .transTarget 0 t)
  match aperture (s.launchCores s.cur.core) s.cur.core t.toNat with
  | .error c => .error (.raise c 0 t)
  | .ok pa => return s.sendRaise s.cur.core s.cur.ctx t pa m

/-- LBLRAISE: code 45 as its target raises TAINT (R413). -/
def execLblraise (f : FAB) (s : State) : Out :=
  slotRun f.gd fxAct (fun s => do
    let g := s.me.base f.gd
    match f.a with
    | .zero =>
      let (b, s) ← s.opnd f.b
      must (decide (b.val.toNat < 2 ^ (s.part (s.partOf s.cur.core)).parties)) (.raise .illegal 0 0)
      return s.taintUp (b.val.setWidth 16 ||| g ||| b.mask)
    | _ =>
      both s.afterLda do
        let (t, s) ← s.opnd f.a
        let (b, s) ← s.opnd f.b
        must (decide (b.val.toNat < 2 ^ (s.part (s.partOf s.cur.core)).parties)) (.raise .illegal 0 0)
        s.raiseAt t.val (b.val.setWidth 16 ||| g ||| t.mask ||| b.mask)) s

end Sys2Proof.Machine
end

