-- ==== Sys2Proof/Machine/Traffic.lean ====
section
/-! DEFINITION. Events of the memory system: homes, replicas and clocks (R367, R376 to R378, R474), acknowledgements
(R390), full-empty service (R202), walks (R121), the serialiser (R380), groups (R403), SNAPADV (R119). -/

namespace Sys2Proof.Machine

/-! ## Writes -/

/-- WRITE_ACKNOWLEDGE (R390). -/
def execWriteAcknowledge (id : Nat) (s : State) : Out :=
  .next (s.modWrite id (fun w => if w.performed then { w with acked := true } else w)).dropDone

/-- Whether a die may apply a write: it is the next of its own die, and the die has applied what its stamp covers (R378). -/
def State.applicable (s : State) (die : Nat) (w : WriteReq) : Bool :=
  let v := (s.die die).clk
  let e := w.die
  decide (die < 4) && !w.held && !w.appliedTo die && !s.notInjected w.sent &&
  decide (v.get e + 1 = w.stamp.get e) && four.all (fun k => k == e || (w.stamp.get k).ule (v.get k))

/-- REMOTE_WRITE_APPLY (R378). -/
def execRemoteWriteApply (die id : Nat) (s : State) : Out :=
  match s.writes.find? (fun w => w.id == id) with
  | none => .next s
  | some w =>
    if !s.applicable die w then .next s
    else
      let s := s.modDie die (fun x => { x with clk := x.clk.set w.die (w.stamp.get w.die) })
      .next (s.modWrite id (fun w => { w with applied := w.applied ++ [die] })).dropDone

/-! ## Replicas (R378, R474) -/

/-- Whether a die has applied a write of a stamp. -/
def Die.hasApplied (x : Die) (die : Nat) (stamp : Clock) : Bool := (stamp.get die).ule (x.clk.get die)

/-- A new replica of a line, with the bytes that the home holds and the clock of its die. -/
def State.keepLine (s : State) (die line : Nat) : State :=
  if (s.die die).replicas.any (fun r => r.line == line) then s
  else
    let r : Replica :=
      { line := line, data := ttab 0 s.peek (64 * line) 64, queue := [], clk := s.homeClock [64 * line] }
    s.modDie die (fun x => { x with replicas := x.replicas ++ [r] })

/-- REPLICA_UPDATE: the replica takes the data of the oldest write it lacks, once the die has applied it. A die that has no replica of
the line comes to hold one, as its home has the line: which reads a die serves from replicas is not architected (R379). -/
def execReplicaUpdate (die line : Nat) (s : State) : Out :=
  if !(s.die die).replicas.any (fun r => r.line == line) then
    .next (match homeDie (64 * line) with
      | some h => if h = die || 4 ≤ die then s else s.keepLine die line
      | none => s)
  else .next (s.modDie die (fun x =>
    { x with replicas := x.replicas.map (fun r =>
        match r.queue with
        | [] => r
        | q :: qs =>
          if r.line = line && x.hasApplied q.die q.stamp then
            { r with data := q.cells.foldl (fun t c => tset 0 t c.1 c.2) r.data, queue := qs }
          else r) }))

/-- Whether a die may serve a read of bytes from its replicas: it has applied what the home had applied when the line was filled
(R378), and it holds each line with every write that it has applied (R474). -/
def State.replicaServes (s : State) (die : Nat) (pas : List Nat) : Bool :=
  let x := s.die die
  pas.all (fun a =>
    match x.replicas.find? (fun r => r.line == a / 64) with
    | none => false
    | some r => x.clk.covers r.clk && !r.queue.any (fun q => x.hasApplied q.die q.stamp && q.cells.any (fun c => c.1 == a))) &&
  !s.writes.any (fun w => !w.performed && w.appliedTo die && w.touches pas)

def State.replicaByte (s : State) (die a : Nat) : Byte :=
  match (s.die die).replicas.find? (fun r => r.line == a / 64) with
  | some r => tget 0 r.data a
  | none => 0

/-- Lines of bytes whose homes lie on other dies. -/
def foreignLines (die : Nat) (pas : List Nat) : List Nat :=
  ((pas.filter (fun a => match homeDie a with | some d => d != die | none => false)).map (· / 64)).dedup

/-- Whether an atomic of a context before a request, on some of the bytes, has not been answered: its write may be lacking at the
context's die (R369). -/
def State.atomBefore (s : State) (id core ctx : Nat) (pas : List Nat) : Bool :=
  s.atoms.any (fun a => decide (a.id < id) && a.core == core && a.ctx == ctx && a.stage != .replied &&
    (match a.tgt with
     | .mem pa => meets ((List.range 8).map (fun i => pa + i)) pas
     | .cell _ => false))

/-- Whether the replicas of the requester's die may serve a read: none of its context at those bytes comes before it (R369). -/
def State.atReplica (s : State) (r : ReadReq) : Bool :=
  s.replicaServes (dieOf r.core) r.pas && !s.atomBefore r.id r.core r.ctx r.pas &&
  !s.reads.any (fun q => decide (q.id < r.id) && q.core == r.core && q.ctx == r.ctx && meets q.pas r.pas)

/-- Whether an older request on a full-empty bit of the same slice, from the same cluster, has not arrived: one class keeps its order on
one path (R129). -/
def State.feBefore (s : State) (r : ReadReq) (home : Nat) : Bool :=
  s.reads.any (fun q => decide (q.id < r.id) && clusterOf q.core == clusterOf r.core && q.reply.isNone &&
    (match q.kind with | .fe _ => true | _ => false) && q.pas.head?.bind sliceOf == some home && !(s.core home).feWait.contains q.id)

/-- Whether a request on a full-empty bit may arrive at its slice. -/
def State.feArrives (s : State) (r : ReadReq) (home : Nat) : Bool :=
  !s.behind r && !s.feBefore r home && !s.mustWait r.clk r.pas && !s.earlierOpen r.id r.core r.ctx r.pas &&
  !(s.core home).feWait.contains r.id

/-- HOME_READ_SERVICE (R474): a read is served at its homes, or at the requester's die where its replicas allow; `keep` leaves
replicas there. A request on a full-empty bit arrives at its granule. A register of the IOD is read as it stands. -/
def execHomeReadService (id : Nat) (atReplica keep : Bool) (s : State) : Out :=
  match s.reads.find? (fun r => r.id == id) with
  | none => .next s
  | some r =>
    if r.reply.isSome || s.paused id r.core r.pas then .next s
    else
      let die := dieOf r.core
      let pas := r.pas
      let walks := s.walking id
      match r.kind with
      | .sysr num =>
        let v := (s.iodReg (s.partOf r.core) num).getD 0
        .next (s.answer id { val := v.setWidth 1024, mask := r.mask } Clock.zero)
      | .fe _ =>
        match pas.head?.bind sliceOf with
        | none => .next s
        | some c =>
          if !s.feArrives r c then .next s
          else .next (s.modCore c (fun k => { k with feWait := k.feWait ++ [id] }))
      | .mem =>
        if s.behind r || walks || s.earlierOpen id r.core r.ctx pas then .next s
        else if atReplica then
          if s.atReplica r then
            .next (s.answer id { val := r.value (s.replicaByte die), mask := r.mask ||| unionMasks (pas.map s.blockMask) } Clock.zero)
          else .next s
        else if s.mustWait r.clk pas then .next s
        else
          let s := s.readHome r
          .next (if keep then (foreignLines die pas).foldl (fun s l => s.keepLine die l) s else s)

/-! ## Full-empty service (R202) -/

/-- Serves a waiting request while the bit is set; a request with CLR clears it and raises the block's mask (R354). -/
def State.serveFe (s : State) (core : Nat) (r : ReadReq) : State :=
  match r.kind, r.pas with
  | .fe clr, pa :: pas =>
    if !s.fullBit pa then s
    else
      let m := r.mask ||| s.blockMask pa
      let s := s.answer r.id { val := r.value s.peek, mask := m } (s.homeClock (pa :: pas))
      let s := s.modCore core (fun k => { k with feWait := k.feWait.filter (fun i => i != r.id) })
      if clr then (s.setFull pa false).raiseBlock pa r.mask else s
  | _, _ => s

/-- FULL_EMPTY_SERVICE: the requests that wait at a granule are served in order of arrival. -/
def execFullEmptyService (core granule : Nat) (s : State) : Out :=
  .next ((s.feWaiters core granule).foldl (fun s r => s.serveFe core r) s)

/-! ## MEM_ERROR (R434) -/

def memError (va : Word) : AsyncTrap := { cause := .memError, code := 0, addr := va }

/-! ## Walks (R120 to R122) -/

/-- WALK_START: the oldest entry whose walk has not begun, on one of 32 walkers. None begins while the mesh takes nothing, since its
reads cross it; what waits on one is not in the mesh, so the pause ends without it (R122, R128, R130). -/
def execWalkStart (die : Nat) (s : State) : Out :=
  let x := s.die die
  if s.meshPause || 32 ≤ (x.misses.filter (fun e => e.2.started)).length then .next s
  else match x.misses.find? (fun e => !e.2.started) with
    | none => .next s
    | some e => .next (s.modDie die (fun x => { x with misses := tput x.misses e.1 { e.2 with started := true } }))

/-- The page of a leaf, as the stores hold it (R113). -/
def Leaf.page (l : Leaf) (part va : Nat) : StoreEntry :=
  if pteS64 l.entry then { part := part, base := va / 65536 * 65536, size := 65536 }
  else { part := part, base := l.va, size := levelSpan l.level }

/-- Entries of a die's miss table and of its front stores that meet a test go, and the misses that wait at the front stores take the
entries that are free. DESIGN CHOICE (log entry 86): the oldest of the die comes first. -/
def Die.answerMisses (x : Die) (p : Miss → Bool) : Die :=
  let waiting := x.atFront.filter (fun m => !p m)
  waiting.foldl Die.note { x with misses := x.misses.filter (fun e => !p e.2), atFront := [] }

/-- WALK_COMPLETE (R121): a walk that installs a page satisfies every entry in it, and the cluster that took the entry holds it
too, and no other cluster whose requests wait on it (R120; log entry 86). A
walk that finds its page gone ends its own entry: what waited on it was translated by the old entry (R123). -/
def execWalkComplete (die entry : Nat) (s : State) : Out :=
  match tfind (s.die die).misses entry with
  | none => .next s
  | some m =>
    let va := 4096 * m.key
    let p := s.part m.part
    if !m.started then .next s
    else match p.translate va, p.leafAt va with
      | .ok _, some l =>
        let e := l.page m.part va
        let free := (Config.freeWord s.freeCount).toNat
        let s := { s with freeCount := s.freeCount + 1 }
        .next ((s.modDie die (fun x =>
          { x with store := fillStore 4096 free x.store e }.answerMisses (fun q => e.covers q.part (4096 * q.key)))).fillFront m.cluster e)
      | _, _ => .next (s.modDie die (fun x => x.answerMisses (fun q => decide (q = m))))

/-! ## The serialiser (R380) -/

/-- SERIALISER_STAMP: the oldest request gets the dies' own counts. -/
def execSerialiserStamp (s : State) : Out :=
  match s.vsyncReqs, s.meshPause with
  | [], _ | _, true => .next s
  | w :: ws, false =>
    let stamp := four.map (fun d => (s.die d).clk.get d)
    .next ({ s with vsyncReqs := ws, devStamp := s.devStamp + 1 }.modCtx w.core w.ctx (fun x =>
      { x with wait2 := some (.vsync (some stamp)) }))

/-- A VSYNC has completed: the reads of its bundle that follow it carry what its die covers now, and the writes leave (R380). -/
def State.synced (s : State) (core ctx : Nat) : State :=
  let v := (s.die (dieOf core)).clk
  let at_ := (s.ctx core ctx).syncAt
  let s := s.modCtx core ctx (fun x => { x with wait2 := none })
  let s : State := { s with reads := s.reads.map (fun q =>
    if q.core == core && q.ctx == ctx && decide (at_ ≤ q.id) then { q with clk := q.clk.join v } else q) }
  s.releaseHeld

/-- VSYNC_COMPLETE: the die covers the stamp. -/
def execVsyncComplete (core ctx : Nat) (s : State) : Out :=
  match (s.ctx core ctx).wait2 with
  | some (.vsync (some stamp)) =>
    let v := (s.die (dieOf core)).clk
    if (four.zip stamp).all (fun e => e.2.ule (v.get e.1)) then
      .next ((s.synced core ctx).modCore core (fun k => { k with vsync := k.vsync + 1 }))
    else .next s
  | _ => .next s

/-! ## Groups and SNAPADV -/

/-- GROUP_REQUEST_APPLY (R403): the oldest request takes effect at the IOD, once every die has applied what its sender had observed and
written, so that what comes before an arrival comes before the resumptions that it allows (R404; log entry 83). The GLEAVE of a context that has
retired waits for the atomics that it sent before. -/
def execGroupRequestApply (s : State) : Out :=
  match s.groupReqs, s.meshPause with
  | [], _ | _, true => .next s
  | r :: rs, false =>
    if s.leaveWaits r then .next s
    else
      let r := s.leaveReady r
      .next (if four.all (fun d => (s.die d).clk.covers r.clk) then { s with groupReqs := rs }.groupApply r.group r.who r.op
             else { s with groupReqs := r :: rs })

/-- Whether an access of a partition that entries have translated and that left before a request has not been performed. -/
def State.openBefore (s : State) (part id : Nat) : Bool :=
  s.writes.any (fun w => decide (w.id < id) && !w.performed && translated w.pas && s.partOf w.core == part) ||
  s.reads.any (fun r => decide (r.id < id) && r.reply.isNone && translated r.pas && s.partOf r.core == part) ||
  s.atoms.any (fun a => decide (a.id < id) && a.stage == .sent && s.partOf a.core == part &&
    (match a.tgt with
     | .mem pa => translated [pa]
     | .cell _ => false))

/-- SNAPADV_COMPLETE (R119): every access of the partition that was checked against the old limit has been performed. -/
def execSnapadvComplete (core ctx : Nat) (s : State) : Out :=
  match s.snaps.find? (fun w => w.who.core == core && w.who.ctx == ctx) with
  | none => .next s
  | some w =>
    if s.openBefore (s.partOf core) w.uid then .next s
    else
      let s := { s with snaps := s.snaps.filter (fun q => q.uid != w.uid) }
      .next (s.modCtx core ctx (fun x => if x.wait2 = some (.snapadv w.uid) then { x with wait2 := none } else x))

end Sys2Proof.Machine
end

