-- ==== Sys2Proof/Machine/CopyEngine.lean ====
section
/-! DEFINITION. Events of the feeding engines: copies from their beginning to their end or fault (R245 to R251, R271, R273,
R362, R407), the release gate (R363, R364), rings, streams, the transpose unit and the random queue (R237, R242, R243, R253,
R254), and writes that reach their homes (R367). -/

namespace Sys2Proof.Machine

/-! ## Layout records (R245, R246) -/

/-- N of a record: the product of its extents. -/
def lrCount (r : BitVec 512) : Nat := ((List.range (lrDims r)).map (lrExtent r)).foldl (· * ·) 1

/-- Whether a record keeps its limits. -/
def lrLegal (r : BitVec 512) : Bool :=
  decide (1 ≤ lrDims r) && decide (lrDims r ≤ 5) && decide (lrEsize r ≤ 6) && r.extractLsb' 16 48 == 0 &&
  r.extractLsb' 384 128 == 0 &&
  (List.range 5).all (fun l =>
    if l < lrDims r then decide (1 ≤ lrExtent r l) && decide (lrExtent r l ≤ 2 ^ 24) else r.extractLsb' (64 + 64 * l) 64 == 0)

/-- The sum of coord(k, l) × stride(l) over the dimensions from l on. -/
def lrWalk (r : BitVec 512) : Nat → Nat → Nat → Int
  | 0, _, _ => 0
  | n + 1, l, k => (k % lrExtent r l : Nat) * lrStride r l + lrWalk r n (l + 1) (k / lrExtent r l)

/-- The address of element k. -/
def lrAddr (r : BitVec 512) (base : Word) (k : Nat) : Word := base + BitVec.ofInt 64 (lrWalk r (lrDims r) 0 k)

/-- Whether every element is aligned to its own size. -/
def lrAligned (r : BitVec 512) (base : Word) : Bool :=
  base.toNat % 2 ^ lrEsize r == 0 &&
  (List.range (lrDims r)).all (fun l => decide (lrExtent r l ≤ 1) || lrStride r l % (2 ^ lrEsize r : Nat) == 0)

/-- Bytes of a tile as it is popped, in sink format (R236). -/
def Ring.popBytes (r : Ring) : Nat := r.elems * (fmtBits r.snk / 8)

/-! ## Entries -/

/-- The record that the element count and order of a copy follow (R268). -/
def CopyEntry.walk (e : CopyEntry) : BitVec 512 :=
  match e.kind with
  | .copy cmd _ _ _ => if cmdSkind cmd = 0 then e.srec else e.drec
  | _ => 0

/-- Elements of an entry. -/
def CopyEntry.count (e : CopyEntry) : Nat :=
  match e.kind with
  | .copy .. => lrCount e.walk
  | .bclear _ blocks _ => 256 * blocks
  | .release _ len _ _ _ => len / 16
  | .publish .. => 1

def State.setEntry (s : State) (core ctx : Nat) (e : CopyEntry) : State := s.modEntry core ctx e.uid (fun _ => e)

/-- The entry at a place of a context's copy queue. -/
def State.entryAt (s : State) (core ctx ent : Nat) : Option CopyEntry := (s.ctx core ctx).copyq[ent]?

/-- How an element ends short of its write: it waits, it fails a check, with the failing address if it has one, or it leaves
its phase. Each carries the state so far. -/
inductive ElemStop where
  | wait (s : State)
  | fault (s : State) (c : CopyCause) (side : Bool) (va : Option Word)
  | escape (s : State) (va : Word)
  deriving DecidableEq, Repr

abbrev ETry := Except ElemStop

def copyCause : Cause → CopyCause
  | .sliceRange => .sliceRange
  | .transInvalid => .transInvalid
  | .transFormat => .transFormat
  | .transPerm => .transPerm
  | .transTarget => .transTarget
  | .snapBound => .snapBound
  | .labelStore => .labelStore
  | _ => .uncorrectable

/-- Whether the link or the peer port behind an address is up (R445, R446). -/
def State.reachable (s : State) (pa : Nat) : Bool :=
  match regionOf pa with
  | .host 0 _ => s.linkUp0
  | .host _ _ => s.linkUp1
  | .peer j _ => tget false s.peerUp j
  | _ => true

/-- The first byte of the own slice that an engine may not access in the phase of its operation (R410). -/
def State.engineEscape (s : State) (core : Nat) (ph : Option (Nat × Nat)) (engine : PhaseEngine) (write : Bool)
    (pas : List Nat) : Option Nat :=
  match ph, s.imageOf core with
  | some ph, some img =>
    pas.findIdx? (fun a => sliceOf a == some core && !phaseCovers img ph engine 0 write (a % 0x2000000))
  | _, _ => none

/-- How an entry accesses memory: as a copy, with the egress windows of its beginning (R105, R356). -/
def State.entryAccess (s : State) (core : Nat) (e : CopyEntry) (k : AKind) (m : Mask) : Access :=
  { part := s.partOf core, cores := s.launchCores core, own := core, kind := k, copy := true, mask := m, egress := e.egress }

/-- An element waits while a page of it is not held by a store: its miss is walked (R120, R121). -/
def State.elemLook (s : State) (core : Nat) (e : CopyEntry) (va : Word) (n : Nat) : ETry State :=
  let t := s.lookSpan core (some e.uid) va.toNat n
  if (pageStarts va.toNat n).all (s.held core) then .ok t else .error (.wait t)

/-- The checks of R116, R445, R446 and R410 on the bytes of one element at one end. -/
def State.elemCheck (s : State) (core : Nat) (e : CopyEntry) (k : AKind) (m : Mask) (va : Word) (n : Nat) : ETry (List Hit) :=
  let side := k == .write
  match s.checkSpan (s.entryAccess core e k m) va.toNat n with
  | .error (c, a) => .error (.fault s (copyCause c) side (some a))
  | .ok hs =>
    match hs.findIdx? (fun h => !s.reachable h.pa) with
    | some i => .error (.fault s .uncorrectable side (some (va + BitVec.ofNat 64 i)))
    | none =>
      match s.engineEscape core e.phase 1 side (hs.map (·.pa)) with
      | some i => .error (.escape s (va + BitVec.ofNat 64 i))
      | none => .ok hs

/-- Whether a read by an engine of a die must wait: a covered write is not performed, or the die lags behind a home (R378,
R474). -/
def State.lags (s : State) (die : Nat) (pas : List Nat) : Bool :=
  s.mustWait (s.die die).clk pas || !(s.die die).clk.covers (s.homeClock pas)

/-- Reads the bytes of one element, with their masks (R358). -/
def State.elemRead (s : State) (core : Nat) (e : CopyEntry) (va : Word) (n : Nat) : ETry (State × List Byte × Mask) := do
  let hs ← s.elemCheck core e .read 0 va n
  let s ← s.elemLook core e va n
  let pas := hs.map (·.pa)
  if s.lags (dieOf core) pas || !(s.die (dieOf core)).clk.covers (sealClock hs) || s.noInjection core pas then .error (.wait s)
  else return (s, s.peeks pas, s.hitsMask hs)

/-- Writes the bytes of an element; earlier accesses of the context to those bytes come first (R384), and at a home of its die every
write to them that the die has applied (R375). An arrival in the slice
of another core is checked there (R410). -/
def State.elemSend (s : State) (core ctx : Nat) (e : CopyEntry) (cells : List Host.Cell) (m : Mask) (fe clr : Bool) :
    ETry State :=
  let pas := cells.map (·.1)
  let near := match pas.head? with
    | some a => homeDie a == some (dieOf core)
    | none => false
  if s.earlierOpen e.uid core ctx pas || (near && s.mustWait (s.die (dieOf core)).clk pas) || s.noInjection core pas then .error (.wait s)
  else
    let here := near && pas.head?.bind sliceOf != some core
    let s := s.entryWrite core ctx e.uid e.k cells m fe clr
    .ok (if here then s.noteArrival 5 [true] pas else s)

/-- Whether a write of an entry is still on its way to its home. -/
def State.entryOpen (s : State) (core ctx uid : Nat) : Bool :=
  s.writes.any (fun w => w.core == core && w.ctx == ctx && w.ent == some uid && !w.performed)

/-! ## Checks at the beginning of a copy (R246, R250) -/

/-- Whether a context of the core has not retired: it may yet fetch from the bank that it uses (R149). -/
def Ctx.present (x : Ctx) : Bool := x.st != .idle && x.st != .retired

/-- The first check that a copy fails before any element: the cause, the side, and the address where one is given. RING of either end
comes first, then SHAPE in the order below, then IBANK: the model's order (log entry 87). -/
def State.beginFault (s : State) (core : Nat) (e : CopyEntry) (cmd src dst : Word) :
    Option (CopyCause × Bool × Option Word) :=
  let k := s.core core
  let sk := cmdSkind cmd
  let dk := cmdDkind cmd
  let sr := k.ring (src.toNat % 16)
  let dr := k.ring (dst.toNat % 16)
  let size := e.count * e.esize
  let uneven (tile : Nat) : Bool := lrLegal e.walk && (size % tile != 0 || tile % e.esize != 0)
  let shape (side : Bool) (a : Word) : Option (CopyCause × Bool × Option Word) := some (.shape, side, some a)
  if sk == 1 && !sr.configured then some (.ring, false, none)
  else if dk == 1 && !dr.configured then some (.ring, true, none)
  else if sk == 0 && !lrLegal e.srec then shape false 0
  else if sk == 1 && uneven sr.popBytes then shape false 0
  else if sk == 0 && !lrAligned e.srec src then shape false src
  else if dk == 0 && !lrLegal e.drec then shape true 0
  else if sk == 0 && dk == 0 && (lrEsize e.srec != lrEsize e.drec || lrCount e.srec != lrCount e.drec) then shape false 0
  else if dk == 1 && uneven dr.tileBytes then shape true 0
  else if dk == 0 && !lrAligned e.drec dst then shape true dst
  else if dk == 2 && e.k == 0 && k.ctxs.any (fun x => x.2.present && x.2.bank == dst.getLsbD 18) then some (.ibank, true, none)
  else none

/-! ## One element -/

/-- The source bytes of the next element of a copy, with their mask: read at their address, or out of the tile popped last,
where an element opens a tile after popping it, once the elements of the tile before are written (R237, R238). The state and the entry are as they then stand. -/
def State.copySource (s : State) (core ctx : Nat) (e : CopyEntry) (cmd src : Word) :
    ETry (State × CopyEntry × List Byte × Mask) := do
  if cmdSkind cmd = 0 then
    let (s, bs, m) ← s.elemRead core e (lrAddr e.srec src e.k) e.esize
    return (s, e, bs, m)
  else
    let n := src.toNat % 16
    let r := (s.core core).ring n
    let at_ := e.k * e.esize
    let cut (e : CopyEntry) : List Byte := (e.data.drop (at_ % r.popBytes)).take e.esize
    if at_ / r.popBytes < e.popped then return (s, e, cut e, e.dmask)
    else if r.held = 0 || (s.core core).ringHeld n || s.entryOpen core ctx e.uid then .error (.wait s)
    else
      let pas := r.tilePas core r.head
      match s.engineEscape core e.phase 1 false pas with
      | some i => .error (.escape s (ownVa (r.tileOff r.head + i)))
      | none =>
        if s.lags (dieOf core) pas then .error (.wait s)
        else
          let bs := s.peeks pas
          let out := if r.src = .raw then bs
            else (elemsOf (fmtBits r.src) bs).flatMap (fun v => bytesOf (fmtBits r.snk / 8) (convert r.fmt.val r.src r.snk v).1)
          let e := { e with popped := e.popped + 1, src0 := r.head, data := out, dmask := r.bmask ||| unionMasks (pas.map s.blockMask) }
          return ((s.setEntry core ctx e).modRing core n (fun r => r.pop 1), e, cut e, e.dmask)

/-- What an address of a copy names: a slice byte, by either form of R109, or another byte by its virtual address. -/
def byteName (cores : List Nat) (own va : Nat) : Bool × Nat :=
  if inAperture va then
    match aperture cores own va with
    | .ok pa => (true, pa)
    | .error _ => (false, va)
  else (false, va)

/-- Whether an element is the last of its walk that touches its granule (R234). -/
def lastInGranule (cores : List Nat) (own : Nat) (r : BitVec 512) (base : Word) (k : Nat) : Bool :=
  let g (i : Nat) : Bool × Nat :=
    let n := byteName cores own (lrAddr r base i).toNat
    (n.1, n.2 / max 16 (2 ^ lrEsize r))
  !(List.range (lrCount r - (k + 1))).any (fun i => g (k + 1 + i) == g k)

/-- Writes an element at the destination end of a copy. -/
def State.copyDest (s : State) (core ctx : Nat) (e : CopyEntry) (cmd dst : Word) (fill : Bool) (bs : List Byte) (m : Mask) :
    ETry State :=
  let at_ := e.k * e.esize
  match cmdDkind cmd with
  | 0 => do
    let va := lrAddr e.drec dst e.k
    let hs ← s.elemCheck core e .write m va e.esize
    let s ← s.elemLook core e va e.esize
    s.elemSend core ctx e ((hs.map (·.pa)).zip bs) m (fill && lastInGranule (s.launchCores core) core e.drec dst e.k) false
  | 1 => do
    let n := dst.toNat % 16
    let r := (s.core core).ring n
    let opens := decide (e.tiles ≤ at_ / r.tileBytes)
    if opens && !r.canReserve 1 then .error (.wait s)
    else
      let e' := if opens then { e with tile0 := r.resv, tiles := e.tiles + 1 } else e
      let s := if opens then (s.setEntry core ctx e').modRing core n (fun r => r.reserve 1) else s
      let off := at_ % r.tileBytes
      let pas := ((r.tilePas core e'.tile0).drop off).take e.esize
      match s.engineEscape core e.phase 1 true pas with
      | some i => .error (.escape s (ownVa (r.tileOff e'.tile0 + off + i)))
      | none =>
        let s ← s.elemSend core ctx e (pas.zip bs) m (fill && (off + e.esize) % 16 == 0) false
        return if off + e.esize = r.tileBytes then s.modRing core n (fun r => r.written e'.tile0) else s
  | _ =>
    let off := dst.toNat % 2 ^ 18 + at_
    if 0x40000 < off + e.esize then .error (.fault s .ibank true none)
    else
      let put (t : Table Byte) : Table Byte := (cellsAt off bs).foldl (fun t c => tset 0 t c.1 c.2) t
      .ok (s.modCore core (fun k =>
        if dst.getLsbD 18 then { k with ibank1 := put k.ibank1, imask1 := k.imask1 ||| m }
        else { k with ibank0 := put k.ibank0, imask0 := k.imask0 ||| m }))

/-- One element of an entry. A BCLEAR and a RELEASE go 16 bytes at a time (R273, R362). -/
def State.elem (s : State) (core ctx : Nat) (e : CopyEntry) : ETry State :=
  match e.kind with
  | .copy cmd src dst fill => do
    let (s, e, bs, m) ← s.copySource core ctx e cmd src
    let s ← s.copyDest core ctx e cmd dst fill bs (m ||| e.cmask)
    return s.modEntry core ctx e.uid (fun e => { e with k := e.k + 1 })
  | .bclear first _ _ => do
    let va : Word := BitVec.ofNat 64 (first + 16 * e.k)
    let hs ← s.elemCheck core e .write 0 va 16
    let s ← s.elemSend core ctx e (zeroCells (hs.map (·.pa))) 0 false true
    return s.modEntry core ctx e.uid (fun e => { e with k := e.k + 1 })
  | .release _ _ _ src _ => do
    let (s, bs, m) ← s.elemRead core e (src + BitVec.ofNat 64 (16 * e.k)) 16
    return s.modEntry core ctx e.uid (fun e => { e with k := e.k + 1, data := e.data ++ bs, dmask := e.dmask ||| m })
  | .publish .. => .error (.wait s)

/-- The number of the tile of its source ring that holds the next element: the tile popped last, or the ring's next. -/
def CopyEntry.sourceTile (e : CopyEntry) (r : Ring) : BitVec 32 := if e.k * e.esize / r.popBytes < e.popped then e.src0 else r.head

/-- The side and the address at which an error of an element stands, at the side named where the entry has both. -/
def State.errorAt (s : State) (core : Nat) (e : CopyEntry) (side : Bool) : Bool × Option Word :=
  match e.kind with
  | .copy cmd src dst _ =>
    let k := s.core core
    if !side then
      if cmdSkind cmd = 0 then (false, some (lrAddr e.srec src e.k))
      else
        let r := k.ring (src.toNat % 16)
        (false, some (ownVa (r.tileOff (e.sourceTile r) + e.k * e.esize % r.popBytes * r.tileBytes / r.popBytes)))
    else if cmdDkind cmd = 0 then (true, some (lrAddr e.drec dst e.k))
    else if cmdDkind cmd = 1 then
      let r := k.ring (dst.toNat % 16)
      (true, some (ownVa (r.tileOff (if e.tiles ≤ e.k * e.esize / r.tileBytes then r.resv else e.tile0) + e.k * e.esize % r.tileBytes)))
    else (true, none)
  | .bclear first _ _ => (true, some (BitVec.ofNat 64 (first + 16 * e.k)))
  | .release _ _ _ src _ => (false, some (src + BitVec.ofNat 64 (16 * e.k)))
  | .publish .. => (true, none)

/-- What comes before the first element: the checks of the beginning, until they are passed. -/
def State.elemReady (s : State) (core ctx : Nat) (e : CopyEntry) : ETry (State × CopyEntry) :=
  match e.kind with
  | .copy cmd src dst _ =>
    if e.total ≠ 0 then .ok (s, e)
    else match s.beginFault core e cmd src dst with
      | some (c, side, va) => .error (.fault s c side va)
      | none =>
        let e := { e with total := e.count }
        .ok (s.setEntry core ctx e, e)
  | _ => .ok (s, e)

/-- The next element of an entry in progress; an entry that has none left is unchanged. None is sent before what the entry's context did
ahead of it is performed (R384, R474). -/
def State.elemNext (s : State) (core ctx uid : Nat) : ETry State :=
  match (s.ctx core ctx).entry uid with
  | none => .ok s
  | some e =>
    if e.stage ≠ CopyStage.running || s.forkWaits e.uid core ctx then .error (.wait s)
    else do
      let (s, e) ← s.elemReady core ctx e
      match e.failing with
      | some (c, side) =>
        let at_ := s.errorAt core e side
        if e.count ≤ e.k then return s else .error (.fault s c at_.1 at_.2)
      | none => if e.count ≤ e.k then return s else s.elem core ctx e

/-- Elements one after the other, at most `fuel` of them, until one stops. -/
def State.elemRun (core ctx uid : Nat) : Nat → State → ETry State
  | 0, s => .ok s
  | n + 1, s =>
    match s.elemNext core ctx uid with
    | .ok t => State.elemRun core ctx uid n t
    | .error e => .error e

def ElemStop.state : ElemStop → State
  | .wait s => s
  | .fault s _ _ _ => s
  | .escape s _ => s

/-- The state that elements leave, whether or not one stopped. -/
def reached : ETry State → State
  | .ok s => s
  | .error e => e.state

/-! ## Completion (R248, R249) -/

/-- An entry completes: its handle FULL, its source handle FREE, the entry released. TAIL has passed the tiles that it wrote, as far as
those before them are written (R237). -/
def State.finishEntry (s : State) (core ctx : Nat) (e : CopyEntry) (skipped : Bool) : State :=
  let s := match e.destRing with
    | some n => s.modRing core n Ring.settled
    | none => s
  let s := match e.kind.dhnd with
    | some h => s.fillHandle core h skipped
    | none => s
  let s := match e.kind.shnd with
    | some h => s.freeHandle core h
    | none => s
  s.dropEntry core ctx e.uid

/-- A release whose bytes have all been read goes whole to the gate (R362). -/
def State.handOver (s : State) (core ctx : Nat) (e : CopyEntry) (pol : Nat) (off : Word) : State :=
  let g : GateReq :=
    { part := s.partOf core, core := core, ctx := ctx, uid := e.uid, pol := pol, off := off, data := e.data,
      mask := e.dmask ||| e.cmask, image := ((s.imageOf core).map (·.digest)).getD 0 }
  { s with gate := s.gate ++ [g] }.modEntry core ctx e.uid (fun e => { e with stage := CopyStage.gate })

/-- An entry whose elements are all done and performed completes; a release goes to the gate, unless the mesh takes nothing (R130). -/
def State.entryDone (s : State) (core ctx uid : Nat) : State :=
  match (s.ctx core ctx).entry uid with
  | none => s
  | some e =>
    if e.stage ≠ CopyStage.running || e.k < e.count || s.entryOpen core ctx uid then s
    else match e.kind with
      | .release pol _ _ _ off => if s.meshPause then s else s.handOver core ctx e pol off
      | .publish .. => s
      | .copy .. => if e.total = 0 then s else s.finishEntry core ctx e false
      | .bclear .. => s.finishEntry core ctx e false

/-- COPY_COMPLETE: what is left of an entry is done; it completes unless an element waits or fails, or a write is on its
way. -/
def execCopyComplete (core ctx ent : Nat) (s : State) : Out :=
  match s.entryAt core ctx ent with
  | none => .next s
  | some e =>
    if e.stage ≠ CopyStage.running then .next s
    else match State.elemRun core ctx e.uid (e.count + 1) s with
      | .ok t => .next (t.entryDone core ctx e.uid)
      | .error x => .next x.state

/-! ## Beginning (R248) -/

/-- Whether the ring ends of an entry can reserve or pop; an unconfigured ring does not hold it back (R236, R237). -/
def Core.ringsReady (k : Core) (e : CopyEntry) : Bool :=
  (match e.destRing with
   | some n => !(k.ring n).configured || (k.ring n).canReserve 1
   | none => true) &&
  (match e.srcRing with
   | some n => !(k.ring n).configured || ((k.ring n).held != 0 && !k.ringHeld n)
   | none => true)

/-- Whether an entry may begin, apart from the count in progress. -/
def Core.mayBegin (k : Core) (e : CopyEntry) : Bool :=
  (match e.kind.dhnd with
   | some h => (k.handle h).st == .free
   | none => true) &&
  (match e.kind.shnd with
   | some h => (k.handle h).st == .full
   | none => true) &&
  k.ringsReady e

/-- Entries of a core in progress. -/
def Core.inProgress (k : Core) : Nat :=
  ((k.ctxs.flatMap (fun x => x.2.copyq)).filter (fun e => e.stage != .queued)).length

/-- An entry as it begins: the records are read, the egress windows hold, a destination ring reserves its tile, and a
PUBLISH takes its place in the order. -/
def State.beginEntry (s : State) (core ctx : Nat) (e : CopyEntry) : State :=
  let k := s.core core
  let e := { e with stage := CopyStage.running, egress := (s.part (s.partOf core)).egress }
  let e := match e.kind with
    | .copy cmd _ _ _ =>
      { e with srec := if cmdSkind cmd = 0 then tget 0 k.layouts (cmdSrec cmd) else 0
               drec := if cmdDkind cmd = 0 then tget 0 k.layouts (cmdDrec cmd) else 0 }
    | .publish .. => { e with total := s.nextId + 1 }
    | _ => e
  let (e, s) := match e.destRing with
    | some n =>
      if (k.ring n).configured then
        ({ e with tile0 := (k.ring n).resv, tiles := 1 }, s.modRing core n (fun r => r.reserve 1))
      else (e, s)
    | none => (e, s)
  let s := match e.kind.dhnd with
    | some h => s.setHandle core h (fun x => { x with st := .filling })
    | none => s
  let s := match e.kind.shnd with
    | some h => s.setHandle core h (fun x => { x with st := .draining })
    | none => s
  { s with nextId := s.nextId + 1 }.setEntry core ctx e |>.modCore core (fun k => { k with lastBegan := ctx })

/-- The queue entries whose conditions to begin all hold. -/
def Core.readyEntries (k : Core) : List Nat :=
  if 4 ≤ k.inProgress then []
  else ((k.ctxs.flatMap (fun x => x.2.copyq)).filter (fun e => e.stage == .queued && k.mayBegin e)).map (·.uid)

/-- COPY_BEGIN: of the entries at the heads of their queues that may begin, that of the context next in rotation begins. Its conditions
held when the core's present cycle began, and hold still (R248); an LDA of the operation's own bundle comes first (R370). -/
def execCopyBegin (core : Nat) (s : State) : Out :=
  let k := s.core core
  if k.owner.isNone || 4 ≤ k.inProgress then .next s
  else
    let heads := [1, 2, 3, 4].filterMap (fun i =>
      let c := (k.lastBegan + i) % 4
      ((k.ctx c).copyq.find? (fun e => e.stage == .queued)).map (fun e => (c, e)))
    match heads.find? (fun h => k.ready.contains h.2.uid && k.mayBegin h.2 && !s.acquiring h.2.uid core h.1) with
    | none => .next s
    | some (c, e) => .next (s.beginEntry core c e)

/-! ## Faults (R250, R410, R438) -/

def copyFaultTrap (f : CopyFaultRec) : AsyncTrap := { cause := .copyFault, code := BitVec.ofNat 8 f.cause.code, addr := f.faddr }

/-- Reports the next fault of a context, if one waits (R250). -/
def State.tellFault (s : State) (core ctx : Nat) : State :=
  s.reportFault core ctx (fun s f => s.raiseAsync core ctx (copyFaultTrap f))

/-- A fault of a launch that retires is taken as SKIP, and the status becomes TRAPPED (R438). -/
def State.skipFaulted (s : State) (core ctx : Nat) : State :=
  match (s.core core).owner, s.launchOf core with
  | some o, some l =>
    if l.stage == .retiring then
      (s.ctx core ctx).copyq.foldl (fun s e =>
        if e.stage == .faulted then (s.skipEntry core ctx e).modLaunch o (fun l => { l with status := .trapped }) else s) s
    else s
  | _, _ => s

/-- The fault of an entry at its element, as the registers will report it. A cause without a failing address leaves `copy.faddr`
open. -/
def State.failEntry (s : State) (core ctx : Nat) (e : CopyEntry) (c : CopyCause) (side : Bool) (va : Option Word) : State :=
  let open_ := Config.freeWord s.freeCount
  let recs : Nat × Nat := match e.kind with
    | .copy cmd _ _ _ => (cmdDrec cmd, cmdSrec cmd)
    | _ => (0, 0)
  let f : CopyFaultRec :=
    { cause := c, side := side, handle := e.kind.dhnd.getD 0, drec := recs.1, srec := recs.2,
      fidx := e.k, faddr := va.getD open_ }
  let s := { s with freeCount := s.freeCount + 1 }
  let s := s.modEntry core ctx e.uid (fun e => { e with stage := CopyStage.faulted, fault := some f, reported := false, failing := none })
  if ((s.launchOf core).map (fun l => l.stage == .retiring)).getD false then s.skipFaulted core ctx else s.tellFault core ctx

/-- An entry that left its phase ends as a SKIP would end it, and its context takes PHASE_ESCAPE (R410). -/
def State.escapeEntry (s : State) (core ctx : Nat) (e : CopyEntry) (va : Word) : State :=
  (s.skipEntry core ctx e).raiseAsync core ctx { cause := .phaseEscape, code := 0, addr := va }

/-- The next element of a running entry meets an error on a side; an entry that has none left meets none. -/
def CopyEntry.struckBy (e : CopyEntry) (c : CopyCause) (side : Bool) : CopyEntry :=
  if e.stage = CopyStage.running && decide (e.k < e.count) then { e with failing := e.failing.orElse (fun _ => some (c, side)) } else e

/-- COPY_ELEMENT_FAULT: the elements before the failing one are written, and once they are performed the fault is reported;
`uncorrectable` names the side of an error at the next element itself. -/
def execCopyElementFault (core ctx ent : Nat) (uncorrectable : Option Bool) (s : State) : Out :=
  match s.entryAt core ctx ent with
  | none => .next s
  | some e =>
    if e.stage ≠ CopyStage.running then .next s
    else
      let s := match uncorrectable with
        | some side => s.modEntry core ctx e.uid (fun e => e.struckBy .uncorrectable side)
        | none => s
      let r := State.elemRun core ctx e.uid (e.count + 1) s
      let t := reached r
      if t.entryOpen core ctx e.uid then .next t
      else match r, (t.ctx core ctx).entry e.uid with
        | .error (.fault _ c side va), some e => .next (t.failEntry core ctx e c side va)
        | .error (.escape _ va), some e => .next (t.escapeEntry core ctx e va)
        | _, _ => .next t

/-- An uncorrectable error at a write of an entry that is on its way: the element faults, and neither it nor a later one is written.
That holds only while every later element is still on its way (R250, R434). -/
def State.failWrite (s : State) (w : WriteReq) : State :=
  match w.ent.bind (s.ctx w.core w.ctx).entry with
  | none => s
  | some e =>
    let mine (v : WriteReq) : Bool := v.core == w.core && v.ctx == w.ctx && v.ent == w.ent && !v.performed
    let later := s.writes.filter (fun v => mine v && decide (w.elem ≤ v.elem))
    if e.stage ≠ CopyStage.running || s.writes.any (fun v => mine v && decide (v.elem < w.elem)) || later.length + w.elem ≠ e.k then s
    else
      let s := { s with writes := s.writes.map (fun v =>
        if mine v then { v with cells := [], performed := true, acked := true } else v) }
      let e := { e with k := w.elem }
      let at_ := s.errorAt w.core e true
      (s.setEntry w.core w.ctx e).failEntry w.core w.ctx e .uncorrectable at_.1 at_.2

/-! ## Writes that reach their homes (R367) -/

/-- HOME_WRITE: a store that has arrived, or the next element of a queue entry. -/
def execHomeWrite (w : WriteRef) (s : State) : Out :=
  match w with
  | .store id =>
    match s.writes.find? (fun w => w.id == id) with
    | none => .next s
    | some w => .next (if s.canPerform w then s.performWrite w else s)
  | .copyElem core ctx ent =>
    match s.entryAt core ctx ent with
    | none => .next s
    | some e => .next (if e.stage = CopyStage.running then reached (s.elemNext core ctx e.uid) else s)

/-! ## PUBLISH (R355, R381, R407) -/

/-- Whether a PUBLISH of a window has begun before another and not completed. -/
def State.earlierPublish (s : State) (part win total : Nat) : Bool :=
  s.cores.any (fun k => (k.2.owner.map (·.part)) == some part && k.2.ctxs.any (fun x => x.2.copyq.any (fun e =>
    e.stage == .running && decide (e.total < total) &&
    (match e.kind with | .publish w _ => w == win | _ => false))))

/-- Whether data of a mask may go to bytes of a host window (R355). -/
def egressOk (egress : Table Egress) (m : Mask) (pas : List Nat) : Bool :=
  match bitList m.toNat 16 with
  | [] => true
  | [i] => pas.all (fun a => egress.any (fun e => e.2.party == i && decide (e.2.base ≤ a) && decide (a < e.2.base + e.2.size)))
  | _ => false

/-- PUBLISH_VERSION_WRITE: the writes of the device to a window are sent as they are made, so that the version goes after
them. It follows what the context did before the PUBLISH (R384), and waits while the mesh takes nothing (R130). -/
def execPublishVersionWrite (core ctx ent : Nat) (s : State) : Out :=
  match s.entryAt core ctx ent with
  | none => .next s
  | some e =>
    match e.kind with
    | .publish win _ =>
      let part := s.partOf core
      match tfind (s.part part).pubwins win with
      | none => .next s
      | some w =>
        if e.stage ≠ CopyStage.running || s.earlierPublish part win e.total || s.forkWaits e.uid core ctx || s.meshPause then .next s
        else
          let pas := (List.range 8).map (fun i => w.counter + i)
          if !pas.all s.reachable then .next (s.failEntry core ctx e .uncorrectable true none)
          else if !egressOk e.egress e.cmask pas then .next (s.failEntry core ctx e .labelStore true none)
          else
            let v := w.version + 1
            let s := s.modPart part (fun p => { p with pubwins := tput p.pubwins win { w with version := v } })
            .next ((s.pokes (cellsAt w.counter (bytesOf 8 v.toNat))).finishEntry core ctx e false)
    | _ => .next s

/-! ## The release gate (R363, R364) -/

/-- The reason for which the gate refuses a release, 0 when it accepts. -/
def gateReason (g : GateReq) : Option Policy → Nat
  | none => 1
  | some p =>
    if p.image ≠ g.image then 2
    else if g.mask &&& ~~~p.mask ≠ 0 then 3
    else if p.maxBytes < g.data.length then 4
    else if p.size < g.off.toNat + g.data.length then 5
    else if p.count = 0 then 6
    else 0

/-- RELEASE_GATE_DECISION: the release handed over first is written or refused, and recorded. The gate writes as a copy does, so behind a
link or a peer port that is down the write of an accepted release fails (R445, R446): the release takes a fault at its destination, whose
CRESUME hands it over again (log entry 89). -/
def execReleaseGateDecision (s : State) : Out :=
  match s.gate with
  | [] => .next s
  | g :: gs =>
    let pol := tfind (s.part g.part).policies g.pol
    let base := (pol.map (·.base)).getD 0
    let n := gateReason g pol
    let reached := s.reachable (base + g.off.toNat)
    let s := { s with gate := gs }
    let s :=
      if n = 0 then
        (if reached then s.pokes (cellsAt (base + g.off.toNat) g.data) else s).modPart g.part (fun p =>
          { p with policies := p.policies.map (fun e => if e.1 = g.pol then (e.1, { e.2 with count := e.2.count - 1 }) else e)
                   relAccepted := p.relAccepted + 1 })
      else
        s.modPart g.part (fun p =>
          { p with relLog := tput p.relLog (p.relRefused.toNat % 16)
                     (BitVec.ofNat 64 (n * 2 ^ 60 + g.pol * 2 ^ 55 + (base + g.off.toNat) % 2 ^ 52))
                   relRefused := p.relRefused + 1 })
    match (s.ctx g.core g.ctx).entry g.uid with
    | none => .next s
    | some e =>
      .next (if n = 0 && !reached then s.failEntry g.core g.ctx { e with k := 0 } .uncorrectable true none
             else (s.modCtx g.core g.ctx (fun x => { x with relLast := BitVec.ofNat 5 (16 + n) })).finishEntry g.core g.ctx e (n != 0))

/-! ## Rings and streams (R237, R242, R243) -/

/-- RING_TAIL_ADVANCE. -/
def execRingTailAdvance (core ring : Nat) (s : State) : Out :=
  .next (if ring < 16 then s.modRing core ring Ring.settled else s)

/-- The context and the port of a core that a generator feeds, in a direction (R240). -/
def Core.fed (k : Core) (gen : Nat) (out : Bool) : Option (Nat × Nat × Port) :=
  k.ctxs.findSome? (fun x =>
    (x.2.ports.find? (fun p => p.2.desc.gen == gen && p.2.desc.out == out)).map (fun p => (x.1, p.1, p.2)))

def State.setPort (s : State) (core ctx q : Nat) (p : Port) : State :=
  s.modCtx core ctx (fun x => { x with ports := tput x.ports q p })

/-- Elements of one format as packed bytes of another, under a captured FMT. RAW bytes are kept. -/
def recode (fmt : BitVec 4) (src dst : Fmt) (bs : List Byte) : List Byte :=
  if src = .raw then bs
  else (elemsOf (fmtBits src) bs).flatMap (fun v => bytesOf (fmtBits dst / 8) (convert fmt src dst v).1)

/-- The slice addresses of a transfer. -/
def StreamDesc.pas (d : StreamDesc) (core k : Nat) : List Nat :=
  (List.range d.bytes).map (fun i => slicePa core ((d.addr k).toNat + i))

/-- A generator that leaves its phase stops: nothing it holds unwritten is written, and its context takes PHASE_ESCAPE
(R410). -/
def State.stopPort (s : State) (core ctx q : Nat) (p : Port) (off : Nat) : State :=
  (s.setPort core ctx q { p with dead := true, pushes := [] }).raiseAsync core ctx
    { cause := .phaseEscape, code := 0, addr := ownVa off }

/-- STREAM_READAHEAD: the next transfer of an input port, up to four ahead of its pops. The generator starts in the cycle after the SBIND,
so a bundle meets its first vector two cycles after the SBIND at the earliest (R264); what the context did before the SBIND comes first
(R384). -/
def execStreamReadahead (core gen : Nat) (s : State) : Out :=
  match (s.core core).fed gen false with
  | none => .next s
  | some (c, q, p) =>
    let st := (s.ctx core c).st
    let d := p.desc
    let k := if p.next = d.total && d.repeat_ then 0 else p.next
    if p.dead || 4 ≤ p.buf.length || d.total ≤ k || !(st == .running || st == .frozenTrap) || (s.core core).halted ||
       decide ((s.core core).ticks < p.first) || s.forkWaits p.num core c then .next s
    else
      let pas := d.pas core k
      match s.engineEscape core p.phase 4 false pas with
      | some i => .next (s.stopPort core c q p ((d.addr k).toNat + i))
      | none =>
        if s.lags (dieOf core) pas then .next s
        else
          let v : Lab 1024 :=
            { val := BitVec.ofNat 1024 (leValue (recode p.fmt.val d.memFmt d.regFmt (s.peeks pas)))
              mask := p.bmask ||| unionMasks (pas.map s.blockMask) }
          .next (s.setPort core c q { p with buf := p.buf ++ [v], next := k + 1 })

/-- STREAM_PUSH_WRITE: the oldest push of an output port is written. -/
def execStreamPushWrite (core gen : Nat) (s : State) : Out :=
  match (s.core core).fed gen true with
  | none => .next s
  | some (c, q, p) =>
    match p.pushes with
    | [] => .next s
    | i :: rest =>
      let d := p.desc
      let pas := d.pas core i.k
      if p.dead then .next (s.setPort core c q { p with pushes := rest })
      else match s.engineEscape core p.phase 4 true pas with
        | some n => .next (s.stopPort core c q p ((d.addr i.k).toNat + n))
        | none =>
          if s.mustWait (s.die (dieOf core)).clk pas then .next s
          else
          let bs := recode p.fmt.val d.regFmt d.memFmt (bytesOf (widthBits d.width / 8) i.val.toNat)
          .next ((s.setPort core c q { p with pushes := rest }).writeNow (dieOf core) core c false (pas.zip bs) i.mask false)

/-! ## The transpose unit and the random queue (R253, R254) -/

/-- In store mode the next column is written when it is ready, before what the core issues in that cycle (R253, R372); that it is out
shows from the next cycle on (R259). An LDA of the bundle that completed the block comes first (R370, R384). -/
def State.storeColumn (s : State) (core : Nat) : State :=
  let k := s.core core
  let t := k.trans
  match t.blocks with
  | [] => s
  | b :: _ =>
    if !t.store || t.late.isSome || !t.ready k.ticks || s.acquiring b.num core b.ctx then s
    else
      let off := t.base + t.col * 16 * t.pitch
      let pas := (List.range 128).map (fun i => slicePa core (off + i))
      let out (drop : Bool) (s : State) : State := s.modCore core (fun k => { k with trans := { t with late := some (drop, k.ticks) } })
      match s.engineEscape core b.phase 3 true pas with
      | some i => (out true s).raiseAsync core b.ctx { cause := .phaseEscape, code := 0, addr := ownVa (off + i) }
      | none =>
        let c := b.column t.w32 t.col
        out false (s.engineWrite core b.ctx (pas.zip (bytesOf 128 c.val.toNat)) c.mask true)

/-- TRANSPOSE_COLUMN_READY: a column that is ready is written. Each is written in the cycle of the core in which it becomes so. -/
def execTransposeColumnReady (core : Nat) (s : State) : Out := .next (s.storeColumn core)

/-- The generator makes the vector of this cycle: for the context next in rotation whose four are not all held (R254). -/
def State.makeRandom (s : State) (core : Nat) : State :=
  let k := s.core core
  let lacks (c : Nat) : Bool :=
    let x := k.ctx c
    (x.st == .running || x.st == .frozenTrap) && decide (x.rndHeld < 4)
  match ([1, 2, 3, 4].map (fun i => (k.lastRnd + i) % 4)).find? lacks with
  | none => s
  | some c =>
    if k.owner.isNone || k.halted || k.rndMade then s
    else (s.modCtx core c (fun x => { x with rndHeld := x.rndHeld + 1 })).modCore core (fun k => { k with lastRnd := c, rndMade := true })

/-- RANDOM_VECTOR_PRODUCE: the vector of the present cycle of the core, if it has not been made. -/
def execRandomVectorProduce (core : Nat) (s : State) : Out := .next (s.makeRandom core)

/-! ## The engines in a cycle of their core -/

/-- Results that must land by now (R282). -/
def State.landDue (s : State) (core : Nat) : State :=
  (s.reads.filter (fun r => r.core == core && (match r.due with | some t => decide (t ≤ (s.core core).ticks) | none => false))).foldl
    (fun s r => s.landRead r) s

/-- What a cycle of a core does to its engines before anything issues: the random vector of the cycle before is made if it has not
been, what the transpose unit did then shows and the column that is ready is written, positions freed before count as free, and the conditions of the queue entries are noted
(R237, R248, R253, R254). -/
def State.engineCycle (s : State) (core : Nat) : State :=
  let s := (s.makeRandom core).modCore core (fun k => { k with trans := k.trans.settled k.ticks })
  let s := (s.storeColumn core).landDue core
  s.modCore core (fun k =>
    let k := { k with rndMade := false, rings := k.rings.map (fun (e : Nat × Ring) => (e.1, { e.2 with freed := 0 })) }
    { k with ready := k.readyEntries })

end Sys2Proof.Machine
end

