-- ==== Sys2Proof/Machine/Uses.lean ====
section
/-! DEFINITION. Which registers an instruction names: the reads that count towards the banks (R45, R169), and every register
that the budget bounds (R41). -/

namespace Sys2Proof.Machine

/-- The four budgeted files (R39). -/
inductive RFile where
  | s | x | y | d
  deriving DecidableEq, Repr

/-- A register, or a chain of `len` registers that starts at a multiple of `len` (R41). -/
structure RegUse where
  file : RFile
  n : Nat
  len : Nat
  deriving DecidableEq, Repr

def chainLen : Chain → Nat
  | .c1 => 1 | .c2 => 2 | .c4 => 4 | .c8 => 8 | .c16 => 16

def oneReg (f : RFile) (n : Nat) : RegUse := { file := f, n := n, len := 1 }

/-- Operand codes 0 to 31 as registers of a file. -/
def codeRegs (f : RFile) (len : Nat) (os : List Opnd) : List RegUse :=
  os.filterMap fun o => match o with
    | .reg n => some { file := f, n := n.toNat, len := len }
    | _ => none

/-- The file that operand codes of a slot name (R131); slot 3 names m registers, which no budget bounds. -/
def slotFile : Nat → Option RFile
  | 0 => some .s
  | 1 => some .x
  | 2 => some .y
  | _ => none

def xfileOf : XFile → Option RFile
  | .s => some .s
  | .x => some .x
  | .y => some .y
  | .m => none

def vfileOf : VFile → RFile
  | .x => .x
  | .y => .y

/-- Registers read besides the operand codes: data registers in D, destinations that are also read, and the operands of
directions and of XMOV, which name other files. `none` says that the operand codes of the slot's own file are all. -/
def otherReads (f : RFile) (i : Instr) : Option (List RegUse) :=
  match i with
  | .xmov g => some (if g.w then [] else match xfileOf g.src with
      | some k => codeRegs k 1 [g.a]
      | none => [])
  | .movsh g => some [oneReg .s g.d.toNat]
  | .st g => some (codeRegs .s 1 [g.a] ++ [oneReg .s g.d.toNat])
  | .stfe g => some (codeRegs .s 1 [g.a] ++ [oneReg .s g.d.toNat])
  | .stl g => some (codeRegs .s 1 [g.a] ++ [oneReg .s g.d.toNat])
  | .sysw g => some [oneReg .s g.d.toNat]
  | .acas g => some (codeRegs .s 1 [g.a, g.b] ++ [oneReg .s g.d.toNat])
  | .vfma g | .vfms g => some (codeRegs f 1 [g.a, g.b] ++ [oneReg f g.d.toNat])
  | .vimad g => some (codeRegs f 1 [g.a, g.b] ++ [oneReg f g.d.toNat])
  | .vmrg g => some (codeRegs f 1 [g.a] ++ [oneReg f g.d.toNat])
  | .vins g => some (codeRegs f 1 [g.a] ++ [oneReg f g.d.toNat])
  | .vpack g => some (codeRegs f 1 [g.a] ++ [oneReg f g.d.toNat])
  | .vst g => some (codeRegs f 1 [g.a, g.b] ++ [oneReg f g.d.toNat])
  | .vscatter g => some (codeRegs f 1 [g.a, g.b] ++ [oneReg f g.d.toNat])
  | .dnorm g => some (codeRegs .y (chainLen g.chain) [g.a])
  | .dunnorm g => some (codeRegs .d (chainLen g.chain) [g.a])
  | .dmov g | .dmovRaw g | .dneg g => some (codeRegs .d (chainLen g.chain) [g.a])
  | .dzero _ => some []
  | .ddot g | .dadd g | .dsub g | .dmul g => some (codeRegs .d (chainLen g.chain) [g.a, g.b])
  | .dscale g | .dnset g => some (codeRegs .d (chainLen g.chain) [g.a] ++ codeRegs .y 1 [g.b])
  | .dmaxcos g => some (codeRegs .d (chainLen g.chain) [g.a] ++ if g.acc then [oneReg .y g.d.toNat] else [])
  | .dnget g => some (codeRegs .d 1 [g.a])
  | _ => none

/-- The register of TRPUSH and TRPULL, which counts as a source of XMOV does (R143, R278): a TRPULL with W writes no register, and
none is counted (log entry 20). -/
def transReads : Instr → List RegUse
  | .trpush g => [oneReg (vfileOf g.file) g.r.toNat]
  | .trpull g => if g.w then [] else [oneReg (vfileOf g.file) g.r.toNat]
  | _ => []

/-- The registers that a slot's instruction reads, each once (R45). -/
def regReads (slot : Nat) (i : Instr) : List RegUse :=
  match slotFile slot with
  | none => transReads i
  | some f => ((otherReads f i).getD (codeRegs f 1 i.opnds)).dedup

/-- Registers that an instruction names without reading them: an XMOV with W reads and writes nothing (R204), and R41 bounds its
source all the same. -/
def namedOnly : Instr → List RegUse
  | .xmov g => if g.w then (match xfileOf g.src with
      | some k => codeRegs k 1 [g.a]
      | none => []) else []
  | _ => []

/-- The registers that a slot's instruction names as destinations. -/
def regDests (slot : Nat) (i : Instr) : List RegUse :=
  let v : BitVec 5 → List RegUse := fun d => match slotFile slot with
    | some f => [oneReg f d.toNat]
    | none => []
  let s : BitVec 5 → List RegUse := fun d => [oneReg .s d.toNat]
  match i with
  | .add g | .sub g | .mul g | .mulh g | .mulhu g | .div g | .divu g | .rem g | .remu g | .and g | .or g | .xor g
  | .andn g | .shl g | .shr g | .sar g | .min g | .max g | .minu g | .maxu g | .aadd g | .aand g | .aor g | .axor g
  | .amin g | .amax g | .aminu g | .amaxu g | .aswap g | .acas g => s g.d
  | .clz g | .ctz g | .popc g | .axread g | .gquery g | .lblget g => s g.d
  | .sel g => s g.d
  | .addi g | .andi g | .ori g | .xori g => s g.d
  | .shli g | .shri g | .sari g => s g.d
  | .movi g | .movsh g => s g.d
  | .ld g | .lds g => s g.d
  | .ldfe g => s g.d
  | .pld g => s g.d
  | .xmov g => match xfileOf g.dst with
      | some f => [oneReg f g.d.toNat]
      | none => []
  | .sysr g => s g.d
  | .lda g => s g.d
  | .vadd g | .vsub g | .vmul g | .vfma g | .vfms g | .vmin g | .vmax g => v g.d
  | .vabs g | .vneg g => v g.d
  | .vrcp g | .vrsq g | .vsqrt g | .vexp2 g | .vlog2 g | .vmov g => v g.d
  | .viadd g | .visub g | .vimul g | .vimad g | .vimin g | .vimax g => v g.d
  | .vand g | .vor g | .vxor g | .vandn g | .vshl g | .vshr g | .vsar g | .vperm g | .vgather g => v g.d
  | .vmrg g => v g.d
  | .vred g => v g.d
  | .vbcast g | .vextr g | .vins g => v g.d
  | .vcvt g => v g.d
  | .vpack g | .vunpk g => v g.d
  | .vmovPush g => v g.d
  | .vld g | .vlds g => v g.d
  | .dnorm g => [{ file := .d, n := g.d.toNat, len := chainLen g.chain }]
  | .dunnorm g => [{ file := .y, n := g.d.toNat, len := chainLen g.chain }]
  | .dmov g | .dneg g => [{ file := .d, n := g.d.toNat, len := chainLen g.chain }]
  | .dmovRaw g => [{ file := .y, n := g.d.toNat, len := chainLen g.chain }]
  | .dzero g => [{ file := .d, n := g.d.toNat, len := chainLen g.chain }]
  | .dadd g | .dsub g | .dmul g | .dscale g | .dnset g => [{ file := .d, n := g.d.toNat, len := chainLen g.chain }]
  | .ddot g => [oneReg .y g.d.toNat]
  | .dmaxcos g => [oneReg .y g.d.toNat]
  | .dnget g => [oneReg .y g.d.toNat]
  | .trpush g => [oneReg (vfileOf g.file) g.r.toNat]
  | .trpull g => [oneReg (vfileOf g.file) g.r.toNat]
  | _ => []

def rfileIndex : RFile → Nat
  | .s => 0 | .x => 1 | .y => 2 | .d => 3

/-- Whether a named register lies within the budget of its file (R41); a destination of s0 always does. -/
def useOk (budget : List Nat) (u : RegUse) : Bool :=
  (u.file == .s && u.n == 0) ||
  (decide (u.n + u.len ≤ (budget[rfileIndex u.file]?).getD 0) && u.n % u.len == 0)

/-- Whether every register that an instruction names lies within the budget. -/
def regsOk (budget : List Nat) (slot : Nat) (i : Instr) : Bool :=
  (regReads slot i).all (useOk budget) && (namedOnly i).all (useOk budget) && (regDests slot i).all (useOk budget)

/-- The registers of a chain, one by one. -/
def RegUse.regs (u : RegUse) : List (RFile × Nat) := (List.range u.len).map (fun i => (u.file, u.n + i))

/-- The extra reads of one file (R169): `mirror` marks mirrored registers. -/
def extraReads (mirror : Nat) (file : RFile) (rs : List (RFile × Nat)) : Nat :=
  let mine := (rs.filter (fun r => r.1 == file && !(file == .s && r.2 == 0))).map (·.2)
  let m := (mine.filter (fun n => mirror.testBit n)).length
  let n0 := (mine.filter (fun n => !mirror.testBit n && n % 2 == 0)).length
  let n1 := (mine.filter (fun n => !mirror.testBit n && n % 2 == 1)).length
  (n0 - 2) + (n1 - 2) + (m - (2 - n0) - (2 - n1))

/-- The instructions of a bundle with their slots. -/
def bundleOps (b : Bundle) : List (Nat × Instr) :=
  (match b.op0 with
   | some i => [(0, i)]
   | none => []) ++ [(1, b.op1), (2, b.op2), (3, b.op3)]

/-- The stall cycles that the bank ports cost a bundle (R169): the most extra reads over the four files. -/
def bankExtra (mirrors : List (BitVec 32)) (b : Bundle) : Nat :=
  let rs := (bundleOps b).flatMap (fun e => ((regReads e.1 e.2).flatMap RegUse.regs).dedup)
  let ex := fun f => extraReads ((mirrors[rfileIndex f]?).getD 0).toNat f rs
  max (max (ex .s) (ex .x)) (max (ex .y) (ex .d))

/-- Whether an instruction is a branch, call, return or BSWAP, ERET included (R195, R422). -/
def isBranch : Instr → Bool
  | .br _ => true
  | .call _ => true
  | .calli _ => true
  | .ret _ => true
  | .bswap _ => true
  | .eret _ => true
  | _ => false

def isNop : Instr → Bool
  | .nop _ => true
  | _ => false

end Sys2Proof.Machine
end

