-- ==== Sys2Proof/Machine/Directions.lean ====
section
/-! DEFINITION. Slot 2, direction instructions: chains of lanes with a norm (R229 to R231, R330 to R340), and the scan of
DMAXCOS cycle by cycle (R340). -/

namespace Sys2Proof.Machine

/-! ## Directions (R229) -/

/-- A direction as read: its lanes, its norm, whether it is the zero code, and its mask. -/
structure Direction where
  lanes : List Int
  norm : Int
  zero : Bool
  mask : Mask
  deriving DecidableEq, Repr

/-- What a direction instruction writes: lanes and norm, with its flags. -/
structure DirResult where
  lanes : List Int
  norm : Int
  flags : BitVec 8
  deriving DecidableEq, Repr

/-- The norm of the zero code. -/
def zeroNorm : Int := -32768

def zeroCode (flags : BitVec 8) : DirResult := { lanes := [], norm := zeroNorm, flags := flags }

/-- log₂ of the chain length (R165). -/
def chainLog : Chain → Nat
  | .c1 => 0 | .c2 => 1 | .c4 => 2 | .c8 => 3 | .c16 => 4

/-- The signed 16-bit lanes of a vector. -/
def lanes16 (v : Vec) : List Int := (lanes v 16 64).map (signed 16)

/-- A d chain operand: d registers, each with its mask, or the zero code for code 45 (R330, R331). -/
def State.direction (s : State) (o : Opnd) (len : Nat) : Direction :=
  match o with
  | .reg n =>
    let regs := (List.range len).map (fun i => s.me.dreg (n.toNat + i))
    let nr := (s.me.nreg n.toNat).val
    { lanes := regs.flatMap (fun r => lanes16 r.val), norm := nr.toInt, zero := nr == 0x8000,
      mask := unionMasks (regs.map (·.mask)) }
  | _ => { lanes := [], norm := zeroNorm, zero := true, mask := 0 }

/-- The vector of register i of a chain of lanes; lanes that are not given are zero. -/
def chainReg (ls : List Int) (i : Nat) : Vec := ofLanes 16 (((ls.drop (64 * i)).take 64).map (wrapNat 16))

/-- Writes the lanes of a d chain, visible after L cycles, and two cycles later its norm (R165, R331). -/
def State.writeDir (s : State) (L : Nat) (wr : Bool) (d len : Nat) (r : DirResult) (m : Mask) : State :=
  let s := (List.range len).foldl (fun s i => s.quiet true (L + 1) wr (.dlanes (d + i)) (chainReg r.lanes i) m) s
  (s.quiet true (L + 3) wr (.dnorm d) (BitVec.ofNat 1024 (wrapNat 16 r.norm)) m).flagsIn L r.flags

/-- Writes y registers from lanes of e bits, 1,024 bits each; they enter no latch (R331). -/
def State.writeY (s : State) (L : Nat) (wr : Bool) (d : Nat) (v : Vec) (m : Mask) : State :=
  s.quiet true (L + 1) wr (.vreg .y d 0 1024) v m

def fxDir (L : Nat) (wr : Bool) (d : BitVec 4) (len : Nat) (_ : State) : FalseFx :=
  { dests := if wr then [] else (List.range len).map (fun i => (.dlanes (d.toNat + i), L + 1)) ++ [(.dnorm d.toNat, L + 3)],
    effect := false }

def fxY (L : Nat) (wr : Bool) (d : BitVec 4) (len : Nat) (_ : State) : FalseFx :=
  { dests := if wr then [] else (List.range len).map (fun i => (.vreg .y (d.toNat + i) 0 1024, L + 1)), effect := false }

/-- No pending result goes to the y registers of a chain, read or named as a destination, W or no W (R160, R164). -/
def State.yReady (s : State) (d len : Nat) : Try Unit :=
  if (List.range len).all (fun i => !s.pending (.vreg .y (d + i) 0 1024)) then .ok () else blocked 7

/-! ## Renormalisation (R230) -/

/-- A norm kept in range, with NSAT when it saturates (R229). -/
def clampNorm (n : Int) : Int × BitVec 8 :=
  (saturate n (-32767) 32767, flagIf (decide (n < -32767) || decide (32767 < n)) flagNSAT)

/-- An exact value i·2^e rounded to the nearest integer, ties to even. -/
def nearestInt (i e : Int) : Int := (roundInt .ne (decide (i < 0)) { m := i.natAbs, e := e, more := false }).1

/-- A positive FP32 code as an integer times a power of two. -/
def fp32Value (bits : Nat) : Nat × Int :=
  match fp32.decode bits with
  | .fin _ m e => (m, e)
  | _ => (0, 0)

def renormalise (ls : List Int) (n0 : Int) : DirResult :=
  let sq := ls.foldl (fun a l => a + l.natAbs * l.natAbs) 0
  if sq = 0 then zeroCode 0
  else
    let r := fp32Value (fp32.round .ne false (rsqrtMag sq (-28))).bits
    let lg := log2Mag sq (-28)
    let g := (roundInt .ne lg.1 { lg.2 with e := lg.2.e + 7 }).1
    let n := clampNorm (n0 + g)
    { lanes := ls.map (fun l => nearestInt (l * r.1) r.2), norm := n.1, flags := n.2 }

/-! ## DNORM and DUNNORM (R333, R334) -/

def halfFmt (bf : Bool) : FloatFmt := if bf then bf16 else fp16

/-- The largest exponent e with 2^e ≤ |v| over the finite values that are not zero. -/
def topExponent (vs : List FVal) : Option Int :=
  (vs.filterMap (fun v => match v with
    | .fin _ m e => if m = 0 then none else some (e + bitLen m - 1)
    | _ => none)).max?

def dnormResult (q : FloatFmt) (bits : List Nat) : DirResult :=
  let vs := bits.map q.decode
  if vs.any (fun v => v.isNan || v.isInf) then zeroCode flagINV
  else match topExponent vs with
    | none => zeroCode 0
    | some e => renormalise (vs.map (fun v => nearestInt v.int.1 (v.int.2 + 30 - e))) (256 * (e - 16))

/-- DNORM. -/
def execDnorm (f : FDN) (s : State) : Out :=
  let len := chainLen f.chain
  let L := 8 + chainLog f.chain
  slotRun f.gd (fxDir L f.w f.d len) (fun s =>
    match f.a with
    | .reg n => do
      s.yReady n.toNat len
      let regs := (List.range len).map (fun i => s.me.vreg .y (n.toNat + i))
      let m := s.me.base f.gd ||| s.me.fmt.mask ||| unionMasks (regs.map (·.mask))
      let bits := regs.flatMap (fun r => lanes r.val 16 64)
      return s.writeDir L f.w f.d.toNat len (dnormResult (halfFmt f.bf) bits) m
    | _ => raise .illegal) s

/-- The magnitude of lane ÷ 16384 × 2^(n ÷ 256). -/
def scaledMag (lane : Nat) (n : Int) : Mag :=
  let p := exp2Mag n (-8)
  if p.more then { m := p.m * lane / 2 ^ 20, e := p.e + 20 - 14, more := true } else { m := p.m * lane, e := p.e - 14, more := false }

/-- One lane of DUNNORM. -/
def dunnormLane (q : FloatFmt) (fmt : BitVec 4) (n : Int) (l : Int) : Nat × BitVec 8 :=
  if l = 0 then (0, 0) else ofRounded (q.round (rmOf fmt) (decide (l < 0)) (scaledMag l.natAbs n))

/-- DUNNORM. -/
def execDunnorm (f : FDN) (s : State) : Out :=
  let len := chainLen f.chain
  let L := 8 + chainLog f.chain
  slotRun f.gd (fxY L f.w f.d len) (fun s => do
    s.yReady f.d.toNat len
    let a := s.direction f.a len
    let m := s.me.base f.gd ||| s.me.fmt.mask ||| a.mask
    let rs := if a.zero then [] else a.lanes.map (dunnormLane (halfFmt f.bf) s.me.fmt.val a.norm)
    let g := gather rs
    let s := (List.range len).foldl (fun s i =>
      s.writeY L f.w (f.d.toNat + i) (ofLanes 16 ((g.1.drop (64 * i)).take 64)) m) s
    return s.flagsIn L g.2) s

/-! ## DMOV, DZERO, DNEG (R335) -/

/-- A direction operand with its lanes changed one by one: the zero code stays the zero code. -/
def dirMap (g : Int → Int) (a : Direction) : DirResult :=
  if a.zero then zeroCode 0 else { lanes := a.lanes.map g, norm := a.norm, flags := 0 }

/-- A d chain result of one d chain operand. -/
def dir1 (L : Nat) (gd : Guard) (wr : Bool) (d : BitVec 4) (a : Opnd) (chain : Chain) (g : Direction → DirResult)
    (s : State) : Out :=
  let len := chainLen chain
  slotRun gd (fxDir L wr d len) (fun s =>
    let a := s.direction a len
    .ok (s.writeDir L wr d.toNat len (g a) (s.me.base gd ||| a.mask))) s

/-- DMOV. -/
def execDmov (f : FD1) (s : State) : Out := dir1 2 f.gd f.w f.d f.a f.chain (dirMap id) s

/-- DMOV.raw. -/
def execDmovRaw (f : FD1) (s : State) : Out :=
  let len := chainLen f.chain
  slotRun f.gd (fxY 2 f.w f.d len) (fun s => do
    s.yReady f.d.toNat len
    let a := s.direction f.a len
    let ls := if a.zero then [] else a.lanes
    let m := s.me.base f.gd ||| a.mask
    return (List.range len).foldl (fun s i => s.writeY 2 f.w (f.d.toNat + i) (chainReg ls i) m) s) s

/-- DZERO. -/
def execDzero (f : FD0) (s : State) : Out :=
  let len := chainLen f.chain
  slotRun f.gd (fxDir 2 f.w f.d len) (fun s => .ok (s.writeDir 2 f.w f.d.toNat len (zeroCode 0) (s.me.base f.gd))) s

/-- DNEG. -/
def execDneg (f : FD1) (s : State) : Out := dir1 2 f.gd f.w f.d f.a f.chain (dirMap (fun l => -l)) s

/-! ## DSCALE, DNSET, DNGET (R336) -/

/-- A y operand: the low 32 bits, signed (R330). -/
def State.yOperand (s : State) (o : Opnd) : Try ((Int × Mask) × State) := do
  let (v, s) ← (match o with
    | .port _ => raise .illegal
    | .rnd => raise .illegal
    | _ => s.opndv o 1024 32 none : Try (Lab 1024 × State))
  return ((signed 32 (lane v.val 32 0), v.mask), s)

/-- A d chain result of a d chain and a y operand. -/
def dirNorm (f : FD2) (g : Direction → Int → DirResult) (s : State) : Out :=
  let len := chainLen f.chain
  slotRun f.gd (fxDir 2 f.w f.d len) (fun s => do
    let a := s.direction f.a len
    let (b, s) ← s.yOperand f.b
    return s.writeDir 2 f.w f.d.toNat len (g a b.1) (s.me.base f.gd ||| a.mask ||| b.2)) s

/-- DSCALE. -/
def execDscale (f : FD2) (s : State) : Out :=
  dirNorm f (fun a k =>
    if a.zero then zeroCode 0
    else
      let n := clampNorm (a.norm + k)
      { lanes := a.lanes, norm := n.1, flags := n.2 }) s

/-- DNSET. -/
def execDnset (f : FD2) (s : State) : Out :=
  dirNorm f (fun a k =>
    let v := signed 16 (wrapNat 16 k)
    if a.zero || v == zeroNorm then zeroCode 0 else { lanes := a.lanes, norm := v, flags := 0 }) s

/-- DNGET. -/
def execDnget (f : FDG) (s : State) : Out :=
  slotRun f.gd (fxY 2 f.w f.d 1) (fun s => do
    s.yReady f.d.toNat 1
    let a := s.direction f.a 1
    return s.writeY 2 f.w f.d.toNat (BitVec.ofNat 1024 (wrapNat 32 a.norm)) (s.me.base f.gd ||| a.mask)) s

/-! ## DADD, DSUB, DMUL (R337, R338) -/

/-- The factor 2^(n ÷ 256) for n ≤ 0, rounded to FP32. -/
def ratio (n : Int) : Nat × Int := fp32Value (fp32.round .ne false (exp2Mag n (-8))).bits

/-- 2¹⁶ × (x + f × y), rounded. -/
def blend (f : Nat × Int) (x y : Int) : Int :=
  let t := addDyadic (x, 0) (y * f.1, f.2)
  nearestInt t.1 (t.2 + 16)

def zipInt (g : Int → Int → Int) : List Int → List Int → List Int
  | a :: as, b :: bs => g a b :: zipInt g as bs
  | _, _ => []

def dirSum (sub : Bool) (a b : Direction) : DirResult :=
  let sg (y : Int) : Int := if sub then -y else y
  if a.zero && b.zero then zeroCode 0
  else if b.zero then { lanes := a.lanes, norm := a.norm, flags := 0 }
  else if a.zero then { lanes := b.lanes.map sg, norm := b.norm, flags := 0 }
  else if b.norm ≤ a.norm then
    let f := ratio (b.norm - a.norm)
    renormalise (zipInt (fun x y => blend f x (sg y)) a.lanes b.lanes) (a.norm - 4096)
  else
    let f := ratio (a.norm - b.norm)
    renormalise (zipInt (fun x y => blend f (sg y) x) a.lanes b.lanes) (b.norm - 4096)

def dirProduct (a b : Direction) : DirResult :=
  if a.zero || b.zero then zeroCode 0
  else renormalise (zipInt (fun x y => x * y) a.lanes b.lanes) (a.norm + b.norm - 3584)

/-- A d chain result of two d chains. -/
def dir2 (f : FD2) (g : Direction → Direction → DirResult) (s : State) : Out :=
  let len := chainLen f.chain
  let L := 8 + chainLog f.chain
  slotRun f.gd (fxDir L f.w f.d len) (fun s =>
    let a := s.direction f.a len
    let b := s.direction f.b len
    .ok (s.writeDir L f.w f.d.toNat len (g a b) (s.me.base f.gd ||| a.mask ||| b.mask))) s

/-- DADD. -/
def execDadd (f : FD2) (s : State) : Out := dir2 f (dirSum false) s

/-- DSUB. -/
def execDsub (f : FD2) (s : State) : Out := dir2 f (dirSum true) s

/-- DMUL. -/
def execDmul (f : FD2) (s : State) : Out := dir2 f dirProduct s

/-! ## DDOT (R339) -/

def sumInt (ls : List Int) : Int := ls.foldl (fun a l => a + l) 0

/-- c of R339 for lanes. -/
def cosine (a b : List Int) : Int := nearestInt (sumInt (zipInt (fun x y => x * y) a b)) (-14)

/-- DDOT. -/
def execDdot (f : FD2) (s : State) : Out :=
  let len := chainLen f.chain
  let L := 6 + chainLog f.chain
  slotRun f.gd (fxY L f.w f.d 1) (fun s => do
    s.yReady f.d.toNat 1
    let a := s.direction f.a len
    let b := s.direction f.b len
    let (c, n) : Int × Int := if a.zero || b.zero then (0, -65536) else (cosine a.lanes b.lanes, a.norm + b.norm)
    return s.writeY L f.w f.d.toNat (ofLanes 32 [wrapNat 32 c, wrapNat 32 n]) (s.me.base f.gd ||| a.mask ||| b.mask)) s

/-! ## DMAXCOS (R340) -/

/-- The port that a scan may read, or ILLEGAL. -/
def State.scanPort (s : State) (q len : Nat) : Try Port :=
  match s.me.port? q with
  | none => raise .illegal
  | some p =>
    let left := p.desc.total - p.pos
    if p.desc.out || p.desc.repeat_ || left == 0 || left % len != 0 then raise .illegal else .ok p

/-- DMAXCOS: the destination is pending until the scan's result lands. -/
def execDmaxcos (f : FDM) (s : State) : Out :=
  let len := chainLen f.chain
  slotRun f.gd (fun _ => { FalseFx.one f.w (.vreg .y f.d.toNat 0 1024) 1 with effect := true }) (fun s => do
    let q := f.port.toNat
    must (!s.scanning q) (.block 1)
    must s.myCore.scan.isNone (.block 7)
    s.yReady f.d.toNat 1
    let p ← s.scanPort q len
    let a := s.direction f.a len
    let y := s.me.vreg .y f.d.toNat
    let sc : Scan :=
      { ctx := s.cur.ctx, port := q, y := f.d.toNat, w := f.w, chain := len,
        a := if a.zero then [] else (List.range len).map (chainReg a.lanes),
        best := if f.acc then signed 32 (lane y.val 32 0) else -32768,
        idx := if f.acc then BitVec.ofNat 32 (lane y.val 32 1) else 0xFFFFFFFF,
        cnt := if f.acc then BitVec.ofNat 32 (lane y.val 32 2) else 0,
        cand := [], left := p.desc.total - p.pos,
        mask := s.me.base f.gd ||| a.mask ||| (if f.acc then y.mask else 0) }
    return s.modMyCore (fun k => { k with scan := some sc })) s

/-- A scan after one more vector. -/
def Scan.take (c : Scan) (v : Lab 1024) : Scan :=
  let cand := c.cand ++ [v.val]
  let c := { c with left := c.left - 1, mask := c.mask ||| v.mask }
  if cand.length < c.chain then { c with cand := cand }
  else
    let cos := cosine (c.a.flatMap lanes16) (cand.flatMap lanes16)
    let c := if c.best < cos then { c with best := cos, idx := c.cnt } else c
    { c with cand := [], cnt := c.cnt + 1 }

/-- One cycle of a core's scan: it takes a vector where the port holds one. After the last its result is on its way, to land
6 + log₂ L cycles later. -/
def State.scanStep (s : State) (core : Nat) : State :=
  match (s.core core).scan with
  | none => s
  | some c =>
    match (s.ctx core c.ctx).port? c.port with
    | none => s
    | some p =>
      match p.buf with
      | [] => s
      | v :: vs =>
        let t := c.take v
        let s := s.modCtx core c.ctx (fun x => { x with ports := tput x.ports c.port { p.next1 with buf := vs } })
        if t.left != 0 then s.modCore core (fun k => { k with scan := some t })
        else
          let s := s.modCore core (fun k => { k with scan := none })
          s.modCtx core c.ctx (fun x =>
            let f : InFlight :=
              { vis := x.cycle + 6 + Nat.log2 c.chain, dest := if t.w then .nowhere else .vreg .y t.y 0 1024,
                val := ofLanes 32 [wrapNat 32 t.best, t.idx.toNat, t.cnt.toNat], mask := t.mask, slot := 4, own := true,
                issued := x.cycle, maskOnly := false }
            { x with flight := x.flight ++ [f] })

end Sys2Proof.Machine
end

