-- ==== Sys2Proof/Machine/Atomics.lean ====
section
/-! DEFINITION. The atomic engines (R393 to R402): arrival, the store of lines, service in order of arrival, records, and
acknowledgements. -/

namespace Sys2Proof.Machine

/-! ## What an atomic does (R399, R400, R402) -/

/-- The new value of an integer atomic; none where nothing is written. -/
def AtomOp.new (op : AtomOp) (old v : Word) : Option Word :=
  match op with
  | .add => some (old + v)
  | .and => some (old &&& v)
  | .or => some (old ||| v)
  | .xor => some (old ^^^ v)
  | .min => some (if v.toInt < old.toInt then v else old)
  | .max => some (if old.toInt < v.toInt then v else old)
  | .minu => some (if v.toNat < old.toNat then v else old)
  | .maxu => some (if old.toNat < v.toNat then v else old)
  | .swap => some v
  | .cas c => if old = c then some v else none
  | _ => none

/-- AFADD on a cell. -/
def ExactCell.add (c : ExactCell) (f : Nat) (m : Mask) : ExactCell :=
  let c := { c with mask := c.mask ||| m }
  match fp32.decode f with
  | .nan .. => { c with nan := true }
  | .inf n => if n then { c with ninf := true } else { c with pinf := true }
  | .fin n k e =>
    let i : Int := (k * 2 ^ (e + 149).toNat : Nat)
    { c with v := c.v + BitVec.ofInt 288 (if n then -i else i) }

/-- What AXREAD returns of a cell. -/
def ExactCell.read (c : ExactCell) : Nat :=
  if c.nan || (c.pinf && c.ninf) then 0x7FC00000
  else if c.pinf then 0x7F800000
  else if c.ninf then 0xFF800000
  else (fp32.roundExact .ne false c.v.toInt (-149)).bits

/-- The result of a request, with the effect on its location or cell. -/
def State.applyAtom (s : State) (a : AtomReq) : State × Lab 64 :=
  match a.tgt with
  | .mem pa =>
    let pas := (List.range 8).map (fun i => pa + i)
    let old : Word := BitVec.ofNat 64 (leValue (s.peeks pas))
    let r : Lab 64 := { val := old, mask := a.mask ||| a.pmask ||| s.blockMask pa }
    let s := s.noteArrival 6 [false, true] pas
    match a.op.new old a.v with
    | none => (s, r)
    | some v => (s.writeNow (a.engine / 2) a.core a.ctx true (cellsAt pa (bytesOf 8 v.toNat)) a.mask false, r)
  | .cell n =>
    let c := tget ExactCell.reset s.cells n
    match a.op with
    | .fadd => ({ s with cells := tset ExactCell.reset s.cells n (c.add (a.v.toNat % 2 ^ 32) a.mask) }, Lab.zero 64)
    | .xclr => ({ s with cells := tset ExactCell.reset s.cells n { ExactCell.reset with mask := a.mask } }, Lab.zero 64)
    | _ => (s, { val := BitVec.ofNat 64 c.read, mask := a.mask ||| c.mask })

/-! ## Service (R395) -/

/-- The line or cell that a request is on: lines by number, cells apart from them. -/
def AtomReq.place (a : AtomReq) : Bool × Nat :=
  match a.tgt with
  | .mem pa => (false, pa / 64)
  | .cell n => (true, n)

def AtomReq.sameTag (a : AtomReq) (r : AtomRecord) : Bool := r.core == a.core && r.tag == a.tag

/-- Requests that have arrived at an engine and have not been served, in order of arrival. -/
def State.arrivedAt (s : State) (engine : Nat) : List AtomReq :=
  (s.engine engine).inq.filterMap (fun id => s.atoms.find? (fun a => a.id == id && a.stage == .sent))

/-- Requests on their way to an engine. -/
def State.comingTo (s : State) (engine : Nat) : List AtomReq :=
  s.atoms.filter (fun a => a.engine == engine && a.stage == .sent && !(s.engine engine).inq.contains a.id)

/-- The bytes of a request on memory. -/
def AtomReq.pas (a : AtomReq) : List Nat :=
  match a.tgt with
  | .mem pa => (List.range 8).map (fun i => pa + i)
  | .cell _ => []

/-- Whether a request may arrive: its translation is found, the mesh takes it (R130), the earlier accesses of its context to its bytes are performed, and so is
every write to them that the clock it carries covers (R121, R369, R375, R474). -/
def State.mayArrive (s : State) (a : AtomReq) : Bool :=
  !s.walking a.id && !(s.notInjected a.id && a.station == 9) && !s.earlierAccess a.id a.core a.ctx a.pas && !s.mustWait a.clk a.pas

/-- The requests that may arrive next: the oldest of each source. -/
def oldestEach : List AtomReq → List AtomReq
  | [] => []
  | a :: as => a :: (oldestEach as).filter (fun b => b.core != a.core)

/-- The rank of a station in ring order after the one served last. -/
def ringRank (last station : Nat) : Nat := (station + 9 - last) % 10

/-- One of a list by a free value, or none. -/
def pickOr (l : List AtomReq) (v : Nat) : List AtomReq := (l[v % (l.length + 1)]?).toList

/-- The requests that arrive in one cycle of an engine, in their ranks: at most one from the ring and one from the gateway (R395). When
each arrives is not architected; where one alone can arrive at an idle engine, it does. -/
def State.arriving (s : State) (engine : Nat) : List AtomReq :=
  let able := (oldestEach (s.comingTo engine)).filter s.mayArrive
  let v := (Config.freeWord s.freeCount).toNat
  let last := (s.engine engine).lastStation
  match able, s.arrivedAt engine with
  | [a], [] => [a]
  | _, _ =>
    match pickOr (able.filter (fun a => a.station != 9)) v, pickOr (able.filter (fun a => a.station == 9)) (v / 2 ^ 16) with
    | [a], [b] => if ringRank last a.station < ringRank last b.station then [a, b] else [b, a]
    | as, bs => as ++ bs

/-! ## The store of lines -/

/-- The least recently served of the lines. -/
def leastUsed : List AtomLine → Option AtomLine
  | [] => none
  | l :: ls => match leastUsed ls with
    | none => some l
    | some m => if m.used < l.used then some m else some l

def AtomEngine.holdsLine (e : AtomEngine) (line : Nat) : Bool := e.store.any (fun l => l.line == line)

/-- A line takes an entry: a free one, or that of the least recently served line whose queue is empty; else its request waits in the
input buffer. `busy` are the lines with requests. -/
def AtomEngine.enterLine (busy : List Nat) (e : AtomEngine) (line : Nat) : AtomEngine :=
  let new : AtomLine := { line := line, used := e.services }
  if e.holdsLine line then e
  else if e.store.length < 128 then { e with store := e.store ++ [new] }
  else match leastUsed (e.store.filter (fun l => !busy.contains l.line)) with
    | none => e
    | some v => { e with store := e.store.filter (fun l => l.line != v.line) ++ [new] }

/-- The lines of the requests on memory, in order. -/
def linesOf (q : List AtomReq) : List Nat := q.filterMap (fun b => if b.place.1 then none else some b.place.2)

/-- Requests arrive, and the lines of the engine's requests take entries, in order of arrival. -/
def State.arrive (s : State) (engine : Nat) (as : List AtomReq) : State :=
  let q : List AtomReq := s.arrivedAt engine ++ as
  s.modEngine engine (fun e => (linesOf q).foldl (AtomEngine.enterLine (linesOf q)) { e with inq := q.map (·.id) })

/-! ## Service (R395) -/

/-- Whether the queue of a request's line or cell, of 32 positions, holds one of another source (R398). -/
def contended (q : List AtomReq) (a : AtomReq) : Bool :=
  ((q.filter (fun b => b.place == a.place)).take 32).any (fun b => b.core != a.core)

/-- The decision that a grant is, for the record log (R79, R398). Of bytes 24 to 31 the model gives the station byte 24 and the tag bytes
25 and 26; for an exact cell, which has no line, bytes 12 to 15 hold the cell's number in the module (log entry 69). -/
def AtomReq.decision (a : AtomReq) : Decision :=
  { kind := 1, core := a.core, ctx := a.ctx, addr := a.place.2 % 2 ^ 32, grant := a.station + a.tag.toNat * 2 ^ 8 }

/-- What a replayed log says of a service (R81, R398): it is served without the log, it is the next decision, it waits, or the log cannot
match it. -/
inductive LogWord where
  | free | next | waits | never
  deriving DecidableEq, Repr

/-- Whether a decision is that of a request of the same core which the core sends after this one, by their tags modulo 2¹⁶. -/
def AtomReq.before (a : AtomReq) (d : Decision) : Bool :=
  let n := (BitVec.ofNat 16 (d.grant / 2 ^ 8) - a.tag).toNat
  d.core == a.core && decide (0 < n) && decide (n < 2 ^ 15)

/-- A service under REPLAY: of the decisions to come, the first on its line names the request that is served there next. One of another
source waits; one of the same core that comes before it had no contention in the recorded run, and is served without the log
(log entry 70). -/
def State.replayed (s : State) (part : Nat) (a : AtomReq) (contends : Bool) : LogWord :=
  match s.seekDecision part (fun d => d.kind == 1 && d.addr == a.place.2 % 2 ^ 32) (s.func (fnOf part)).entriesLeft 0 with
  | none => if contends then .never else .free
  | some (i, d) =>
    if d.core ≠ a.core then .waits
    else if d = a.decision then (if i = 0 then .next else .waits)
    else if contends && !a.before d then .never else .free

/-- Whether the launch of a core replays a log. -/
def State.replays (s : State) (core : Nat) : Bool := ((s.launchOf core).map (·.replay)).getD false

/-- Whether a replayed log keeps a request in its queue: it waits, or it has diverged (R433). -/
def State.heldByLog (s : State) (q : List AtomReq) (a : AtomReq) : Bool :=
  s.replays a.core && (match s.replayed (s.partOf a.core) a (contended q a) with
    | .waits => true
    | .never => (s.part (s.partOf a.core)).frozen
    | .free | .next => false)

/-- Whether a request is ready: it heads the queue of its line or cell, an entry holds the line, its home has performed every write to its
bytes that the die has applied (R375), the die covers the clock that it carries, so that what it writes does too (R378, R386), and a
replayed log does not make it wait. -/
def State.readyAt (s : State) (engine : Nat) (q : List AtomReq) (a : AtomReq) : Bool :=
  (q.find? (fun b => b.place == a.place)).map AtomReq.id == some a.id &&
  (a.place.1 || (s.engine engine).holdsLine a.place.2) && (s.die (engine / 2)).clk.covers a.clk && !s.mustWait (s.die (engine / 2)).clk a.pas &&
  !s.heldByLog q a

/-- Serves one request: applied, or answered from its record when its tag has one (R397). The reply carries the clock of the engine's die
(R378). -/
def State.serve (s : State) (a : AtomReq) : State :=
  let known := (s.engine a.engine).records.find? a.sameTag
  let t : State × Lab 64 := match known with
    | some r => (s, r.result)
    | none => s.applyAtom a
  let new : List AtomRecord := if known.isSome then [] else [{ core := a.core, tag := a.tag, result := t.2 }]
  let u := t.1.modEngine a.engine (fun e =>
    { e with lastStation := a.station, services := e.services + 1, inq := e.inq.filter (fun i => i != a.id), records := e.records ++ new
             store := e.store.map (fun l => if !a.place.1 && l.line = a.place.2 then { l with used := e.services + 1 } else l) })
  { u with atoms := u.atoms.map (fun b =>
      if b.id = a.id then { b with stage := .applied, result := t.2, clk := (u.die (a.engine / 2)).clk } else b) }

/-- A service as the record log has it: written when it is contended, or matched (R398). -/
def State.granted (s : State) (a : AtomReq) (contends : Bool) : State :=
  let part := s.partOf a.core
  if !s.replays a.core then (if contends then s.decided a.core a.ctx a.decision else s).serve a
  else match s.replayed part a contends with
    | .free => s.serve a
    | .next => (s.takeDecision part).serve a
    | .waits => s
    | .never => s.diverge part a.core a.ctx

/-- ATOMIC_SERVICE: one cycle of an engine: requests arrive, and of the lines and cells that are ready the request that arrived first
is served (R395). -/
def execAtomicService (engine : Nat) (s : State) : Out :=
  let as := s.arriving engine
  let s := { s with freeCount := s.freeCount + 1 }.arrive engine as
  let q := s.arrivedAt engine
  match q.find? (s.readyAt engine q) with
  | none => .next s
  | some a => .next (s.granted a (contended q a))

/-- ATOMIC_RETRY_TIMEOUT (R397): a request sent again is answered from its record, if it has one, and is not applied again;
otherwise it waits as before. -/
def execAtomicRetryTimeout (id : Nat) (s : State) : Out :=
  match s.atoms.find? (fun a => a.id == id && a.stage != .replied) with
  | none => .next s
  | some a =>
    match (s.engine a.engine).records.find? a.sameTag with
    | none => .next s
    | some r => .next { s with atoms := s.atoms.map (fun b => if b.id = id then { b with stage := .applied, result := r.result } else b) }

/-- ATOMIC_ACK (R394, R397): the source holds the reply; the engine drops the record and the request is outstanding no more. -/
def execAtomicAck (id : Nat) (s : State) : Out :=
  match s.atoms.find? (fun a => a.id == id && a.stage == .replied) with
  | none => .next s
  | some a =>
    let s := s.modEngine a.engine (fun e => { e with records := e.records.filter (fun r => !a.sameTag r) })
    .next { s with atoms := s.atoms.filter (fun b => b.id != id) }

end Sys2Proof.Machine
end

