-- ==== Sys2Proof/Machine/Control.lean ====
section
/-! DEFINITION. Slot 0, trap control: TRAP, ERET, YIELD, WAITE, HALTCTX and DBGBRK (R422 to R428), and the halt of a core
(R432). -/

namespace Sys2Proof.Machine

/-- An attempt whose instruction redirects its context itself when it issues: no advance follows. Under a false guard it does
nothing (R422). -/
def struckRun (gd : Guard) (body : State → Try State) (s : State) : Out :=
  if s.me.holds gd then
    match body s with
    | .ok t => .next (t.verdict .struck)
    | .error h => .next (s.halt h)
  else .next (s.verdict .issued)

/-- A trap of the bundle that issues, to be taken at the boundary after it (R415, R421). -/
def State.strike (s : State) (c : Cause) (code : BitVec 8) (halts : Bool) : State :=
  let t : Strike := { cause := c, code := code, frame := s.myCore.frame, halts := halts }
  s.modMe (fun x => { x with strikes := some t })

/-- TRAP: the other slots of its bundle issue, and the trap is taken at the boundary after it (R415, R423). -/
def execTrap (f : FTrap) (s : State) : Out := slotRun f.gd fxNone (fun s => .ok (s.strike .trap f.code false)) s

/-- Whether the ports that ERET binds again have written their pushes (R244, R418; log entry 68). -/
def Ctx.eretReady (x : Ctx) : Bool :=
  match x.bankTrap with
  | none => true
  | some b => !x.regainBlocked b

/-- ERET: outside a handler it raises ILLEGAL, and on an empty return stack it ends the launch (R424). -/
def execEret (f : FZ) (s : State) : Out :=
  struckRun f.gd (fun s =>
    if !s.me.inh then raise .illegal
    else if s.me.rstack.isEmpty then .ok (s.terminal s.cur.core s.cur.ctx .illegal 0)
    else if !s.me.eretReady then blocked 1
    else .ok (s.eret s.cur.core s.cur.ctx)) s

/-- The launch of the core in focus has been asked to stop at its next operator boundary (R430). -/
def State.askedToStop (s : State) : Bool := ((s.launchOf s.cur.core).map (·.stopReq)).getD false

/-- A context stops after a YIELD: it issues nothing more (R430). -/
def State.stopCtx (s : State) : State :=
  (s.pass s.cur.core s.cur.ctx).modMe (fun x => if x.st = CtxState.running then { x with st := .stopped, block := 0 } else x)

/-- YIELD: outside deterministic mode it blocks once; outside a handler it is an operator boundary (R425, R430). -/
def execYield (f : FZ) (s : State) : Out :=
  if !s.me.holds f.gd then .next (s.verdict .issued)
  else if !s.det s.cur.core && !s.me.yielded then .next (s.halt (.block 11))
  else if s.askedToStop && !s.me.inh then .next (s.stopCtx.verdict .struck)
  else .next (s.verdict .issued)

/-- Whether the latest answer on a completion object meets a target (R426). -/
def Ctx.eventMet (x : Ctx) (obj target : Nat) : Bool :=
  match tfind x.objAns obj with
  | none => false
  | some v => decide ((v.toNat % 65536 + 65536 - target) % 65536 < 32768)

/-- WAITE (R426). -/
def execWaite (f : FA) (s : State) : Out :=
  slotRun f.gd fxNone (fun s => do
    let (a, s) ← s.opnd f.a
    let v := a.val.toNat
    must (decide (v < 2 ^ 32) && v / 4096 % 16 == 0) (.raise .illegal 0 0)
    must (s.me.eventMet (v % 4096) (v / 65536)) (.block 10)
    return s) s

/-- HALTCTX (R427). -/
def execHaltctx (f : FZ) (s : State) : Out :=
  struckRun f.gd (fun s => .ok (s.haltCtx s.cur.core s.cur.ctx)) s

/-- The words that `trap.pc` and `trap.dpc` would hold for a context at its boundary (R420). -/
def Ctx.resumeWords (x : Ctx) : Word × Word :=
  (BitVec.ofNat 64 (x.nds * 2 ^ 20 + (if x.bank then 2 ^ 18 else 0) + x.pc % 2 ^ 18),
   BitVec.ofNat 64 ((match x.tgt with | some (_, true) => 2 ^ 36 | _ => 0) + x.dpcs.2 % 2 ^ 18 * 2 ^ 18 + x.dpcs.1 % 2 ^ 18))

/-- Halts a core at the boundary of its contexts: each is pre-empted, and nothing issues (R432, R429). -/
def State.haltCore (s : State) (core : Nat) : State :=
  let s := s.modCore core (fun k => { k with halted := true })
  four.foldl (fun s x => (s.askPre core x .coreHalt).preempt core x) s

/-- The boundary after a DBGBRK for a debugger: PC, NDS and DPC are recorded for it, and the core halts (R428). -/
def State.debugHalt (s : State) (core ctx : Nat) : State :=
  if ((s.ctx core ctx).strikes.map (·.halts)).getD false then
    (s.modCtx core ctx (fun x => { x with strikes := none, dbg := some x.resumeWords })).haltCore core
  else s

/-- A core that was halted resumes (R432); what a DBGBRK recorded goes. -/
def State.resumeCore (s : State) (core : Nat) : State :=
  let s := s.modCore core (fun k => { k with halted := false })
  four.foldl (fun s x => ((s.endPre core x .coreHalt).modCtx core x (fun x => { x with dbg := none })).resume core x) s

/-- DBGBRK: at the boundary after its bundle it halts the core for an attached debugger, or raises BREAK (R428). -/
def execDbgbrk (f : FZ) (s : State) : Out :=
  slotRun f.gd fxNone (fun s => .ok (s.strike .brk 0 (s.part (s.partOf s.cur.core)).debugger)) s

end Sys2Proof.Machine
end

