-- ==== Sys2Proof/Machine/Launching.lean ====
section
/-! DEFINITION. The launch processor: register pages (R55 to R59), notifies and slots (R60 to R63), packets, waits and objects
(R64 to R72), teardown (R73, R74), records (R77, R78, R440), retirement (R438, R439) and tenant pre-emption (R430). -/

namespace Sys2Proof.Machine

/-! ## Statuses (R75) -/

def LoadErr.code : LoadErr → Nat
  | .eFormat => 1 | .eVersion => 2 | .eSig => 3 | .eUnsigned => 4 | .eBudget => 5 | .eOpcode => 6 | .eReserved => 7
  | .eLanes => 8 | .eRegrange => 9 | .eDelay => 10 | .eDepth => 11 | .eMicro => 12 | .ePhase => 13 | .eFit => 14
  | .eParam => 15 | .eBank => 16

def Status.code : Status → Nat
  | .ok => 0
  | .load e => e.code
  | .aborted => 0x101 | .cancelled => 0x102 | .badPacket => 0x103 | .badPartition => 0x104 | .badImage => 0x105
  | .trapped => 0x201 | .partitionReset => 0x202

/-! ## Queues and functions (R55, R61 to R63, R84) -/

/-- Whether a partition's installed queue range holds an identity. -/
def Part.ownsQueue (p : Part) (q : Nat) : Bool :=
  match p.desc with
  | some d => decide (d.queueBase ≤ q) && decide (q < d.queueBase + d.queueCount)
  | none => false

/-- The queue that a function may reach. -/
def State.ownQueue (s : State) (fn q : Nat) : Bool :=
  match partOfFn fn with
  | some p => (s.part p).ownsQueue q
  | none => false

/-- Accepted launches of a queue not yet retired (R59). -/
def Part.accepted (p : Part) (q : Nat) : Nat := (p.launches.filter (fun l => l.queue == q)).length

/-- The pending bit of a queue (R61, R63). -/
def State.pendingBit (s : State) (part q : Nat) : Bool :=
  let x := s.queue q
  x.st == .pending || (x.st == .draining && x.slot.isNone && (s.part part).accepted q != 0)

/-- Pending queues of a partition, ascending. -/
def State.pendingQueues (s : State) (part : Nat) : List Nat :=
  (s.queues.map (·.1)).filter (fun q => (s.part part).ownsQueue q && s.pendingBit part q)

/-- A queue takes a slot (R61, R63). -/
def State.mapTo (s : State) (slot q : Nat) : State :=
  { s with slots := tput s.slots slot { queue := q, reservedFor := none }, mapCount := s.mapCount + 1 }.modQueue q (fun x =>
    { x with slot := some slot, mappedAt := s.mapCount, st := if x.st = QState.draining then .draining else .mapped })

/-- Whether a mapped queue has nothing to do: it gives its slot up (R62). -/
def State.emptied (s : State) (part q : Nat) : Bool :=
  let x := s.queue q
  x.st == .mapped && x.head == x.tail && (s.part part).accepted q == 0

/-- A free slot goes to the first of the queues that has something to do; one that has not takes it and gives it up in the same step
(R62, R63). -/
def State.serveSlot (part slot : Nat) : List Nat → State → State
  | [], s => s
  | q :: qs, s =>
    let t := s.mapTo slot q
    if t.emptied part q then
      State.serveSlot part slot qs ({ t with slots := terase t.slots slot }.modQueue q (fun x => { x with st := .idle, slot := none }))
    else t

/-- A slot is given up: to the queue it is reserved for, or else to the lowest pending queue of the partition (R61, R62). -/
def State.giveUp (s : State) (part slot : Nat) : State :=
  let first := match (tfind s.slots slot).bind (·.reservedFor) with
    | some r => if s.pendingBit part r then [r] else []
    | none => []
  let rest := (s.pendingQueues part).filter (fun q => !first.contains q)
  State.serveSlot part slot (if (tfind s.slots slot).isSome then first ++ rest else []) { s with slots := terase s.slots slot }

/-- Whether a launch of a queue holds cores and has not begun to retire. -/
def Part.runs (p : Part) (q : Nat) : Bool := p.launches.any (fun l => l.queue == q && l.stage == .running)

/-- A queue loses its slot by pre-emption: MAPPED becomes PENDING (R63). -/
def State.evict (s : State) (part q slot : Nat) : State :=
  (s.modQueue q (fun x => { x with slot := none, st := if x.st = QState.mapped then .pending else x.st })).giveUp part slot

/-- The slots of a partition's share (R84). -/
def Part.share (p : Part) : List Nat :=
  match p.desc with
  | some d => (List.range d.slotCount).map (fun i => d.slotBase + i)
  | none => []

/-- Of the slots whose queue may be pre-empted, the one mapped earliest. -/
def State.victim (s : State) (share : List Nat) : Option (Nat × QSlot) :=
  let able := s.slots.filter (fun e => share.contains e.1 && e.2.reservedFor.isNone && (s.queue e.2.queue).preempt)
  able.foldl (fun a e => match a with
    | none => some e
    | some b => if (s.queue e.2.queue).mappedAt < (s.queue b.2.queue).mappedAt then some e else some b) none

/-- A queue without a slot asks for one (R61). Of several free slots the model gives the lowest-numbered (log entry 71). -/
def State.askSlot (s : State) (part q : Nat) : State :=
  let share := (s.part part).share
  match share.find? (fun k => (tfind s.slots k).isNone) with
  | some k => s.mapTo k q
  | none =>
    let s := s.modQueue q (fun x => { x with st := if x.st = QState.draining then .draining else .pending })
    match s.victim share with
    | none => s
    | some (k, e) =>
      let s := { s with slots := tput s.slots k { e with reservedFor := some q } }
      if (s.part part).runs e.queue then
        s.modPart part (fun p => { p with launches := p.launches.map (fun l =>
          if l.queue = e.queue && l.stage == .running then { l with stopReq := true } else l) })
      else s.evict part e.queue k

/-- What a queue does by itself when it has become empty, its teardown ends, or its pre-emption can go on (R62, R63, R73). -/
def State.settleQueue (s : State) (part q : Nat) : State :=
  let x := s.queue q
  let n := (s.part part).accepted q
  let drop (s : State) : State := match x.slot with
    | some k => s.giveUp part k
    | none => s
  if (x.st == .draining || x.st == .aborting) && n == 0 then
    drop (s.modQueue q (fun x => { x with st := .disabled, enable := false, teardown := false, slot := none }))
  else if s.emptied part q then
    drop (s.modQueue q (fun x => { x with st := .idle, slot := none }))
  else match x.slot with
    | some k =>
      if ((tfind s.slots k).bind (·.reservedFor)).isSome && !(s.part part).runs q then s.evict part q k else s
    | none => s

/-! ## Launches that end, and waits (R66, R70 to R72) -/

/-- A launch that ends without running goes straight to its record (R72). -/
def State.endUnrun (s : State) (part num : Nat) (st : Status) : State :=
  let now := s.frame
  s.modPart part (fun p =>
    { p.modLaunch num (fun l => { l with stage := .record, status := st, start := l.start.orElse (fun _ => some now), end_ := now })
        with retireOrder := p.retireOrder ++ [num] })

/-- Fields of a wait word (R65). -/
def waitTolerant (w : BitVec 32) : Bool := w.getLsbD 30
def waitObj (w : BitVec 32) : Nat := (w.extractLsb' 16 12).toNat

/-- Whether an object meets the target of a wait (R71). -/
def Obj.meets (o : Obj) (w : BitVec 32) : Bool := decide ((o.val.toNat % 65536 + 65536 - w.toNat % 65536) % 65536 < 32768)

/-- One evaluation of waits in order: those left, or none when a wait cancels the launch (R71). -/
def waitsAfter (objs : Table Obj) (touched : Nat → Bool) : List (BitVec 32) → Option (List (BitVec 32))
  | [] => some []
  | w :: ws =>
    let o := tget Obj.reset objs (waitObj w)
    if touched (waitObj w) && o.meets w then
      if o.status = Status.ok || waitTolerant w then waitsAfter objs touched ws else none
    else (waitsAfter objs touched ws).map (fun r => w :: r)

/-- What satisfied waits order before a launch: the events of the launches that signalled their objects (R382). -/
def waitClock (objs : Table Obj) (before after : List (BitVec 32)) (c : Clock) : Clock :=
  (before.filter (fun w => !after.contains w)).foldl (fun c w => c.join (tget Obj.reset objs (waitObj w)).clk) c

/-- A launch in step 3 evaluates its waits on the objects touched, and goes on once none is left: a MARKER ends, another
waits to be placed (R66, R68). -/
def State.evaluate (s : State) (part num : Nat) (touched : Nat → Bool) : State :=
  match (s.part part).launch? num with
  | none => s
  | some l =>
    if l.stage != .waiting then s
    else match waitsAfter (s.part part).objs touched l.waitsLeft with
      | none => s.endUnrun part num .cancelled
      | some ws =>
        let c := waitClock (s.part part).objs l.waitsLeft ws l.clk
        let s := s.modPart part (fun p => p.modLaunch num (fun l => { l with waitsLeft := ws, clk := c }))
        if !ws.isEmpty then s
        else if l.pkt.marker then s.endUnrun part num .ok
        else s.modPart part (fun p => p.modLaunch num (fun l => { l with stage := .placing }))

/-- The launches of a partition evaluate their waits on one object. -/
def State.evaluateAll (s : State) (part obj : Nat) : State :=
  ((s.part part).launches.map (·.num)).foldl (fun s n => s.evaluate part n (fun o => o == obj)) s

/-- SERIAL launches whose earlier launches of the queue have all retired reach step 3 (R68). -/
def State.release (s : State) (part : Nat) : State :=
  ((s.part part).launches.map (·.num)).foldl (fun s n =>
    let p := s.part part
    match p.launch? n with
    | none => s
    | some l =>
      if l.stage == .serial && !p.launches.any (fun e => e.queue == l.queue && decide (e.num < n)) then
        (s.modPart part (fun p => p.modLaunch n (fun l => { l with stage := .waiting }))).evaluate part n (fun _ => true)
      else s) s

/-- The 16-byte copy of an object in host memory (R69). -/
def State.copyObject (s : State) (part obj : Nat) : State :=
  let o := tget Obj.reset (s.part part).objs obj
  s.hostPut part ((s.func (fnOf part)).objbase + 16 * obj)
    (bytesOf 4 o.val.toNat ++ bytesOf 2 o.status.code ++ bytesOf 2 0 ++ bytesOf 8 o.last.toNat)

/-- An object changes: its copy is written and waits on it are evaluated (R69, R71). -/
def State.changeObject (s : State) (part obj : Nat) (f : Obj → Obj) : State :=
  ((s.modPart part (fun p => { p with objs := tmod Obj.reset p.objs obj f })).copyObject part obj).evaluateAll part obj

/-- A launch signals its object, if it has one, and the function's vector is sent (R70, R445). -/
def State.signal (s : State) (part : Nat) (l : Launch) : State :=
  let sg := l.pkt.signal
  if !sg.getLsbD 15 then s
  else
    let s := { s with msix := s.msix ++ [fnOf part] }
    s.changeObject part (sg.toNat % 4096) (fun o =>
      { val := o.val + 1, status := l.status, last := BitVec.ofNat 64 l.num, clk := o.clk.join l.clk })

/-! ## The register page (R56 to R59, R81, R450) -/

def lowClear (v : Word) (n : Nat) : Nat := v.toNat / 2 ^ n * 2 ^ n

/-- A notify of a queue is logged by every recording launch that runs; a replayed one is matched (R79, R81). -/
def State.logNotify (s : State) (part q : Nat) : State :=
  let d : Decision := { kind := 3, core := 0xFF, ctx := q, addr := 0, grant := 0 }
  (s.part part).launches.foldl (fun s l =>
    match l.stage == .running, l.cores with
    | true, c :: _ => s.decided c 0 d
    | _, _ => s) s

/-- What the host may have observed of launches: those whose records have been written (R382). -/
def State.hostClock (s : State) : Clock := s.parts.foldl (fun c e => c.join e.2.recClk) Clock.zero

/-- NOTIFY (R57, R60). A mapped queue left with nothing to do gives its slot up (R62). -/
def State.writeNotify (s : State) (fn : Nat) (v : Word) : State :=
  let q := v.toNat % 4096
  let tail := v.extractLsb' 32 32
  match partOfFn fn with
  | none => s.setFstat fn fstatFOREIGN
  | some part =>
    if !s.ownQueue fn q then s.setFstat fn fstatFOREIGN
    else
      let s := s.logNotify part q
      let x := s.queue q
      if 2 ^ (x.log2size + 4) < (tail - x.head).toNat then s.modQueue q (fun x => { x with badtail := true })
      else
        let c := s.hostClock
        let s := s.modQueue q (fun x => { x with tail := tail, clk := c })
        if x.st == .idle && tail != x.head then s.askSlot part q else s.settleQueue part q

/-- The saved contexts of a launch that ends leave their groups (R103). -/
def State.leaveSaved (s : State) (part : Nat) (l : Launch) : State :=
  (l.saved.filter (fun v => !v.retired)).foldl (fun s v => s.leaveGroups { part := part, launch := l.num, j := v.j } l.clk none) s

/-- The frozen state of a partition ends: launches are placed again. A context that the freeze holds does not resume: it goes with its
launch (R429, R433). -/
def State.unfreeze (s : State) (part : Nat) : State := s.modPart part (fun p => { p with frozen := false })

/-- Every accepted launch of a queue that has not begun retirement ends ABORTED (R74), and the frozen state of its partition ends (R433). -/
def State.abortQueue (s : State) (part q : Nat) : State :=
  let s := (s.part part).launches.foldl (fun s l =>
    if l.queue != q then s
    else match l.stage with
      | .serial | .waiting | .placing => (s.leaveSaved part l).endUnrun part l.num .aborted
      | .running => s.endLaunch { part := part, launch := l.num, lcore := 0 } .aborted
      | _ => s) s
  s.unfreeze part

/-- A teardown begins (R63, R73, R74). A write with ABORT to a queue that is DRAINING already stores the bit and aborts no launch
(log entry 85). -/
def State.tearDown (s : State) (part q : Nat) (abort : Bool) : State :=
  let x := s.queue q
  if x.st == .idle || x.st == .pending || x.st == .mapped then
    let s := s.modQueue q (fun x => { x with teardown := true, abort := abort, st := if abort then .aborting else .draining })
    (if abort then s.abortQueue part q else s).settleQueue part q
  else s

/-- QCTL (R58, R63, R87): a write of the queue that QSEL names. TEARDOWN acts on an enabled queue alone: in a write that enables a
queue it does nothing (log entry 50). -/
def State.writeQctl (s : State) (fn : Nat) (v : Word) : State :=
  let q := (s.func fn).qsel
  let lg := (v.extractLsb' 4 4).toNat
  match partOfFn fn with
  | none => s
  | some part =>
    if !s.ownQueue fn q then
      if (s.part part).desc.isNone && v.getLsbD 0 then s.setFstat fn fstatCFGERR else s
    else
      let x := s.queue q
      if 12 < lg || (x.enable && (lg != x.log2size || v.getLsbD 1 != x.preempt || (!v.getLsbD 0 && !v.getLsbD 2))) then
        s.setFstat fn fstatCFGERR
      else
        let s := s.modQueue q (fun x => { x with log2size := lg, preempt := v.getLsbD 1, abort := v.getLsbD 3 })
        if x.enable then (if v.getLsbD 2 then s.tearDown part q (v.getLsbD 3) else s)
        else if v.getLsbD 0 then
          let s := s.modQueue q (fun x => { x with enable := true })
          if x.head == x.tail then s.modQueue q (fun x => { x with st := .idle }) else s.askSlot part q
        else s

/-- OBJSET (R69): what the host has observed before it comes before what waits on the object (R382). -/
def State.writeObjset (s : State) (fn : Nat) (v : Word) : State :=
  match partOfFn fn with
  | none => s.setFstat fn fstatFOREIGN
  | some part =>
    let c := s.hostClock
    s.changeObject part (v.toNat % 4096) (fun o => { o with val := v.extractLsb' 32 32, status := .ok, clk := o.clk.join c })

/-- Entries of the ephemeris ring (R56). -/
def Func.ephEntries (f : Func) : Nat := 2 ^ (f.ephctl + 6)

/-- Whether the ring has no room for a record (R78). -/
def Func.ephFull (f : Func) : Bool := decide (f.ephEntries ≤ (f.ephprod - f.ephcons).toNat)

/-- Whether a record of a partition waits for room. -/
def State.recordWaits (s : State) (part : Nat) : Bool :=
  match (s.part part).retireOrder.head?.bind (s.part part).launch? with
  | some l => l.stage == .record && (s.func (fnOf part)).ephFull
  | none => false

/-- EPHCONS (R78). -/
def State.writeEphcons (s : State) (fn : Nat) (v : Word) : State :=
  match partOfFn fn with
  | none => s
  | some part =>
    let s := s.modFunc fn (fun f => { f with ephcons := v.setWidth 32 })
    if s.recordWaits part then s.setFstat fn fstatEPHFULL else s

/-- LOGLIMIT (R80). A value that is no multiple of 32 is kept as it is written (log entry 72). -/
def State.writeLoglimit (s : State) (fn : Nat) (v : Word) : State :=
  match partOfFn fn with
  | none => s
  | some part =>
    let s := s.modFunc fn (fun f => { f with loglimit := v })
    if (s.part part).logWait.isEmpty then s else State.flushLog ((s.part part).logWait.length + 1) s part

/-- LOGPROD (R81). -/
def State.writeLogprod (s : State) (fn : Nat) (v : Word) : State :=
  match partOfFn fn with
  | none => s
  | some part =>
    if (s.part part).launches.any (fun l => l.record || l.replay) || v.toNat % 32 != 0 || (s.func fn).loglimit.ule v then
      s.setFstat fn fstatCFGERR
    else s.modFunc fn (fun f => { f with logprod := v })

/-- QBASE and the clearing of QSTAT bits, of the queue that QSEL names (R58, R59). Where QSEL holds a queue that is not the function's
own, by its reset value or since a new descriptor, the write is ignored and FOREIGN stays as it is (log entry 73). -/
def State.writeQueueReg (s : State) (fn off : Nat) (v : Word) : State :=
  let q := (s.func fn).qsel
  if !s.ownQueue fn q then s
  else if off = 0x010 then
    if (s.queue q).enable then s.setFstat fn fstatCFGERR else s.modQueue q (fun x => { x with base := lowClear v 6 })
  else s.modQueue q (fun x => { x with readerr := x.readerr && !v.getLsbD 9, badtail := x.badtail && !v.getLsbD 8 })

/-- MBDOOR: a request is submitted, or ignored while BUSY (R450). -/
def State.ringDoor (s : State) (fn : Nat) : State :=
  if (s.func fn).busy then s.setFstat fn fstatCFGERR
  else s.modFunc fn (fun f => { f with busy := true, request := some f.mbaddr })

/-- A host write of 8 bytes to a register page (R56). Functions 0 to 16 have one. -/
def State.writePage (s : State) (fn off : Nat) (v : Word) : State :=
  let reg (f : Func → Func) : State := if fn = 0 then s else s.modFunc fn f
  if 16 < fn then s
  else match off with
    | 0x000 => s.writeNotify fn v
    | 0x008 =>
      if s.ownQueue fn (v.toNat % 4096) then s.modFunc fn (fun f => { f with qsel := v.toNat % 4096 })
      else s.setFstat fn fstatFOREIGN
    | 0x010 => s.writeQueueReg fn off v
    | 0x018 => s.writeQctl fn v
    | 0x028 => s.writeQueueReg fn off v
    | 0x030 => reg (fun f => { f with objbase := lowClear v 16 })
    | 0x038 => s.writeObjset fn v
    | 0x040 => reg (fun f => { f with ephbase := lowClear v 7 })
    | 0x048 => reg (fun f => { f with ephctl := v.toNat % 16 })
    | 0x058 => s.writeEphcons fn v
    | 0x060 => reg (fun f => { f with logbase := v.toNat % 2 ^ 56 / 32 * 32 })
    | 0x068 => s.writeLoglimit fn v
    | 0x070 => s.writeLogprod fn v
    | 0x080 => s.modFunc fn (fun f => { f with fstat := f.fstat &&& ~~~(v.setWidth 4) })
    | 0x400 => s.modFunc fn (fun f => { f with mbaddr := lowClear v 6 })
    | 0x408 => s.ringDoor fn
    | _ => s

/-- QCTL and QSTAT as they read (R58, R59). -/
def Queue.qctl (q : Queue) : Nat :=
  q.log2size * 16 + (if q.abort then 8 else 0) + (if q.teardown then 4 else 0) + (if q.preempt then 2 else 0) +
  (if q.enable then 1 else 0)

def QState.code : QState → Nat
  | .disabled => 0 | .idle => 1 | .pending => 2 | .mapped => 3 | .draining => 4 | .aborting => 5

/-- QSTAT. Outside MAPPED its SLOT, which is then not valid, reads 0 in the model (log entry 85). -/
def Queue.qstat (q : Queue) (accepted : Nat) : Nat :=
  (if q.st = QState.mapped then q.slot.getD 0 * 2 ^ 26 else 0) + accepted * 2 ^ 16 + (if q.readerr then 512 else 0) +
  (if q.badtail then 256 else 0) + q.st.code

/-- What a host read of a register page returns (R56). A read changes nothing. -/
def State.readPage (s : State) (fn off : Nat) : Word :=
  let f := s.func fn
  let part := (partOfFn fn).getD 0
  let own := s.ownQueue fn f.qsel
  let q := s.queue f.qsel
  BitVec.ofNat 64 (
    if 16 < fn then 0
    else if off = 0x080 then f.fstat.toNat
    else if off = 0x400 then f.mbaddr
    else if off = 0x410 then (if f.busy then 1 else 0)
    else if fn = 0 then 0
    else if 0x100 ≤ off ∧ off ≤ 0x2F8 ∧ off % 8 = 0 then
      let lo := (off - 0x100) / 8 * 64
      ((s.pendingQueues part).filter (fun q => decide (lo ≤ q) && decide (q < lo + 64))).foldl (fun a q => a + 2 ^ (q - lo)) 0
    else match off with
      | 0x008 => f.qsel
      | 0x010 => if own then q.base else 0
      | 0x018 => if own then q.qctl else 0
      | 0x020 => if own then q.head.toNat else 0
      | 0x028 => if own then q.qstat ((s.part part).accepted f.qsel) else 0
      | 0x030 => f.objbase
      | 0x040 => f.ephbase
      | 0x048 => f.ephctl
      | 0x050 => f.ephprod.toNat
      | 0x058 => f.ephcons.toNat
      | 0x060 => f.logbase
      | 0x068 => f.loglimit.toNat
      | 0x070 => f.logprod.toNat
      | _ => 0)

/-! ## Host writes as events -/

/-- NOTIFY. -/
def execNotify (fn : Nat) (value : Word) (s : State) : Out := .next (s.writePage fn 0x000 value)

/-- QUEUE_ENABLE: a write of QCTL that sets ENABLE and no TEARDOWN. -/
def execQueueEnable (fn : Nat) (value : Word) (s : State) : Out :=
  .next (if value.getLsbD 0 && !value.getLsbD 2 then s.writePage fn 0x018 value else s)

/-- TEARDOWN: a write of QCTL that sets TEARDOWN without ABORT. -/
def execTeardown (fn : Nat) (value : Word) (s : State) : Out :=
  .next (if value.getLsbD 2 && !value.getLsbD 3 then s.writePage fn 0x018 value else s)

/-- TEARDOWN_ABORT: a write of QCTL that sets TEARDOWN with ABORT. -/
def execTeardownAbort (fn : Nat) (value : Word) (s : State) : Out :=
  .next (if value.getLsbD 2 && value.getLsbD 3 then s.writePage fn 0x018 value else s)

/-- OBJSET. -/
def execObjset (fn : Nat) (value : Word) (s : State) : Out := .next (s.writePage fn 0x038 value)

/-- EPHCONS_WRITE. -/
def execEphconsWrite (fn : Nat) (value : Word) (s : State) : Out := .next (s.writePage fn 0x058 value)

/-- LOGLIMIT_WRITE. -/
def execLoglimitWrite (fn : Nat) (value : Word) (s : State) : Out := .next (s.writePage fn 0x068 value)

/-- LOGPROD_WRITE. -/
def execLogprodWrite (fn : Nat) (value : Word) (s : State) : Out := .next (s.writePage fn 0x070 value)

/-- REGISTER_WRITE: a host write at any offset of a page. -/
def execRegisterWrite (fn off : Nat) (value : Word) (s : State) : Out := .next (s.writePage fn off value)

/-! ## Packets (R64 to R67) -/

/-- n little-endian bytes at an offset. -/
def fieldAt (bs : List Byte) (at_ n : Nat) : Nat := leValue ((bs.drop at_).take n)

/-- Whether the bytes from an offset to another, the last not counted, are all zero. -/
def zeroFrom (bs : List Byte) (lo hi : Nat) : Bool := ((bs.drop lo).take (hi - lo)).all (fun b => b == 0)

def packetOf (bs : List Byte) : Packet :=
  { marker := fieldAt bs 0 2 == 2, mode := BitVec.ofNat 8 (fieldAt bs 2 1), part := fieldAt bs 3 1, contexts := fieldAt bs 4 2
    perCore := fieldAt bs 6 1, wmask := BitVec.ofNat 8 (fieldAt bs 7 1), image := fieldAt bs 8 8, bindings := fieldAt bs 0x10 8
    seed := BitVec.ofNat 64 (fieldAt bs 0x18 8), waits := four.map (fun i => BitVec.ofNat 32 (fieldAt bs (0x20 + 4 * i) 4))
    signal := BitVec.ofNat 16 (fieldAt bs 0x30 2), userTag := BitVec.ofNat 32 (fieldAt bs 0x34 4)
    counterBase := BitVec.ofNat 64 (fieldAt bs 0x38 8) }

/-- BADPACKET (R65, R66). -/
def badPacket (bs : List Byte) : Bool :=
  let p := packetOf bs
  let mode (i : Nat) : Bool := p.mode.getLsbD i
  let waitBad (w : BitVec 32) : Bool := (!w.getLsbD 31 && w != 0) || w.extractLsb' 28 2 != 0
  (fieldAt bs 0 2 != 1 && fieldAt bs 0 2 != 2) || mode 7 || !zeroFrom bs 0x32 0x34 || p.signal.extractLsb' 12 3 != 0 ||
  p.waits.any waitBad ||
  (if p.marker then p.mode != 0 || !zeroFrom bs 4 0x20 || !zeroFrom bs 0x34 0x40
   else p.contexts == 0 || decide (256 < p.contexts) || p.perCore == 0 || decide (4 < p.perCore) ||
     p.contexts % p.perCore != 0 || (mode 0 && (mode 1 || mode 3)) || (mode 1 && mode 3) || (mode 2 && !mode 1) ||
     (!mode 4 && p.counterBase != 0) || p.image % 16 != 0)

/-- How the launch processor and the loader read a partition's virtual memory: as a copy reads it, and never the slice
aperture (R66). -/
def State.readVirtual (s : State) (part va n : Nat) : Option (List Byte) :=
  let a : Access := { part := part, cores := [], own := 0, kind := .read, copy := true, mask := 0, egress := [] }
  if (List.range n).any (fun i => inAperture (va + i)) then none
  else match s.checkSpan a va n with
    | .error _ => none
    | .ok hs => if hs.all (fun h => s.reachable h.pa) then some (s.peeks (hs.map (·.pa))) else none

/-- ASCII, padded with zero bytes, at least one of them. -/
def nameOk (bs : List Byte) : Bool :=
  let rest := bs.dropWhile (fun b => b != 0)
  !rest.isEmpty && rest.all (fun b => b == 0) && bs.all (fun b => b.ult 0x80)

/-- The fields of an image's header that R30 bounds, but for the version. -/
def headerOk (h : List Byte) : Bool :=
  fieldAt h 0 4 == 0x4B34584C && decide (fieldAt h 6 2 < 4) && decide (6 ≤ fieldAt h 8 2) && decide (fieldAt h 8 2 ≤ 24) &&
  zeroFrom h 0x0A 0x0C && fieldAt h 0x0C 4 % 16 == 0 && fieldAt h 0x10 8 % 16 == 0 && nameOk ((h.drop 0x18).take 32) &&
  zeroFrom h 0x38 0x40

/-- The bytes of an image, by its header. -/
def imageLength (h : List Byte) : Nat := fieldAt h 0x10 8

/-- The image at an address: it cannot be read, its header breaks R30, or its bytes (R66). The length of an image is known from a header
that keeps R30 alone. -/
inductive ImageRead where
  | unreadable
  | malformed
  | bytes (bs : List Byte)
  deriving DecidableEq, Repr

def State.readImage (s : State) (part va : Nat) : ImageRead :=
  match s.readVirtual part va 64 with
  | none => .unreadable
  | some h =>
    if !headerOk h then .malformed
    else match s.readVirtual part va (imageLength h) with
      | none => .unreadable
      | some bs => .bytes bs

/-- The windows that a launch binds, and as window 8 its launch area (R46, R64). -/
def windowsOf (wmask : BitVec 8) (tab : List Byte) : Table (Nat × Nat) :=
  ((List.range 9).filter (fun i => i == 8 || wmask.getLsbD i)).map (fun i => (i, (fieldAt tab (16 * i) 8, fieldAt tab (16 * i + 8) 8)))

/-- A launch just accepted. -/
def newLaunch (num q : Nat) (p : Packet) (head : BitVec 32) (clk : Clock) : Launch :=
  { num := num, queue := q, pkt := p, qhead := head, stage := .waiting, status := .ok
    waitsLeft := p.waits.filter (fun w => w.getLsbD 31), image := none, imgDigest := none, windows := [], area := 0, cores := []
    start := none, end_ := 0, digest := none, mloads := 0, microDigest := 0, stopReq := false, saved := [], logPos := none
    recStopped := false, clk := clk }

/-- The checks of a packet, and the first steps of its launch (R66, R68). -/
def State.firstSteps (s : State) (part num : Nat) (bs : List Byte) : State :=
  let p := packetOf bs
  if badPacket bs then s.endUnrun part num .badPacket
  else if p.part ≠ part then s.endUnrun part num .badPartition
  else if p.marker then s.evaluate part num (fun _ => true)
  else match s.readImage part p.image, s.readVirtual part p.bindings 144 with
    | .unreadable, _ | _, none => s.endUnrun part num .badImage
    | _, some tab =>
      let s := s.modPart part (fun q => q.modLaunch num (fun l =>
        { l with windows := windowsOf p.wmask tab, area := BitVec.ofNat 64 (fieldAt tab 128 8), stage := .serial }))
      if p.mode.getLsbD 5 then s.release part
      else (s.modPart part (fun q => q.modLaunch num (fun l => { l with stage := .waiting }))).evaluate part num (fun _ => true)

/-- PACKET_ACCEPT (R60, R67): the next packet of a mapped queue; `readOk` is false when its read fails on the link. -/
def execPacketAccept (queue : Nat) (readOk : Bool) (s : State) : Out :=
  match s.parts.find? (fun e => e.2.ownsQueue queue) with
  | none => .next s
  | some (part, p) =>
    let x := s.queue queue
    if x.st != .mapped || x.head == x.tail || 16 ≤ p.accepted queue then .next s
    else if !readOk || !(if p.link = 0 then s.linkUp0 else s.linkUp1) then
      .next ((s.modQueue queue (fun x => { x with readerr := true })).tearDown part queue false)
    else
      let at_ := x.base + 64 * (x.head.toNat % 2 ^ (x.log2size + 4))
      let bs := s.hostGet p.link at_ 64
      let num := p.nextLaunch
      let s := s.modPart part (fun p =>
        { p with nextLaunch := num + 1, launches := p.launches ++ [newLaunch num queue (packetOf bs) x.head x.clk] })
      let s := s.modQueue queue (fun x => { x with head := x.head + 1 })
      .next (s.firstSteps part num bs)

/-! ## Retirement (R438 to R440) -/

/-- Whether everything that a launch has sent from a core is done: its queues empty, its calls ended, its writes performed and its atomics
answered and acknowledged, so that its die has applied what they wrote (R382, R438). -/
def State.coreDone (s : State) (core : Nat) : Bool :=
  let k := s.core core
  k.ctxs.all (fun x => x.2.copyq.isEmpty && x.2.pushesDone) && !(k.trans.store && !k.trans.blocks.isEmpty) &&
  k.calls.isEmpty && !s.writes.any (fun w => w.core == core && !w.performed) && !s.atoms.any (fun a => a.core == core)

/-- The bytes of the RESULT entries of non-zero length, as logical core 0 reads them; or the first check that fails. -/
def State.resultHits (s : State) (part : Nat) (cores : List Nat) : List (Nat × Nat) → Except (Cause × Word) (List Hit)
  | [] => .ok []
  | (va, n) :: rs =>
    let a : Access :=
      { part := part, cores := cores, own := cores.headD 0, kind := .read, copy := true, mask := 0, egress := [] }
    match s.checkSpan a va n with
    | .error e => .error e
    | .ok hs =>
      match hs.findIdx? (fun h => !s.reachable h.pa) with
      | some i => .error (.memError, BitVec.ofNat 64 (va + i))
      | none =>
        match s.resultHits part cores rs with
        | .error e => .error e
        | .ok gs => .ok (hs ++ gs)

/-- Whether a mask names two or more parties. -/
def mixed (m : Mask) : Bool := decide (2 ≤ (bitList m.toNat 16).length)

/-- A read of step 2 that fails: the status becomes TRAPPED, and the fault log takes an entry (R439). -/
def State.digestFails (s : State) (part : Nat) (l : Launch) (c : Cause) (a : Word) : State :=
  (s.modLaunch { part := part, launch := l.num, lcore := 0 } (fun l => { l with status := .trapped })).logFault part c true a
    (l.cores.headD 0) 0

/-- Whether step 2 reads anything for a launch (R438). -/
def Launch.digested (l : Launch) : Bool :=
  l.status != .aborted && l.status != .cancelled && l.status != .partitionReset && l.image.isSome

/-- Step 2: the result digest, the trap of a failed read, or nothing for mixed data (R439). -/
def State.digestStep (s : State) (part : Nat) (l : Launch) : State :=
  let o : Owner := { part := part, launch := l.num, lcore := 0 }
  match l.digested, l.image with
  | false, _ | _, none => s
  | true, some img =>
    match s.resultHits part l.cores img.results with
    | .error (c, a) => s.digestFails part l c a
    | .ok hs =>
      if hs.any (fun h => mixed (s.hitsMask [h])) then s
      else
        let d := sha3 (s.peeks (hs.map (·.pa)))
        s.modLaunch o (fun l => { l with digest := some d })

/-- A core that a launch leaves, or stops on: nothing issues there. Its registers stay as they are until the next placement, where a
debugger reads them (R364, R420, R428). -/
def Core.released (k : Core) : Core :=
  { k with owner := none, last := none, holder := none, from_ := 3, slotSpent := false, halted := false, phase := none, resc := false,
           calls := [], exports := [], scan := none, mload := none }

/-- Step 5: a launch leaves: its cores are free, and its queue and its successors go on (R94, R438, R441). -/
def State.dropLaunch (s : State) (part : Nat) (l : Launch) : State :=
  let s := l.cores.foldl (fun s c => s.modCore c Core.released) s
  let s := s.modPart part (fun p =>
    { p with launches := p.launches.filter (fun e => e.num != l.num), retireOrder := p.retireOrder.filter (fun n => n != l.num)
             seq := if l.cores.isEmpty then p.seq else p.seq + 1 })
  (s.settleQueue part l.queue).release part

/-- The launch of a partition that is in steps 1 and 2 of its retirement, where step 1 is over: its copies and writes are complete, and a
fault that they met is taken as SKIP (R438). The state is as step 1 leaves it. -/
def State.digestTurn (s : State) (part : Nat) : State × Option Launch :=
  match (s.part part).retireOrder.head?.bind (s.part part).launch? with
  | none => (s, none)
  | some l =>
    if l.stage != .retiring then (s, none)
    else
      let s := l.cores.foldl (fun s c => four.foldl (fun s x => s.skipFaulted c x) s) s
      (s, if l.cores.all s.coreDone then (s.part part).launch? l.num else none)

/-- The launch goes on to its record. What it has observed and written is then what the dies of its cores have applied (R382). -/
def State.toRecord (s : State) (part num : Nat) : State :=
  s.modLaunch { part := part, launch := num, lcore := 0 } (fun l =>
    { l with stage := .record, clk := l.cores.foldl (fun c k => c.join (s.die (dieOf k)).clk) l.clk })

/-- LAUNCH_RETIREMENT: of the launch whose retirement began first, steps 1 and 2, or step 5. -/
def execLaunchRetirement (part : Nat) (s : State) : Out :=
  match (s.part part).retireOrder.head?.bind (s.part part).launch? with
  | none => .next s
  | some l =>
    match l.stage with
    | .retiring =>
      match s.digestTurn part with
      | (t, none) => .next t
      | (t, some l) => .next ((t.digestStep part l).toRecord part l.num)
    | .freeing => .next (s.dropLaunch part l)
    | _ => .next s

/-- An uncorrectable error at a byte that step 2 reads (R439). -/
def State.digestError (s : State) (part : Nat) (va : Word) : State :=
  match s.digestTurn part with
  | (t, none) => t
  | (t, some l) =>
    if l.digested && ((l.image.map (·.results)).getD []).any (fun r => decide (r.1 ≤ va.toNat) && decide (va.toNat < r.1 + r.2)) then
      (t.digestFails part l .memError va).toRecord part l.num
    else t

/-- The counter base of a launch (R77). -/
def Launch.base (l : Launch) : Word :=
  if l.baseGiven then l.pkt.counterBase else BitVec.ofNat 64 (l.num * 2 ^ 32)

/-- The flags of a record: REPLAYABLE, RECORDED, DIGEST (R77). -/
def Launch.flags (l : Launch) : Nat :=
  (if l.record && !l.recStopped then 1 else 0) + (if l.record then 2 else 0) +
  (if l.status = Status.ok && l.digest.isSome then 4 else 0)

/-- The 128 bytes of an ephemeris record (R77). The start frame of a launch that ended before any of its bundles issued is its end frame
(log entry 74). -/
def Launch.recordBytes (l : Launch) : List Byte :=
  let p := l.pkt
  let dg := if l.status = Status.ok then l.digest.getD 0 else 0
  let head := bytesOf 8 l.num ++ bytesOf 2 l.queue ++ bytesOf 2 l.status.code ++ bytesOf 1 p.mode.toNat ++ bytesOf 1 l.flags
  let tail := bytesOf 4 ((l.logPos.getD 0xFFFFFFFF).toNat) ++ bytesOf 2 p.signal.toNat ++ bytesOf 2 0
  if p.marker then head ++ bytesOf 2 0 ++ bytesOf 4 p.userTag.toNat ++ bytesOf 4 l.qhead.toNat ++ bytesOf 96 0 ++ tail
  else
    head ++ bytesOf 2 p.contexts ++ bytesOf 4 p.userTag.toNat ++ bytesOf 4 l.qhead.toNat ++ bytesOf 8 p.seed.toNat ++
    bytesOf 8 l.base.toNat ++ bytesOf 8 (l.start.getD l.end_).toNat ++ bytesOf 8 l.end_.toNat ++ digestBytes dg ++
    digestBytes (l.imgDigest.getD 0) ++ tail

/-- Writes a record at its place, and EPHPROD advances (R78). -/
def State.putRecord (s : State) (part : Nat) (l : Launch) : State :=
  let f := s.func (fnOf part)
  (s.hostPut part (f.ephbase + 128 * (f.ephprod.toNat % f.ephEntries)) l.recordBytes).modFunc (fnOf part)
    (fun f => { f with ephprod := f.ephprod + 1 })

/-- EPHEMERIS_RECORD_WRITE: the record of the launch that retires, once the ring has room, and its signal (R70, R78). A launch
that holds no cores then leaves. -/
def execEphemerisRecordWrite (part : Nat) (s : State) : Out :=
  match (s.part part).retireOrder.head?.bind (s.part part).launch? with
  | none => .next s
  | some l =>
    if l.stage != .record then .next s
    else if (s.func (fnOf part)).ephFull then .next (s.setFstat (fnOf part) fstatEPHFULL)
    else
      let s := (s.putRecord part l).signal part l
      let s := s.modPart part (fun p => { p with recClk := p.recClk.join l.clk })
      let s := s.modLaunch { part := part, launch := l.num, lcore := 0 } (fun l => { l with stage := .freeing })
      .next (if l.cores.isEmpty then s.dropLaunch part { l with stage := .freeing } else s)

/-! ## Tenant pre-emption (R430) -/

/-- What is saved of a context. -/
def Ctx.saved (x : Ctx) : SavedCtx :=
  { j := x.j, pc := x.pc, bank := x.bank, rstack := x.rstack, taint := x.taint, rndPos := x.rndPos, trapEn := x.trapEn
    trapTidx := x.trapTidx, trapMask := x.trapMask, retired := x.st == .retired }

/-- Whether a launch asked to stop has nothing left to wait for. -/
def State.stoppedLaunch (s : State) (l : Launch) : Bool :=
  l.stopReq && l.stage == .running &&
  l.ctxNames.all (fun w => ((s.ctx w.core w.ctx).st == .stopped || (s.ctx w.core w.ctx).st == .retired) &&
    (s.ctx w.core w.ctx).asyncQ.isEmpty) &&
  l.cores.all (fun c => s.coreDone c && (s.core c).calls.isEmpty && !s.writes.any (fun w => w.core == c && !w.everywhere))

/-- TENANT_PREEMPTION_SAVE: the saved items are kept, the cores freed, and the queue's slot goes on. Every register is dead, and with it
the results still pending. -/
def execTenantPreemptionSave (part : Nat) (s : State) : Out :=
  match (s.part part).launches.find? s.stoppedLaunch with
  | none => .next s
  | some l =>
    let kept := l.ctxNames.map (fun w => (s.ctx w.core w.ctx).saved)
    let clk := l.cores.foldl (fun c k => c.join (s.die (dieOf k)).clk) l.clk
    let s := { s with reads := s.reads.filter (fun r => !l.cores.contains r.core) }
    let s := l.cores.foldl (fun s c => s.modCore c (fun k => { k.released with ctxs := [] })) s
    let s := s.modPart part (fun p =>
      { p.modLaunch l.num (fun l => { l with stage := .placing, cores := [], saved := kept, stopReq := false, clk := clk }) with seq := p.seq + 1 })
    .next (s.settleQueue part l.queue)

end Sys2Proof.Machine
end

