-- ==== Sys2Proof/Machine/Scalar.lean ====
section
/-! DEFINITION. Slot 0: register arithmetic (R180 to R187), predicates (R188, R189), branches, calls and returns (R190 to
R195), BSWAP and IFENCE (R151, R152), and NOP (R209). -/

namespace Sys2Proof.Machine

/-! ## The functions of R180, R181 and R183 -/

def mulh (a b : Word) : Word := BitVec.ofInt 64 (a.toInt * b.toInt / (2 ^ 64 : Nat))
def mulhu (a b : Word) : Word := BitVec.ofNat 64 (a.toNat * b.toNat / 2 ^ 64)
def divS (a b : Word) : Word := if b = 0 then BitVec.allOnes 64 else BitVec.ofInt 64 (Int.tdiv a.toInt b.toInt)
def divU (a b : Word) : Word := if b = 0 then BitVec.allOnes 64 else BitVec.ofNat 64 (a.toNat / b.toNat)
def remS (a b : Word) : Word := if b = 0 then a else BitVec.ofInt 64 (Int.tmod a.toInt b.toInt)
def remU (a b : Word) : Word := if b = 0 then a else BitVec.ofNat 64 (a.toNat % b.toNat)
/-- The shift amount: bits [5:0] (R180). -/
def amountOf (b : Word) : Nat := b.toNat % 64
def shl (a b : Word) : Word := a <<< amountOf b
def shr (a b : Word) : Word := a >>> amountOf b
def sar (a b : Word) : Word := a.sshiftRight (amountOf b)
def minS (a b : Word) : Word := if b.toInt < a.toInt then b else a
def maxS (a b : Word) : Word := if a.toInt < b.toInt then b else a
def minU (a b : Word) : Word := if b.toNat < a.toNat then b else a
def maxU (a b : Word) : Word := if a.toNat < b.toNat then b else a

/-- The number of zero bits below the lowest set bit, of the `n` bits from bit `i` up. -/
def ctzFrom (v : Nat) : Nat → Nat → Nat
  | 0, i => i
  | n + 1, i => if v.testBit i then i else ctzFrom v n (i + 1)

def clz (a : Word) : Word := BitVec.ofNat 64 (64 - bitLen a.toNat)
def ctz (a : Word) : Word := BitVec.ofNat 64 (ctzFrom a.toNat 64 0)
def popc (a : Word) : Word := BitVec.ofNat 64 (bitList a.toNat 64).length

/-! ## Shapes -/

/-- Two operands and a result of latency L (R180). -/
def alu2 (L : Nat) (g : Word → Word → Word) (f : FS3) (s : State) : Out :=
  slotRun f.gd (fxS f.w f.d L) (fun s => do
    let m := s.me.base f.gd
    s.destReady (sDest f.d)
    let (a, s) ← s.opnd f.a
    let (b, s) ← s.opnd f.b
    return s.writeS L f.w f.d (g a.val b.val) (m ||| a.mask ||| b.mask)) s

/-- A division: the context's own divider is busy for 20 cycles and holds a further division (R182). -/
def divide (g : Word → Word → Word) (f : FS3) (s : State) : Out :=
  slotRun f.gd (fxS f.w f.d 20) (fun s => do
    let m := s.me.base f.gd
    s.destReady (sDest f.d)
    let (a, s) ← s.opnd f.a
    let (b, s) ← s.opnd f.b
    must (decide (s.me.divFree ≤ s.me.cycle)) .stall
    let s := s.modMe (fun x => { x with divFree := x.cycle + 20 })
    return s.writeS 20 f.w f.d (g a.val b.val) (m ||| a.mask ||| b.mask)) s

/-- One operand and a result of latency 1. -/
def alu1 (gd : Guard) (w : Bool) (d : BitVec 5) (a : Opnd) (g : Word → Word) (s : State) : Out :=
  slotRun gd (fxS w d 1) (fun s => do
    let m := s.me.base gd
    s.destReady (sDest d)
    let (v, s) ← s.opnd a
    return s.writeS 1 w d (g v.val) (m ||| v.mask)) s

/-! ## Register arithmetic -/

/-- ADD (R180). -/
def execAdd (f : FS3) (s : State) : Out := alu2 1 (fun a b => a + b) f s

/-- SUB (R180). -/
def execSub (f : FS3) (s : State) : Out := alu2 1 (fun a b => a - b) f s

/-- MUL (R180). -/
def execMul (f : FS3) (s : State) : Out := alu2 3 (fun a b => a * b) f s

/-- MULH (R180). -/
def execMulh (f : FS3) (s : State) : Out := alu2 3 (fun a b => mulh a b) f s

/-- MULHU (R180). -/
def execMulhu (f : FS3) (s : State) : Out := alu2 3 (fun a b => mulhu a b) f s

/-- DIV (R180 to R182). -/
def execDiv (f : FS3) (s : State) : Out := divide divS f s

/-- DIVU (R180 to R182). -/
def execDivu (f : FS3) (s : State) : Out := divide divU f s

/-- REM (R180 to R182). -/
def execRem (f : FS3) (s : State) : Out := divide remS f s

/-- REMU (R180 to R182). -/
def execRemu (f : FS3) (s : State) : Out := divide remU f s

/-- AND (R180). -/
def execAnd (f : FS3) (s : State) : Out := alu2 1 (fun a b => a &&& b) f s

/-- OR (R180). -/
def execOr (f : FS3) (s : State) : Out := alu2 1 (fun a b => a ||| b) f s

/-- XOR (R180). -/
def execXor (f : FS3) (s : State) : Out := alu2 1 (fun a b => a ^^^ b) f s

/-- ANDN (R180). -/
def execAndn (f : FS3) (s : State) : Out := alu2 1 (fun a b => a &&& ~~~b) f s

/-- SHL (R180). -/
def execShl (f : FS3) (s : State) : Out := alu2 1 (fun a b => shl a b) f s

/-- SHR (R180). -/
def execShr (f : FS3) (s : State) : Out := alu2 1 (fun a b => shr a b) f s

/-- SAR (R180). -/
def execSar (f : FS3) (s : State) : Out := alu2 1 (fun a b => sar a b) f s

/-- MIN (R180). -/
def execMin (f : FS3) (s : State) : Out := alu2 1 (fun a b => minS a b) f s

/-- MAX (R180). -/
def execMax (f : FS3) (s : State) : Out := alu2 1 (fun a b => maxS a b) f s

/-- MINU (R180). -/
def execMinu (f : FS3) (s : State) : Out := alu2 1 (fun a b => minU a b) f s

/-- MAXU (R180). -/
def execMaxu (f : FS3) (s : State) : Out := alu2 1 (fun a b => maxU a b) f s

/-- CLZ (R183). -/
def execClz (f : FS2) (s : State) : Out := alu1 f.gd f.w f.d f.a clz s

/-- CTZ (R183). -/
def execCtz (f : FS2) (s : State) : Out := alu1 f.gd f.w f.d f.a ctz s

/-- POPC (R183). -/
def execPopc (f : FS2) (s : State) : Out := alu1 f.gd f.w f.d f.a popc s

/-- SEL: the result carries the mask of p[n] and of both operands (R184). -/
def execSel (f : FSel) (s : State) : Out :=
  slotRun f.gd (fxS f.w f.d 1) (fun s => do
    let p := s.me.pred f.n.toNat
    let m := s.me.base f.gd ||| p.mask
    s.destReady (sDest f.d)
    let (a, s) ← s.opnd f.a
    let (b, s) ← s.opnd f.b
    return s.writeS 1 f.w f.d (if p.val then a.val else b.val) (m ||| a.mask ||| b.mask)) s

/-! ## Immediates (R185 to R187) -/

def imm10 (i : BitVec 10) : Word := i.signExtend 64

/-- ADDI (R185). -/
def execAddi (f : FSI) (s : State) : Out := alu1 f.gd f.w f.d f.a (fun v => v + imm10 f.imm) s

/-- ANDI (R185). -/
def execAndi (f : FSI) (s : State) : Out := alu1 f.gd f.w f.d f.a (fun v => v &&& imm10 f.imm) s

/-- ORI (R185). -/
def execOri (f : FSI) (s : State) : Out := alu1 f.gd f.w f.d f.a (fun v => v ||| imm10 f.imm) s

/-- XORI (R185). -/
def execXori (f : FSI) (s : State) : Out := alu1 f.gd f.w f.d f.a (fun v => v ^^^ imm10 f.imm) s

/-- SHLI (R186). -/
def execShli (f : FSH) (s : State) : Out := alu1 f.gd f.w f.d f.a (fun v => v <<< f.amount.toNat) s

/-- SHRI (R186). -/
def execShri (f : FSH) (s : State) : Out := alu1 f.gd f.w f.d f.a (fun v => v >>> f.amount.toNat) s

/-- SARI (R186). -/
def execSari (f : FSH) (s : State) : Out := alu1 f.gd f.w f.d f.a (fun v => v.sshiftRight f.amount.toNat) s

/-- MOVI (R187). -/
def execMovi (f : FSL) (s : State) : Out :=
  slotRun f.gd (fxS f.w f.d 1) (fun s => do
    s.destReady (sDest f.d)
    return s.writeS 1 f.w f.d (f.imm.signExtend 64) (s.me.base f.gd)) s

/-- MOVSH: reads s[d] as a register (R187). -/
def execMovsh (f : FSL) (s : State) : Out :=
  slotRun f.gd (fxS f.w f.d 1) (fun s => do
    let v ← s.dataReg f.d
    return s.writeS 1 f.w f.d ((v.val <<< 16) ||| f.imm.setWidth 64) (s.me.base f.gd ||| v.mask)) s

/-! ## Predicates (R188, R189) -/

def condHolds (c : Cond) (a b : Word) : Bool :=
  match c with
  | .eq => a == b
  | .ne => a != b
  | .lt => decide (a.toInt < b.toInt)
  | .le => decide (a.toInt ≤ b.toInt)
  | .gt => decide (b.toInt < a.toInt)
  | .ge => decide (b.toInt ≤ a.toInt)
  | .ltu => decide (a.toNat < b.toNat)
  | .leu => decide (a.toNat ≤ b.toNat)
  | .gtu => decide (b.toNat < a.toNat)
  | .geu => decide (b.toNat ≤ a.toNat)

def fxPred (pd : BitVec 3) (_ : State) : FalseFx := .one false (.pred pd.toNat) 1

/-- CMP: the old p[pd] is an operand where it is combined (R188, R348). -/
def execCmp (f : FPC) (s : State) : Out :=
  slotRun f.gd (fxPred f.pd) (fun s => do
    let m := s.me.base f.gd
    let old := s.me.pred f.pd.toNat
    let (a, s) ← s.opnd f.a
    let (b, s) ← s.opnd f.b
    let c := condHolds f.cond a.val b.val
    let m := m ||| a.mask ||| b.mask
    return match f.comb with
      | .write => s.setPred f.pd.toNat c m
      | .conj => s.setPred f.pd.toNat (old.val && c) (m ||| old.mask)
      | .disj => s.setPred f.pd.toNat (old.val || c) (m ||| old.mask)) s

def plogVal (op : PlogOp) (a b : Bool) : Bool :=
  match op with
  | .conj => a && b
  | .disj => a || b
  | .xor => a != b
  | .andn => a && !b
  | .orn => a || !b
  | .neg => !a
  | .mov => a

/-- Whether PLOG reads its second predicate. -/
def plogTwo : PlogOp → Bool
  | .neg => false
  | .mov => false
  | _ => true

/-- PLOG (R189). -/
def execPlog (f : FPL) (s : State) : Out :=
  slotRun f.gd (fxPred f.pd) (fun s =>
    let a := s.me.pred f.pa.toNat
    let b := s.me.pred f.pb.toNat
    let old := s.me.pred f.pd.toNat
    let m := s.me.base f.gd ||| a.mask ||| (if plogTwo f.op then b.mask else 0) ||| old.mask
    .ok (s.setPred f.pd.toNat (plogVal f.op a.val b.val) m)) s

/-! ## Branches, calls and returns (R172, R190 to R195) -/

/-- A branch is taken: two delay slots follow, then the target; in deterministic mode it opens a frame three cycles on
(R172, R174). -/
def State.take (s : State) (tgt : Option (Nat × Bool)) : State :=
  let frame := s.myCore.frame
  s.modMe (fun x => { x with nds := 3, tgt := tgt, nextStart := frame + 3 })

/-- The guard's mask and the masks of operands raise TAINT (R350). -/
def State.branchTaint (s : State) (gd : Guard) (m : Mask) : State := s.taintUp ((s.me.pred gd.g.toNat).mask ||| m)

/-- The last bundle of a bank (R150). -/
def lastPc : Nat := 0x3FFF0

/-- The target of a displacement, if it lies in the bank (R150, R191). -/
def branchTarget (pc : Nat) (disp : BitVec 21) : Option Nat :=
  let t : Int := (pc : Int) + 16 * disp.toInt
  if 0 ≤ t ∧ t ≤ (lastPc : Int) then some t.toNat else none

/-- The return stack takes the offset after the second delay slot (R192). -/
def State.pushReturn (s : State) : State := s.modMe (fun x => { x with rstack := ((x.pc + 48) % 0x40000) :: x.rstack })

/-- BR (R191). -/
def execBr (f : FBR) (s : State) : Out :=
  slotRun f.gd fxAct (fun s =>
    match branchTarget s.me.pc f.disp with
    | none => raise .illegal
    | some t => .ok ((s.branchTaint f.gd 0).take (some (t, false)))) s

/-- CALL: a full return stack is found first (R192). -/
def execCall (f : FBR) (s : State) : Out :=
  slotRun f.gd fxAct (fun s =>
    if 16 ≤ s.me.rstack.length then raise .retstackFull
    else match branchTarget s.me.pc f.disp with
      | none => raise .illegal
      | some t => .ok ((s.branchTaint f.gd 0).pushReturn.take (some (t, false)))) s

/-- CALLI: it acts as a CALL to the entry's offset, so an entry beyond the bank is ILLEGAL at its own bundle (R150, R193). -/
def execCalli (f : FA) (s : State) : Out :=
  slotRun f.gd fxAct (fun s => do
    let (i, s) ← s.opnd f.a
    if 16 ≤ s.me.rstack.length then raise .retstackFull
    else match (((s.imageOf s.cur.core).map (·.targets)).getD [])[i.val.toNat]? with
      | none => raise .callRange
      | some t =>
        must (decide (t ≤ lastPc)) (.raise .illegal 0 0)
        return (s.branchTaint f.gd i.mask).pushReturn.take (some (t, false))) s

/-- RET: on an empty return stack the context retires after the delay slots (R194). -/
def execRet (f : FZ) (s : State) : Out :=
  slotRun f.gd fxAct (fun s =>
    let s := s.branchTaint f.gd 0
    match s.me.rstack with
    | [] => .ok ((s.take none).modMe (fun x => { x with retPending := true }))
    | t :: ts => .ok ((s.modMe (fun x => { x with rstack := ts })).take (some (t, false)))) s

/-- BSWAP (R152). -/
def execBswap (f : FBS) (s : State) : Out :=
  slotRun f.gd fxAct (fun s => .ok ((s.branchTaint f.gd 0).take (some (16 * f.idx.toNat, true)))) s

/-- Whether a queue entry is a copy into an instruction bank. -/
def CopyEntry.toBank (e : CopyEntry) : Bool :=
  match e.kind with
  | .copy cmd .. => cmdDkind cmd == 2
  | _ => false

/-- IFENCE waits for the context's copies into instruction banks; no bundle is read ahead here (R151). -/
def execIfence (f : FZ) (s : State) : Out :=
  slotRun f.gd fxNone (fun s => if s.me.copyq.any CopyEntry.toBank then blocked 9 else .ok s) s

/-- NOP (R209). -/
def execNop (_f : FZ) (s : State) : Out := .next (s.verdict .issued)

end Sys2Proof.Machine
end

