-- ==== Sys2Proof/Machine/Signature.lean ====
section
/-! DEFINITION. The two signature schemes that the spec names (R52): Ed25519 of RFC 8032 without prehash, on SHA-512 of
FIPS 180-4, and ML-DSA-65 of FIPS 204 in its pure form with an empty context string, on SHAKE of FIPS 202. -/

namespace Sys2Proof.Machine

/-! ## SHA-512 -/

/-- The greatest number whose n-th power is at most v, among those below 2^b. -/
def rootBits (n v : Nat) : Nat → Nat
  | 0 => 0
  | b + 1 =>
    let r := rootBits n (v / 2 ^ n) b
    if (2 * r + 1) ^ n ≤ v then 2 * r + 1 else 2 * r

/-- The first primes, as many as asked for, among the numbers from `k` on. -/
def primesFrom : Nat → Nat → Nat → List Nat
  | 0, _, _ => []
  | _, 0, _ => []
  | fuel + 1, n + 1, k =>
    if ((List.range k).drop 2).all (fun d => k % d != 0) then k :: primesFrom fuel n (k + 1) else primesFrom fuel (n + 1) (k + 1)

/-- 64 bits of the fractional part of the n-th root of a prime. -/
def rootFraction (n p : Nat) : Word := BitVec.ofNat 64 (rootBits n (p * 2 ^ (64 * n)) 72)

def sha512Consts : List Word := (primesFrom 500 80 2).map (rootFraction 3)

def sha512Init : List Word := (primesFrom 500 8 2).map (rootFraction 2)

/-- The message schedule: the last 16 words give the next, the newest first. -/
def sha512Schedule : Nat → List Word → List Word
  | 0, ws => ws
  | n + 1, ws =>
    let w : Nat → Word := fun k => (ws[k]?).getD 0
    let a := w 14
    let b := w 1
    let s0 := a.rotateRight 1 ^^^ a.rotateRight 8 ^^^ (a >>> 7)
    let s1 := b.rotateRight 19 ^^^ b.rotateRight 61 ^^^ (b >>> 6)
    sha512Schedule n ((w 15 + s0 + w 6 + s1) :: ws)

/-- One of the 80 rounds on the eight working words. -/
def sha512Round (h : List Word) (kw : Word × Word) : List Word :=
  match h with
  | [a, b, c, d, e, f, g, x] =>
    let t1 := x + (e.rotateRight 14 ^^^ e.rotateRight 18 ^^^ e.rotateRight 41) + ((e &&& f) ^^^ (~~~e &&& g)) + kw.1 + kw.2
    let t2 := (a.rotateRight 28 ^^^ a.rotateRight 34 ^^^ a.rotateRight 39) + ((a &&& b) ^^^ (a &&& c) ^^^ (b &&& c))
    [t1 + t2, a, b, c, d + t1, e, f, g]
  | _ => h

/-- A number from bytes of which the first is the highest. -/
def beValue (bs : List Byte) : Nat := leValue bs.reverse

/-- Takes blocks of 128 bytes into the eight words; at most as many as given. -/
def sha512Blocks : Nat → List Word → List Byte → List Word
  | 0, h, _ => h
  | n + 1, h, bs =>
    let ws := ((List.range 16).map fun i => BitVec.ofNat 64 (beValue ((bs.drop (8 * i)).take 8))).reverse
    let kws := sha512Consts.zip (sha512Schedule 64 ws).reverse
    sha512Blocks n (List.zipWith (· + ·) h (kws.foldl sha512Round h)) (bs.drop 128)

/-- SHA-512, its 64 bytes in order. -/
def sha512 (m : List Byte) : List Byte :=
  let z := (256 - (m.length + 17) % 128) % 128
  let bs := m ++ 0x80 :: (List.replicate z 0 ++ (bytesOf 16 (8 * m.length)).reverse)
  (sha512Blocks (bs.length / 128) sha512Init bs).flatMap fun w => (bytesOf 8 w.toNat).reverse

/-! ## Ed25519 -/

/-- The prime of the field, the order of the base point and the constant of the curve. -/
def edP : Nat := 2 ^ 255 - 19
def edL : Nat := 2 ^ 252 + 27742317777372353535851937790883648493

/-- A power modulo m by repeated squaring, over at most `fuel` bits of the exponent. -/
def powModF (m : Nat) : Nat → Nat → Nat → Nat
  | 0, _, _ => 1 % m
  | fuel + 1, b, e =>
    let r := powModF m fuel (b * b % m) (e / 2)
    if e % 2 = 1 then b * r % m else r

def edPow (b e : Nat) : Nat := powModF edP 256 b e
def edInv (b : Nat) : Nat := edPow b (edP - 2)
def edD : Nat := (edP - 121665) * edInv 121666 % edP

/-- A point of the curve in extended coordinates. -/
structure EdPoint where
  x : Nat
  y : Nat
  z : Nat
  t : Nat
  deriving DecidableEq, Repr

def EdPoint.zero : EdPoint := { x := 0, y := 1, z := 1, t := 0 }

def EdPoint.add (p q : EdPoint) : EdPoint :=
  let a := (p.y + edP - p.x) * (q.y + edP - q.x) % edP
  let b := (p.y + p.x) * (q.y + q.x) % edP
  let c := 2 * p.t * q.t * edD % edP
  let d := 2 * p.z * q.z % edP
  let e := b + edP - a
  let f := d + edP - c
  let g := d + c
  let h := b + a
  { x := e * f % edP, y := g * h % edP, z := f * g % edP, t := e * h % edP }

/-- A multiple of a point, over at most `fuel` bits of the factor. -/
def EdPoint.mul : Nat → Nat → EdPoint → EdPoint
  | 0, _, _ => EdPoint.zero
  | fuel + 1, n, p =>
    let r := EdPoint.mul fuel (n / 2) (p.add p)
    if n % 2 = 1 then p.add r else r

def EdPoint.same (p q : EdPoint) : Bool := p.x * q.z % edP == q.x * p.z % edP && p.y * q.z % edP == q.y * p.z % edP

/-- The point with a given y and the low bit of x, if there is one. -/
def edPoint (y sign : Nat) : Option EdPoint :=
  if edP ≤ y then none
  else
    let u := (y * y + edP - 1) % edP
    let v := (edD * (y * y % edP) + 1) % edP
    let x2 := u * edInv v % edP
    let x0 := edPow x2 ((edP + 3) / 8)
    let x1 := if x0 * x0 % edP = x2 then x0 else x0 * edPow 2 ((edP - 1) / 4) % edP
    if x1 * x1 % edP ≠ x2 ∨ (x1 = 0 ∧ sign = 1) then none
    else
      let x := if x1 % 2 = sign then x1 else edP - x1
      some { x := x, y := y, z := 1, t := x * y % edP }

/-- The point that 32 bytes encode. -/
def edDecode (bs : List Byte) : Option EdPoint :=
  let v := leValue bs
  edPoint (v % 2 ^ 255) (v / 2 ^ 255)

/-- Ed25519 verification of a message under a key of 32 bytes with a signature of 64 (RFC 8032). DEDUCED (log entry 1): of the two
group equations that the RFC allows, the one with the factor 8. -/
def edVerify (key sig msg : List Byte) : Bool :=
  match edDecode key, edDecode (sig.take 32), edPoint (4 * edInv 5 % edP) 0 with
  | some a, some r, some b =>
    let s := leValue (sig.drop 32)
    let k := leValue (sha512 (sig.take 32 ++ key ++ msg)) % edL
    decide (s < edL) && (EdPoint.mul 4 8 (EdPoint.mul 256 s b)).same (EdPoint.mul 4 8 (r.add (EdPoint.mul 256 k a)))
  | _, _, _ => false

/-! ## ML-DSA-65 -/

/-- The modulus, and γ₂ of the parameter set. -/
def mlQ : Nat := 8380417
def mlG2 : Nat := 261888

/-- A polynomial of 256 coefficients modulo q. -/
abbrev MlPoly := List Nat

def MlPoly.add (a b : MlPoly) : MlPoly := List.zipWith (fun x y => (x + y) % mlQ) a b
def MlPoly.sub (a b : MlPoly) : MlPoly := List.zipWith (fun x y => (x + mlQ - y) % mlQ) a b
def MlPoly.dot (a b : MlPoly) : MlPoly := List.zipWith (fun x y => x * y % mlQ) a b
def MlPoly.scale (c : Nat) (a : MlPoly) : MlPoly := a.map fun x => c * x % mlQ

/-- The low eight bits of a number reversed. -/
def bitRev8 (n : Nat) : Nat := (List.range 8).foldl (fun r i => r + (n / 2 ^ i % 2) * 2 ^ (7 - i)) 0

def mlZeta (m : Nat) : Nat := powModF mlQ 24 1753 (bitRev8 m)

/-- The number-theoretic transform at node m of its tree, over `h` levels. -/
def mlNtt : Nat → Nat → MlPoly → MlPoly
  | 0, _, w => w
  | h + 1, m, w =>
    let lo := w.take (2 ^ h)
    let t := MlPoly.scale (mlZeta m) (w.drop (2 ^ h))
    mlNtt h (2 * m) (MlPoly.add lo t) ++ mlNtt h (2 * m + 1) (MlPoly.sub lo t)

/-- Its inverse. -/
def mlInv : Nat → Nat → MlPoly → MlPoly
  | 0, _, w => w
  | h + 1, m, w =>
    let u := mlInv h (2 * m) (w.take (2 ^ h))
    let v := mlInv h (2 * m + 1) (w.drop (2 ^ h))
    let half := (mlQ + 1) / 2
    MlPoly.scale half (MlPoly.add u v) ++ MlPoly.scale (half * powModF mlQ 24 (mlZeta m) (mlQ - 2)) (MlPoly.sub u v)

/-- Bytes of SHAKE128 and SHAKE256, in blocks squeezed until enough stand there. -/
def shakeOut (rate : Nat) : Nat → Sponge → List Byte
  | 0, _ => []
  | n + 1, a => a.out rate ++ shakeOut rate n a.permute

def shake128 (blocks : Nat) (m : List Byte) : List Byte := shakeOut 168 blocks (spongeOf 168 0x1F m)
def shake256 (n : Nat) (m : List Byte) : List Byte := (shakeOut 136 (n / 136 + 1) (spongeOf 136 0x1F m)).take n

/-- Coefficients below q from three bytes each, as many as asked for. -/
def mlReject : Nat → List Byte → MlPoly
  | 0, _ => []
  | n + 1, a :: b :: c :: bs =>
    let v := a.toNat + 256 * b.toNat + 65536 * (c.toNat % 128)
    if v < mlQ then v :: mlReject n bs else mlReject (n + 1) bs
  | _, _ => []

/-- The entry of row r and column s of the matrix, as it stands after the transform. Of each entry at most 336 candidates are
looked at, above the least bound that FIPS 204 allows. -/
def mlExpand (rho : List Byte) (r s : Nat) : MlPoly :=
  mlReject 256 (shake128 6 (rho ++ [BitVec.ofNat 8 s, BitVec.ofNat 8 r]))

/-- n numbers of b bits from bytes. -/
def unpackBits (b n : Nat) (bs : List Byte) : List Nat :=
  let v := leValue bs
  (List.range n).map fun i => v / 2 ^ (b * i) % 2 ^ b

/-- Places one coefficient of the challenge: the next byte that is at most i is where. -/
def mlPlace (i sign : Nat) (w : MlPoly) : List Byte → MlPoly × List Byte
  | [] => (w, [])
  | j :: bs =>
    if i < j.toNat then mlPlace i sign w bs
    else
      let old := (w[j.toNat]?).getD 0
      ((w.set i old).set j.toNat (if sign = 1 then mlQ - 1 else 1), bs)

/-- The challenge: a polynomial with 49 coefficients of 1 or −1. -/
def mlBall (seed : List Byte) : MlPoly :=
  let bs := shake256 544 seed
  let h := leValue (bs.take 8)
  ((List.range 49).foldl (fun (st : MlPoly × List Byte) k => mlPlace (207 + k) (h / 2 ^ k % 2) st.1 st.2)
    (List.replicate 256 0, bs.drop 8)).1

/-- The places of the hint of one row, rising, from `first` up to `last` of the list. -/
def mlRising : List Nat → Bool
  | a :: b :: t => decide (a < b) && mlRising (b :: t)
  | _ => true

/-- The rows of the hint: the last six bytes are the ends of the rows in the 55 places, and places past the last end are zero. -/
def mlHint (bs : List Byte) : Option (List (List Nat)) :=
  let ys := bs.map BitVec.toNat
  let ends := ys.drop 55
  let rows := (List.range 6).map fun i =>
    let a := if i = 0 then 0 else (ends[i - 1]?).getD 0
    let b := (ends[i]?).getD 0
    (a, b, (ys.take b).drop a)
  if rows.all (fun r => decide (r.1 ≤ r.2.1 ∧ r.2.1 ≤ 55) && mlRising r.2.2) &&
      ((ys.take 55).drop ((ends[5]?).getD 0)).all (· == 0)
  then some (rows.map (·.2.2)) else none

/-- The high part of a coefficient, corrected where the hint says so. -/
def mlUseHint (hint : Bool) (r : Nat) : Nat :=
  let r0 : Int := let m := r % (2 * mlG2); if mlG2 < m then (m : Int) - 2 * mlG2 else m
  let wrap := decide ((r : Int) - r0 = mlQ - 1)
  let r1 : Nat := if wrap then 0 else ((r : Int) - r0).toNat / (2 * mlG2)
  let low : Int := if wrap then r0 - 1 else r0
  if !hint then r1 else if 0 < low then (r1 + 1) % 16 else (r1 + 15) % 16

/-- Bits of b each, packed into bytes. -/
def packNums (b : Nat) (bytes : Nat) (vs : List Nat) : List Byte := bytesOf bytes (vs.foldr (fun v a => v + 2 ^ b * a) 0)

/-- ML-DSA-65 verification of a message under a key of 1,952 bytes with a signature of 3,309 (FIPS 204). -/
def mlVerify (key sig msg : List Byte) : Bool :=
  let rho := key.take 32
  let t1 := (List.range 6).map fun i => unpackBits 10 256 ((key.drop (32 + 320 * i)).take 320)
  let c := sig.take 48
  let z : List (List Int) := (List.range 5).map fun i =>
    (unpackBits 20 256 ((sig.drop (48 + 640 * i)).take 640)).map fun v => (2 ^ 19 : Int) - v
  match mlHint ((sig.drop 3248).take 61) with
  | none => false
  | some hint =>
    let mu := shake256 64 (shake256 64 key ++ [0, 0] ++ msg)
    let cN := mlNtt 8 1 (mlBall c)
    let zN := z.map fun p => mlNtt 8 1 (p.map fun v => (v % (mlQ : Int)).toNat)
    let w1 := (List.range 6).map fun r =>
      let az := (List.range 5).foldl (fun a s => MlPoly.add a (MlPoly.dot (mlExpand rho r s) ((zN[s]?).getD [])))
        (List.replicate 256 0)
      let t := mlNtt 8 1 (MlPoly.scale (2 ^ 13) ((t1[r]?).getD []))
      let w := mlInv 8 1 (MlPoly.sub az (MlPoly.dot cN t))
      let hs := (hint[r]?).getD []
      (List.range 256).map fun j => mlUseHint (hs.contains j) ((w[j]?).getD 0)
    z.all (fun p => p.all fun v => decide (v.natAbs < 2 ^ 19 - 196)) &&
      shake256 48 (mu ++ w1.flatMap (packNums 4 128)) == c

/-! ## Signer blocks (R51, R52) -/

/-- The two public keys of a signer block, in the order of R51 and R85. -/
def blockKeys (b : List Byte) : List Byte := b.take 1984

/-- Whether both signatures of a signer block verify for a message under the block's own keys (R52). -/
def blockVerifies (b msg : List Byte) : Bool :=
  edVerify (b.take 32) ((b.drop 1984).take 64) msg && mlVerify ((b.drop 32).take 1952) ((b.drop 2048).take 3309) msg

/-! ## The identity of the module (R443, R444) -/

/-- The identity keys in the order of R85. -/
def identityKeys : List Byte := bytesOf 32 Config.identityEd.toNat ++ bytesOf 1952 Config.identityMl.toNat

/-- The identity digest (R443). -/
def identityDigest : BitVec 256 := sha3 identityKeys

/-- The signer block that follows an attestation report: the identity keys with their signatures over a message (R51, R444). -/
def identityBlock (msg : List Byte) : List Byte :=
  identityKeys ++ bytesOf 64 (Config.identityEdSign msg).toNat ++ bytesOf 3309 (Config.identityMlSign msg).toNat ++
    List.replicate 3 0

end Sys2Proof.Machine
end

