-- ==== Sys2Proof/Machine/Image.lean ====
section
/-! DEFINITION. Kernel images: the sections and what each holds (R30 to R37, R90, R471), the call depth (R42, R43), and the
checks of the loader in the order of R54. -/

namespace Sys2Proof.Machine

/-! ## The section table (R31) -/

/-- An entry of the section table. -/
structure Sect where
  type : Nat
  flags : Nat
  off : Nat
  size : Nat
  blank : Bool
  deriving DecidableEq, Repr

def sectAt (bs : List Byte) (i : Nat) : Sect :=
  let e := (bs.drop (0x40 + 32 * i)).take 32
  { type := fieldAt e 0 2, flags := fieldAt e 2 2, off := fieldAt e 8 8, size := fieldAt e 16 8,
    blank := zeroFrom e 4 8 && zeroFrom e 24 32 }

def sectsOf (bs : List Byte) : List Sect := (List.range (fieldAt bs 8 2)).map (sectAt bs)

def Sect.meets (a b : Sect) : Bool := a.size != 0 && b.size != 0 && decide (a.off < b.off + b.size) && decide (b.off < a.off + a.size)

/-- Whether some two elements of a list, at different places, meet. -/
def anyPair {α : Type} (r : α → α → Bool) : List α → Bool
  | [] => false
  | x :: xs => xs.any (r x) || anyPair r xs

def countType (ss : List Sect) (t : Nat) : Nat := (ss.filter (fun s => s.type == t)).length

/-- The number of sections of a type that R32 allows: least and most. -/
def typeLimits (flags : Nat) : Nat → Option (Nat × Nat)
  | 0x1 | 0x4 | 0x5 | 0x7 | 0x9 | 0xB => some (1, 1)
  | 0x2 => some (0, 8)
  | 0x3 | 0x6 | 0xA => some (0, 1)
  | 0x8 => some (if flags.testBit 0 then (1, 1) else (0, 0))
  | 0xFF => some (if flags.testBit 1 then (1, 1) else (0, 0))
  | _ => none

/-- The table and the layout of the sections (R31, R32). DEDUCED (log entry 8): SIGN, the last section, is the last entry of the table
too. -/
def sectsOk (bs : List Byte) : Bool :=
  let ss := sectsOf bs
  let n := imageLength bs
  let flags := fieldAt bs 6 2
  let lo := 0x40 + 32 * ss.length
  decide (lo ≤ n) &&
  ss.all (fun s => decide (s.flags < 2) && s.blank && s.off % 16 == 0 && decide (lo ≤ s.off) && decide (s.off + s.size ≤ n)) &&
  !anyPair Sect.meets ss &&
  [0x1, 0x2, 0x3, 0x4, 0x5, 0x6, 0x7, 0x8, 0x9, 0xA, 0xB, 0xFF].all (fun t => match typeLimits flags t with
    | some (a, b) => decide (a ≤ countType ss t) && decide (countType ss t ≤ b)
    | none => true) &&
  ss.all (fun s => (typeLimits flags s.type).isSome || s.flags == 0) &&
  (match ss.find? (fun s => s.type == 0xFF) with
   | none => true
   | some s => s.off + s.size == n && (ss.getLast?.map (·.type)) == some 0xFF)

/-- The bytes of the sections of a type, in the order of the table. DEDUCED (log entry 8): the OVERLAY sections are numbered in this order
(R47). -/
def bytesOfType (bs : List Byte) (t : Nat) : List (List Byte) :=
  ((sectsOf bs).filter (fun s => s.type == t)).map (fun s => (bs.drop s.off).take s.size)

def sectBytes (bs : List Byte) (t : Nat) : List Byte := ((bytesOfType bs t).head?).getD []

/-! ## The sections one by one -/

/-- 16-byte pieces. -/
def piecesOf (size : Nat) : Nat → List Byte → List (List Byte)
  | 0, _ => []
  | n + 1, bs => bs.take size :: piecesOf size n (bs.drop size)

def codeOk (bs : List Byte) : Bool := bs.length % 16 == 0 && decide (bs.length ≤ 0x40000)

/-- BUDGET (R34): its layout only. -/
def budgetOf (bs : List Byte) : Option (List Nat × List (BitVec 32)) :=
  if bs.length = 16 then
    some (four.map (fun i => fieldAt bs i 1),
      [BitVec.ofNat 32 (fieldAt bs 4 4), BitVec.ofNat 32 (fieldAt bs 8 4), BitVec.ofNat 32 (fieldAt bs 12 4), 0])
  else none

/-- CALLS (R36): the stored depth and the target table. DESIGN CHOICE (log entry 8): byte 1 may hold any value. -/
def callsOf (bs : List Byte) : Option (Nat × List Nat) :=
  let n := fieldAt bs 2 2
  let ts := (List.range n).map (fun i => fieldAt bs (4 + 4 * i) 4)
  if n ≤ 256 && 4 + 4 * n ≤ bs.length && ts.all (fun t => t % 16 == 0) then some (fieldAt bs 0 1, ts) else none

/-- MICRO (R37). DESIGN CHOICE (log entry 8): bytes 2 to 15 of the header and the low bits of an offset are not checked, and bits [7:1] of
a descriptor's flags byte must be zero. -/
def microOf (bs : List Byte) : Option (List MicroRec) :=
  let n := fieldAt bs 0 2
  let ds := piecesOf 16 n (bs.drop 16)
  let at_ (d : List Byte) : Nat := fieldAt d 4 4
  let len (d : List Byte) : Nat := fieldAt d 8 4
  let ok (d : List Byte) : Bool :=
    decide (fieldAt d 1 1 < 2) && zeroFrom d 2 4 && zeroFrom d 12 16 && decide (16 + 16 * n ≤ at_ d) &&
    decide (at_ d + 16 * len d ≤ bs.length)
  if 1 ≤ n && n ≤ 256 && 16 + 16 * n ≤ bs.length && ds.all ok then
    some (ds.map (fun d =>
      { index := fieldAt d 0 1, resident := fieldAt d 1 1 == 1
        words := (piecesOf 16 (len d) (bs.drop (at_ d))).map (fun w => BitVec.ofNat 128 (leValue w)) }))
  else none

/-- A record of DECL (R471). -/
def declOf (bs : List Byte) : DeclRec :=
  { kind := fieldAt bs 0 1, index := fieldAt bs 1 1, body := BitVec.ofNat 512 (leValue (bs.drop 16)) }

/-- The generator that a stream declaration names. -/
def DeclRec.gen (d : DeclRec) : Nat := (d.body.extractLsb' 0x148 8).toNat

/-- Whether a record keeps R471. -/
def DeclRec.ok (d : DeclRec) : Bool :=
  match d.kind with
  | 1 => decide (d.index < 16) && d.body.extractLsb' 64 448 == 0 && (ringOf (d.body.extractLsb' 0 64) (Lab.zero 4) 0).isSome
  | 2 => decide (d.index < 64) && lrLegal d.body
  | 3 => decide (d.index < 8) && decide (d.gen < 8) && (streamOf d.body).isSome
  | _ => false

/-- The records of a DECL section, whatever they hold. -/
def declsFrom (bs : List Byte) : List DeclRec := (piecesOf 80 (fieldAt bs 0 2) (bs.drop 16)).map declOf

/-- DECL (R471). -/
def declsOf (bs : List Byte) : Option (List DeclRec) :=
  let n := fieldAt bs 0 2
  let ds := declsFrom bs
  let clash (a b : DeclRec) : Bool :=
    (a.kind == b.kind && a.index == b.index) || (a.kind == 3 && b.kind == 3 && a.gen == b.gen)
  if 1 ≤ n && n ≤ 88 && bs.length == 16 + 80 * n && zeroFrom bs 2 16 &&
     (piecesOf 80 n (bs.drop 16)).all (fun r => zeroFrom r 2 16) && ds.all DeclRec.ok && !anyPair clash ds
  then some ds else none

/-- PARAM (R35): minimum, DECLARED and REQUIRED of each window. -/
def paramsOf (bs : List Byte) : Option (List (Nat × Bool × Bool)) :=
  let es := piecesOf 16 8 bs
  let ok (e : List Byte) : Bool :=
    fieldAt e 0 4 % 16 == 0 && decide (fieldAt e 4 1 < 4) && decide (fieldAt e 5 1 < 8) && zeroFrom e 6 16
  if bs.length = 128 && es.all ok then
    some (es.map (fun e => (fieldAt e 0 4, (fieldAt e 4 1).testBit 0, (fieldAt e 4 1).testBit 1)))
  else none

/-- RESULT (R35): the entries in use. -/
def resultsOf (bs : List Byte) : Option (List (Nat × Nat)) :=
  let es := (piecesOf 16 4 bs).map (fun e => (fieldAt e 0 8, fieldAt e 8 8))
  if bs.length = 64 && es.all (fun e => e.1 % 16 == 0 && e.2 % 16 == 0 && decide (e.2 ≤ 2 ^ 30)) then
    some (es.filter (fun e => e.2 != 0))
  else none

/-- PHASE (R48): its records as they stand; their limits belong to E_PHASE. -/
def phaseOf (bs : List Byte) : PhaseRec :=
  { num := fieldAt bs 0 1, engine := fieldAt bs 1 1, write := fieldAt bs 2 1 == 1, ctx := fieldAt bs 3 1, off := fieldAt bs 4 4,
    len := fieldAt bs 8 4 }

/-! ## REBIND (R90) -/

def rebindOf (bs : List Byte) : RebindRec :=
  { kind := fieldAt bs 0 1, sect := fieldAt bs 1 1, bit := fieldAt bs 2 1, width := fieldAt bs 3 1, off := fieldAt bs 4 4 }

def RebindRec.meets (a b : RebindRec) : Bool :=
  a.sect == b.sect && a.off == b.off && decide (a.bit < b.bit + b.width) && decide (b.bit < a.bit + a.width)

/-- The bytes that section number n of R90 names. -/
def rebindSect (code : List Byte) (ovls : List (List Byte)) (const decl : List Byte) (n : Nat) : List Byte :=
  if n = 0 then code
  else if n ≤ 8 then (ovls[n - 1]?).getD []
  else if n = 9 then const
  else if n = 10 then decl
  else []

/-- The value that a field holds. -/
def RebindRec.logical (r : RebindRec) (sect : List Byte) : Nat := fieldAt sect r.off 4 / 2 ^ r.bit % 2 ^ r.width

/-- One more than the largest logical value in the fields of a kind, or 1 when there is none. -/
def requiredOf (rs : List RebindRec) (sect : Nat → List Byte) (kind : Nat) : Nat :=
  ((rs.filter (fun r => r.kind == kind)).map (fun r => r.logical (sect r.sect) + 1)).foldl max 1

/-- REBIND (R90): the entries, and the cores and ports required. DESIGN CHOICE (log entry 8): a section that breaks its layout otherwise
than in the three cases of R90 is refused as in those, and bytes after its entries may hold any value. -/
def rebindsOf (bs : List Byte) (sect : Nat → List Byte) : Option (List RebindRec × Nat × Nat) :=
  let n := fieldAt bs 0 2
  let rs := (piecesOf 8 n (bs.drop 16)).map rebindOf
  let ok (r : RebindRec) : Bool :=
    decide (1 ≤ r.kind) && decide (r.kind ≤ 4) && decide (r.sect ≤ 10) && decide (2 ≤ r.width) && decide (r.width ≤ 8) &&
    decide (r.bit + r.width ≤ 32) && r.off % 4 == 0 && decide (r.off + 4 ≤ (sect r.sect).length)
  if 16 + 8 * n ≤ bs.length && zeroFrom bs 4 16 && rs.all ok && !anyPair RebindRec.meets rs &&
     fieldAt bs 2 1 == requiredOf rs sect 1 && fieldAt bs 3 1 == requiredOf rs sect 4
  then some (rs, fieldAt bs 2 1, fieldAt bs 3 1) else none

/-! ## SIGN (R51 to R53) -/

/-- The signer blocks, or none where the section breaks R51. An image without the section has no block. -/
def signersOf (bs : List Byte) : Option (List (List Byte)) :=
  match bytesOfType bs 0xFF with
  | [] => some []
  | s :: _ =>
    let n := fieldAt s 0 2
    let ks := piecesOf 5360 n (s.drop 16)
    if 1 ≤ n && n ≤ 4 && s.length == 16 + 5360 * n && zeroFrom s 2 16 && ks.all (fun k => zeroFrom k 5357 5360) then some ks
    else none

/-- The image digest (R33). -/
def imageDigest (bs : List Byte) : BitVec 256 :=
  match (sectsOf bs).find? (fun s => s.type == 0xFF) with
  | some s => sha3 (bs.take s.off)
  | none => sha3 bs

/-- The key digest of a signer block (R85). -/
def keyDigest (block : List Byte) : BitVec 256 := sha3 (blockKeys block)

/-- ASCII text of eight characters, the first at the lowest address. -/
def asciiOf (s : String) : List Byte := s.toList.map (fun c => BitVec.ofNat 8 c.toNat)

/-! ## The call graph (R42, R43) -/

/-- The slot-0 operation of the bundle at an offset, if it is one. -/
def slot0At (code : List Byte) (pc : Nat) : Option Instr :=
  (decodeSlot0 (BitVec.ofNat 32 (leValue ((code.drop pc).take 4)))).toOption

/-- What a bundle's slot 0 does to the flow: routines called, whether the flow may branch to a place, and whether it goes on
past its delay slots, or past itself. -/
inductive FlowStep where
  | next
  | calls (rs : List Nat)
  | jumps (ts : List Nat) (always : Bool)
  | ends
  deriving DecidableEq, Repr

/-- Whether a guard is true, or false, whatever the predicates hold. -/
def surelyTrue (gd : Guard) : Bool := gd.g == 0 && !gd.inv
def neverTrue (gd : Guard) : Bool := gd.g == 0 && gd.inv

/-- What the bundle at an offset does to the flow. DESIGN CHOICE (log entry 8): a call whose guard is never true is no call. -/
def flowAt (code : List Byte) (targets : List Nat) (pc : Nat) : FlowStep :=
  match slot0At code pc with
  | none => .next
  | some i =>
    let gd := i.guard.getD Guard.always
    if neverTrue gd then .next
    else match i with
      | .call f => .calls (branchTarget pc f.disp).toList
      | .calli _ => .calls targets
      | .br f => .jumps (branchTarget pc f.disp).toList (surelyTrue gd)
      | .ret _ => .jumps [] (surelyTrue gd)
      | .bswap _ => .jumps [] (surelyTrue gd)
      | .haltctx _ => if (surelyTrue gd) then .ends else .next
      | .eret _ => if (surelyTrue gd) then .ends else .next
      | _ => .next

/-- Routines called from the places of a worklist, each with the number of bundles after which its flow ends (0: none).
Every place is visited once; `fuel` bounds the visits. -/
def calleesFrom (code : List Byte) (targets : List Nat) : Nat → List (Nat × Nat) → List (Nat × Nat) → List Nat → List Nat
  | 0, _, _, acc => acc
  | _, [], _, acc => acc
  | n + 1, (pc, left) :: todo, seen, acc =>
    if seen.contains (pc, left) || code.length ≤ pc then calleesFrom code targets n todo seen acc
    else
      let after : List (Nat × Nat) := if left = 1 then [] else [(pc + 16, left - 1)]
      let seen := (pc, left) :: seen
      match flowAt code targets pc with
      | .next => calleesFrom code targets n (after ++ todo) seen acc
      | .calls rs => calleesFrom code targets n (after ++ todo) seen (rs ++ acc)
      | .jumps ts always =>
        let after := if always then [(pc + 16, 2)] else after
        calleesFrom code targets n (ts.map (fun t => (t, 0)) ++ after ++ todo) seen acc
      | .ends => calleesFrom code targets n todo seen acc

/-- The routines that a routine calls. -/
def callees (code : List Byte) (targets : List Nat) (r : Nat) : List Nat :=
  (calleesFrom code targets (code.length + 8) [(r, 0)] [] []).dedup

/-- The largest number of calls outstanding below a routine, if it is less than `fuel`: a cycle has no such number. -/
def depthBelow (code : List Byte) (targets : List Nat) : Nat → Nat → Option Nat
  | 0, _ => none
  | n + 1, r =>
    (callees code targets r).foldl (fun a c => match a, depthBelow code targets n c with
      | some x, some y => some (max x (y + 1))
      | _, _ => none) (some 0)

/-- The loader's verdict on the stored depth (R43): an image does not name its handler roots, so a stored depth is taken as
derived when the main graph gives it, alone or with the root of one target-table entry (log entry 34). -/
inductive DepthVerdict where
  | good | mismatch | tooDeep
  deriving DecidableEq, Repr

def depthVerdict (code : List Byte) (entry stored : Nat) (targets : List Nat) : DepthVerdict :=
  match depthBelow code targets 17 entry with
  | none => .tooDeep
  | some m =>
    if stored = m then .good
    else if targets.any (fun t => match depthBelow code targets 17 t with
      | some h => stored == m + h + 1
      | none => false) then (if stored ≤ 16 then .good else .tooDeep)
    else .mismatch

/-! ## E_FORMAT -/

/-- The image that bytes hold, with the verdict on its depth; none is E_FORMAT. DESIGN CHOICE (log entry 8): so is a SIGN section that
breaks R51. -/
def imageOfBytes (bs : List Byte) : Option (Image × DepthVerdict) := do
  if !headerOk bs || !sectsOk bs then none
  let code := sectBytes bs 0x1
  let ovls := bytesOfType bs 0x2
  let const := (bytesOfType bs 0xA).head?
  let entry := fieldAt bs 0x0C 4
  if !codeOk code || !ovls.all codeOk || code.length ≤ entry then none
  let budget ← budgetOf (sectBytes bs 0x4)
  let calls ← callsOf (sectBytes bs 0x5)
  let params ← paramsOf (sectBytes bs 0x7)
  let results ← resultsOf (sectBytes bs 0x9)
  let micro ← match (bytesOfType bs 0x3).head? with
    | none => some []
    | some m => microOf m
  let decls ← match (bytesOfType bs 0x6).head? with
    | none => some []
    | some d => declsOf d
  let rb ← rebindsOf (sectBytes bs 0xB) (rebindSect code ovls (const.getD []) (sectBytes bs 0x6))
  let _ ← signersOf bs
  let phase := sectBytes bs 0x8
  if phase.length % 16 ≠ 0 then none
  let v := depthVerdict code entry calls.1 calls.2
  if v = .mismatch then none
  return ({ digest := imageDigest bs, det := (fieldAt bs 6 2).testBit 0, entry := entry, code := code, ovls := ovls, const := const
            microRaw := sectBytes bs 0x3, micro := micro, budget := budget.1, mirrors := budget.2, params := params
            results := results, targets := calls.2, phases := (piecesOf 16 (phase.length / 16) phase).map phaseOf
            decls := decls, rebinds := rb.1, coresReq := rb.2.1, portsReq := rb.2.2 }, v)

/-! ## The checks of the image (R54, codes 0x02 to 0x0C) -/

/-- Every static bundle, by section. -/
def Image.sections (img : Image) : List (List (BitVec 128)) :=
  (img.code :: img.ovls).map (fun s => (piecesOf 16 (s.length / 16) s).map (fun b => BitVec.ofNat 128 (leValue b)))

/-- E_SIG (R52). -/
def badSignature (bs : List Byte) : Bool :=
  match signersOf bs with
  | none => false
  | some ks => ks.any (fun k => !blockVerifies k (asciiOf "LX4-KIMG" ++ digestBytes (imageDigest bs)))

/-- E_UNSIGNED (R53). -/
def Part.unsigned (p : Part) (bs : List Byte) : Bool :=
  match p.desc with
  | none => false
  | some d => d.signreq && !((signersOf bs).getD []).any (fun k => (d.signers.take d.trusted).contains (keyDigest k))

/-- E_BUDGET (R34, R38). -/
def badBudget (img : Image) : Bool :=
  let n (i : Nat) : Nat := (img.budget[i]?).getD 0
  let m (i : Nat) : Nat := ((img.mirrors[i]?).getD 0).toNat
  n 0 == 0 || decide (32 < n 0) || decide (32 < n 1) || decide (32 < n 2) || decide (16 < n 3) ||
  [0, 1, 2].any (fun i => decide (2 ^ n i ≤ m i) || decide (8 < (bitList (m i) 32).length)) || (m 0).testBit 0

/-- E_OPCODE, E_RESERVED and E_LANES: the first class in their order that a static bundle or micro-word meets (R158). DESIGN CHOICE (log
entry 8): the micro-words are those that a routine descriptor covers. -/
def badCode (img : Image) : Option LoadErr :=
  let bs := img.sections.flatMap (fun s => s.flatMap (fun v => badOf (decodeBundle v)))
  let ms := img.micro.flatMap (fun m => m.words.flatMap (fun w => badOf (decodeMicro w)))
  match worstOf (bs ++ ms) with
  | some .opcode => some .eOpcode
  | some .reserved => some .eReserved
  | some .lanes => some .eLanes
  | none => none

/-- The legal static bundles, by section. -/
def Image.bundles (img : Image) : List (List Bundle) :=
  img.sections.map (fun s => s.filterMap (fun v => (decodeBundle v).toOption))

/-- E_REGRANGE (R41). -/
def badRegs (img : Image) : Bool :=
  img.bundles.any (fun s => s.any (fun b => (bundleOps b).any (fun e => !regsOk img.budget e.1 e.2)))

def bundleBranches (b : Bundle) : Bool := (bundleOps b).any (fun e => isBranch e.2)

/-- A branch with delay slots: ERET has none (R424). -/
def bundleDelays (b : Bundle) : Bool := (bundleOps b).any (fun e => isBranch e.2 && !(match e.2 with | .eret _ => true | _ => false))

/-- E_DELAY over the bundles of a section (R44). -/
def badDelay : List Bundle → Bool
  | [] => false
  | b :: bs =>
    (bundleDelays b && (decide (bs.length < 2) || (bs.take 2).any bundleBranches)) || badDelay bs

/-- E_MICRO (R37). -/
def badMicro (img : Image) : Bool :=
  anyPair (fun (a b : MicroRec) => a.index == b.index) img.micro ||
  decide (4096 < ((img.micro.filter (·.resident)).map (fun m => m.words.length)).sum)

/-! ## E_PHASE (R48 to R50) -/

/-- Whether a record keeps the limits of R48 and R49; `raw` are its bytes. -/
def phaseRecOk (raw : List Byte) : Bool :=
  let r := phaseOf raw
  decide (r.engine ≤ 6) && decide (fieldAt raw 2 1 ≤ 1) &&
  (if r.engine = 0 then decide (r.ctx < 4) || r.ctx == 0xFF else r.ctx == 0) &&
  r.off % 16 == 0 && r.len % 16 == 0 && r.len != 0 && decide (r.off + r.len ≤ sliceBytes) && zeroFrom raw 12 16

/-- Whether two records of one phase clash: they meet, one of them is a write, and they belong to different engines, or to
different contexts; a range marked for every context belongs to each of them (R50). -/
def PhaseRec.clashes (a b : PhaseRec) : Bool :=
  a.num == b.num && (a.write || b.write) && decide (a.off < b.off + b.len) && decide (b.off < a.off + a.len) &&
  (a.engine != b.engine || (a.engine == 0 && (a.ctx != b.ctx || a.ctx == 0xFF)))

/-- The phases that PHASE instructions name. -/
def Image.phasesNamed (img : Image) : List Nat :=
  img.bundles.flatMap (fun s => s.flatMap (fun b => (bundleOps b).filterMap (fun e => match e.2 with
    | .phase f => some f.num.toNat
    | _ => none)))

/-- E_PHASE of a launch with mode DET as given. -/
def badPhase (img : Image) (raw : List Byte) (det : Bool) : Bool :=
  let recs := piecesOf 16 (raw.length / 16) raw
  !recs.all phaseRecOk ||
  img.phases.any (fun r => decide (64 < (img.phases.filter (fun q => q.num == r.num)).length)) ||
  anyPair PhaseRec.clashes img.phases ||
  (img.det && img.phasesNamed.any (fun n => !img.phases.any (fun r => r.num == n))) || (det && !img.det)

/-! ## The checks of the launch (R39, R45 to R47, R92) -/

def roundUp (n : Nat) : Nat := (n + 4095) / 4096 * 4096

/-- Whether the MICRO section is copied into the launch area (R37). -/
def Image.microCopied (img : Image) : Bool := img.micro.any (fun m => !m.resident)

/-- The copies of the launch area in order, with their section numbers of R90: 11 stands for MICRO (R47). -/
def Image.areaParts (img : Image) : List (Nat × List Byte) :=
  (match img.const with
   | some c => [(9, c)]
   | none => []) ++ ((List.range img.ovls.length).zip img.ovls).map (fun e => (e.1 + 1, e.2)) ++
  (if img.microCopied then [(11, img.microRaw)] else [])

/-- The offset of each copy. -/
def areaOffsets : Nat → List (Nat × List Byte) → List (Nat × Nat × List Byte)
  | _, [] => []
  | o, (n, bs) :: rest => (n, o, bs) :: areaOffsets (o + roundUp bs.length) rest

/-- Registers of a file that a context needs (R39). -/
def Image.need (img : Image) (i : Nat) : Nat :=
  (img.budget[i]?).getD 0 + (bitList ((img.mirrors[i]?).getD 0).toNat 32).length - (if i = 0 then 1 else 0)

/-- E_FIT (R39, R92). -/
def badFit (p : Part) (img : Image) (k : Packet) (det : Bool) : Bool :=
  let n := k.contexts / k.perCore
  [(0, 96), (1, 96), (2, 96), (3, 48)].any (fun e => decide (e.2 < k.perCore * img.need e.1)) ||
  decide (n < img.coresReq) || decide (p.portList.length < img.portsReq) || decide (p.coreList.length < n) ||
  (det && !((p.desc.map (·.detok)).getD false))

/-- E_PARAM (R46, R47). -/
def badParam (img : Image) (windows : Table (Nat × Nat)) : Bool :=
  ((List.range 8).zip img.params).any (fun e => e.2.2.1 && e.2.2.2 && (match tfind windows e.1 with
    | none => true
    | some w => decide (w.2 < e.2.1))) ||
  (!img.areaParts.isEmpty &&
    (let size := ((tfind windows 8).map (·.2)).getD 0
     size == 0 || decide (size < (img.areaParts.map (fun e => roundUp e.2.length)).sum)))

/-- E_BANK (R45). -/
def badBank (img : Image) : Bool := img.bundles.any (fun s => s.any (fun b => decide (0 < bankExtra img.mirrors b)))

/-- The first error after E_FORMAT, if any (R54). -/
def Part.loadError (p : Part) (l : Launch) (bs : List Byte) (img : Image) (v : DepthVerdict) : Option LoadErr :=
  if fieldAt bs 4 2 ≠ 1 then some .eVersion
  else if badSignature bs then some .eSig
  else if p.unsigned bs then some .eUnsigned
  else if badBudget img then some .eBudget
  else match badCode img with
    | some e => some e
    | none =>
      if badRegs img then some .eRegrange
      else if img.bundles.any badDelay then some .eDelay
      else if v = .tooDeep then some .eDepth
      else if badMicro img then some .eMicro
      else if badPhase img (sectBytes bs 0x8) l.det then some .ePhase
      else if badFit p img l.pkt l.det then some .eFit
      else if badParam img l.windows then some .eParam
      else if l.det && badBank img then some .eBank
      else none

end Sys2Proof.Machine
end

