-- ==== Sys2Proof/Machine/Resets.lean ====
section
/-! DEFINITION. Units and their retirement, with the mesh that joins them (R127, R129, R130, R436, R447), and partition reset
(R437). -/

namespace Sys2Proof.Machine

/-! ## The mesh (R127, R129, R130) -/

/-- Links of the full mesh, by their nodes: gateways 0 to 7, controllers 8 to 19, the IOD 20. -/
def meshLinks : List (Nat × Nat) :=
  four.flatMap fun d =>
    [(2 * d, 2 * d + 1), (2 * d, 8 + 3 * d), (2 * d + 1, 8 + 3 * d + 2), (8 + 3 * d, 8 + 3 * d + 1),
     (8 + 3 * d + 1, 8 + 3 * d + 2), (8 + 3 * d + 1, 20), (2 * d + 1, 2 * ((d + 1) % 4))]

/-- The node of a gateway or a controller. -/
def unitNode : UnitName → Option Nat
  | .gateway k => some k
  | .stack m => some (8 + m)
  | _ => none

/-- The links that survive a list of retired units. -/
def linksLeft (us : List UnitName) : List (Nat × Nat) :=
  let nodes := us.filterMap unitNode
  meshLinks.filter (fun l =>
    !nodes.contains l.1 && !nodes.contains l.2 && !us.contains (.link l.1 l.2) && !us.contains (.link l.2 l.1))

/-- Nodes reached from a list over links, in at most `fuel` rounds. -/
def reachNodes (links : List (Nat × Nat)) : Nat → List Nat → List Nat
  | 0, ns => ns
  | n + 1, ns =>
    let more := links.flatMap (fun l =>
      (if ns.contains l.1 then [l.2] else []) ++ (if ns.contains l.2 then [l.1] else []))
    reachNodes links n (ns ++ more).dedup

/-- Nodes that are no longer connected to the IOD. -/
def lostNodes (us : List UnitName) : List Nat :=
  let on := reachNodes (linksLeft us) 21 [20]
  (List.range 20).filter (fun n => !on.contains n)

/-- The quads that a unit takes with it (R436, R130). -/
def unitQuads : UnitName → List Nat
  | .core n => [n / 4]
  | .slice n => [n / 4]
  | .gateway k => [2 * k, 2 * k + 1]
  | .engine k => [2 * k, 2 * k + 1]
  | _ => []

/-- The ports that a unit takes with it. -/
def unitPorts : UnitName → List Nat
  | .port n => [n]
  | .stack m => [4 * m, 4 * m + 1, 4 * m + 2, 4 * m + 3]
  | _ => []

/-- Retired units with everything that they take with them. -/
def closeUnits (us : List UnitName) : List UnitName :=
  let us := us ++ (lostNodes us).map (fun n => if n < 8 then .gateway n else .stack (n - 8))
  let quads := us.flatMap unitQuads
  let cores := quads.flatMap (fun q => four.map (fun i => 4 * q + i))
  (us ++ cores.map UnitName.core ++ (us.flatMap unitPorts).map UnitName.port).dedup

def State.quadRetired (s : State) (q : Nat) : Bool := s.retired.any (fun u => (unitQuads u).contains q)
def State.portRetired (s : State) (p : Nat) : Bool := s.retired.any (fun u => (unitPorts u).contains p)

/-- The set bits of a mask that meet a test. -/
def keepBits {w : Nat} (m : BitVec w) (f : Nat → Bool) : BitVec w :=
  BitVec.ofNat w (((bitList m.toNat w).filter f).foldl (fun a i => a + 2 ^ i) 0)

/-- The span of a leaf's target. -/
def leafTarget (level : Nat) (e : BitVec 128) : Nat × Nat :=
  if pteS64 e then (pteAddr e / 65536 * 65536, 65536) else (pteAddr e, levelSpan level)

/-- Whether a span lies where an installed entry of a partition may translate to: assigned addresses, the partition's own ports, and below
their reserves (R104, R108). -/
def State.assigned (s : State) (part base size : Nat) : Bool :=
  let ports := (s.part part).portList
  match regionOf base with
  | .slice _ off => decide (off + size ≤ sliceBytes)
  | .iod off => decide (off + size ≤ 0x100000000)
  | .port p off => ports.contains p && decide (off + size ≤ reserveBase)
  | .peer _ off => decide (off + size ≤ 0x10000000000)
  | .host _ off => decide (off + size ≤ 0x200000000000)
  | .interleaved n off => n == part && decide (off + size ≤ ports.length * reserveBase)
  | .unassigned => false

/-- Whether a store entry is the page of a leaf, or the range of an entry. -/
def Part.gives (p : Part) (e : StoreEntry) : Bool :=
  p.leaves.any (fun l => l.page e.part e.base == e && (!pteS64 l.entry || l.va / 65536 == e.base / 65536)) ||
  p.ranges.any (fun r => r.2.base == e.base && r.2.limit - r.2.base == e.size)

/-- Entries that no longer translate to assigned addresses, since a port of their partition has gone, are installed no more, and no store
holds one (R104, R108, R123; log entry 75). -/
def State.pruned (s : State) (part : Nat) : State :=
  let s := s.modPart part (fun p =>
    { p with leaves := p.leaves.filter (fun l => s.assigned part (leafTarget l.level l.entry).1 (leafTarget l.level l.entry).2)
             ranges := p.ranges.filter (fun e => s.assigned part e.2.target (e.2.limit - e.2.base)) })
  let keep (e : StoreEntry) : Bool := e.part != part || (s.part part).gives e
  { s with fronts := s.fronts.map (fun (e : Nat × List StoreEntry) => (e.1, e.2.filter keep)),
           dies := s.dies.map (fun (e : Nat × Die) => (e.1, { e.2 with store := e.2.store.filter keep })) }

/-- Units retire: descriptors lose their bits, stack contents behind a retired port are lost, and when the mesh has changed its
traffic pauses until new routes stand (R130, R436). Of the new tree only what it still connects shows: it decides which nodes are lost. -/
def State.retireUnits (s : State) (us : List UnitName) : State :=
  if us.isEmpty then s
  else
    let old := s.retired
    let s := { s with retired := closeUnits (s.retired ++ us), failing := s.failing.filter (fun u => !us.contains u) }
    let s := { s with parts := s.parts.map (fun (e : Nat × Part) => (e.1, { e.2 with desc := e.2.desc.map (fun (d : Desc) =>
      { d with quads := keepBits d.quads (fun q => !s.quadRetired q), ports := keepBits d.ports (fun p => !s.portRetired p) }) })) }
    let s := { s with stack := s.stack.filter (fun e => match regionOf e.1 with
      | .port p _ => !s.portRetired p
      | _ => true) }
    let s := (s.parts.map (·.1)).foldl State.pruned s
    if s.meshPause || linksLeft s.retired == linksLeft old then s else { s with meshPause := true, meshMark := s.nextId, meshHeld := s.uninjected }

/-- Whether a partition holds a mesh node. -/
def Desc.holdsNode (d : Desc) (n : Nat) : Bool :=
  if n < 8 then d.quads.getLsbD (2 * n) || d.quads.getLsbD (2 * n + 1)
  else if n < 20 then four.any (fun i => d.ports.getLsbD (4 * (n - 8) + i))
  else false

/-- Whether a partition holds a unit (R436). -/
def Desc.holds (d : Desc) : UnitName → Bool
  | .core n => d.quads.getLsbD (n / 4)
  | .slice n => d.quads.getLsbD (n / 4)
  | .port n => d.ports.getLsbD n
  | .stack m => d.holdsNode (8 + m)
  | .gateway k => d.holdsNode k
  | .engine k => d.holdsNode k
  | .link a b => d.holdsNode a || d.holdsNode b

/-! ## Partition reset (R437) -/

/-- Step 3: a launch that has not retired ends PARTITION_RESET, and its record is written at once. -/
def State.resetRecord (s : State) (part : Nat) (l : Launch) : State :=
  let now := s.frame
  let begun := l.stage == .retiring || l.stage == .record
  if l.stage == .freeing then s
  else
    s.putRecord part
      { l with status := .partitionReset
               start := if l.stage == .running then l.start else l.start.orElse (fun _ => some now)
               end_ := if begun then l.end_ else now }

/-- The cores, ports and queues of a descriptor. -/
def Desc.cores (d : Desc) : List Nat := (bitList d.quads.toNat 16).flatMap (fun q => four.map (fun i => 4 * q + i))
def Desc.queues (d : Desc) : List Nat := (List.range d.queueCount).map (fun i => d.queueBase + i)
def Desc.groups (d : Desc) : List Nat := (List.range d.groupCount).map (fun i => d.groupBase + i)

/-- A queue after a partition reset. -/
def Queue.afterReset (q : Queue) : Queue := { Queue.reset with base := q.base, log2size := q.log2size, preempt := q.preempt }

/-- Steps 1, 2 and 4 for the units of a descriptor: every request of its cores that is outstanding is answered with an error response, and
the units are as after reset. A write on its way goes on as an empty one, so that the dies' clocks do (R377, R434). -/
def State.resetUnits (s : State) (part : Nat) (d : Desc) : State :=
  let mine (c : Nat) : Bool := d.quads.getLsbD (c / 4)
  let s := d.cores.foldl (fun s c => s.modCore c (fun _ => Core.reset)) s
  let s := d.queues.foldl (fun s q => if (tfind s.queues q).isSome then s.modQueue q Queue.afterReset else s) s
  let s := d.groups.foldl (fun s g => if (tfind s.groups g).isSome then s.modGroup g (fun _ => Group.reset) else s) s
  { s with
      reads := s.reads.filter (fun r => !mine r.core)
      writes := (s.writes.filter (fun w => !(mine w.core && w.held))).map (fun w =>
        if !mine w.core then w
        else if w.performed then { w with acked := true }
        else { w with cells := [], raises := [], performed := true, acked := true })
      atoms := s.atoms.filter (fun a => !mine a.core)
      vsyncReqs := s.vsyncReqs.filter (fun w => !mine w.core)
      groupReqs := s.groupReqs.filter (fun r => r.who.part != part && !d.groups.contains r.group)
      gate := s.gate.filter (fun g => g.part != part)
      snaps := s.snaps.filter (fun w => !mine w.who.core)
      cells := s.cells.filter (fun e => !d.quads.getLsbD (e.1 / 2048))
      engines := s.engines.map (fun e => (e.1, { e.2 with records := e.2.records.filter (fun r => !mine r.core) }))
      dies := s.dies.map (fun e =>
        (e.1, { e.2.answerMisses (fun m => m.part == part) with
                  replicas := e.2.replicas.filter (fun r => match sliceOf (64 * r.line) with
                    | some c => !mine c
                    | none => true) }))
      slots := s.slots.filter (fun e => !(decide (d.slotBase ≤ e.1) && decide (e.1 < d.slotBase + d.slotCount)))
      slotTables := s.slotTables.map (fun e =>
        if d.quads.getLsbD (2 * e.1) || d.quads.getLsbD (2 * e.1 + 1) then (e.1, slotTableReset) else e) }

/-- A partition as step 4 leaves it: what is kept is its translation, its windows and its policies. Over a `hot` island it runs at
700 MHz (R449). What its records tell the host stays told, `clk` with it (R382). -/
def Part.afterReset (p : Part) (hot : Bool) (clk : Clock) : Part :=
  { Part.reset with
      desc := p.desc, leaves := p.leaves, ranges := p.ranges, egress := p.egress, pubwins := p.pubwins, policies := p.policies
      serials := p.serials, recClk := clk
      step := if hot then 0 else (p.desc.map (·.ceiling)).getD 0 }

/-- Whether an island that a partition holds is above 105 °C, or has not yet cooled (R449). -/
def State.hot (s : State) (d : Option Desc) : Bool :=
  match d with
  | some d => s.hotIslands.any (fun q => d.quads.getLsbD q)
  | none => false

/-- A partition reset, with the descriptor that takes effect in step 4, if one is installed (R87, R437). Failing units of both descriptors
are retired (R436). The copies of the objects name launch number 0 (log entry 76). -/
def State.resetPartition (s : State) (part : Nat) (new : Option Desc) : State :=
  let old := (s.part part).desc
  let s := (s.part part).launches.foldl (fun s l => s.resetRecord part l) s
  let clk := ((old.map Desc.cores).getD []).foldl (fun c k => c.join (s.die (dieOf k)).clk) (s.part part).recClk
  let changed := ((s.part part).objs.filter (fun e => decide (e.2 ≠ Obj.reset))).map (·.1)
  let s := match old with
    | some d => s.resetUnits part d
    | none => s
  let s := match new with
    | some d => s.resetUnits part d
    | none => s
  let s := s.modPart part (fun p =>
    match new with
    | some d => { p with desc := some d, serials := [] }.afterReset (s.hot new) clk
    | none => p.afterReset (s.hot old) clk)
  let s := s.modFunc (fnOf part) (fun f => { f with fstat := 0 })
  let s := changed.foldl (fun s o => s.copyObject part o) s
  let held (u : UnitName) : Bool := ((old.map (·.holds u)).getD false) || ((new.map (·.holds u)).getD false)
  (s.pruned part).dropDone.retireUnits (s.failing.filter held)

end Sys2Proof.Machine
end

