-- ==== Sys2Proof/Machine/Mailbox.lean ====
section
/-! DEFINITION. The management mailbox (R450): descriptors (R84 to R87), page-table and range entries (R472, R473), egress and
publication windows (R356, R406), release policies (R360, R361), manifests and attestation (R441, R444), and the debugger
(R428, R429, R432). -/

namespace Sys2Proof.Machine

/-! ## Requests and responses -/

/-- What serving a request gives: the state, the code, the data, and whether accesses translated before it must be performed
before the answer (R123). -/
structure Served where
  st : State
  code : Nat
  data : List Byte
  wait : Bool
  /-- An egress slot and what it will hold once the answer is written (R356). -/
  slot : Option (Nat × Option Egress) := none

/-- A refusal that changes nothing. -/
def State.refuse (s : State) (code : Nat) : Served := { st := s, code := code, data := [], wait := false }

def State.done (s : State) : Served := s.refuse 0

def State.giving (s : State) (data : List Byte) : Served := { st := s, code := 0, data := data, wait := false }

/-- Code of a request that no function, or not this one, may make. -/
def codeDenied : Nat := 0xFFFF

/-- The link of a function: the physical function is on link 0 (R55). -/
def State.linkOf (s : State) (fn : Nat) : Nat :=
  match partOfFn fn with
  | none => 0
  | some p => (s.part p).link

def State.linkUp (s : State) (link : Nat) : Bool := if link = 0 then s.linkUp0 else s.linkUp1

/-- Whether a request of a function waits to be served, on a link that is up. -/
def State.asks (s : State) (fn : Nat) : Bool :=
  let f := s.func fn
  f.request.isSome && f.response.isNone && s.linkUp (s.linkOf fn)

/-- The function that is served next: of those that wait, the first in rotation after the one served last (R450). -/
def State.nextServed (s : State) : Option Nat := ((List.range 17).map (fun i => (s.lastFn + 1 + i) % 17)).find? s.asks

/-- The request that a function has submitted and Excia serves next: its header, and its body with its length. -/
def State.submitted (s : State) (fn : Nat) : Option (List Byte × Nat × List Byte) :=
  if s.nextServed != some fn then none
  else (s.func fn).request.map (fun a =>
    let h := s.hostGet (s.linkOf fn) a 64
    let n := fieldAt h 8 8
    (h, n, s.hostGet (s.linkOf fn) (a + 64) n))

def reqOpcode (h : List Byte) : Nat := fieldAt h 0 2

/-- The partition that a request acts on, unless its header shuts it out. `pf` marks requests of the physical function alone. -/
def reqPart (fn : Nat) (pf : Bool) (h : List Byte) : Option Nat :=
  if !zeroFrom h 3 8 || !zeroFrom h 24 64 then none
  else match partOfFn fn with
    | none => some (fieldAt h 2 1)
    | some p => if fieldAt h 2 1 != 0 || pf then none else some p

/-- The response of a request is formed. -/
def State.respond (fn : Nat) (h : List Byte) (part : Nat) (r : Served) : State :=
  { r.st with lastFn := fn }.modFunc fn (fun f =>
    { f with request := none
             response := some { addr := fieldAt h 16 8, part := part, code := r.code, data := r.data
                                after := if r.wait then some r.st.nextId else none, egress := r.slot } })

/-- Serves the request that a function waits for, if it has the opcode. -/
def State.serveRequest (s : State) (fn op : Nat) (pf : Bool) (act : State → Nat → Nat → List Byte → Served) : State :=
  match s.submitted fn with
  | none => s
  | some (h, n, body) =>
    if reqOpcode h ≠ op then s
    else match reqPart fn pf h with
      | none => State.respond fn h 0 (s.refuse codeDenied)
      | some p =>
        if p < 16 || (op == 9 && p == 0xFF && fn == 0) then State.respond fn h p (act s p n body)
        else State.respond fn h 0 (s.refuse codeDenied)

/-- An egress slot as a request has it. -/
def setEgress (t : Table Egress) : Option (Nat × Option Egress) → Table Egress
  | none => t
  | some (slot, none) => terase t slot
  | some (slot, some e) => tput t slot e

/-- MAILBOX_RESPONSE: the response is written, and its data after it; BUSY clears. An egress window takes effect with it (R356). -/
def execMailboxResponse (fn : Nat) (s : State) : Out :=
  match (s.func fn).response with
  | none => .next s
  | some r =>
    if !s.linkUp (s.linkOf fn) || (match r.after with
      | some id => s.openBefore r.part id
      | none => false) then .next s
    else
      let bs := bytesOf 2 r.code ++ bytesOf 6 0 ++ bytesOf 8 r.data.length ++ r.data
      let s := (s.hostPoke (s.linkOf fn) r.addr bs).modFunc fn (fun f => { f with busy := false, response := none })
      .next (if r.egress.isNone then s else s.modPart r.part (fun p => { p with egress := setEgress p.egress r.egress }))

/-- UNLISTED_MAILBOX_OPCODE. -/
def execUnlistedMailboxOpcode (fn : Nat) (s : State) : Out :=
  match s.submitted fn with
  | none => .next s
  | some (h, _, _) =>
    .next (if 1 ≤ reqOpcode h && reqOpcode h ≤ 0x0C then s else State.respond fn h 0 (s.refuse codeDenied))

/-- A refusal whose code no rule gives: any code but 0 (log entry 3). -/
def State.refuseFree (s : State) : Served :=
  { s with freeCount := s.freeCount + 1 }.refuse (1 + (Config.freeWord s.freeCount).toNat % 0xFFFF)

/-! ## 0x01: descriptors (R84 to R87) -/

def digestAt (bs : List Byte) (at_ : Nat) : BitVec 256 := BitVec.ofNat 256 (fieldAt bs at_ 32)

def descOf (bs : List Byte) : Desc :=
  { quads := BitVec.ofNat 16 (fieldAt bs 0 2), signreq := (fieldAt bs 2 1).testBit 0, detok := (fieldAt bs 2 1).testBit 1
    parties := fieldAt bs 3 1, slotBase := fieldAt bs 4 1, slotCount := fieldAt bs 5 1, cap := fieldAt bs 6 2
    ports := BitVec.ofNat 64 (fieldAt bs 8 8), groupBase := fieldAt bs 0x10 2, groupCount := fieldAt bs 0x12 2
    link := fieldAt bs 0x14 1, trusted := fieldAt bs 0x15 1, ceiling := fieldAt bs 0x16 1, queueBase := fieldAt bs 0x18 2
    queueCount := fieldAt bs 0x1A 2, partyKeys := (List.range 16).map (fun i => digestAt bs (0x20 + 32 * i))
    signers := (List.range 8).map (fun i => digestAt bs (0x220 + 32 * i)), raw := bs }

/-- Whether two ranges of numbers meet. -/
def spansMeet (a n b m : Nat) : Bool := n != 0 && m != 0 && decide (a < b + m) && decide (b < a + n)

/-- Descriptors of the other partitions. -/
def State.otherDescs (s : State) (part : Nat) : List Desc :=
  s.parts.filterMap (fun e => if e.1 = part then none else e.2.desc)

/-- The first check of R86 that a descriptor fails, or 0. -/
def State.descCode (s : State) (part : Nat) (d : Desc) : Nat :=
  let os := s.otherDescs part
  let bs := d.raw
  let p := s.part part
  if d.quads == 0 || os.any (fun o => o.quads &&& d.quads != 0) || (bitList d.quads.toNat 16).any s.quadRetired then 1
  else if d.ports == 0 || d.ports.extractLsb' 48 16 != 0 || os.any (fun o => o.ports &&& d.ports != 0) ||
    (bitList d.ports.toNat 48).any s.portRetired then 2
  else if decide (64 < d.slotBase + d.slotCount) || os.any (fun o => spansMeet d.slotBase d.slotCount o.slotBase o.slotCount) then 3
  else if decide (1024 < d.groupBase + d.groupCount) || d.groupBase % 16 != 0 || d.groupCount % 16 != 0 ||
    os.any (fun o => spansMeet d.groupBase d.groupCount o.groupBase o.groupCount) then 4
  else if d.parties == 0 || decide (16 < d.parties) || d.slotCount == 0 || d.groupCount == 0 || decide (8 < d.trusted) ||
    d.queueCount == 0 || !zeroFrom bs (0x20 + 32 * d.parties) 0x220 || !zeroFrom bs (0x220 + 32 * d.trusted) 800 then 5
  else if decide (d.cap < 60 * (bitList d.quads.toNat 16).length) || decide (3200 < d.cap) then 6
  else if decide (3 < fieldAt bs 2 1) || !zeroFrom bs 0x17 0x18 || !zeroFrom bs 0x1C 0x20 || decide (1 < d.link) ||
    decide (28 < d.ceiling) then 7
  else if !p.launches.isEmpty || (match p.desc with
    | none => false
    | some o => o.queues.any (fun q => (s.queue q).enable)) then 8
  else if decide (4096 < d.queueBase + d.queueCount) ||
    os.any (fun o => spansMeet d.queueBase d.queueCount o.queueBase o.queueCount) then 9
  else 0

/-- INSTALL_DESCRIPTOR. -/
def execInstallDescriptor (fn : Nat) (s : State) : Out :=
  .next (s.serveRequest fn 1 true (fun s part n body =>
    if n ≠ 800 then s.refuseFree
    else
      let d := descOf body
      let c := s.descCode part d
      if c = 0 then (s.resetPartition part (some d)).done else s.refuse c))

/-- RESET_PARTITION_REQUEST (R437). -/
def execResetPartitionRequest (fn : Nat) (s : State) : Out :=
  .next (s.serveRequest fn 7 true (fun s part _ _ => (s.resetPartition part none).done))

/-! ## 0x02: page-table entries (R472, R473) -/

/-- A record of a request: address, level and entry; `blank` tells whether its reserved bytes are zero. -/
structure PteRec where
  va : Nat
  level : Nat
  entry : BitVec 128
  blank : Bool
  deriving DecidableEq, Repr

def pteRecOf (bs : List Byte) : PteRec :=
  { va := fieldAt bs 0 8, level := fieldAt bs 8 1, entry := BitVec.ofNat 128 (leValue (bs.drop 16)), blank := zeroFrom bs 9 16 }

/-- Whether a mask names only parties of the partition (R88). -/
def Part.maskOk (p : Part) (m : Mask) : Bool := decide (m.toNat < 2 ^ p.parties)

/-- Whether a target span lies where a new entry of the partition may translate to (R472, R115): a peer window is populated while its
port is trained (R446). -/
def State.targetOk (s : State) (part base size : Nat) : Bool :=
  s.assigned part base size && (match regionOf base with
    | .peer j _ => tget false s.peerUp j
    | _ => true)

/-- Checks 1 to 4 of a record: the first that fails, or 0. -/
def State.pteCode (s : State) (part : Nat) (r : PteRec) : Nat :=
  if !r.blank || decide (4 < r.level) || r.va % levelSpan r.level != 0 || decide (2 ^ 56 ≤ r.va) then 1
  else if !pteV r.entry then (if r.entry == 0 then 0 else 2)
  else if !leafForm r.level r.entry then 2
  else if !(s.part part).maskOk (pteMask r.entry) then 3
  else if !s.targetOk part (leafTarget r.level r.entry).1 (leafTarget r.level r.entry).2 then 4
  else 0

/-- Leaves after a record: what stands under it goes, and a valid entry takes its place. -/
def placeLeaf (ls : List Leaf) (r : PteRec) : List Leaf :=
  let rest := ls.filter (fun l => !(decide (l.level ≤ r.level) && decide (r.va ≤ l.va) && decide (l.va < r.va + levelSpan r.level)))
  if pteV r.entry then rest ++ [{ level := r.level, va := r.va, entry := r.entry }] else rest

/-- Whether a leaf of a higher level maps the address of a record. -/
def coveredBy (ls : List Leaf) (r : PteRec) : Bool :=
  ls.any (fun l => decide (r.level < l.level) && decide (l.va ≤ r.va) && decide (r.va < l.va + levelSpan l.level))

/-- Bytes of the tables that leaves need (R110): the root is always there. -/
def tableBytes (ls : List Leaf) : Nat :=
  let count (lo shift : Nat) : Nat := (((ls.filter (fun l => decide (l.level ≤ lo))).map (fun l => l.va / 2 ^ shift)).dedup).length
  4096 + 8192 * (count 2 48 + count 2 39 + count 1 30 + count 0 21)

/-- Leaves as they stand before each record of a request. -/
def leavesBefore (ls : List Leaf) : List PteRec → List (List Leaf × PteRec)
  | [] => []
  | r :: rs => (ls, r) :: leavesBefore (placeLeaf ls r) rs

/-- The first check that fails over all records, with the index of the first record that fails it. -/
def State.pteRefusal (s : State) (part : Nat) (rs : List PteRec) : Option (Nat × Nat) :=
  let first (c : Nat) : Option (Nat × Nat) := (rs.findIdx? (fun r => s.pteCode part r == c)).map (fun i => (c, i))
  let steps := leavesBefore (s.part part).leaves rs
  let room := 0x4000000 * (s.part part).portList.length
  (first 1).orElse fun _ => (first 2).orElse fun _ => (first 3).orElse fun _ => (first 4).orElse fun _ =>
    ((steps.findIdx? (fun e => coveredBy e.1 e.2)).map (fun i => (5, i))).orElse fun _ =>
      (steps.findIdx? (fun e => decide (room < tableBytes (placeLeaf e.1 e.2)))).map (fun i => (6, i))

/-- No store holds a translation of an address of a span any more (R123). -/
def State.dropStores (s : State) (part base size : Nat) : State :=
  let keep (e : StoreEntry) : Bool := !(e.part == part && spansMeet e.base e.size base size)
  { s with fronts := s.fronts.map (fun (e : Nat × List StoreEntry) => (e.1, e.2.filter keep)),
           dies := s.dies.map (fun (e : Nat × Die) => (e.1, { e.2 with store := e.2.store.filter keep })) }

/-- A refusal with the index of the failing record. -/
def State.refuseAt (s : State) (code i : Nat) : Served := { st := s, code := code, data := bytesOf 8 i, wait := false }

/-- WRITE_PAGE_TABLE_ENTRIES. -/
def execWritePageTableEntries (fn : Nat) (s : State) : Out :=
  .next (s.serveRequest fn 2 false (fun s part n body =>
    let c := fieldAt body 0 8
    if c = 0 || 256 < c || n ≠ 8 + 32 * c then s.refuseAt 1 0
    else
      let rs := (piecesOf 32 c (body.drop 8)).map pteRecOf
      match s.pteRefusal part rs with
      | some (code, i) => s.refuseAt code i
      | none =>
        let s := s.modPart part (fun p => { p with leaves := rs.foldl placeLeaf p.leaves })
        let s := rs.foldl (fun s r => s.dropStores part r.va (levelSpan r.level)) s
        { st := s, code := 0, data := [], wait := true }))

/-! ## 0x03: range entries (R114, R115, R473) -/

/-- A record of a request: the operation, the index, the 32 bytes, and whether its reserved bytes are zero. -/
structure RangeRec where
  op : Nat
  index : Nat
  body : List Byte
  blank : Bool
  deriving DecidableEq, Repr

def rangeRecOf (bs : List Byte) : RangeRec :=
  { op := fieldAt bs 0 1, index := fieldAt bs 1 1, body := bs.drop 8, blank := zeroFrom bs 2 8 }

def rangeOf (b : List Byte) : RangeEntry :=
  let f := fieldAt b 0x1A 1
  let lim := fieldAt b 0x1B 5
  { base := fieldAt b 0 8, limit := fieldAt b 8 8, target := fieldAt b 0x10 8, mask := BitVec.ofNat 16 (fieldAt b 0x18 2)
    rd := f.testBit 1, wr := f.testBit 2, at_ := f.testBit 3, ap := f.testBit 4, rlim := lim % 2 ^ 20, wlim := lim / 2 ^ 20 }

/-- Check 2 of a range: R114, and R112 read for a range. -/
def RangeEntry.formOk (e : RangeEntry) : Bool :=
  e.base % 4096 == 0 && decide (e.base < 2 ^ 56) && e.limit % 4096 == 0 && decide (e.limit < 2 ^ 56) && decide (e.base < e.limit) &&
  e.target % 4096 == 0 && decide (e.target < 2 ^ 52) &&
  (if e.ap then decide (e.rlim ≤ e.wlim) && decide (e.wlim ≤ (e.limit - e.base) / 4096) else e.rlim == 0 && e.wlim == 0)

/-- Checks 1 to 4 of a record: the first that fails, or 0. -/
def State.rangeCode (s : State) (part : Nat) (r : RangeRec) : Nat :=
  let e := rangeOf r.body
  if !(r.op == 1 || r.op == 2) || decide (127 < r.index) || !r.blank || decide (31 < fieldAt r.body 0x1A 1) ||
    (r.op == 2 && !r.body.all (fun b => b == 0)) then 1
  else if r.op = 2 then 0
  else if !(fieldAt r.body 0x1A 1).testBit 0 || !e.formOk then 2
  else if !(s.part part).maskOk e.mask then 3
  else if !s.targetOk part e.target (e.limit - e.base) then 4
  else 0

def placeRange (t : Table RangeEntry) (r : RangeRec) : Table RangeEntry :=
  if r.op = 1 then tput t r.index (rangeOf r.body) else terase t r.index

def rangesBefore (t : Table RangeEntry) : List RangeRec → List (Table RangeEntry × RangeRec)
  | [] => []
  | r :: rs => (t, r) :: rangesBefore (placeRange t r) rs

/-- Check 5: the entry meets the slice aperture or another entry. -/
def rangeClash (t : Table RangeEntry) (r : RangeRec) : Bool :=
  let e := rangeOf r.body
  r.op == 1 && (spansMeet e.base (e.limit - e.base) 0xFFFE0000000000 0x100000000 ||
    t.any (fun q => q.1 != r.index && spansMeet e.base (e.limit - e.base) q.2.base (q.2.limit - q.2.base)))

def State.rangeRefusal (s : State) (part : Nat) (rs : List RangeRec) : Option (Nat × Nat) :=
  let first (c : Nat) : Option (Nat × Nat) := (rs.findIdx? (fun r => s.rangeCode part r == c)).map (fun i => (c, i))
  (first 1).orElse fun _ => (first 2).orElse fun _ => (first 3).orElse fun _ => (first 4).orElse fun _ =>
    ((rangesBefore (s.part part).ranges rs).findIdx? (fun e => rangeClash e.1 e.2)).map (fun i => (5, i))

/-- One record is applied: translations of the span that the index held, and of the new one, leave the stores. -/
def State.applyRange (s : State) (part : Nat) (r : RangeRec) : State :=
  let s := match tfind (s.part part).ranges r.index with
    | some e => s.dropStores part e.base (e.limit - e.base)
    | none => s
  let s := s.modPart part (fun p => { p with ranges := placeRange p.ranges r })
  if r.op = 1 then s.dropStores part (rangeOf r.body).base ((rangeOf r.body).limit - (rangeOf r.body).base) else s

/-- RANGE_ENTRIES. -/
def execRangeEntries (fn : Nat) (s : State) : Out :=
  .next (s.serveRequest fn 3 false (fun s part n body =>
    let c := fieldAt body 0 8
    if c = 0 || 128 < c || n ≠ 8 + 40 * c then s.refuseAt 1 0
    else
      let rs := (piecesOf 40 c (body.drop 8)).map rangeRecOf
      match s.rangeRefusal part rs with
      | some (code, i) => s.refuseAt code i
      | none => { st := rs.foldl (fun s r => s.applyRange part r) s, code := 0, data := [], wait := true }))

/-! ## 0x04 and 0x05: windows (R356, R406) -/

/-- Whether a span lies in the one host or peer window that holds its base; `hostOnly` leaves out the peer windows. -/
def inWindow (hostOnly : Bool) (base size : Nat) : Bool :=
  match regionOf base with
  | .host _ off => decide (off + size ≤ 0x200000000000)
  | .peer _ off => !hostOnly && decide (off + size ≤ 0x10000000000)
  | _ => false

def pageForm (base size : Nat) : Bool := base % 4096 == 0 && decide (base < 2 ^ 52) && size != 0 && size % 4096 == 0

/-- EGRESS_WINDOW. -/
def execEgressWindow (fn : Nat) (s : State) : Out :=
  .next (s.serveRequest fn 4 true (fun s part n body =>
    let slot := fieldAt body 0 1
    let r := body.drop 8
    let base := fieldAt r 0 8
    let size := fieldAt r 8 8
    let party := fieldAt r 0x10 1
    if n ≠ 40 || 15 < slot || !zeroFrom body 1 8 || !zeroFrom r 0x11 0x20 then s.refuse 1
    else if r.all (fun b => b == 0) then { s.done with slot := some (slot, none) }
    else if !pageForm base size then s.refuse 1
    else if (s.part part).parties ≤ party then s.refuse 2
    else if !inWindow false base size then s.refuse 3
    else if (s.part part).egress.any (fun e => e.1 != slot && e.2.party != party && spansMeet base size e.2.base e.2.size) then
      s.refuse 4
    else { s.done with slot := some (slot, some { base := base, size := size, party := party }) }))

/-- The host window of an address. -/
def hostLinkOf (pa : Nat) : Option Nat :=
  match regionOf pa with
  | .host l _ => some l
  | _ => none

/-- PUBLICATION_WINDOW: byte 0 of the body names the window, bytes 1 to 7 are zero, and the record follows, as in a request 0x04
(log entry 37). -/
def execPublicationWindow (fn : Nat) (s : State) : Out :=
  .next (s.serveRequest fn 5 false (fun s part n body =>
    let win := fieldAt body 0 1
    let r := body.drop 8
    let base := fieldAt r 0 8
    let size := fieldAt r 8 8
    let ctr := fieldAt r 0x10 8
    if n ≠ 40 || 15 < win || !zeroFrom body 1 8 || !pageForm base size || ctr % 8 != 0 || 2 ^ 52 ≤ ctr ||
       !zeroFrom r 0x18 0x20 || !inWindow true base size || hostLinkOf ctr != hostLinkOf base ||
       (decide (base < ctr + 8) && decide (ctr < base + size)) then s.refuseFree
    else (s.modPart part (fun p =>
      { p with pubwins := tput p.pubwins win { base := base, size := size, counter := ctr, version := 0 } })).done))

/-! ## 0x06: release policies (R360, R361) -/

def policyOf (r : List Byte) : Policy :=
  { mask := BitVec.ofNat 16 (fieldAt r 2 2), maxBytes := fieldAt r 4 4, base := fieldAt r 8 8, size := fieldAt r 0x10 8
    count := fieldAt r 0x18 4, image := digestAt r 0x20, serial := fieldAt r 0x40 8 }

/-- Parties named by a mask whose entry equals a key digest. -/
def Part.partiesOf (p : Part) (m : Mask) (key : BitVec 256) : List Nat :=
  (bitList m.toNat 16).filter (fun i => match p.desc with
    | some d => d.partyKeys[i]? == some key
    | none => false)

/-- The first check of R361 that fails, or 0. -/
def State.policyCode (s : State) (part : Nat) (r : List Byte) (blocks : List (List Byte)) : Nat :=
  let p := s.part part
  let c := policyOf r
  let index := fieldAt r 0 1
  let keys := blocks.map keyDigest
  if !zeroFrom r 0x1C 0x20 || !zeroFrom r 0x68 0x80 || !mixed c.mask || decide (31 < index) || decide (15 < fieldAt r 1 1) ||
    c.maxBytes == 0 || c.maxBytes % 16 != 0 || decide (1048576 < c.maxBytes) || !pageForm c.base c.size || c.count == 0 then 1
  else if fieldAt r 1 1 ≠ part || digestAt r 0x48 ≠ identityDigest then 2
  else if !p.maskOk c.mask then 3
  else if !inWindow false c.base c.size then 4
  else if (match tfind p.serials index with
    | some n => decide (c.serial ≤ n)
    | none => false) then 5
  else if blocks.any (fun b => !blockVerifies b (asciiOf "LX4-RPOL" ++ r)) then 6
  else if keys.any (fun k => (p.partiesOf c.mask k).isEmpty) || anyPair (fun a b => a == b) keys then 7
  else if !(bitList c.mask.toNat 16).all (fun i => keys.any (fun k => (p.partiesOf c.mask k).contains i)) then 8
  else 0

/-- RELEASE_POLICY: the record, then the signer count and its blocks as a SIGN section lays them out (R51). -/
def execReleasePolicy (fn : Nat) (s : State) : Out :=
  .next (s.serveRequest fn 6 false (fun s part n body =>
    let k := fieldAt body 128 2
    if n < 144 || n ≠ 144 + 5360 * k || !zeroFrom body 130 144 then s.refuseFree
    else
      let r := body.take 128
      let c := s.policyCode part r (piecesOf 5360 k (body.drop 144))
      if c ≠ 0 then s.refuse c
      else
        let q := policyOf r
        (s.modPart part (fun p =>
          { p with policies := tput p.policies (fieldAt r 0 1) q, serials := tput p.serials (fieldAt r 0 1) q.serial })).done))

/-! ## 0x08 and 0x09: manifest and attestation (R441, R444) -/

/-- An entry of the manifest. -/
def Launch.manifest (l : Launch) : List Byte :=
  bytesOf 8 l.num ++ digestBytes (l.imgDigest.getD 0) ++ digestBytes l.microDigest ++ bytesOf 8 l.pkt.seed.toNat ++
  bytesOf 8 l.base.toNat ++ bytesOf 1 l.pkt.mode.toNat ++ bytesOf 1 1 ++ bytesOf 1 l.cores.length ++ bytesOf 1 l.pkt.perCore ++
  bytesOf 4 l.mloads ++ bytesOf 8 (l.cores.foldl (fun a c => a + 2 ^ c) 0) ++ bytesOf 24 0

/-- The manifest of a partition: without a descriptor its digest is zero. -/
def State.manifest (s : State) (part : Nat) : List Byte :=
  let p := s.part part
  let es := p.launches.filter (fun l => !l.cores.isEmpty)
  bytesOf 4 0x4D34584C ++ bytesOf 2 1 ++ bytesOf 1 part ++ bytesOf 1 es.length ++ bytesOf 8 p.seq.toNat ++
  digestBytes ((p.desc.map (fun d => sha3 d.raw)).getD 0) ++ digestBytes Config.conversionDigest ++
  digestBytes Config.firmwareDigest ++ bytesOf 16 0 ++ es.flatMap Launch.manifest

/-- READ_MANIFEST. -/
def execReadManifest (fn : Nat) (s : State) : Out := .next (s.serveRequest fn 8 false (fun s part _ _ => s.giving (s.manifest part)))

/-- The report of R444 for a nonce. -/
def State.report (s : State) (part : Nat) (nonce : List Byte) : List Byte :=
  let ms := if part = 0xFF then (List.range 16).flatMap s.manifest else s.manifest part
  bytesOf 4 0x4134584C ++ bytesOf 2 1 ++ bytesOf 1 part ++ bytesOf 1 0 ++ nonce ++ digestBytes identityDigest ++
  digestBytes Config.firmwareDigest ++ bytesOf 8 s.frame.toNat ++ bytesOf 4 ms.length ++ bytesOf 12 0 ++ ms

/-- ATTEST: the body is the nonce (log entry 37), and the signer block follows the report. -/
def execAttest (fn : Nat) (s : State) : Out :=
  .next (s.serveRequest fn 9 false (fun s part n body =>
    if n ≠ 32 then s.refuseFree
    else
      let r := s.report part body
      s.giving (r ++ identityBlock (asciiOf "LX4-ATST" ++ r))))

/-! ## 0x0A: the debugger (R428, R429, R432). The event says what the request's body asks for (log entry 37). -/

/-- Serves a debugger request that names a core of its partition. -/
def State.debug (s : State) (fn core : Nat) (act : State → Nat → Served) : State :=
  s.serveRequest fn 0x0A false (fun s part _ _ => if (s.part part).coreList.contains core then act s part else s.refuse codeDenied)

/-- DEBUG_ATTACH. -/
def execDebugAttach (fn : Nat) (s : State) : Out :=
  .next (s.serveRequest fn 0x0A false (fun s part _ _ => (s.modPart part (fun p => { p with debugger := true })).done))

/-- DEBUG_HALT. -/
def execDebugHalt (fn core : Nat) (s : State) : Out := .next (s.debug fn core (fun s _ => (s.haltCore core).done))

/-- DEBUG_RESUME: what the debugger has asked of the core's contexts ends; a freeze stays (R429, R433). -/
def execDebugResume (fn core : Nat) (s : State) : Out :=
  .next (s.debug fn core (fun s part =>
    let s := four.foldl (fun s x => s.endPre core x .debugger) s
    let s := s.resumeCore core
    (if (s.part part).frozen then s.modCore core (fun k => { k with halted := k.owner.isSome }) else s).done))

/-- DEBUG_PREEMPT_CONTEXT. -/
def execDebugPreemptContext (fn core ctx : Nat) (s : State) : Out :=
  .next (s.debug fn core (fun s _ => if ctx < 4 then ((s.askPre core ctx .debugger).preempt core ctx).done else s.refuse codeDenied))

/-- What a DBGBRK that halted the core recorded for the debugger, under the numbers of `trap.pc` and `trap.dpc` (R420, R428). -/
def Ctx.recorded (x : Ctx) (num : Nat) : Option Word :=
  x.dbg.bind (fun w => if num = 0x204 then some w.1 else if num = 0x205 then some w.2 else none)

/-- DEBUG_STATE_READ: a system register of a context, BLOCK of `ctx.status` included (R176). The debugger's read of `planeN.stat` leaves
CLIP as it is: only SYSR clears a field that is RC (log entry 77). -/
def execDebugStateRead (fn core ctx num : Nat) (s : State) : Out :=
  .next (s.debug fn core (fun s part =>
    let r := (s.ctx core ctx).recorded num
    let v := if r.isSome then r else if num < 0x800 then s.heldReg core ctx (s.ctx core ctx).block num else s.iodReg part num
    match v with
    | some w => if ctx < 4 then s.giving (bytesOf 8 w.toNat) else s.refuse codeDenied
    | none => s.refuse codeDenied))

/-! ## 0x0B and 0x0C: registers and units -/

/-- READ_FAULT_REGISTERS: `rel.count` to `rel.log15` and `part.flog0` to `part.replay`, in ascending number (log entry 37). -/
def execReadFaultRegisters (fn : Nat) (s : State) : Out :=
  .next (s.serveRequest fn 0x0B false (fun s part _ _ =>
    let nums := (List.range 17).map (fun i => 0x80F + i) ++ (List.range 18).map (fun i => 0x820 + i)
    s.giving (nums.flatMap (fun n => bytesOf 8 ((s.iodReg part n).getD 0).toNat))))

/-- Four bytes that name a unit (log entry 37). -/
def unitBytes : UnitName → List Byte
  | .core n => bytesOf 4 (n * 256)
  | .slice n => bytesOf 4 (n * 256 + 1)
  | .port n => bytesOf 4 (n * 256 + 2)
  | .stack n => bytesOf 4 (n * 256 + 3)
  | .gateway n => bytesOf 4 (n * 256 + 4)
  | .link a b => bytesOf 4 (a * 65536 + b * 256 + 5)
  | .engine n => bytesOf 4 (n * 256 + 6)

/-- READ_HARVEST_MAP: retired and failing units, each list after its length, then the islands' sensors, which are free values. -/
def execReadHarvestMap (fn : Nat) (s : State) : Out :=
  .next (s.serveRequest fn 0x0C true (fun s _ _ _ =>
    let c := s.freeCount
    let list (us : List UnitName) : List Byte := bytesOf 8 us.length ++ us.flatMap unitBytes
    { s with freeCount := c + 16 }.giving
      (list s.retired ++ list s.failing ++ (List.range 16).flatMap (fun i => bytesOf 8 (Config.freeWord (c + i)).toNat))))

end Sys2Proof.Machine
end

