-- ==== Sys2Proof/Machine/Module.lean ====
section
/-! DEFINITION. Events of the module: resets (R437, R447), the mesh (R130), error responses (R434), links and peer ports (R445,
R446), power and heat (R98, R448, R449), and corrected errors (R436). -/

namespace Sys2Proof.Machine

/-! ## Resets -/

/-- FUNCTION_LEVEL_RESET: of a virtual function. -/
def execFunctionLevelReset (fn : Nat) (s : State) : Out :=
  match partOfFn fn with
  | none => .next s
  | some p => .next (s.resetPartition p none)

/-- MODULE_RESET: Excia verifies its image, and retires the units that fail its tests together with those marked failing before.
What lies outside the module is as it was: host and peer memory; and so is the schedule of the model. Stack memory is not
cleared. -/
def execModuleReset (failed : List UnitName) (s : State) : Out :=
  let r := { State.reset with
    agenda := s.agenda, focus := s.focus, freeCount := s.freeCount, host0 := s.host0, host1 := s.host1, peers := s.peers
    stack := s.stack }
  .next (if Config.exciaVerifies then { r with retired := closeUnits (s.retired ++ s.failing ++ failed) }
         else { r with dead := true, linkUp0 := false, linkUp1 := false })

/-- Whether a read that left before the pause is in the mesh: on its way to a home that can serve it, or its reply to a die that can
take it. -/
def State.readMoves (s : State) (r : ReadReq) : Bool :=
  overMesh r.core r.pas && !s.notInjected r.id &&
  match r.reply with
  | some _ => (s.die (dieOf r.core)).clk.covers r.rclk
  | none => match r.kind with
    | .sysr _ => true
    | .fe _ => match r.pas.head?.bind sliceOf with
      | some c => s.feArrives r c
      | none => false
    | .mem => s.readable r

/-- The same of a write: on its way to its homes or to the dies that can apply it, or its acknowledgement to its core. -/
def State.writeMoves (s : State) (w : WriteReq) : Bool :=
  !s.notInjected w.sent &&
  ((overMesh w.core w.pas && (s.canPerform w || (w.performed && !w.acked))) || four.any (fun d => s.applicable d w))

/-- The same of an atomic: on its way to its engine or ready there, or its reply or the acknowledgement of it. -/
def State.atomMoves (s : State) (a : AtomReq) : Bool :=
  a.station == 9 && !s.notInjected a.id &&
  match a.stage with
  | .sent =>
    if (s.engine a.engine).inq.contains a.id then s.readyAt a.engine (s.arrivedAt a.engine) a
    else s.mayArrive a && (oldestEach (s.comingTo a.engine)).contains a
  | .applied => (s.die (dieOf a.core)).clk.covers a.clk
  | .replied => true

/-- The same of an export that has been granted. -/
def State.haloMoves (s : State) (core : Nat) (b : Inbox) : Bool :=
  b.st == .granted && !(s.core core).arrivesAfter b && (s.die (dieOf core)).clk.covers b.clk

/-- Whether every class has drained (R130): nothing of before the pause moves in the mesh any more, the reads of walks counted. What waits
at its home or at its core for a request that has not been injected is in it no more (R128; log entry 90). -/
def State.meshDrained (s : State) : Bool :=
  !s.reads.any s.readMoves && !s.writes.any s.writeMoves && !s.atoms.any s.atomMoves &&
  !s.dies.any (fun d => d.2.misses.any (fun e => e.2.started)) &&
  !s.cores.any (fun k => k.2.calls.any (fun c => c.inboxes.any (s.haloMoves k.1)))

/-- MESH_ROUTES_INSTALLED: the pause ends once every class has drained (R130). -/
def execMeshRoutesInstalled (s : State) : Out :=
  .next (if s.meshDrained then { s with meshPause := false, meshHeld := [] } else s)

/-! ## Error responses (R434) -/

/-- A pending result is discarded, and MEM_ERROR arises. -/
def State.failRead (s : State) (id : Nat) : State :=
  match s.reads.find? (fun q => q.id == id) with
  | none => s
  | some q =>
    ({ s with reads := s.reads.filter (fun q => q.id != id),
              cores := s.cores.map (fun (e : Nat × Core) =>
                (e.1, { e.2 with feWait := e.2.feWait.filter (fun i => i != id) })) }.releaseHeld).raiseAsync q.core q.ctx (memError q.va)

/-- A failed store changes nothing at its home and goes on as an empty one, and MEM_ERROR arises; a failed write of a copy is a fault of
the copy (R250). -/
def State.failStore (s : State) (id : Nat) : State :=
  match s.writes.find? (fun w => w.id == id && !w.performed) with
  | none => s
  | some w =>
    if !w.ofCtx then s.failWrite w
    else (s.modWrite id (fun w => { w with cells := [], raises := [], performed := true, acked := true })).dropDone.raiseAsync w.core w.ctx
      (memError w.va)

/-- A failed atomic is not applied; its result is discarded, and MEM_ERROR arises. -/
def State.failAtomic (s : State) (id : Nat) : State :=
  match s.atoms.find? (fun a => a.id == id && a.stage == .sent) with
  | none => s
  | some a =>
    { s with atoms := s.atoms.map (fun (b : AtomReq) =>
        if b.id = id then { b with stage := .replied, discard := true, dest := .nowhere } else b) }.raiseAsync a.core a.ctx (memError a.va)

/-- The queue entries that wait on a walk, by core, context and number, each with the side of the page that is walked. -/
def State.waitingCopies (s : State) (m : Miss) : List (Nat × Nat × Nat × Bool) :=
  s.cores.flatMap (fun k => k.2.ctxs.flatMap (fun x => (x.2.copyq.filter (fun e => m.reqs.contains e.uid)).map (fun e =>
    (k.1, x.1, e.uid, !((s.errorAt k.1 e false).2.map (fun a => a.toNat / 4096) == some m.key)))))

/-- A walk that fails installs nothing, and what waits on it fails: a request of a context as one that meets a translation fault at its
home, a copy with a translation cause, for which the model takes TRANS_INVALID (R112, R434; log entry 78). -/
def State.failWalk (s : State) (die : Nat) (m : Miss) : State :=
  let es := s.waitingCopies m
  let s := s.modDie die (fun x => x.answerMisses (fun q => decide (q = m)))
  let s := m.reqs.foldl (fun s id => ((s.failRead id).failStore id).failAtomic id) s
  es.foldl (fun s e => s.modEntry e.1 e.2.1 e.2.2.1 (fun x => x.struckBy .transInvalid e.2.2.2)) s

/-- ERROR_RESPONSE. -/
def execErrorResponse (r : ErrRef) (s : State) : Out :=
  .next (match r with
    | .read id => s.failRead id
    | .write id => s.failStore id
    | .atomic id => s.failAtomic id
    | .walk die entry =>
      match tfind (s.die die).misses entry with
      | some m => if m.started then s.failWalk die m else s
      | none => s
    | .plane core =>
      match s.runningCall core with
      | some c => s.callFault core c .uncorrectable
      | none => s
    | .digest part va => s.digestError part (BitVec.ofNat 64 va))

/-! ## Links and peer ports -/

/-- The physical addresses of the next element of a running copy, at its source or at its destination in memory. -/
def State.nextElement (s : State) (core : Nat) (e : CopyEntry) (side : Bool) : List Nat :=
  match e.kind with
  | .copy cmd src dst _ =>
    if e.total = 0 || e.count ≤ e.k then []
    else
      let part := s.partOf core
      if side then (if cmdDkind cmd = 0 then (s.virtPa part (lrAddr e.drec dst e.k).toNat).toList else [])
      else if cmdSkind cmd = 0 then (s.virtPa part (lrAddr e.srec src e.k).toNat).toList else []
  | .release _ _ _ src _ => if side then [] else (s.virtPa (s.partOf core) (src + BitVec.ofNat 64 (16 * e.k)).toNat).toList
  | _ => []

/-- Running copies whose next element lies in a region, by core, context and number, each with its side. -/
def State.copiesIn (s : State) (p : Region → Bool) : List (Nat × Nat × Nat × Bool) :=
  s.cores.flatMap (fun k => k.2.ctxs.flatMap (fun x => x.2.copyq.filterMap (fun e =>
    if e.stage ≠ CopyStage.running then none
    else ([false, true].find? (fun side => (s.nextElement k.1 e side).any (fun a => p (regionOf a)))).map (fun side =>
      (k.1, x.1, e.uid, side)))))

/-- The outstanding elements of copies fail as uncorrectable errors; each fault is reported once the elements before are performed
(R250). -/
def failCopies (es : List (Nat × Nat × Nat × Bool)) (s : State) : State :=
  es.foldl (fun s e =>
    let s := s.modEntry e.1 e.2.1 e.2.2.1 (fun x => x.struckBy .uncorrectable e.2.2.2)
    match (s.ctx e.1 e.2.1).entry e.2.2.1 with
    | none => s
    | some x =>
      match x.failing with
      | some (c, side) =>
        if s.entryOpen e.1 e.2.1 x.uid then s
        else
          let at_ := s.errorAt e.1 x side
          s.failEntry e.1 e.2.1 x c at_.1 at_.2
      | none => s) s

def State.setLink (s : State) (link : Nat) (up : Bool) : State :=
  if link = 0 then { s with linkUp0 := up } else { s with linkUp1 := up }

/-- LINK_RETRAIN_OR_DROP: the outstanding elements of copies that use the link fail; a link that retrains is then up again. -/
def execLinkRetrainOrDrop (link : Nat) (drop : Bool) (s : State) : Out :=
  if 2 ≤ link then .next s
  else
    let es := s.copiesIn (fun r => match r with
      | .host l _ => l == link
      | _ => false)
    .next ((failCopies es (s.setLink link false)).setLink link (!drop))

/-- PEER_PORT_TRAINED. -/
def execPeerPortTrained (port : Nat) (s : State) : Out :=
  .next (if port < 12 then { s with peerUp := tset false s.peerUp port true } else s)

/-- PEER_PORT_TRAINING_LOSS. -/
def execPeerPortTrainingLoss (port : Nat) (s : State) : Out :=
  let es := s.copiesIn (fun r => match r with
    | .peer j _ => j == port
    | _ => false)
  .next (failCopies es { s with peerUp := tset false s.peerUp port false })

/-! ## Power (R98, R448) -/

/-- Whether the mean of the module over the windows kept, at most 20, exceeds a limit in watts, or stays below one. -/
def meanAbove (ws : List Nat) (w : Nat) : Bool := decide (1000 * w * ws.length < ws.sum)
def meanBelow (ws : List Nat) (w : Nat) : Bool := decide (ws.sum < 1000 * w * ws.length)

/-- The step that a partition goes to: its controller's, which raises only while the module's mean is below 3,000 W and no island of the
partition is hot, lowered again while that mean is above 3,200 W. -/
def Part.stepAfter (p : Part) (ceiling cap mw : Nat) (hot : Bool) (ws : List Nat) : Nat :=
  let f := p.nextStep.getD p.step
  let f := if 1000 * cap < mw then f - 1
    else if mw * 10 < cap * 9000 && decide (f < ceiling) && meanBelow ws 3000 && !hot then f + 1 else f
  if meanAbove ws 3200 then f - 1 else f

/-- One partition at the end of a window. -/
def Part.window (p : Part) (mw : Nat) (hot : Bool) (ws : List Nat) : Part :=
  match p.desc with
  | none => p
  | some d =>
    let f := p.nextStep.getD p.step
    let g := p.stepAfter d.ceiling d.cap mw hot ws
    { p with nextStep := if g = p.step then none else some g
             caplow := if 1000 * d.cap < mw then p.caplow || f == 0 else false }

/-- POWER_WINDOW_END: the mean power of each partition over the window, by its number, in milliwatts. -/
def execPowerWindowEnd (milliwatts : List Nat) (s : State) : Out :=
  let power := (milliwatts.sum :: s.power).take 20
  .next { s with power := power, parts := s.parts.map (fun (e : Nat × Part) =>
    (e.1, e.2.window ((milliwatts[e.1]?).getD 0) (s.hot e.2.desc) power)) }

/-- FREQUENCY_CHANGE: a step takes effect on every island of a partition. -/
def execFrequencyChange (part : Nat) (s : State) : Out :=
  match (s.part part).nextStep with
  | none => .next s
  | some f => .next (s.modPart part (fun p => { p with step := f, nextStep := none }))

/-! ## Heat (R449) -/

/-- ISLAND_OVERTEMP: an island reaches 105 °C. The partition that holds it goes to 700 MHz; one that no partition holds does alone, and a
partition installed over it begins there. -/
def execIslandOvertemp (island : Nat) (s : State) : Out :=
  if 16 ≤ island then .next s
  else
    .next { s with
      hotIslands := if s.hotIslands.contains island then s.hotIslands else s.hotIslands ++ [island]
      parts := s.parts.map (fun (e : Nat × Part) =>
        if e.2.quadList.contains island then (e.1, { e.2 with nextStep := if e.2.step = 0 then none else some 0 }) else e) }

/-- ISLAND_COOLED: every island of a partition has fallen below 95 °C; from 16 on, island n − 16, which no partition holds, has. -/
def execIslandCooled (part : Nat) (s : State) : Out :=
  let heldBy (q p : Nat) : Bool := (s.part p).quadList.contains q
  let cooled (q : Nat) : Bool := if part < 16 then heldBy q part else part == 16 + q && !s.parts.any (fun e => heldBy q e.1)
  .next { s with hotIslands := s.hotIslands.filter (fun q => !cooled q) }

/-- THERMAL_TRIP: every partition is reset, and the links drop. -/
def execThermalTrip (s : State) : Out :=
  let s := (s.parts.map (·.1)).foldl (fun s p => s.resetPartition p none) s
  .next { s with linkUp0 := false, linkUp1 := false }

/-! ## Corrected errors (R436) -/

/-- The count of a unit after one more error. -/
def countUp (u : UnitName) : List (UnitName × Nat) → List (UnitName × Nat)
  | [] => [(u, 1)]
  | (v, n) :: es => if v = u then (v, n + 1) :: es else (v, n) :: countUp u es

/-- CORRECTABLE_ERROR: the 16th of a unit in a window marks it as failing. -/
def execCorrectableError (u : UnitName) (s : State) : Out :=
  let es := countUp u s.errors
  let fails := es.any (fun e => decide (e.1 = u) && decide (16 ≤ e.2)) && !s.failing.contains u && !s.retired.contains u
  .next { s with errors := es, failing := if fails then s.failing ++ [u] else s.failing }

/-- ERROR_WINDOW_END: a window ends where the launch frame counter is a multiple of 2³⁰. -/
def execErrorWindowEnd (s : State) : Out := .next (if s.frame.toNat % 2 ^ 30 = 0 then { s with errors := [] } else s)

end Sys2Proof.Machine
end

