-- ==== Sys2Proof/Machine/Placing.lean ====
section
/-! DEFINITION. Placement and load: the fields that are rebound (R89 to R91), the launch area (R47), and the cores as the entry
bundle finds them (R28, R37, R40, R93 to R96, R148, R174, R177, R254). -/

namespace Sys2Proof.Machine

/-! ## Rebinding (R89, R91) -/

/-- The physical number of a logical one of a kind, if there is one. -/
def physicalOf (cores ports : List Nat) (kind v : Nat) : Option Nat :=
  match kind with
  | 1 => cores[v]?
  | 2 => ((cores.map clusterOf).eraseDups)[v]?
  | 3 => ((cores.map dieOf).eraseDups)[v]?
  | _ => ports[v]?

/-- The bytes of a DECL section that holds records. -/
def declBytes (ds : List DeclRec) : List Byte :=
  bytesOf 2 ds.length ++ bytesOf 14 0 ++
  ds.flatMap (fun d => bytesOf 1 d.kind ++ bytesOf 1 d.index ++ bytesOf 14 0 ++ bytesOf 64 d.body.toNat)

/-- The bytes of a section of an image, by the numbers of R90. -/
def Image.section (img : Image) (n : Nat) : List Byte :=
  rebindSect img.code img.ovls (img.const.getD []) (declBytes img.decls) n

/-- Each field with its value: a logical number without a match gives a free value (log entry 35). -/
def State.rebindValues (s : State) (part : Nat) (img : Image) (cores : List Nat) : List (RebindRec × Nat) :=
  ((List.range img.rebinds.length).zip img.rebinds).map (fun e =>
    (e.2, (physicalOf cores (s.part part).portList e.2.kind (e.2.logical (img.section e.2.sect))).getD
      (Config.freeWord (s.freeCount + e.1)).toNat))

/-- A 32-bit word with a field replaced. -/
def RebindRec.write (r : RebindRec) (w v : Nat) : Nat :=
  w - w / 2 ^ r.bit % 2 ^ r.width * 2 ^ r.bit + v % 2 ^ r.width * 2 ^ r.bit

/-- Bytes with the fields of one section replaced. -/
def rebindBytes (vs : List (RebindRec × Nat)) (n : Nat) (bs : List Byte) : List Byte :=
  (vs.filter (fun e => e.1.sect == n)).foldl (fun bs e =>
    bs.take e.1.off ++ bytesOf 4 (e.1.write (fieldAt bs e.1.off 4) e.2) ++ bs.drop (e.1.off + 4)) bs

/-! ## The launch area (R47) -/

/-- The launch processor writes bytes at virtual addresses: a byte that no valid entry translates to stack memory is not
written (log entry 36). -/
def State.areaPut (s : State) (part va : Nat) (bs : List Byte) : State :=
  s.procPut (((List.range bs.length).zip bs).filterMap (fun e => match s.virtPa part (va + e.1) with
    | some pa => match regionOf pa with
      | .port _ _ => some (pa, e.2)
      | _ => none
    | none => none))

/-- The copies are written whole at the first placement, and their rebound fields anew at a later one. -/
def State.writeArea (s : State) (part : Nat) (img : Image) (vs : List (RebindRec × Nat)) (base : Nat) (again : Bool) : State :=
  (areaOffsets 0 img.areaParts).foldl (fun s e =>
    let at_ := base + e.2.1
    if !again then s.areaPut part at_ (rebindBytes vs e.1 e.2.2)
    else (vs.filter (fun v => v.1.sect == e.1)).foldl (fun s v =>
      let w := leValue (s.virtGet part (at_ + v.1.off) 4)
      s.areaPut part (at_ + v.1.off) (bytesOf 4 (v.1.write w v.2))) s) s

/-! ## The cores -/

/-- The non-zero bytes of a bank loaded from offset 0. -/
def bankOf (bs : List Byte) : Table Byte := ((List.range bs.length).zip bs).filter (fun e => e.2 != 0)

/-- Resident routines in ascending index, packed from micro-word 0 (R37). -/
def Core.installResident (k : Core) (ms : List MicroRec) : Core :=
  ((List.range 256).foldl (fun (a : Core × Nat) i => match ms.find? (fun m => m.resident && m.index == i) with
    | some m => (a.1.install i a.2 m.words, a.2 + m.words.length)
    | none => a) (k, 0)).1

/-- The ports that declarations bind for hardware context h (R240). -/
def declaredPorts (ds : List DeclRec) (h : Nat) : Table Port :=
  ds.foldl (fun t d => match d.kind, streamOf d.body with
    | 3, some sd => tput t d.index (Port.bound { sd with gen := sd.gen + 8 * h } (Lab.zero 4) 0 none)
    | _, _ => t) []

/-- A launch context as the entry bundle finds it (R40, R148, R174, R254). -/
def Ctx.placed (img : Image) (ds : List DeclRec) (base : Word) (j h : Nat) : Ctx :=
  { Ctx.reset with
      st := .running, j := j, pc := img.entry, ports := declaredPorts ds h, rndPos := base + BitVec.ofNat 64 (j * 2 ^ 24)
      frameStart := BitVec.ofNat 32 h, nextStart := BitVec.ofNat 32 h }

/-- The items that tenant pre-emption has saved go back (R430). -/
def Ctx.regain (x : Ctx) (v : SavedCtx) : Ctx :=
  { x with
      st := if v.retired then .retired else .running
      pc := v.pc, bank := v.bank, rstack := v.rstack, taint := v.taint, rndPos := v.rndPos, trapEn := v.trapEn
      trapTidx := v.trapTidx, trapMask := v.trapMask }

/-- A core as a placement leaves it: the slice stays, and everything else is as the launch finds it (R93, R232); the count of its atomic
requests begins anew (log entry 69). -/
def Core.placed (k : Core) (o : Owner) (code : List Byte) (img : Image) (ds : List DeclRec) : Core :=
  let k : Core :=
    { Core.reset with owner := some o, ibank0 := bankOf code, slice := k.slice, fe := k.fe, bmask := k.bmask }
  let k := k.installResident img.micro
  ds.foldl (fun (k : Core) d => match d.kind with
    | 1 => match ringOf (d.body.extractLsb' 0 64) (Lab.zero 4) 0 with
      | some r => { k with rings := tput k.rings d.index r }
      | none => k
    | 2 => { k with layouts := tset 0 k.layouts d.index d.body }
    | _ => k) k

/-- The launch takes its cores: code, declarations and contexts, launch context j on logical core j div k (R95). -/
def State.fillCores (s : State) (part : Nat) (l : Launch) (img : Image) (vs : List (RebindRec × Nat)) (cores : List Nat) :
    State :=
  let code := rebindBytes vs 0 img.code
  let ds := declsFrom (rebindBytes vs 10 (declBytes img.decls))
  let s := ((List.range cores.length).zip cores).foldl (fun s e =>
    s.modCore e.2 (fun k => k.placed { part := part, launch := l.num, lcore := e.1 } code img ds)) s
  let l := { l with cores := cores }
  ((List.range l.ctxNames.length).zip l.ctxNames).foldl (fun s e =>
    let x := Ctx.placed img ds l.base e.1 e.2.ctx
    let x := match l.saved.find? (fun v => v.j == e.1) with
      | some v => x.regain v
      | none => x
    s.modCtx e.2.core e.2.ctx (fun _ => x)) s

/-- The phases of the groups that kept the contexts of a launch are delivered to the cores on which it goes on (R100, R405). -/
def State.rejoin (s : State) (part num : Nat) : State :=
  (s.groups.map (·.1)).foldl (fun s g =>
    s.viewGroup g (((s.group g).members.map (·.who)).filter (fun w => w.part == part && w.launch == num))) s

/-- Whether the slot of a queue is reserved for another: what the queue runs is asked to stop (R61). -/
def State.vacates (s : State) (q : Nat) : Bool := (((s.queue q).slot.bind (tfind s.slots)).bind (·.reservedFor)).isSome

/-- Whether the dies of cores have applied what must come before a launch (R366, R382). -/
def State.diesCover (s : State) (l : Launch) (cores : List Nat) : Bool := cores.all (fun c => (s.die (dieOf c)).clk.covers l.clk)

/-- A launch that has passed its checks is placed on cores (R91, R94, R441, R442). While the log stalls its partition, its contexts are
asked to stop as the others were (R80). -/
def State.placeOn (s : State) (part : Nat) (l : Launch) (img : Image) (cores : List Nat) : State :=
  let o : Owner := { part := part, launch := l.num, lcore := 0 }
  let vs := s.rebindValues part img cores
  let area := ((tfind l.windows 8).map (·.1)).getD l.area.toNat
  let s := { s with freeCount := s.freeCount + img.rebinds.length }
  let s := s.writeArea part img vs area (!l.saved.isEmpty)
  let s := s.fillCores part l img vs cores
  let d := (s.core (cores.headD 0)).microDigest
  let stop := s.vacates l.queue
  let s := s.modLaunch o (fun l =>
    { l with stage := .running, cores := cores, saved := [], stopReq := stop, microDigest := d, area := BitVec.ofNat 64 area
             windows := l.windows.filter (fun w => match img.params[w.1]? with
               | some p => p.2.1
               | none => true) })
  let s := s.rejoin part l.num
  let s := s.modPart part (fun p => { p with seq := p.seq + 1 })
  if (s.part part).logWait.isEmpty then s else s.stallPart part .logStall

/-! ## PLACE_AND_LOAD -/

/-- Whether a launch may be placed: it has reached step 4, and its queue holds a slot (R61, R68; log entry 51). -/
def State.placeable (s : State) (l : Launch) : Bool := l.stage == .placing && (s.queue l.queue).slot.isSome

/-- Free cores of a partition, ascending. -/
def State.freeCores (s : State) (part : Nat) : List Nat := (s.part part).coreList.filter (fun c => (s.core c).owner.isNone)

/-- The image of a launch is read and checked: it is kept, or the launch ends (R54, R66). -/
def State.checkLaunch (s : State) (part : Nat) (l : Launch) : State :=
  let o : Owner := { part := part, launch := l.num, lcore := 0 }
  match s.readImage part l.pkt.image with
  | .unreadable => s.endUnrun part l.num .badImage
  | .malformed => s.endUnrun part l.num (.load .eFormat)
  | .bytes bs =>
    match imageOfBytes bs with
    | none => s.endUnrun part l.num (.load .eFormat)
    | some (img, v) =>
      let s := s.modLaunch o (fun l => { l with imgDigest := some img.digest })
      match (s.part part).loadError l bs img v with
      | some e => s.endUnrun part l.num (.load e)
      | none => s.modLaunch o (fun l => { l with image := some img })

/-- PLACE_AND_LOAD: the lowest-numbered launch of the partition that has reached step 4 is checked, and placed on the
lowest-numbered free cores once there are enough, and once their dies have applied what comes before it (R68, R94, R382). DESIGN CHOICE
(log entry 51): it is loaded from the image as it was read for the checks. -/
def execPlaceAndLoad (part : Nat) (s : State) : Out :=
  if s.recordWaits part || (s.part part).frozen then .next s
  else match (s.part part).launches.find? s.placeable with
    | none => .next s
    | some l =>
      let s := if l.image.isSome then s else s.checkLaunch part l
      match (s.part part).launch? l.num with
      | none => .next s
      | some l =>
        match l.stage, l.image with
        | .placing, some img =>
          let n := l.pkt.contexts / l.pkt.perCore
          let free := s.freeCores part
          if free.length < n || !s.diesCover l (free.take n) then .next s else .next (s.placeOn part l img (free.take n))
        | _, _ => .next s

end Sys2Proof.Machine
end

