-- ==== Sys2Proof/Machine/Vector.lean ====
section
/-! DEFINITION. Slots 1 and 2: floating and integer lanes, correctly rounded functions, logic and shifts, compares, lane masks
and merges, reductions, lane movement, conversion and packing (R311 to R329). -/

namespace Sys2Proof.Machine

/-! ## Shapes -/

/-- FMT as it governs the issue cycle (R173, R216). -/
def State.fmtNow (s : State) : Lab 4 := s.me.fmt

/-- The mask that FMT adds where it governs an operation (R348). -/
def State.fmtMask (s : State) (governed : Bool) : Mask := if governed then s.me.fmt.mask else 0

/-- The result of a vector operation with its flags, which land with it (R217, R312). -/
def State.writeVF (s : State) (L : Nat) (wr : Bool) (d : BitVec 5) (w : Nat) (r : Vec × BitVec 8) (m : Mask) : State :=
  (s.writeV L wr d w r.1 m).flagsIn L r.2

/-- The destination of a vector operation is free of pending results, where it writes one (R164). -/
def State.vdestReady (s : State) (d : BitVec 5) : Try Unit := s.destReady (.vreg s.vfile d.toNat 0 1024)

/-- One operand; `legal` is a bound of the entry on its fields, whose breach raises ILLEGAL when it is executed (R158). -/
def vop1 (L e : Nat) (fl : Option FloatFmt) (gov : Bool) (gd : Guard) (wr : Bool) (d : BitVec 5) (a : Opnd) (width : Width)
    (g : BitVec 4 → Vec → Vec × BitVec 8) (s : State) (legal : Bool := true) : Out :=
  let w := widthBits width
  slotRun gd (fxV wr d w L [a]) (fun s => do
    let m := s.me.base gd ||| s.fmtMask gov
    let fmt := s.fmtNow.val
    let (a, s) ← both (s.vdestReady d) (s.opndv a w e fl)
    must legal (.raise .illegal 0 0)
    return s.writeVF L wr d w (g fmt a.val) (m ||| a.mask)) s

/-- Two operands. -/
def vop2 (L e : Nat) (fl : Option FloatFmt) (gov : Bool) (gd : Guard) (wr : Bool) (d : BitVec 5) (a b : Opnd) (width : Width)
    (g : BitVec 4 → Vec → Vec → Vec × BitVec 8) (s : State) : Out :=
  let w := widthBits width
  slotRun gd (fxV wr d w L [a, b]) (fun s => do
    let m := s.me.base gd ||| s.fmtMask gov
    let fmt := s.fmtNow.val
    let (a, b, s) ← both (s.vdestReady d) (s.opndv2 a b w e fl)
    return s.writeVF L wr d w (g fmt a.val b.val) (m ||| a.mask ||| b.mask)) s

/-- Two operands and register d. -/
def vop3 (L e : Nat) (fl : Option FloatFmt) (gov : Bool) (gd : Guard) (wr : Bool) (d : BitVec 5) (a b : Opnd) (width : Width)
    (g : BitVec 4 → Vec → Vec → Vec → Vec × BitVec 8) (s : State) : Out :=
  let w := widthBits width
  slotRun gd (fxV wr d w L [a, b]) (fun s => do
    let m := s.me.base gd ||| s.fmtMask gov
    let fmt := s.fmtNow.val
    let z := s.me.vreg s.vfile d.toNat
    let (a, b, s) ← both (s.vdestReady d) (s.opndv2 a b w e fl)
    return s.writeVF L wr d w (g fmt a.val b.val z.val) (m ||| a.mask ||| b.mask ||| z.mask)) s

/-- One operand and register d, of which the result keeps a part: VINS and VPACK (R347). -/
def vop1d (L e : Nat) (gd : Guard) (wr : Bool) (d : BitVec 5) (a : Opnd) (width : Width) (g : Vec → Vec → Vec)
    (s : State) (legal : Bool := true) : Out :=
  let w := widthBits width
  slotRun gd (fxV wr d w L [a]) (fun s => do
    let m := s.me.base gd
    let z := s.me.vreg s.vfile d.toNat
    let (a, s) ← both (s.vdestReady d) (s.opndv a w e none)
    must legal (.raise .illegal 0 0)
    return s.writeV L wr d w (g a.val z.val) (m ||| a.mask ||| z.mask) true) s

/-! ## Floating lanes (R315, R316) -/

/-- Lane by lane over two float vectors. -/
def flt2 (L : Nat) (g : FloatFmt → RM → FVal → FVal → Rounded) (f : FV3 FltQ) (s : State) : Out :=
  let q := fltFmt f.q
  let n := widthBits f.width / q.width
  vop2 L q.width (some q) true f.gd f.w f.d f.a f.b f.width
    (fun fmt a b => map2 q.width n (fun x y => ofRounded (g q (rmOf fmt) (q.decode x) (q.decode y))) a b) s

def flt3 (g : FloatFmt → RM → FVal → FVal → FVal → Rounded) (f : FV3 FltQ) (s : State) : Out :=
  let q := fltFmt f.q
  let n := widthBits f.width / q.width
  vop3 4 q.width (some q) true f.gd f.w f.d f.a f.b f.width
    (fun fmt a b z => map3 q.width n (fun x y z => ofRounded (g q (rmOf fmt) (q.decode x) (q.decode y) (q.decode z))) a b z) s

def fltMinMax (wantMax : Bool) (f : FV3 FltQ) (s : State) : Out :=
  let q := fltFmt f.q
  let n := widthBits f.width / q.width
  vop2 4 q.width (some q) true f.gd f.w f.d f.a f.b f.width
    (fun _ a b => map2 q.width n (fun x y => ofRounded (q.minmax wantMax x y)) a b) s

/-- The sign bit of each lane alone. -/
def fltSign (g : Nat → Nat → Nat) (f : FV1 FltQ) (s : State) : Out :=
  let q := fltFmt f.q
  let n := widthBits f.width / q.width
  vop1 4 q.width (some q) false f.gd f.w f.d f.a f.width (fun _ a => map1 q.width n (fun x => (g (q.signBit true) x, 0)) a) s

/-- VADD. -/
def execVadd (f : FV3 FltQ) (s : State) : Out := flt2 4 (fun q rm x y => q.add rm x y) f s

/-- VSUB. -/
def execVsub (f : FV3 FltQ) (s : State) : Out := flt2 4 (fun q rm x y => q.add rm x y.flip) f s

/-- VMUL. -/
def execVmul (f : FV3 FltQ) (s : State) : Out := flt2 4 (fun q rm x y => q.mul rm x y) f s

/-- VFMA. -/
def execVfma (f : FV3 FltQ) (s : State) : Out := flt3 (fun q rm x y z => q.fma rm x y z) f s

/-- VFMS. -/
def execVfms (f : FV3 FltQ) (s : State) : Out := flt3 (fun q rm x y z => q.fma rm x.flip y z) f s

/-- VMIN. -/
def execVmin (f : FV3 FltQ) (s : State) : Out := fltMinMax false f s

/-- VMAX. -/
def execVmax (f : FV3 FltQ) (s : State) : Out := fltMinMax true f s

/-- VABS. -/
def execVabs (f : FV1 FltQ) (s : State) : Out := fltSign (fun sb x => x % sb) f s

/-- VNEG. -/
def execVneg (f : FV1 FltQ) (s : State) : Out := fltSign (fun sb x => if x < sb then x + sb else x - sb) f s

/-! ## Correctly rounded functions (R318, R228) -/

def fltFn (L : Nat) (fn : UnFn) (f : FV1n) (s : State) : Out :=
  vop1 L 32 (some fp32) true f.gd f.w f.d f.a f.width
    (fun fmt a => map1 32 (widthBits f.width / 32) (fun x => ofRounded (unary fn (rmOf fmt) x)) a) s

/-- VRCP. -/
def execVrcp (f : FV1n) (s : State) : Out := fltFn 8 .rcp f s

/-- VRSQ. -/
def execVrsq (f : FV1n) (s : State) : Out := fltFn 8 .rsq f s

/-- VSQRT. -/
def execVsqrt (f : FV1n) (s : State) : Out := fltFn 8 .sqrt f s

/-- VEXP2. -/
def execVexp2 (f : FV1n) (s : State) : Out := fltFn 10 .exp2 f s

/-- VLOG2. -/
def execVlog2 (f : FV1n) (s : State) : Out := fltFn 10 .log2 f s

/-! ## Integer lanes (R319) -/

def int2 (L : Nat) (g : Int → Int → Int) (f : FV3 IntQ) (s : State) : Out :=
  let e := intBits f.q
  vop2 L e none true f.gd f.w f.d f.a f.b f.width
    (fun fmt a b => map2 e (widthBits f.width / e) (fun x y => intLane (isat fmt) e (g (signed e x) (signed e y))) a b) s

/-- VIADD. -/
def execViadd (f : FV3 IntQ) (s : State) : Out := int2 2 (fun x y => x + y) f s

/-- VISUB. -/
def execVisub (f : FV3 IntQ) (s : State) : Out := int2 2 (fun x y => x - y) f s

/-- VIMUL. -/
def execVimul (f : FV3 IntQ) (s : State) : Out := int2 3 (fun x y => x * y) f s

/-- VIMAD. -/
def execVimad (f : FV3 IntQ) (s : State) : Out :=
  let e := intBits f.q
  vop3 3 e none true f.gd f.w f.d f.a f.b f.width
    (fun fmt a b z => map3 e (widthBits f.width / e)
      (fun x y z => intLane (isat fmt) e (signed e z + signed e x * signed e y)) a b z) s

/-- VIMIN. -/
def execVimin (f : FV3 IntQ) (s : State) : Out := int2 2 (fun x y => min x y) f s

/-- VIMAX. -/
def execVimax (f : FV3 IntQ) (s : State) : Out := int2 2 (fun x y => max x y) f s

/-! ## Logic and shifts (R320) -/

def bits2 (g : Nat → Nat → Nat → Nat) (f : FV3 LaneQ) (s : State) : Out :=
  let e := laneBits f.q
  vop2 2 e none false f.gd f.w f.d f.a f.b f.width
    (fun _ a b => map2 e (widthBits f.width / e) (fun x y => (g e x y, 0)) a b) s

/-- VAND. -/
def execVand (f : FV3 LaneQ) (s : State) : Out := bits2 (fun _ x y => x &&& y) f s

/-- VOR. -/
def execVor (f : FV3 LaneQ) (s : State) : Out := bits2 (fun _ x y => x ||| y) f s

/-- VXOR. -/
def execVxor (f : FV3 LaneQ) (s : State) : Out := bits2 (fun _ x y => x ^^^ y) f s

/-- VANDN. -/
def execVandn (f : FV3 LaneQ) (s : State) : Out := bits2 (fun e x y => x &&& (2 ^ e - 1 - y)) f s

/-- VSHL. -/
def execVshl (f : FV3 LaneQ) (s : State) : Out := bits2 (fun e x y => if e ≤ y then 0 else x * 2 ^ y % 2 ^ e) f s

/-- VSHR. -/
def execVshr (f : FV3 LaneQ) (s : State) : Out := bits2 (fun e x y => if e ≤ y then 0 else x / 2 ^ y) f s

/-- VSAR. -/
def execVsar (f : FV3 LaneQ) (s : State) : Out :=
  bits2 (fun e x y => wrapNat e (signed e x / (2 ^ (min y e) : Nat))) f s

/-! ## Compares, masks and merges (R321 to R323) -/

/-- Writes a lane mask at a width: it governs bundles issued at t + 2 and later (R163, R314). -/
def State.writeK (s : State) (kd : BitVec 3) (bits : Nat) (v : Nat) (m : Mask) : State :=
  s.quiet true 2 false (.kmask kd.toNat bits) (BitVec.ofNat 1024 v) m

def fxK (kd : BitVec 3) (bits : Nat) (ops : List Opnd) (_ : State) : FalseFx :=
  { FalseFx.one false (.kmask kd.toNat bits) 2 with effect := ops.any opndPops }

/-- Mask bits of lanes of e bits: each outcome fills the bits that govern its lane. -/
def laneMask (e : Nat) (cs : List Bool) : Nat := packLanes (e / 8) (cs.map (fun c => if c then 2 ^ (e / 8) - 1 else 0))

/-- A compare of two operands. -/
def vcompare (e : Nat) (fl : Option FloatFmt) (gd : Guard) (kd : BitVec 3) (a b : Opnd) (width : Width)
    (g : Nat → Nat → Nat × BitVec 8) (s : State) : Out :=
  let w := widthBits width
  slotRun gd (fxK kd (w / 8) [a, b]) (fun s => do
    let m := s.me.base gd
    let (a, b, s) ← s.opndv2 a b w e fl
    let (cs, flags) := gather (zip2 g (lanes a.val e (w / e)) (lanes b.val e (w / e)))
    return (s.writeK kd (w / 8) (laneMask e (cs.map (fun c => c != 0))) (m ||| a.mask ||| b.mask)).flagsIn 2 flags) s

/-- The outcome of a floating compare and its INV. -/
def fltCompare (c : VCond) (q : FloatFmt) (x y : Nat) : Nat × BitVec 8 :=
  let a := q.decode x
  let b := q.decode y
  let nan := a.isNan || b.isNan
  let sig := a.signalling || b.signalling
  match c with
  | .eq => (if !nan && !a.lt false b && !b.lt false a then 1 else 0, flagIf sig flagINV)
  | .lt => (if !nan && a.lt false b then 1 else 0, flagIf nan flagINV)
  | .le => (if !nan && !b.lt false a then 1 else 0, flagIf nan flagINV)
  | .un => (if nan then 1 else 0, flagIf sig flagINV)

def intCompare (c : VICond) (e x y : Nat) : Nat × BitVec 8 :=
  let t := match c with
    | .eq => x == y
    | .lt => decide (signed e x < signed e y)
    | .le => decide (signed e x ≤ signed e y)
    | .ltu => decide (x < y)
  (if t then 1 else 0, 0)

/-- VCMP. -/
def execVcmp (f : FVC VCond FltQ) (s : State) : Out :=
  let q := fltFmt f.q
  vcompare q.width (some q) f.gd f.kd f.a f.b f.width (fltCompare f.cond q) s

/-- VICMP. -/
def execVicmp (f : FVC VICond IntQ) (s : State) : Out :=
  let e := intBits f.q
  vcompare e none f.gd f.kd f.a f.b f.width (intCompare f.cond e) s

/-- Byte i of the first where bit i of the mask is set, of the second elsewhere. -/
def mergeBytes (k : Nat) (w : Nat) (a z : Vec) : Vec :=
  ofLanes 8 ((List.range (w / 8)).map (fun i => if k.testBit i then lane a 8 i else lane z 8 i))

/-- VMRG (R322). -/
def execVmrg (f : FVK) (s : State) : Out :=
  let w := widthBits f.width
  slotRun f.gd (fxV f.w f.d w 2 [f.a]) (fun s => do
    let k := s.me.kreg f.k.toNat
    let m := s.me.base f.gd ||| k.mask
    let z := s.me.vreg s.vfile f.d.toNat
    let (a, s) ← both (s.vdestReady f.d) (s.opndv f.a w 32 none)
    return s.writeV 2 f.w f.d w (mergeBytes k.val.toNat w a.val z.val) (m ||| a.mask ||| z.mask)) s

/-- The value that KLOG forms and the mask of what it reads. -/
def klogVal (op : KlogOp) (a b : Lab 128) : BitVec 128 × Mask :=
  match op with
  | .conj => (a.val &&& b.val, a.mask ||| b.mask)
  | .disj => (a.val ||| b.val, a.mask ||| b.mask)
  | .xor => (a.val ^^^ b.val, a.mask ||| b.mask)
  | .andn => (a.val &&& ~~~b.val, a.mask ||| b.mask)
  | .neg => (~~~a.val, a.mask)
  | .mov => (a.val, a.mask)
  | .set => (BitVec.allOnes 128, 0)
  | .clr => (0, 0)

/-- KLOG (R323). -/
def execKlog (f : FKL) (s : State) : Out :=
  slotRun f.gd (fxK f.kd 128 []) (fun s =>
    let r := klogVal f.op (s.me.kreg f.ka.toNat) (s.me.kreg f.kb.toNat)
    .ok (s.writeK f.kd 128 r.1.toNat (s.me.base f.gd ||| r.2))) s

/-! ## Reductions (R324, R226) -/

/-- One level of the tree: neighbours joined, the even one as the left operand. -/
def treeLevel (op : Nat → Nat → Nat × BitVec 8) : List Nat → List Nat × BitVec 8
  | a :: b :: rest =>
    let r := op a b
    let t := treeLevel op rest
    (r.1 :: t.1, r.2 ||| t.2)
  | as => (as, 0)

/-- The tree of R226 over n levels. -/
def tree (op : Nat → Nat → Nat × BitVec 8) : Nat → List Nat → BitVec 8 → Nat × BitVec 8
  | 0, as, fl => (as.headD 0, fl)
  | n + 1, as, fl =>
    let t := treeLevel op as
    tree op n t.1 (fl ||| t.2)

/-- The lane width, the format and the node of a reduction. -/
def redNode (op : RedOp) (fmt : BitVec 4) : Nat → Nat → Nat × BitVec 8 :=
  match op with
  | .add q => fun x y => ofRounded ((fltFmt q).add (rmOf fmt) ((fltFmt q).decode x) ((fltFmt q).decode y))
  | .min q => fun x y => ofRounded ((fltFmt q).minmax false x y)
  | .max q => fun x y => ofRounded ((fltFmt q).minmax true x y)
  | .iadd q => fun x y => intLane (isat fmt) (intBits q) (signed (intBits q) x + signed (intBits q) y)
  | .imin q => fun x y => intLane false (intBits q) (min (signed (intBits q) x) (signed (intBits q) y))
  | .imax q => fun x y => intLane false (intBits q) (max (signed (intBits q) x) (signed (intBits q) y))

def redBits : RedOp → Nat × Option FloatFmt
  | .add q => ((fltFmt q).width, some (fltFmt q))
  | .min q => ((fltFmt q).width, some (fltFmt q))
  | .max q => ((fltFmt q).width, some (fltFmt q))
  | .iadd q => (intBits q, none)
  | .imin q => (intBits q, none)
  | .imax q => (intBits q, none)

/-- VRED. -/
def execVred (f : FRed) (s : State) : Out :=
  let e := (redBits f.op).1
  let n := widthBits f.width / e
  vop1 6 e (redBits f.op).2 true f.gd f.w f.d f.a f.width
    (fun fmt a =>
      let r := tree (redNode f.op fmt) (Nat.log2 n) (lanes a e n) 0
      (ofLanes e [r.1], r.2)) s

/-! ## Lane movement (R325 to R327) -/

/-- VPERM. -/
def execVperm (f : FV3 LaneQ) (s : State) : Out :=
  let e := laneBits f.q
  let n := widthBits f.width / e
  vop2 3 e none false f.gd f.w f.d f.a f.b f.width
    (fun _ a b => (ofLanes e ((lanes b e n).map (fun i => lane a e (i % n))), 0)) s

/-- VBCAST. -/
def execVbcast (f : FLane) (s : State) : Out :=
  let e := laneBits f.q
  let n := widthBits f.width / e
  vop1 2 e none false f.gd f.w f.d f.a f.width (fun _ a => (ofLanes e (List.replicate n (lane a e f.idx.toNat)), 0)) s
    (decide (f.idx.toNat < n))

/-- VEXTR. -/
def execVextr (f : FLane) (s : State) : Out :=
  let e := laneBits f.q
  let n := widthBits f.width / e
  vop1 2 e none false f.gd f.w f.d f.a f.width (fun _ a => (ofLanes e ((lanes a e n).drop f.idx.toNat), 0)) s
    (decide (f.idx.toNat < n))

/-- VINS. -/
def execVins (f : FLane) (s : State) : Out :=
  let e := laneBits f.q
  let n := widthBits f.width / e
  vop1d 2 e f.gd f.w f.d f.a f.width
    (fun a z => ofLanes e (listSet (lanes z e n) f.idx.toNat (fun _ => lane a e 0))) s (decide (f.idx.toNat < n))

/-- VMOV. -/
def execVmov (f : FV1n) (s : State) : Out := vop1 2 32 none false f.gd f.w f.d f.a f.width (fun _ a => (a, 0)) s

/-- A push of a vector to an output port (R327, R243). -/
def State.pushPort (s : State) (q : Nat) (v : Vec) (m : Mask) : Try State :=
  match s.me.port? q with
  | none => raise .illegal
  | some p =>
    if !p.desc.out then raise .illegal
    else if p.exh then raise .streamEnd
    else if 4 ≤ p.pushes.length then blocked 1
    else
      let item : PushItem := { k := p.pos, val := v &&& BitVec.ofNat 1024 (2 ^ widthBits p.desc.width - 1), mask := m }
      .ok (s.modMe (fun x => { x with ports := tput x.ports q { p.next1 with pushes := p.pushes ++ [item] } }))

/-- VMOV in its push form. -/
def execVmovPush (f : FVpush) (s : State) : Out :=
  let w := widthBits f.width
  slotRun f.gd (fun s => { fxV f.w f.d w 2 [f.a] s with effect := true }) (fun s => do
    let m := s.me.base f.gd
    both (s.vdestReady f.d) do
      let (a, s) ← needed (s.opndv f.a w 32 none) (s.pushPort f.port.toNat 0 0)
      let v := a.val &&& BitVec.ofNat 1024 (2 ^ w - 1)
      let s ← s.pushPort f.port.toNat v (m ||| a.mask)
      return s.writeV 2 f.w f.d w v (m ||| a.mask)) s

/-! ## Conversion and packing (R328, R329) -/

/-- The format of the lanes that EXT fills as a conversion's source. -/
def srcFloat (f : Fmt) : Option FloatFmt := floatOf f

/-- VCVT. -/
def execVcvt (f : FCvt) (s : State) : Out :=
  let ss := fmtBits f.src
  let ds := fmtBits f.dst
  let n := widthBits f.width / max ss ds
  vop1 3 ss (srcFloat f.src) true f.gd f.w f.d f.a f.width
    (fun fmt a =>
      let r := gather ((lanes a ss n).map (convert fmt f.src f.dst))
      (ofLanes ds r.1, r.2)) s

/-- Bits of a piece: P of R329. -/
def packPiece (f : FPack) : Nat := widthBits f.width / 2 ^ (f.frac.toNat + 1)

/-- The bounds of R329 on the fraction and the part. -/
def packLegal (f : FPack) : Bool := decide (f.frac.toNat ≤ 2) && decide (f.part.toNat < 2 ^ (f.frac.toNat + 1))

/-- VPACK: reads d as a register. -/
def execVpack (f : FPack) (s : State) : Out :=
  vop1d 3 32 f.gd f.w f.d f.a f.width (fun a z => insertBits z a (packPiece f * f.part.toNat) (packPiece f)) s (packLegal f)

/-- VUNPK. -/
def execVunpk (f : FPack) (s : State) : Out :=
  vop1 3 32 none false f.gd f.w f.d f.a f.width (fun _ a => (BitVec.ofNat 1024 (lane a (packPiece f) f.part.toNat), 0)) s (packLegal f)

end Sys2Proof.Machine
end

