-- ==== Sys2Proof/Machine/VectorMemory.lean ====
section
/-! DEFINITION. Slot 1, vector memory access: VLD, VST, VLDS, VGATHER and VSCATTER (R280 to R282). -/

namespace Sys2Proof.Machine

/-! ## Addresses and their checks (R280) -/

/-- The spans of an access: virtual addresses with their sizes. -/
abbrev Spans := List (Word × Nat)

/-- The trap with the lowest address of a list, if there is one, else what holds the access (R280). -/
def lowestHalt : List Halt → Option Halt
  | [] => none
  | h :: hs =>
    match lowestHalt hs, h with
    | some (.raise c x a), .raise c' x' a' => if a' ≤ a then some (.raise c' x' a') else some (.raise c x a)
    | some (.raise c x a), _ => some (.raise c x a)
    | _, _ => some h

/-- Every span of an access is checked before any byte moves; the lowest faulting address is reported. -/
def State.checkAll (s : State) (k : AKind) (m : Mask) (sp : Spans) : Try (List (List Hit)) :=
  let rs := sp.map (fun e => s.span k e.1 e.2 m)
  match lowestHalt (rs.filterMap (fun r => match r with | .error h => some h | .ok _ => none)) with
  | some h => .error h
  | none => .ok (rs.filterMap (fun r => match r with | .error _ => none | .ok hs => some hs))

/-- The stores are looked up for every span: all of one request, or each of a request of its own. -/
def State.lookUpAll (s : State) (each : Bool) : Nat → Spans → State
  | _, [] => s
  | id, e :: es => (s.lookUp (some id) e.1.toNat e.2).lookUpAll each (if each then id + 1 else id) es

/-- In deterministic mode no span may miss (R175). -/
def State.noMisses (s : State) (sp : Spans) : Try Unit :=
  must (sp.all (fun e => (s.noMiss e.1.toNat e.2).toOption.isSome)) (.raise .overrun 0 0)

/-- MISALIGN at the lowest address that is no multiple of n. -/
def allAligned (sp : Spans) (n : Nat) : Try Unit :=
  match lowestHalt (sp.filterMap (fun e => if e.1.toNat % n = 0 then none else some (.raise .misalign 0 e.1))) with
  | some h => .error h
  | none => .ok ()

/-- An operand of a vector access: a register of the slot's file, a latch or zero. -/
def State.opnd1 (s : State) (o : Opnd) : Try (Lab 1024 × State) :=
  match o with
  | .reg _ => s.opndv o 1024 64 none
  | .latch _ => s.opndv o 1024 64 none
  | .zero => s.opndv o 1024 64 none
  | _ => raise .illegal

/-- Lane 0 of 64 bits. -/
def lane0 (v : Vec) : Word := v.setWidth 64

/-- The offset of VLD, VST and VLDS: 16 × EXT with code 63 (R281). -/
def State.vecOffset (s : State) (o : Opnd) : Try (Lab 64 × State) :=
  match o with
  | .ext => .ok ({ val := 16 * s.cur.ext.signExtend 64, mask := 0 }, s)
  | _ => do
    let (v, s) ← s.opnd1 o
    return (v.low64, s)

/-- The granules of VLDS. -/
def strided (base off : Word) (n : Nat) : Spans := (List.range n).map (fun i => (base + BitVec.ofNat 64 i * off, 16))

/-- The elements of VGATHER and VSCATTER (R282). -/
def indexed (base : Word) (idx : Vec) (e m : Nat) : Spans :=
  (List.range m).map (fun j => (base + BitVec.ofInt 64 (signed 32 (lane idx 32 j) * (e / 8 : Nat)), e / 8))

/-- The number of elements that VGATHER and VSCATTER move. -/
def gatherCount (w e : Nat) : Nat := min (w / 32) (w / e)

/-! ## Loads -/

/-- The value of an operand as a false guard's address sees it. -/
def State.peekV (s : State) (o : Opnd) : Word :=
  match o with
  | .reg n => lane0 (s.me.vreg s.vfile n.toNat).val
  | .latch j => lane0 (s.me.latch s.cur.slot j.toNat).val
  | .ext => 16 * s.cur.ext.signExtend 64
  | _ => 0

def fxVecLoad (wr : Bool) (d : BitVec 5) (w : Nat) (sp : State → Spans) (s : State) : FalseFx :=
  .one wr (.vreg s.vfile d.toNat 0 w) (if (sp s).all (fun e => s.ownAddr e.1) then 7 else 1)

/-- A read of the own slice that is performed at issue and pending all the same: its result lands by a cycle of the core (R282). -/
def State.landsBy (s : State) (id due : Nat) : State :=
  match s.reads.find? (fun r => r.id == id) with
  | none => s
  | some r =>
    let s := s.readHome r
    { s with reads := s.reads.map (fun r => if r.id = id then { r with due := some due } else r) }

/-- A vector load of checked spans: with latency 6 when every byte lies in the own slice, else pending; bytes of the own
slice are read at issue in either case (R281, R372). -/
def State.vecLoad (s : State) (sp : Spans) (wr : Bool) (d : BitVec 5) (w : Nat) (m : Mask) (pend : Bool) : Try State := do
  s.noMisses sp
  let hss ← s.checkAll .read 0 sp
  let s := s.lookUpAll false s.nextId sp
  let hs := hss.flatten
  let dest := Dest.vreg s.vfile d.toNat 0 w
  let va := (sp.map (·.1)).headD 0
  if pend || !s.ownBytes hs then
    let mine := hs.map (fun h => sliceOf h.pa == some s.cur.core)
    let known := ((List.range hs.length).zip (hs.zip mine)).filterMap (fun e => if e.2.2 then some (e.1, s.peek e.2.1.pa) else none)
    let own := (hs.zip mine).filterMap (fun e => if e.2 then some e.1 else none)
    let t := (s.request .mem (if wr then .nowhere else dest) (.vec w) (hs.map (fun h => some h.pa)) va
      (m ||| entryMasks hs ||| s.hitsMask own) false (sealClock hs)).knowing known
    return if s.ownBytes hs then t.landsBy s.nextId (s.myCore.ticks + 10) else t
  else return s.loadBytes hs va 6 wr dest (.vec w) m false

def vecDest (s : State) (d : BitVec 5) : Try Unit := s.destReady (.vreg s.vfile d.toNat 0 1024)

/-- VLD. -/
def execVld (f : FVld) (s : State) : Out :=
  let w := widthBits f.width
  accessRun f.gd (fxVecLoad f.w f.d w (fun s => [(s.peekV f.a + s.peekV f.b, w / 8)])) (fun s => do
    let m := s.me.base f.gd
    vecDest s f.d
    let (a, s) ← s.opnd1 f.a
    let (b, s) ← s.vecOffset f.b
    let sp : Spans := [(lane0 a.val + b.val, w / 8)]
    allAligned sp 16
    s.vecLoad sp f.w f.d w (m ||| a.mask ||| b.mask) false) s

/-- VLDS. -/
def execVlds (f : FVld) (s : State) : Out :=
  let w := widthBits f.width
  accessRun f.gd (fxVecLoad f.w f.d w (fun s => strided (s.peekV f.a) (s.peekV f.b) (w / 128))) (fun s => do
    let m := s.me.base f.gd
    vecDest s f.d
    let (a, s) ← s.opnd1 f.a
    let (b, s) ← s.vecOffset f.b
    let sp := strided (lane0 a.val) b.val (w / 128)
    allAligned sp 16
    s.vecLoad sp f.w f.d w (m ||| a.mask ||| b.mask) false) s

/-- VGATHER: pending in every case. -/
def execVgather (f : FV3 LaneQ) (s : State) : Out :=
  let w := widthBits f.width
  let e := laneBits f.q
  accessRun f.gd (fun s => .one f.w (.vreg s.vfile f.d.toNat 0 w) 1) (fun s => do
    let m := s.me.base f.gd
    vecDest s f.d
    let (a, s) ← s.opnd1 f.a
    let (b, s) ← s.opnd1 f.b
    let base := lane0 a.val
    aligned base (e / 8)
    s.vecLoad (indexed base b.val e (gatherCount w e)) f.w f.d w (m ||| a.mask ||| b.mask) true) s

/-! ## Stores -/

/-- Sends the elements of a store in order. -/
def State.sendAll (s : State) (m : Mask) : List (Word × List Hit × Nat) → State
  | [] => s
  | (va, hs, v) :: es => (s.sendWrite s.cur.core s.cur.ctx true va (cellsOf hs v) m false).sendAll m es

/-- VST. -/
def execVst (f : FVst) (s : State) : Out :=
  let w := widthBits f.width
  accessRun f.gd fxAct (fun s => do
    let m := s.me.base f.gd
    let v ← s.vdata f.d
    let (a, s) ← s.opnd1 f.a
    let (b, s) ← s.vecOffset f.b
    let va := lane0 a.val + b.val
    let m := m ||| v.mask ||| a.mask ||| b.mask
    aligned va 16
    s.noMiss va.toNat (w / 8)
    let hs ← s.span .write va (w / 8) m
    return (s.lookUp (some s.nextId) va.toNat (w / 8)).sendAll m [(va, hs, v.val.toNat % 2 ^ w)]) s

/-- VSCATTER: its elements are separate stores in ascending order. -/
def execVscatter (f : FScat) (s : State) : Out :=
  let w := widthBits f.width
  let e := laneBits f.q
  accessRun f.gd fxAct (fun s => do
    let m := s.me.base f.gd
    let v ← s.vdata f.d
    let (a, s) ← s.opnd1 f.a
    let (b, s) ← s.opnd1 f.b
    let base := lane0 a.val
    let m := m ||| v.mask ||| a.mask ||| b.mask
    aligned base (e / 8)
    let n := gatherCount w e
    let sp := indexed base b.val e n
    s.noMisses sp
    let hss ← s.checkAll .write m sp
    return (s.lookUpAll true s.nextId sp).sendAll m ((sp.map (·.1)).zip (hss.zip (lanes v.val e n)))) s

end Sys2Proof.Machine
end

