-- ==== Sys2Proof/Machine/Dispatch.lean ====
section
/-! DEFINITION. The dispatch of every instruction, micro-op and event to its meaning. -/

namespace Sys2Proof.Machine

def exec (i : Instr) (s : State) : Host.Outcome State Fault Refusal :=
  match i with
  | .nop f => Sys2Proof.Machine.execNop f s
  | .add f => Sys2Proof.Machine.execAdd f s
  | .sub f => Sys2Proof.Machine.execSub f s
  | .mul f => Sys2Proof.Machine.execMul f s
  | .mulh f => Sys2Proof.Machine.execMulh f s
  | .mulhu f => Sys2Proof.Machine.execMulhu f s
  | .div f => Sys2Proof.Machine.execDiv f s
  | .divu f => Sys2Proof.Machine.execDivu f s
  | .rem f => Sys2Proof.Machine.execRem f s
  | .remu f => Sys2Proof.Machine.execRemu f s
  | .and f => Sys2Proof.Machine.execAnd f s
  | .or f => Sys2Proof.Machine.execOr f s
  | .xor f => Sys2Proof.Machine.execXor f s
  | .andn f => Sys2Proof.Machine.execAndn f s
  | .shl f => Sys2Proof.Machine.execShl f s
  | .shr f => Sys2Proof.Machine.execShr f s
  | .sar f => Sys2Proof.Machine.execSar f s
  | .min f => Sys2Proof.Machine.execMin f s
  | .max f => Sys2Proof.Machine.execMax f s
  | .minu f => Sys2Proof.Machine.execMinu f s
  | .maxu f => Sys2Proof.Machine.execMaxu f s
  | .clz f => Sys2Proof.Machine.execClz f s
  | .ctz f => Sys2Proof.Machine.execCtz f s
  | .popc f => Sys2Proof.Machine.execPopc f s
  | .sel f => Sys2Proof.Machine.execSel f s
  | .addi f => Sys2Proof.Machine.execAddi f s
  | .andi f => Sys2Proof.Machine.execAndi f s
  | .ori f => Sys2Proof.Machine.execOri f s
  | .xori f => Sys2Proof.Machine.execXori f s
  | .shli f => Sys2Proof.Machine.execShli f s
  | .shri f => Sys2Proof.Machine.execShri f s
  | .sari f => Sys2Proof.Machine.execSari f s
  | .movi f => Sys2Proof.Machine.execMovi f s
  | .movsh f => Sys2Proof.Machine.execMovsh f s
  | .cmp f => Sys2Proof.Machine.execCmp f s
  | .plog f => Sys2Proof.Machine.execPlog f s
  | .br f => Sys2Proof.Machine.execBr f s
  | .call f => Sys2Proof.Machine.execCall f s
  | .calli f => Sys2Proof.Machine.execCalli f s
  | .ret f => Sys2Proof.Machine.execRet f s
  | .bswap f => Sys2Proof.Machine.execBswap f s
  | .ifence f => Sys2Proof.Machine.execIfence f s
  | .ld f => Sys2Proof.Machine.execLd f s
  | .lds f => Sys2Proof.Machine.execLds f s
  | .st f => Sys2Proof.Machine.execSt f s
  | .ldfe f => Sys2Proof.Machine.execLdfe f s
  | .stfe f => Sys2Proof.Machine.execStfe f s
  | .pld f => Sys2Proof.Machine.execPld f s
  | .xmov f => Sys2Proof.Machine.execXmov f s
  | .sysr f => Sys2Proof.Machine.execSysr f s
  | .sysw f => Sys2Proof.Machine.execSysw f s
  | .setfmt f => Sys2Proof.Machine.execSetfmt f s
  | .lda f => Sys2Proof.Machine.execLda f s
  | .stl f => Sys2Proof.Machine.execStl f s
  | .fence f => Sys2Proof.Machine.execFence f s
  | .vsync f => Sys2Proof.Machine.execVsync f s
  | .aadd f => Sys2Proof.Machine.execAadd f s
  | .aand f => Sys2Proof.Machine.execAand f s
  | .aor f => Sys2Proof.Machine.execAor f s
  | .axor f => Sys2Proof.Machine.execAxor f s
  | .amin f => Sys2Proof.Machine.execAmin f s
  | .amax f => Sys2Proof.Machine.execAmax f s
  | .aminu f => Sys2Proof.Machine.execAminu f s
  | .amaxu f => Sys2Proof.Machine.execAmaxu f s
  | .aswap f => Sys2Proof.Machine.execAswap f s
  | .acas f => Sys2Proof.Machine.execAcas f s
  | .afadd f => Sys2Proof.Machine.execAfadd f s
  | .axread f => Sys2Proof.Machine.execAxread f s
  | .axclr f => Sys2Proof.Machine.execAxclr f s
  | .gjoin f => Sys2Proof.Machine.execGjoin f s
  | .gleave f => Sys2Proof.Machine.execGleave f s
  | .gbar f => Sys2Proof.Machine.execGbar f s
  | .gquery f => Sys2Proof.Machine.execGquery f s
  | .snapadv f => Sys2Proof.Machine.execSnapadv f s
  | .phase f => Sys2Proof.Machine.execPhase f s
  | .lblget f => Sys2Proof.Machine.execLblget f s
  | .lblraise f => Sys2Proof.Machine.execLblraise f s
  | .trap f => Sys2Proof.Machine.execTrap f s
  | .eret f => Sys2Proof.Machine.execEret f s
  | .yield f => Sys2Proof.Machine.execYield f s
  | .waite f => Sys2Proof.Machine.execWaite f s
  | .haltctx f => Sys2Proof.Machine.execHaltctx f s
  | .dbgbrk f => Sys2Proof.Machine.execDbgbrk f s
  | .vadd f => Sys2Proof.Machine.execVadd f s
  | .vsub f => Sys2Proof.Machine.execVsub f s
  | .vmul f => Sys2Proof.Machine.execVmul f s
  | .vfma f => Sys2Proof.Machine.execVfma f s
  | .vfms f => Sys2Proof.Machine.execVfms f s
  | .vmin f => Sys2Proof.Machine.execVmin f s
  | .vmax f => Sys2Proof.Machine.execVmax f s
  | .vabs f => Sys2Proof.Machine.execVabs f s
  | .vneg f => Sys2Proof.Machine.execVneg f s
  | .vrcp f => Sys2Proof.Machine.execVrcp f s
  | .vrsq f => Sys2Proof.Machine.execVrsq f s
  | .vsqrt f => Sys2Proof.Machine.execVsqrt f s
  | .vexp2 f => Sys2Proof.Machine.execVexp2 f s
  | .vlog2 f => Sys2Proof.Machine.execVlog2 f s
  | .vcmp f => Sys2Proof.Machine.execVcmp f s
  | .viadd f => Sys2Proof.Machine.execViadd f s
  | .visub f => Sys2Proof.Machine.execVisub f s
  | .vimul f => Sys2Proof.Machine.execVimul f s
  | .vimad f => Sys2Proof.Machine.execVimad f s
  | .vimin f => Sys2Proof.Machine.execVimin f s
  | .vimax f => Sys2Proof.Machine.execVimax f s
  | .vicmp f => Sys2Proof.Machine.execVicmp f s
  | .vand f => Sys2Proof.Machine.execVand f s
  | .vor f => Sys2Proof.Machine.execVor f s
  | .vxor f => Sys2Proof.Machine.execVxor f s
  | .vandn f => Sys2Proof.Machine.execVandn f s
  | .vshl f => Sys2Proof.Machine.execVshl f s
  | .vshr f => Sys2Proof.Machine.execVshr f s
  | .vsar f => Sys2Proof.Machine.execVsar f s
  | .vmrg f => Sys2Proof.Machine.execVmrg f s
  | .vred f => Sys2Proof.Machine.execVred f s
  | .vperm f => Sys2Proof.Machine.execVperm f s
  | .vbcast f => Sys2Proof.Machine.execVbcast f s
  | .vextr f => Sys2Proof.Machine.execVextr f s
  | .vins f => Sys2Proof.Machine.execVins f s
  | .vcvt f => Sys2Proof.Machine.execVcvt f s
  | .vpack f => Sys2Proof.Machine.execVpack f s
  | .vunpk f => Sys2Proof.Machine.execVunpk f s
  | .vmov f => Sys2Proof.Machine.execVmov f s
  | .vmovPush f => Sys2Proof.Machine.execVmovPush f s
  | .klog f => Sys2Proof.Machine.execKlog f s
  | .vld f => Sys2Proof.Machine.execVld f s
  | .vst f => Sys2Proof.Machine.execVst f s
  | .vlds f => Sys2Proof.Machine.execVlds f s
  | .vgather f => Sys2Proof.Machine.execVgather f s
  | .vscatter f => Sys2Proof.Machine.execVscatter f s
  | .dnorm f => Sys2Proof.Machine.execDnorm f s
  | .dunnorm f => Sys2Proof.Machine.execDunnorm f s
  | .dmov f => Sys2Proof.Machine.execDmov f s
  | .dmovRaw f => Sys2Proof.Machine.execDmovRaw f s
  | .dzero f => Sys2Proof.Machine.execDzero f s
  | .ddot f => Sys2Proof.Machine.execDdot f s
  | .dscale f => Sys2Proof.Machine.execDscale f s
  | .dadd f => Sys2Proof.Machine.execDadd f s
  | .dsub f => Sys2Proof.Machine.execDsub f s
  | .dneg f => Sys2Proof.Machine.execDneg f s
  | .dmul f => Sys2Proof.Machine.execDmul f s
  | .dmaxcos f => Sys2Proof.Machine.execDmaxcos f s
  | .dnget f => Sys2Proof.Machine.execDnget f s
  | .dnset f => Sys2Proof.Machine.execDnset f s
  | .mload f => Sys2Proof.Machine.execMload f s
  | .mcall f => Sys2Proof.Machine.execMcall f s
  | .rset f => Sys2Proof.Machine.execRset f s
  | .rpush f => Sys2Proof.Machine.execRpush f s
  | .rstat f => Sys2Proof.Machine.execRstat f s
  | .sbind f => Sys2Proof.Machine.execSbind f s
  | .sunbind f => Sys2Proof.Machine.execSunbind f s
  | .scfgSeek f => Sys2Proof.Machine.execScfgSeek f s
  | .scfgRep f => Sys2Proof.Machine.execScfgRep f s
  | .crec f => Sys2Proof.Machine.execCrec f s
  | .copy f => Sys2Proof.Machine.execCopy f s
  | .cresumePatch f => Sys2Proof.Machine.execCresumePatch f s
  | .cresumeRetry f => Sys2Proof.Machine.execCresumeRetry f s
  | .cresumeSkip f => Sys2Proof.Machine.execCresumeSkip f s
  | .cstat f => Sys2Proof.Machine.execCstat f s
  | .hset f => Sys2Proof.Machine.execHset f s
  | .hwait f => Sys2Proof.Machine.execHwait f s
  | .hwaitClaim f => Sys2Proof.Machine.execHwaitClaim f s
  | .hquery f => Sys2Proof.Machine.execHquery f s
  | .trcfg f => Sys2Proof.Machine.execTrcfg f s
  | .trpush f => Sys2Proof.Machine.execTrpush f s
  | .trpull f => Sys2Proof.Machine.execTrpull f s
  | .bclear f => Sys2Proof.Machine.execBclear f s
  | .release f => Sys2Proof.Machine.execRelease f s
  | .publish f => Sys2Proof.Machine.execPublish f s
  | .rndseek f => Sys2Proof.Machine.execRndseek f s
  | .rndstat f => Sys2Proof.Machine.execRndstat f s
  | .step u => Sys2Proof.Machine.execStep u s
  | .steph u => Sys2Proof.Machine.execSteph u s
  | .slide u => Sys2Proof.Machine.execSlide u s
  | .shift u => Sys2Proof.Machine.execShift u s
  | .inj u => Sys2Proof.Machine.execInj u s
  | .clrp op => Sys2Proof.Machine.execClrp op s
  | .ldp u => Sys2Proof.Machine.execLdp u s
  | .drnp u => Sys2Proof.Machine.execDrnp u s
  | .hexp => Sys2Proof.Machine.execHexp s
  | .hmrg n => Sys2Proof.Machine.execHmrg n s
  | .bndm u => Sys2Proof.Machine.execBndm u s
  | .uloop n => Sys2Proof.Machine.execUloop n s
  | .uend => Sys2Proof.Machine.execUend s
  | .uwait u => Sys2Proof.Machine.execUwait u s
  | .uret => Sys2Proof.Machine.execUret s
  | .planeCallStart core => Sys2Proof.Machine.execPlaneCallStart core s
  | .haloGrant core => Sys2Proof.Machine.execHaloGrant core s
  | .haloArrival core inbox => Sys2Proof.Machine.execHaloArrival core inbox s
  | .notify fn value => Sys2Proof.Machine.execNotify fn value s
  | .queueEnable fn value => Sys2Proof.Machine.execQueueEnable fn value s
  | .teardown fn value => Sys2Proof.Machine.execTeardown fn value s
  | .teardownAbort fn value => Sys2Proof.Machine.execTeardownAbort fn value s
  | .objset fn value => Sys2Proof.Machine.execObjset fn value s
  | .ephconsWrite fn value => Sys2Proof.Machine.execEphconsWrite fn value s
  | .loglimitWrite fn value => Sys2Proof.Machine.execLoglimitWrite fn value s
  | .logprodWrite fn value => Sys2Proof.Machine.execLogprodWrite fn value s
  | .registerWrite fn off value => Sys2Proof.Machine.execRegisterWrite fn off value s
  | .packetAccept queue readOk => Sys2Proof.Machine.execPacketAccept queue readOk s
  | .placeAndLoad part => Sys2Proof.Machine.execPlaceAndLoad part s
  | .contextRetirement core ctx => Sys2Proof.Machine.execContextRetirement core ctx s
  | .launchRetirement part => Sys2Proof.Machine.execLaunchRetirement part s
  | .ephemerisRecordWrite part => Sys2Proof.Machine.execEphemerisRecordWrite part s
  | .tenantPreemptionSave part => Sys2Proof.Machine.execTenantPreemptionSave part s
  | .resultWriteback core ctx => Sys2Proof.Machine.execResultWriteback core ctx s
  | .fmtTakesEffect core ctx => Sys2Proof.Machine.execFmtTakesEffect core ctx s
  | .pendingResultLands id => Sys2Proof.Machine.execPendingResultLands id s
  | .trapDelivery core ctx => Sys2Proof.Machine.execTrapDelivery core ctx s
  | .terminalTrap core ctx => Sys2Proof.Machine.execTerminalTrap core ctx s
  | .contextPreemption core ctx => Sys2Proof.Machine.execContextPreemption core ctx s
  | .contextResume core ctx => Sys2Proof.Machine.execContextResume core ctx s
  | .copyBegin core => Sys2Proof.Machine.execCopyBegin core s
  | .copyComplete core ctx ent => Sys2Proof.Machine.execCopyComplete core ctx ent s
  | .copyElementFault core ctx ent uncorrectable => Sys2Proof.Machine.execCopyElementFault core ctx ent uncorrectable s
  | .ringTailAdvance core ring => Sys2Proof.Machine.execRingTailAdvance core ring s
  | .streamReadahead core gen => Sys2Proof.Machine.execStreamReadahead core gen s
  | .streamPushWrite core gen => Sys2Proof.Machine.execStreamPushWrite core gen s
  | .transposeColumnReady core => Sys2Proof.Machine.execTransposeColumnReady core s
  | .randomVectorProduce core => Sys2Proof.Machine.execRandomVectorProduce core s
  | .walkStart die => Sys2Proof.Machine.execWalkStart die s
  | .walkComplete die entry => Sys2Proof.Machine.execWalkComplete die entry s
  | .homeWrite w => Sys2Proof.Machine.execHomeWrite w s
  | .remoteWriteApply die id => Sys2Proof.Machine.execRemoteWriteApply die id s
  | .replicaUpdate die line => Sys2Proof.Machine.execReplicaUpdate die line s
  | .homeReadService id atReplica keep => Sys2Proof.Machine.execHomeReadService id atReplica keep s
  | .writeAcknowledge id => Sys2Proof.Machine.execWriteAcknowledge id s
  | .errorResponse r => Sys2Proof.Machine.execErrorResponse r s
  | .fullEmptyService core granule => Sys2Proof.Machine.execFullEmptyService core granule s
  | .atomicService engine => Sys2Proof.Machine.execAtomicService engine s
  | .atomicRetryTimeout id => Sys2Proof.Machine.execAtomicRetryTimeout id s
  | .atomicAck id => Sys2Proof.Machine.execAtomicAck id s
  | .serialiserStamp => Sys2Proof.Machine.execSerialiserStamp s
  | .vsyncComplete core ctx => Sys2Proof.Machine.execVsyncComplete core ctx s
  | .groupRequestApply => Sys2Proof.Machine.execGroupRequestApply s
  | .snapadvComplete core ctx => Sys2Proof.Machine.execSnapadvComplete core ctx s
  | .releaseGateDecision => Sys2Proof.Machine.execReleaseGateDecision s
  | .publishVersionWrite core ctx ent => Sys2Proof.Machine.execPublishVersionWrite core ctx ent s
  | .objectAnswerDelivery core object => Sys2Proof.Machine.execObjectAnswerDelivery core object s
  | .installDescriptor fn => Sys2Proof.Machine.execInstallDescriptor fn s
  | .writePageTableEntries fn => Sys2Proof.Machine.execWritePageTableEntries fn s
  | .rangeEntries fn => Sys2Proof.Machine.execRangeEntries fn s
  | .egressWindow fn => Sys2Proof.Machine.execEgressWindow fn s
  | .publicationWindow fn => Sys2Proof.Machine.execPublicationWindow fn s
  | .releasePolicy fn => Sys2Proof.Machine.execReleasePolicy fn s
  | .resetPartitionRequest fn => Sys2Proof.Machine.execResetPartitionRequest fn s
  | .readManifest fn => Sys2Proof.Machine.execReadManifest fn s
  | .attest fn => Sys2Proof.Machine.execAttest fn s
  | .debugAttach fn => Sys2Proof.Machine.execDebugAttach fn s
  | .debugHalt fn core => Sys2Proof.Machine.execDebugHalt fn core s
  | .debugResume fn core => Sys2Proof.Machine.execDebugResume fn core s
  | .debugPreemptContext fn core ctx => Sys2Proof.Machine.execDebugPreemptContext fn core ctx s
  | .debugStateRead fn core ctx num => Sys2Proof.Machine.execDebugStateRead fn core ctx num s
  | .readFaultRegisters fn => Sys2Proof.Machine.execReadFaultRegisters fn s
  | .readHarvestMap fn => Sys2Proof.Machine.execReadHarvestMap fn s
  | .mailboxResponse fn => Sys2Proof.Machine.execMailboxResponse fn s
  | .functionLevelReset fn => Sys2Proof.Machine.execFunctionLevelReset fn s
  | .meshRoutesInstalled => Sys2Proof.Machine.execMeshRoutesInstalled s
  | .moduleReset failed => Sys2Proof.Machine.execModuleReset failed s
  | .linkRetrainOrDrop link drop => Sys2Proof.Machine.execLinkRetrainOrDrop link drop s
  | .peerPortTrained port => Sys2Proof.Machine.execPeerPortTrained port s
  | .peerPortTrainingLoss port => Sys2Proof.Machine.execPeerPortTrainingLoss port s
  | .powerWindowEnd milliwatts => Sys2Proof.Machine.execPowerWindowEnd milliwatts s
  | .frequencyChange part => Sys2Proof.Machine.execFrequencyChange part s
  | .islandOvertemp island => Sys2Proof.Machine.execIslandOvertemp island s
  | .islandCooled part => Sys2Proof.Machine.execIslandCooled part s
  | .thermalTrip => Sys2Proof.Machine.execThermalTrip s
  | .correctableError u => Sys2Proof.Machine.execCorrectableError u s
  | .errorWindowEnd => Sys2Proof.Machine.execErrorWindowEnd s
  | .unlistedMailboxOpcode fn => Sys2Proof.Machine.execUnlistedMailboxOpcode fn s

end Sys2Proof.Machine
end

