-- ==== Sys2Proof/Machine/Cycle.lean ====
section
/-! DEFINITION. One island cycle of a core: landing, the choice of the context (R161, R174, R175), fetch and legality (R132,
R150, R195), the nullifier (R171), blocks, traps and stalls over the slots of a bundle (R160, R169, R415), and issue (R168). -/

namespace Sys2Proof.Machine

/-! ## The bundle at the boundary -/

/-- What is fetched: a legal bundle, or the slots that break a rule (R132, R158). -/
inductive Fetched where
  | legal (b : Bundle)
  | illegal (slots : BitVec 4)
  deriving DecidableEq, Repr

/-- A bit for each slot that meets a test. -/
def slotBits (p : Nat → Bool) : BitVec 4 :=
  BitVec.ofNat 4 ((four.filter p).foldl (fun a k => a + 2 ^ k) 0)

/-- The slots that make a bundle illegal. -/
def badSlots (v : BitVec 128) : BitVec 4 :=
  let bad := slotBits fun k =>
    if k = 0 && (decHeader (bundleSlot v 0)).isSome then false
    else match decodeSlot k (bundleSlot v k) with
      | .ok _ => false
      | .error _ => true
  let at_ (k : Nat) : Instr := (decodeSlot k (bundleSlot v k)).toOption.getD (.nop { gd := Guard.always })
  let hdr := decHeader (bundleSlot v 0)
  let misplaced := slotBits fun k =>
    k != 0 && (at_ k).readsExt && !(match hdr with | some h => h.tgt.toNat == k | none => false)
  if bad != 0 then bad
  else if misplaced != 0 then misplaced
  else if (at_ 1).groups + (at_ 2).groups > 4 then 0b0110
  else 0b0001

/-- Whether every register of a bundle lies within the budget, and the slots where one does not (R41, R158). -/
def budgetSlots (budget : List Nat) (b : Bundle) : BitVec 4 :=
  slotBits fun k => (bundleOps b).any (fun e => e.1 == k && !regsOk budget e.1 e.2)

/-- The bundle that a context fetches next. -/
def State.fetched (s : State) (core ctx : Nat) : Fetched :=
  let k := s.core core
  let x := k.ctx ctx
  if 0x3FFF0 < x.pc then .illegal 0
  else
    let v := k.fetch x.bank x.pc
    match decodeBundle v with
    | .error _ => .illegal (badSlots v)
    | .ok b =>
      let bad := budgetSlots (((s.imageOf core).map (·.budget)).getD []) b
      if bad = 0 then .legal b else .illegal bad

/-- EXT of a bundle, 0 without a header (R145). -/
def bundleExt (b : Bundle) : BitVec 12 :=
  match b.hdr with
  | some h => h.ext
  | none => 0

/-- The operations of a bundle that are no NOP. -/
def liveOps (b : Bundle) : List (Nat × Instr) := (bundleOps b).filter (fun e => !isNop e.2)

/-- The guard of an operation; an event has none. -/
def guardOf (i : Instr) : Guard := i.guard.getD Guard.always

/-! ## The slots of a bundle -/

/-- Slot-0 operations that act after the other slots of their bundle: system writes, and those that redirect or end the flow. -/
def actsLast : Instr → Bool
  | .sysw _ => true
  | .phase _ => true
  | .trap _ => true
  | .eret _ => true
  | .yield _ => true
  | .haltctx _ => true
  | .dbgbrk _ => true
  | .br _ => true
  | .call _ => true
  | .calli _ => true
  | .ret _ => true
  | .bswap _ => true
  | _ => false

/-- The order in which the slots act: ascending, but for a slot 0 that acts last. -/
def actOrder : List (Nat × Instr) → List (Nat × Instr)
  | (0, i) :: es => if actsLast i then es ++ [(0, i)] else (0, i) :: es
  | es => es

/-- Operations that may write the own slice as they issue. -/
def writesSlice : Instr → Bool
  | .st _ | .stfe _ | .stl _ | .ldfe _ | .lblraise _ | .vst _ | .vscatter _ => true
  | _ => false

/-- Operations of slots 1 and 3 that may read the own slice as they issue. -/
def readsSlice : Instr → Bool
  | .vld _ | .vlds _ | .vgather _ | .sbind _ | .crec _ | .mload _ => true
  | _ => false

/-- The bytes and the block masks of a core's slice as they are in another state of the core. -/
def State.sliceFrom (s : State) (core : Nat) (k : Core) : State :=
  s.modCore core (fun c => { c with slice := k.slice, bmask := k.bmask })

/-- The state with a context in focus, at the beginning of its bundle. -/
def State.focusOn (s : State) (core ctx slot : Nat) (ext : BitVec 12) : State :=
  let x := s.ctx core ctx
  { s with cur := { core := core, ctx := ctx, slot := slot, ext := ext, verdict := .issued, base := s.nextId, ldaVis := x.ldaVis,
                    readVis := x.readVis } }

/-- The next slot of the bundle in focus. -/
def State.refocus (s : State) (slot : Nat) : State := { s with cur := { s.cur with slot := slot, verdict := .issued } }

/-- One slot acts. Within a bundle the own slice is read before it is written: where a slot before has written it, `old` is the core as
it was before (R372). -/
def actSlot (core : Nat) (old : Option Core) (e : Nat × Instr) (s : State) : Out :=
  let s := s.refocus e.1
  match old, readsSlice e.2 with
  | some k, true =>
    match exec e.2 (s.sliceFrom core k) with
    | .next t => .next (t.sliceFrom core (s.core core))
    | o => o
  | _, _ => exec e.2 s

/-- Runs the slots of the bundle in focus one after the other while each issues. A SUNBIND or an SBIND meets the push of a VMOV of its own
bundle to its port as one not yet written (R265; log entry 88). -/
def runSlots (core : Nat) : Option Core → List (Nat × Instr) → State → Out
  | _, [], s => .next s
  | old, e :: rest, s =>
    match actSlot core old e s with
    | .next t =>
      if t.cur.verdict = .issued then
        runSlots core (if writesSlice e.2 then old.orElse (fun _ => some (s.core core)) else old) rest t
      else .next t
    | o => o

/-- What a slot of the bundle in focus answers at the boundary, taken alone. -/
def slotVerdict (s : State) (e : Nat × Instr) : Nat × Verdict :=
  match exec e.2 (s.refocus e.1) with
  | .next t => (e.1, t.cur.verdict)
  | _ => (e.1, .issued)

/-- What an operand pops is gone for the slots after it; one that cannot be popped leaves everything. -/
def State.popped (s : State) (o : Opnd) : State :=
  match (match o with
    | .port q => s.popPort q.toNat 1024
    | .rnd => s.popRnd 1024
    | _ => .error .stall : Try (Lab 1024 × State)) with
  | .ok (_, t) => t
  | .error _ => s

/-- What a slot pops and pushes, as the slots after it meet it: the pops of a bundle are satisfied together (R137, R160). -/
def State.slotTakes (s : State) (i : Instr) : State :=
  let s := i.opnds.foldl State.popped s
  match i with
  | .vmovPush f => (match s.pushPort f.port.toNat 0 0 with
    | .ok t => t
    | .error _ => s)
  | _ => s

/-- What the slots of a bundle answer at the boundary, in ascending order: each is asked alone, but for what the slots before it pop and
push (R137, R160). -/
def slotVerdicts : State → List (Nat × Instr) → List (Nat × Verdict)
  | _, [] => []
  | s, e :: es => slotVerdict s e :: slotVerdicts (s.slotTakes e.2) es

/-- The lowest code of the slots that block (R160). -/
def lowestBlock (vs : List (Nat × Verdict)) : Option Nat :=
  (vs.filterMap (fun e => match e.2 with | .blocked n => some n | _ => none)).min?

/-- The trap of the lowest-numbered slot that raises, with a bit for each that does (R415). -/
def lowestTrap (vs : List (Nat × Verdict)) : Option TrapFound :=
  let rs := vs.filterMap (fun e => match e.2 with | .raised c code addr => some (e.1, c, code, addr) | _ => none)
  match rs with
  | [] => none
  | (n, c, code, addr) :: _ =>
    let best := rs.foldl (fun a r => if r.1 < a.1 then r else a) (n, c, code, addr)
    some { cause := best.2.1, code := best.2.2.1, addr := best.2.2.2,
           slots := slotBits (fun k => rs.any (fun r => r.1 == k)), async := false, frame := 0 }

/-! ## The nullifier (R171) -/

/-- Whether a guard has read false since three cycles before this one. -/
def Ctx.longFalse (x : Ctx) (gd : Guard) : Bool :=
  !x.holds gd &&
  match tfind x.predWrite gd.g.toNat with
  | none => true
  | some t => decide (t + 3 < x.cycle)

/-- Whether the nullifier skips a bundle. -/
def Ctx.skips? (x : Ctx) (det : Bool) (b : Bundle) : Bool :=
  !det && decide (x.nds = 0) && decide (x.skips < 3) && !(liveOps b).isEmpty && (liveOps b).all (fun e => x.longFalse (guardOf e.2))

/-- Skips bundles while the nullifier does: their false guards label as if they had issued, and a raise of TAINT governs the
bundle that issues after them, which may do so in this cycle (R171, R349, R350). -/
def State.skipping : Nat → Nat → Nat → State → Out
  | 0, _, _, s => .next s
  | n + 1, core, ctx, s =>
    match s.fetched core ctx with
    | .illegal _ => .next s
    | .legal b =>
      if (s.ctx core ctx).skips? (s.det core) b then
        match runSlots core none (liveOps b) (s.focusOn core ctx 0 (bundleExt b)) with
        | .next t =>
          State.skipping n core ctx
            ((t.modCtx core ctx (fun x =>
              { x with pc := x.pc + 16, skips := x.skips + 1, taint := x.taint ||| x.taintNext, taintNext := 0 })).modCore core
              (fun k => { k with skip := k.skip + 1 }))
        | o => o
      else .next s

/-! ## One attempt of a context -/

/-- What a context does with the issue slot. -/
inductive Attempt where
  | absent
  | blocks (code : Nat)
  | traps (f : TrapFound)
  /-- A TRAP or DBGBRK of the bundle before is taken. -/
  | takesStrike
  | takesAsync
  | stalls
  | issues (t : State)
  | diverges
  | stops (o : Out)

def illegalAt (slots : BitVec 4) (c : Cause) : TrapFound :=
  { cause := c, code := 0, addr := 0, slots := slots, async := false, frame := 0 }

def overrunAt : TrapFound := illegalAt 0 .overrun

/-- The context as its bundle issues: a switch loses latches (R168). -/
def Ctx.switched (x : Ctx) (sw : Bool) : Ctx := if sw && !x.keepLatch then { x with lostAt := some x.cycle } else x

/-- Whether an issue by the context would be a switch (R168). -/
def Core.switch? (k : Core) (ctx : Nat) : Bool := match k.last with
  | some y => y != ctx
  | none => false

/-- The switch that a context's next bundle makes, as the record log has it (R79). -/
def switchDecision (core ctx pc : Nat) : Decision := { kind := 2, core := core, ctx := ctx, addr := pc / 16, grant := 0 }

/-- What a replayed log says of a switch: it is the next decision, it must wait for its turn, or it cannot match (R81). -/
inductive Gate where
  | go | waits | diverges
  deriving DecidableEq, Repr

def State.switchGate (s : State) (core ctx : Nat) : Gate :=
  match (s.core core).switch? ctx, s.launchOf core with
  | true, some l =>
    if !l.replay then .go
    else
      let d := s.nextDecision (s.partOf core)
      if d = switchDecision core ctx (s.ctx core ctx).pc then .go
      else if !d.real ∨ (d.kind = 2 ∧ d.core = core ∧ d.ctx = ctx) then .diverges
      else .waits
  | _, _ => .go

/-- What follows the slots of a bundle that has issued: the mask of the bank, unless its context has retired (R350), the counters, the start of the launch
(R77), the next bundle, and the log of a switch at offset `pc` (R79, R81). -/
def State.issued (s : State) (core ctx pc : Nat) (bankMask : Mask) : State :=
  let sw := (s.core core).switch? ctx
  let struck := s.cur.verdict == .struck
  let ended := (s.ctx core ctx).st == .retired
  let s := s.modCore core (fun k =>
    { k with last := some ctx, holder := some ctx, from_ := ctx, switches := if sw then k.switches + 1 else k.switches })
  let s := match (s.core core).owner with
    | none => s
    | some o =>
      let now := s.frame
      s.modLaunch o (fun l => { l with start := l.start.orElse (fun _ => some now) })
  let s := if sw then s.decided core ctx (switchDecision core ctx pc) else s
  let s := s.modCtx core ctx (fun x =>
    { x with stall := 0, skips := 0, block := 0, keepLatch := false, yielded := false,
             taintNext := if ended then 0 else x.taintNext ||| bankMask })
  if struck then s else s.pass core ctx

/-- The codes of the second wait of R475. -/
def Wait2.code : Wait2 → Nat
  | .gbar _ => 8
  | _ => 9

/-- The attempt of a context whose bundle is legal. -/
def State.tryBundle (s : State) (core ctx : Nat) (b : Bundle) : Attempt :=
  let k := s.core core
  let x := k.ctx ctx
  let det := s.det core
  let extra := bankExtra (((s.imageOf core).map (·.mirrors)).getD []) b
  if decide (0 < x.nds) && ((liveOps b).any (fun e => isBranch e.2)) then
    .traps (illegalAt (slotBits (fun n => (liveOps b).any (fun e => e.1 == n && isBranch e.2))) .illegalDelay)
  else if decide (0 < x.stall) && decide (x.stall < extra) then .stalls
  else
    let s0 := (s.focusOn core ctx 0 (bundleExt b)).modCtx core ctx (fun x => x.switched (k.switch? ctx))
    let vs := slotVerdicts s0 ((liveOps b).filter (fun e => x.holds (guardOf e.2)))
    match lowestBlock vs with
    | some n => .blocks n
    | none =>
      match lowestTrap vs with
      | some f => .traps f
      | none =>
        if decide (x.stall < extra) || vs.any (fun e => e.2 == .stalled) then
          if det then .traps overrunAt else .stalls
        else
          match s.switchGate core ctx with
          | .waits => .absent
          | .diverges => .diverges
          | .go =>
            match runSlots core none (actOrder (liveOps b)) s0 with
            | .next t =>
              match t.cur.verdict with
              | .blocked n => .blocks n
              | .stalled => .stalls
              | .raised c code addr =>
                .traps { cause := c, code := code, addr := addr, slots := slotBits (fun n => n == t.cur.slot), async := false,
                         frame := 0 }
              | _ => .issues (t.issued core ctx x.pc (if x.bank then k.imask1 else k.imask0))
            | o => .stops o

/-- The attempt of a context, before the nullifier has acted: traps and waits at its boundary come first (R415, R475). The nullifier
examines the running context alone, and a bundle that it has not skipped issues after its stall cycles (R171). -/
def State.attempt (s : State) (core ctx : Nat) : State × Attempt :=
  let x := s.ctx core ctx
  let det := s.det core
  if x.st = CtxState.frozenTrap || x.st = CtxState.frozenPre then (s, .blocks 12)
  else if x.st = CtxState.stopped && x.mayTake && !x.asyncQ.isEmpty then (s, .takesAsync)
  else if x.st ≠ CtxState.running then (s, .absent)
  else if x.strikes.isSome then (s, .takesStrike)
  else if !x.asyncQ.isEmpty && !x.inh then (s, .takesAsync)
  else match x.wait2 with
    | some w => if det then (s, .traps overrunAt) else (s, .blocks w.code)
    | none =>
      match State.skipping (if (s.core core).last == some ctx && x.stall == 0 then 3 else 0) core ctx s with
      | .next t =>
        match t.fetched core ctx with
        | .illegal slots => (t, .traps (illegalAt slots .illegal))
        | .legal b => (t, t.tryBundle core ctx b)
      | o => (s, .stops o)

/-! ## The cycle of a core -/

def State.idle (s : State) (core : Nat) : State := s.modCore core (fun k => { k with idle := k.idle + 1 })

def State.noteBlock (s : State) (core ctx code : Nat) : State := s.modCtx core ctx (fun x => { x with block := code, yielded := x.yielded || code == 11 })

/-- The context keeps the issue slot. -/
def State.hold (s : State) (core ctx : Nat) : State :=
  s.modCore core (fun k => { k with holder := some ctx, from_ := ctx })

/-- The context gives up the issue slot: the search of the next cycle starts after it (R161). -/
def State.yieldSlot (s : State) (core ctx : Nat) : State :=
  s.modCore core (fun k => { k with holder := none, from_ := ctx })

/-- After a trap has been taken: a delivered one keeps the slot, a frozen context passes it (R476). -/
def State.afterTrap (s : State) (core ctx : Nat) : State :=
  if (s.ctx core ctx).st = CtxState.running then s.hold core ctx else s.yieldSlot core ctx

/-- What an attempt other than a block does; the flag says whether the slot is used up in this cycle. -/
def State.settle (s : State) (core ctx : Nat) (a : Attempt) : Out × Bool :=
  match a with
  | .absent => (.next s, false)
  | .blocks n => (.next (s.noteBlock core ctx n), false)
  | .traps f =>
    let t := (s.takeTrap core ctx f).afterTrap core ctx
    (.next (t.idle core), true)
  | .takesStrike => (.next (((s.takeStrike core ctx).afterTrap core ctx).idle core), true)
  | .takesAsync =>
    let t := (s.takeAsync core ctx).afterTrap core ctx
    (.next (t.idle core), true)
  | .stalls =>
    (.next ((s.modCtx core ctx (fun x => { x with stall := x.stall + 1, block := 0 })).modCore core
      (fun k => { k with bankstall := k.bankstall + 1, holder := some ctx, from_ := ctx })), true)
  | .issues t => (.next t, true)
  | .diverges => (.next (s.diverge (s.partOf core) core ctx), true)
  | .stops o => (o, true)

/-- The search of R161 over the contexts in order. -/
def State.search (core : Nat) : List Nat → State → Out
  | [], s => .next (s.idle core)
  | x :: xs, s =>
    let r := s.attempt core x
    match r.1.settle core x r.2 with
    | (.next t, false) => State.search core xs t
    | (o, _) => o

/-- The contexts after one, in rotation. -/
def rotation (c : Nat) : List Nat := [(c + 1) % 4, (c + 2) % 4, (c + 3) % 4, c % 4]

/-- The issue slot of one cycle outside deterministic mode (R161). The freezing of the context that held the slot uses the cycle
(R476). -/
def State.issueOrdinary (s : State) (core : Nat) : Out :=
  let k := s.core core
  if k.slotSpent then
    .next ((s.modCore core (fun k => { k with slotSpent := false, holder := none, from_ := k.holder.getD k.from_ })).idle core)
  else match k.holder with
  | some h =>
    let r := s.attempt core h
    match r.2 with
    | .absent => State.search core (rotation h) (r.1.yieldSlot core h)
    | a =>
      match r.1.settle core h a with
      | (.next t, false) => .next ((t.yieldSlot core h).idle core)
      | (o, _) => o
  | none => State.search core (rotation k.from_) s

/-- The due value of a context's next bundle (R174). -/
def State.due (s : State) (core ctx : Nat) : BitVec 32 :=
  let k := s.core core
  let x := k.ctx ctx
  x.dueOf (stampOf (k.fetch x.bank x.pc))

/-- Whether the next bundle of a context falls due in this cycle, or can no longer fall due (R174, R175). -/
def State.dueNow (s : State) (core ctx : Nat) : Bool :=
  let x := s.ctx core ctx
  let d := s.due core ctx
  x.st == .running && (decide (0 ≤ ((s.core core).frame - d).toInt) ||
    (match x.lastDue with
     | some l => decide ((d - l).toInt ≤ 0)
     | none => false))

/-- Whether it falls due in this very cycle and after its predecessor. -/
def State.onTime (s : State) (core ctx : Nat) : Bool :=
  let d := s.due core ctx
  d == (s.core core).frame && (match (s.ctx core ctx).lastDue with
    | some l => decide (0 < (d - l).toInt)
    | none => true)

/-- Whether a copy fault of a context waits, so that every bundle of it that falls due is overrun (R251; log entry 67). -/
def Ctx.copyFaultWaits (x : Ctx) : Bool := x.copyPend || x.copyq.any (fun e => e.stage == .faulted)

/-- What a context does with one cycle in deterministic mode, and whether its bundle was due in it and has the slot: the trap of
the bundle before comes at once; at the due value an asynchronous trap, then an OVERRUN, and else the attempt (R174, R175, R251,
R415; log entry 68). -/
def State.stepDet (s : State) (core ctx : Nat) (taken : Bool) : Out × Bool :=
  let x := s.ctx core ctx
  let due := s.due core ctx == (s.core core).frame
  if x.st = CtxState.running && x.strikes.isSome then (.next (s.takeStrike core ctx), false)
  else if x.st = CtxState.stopped && x.mayTake then (.next (s.takeAsync core ctx), false)
  else if !s.dueNow core ctx then (.next s, false)
  else if !x.asyncQ.isEmpty && !x.inh then
    let t := s.takeAsync core ctx
    (.next (if due && !taken then t.idle core else t), due)
  else if taken || s.meshPause || !s.onTime core ctx || x.copyFaultWaits then
    let t := s.takeTrap core ctx overrunAt
    (.next (if due && !taken then t.idle core else t), due)
  else
    let r := s.attempt core ctx
    r.1.settle core ctx r.2

/-- The issue slot of one cycle in deterministic mode: contexts that are due in ascending order, of which the first has the
slot; the mesh pause holds them all (R174, R175). -/
def State.issueDet (core : Nat) : List Nat → Bool → State → Out
  | [], taken, s => .next (if taken then s else s.idle core)
  | x :: xs, taken, s =>
    match s.stepDet core x taken with
    | (.next t, used) => State.issueDet core xs (taken || used) t
    | (o, _) => o

/-- The start of a cycle for a context: deliveries that waited go on, what is due lands, a context that has left its outermost
routine retires, a trap of one that has retired ends its launch, and one that is asked for freezes. -/
def State.openCtx (s : State) (core ctx : Nat) : State :=
  let s := if (s.ctx core ctx).st = CtxState.frozenTrap then s.deliver core ctx else s
  let s := match (s.ctx core ctx).st with
    | .running => ((s.modCtx core ctx Ctx.land).tellFault core ctx).retOut core ctx
    | .stopped => s.tellFault core ctx
    | .retired | .retiring => s.lateTrap core ctx
    | _ => s
  s.preempt core ctx

/-- The end of a cycle: counts advance and raised TAINT governs from here (R159, R247, R350). -/
def Ctx.close (x : Ctx) : Ctx :=
  let x := if x.block = 3 then { x with copyStall := x.copyStall + 1 } else x
  let x := { x with taint := x.taint ||| x.taintNext, taintNext := 0 }
  if x.st = CtxState.running || x.st = CtxState.retiring then
    { x with cycle := x.cycle + 1 }
  else x

def State.closeCycle (s : State) (core : Nat) : State :=
  (s.modCore core (fun k => { k with frame := k.frame + 1, ticks := k.ticks + 1 })).modCore core
    (fun k => four.foldl (fun k x => k.modCtx x Ctx.close) k)

/-- The start of a cycle for a core: its engines and its slice, an MLOAD that holds it, then a halt by DBGBRK (R428). -/
def State.openCycle (s : State) (core : Nat) : State :=
  let s := ((s.settleSlice core).engineCycle core).finishMload core
  four.foldl (fun s x => s.debugHalt core x) (s.scanStep core)

/-- A stall cycle of a core that an MLOAD holds after its issue (R342). -/
def State.mloadStall (s : State) (core : Nat) : State :=
  (s.modCore core (fun k => { k with bankstall := k.bankstall + 1 })).closeCycle core

/-- One island cycle of a core (R159 to R161). A core without a launch does nothing. In a halted one the engines go on, and a
pre-emption that waited is completed (R340, R429, R432). -/
def State.coreCycle (s : State) (core : Nat) : Out :=
  if (s.core core).owner.isNone then .next s
  else
  let s := s.openCycle core
  if (s.core core).halted then
    .next ((four.foldl (fun s x => s.preempt core x) s).modCore core (fun k => { k with slotSpent := false }))
  else
    let s := four.foldl (fun s x => s.openCtx core x) s
    if (s.core core).mload.isSome then .next (s.mloadStall core)
    else
    let r := if s.det core then State.issueDet core four false (s.modCore core (fun k => { k with slotSpent := false }))
      else s.issueOrdinary core
    match r with
    | .next t => .next (if (t.core core).owner.isNone then t else t.closeCycle core)
    | o => o

/-! ## Turns other than a cycle -/

/-- An event of the opcode table: a row without an encoding. -/
def isEvent (i : Instr) : Bool := (encode i).isNone && (encodeMicro i).isNone

/-- One step of the plane unit of a core: the running call's next micro-op (R288). A halted core's unit stands still
(R307). -/
def State.microTurn (s : State) (core : Nat) : Out :=
  match s.runningCall core with
  | none => .next s
  | some c =>
    match (s.core core).microWord c with
    | none => .next (s.callFault core c .runoff)
    | some w =>
      match decodeMicro w with
      | .error _ => .next (s.callFault core c .uncorrectable)
      | .ok i => exec i (s.focusOn core c.ctx 3 0)

/-- One turn of the schedule. -/
def State.turn (s : State) (t : Turn) : Out :=
  match t with
  | .cycle c => s.coreCycle c
  | .ref => .next { s with frame := s.frame + 1, errors := if (s.frame.toNat + 1) % 2 ^ 30 = 0 then [] else s.errors }
  | .micro c => s.microTurn c
  | .hostWrite link addr bytes => .next (s.hostPoke link addr bytes)
  | .doorbell fn addr => .next ((s.writePage fn 0x400 (BitVec.ofNat 64 addr)).writePage fn 0x408 1)
  | .event i => if isEvent i then exec i s else .next s

/-- The turn that comes next: the head of the agenda, or a cycle of the core in focus. -/
def State.nextTurn (s : State) : Turn × State :=
  match s.agenda with
  | [] => (.cycle s.focus, s)
  | t :: ts => (t, { s with agenda := ts })

def isReset : Turn → Bool
  | .event (.moduleReset _) => true
  | _ => false

/-- The next step of the module. -/
def State.run (s : State) : Out :=
  let (t, s) := s.nextTurn
  if s.dead && !isReset t then .fault .heldInReset else s.turn t

/-! ## A word placed where the next step fetches -/

/-- A launch that lets every register be named. -/
def probeImage : Image :=
  { digest := 0, det := false, entry := 0, code := [], ovls := [], const := none, microRaw := [], micro := [],
    budget := [32, 32, 32, 16], mirrors := [0, 0, 0, 0], params := [], results := [], targets := [], phases := [],
    decls := [], rebinds := [], coresReq := 1, portsReq := 0 }

def probeLaunch (num core : Nat) : Launch :=
  { num := num, queue := 0,
    pkt := { marker := false, mode := 0, part := 0, contexts := 1, perCore := 1, wmask := 0, image := 0, bindings := 0,
             seed := 0, waits := [], signal := 0, userTag := 0, counterBase := 0 },
    qhead := 0, stage := .running, status := .ok, waitsLeft := [], image := some probeImage, imgDigest := none,
    windows := [], area := 0, cores := [core], start := none, end_ := 0, digest := none, mloads := 0, microDigest := 0,
    stopReq := false, saved := [], logPos := none, recStopped := false }

/-- The cells of a bundle at an offset of an instruction bank. -/
def putBank (t : Table Byte) (pc : Nat) (b : BitVec 128) : Table Byte :=
  ((List.range 16).zip (bytesOf 16 b.toNat)).foldl (fun t e => tset 0 t (pc + e.1) e.2) t

/-- A running context of the core in focus fetches a bundle next. -/
def State.placeBundle (s : State) (b : BitVec 128) : State :=
  let c := s.focus
  let p := s.partOf c
  let num := (s.part p).nextLaunch
  let s := s.modPart p (fun q => { q with nextLaunch := num + 1, launches := q.launches ++ [probeLaunch num c] })
  let s := { s with dead := false, agenda := [] }
  s.modCore c (fun k =>
    let k := { k with owner := some { part := p, launch := num, lcore := 0 }, halted := false, last := none, holder := some 0,
                      slotSpent := false }
    let x := k.ctx 0
    let pc := if x.pc % 16 = 0 && x.pc ≤ 0x3FFF0 then x.pc else 0
    let k := k.modCtx 0 (fun x =>
      { x with st := .running, pc := pc, bank := false, nds := 0, tgt := none, retPending := false, asyncQ := [],
               preReasons := [], strikes := none, wait2 := none, stall := 0, skips := 3 })
    { k with ibank0 := putBank k.ibank0 pc b, mload := none })

/-- A running call of the core in focus reads a micro-word next. -/
def State.placeMicro (s : State) (w : BitVec 128) : State :=
  let c := s.focus
  let id := s.nextId
  { s with dead := false, agenda := [.micro c], nextId := id + 1 }.modCore c (fun k =>
    let call : Call :=
      { uid := id, routine := 0, ctx := 0, args := [], fmt := Lab.zero 4, mask := 0, started := true, upc := 0, inj := none,
        modes := [], keepSet := false, halo := [], haloMask := 0, loops := [], hexpDone := false, merged := 0, inboxes := [],
        wait := none, tap := 0, ust := .running, phase := none }
    { k with halted := false, calls := [call], ustore := tput k.ustore 0 w, routines := tput k.routines 0 (0, 1) })

/-- The bundle that holds one word of the opcode table alone. -/
def tableBundle (w : BitVec 32) : BitVec 128 :=
  let slot := tableSlot w
  let ext := match decodeSlot slot w with
    | .ok i => i.readsExt
    | .error _ => false
  if ext then soloExtBundle slot w else soloBundle slot w

def State.placeWord (s : State) (nbits w : Nat) : State :=
  if nbits > 32 then s.placeMicro (BitVec.ofNat 128 w) else s.placeBundle (tableBundle (BitVec.ofNat 32 w))

end Sys2Proof.Machine
end

