-- ==== Sys2Proof/Machine/Step.lean ====
section
/-! DEFINITION. The step of the module, and a word placed where it fetches. -/

namespace Sys2Proof.Machine

/-- One step: the turn at the head of the agenda, or one island cycle of the core in focus. -/
def step (s : State) : Host.Outcome State Fault Refusal := s.run

/-- The state with one instruction or micro-word placed so that the next step runs it (log entry 5). -/
def State.withFetchWord (s : State) (nbits w : Nat) : State := s.placeWord nbits w

end Sys2Proof.Machine
end

