-- ==== Sys2Proof/Laws/Codec.lean ====
section
/-! SUPPORT. Decoding undoes encoding, form by form: the fields of a word put together from fields, the codes of enumerations
and operands, and each form's decoder on its encoder's word. -/

set_option linter.unusedSimpArgs false
set_option Elab.async false

namespace Sys2Proof

/-! ## Fields of appended words -/

theorem extract_low {v w : Nat} (a : BitVec v) (b : BitVec w) (s n : Nat) (h : s + n ≤ w) :
    (BitVec.append a b).extractLsb' s n = b.extractLsb' s n := by
  show (a ++ b).extractLsb' s n = _
  apply BitVec.eq_of_getLsbD_eq; intro i hi
  simp only [BitVec.getLsbD_extractLsb', BitVec.getLsbD_append, hi, decide_true, Bool.true_and]
  rw [if_pos (by omega)]

theorem extract_high {v w : Nat} (a : BitVec v) (b : BitVec w) (s n : Nat) (h : w ≤ s) :
    (BitVec.append a b).extractLsb' s n = a.extractLsb' (s - w) n := by
  show (a ++ b).extractLsb' s n = _
  apply BitVec.eq_of_getLsbD_eq; intro i hi
  simp only [BitVec.getLsbD_extractLsb', BitVec.getLsbD_append, hi, decide_true, Bool.true_and]
  rw [if_neg (by omega)]; congr 1; omega

theorem extract_all {w : Nat} (b : BitVec w) : b.extractLsb' 0 w = b := by simp

theorem lsb_low {v w : Nat} (a : BitVec v) (b : BitVec w) (s : Nat) (h : s < w) :
    (BitVec.append a b).getLsbD s = b.getLsbD s := by
  show (a ++ b).getLsbD s = _
  rw [BitVec.getLsbD_append, if_pos h]

theorem lsb_high {v w : Nat} (a : BitVec v) (b : BitVec w) (s : Nat) (h : w ≤ s) :
    (BitVec.append a b).getLsbD s = a.getLsbD (s - w) := by
  show (a ++ b).getLsbD s = _
  rw [BitVec.getLsbD_append, if_neg (by omega)]

/-- A field that reaches over two zero fields. -/
theorem extract_both {v : Nat} (a : BitVec v) :
    BitVec.extractLsb' 0 10 (BitVec.append (BitVec.append a (0 : BitVec 6)) (0 : BitVec 4)) = 0 := by
  show BitVec.extractLsb' 0 10 (a ++ (0 : BitVec 6) ++ (0 : BitVec 4)) = 0
  have h : a ++ (0 : BitVec 6) ++ (0 : BitVec 4) = (a ++ (0 : BitVec 10)).cast (by omega) := by
    apply BitVec.eq_of_getLsbD_eq; intro i hi
    simp only [BitVec.getLsbD_cast, BitVec.getLsbD_append]
    rcases Nat.lt_or_ge i 4 with h | h
    · simp [h, show i < 10 by omega]
    · rcases Nat.lt_or_ge i 10 with h' | h'
      · simp [h', show ¬ i < 4 by omega, show i - 4 < 6 by omega]
      · simp [show ¬ i < 4 by omega, show ¬ i < 10 by omega, show ¬ i - 4 < 6 by omega, Nat.sub_sub]
  apply BitVec.eq_of_getLsbD_eq; intro i hi
  simp only [h, BitVec.getLsbD_extractLsb', BitVec.getLsbD_cast, BitVec.getLsbD_append, hi, Nat.zero_add, if_true]
  simp

theorem bit1_lsb (b : Bool) : (bit1 b).getLsbD 0 = b := by cases b <;> rfl

/-! ## Codes -/

theorem decOpnd_encOpnd (o : Opnd) : decOpnd (encOpnd o) = some o := by
  cases o with
  | reg n => revert n; decide
  | latch j => revert j; decide
  | port q => revert q; decide
  | rnd => rfl
  | zero => rfl
  | ext => rfl

theorem opnd_encOpnd (ok : Opnd → Bool) (o : Opnd) : opnd ok (encOpnd o) = if ok o then .ok o else .error .opcode := by
  simp [opnd, decOpnd_encOpnd]

theorem encPort_ne (q : BitVec 3) : (encOpnd (.port q) = 0#6) = False := by simp only [eq_iff_iff, iff_false]; revert q; decide

theorem decWidth_enc (q : Width) : decWidth (encWidth q) = .ok q := by cases q <;> rfl
theorem decFltQ_enc (q : FltQ) : decFltQ (encFltQ q) = .ok q := by cases q <;> rfl
theorem decIntQ_enc (q : IntQ) : decIntQ (encIntQ q) = .ok q := by cases q <;> rfl
theorem decLaneQ_enc (q : LaneQ) : decLaneQ (encLaneQ q) = .ok q := by cases q <;> rfl
theorem decOSize_enc (q : OSize) : decOSize (encOSize q) = .ok q := by cases q <;> rfl
theorem decScope_enc (q : Scope) : decScope (encScope q) = .ok q := by cases q <;> rfl
theorem decFenceKind_enc (q : FenceKind) : decFenceKind (encFenceKind q) = .ok q := by cases q <;> rfl
theorem decCombine_enc (q : Combine) : decCombine (encCombine q) = .ok q := by cases q <;> rfl
theorem decCond_enc (q : Cond) : decCond (encCond q) = .ok q := by cases q <;> rfl
theorem decPlogOp_enc (q : PlogOp) : decPlogOp (encPlogOp q) = .ok q := by cases q <;> rfl
theorem decKlogOp_enc (q : KlogOp) : decKlogOp (encKlogOp q) = .ok q := by cases q <;> rfl
theorem decChain_enc (q : Chain) : decChain (encChain q) = .ok q := by cases q <;> rfl
theorem decMSize_enc (q : MSize) : decMSize (encMSize q) = q := by cases q <;> rfl
theorem decXFile_enc (q : XFile) : decXFile (encXFile q) = q := by cases q <;> rfl
theorem decVCond_enc (q : VCond) : decVCond (encVCond q) = q := by cases q <;> rfl
theorem decVICond_enc (q : VICond) : decVICond (encVICond q) = q := by cases q <;> rfl
theorem decFmt_enc (q : Fmt) : decFmt (encFmt q) = q := by cases q <;> rfl

theorem decRedOp_enc (o : RedOp) : decRedOp (encRedOp o).1 (encRedOp o).2 = .ok o := by
  cases o with
  | add q => cases q <;> rfl
  | min q => cases q <;> rfl
  | max q => cases q <;> rfl
  | iadd q => cases q <;> rfl
  | imin q => cases q <;> rfl
  | imax q => cases q <;> rfl

theorem vfile_enc (v : VFile) : (if (encVFile v) = true then VFile.y else VFile.x) = v := by cases v <;> rfl

/-! ## Forms of the slots -/

theorem decAxis_enc (a : Axis) : decAxis (encAxis a) = a := by cases a <;> rfl
theorem decBMode_enc (m : BMode) : decBMode (encBMode m) = .ok m := by cases m <;> rfl

theorem dZ_enc (m : BitVec 6) (f : FZ) (k : FZ → Instr) :
    dZ (eZ m f) k = .ok (k f) := by
  simp only [dZ, eZ, fMajor, fMinor, fGuard, fW, fD, fA, fB, encHead, HAppend.hAppend, Append.append]
  simp only [bit1_lsb, extract_both, extract_low, extract_high, lsb_low, lsb_high, extract_all, Nat.reduceLeDiff, Nat.reduceLT, Nat.reduceAdd, Nat.reduceSub, Nat.le_refl, Nat.zero_le]
  simp [opnd_encOpnd, zeroField, need, bit1_lsb, bind, Except.bind, pure, Except.pure]

theorem dS3_enc (m : BitVec 6) (s : BitVec 4) (f : FS3) (k : FS3 → Instr) (ha : f.a.okS = true) (hb : f.b.okS = true) :
    dS3 (eS3 m s f) k = .ok (k f) := by
  simp only [dS3, eS3, fMajor, fMinor, fGuard, fW, fD, fA, fB, encHead, HAppend.hAppend, Append.append]
  simp only [bit1_lsb, extract_both, extract_low, extract_high, lsb_low, lsb_high, extract_all, Nat.reduceLeDiff, Nat.reduceLT, Nat.reduceAdd, Nat.reduceSub, Nat.le_refl, Nat.zero_le]
  simp [opnd_encOpnd, zeroField, need, bit1_lsb, bind, Except.bind, pure, Except.pure, ha, hb]

theorem dS2_enc (m : BitVec 6) (s : BitVec 4) (f : FS2) (k : FS2 → Instr) (ha : f.a.okS = true) :
    dS2 (eS2 m s f) k = .ok (k f) := by
  simp only [dS2, eS2, fMajor, fMinor, fGuard, fW, fD, fA, fB, encHead, HAppend.hAppend, Append.append]
  simp only [bit1_lsb, extract_both, extract_low, extract_high, lsb_low, lsb_high, extract_all, Nat.reduceLeDiff, Nat.reduceLT, Nat.reduceAdd, Nat.reduceSub, Nat.le_refl, Nat.zero_le]
  simp [opnd_encOpnd, zeroField, need, bit1_lsb, bind, Except.bind, pure, Except.pure, ha]

theorem dA_enc (m : BitVec 6) (s : BitVec 4) (f : FA) (k : FA → Instr) (ha : f.a.okS = true) :
    dA (eA m s f) k = .ok (k f) := by
  simp only [dA, eA, fMajor, fMinor, fGuard, fW, fD, fA, fB, encHead, HAppend.hAppend, Append.append]
  simp only [bit1_lsb, extract_both, extract_low, extract_high, lsb_low, lsb_high, extract_all, Nat.reduceLeDiff, Nat.reduceLT, Nat.reduceAdd, Nat.reduceSub, Nat.le_refl, Nat.zero_le]
  simp [opnd_encOpnd, zeroField, need, bit1_lsb, bind, Except.bind, pure, Except.pure, ha]

theorem dAB_enc (m : BitVec 6) (s : BitVec 4) (f : FAB) (k : FAB → Instr) (ha : f.a.okS = true) (hb : f.b.okS = true) :
    dAB (eAB m s f) k = .ok (k f) := by
  simp only [dAB, eAB, fMajor, fMinor, fGuard, fW, fD, fA, fB, encHead, HAppend.hAppend, Append.append]
  simp only [bit1_lsb, extract_both, extract_low, extract_high, lsb_low, lsb_high, extract_all, Nat.reduceLeDiff, Nat.reduceLT, Nat.reduceAdd, Nat.reduceSub, Nat.le_refl, Nat.zero_le]
  simp [opnd_encOpnd, zeroField, need, bit1_lsb, bind, Except.bind, pure, Except.pure, ha, hb]

theorem dCI_enc (m : BitVec 6) (f : FA) (k : FA → Instr) (ha : f.a.okS = true) :
    dCI (eA m 0 f) k = .ok (k f) := by
  simp only [dCI, eA, fMajor, fMinor, fGuard, fW, fD, fA, fB, encHead, HAppend.hAppend, Append.append]
  simp only [bit1_lsb, extract_both, extract_low, extract_high, lsb_low, lsb_high, extract_all, Nat.reduceLeDiff, Nat.reduceLT, Nat.reduceAdd, Nat.reduceSub, Nat.le_refl, Nat.zero_le]
  simp [opnd_encOpnd, zeroField, need, bit1_lsb, bind, Except.bind, pure, Except.pure, extract_both, ha]

theorem dSel_enc (f : FSel) (ha : f.a.okS = true) (hb : f.b.okS = true) :
    dSel (eSel f) = .ok (.sel f) := by
  simp only [dSel, eSel, fMajor, fMinor, fGuard, fW, fD, fA, fB, encHead, HAppend.hAppend, Append.append]
  simp only [bit1_lsb, extract_both, extract_low, extract_high, lsb_low, lsb_high, extract_all, Nat.reduceLeDiff, Nat.reduceLT, Nat.reduceAdd, Nat.reduceSub, Nat.le_refl, Nat.zero_le]
  simp [opnd_encOpnd, zeroField, need, bit1_lsb, bind, Except.bind, pure, Except.pure, ha, hb]

theorem dSI_enc (m : BitVec 6) (f : FSI) (k : FSI → Instr) (ha : f.a.okS = true) :
    dSI (eSI m f) k = .ok (k f) := by
  simp only [dSI, eSI, fMajor, fMinor, fGuard, fW, fD, fA, fB, encHead, HAppend.hAppend, Append.append]
  simp only [bit1_lsb, extract_both, extract_low, extract_high, lsb_low, lsb_high, extract_all, Nat.reduceLeDiff, Nat.reduceLT, Nat.reduceAdd, Nat.reduceSub, Nat.le_refl, Nat.zero_le]
  simp [opnd_encOpnd, zeroField, need, bit1_lsb, bind, Except.bind, pure, Except.pure, ha]

theorem dSL_enc (m : BitVec 6) (f : FSL) (k : FSL → Instr) :
    dSL (eSL m f) k = .ok (k f) := by
  simp only [dSL, eSL, fMajor, fMinor, fGuard, fW, fD, fA, fB, encHead, HAppend.hAppend, Append.append]
  simp only [bit1_lsb, extract_both, extract_low, extract_high, lsb_low, lsb_high, extract_all, Nat.reduceLeDiff, Nat.reduceLT, Nat.reduceAdd, Nat.reduceSub, Nat.le_refl, Nat.zero_le]

theorem dPC_enc (f : FPC) (ha : f.a.okS = true) (hb : f.b.okS = true) :
    dPC (ePC f) = .ok (.cmp f) := by
  simp only [dPC, ePC, fMajor, fMinor, fGuard, fW, fD, fA, fB, encHead, HAppend.hAppend, Append.append]
  simp only [bit1_lsb, extract_both, extract_low, extract_high, lsb_low, lsb_high, extract_all, Nat.reduceLeDiff, Nat.reduceLT, Nat.reduceAdd, Nat.reduceSub, Nat.le_refl, Nat.zero_le]
  simp [opnd_encOpnd, zeroField, need, bit1_lsb, bind, Except.bind, pure, Except.pure, decCombine_enc, decCond_enc, ha, hb]

theorem dPL_enc (f : FPL) (ha : f.ok = true) :
    dPL (ePL f) = .ok (.plog f) := by
  simp only [dPL, ePL, fMajor, fMinor, fGuard, fW, fD, fA, fB, encHead, HAppend.hAppend, Append.append]
  simp only [bit1_lsb, extract_both, extract_low, extract_high, lsb_low, lsb_high, extract_all, Nat.reduceLeDiff, Nat.reduceLT, Nat.reduceAdd, Nat.reduceSub, Nat.le_refl, Nat.zero_le]
  simp [opnd_encOpnd, zeroField, need, bit1_lsb, bind, Except.bind, pure, Except.pure, decPlogOp_enc, ha]

theorem dBR_enc (m : BitVec 6) (f : FBR) (k : FBR → Instr) :
    dBR (eBR m f) k = .ok (k f) := by
  simp only [dBR, eBR, fMajor, fMinor, fGuard, fW, fD, fA, fB, encHead, HAppend.hAppend, Append.append]
  simp only [bit1_lsb, extract_both, extract_low, extract_high, lsb_low, lsb_high, extract_all, Nat.reduceLeDiff, Nat.reduceLT, Nat.reduceAdd, Nat.reduceSub, Nat.le_refl, Nat.zero_le]
  simp [opnd_encOpnd, zeroField, need, bit1_lsb, bind, Except.bind, pure, Except.pure]

theorem dBS_enc (f : FBS) :
    dBS (eBS f) = .ok (.bswap f) := by
  simp only [dBS, eBS, fMajor, fMinor, fGuard, fW, fD, fA, fB, encHead, HAppend.hAppend, Append.append]
  simp only [bit1_lsb, extract_both, extract_low, extract_high, lsb_low, lsb_high, extract_all, Nat.reduceLeDiff, Nat.reduceLT, Nat.reduceAdd, Nat.reduceSub, Nat.le_refl, Nat.zero_le]
  simp [opnd_encOpnd, zeroField, need, bit1_lsb, bind, Except.bind, pure, Except.pure]

theorem dLd_enc (m : BitVec 6) (g : Bool) (f : FLd) (k : FLd → Instr) (ha : f.a.okS = true) (hb : (!(g && f.size == .b8)) = true) :
    dLd (eLd m f) g k = .ok (k f) := by
  simp only [dLd, eLd, fMajor, fMinor, fGuard, fW, fD, fA, fB, encHead, HAppend.hAppend, Append.append]
  simp only [bit1_lsb, extract_both, extract_low, extract_high, lsb_low, lsb_high, extract_all, Nat.reduceLeDiff, Nat.reduceLT, Nat.reduceAdd, Nat.reduceSub, Nat.le_refl, Nat.zero_le]
  simp [opnd_encOpnd, zeroField, need, bit1_lsb, bind, Except.bind, pure, Except.pure, decMSize_enc, ha, hb]

theorem dSt_enc (f : FSt) (ha : f.a.okS = true) :
    dSt (eSt f) = .ok (.st f) := by
  simp only [dSt, eSt, fMajor, fMinor, fGuard, fW, fD, fA, fB, encHead, HAppend.hAppend, Append.append]
  simp only [bit1_lsb, extract_both, extract_low, extract_high, lsb_low, lsb_high, extract_all, Nat.reduceLeDiff, Nat.reduceLT, Nat.reduceAdd, Nat.reduceSub, Nat.le_refl, Nat.zero_le]
  simp [opnd_encOpnd, zeroField, need, bit1_lsb, bind, Except.bind, pure, Except.pure, decMSize_enc, ha]

theorem dLdfe_enc (f : FLdfe) (ha : f.a.okS = true) :
    dLdfe (eLdfe f) = .ok (.ldfe f) := by
  simp only [dLdfe, eLdfe, fMajor, fMinor, fGuard, fW, fD, fA, fB, encHead, HAppend.hAppend, Append.append]
  simp only [bit1_lsb, extract_both, extract_low, extract_high, lsb_low, lsb_high, extract_all, Nat.reduceLeDiff, Nat.reduceLT, Nat.reduceAdd, Nat.reduceSub, Nat.le_refl, Nat.zero_le]
  simp [opnd_encOpnd, zeroField, need, bit1_lsb, bind, Except.bind, pure, Except.pure, ha]

theorem dStfe_enc (f : FStfe) (ha : f.a.okS = true) :
    dStfe (eStfe f) = .ok (.stfe f) := by
  simp only [dStfe, eStfe, fMajor, fMinor, fGuard, fW, fD, fA, fB, encHead, HAppend.hAppend, Append.append]
  simp only [bit1_lsb, extract_both, extract_low, extract_high, lsb_low, lsb_high, extract_all, Nat.reduceLeDiff, Nat.reduceLT, Nat.reduceAdd, Nat.reduceSub, Nat.le_refl, Nat.zero_le]
  simp [opnd_encOpnd, zeroField, need, bit1_lsb, bind, Except.bind, pure, Except.pure, ha]

theorem dPld_enc (f : FPld) (ha : f.a.okS = true) :
    dPld (ePld f) = .ok (.pld f) := by
  simp only [dPld, ePld, fMajor, fMinor, fGuard, fW, fD, fA, fB, encHead, HAppend.hAppend, Append.append]
  simp only [bit1_lsb, extract_both, extract_low, extract_high, lsb_low, lsb_high, extract_all, Nat.reduceLeDiff, Nat.reduceLT, Nat.reduceAdd, Nat.reduceSub, Nat.le_refl, Nat.zero_le]
  simp [opnd_encOpnd, zeroField, need, bit1_lsb, bind, Except.bind, pure, Except.pure, ha]

theorem dXmov_enc (f : FXmov) (ha : f.a.okX = true) (hb : (f.dst != f.src) = true) (hc : f.ok = true) :
    dXmov (eXmov f) = .ok (.xmov f) := by
  simp only [dXmov, eXmov, fMajor, fMinor, fGuard, fW, fD, fA, fB, encHead, HAppend.hAppend, Append.append]
  simp only [bit1_lsb, extract_both, extract_low, extract_high, lsb_low, lsb_high, extract_all, Nat.reduceLeDiff, Nat.reduceLT, Nat.reduceAdd, Nat.reduceSub, Nat.le_refl, Nat.zero_le]
  simp [opnd_encOpnd, zeroField, need, bit1_lsb, bind, Except.bind, pure, Except.pure, decXFile_enc, ha, hb, hc]

theorem dSR_enc (f : FSR) :
    dSR (eSR f) = .ok (.sysr f) := by
  simp only [dSR, eSR, fMajor, fMinor, fGuard, fW, fD, fA, fB, encHead, HAppend.hAppend, Append.append]
  simp only [bit1_lsb, extract_both, extract_low, extract_high, lsb_low, lsb_high, extract_all, Nat.reduceLeDiff, Nat.reduceLT, Nat.reduceAdd, Nat.reduceSub, Nat.le_refl, Nat.zero_le]
  simp [opnd_encOpnd, zeroField, need, bit1_lsb, bind, Except.bind, pure, Except.pure]

theorem dSW_enc (f : FSW) :
    dSW (eSW f) = .ok (.sysw f) := by
  simp only [dSW, eSW, fMajor, fMinor, fGuard, fW, fD, fA, fB, encHead, HAppend.hAppend, Append.append]
  simp only [bit1_lsb, extract_both, extract_low, extract_high, lsb_low, lsb_high, extract_all, Nat.reduceLeDiff, Nat.reduceLT, Nat.reduceAdd, Nat.reduceSub, Nat.le_refl, Nat.zero_le]
  simp [opnd_encOpnd, zeroField, need, bit1_lsb, bind, Except.bind, pure, Except.pure]

theorem dLda_enc (f : FLda) (ha : f.a.okS = true) :
    dLda (eLda f) = .ok (.lda f) := by
  simp only [dLda, eLda, fMajor, fMinor, fGuard, fW, fD, fA, fB, encHead, HAppend.hAppend, Append.append]
  simp only [bit1_lsb, extract_both, extract_low, extract_high, lsb_low, lsb_high, extract_all, Nat.reduceLeDiff, Nat.reduceLT, Nat.reduceAdd, Nat.reduceSub, Nat.le_refl, Nat.zero_le]
  simp [opnd_encOpnd, zeroField, need, bit1_lsb, bind, Except.bind, pure, Except.pure, decScope_enc, decOSize_enc, ha]

theorem dStl_enc (f : FStl) (ha : f.a.okS = true) :
    dStl (eStl f) = .ok (.stl f) := by
  simp only [dStl, eStl, fMajor, fMinor, fGuard, fW, fD, fA, fB, encHead, HAppend.hAppend, Append.append]
  simp only [bit1_lsb, extract_both, extract_low, extract_high, lsb_low, lsb_high, extract_all, Nat.reduceLeDiff, Nat.reduceLT, Nat.reduceAdd, Nat.reduceSub, Nat.le_refl, Nat.zero_le]
  simp [opnd_encOpnd, zeroField, need, bit1_lsb, bind, Except.bind, pure, Except.pure, decScope_enc, decOSize_enc, ha]

theorem dFence_enc (f : FFence) :
    dFence (eFence f) = .ok (.fence f) := by
  simp only [dFence, eFence, fMajor, fMinor, fGuard, fW, fD, fA, fB, encHead, HAppend.hAppend, Append.append]
  simp only [bit1_lsb, extract_both, extract_low, extract_high, lsb_low, lsb_high, extract_all, Nat.reduceLeDiff, Nat.reduceLT, Nat.reduceAdd, Nat.reduceSub, Nat.le_refl, Nat.zero_le]
  simp [opnd_encOpnd, zeroField, need, bit1_lsb, bind, Except.bind, pure, Except.pure, decScope_enc, decFenceKind_enc]

theorem dPhase_enc (f : FPhase) (ha : f.a.okS = true) :
    dPhase (ePhase f) = .ok (.phase f) := by
  simp only [dPhase, ePhase, fMajor, fMinor, fGuard, fW, fD, fA, fB, encHead, HAppend.hAppend, Append.append]
  simp only [bit1_lsb, extract_both, extract_low, extract_high, lsb_low, lsb_high, extract_all, Nat.reduceLeDiff, Nat.reduceLT, Nat.reduceAdd, Nat.reduceSub, Nat.le_refl, Nat.zero_le]
  simp [opnd_encOpnd, zeroField, need, bit1_lsb, bind, Except.bind, pure, Except.pure, ha]

theorem dV3_enc {Q : Type} (m : BitVec 6) (dq : BitVec 2 → Dec Q) (eq : Q → BitVec 2) (f : FV3 Q) (k : FV3 Q → Instr) (ha : dq (eq f.q) = .ok f.q) :
    dV3 (eV3 m eq f) dq k = .ok (k f) := by
  simp only [dV3, eV3, fQ, fWidth, fMajor, fMinor, fGuard, fW, fD, fA, fB, encHead, HAppend.hAppend, Append.append]
  simp only [bit1_lsb, extract_both, extract_low, extract_high, lsb_low, lsb_high, extract_all, Nat.reduceLeDiff, Nat.reduceLT, Nat.reduceAdd, Nat.reduceSub, Nat.le_refl, Nat.zero_le]
  simp [opnd_encOpnd, zeroField, need, bit1_lsb, bind, Except.bind, pure, Except.pure, decWidth_enc, anyOpnd, ha]

theorem dV1_enc {Q : Type} (m : BitVec 6) (dq : BitVec 2 → Dec Q) (eq : Q → BitVec 2) (f : FV1 Q) (k : FV1 Q → Instr) (ha : dq (eq f.q) = .ok f.q) :
    dV1 (eV1 m eq f) dq k = .ok (k f) := by
  simp only [dV1, eV1, fQ, fWidth, fMajor, fMinor, fGuard, fW, fD, fA, fB, encHead, HAppend.hAppend, Append.append]
  simp only [bit1_lsb, extract_both, extract_low, extract_high, lsb_low, lsb_high, extract_all, Nat.reduceLeDiff, Nat.reduceLT, Nat.reduceAdd, Nat.reduceSub, Nat.le_refl, Nat.zero_le]
  simp [opnd_encOpnd, zeroField, need, bit1_lsb, bind, Except.bind, pure, Except.pure, decWidth_enc, anyOpnd, ha]

theorem dV1n_enc (m : BitVec 6) (f : FV1n) (k : FV1n → Instr) :
    dV1n (eV1n m f) k = .ok (k f) := by
  simp only [dV1n, eV1n, fQ, fWidth, decNoQ, fMajor, fMinor, fGuard, fW, fD, fA, fB, encHead, HAppend.hAppend, Append.append]
  simp only [bit1_lsb, extract_both, extract_low, extract_high, lsb_low, lsb_high, extract_all, Nat.reduceLeDiff, Nat.reduceLT, Nat.reduceAdd, Nat.reduceSub, Nat.le_refl, Nat.zero_le]
  simp [opnd_encOpnd, zeroField, need, bit1_lsb, bind, Except.bind, pure, Except.pure, decWidth_enc, anyOpnd]

theorem dVmov_enc (f : FV1n) :
    dVmov (eV1n 0x28 f) = .ok (.vmov f) := by
  simp only [dVmov, eV1n, fQ, fWidth, decNoQ, fMajor, fMinor, fGuard, fW, fD, fA, fB, encHead, HAppend.hAppend, Append.append]
  simp only [bit1_lsb, extract_both, extract_low, extract_high, lsb_low, lsb_high, extract_all, Nat.reduceLeDiff, Nat.reduceLT, Nat.reduceAdd, Nat.reduceSub, Nat.le_refl, Nat.zero_le]
  simp [opnd_encOpnd, zeroField, need, bit1_lsb, bind, Except.bind, pure, Except.pure, decWidth_enc, anyOpnd]

theorem dVpush_enc (f : FVpush) :
    dVmov (eVpush f) = .ok (.vmovPush f) := by
  simp only [dVmov, eVpush, fQ, fWidth, decNoQ, fMajor, fMinor, fGuard, fW, fD, fA, fB, encHead, HAppend.hAppend, Append.append]
  simp only [bit1_lsb, extract_both, extract_low, extract_high, lsb_low, lsb_high, extract_all, Nat.reduceLeDiff, Nat.reduceLT, Nat.reduceAdd, Nat.reduceSub, Nat.le_refl, Nat.zero_le]
  simp [opnd_encOpnd, zeroField, need, bit1_lsb, bind, Except.bind, pure, Except.pure, decWidth_enc, anyOpnd, encPort_ne, decOpnd_encOpnd]

theorem dVC_enc {C Q : Type} (m : BitVec 6) (dc : BitVec 2 → C) (ec : C → BitVec 2) (dq : BitVec 2 → Dec Q) (eq : Q → BitVec 2) (f : FVC C Q) (k : FVC C Q → Instr) (ha : dq (eq f.q) = .ok f.q) (hb : dc (ec f.cond) = f.cond) :
    dVC (eVC m ec eq f) dc dq k = .ok (k f) := by
  simp only [dVC, eVC, fQ, fWidth, fMajor, fMinor, fGuard, fW, fD, fA, fB, encHead, HAppend.hAppend, Append.append]
  simp only [bit1_lsb, extract_both, extract_low, extract_high, lsb_low, lsb_high, extract_all, Nat.reduceLeDiff, Nat.reduceLT, Nat.reduceAdd, Nat.reduceSub, Nat.le_refl, Nat.zero_le]
  simp [opnd_encOpnd, zeroField, need, bit1_lsb, bind, Except.bind, pure, Except.pure, decWidth_enc, anyOpnd, ha, hb]

theorem dVK_enc (f : FVK) :
    dVK (eVK f) = .ok (.vmrg f) := by
  simp only [dVK, eVK, fQ, fWidth, decNoQ, fMajor, fMinor, fGuard, fW, fD, fA, fB, encHead, HAppend.hAppend, Append.append]
  simp only [bit1_lsb, extract_both, extract_low, extract_high, lsb_low, lsb_high, extract_all, Nat.reduceLeDiff, Nat.reduceLT, Nat.reduceAdd, Nat.reduceSub, Nat.le_refl, Nat.zero_le]
  simp [opnd_encOpnd, zeroField, need, bit1_lsb, bind, Except.bind, pure, Except.pure, decWidth_enc, anyOpnd]

theorem dKL_enc (f : FKL) (ha : f.ok = true) :
    dKL (eKL f) = .ok (.klog f) := by
  simp only [dKL, eKL, fMajor, fMinor, fGuard, fW, fD, fA, fB, encHead, HAppend.hAppend, Append.append]
  simp only [bit1_lsb, extract_both, extract_low, extract_high, lsb_low, lsb_high, extract_all, Nat.reduceLeDiff, Nat.reduceLT, Nat.reduceAdd, Nat.reduceSub, Nat.le_refl, Nat.zero_le]
  simp [opnd_encOpnd, zeroField, need, bit1_lsb, bind, Except.bind, pure, Except.pure, decKlogOp_enc, ha]

theorem dRed_enc (f : FRed) :
    dRed (eRed f) = .ok (.vred f) := by
  simp only [dRed, eRed, fQ, fWidth, fMajor, fMinor, fGuard, fW, fD, fA, fB, encHead, HAppend.hAppend, Append.append]
  simp only [bit1_lsb, extract_both, extract_low, extract_high, lsb_low, lsb_high, extract_all, Nat.reduceLeDiff, Nat.reduceLT, Nat.reduceAdd, Nat.reduceSub, Nat.le_refl, Nat.zero_le]
  simp [opnd_encOpnd, zeroField, need, bit1_lsb, bind, Except.bind, pure, Except.pure, decRedOp_enc, decWidth_enc, anyOpnd]

theorem dLane_enc (m : BitVec 6) (f : FLane) (k : FLane → Instr) :
    dLane (eLane m f) k = .ok (k f) := by
  simp only [dLane, eLane, fQ, fWidth, fMajor, fMinor, fGuard, fW, fD, fA, fB, encHead, HAppend.hAppend, Append.append]
  simp only [bit1_lsb, extract_both, extract_low, extract_high, lsb_low, lsb_high, extract_all, Nat.reduceLeDiff, Nat.reduceLT, Nat.reduceAdd, Nat.reduceSub, Nat.le_refl, Nat.zero_le]
  simp [opnd_encOpnd, zeroField, need, bit1_lsb, bind, Except.bind, pure, Except.pure, decLaneQ_enc, decWidth_enc, anyOpnd]

theorem dCvt_enc (f : FCvt) (ha : (f.src != .raw && f.dst != .raw) = true) :
    dCvt (eCvt f) = .ok (.vcvt f) := by
  simp only [dCvt, eCvt, fQ, fWidth, decNoQ, fMajor, fMinor, fGuard, fW, fD, fA, fB, encHead, HAppend.hAppend, Append.append]
  simp only [bit1_lsb, extract_both, extract_low, extract_high, lsb_low, lsb_high, extract_all, Nat.reduceLeDiff, Nat.reduceLT, Nat.reduceAdd, Nat.reduceSub, Nat.le_refl, Nat.zero_le]
  simp [opnd_encOpnd, zeroField, need, bit1_lsb, bind, Except.bind, pure, Except.pure, decFmt_enc, decWidth_enc, anyOpnd, ha]

theorem dPack_enc (m : BitVec 6) (f : FPack) (k : FPack → Instr) :
    dPack (ePack m f) k = .ok (k f) := by
  simp only [dPack, ePack, fQ, fWidth, decNoQ, fMajor, fMinor, fGuard, fW, fD, fA, fB, encHead, HAppend.hAppend, Append.append]
  simp only [bit1_lsb, extract_both, extract_low, extract_high, lsb_low, lsb_high, extract_all, Nat.reduceLeDiff, Nat.reduceLT, Nat.reduceAdd, Nat.reduceSub, Nat.le_refl, Nat.zero_le]
  simp [opnd_encOpnd, zeroField, need, bit1_lsb, bind, Except.bind, pure, Except.pure, decWidth_enc, anyOpnd]

theorem dVld_enc (m : BitVec 6) (f : FVld) (k : FVld → Instr) (ha : f.a.okM = true) (hb : f.b.okMx = true) :
    dVld (eVld m f) k = .ok (k f) := by
  simp only [dVld, eVld, fQ, fWidth, decNoQ, fMajor, fMinor, fGuard, fW, fD, fA, fB, encHead, HAppend.hAppend, Append.append]
  simp only [bit1_lsb, extract_both, extract_low, extract_high, lsb_low, lsb_high, extract_all, Nat.reduceLeDiff, Nat.reduceLT, Nat.reduceAdd, Nat.reduceSub, Nat.le_refl, Nat.zero_le]
  simp [opnd_encOpnd, zeroField, need, bit1_lsb, bind, Except.bind, pure, Except.pure, decWidth_enc, ha, hb]

theorem dVst_enc (f : FVst) (ha : f.a.okM = true) (hb : f.b.okMx = true) :
    dVst (eVst f) = .ok (.vst f) := by
  simp only [dVst, eVst, fQ, fWidth, decNoQ, fMajor, fMinor, fGuard, fW, fD, fA, fB, encHead, HAppend.hAppend, Append.append]
  simp only [bit1_lsb, extract_both, extract_low, extract_high, lsb_low, lsb_high, extract_all, Nat.reduceLeDiff, Nat.reduceLT, Nat.reduceAdd, Nat.reduceSub, Nat.le_refl, Nat.zero_le]
  simp [opnd_encOpnd, zeroField, need, bit1_lsb, bind, Except.bind, pure, Except.pure, decWidth_enc, ha, hb]

theorem dGather_enc (f : FV3 LaneQ) (ha : f.a.okM = true) (hb : f.b.okM = true) :
    dGather (eV3 0x2E encLaneQ f) = .ok (.vgather f) := by
  simp only [dGather, eV3, fQ, fWidth, fMajor, fMinor, fGuard, fW, fD, fA, fB, encHead, HAppend.hAppend, Append.append]
  simp only [bit1_lsb, extract_both, extract_low, extract_high, lsb_low, lsb_high, extract_all, Nat.reduceLeDiff, Nat.reduceLT, Nat.reduceAdd, Nat.reduceSub, Nat.le_refl, Nat.zero_le]
  simp [opnd_encOpnd, zeroField, need, bit1_lsb, bind, Except.bind, pure, Except.pure, decLaneQ_enc, decWidth_enc, ha, hb]

theorem dScat_enc (f : FScat) (ha : f.a.okM = true) (hb : f.b.okM = true) :
    dScat (eScat f) = .ok (.vscatter f) := by
  simp only [dScat, eScat, fQ, fWidth, fMajor, fMinor, fGuard, fW, fD, fA, fB, encHead, HAppend.hAppend, Append.append]
  simp only [bit1_lsb, extract_both, extract_low, extract_high, lsb_low, lsb_high, extract_all, Nat.reduceLeDiff, Nat.reduceLT, Nat.reduceAdd, Nat.reduceSub, Nat.le_refl, Nat.zero_le]
  simp [opnd_encOpnd, zeroField, need, bit1_lsb, bind, Except.bind, pure, Except.pure, decLaneQ_enc, decWidth_enc, ha, hb]

theorem dDneg_enc (m : BitVec 6) (f : FD1) (ha : f.a.okD = true) : dDneg (eD1 m 0 f) = .ok (.dneg f) := by
  simp only [dDneg, eD1, fDd, fMajor, fMinor, fGuard, fW, fD, fA, fB, encHead, HAppend.hAppend, Append.append]
  simp only [bit1_lsb, extract_both, extract_low, extract_high, lsb_low, lsb_high, extract_all, Nat.reduceLeDiff, Nat.reduceLT, Nat.reduceAdd, Nat.reduceSub, Nat.le_refl, Nat.zero_le]
  simp [opnd_encOpnd, zeroField, need, bit1_lsb, bind, Except.bind, pure, Except.pure, decChain_enc, ha]

theorem dD1_enc (m : BitVec 6) (s : BitVec 1) (ok : Opnd → Bool) (f : FD1) (k : FD1 → Instr) (ha : ok f.a = true) :
    dD1 (eD1 m s f) ok k = .ok (k f) := by
  simp only [dD1, eD1, fDd, fMajor, fMinor, fGuard, fW, fD, fA, fB, encHead, HAppend.hAppend, Append.append]
  simp only [bit1_lsb, extract_both, extract_low, extract_high, lsb_low, lsb_high, extract_all, Nat.reduceLeDiff, Nat.reduceLT, Nat.reduceAdd, Nat.reduceSub, Nat.le_refl, Nat.zero_le]
  simp [opnd_encOpnd, zeroField, need, bit1_lsb, bind, Except.bind, pure, Except.pure, decChain_enc, ha]

theorem dDN_enc (m : BitVec 6) (ok : Opnd → Bool) (f : FDN) (k : FDN → Instr) (ha : ok f.a = true) :
    dDN (eDN m f) ok k = .ok (k f) := by
  simp only [dDN, eDN, fDd, fMajor, fMinor, fGuard, fW, fD, fA, fB, encHead, HAppend.hAppend, Append.append]
  simp only [bit1_lsb, extract_both, extract_low, extract_high, lsb_low, lsb_high, extract_all, Nat.reduceLeDiff, Nat.reduceLT, Nat.reduceAdd, Nat.reduceSub, Nat.le_refl, Nat.zero_le]
  simp [opnd_encOpnd, zeroField, need, bit1_lsb, bind, Except.bind, pure, Except.pure, decChain_enc, ha]

theorem dD2_enc (m : BitVec 6) (ok : Opnd → Bool) (f : FD2) (k : FD2 → Instr) (ha : f.a.okD = true) (hb : ok f.b = true) :
    dD2 (eD2 m f) ok k = .ok (k f) := by
  simp only [dD2, eD2, fDd, fMajor, fMinor, fGuard, fW, fD, fA, fB, encHead, HAppend.hAppend, Append.append]
  simp only [bit1_lsb, extract_both, extract_low, extract_high, lsb_low, lsb_high, extract_all, Nat.reduceLeDiff, Nat.reduceLT, Nat.reduceAdd, Nat.reduceSub, Nat.le_refl, Nat.zero_le]
  simp [opnd_encOpnd, zeroField, need, bit1_lsb, bind, Except.bind, pure, Except.pure, decChain_enc, ha, hb]

theorem dDzero_enc (f : FD0) :
    dDzero (eD0 f) = .ok (.dzero f) := by
  simp only [dDzero, eD0, fDd, fMajor, fMinor, fGuard, fW, fD, fA, fB, encHead, HAppend.hAppend, Append.append]
  simp only [bit1_lsb, extract_both, extract_low, extract_high, lsb_low, lsb_high, extract_all, Nat.reduceLeDiff, Nat.reduceLT, Nat.reduceAdd, Nat.reduceSub, Nat.le_refl, Nat.zero_le]
  simp [opnd_encOpnd, zeroField, need, bit1_lsb, bind, Except.bind, pure, Except.pure, decChain_enc]

theorem dDnget_enc (f : FDG) (ha : f.a.okD = true) :
    dDnget (eDG f) = .ok (.dnget f) := by
  simp only [dDnget, eDG, fDd, fMajor, fMinor, fGuard, fW, fD, fA, fB, encHead, HAppend.hAppend, Append.append]
  simp only [bit1_lsb, extract_both, extract_low, extract_high, lsb_low, lsb_high, extract_all, Nat.reduceLeDiff, Nat.reduceLT, Nat.reduceAdd, Nat.reduceSub, Nat.le_refl, Nat.zero_le]
  simp [opnd_encOpnd, zeroField, need, bit1_lsb, bind, Except.bind, pure, Except.pure, ha]

theorem dDmaxcos_enc (f : FDM) (ha : f.a.okD = true) :
    dDmaxcos (eDM f) = .ok (.dmaxcos f) := by
  simp only [dDmaxcos, eDM, fDd, fMajor, fMinor, fGuard, fW, fD, fA, fB, encHead, HAppend.hAppend, Append.append]
  simp only [bit1_lsb, extract_both, extract_low, extract_high, lsb_low, lsb_high, extract_all, Nat.reduceLeDiff, Nat.reduceLT, Nat.reduceAdd, Nat.reduceSub, Nat.le_refl, Nat.zero_le]
  simp [opnd_encOpnd, zeroField, need, bit1_lsb, bind, Except.bind, pure, Except.pure, decChain_enc, decOpnd_encOpnd, ha]

theorem dE2_enc (m : BitVec 6) (f : FE2) (k : FE2 → Instr) (ha : f.a.okE = true) (hb : f.b.okE = true) :
    dE2 (eE2 m f) k = .ok (k f) := by
  simp only [dE2, eE2, eMd, mdOk, fMd, fMajor, fMinor, fGuard, fW, fD, fA, fB, encHead, HAppend.hAppend, Append.append]
  simp only [bit1_lsb, extract_both, extract_low, extract_high, lsb_low, lsb_high, extract_all, Nat.reduceLeDiff, Nat.reduceLT, Nat.reduceAdd, Nat.reduceSub, Nat.le_refl, Nat.zero_le]
  simp [opnd_encOpnd, zeroField, need, bit1_lsb, bind, Except.bind, pure, Except.pure, ha, hb]

theorem dE1_enc (m : BitVec 6) (s : BitVec 4) (f : FE1) (k : FE1 → Instr) (ha : f.a.okE = true) :
    dE1 (eE1 m s f) k = .ok (k f) := by
  simp only [dE1, eE1, eMd, mdOk, fMd, fMajor, fMinor, fGuard, fW, fD, fA, fB, encHead, HAppend.hAppend, Append.append]
  simp only [bit1_lsb, extract_both, extract_low, extract_high, lsb_low, lsb_high, extract_all, Nat.reduceLeDiff, Nat.reduceLT, Nat.reduceAdd, Nat.reduceSub, Nat.le_refl, Nat.zero_le]
  simp [opnd_encOpnd, zeroField, need, bit1_lsb, bind, Except.bind, pure, Except.pure, ha]

theorem dEA_enc (m : BitVec 6) (f : FA) (k : FA → Instr) (ha : f.a.okE = true) :
    dEA (eA m 0 f) k = .ok (k f) := by
  simp only [dEA, eA, fMajor, fMinor, fGuard, fW, fD, fA, fB, encHead, HAppend.hAppend, Append.append]
  simp only [bit1_lsb, extract_both, extract_low, extract_high, lsb_low, lsb_high, extract_all, Nat.reduceLeDiff, Nat.reduceLT, Nat.reduceAdd, Nat.reduceSub, Nat.le_refl, Nat.zero_le]
  simp [opnd_encOpnd, zeroField, need, bit1_lsb, bind, Except.bind, pure, Except.pure, ha]

theorem dEAB_enc (m : BitVec 6) (f : FAB) (k : FAB → Instr) (ha : f.a.okE = true) (hb : f.b.okE = true) :
    dEAB (eAB m 0 f) k = .ok (k f) := by
  simp only [dEAB, eAB, fMajor, fMinor, fGuard, fW, fD, fA, fB, encHead, HAppend.hAppend, Append.append]
  simp only [bit1_lsb, extract_both, extract_low, extract_high, lsb_low, lsb_high, extract_all, Nat.reduceLeDiff, Nat.reduceLT, Nat.reduceAdd, Nat.reduceSub, Nat.le_refl, Nat.zero_le]
  simp [opnd_encOpnd, zeroField, need, bit1_lsb, bind, Except.bind, pure, Except.pure, ha, hb]

theorem dRset_enc (f : FRset) (ha : f.a.okE = true) :
    dRset (eRset f) = .ok (.rset f) := by
  simp only [dRset, eRset, fMajor, fMinor, fGuard, fW, fD, fA, fB, encHead, HAppend.hAppend, Append.append]
  simp only [bit1_lsb, extract_both, extract_low, extract_high, lsb_low, lsb_high, extract_all, Nat.reduceLeDiff, Nat.reduceLT, Nat.reduceAdd, Nat.reduceSub, Nat.le_refl, Nat.zero_le]
  simp [opnd_encOpnd, zeroField, need, bit1_lsb, bind, Except.bind, pure, Except.pure, ha]

theorem dPortA_enc (m : BitVec 6) (s : BitVec 4) (f : FPortA) (k : FPortA → Instr) (ha : f.a.okE = true) :
    dPortA (ePortA m s f) k = .ok (k f) := by
  simp only [dPortA, ePortA, eMd, mdOk, fMd, fMajor, fMinor, fGuard, fW, fD, fA, fB, encHead, HAppend.hAppend, Append.append]
  simp only [bit1_lsb, extract_both, extract_low, extract_high, lsb_low, lsb_high, extract_all, Nat.reduceLeDiff, Nat.reduceLT, Nat.reduceAdd, Nat.reduceSub, Nat.le_refl, Nat.zero_le]
  simp [opnd_encOpnd, zeroField, need, bit1_lsb, bind, Except.bind, pure, Except.pure, ha]

theorem dSunbind_enc (f : FPort) :
    dSunbind (ePort f) = .ok (.sunbind f) := by
  simp only [dSunbind, ePort, eMd, mdOk, fMd, fMajor, fMinor, fGuard, fW, fD, fA, fB, encHead, HAppend.hAppend, Append.append]
  simp only [bit1_lsb, extract_both, extract_low, extract_high, lsb_low, lsb_high, extract_all, Nat.reduceLeDiff, Nat.reduceLT, Nat.reduceAdd, Nat.reduceSub, Nat.le_refl, Nat.zero_le]
  simp [opnd_encOpnd, zeroField, need, bit1_lsb, bind, Except.bind, pure, Except.pure]

theorem dCopy_enc (f : FCopy) (ha : f.a.okE = true) (hb : f.b.okE = true) :
    dCopy (eCopy f) = .ok (.copy f) := by
  simp only [dCopy, eCopy, eMd, mdOk, fMd, fMajor, fMinor, fGuard, fW, fD, fA, fB, encHead, HAppend.hAppend, Append.append]
  simp only [bit1_lsb, extract_both, extract_low, extract_high, lsb_low, lsb_high, extract_all, Nat.reduceLeDiff, Nat.reduceLT, Nat.reduceAdd, Nat.reduceSub, Nat.le_refl, Nat.zero_le]
  simp [opnd_encOpnd, zeroField, need, bit1_lsb, bind, Except.bind, pure, Except.pure, ha, hb]

theorem dRelease_enc (f : FRel) (ha : f.a.okE = true) (hb : f.b.okE = true) :
    dRelease (eRel f) = .ok (.release f) := by
  simp only [dRelease, eRel, eMd, mdOk, fMd, fMajor, fMinor, fGuard, fW, fD, fA, fB, encHead, HAppend.hAppend, Append.append]
  simp only [bit1_lsb, extract_both, extract_low, extract_high, lsb_low, lsb_high, extract_all, Nat.reduceLeDiff, Nat.reduceLT, Nat.reduceAdd, Nat.reduceSub, Nat.le_refl, Nat.zero_le]
  simp [opnd_encOpnd, zeroField, need, bit1_lsb, bind, Except.bind, pure, Except.pure, ha, hb]

theorem dTrpush_enc (f : FTrpush) :
    dTrpush (eTrpush f) = .ok (.trpush f) := by
  simp only [dTrpush, eTrpush, fVFile, fMajor, fMinor, fGuard, fW, fD, fA, fB, encHead, HAppend.hAppend, Append.append]
  simp only [bit1_lsb, extract_both, extract_low, extract_high, lsb_low, lsb_high, extract_all, Nat.reduceLeDiff, Nat.reduceLT, Nat.reduceAdd, Nat.reduceSub, Nat.le_refl, Nat.zero_le]
  simp [opnd_encOpnd, zeroField, need, bit1_lsb, bind, Except.bind, pure, Except.pure, vfile_enc]

theorem dTrpull_enc (f : FTrpull) :
    dTrpull (eTrpull f) = .ok (.trpull f) := by
  simp only [dTrpull, eTrpull, fVFile, fMajor, fMinor, fGuard, fW, fD, fA, fB, encHead, HAppend.hAppend, Append.append]
  simp only [bit1_lsb, extract_both, extract_low, extract_high, lsb_low, lsb_high, extract_all, Nat.reduceLeDiff, Nat.reduceLT, Nat.reduceAdd, Nat.reduceSub, Nat.le_refl, Nat.zero_le]
  simp [opnd_encOpnd, zeroField, need, bit1_lsb, bind, Except.bind, pure, Except.pure, vfile_enc]

theorem dMcall_enc (f : FMcall) :
    dMcall (eMcall f) = .ok (.mcall f) := by
  simp only [dMcall, eMcall, fMajor, fMinor, fGuard, fW, fD, fA, fB, encHead, HAppend.hAppend, Append.append]
  simp only [bit1_lsb, extract_both, extract_low, extract_high, lsb_low, lsb_high, extract_all, Nat.reduceLeDiff, Nat.reduceLT, Nat.reduceAdd, Nat.reduceSub, Nat.le_refl, Nat.zero_le]
  simp [opnd_encOpnd, zeroField, need, bit1_lsb, bind, Except.bind, pure, Except.pure]

theorem eZ_major (maj : BitVec 6) (f : FZ) :
    fMajor (eZ maj f) = maj := by
  simp only [fMajor, eZ, encHead, HAppend.hAppend, Append.append]
  simp only [extract_low, extract_high, extract_all, Nat.reduceLeDiff, Nat.reduceLT, Nat.reduceAdd, Nat.reduceSub, Nat.le_refl, Nat.zero_le]

theorem eZsub_major (maj : BitVec 6) (sub : BitVec 4) (f : FZ) :
    fMajor (eZsub maj sub f) = maj := by
  simp only [fMajor, eZsub, encHead, HAppend.hAppend, Append.append]
  simp only [extract_low, extract_high, extract_all, Nat.reduceLeDiff, Nat.reduceLT, Nat.reduceAdd, Nat.reduceSub, Nat.le_refl, Nat.zero_le]

theorem eZsub_minor (maj : BitVec 6) (sub : BitVec 4) (f : FZ) :
    fMinor (eZsub maj sub f) = sub := by
  simp only [fMinor, eZsub, encHead, HAppend.hAppend, Append.append]
  simp only [extract_low, extract_high, extract_all, Nat.reduceLeDiff, Nat.reduceLT, Nat.reduceAdd, Nat.reduceSub, Nat.le_refl, Nat.zero_le]

theorem eS3_major (maj : BitVec 6) (sub : BitVec 4) (f : FS3) :
    fMajor (eS3 maj sub f) = maj := by
  simp only [fMajor, eS3, encHead, HAppend.hAppend, Append.append]
  simp only [extract_low, extract_high, extract_all, Nat.reduceLeDiff, Nat.reduceLT, Nat.reduceAdd, Nat.reduceSub, Nat.le_refl, Nat.zero_le]

theorem eS3_minor (maj : BitVec 6) (sub : BitVec 4) (f : FS3) :
    fMinor (eS3 maj sub f) = sub := by
  simp only [fMinor, eS3, encHead, HAppend.hAppend, Append.append]
  simp only [extract_low, extract_high, extract_all, Nat.reduceLeDiff, Nat.reduceLT, Nat.reduceAdd, Nat.reduceSub, Nat.le_refl, Nat.zero_le]

theorem eS2_major (maj : BitVec 6) (sub : BitVec 4) (f : FS2) :
    fMajor (eS2 maj sub f) = maj := by
  simp only [fMajor, eS2, encHead, HAppend.hAppend, Append.append]
  simp only [extract_low, extract_high, extract_all, Nat.reduceLeDiff, Nat.reduceLT, Nat.reduceAdd, Nat.reduceSub, Nat.le_refl, Nat.zero_le]

theorem eS2_minor (maj : BitVec 6) (sub : BitVec 4) (f : FS2) :
    fMinor (eS2 maj sub f) = sub := by
  simp only [fMinor, eS2, encHead, HAppend.hAppend, Append.append]
  simp only [extract_low, extract_high, extract_all, Nat.reduceLeDiff, Nat.reduceLT, Nat.reduceAdd, Nat.reduceSub, Nat.le_refl, Nat.zero_le]

theorem eA_major (maj : BitVec 6) (sub : BitVec 4) (f : FA) :
    fMajor (eA maj sub f) = maj := by
  simp only [fMajor, eA, encHead, HAppend.hAppend, Append.append]
  simp only [extract_low, extract_high, extract_all, Nat.reduceLeDiff, Nat.reduceLT, Nat.reduceAdd, Nat.reduceSub, Nat.le_refl, Nat.zero_le]

theorem eA_minor (maj : BitVec 6) (sub : BitVec 4) (f : FA) :
    fMinor (eA maj sub f) = sub := by
  simp only [fMinor, eA, encHead, HAppend.hAppend, Append.append]
  simp only [extract_low, extract_high, extract_all, Nat.reduceLeDiff, Nat.reduceLT, Nat.reduceAdd, Nat.reduceSub, Nat.le_refl, Nat.zero_le]

theorem eAB_major (maj : BitVec 6) (sub : BitVec 4) (f : FAB) :
    fMajor (eAB maj sub f) = maj := by
  simp only [fMajor, eAB, encHead, HAppend.hAppend, Append.append]
  simp only [extract_low, extract_high, extract_all, Nat.reduceLeDiff, Nat.reduceLT, Nat.reduceAdd, Nat.reduceSub, Nat.le_refl, Nat.zero_le]

theorem eAB_minor (maj : BitVec 6) (sub : BitVec 4) (f : FAB) :
    fMinor (eAB maj sub f) = sub := by
  simp only [fMinor, eAB, encHead, HAppend.hAppend, Append.append]
  simp only [extract_low, extract_high, extract_all, Nat.reduceLeDiff, Nat.reduceLT, Nat.reduceAdd, Nat.reduceSub, Nat.le_refl, Nat.zero_le]

theorem eSel_major (f : FSel) :
    fMajor (eSel f) = 0x17 := by
  simp only [fMajor, eSel, encHead, HAppend.hAppend, Append.append]
  simp only [extract_low, extract_high, extract_all, Nat.reduceLeDiff, Nat.reduceLT, Nat.reduceAdd, Nat.reduceSub, Nat.le_refl, Nat.zero_le]

theorem eSI_major (maj : BitVec 6) (f : FSI) :
    fMajor (eSI maj f) = maj := by
  simp only [fMajor, eSI, encHead, HAppend.hAppend, Append.append]
  simp only [extract_low, extract_high, extract_all, Nat.reduceLeDiff, Nat.reduceLT, Nat.reduceAdd, Nat.reduceSub, Nat.le_refl, Nat.zero_le]

theorem eSH_major (kind : BitVec 2) (f : FSH) :
    fMajor (eSH kind f) = 0x1C := by
  simp only [fMajor, eSH, encHead, HAppend.hAppend, Append.append]
  simp only [extract_low, extract_high, extract_all, Nat.reduceLeDiff, Nat.reduceLT, Nat.reduceAdd, Nat.reduceSub, Nat.le_refl, Nat.zero_le]

theorem eSL_major (maj : BitVec 6) (f : FSL) :
    fMajor (eSL maj f) = maj := by
  simp only [fMajor, eSL, encHead, HAppend.hAppend, Append.append]
  simp only [extract_low, extract_high, extract_all, Nat.reduceLeDiff, Nat.reduceLT, Nat.reduceAdd, Nat.reduceSub, Nat.le_refl, Nat.zero_le]

theorem ePC_major (f : FPC) :
    fMajor (ePC f) = 0x1F := by
  simp only [fMajor, ePC, encHead, HAppend.hAppend, Append.append]
  simp only [extract_low, extract_high, extract_all, Nat.reduceLeDiff, Nat.reduceLT, Nat.reduceAdd, Nat.reduceSub, Nat.le_refl, Nat.zero_le]

theorem ePL_major (f : FPL) :
    fMajor (ePL f) = 0x20 := by
  simp only [fMajor, ePL, encHead, HAppend.hAppend, Append.append]
  simp only [extract_low, extract_high, extract_all, Nat.reduceLeDiff, Nat.reduceLT, Nat.reduceAdd, Nat.reduceSub, Nat.le_refl, Nat.zero_le]

theorem eBR_major (maj : BitVec 6) (f : FBR) :
    fMajor (eBR maj f) = maj := by
  simp only [fMajor, eBR, encHead, HAppend.hAppend, Append.append]
  simp only [extract_low, extract_high, extract_all, Nat.reduceLeDiff, Nat.reduceLT, Nat.reduceAdd, Nat.reduceSub, Nat.le_refl, Nat.zero_le]

theorem eBS_major (f : FBS) :
    fMajor (eBS f) = 0x25 := by
  simp only [fMajor, eBS, encHead, HAppend.hAppend, Append.append]
  simp only [extract_low, extract_high, extract_all, Nat.reduceLeDiff, Nat.reduceLT, Nat.reduceAdd, Nat.reduceSub, Nat.le_refl, Nat.zero_le]

theorem eLd_major (maj : BitVec 6) (f : FLd) :
    fMajor (eLd maj f) = maj := by
  simp only [fMajor, eLd, encHead, HAppend.hAppend, Append.append]
  simp only [extract_low, extract_high, extract_all, Nat.reduceLeDiff, Nat.reduceLT, Nat.reduceAdd, Nat.reduceSub, Nat.le_refl, Nat.zero_le]

theorem eSt_major (f : FSt) :
    fMajor (eSt f) = 0x29 := by
  simp only [fMajor, eSt, encHead, HAppend.hAppend, Append.append]
  simp only [extract_low, extract_high, extract_all, Nat.reduceLeDiff, Nat.reduceLT, Nat.reduceAdd, Nat.reduceSub, Nat.le_refl, Nat.zero_le]

theorem eLdfe_major (f : FLdfe) :
    fMajor (eLdfe f) = 0x2A := by
  simp only [fMajor, eLdfe, encHead, HAppend.hAppend, Append.append]
  simp only [extract_low, extract_high, extract_all, Nat.reduceLeDiff, Nat.reduceLT, Nat.reduceAdd, Nat.reduceSub, Nat.le_refl, Nat.zero_le]

theorem eStfe_major (f : FStfe) :
    fMajor (eStfe f) = 0x2B := by
  simp only [fMajor, eStfe, encHead, HAppend.hAppend, Append.append]
  simp only [extract_low, extract_high, extract_all, Nat.reduceLeDiff, Nat.reduceLT, Nat.reduceAdd, Nat.reduceSub, Nat.le_refl, Nat.zero_le]

theorem ePld_major (f : FPld) :
    fMajor (ePld f) = 0x2C := by
  simp only [fMajor, ePld, encHead, HAppend.hAppend, Append.append]
  simp only [extract_low, extract_high, extract_all, Nat.reduceLeDiff, Nat.reduceLT, Nat.reduceAdd, Nat.reduceSub, Nat.le_refl, Nat.zero_le]

theorem eXmov_major (f : FXmov) :
    fMajor (eXmov f) = 0x2D := by
  simp only [fMajor, eXmov, encHead, HAppend.hAppend, Append.append]
  simp only [extract_low, extract_high, extract_all, Nat.reduceLeDiff, Nat.reduceLT, Nat.reduceAdd, Nat.reduceSub, Nat.le_refl, Nat.zero_le]

theorem eSR_major (f : FSR) :
    fMajor (eSR f) = 0x2E := by
  simp only [fMajor, eSR, encHead, HAppend.hAppend, Append.append]
  simp only [extract_low, extract_high, extract_all, Nat.reduceLeDiff, Nat.reduceLT, Nat.reduceAdd, Nat.reduceSub, Nat.le_refl, Nat.zero_le]

theorem eSW_major (f : FSW) :
    fMajor (eSW f) = 0x2F := by
  simp only [fMajor, eSW, encHead, HAppend.hAppend, Append.append]
  simp only [extract_low, extract_high, extract_all, Nat.reduceLeDiff, Nat.reduceLT, Nat.reduceAdd, Nat.reduceSub, Nat.le_refl, Nat.zero_le]

theorem eLda_major (f : FLda) :
    fMajor (eLda f) = 0x31 := by
  simp only [fMajor, eLda, encHead, HAppend.hAppend, Append.append]
  simp only [extract_low, extract_high, extract_all, Nat.reduceLeDiff, Nat.reduceLT, Nat.reduceAdd, Nat.reduceSub, Nat.le_refl, Nat.zero_le]

theorem eStl_major (f : FStl) :
    fMajor (eStl f) = 0x32 := by
  simp only [fMajor, eStl, encHead, HAppend.hAppend, Append.append]
  simp only [extract_low, extract_high, extract_all, Nat.reduceLeDiff, Nat.reduceLT, Nat.reduceAdd, Nat.reduceSub, Nat.le_refl, Nat.zero_le]

theorem eFence_major (f : FFence) :
    fMajor (eFence f) = 0x33 := by
  simp only [fMajor, eFence, encHead, HAppend.hAppend, Append.append]
  simp only [extract_low, extract_high, extract_all, Nat.reduceLeDiff, Nat.reduceLT, Nat.reduceAdd, Nat.reduceSub, Nat.le_refl, Nat.zero_le]

theorem ePhase_major (f : FPhase) :
    fMajor (ePhase f) = 0x3A := by
  simp only [fMajor, ePhase, encHead, HAppend.hAppend, Append.append]
  simp only [extract_low, extract_high, extract_all, Nat.reduceLeDiff, Nat.reduceLT, Nat.reduceAdd, Nat.reduceSub, Nat.le_refl, Nat.zero_le]

theorem eTrap_major (f : FTrap) :
    fMajor (eTrap f) = 0x3C := by
  simp only [fMajor, eTrap, encHead, HAppend.hAppend, Append.append]
  simp only [extract_low, extract_high, extract_all, Nat.reduceLeDiff, Nat.reduceLT, Nat.reduceAdd, Nat.reduceSub, Nat.le_refl, Nat.zero_le]

theorem eV3_major {Q : Type} (maj : BitVec 6) (eq : Q → BitVec 2) (f : FV3 Q) :
    fMajor (eV3 maj eq f) = maj := by
  simp only [fMajor, eV3, encHead, HAppend.hAppend, Append.append]
  simp only [extract_low, extract_high, extract_all, Nat.reduceLeDiff, Nat.reduceLT, Nat.reduceAdd, Nat.reduceSub, Nat.le_refl, Nat.zero_le]

theorem eV1_major {Q : Type} (maj : BitVec 6) (eq : Q → BitVec 2) (f : FV1 Q) :
    fMajor (eV1 maj eq f) = maj := by
  simp only [fMajor, eV1, encHead, HAppend.hAppend, Append.append]
  simp only [extract_low, extract_high, extract_all, Nat.reduceLeDiff, Nat.reduceLT, Nat.reduceAdd, Nat.reduceSub, Nat.le_refl, Nat.zero_le]

theorem eV1n_major (maj : BitVec 6) (f : FV1n) :
    fMajor (eV1n maj f) = maj := by
  simp only [fMajor, eV1n, encHead, HAppend.hAppend, Append.append]
  simp only [extract_low, extract_high, extract_all, Nat.reduceLeDiff, Nat.reduceLT, Nat.reduceAdd, Nat.reduceSub, Nat.le_refl, Nat.zero_le]

theorem eVpush_major (f : FVpush) :
    fMajor (eVpush f) = 0x28 := by
  simp only [fMajor, eVpush, encHead, HAppend.hAppend, Append.append]
  simp only [extract_low, extract_high, extract_all, Nat.reduceLeDiff, Nat.reduceLT, Nat.reduceAdd, Nat.reduceSub, Nat.le_refl, Nat.zero_le]

theorem eVC_major {C Q : Type} (maj : BitVec 6) (ec : C → BitVec 2) (eq : Q → BitVec 2) (f : FVC C Q) :
    fMajor (eVC maj ec eq f) = maj := by
  simp only [fMajor, eVC, encHead, HAppend.hAppend, Append.append]
  simp only [extract_low, extract_high, extract_all, Nat.reduceLeDiff, Nat.reduceLT, Nat.reduceAdd, Nat.reduceSub, Nat.le_refl, Nat.zero_le]

theorem eVK_major (f : FVK) :
    fMajor (eVK f) = 0x1F := by
  simp only [fMajor, eVK, encHead, HAppend.hAppend, Append.append]
  simp only [extract_low, extract_high, extract_all, Nat.reduceLeDiff, Nat.reduceLT, Nat.reduceAdd, Nat.reduceSub, Nat.le_refl, Nat.zero_le]

theorem eKL_major (f : FKL) :
    fMajor (eKL f) = 0x29 := by
  simp only [fMajor, eKL, encHead, HAppend.hAppend, Append.append]
  simp only [extract_low, extract_high, extract_all, Nat.reduceLeDiff, Nat.reduceLT, Nat.reduceAdd, Nat.reduceSub, Nat.le_refl, Nat.zero_le]

theorem eRed_major (f : FRed) :
    fMajor (eRed f) = 0x20 := by
  simp only [fMajor, eRed, encHead, HAppend.hAppend, Append.append]
  simp only [extract_low, extract_high, extract_all, Nat.reduceLeDiff, Nat.reduceLT, Nat.reduceAdd, Nat.reduceSub, Nat.le_refl, Nat.zero_le]

theorem eLane_major (maj : BitVec 6) (f : FLane) :
    fMajor (eLane maj f) = maj := by
  simp only [fMajor, eLane, encHead, HAppend.hAppend, Append.append]
  simp only [extract_low, extract_high, extract_all, Nat.reduceLeDiff, Nat.reduceLT, Nat.reduceAdd, Nat.reduceSub, Nat.le_refl, Nat.zero_le]

theorem eCvt_major (f : FCvt) :
    fMajor (eCvt f) = 0x25 := by
  simp only [fMajor, eCvt, encHead, HAppend.hAppend, Append.append]
  simp only [extract_low, extract_high, extract_all, Nat.reduceLeDiff, Nat.reduceLT, Nat.reduceAdd, Nat.reduceSub, Nat.le_refl, Nat.zero_le]

theorem ePack_major (maj : BitVec 6) (f : FPack) :
    fMajor (ePack maj f) = maj := by
  simp only [fMajor, ePack, encHead, HAppend.hAppend, Append.append]
  simp only [extract_low, extract_high, extract_all, Nat.reduceLeDiff, Nat.reduceLT, Nat.reduceAdd, Nat.reduceSub, Nat.le_refl, Nat.zero_le]

theorem eVld_major (maj : BitVec 6) (f : FVld) :
    fMajor (eVld maj f) = maj := by
  simp only [fMajor, eVld, encHead, HAppend.hAppend, Append.append]
  simp only [extract_low, extract_high, extract_all, Nat.reduceLeDiff, Nat.reduceLT, Nat.reduceAdd, Nat.reduceSub, Nat.le_refl, Nat.zero_le]

theorem eVst_major (f : FVst) :
    fMajor (eVst f) = 0x2C := by
  simp only [fMajor, eVst, encHead, HAppend.hAppend, Append.append]
  simp only [extract_low, extract_high, extract_all, Nat.reduceLeDiff, Nat.reduceLT, Nat.reduceAdd, Nat.reduceSub, Nat.le_refl, Nat.zero_le]

theorem eScat_major (f : FScat) :
    fMajor (eScat f) = 0x2F := by
  simp only [fMajor, eScat, encHead, HAppend.hAppend, Append.append]
  simp only [extract_low, extract_high, extract_all, Nat.reduceLeDiff, Nat.reduceLT, Nat.reduceAdd, Nat.reduceSub, Nat.le_refl, Nat.zero_le]

theorem eD1_major (maj : BitVec 6) (s : BitVec 1) (f : FD1) :
    fMajor (eD1 maj s f) = maj := by
  simp only [fMajor, eD1, encHead, HAppend.hAppend, Append.append]
  simp only [extract_low, extract_high, extract_all, Nat.reduceLeDiff, Nat.reduceLT, Nat.reduceAdd, Nat.reduceSub, Nat.le_refl, Nat.zero_le]

theorem eDN_major (maj : BitVec 6) (f : FDN) :
    fMajor (eDN maj f) = maj := by
  simp only [fMajor, eDN, encHead, HAppend.hAppend, Append.append]
  simp only [extract_low, extract_high, extract_all, Nat.reduceLeDiff, Nat.reduceLT, Nat.reduceAdd, Nat.reduceSub, Nat.le_refl, Nat.zero_le]

theorem eD2_major (maj : BitVec 6) (f : FD2) :
    fMajor (eD2 maj f) = maj := by
  simp only [fMajor, eD2, encHead, HAppend.hAppend, Append.append]
  simp only [extract_low, extract_high, extract_all, Nat.reduceLeDiff, Nat.reduceLT, Nat.reduceAdd, Nat.reduceSub, Nat.le_refl, Nat.zero_le]

theorem eD0_major (f : FD0) :
    fMajor (eD0 f) = 0x33 := by
  simp only [fMajor, eD0, encHead, HAppend.hAppend, Append.append]
  simp only [extract_low, extract_high, extract_all, Nat.reduceLeDiff, Nat.reduceLT, Nat.reduceAdd, Nat.reduceSub, Nat.le_refl, Nat.zero_le]

theorem eDG_major (f : FDG) :
    fMajor (eDG f) = 0x3B := by
  simp only [fMajor, eDG, encHead, HAppend.hAppend, Append.append]
  simp only [extract_low, extract_high, extract_all, Nat.reduceLeDiff, Nat.reduceLT, Nat.reduceAdd, Nat.reduceSub, Nat.le_refl, Nat.zero_le]

theorem eDM_major (f : FDM) :
    fMajor (eDM f) = 0x3A := by
  simp only [fMajor, eDM, encHead, HAppend.hAppend, Append.append]
  simp only [extract_low, extract_high, extract_all, Nat.reduceLeDiff, Nat.reduceLT, Nat.reduceAdd, Nat.reduceSub, Nat.le_refl, Nat.zero_le]

theorem eE2_major (maj : BitVec 6) (f : FE2) :
    fMajor (eE2 maj f) = maj := by
  simp only [fMajor, eE2, encHead, HAppend.hAppend, Append.append, eMd]
  simp only [extract_low, extract_high, extract_all, Nat.reduceLeDiff, Nat.reduceLT, Nat.reduceAdd, Nat.reduceSub, Nat.le_refl, Nat.zero_le]

theorem eE1_major (maj : BitVec 6) (sub : BitVec 4) (f : FE1) :
    fMajor (eE1 maj sub f) = maj := by
  simp only [fMajor, eE1, encHead, HAppend.hAppend, Append.append, eMd]
  simp only [extract_low, extract_high, extract_all, Nat.reduceLeDiff, Nat.reduceLT, Nat.reduceAdd, Nat.reduceSub, Nat.le_refl, Nat.zero_le]

theorem eE1_minor (maj : BitVec 6) (sub : BitVec 4) (f : FE1) :
    fMinor (eE1 maj sub f) = sub := by
  simp only [fMinor, eE1, encHead, HAppend.hAppend, Append.append, eMd]
  simp only [extract_low, extract_high, extract_all, Nat.reduceLeDiff, Nat.reduceLT, Nat.reduceAdd, Nat.reduceSub, Nat.le_refl, Nat.zero_le]

theorem eRset_major (f : FRset) :
    fMajor (eRset f) = 0x04 := by
  simp only [fMajor, eRset, encHead, HAppend.hAppend, Append.append]
  simp only [extract_low, extract_high, extract_all, Nat.reduceLeDiff, Nat.reduceLT, Nat.reduceAdd, Nat.reduceSub, Nat.le_refl, Nat.zero_le]

theorem eRstat_major (f : FRstat) :
    fMajor (eRstat f) = 0x06 := by
  simp only [fMajor, eRstat, encHead, HAppend.hAppend, Append.append, eMd]
  simp only [extract_low, extract_high, extract_all, Nat.reduceLeDiff, Nat.reduceLT, Nat.reduceAdd, Nat.reduceSub, Nat.le_refl, Nat.zero_le]

theorem ePortA_major (maj : BitVec 6) (sub : BitVec 4) (f : FPortA) :
    fMajor (ePortA maj sub f) = maj := by
  simp only [fMajor, ePortA, encHead, HAppend.hAppend, Append.append, eMd]
  simp only [extract_low, extract_high, extract_all, Nat.reduceLeDiff, Nat.reduceLT, Nat.reduceAdd, Nat.reduceSub, Nat.le_refl, Nat.zero_le]

theorem ePortA_minor (maj : BitVec 6) (sub : BitVec 4) (f : FPortA) :
    fMinor (ePortA maj sub f) = sub := by
  simp only [fMinor, ePortA, encHead, HAppend.hAppend, Append.append, eMd]
  simp only [extract_low, extract_high, extract_all, Nat.reduceLeDiff, Nat.reduceLT, Nat.reduceAdd, Nat.reduceSub, Nat.le_refl, Nat.zero_le]

theorem ePort_major (f : FPort) :
    fMajor (ePort f) = 0x08 := by
  simp only [fMajor, ePort, encHead, HAppend.hAppend, Append.append, eMd]
  simp only [extract_low, extract_high, extract_all, Nat.reduceLeDiff, Nat.reduceLT, Nat.reduceAdd, Nat.reduceSub, Nat.le_refl, Nat.zero_le]

theorem eCopy_major (f : FCopy) :
    fMajor (eCopy f) = 0x0B := by
  simp only [fMajor, eCopy, encHead, HAppend.hAppend, Append.append, eMd]
  simp only [extract_low, extract_high, extract_all, Nat.reduceLeDiff, Nat.reduceLT, Nat.reduceAdd, Nat.reduceSub, Nat.le_refl, Nat.zero_le]

theorem eRel_major (f : FRel) :
    fMajor (eRel f) = 0x15 := by
  simp only [fMajor, eRel, encHead, HAppend.hAppend, Append.append, eMd]
  simp only [extract_low, extract_high, extract_all, Nat.reduceLeDiff, Nat.reduceLT, Nat.reduceAdd, Nat.reduceSub, Nat.le_refl, Nat.zero_le]

theorem eCstat_major (f : FCstat) :
    fMajor (eCstat f) = 0x0D := by
  simp only [fMajor, eCstat, encHead, HAppend.hAppend, Append.append, eMd]
  simp only [extract_low, extract_high, extract_all, Nat.reduceLeDiff, Nat.reduceLT, Nat.reduceAdd, Nat.reduceSub, Nat.le_refl, Nat.zero_le]

theorem eHwait_major (f : FHwait) :
    fMajor (eHwait f) = 0x0F := by
  simp only [fMajor, eHwait, encHead, HAppend.hAppend, Append.append, eMd]
  simp only [extract_low, extract_high, extract_all, Nat.reduceLeDiff, Nat.reduceLT, Nat.reduceAdd, Nat.reduceSub, Nat.le_refl, Nat.zero_le]

theorem eRnd_major (f : FRnd) :
    fMajor (eRnd f) = 0x18 := by
  simp only [fMajor, eRnd, encHead, HAppend.hAppend, Append.append, eMd]
  simp only [extract_low, extract_high, extract_all, Nat.reduceLeDiff, Nat.reduceLT, Nat.reduceAdd, Nat.reduceSub, Nat.le_refl, Nat.zero_le]

theorem eTrpush_major (f : FTrpush) :
    fMajor (eTrpush f) = 0x12 := by
  simp only [fMajor, eTrpush, encHead, HAppend.hAppend, Append.append]
  simp only [extract_low, extract_high, extract_all, Nat.reduceLeDiff, Nat.reduceLT, Nat.reduceAdd, Nat.reduceSub, Nat.le_refl, Nat.zero_le]

theorem eTrpull_major (f : FTrpull) :
    fMajor (eTrpull f) = 0x13 := by
  simp only [fMajor, eTrpull, encHead, HAppend.hAppend, Append.append]
  simp only [extract_low, extract_high, extract_all, Nat.reduceLeDiff, Nat.reduceLT, Nat.reduceAdd, Nat.reduceSub, Nat.le_refl, Nat.zero_le]

theorem eMcall_major (f : FMcall) :
    fMajor (eMcall f) = 0x03 := by
  simp only [fMajor, eMcall, encHead, HAppend.hAppend, Append.append]
  simp only [extract_low, extract_high, extract_all, Nat.reduceLeDiff, Nat.reduceLT, Nat.reduceAdd, Nat.reduceSub, Nat.le_refl, Nat.zero_le]
theorem dSH_shli (f : FSH) (ha : f.a.okS = true) :
    dSH (eSH 0 f) = .ok (.shli f) := by
  simp only [dSH, eSH, fMajor, fMinor, fGuard, fW, fD, fA, fB, encHead, HAppend.hAppend, Append.append]
  simp only [bit1_lsb, extract_both, extract_low, extract_high, extract_all, Nat.reduceLeDiff, Nat.reduceLT, Nat.reduceAdd, Nat.reduceSub, Nat.le_refl, Nat.zero_le, lsb_low, lsb_high]
  simp [opnd_encOpnd, zeroField, need, bit1_lsb, bind, Except.bind, pure, Except.pure, ha]

theorem dSH_shri (f : FSH) (ha : f.a.okS = true) :
    dSH (eSH 1 f) = .ok (.shri f) := by
  simp only [dSH, eSH, fMajor, fMinor, fGuard, fW, fD, fA, fB, encHead, HAppend.hAppend, Append.append]
  simp only [bit1_lsb, extract_both, extract_low, extract_high, extract_all, Nat.reduceLeDiff, Nat.reduceLT, Nat.reduceAdd, Nat.reduceSub, Nat.le_refl, Nat.zero_le, lsb_low, lsb_high]
  simp [opnd_encOpnd, zeroField, need, bit1_lsb, bind, Except.bind, pure, Except.pure, ha]

theorem dSH_sari (f : FSH) (ha : f.a.okS = true) :
    dSH (eSH 2 f) = .ok (.sari f) := by
  simp only [dSH, eSH, fMajor, fMinor, fGuard, fW, fD, fA, fB, encHead, HAppend.hAppend, Append.append]
  simp only [bit1_lsb, extract_both, extract_low, extract_high, extract_all, Nat.reduceLeDiff, Nat.reduceLT, Nat.reduceAdd, Nat.reduceSub, Nat.le_refl, Nat.zero_le, lsb_low, lsb_high]
  simp [opnd_encOpnd, zeroField, need, bit1_lsb, bind, Except.bind, pure, Except.pure, ha]

theorem dCT_trap (f : FTrap) :
    dCT (eTrap f) = .ok (.trap f) := by
  simp only [dCT, eTrap, fMajor, fMinor, fGuard, fW, fD, fA, fB, encHead, HAppend.hAppend, Append.append]
  simp only [bit1_lsb, extract_both, extract_low, extract_high, extract_all, Nat.reduceLeDiff, Nat.reduceLT, Nat.reduceAdd, Nat.reduceSub, Nat.le_refl, Nat.zero_le, lsb_low, lsb_high]
  simp [opnd_encOpnd, zeroField, need, bit1_lsb, bind, Except.bind, pure, Except.pure]

theorem dCT_eret (f : FZ) :
    dCT (eZsub 0x3C 1 f) = .ok (.eret f) := by
  simp only [dCT, eZsub, fMajor, fMinor, fGuard, fW, fD, fA, fB, encHead, HAppend.hAppend, Append.append]
  simp only [bit1_lsb, extract_both, extract_low, extract_high, extract_all, Nat.reduceLeDiff, Nat.reduceLT, Nat.reduceAdd, Nat.reduceSub, Nat.le_refl, Nat.zero_le, lsb_low, lsb_high]
  simp [opnd_encOpnd, zeroField, need, bit1_lsb, bind, Except.bind, pure, Except.pure]

theorem dCT_yield (f : FZ) :
    dCT (eZsub 0x3C 2 f) = .ok (.yield f) := by
  simp only [dCT, eZsub, fMajor, fMinor, fGuard, fW, fD, fA, fB, encHead, HAppend.hAppend, Append.append]
  simp only [bit1_lsb, extract_both, extract_low, extract_high, extract_all, Nat.reduceLeDiff, Nat.reduceLT, Nat.reduceAdd, Nat.reduceSub, Nat.le_refl, Nat.zero_le, lsb_low, lsb_high]
  simp [opnd_encOpnd, zeroField, need, bit1_lsb, bind, Except.bind, pure, Except.pure]

theorem dCT_haltctx (f : FZ) :
    dCT (eZsub 0x3C 4 f) = .ok (.haltctx f) := by
  simp only [dCT, eZsub, fMajor, fMinor, fGuard, fW, fD, fA, fB, encHead, HAppend.hAppend, Append.append]
  simp only [bit1_lsb, extract_both, extract_low, extract_high, extract_all, Nat.reduceLeDiff, Nat.reduceLT, Nat.reduceAdd, Nat.reduceSub, Nat.le_refl, Nat.zero_le, lsb_low, lsb_high]
  simp [opnd_encOpnd, zeroField, need, bit1_lsb, bind, Except.bind, pure, Except.pure]

theorem dCT_dbgbrk (f : FZ) :
    dCT (eZsub 0x3C 5 f) = .ok (.dbgbrk f) := by
  simp only [dCT, eZsub, fMajor, fMinor, fGuard, fW, fD, fA, fB, encHead, HAppend.hAppend, Append.append]
  simp only [bit1_lsb, extract_both, extract_low, extract_high, extract_all, Nat.reduceLeDiff, Nat.reduceLT, Nat.reduceAdd, Nat.reduceSub, Nat.le_refl, Nat.zero_le, lsb_low, lsb_high]
  simp [opnd_encOpnd, zeroField, need, bit1_lsb, bind, Except.bind, pure, Except.pure]

theorem dCT_waite (f : FA) (ha : f.a.okS = true) :
    dCT (eA 0x3C 3 f) = .ok (.waite f) := by
  simp only [dCT, eA, fMajor, fMinor, fGuard, fW, fD, fA, fB, encHead, HAppend.hAppend, Append.append]
  simp only [bit1_lsb, extract_both, extract_low, extract_high, extract_all, Nat.reduceLeDiff, Nat.reduceLT, Nat.reduceAdd, Nat.reduceSub, Nat.le_refl, Nat.zero_le, lsb_low, lsb_high]
  simp [opnd_encOpnd, zeroField, need, bit1_lsb, bind, Except.bind, pure, Except.pure, ha]

theorem dCresume_cresumePatch (f : FZ) :
    dCresume (eZsub 0x0C 0 f) = .ok (.cresumePatch f) := by
  simp only [dCresume, eZsub, fMajor, fMinor, fGuard, fW, fD, fA, fB, encHead, HAppend.hAppend, Append.append]
  simp only [bit1_lsb, extract_both, extract_low, extract_high, extract_all, Nat.reduceLeDiff, Nat.reduceLT, Nat.reduceAdd, Nat.reduceSub, Nat.le_refl, Nat.zero_le, lsb_low, lsb_high]
  simp [opnd_encOpnd, zeroField, need, bit1_lsb, bind, Except.bind, pure, Except.pure]

theorem dCresume_cresumeRetry (f : FZ) :
    dCresume (eZsub 0x0C 1 f) = .ok (.cresumeRetry f) := by
  simp only [dCresume, eZsub, fMajor, fMinor, fGuard, fW, fD, fA, fB, encHead, HAppend.hAppend, Append.append]
  simp only [bit1_lsb, extract_both, extract_low, extract_high, extract_all, Nat.reduceLeDiff, Nat.reduceLT, Nat.reduceAdd, Nat.reduceSub, Nat.le_refl, Nat.zero_le, lsb_low, lsb_high]
  simp [opnd_encOpnd, zeroField, need, bit1_lsb, bind, Except.bind, pure, Except.pure]

theorem dCresume_cresumeSkip (f : FZ) :
    dCresume (eZsub 0x0C 2 f) = .ok (.cresumeSkip f) := by
  simp only [dCresume, eZsub, fMajor, fMinor, fGuard, fW, fD, fA, fB, encHead, HAppend.hAppend, Append.append]
  simp only [bit1_lsb, extract_both, extract_low, extract_high, extract_all, Nat.reduceLeDiff, Nat.reduceLT, Nat.reduceAdd, Nat.reduceSub, Nat.le_refl, Nat.zero_le, lsb_low, lsb_high]
  simp [opnd_encOpnd, zeroField, need, bit1_lsb, bind, Except.bind, pure, Except.pure]

theorem dHwait_claim (f : FE1) (ha : f.a.okE = true) :
    dHwait (eE1 0x0F 2 f) = .ok (.hwaitClaim f) := by
  simp only [dHwait, dE1, eE1, eMd, mdOk, fMd, fMajor, fMinor, fGuard, fW, fD, fA, fB, encHead, HAppend.hAppend, Append.append]
  simp only [bit1_lsb, extract_both, extract_low, extract_high, extract_all, Nat.reduceLeDiff, Nat.reduceLT, Nat.reduceAdd, Nat.reduceSub, Nat.le_refl, Nat.zero_le, lsb_low, lsb_high]
  simp [opnd_encOpnd, zeroField, need, bit1_lsb, bind, Except.bind, pure, Except.pure, ha]

theorem dRstat_enc (f : FRstat) (ha : f.a.okE = true) :
    dRstat (eRstat f) = .ok (.rstat f) := by
  obtain ⟨gd, w, md, a, sel⟩ := f
  cases sel <;>
  · simp only [dRstat, eRstat, eMd, mdOk, fMd, fMajor, fMinor, fGuard, fW, fD, fA, fB, encHead, HAppend.hAppend, Append.append]
    simp only [bit1_lsb, extract_low, extract_high, extract_all, Nat.reduceLeDiff, Nat.reduceLT, Nat.reduceAdd, Nat.reduceSub, Nat.le_refl, Nat.zero_le, lsb_low, lsb_high]
    simp [opnd_encOpnd, zeroField, need, bit1_lsb, bind, Except.bind, pure, Except.pure, show a.okE = true from ha]

theorem dCstat_enc (f : FCstat) :
    dCstat (eCstat f) = .ok (.cstat f) := by
  obtain ⟨gd, w, md, sel⟩ := f
  cases sel <;>
  · simp only [dCstat, eCstat, eMd, mdOk, fMd, fMajor, fMinor, fGuard, fW, fD, fA, fB, encHead, HAppend.hAppend, Append.append]
    simp only [bit1_lsb, extract_low, extract_high, extract_all, Nat.reduceLeDiff, Nat.reduceLT, Nat.reduceAdd, Nat.reduceSub, Nat.le_refl, Nat.zero_le, lsb_low, lsb_high]
    simp [opnd_encOpnd, zeroField, need, bit1_lsb, bind, Except.bind, pure, Except.pure]

theorem dHwait_enc (f : FHwait) (ha : f.a.okE = true) :
    dHwait (eHwait f) = .ok (.hwait f) := by
  obtain ⟨gd, w, md, a, sel⟩ := f
  cases sel <;>
  · simp only [dHwait, eHwait, eMd, mdOk, fMd, fMajor, fMinor, fGuard, fW, fD, fA, fB, encHead, HAppend.hAppend, Append.append]
    simp only [bit1_lsb, extract_low, extract_high, extract_all, Nat.reduceLeDiff, Nat.reduceLT, Nat.reduceAdd, Nat.reduceSub, Nat.le_refl, Nat.zero_le, lsb_low, lsb_high]
    simp [opnd_encOpnd, zeroField, need, bit1_lsb, bind, Except.bind, pure, Except.pure, show a.okE = true from ha]

theorem dRndstat_enc (f : FRnd) :
    dRndstat (eRnd f) = .ok (.rndstat f) := by
  obtain ⟨gd, w, md, sel⟩ := f
  cases sel <;>
  · simp only [dRndstat, eRnd, eMd, mdOk, fMd, fMajor, fMinor, fGuard, fW, fD, fA, fB, encHead, HAppend.hAppend, Append.append]
    simp only [bit1_lsb, extract_low, extract_high, extract_all, Nat.reduceLeDiff, Nat.reduceLT, Nat.reduceAdd, Nat.reduceSub, Nat.le_refl, Nat.zero_le, lsb_low, lsb_high]
    simp [opnd_encOpnd, zeroField, need, bit1_lsb, bind, Except.bind, pure, Except.pure]

theorem eD1_bit (m : BitVec 6) (s : BitVec 1) (f : FD1) : (eD1 m s f).getLsbD 0 = s.getLsbD 0 := by
  simp only [eD1, encHead, HAppend.hAppend, Append.append]
  simp only [lsb_low, Nat.reduceLT]

theorem eD1_low (m : BitVec 6) (s : BitVec 1) (f : FD1) : (eD1 m s f).extractLsb' 0 1 = s := by
  simp only [eD1, encHead, HAppend.hAppend, Append.append]
  simp only [extract_low, extract_high, extract_all, Nat.reduceLeDiff, Nat.reduceLT, Nat.reduceAdd, Nat.reduceSub, Nat.le_refl, Nat.zero_le]

end Sys2Proof
end

