-- ==== Sys2Proof/Laws/PerInstr.lean ====
section
/-! SUPPORT. Statements per instruction: what the decoder gives back of an encoded well-formed instruction. -/

set_option linter.unusedSimpArgs false
set_option Elab.async false

namespace Sys2Proof.Laws

/-- Decoding the word of a well-formed instruction in a slot that holds it, or its micro-word, gives it back. -/
def RoundTrip.Statement (i : Instr) : Prop :=
  i.wf = true →
  (∀ k w, i.inSlot k = true → encode i = some w → decodeSlot k w = .ok i) ∧
  (∀ w, encodeMicro i = some w → decodeMicro w = .ok i)

theorem noMicro {w : BitVec 128} {p : Prop} (h : (none : Option (BitVec 128)) = some w) : p := by cases h

theorem noWord {w : BitVec 32} {p : Prop} (h : (none : Option (BitVec 32)) = some w) : p := by cases h

/-! ## Slot instructions -/

theorem RoundTrip.nop (f : FZ) : RoundTrip.Statement (.nop f) := by
  intro h
  refine ⟨fun k w hk he => ?_, fun w he => noMicro he⟩
  obtain rfl := Option.some.inj he
  unfold decodeSlot
  split <;>
    first
    | (unfold decodeSlot0; rw [eZ_major]; exact dZ_enc _ _ _)
    | (unfold decodeSlot1; rw [eZ_major]; unfold decodeVec; rw [eZ_major]; exact dZ_enc _ _ _)
    | (unfold decodeSlot2; rw [eZ_major]; unfold decodeVec; rw [eZ_major]; exact dZ_enc _ _ _)
    | (unfold decodeSlot3; rw [eZ_major]; exact dZ_enc _ _ _)

theorem RoundTrip.add (f : FS3) : RoundTrip.Statement (.add f) := by
  intro h
  refine ⟨fun k w hk he => ?_, fun w he => noMicro he⟩
  obtain rfl := Option.some.inj he
  simp only [Instr.wf, Bool.and_eq_true] at h
  obtain rfl : k = 0 := by simpa [Instr.inSlot] using hk
  show decodeSlot0 _ = _
  unfold decodeSlot0; rw [eS3_major]
  show dS3z _ _ = _
  unfold dS3z; rw [eS3_minor]; exact dS3_enc _ _ _ _ h.1 h.2

theorem RoundTrip.sub (f : FS3) : RoundTrip.Statement (.sub f) := by
  intro h
  refine ⟨fun k w hk he => ?_, fun w he => noMicro he⟩
  obtain rfl := Option.some.inj he
  simp only [Instr.wf, Bool.and_eq_true] at h
  obtain rfl : k = 0 := by simpa [Instr.inSlot] using hk
  show decodeSlot0 _ = _
  unfold decodeSlot0; rw [eS3_major]
  show dS3z _ _ = _
  unfold dS3z; rw [eS3_minor]; exact dS3_enc _ _ _ _ h.1 h.2

theorem RoundTrip.mul (f : FS3) : RoundTrip.Statement (.mul f) := by
  intro h
  refine ⟨fun k w hk he => ?_, fun w he => noMicro he⟩
  obtain rfl := Option.some.inj he
  simp only [Instr.wf, Bool.and_eq_true] at h
  obtain rfl : k = 0 := by simpa [Instr.inSlot] using hk
  show decodeSlot0 _ = _
  unfold decodeSlot0; rw [eS3_major]
  show dS3z _ _ = _
  unfold dS3z; rw [eS3_minor]; exact dS3_enc _ _ _ _ h.1 h.2

theorem RoundTrip.mulh (f : FS3) : RoundTrip.Statement (.mulh f) := by
  intro h
  refine ⟨fun k w hk he => ?_, fun w he => noMicro he⟩
  obtain rfl := Option.some.inj he
  simp only [Instr.wf, Bool.and_eq_true] at h
  obtain rfl : k = 0 := by simpa [Instr.inSlot] using hk
  show decodeSlot0 _ = _
  unfold decodeSlot0; rw [eS3_major]
  show dS3z _ _ = _
  unfold dS3z; rw [eS3_minor]; exact dS3_enc _ _ _ _ h.1 h.2

theorem RoundTrip.mulhu (f : FS3) : RoundTrip.Statement (.mulhu f) := by
  intro h
  refine ⟨fun k w hk he => ?_, fun w he => noMicro he⟩
  obtain rfl := Option.some.inj he
  simp only [Instr.wf, Bool.and_eq_true] at h
  obtain rfl : k = 0 := by simpa [Instr.inSlot] using hk
  show decodeSlot0 _ = _
  unfold decodeSlot0; rw [eS3_major]
  show dS3z _ _ = _
  unfold dS3z; rw [eS3_minor]; exact dS3_enc _ _ _ _ h.1 h.2

theorem RoundTrip.div (f : FS3) : RoundTrip.Statement (.div f) := by
  intro h
  refine ⟨fun k w hk he => ?_, fun w he => noMicro he⟩
  obtain rfl := Option.some.inj he
  simp only [Instr.wf, Bool.and_eq_true] at h
  obtain rfl : k = 0 := by simpa [Instr.inSlot] using hk
  show decodeSlot0 _ = _
  unfold decodeSlot0; rw [eS3_major]
  show dS3z _ _ = _
  unfold dS3z; rw [eS3_minor]; exact dS3_enc _ _ _ _ h.1 h.2

theorem RoundTrip.divu (f : FS3) : RoundTrip.Statement (.divu f) := by
  intro h
  refine ⟨fun k w hk he => ?_, fun w he => noMicro he⟩
  obtain rfl := Option.some.inj he
  simp only [Instr.wf, Bool.and_eq_true] at h
  obtain rfl : k = 0 := by simpa [Instr.inSlot] using hk
  show decodeSlot0 _ = _
  unfold decodeSlot0; rw [eS3_major]
  show dS3z _ _ = _
  unfold dS3z; rw [eS3_minor]; exact dS3_enc _ _ _ _ h.1 h.2

theorem RoundTrip.rem (f : FS3) : RoundTrip.Statement (.rem f) := by
  intro h
  refine ⟨fun k w hk he => ?_, fun w he => noMicro he⟩
  obtain rfl := Option.some.inj he
  simp only [Instr.wf, Bool.and_eq_true] at h
  obtain rfl : k = 0 := by simpa [Instr.inSlot] using hk
  show decodeSlot0 _ = _
  unfold decodeSlot0; rw [eS3_major]
  show dS3z _ _ = _
  unfold dS3z; rw [eS3_minor]; exact dS3_enc _ _ _ _ h.1 h.2

theorem RoundTrip.remu (f : FS3) : RoundTrip.Statement (.remu f) := by
  intro h
  refine ⟨fun k w hk he => ?_, fun w he => noMicro he⟩
  obtain rfl := Option.some.inj he
  simp only [Instr.wf, Bool.and_eq_true] at h
  obtain rfl : k = 0 := by simpa [Instr.inSlot] using hk
  show decodeSlot0 _ = _
  unfold decodeSlot0; rw [eS3_major]
  show dS3z _ _ = _
  unfold dS3z; rw [eS3_minor]; exact dS3_enc _ _ _ _ h.1 h.2

theorem RoundTrip.and (f : FS3) : RoundTrip.Statement (.and f) := by
  intro h
  refine ⟨fun k w hk he => ?_, fun w he => noMicro he⟩
  obtain rfl := Option.some.inj he
  simp only [Instr.wf, Bool.and_eq_true] at h
  obtain rfl : k = 0 := by simpa [Instr.inSlot] using hk
  show decodeSlot0 _ = _
  unfold decodeSlot0; rw [eS3_major]
  show dS3z _ _ = _
  unfold dS3z; rw [eS3_minor]; exact dS3_enc _ _ _ _ h.1 h.2

theorem RoundTrip.or (f : FS3) : RoundTrip.Statement (.or f) := by
  intro h
  refine ⟨fun k w hk he => ?_, fun w he => noMicro he⟩
  obtain rfl := Option.some.inj he
  simp only [Instr.wf, Bool.and_eq_true] at h
  obtain rfl : k = 0 := by simpa [Instr.inSlot] using hk
  show decodeSlot0 _ = _
  unfold decodeSlot0; rw [eS3_major]
  show dS3z _ _ = _
  unfold dS3z; rw [eS3_minor]; exact dS3_enc _ _ _ _ h.1 h.2

theorem RoundTrip.xor (f : FS3) : RoundTrip.Statement (.xor f) := by
  intro h
  refine ⟨fun k w hk he => ?_, fun w he => noMicro he⟩
  obtain rfl := Option.some.inj he
  simp only [Instr.wf, Bool.and_eq_true] at h
  obtain rfl : k = 0 := by simpa [Instr.inSlot] using hk
  show decodeSlot0 _ = _
  unfold decodeSlot0; rw [eS3_major]
  show dS3z _ _ = _
  unfold dS3z; rw [eS3_minor]; exact dS3_enc _ _ _ _ h.1 h.2

theorem RoundTrip.andn (f : FS3) : RoundTrip.Statement (.andn f) := by
  intro h
  refine ⟨fun k w hk he => ?_, fun w he => noMicro he⟩
  obtain rfl := Option.some.inj he
  simp only [Instr.wf, Bool.and_eq_true] at h
  obtain rfl : k = 0 := by simpa [Instr.inSlot] using hk
  show decodeSlot0 _ = _
  unfold decodeSlot0; rw [eS3_major]
  show dS3z _ _ = _
  unfold dS3z; rw [eS3_minor]; exact dS3_enc _ _ _ _ h.1 h.2

theorem RoundTrip.shl (f : FS3) : RoundTrip.Statement (.shl f) := by
  intro h
  refine ⟨fun k w hk he => ?_, fun w he => noMicro he⟩
  obtain rfl := Option.some.inj he
  simp only [Instr.wf, Bool.and_eq_true] at h
  obtain rfl : k = 0 := by simpa [Instr.inSlot] using hk
  show decodeSlot0 _ = _
  unfold decodeSlot0; rw [eS3_major]
  show dS3z _ _ = _
  unfold dS3z; rw [eS3_minor]; exact dS3_enc _ _ _ _ h.1 h.2

theorem RoundTrip.shr (f : FS3) : RoundTrip.Statement (.shr f) := by
  intro h
  refine ⟨fun k w hk he => ?_, fun w he => noMicro he⟩
  obtain rfl := Option.some.inj he
  simp only [Instr.wf, Bool.and_eq_true] at h
  obtain rfl : k = 0 := by simpa [Instr.inSlot] using hk
  show decodeSlot0 _ = _
  unfold decodeSlot0; rw [eS3_major]
  show dS3z _ _ = _
  unfold dS3z; rw [eS3_minor]; exact dS3_enc _ _ _ _ h.1 h.2

theorem RoundTrip.sar (f : FS3) : RoundTrip.Statement (.sar f) := by
  intro h
  refine ⟨fun k w hk he => ?_, fun w he => noMicro he⟩
  obtain rfl := Option.some.inj he
  simp only [Instr.wf, Bool.and_eq_true] at h
  obtain rfl : k = 0 := by simpa [Instr.inSlot] using hk
  show decodeSlot0 _ = _
  unfold decodeSlot0; rw [eS3_major]
  show dS3z _ _ = _
  unfold dS3z; rw [eS3_minor]; exact dS3_enc _ _ _ _ h.1 h.2

theorem RoundTrip.min (f : FS3) : RoundTrip.Statement (.min f) := by
  intro h
  refine ⟨fun k w hk he => ?_, fun w he => noMicro he⟩
  obtain rfl := Option.some.inj he
  simp only [Instr.wf, Bool.and_eq_true] at h
  obtain rfl : k = 0 := by simpa [Instr.inSlot] using hk
  show decodeSlot0 _ = _
  unfold decodeSlot0; rw [eS3_major]
  show dS3z _ _ = _
  unfold dS3z; rw [eS3_minor]; exact dS3_enc _ _ _ _ h.1 h.2

theorem RoundTrip.max (f : FS3) : RoundTrip.Statement (.max f) := by
  intro h
  refine ⟨fun k w hk he => ?_, fun w he => noMicro he⟩
  obtain rfl := Option.some.inj he
  simp only [Instr.wf, Bool.and_eq_true] at h
  obtain rfl : k = 0 := by simpa [Instr.inSlot] using hk
  show decodeSlot0 _ = _
  unfold decodeSlot0; rw [eS3_major]
  show dS3z _ _ = _
  unfold dS3z; rw [eS3_minor]; exact dS3_enc _ _ _ _ h.1 h.2

theorem RoundTrip.minu (f : FS3) : RoundTrip.Statement (.minu f) := by
  intro h
  refine ⟨fun k w hk he => ?_, fun w he => noMicro he⟩
  obtain rfl := Option.some.inj he
  simp only [Instr.wf, Bool.and_eq_true] at h
  obtain rfl : k = 0 := by simpa [Instr.inSlot] using hk
  show decodeSlot0 _ = _
  unfold decodeSlot0; rw [eS3_major]
  show dS3z _ _ = _
  unfold dS3z; rw [eS3_minor]; exact dS3_enc _ _ _ _ h.1 h.2

theorem RoundTrip.maxu (f : FS3) : RoundTrip.Statement (.maxu f) := by
  intro h
  refine ⟨fun k w hk he => ?_, fun w he => noMicro he⟩
  obtain rfl := Option.some.inj he
  simp only [Instr.wf, Bool.and_eq_true] at h
  obtain rfl : k = 0 := by simpa [Instr.inSlot] using hk
  show decodeSlot0 _ = _
  unfold decodeSlot0; rw [eS3_major]
  show dS3z _ _ = _
  unfold dS3z; rw [eS3_minor]; exact dS3_enc _ _ _ _ h.1 h.2

theorem RoundTrip.clz (f : FS2) : RoundTrip.Statement (.clz f) := by
  intro h
  refine ⟨fun k w hk he => ?_, fun w he => noMicro he⟩
  obtain rfl := Option.some.inj he
  simp only [Instr.wf] at h
  obtain rfl : k = 0 := by simpa [Instr.inSlot] using hk
  show decodeSlot0 _ = _
  unfold decodeSlot0; rw [eS2_major]
  rw [eS2_minor]; exact dS2_enc _ _ _ _ h

theorem RoundTrip.ctz (f : FS2) : RoundTrip.Statement (.ctz f) := by
  intro h
  refine ⟨fun k w hk he => ?_, fun w he => noMicro he⟩
  obtain rfl := Option.some.inj he
  simp only [Instr.wf] at h
  obtain rfl : k = 0 := by simpa [Instr.inSlot] using hk
  show decodeSlot0 _ = _
  unfold decodeSlot0; rw [eS2_major]
  rw [eS2_minor]; exact dS2_enc _ _ _ _ h

theorem RoundTrip.popc (f : FS2) : RoundTrip.Statement (.popc f) := by
  intro h
  refine ⟨fun k w hk he => ?_, fun w he => noMicro he⟩
  obtain rfl := Option.some.inj he
  simp only [Instr.wf] at h
  obtain rfl : k = 0 := by simpa [Instr.inSlot] using hk
  show decodeSlot0 _ = _
  unfold decodeSlot0; rw [eS2_major]
  rw [eS2_minor]; exact dS2_enc _ _ _ _ h

theorem RoundTrip.sel (f : FSel) : RoundTrip.Statement (.sel f) := by
  intro h
  refine ⟨fun k w hk he => ?_, fun w he => noMicro he⟩
  obtain rfl := Option.some.inj he
  simp only [Instr.wf, Bool.and_eq_true] at h
  obtain rfl : k = 0 := by simpa [Instr.inSlot] using hk
  show decodeSlot0 _ = _
  unfold decodeSlot0; rw [eSel_major]
  exact dSel_enc _ h.1 h.2

theorem RoundTrip.addi (f : FSI) : RoundTrip.Statement (.addi f) := by
  intro h
  refine ⟨fun k w hk he => ?_, fun w he => noMicro he⟩
  obtain rfl := Option.some.inj he
  simp only [Instr.wf] at h
  obtain rfl : k = 0 := by simpa [Instr.inSlot] using hk
  show decodeSlot0 _ = _
  unfold decodeSlot0; rw [eSI_major]
  exact dSI_enc _ _ _ h

theorem RoundTrip.andi (f : FSI) : RoundTrip.Statement (.andi f) := by
  intro h
  refine ⟨fun k w hk he => ?_, fun w he => noMicro he⟩
  obtain rfl := Option.some.inj he
  simp only [Instr.wf] at h
  obtain rfl : k = 0 := by simpa [Instr.inSlot] using hk
  show decodeSlot0 _ = _
  unfold decodeSlot0; rw [eSI_major]
  exact dSI_enc _ _ _ h

theorem RoundTrip.ori (f : FSI) : RoundTrip.Statement (.ori f) := by
  intro h
  refine ⟨fun k w hk he => ?_, fun w he => noMicro he⟩
  obtain rfl := Option.some.inj he
  simp only [Instr.wf] at h
  obtain rfl : k = 0 := by simpa [Instr.inSlot] using hk
  show decodeSlot0 _ = _
  unfold decodeSlot0; rw [eSI_major]
  exact dSI_enc _ _ _ h

theorem RoundTrip.xori (f : FSI) : RoundTrip.Statement (.xori f) := by
  intro h
  refine ⟨fun k w hk he => ?_, fun w he => noMicro he⟩
  obtain rfl := Option.some.inj he
  simp only [Instr.wf] at h
  obtain rfl : k = 0 := by simpa [Instr.inSlot] using hk
  show decodeSlot0 _ = _
  unfold decodeSlot0; rw [eSI_major]
  exact dSI_enc _ _ _ h

theorem RoundTrip.shli (f : FSH) : RoundTrip.Statement (.shli f) := by
  intro h
  refine ⟨fun k w hk he => ?_, fun w he => noMicro he⟩
  obtain rfl := Option.some.inj he
  simp only [Instr.wf] at h
  obtain rfl : k = 0 := by simpa [Instr.inSlot] using hk
  show decodeSlot0 _ = _
  unfold decodeSlot0; rw [eSH_major]
  exact dSH_shli _ h

theorem RoundTrip.shri (f : FSH) : RoundTrip.Statement (.shri f) := by
  intro h
  refine ⟨fun k w hk he => ?_, fun w he => noMicro he⟩
  obtain rfl := Option.some.inj he
  simp only [Instr.wf] at h
  obtain rfl : k = 0 := by simpa [Instr.inSlot] using hk
  show decodeSlot0 _ = _
  unfold decodeSlot0; rw [eSH_major]
  exact dSH_shri _ h

theorem RoundTrip.sari (f : FSH) : RoundTrip.Statement (.sari f) := by
  intro h
  refine ⟨fun k w hk he => ?_, fun w he => noMicro he⟩
  obtain rfl := Option.some.inj he
  simp only [Instr.wf] at h
  obtain rfl : k = 0 := by simpa [Instr.inSlot] using hk
  show decodeSlot0 _ = _
  unfold decodeSlot0; rw [eSH_major]
  exact dSH_sari _ h

theorem RoundTrip.movi (f : FSL) : RoundTrip.Statement (.movi f) := by
  intro h
  refine ⟨fun k w hk he => ?_, fun w he => noMicro he⟩
  obtain rfl := Option.some.inj he
  obtain rfl : k = 0 := by simpa [Instr.inSlot] using hk
  show decodeSlot0 _ = _
  unfold decodeSlot0; rw [eSL_major]
  exact dSL_enc _ _ _

theorem RoundTrip.movsh (f : FSL) : RoundTrip.Statement (.movsh f) := by
  intro h
  refine ⟨fun k w hk he => ?_, fun w he => noMicro he⟩
  obtain rfl := Option.some.inj he
  obtain rfl : k = 0 := by simpa [Instr.inSlot] using hk
  show decodeSlot0 _ = _
  unfold decodeSlot0; rw [eSL_major]
  exact dSL_enc _ _ _

theorem RoundTrip.cmp (f : FPC) : RoundTrip.Statement (.cmp f) := by
  intro h
  refine ⟨fun k w hk he => ?_, fun w he => noMicro he⟩
  obtain rfl := Option.some.inj he
  simp only [Instr.wf, Bool.and_eq_true] at h
  obtain rfl : k = 0 := by simpa [Instr.inSlot] using hk
  show decodeSlot0 _ = _
  unfold decodeSlot0; rw [ePC_major]
  exact dPC_enc _ h.1 h.2

theorem RoundTrip.plog (f : FPL) : RoundTrip.Statement (.plog f) := by
  intro h
  refine ⟨fun k w hk he => ?_, fun w he => noMicro he⟩
  obtain rfl := Option.some.inj he
  simp only [Instr.wf] at h
  obtain rfl : k = 0 := by simpa [Instr.inSlot] using hk
  show decodeSlot0 _ = _
  unfold decodeSlot0; rw [ePL_major]
  exact dPL_enc _ h

theorem RoundTrip.br (f : FBR) : RoundTrip.Statement (.br f) := by
  intro h
  refine ⟨fun k w hk he => ?_, fun w he => noMicro he⟩
  obtain rfl := Option.some.inj he
  obtain rfl : k = 0 := by simpa [Instr.inSlot] using hk
  show decodeSlot0 _ = _
  unfold decodeSlot0; rw [eBR_major]
  exact dBR_enc _ _ _

theorem RoundTrip.call (f : FBR) : RoundTrip.Statement (.call f) := by
  intro h
  refine ⟨fun k w hk he => ?_, fun w he => noMicro he⟩
  obtain rfl := Option.some.inj he
  obtain rfl : k = 0 := by simpa [Instr.inSlot] using hk
  show decodeSlot0 _ = _
  unfold decodeSlot0; rw [eBR_major]
  exact dBR_enc _ _ _

theorem RoundTrip.calli (f : FA) : RoundTrip.Statement (.calli f) := by
  intro h
  refine ⟨fun k w hk he => ?_, fun w he => noMicro he⟩
  obtain rfl := Option.some.inj he
  simp only [Instr.wf] at h
  obtain rfl : k = 0 := by simpa [Instr.inSlot] using hk
  show decodeSlot0 _ = _
  unfold decodeSlot0; rw [eA_major]
  exact dCI_enc _ _ _ h

theorem RoundTrip.ret (f : FZ) : RoundTrip.Statement (.ret f) := by
  intro h
  refine ⟨fun k w hk he => ?_, fun w he => noMicro he⟩
  obtain rfl := Option.some.inj he
  obtain rfl : k = 0 := by simpa [Instr.inSlot] using hk
  show decodeSlot0 _ = _
  unfold decodeSlot0; rw [eZ_major]
  exact dZ_enc _ _ _

theorem RoundTrip.bswap (f : FBS) : RoundTrip.Statement (.bswap f) := by
  intro h
  refine ⟨fun k w hk he => ?_, fun w he => noMicro he⟩
  obtain rfl := Option.some.inj he
  obtain rfl : k = 0 := by simpa [Instr.inSlot] using hk
  show decodeSlot0 _ = _
  unfold decodeSlot0; rw [eBS_major]
  exact dBS_enc _

theorem RoundTrip.ifence (f : FZ) : RoundTrip.Statement (.ifence f) := by
  intro h
  refine ⟨fun k w hk he => ?_, fun w he => noMicro he⟩
  obtain rfl := Option.some.inj he
  obtain rfl : k = 0 := by simpa [Instr.inSlot] using hk
  show decodeSlot0 _ = _
  unfold decodeSlot0; rw [eZ_major]
  exact dZ_enc _ _ _

theorem RoundTrip.ld (f : FLd) : RoundTrip.Statement (.ld f) := by
  intro h
  refine ⟨fun k w hk he => ?_, fun w he => noMicro he⟩
  obtain rfl := Option.some.inj he
  simp only [Instr.wf] at h
  obtain rfl : k = 0 := by simpa [Instr.inSlot] using hk
  show decodeSlot0 _ = _
  unfold decodeSlot0; rw [eLd_major]
  exact dLd_enc _ _ _ _ h rfl

theorem RoundTrip.lds (f : FLd) : RoundTrip.Statement (.lds f) := by
  intro h
  refine ⟨fun k w hk he => ?_, fun w he => noMicro he⟩
  obtain rfl := Option.some.inj he
  simp only [Instr.wf, Bool.and_eq_true] at h
  obtain rfl : k = 0 := by simpa [Instr.inSlot] using hk
  show decodeSlot0 _ = _
  unfold decodeSlot0; rw [eLd_major]
  exact dLd_enc _ _ _ _ h.1 (by simpa using h.2)

theorem RoundTrip.st (f : FSt) : RoundTrip.Statement (.st f) := by
  intro h
  refine ⟨fun k w hk he => ?_, fun w he => noMicro he⟩
  obtain rfl := Option.some.inj he
  simp only [Instr.wf] at h
  obtain rfl : k = 0 := by simpa [Instr.inSlot] using hk
  show decodeSlot0 _ = _
  unfold decodeSlot0; rw [eSt_major]
  exact dSt_enc _ h

theorem RoundTrip.ldfe (f : FLdfe) : RoundTrip.Statement (.ldfe f) := by
  intro h
  refine ⟨fun k w hk he => ?_, fun w he => noMicro he⟩
  obtain rfl := Option.some.inj he
  simp only [Instr.wf] at h
  obtain rfl : k = 0 := by simpa [Instr.inSlot] using hk
  show decodeSlot0 _ = _
  unfold decodeSlot0; rw [eLdfe_major]
  exact dLdfe_enc _ h

theorem RoundTrip.stfe (f : FStfe) : RoundTrip.Statement (.stfe f) := by
  intro h
  refine ⟨fun k w hk he => ?_, fun w he => noMicro he⟩
  obtain rfl := Option.some.inj he
  simp only [Instr.wf] at h
  obtain rfl : k = 0 := by simpa [Instr.inSlot] using hk
  show decodeSlot0 _ = _
  unfold decodeSlot0; rw [eStfe_major]
  exact dStfe_enc _ h

theorem RoundTrip.pld (f : FPld) : RoundTrip.Statement (.pld f) := by
  intro h
  refine ⟨fun k w hk he => ?_, fun w he => noMicro he⟩
  obtain rfl := Option.some.inj he
  simp only [Instr.wf] at h
  obtain rfl : k = 0 := by simpa [Instr.inSlot] using hk
  show decodeSlot0 _ = _
  unfold decodeSlot0; rw [ePld_major]
  exact dPld_enc _ h

theorem RoundTrip.xmov (f : FXmov) : RoundTrip.Statement (.xmov f) := by
  intro h
  refine ⟨fun k w hk he => ?_, fun w he => noMicro he⟩
  obtain rfl := Option.some.inj he
  simp only [Instr.wf] at h
  obtain rfl : k = 0 := by simpa [Instr.inSlot] using hk
  show decodeSlot0 _ = _
  unfold decodeSlot0; rw [eXmov_major]
  simp only [FXmov.ok, Bool.and_eq_true] at h
  exact dXmov_enc _ h.1.1.1 h.1.1.2 (by simp only [FXmov.ok, Bool.and_eq_true]; exact h)

theorem RoundTrip.sysr (f : FSR) : RoundTrip.Statement (.sysr f) := by
  intro h
  refine ⟨fun k w hk he => ?_, fun w he => noMicro he⟩
  obtain rfl := Option.some.inj he
  obtain rfl : k = 0 := by simpa [Instr.inSlot] using hk
  show decodeSlot0 _ = _
  unfold decodeSlot0; rw [eSR_major]
  exact dSR_enc _

theorem RoundTrip.sysw (f : FSW) : RoundTrip.Statement (.sysw f) := by
  intro h
  refine ⟨fun k w hk he => ?_, fun w he => noMicro he⟩
  obtain rfl := Option.some.inj he
  obtain rfl : k = 0 := by simpa [Instr.inSlot] using hk
  show decodeSlot0 _ = _
  unfold decodeSlot0; rw [eSW_major]
  exact dSW_enc _

theorem RoundTrip.setfmt (f : FA) : RoundTrip.Statement (.setfmt f) := by
  intro h
  refine ⟨fun k w hk he => ?_, fun w he => noMicro he⟩
  obtain rfl := Option.some.inj he
  simp only [Instr.wf] at h
  obtain rfl : k = 0 := by simpa [Instr.inSlot] using hk
  show decodeSlot0 _ = _
  unfold decodeSlot0; rw [eA_major]
  exact dCI_enc _ _ _ h

theorem RoundTrip.lda (f : FLda) : RoundTrip.Statement (.lda f) := by
  intro h
  refine ⟨fun k w hk he => ?_, fun w he => noMicro he⟩
  obtain rfl := Option.some.inj he
  simp only [Instr.wf] at h
  obtain rfl : k = 0 := by simpa [Instr.inSlot] using hk
  show decodeSlot0 _ = _
  unfold decodeSlot0; rw [eLda_major]
  exact dLda_enc _ h

theorem RoundTrip.stl (f : FStl) : RoundTrip.Statement (.stl f) := by
  intro h
  refine ⟨fun k w hk he => ?_, fun w he => noMicro he⟩
  obtain rfl := Option.some.inj he
  simp only [Instr.wf] at h
  obtain rfl : k = 0 := by simpa [Instr.inSlot] using hk
  show decodeSlot0 _ = _
  unfold decodeSlot0; rw [eStl_major]
  exact dStl_enc _ h

theorem RoundTrip.fence (f : FFence) : RoundTrip.Statement (.fence f) := by
  intro h
  refine ⟨fun k w hk he => ?_, fun w he => noMicro he⟩
  obtain rfl := Option.some.inj he
  obtain rfl : k = 0 := by simpa [Instr.inSlot] using hk
  show decodeSlot0 _ = _
  unfold decodeSlot0; rw [eFence_major]
  exact dFence_enc _

theorem RoundTrip.vsync (f : FZ) : RoundTrip.Statement (.vsync f) := by
  intro h
  refine ⟨fun k w hk he => ?_, fun w he => noMicro he⟩
  obtain rfl := Option.some.inj he
  obtain rfl : k = 0 := by simpa [Instr.inSlot] using hk
  show decodeSlot0 _ = _
  unfold decodeSlot0; rw [eZ_major]
  exact dZ_enc _ _ _

theorem RoundTrip.aadd (f : FS3) : RoundTrip.Statement (.aadd f) := by
  intro h
  refine ⟨fun k w hk he => ?_, fun w he => noMicro he⟩
  obtain rfl := Option.some.inj he
  simp only [Instr.wf, Bool.and_eq_true] at h
  obtain rfl : k = 0 := by simpa [Instr.inSlot] using hk
  show decodeSlot0 _ = _
  unfold decodeSlot0; rw [eS3_major]
  rw [eS3_minor]; exact dS3_enc _ _ _ _ h.1 h.2

theorem RoundTrip.aand (f : FS3) : RoundTrip.Statement (.aand f) := by
  intro h
  refine ⟨fun k w hk he => ?_, fun w he => noMicro he⟩
  obtain rfl := Option.some.inj he
  simp only [Instr.wf, Bool.and_eq_true] at h
  obtain rfl : k = 0 := by simpa [Instr.inSlot] using hk
  show decodeSlot0 _ = _
  unfold decodeSlot0; rw [eS3_major]
  rw [eS3_minor]; exact dS3_enc _ _ _ _ h.1 h.2

theorem RoundTrip.aor (f : FS3) : RoundTrip.Statement (.aor f) := by
  intro h
  refine ⟨fun k w hk he => ?_, fun w he => noMicro he⟩
  obtain rfl := Option.some.inj he
  simp only [Instr.wf, Bool.and_eq_true] at h
  obtain rfl : k = 0 := by simpa [Instr.inSlot] using hk
  show decodeSlot0 _ = _
  unfold decodeSlot0; rw [eS3_major]
  rw [eS3_minor]; exact dS3_enc _ _ _ _ h.1 h.2

theorem RoundTrip.axor (f : FS3) : RoundTrip.Statement (.axor f) := by
  intro h
  refine ⟨fun k w hk he => ?_, fun w he => noMicro he⟩
  obtain rfl := Option.some.inj he
  simp only [Instr.wf, Bool.and_eq_true] at h
  obtain rfl : k = 0 := by simpa [Instr.inSlot] using hk
  show decodeSlot0 _ = _
  unfold decodeSlot0; rw [eS3_major]
  rw [eS3_minor]; exact dS3_enc _ _ _ _ h.1 h.2

theorem RoundTrip.amin (f : FS3) : RoundTrip.Statement (.amin f) := by
  intro h
  refine ⟨fun k w hk he => ?_, fun w he => noMicro he⟩
  obtain rfl := Option.some.inj he
  simp only [Instr.wf, Bool.and_eq_true] at h
  obtain rfl : k = 0 := by simpa [Instr.inSlot] using hk
  show decodeSlot0 _ = _
  unfold decodeSlot0; rw [eS3_major]
  rw [eS3_minor]; exact dS3_enc _ _ _ _ h.1 h.2

theorem RoundTrip.amax (f : FS3) : RoundTrip.Statement (.amax f) := by
  intro h
  refine ⟨fun k w hk he => ?_, fun w he => noMicro he⟩
  obtain rfl := Option.some.inj he
  simp only [Instr.wf, Bool.and_eq_true] at h
  obtain rfl : k = 0 := by simpa [Instr.inSlot] using hk
  show decodeSlot0 _ = _
  unfold decodeSlot0; rw [eS3_major]
  rw [eS3_minor]; exact dS3_enc _ _ _ _ h.1 h.2

theorem RoundTrip.aminu (f : FS3) : RoundTrip.Statement (.aminu f) := by
  intro h
  refine ⟨fun k w hk he => ?_, fun w he => noMicro he⟩
  obtain rfl := Option.some.inj he
  simp only [Instr.wf, Bool.and_eq_true] at h
  obtain rfl : k = 0 := by simpa [Instr.inSlot] using hk
  show decodeSlot0 _ = _
  unfold decodeSlot0; rw [eS3_major]
  rw [eS3_minor]; exact dS3_enc _ _ _ _ h.1 h.2

theorem RoundTrip.amaxu (f : FS3) : RoundTrip.Statement (.amaxu f) := by
  intro h
  refine ⟨fun k w hk he => ?_, fun w he => noMicro he⟩
  obtain rfl := Option.some.inj he
  simp only [Instr.wf, Bool.and_eq_true] at h
  obtain rfl : k = 0 := by simpa [Instr.inSlot] using hk
  show decodeSlot0 _ = _
  unfold decodeSlot0; rw [eS3_major]
  rw [eS3_minor]; exact dS3_enc _ _ _ _ h.1 h.2

theorem RoundTrip.aswap (f : FS3) : RoundTrip.Statement (.aswap f) := by
  intro h
  refine ⟨fun k w hk he => ?_, fun w he => noMicro he⟩
  obtain rfl := Option.some.inj he
  simp only [Instr.wf, Bool.and_eq_true] at h
  obtain rfl : k = 0 := by simpa [Instr.inSlot] using hk
  show decodeSlot0 _ = _
  unfold decodeSlot0; rw [eS3_major]
  rw [eS3_minor]; exact dS3_enc _ _ _ _ h.1 h.2

theorem RoundTrip.acas (f : FS3) : RoundTrip.Statement (.acas f) := by
  intro h
  refine ⟨fun k w hk he => ?_, fun w he => noMicro he⟩
  obtain rfl := Option.some.inj he
  simp only [Instr.wf, Bool.and_eq_true] at h
  obtain rfl : k = 0 := by simpa [Instr.inSlot] using hk
  show decodeSlot0 _ = _
  unfold decodeSlot0; rw [eS3_major]
  show dS3z _ _ = _
  unfold dS3z; rw [eS3_minor]; exact dS3_enc _ _ _ _ h.1 h.2

theorem RoundTrip.afadd (f : FAB) : RoundTrip.Statement (.afadd f) := by
  intro h
  refine ⟨fun k w hk he => ?_, fun w he => noMicro he⟩
  obtain rfl := Option.some.inj he
  simp only [Instr.wf, Bool.and_eq_true] at h
  obtain rfl : k = 0 := by simpa [Instr.inSlot] using hk
  show decodeSlot0 _ = _
  unfold decodeSlot0; rw [eAB_major]
  rw [eAB_minor]; exact dAB_enc _ _ _ _ h.1 h.2

theorem RoundTrip.axread (f : FS2) : RoundTrip.Statement (.axread f) := by
  intro h
  refine ⟨fun k w hk he => ?_, fun w he => noMicro he⟩
  obtain rfl := Option.some.inj he
  simp only [Instr.wf] at h
  obtain rfl : k = 0 := by simpa [Instr.inSlot] using hk
  show decodeSlot0 _ = _
  unfold decodeSlot0; rw [eS2_major]
  rw [eS2_minor]; exact dS2_enc _ _ _ _ h

theorem RoundTrip.axclr (f : FA) : RoundTrip.Statement (.axclr f) := by
  intro h
  refine ⟨fun k w hk he => ?_, fun w he => noMicro he⟩
  obtain rfl := Option.some.inj he
  simp only [Instr.wf] at h
  obtain rfl : k = 0 := by simpa [Instr.inSlot] using hk
  show decodeSlot0 _ = _
  unfold decodeSlot0; rw [eA_major]
  rw [eA_minor]; exact dA_enc _ _ _ _ h

theorem RoundTrip.gjoin (f : FA) : RoundTrip.Statement (.gjoin f) := by
  intro h
  refine ⟨fun k w hk he => ?_, fun w he => noMicro he⟩
  obtain rfl := Option.some.inj he
  simp only [Instr.wf] at h
  obtain rfl : k = 0 := by simpa [Instr.inSlot] using hk
  show decodeSlot0 _ = _
  unfold decodeSlot0; rw [eA_major]
  rw [eA_minor]; exact dA_enc _ _ _ _ h

theorem RoundTrip.gleave (f : FA) : RoundTrip.Statement (.gleave f) := by
  intro h
  refine ⟨fun k w hk he => ?_, fun w he => noMicro he⟩
  obtain rfl := Option.some.inj he
  simp only [Instr.wf] at h
  obtain rfl : k = 0 := by simpa [Instr.inSlot] using hk
  show decodeSlot0 _ = _
  unfold decodeSlot0; rw [eA_major]
  rw [eA_minor]; exact dA_enc _ _ _ _ h

theorem RoundTrip.gbar (f : FA) : RoundTrip.Statement (.gbar f) := by
  intro h
  refine ⟨fun k w hk he => ?_, fun w he => noMicro he⟩
  obtain rfl := Option.some.inj he
  simp only [Instr.wf] at h
  obtain rfl : k = 0 := by simpa [Instr.inSlot] using hk
  show decodeSlot0 _ = _
  unfold decodeSlot0; rw [eA_major]
  rw [eA_minor]; exact dA_enc _ _ _ _ h

theorem RoundTrip.gquery (f : FS2) : RoundTrip.Statement (.gquery f) := by
  intro h
  refine ⟨fun k w hk he => ?_, fun w he => noMicro he⟩
  obtain rfl := Option.some.inj he
  simp only [Instr.wf] at h
  obtain rfl : k = 0 := by simpa [Instr.inSlot] using hk
  show decodeSlot0 _ = _
  unfold decodeSlot0; rw [eS2_major]
  rw [eS2_minor]; exact dS2_enc _ _ _ _ h

theorem RoundTrip.snapadv (f : FAB) : RoundTrip.Statement (.snapadv f) := by
  intro h
  refine ⟨fun k w hk he => ?_, fun w he => noMicro he⟩
  obtain rfl := Option.some.inj he
  simp only [Instr.wf, Bool.and_eq_true] at h
  obtain rfl : k = 0 := by simpa [Instr.inSlot] using hk
  show decodeSlot0 _ = _
  unfold decodeSlot0; rw [eAB_major]
  rw [eAB_minor]; exact dAB_enc _ _ _ _ h.1 h.2

theorem RoundTrip.phase (f : FPhase) : RoundTrip.Statement (.phase f) := by
  intro h
  refine ⟨fun k w hk he => ?_, fun w he => noMicro he⟩
  obtain rfl := Option.some.inj he
  simp only [Instr.wf] at h
  obtain rfl : k = 0 := by simpa [Instr.inSlot] using hk
  show decodeSlot0 _ = _
  unfold decodeSlot0; rw [ePhase_major]
  exact dPhase_enc _ h

theorem RoundTrip.lblget (f : FS2) : RoundTrip.Statement (.lblget f) := by
  intro h
  refine ⟨fun k w hk he => ?_, fun w he => noMicro he⟩
  obtain rfl := Option.some.inj he
  simp only [Instr.wf] at h
  obtain rfl : k = 0 := by simpa [Instr.inSlot] using hk
  show decodeSlot0 _ = _
  unfold decodeSlot0; rw [eS2_major]
  rw [eS2_minor]; exact dS2_enc _ _ _ _ h

theorem RoundTrip.lblraise (f : FAB) : RoundTrip.Statement (.lblraise f) := by
  intro h
  refine ⟨fun k w hk he => ?_, fun w he => noMicro he⟩
  obtain rfl := Option.some.inj he
  simp only [Instr.wf, Bool.and_eq_true] at h
  obtain rfl : k = 0 := by simpa [Instr.inSlot] using hk
  show decodeSlot0 _ = _
  unfold decodeSlot0; rw [eAB_major]
  rw [eAB_minor]; exact dAB_enc _ _ _ _ h.1 h.2

theorem RoundTrip.trap (f : FTrap) : RoundTrip.Statement (.trap f) := by
  intro h
  refine ⟨fun k w hk he => ?_, fun w he => noMicro he⟩
  obtain rfl := Option.some.inj he
  obtain rfl : k = 0 := by simpa [Instr.inSlot] using hk
  show decodeSlot0 _ = _
  unfold decodeSlot0; rw [eTrap_major]
  exact dCT_trap _

theorem RoundTrip.eret (f : FZ) : RoundTrip.Statement (.eret f) := by
  intro h
  refine ⟨fun k w hk he => ?_, fun w he => noMicro he⟩
  obtain rfl := Option.some.inj he
  obtain rfl : k = 0 := by simpa [Instr.inSlot] using hk
  show decodeSlot0 _ = _
  unfold decodeSlot0; rw [eZsub_major]
  exact dCT_eret _

theorem RoundTrip.yield (f : FZ) : RoundTrip.Statement (.yield f) := by
  intro h
  refine ⟨fun k w hk he => ?_, fun w he => noMicro he⟩
  obtain rfl := Option.some.inj he
  obtain rfl : k = 0 := by simpa [Instr.inSlot] using hk
  show decodeSlot0 _ = _
  unfold decodeSlot0; rw [eZsub_major]
  exact dCT_yield _

theorem RoundTrip.waite (f : FA) : RoundTrip.Statement (.waite f) := by
  intro h
  refine ⟨fun k w hk he => ?_, fun w he => noMicro he⟩
  obtain rfl := Option.some.inj he
  simp only [Instr.wf] at h
  obtain rfl : k = 0 := by simpa [Instr.inSlot] using hk
  show decodeSlot0 _ = _
  unfold decodeSlot0; rw [eA_major]
  exact dCT_waite _ h

theorem RoundTrip.haltctx (f : FZ) : RoundTrip.Statement (.haltctx f) := by
  intro h
  refine ⟨fun k w hk he => ?_, fun w he => noMicro he⟩
  obtain rfl := Option.some.inj he
  obtain rfl : k = 0 := by simpa [Instr.inSlot] using hk
  show decodeSlot0 _ = _
  unfold decodeSlot0; rw [eZsub_major]
  exact dCT_haltctx _

theorem RoundTrip.dbgbrk (f : FZ) : RoundTrip.Statement (.dbgbrk f) := by
  intro h
  refine ⟨fun k w hk he => ?_, fun w he => noMicro he⟩
  obtain rfl := Option.some.inj he
  obtain rfl : k = 0 := by simpa [Instr.inSlot] using hk
  show decodeSlot0 _ = _
  unfold decodeSlot0; rw [eZsub_major]
  exact dCT_dbgbrk _

theorem RoundTrip.vadd (f : FV3 FltQ) : RoundTrip.Statement (.vadd f) := by
  intro h
  refine ⟨fun k w hk he => ?_, fun w he => noMicro he⟩
  obtain rfl := Option.some.inj he
  have hv : decodeVec (eV3 0x02 encFltQ f) = .ok (.vadd f) := by
    unfold decodeVec; rw [eV3_major]
    exact dV3_enc _ _ _ _ _ (decFltQ_enc _)
  rcases (by simpa [Instr.inSlot] using hk : k = 1 ∨ k = 2) with rfl | rfl
  · show decodeSlot1 _ = _
    unfold decodeSlot1; rw [eV3_major]; exact hv
  · show decodeSlot2 _ = _
    unfold decodeSlot2; rw [eV3_major]; exact hv

theorem RoundTrip.vsub (f : FV3 FltQ) : RoundTrip.Statement (.vsub f) := by
  intro h
  refine ⟨fun k w hk he => ?_, fun w he => noMicro he⟩
  obtain rfl := Option.some.inj he
  have hv : decodeVec (eV3 0x03 encFltQ f) = .ok (.vsub f) := by
    unfold decodeVec; rw [eV3_major]
    exact dV3_enc _ _ _ _ _ (decFltQ_enc _)
  rcases (by simpa [Instr.inSlot] using hk : k = 1 ∨ k = 2) with rfl | rfl
  · show decodeSlot1 _ = _
    unfold decodeSlot1; rw [eV3_major]; exact hv
  · show decodeSlot2 _ = _
    unfold decodeSlot2; rw [eV3_major]; exact hv

theorem RoundTrip.vmul (f : FV3 FltQ) : RoundTrip.Statement (.vmul f) := by
  intro h
  refine ⟨fun k w hk he => ?_, fun w he => noMicro he⟩
  obtain rfl := Option.some.inj he
  have hv : decodeVec (eV3 0x04 encFltQ f) = .ok (.vmul f) := by
    unfold decodeVec; rw [eV3_major]
    exact dV3_enc _ _ _ _ _ (decFltQ_enc _)
  rcases (by simpa [Instr.inSlot] using hk : k = 1 ∨ k = 2) with rfl | rfl
  · show decodeSlot1 _ = _
    unfold decodeSlot1; rw [eV3_major]; exact hv
  · show decodeSlot2 _ = _
    unfold decodeSlot2; rw [eV3_major]; exact hv

theorem RoundTrip.vfma (f : FV3 FltQ) : RoundTrip.Statement (.vfma f) := by
  intro h
  refine ⟨fun k w hk he => ?_, fun w he => noMicro he⟩
  obtain rfl := Option.some.inj he
  have hv : decodeVec (eV3 0x05 encFltQ f) = .ok (.vfma f) := by
    unfold decodeVec; rw [eV3_major]
    exact dV3_enc _ _ _ _ _ (decFltQ_enc _)
  rcases (by simpa [Instr.inSlot] using hk : k = 1 ∨ k = 2) with rfl | rfl
  · show decodeSlot1 _ = _
    unfold decodeSlot1; rw [eV3_major]; exact hv
  · show decodeSlot2 _ = _
    unfold decodeSlot2; rw [eV3_major]; exact hv

theorem RoundTrip.vfms (f : FV3 FltQ) : RoundTrip.Statement (.vfms f) := by
  intro h
  refine ⟨fun k w hk he => ?_, fun w he => noMicro he⟩
  obtain rfl := Option.some.inj he
  have hv : decodeVec (eV3 0x06 encFltQ f) = .ok (.vfms f) := by
    unfold decodeVec; rw [eV3_major]
    exact dV3_enc _ _ _ _ _ (decFltQ_enc _)
  rcases (by simpa [Instr.inSlot] using hk : k = 1 ∨ k = 2) with rfl | rfl
  · show decodeSlot1 _ = _
    unfold decodeSlot1; rw [eV3_major]; exact hv
  · show decodeSlot2 _ = _
    unfold decodeSlot2; rw [eV3_major]; exact hv

theorem RoundTrip.vmin (f : FV3 FltQ) : RoundTrip.Statement (.vmin f) := by
  intro h
  refine ⟨fun k w hk he => ?_, fun w he => noMicro he⟩
  obtain rfl := Option.some.inj he
  have hv : decodeVec (eV3 0x07 encFltQ f) = .ok (.vmin f) := by
    unfold decodeVec; rw [eV3_major]
    exact dV3_enc _ _ _ _ _ (decFltQ_enc _)
  rcases (by simpa [Instr.inSlot] using hk : k = 1 ∨ k = 2) with rfl | rfl
  · show decodeSlot1 _ = _
    unfold decodeSlot1; rw [eV3_major]; exact hv
  · show decodeSlot2 _ = _
    unfold decodeSlot2; rw [eV3_major]; exact hv

theorem RoundTrip.vmax (f : FV3 FltQ) : RoundTrip.Statement (.vmax f) := by
  intro h
  refine ⟨fun k w hk he => ?_, fun w he => noMicro he⟩
  obtain rfl := Option.some.inj he
  have hv : decodeVec (eV3 0x08 encFltQ f) = .ok (.vmax f) := by
    unfold decodeVec; rw [eV3_major]
    exact dV3_enc _ _ _ _ _ (decFltQ_enc _)
  rcases (by simpa [Instr.inSlot] using hk : k = 1 ∨ k = 2) with rfl | rfl
  · show decodeSlot1 _ = _
    unfold decodeSlot1; rw [eV3_major]; exact hv
  · show decodeSlot2 _ = _
    unfold decodeSlot2; rw [eV3_major]; exact hv

theorem RoundTrip.vabs (f : FV1 FltQ) : RoundTrip.Statement (.vabs f) := by
  intro h
  refine ⟨fun k w hk he => ?_, fun w he => noMicro he⟩
  obtain rfl := Option.some.inj he
  have hv : decodeVec (eV1 0x09 encFltQ f) = .ok (.vabs f) := by
    unfold decodeVec; rw [eV1_major]
    exact dV1_enc _ _ _ _ _ (decFltQ_enc _)
  rcases (by simpa [Instr.inSlot] using hk : k = 1 ∨ k = 2) with rfl | rfl
  · show decodeSlot1 _ = _
    unfold decodeSlot1; rw [eV1_major]; exact hv
  · show decodeSlot2 _ = _
    unfold decodeSlot2; rw [eV1_major]; exact hv

theorem RoundTrip.vneg (f : FV1 FltQ) : RoundTrip.Statement (.vneg f) := by
  intro h
  refine ⟨fun k w hk he => ?_, fun w he => noMicro he⟩
  obtain rfl := Option.some.inj he
  have hv : decodeVec (eV1 0x0A encFltQ f) = .ok (.vneg f) := by
    unfold decodeVec; rw [eV1_major]
    exact dV1_enc _ _ _ _ _ (decFltQ_enc _)
  rcases (by simpa [Instr.inSlot] using hk : k = 1 ∨ k = 2) with rfl | rfl
  · show decodeSlot1 _ = _
    unfold decodeSlot1; rw [eV1_major]; exact hv
  · show decodeSlot2 _ = _
    unfold decodeSlot2; rw [eV1_major]; exact hv

theorem RoundTrip.vrcp (f : FV1n) : RoundTrip.Statement (.vrcp f) := by
  intro h
  refine ⟨fun k w hk he => ?_, fun w he => noMicro he⟩
  obtain rfl := Option.some.inj he
  have hv : decodeVec (eV1n 0x0B f) = .ok (.vrcp f) := by
    unfold decodeVec; rw [eV1n_major]
    exact dV1n_enc _ _ _
  rcases (by simpa [Instr.inSlot] using hk : k = 1 ∨ k = 2) with rfl | rfl
  · show decodeSlot1 _ = _
    unfold decodeSlot1; rw [eV1n_major]; exact hv
  · show decodeSlot2 _ = _
    unfold decodeSlot2; rw [eV1n_major]; exact hv

theorem RoundTrip.vrsq (f : FV1n) : RoundTrip.Statement (.vrsq f) := by
  intro h
  refine ⟨fun k w hk he => ?_, fun w he => noMicro he⟩
  obtain rfl := Option.some.inj he
  have hv : decodeVec (eV1n 0x0C f) = .ok (.vrsq f) := by
    unfold decodeVec; rw [eV1n_major]
    exact dV1n_enc _ _ _
  rcases (by simpa [Instr.inSlot] using hk : k = 1 ∨ k = 2) with rfl | rfl
  · show decodeSlot1 _ = _
    unfold decodeSlot1; rw [eV1n_major]; exact hv
  · show decodeSlot2 _ = _
    unfold decodeSlot2; rw [eV1n_major]; exact hv

theorem RoundTrip.vsqrt (f : FV1n) : RoundTrip.Statement (.vsqrt f) := by
  intro h
  refine ⟨fun k w hk he => ?_, fun w he => noMicro he⟩
  obtain rfl := Option.some.inj he
  have hv : decodeVec (eV1n 0x0D f) = .ok (.vsqrt f) := by
    unfold decodeVec; rw [eV1n_major]
    exact dV1n_enc _ _ _
  rcases (by simpa [Instr.inSlot] using hk : k = 1 ∨ k = 2) with rfl | rfl
  · show decodeSlot1 _ = _
    unfold decodeSlot1; rw [eV1n_major]; exact hv
  · show decodeSlot2 _ = _
    unfold decodeSlot2; rw [eV1n_major]; exact hv

theorem RoundTrip.vexp2 (f : FV1n) : RoundTrip.Statement (.vexp2 f) := by
  intro h
  refine ⟨fun k w hk he => ?_, fun w he => noMicro he⟩
  obtain rfl := Option.some.inj he
  have hv : decodeVec (eV1n 0x0E f) = .ok (.vexp2 f) := by
    unfold decodeVec; rw [eV1n_major]
    exact dV1n_enc _ _ _
  rcases (by simpa [Instr.inSlot] using hk : k = 1 ∨ k = 2) with rfl | rfl
  · show decodeSlot1 _ = _
    unfold decodeSlot1; rw [eV1n_major]; exact hv
  · show decodeSlot2 _ = _
    unfold decodeSlot2; rw [eV1n_major]; exact hv

theorem RoundTrip.vlog2 (f : FV1n) : RoundTrip.Statement (.vlog2 f) := by
  intro h
  refine ⟨fun k w hk he => ?_, fun w he => noMicro he⟩
  obtain rfl := Option.some.inj he
  have hv : decodeVec (eV1n 0x0F f) = .ok (.vlog2 f) := by
    unfold decodeVec; rw [eV1n_major]
    exact dV1n_enc _ _ _
  rcases (by simpa [Instr.inSlot] using hk : k = 1 ∨ k = 2) with rfl | rfl
  · show decodeSlot1 _ = _
    unfold decodeSlot1; rw [eV1n_major]; exact hv
  · show decodeSlot2 _ = _
    unfold decodeSlot2; rw [eV1n_major]; exact hv

theorem RoundTrip.vcmp (f : FVC VCond FltQ) : RoundTrip.Statement (.vcmp f) := by
  intro h
  refine ⟨fun k w hk he => ?_, fun w he => noMicro he⟩
  obtain rfl := Option.some.inj he
  have hv : decodeVec (eVC 0x10 encVCond encFltQ f) = .ok (.vcmp f) := by
    unfold decodeVec; rw [eVC_major]
    exact dVC_enc _ _ _ _ _ _ _ (decFltQ_enc _) (decVCond_enc _)
  rcases (by simpa [Instr.inSlot] using hk : k = 1 ∨ k = 2) with rfl | rfl
  · show decodeSlot1 _ = _
    unfold decodeSlot1; rw [eVC_major]; exact hv
  · show decodeSlot2 _ = _
    unfold decodeSlot2; rw [eVC_major]; exact hv

theorem RoundTrip.viadd (f : FV3 IntQ) : RoundTrip.Statement (.viadd f) := by
  intro h
  refine ⟨fun k w hk he => ?_, fun w he => noMicro he⟩
  obtain rfl := Option.some.inj he
  have hv : decodeVec (eV3 0x11 encIntQ f) = .ok (.viadd f) := by
    unfold decodeVec; rw [eV3_major]
    exact dV3_enc _ _ _ _ _ (decIntQ_enc _)
  rcases (by simpa [Instr.inSlot] using hk : k = 1 ∨ k = 2) with rfl | rfl
  · show decodeSlot1 _ = _
    unfold decodeSlot1; rw [eV3_major]; exact hv
  · show decodeSlot2 _ = _
    unfold decodeSlot2; rw [eV3_major]; exact hv

theorem RoundTrip.visub (f : FV3 IntQ) : RoundTrip.Statement (.visub f) := by
  intro h
  refine ⟨fun k w hk he => ?_, fun w he => noMicro he⟩
  obtain rfl := Option.some.inj he
  have hv : decodeVec (eV3 0x12 encIntQ f) = .ok (.visub f) := by
    unfold decodeVec; rw [eV3_major]
    exact dV3_enc _ _ _ _ _ (decIntQ_enc _)
  rcases (by simpa [Instr.inSlot] using hk : k = 1 ∨ k = 2) with rfl | rfl
  · show decodeSlot1 _ = _
    unfold decodeSlot1; rw [eV3_major]; exact hv
  · show decodeSlot2 _ = _
    unfold decodeSlot2; rw [eV3_major]; exact hv

theorem RoundTrip.vimul (f : FV3 IntQ) : RoundTrip.Statement (.vimul f) := by
  intro h
  refine ⟨fun k w hk he => ?_, fun w he => noMicro he⟩
  obtain rfl := Option.some.inj he
  have hv : decodeVec (eV3 0x13 encIntQ f) = .ok (.vimul f) := by
    unfold decodeVec; rw [eV3_major]
    exact dV3_enc _ _ _ _ _ (decIntQ_enc _)
  rcases (by simpa [Instr.inSlot] using hk : k = 1 ∨ k = 2) with rfl | rfl
  · show decodeSlot1 _ = _
    unfold decodeSlot1; rw [eV3_major]; exact hv
  · show decodeSlot2 _ = _
    unfold decodeSlot2; rw [eV3_major]; exact hv

theorem RoundTrip.vimad (f : FV3 IntQ) : RoundTrip.Statement (.vimad f) := by
  intro h
  refine ⟨fun k w hk he => ?_, fun w he => noMicro he⟩
  obtain rfl := Option.some.inj he
  have hv : decodeVec (eV3 0x14 encIntQ f) = .ok (.vimad f) := by
    unfold decodeVec; rw [eV3_major]
    exact dV3_enc _ _ _ _ _ (decIntQ_enc _)
  rcases (by simpa [Instr.inSlot] using hk : k = 1 ∨ k = 2) with rfl | rfl
  · show decodeSlot1 _ = _
    unfold decodeSlot1; rw [eV3_major]; exact hv
  · show decodeSlot2 _ = _
    unfold decodeSlot2; rw [eV3_major]; exact hv

theorem RoundTrip.vimin (f : FV3 IntQ) : RoundTrip.Statement (.vimin f) := by
  intro h
  refine ⟨fun k w hk he => ?_, fun w he => noMicro he⟩
  obtain rfl := Option.some.inj he
  have hv : decodeVec (eV3 0x15 encIntQ f) = .ok (.vimin f) := by
    unfold decodeVec; rw [eV3_major]
    exact dV3_enc _ _ _ _ _ (decIntQ_enc _)
  rcases (by simpa [Instr.inSlot] using hk : k = 1 ∨ k = 2) with rfl | rfl
  · show decodeSlot1 _ = _
    unfold decodeSlot1; rw [eV3_major]; exact hv
  · show decodeSlot2 _ = _
    unfold decodeSlot2; rw [eV3_major]; exact hv

theorem RoundTrip.vimax (f : FV3 IntQ) : RoundTrip.Statement (.vimax f) := by
  intro h
  refine ⟨fun k w hk he => ?_, fun w he => noMicro he⟩
  obtain rfl := Option.some.inj he
  have hv : decodeVec (eV3 0x16 encIntQ f) = .ok (.vimax f) := by
    unfold decodeVec; rw [eV3_major]
    exact dV3_enc _ _ _ _ _ (decIntQ_enc _)
  rcases (by simpa [Instr.inSlot] using hk : k = 1 ∨ k = 2) with rfl | rfl
  · show decodeSlot1 _ = _
    unfold decodeSlot1; rw [eV3_major]; exact hv
  · show decodeSlot2 _ = _
    unfold decodeSlot2; rw [eV3_major]; exact hv

theorem RoundTrip.vicmp (f : FVC VICond IntQ) : RoundTrip.Statement (.vicmp f) := by
  intro h
  refine ⟨fun k w hk he => ?_, fun w he => noMicro he⟩
  obtain rfl := Option.some.inj he
  have hv : decodeVec (eVC 0x17 encVICond encIntQ f) = .ok (.vicmp f) := by
    unfold decodeVec; rw [eVC_major]
    exact dVC_enc _ _ _ _ _ _ _ (decIntQ_enc _) (decVICond_enc _)
  rcases (by simpa [Instr.inSlot] using hk : k = 1 ∨ k = 2) with rfl | rfl
  · show decodeSlot1 _ = _
    unfold decodeSlot1; rw [eVC_major]; exact hv
  · show decodeSlot2 _ = _
    unfold decodeSlot2; rw [eVC_major]; exact hv

theorem RoundTrip.vand (f : FV3 LaneQ) : RoundTrip.Statement (.vand f) := by
  intro h
  refine ⟨fun k w hk he => ?_, fun w he => noMicro he⟩
  obtain rfl := Option.some.inj he
  have hv : decodeVec (eV3 0x18 encLaneQ f) = .ok (.vand f) := by
    unfold decodeVec; rw [eV3_major]
    exact dV3_enc _ _ _ _ _ (decLaneQ_enc _)
  rcases (by simpa [Instr.inSlot] using hk : k = 1 ∨ k = 2) with rfl | rfl
  · show decodeSlot1 _ = _
    unfold decodeSlot1; rw [eV3_major]; exact hv
  · show decodeSlot2 _ = _
    unfold decodeSlot2; rw [eV3_major]; exact hv

theorem RoundTrip.vor (f : FV3 LaneQ) : RoundTrip.Statement (.vor f) := by
  intro h
  refine ⟨fun k w hk he => ?_, fun w he => noMicro he⟩
  obtain rfl := Option.some.inj he
  have hv : decodeVec (eV3 0x19 encLaneQ f) = .ok (.vor f) := by
    unfold decodeVec; rw [eV3_major]
    exact dV3_enc _ _ _ _ _ (decLaneQ_enc _)
  rcases (by simpa [Instr.inSlot] using hk : k = 1 ∨ k = 2) with rfl | rfl
  · show decodeSlot1 _ = _
    unfold decodeSlot1; rw [eV3_major]; exact hv
  · show decodeSlot2 _ = _
    unfold decodeSlot2; rw [eV3_major]; exact hv

theorem RoundTrip.vxor (f : FV3 LaneQ) : RoundTrip.Statement (.vxor f) := by
  intro h
  refine ⟨fun k w hk he => ?_, fun w he => noMicro he⟩
  obtain rfl := Option.some.inj he
  have hv : decodeVec (eV3 0x1A encLaneQ f) = .ok (.vxor f) := by
    unfold decodeVec; rw [eV3_major]
    exact dV3_enc _ _ _ _ _ (decLaneQ_enc _)
  rcases (by simpa [Instr.inSlot] using hk : k = 1 ∨ k = 2) with rfl | rfl
  · show decodeSlot1 _ = _
    unfold decodeSlot1; rw [eV3_major]; exact hv
  · show decodeSlot2 _ = _
    unfold decodeSlot2; rw [eV3_major]; exact hv

theorem RoundTrip.vandn (f : FV3 LaneQ) : RoundTrip.Statement (.vandn f) := by
  intro h
  refine ⟨fun k w hk he => ?_, fun w he => noMicro he⟩
  obtain rfl := Option.some.inj he
  have hv : decodeVec (eV3 0x1B encLaneQ f) = .ok (.vandn f) := by
    unfold decodeVec; rw [eV3_major]
    exact dV3_enc _ _ _ _ _ (decLaneQ_enc _)
  rcases (by simpa [Instr.inSlot] using hk : k = 1 ∨ k = 2) with rfl | rfl
  · show decodeSlot1 _ = _
    unfold decodeSlot1; rw [eV3_major]; exact hv
  · show decodeSlot2 _ = _
    unfold decodeSlot2; rw [eV3_major]; exact hv

theorem RoundTrip.vshl (f : FV3 LaneQ) : RoundTrip.Statement (.vshl f) := by
  intro h
  refine ⟨fun k w hk he => ?_, fun w he => noMicro he⟩
  obtain rfl := Option.some.inj he
  have hv : decodeVec (eV3 0x1C encLaneQ f) = .ok (.vshl f) := by
    unfold decodeVec; rw [eV3_major]
    exact dV3_enc _ _ _ _ _ (decLaneQ_enc _)
  rcases (by simpa [Instr.inSlot] using hk : k = 1 ∨ k = 2) with rfl | rfl
  · show decodeSlot1 _ = _
    unfold decodeSlot1; rw [eV3_major]; exact hv
  · show decodeSlot2 _ = _
    unfold decodeSlot2; rw [eV3_major]; exact hv

theorem RoundTrip.vshr (f : FV3 LaneQ) : RoundTrip.Statement (.vshr f) := by
  intro h
  refine ⟨fun k w hk he => ?_, fun w he => noMicro he⟩
  obtain rfl := Option.some.inj he
  have hv : decodeVec (eV3 0x1D encLaneQ f) = .ok (.vshr f) := by
    unfold decodeVec; rw [eV3_major]
    exact dV3_enc _ _ _ _ _ (decLaneQ_enc _)
  rcases (by simpa [Instr.inSlot] using hk : k = 1 ∨ k = 2) with rfl | rfl
  · show decodeSlot1 _ = _
    unfold decodeSlot1; rw [eV3_major]; exact hv
  · show decodeSlot2 _ = _
    unfold decodeSlot2; rw [eV3_major]; exact hv

theorem RoundTrip.vsar (f : FV3 LaneQ) : RoundTrip.Statement (.vsar f) := by
  intro h
  refine ⟨fun k w hk he => ?_, fun w he => noMicro he⟩
  obtain rfl := Option.some.inj he
  have hv : decodeVec (eV3 0x1E encLaneQ f) = .ok (.vsar f) := by
    unfold decodeVec; rw [eV3_major]
    exact dV3_enc _ _ _ _ _ (decLaneQ_enc _)
  rcases (by simpa [Instr.inSlot] using hk : k = 1 ∨ k = 2) with rfl | rfl
  · show decodeSlot1 _ = _
    unfold decodeSlot1; rw [eV3_major]; exact hv
  · show decodeSlot2 _ = _
    unfold decodeSlot2; rw [eV3_major]; exact hv

theorem RoundTrip.vmrg (f : FVK) : RoundTrip.Statement (.vmrg f) := by
  intro h
  refine ⟨fun k w hk he => ?_, fun w he => noMicro he⟩
  obtain rfl := Option.some.inj he
  have hv : decodeVec (eVK f) = .ok (.vmrg f) := by
    unfold decodeVec; rw [eVK_major]
    exact dVK_enc _
  rcases (by simpa [Instr.inSlot] using hk : k = 1 ∨ k = 2) with rfl | rfl
  · show decodeSlot1 _ = _
    unfold decodeSlot1; rw [eVK_major]; exact hv
  · show decodeSlot2 _ = _
    unfold decodeSlot2; rw [eVK_major]; exact hv

theorem RoundTrip.vred (f : FRed) : RoundTrip.Statement (.vred f) := by
  intro h
  refine ⟨fun k w hk he => ?_, fun w he => noMicro he⟩
  obtain rfl := Option.some.inj he
  have hv : decodeVec (eRed f) = .ok (.vred f) := by
    unfold decodeVec; rw [eRed_major]
    exact dRed_enc _
  rcases (by simpa [Instr.inSlot] using hk : k = 1 ∨ k = 2) with rfl | rfl
  · show decodeSlot1 _ = _
    unfold decodeSlot1; rw [eRed_major]; exact hv
  · show decodeSlot2 _ = _
    unfold decodeSlot2; rw [eRed_major]; exact hv

theorem RoundTrip.vperm (f : FV3 LaneQ) : RoundTrip.Statement (.vperm f) := by
  intro h
  refine ⟨fun k w hk he => ?_, fun w he => noMicro he⟩
  obtain rfl := Option.some.inj he
  have hv : decodeVec (eV3 0x21 encLaneQ f) = .ok (.vperm f) := by
    unfold decodeVec; rw [eV3_major]
    exact dV3_enc _ _ _ _ _ (decLaneQ_enc _)
  rcases (by simpa [Instr.inSlot] using hk : k = 1 ∨ k = 2) with rfl | rfl
  · show decodeSlot1 _ = _
    unfold decodeSlot1; rw [eV3_major]; exact hv
  · show decodeSlot2 _ = _
    unfold decodeSlot2; rw [eV3_major]; exact hv

theorem RoundTrip.vbcast (f : FLane) : RoundTrip.Statement (.vbcast f) := by
  intro _
  refine ⟨fun k w hk he => ?_, fun w he => noMicro he⟩
  obtain rfl := Option.some.inj he
  have hv : decodeVec (eLane 0x22 f) = .ok (.vbcast f) := by
    unfold decodeVec; rw [eLane_major]
    exact dLane_enc _ _ _
  rcases (by simpa [Instr.inSlot] using hk : k = 1 ∨ k = 2) with rfl | rfl
  · show decodeSlot1 _ = _
    unfold decodeSlot1; rw [eLane_major]; exact hv
  · show decodeSlot2 _ = _
    unfold decodeSlot2; rw [eLane_major]; exact hv

theorem RoundTrip.vextr (f : FLane) : RoundTrip.Statement (.vextr f) := by
  intro _
  refine ⟨fun k w hk he => ?_, fun w he => noMicro he⟩
  obtain rfl := Option.some.inj he
  have hv : decodeVec (eLane 0x23 f) = .ok (.vextr f) := by
    unfold decodeVec; rw [eLane_major]
    exact dLane_enc _ _ _
  rcases (by simpa [Instr.inSlot] using hk : k = 1 ∨ k = 2) with rfl | rfl
  · show decodeSlot1 _ = _
    unfold decodeSlot1; rw [eLane_major]; exact hv
  · show decodeSlot2 _ = _
    unfold decodeSlot2; rw [eLane_major]; exact hv

theorem RoundTrip.vins (f : FLane) : RoundTrip.Statement (.vins f) := by
  intro _
  refine ⟨fun k w hk he => ?_, fun w he => noMicro he⟩
  obtain rfl := Option.some.inj he
  have hv : decodeVec (eLane 0x24 f) = .ok (.vins f) := by
    unfold decodeVec; rw [eLane_major]
    exact dLane_enc _ _ _
  rcases (by simpa [Instr.inSlot] using hk : k = 1 ∨ k = 2) with rfl | rfl
  · show decodeSlot1 _ = _
    unfold decodeSlot1; rw [eLane_major]; exact hv
  · show decodeSlot2 _ = _
    unfold decodeSlot2; rw [eLane_major]; exact hv

theorem RoundTrip.vcvt (f : FCvt) : RoundTrip.Statement (.vcvt f) := by
  intro h
  refine ⟨fun k w hk he => ?_, fun w he => noMicro he⟩
  obtain rfl := Option.some.inj he
  simp only [Instr.wf, FCvt.ok] at h
  have hv : decodeVec (eCvt f) = .ok (.vcvt f) := by
    unfold decodeVec; rw [eCvt_major]
    exact dCvt_enc _ h
  rcases (by simpa [Instr.inSlot] using hk : k = 1 ∨ k = 2) with rfl | rfl
  · show decodeSlot1 _ = _
    unfold decodeSlot1; rw [eCvt_major]; exact hv
  · show decodeSlot2 _ = _
    unfold decodeSlot2; rw [eCvt_major]; exact hv

theorem RoundTrip.vpack (f : FPack) : RoundTrip.Statement (.vpack f) := by
  intro _
  refine ⟨fun k w hk he => ?_, fun w he => noMicro he⟩
  obtain rfl := Option.some.inj he
  have hv : decodeVec (ePack 0x26 f) = .ok (.vpack f) := by
    unfold decodeVec; rw [ePack_major]
    exact dPack_enc _ _ _
  rcases (by simpa [Instr.inSlot] using hk : k = 1 ∨ k = 2) with rfl | rfl
  · show decodeSlot1 _ = _
    unfold decodeSlot1; rw [ePack_major]; exact hv
  · show decodeSlot2 _ = _
    unfold decodeSlot2; rw [ePack_major]; exact hv

theorem RoundTrip.vunpk (f : FPack) : RoundTrip.Statement (.vunpk f) := by
  intro _
  refine ⟨fun k w hk he => ?_, fun w he => noMicro he⟩
  obtain rfl := Option.some.inj he
  have hv : decodeVec (ePack 0x27 f) = .ok (.vunpk f) := by
    unfold decodeVec; rw [ePack_major]
    exact dPack_enc _ _ _
  rcases (by simpa [Instr.inSlot] using hk : k = 1 ∨ k = 2) with rfl | rfl
  · show decodeSlot1 _ = _
    unfold decodeSlot1; rw [ePack_major]; exact hv
  · show decodeSlot2 _ = _
    unfold decodeSlot2; rw [ePack_major]; exact hv

theorem RoundTrip.vmov (f : FV1n) : RoundTrip.Statement (.vmov f) := by
  intro h
  refine ⟨fun k w hk he => ?_, fun w he => noMicro he⟩
  obtain rfl := Option.some.inj he
  have hv : decodeVec (eV1n 0x28 f) = .ok (.vmov f) := by
    unfold decodeVec; rw [eV1n_major]
    exact dVmov_enc _
  rcases (by simpa [Instr.inSlot] using hk : k = 1 ∨ k = 2) with rfl | rfl
  · show decodeSlot1 _ = _
    unfold decodeSlot1; rw [eV1n_major]; exact hv
  · show decodeSlot2 _ = _
    unfold decodeSlot2; rw [eV1n_major]; exact hv

theorem RoundTrip.vmovPush (f : FVpush) : RoundTrip.Statement (.vmovPush f) := by
  intro h
  refine ⟨fun k w hk he => ?_, fun w he => noMicro he⟩
  obtain rfl := Option.some.inj he
  have hv : decodeVec (eVpush f) = .ok (.vmovPush f) := by
    unfold decodeVec; rw [eVpush_major]
    exact dVpush_enc _
  rcases (by simpa [Instr.inSlot] using hk : k = 1 ∨ k = 2) with rfl | rfl
  · show decodeSlot1 _ = _
    unfold decodeSlot1; rw [eVpush_major]; exact hv
  · show decodeSlot2 _ = _
    unfold decodeSlot2; rw [eVpush_major]; exact hv

theorem RoundTrip.klog (f : FKL) : RoundTrip.Statement (.klog f) := by
  intro h
  refine ⟨fun k w hk he => ?_, fun w he => noMicro he⟩
  obtain rfl := Option.some.inj he
  simp only [Instr.wf] at h
  have hv : decodeVec (eKL f) = .ok (.klog f) := by
    unfold decodeVec; rw [eKL_major]
    exact dKL_enc _ h
  rcases (by simpa [Instr.inSlot] using hk : k = 1 ∨ k = 2) with rfl | rfl
  · show decodeSlot1 _ = _
    unfold decodeSlot1; rw [eKL_major]; exact hv
  · show decodeSlot2 _ = _
    unfold decodeSlot2; rw [eKL_major]; exact hv

theorem RoundTrip.vld (f : FVld) : RoundTrip.Statement (.vld f) := by
  intro h
  refine ⟨fun k w hk he => ?_, fun w he => noMicro he⟩
  obtain rfl := Option.some.inj he
  simp only [Instr.wf, Bool.and_eq_true] at h
  obtain rfl : k = 1 := by simpa [Instr.inSlot] using hk
  show decodeSlot1 _ = _
  unfold decodeSlot1; rw [eVld_major]
  exact dVld_enc _ _ _ h.1 h.2

theorem RoundTrip.vst (f : FVst) : RoundTrip.Statement (.vst f) := by
  intro h
  refine ⟨fun k w hk he => ?_, fun w he => noMicro he⟩
  obtain rfl := Option.some.inj he
  simp only [Instr.wf, Bool.and_eq_true] at h
  obtain rfl : k = 1 := by simpa [Instr.inSlot] using hk
  show decodeSlot1 _ = _
  unfold decodeSlot1; rw [eVst_major]
  exact dVst_enc _ h.1 h.2

theorem RoundTrip.vlds (f : FVld) : RoundTrip.Statement (.vlds f) := by
  intro h
  refine ⟨fun k w hk he => ?_, fun w he => noMicro he⟩
  obtain rfl := Option.some.inj he
  simp only [Instr.wf, Bool.and_eq_true] at h
  obtain rfl : k = 1 := by simpa [Instr.inSlot] using hk
  show decodeSlot1 _ = _
  unfold decodeSlot1; rw [eVld_major]
  exact dVld_enc _ _ _ h.1 h.2

theorem RoundTrip.vgather (f : FV3 LaneQ) : RoundTrip.Statement (.vgather f) := by
  intro h
  refine ⟨fun k w hk he => ?_, fun w he => noMicro he⟩
  obtain rfl := Option.some.inj he
  simp only [Instr.wf, Bool.and_eq_true] at h
  obtain rfl : k = 1 := by simpa [Instr.inSlot] using hk
  show decodeSlot1 _ = _
  unfold decodeSlot1; rw [eV3_major]
  exact dGather_enc _ h.1 h.2

theorem RoundTrip.vscatter (f : FScat) : RoundTrip.Statement (.vscatter f) := by
  intro h
  refine ⟨fun k w hk he => ?_, fun w he => noMicro he⟩
  obtain rfl := Option.some.inj he
  simp only [Instr.wf, Bool.and_eq_true] at h
  obtain rfl : k = 1 := by simpa [Instr.inSlot] using hk
  show decodeSlot1 _ = _
  unfold decodeSlot1; rw [eScat_major]
  exact dScat_enc _ h.1 h.2

theorem RoundTrip.dnorm (f : FDN) : RoundTrip.Statement (.dnorm f) := by
  intro h
  refine ⟨fun k w hk he => ?_, fun w he => noMicro he⟩
  obtain rfl := Option.some.inj he
  simp only [Instr.wf] at h
  obtain rfl : k = 2 := by simpa [Instr.inSlot] using hk
  show decodeSlot2 _ = _
  unfold decodeSlot2; rw [eDN_major]
  exact dDN_enc _ _ _ _ h

theorem RoundTrip.dunnorm (f : FDN) : RoundTrip.Statement (.dunnorm f) := by
  intro h
  refine ⟨fun k w hk he => ?_, fun w he => noMicro he⟩
  obtain rfl := Option.some.inj he
  simp only [Instr.wf] at h
  obtain rfl : k = 2 := by simpa [Instr.inSlot] using hk
  show decodeSlot2 _ = _
  unfold decodeSlot2; rw [eDN_major]
  exact dDN_enc _ _ _ _ h

theorem RoundTrip.dmov (f : FD1) : RoundTrip.Statement (.dmov f) := by
  intro h
  refine ⟨fun k w hk he => ?_, fun w he => noMicro he⟩
  obtain rfl := Option.some.inj he
  simp only [Instr.wf] at h
  obtain rfl : k = 2 := by simpa [Instr.inSlot] using hk
  show decodeSlot2 _ = _
  unfold decodeSlot2; rw [eD1_major]
  show dD1 _ Opnd.okD (if (eD1 0x32 0 _).getLsbD 0 then Instr.dmovRaw else Instr.dmov) = _
  rw [eD1_bit]; exact dD1_enc _ _ _ _ _ h

theorem RoundTrip.dmovRaw (f : FD1) : RoundTrip.Statement (.dmovRaw f) := by
  intro h
  refine ⟨fun k w hk he => ?_, fun w he => noMicro he⟩
  obtain rfl := Option.some.inj he
  simp only [Instr.wf] at h
  obtain rfl : k = 2 := by simpa [Instr.inSlot] using hk
  show decodeSlot2 _ = _
  unfold decodeSlot2; rw [eD1_major]
  show dD1 _ Opnd.okD (if (eD1 0x32 1 _).getLsbD 0 then Instr.dmovRaw else Instr.dmov) = _
  rw [eD1_bit]; exact dD1_enc _ _ _ _ _ h

theorem RoundTrip.dzero (f : FD0) : RoundTrip.Statement (.dzero f) := by
  intro h
  refine ⟨fun k w hk he => ?_, fun w he => noMicro he⟩
  obtain rfl := Option.some.inj he
  obtain rfl : k = 2 := by simpa [Instr.inSlot] using hk
  show decodeSlot2 _ = _
  unfold decodeSlot2; rw [eD0_major]
  exact dDzero_enc _

theorem RoundTrip.ddot (f : FD2) : RoundTrip.Statement (.ddot f) := by
  intro h
  refine ⟨fun k w hk he => ?_, fun w he => noMicro he⟩
  obtain rfl := Option.some.inj he
  simp only [Instr.wf, Bool.and_eq_true] at h
  obtain rfl : k = 2 := by simpa [Instr.inSlot] using hk
  show decodeSlot2 _ = _
  unfold decodeSlot2; rw [eD2_major]
  exact dD2_enc _ _ _ _ h.1 h.2

theorem RoundTrip.dscale (f : FD2) : RoundTrip.Statement (.dscale f) := by
  intro h
  refine ⟨fun k w hk he => ?_, fun w he => noMicro he⟩
  obtain rfl := Option.some.inj he
  simp only [Instr.wf, Bool.and_eq_true] at h
  obtain rfl : k = 2 := by simpa [Instr.inSlot] using hk
  show decodeSlot2 _ = _
  unfold decodeSlot2; rw [eD2_major]
  exact dD2_enc _ _ _ _ h.1 h.2

theorem RoundTrip.dadd (f : FD2) : RoundTrip.Statement (.dadd f) := by
  intro h
  refine ⟨fun k w hk he => ?_, fun w he => noMicro he⟩
  obtain rfl := Option.some.inj he
  simp only [Instr.wf, Bool.and_eq_true] at h
  obtain rfl : k = 2 := by simpa [Instr.inSlot] using hk
  show decodeSlot2 _ = _
  unfold decodeSlot2; rw [eD2_major]
  exact dD2_enc _ _ _ _ h.1 h.2

theorem RoundTrip.dsub (f : FD2) : RoundTrip.Statement (.dsub f) := by
  intro h
  refine ⟨fun k w hk he => ?_, fun w he => noMicro he⟩
  obtain rfl := Option.some.inj he
  simp only [Instr.wf, Bool.and_eq_true] at h
  obtain rfl : k = 2 := by simpa [Instr.inSlot] using hk
  show decodeSlot2 _ = _
  unfold decodeSlot2; rw [eD2_major]
  exact dD2_enc _ _ _ _ h.1 h.2

theorem RoundTrip.dneg (f : FD1) : RoundTrip.Statement (.dneg f) := by
  intro h
  refine ⟨fun k w hk he => ?_, fun w he => noMicro he⟩
  obtain rfl := Option.some.inj he
  simp only [Instr.wf] at h
  obtain rfl : k = 2 := by simpa [Instr.inSlot] using hk
  show decodeSlot2 _ = _
  unfold decodeSlot2; rw [eD1_major]
  exact dDneg_enc _ _ h

theorem RoundTrip.dmul (f : FD2) : RoundTrip.Statement (.dmul f) := by
  intro h
  refine ⟨fun k w hk he => ?_, fun w he => noMicro he⟩
  obtain rfl := Option.some.inj he
  simp only [Instr.wf, Bool.and_eq_true] at h
  obtain rfl : k = 2 := by simpa [Instr.inSlot] using hk
  show decodeSlot2 _ = _
  unfold decodeSlot2; rw [eD2_major]
  exact dD2_enc _ _ _ _ h.1 h.2

theorem RoundTrip.dmaxcos (f : FDM) : RoundTrip.Statement (.dmaxcos f) := by
  intro h
  refine ⟨fun k w hk he => ?_, fun w he => noMicro he⟩
  obtain rfl := Option.some.inj he
  simp only [Instr.wf] at h
  obtain rfl : k = 2 := by simpa [Instr.inSlot] using hk
  show decodeSlot2 _ = _
  unfold decodeSlot2; rw [eDM_major]
  exact dDmaxcos_enc _ h

theorem RoundTrip.dnget (f : FDG) : RoundTrip.Statement (.dnget f) := by
  intro h
  refine ⟨fun k w hk he => ?_, fun w he => noMicro he⟩
  obtain rfl := Option.some.inj he
  simp only [Instr.wf] at h
  obtain rfl : k = 2 := by simpa [Instr.inSlot] using hk
  show decodeSlot2 _ = _
  unfold decodeSlot2; rw [eDG_major]
  exact dDnget_enc _ h

theorem RoundTrip.dnset (f : FD2) : RoundTrip.Statement (.dnset f) := by
  intro h
  refine ⟨fun k w hk he => ?_, fun w he => noMicro he⟩
  obtain rfl := Option.some.inj he
  simp only [Instr.wf, Bool.and_eq_true] at h
  obtain rfl : k = 2 := by simpa [Instr.inSlot] using hk
  show decodeSlot2 _ = _
  unfold decodeSlot2; rw [eD2_major]
  exact dD2_enc _ _ _ _ h.1 h.2

theorem RoundTrip.mload (f : FAB) : RoundTrip.Statement (.mload f) := by
  intro h
  refine ⟨fun k w hk he => ?_, fun w he => noMicro he⟩
  obtain rfl := Option.some.inj he
  simp only [Instr.wf, Bool.and_eq_true] at h
  obtain rfl : k = 3 := by simpa [Instr.inSlot] using hk
  show decodeSlot3 _ = _
  unfold decodeSlot3; rw [eAB_major]
  exact dEAB_enc _ _ _ h.1 h.2

theorem RoundTrip.mcall (f : FMcall) : RoundTrip.Statement (.mcall f) := by
  intro h
  refine ⟨fun k w hk he => ?_, fun w he => noMicro he⟩
  obtain rfl := Option.some.inj he
  obtain rfl : k = 3 := by simpa [Instr.inSlot] using hk
  show decodeSlot3 _ = _
  unfold decodeSlot3; rw [eMcall_major]
  exact dMcall_enc _

theorem RoundTrip.rset (f : FRset) : RoundTrip.Statement (.rset f) := by
  intro h
  refine ⟨fun k w hk he => ?_, fun w he => noMicro he⟩
  obtain rfl := Option.some.inj he
  simp only [Instr.wf] at h
  obtain rfl : k = 3 := by simpa [Instr.inSlot] using hk
  show decodeSlot3 _ = _
  unfold decodeSlot3; rw [eRset_major]
  exact dRset_enc _ h

theorem RoundTrip.rpush (f : FE2) : RoundTrip.Statement (.rpush f) := by
  intro h
  refine ⟨fun k w hk he => ?_, fun w he => noMicro he⟩
  obtain rfl := Option.some.inj he
  simp only [Instr.wf, Bool.and_eq_true] at h
  obtain rfl : k = 3 := by simpa [Instr.inSlot] using hk
  show decodeSlot3 _ = _
  unfold decodeSlot3; rw [eE2_major]
  exact dE2_enc _ _ _ h.1 h.2

theorem RoundTrip.rstat (f : FRstat) : RoundTrip.Statement (.rstat f) := by
  intro h
  refine ⟨fun k w hk he => ?_, fun w he => noMicro he⟩
  obtain rfl := Option.some.inj he
  simp only [Instr.wf] at h
  obtain rfl : k = 3 := by simpa [Instr.inSlot] using hk
  show decodeSlot3 _ = _
  unfold decodeSlot3; rw [eRstat_major]
  exact dRstat_enc _ h

theorem RoundTrip.sbind (f : FPortA) : RoundTrip.Statement (.sbind f) := by
  intro h
  refine ⟨fun k w hk he => ?_, fun w he => noMicro he⟩
  obtain rfl := Option.some.inj he
  simp only [Instr.wf] at h
  obtain rfl : k = 3 := by simpa [Instr.inSlot] using hk
  show decodeSlot3 _ = _
  unfold decodeSlot3; rw [ePortA_major]
  rw [ePortA_minor]; exact dPortA_enc _ _ _ _ h

theorem RoundTrip.sunbind (f : FPort) : RoundTrip.Statement (.sunbind f) := by
  intro h
  refine ⟨fun k w hk he => ?_, fun w he => noMicro he⟩
  obtain rfl := Option.some.inj he
  obtain rfl : k = 3 := by simpa [Instr.inSlot] using hk
  show decodeSlot3 _ = _
  unfold decodeSlot3; rw [ePort_major]
  exact dSunbind_enc _

theorem RoundTrip.scfgSeek (f : FPortA) : RoundTrip.Statement (.scfgSeek f) := by
  intro h
  refine ⟨fun k w hk he => ?_, fun w he => noMicro he⟩
  obtain rfl := Option.some.inj he
  simp only [Instr.wf] at h
  obtain rfl : k = 3 := by simpa [Instr.inSlot] using hk
  show decodeSlot3 _ = _
  unfold decodeSlot3; rw [ePortA_major]
  rw [ePortA_minor]; exact dPortA_enc _ _ _ _ h

theorem RoundTrip.scfgRep (f : FPortA) : RoundTrip.Statement (.scfgRep f) := by
  intro h
  refine ⟨fun k w hk he => ?_, fun w he => noMicro he⟩
  obtain rfl := Option.some.inj he
  simp only [Instr.wf] at h
  obtain rfl : k = 3 := by simpa [Instr.inSlot] using hk
  show decodeSlot3 _ = _
  unfold decodeSlot3; rw [ePortA_major]
  rw [ePortA_minor]; exact dPortA_enc _ _ _ _ h

theorem RoundTrip.crec (f : FAB) : RoundTrip.Statement (.crec f) := by
  intro h
  refine ⟨fun k w hk he => ?_, fun w he => noMicro he⟩
  obtain rfl := Option.some.inj he
  simp only [Instr.wf, Bool.and_eq_true] at h
  obtain rfl : k = 3 := by simpa [Instr.inSlot] using hk
  show decodeSlot3 _ = _
  unfold decodeSlot3; rw [eAB_major]
  exact dEAB_enc _ _ _ h.1 h.2

theorem RoundTrip.copy (f : FCopy) : RoundTrip.Statement (.copy f) := by
  intro h
  refine ⟨fun k w hk he => ?_, fun w he => noMicro he⟩
  obtain rfl := Option.some.inj he
  simp only [Instr.wf, Bool.and_eq_true] at h
  obtain rfl : k = 3 := by simpa [Instr.inSlot] using hk
  show decodeSlot3 _ = _
  unfold decodeSlot3; rw [eCopy_major]
  exact dCopy_enc _ h.1 h.2

theorem RoundTrip.cresumePatch (f : FZ) : RoundTrip.Statement (.cresumePatch f) := by
  intro h
  refine ⟨fun k w hk he => ?_, fun w he => noMicro he⟩
  obtain rfl := Option.some.inj he
  obtain rfl : k = 3 := by simpa [Instr.inSlot] using hk
  show decodeSlot3 _ = _
  unfold decodeSlot3; rw [eZsub_major]
  exact dCresume_cresumePatch _

theorem RoundTrip.cresumeRetry (f : FZ) : RoundTrip.Statement (.cresumeRetry f) := by
  intro h
  refine ⟨fun k w hk he => ?_, fun w he => noMicro he⟩
  obtain rfl := Option.some.inj he
  obtain rfl : k = 3 := by simpa [Instr.inSlot] using hk
  show decodeSlot3 _ = _
  unfold decodeSlot3; rw [eZsub_major]
  exact dCresume_cresumeRetry _

theorem RoundTrip.cresumeSkip (f : FZ) : RoundTrip.Statement (.cresumeSkip f) := by
  intro h
  refine ⟨fun k w hk he => ?_, fun w he => noMicro he⟩
  obtain rfl := Option.some.inj he
  obtain rfl : k = 3 := by simpa [Instr.inSlot] using hk
  show decodeSlot3 _ = _
  unfold decodeSlot3; rw [eZsub_major]
  exact dCresume_cresumeSkip _

theorem RoundTrip.cstat (f : FCstat) : RoundTrip.Statement (.cstat f) := by
  intro h
  refine ⟨fun k w hk he => ?_, fun w he => noMicro he⟩
  obtain rfl := Option.some.inj he
  obtain rfl : k = 3 := by simpa [Instr.inSlot] using hk
  show decodeSlot3 _ = _
  unfold decodeSlot3; rw [eCstat_major]
  exact dCstat_enc _

theorem RoundTrip.hset (f : FAB) : RoundTrip.Statement (.hset f) := by
  intro h
  refine ⟨fun k w hk he => ?_, fun w he => noMicro he⟩
  obtain rfl := Option.some.inj he
  simp only [Instr.wf, Bool.and_eq_true] at h
  obtain rfl : k = 3 := by simpa [Instr.inSlot] using hk
  show decodeSlot3 _ = _
  unfold decodeSlot3; rw [eAB_major]
  exact dEAB_enc _ _ _ h.1 h.2

theorem RoundTrip.hwait (f : FHwait) : RoundTrip.Statement (.hwait f) := by
  intro h
  refine ⟨fun k w hk he => ?_, fun w he => noMicro he⟩
  obtain rfl := Option.some.inj he
  simp only [Instr.wf] at h
  obtain rfl : k = 3 := by simpa [Instr.inSlot] using hk
  show decodeSlot3 _ = _
  unfold decodeSlot3; rw [eHwait_major]
  exact dHwait_enc _ h

theorem RoundTrip.hwaitClaim (f : FE1) : RoundTrip.Statement (.hwaitClaim f) := by
  intro h
  refine ⟨fun k w hk he => ?_, fun w he => noMicro he⟩
  obtain rfl := Option.some.inj he
  simp only [Instr.wf] at h
  obtain rfl : k = 3 := by simpa [Instr.inSlot] using hk
  show decodeSlot3 _ = _
  unfold decodeSlot3; rw [eE1_major]
  exact dHwait_claim _ h

theorem RoundTrip.hquery (f : FE1) : RoundTrip.Statement (.hquery f) := by
  intro h
  refine ⟨fun k w hk he => ?_, fun w he => noMicro he⟩
  obtain rfl := Option.some.inj he
  simp only [Instr.wf] at h
  obtain rfl : k = 3 := by simpa [Instr.inSlot] using hk
  show decodeSlot3 _ = _
  unfold decodeSlot3; rw [eE1_major]
  rw [eE1_minor]; exact dE1_enc _ _ _ _ h

theorem RoundTrip.trcfg (f : FA) : RoundTrip.Statement (.trcfg f) := by
  intro h
  refine ⟨fun k w hk he => ?_, fun w he => noMicro he⟩
  obtain rfl := Option.some.inj he
  simp only [Instr.wf] at h
  obtain rfl : k = 3 := by simpa [Instr.inSlot] using hk
  show decodeSlot3 _ = _
  unfold decodeSlot3; rw [eA_major]
  exact dEA_enc _ _ _ h

theorem RoundTrip.trpush (f : FTrpush) : RoundTrip.Statement (.trpush f) := by
  intro h
  refine ⟨fun k w hk he => ?_, fun w he => noMicro he⟩
  obtain rfl := Option.some.inj he
  obtain rfl : k = 3 := by simpa [Instr.inSlot] using hk
  show decodeSlot3 _ = _
  unfold decodeSlot3; rw [eTrpush_major]
  exact dTrpush_enc _

theorem RoundTrip.trpull (f : FTrpull) : RoundTrip.Statement (.trpull f) := by
  intro h
  refine ⟨fun k w hk he => ?_, fun w he => noMicro he⟩
  obtain rfl := Option.some.inj he
  obtain rfl : k = 3 := by simpa [Instr.inSlot] using hk
  show decodeSlot3 _ = _
  unfold decodeSlot3; rw [eTrpull_major]
  exact dTrpull_enc _

theorem RoundTrip.bclear (f : FAB) : RoundTrip.Statement (.bclear f) := by
  intro h
  refine ⟨fun k w hk he => ?_, fun w he => noMicro he⟩
  obtain rfl := Option.some.inj he
  simp only [Instr.wf, Bool.and_eq_true] at h
  obtain rfl : k = 3 := by simpa [Instr.inSlot] using hk
  show decodeSlot3 _ = _
  unfold decodeSlot3; rw [eAB_major]
  exact dEAB_enc _ _ _ h.1 h.2

theorem RoundTrip.release (f : FRel) : RoundTrip.Statement (.release f) := by
  intro h
  refine ⟨fun k w hk he => ?_, fun w he => noMicro he⟩
  obtain rfl := Option.some.inj he
  simp only [Instr.wf, Bool.and_eq_true] at h
  obtain rfl : k = 3 := by simpa [Instr.inSlot] using hk
  show decodeSlot3 _ = _
  unfold decodeSlot3; rw [eRel_major]
  exact dRelease_enc _ h.1 h.2

theorem RoundTrip.publish (f : FA) : RoundTrip.Statement (.publish f) := by
  intro h
  refine ⟨fun k w hk he => ?_, fun w he => noMicro he⟩
  obtain rfl := Option.some.inj he
  simp only [Instr.wf] at h
  obtain rfl : k = 3 := by simpa [Instr.inSlot] using hk
  show decodeSlot3 _ = _
  unfold decodeSlot3; rw [eA_major]
  exact dEA_enc _ _ _ h

theorem RoundTrip.rndseek (f : FA) : RoundTrip.Statement (.rndseek f) := by
  intro h
  refine ⟨fun k w hk he => ?_, fun w he => noMicro he⟩
  obtain rfl := Option.some.inj he
  simp only [Instr.wf] at h
  obtain rfl : k = 3 := by simpa [Instr.inSlot] using hk
  show decodeSlot3 _ = _
  unfold decodeSlot3; rw [eA_major]
  exact dEA_enc _ _ _ h

theorem RoundTrip.rndstat (f : FRnd) : RoundTrip.Statement (.rndstat f) := by
  intro h
  refine ⟨fun k w hk he => ?_, fun w he => noMicro he⟩
  obtain rfl := Option.some.inj he
  obtain rfl : k = 3 := by simpa [Instr.inSlot] using hk
  show decodeSlot3 _ = _
  unfold decodeSlot3; rw [eRnd_major]
  exact dRndstat_enc _

/-! ## Micro-ops -/

theorem RoundTrip.step (u : UStep) : RoundTrip.Statement (.step u) := by
  intro _h
  refine ⟨fun k w hk he => noWord he, fun w he => ?_⟩
  obtain rfl := Option.some.inj he
  unfold decodeMicro
  simp only [HAppend.hAppend, Append.append]
  simp only [bit1_lsb, extract_low, extract_high, lsb_low, lsb_high, extract_all, Nat.reduceLeDiff, Nat.reduceLT, Nat.reduceAdd, Nat.reduceSub, Nat.le_refl, Nat.zero_le]
  simp [zeroField, need, bit1_lsb, bind, Except.bind, pure, Except.pure]

theorem RoundTrip.steph (u : UStepH) : RoundTrip.Statement (.steph u) := by
  intro _h
  refine ⟨fun k w hk he => noWord he, fun w he => ?_⟩
  obtain rfl := Option.some.inj he
  unfold decodeMicro
  simp only [HAppend.hAppend, Append.append]
  simp only [bit1_lsb, extract_low, extract_high, lsb_low, lsb_high, extract_all, Nat.reduceLeDiff, Nat.reduceLT, Nat.reduceAdd, Nat.reduceSub, Nat.le_refl, Nat.zero_le]
  simp [zeroField, need, bit1_lsb, bind, Except.bind, pure, Except.pure]

theorem RoundTrip.slide (u : USlide) : RoundTrip.Statement (.slide u) := by
  intro _h
  refine ⟨fun k w hk he => noWord he, fun w he => ?_⟩
  obtain rfl := Option.some.inj he
  unfold decodeMicro
  simp only [HAppend.hAppend, Append.append]
  simp only [bit1_lsb, extract_low, extract_high, lsb_low, lsb_high, extract_all, Nat.reduceLeDiff, Nat.reduceLT, Nat.reduceAdd, Nat.reduceSub, Nat.le_refl, Nat.zero_le]
  simp [zeroField, need, bit1_lsb, bind, Except.bind, pure, Except.pure, decAxis_enc]

theorem RoundTrip.shift (u : UShift) : RoundTrip.Statement (.shift u) := by
  intro h
  refine ⟨fun k w hk he => noWord he, fun w he => ?_⟩
  simp only [Instr.wf] at h
  obtain ⟨_ | _, mag, neg, _ | _, axis⟩ := u <;>
  · obtain rfl := Option.some.inj he
    unfold decodeMicro
    simp only [HAppend.hAppend, Append.append]
    simp only [bit1_lsb, extract_low, extract_high, lsb_low, lsb_high, extract_all, Nat.reduceLeDiff, Nat.reduceLT, Nat.reduceAdd, Nat.reduceSub, Nat.le_refl, Nat.zero_le]
    simp [zeroField, need, bit1_lsb, bind, Except.bind, pure, Except.pure, decAxis_enc]
    try simp at h

theorem RoundTrip.inj (u : UInj) : RoundTrip.Statement (.inj u) := by
  intro _h
  refine ⟨fun k w hk he => noWord he, fun w he => ?_⟩
  obtain rfl := Option.some.inj he
  unfold decodeMicro
  simp only [HAppend.hAppend, Append.append, dUInj]
  simp only [bit1_lsb, extract_low, extract_high, lsb_low, lsb_high, extract_all, Nat.reduceLeDiff, Nat.reduceLT, Nat.reduceAdd, Nat.reduceSub, Nat.le_refl, Nat.zero_le]
  simp [zeroField, need, bit1_lsb, bind, Except.bind, pure, Except.pure]
  obtain ⟨n2, n1, n0, f2, f1, f0, s, mode, xring⟩ := u
  cases mode <;> rfl

theorem RoundTrip.clrp (op : Bool) : RoundTrip.Statement (.clrp op) := by
  intro _h
  refine ⟨fun k w hk he => noWord he, fun w he => ?_⟩
  obtain rfl := Option.some.inj he
  unfold decodeMicro
  simp only [HAppend.hAppend, Append.append]
  simp only [bit1_lsb, extract_low, extract_high, lsb_low, lsb_high, extract_all, Nat.reduceLeDiff, Nat.reduceLT, Nat.reduceAdd, Nat.reduceSub, Nat.le_refl, Nat.zero_le]
  simp [zeroField, need, bit1_lsb, bind, Except.bind, pure, Except.pure]

theorem RoundTrip.ldp (u : ULdp) : RoundTrip.Statement (.ldp u) := by
  intro _h
  refine ⟨fun k w hk he => noWord he, fun w he => ?_⟩
  obtain rfl := Option.some.inj he
  unfold decodeMicro
  simp only [HAppend.hAppend, Append.append]
  simp only [bit1_lsb, extract_low, extract_high, lsb_low, lsb_high, extract_all, Nat.reduceLeDiff, Nat.reduceLT, Nat.reduceAdd, Nat.reduceSub, Nat.le_refl, Nat.zero_le]
  simp [zeroField, need, bit1_lsb, bind, Except.bind, pure, Except.pure]

theorem RoundTrip.drnp (u : UDrnp) : RoundTrip.Statement (.drnp u) := by
  intro _h
  refine ⟨fun k w hk he => noWord he, fun w he => ?_⟩
  obtain ⟨tiles, cell, fill, _ | _ | face | face, ring⟩ := u <;>
  · obtain rfl := Option.some.inj he
    unfold decodeMicro
    simp only [HAppend.hAppend, Append.append, dUDrnp, encDrain]
    simp only [bit1_lsb, extract_low, extract_high, lsb_low, lsb_high, extract_all, Nat.reduceLeDiff, Nat.reduceLT, Nat.reduceAdd, Nat.reduceSub, Nat.le_refl, Nat.zero_le]
    simp [zeroField, need, bit1_lsb, bind, Except.bind, pure, Except.pure]

theorem RoundTrip.hexp : RoundTrip.Statement (.hexp) := by
  intro _h
  refine ⟨fun k w hk he => noWord he, fun w he => ?_⟩
  obtain rfl := Option.some.inj he
  unfold decodeMicro
  simp only [HAppend.hAppend, Append.append]
  simp only [bit1_lsb, extract_low, extract_high, lsb_low, lsb_high, extract_all, Nat.reduceLeDiff, Nat.reduceLT, Nat.reduceAdd, Nat.reduceSub, Nat.le_refl, Nat.zero_le]
  simp [zeroField, need, bit1_lsb, bind, Except.bind, pure, Except.pure]

theorem RoundTrip.hmrg (n : UCount 5) : RoundTrip.Statement (.hmrg n) := by
  intro h
  refine ⟨fun k w hk he => noWord he, fun w he => ?_⟩
  simp only [Instr.wf] at h
  cases n <;>
  · obtain rfl := Option.some.inj he
    unfold decodeMicro
    simp only [HAppend.hAppend, Append.append, encUCount, decUCount]
    simp only [bit1_lsb, extract_low, extract_high, lsb_low, lsb_high, extract_all, Nat.reduceLeDiff, Nat.reduceLT, Nat.reduceAdd, Nat.reduceSub, Nat.le_refl, Nat.zero_le]
    simp [zeroField, need, bit1_lsb, bind, Except.bind, pure, Except.pure]
    try simp_all

theorem RoundTrip.bndm (u : UBndm) : RoundTrip.Statement (.bndm u) := by
  intro _h
  refine ⟨fun k w hk he => noWord he, fun w he => ?_⟩
  obtain rfl := Option.some.inj he
  unfold decodeMicro
  simp only [HAppend.hAppend, Append.append, dUBndm]
  simp only [bit1_lsb, extract_low, extract_high, lsb_low, lsb_high, extract_all, Nat.reduceLeDiff, Nat.reduceLT, Nat.reduceAdd, Nat.reduceSub, Nat.le_refl, Nat.zero_le]
  simp [zeroField, need, bit1_lsb, bind, Except.bind, pure, Except.pure, decBMode_enc]

theorem RoundTrip.uloop (n : UCount 12) : RoundTrip.Statement (.uloop n) := by
  intro _h
  refine ⟨fun k w hk he => noWord he, fun w he => ?_⟩
  cases n <;>
  · obtain rfl := Option.some.inj he
    unfold decodeMicro
    simp only [HAppend.hAppend, Append.append, encUCount, decUCount]
    simp only [bit1_lsb, extract_low, extract_high, lsb_low, lsb_high, extract_all, Nat.reduceLeDiff, Nat.reduceLT, Nat.reduceAdd, Nat.reduceSub, Nat.le_refl, Nat.zero_le]
    simp [zeroField, need, bit1_lsb, bind, Except.bind, pure, Except.pure]

theorem RoundTrip.uend : RoundTrip.Statement (.uend) := by
  intro _h
  refine ⟨fun k w hk he => noWord he, fun w he => ?_⟩
  obtain rfl := Option.some.inj he
  unfold decodeMicro
  simp only [HAppend.hAppend, Append.append]
  simp only [bit1_lsb, extract_low, extract_high, lsb_low, lsb_high, extract_all, Nat.reduceLeDiff, Nat.reduceLT, Nat.reduceAdd, Nat.reduceSub, Nat.le_refl, Nat.zero_le]
  simp [zeroField, need, bit1_lsb, bind, Except.bind, pure, Except.pure]

theorem RoundTrip.uwait (u : UWaitFor) : RoundTrip.Statement (.uwait u) := by
  intro _h
  refine ⟨fun k w hk he => noWord he, fun w he => ?_⟩
  cases u <;>
  · obtain rfl := Option.some.inj he
    unfold decodeMicro
    simp only [HAppend.hAppend, Append.append]
    simp only [bit1_lsb, extract_low, extract_high, lsb_low, lsb_high, extract_all, Nat.reduceLeDiff, Nat.reduceLT, Nat.reduceAdd, Nat.reduceSub, Nat.le_refl, Nat.zero_le]
    simp [zeroField, need, bit1_lsb, bind, Except.bind, pure, Except.pure]

theorem RoundTrip.uret : RoundTrip.Statement (.uret) := by
  intro _h
  refine ⟨fun k w hk he => noWord he, fun w he => ?_⟩
  obtain rfl := Option.some.inj he
  unfold decodeMicro
  simp only [HAppend.hAppend, Append.append]
  simp only [bit1_lsb, extract_low, extract_high, lsb_low, lsb_high, extract_all, Nat.reduceLeDiff, Nat.reduceLT, Nat.reduceAdd, Nat.reduceSub, Nat.le_refl, Nat.zero_le]
  simp [zeroField, need, bit1_lsb, bind, Except.bind, pure, Except.pure]

/-! ## Events, which have no encoding -/

theorem RoundTrip.planeCallStart (core : Nat) : RoundTrip.Statement (.planeCallStart core) :=
  fun _ => ⟨fun _ _ _ he => noWord he, fun _ he => noMicro he⟩

theorem RoundTrip.haloGrant (core : Nat) : RoundTrip.Statement (.haloGrant core) :=
  fun _ => ⟨fun _ _ _ he => noWord he, fun _ he => noMicro he⟩

theorem RoundTrip.haloArrival (core inbox : Nat) : RoundTrip.Statement (.haloArrival core inbox) :=
  fun _ => ⟨fun _ _ _ he => noWord he, fun _ he => noMicro he⟩

theorem RoundTrip.notify (fn : Nat) (value : Word) : RoundTrip.Statement (.notify fn value) :=
  fun _ => ⟨fun _ _ _ he => noWord he, fun _ he => noMicro he⟩

theorem RoundTrip.queueEnable (fn : Nat) (value : Word) : RoundTrip.Statement (.queueEnable fn value) :=
  fun _ => ⟨fun _ _ _ he => noWord he, fun _ he => noMicro he⟩

theorem RoundTrip.teardown (fn : Nat) (value : Word) : RoundTrip.Statement (.teardown fn value) :=
  fun _ => ⟨fun _ _ _ he => noWord he, fun _ he => noMicro he⟩

theorem RoundTrip.teardownAbort (fn : Nat) (value : Word) : RoundTrip.Statement (.teardownAbort fn value) :=
  fun _ => ⟨fun _ _ _ he => noWord he, fun _ he => noMicro he⟩

theorem RoundTrip.objset (fn : Nat) (value : Word) : RoundTrip.Statement (.objset fn value) :=
  fun _ => ⟨fun _ _ _ he => noWord he, fun _ he => noMicro he⟩

theorem RoundTrip.ephconsWrite (fn : Nat) (value : Word) : RoundTrip.Statement (.ephconsWrite fn value) :=
  fun _ => ⟨fun _ _ _ he => noWord he, fun _ he => noMicro he⟩

theorem RoundTrip.loglimitWrite (fn : Nat) (value : Word) : RoundTrip.Statement (.loglimitWrite fn value) :=
  fun _ => ⟨fun _ _ _ he => noWord he, fun _ he => noMicro he⟩

theorem RoundTrip.logprodWrite (fn : Nat) (value : Word) : RoundTrip.Statement (.logprodWrite fn value) :=
  fun _ => ⟨fun _ _ _ he => noWord he, fun _ he => noMicro he⟩

theorem RoundTrip.registerWrite (fn off : Nat) (value : Word) : RoundTrip.Statement (.registerWrite fn off value) :=
  fun _ => ⟨fun _ _ _ he => noWord he, fun _ he => noMicro he⟩

theorem RoundTrip.packetAccept (queue : Nat) (readOk : Bool) : RoundTrip.Statement (.packetAccept queue readOk) :=
  fun _ => ⟨fun _ _ _ he => noWord he, fun _ he => noMicro he⟩

theorem RoundTrip.placeAndLoad (part : Nat) : RoundTrip.Statement (.placeAndLoad part) :=
  fun _ => ⟨fun _ _ _ he => noWord he, fun _ he => noMicro he⟩

theorem RoundTrip.contextRetirement (core ctx : Nat) : RoundTrip.Statement (.contextRetirement core ctx) :=
  fun _ => ⟨fun _ _ _ he => noWord he, fun _ he => noMicro he⟩

theorem RoundTrip.launchRetirement (part : Nat) : RoundTrip.Statement (.launchRetirement part) :=
  fun _ => ⟨fun _ _ _ he => noWord he, fun _ he => noMicro he⟩

theorem RoundTrip.ephemerisRecordWrite (part : Nat) : RoundTrip.Statement (.ephemerisRecordWrite part) :=
  fun _ => ⟨fun _ _ _ he => noWord he, fun _ he => noMicro he⟩

theorem RoundTrip.tenantPreemptionSave (part : Nat) : RoundTrip.Statement (.tenantPreemptionSave part) :=
  fun _ => ⟨fun _ _ _ he => noWord he, fun _ he => noMicro he⟩

theorem RoundTrip.resultWriteback (core ctx : Nat) : RoundTrip.Statement (.resultWriteback core ctx) :=
  fun _ => ⟨fun _ _ _ he => noWord he, fun _ he => noMicro he⟩

theorem RoundTrip.fmtTakesEffect (core ctx : Nat) : RoundTrip.Statement (.fmtTakesEffect core ctx) :=
  fun _ => ⟨fun _ _ _ he => noWord he, fun _ he => noMicro he⟩

theorem RoundTrip.pendingResultLands (id : Nat) : RoundTrip.Statement (.pendingResultLands id) :=
  fun _ => ⟨fun _ _ _ he => noWord he, fun _ he => noMicro he⟩

theorem RoundTrip.trapDelivery (core ctx : Nat) : RoundTrip.Statement (.trapDelivery core ctx) :=
  fun _ => ⟨fun _ _ _ he => noWord he, fun _ he => noMicro he⟩

theorem RoundTrip.terminalTrap (core ctx : Nat) : RoundTrip.Statement (.terminalTrap core ctx) :=
  fun _ => ⟨fun _ _ _ he => noWord he, fun _ he => noMicro he⟩

theorem RoundTrip.contextPreemption (core ctx : Nat) : RoundTrip.Statement (.contextPreemption core ctx) :=
  fun _ => ⟨fun _ _ _ he => noWord he, fun _ he => noMicro he⟩

theorem RoundTrip.contextResume (core ctx : Nat) : RoundTrip.Statement (.contextResume core ctx) :=
  fun _ => ⟨fun _ _ _ he => noWord he, fun _ he => noMicro he⟩

theorem RoundTrip.copyBegin (core : Nat) : RoundTrip.Statement (.copyBegin core) :=
  fun _ => ⟨fun _ _ _ he => noWord he, fun _ he => noMicro he⟩

theorem RoundTrip.copyComplete (core ctx ent : Nat) : RoundTrip.Statement (.copyComplete core ctx ent) :=
  fun _ => ⟨fun _ _ _ he => noWord he, fun _ he => noMicro he⟩

theorem RoundTrip.copyElementFault (core ctx ent : Nat) (uncorrectable : Option Bool) : RoundTrip.Statement (.copyElementFault core ctx ent uncorrectable) :=
  fun _ => ⟨fun _ _ _ he => noWord he, fun _ he => noMicro he⟩

theorem RoundTrip.ringTailAdvance (core ring : Nat) : RoundTrip.Statement (.ringTailAdvance core ring) :=
  fun _ => ⟨fun _ _ _ he => noWord he, fun _ he => noMicro he⟩

theorem RoundTrip.streamReadahead (core gen : Nat) : RoundTrip.Statement (.streamReadahead core gen) :=
  fun _ => ⟨fun _ _ _ he => noWord he, fun _ he => noMicro he⟩

theorem RoundTrip.streamPushWrite (core gen : Nat) : RoundTrip.Statement (.streamPushWrite core gen) :=
  fun _ => ⟨fun _ _ _ he => noWord he, fun _ he => noMicro he⟩

theorem RoundTrip.transposeColumnReady (core : Nat) : RoundTrip.Statement (.transposeColumnReady core) :=
  fun _ => ⟨fun _ _ _ he => noWord he, fun _ he => noMicro he⟩

theorem RoundTrip.randomVectorProduce (core : Nat) : RoundTrip.Statement (.randomVectorProduce core) :=
  fun _ => ⟨fun _ _ _ he => noWord he, fun _ he => noMicro he⟩

theorem RoundTrip.walkStart (die : Nat) : RoundTrip.Statement (.walkStart die) :=
  fun _ => ⟨fun _ _ _ he => noWord he, fun _ he => noMicro he⟩

theorem RoundTrip.walkComplete (die entry : Nat) : RoundTrip.Statement (.walkComplete die entry) :=
  fun _ => ⟨fun _ _ _ he => noWord he, fun _ he => noMicro he⟩

theorem RoundTrip.homeWrite (w : WriteRef) : RoundTrip.Statement (.homeWrite w) :=
  fun _ => ⟨fun _ _ _ he => noWord he, fun _ he => noMicro he⟩

theorem RoundTrip.remoteWriteApply (die id : Nat) : RoundTrip.Statement (.remoteWriteApply die id) :=
  fun _ => ⟨fun _ _ _ he => noWord he, fun _ he => noMicro he⟩

theorem RoundTrip.replicaUpdate (die line : Nat) : RoundTrip.Statement (.replicaUpdate die line) :=
  fun _ => ⟨fun _ _ _ he => noWord he, fun _ he => noMicro he⟩

theorem RoundTrip.homeReadService (id : Nat) (atReplica keep : Bool) : RoundTrip.Statement (.homeReadService id atReplica keep) :=
  fun _ => ⟨fun _ _ _ he => noWord he, fun _ he => noMicro he⟩

theorem RoundTrip.writeAcknowledge (id : Nat) : RoundTrip.Statement (.writeAcknowledge id) :=
  fun _ => ⟨fun _ _ _ he => noWord he, fun _ he => noMicro he⟩

theorem RoundTrip.errorResponse (r : ErrRef) : RoundTrip.Statement (.errorResponse r) :=
  fun _ => ⟨fun _ _ _ he => noWord he, fun _ he => noMicro he⟩

theorem RoundTrip.fullEmptyService (core granule : Nat) : RoundTrip.Statement (.fullEmptyService core granule) :=
  fun _ => ⟨fun _ _ _ he => noWord he, fun _ he => noMicro he⟩

theorem RoundTrip.atomicService (engine : Nat) : RoundTrip.Statement (.atomicService engine) :=
  fun _ => ⟨fun _ _ _ he => noWord he, fun _ he => noMicro he⟩

theorem RoundTrip.atomicRetryTimeout (id : Nat) : RoundTrip.Statement (.atomicRetryTimeout id) :=
  fun _ => ⟨fun _ _ _ he => noWord he, fun _ he => noMicro he⟩

theorem RoundTrip.atomicAck (id : Nat) : RoundTrip.Statement (.atomicAck id) :=
  fun _ => ⟨fun _ _ _ he => noWord he, fun _ he => noMicro he⟩

theorem RoundTrip.serialiserStamp : RoundTrip.Statement (.serialiserStamp) :=
  fun _ => ⟨fun _ _ _ he => noWord he, fun _ he => noMicro he⟩

theorem RoundTrip.vsyncComplete (core ctx : Nat) : RoundTrip.Statement (.vsyncComplete core ctx) :=
  fun _ => ⟨fun _ _ _ he => noWord he, fun _ he => noMicro he⟩

theorem RoundTrip.groupRequestApply : RoundTrip.Statement (.groupRequestApply) :=
  fun _ => ⟨fun _ _ _ he => noWord he, fun _ he => noMicro he⟩

theorem RoundTrip.snapadvComplete (core ctx : Nat) : RoundTrip.Statement (.snapadvComplete core ctx) :=
  fun _ => ⟨fun _ _ _ he => noWord he, fun _ he => noMicro he⟩

theorem RoundTrip.releaseGateDecision : RoundTrip.Statement (.releaseGateDecision) :=
  fun _ => ⟨fun _ _ _ he => noWord he, fun _ he => noMicro he⟩

theorem RoundTrip.publishVersionWrite (core ctx ent : Nat) : RoundTrip.Statement (.publishVersionWrite core ctx ent) :=
  fun _ => ⟨fun _ _ _ he => noWord he, fun _ he => noMicro he⟩

theorem RoundTrip.objectAnswerDelivery (core object : Nat) : RoundTrip.Statement (.objectAnswerDelivery core object) :=
  fun _ => ⟨fun _ _ _ he => noWord he, fun _ he => noMicro he⟩

theorem RoundTrip.installDescriptor (fn : Nat) : RoundTrip.Statement (.installDescriptor fn) :=
  fun _ => ⟨fun _ _ _ he => noWord he, fun _ he => noMicro he⟩

theorem RoundTrip.writePageTableEntries (fn : Nat) : RoundTrip.Statement (.writePageTableEntries fn) :=
  fun _ => ⟨fun _ _ _ he => noWord he, fun _ he => noMicro he⟩

theorem RoundTrip.rangeEntries (fn : Nat) : RoundTrip.Statement (.rangeEntries fn) :=
  fun _ => ⟨fun _ _ _ he => noWord he, fun _ he => noMicro he⟩

theorem RoundTrip.egressWindow (fn : Nat) : RoundTrip.Statement (.egressWindow fn) :=
  fun _ => ⟨fun _ _ _ he => noWord he, fun _ he => noMicro he⟩

theorem RoundTrip.publicationWindow (fn : Nat) : RoundTrip.Statement (.publicationWindow fn) :=
  fun _ => ⟨fun _ _ _ he => noWord he, fun _ he => noMicro he⟩

theorem RoundTrip.releasePolicy (fn : Nat) : RoundTrip.Statement (.releasePolicy fn) :=
  fun _ => ⟨fun _ _ _ he => noWord he, fun _ he => noMicro he⟩

theorem RoundTrip.resetPartitionRequest (fn : Nat) : RoundTrip.Statement (.resetPartitionRequest fn) :=
  fun _ => ⟨fun _ _ _ he => noWord he, fun _ he => noMicro he⟩

theorem RoundTrip.readManifest (fn : Nat) : RoundTrip.Statement (.readManifest fn) :=
  fun _ => ⟨fun _ _ _ he => noWord he, fun _ he => noMicro he⟩

theorem RoundTrip.attest (fn : Nat) : RoundTrip.Statement (.attest fn) :=
  fun _ => ⟨fun _ _ _ he => noWord he, fun _ he => noMicro he⟩

theorem RoundTrip.debugAttach (fn : Nat) : RoundTrip.Statement (.debugAttach fn) :=
  fun _ => ⟨fun _ _ _ he => noWord he, fun _ he => noMicro he⟩

theorem RoundTrip.debugHalt (fn core : Nat) : RoundTrip.Statement (.debugHalt fn core) :=
  fun _ => ⟨fun _ _ _ he => noWord he, fun _ he => noMicro he⟩

theorem RoundTrip.debugResume (fn core : Nat) : RoundTrip.Statement (.debugResume fn core) :=
  fun _ => ⟨fun _ _ _ he => noWord he, fun _ he => noMicro he⟩

theorem RoundTrip.debugPreemptContext (fn core ctx : Nat) : RoundTrip.Statement (.debugPreemptContext fn core ctx) :=
  fun _ => ⟨fun _ _ _ he => noWord he, fun _ he => noMicro he⟩

theorem RoundTrip.debugStateRead (fn core ctx num : Nat) : RoundTrip.Statement (.debugStateRead fn core ctx num) :=
  fun _ => ⟨fun _ _ _ he => noWord he, fun _ he => noMicro he⟩

theorem RoundTrip.readFaultRegisters (fn : Nat) : RoundTrip.Statement (.readFaultRegisters fn) :=
  fun _ => ⟨fun _ _ _ he => noWord he, fun _ he => noMicro he⟩

theorem RoundTrip.readHarvestMap (fn : Nat) : RoundTrip.Statement (.readHarvestMap fn) :=
  fun _ => ⟨fun _ _ _ he => noWord he, fun _ he => noMicro he⟩

theorem RoundTrip.mailboxResponse (fn : Nat) : RoundTrip.Statement (.mailboxResponse fn) :=
  fun _ => ⟨fun _ _ _ he => noWord he, fun _ he => noMicro he⟩

theorem RoundTrip.functionLevelReset (fn : Nat) : RoundTrip.Statement (.functionLevelReset fn) :=
  fun _ => ⟨fun _ _ _ he => noWord he, fun _ he => noMicro he⟩

theorem RoundTrip.meshRoutesInstalled : RoundTrip.Statement (.meshRoutesInstalled) :=
  fun _ => ⟨fun _ _ _ he => noWord he, fun _ he => noMicro he⟩

theorem RoundTrip.moduleReset (failed : List UnitName) : RoundTrip.Statement (.moduleReset failed) :=
  fun _ => ⟨fun _ _ _ he => noWord he, fun _ he => noMicro he⟩

theorem RoundTrip.linkRetrainOrDrop (link : Nat) (drop : Bool) : RoundTrip.Statement (.linkRetrainOrDrop link drop) :=
  fun _ => ⟨fun _ _ _ he => noWord he, fun _ he => noMicro he⟩

theorem RoundTrip.peerPortTrained (port : Nat) : RoundTrip.Statement (.peerPortTrained port) :=
  fun _ => ⟨fun _ _ _ he => noWord he, fun _ he => noMicro he⟩

theorem RoundTrip.peerPortTrainingLoss (port : Nat) : RoundTrip.Statement (.peerPortTrainingLoss port) :=
  fun _ => ⟨fun _ _ _ he => noWord he, fun _ he => noMicro he⟩

theorem RoundTrip.powerWindowEnd (milliwatts : List Nat) : RoundTrip.Statement (.powerWindowEnd milliwatts) :=
  fun _ => ⟨fun _ _ _ he => noWord he, fun _ he => noMicro he⟩

theorem RoundTrip.frequencyChange (part : Nat) : RoundTrip.Statement (.frequencyChange part) :=
  fun _ => ⟨fun _ _ _ he => noWord he, fun _ he => noMicro he⟩

theorem RoundTrip.islandOvertemp (island : Nat) : RoundTrip.Statement (.islandOvertemp island) :=
  fun _ => ⟨fun _ _ _ he => noWord he, fun _ he => noMicro he⟩

theorem RoundTrip.islandCooled (part : Nat) : RoundTrip.Statement (.islandCooled part) :=
  fun _ => ⟨fun _ _ _ he => noWord he, fun _ he => noMicro he⟩

theorem RoundTrip.thermalTrip : RoundTrip.Statement (.thermalTrip) :=
  fun _ => ⟨fun _ _ _ he => noWord he, fun _ he => noMicro he⟩

theorem RoundTrip.correctableError (u : UnitName) : RoundTrip.Statement (.correctableError u) :=
  fun _ => ⟨fun _ _ _ he => noWord he, fun _ he => noMicro he⟩

theorem RoundTrip.errorWindowEnd : RoundTrip.Statement (.errorWindowEnd) :=
  fun _ => ⟨fun _ _ _ he => noWord he, fun _ he => noMicro he⟩

theorem RoundTrip.unlistedMailboxOpcode (fn : Nat) : RoundTrip.Statement (.unlistedMailboxOpcode fn) :=
  fun _ => ⟨fun _ _ _ he => noWord he, fun _ he => noMicro he⟩

end Sys2Proof.Laws
end

