-- ==== Sys2Proof/Safety.lean ====
section
/-! DEFINITION. What claims are stated in: the canonical form of every memory, what a slot leaves alone, what an access
ends in whose checks fail, and a vector result read lane by lane. -/

namespace Sys2Proof.Machine

/-- The canonical form of a memory: addresses strictly rising, and no entry equal to 0, what an unlisted address reads
as. -/
abbrev Memory.wf (t : Table Byte) : Bool := twf 0 t

/-- Every memory of the module is in canonical form: stack memory, the host's memories, peer memories and slices. -/
def State.memWf (s : State) : Bool :=
  Memory.wf s.stack && Memory.wf s.host0 && Memory.wf s.host1 && s.peers.all (fun e => Memory.wf e.2) &&
  s.cores.all (fun e => Memory.wf e.2.slice)

/-- A plane lists cells below 131,072 in canonical form. -/
def Plane.wf (p : Plane) : Bool := twf 0 p.cells && p.cells.all (fun e => decide (e.1 < 131072))

/-- A call keeps R286 to R288, and its halo lists box cells outside the plane in canonical form. -/
def Call.wf (c : Call) : Bool :=
  c.argsOk && twf 0 c.halo && c.halo.all (fun e => decide (e.1 < c.boxCells) && !c.inPlane (c.boxPos e.1))

/-- The microprogram store lists no zero word and its addresses rise strictly, the entries of the routine table and of the
full-empty bits rise strictly, and every plane and every call keeps its form. -/
def Core.storesWf (k : Core) : Bool :=
  twf 0 k.ustore && tsortedFrom 0 k.routines && tsortedFrom 0 k.fe && k.planes.all (fun e => e.2.wf) && k.calls.all Call.wf

/-- The exact cells rise strictly, every core keeps its form, and its calls have numbers of their own, given before the
next. -/
def State.storesWf (s : State) : Bool :=
  tsortedFrom 0 s.cells &&
  s.cores.all (fun e => e.2.storesWf && decide ((e.2.calls.map (·.uid)).Nodup) && e.2.calls.all (fun c => decide (c.uid < s.nextId)))

/-- From `s` to `t` nothing has changed but the context in focus and the outcome of its slot: no memory, no other context, no
core, die, partition or launch, and no request in flight. -/
def State.onlyMyContext (s t : State) : Prop :=
  t = { s with cores := t.cores, cur := t.cur } ∧ t.cur = { s.cur with verdict := t.cur.verdict } ∧
  (∀ c, { t.core c with ctxs := [] } = { s.core c with ctxs := [] }) ∧
  (∀ c x, (c = s.cur.core ∧ x = s.cur.ctx) ∨ t.ctx c x = s.ctx c x)

/-- Where the checks of an access of n bytes fail, and what it ends in: its alignment (R196), a miss in deterministic mode (R123), the
checks of its bytes (R116, R117), the ranges of the open phase (R410), and for a load or store of the own slice a write or an atomic that
it would overtake (notes/assumptions entry 42). `s` is the state in which its slot begins, `t` that after its operands, `o` the outcome. -/
def State.accessFails (s t : State) (k : AKind) (va : Word) (n : Nat) (m : Mask) (o : Out) : Prop :=
  let traps (c : Cause) (a : Word) : Prop := o = .next (s.trapHere c 0 a)
  let checked := t.checkSpan (t.accessOf k m) va.toNat n
  let escaped (hs : List Hit) : Option Nat := t.escapes (k == .write) hs 0
  (va.toNat % n ≠ 0 → traps .misalign va) ∧
  (va.toNat % n = 0 → t.noMiss va.toNat n ≠ .ok () → traps .overrun 0) ∧
  (va.toNat % n = 0 → t.noMiss va.toNat n = .ok () →
    (∀ c a, checked = .error (c, a) → traps c a) ∧
    (∀ hs, checked = .ok hs → k ≠ .atomic →
      (∀ i, escaped hs = some i → traps .phaseEscape (va + BitVec.ofNat 64 i)) ∧
      (escaped hs = none → t.overdue hs = true →
        (s.det s.cur.core = false → o = .next (s.verdict .stalled)) ∧ (s.det s.cur.core = true → traps .overrun 0))))

/-- A result read lane by lane: lane j of e bits holds the low e bits of the value that `F` gives for j, for the n lanes of
the width, and the flags are those of the lanes joined. -/
def lanesAre (e n : Nat) (r : Vec × BitVec 8) (F : Nat → Nat × BitVec 8) : Prop :=
  (∀ j < n, lane r.1 e j = (F j).1 % 2 ^ e) ∧
  (∀ k < 8, r.2.getLsbD k = true ↔ ∃ j < n, (F j).2.getLsbD k = true)

/-- The value of node i at level k of the tree of R226: level 0 holds the lanes, and lane 2i of the level below is the left
operand. -/
def treeNode (op : Nat → Nat → Nat × BitVec 8) (a : Nat → Nat) : Nat → Nat → Nat
  | 0, i => a i
  | k + 1, i => (op (treeNode op a k (2 * i)) (treeNode op a k (2 * i + 1))).1

/-- The forms of slot 0 that write one s register and nothing else, with that register. -/
def scalarDest : Instr → Option Dest
  | .add f | .sub f | .mul f | .mulh f | .mulhu f | .div f | .divu f | .rem f | .remu f => some (sDest f.d)
  | .and f | .or f | .xor f | .andn f | .shl f | .shr f | .sar f | .min f | .max f | .minu f | .maxu f => some (sDest f.d)
  | .clz f | .ctz f | .popc f | .gquery f | .lblget f => some (sDest f.d)
  | .sel f => some (sDest f.d)
  | .addi f | .andi f | .ori f | .xori f => some (sDest f.d)
  | .shli f | .shri f | .sari f => some (sDest f.d)
  | .movi f | .movsh f => some (sDest f.d)
  | _ => none

/-- The forms of the vector slots that write one register of the slot's file and read no memory, with that register. -/
def vectorDest (s : State) : Instr → Option Dest
  | .vadd f | .vsub f | .vmul f | .vfma f | .vfms f | .vmin f | .vmax f =>
    some (.vreg s.vfile f.d.toNat 0 (widthBits f.width))
  | .vabs f | .vneg f => some (.vreg s.vfile f.d.toNat 0 (widthBits f.width))
  | .vrcp f | .vrsq f | .vsqrt f | .vexp2 f | .vlog2 f | .vmov f => some (.vreg s.vfile f.d.toNat 0 (widthBits f.width))
  | .viadd f | .visub f | .vimul f | .vimad f | .vimin f | .vimax f =>
    some (.vreg s.vfile f.d.toNat 0 (widthBits f.width))
  | .vand f | .vor f | .vxor f | .vandn f | .vshl f | .vshr f | .vsar f | .vperm f =>
    some (.vreg s.vfile f.d.toNat 0 (widthBits f.width))
  | .vmrg f => some (.vreg s.vfile f.d.toNat 0 (widthBits f.width))
  | .vred f => some (.vreg s.vfile f.d.toNat 0 (widthBits f.width))
  | .vbcast f | .vextr f | .vins f => some (.vreg s.vfile f.d.toNat 0 (widthBits f.width))
  | .vcvt f => some (.vreg s.vfile f.d.toNat 0 (widthBits f.width))
  | .vpack f | .vunpk f => some (.vreg s.vfile f.d.toNat 0 (widthBits f.width))
  | _ => none

end Sys2Proof.Machine
end

