-- ==== Sys2Proof/Certificates/Slice0/Obligations.lean ====
section
/-! DEFINITION. The statements for the provers. A statement of an instruction's result has the hypotheses on the state and
the operands in front, and says which next state `exec` answers. -/

open Sys2Proof Sys2Proof.Machine

/-! ## Slot 0: register arithmetic -/

/-- R180 and R181, with the latencies of R165. The products of MULH and MULHU are 128 bits wide; SAR is a floor division. -/
def Obligations.RegisterArithmeticResults : Prop :=
  ∀ (f : FS3) (s s1 s2 : State) (a b : Lab 64),
    s.me.holds f.gd = true → s.destReady (sDest f.d) = .ok () →
    s.opnd f.a = .ok (a, s1) → s1.opnd f.b = .ok (b, s2) →
    let m := s.me.base f.gd ||| a.mask ||| b.mask
    let gives (L : Nat) (v : Word) : Out := .next ((s2.writeS L f.w f.d v m).verdict .issued)
    let busy := s2.modMe (fun x => { x with divFree := x.cycle + 20 })
    let divides (v : Word) : Out := .next ((busy.writeS 20 f.w f.d v m).verdict .issued)
    exec (.add f) s = gives 1 (a.val + b.val) ∧
    exec (.sub f) s = gives 1 (a.val - b.val) ∧
    exec (.mul f) s = gives 3 ((a.val.setWidth 128 * b.val.setWidth 128).extractLsb' 0 64) ∧
    exec (.mulh f) s = gives 3 ((a.val.signExtend 128 * b.val.signExtend 128).extractLsb' 64 64) ∧
    exec (.mulhu f) s = gives 3 ((a.val.setWidth 128 * b.val.setWidth 128).extractLsb' 64 64) ∧
    exec (.and f) s = gives 1 (a.val &&& b.val) ∧
    exec (.or f) s = gives 1 (a.val ||| b.val) ∧
    exec (.xor f) s = gives 1 (a.val ^^^ b.val) ∧
    exec (.andn f) s = gives 1 (a.val &&& ~~~b.val) ∧
    exec (.shl f) s = gives 1 (a.val * BitVec.ofNat 64 (2 ^ (b.val.extractLsb' 0 6).toNat)) ∧
    exec (.shr f) s = gives 1 (BitVec.ofNat 64 (a.val.toNat / 2 ^ (b.val.extractLsb' 0 6).toNat)) ∧
    exec (.sar f) s = gives 1 (BitVec.ofInt 64 (a.val.toInt / 2 ^ (b.val.extractLsb' 0 6).toNat)) ∧
    exec (.min f) s = gives 1 (BitVec.ofInt 64 (min a.val.toInt b.val.toInt)) ∧
    exec (.max f) s = gives 1 (BitVec.ofInt 64 (max a.val.toInt b.val.toInt)) ∧
    exec (.minu f) s = gives 1 (BitVec.ofNat 64 (min a.val.toNat b.val.toNat)) ∧
    exec (.maxu f) s = gives 1 (BitVec.ofNat 64 (max a.val.toNat b.val.toNat)) ∧
    (s2.me.divFree ≤ s2.me.cycle →
      (b.val ≠ 0 →
        exec (.div f) s = divides (a.val.sdiv b.val) ∧
        exec (.divu f) s = divides (a.val / b.val) ∧
        exec (.rem f) s = divides (a.val - b.val * a.val.sdiv b.val) ∧
        exec (.remu f) s = divides (a.val % b.val)) ∧
      (b.val = 0 →
        exec (.div f) s = divides 0xFFFFFFFFFFFFFFFF ∧
        exec (.divu f) s = divides 0xFFFFFFFFFFFFFFFF ∧
        exec (.rem f) s = divides a.val ∧
        exec (.remu f) s = divides a.val) ∧
      (a.val = BitVec.intMin 64 → b.val = -1 →
        exec (.div f) s = divides (BitVec.intMin 64) ∧
        exec (.rem f) s = divides 0))

/-- R183 to R187. -/
def Obligations.SelectAndImmediateResults : Prop :=
  (∀ (f : FS2) (s s1 : State) (a : Lab 64),
    s.me.holds f.gd = true → s.destReady (sDest f.d) = .ok () → s.opnd f.a = .ok (a, s1) →
    let gives (v : Nat) : Out :=
      .next ((s1.writeS 1 f.w f.d (BitVec.ofNat 64 v) (s.me.base f.gd ||| a.mask)).verdict .issued)
    (a.val = 0 → exec (.clz f) s = gives 64 ∧ exec (.ctz f) s = gives 64) ∧
    (∀ n < 64, a.val.getLsbD (63 - n) = true → (∀ j, 63 - n < j → a.val.getLsbD j = false) → exec (.clz f) s = gives n) ∧
    (∀ n < 64, a.val.getLsbD n = true → (∀ j < n, a.val.getLsbD j = false) → exec (.ctz f) s = gives n) ∧
    exec (.popc f) s = gives ((Finset.range 64).filter (fun j => a.val.getLsbD j = true)).card) ∧
  (∀ (f : FSel) (s s1 s2 : State) (a b : Lab 64),
    s.me.holds f.gd = true → s.destReady (sDest f.d) = .ok () →
    s.opnd f.a = .ok (a, s1) → s1.opnd f.b = .ok (b, s2) →
    let p := s.me.pred f.n.toNat
    exec (.sel f) s = .next ((s2.writeS 1 f.w f.d (if p.val = true then a.val else b.val)
      (s.me.base f.gd ||| p.mask ||| a.mask ||| b.mask)).verdict .issued)) ∧
  (∀ (f : FSI) (s s1 : State) (a : Lab 64),
    s.me.holds f.gd = true → s.destReady (sDest f.d) = .ok () → s.opnd f.a = .ok (a, s1) →
    let gives (v : Word) : Out := .next ((s1.writeS 1 f.w f.d v (s.me.base f.gd ||| a.mask)).verdict .issued)
    exec (.addi f) s = gives (BitVec.ofInt 64 (a.val.toInt + f.imm.toInt)) ∧
    exec (.andi f) s = gives (a.val &&& BitVec.ofInt 64 f.imm.toInt) ∧
    exec (.ori f) s = gives (a.val ||| BitVec.ofInt 64 f.imm.toInt) ∧
    exec (.xori f) s = gives (a.val ^^^ BitVec.ofInt 64 f.imm.toInt)) ∧
  (∀ (f : FSH) (s s1 : State) (a : Lab 64),
    s.me.holds f.gd = true → s.destReady (sDest f.d) = .ok () → s.opnd f.a = .ok (a, s1) →
    let gives (v : Word) : Out := .next ((s1.writeS 1 f.w f.d v (s.me.base f.gd ||| a.mask)).verdict .issued)
    exec (.shli f) s = gives (BitVec.ofNat 64 (a.val.toNat * 2 ^ f.amount.toNat)) ∧
    exec (.shri f) s = gives (BitVec.ofNat 64 (a.val.toNat / 2 ^ f.amount.toNat)) ∧
    exec (.sari f) s = gives (BitVec.ofInt 64 (a.val.toInt / 2 ^ f.amount.toNat))) ∧
  (∀ (f : FSL) (s : State),
    s.me.holds f.gd = true →
    (s.destReady (sDest f.d) = .ok () →
      exec (.movi f) s = .next ((s.writeS 1 f.w f.d (BitVec.ofInt 64 f.imm.toInt) (s.me.base f.gd)).verdict .issued)) ∧
    (s.pending (.sreg f.d.toNat) = false →
      let old := s.me.sreg f.d.toNat
      exec (.movsh f) s = .next ((s.writeS 1 f.w f.d (BitVec.ofNat 64 (old.val.toNat * 2 ^ 16 + f.imm.toNat))
        (s.me.base f.gd ||| old.mask)).verdict .issued)))

/-- R188, R189 and R348, of which PLOG's old p[pd] among the operands of its mask is read as entry 66 of notes/assumptions says. `setPred` sends one result to p[pd] that is visible one cycle later and enters no latch; the last clause says
what a write of p0 leaves. -/
def Obligations.PredicateResults : Prop :=
  (∀ (f : FPC) (s s1 s2 : State) (a b : Lab 64) (c : Bool),
    s.me.holds f.gd = true → s.opnd f.a = .ok (a, s1) → s1.opnd f.b = .ok (b, s2) →
    c = (match f.cond with
      | .eq => decide (a.val = b.val)
      | .ne => decide (a.val ≠ b.val)
      | .lt => a.val.slt b.val
      | .le => a.val.sle b.val
      | .gt => b.val.slt a.val
      | .ge => b.val.sle a.val
      | .ltu => a.val.ult b.val
      | .leu => a.val.ule b.val
      | .gtu => b.val.ult a.val
      | .geu => b.val.ule a.val) →
    let m := s.me.base f.gd ||| a.mask ||| b.mask
    let old := s.me.pred f.pd.toNat
    exec (.cmp f) s = .next ((match f.comb with
      | .write => s2.setPred f.pd.toNat c m
      | .conj => s2.setPred f.pd.toNat (old.val && c) (m ||| old.mask)
      | .disj => s2.setPred f.pd.toNat (old.val || c) (m ||| old.mask)).verdict .issued)) ∧
  (∀ (f : FPL) (s : State),
    s.me.holds f.gd = true →
    let a := s.me.pred f.pa.toNat
    let b := s.me.pred f.pb.toNat
    exec (.plog f) s = .next ((s.setPred f.pd.toNat
      (match f.op with
        | .conj => a.val && b.val
        | .disj => a.val || b.val
        | .xor => a.val ^^ b.val
        | .andn => a.val && !b.val
        | .orn => a.val || !b.val
        | .neg => !a.val
        | .mov => a.val)
      (s.me.base f.gd ||| a.mask ||| (match f.op with | .neg => 0 | .mov => 0 | _ => b.mask) |||
        (s.me.pred f.pd.toNat).mask)).verdict .issued)) ∧
  (∀ (s : State) (n : Nat) (v : Bool) (m : Mask),
    (s.setPred n v m).me.latches = s.me.latches ∧
    (s.setPred n v m).me.flight = s.me.flight ++
      [{ vis := s.me.cycle + 1, dest := .pred n, val := if v then 1 else 0, mask := m, slot := s.cur.slot, own := true,
         issued := s.me.cycle, maskOnly := false }]) ∧
  (∀ (x : Ctx) (n : Nat) (v : Bool) (m : Mask),
    (x.put (.pred n) (if v then 1 else 0) m).pred n = if n = 0 then { val := true, mask := 0 } else { val := v, mask := m })

/-! ## Slot 0: control flow -/

/-- R191 to R194, R150, R152 and R172, and R350 for a false guard. `nds` counts down to the target from 3 as the branch itself and its two delay slots pass.
What no rule states outright is the model's: notes/assumptions entry 27. -/
def Obligations.Branches : Prop :=
  let taken (s : State) (gd : Guard) (m : Mask) (tgt : Option (Nat × Bool)) (rs : List Nat) (rp : Bool) : Out :=
    .next ((s.modMe (fun x => { x with nds := 3, tgt := tgt, nextStart := s.myCore.frame + 3, rstack := rs, retPending := rp,
                                       taintNext := x.taintNext ||| ((x.pred gd.g.toNat).mask ||| m) })).verdict .issued)
  (∀ (f : FBR) (s : State) (t : Nat), s.me.holds f.gd = true →
    (s.me.pc : Int) + 16 * f.disp.toInt = t → t ≤ 0x3FFF0 →
    exec (.br f) s = taken s f.gd 0 (some (t, false)) s.me.rstack s.me.retPending ∧
    (s.me.rstack.length < 16 →
      exec (.call f) s = taken s f.gd 0 (some (t, false)) ((s.me.pc + 48) % 2 ^ 18 :: s.me.rstack) s.me.retPending)) ∧
  (∀ (f : FA) (s s1 : State) (i : Lab 64) (t : Nat) (img : Image), s.me.holds f.gd = true →
    s.opnd f.a = .ok (i, s1) → s1.imageOf s.cur.core = some img → img.targets[i.val.toNat]? = some t →
    s1.me.rstack.length < 16 → (0x3FFF0 < t → exec (.calli f) s = .next (s.trapHere .illegal 0 0)) ∧
    (t ≤ 0x3FFF0 → exec (.calli f) s = taken s1 f.gd i.mask (some (t, false)) ((s1.me.pc + 48) % 2 ^ 18 :: s1.me.rstack) s1.me.retPending)) ∧
  (∀ (f : FZ) (s : State), s.me.holds f.gd = true →
    (∀ t ts, s.me.rstack = t :: ts → exec (.ret f) s = taken s f.gd 0 (some (t, false)) ts s.me.retPending) ∧
    (s.me.rstack = [] → exec (.ret f) s = taken s f.gd 0 none [] true)) ∧
  (∀ (f : FBS) (s : State), s.me.holds f.gd = true →
    exec (.bswap f) s = taken s f.gd 0 (some (16 * f.idx.toNat, true)) s.me.rstack s.me.retPending) ∧
  (∀ (f : FBR) (s : State), s.me.holds f.gd = true →
    let t := (s.me.pc : Int) + 16 * f.disp.toInt
    ((t < 0 ∨ 0x3FFF0 < t) → exec (.br f) s = .next (s.trapHere .illegal 0 0)) ∧
    (s.me.rstack.length = 16 → exec (.call f) s = .next (s.trapHere .retstackFull 0 0)) ∧
    (s.me.rstack.length < 16 → (t < 0 ∨ 0x3FFF0 < t) → exec (.call f) s = .next (s.trapHere .illegal 0 0))) ∧
  (∀ (f : FA) (s s1 : State) (i : Lab 64) (img : Image), s.me.holds f.gd = true → s.opnd f.a = .ok (i, s1) →
    s1.imageOf s.cur.core = some img →
    (s1.me.rstack.length = 16 → exec (.calli f) s = .next (s.trapHere .retstackFull 0 0)) ∧
    (s1.me.rstack.length < 16 → img.targets.length ≤ i.val.toNat → exec (.calli f) s = .next (s.trapHere .callRange 0 0))) ∧
  (∀ (gd : Guard) (s : State), s.me.holds gd = false → (s.me.pred gd.g.toNat).mask ≠ 0 →
    let t : Out := .next ((s.taintUp (s.me.pred gd.g.toNat).mask).verdict .issued)
    (∀ d, exec (.br { gd := gd, disp := d }) s = t ∧ exec (.call { gd := gd, disp := d }) s = t) ∧
    (∀ a, exec (.calli { gd := gd, a := a }) s = t) ∧ exec (.ret { gd := gd }) s = t ∧
    (∀ i, exec (.bswap { gd := gd, idx := i }) s = t))

/-- R182 with R169 and R175 for a busy divider, R209, and R151 for IFENCE. -/
def Obligations.NopIfenceAndBusyDivider : Prop :=
  (∀ (f : FS3) (s s1 s2 : State) (a b : Lab 64),
    s.me.holds f.gd = true → s.destReady (sDest f.d) = .ok () →
    s.opnd f.a = .ok (a, s1) → s1.opnd f.b = .ok (b, s2) → s2.me.cycle < s2.me.divFree →
    ∀ i ∈ [Instr.div f, .divu f, .rem f, .remu f],
      (s.det s.cur.core = false → exec i s = .next (s.verdict .stalled)) ∧
      (s.det s.cur.core = true → exec i s = .next (s.trapHere .overrun 0 0))) ∧
  (∀ (f : FZ) (s : State), exec (.nop f) s = .next (s.verdict .issued) ∧ isNop (.nop f) = true) ∧
  (∀ (f : FZ) (s : State), s.me.holds f.gd = true →
    (s.me.copyq.any CopyEntry.toBank = false → exec (.ifence f) s = .next (s.verdict .issued)) ∧
    (s.me.copyq.any CopyEntry.toBank = true → s.det s.cur.core = false →
      exec (.ifence f) s = .next ((s.modMe (fun x => { x with block := 9 })).verdict (.blocked 9))) ∧
    (s.me.copyq.any CopyEntry.toBank = true → s.det s.cur.core = true →
      exec (.ifence f) s = .next (s.trapHere .overrun 0 0)))

/-! ## Slot 0: memory -/

/-- R197 with the checks of R196, R116, R117 and R410, and R123 for a miss in deterministic mode: `accessFails` says what an access whose
checks fail ends in, and that a load or store of the own slice which comes too soon is held in a stall cycle, the model's reading
(notes/assumptions entry 42). `span` checks the n bytes and gives their physical addresses, `noMiss` and `lookUp` concern the translation
stores, `own` delivers a result with the latency given, and `request` leaves a pending read. -/
def Obligations.ScalarLoadsAndStores : Prop :=
  (∀ (f : FLd) (s s1 : State) (a : Lab 64),
    s.me.holds f.gd = true → s.ldaHolds = false → s.destReady (sDest f.d) = .ok () → s.opnd f.a = .ok (a, s1) →
    let n := sizeBytes f.size
    let va : Word := a.val + BitVec.ofInt 64 (n * f.off.toInt)
    s.accessFails s1 .read va n 0 (exec (.ld f) s) ∧ s.accessFails s1 .read va n 0 (exec (.lds f) s) ∧
    ∀ hs : List Hit, va.toNat % n = 0 → s1.noMiss va.toNat n = .ok () → s1.span .read va n 0 = .ok hs →
    let s2 := s1.lookUp (some s1.nextId) va.toNat n
    let m := s.me.base f.gd ||| a.mask
    let v := leValue (hs.map (fun h => s2.peek h.pa))
    let lands (r : BitVec 1024) : Out :=
      .next (((s2.own 4 f.w (sDest f.d) r (m ||| s2.hitsMask hs)).modMe (fun x =>
        { x with readVis := max x.readVis (x.cycle + 5) })).verdict .issued)
    let asks (fmt : ReadFmt) : Out :=
      .next ((s2.request .mem (if f.w then .nowhere else sDest f.d) fmt (hs.map (fun h => some h.pa)) va
        (m ||| entryMasks hs) false (sealClock hs)).verdict .issued)
    (s2.ownBytes hs = true →
      exec (.ld f) s = lands (BitVec.ofNat 1024 v) ∧
      exec (.lds f) s = lands ((BitVec.ofInt 64 ((BitVec.ofNat (8 * n) v).toInt)).setWidth 1024)) ∧
    (s2.ownBytes hs = false → exec (.ld f) s = asks (.zx n) ∧ exec (.lds f) s = asks (.sx n))) ∧
  (∀ (f : FSt) (s s1 : State) (v a : Lab 64),
    s.me.holds f.gd = true → s.ldaHolds = false → s.dataReg f.d = .ok v → s.opnd f.a = .ok (a, s1) →
    let n := sizeBytes f.size
    let va : Word := a.val + BitVec.ofInt 64 (n * f.off.toInt)
    let m := s.me.base f.gd ||| a.mask ||| v.mask
    s.accessFails s1 .write va n m (exec (.st f) s) ∧
    ∀ hs : List Hit, va.toNat % n = 0 → s1.noMiss va.toNat n = .ok () → s1.span .write va n m = .ok hs →
    let s2 := s1.lookUp (some s1.nextId) va.toNat n
    exec (.st f) s = .next ((s2.sendWrite s2.cur.core s2.cur.ctx true va
      ((hs.map (·.pa)).zip (bytesOf n v.val.toNat)) m false).verdict .issued))

/-- R200, R201 and R203 with the checks of R196, R116 and R117 (`accessFails`, and with it notes/assumptions entry 42). A PLD is misaligned by its offset o (R203), and by its address where it reads a byte of
the window (R196): notes/assumptions entry 81. -/
def Obligations.FullEmptyAndParameterLoads : Prop :=
  (∀ (f : FLdfe) (s s1 : State) (a : Lab 64),
    s.me.holds f.gd = true → s.ldaHolds = false → s.destReady (sDest f.d) = .ok () → s.opnd f.a = .ok (a, s1) →
    let va : Word := a.val + BitVec.ofInt 64 (8 * f.off.toInt)
    let m := s.me.base f.gd ||| a.mask
    (va.toNat % 8 ≠ 0 → exec (.ldfe f) s = .next (s.trapHere .misalign 0 va)) ∧
    (va.toNat % 8 = 0 → 2 ^ 56 ≤ va.toNat → exec (.ldfe f) s = .next (s.trapHere .transInvalid 0 va)) ∧
    (va.toNat % 8 = 0 → va.toNat < 2 ^ 56 →
    (inAperture va.toNat = false → exec (.ldfe f) s = .next (s.trapHere .transTarget 0 va)) ∧
    (inAperture va.toNat = true → s.accessFails s1 .read va 8 0 (exec (.ldfe f) s)) ∧
    (∀ hs, inAperture va.toNat = true → s1.span .read va 8 0 = .ok hs →
      let pa := (hs.map (·.pa)).headD 0
      let got := s1.loadBytes hs va 4 f.w (sDest f.d) (.zx 8) m false
      (s1.ownBytes hs = true → s1.feReady pa = true →
        exec (.ldfe f) s = .next ((if f.clr = true then (got.setFull pa false).raiseBlock pa m else got).verdict .issued)) ∧
      (s1.ownBytes hs = true → s1.feReady pa = false → s.det s.cur.core = false →
        exec (.ldfe f) s = .next ((s.modMe (fun x => { x with block := 5 })).verdict (.blocked 5))) ∧
      (s1.ownBytes hs = true → s1.feReady pa = false → s.det s.cur.core = true → exec (.ldfe f) s = .next (s.trapHere .overrun 0 0)) ∧
      (s1.ownBytes hs = false →
        exec (.ldfe f) s = .next ((s1.request (.fe f.clr) (if f.w then .nowhere else sDest f.d) (.zx 8)
          (hs.map (fun h => some h.pa)) va m false).verdict .issued))))) ∧
  (∀ (f : FStfe) (s s1 : State) (v a : Lab 64),
    s.me.holds f.gd = true → s.ldaHolds = false → s.dataReg f.d = .ok v → s.opnd f.a = .ok (a, s1) →
    let va : Word := a.val + BitVec.ofInt 64 (8 * f.off.toInt)
    let m := s.me.base f.gd ||| a.mask ||| v.mask
    (va.toNat % 8 ≠ 0 → exec (.stfe f) s = .next (s.trapHere .misalign 0 va)) ∧
    (va.toNat % 8 = 0 → 2 ^ 56 ≤ va.toNat → exec (.stfe f) s = .next (s.trapHere .transInvalid 0 va)) ∧
    (va.toNat % 8 = 0 → va.toNat < 2 ^ 56 →
    (inAperture va.toNat = false → exec (.stfe f) s = .next (s.trapHere .transTarget 0 va)) ∧
    (inAperture va.toNat = true → s.accessFails s1 .write va 8 m (exec (.stfe f) s)) ∧
    (∀ hs, inAperture va.toNat = true → s1.noMiss va.toNat 8 = .ok () → s1.span .write va 8 m = .ok hs →
      let s2 := s1.lookUp (some s1.nextId) va.toNat 8
      exec (.stfe f) s = .next ((s2.sendWrite s2.cur.core s2.cur.ctx true va
        ((hs.map (·.pa)).zip (bytesOf 8 v.val.toNat)) m true).verdict .issued)))) ∧
  (∀ (f : FPld) (s s1 : State) (a : Lab 64),
    s.me.holds f.gd = true → s.ldaHolds = false → s.destReady (sDest f.d) = .ok () → s.opnd f.a = .ok (a, s1) →
    let o := a.val.toNat + 8 * f.off.toNat
    let window := (s1.launchOf s1.cur.core).bind (fun l => tfind l.windows f.win.toNat)
    (window = none → exec (.pld f) s = .next (s.trapHere .paramUnbound 0 0)) ∧
    (∀ base size, window = some (base, size) →
      let va := BitVec.ofNat 64 (base + o)
      let k := min 8 (size - o)
      let dest := if f.w then Dest.nowhere else sDest f.d
      (o % 8 ≠ 0 → exec (.pld f) s = .next (s.trapHere .misalign 0 va)) ∧
      (o < size → va.toNat % 8 ≠ 0 → exec (.pld f) s = .next (s.trapHere .misalign 0 va)) ∧
      (o % 8 = 0 → size ≤ o → exec (.pld f) s = .next (((s1.modMe (fun x => { x with pwoob := true })).request .mem dest (.zx 8)
        (List.replicate 8 none) va (s.me.base f.gd ||| a.mask) false).verdict .issued)) ∧
      (∀ hs, o % 8 = 0 → (o < size → va.toNat % 8 = 0) → (0 < k → s1.noMiss va.toNat k = .ok ()) → s1.span .read va k 0 = .ok hs →
        let s2 := if k = 0 then s1 else s1.lookUp (some s1.nextId) va.toNat k
        let s3 := if k < 8 then s2.modMe (fun x => { x with pwoob := true }) else s2
        exec (.pld f) s = .next ((s3.request .mem dest (.zx 8) (hs.map (fun h => some h.pa) ++ List.replicate (8 - k) none) va
          (s.me.base f.gd ||| a.mask ||| entryMasks hs) false (sealClock hs)).verdict .issued))))

/-- R116 and R117, with the aperture of R109 and the high bits of R196. -/
def Obligations.AccessChecks : Prop :=
  (∀ (s : State) (a : Access) (va : Nat),
    (0x100000000000000 ≤ va → s.checkByte a va = .error .transInvalid) ∧
    (va < 0x100000000000000 → inAperture va = true → ∀ c, aperture a.cores a.own va = .error c → s.checkByte a va = .error c ∧ c = .sliceRange) ∧
    (va < 0x100000000000000 → inAperture va = true → ∀ pa, aperture a.cores a.own va = .ok pa →
      s.checkByte a va = .ok { pa := pa, mask := s.blockMask pa }) ∧
    (va < 0x100000000000000 → inAperture va = false →
      let tr := (s.part a.part).translate va
      (∀ c, tr = .error c → s.checkByte a va = .error c ∧ (c = .transInvalid ∨ c = .transFormat)) ∧
      (∀ x, tr = .ok x →
        let perm : Prop := (a.kind = .read → x.rd = true) ∧ (a.kind = .write → x.wr = true) ∧
          (a.kind = .atomic → x.rd = true ∧ x.wr = true ∧ x.at_ = true)
        (¬ perm → s.checkByte a va = .error .transPerm) ∧
        (perm → admits a.copy x.pa = false → s.checkByte a va = .error .transTarget) ∧
        (perm → admits a.copy x.pa = true → appendOk a.kind x = false → s.checkByte a va = .error .snapBound) ∧
        (perm → admits a.copy x.pa = true → appendOk a.kind x = true → a.kind ≠ .read → labelOk a.egress a.mask x = false →
          s.checkByte a va = .error .labelStore) ∧
        (perm → admits a.copy x.pa = true → appendOk a.kind x = true → (a.kind = .read ∨ labelOk a.egress a.mask x = true) →
          s.checkByte a va = .ok { pa := s.linear x.pa, mask := x.mask })))) ∧
  (∀ (s : State) (a : Access) (va n : Nat) (hs : List Hit), s.checkSpan a va n = .ok hs ↔
    hs.length = n ∧ ∀ i (hi : i < hs.length), s.checkByte a ((va + i) % 2 ^ 64) = .ok hs[i]) ∧
  (∀ (s : State) (a : Access) (va n : Nat) (c : Cause) (w : Word), s.checkSpan a va n = .error (c, w) →
    ∃ i < n, w = BitVec.ofNat 64 (va + i) ∧ s.checkByte a ((va + i) % 2 ^ 64) = .error c ∧
      ∀ j < i, ∃ h, s.checkByte a ((va + j) % 2 ^ 64) = .ok h)

/-- The frame of the storing forms of slot 0: besides the bytes stored, only one open write, the clock of the own die, the front store
and miss tables of the translation, and what replicas owe may differ. `span` computes the addresses stored to, as the meaning does. -/
def Obligations.StoreFrame : Prop :=
  let framed (s s1 t : State) (hs : List Hit) (bytes : List Byte) : Prop :=
    s.memWf = true → t.cur.verdict = .issued →
      (∀ pa, pa ∉ hs.map (·.pa) → t.peek pa = s.peek pa) ∧
      (s1.ownBytes hs = true → t.peeks (hs.map (·.pa)) = bytes) ∧
      (s1.ownBytes hs = false → ∀ pa, t.peek pa = s.peek pa) ∧
      (∀ pa, (∀ h ∈ hs, pa / 4096 ≠ h.pa / 4096) → t.blockMask pa = s.blockMask pa) ∧
      (∀ pa, (∀ h ∈ hs, pa / 16 ≠ h.pa / 16) → t.fullBit pa = s.fullBit pa) ∧
      (∀ c x, t.ctx c x = if c = s.cur.core ∧ x = s.cur.ctx then { s.me with latchlost := t.me.latchlost } else s.ctx c x) ∧
      t = { s with cur := t.cur, cores := t.cores, dies := t.dies, fronts := t.fronts, freeCount := t.freeCount, nextId := t.nextId,
                   writes := t.writes } ∧
      (∀ c, t.core c = { s.core c with ctxs := (t.core c).ctxs, slice := (t.core c).slice, fe := (t.core c).fe, bmask := (t.core c).bmask }) ∧
      (∀ d, (t.die d).store = (s.die d).store ∧ (d ≠ dieOf s.cur.core → (t.die d).clk = (s.die d).clk) ∧
        (t.die d).replicas.map (fun r => (r.line, r.data)) = (s.die d).replicas.map (fun r => (r.line, r.data))) ∧
      (∃ w, t.writes = s.writes ++ [w])
  (∀ (f : FSt) (s s1 t : State) (v a : Lab 64) (hs : List Hit),
    s.me.holds f.gd = true → s.dataReg f.d = .ok v → s.opnd f.a = .ok (a, s1) →
    s1.span .write (offAddr a.val (sizeBytes f.size) f.off) (sizeBytes f.size) (s.me.base f.gd ||| a.mask ||| v.mask) = .ok hs →
    exec (.st f) s = .next t → framed s s1 t hs (bytesOf (sizeBytes f.size) v.val.toNat)) ∧
  (∀ (f : FStfe) (s s1 t : State) (v a : Lab 64) (hs : List Hit),
    s.me.holds f.gd = true → s.dataReg f.d = .ok v → s.opnd f.a = .ok (a, s1) →
    s1.span .write (offAddr a.val 8 f.off) 8 (s.me.base f.gd ||| a.mask ||| v.mask) = .ok hs →
    exec (.stfe f) s = .next t → framed s s1 t hs (bytesOf 8 v.val.toNat)) ∧
  (∀ (f : FStl) (s s1 t : State) (v a : Lab 64) (hs : List Hit),
    s.me.holds f.gd = true → s.dataReg f.d = .ok v → s.opnd f.a = .ok (a, s1) →
    s1.span .write a.val (osizeBytes f.size) (s.me.base f.gd ||| a.mask ||| v.mask) = .ok hs →
    exec (.stl f) s = .next t → framed s s1 t hs (bytesOf (osizeBytes f.size) v.val.toNat))

/-- R204, and R160 for a pending destination. `quiet false 2` is a result of the inbound port that bundles see two cycles later. -/
def Obligations.XmovResults : Prop :=
  ∀ (f : FXmov) (s : State), s.me.holds f.gd = true →
    let named := xdest f.dst f.src f.d.toNat f.lane.toNat
    (f.w = true → s.pending named = false → exec (.xmov f) s = .next (s.verdict .issued)) ∧
    (s.pending named = true → s.det s.cur.core = false →
      exec (.xmov f) s = .next ((s.modMe (fun x => { x with block := 7 })).verdict (.blocked 7))) ∧
    (∀ n : BitVec 5, f.w = false → f.a = .reg n →
      s.pending (xreg f.src n.toNat) = false → s.pending (xdest f.dst f.src f.d.toNat f.lane.toNat) = false →
      let got := s.me.xread f.src n.toNat
      let wide (g : XFile) : Prop := g = .x ∨ g = .y
      let value : BitVec 1024 → Prop := fun v =>
        if wide f.src ∧ ¬ wide f.dst then v = ((got.val >>> (64 * f.lane.toNat)).setWidth 64).setWidth 1024 else v = got.val
      let dest : Dest := match f.dst with
        | .s => if f.d = 0 then .nowhere else .sreg f.d.toNat
        | .m => .mreg f.d.toNat
        | .x => if wide f.src then .vreg .x f.d.toNat 0 1024 else .vreg .x f.d.toNat (64 * f.lane.toNat) 64
        | .y => if wide f.src then .vreg .y f.d.toNat 0 1024 else .vreg .y f.d.toNat (64 * f.lane.toNat) 64
      ∃ v, value v ∧ exec (.xmov f) s = .next ((s.quiet false 2 false dest v (s.me.base f.gd ||| got.mask)).verdict .issued)) ∧
    (f.w = false → f.a = .zero → s.pending (xdest f.dst f.src f.d.toNat f.lane.toNat) = false →
      exec (.xmov f) s = .next ((s.quiet false 2 false (xdest f.dst f.src f.d.toNat f.lane.toNat) 0 (s.me.base f.gd)).verdict .issued))

/-! ## Slot 0: synchronisation -/

/-- R388 with the checks of R196, R116 and R117 (`accessFails`), R391, and R392 with the waits of R475, in deterministic mode with R175.
`later` says that an LDA holds back what later bundles of its context do; the waits
of a bundle concern what bundles before it have sent (`cur.base`).
What no rule states outright is the model's: notes/assumptions entries 21, 32 and 42. -/
def Obligations.AcquireReleaseAndFences : Prop :=
  (∀ (f : FLda) (s s1 : State) (a : Lab 64),
    s.me.holds f.gd = true → s.ldaHolds = false → s.destReady (sDest f.d) = .ok () → s.opnd f.a = .ok (a, s1) →
    let n := osizeBytes f.size
    s.accessFails s1 .read a.val n 0 (exec (.lda f) s) ∧
    ∀ hs : List Hit, a.val.toNat % n = 0 → s1.noMiss a.val.toNat n = .ok () → s1.span .read a.val n 0 = .ok hs →
    let s2 := s1.lookUp (some s1.nextId) a.val.toNat n
    let m := s.me.base f.gd ||| a.mask
    let later (t : State) : Prop := ∀ slot e, ((t.verdict .issued).focusOn s.cur.core s.cur.ctx slot e).ldaHolds = true
    (s2.ownBytes hs = true →
      let t := (s2.own 4 f.w (sDest f.d) (BitVec.ofNat 1024 (leValue (hs.map (fun h => s2.peek h.pa)))) (m ||| s2.hitsMask hs)).modMe
        (fun x => { x with readVis := max x.readVis (x.cycle + 5), ldaVis := max x.ldaVis (x.cycle + 5) })
      exec (.lda f) s = .next (t.verdict .issued) ∧ later t) ∧
    (s2.ownBytes hs = false →
      let t := s2.request .mem (if f.w then .nowhere else sDest f.d) (.zx n) (hs.map (fun h => some h.pa)) a.val
        (m ||| entryMasks hs) true (sealClock hs)
      exec (.lda f) s = .next (t.verdict .issued) ∧ later t)) ∧
  (∀ (f : FStl) (s s1 : State) (v a : Lab 64),
    s.me.holds f.gd = true → s.ldaHolds = false → s.dataReg f.d = .ok v → s.opnd f.a = .ok (a, s1) →
    let n := osizeBytes f.size
    let m := s.me.base f.gd ||| a.mask ||| v.mask
    s.accessFails s1 .write a.val n m (exec (.stl f) s) ∧
    ∀ hs : List Hit, a.val.toNat % n = 0 → s1.noMiss a.val.toNat n = .ok () → s1.span .write a.val n m = .ok hs →
    (s1.drained (scopeWide f.scope) = false → s.det s.cur.core = false →
      exec (.stl f) s = .next ((s.modMe (fun x => { x with block := 9 })).verdict (.blocked 9))) ∧
    (s1.drained (scopeWide f.scope) = false → s.det s.cur.core = true → exec (.stl f) s = .next (s.trapHere .overrun 0 0)) ∧
    (s1.drained (scopeWide f.scope) = true →
      let s2 := s1.lookUp (some s1.nextId) a.val.toNat n
      exec (.stl f) s = .next ((s2.sendWrite s2.cur.core s2.cur.ctx true a.val
        ((hs.map (·.pa)).zip (bytesOf n v.val.toNat)) m false).verdict .issued))) ∧
  (∀ (f : FFence) (s : State), s.me.holds f.gd = true → s.ldaHolds = false →
    let writes (wide : Bool) : Prop := ∀ w ∈ s.writes, w.id < s.cur.base → w.ofCtx = true → w.core = s.cur.core →
      w.ctx = s.cur.ctx → w.acked = true ∧ (wide = true → w.everywhere = true)
    let done : Prop := match f.kind with
      | .acq => s.readsDone = true
      | _ => s.readsDone = true ∧ writes (scopeWide f.scope)
    (done → exec (.fence f) s = .next (s.verdict .issued)) ∧
    (¬ done → s.det s.cur.core = false →
      exec (.fence f) s = .next ((s.modMe (fun x => { x with block := 9 })).verdict (.blocked 9))) ∧
    (¬ done → s.det s.cur.core = true → exec (.fence f) s = .next (s.trapHere .overrun 0 0))) ∧
  (∀ (f : FZ) (s : State), s.me.holds f.gd = true → s.ldaHolds = false →
    (s.drained true = true →
      exec (.vsync f) s = .next ((({ s with vsyncReqs := s.vsyncReqs ++ [{ core := s.cur.core, ctx := s.cur.ctx }] } : State).modMe
        (fun x => { x with wait2 := some (.vsync none), syncAt := s.nextId })).verdict .issued)) ∧
    (s.drained true = false → s.det s.cur.core = false →
      exec (.vsync f) s = .next ((s.modMe (fun x => { x with block := 9 })).verdict (.blocked 9))) ∧
    (s.drained true = false → s.det s.cur.core = true → exec (.vsync f) s = .next (s.trapHere .overrun 0 0))) ∧
  (∀ (gd : Guard) (s : State), s.me.holds gd = true → s.ldaHolds = true →
    let t : Out := .next (if s.det s.cur.core = true then s.trapHere .overrun 0 0
      else (s.modMe (fun x => { x with block := 9 })).verdict (.blocked 9))
    exec (.vsync { gd := gd }) s = t ∧ ∀ sc k, exec (.fence { gd := gd, scope := sc, kind := k }) s = t)

/-- R394 and R400 to R402, with the checks of R196, R116 and R117 (`accessFails`) and of R401. `sent` is the state in which one more request is outstanding, and `held` what becomes of a 33rd: a stall
cycle, which R175 makes an OVERRUN in deterministic mode. -/
def Obligations.AtomicRequests : Prop :=
  let sent (s : State) (engine : Nat) (tgt : AtomTgt) (va : Word) (op : AtomOp) (v : Word) (dest : Dest) (m pm : Mask) : Out :=
    .next ((({ s with
        nextId := s.nextId + 1
        atoms := s.atoms ++ [{ id := s.nextId, core := s.cur.core, ctx := s.cur.ctx, tag := s.myCore.atag, engine := engine,
                               station := if s.cur.core / 8 = engine then s.cur.core % 8 else 9, tgt := tgt, va := va, op := op,
                               v := v, dest := dest, discard := dest == .nowhere, mask := m, pmask := pm,
                               clk := (s.die (dieOf s.cur.core)).clk, stage := .sent, result := Lab.zero 64 }] } : State).modMyCore
      (fun k => { k with atag := k.atag + 1 })).verdict .issued)
  let few (s : State) : Prop := (s.atoms.filter (fun a => a.core == s.cur.core)).length < 32
  let held (s : State) (i : Instr) : Prop := (s.det s.cur.core = false → exec i s = .next (s.verdict .stalled)) ∧
    (s.det s.cur.core = true → exec i s = .next (s.trapHere .overrun 0 0))
  (∀ (f : FS3) (s s1 s2 : State) (a b : Lab 64),
    s.me.holds f.gd = true → s.ldaHolds = false → s.destReady (sDest f.d) = .ok () →
    s.opnd f.a = .ok (a, s1) → s1.opnd f.b = .ok (b, s2) →
    let m := s.me.base f.gd ||| a.mask ||| b.mask
    (∀ i ∈ [Instr.aadd f, .aand f, .aor f, .axor f, .amin f, .amax f, .aminu f, .amaxu f, .aswap f],
      s.accessFails s2 .atomic a.val 8 m (exec i s)) ∧
    ∀ (hs : List Hit) (h : Hit), a.val.toNat % 8 = 0 → s2.noMiss a.val.toNat 8 = .ok () → s2.span .atomic a.val 8 m = .ok hs → hs.head? = some h →
    let s3 := s2.lookUp (some s2.nextId) a.val.toNat 8
    let goes (op : AtomOp) : Out :=
      sent s3 (engineOfPa h.pa) (.mem h.pa) a.val op b.val (if f.w then .nowhere else sDest f.d) m (entryMasks hs)
    (few s2 →
      exec (.aadd f) s = goes .add ∧ exec (.aand f) s = goes .and ∧ exec (.aor f) s = goes .or ∧ exec (.axor f) s = goes .xor ∧
      exec (.amin f) s = goes .min ∧ exec (.amax f) s = goes .max ∧ exec (.aminu f) s = goes .minu ∧
      exec (.amaxu f) s = goes .maxu ∧ exec (.aswap f) s = goes .swap) ∧
    (¬ few s2 → ∀ i ∈ [Instr.aadd f, .aand f, .aor f, .axor f, .amin f, .amax f, .aminu f, .amaxu f, .aswap f], held s i)) ∧
  (∀ (f : FS3) (s s1 s2 : State) (c a b : Lab 64),
    s.me.holds f.gd = true → s.ldaHolds = false → s.dataReg f.d = .ok c →
    s.opnd f.a = .ok (a, s1) → s1.opnd f.b = .ok (b, s2) →
    let m := s.me.base f.gd ||| a.mask ||| b.mask ||| c.mask
    s.accessFails s2 .atomic a.val 8 m (exec (.acas f) s) ∧
    ∀ (hs : List Hit) (h : Hit), a.val.toNat % 8 = 0 → s2.noMiss a.val.toNat 8 = .ok () → s2.span .atomic a.val 8 m = .ok hs → hs.head? = some h →
    let s3 := s2.lookUp (some s2.nextId) a.val.toNat 8
    (few s2 → exec (.acas f) s = sent s3 (engineOfPa h.pa) (.mem h.pa) a.val (.cas c.val) b.val
      (if f.w then .nowhere else sDest f.d) m (entryMasks hs)) ∧
    (¬ few s2 → held s (.acas f))) ∧
  (∀ (f : FAB) (s s1 s2 : State) (a b : Lab 64),
    s.me.holds f.gd = true → s.ldaHolds = false → s.opnd f.a = .ok (a, s1) → s1.opnd f.b = .ok (b, s2) →
    (∀ e, s2.cellOf a.val = .error e → exec (.afadd f) s = .next (s.trapHere .cellRange 0 0)) ∧
    ∀ n, s2.cellOf a.val = .ok n →
    (few s2 → exec (.afadd f) s = sent s2 (n / 4096) (.cell n) 0 .fadd b.val .nowhere (s.me.base f.gd ||| a.mask ||| b.mask) 0) ∧
    (¬ few s2 → held s (.afadd f))) ∧
  (∀ (f : FS2) (s s1 : State) (a : Lab 64),
    s.me.holds f.gd = true → s.ldaHolds = false → s.destReady (sDest f.d) = .ok () → s.opnd f.a = .ok (a, s1) →
    (∀ e, s1.cellOf a.val = .error e → exec (.axread f) s = .next (s.trapHere .cellRange 0 0)) ∧
    ∀ n, s1.cellOf a.val = .ok n →
    (few s1 → exec (.axread f) s = sent s1 (n / 4096) (.cell n) 0 .xread 0 (if f.w then .nowhere else sDest f.d)
      (s.me.base f.gd ||| a.mask) 0) ∧
    (¬ few s1 → held s (.axread f))) ∧
  (∀ (f : FA) (s s1 : State) (a : Lab 64),
    s.me.holds f.gd = true → s.ldaHolds = false → s.opnd f.a = .ok (a, s1) →
    (∀ e, s1.cellOf a.val = .error e → exec (.axclr f) s = .next (s.trapHere .cellRange 0 0)) ∧
    ∀ n, s1.cellOf a.val = .ok n →
    (few s1 → exec (.axclr f) s = sent s1 (n / 4096) (.cell n) 0 .xclr 0 .nowhere (s.me.base f.gd ||| a.mask) 0) ∧
    (¬ few s1 → held s (.axclr f))) ∧
  (∀ (pa c off p : Nat), (regionOf pa = .slice c off → engineOfPa pa = c / 8) ∧
    (regionOf pa = .port p off → engineOfPa pa = 2 * (p / 12) + p % 2))

/-- R403 and R405. A request names its context by its launch, so that membership outlives the seat, and carries the clock of its die.
What no rule states outright is the model's: notes/assumptions entries 33 and 83. -/
def Obligations.GroupOperations : Prop :=
  let asks (s : State) (g : Nat) (op : GroupOp) : State :=
    { s with groupReqs := s.groupReqs ++ [{ who := s.groupName, group := g, op := op, clk := (s.die (dieOf s.cur.core)).clk }] }
  (∀ (f : FA) (s s1 : State) (a : Lab 64) (d : Desc),
    s.me.holds f.gd = true → s.opnd f.a = .ok (a, s1) → (s1.part (s1.partOf s1.cur.core)).desc = some d →
    (d.groupCount ≤ a.val.toNat → ∀ i ∈ [Instr.gjoin f, .gleave f, .gbar f], exec i s = .next (s.trapHere .groupRange 0 0)) ∧
    (a.val.toNat < d.groupCount →
      let g := d.groupBase + a.val.toNat
      let rel := (s1.relation s1.groupName g).1
      exec (.gjoin f) s = .next ((asks s1 g .join).verdict .issued) ∧
      (rel ≠ 1 ∨ s1.drained true = true → exec (.gleave f) s = .next ((asks s1 g .leave).verdict .issued)) ∧
      ((rel = 1 ∨ rel = 2) → s1.drained true = true →
        exec (.gbar f) s = .next (((asks s1 g .bar).modMe (fun x => { x with wait2 := some (.gbar g) })).verdict .issued)) ∧
      (rel ≠ 1 → rel ≠ 2 → exec (.gbar f) s = .next ((asks s1 g .bar).verdict .issued)) ∧
      (s1.drained true = false → s.det s.cur.core = false →
        let blocks : Out := .next ((s.modMe (fun x => { x with block := 9 })).verdict (.blocked 9))
        (rel = 1 → exec (.gleave f) s = blocks) ∧ ((rel = 1 ∨ rel = 2) → exec (.gbar f) s = blocks)))) ∧
  (∀ (f : FS2) (s s1 : State) (a : Lab 64) (d : Desc),
    s.me.holds f.gd = true → s.destReady (sDest f.d) = .ok () → s.opnd f.a = .ok (a, s1) →
    (s1.part (s1.partOf s1.cur.core)).desc = some d → a.val.toNat < d.groupCount →
    let g := d.groupBase + a.val.toNat
    let r := s1.relation s1.groupName g
    let low : BitVec 32 := BitVec.ofNat 32 (r.1 + if r.2 = true then 4 else 0)
    exec (.gquery f) s = .next ((s1.writeS 2 f.w f.d (tget 0 s1.myCore.phases g ++ low)
      (s.me.base f.gd ||| a.mask)).verdict .issued))

/-- R408, R409, R412 and R413. A raised limit releases, with the entry, what its context has observed. What no rule states outright is the
model's: notes/assumptions entries 29, 31 and 84. -/
def Obligations.SnapshotPhaseAndLabels : Prop :=
  (∀ (f : FAB) (s s1 s2 : State) (a b : Lab 64),
    s.me.holds f.gd = true → s.ldaHolds = false → s.opnd f.a = .ok (a, s1) → s1.opnd f.b = .ok (b, s2) →
    let va := a.val.toNat
    let traps (c : Cause) : Out := .next (s.trapHere c 0 a.val)
    (inAperture va = true → exec (.snapadv f) s = traps .transTarget) ∧
    (inAperture va = false → 2 ^ 56 ≤ va → exec (.snapadv f) s = traps .transInvalid) ∧
    (inAperture va = false → va < 2 ^ 56 →
      let tr := (s2.part (s2.partOf s2.cur.core)).translate va
      (∀ c, tr = .error c → exec (.snapadv f) s = traps c) ∧
      (∀ x, tr = .ok x →
        (¬ (x.ap = true ∧ x.wr = true) → exec (.snapadv f) s = traps .transPerm) ∧
        (x.ap = true → x.wr = true →
          (b.val.toNat % x.unit ≠ 0 → exec (.snapadv f) s = traps .misalign) ∧
          (b.val.toNat % x.unit = 0 → x.wlim < b.val.toNat / x.unit → exec (.snapadv f) s = traps .snapBound) ∧
          (b.val.toNat % x.unit = 0 → b.val.toNat / x.unit ≤ x.wlim →
            (s2.drained true = false → s.det s.cur.core = false →
              exec (.snapadv f) s = .next ((s.modMe (fun y => { y with block := 9 })).verdict (.blocked 9))) ∧
            (s2.drained true = true →
              exec (.snapadv f) s = .next ((s2.advanceLimit va (b.val.toNat / x.unit)).verdict .issued))))))) ∧
  (∀ (p : Part) (va n : Nat) (clk : Clock) (x : Xlat), p.translate va = .ok x → n ≤ x.wlim → x.wlim < 2 ^ 24 → x.rlim < 2 ^ 24 →
    (p.raiseLimit va n clk).translate va =
      .ok { x with rlim := max x.rlim n, sealed := if x.rlim < n then x.sealed.join clk else x.sealed }) ∧
  (∀ (f : FPhase) (s : State), s.me.holds f.gd = true →
    (s.det s.cur.core = false → exec (.phase f) s = .next (s.verdict .issued)) ∧
    (∀ s1 b, s.det s.cur.core = true → s.opnd f.a = .ok (b, s1) →
      (b.val.toNat % 16 ≠ 0 → exec (.phase f) s = .next (s.trapHere .misalign 0 0)) ∧
      (b.val.toNat % 16 = 0 → 0x017FFFF0 < b.val.toNat → exec (.phase f) s = .next (s.trapHere .sliceRange 0 0)) ∧
      (b.val.toNat % 16 = 0 → b.val.toNat ≤ 0x017FFFF0 →
        (s1.overlaps (f.num.toNat, b.val.toNat) = true → exec (.phase f) s = .next (s.trapHere .phaseOverlap 0 0)) ∧
        (s1.overlaps (f.num.toNat, b.val.toNat) = false →
          exec (.phase f) s = .next ((s1.modMyCore (fun k => { k with phase := some (f.num.toNat, b.val.toNat) })).verdict .issued))))) ∧
  (∀ (f : FS2) (s s1 : State) (a : Lab 64),
    s.me.holds f.gd = true → s.destReady (sDest f.d) = .ok () → s.opnd f.a = .ok (a, s1) →
    exec (.lblget f) s = .next ((s1.writeS 2 f.w f.d (BitVec.ofNat 64 a.mask.toNat) (s.me.base f.gd ||| a.mask)).verdict .issued)) ∧
  (∀ (f : FAB) (s s1 : State) (b : Lab 64), s.me.holds f.gd = true → f.a = .zero → s.opnd f.b = .ok (b, s1) →
    let parties := (s1.part (s1.partOf s1.cur.core)).parties
    (2 ^ parties ≤ b.val.toNat → exec (.lblraise f) s = .next (s.trapHere .illegal 0 0)) ∧
    (b.val.toNat < 2 ^ parties → exec (.lblraise f) s =
      .next ((s1.modMe (fun x => { x with taintNext := x.taintNext ||| (BitVec.ofNat 16 b.val.toNat ||| s.me.base f.gd ||| b.mask) })).verdict .issued))) ∧
  (∀ (f : FAB) (s s1 s2 : State) (t b : Lab 64) (pa : Nat),
    s.me.holds f.gd = true → s.ldaHolds = false → f.a ≠ .zero → s.opnd f.a = .ok (t, s1) → s1.opnd f.b = .ok (b, s2) →
    b.val.toNat < 2 ^ (s2.part (s2.partOf s2.cur.core)).parties →
    (inAperture t.val.toNat = false → exec (.lblraise f) s = .next (s.trapHere .transTarget 0 t.val)) ∧
    (inAperture t.val.toNat = true → aperture (s2.launchCores s2.cur.core) s2.cur.core t.val.toNat = .ok pa →
      exec (.lblraise f) s = .next ((s2.sendRaise s2.cur.core s2.cur.ctx t.val pa
        (BitVec.ofNat 16 b.val.toNat ||| s.me.base f.gd ||| t.mask ||| b.mask)).verdict .issued)))

/-! ## Slot 0: system registers -/

/-- R205, R206, R208, with the values of R176, R177 and R420. -/
def Obligations.SystemRegisterReads : Prop :=
  (∀ (f : FSR) (s : State), s.me.holds f.gd = true → s.destReady (sDest f.d) = .ok () →
    (∀ v, f.num.toNat < 0x800 → s.heldReg s.cur.core s.cur.ctx 0 f.num.toNat = some v →
      exec (.sysr f) s = .next (((s.readClears f.num.toNat).writeS 2 f.w f.d v (s.me.base f.gd)).verdict .issued)) ∧
    (f.num.toNat < 0x800 → s.heldReg s.cur.core s.cur.ctx 0 f.num.toNat = none →
      exec (.sysr f) s = .next (s.trapHere .illegal 0 0)) ∧
    (0x800 ≤ f.num.toNat → s.iodReg (s.partOf s.cur.core) f.num.toNat ≠ none →
      exec (.sysr f) s = .next ((s.requestReg f.num.toNat (if f.w then .nowhere else sDest f.d) (s.me.base f.gd)).verdict .issued)) ∧
    (0x800 ≤ f.num.toNat → s.iodReg (s.partOf s.cur.core) f.num.toNat = none →
      exec (.sysr f) s = .next (s.trapHere .illegal 0 0))) ∧
  (∀ (s : State) (core ctx num : Nat),
    (num < 0x490 ∨ 0x4A0 ≤ num → s.readClears num = s) ∧
    (num < 16 → ((s.readClears (0x490 + num)).core s.cur.core).plane num =
      { (s.core s.cur.core).plane num with clip := 0 }) ∧
    (let x := s.ctx core ctx
     let reads (num : Nat) : Option Word := s.heldReg core ctx 0 num
     core < 64 → ctx < 4 → x.j < 256 → (∀ o, (s.core core).owner = some o → o.lcore < 64) →
     (∃ v, reads 0x000 = some v ∧ v.extractLsb' 24 6 = BitVec.ofNat 6 core ∧ v.extractLsb' 8 2 = BitVec.ofNat 2 ctx ∧
       (∀ o, (s.core core).owner = some o → v.extractLsb' 16 6 = BitVec.ofNat 6 o.lcore) ∧ v.extractLsb' 0 8 = BitVec.ofNat 8 x.j) ∧
     reads 0x003 = some (BitVec.ofNat 64 x.rstack.length) ∧
     reads 0x010 = some (x.fmt.val.setWidth 64) ∧
     reads 0x011 = some (x.fpflags.setWidth 64) ∧
     (∃ v, reads 0x020 = some v ∧ v.extractLsb' 16 4 = 0 ∧ v.getLsbD 8 = s.det core ∧ v.getLsbD 1 = x.pwoob ∧
       v.getLsbD 0 = x.latchlost) ∧
     reads 0x030 = some (x.taint.setWidth 64) ∧
     reads 0x201 = some x.trapMask ∧
     reads 0x300 = some ((s.core core).frame.setWidth 64) ∧ reads 0x301 = some (s.core core).bankstall ∧
     reads 0x302 = some (s.core core).switches ∧ reads 0x303 = some (s.core core).skip ∧ reads 0x304 = some (s.core core).idle ∧
     (x.inh = true → reads 0x203 = some (x.trapNo.setWidth 64) ∧ reads 0x206 = some x.trapAddr) ∧
     (x.inh = false → ∀ n, 0x202 ≤ n → n ≤ 0x207 → reads n = none)))

/-- R207 with R176, R217, R306, R411 and R420. -/
def Obligations.SystemRegisterWrites : Prop :=
  ∀ (f : FSW) (s : State) (v : Lab 64), s.me.holds f.gd = true → s.dataReg f.d = .ok v →
    let illegal : Prop := exec (.sysw f) s = .next (s.trapHere .illegal 0 0)
    let becomes (t : State) : Prop := exec (.sysw f) s = .next (t.verdict .issued)
    let within (fields : Word) : Prop := v.val &&& ~~~fields = 0
    let due := (s.me.flagLands.filter (fun l : FlagLand => l.at_ == s.me.cycle)).foldl (fun a (l : FlagLand) => a ||| l.flags) (0 : BitVec 8)
    (f.num = 0x011 →
      (within 0xFF → becomes (s.modMe (fun x => { x with fpflags := (x.fpflags &&& ~~~(v.val.setWidth 8)) ||| due }))) ∧
      (¬ within 0xFF → illegal)) ∧
    (f.num = 0x020 →
      (within 0xF0103 → becomes (s.modMe (fun x =>
        { x with pwoob := x.pwoob && !v.val.getLsbD 1, latchlost := x.latchlost && !v.val.getLsbD 0 }))) ∧
      (¬ within 0xF0103 → illegal)) ∧
    (f.num = 0x200 →
      let count := (((s.imageOf s.cur.core).map (·.targets)).getD []).length
      (within 0x3FF → (v.val.getLsbD 8 = true → (v.val.extractLsb' 0 8).toNat < count) →
        becomes (s.modMe (fun x => { x with trapEn := v.val.getLsbD 8, trapTidx := v.val.extractLsb' 0 8 }))) ∧
      (¬ within 0x3FF → illegal) ∧
      (v.val.getLsbD 8 = true → count ≤ (v.val.extractLsb' 0 8).toNat → illegal)) ∧
    (f.num = 0x201 → becomes (s.modMe (fun x => { x with trapMask := v.val }))) ∧
    (f.num = 0x204 →
      (s.me.inh = true → within 0x37FFFF →
        becomes (s.modMe (fun x => { x with trapPc := (v.val.extractLsb' 0 18).toNat, trapNds := 0,
                                            bankTrap := x.bankTrap.map (fun b => { b with nds := 0, tgt := none, retPending := false }) }))) ∧
      (s.me.inh = false ∨ ¬ within 0x37FFFF → illegal)) ∧
    (f.num = 0x306 →
      (within 0x1FF8001FFFFFF → becomes (s.modMyCore (fun k => { k with resc := k.resc && !v.val.getLsbD 48 }))) ∧
      (¬ within 0x1FF8001FFFFFF → illegal)) ∧
    (0x490 ≤ f.num.toNat → f.num.toNat < 0x4A0 →
      (within 0xFFFFFFFF000000FC → becomes (s.modPlane s.cur.core (f.num.toNat - 0x490) (fun p =>
        { p with route := p.route && !v.val.getLsbD 5, hlost := p.hlost && !v.val.getLsbD 4, sat := p.sat && !v.val.getLsbD 3 }))) ∧
      (¬ within 0xFFFFFFFF000000FC → illegal)) ∧
    (f.num.toNat ∉ [0x011, 0x020, 0x200, 0x201, 0x204, 0x306] → f.num.toNat < 0x490 ∨ 0x4A0 ≤ f.num.toNat → illegal)

/-- R341 and R173. The last clause says what landing does with changes that wait, in issue order. -/
def Obligations.SetfmtGoverns : Prop :=
  (∀ (f : FA) (s s1 : State) (v : Lab 64), s.me.holds f.gd = true → s.opnd f.a = .ok (v, s1) →
    (v.val.toNat < 16 → exec (.setfmt f) s = .next ((s1.modMe (fun x =>
      { x with shadows := x.shadows ++ [{ at_ := x.cycle + 5, fmt := { val := v.val.setWidth 4, mask := s.me.base f.gd ||| v.mask } }] })).verdict
        .issued)) ∧
    (16 ≤ v.val.toNat → exec (.setfmt f) s = .next (s.trapHere .illegal 0 0))) ∧
  (∀ (x : Ctx) (g : FmtShadow) (later : List FmtShadow), x.shadows = g :: later → (∀ h ∈ later, x.cycle < h.at_) →
    (x.cycle < g.at_ → x.landFmt.fmt = x.fmt ∧ x.landFmt.shadows = g :: later) ∧
    (g.at_ ≤ x.cycle → x.landFmt.fmt = g.fmt ∧ x.landFmt.shadows = later))

/-! ## Slot 0: trap control -/

/-- R423 to R428, with R415 and R420 for the boundary after a TRAP or DBGBRK. `struck` tells the cycle that the context has been
redirected and that no advance follows.
What no rule states outright is the model's: notes/assumptions entries 30 and 68. -/
def Obligations.TrapControl : Prop :=
  let strikes (s : State) (c : Cause) (code : BitVec 8) (halts : Bool) : Out :=
    .next ((s.modMe (fun x => { x with strikes := some { cause := c, code := code, frame := s.myCore.frame, halts := halts } })).verdict .issued)
  (∀ (f : FTrap) (s : State), s.me.holds f.gd = true → exec (.trap f) s = strikes s .trap f.code false) ∧
  (∀ (s : State) (core ctx h : Nat) (k : Strike),
    let x := s.ctx core ctx
    x.strikes = some k → x.trapEn = true → x.trapMask.getLsbD k.cause.number = true → x.inh = false → k.cause ≠ .replayDiverge →
    k.cause ≠ .overrun → x.rstack.length < 16 → s.awaits core ctx = false → s.handlerAt core x = some h →
    let y := (s.takeStrike core ctx).ctx core ctx
    y.st = .running ∧ y.pc = h ∧ y.inh = true ∧ y.strikes = none ∧ y.trapNo = BitVec.ofNat 6 k.cause.number ∧ y.trapCode = k.code ∧
    y.trapSlots = k.slots ∧ y.trapAsync = false ∧ y.trapPc = x.pc ∧ y.rstack = x.pc :: x.rstack ∧ y.frameStart = k.frame + 3) ∧
  (∀ (s : State) (core ctx : Nat) (k : Strike),
    let x := s.ctx core ctx
    x.strikes = some k → k.halts = true → ctx < 4 → x.pc < 2 ^ 18 → x.nds < 4 →
    let t := s.debugHalt core ctx
    (t.core core).halted = true ∧ (t.ctx core ctx).strikes = none ∧
    ∃ w v, (t.ctx core ctx).dbg = some (w, v) ∧ w.extractLsb' 0 18 = BitVec.ofNat 18 x.pc ∧ w.getLsbD 18 = x.bank ∧
      w.extractLsb' 20 2 = BitVec.ofNat 2 x.nds ∧ (x.nds = 2 → x.tgt = none → v.extractLsb' 0 18 = BitVec.ofNat 18 (x.pc + 16)) ∧
      (∀ tg sw, x.tgt = some (tg, sw) → tg < 2 ^ 18 → v.getLsbD 36 = sw ∧ (x.nds = 1 → v.extractLsb' 0 18 = BitVec.ofNat 18 tg) ∧
        (x.nds = 2 → x.pc + 16 < 2 ^ 18 → v.extractLsb' 0 18 = BitVec.ofNat 18 (x.pc + 16) ∧ v.extractLsb' 18 18 = BitVec.ofNat 18 tg))) ∧
  (∀ (f : FZ) (s : State), s.me.holds f.gd = true →
    (s.me.inh = false → exec (.eret f) s = .next (s.trapHere .illegal 0 0)) ∧
    (s.me.inh = true → s.me.rstack ≠ [] →
      (s.me.eretReady = true → exec (.eret f) s = .next ((s.eret s.cur.core s.cur.ctx).verdict .struck)) ∧
      (s.me.eretReady = false → s.det s.cur.core = false →
        exec (.eret f) s = .next ((s.modMe (fun x => { x with block := 1 })).verdict (.blocked 1))) ∧
      (s.me.ports = [] → s.me.eretReady = true)) ∧
    (s.me.inh = true → s.me.rstack = [] →
      exec (.eret f) s = .next ((s.terminal s.cur.core s.cur.ctx .illegal 0).verdict .struck)) ∧
    (s.det s.cur.core = false → s.me.yielded = false →
      exec (.yield f) s = .next ((s.modMe (fun x => { x with block := 11, yielded := true })).verdict (.blocked 11))) ∧
    (s.det s.cur.core = true ∨ s.me.yielded = true → (s.askedToStop = false ∨ s.me.inh = true) →
      exec (.yield f) s = .next (s.verdict .issued)) ∧
    (s.det s.cur.core = true ∨ s.me.yielded = true → s.askedToStop = true → s.me.inh = false →
      exec (.yield f) s = .next (s.stopCtx.verdict .struck)) ∧
    exec (.haltctx f) s = .next ((s.haltCtx s.cur.core s.cur.ctx).verdict .struck) ∧
    ((s.myCore.calls.any (fun c => c.ctx == s.cur.ctx)) = false →
      ((s.haltCtx s.cur.core s.cur.ctx).ctx s.cur.core s.cur.ctx).st = .retired) ∧
    exec (.dbgbrk f) s = strikes s .brk 0 (s.part (s.partOf s.cur.core)).debugger) ∧
  (∀ (f : FA) (s s1 : State) (v : Lab 64), s.me.holds f.gd = true → s.opnd f.a = .ok (v, s1) →
    let obj := (v.val.extractLsb' 0 12).toNat
    let target := v.val.extractLsb' 16 16
    let zeros : Prop := v.val.extractLsb' 12 4 = 0 ∧ v.val.extractLsb' 32 32 = 0
    let met : Prop := ∃ w, tfind s1.me.objAns obj = some w ∧ (w.setWidth 16 - target).toNat < 2 ^ 15
    (¬ zeros → exec (.waite f) s = .next (s.trapHere .illegal 0 0)) ∧
    (zeros → met → exec (.waite f) s = .next (s1.verdict .issued)) ∧
    (zeros → ¬ met → s.det s.cur.core = false →
      exec (.waite f) s = .next ((s.modMe (fun x => { x with block := 10 })).verdict (.blocked 10)))) ∧
  (∀ (gd : Guard) (s : State), s.me.holds gd = false →
    ∀ i ∈ [Instr.eret { gd := gd }, .yield { gd := gd }, .haltctx { gd := gd }], exec i s = .next (s.verdict .issued)) ∧
  (∀ (gd : Guard) (s : State), s.me.holds gd = false →
    ∃ t, (∀ c, exec (.trap { gd := gd, code := c }) s = .next t) ∧ (∀ a, exec (.waite { gd := gd, a := a }) s = .next t) ∧
      exec (.dbgbrk { gd := gd }) s = .next t ∧ t.cur.verdict = .issued ∧ (∀ c x, t.ctx c x = s.ctx c x) ∧
      ((s.me.pred gd.g.toNat).mask = 0 → t = s.verdict .issued))

/-! ## Taking a trap and returning from one -/

/-- R416, R417, R418 and R420, with no wait (R476). `OVERRUN` outside deterministic mode and `REPLAY_DIVERGE` have no handler.
What no rule states outright is the model's: notes/assumptions entries 16 and 29. -/
def Obligations.TrapEntry : Prop :=
  ∀ (s : State) (core ctx : Nat) (f : TrapFound) (h : Nat),
    let x := s.ctx core ctx
    x.trapEn = true → x.trapMask.getLsbD f.cause.number = true → x.inh = false → f.cause ≠ .replayDiverge →
    (f.cause = .overrun → s.det core = true) → x.rstack.length < 16 → s.awaits core ctx = false → 
    s.handlerAt core x = some h →
    let t := s.takeTrap core ctx f
    let y := t.ctx core ctx
    y.st = .running ∧ y.pc = h ∧ y.bank = x.bank ∧ y.inh = true ∧ y.rstack = x.pc :: x.rstack ∧ y.nds = 0 ∧ y.tgt = none ∧
    y.flight = [] ∧ y.latches = [] ∧ y.lostAt = none ∧ y.shadows = [] ∧ y.divFree = 0 ∧
    y.trapNo = BitVec.ofNat 6 f.cause.number ∧ y.trapCode = f.code ∧ y.trapSlots = f.slots ∧ y.trapAsync = f.async ∧
    y.trapAddr = f.addr ∧ y.trapPc = x.pc ∧ y.trapBank_ = x.bank ∧ y.trapNds = x.nds ∧
    y.trapShadow = x.shadows.head?.isSome ∧
    (∀ g, x.shadows.head? = some g → y.trapRem = g.at_ - x.cycle ∧ y.trapFmt = g.fmt.val) ∧
    (x.tgt = none → x.nds = 2 → y.trapDpc1 = x.pc + 16) ∧
    (∀ tg sw, x.tgt = some (tg, sw) → y.trapSwap = sw ∧
      (x.nds = 2 → y.trapDpc1 = x.pc + 16 ∧ y.trapDpc2 = tg) ∧ (x.nds = 1 → y.trapDpc1 = tg)) ∧
    (∃ b, y.bankTrap = some b ∧ b.flight = x.flight ∧ b.latches = x.latches ∧ b.flags = x.flagLands.filter (fun g => decide (x.cycle < g.at_)) ∧ b.shadows = x.shadows ∧
      b.divFree = x.divFree ∧ b.nds = x.nds ∧ b.tgt = x.tgt ∧ b.retPending = x.retPending ∧ b.cycle = x.cycle ∧ b.landed = [] ∧
      b.rndPos = x.rndPos ∧ b.ports = x.ports.map (fun e => (e.1, { e.2 with buf := [], next := e.2.pos, pushes := [] }))) ∧
    (y.s = x.s ∧ y.x = x.x ∧ y.y = x.y ∧ y.m = x.m ∧ y.d = x.d ∧ y.n = x.n ∧ y.p = x.p ∧ y.k = x.k ∧ y.fmt = x.fmt ∧
      y.taint = x.taint ∧ y.fpflags = x.fpflags ∧ y.ports = x.ports ∧ y.rndPos = x.rndPos ∧ y.copyq = x.copyq ∧
      y.trapEn = x.trapEn ∧ y.trapTidx = x.trapTidx ∧ y.trapMask = x.trapMask) ∧
    (∀ c i, (c = core ∧ i = ctx) ∨ t.ctx c i = s.ctx c i) ∧ (∀ pa, t.peek pa = s.peek pa)

/-- R416 and R427 for a launch that runs. -/
def Obligations.TerminalTrapEndsLaunch : Prop :=
  ∀ (s : State) (core ctx : Nat) (f : TrapFound) (o : Owner) (l : Launch),
    let x := s.ctx core ctx
    (x.trapEn = false ∨ x.trapMask.getLsbD f.cause.number = false ∨ x.inh = true ∨ 16 ≤ x.rstack.length) →
    (s.core core).owner = some o → s.launch? o = some l → l.stage = .running →
    let t := s.takeTrap core ctx f
    (∃ l', t.launch? o = some l' ∧ l'.stage = .retiring ∧ l'.status = .trapped ∧ l'.end_ = s.frame) ∧
    (∀ w ∈ l.ctxNames, (t.ctx w.core w.ctx).st = .retired) ∧
    (t.part o.part).fcount = (s.part o.part).fcount + 1 ∧
    tfind (t.part o.part).flog ((s.part o.part).fcount.toNat % 8) =
      some { cause := f.cause, term := true, addr := f.addr, core := core, ctx := ctx }

/-- R419 and R424. The resumed bundle issues one cycle on, so each time in a held item moves by one. That the ports keep their vectors
read ahead and their pushes, and the random unit its held vectors, is the model's choice: R418 lists read-ahead and held vectors as dropped,
and notes/assumptions entry 68 reads that of a port which the handler has used. The rest that no rule states outright is entry 15's. -/
def Obligations.TrapReturnRestores : Prop :=
  ∀ (s : State) (core ctx : Nat) (f : TrapFound) (h : Nat),
    let x := s.ctx core ctx
    x.trapEn = true → x.trapMask.getLsbD f.cause.number = true → x.inh = false → f.cause ≠ .replayDiverge → f.cause ≠ .overrun →
    x.rstack.length < 16 → s.awaits core ctx = false → s.handlerAt core x = some h → s.det core = false →
    let u := ((s.takeTrap core ctx f).eret core ctx).ctx core ctx
    u.st = .running ∧ u.inh = false ∧ u.pc = x.pc ∧ u.bank = x.bank ∧ u.nds = x.nds ∧ u.tgt = x.tgt ∧
    u.retPending = x.retPending ∧ u.rstack = x.rstack ∧ u.cycle = x.cycle ∧ u.bankTrap = none ∧
    u.flight = x.flight.map (fun g => { g with vis := g.vis + 1, issued := g.issued + 1 }) ∧
    u.latches = x.latches.map (fun l => { l with b0 := l.b0 + 1, issued := l.issued + 1 }) ∧
    u.lostAt = x.lostAt.map (fun c => c + 1) ∧
    u.flagLands = (x.flagLands.filter (fun g => decide (x.cycle < g.at_))).map (fun g => { g with at_ := g.at_ + 1 }) ∧
    u.shadows = x.shadows.map (fun g => { g with at_ := g.at_ + 1 }) ∧
    u.divFree = x.divFree + 1 ∧
    u.s = x.s ∧ u.x = x.x ∧ u.y = x.y ∧ u.m = x.m ∧ u.d = x.d ∧ u.n = x.n ∧ u.p = x.p ∧ u.k = x.k ∧ u.fmt = x.fmt ∧
    u.taint = x.taint ∧ u.fpflags = x.fpflags ∧ u.rndPos = x.rndPos ∧ u.rndHeld = x.rndHeld ∧
    ((x.ports.map (·.1)).Nodup → u.ports = x.ports) ∧
    ((∀ e ∈ x.predWrite, e.2 < x.cycle) → u.predWrite = x.predWrite.map (fun e => (e.1, e.2 + 1)))

/-! ## Slots: guards, operands, results and frames -/

/-- R134, R170 and R349 over every slot form: no value, no pop, no push, no block, no trap.
What no rule states outright is the model's: notes/assumptions entry 17. -/
def Obligations.FalseGuardPropagatesOnly : Prop :=
  (∀ (x : Ctx) (gd : Guard), (x.holds gd = true ↔ ((x.pred gd.g.toNat).val ^^ gd.inv) = true) ∧ (x.pred 0).val = true ∧ (x.pred 0).mask = 0) ∧
  (∀ (i : Instr) (gd : Guard) (s : State), i.guard = some gd → s.me.holds gd = false →
    let gm := (s.me.pred gd.g.toNat).mask
    ∃ t es tn, exec i s = .next t ∧ t.cur.verdict = .issued ∧ s.onlyMyContext t ∧
      t.me = { s.me with flight := s.me.flight ++ es, taintNext := tn } ∧
      (∀ e ∈ es, e.maskOnly = true ∧ e.mask = gm ||| s.me.taint ∧ s.me.cycle < e.vis) ∧
      (tn = s.me.taintNext ∨ tn = s.me.taintNext ||| gm) ∧
      (gm = 0 → es = [] ∧ tn = s.me.taintNext))

/-- R160: none of a blocked bundle's pops or pushes takes effect; R415: none of a trapping bundle's slots issues.
What no rule states outright is the model's: notes/assumptions entry 13. -/
def Obligations.UnissuedAttemptChangesNothing : Prop :=
  ∀ (i : Instr) (gd : Guard) (s : State), i.guard = some gd →
    ∃ t : State, exec i s = .next t ∧
      (∀ n, t.cur.verdict = .blocked n →
        s.det s.cur.core = false ∧
        t = (s.modMe (fun x => { x with block := n, yielded := x.yielded || n == 11 })).verdict (.blocked n)) ∧
      (t.cur.verdict = .stalled → s.det s.cur.core = false ∧ t = s.verdict .stalled) ∧
      (∀ c code addr, t.cur.verdict = .raised c code addr → t = s.trapHere c code addr)

/-- R178 for `opnd`, R257 for `opnd3`. -/
def Obligations.OperandReads : Prop :=
  (∀ (s : State) (n : BitVec 5),
    (s.pending (.sreg n.toNat) = false → s.opnd (.reg n) = .ok (s.me.sreg n.toNat, s)) ∧
    (s.pending (.sreg n.toNat) = true → s.opnd (.reg n) = .error (.block 7)) ∧
    (s.pending (.mreg n.toNat) = false → s.opnd3 (.reg n) = .ok (s.me.mreg n.toNat, s)) ∧
    (s.pending (.mreg n.toNat) = true → s.opnd3 (.reg n) = .error (.block 7))) ∧
  (∀ (x : Ctx), x.sreg 0 = Lab.zero 64) ∧
  (∀ (s : State) (j : BitVec 2),
    (s.me.latchLost j.toNat = false →
      let l := s.me.latch s.cur.slot j.toNat
      s.opnd (.latch j) = .ok ({ val := l.val.setWidth 64, mask := l.mask }, s) ∧ s.opnd3 (.latch j) = s.opnd (.latch j)) ∧
    (s.me.latchLost j.toNat = true →
      s.opnd (.latch j) = .ok (Lab.zero 64, s.modMe (fun x => { x with latchlost := true })) ∧ s.opnd3 (.latch j) = s.opnd (.latch j))) ∧
  (∀ (s : State), s.opnd .zero = .ok (Lab.zero 64, s) ∧ s.opnd3 .zero = .ok (Lab.zero 64, s) ∧
    s.opnd3 .ext = .ok ({ val := BitVec.ofInt 64 s.cur.ext.toInt, mask := 0 }, s) ∧
    s.opnd .ext = .error (.raise .illegal 0 0) ∧ s.opnd .rnd = .error (.raise .illegal 0 0) ∧
    s.opnd3 .rnd = .error (.raise .illegal 0 0) ∧
    ∀ q, s.opnd (.port q) = .error (.raise .illegal 0 0) ∧ s.opnd3 (.port q) = .error (.raise .illegal 0 0))

/-- R162 for an s register. `landResults` is what happens at the start of a cycle (RESULT_WRITEBACK). -/
def Obligations.ResultTiming : Prop :=
  ∀ (s : State) (L n : Nat) (v : Word) (m : Mask), n ≠ 0 → 
    let y := (s.own L false (.sreg n) (v.setWidth 1024) m).me
    let at_ (c : Nat) : Ctx := { y with cycle := c }
    (∀ j < 4, s.me.lostAt = none → (∀ l ∈ s.me.latches, l.slot = s.cur.slot → l.b0 ≠ s.me.cycle + L) →
      (at_ (s.me.cycle + L + j)).latch s.cur.slot j = { val := v.setWidth 1024, mask := m }) ∧
    ((∀ f ∈ s.me.flight, f.dest ≠ .sreg n) →
      (∀ c ≤ s.me.cycle + L, ((at_ c).landResults).sreg n = s.me.sreg n) ∧
      ((at_ (s.me.cycle + L + 1)).landResults).sreg n = { val := v, mask := m })

/-- R166, R346 and R347. Of the results that land on one register in one cycle the one that `best` names stands, wherever it is in the
list, and the masks that false guards raise are joined to it. `put` writes one result.
What no rule states outright is the model's: notes/assumptions entries 18 and 66. -/
def Obligations.LandingRules : Prop :=
  (∀ (x : Ctx),
    x.landResults.flight = x.flight.filter (fun f => decide (x.cycle < f.vis)) ∧
    (∀ n, (∀ f ∈ x.flight, f.vis ≤ x.cycle → f.dest ≠ .sreg n) → x.landResults.sreg n = x.sreg n) ∧
    (∀ n, (∀ f ∈ x.flight, f.vis ≤ x.cycle → f.dest ≠ .mreg n) → x.landResults.mreg n = x.mreg n) ∧
    (∀ g n, (∀ f ∈ x.flight, f.vis ≤ x.cycle → ∀ lo len, f.dest ≠ .vreg g n lo len) → x.landResults.vreg g n = x.vreg g n) ∧
    (∀ n, (∀ f ∈ x.flight, f.vis ≤ x.cycle → f.dest ≠ .dlanes n) →
      (x.landResults.dreg n).val = (x.dreg n).val ∧
      ((∀ f ∈ x.flight, f.vis ≤ x.cycle → f.dest ≠ .dnorm n) → x.landResults.dreg n = x.dreg n)) ∧
    (∀ n, (∀ f ∈ x.flight, f.vis ≤ x.cycle → f.dest ≠ .dnorm n) → (x.landResults.nreg n).val = (x.nreg n).val) ∧
    (∀ n, (∀ f ∈ x.flight, f.vis ≤ x.cycle → f.dest ≠ .pred n) → x.landResults.pred n = x.pred n) ∧
    (∀ n, (∀ f ∈ x.flight, f.vis ≤ x.cycle → ∀ len, f.dest ≠ .kmask n len) → x.landResults.kreg n = x.kreg n)) ∧
  (∀ (x : Ctx) (f : InFlight),
    let due (g : InFlight) : Prop := g ∈ x.flight ∧ g.vis ≤ x.cycle
    let better (g : InFlight) : Prop := (f.own = true ∧ g.own = false) ∨
      (f.own = true ∧ g.own = true ∧ (g.issued < f.issued ∨ (g.issued = f.issued ∧ g.slot < f.slot))) ∨
      (f.own = false ∧ g.own = false ∧ (g.slot < f.slot ∨ (g.slot = f.slot ∧ g.issued < f.issued)))
    let best : Prop := due f ∧ f.maskOnly = false ∧ ∀ g, due g → g.maskOnly = false → g.dest.same f.dest = true → g = f ∨ better g
    let raised : Mask :=
      unionMasks ((x.flight.filter (fun g => decide (g.vis ≤ x.cycle) && g.maskOnly && g.dest.same f.dest)).map (·.mask))
    let y := x.put f.dest f.val (if f.joins = true then x.maskOf f.dest ||| f.mask else f.mask)
    best →
    (∀ n, f.dest = .sreg n → n ≠ 0 → x.landResults.sreg n = { y.sreg n with mask := (y.sreg n).mask ||| raised }) ∧
    (∀ n, f.dest = .mreg n → x.landResults.mreg n = { y.mreg n with mask := (y.mreg n).mask ||| raised }) ∧
    (∀ g n lo len, f.dest = .vreg g n lo len → x.landResults.vreg g n = { y.vreg g n with mask := (y.vreg g n).mask ||| raised }) ∧
    (∀ n, f.dest = .dlanes n → (x.landResults.dreg n).val = f.val) ∧
    (∀ n, f.dest = .dnorm n → (x.landResults.nreg n).val = f.val.setWidth 16) ∧
    (∀ n, f.dest = .pred n → n ≠ 0 → x.landResults.pred n = { y.pred n with mask := (y.pred n).mask ||| raised }) ∧
    (∀ n len, f.dest = .kmask n len → x.landResults.kreg n = { y.kreg n with mask := (y.kreg n).mask ||| raised })) ∧
  (∀ (x : Ctx) (n : Nat), n ≠ 0 → (∀ g ∈ x.flight, g.vis ≤ x.cycle → g.dest = .sreg n → g.maskOnly = true) →
    let raised : Mask :=
      unionMasks ((x.flight.filter (fun g => decide (g.vis ≤ x.cycle) && g.maskOnly && g.dest.same (.sreg n))).map (·.mask))
    x.landResults.sreg n = { x.sreg n with mask := (x.sreg n).mask ||| raised }) ∧
  (∀ (x : Ctx) (n : Nat) (v : BitVec 1024) (m : Mask),
    (x.put (.sreg n) v m).s = tput x.s n { val := v.setWidth 64, mask := m } ∧
    (x.put (.mreg n) v m).mreg n = { val := v.setWidth 64, mask := m } ∧
    (x.put (.dlanes n) v m).dreg n = { val := v, mask := (x.dreg n).mask ||| m } ∧
    (x.put (.dnorm n) v m).nreg n = { val := v.setWidth 16, mask := (x.dreg n).mask ||| m } ∧
    (x.put (.dnorm n) v m).dreg n = { val := (x.dreg n).val, mask := (x.dreg n).mask ||| m } ∧
    (n ≠ 0 → (x.put (.pred n) v m).pred n = { val := v.getLsbD 0, mask := m })) ∧
  (∀ (x : Ctx) (n w : Nat) (v : BitVec 1024) (m : Mask), w ≤ 128 →
    let old := x.kreg n
    let new := (x.put (.kmask n w) v m).kreg n
    (∀ i < 128, new.val.getLsbD i = if i < w then v.getLsbD i else old.val.getLsbD i) ∧
    new.mask = if w = 128 then m else old.mask ||| m) ∧
  (∀ (x : Ctx) (g : VFile) (n lo w : Nat) (v : BitVec 1024) (m : Mask), lo + w ≤ 1024 →
    let old := x.vreg g n
    let new := (x.put (.vreg g n lo w) v m).vreg g n
    (∀ i < 1024, new.val.getLsbD i = if lo ≤ i ∧ i < lo + w then v.getLsbD (i - lo) else old.val.getLsbD i) ∧
    new.mask = if w = 1024 then m else old.mask ||| m)

/-- The frame of the forms that write one s register or one predicate.
What no rule states outright is the model's: notes/assumptions entry 17. -/
def Obligations.ScalarRegisterFrame : Prop :=
  (∀ (i : Instr) (d : Dest) (s t : State), scalarDest i = some d → exec i s = .next t → t.cur.verdict = .issued →
    s.onlyMyContext t ∧ (∀ pa, t.peek pa = s.peek pa) ∧
    t.me = { s.me with flight := t.me.flight, latches := t.me.latches, latchlost := t.me.latchlost, divFree := t.me.divFree } ∧
    (∀ e ∈ t.me.flight, e ∈ s.me.flight ∨ (e.dest = d ∧ e.slot = s.cur.slot ∧ s.me.cycle < e.vis)) ∧
    (∀ l ∈ t.me.latches, l ∈ s.me.latches ∨ l.slot = s.cur.slot) ∧
    ((∀ f, i ≠ .div f ∧ i ≠ .divu f ∧ i ≠ .rem f ∧ i ≠ .remu f) → t.me.divFree = s.me.divFree)) ∧
  (∀ (i : Instr) (pd : BitVec 3) (s t : State), ((∃ f, i = .cmp f ∧ f.pd = pd) ∨ (∃ f, i = .plog f ∧ f.pd = pd)) →
    exec i s = .next t → t.cur.verdict = .issued →
    s.onlyMyContext t ∧ (∀ pa, t.peek pa = s.peek pa) ∧
    t.me = { s.me with flight := t.me.flight, latchlost := t.me.latchlost, predWrite := t.me.predWrite } ∧
    (∀ e ∈ t.me.flight, e ∈ s.me.flight ∨ (e.dest = .pred pd.toNat ∧ e.vis = s.me.cycle + 1)))

/-! ## Slots 1 and 2: vectors -/

/-- R311 for the integer lanes, with R242, R244 and R254 for the codes that pop. -/
def Obligations.VectorOperandReads : Prop :=
  (∀ (s : State), s.vfile = (if s.cur.slot = 1 then VFile.x else VFile.y)) ∧
  (∀ (s : State) (n : BitVec 5) (w e : Nat) (f : Option FloatFmt),
    (s.pending (.vreg s.vfile n.toNat 0 1024) = false → s.opndv (.reg n) w e f = .ok (s.me.vreg s.vfile n.toNat, s)) ∧
    (s.pending (.vreg s.vfile n.toNat 0 1024) = true → s.opndv (.reg n) w e f = .error (.block 7))) ∧
  (∀ (s : State) (j : BitVec 2) (w e : Nat) (f : Option FloatFmt), s.me.latchLost j.toNat = false →
    s.opndv (.latch j) w e f = .ok (s.me.latch s.cur.slot j.toNat, s)) ∧
  (∀ (s : State) (w e : Nat) (f : Option FloatFmt), s.opndv .zero w e f = .ok (Lab.zero 1024, s)) ∧
  (∀ (s : State) (w e : Nat), e ∈ [8, 16, 32, 64] → ∃ v, s.opndv .ext w e none = .ok ({ val := v, mask := 0 }, s) ∧
    ∀ j < 1024 / e, (lane v e j : Int) = s.cur.ext.toInt % 2 ^ e) ∧
  (∀ (s : State) (q : BitVec 3) (w e : Nat) (f : Option FloatFmt),
    (s.me.port? q.toNat = none → s.opndv (.port q) w e f = .error (.raise .illegal 0 0)) ∧
    (∀ p, s.me.port? q.toNat = some p →
      (p.desc.out = true → s.opndv (.port q) w e f = .error (.raise .illegal 0 0)) ∧
      (p.desc.out = false → p.exh = true → s.opndv (.port q) w e f = .error (.raise .streamEnd 0 0)) ∧
      (p.desc.out = false → p.exh = false → (s.scanning q.toNat = true ∨ p.buf = []) → s.opndv (.port q) w e f = .error (.block 1)) ∧
      (∀ v vs, p.desc.out = false → p.exh = false → s.scanning q.toNat = false → p.buf = v :: vs →
        s.opndv (.port q) w e f = .ok ({ val := v.val &&& BitVec.ofNat 1024 (2 ^ w - 1), mask := v.mask },
          s.modMe (fun x => { x with ports := tput x.ports q.toNat { p.next1 with buf := vs } })) ∧
        p.next1.pos = (if p.pos + 1 < p.desc.total then p.pos + 1 else if p.desc.repeat_ = true then 0 else p.desc.total) ∧
        (p.next1.exh = true ↔ p.desc.total ≤ p.pos + 1 ∧ p.desc.repeat_ = false)))) ∧
  (∀ (s : State) (w e : Nat) (f : Option FloatFmt),
    (s.me.rndHeld = 0 → s.opndv .rnd w e f = .error (.block 2)) ∧
    (s.me.rndHeld ≠ 0 → s.opndv .rnd w e f =
      .ok ({ val := rndVector s.key s.me.rndPos &&& BitVec.ofNat 1024 (2 ^ w - 1), mask := 0 },
        s.modMe (fun x => { x with rndPos := x.rndPos + 1, rndHeld := x.rndHeld - 1 }))))

/-- R315, R316 and R318, with R228 for the functions of one operand: the special operands, the bounds between which 1/v, 1/√v and √v
lie before they are rounded once, and the exact cases of 2ᵛ and log₂ v. Elsewhere those two are formed as entry 12 of notes/assumptions
says. The rounded operations on lanes are those of `FloatFmt`, which FloatArithmeticIsExactThenRounded describes. -/
def Obligations.FloatVectorResults : Prop :=
  (∀ (f : FV3 FltQ) (s s1 s2 : State) (a b : Lab 1024),
    let q := fltFmt f.q
    let w := widthBits f.width
    s.me.holds f.gd = true → s.vdestReady f.d = .ok () →
    s.opndv f.a w q.width (some q) = .ok (a, s1) → s1.opndv f.b w q.width (some q) = .ok (b, s2) →
    let m := s.me.base f.gd ||| s.me.fmt.mask ||| a.mask ||| b.mask
    let rm := rmOf s.me.fmt.val
    let gives (i : Instr) (F : Nat → Nat → Rounded) : Prop := ∃ r,
      exec i s = .next ((s2.writeVF 4 f.w f.d w r m).verdict .issued) ∧
      lanesAre q.width (w / q.width) r (fun j => ofRounded (F (lane a.val q.width j) (lane b.val q.width j)))
    gives (.vadd f) (fun x y => q.add rm (q.decode x) (q.decode y)) ∧
    gives (.vsub f) (fun x y => q.add rm (q.decode x) (q.decode y).flip) ∧
    gives (.vmul f) (fun x y => q.mul rm (q.decode x) (q.decode y)) ∧
    gives (.vmin f) (fun x y => q.minmax false x y) ∧ gives (.vmax f) (fun x y => q.minmax true x y)) ∧
  (∀ (f : FV3 FltQ) (s s1 s2 : State) (z a b : Lab 1024),
    let q := fltFmt f.q
    let w := widthBits f.width
    s.me.holds f.gd = true → s.vdata f.d = .ok z →
    s.opndv f.a w q.width (some q) = .ok (a, s1) → s1.opndv f.b w q.width (some q) = .ok (b, s2) →
    let m := s.me.base f.gd ||| s.me.fmt.mask ||| a.mask ||| b.mask ||| z.mask
    let rm := rmOf s.me.fmt.val
    let gives (i : Instr) (F : FVal → FVal → FVal → Rounded) : Prop := ∃ r,
      exec i s = .next ((s2.writeVF 4 f.w f.d w r m).verdict .issued) ∧
      lanesAre q.width (w / q.width) r (fun j => ofRounded
        (F (q.decode (lane a.val q.width j)) (q.decode (lane b.val q.width j)) (q.decode (lane z.val q.width j))))
    gives (.vfma f) (fun x y z => q.fma rm x y z) ∧ gives (.vfms f) (fun x y z => q.fma rm x.flip y z)) ∧
  (∀ (f : FV1 FltQ) (s s1 : State) (a : Lab 1024),
    let q := fltFmt f.q
    let w := widthBits f.width
    s.me.holds f.gd = true → s.vdestReady f.d = .ok () → s.opndv f.a w q.width (some q) = .ok (a, s1) →
    let gives (i : Instr) (F : Nat → Nat) : Prop := ∃ r,
      exec i s = .next ((s1.writeVF 4 f.w f.d w r (s.me.base f.gd ||| a.mask)).verdict .issued) ∧
      lanesAre q.width (w / q.width) r (fun j => (F (lane a.val q.width j), 0))
    gives (.vabs f) (fun x => x % 2 ^ (q.width - 1)) ∧
    gives (.vneg f) (fun x => x ^^^ 2 ^ (q.width - 1))) ∧
  (∀ (f : FV1n) (s s1 : State) (a : Lab 1024),
    let w := widthBits f.width
    s.me.holds f.gd = true → s.vdestReady f.d = .ok () → s.opndv f.a w 32 (some fp32) = .ok (a, s1) →
    let gives (i : Instr) (L : Nat) (fn : UnFn) : Prop := ∃ r,
      exec i s = .next ((s1.writeVF L f.w f.d w r (s.me.base f.gd ||| s.me.fmt.mask ||| a.mask)).verdict .issued) ∧
      lanesAre 32 (w / 32) r (fun j => ofRounded (unary fn (rmOf s.me.fmt.val) (lane a.val 32 j)))
    gives (.vrcp f) 8 .rcp ∧ gives (.vrsq f) 8 .rsq ∧ gives (.vsqrt f) 8 .sqrt ∧ gives (.vexp2 f) 10 .exp2 ∧
    gives (.vlog2 f) 10 .log2) ∧
  (∀ rm : RM,
    let is (fn : UnFn) (x bits : Nat) (flags : BitVec 8) : Prop := unary fn rm x = { bits := bits, flags := flags, ovf := false }
    is .rcp 0 0x7F800000 flagDZ ∧ is .rcp 0x80000000 0xFF800000 flagDZ ∧ is .rcp 0x7F800000 0 0 ∧ is .rcp 0xFF800000 0x80000000 0 ∧
    is .rsq 0 0x7F800000 flagDZ ∧ is .rsq 0x80000000 0xFF800000 flagDZ ∧ is .rsq 0x7F800000 0 0 ∧
    is .sqrt 0 0 0 ∧ is .sqrt 0x80000000 0x80000000 0 ∧ is .sqrt 0x7F800000 0x7F800000 0 ∧
    is .exp2 0xFF800000 0 0 ∧ is .exp2 0x7F800000 0x7F800000 0 ∧
    is .log2 0 0xFF800000 flagDZ ∧ is .log2 0x80000000 0xFF800000 flagDZ ∧ is .log2 0x7F800000 0x7F800000 0 ∧ is .log2 0x3F800000 0 0 ∧
    (∀ fn ∈ [UnFn.rsq, .sqrt, .log2], is fn 0xFF800000 0x7FC00000 flagINV ∧
      ∀ x m e, fp32.decode x = .fin true m e → m ≠ 0 → is fn x 0x7FC00000 flagINV) ∧
    (∀ fn x, (fp32.decode x).isNan = true →
      is fn x 0x7FC00000 (if (fp32.decode x).signalling = true then flagINV else 0)) ∧
    (∀ (x m : Nat) (e : Int), m ≠ 0 →
      let v : ℚ := m * 2 ^ e
      (∀ n, fp32.decode x = .fin n m e → ∃ g : Mag, unary .rcp rm x = fp32.round rm n g ∧ 2 ^ 90 ≤ g.m ∧
        (g.m : ℚ) * 2 ^ g.e * v ≤ 1 ∧ 1 < (g.m + 1 : ℚ) * 2 ^ g.e * v ∧ (g.more = false ↔ (g.m : ℚ) * 2 ^ g.e * v = 1)) ∧
      (fp32.decode x = .fin false m e → ∃ g : Mag, unary .rsq rm x = fp32.round rm false g ∧ 2 ^ 90 ≤ g.m ∧
        ((g.m : ℚ) * 2 ^ g.e) ^ 2 * v ≤ 1 ∧ 1 < ((g.m + 1 : ℚ) * 2 ^ g.e) ^ 2 * v ∧
        (g.more = false ↔ ((g.m : ℚ) * 2 ^ g.e) ^ 2 * v = 1)) ∧
      (fp32.decode x = .fin false m e → ∃ g : Mag, unary .sqrt rm x = fp32.round rm false g ∧ 2 ^ 90 ≤ g.m ∧
        ((g.m : ℚ) * 2 ^ g.e) ^ 2 ≤ v ∧ v < ((g.m + 1 : ℚ) * 2 ^ g.e) ^ 2 ∧ (g.more = false ↔ ((g.m : ℚ) * 2 ^ g.e) ^ 2 = v)) ∧
      (∀ j : Nat, fp32.decode x = .fin false m e → m = 2 ^ j → unary .log2 rm x = fp32.roundExact rm false (e + j) 0)) ∧
    (∀ (x m : Nat) (n : Bool) (e k : Int), fp32.decode x = .fin n m e → (k : ℚ) = (if n = true then -(m : ℚ) else m) * 2 ^ e →
      -149 ≤ k → k ≤ 127 → unary .exp2 rm x = fp32.roundExact rm false 1 k ∧ (unary .exp2 rm x).flags = 0))

/-- R320, and the arithmetic of R319. -/
def Obligations.IntegerVectorResults : Prop :=
  (∀ (f : FV3 IntQ) (s s1 s2 : State) (a b : Lab 1024),
    let e := intBits f.q
    let w := widthBits f.width
    s.me.holds f.gd = true → s.opndv f.a w e none = .ok (a, s1) → s1.opndv f.b w e none = .ok (b, s2) →
    let m := s.me.base f.gd ||| s.me.fmt.mask ||| a.mask ||| b.mask
    let x (j : Nat) : Int := (BitVec.ofNat e (lane a.val e j)).toInt
    let y (j : Nat) : Int := (BitVec.ofNat e (lane b.val e j)).toInt
    let reduced (v : Int) : Nat × BitVec 8 :=
      let lo : Int := -(2 ^ (e - 1))
      let hi : Int := 2 ^ (e - 1) - 1
      if v < lo then (((if isat s.me.fmt.val = true then lo else v) % 2 ^ e).toNat, flagIOVF)
      else if hi < v then (((if isat s.me.fmt.val = true then hi else v) % 2 ^ e).toNat, flagIOVF)
      else ((v % 2 ^ e).toNat, 0)
    (s.vdestReady f.d = .ok () →
      let gives (i : Instr) (L : Nat) (F : Int → Int → Int) : Prop := ∃ r,
        exec i s = .next ((s2.writeVF L f.w f.d w r m).verdict .issued) ∧
        lanesAre e (w / e) r (fun j => reduced (F (x j) (y j)))
      gives (.viadd f) 2 (fun x y => x + y) ∧ gives (.visub f) 2 (fun x y => x - y) ∧ gives (.vimul f) 3 (fun x y => x * y) ∧
      gives (.vimin f) 2 min ∧ gives (.vimax f) 2 max) ∧
    (∀ z, s.vdata f.d = .ok z → ∃ r,
      exec (.vimad f) s = .next ((s2.writeVF 3 f.w f.d w r (m ||| z.mask)).verdict .issued) ∧
      lanesAre e (w / e) r (fun j => reduced ((BitVec.ofNat e (lane z.val e j)).toInt + x j * y j)))) ∧
  (∀ (f : FV3 LaneQ) (s s1 s2 : State) (a b : Lab 1024),
    let e := laneBits f.q
    let w := widthBits f.width
    s.me.holds f.gd = true → s.vdestReady f.d = .ok () →
    s.opndv f.a w e none = .ok (a, s1) → s1.opndv f.b w e none = .ok (b, s2) →
    let m := s.me.base f.gd ||| a.mask ||| b.mask
    let gives (i : Instr) (F : BitVec e → BitVec e → BitVec e) : Prop := ∃ r,
      exec i s = .next ((s2.writeVF 2 f.w f.d w (r, 0) m).verdict .issued) ∧
      ∀ j < w / e, lane r e j = (F (BitVec.ofNat e (lane a.val e j)) (BitVec.ofNat e (lane b.val e j))).toNat
    gives (.vand f) (fun x y => x &&& y) ∧ gives (.vor f) (fun x y => x ||| y) ∧ gives (.vxor f) (fun x y => x ^^^ y) ∧
    gives (.vandn f) (fun x y => x &&& ~~~y) ∧
    gives (.vshl f) (fun x y => if y.toNat < e then x <<< y.toNat else 0) ∧
    gives (.vshr f) (fun x y => if y.toNat < e then x >>> y.toNat else 0) ∧
    gives (.vsar f) (fun x y => if y.toNat < e then x.sshiftRight y.toNat else if x.msb = true then -1 else 0))

/-- R321 to R323. -/
def Obligations.CompareAndMaskResults : Prop :=
  (∀ (f : FVC VCond FltQ) (s s1 s2 : State) (a b : Lab 1024),
    let q := fltFmt f.q
    let e := q.width
    let w := widthBits f.width
    s.me.holds f.gd = true → s.opndv f.a w e (some q) = .ok (a, s1) → s1.opndv f.b w e (some q) = .ok (b, s2) →
    let x (j : Nat) := q.decode (lane a.val e j)
    let y (j : Nat) := q.decode (lane b.val e j)
    let nan (j : Nat) : Bool := (x j).isNan || (y j).isNan
    let sig (j : Nat) : Bool := (x j).signalling || (y j).signalling
    let outcome (j : Nat) : Bool := match f.cond with
      | .eq => !nan j && !(x j).lt false (y j) && !(y j).lt false (x j)
      | .lt => !nan j && (x j).lt false (y j)
      | .le => !nan j && !(y j).lt false (x j)
      | .un => nan j
    let inv (j : Nat) : Bool := match f.cond with
      | .eq => sig j
      | .un => sig j
      | _ => nan j
    ∃ v fl, exec (.vcmp f) s = .next (((s2.quiet true 2 false (.kmask f.kd.toNat (w / 8)) v
        (s.me.base f.gd ||| a.mask ||| b.mask)).flagsIn 2 fl).verdict .issued) ∧
      (∀ i < w / 8, v.getLsbD i = outcome (i / (e / 8))) ∧
      fl = (if (List.range (w / e)).any inv = true then flagINV else 0)) ∧
  (∀ (f : FVC VICond IntQ) (s s1 s2 : State) (a b : Lab 1024),
    let e := intBits f.q
    let w := widthBits f.width
    s.me.holds f.gd = true → s.opndv f.a w e none = .ok (a, s1) → s1.opndv f.b w e none = .ok (b, s2) →
    let x (j : Nat) := BitVec.ofNat e (lane a.val e j)
    let y (j : Nat) := BitVec.ofNat e (lane b.val e j)
    let outcome (j : Nat) : Bool := match f.cond with
      | .eq => x j == y j
      | .lt => (x j).slt (y j)
      | .le => (x j).sle (y j)
      | .ltu => (x j).ult (y j)
    ∃ v, exec (.vicmp f) s = .next ((s2.quiet true 2 false (.kmask f.kd.toNat (w / 8)) v
        (s.me.base f.gd ||| a.mask ||| b.mask)).verdict .issued) ∧
      ∀ i < w / 8, v.getLsbD i = outcome (i / (e / 8))) ∧
  (∀ (f : FKL) (s : State), s.me.holds f.gd = true →
    let a := s.me.kreg f.ka.toNat
    let b := s.me.kreg f.kb.toNat
    let gives (v : BitVec 128) (m : Mask) : Prop := exec (.klog f) s =
      .next ((s.quiet true 2 false (.kmask f.kd.toNat 128) (v.setWidth 1024) (s.me.base f.gd ||| m)).verdict .issued)
    match f.op with
    | .conj => gives (a.val &&& b.val) (a.mask ||| b.mask)
    | .disj => gives (a.val ||| b.val) (a.mask ||| b.mask)
    | .xor => gives (a.val ^^^ b.val) (a.mask ||| b.mask)
    | .andn => gives (a.val &&& ~~~b.val) (a.mask ||| b.mask)
    | .neg => gives (~~~a.val) a.mask
    | .mov => gives a.val a.mask
    | .set => gives (BitVec.allOnes 128) 0
    | .clr => gives 0 0) ∧
  (∀ (f : FVK) (s s1 : State) (z a : Lab 1024),
    let w := widthBits f.width
    s.me.holds f.gd = true → s.vdata f.d = .ok z → s.opndv f.a w 32 none = .ok (a, s1) →
    let k := s.me.kreg f.k.toNat
    ∃ r, exec (.vmrg f) s = .next ((s1.writeV 2 f.w f.d w r (s.me.base f.gd ||| k.mask ||| a.mask ||| z.mask)).verdict .issued) ∧
      ∀ i < w / 8, lane r 8 i = if k.val.getLsbD i = true then lane a.val 8 i else lane z.val 8 i)

/-- R324 to R329, and R347 for VINS and VPACK, whose results are marked as leaving bits of the register unchanged. -/
def Obligations.VectorMovementResults : Prop :=
  (∀ (f : FRed) (s s1 : State) (a : Lab 1024),
    let e := (redBits f.op).1
    let w := widthBits f.width
    let n := w / e
    s.me.holds f.gd = true → s.vdestReady f.d = .ok () → s.opndv f.a w e (redBits f.op).2 = .ok (a, s1) →
    let op := redNode f.op s.me.fmt.val
    let node := treeNode op (lane a.val e)
    ∃ r fl, exec (.vred f) s = .next ((s1.writeVF 6 f.w f.d w (r, fl) (s.me.base f.gd ||| s.me.fmt.mask ||| a.mask)).verdict .issued) ∧
      lane r e 0 = node (Nat.log2 n) 0 % 2 ^ e ∧ (∀ j, 0 < j → j < n → lane r e j = 0) ∧
      (∀ b < 8, fl.getLsbD b = true ↔ ∃ k < Nat.log2 n, ∃ i < n / 2 ^ (k + 1),
        (op (node k (2 * i)) (node k (2 * i + 1))).2.getLsbD b = true)) ∧
  (∀ (f : FV3 LaneQ) (s s1 s2 : State) (a b : Lab 1024),
    let e := laneBits f.q
    let w := widthBits f.width
    s.me.holds f.gd = true → s.vdestReady f.d = .ok () →
    s.opndv f.a w e none = .ok (a, s1) → s1.opndv f.b w e none = .ok (b, s2) →
    ∃ r, exec (.vperm f) s = .next ((s2.writeVF 3 f.w f.d w (r, 0) (s.me.base f.gd ||| a.mask ||| b.mask)).verdict .issued) ∧
      ∀ j < w / e, lane r e j = lane a.val e (lane b.val e j % (w / e))) ∧
  (∀ (f : FLane) (s s1 : State) (a : Lab 1024),
    let e := laneBits f.q
    let w := widthBits f.width
    let n := w / e
    s.me.holds f.gd = true → s.opndv f.a w e none = .ok (a, s1) →
    (n ≤ f.idx.toNat → s.vdestReady f.d = .ok () →
      ∀ i ∈ [Instr.vbcast f, .vextr f, .vins f], exec i s = .next (s.trapHere .illegal 0 0)) ∧
    (f.idx.toNat < n → s.vdestReady f.d = .ok () →
      (∃ r, exec (.vbcast f) s = .next ((s1.writeVF 2 f.w f.d w (r, 0) (s.me.base f.gd ||| a.mask)).verdict .issued) ∧
        ∀ j < n, lane r e j = lane a.val e f.idx.toNat) ∧
      (∃ r, exec (.vextr f) s = .next ((s1.writeVF 2 f.w f.d w (r, 0) (s.me.base f.gd ||| a.mask)).verdict .issued) ∧
        ∀ j < n, lane r e j = if j + f.idx.toNat < n then lane a.val e (j + f.idx.toNat) else 0)) ∧
    (∀ z, f.idx.toNat < n → s.vdata f.d = .ok z →
      ∃ r, exec (.vins f) s = .next ((s1.writeV 2 f.w f.d w r (s.me.base f.gd ||| a.mask ||| z.mask) true).verdict .issued) ∧
        ∀ j < n, lane r e j = if j = f.idx.toNat then lane a.val e 0 else lane z.val e j)) ∧
  (∀ (f : FV1n) (s s1 : State) (a : Lab 1024),
    let w := widthBits f.width
    s.me.holds f.gd = true → s.vdestReady f.d = .ok () → s.opndv f.a w 32 none = .ok (a, s1) →
    exec (.vmov f) s = .next ((s1.writeVF 2 f.w f.d w (a.val, 0) (s.me.base f.gd ||| a.mask)).verdict .issued)) ∧
  (∀ (f : FVpush) (s s1 : State) (a : Lab 1024) (p : Port),
    let w := widthBits f.width
    s.me.holds f.gd = true → s.vdestReady f.d = .ok () → s.opndv f.a w 32 none = .ok (a, s1) →
    s1.me.port? f.port.toNat = some p →
    let m := s.me.base f.gd ||| a.mask
    let v := a.val &&& BitVec.ofNat 1024 (2 ^ w - 1)
    (p.desc.out = true → p.exh = false → p.pushes.length < 4 →
      let item : PushItem := { k := p.pos, val := v &&& BitVec.ofNat 1024 (2 ^ widthBits p.desc.width - 1), mask := m }
      let s2 := s1.modMe (fun x => { x with ports := tput x.ports f.port.toNat { p.next1 with pushes := p.pushes ++ [item] } })
      exec (.vmovPush f) s = .next ((s2.writeV 2 f.w f.d w v m).verdict .issued)) ∧
    (p.desc.out = true → p.exh = false → 4 ≤ p.pushes.length → s.det s.cur.core = false →
      exec (.vmovPush f) s = .next ((s.modMe (fun x => { x with block := 1 })).verdict (.blocked 1))) ∧
    (p.desc.out = false → exec (.vmovPush f) s = .next (s.trapHere .illegal 0 0)) ∧
    (p.desc.out = true → p.exh = true → exec (.vmovPush f) s = .next (s.trapHere .streamEnd 0 0))) ∧
  (∀ (f : FCvt) (s s1 : State) (a : Lab 1024),
    let ss := fmtBits f.src
    let ds := fmtBits f.dst
    let w := widthBits f.width
    let n := w / max ss ds
    s.me.holds f.gd = true → s.vdestReady f.d = .ok () → s.opndv f.a w ss (floatOf f.src) = .ok (a, s1) →
    ∃ r, exec (.vcvt f) s = .next ((s1.writeVF 3 f.w f.d w r (s.me.base f.gd ||| s.me.fmt.mask ||| a.mask)).verdict .issued) ∧
      lanesAre ds n r (fun j => convert s.me.fmt.val f.src f.dst (lane a.val ss j)) ∧ ∀ j, n ≤ j → lane r.1 ds j = 0) ∧
  (∀ (f : FPack) (s s1 : State) (a : Lab 1024),
    let w := widthBits f.width
    let P := w / 2 ^ (f.frac.toNat + 1)
    let p := f.part.toNat
    let legal : Prop := f.frac.toNat ≤ 2 ∧ p < 2 ^ (f.frac.toNat + 1)
    s.me.holds f.gd = true → s.opndv f.a w 32 none = .ok (a, s1) →
    (¬ legal → s.vdestReady f.d = .ok () →
      exec (.vpack f) s = .next (s.trapHere .illegal 0 0) ∧ exec (.vunpk f) s = .next (s.trapHere .illegal 0 0)) ∧
    (∀ z, legal → s.vdata f.d = .ok z →
      ∃ r, exec (.vpack f) s = .next ((s1.writeV 3 f.w f.d w r (s.me.base f.gd ||| a.mask ||| z.mask) true).verdict .issued) ∧
        ∀ i < w, r.getLsbD i = if p * P ≤ i ∧ i < p * P + P then a.val.getLsbD (i - p * P) else z.val.getLsbD i) ∧
    (legal → s.vdestReady f.d = .ok () →
      ∃ r, exec (.vunpk f) s = .next ((s1.writeVF 3 f.w f.d w (r, 0) (s.me.base f.gd ||| a.mask)).verdict .issued) ∧
        ∀ i < w, r.getLsbD i = if i < P then a.val.getLsbD (p * P + i) else false))

/-- The frame of the vector forms without a memory access.
What no rule states outright is the model's: notes/assumptions entry 17. -/
def Obligations.VectorRegisterFrame : Prop :=
  (∀ (i : Instr) (d : Dest) (s t : State), vectorDest s i = some d → exec i s = .next t → t.cur.verdict = .issued →
    s.onlyMyContext t ∧ (∀ pa, t.peek pa = s.peek pa) ∧
    t.me = { s.me with flight := t.me.flight, latches := t.me.latches, latchlost := t.me.latchlost, ports := t.me.ports,
                       rndPos := t.me.rndPos, rndHeld := t.me.rndHeld, flagLands := t.me.flagLands, taintNext := t.me.taintNext } ∧
    (∀ e ∈ t.me.flight, e ∈ s.me.flight ∨ (e.dest = d ∧ e.slot = s.cur.slot ∧ s.me.cycle < e.vis)) ∧
    (∀ l ∈ t.me.latches, l ∈ s.me.latches ∨ l.slot = s.cur.slot)) ∧
  (∀ (i : Instr) (kd : BitVec 3) (s t : State),
    ((∃ f, i = .vcmp f ∧ f.kd = kd) ∨ (∃ f, i = .vicmp f ∧ f.kd = kd) ∨ (∃ f, i = .klog f ∧ f.kd = kd)) →
    exec i s = .next t → t.cur.verdict = .issued →
    s.onlyMyContext t ∧ (∀ pa, t.peek pa = s.peek pa) ∧
    t.me = { s.me with flight := t.me.flight, latchlost := t.me.latchlost, ports := t.me.ports, rndPos := t.me.rndPos,
                       rndHeld := t.me.rndHeld, flagLands := t.me.flagLands, taintNext := t.me.taintNext } ∧
    (∀ e ∈ t.me.flight, e ∈ s.me.flight ∨ ((∃ len, e.dest = .kmask kd.toNat len) ∧ e.vis = s.me.cycle + 2)))

/-- R281 and R282 with the operands and the checks of R280, R196, R116, R117 and R123: the lowest address that fails is reported. `lookUpAll` looks up
spans in their order, and `sendAll` sends them so. -/
def Obligations.VectorMemoryAccesses : Prop :=
  let asks (i : Instr) (s s3 : State) (dest : Dest) (w : Bool) (hs : List Hit) (landed : Prop) (landing : ReadReq → Prop) : Prop :=
    ∃ (t : State) (r : ReadReq), exec i s = .next (t.verdict .issued) ∧ t = { s3 with nextId := s3.nextId + 1, reads := t.reads } ∧
      t.reads.getLast? = some r ∧ r.id = s3.nextId ∧ r.core = s3.cur.core ∧ r.ctx = s3.cur.ctx ∧
      r.dest = (if w = true then .nowhere else dest) ∧ r.bytes = hs.map (fun h => some h.pa) ∧
      (¬ landed → r.reply = none ∧ r.due = none) ∧ (landed → landing r)
  /- The span that fails lowest, of those that fail. -/
  let fails (s t : State) (k : AKind) (m : Mask) (sp : Spans) (o : Out) : Prop :=
    (t.noMisses sp ≠ .ok () → o = .next (s.trapHere .overrun 0 0)) ∧
    ∀ e ∈ sp, ∀ c a, t.noMisses sp = .ok () → t.span k e.1 e.2 m = .error (.raise c 0 a) →
      (∀ e' ∈ sp, ∀ c' x a', t.span k e'.1 e'.2 m = .error (.raise c' x a') → a < a' ∨ (c' = c ∧ x = 0 ∧ a' = a)) →
      o = .next (s.trapHere c 0 a)
  let lowest (sp : Spans) (e : Word × Nat) : Prop := e ∈ sp ∧ e.1.toNat % 16 ≠ 0 ∧ ∀ e' ∈ sp, e'.1.toNat % 16 ≠ 0 → e.1 ≤ e'.1
  (∀ (f : FVld) (s s1 s2 : State) (a : Lab 1024) (b : Lab 64),
    s.me.holds f.gd = true → s.ldaHolds = false → s.vdestReady f.d = .ok () → s.opnd1 f.a = .ok (a, s1) →
    s1.vecOffset f.b = .ok (b, s2) →
    let w := widthBits f.width
    let base : Word := a.val.setWidth 64
    let m := s.me.base f.gd ||| a.mask ||| b.mask
    let reads (i : Instr) (sp : Spans) : Prop :=
      (∀ e, lowest sp e → exec i s = .next (s.trapHere .misalign 0 e.1)) ∧
      ((∀ e ∈ sp, e.1.toNat % 16 = 0) → fails s s2 .read 0 sp (exec i s)) ∧
      ((∀ e ∈ sp, e.1.toNat % 16 = 0) → s2.noMisses sp = .ok () → ∀ hss, s2.checkAll .read 0 sp = .ok hss →
      let s3 := s2.lookUpAll false s2.nextId sp
      let hs := hss.flatten
      (s3.ownBytes hs = true →
        exec i s = .next (((s3.own 6 f.w (.vreg s3.vfile f.d.toNat 0 w)
          (BitVec.ofNat 1024 (leValue (hs.map (fun h => s3.peek h.pa)) % 2 ^ w)) (m ||| s3.hitsMask hs)).modMe
          (fun x => { x with readVis := max x.readVis (x.cycle + 7) })).verdict .issued)) ∧
      (s3.ownBytes hs = false → asks i s s3 (.vreg s3.vfile f.d.toNat 0 w) f.w hs False (fun _ => True)))
    reads (.vld f) [(base + b.val, w / 8)] ∧
    reads (.vlds f) ((List.range (w / 128)).map (fun i => (base + BitVec.ofNat 64 i * b.val, 16)))) ∧
  (∀ (f : FV3 LaneQ) (s s1 s2 : State) (a b : Lab 1024),
    s.me.holds f.gd = true → s.ldaHolds = false → s.vdestReady f.d = .ok () → s.opnd1 f.a = .ok (a, s1) →
    s1.opnd1 f.b = .ok (b, s2) →
    let w := widthBits f.width
    let e := laneBits f.q
    let base : Word := a.val.setWidth 64
    let sp : Spans := (List.range (min (w / 32) (w / e))).map
      (fun j => (base + BitVec.ofInt 64 ((BitVec.ofNat 32 (lane b.val 32 j)).toInt * (e / 8 : Nat)), e / 8))
    (base.toNat % (e / 8) ≠ 0 → exec (.vgather f) s = .next (s.trapHere .misalign 0 base)) ∧
    (base.toNat % (e / 8) = 0 → fails s s2 .read 0 sp (exec (.vgather f) s)) ∧
    ∀ hss : List (List Hit), base.toNat % (e / 8) = 0 → s2.noMisses sp = .ok () → s2.checkAll .read 0 sp = .ok hss →
    let s3 := s2.lookUpAll false s2.nextId sp
    let hs := hss.flatten
    (∀ q ∈ s.reads, q.id < s.nextId) →
    asks (.vgather f) s s3 (.vreg s3.vfile f.d.toNat 0 w) f.w hs (s3.ownBytes hs = true) (fun r =>
      r.due = some ((s3.core s3.cur.core).ticks + 10) ∧
      ∃ m, r.reply = some { val := BitVec.ofNat 1024 (leValue (hs.map (fun h => s3.peek h.pa)) % 2 ^ w), mask := m })) ∧
  (∀ (f : FVst) (s s1 s2 : State) (v a : Lab 1024) (b : Lab 64),
    s.me.holds f.gd = true → s.ldaHolds = false → s.vdata f.d = .ok v → s.opnd1 f.a = .ok (a, s1) → s1.vecOffset f.b = .ok (b, s2) →
    let w := widthBits f.width
    let va : Word := a.val.setWidth 64 + b.val
    let m := s.me.base f.gd ||| v.mask ||| a.mask ||| b.mask
    (va.toNat % 16 ≠ 0 → exec (.vst f) s = .next (s.trapHere .misalign 0 va)) ∧
    (va.toNat % 16 = 0 → fails s s2 .write m [(va, w / 8)] (exec (.vst f) s)) ∧
    ∀ hs : List Hit, va.toNat % 16 = 0 → s2.noMiss va.toNat (w / 8) = .ok () → s2.span .write va (w / 8) m = .ok hs →
    let s3 := s2.lookUp (some s2.nextId) va.toNat (w / 8)
    exec (.vst f) s = .next ((s3.sendWrite s3.cur.core s3.cur.ctx true va
      ((hs.map (·.pa)).zip (bytesOf (w / 8) (v.val.toNat % 2 ^ w))) m false).verdict .issued)) ∧
  (∀ (f : FScat) (s s1 s2 : State) (v a b : Lab 1024),
    s.me.holds f.gd = true → s.ldaHolds = false → s.vdata f.d = .ok v → s.opnd1 f.a = .ok (a, s1) → s1.opnd1 f.b = .ok (b, s2) →
    let w := widthBits f.width
    let e := laneBits f.q
    let base : Word := a.val.setWidth 64
    let m := s.me.base f.gd ||| v.mask ||| a.mask ||| b.mask
    let n := min (w / 32) (w / e)
    let sp : Spans := (List.range n).map
      (fun j => (base + BitVec.ofInt 64 ((BitVec.ofNat 32 (lane b.val 32 j)).toInt * (e / 8 : Nat)), e / 8))
    (base.toNat % (e / 8) ≠ 0 → exec (.vscatter f) s = .next (s.trapHere .misalign 0 base)) ∧
    (base.toNat % (e / 8) = 0 → fails s s2 .write m sp (exec (.vscatter f) s)) ∧
    ∀ hss : List (List Hit), base.toNat % (e / 8) = 0 → s2.noMisses sp = .ok () → s2.checkAll .write m sp = .ok hss →
    let s3 := s2.lookUpAll true s2.nextId sp
    exec (.vscatter f) s = .next ((s3.sendAll m ((sp.map (·.1)).zip (hss.zip ((List.range n).map (lane v.val e))))).verdict .issued))

/-! ## Slot 2: directions -/

/-- R333 and R335 to R338, with R230: `writeDir` delivers lanes after L and the norm after L + 2 cycles (R165). `renormalise`, `ratio`
and `blend` are the model's functions (notes/assumptions entry 12); the last clauses tie them to R230 and R337, for a sum of squares
and a factor that are powers of two exactly. -/
def Obligations.DirectionResults : Prop :=
  (∀ (f : FD1) (s : State), s.me.holds f.gd = true →
    let len := chainLen f.chain
    let a := s.direction f.a len
    let m := s.me.base f.gd ||| a.mask
    let gives (i : Instr) (r : DirResult) : Prop := exec i s = .next ((s.writeDir 2 f.w f.d.toNat len r m).verdict .issued)
    let zero : DirResult := { lanes := [], norm := -32768, flags := 0 }
    (a.zero = true → gives (.dmov f) zero ∧ gives (.dneg f) zero) ∧
    (a.zero = false → gives (.dmov f) { lanes := a.lanes, norm := a.norm, flags := 0 } ∧
      gives (.dneg f) { lanes := a.lanes.map (fun l => -l), norm := a.norm, flags := 0 })) ∧
  (∀ (f : FD0) (s : State), s.me.holds f.gd = true →
    exec (.dzero f) s = .next ((s.writeDir 2 f.w f.d.toNat (chainLen f.chain) { lanes := [], norm := -32768, flags := 0 }
      (s.me.base f.gd)).verdict .issued)) ∧
  (∀ (f : FD2) (s s1 : State) (k : Int) (km : Mask), s.me.holds f.gd = true → s.yOperand f.b = .ok ((k, km), s1) →
    let len := chainLen f.chain
    let a := s.direction f.a len
    let m := s.me.base f.gd ||| a.mask ||| km
    let gives (i : Instr) (r : DirResult) : Prop := exec i s = .next ((s1.writeDir 2 f.w f.d.toNat len r m).verdict .issued)
    let zero : DirResult := { lanes := [], norm := -32768, flags := 0 }
    (a.zero = true → gives (.dscale f) zero ∧ gives (.dnset f) zero) ∧
    (a.zero = false →
      gives (.dscale f) { lanes := a.lanes, norm := max (-32767) (min 32767 (a.norm + k)),
                          flags := if -32767 ≤ a.norm + k ∧ a.norm + k ≤ 32767 then 0 else flagNSAT } ∧
      (let v := (BitVec.ofInt 16 k).toInt
       gives (.dnset f) (if v = -32768 then zero else { lanes := a.lanes, norm := v, flags := 0 })))) ∧
  (∀ (f : FD2) (s : State), s.me.holds f.gd = true →
    let len := chainLen f.chain
    let a := s.direction f.a len
    let b := s.direction f.b len
    let m := s.me.base f.gd ||| a.mask ||| b.mask
    let gives (i : Instr) (r : DirResult) : Prop :=
      exec i s = .next ((s.writeDir (8 + Nat.log2 len) f.w f.d.toNat len r m).verdict .issued)
    let zero : DirResult := { lanes := [], norm := -32768, flags := 0 }
    (a.zero = true ∨ b.zero = true → gives (.dmul f) zero) ∧
    (a.zero = false → b.zero = false →
      gives (.dmul f) (renormalise (List.zipWith (fun x y => x * y) a.lanes b.lanes) (a.norm + b.norm - 3584))) ∧
    (∀ (i : Instr) (sg : Int), (i = .dadd f ∧ sg = 1) ∨ (i = .dsub f ∧ sg = -1) →
      (a.zero = true → b.zero = true → gives i zero) ∧
      (a.zero = false → b.zero = true → gives i { lanes := a.lanes, norm := a.norm, flags := 0 }) ∧
      (a.zero = true → b.zero = false → gives i { lanes := b.lanes.map (fun y => sg * y), norm := b.norm, flags := 0 }) ∧
      (a.zero = false → b.zero = false → b.norm ≤ a.norm →
        let c := ratio (b.norm - a.norm)
        gives i (renormalise (List.zipWith (fun x y => blend c x (sg * y)) a.lanes b.lanes) (a.norm - 4096))) ∧
      (a.zero = false → b.zero = false → a.norm < b.norm →
        let c := ratio (a.norm - b.norm)
        gives i (renormalise (List.zipWith (fun x y => blend c (sg * y) x) a.lanes b.lanes) (b.norm - 4096))))) ∧
  (∀ (f : FDN) (s : State) (n : BitVec 5), s.me.holds f.gd = true → f.a = .reg n → s.yReady n.toNat (chainLen f.chain) = .ok () →
    let len := chainLen f.chain
    let regs := (List.range len).map (fun i => s.me.vreg .y (n.toNat + i))
    let q := if f.bf = true then bf16 else fp16
    let vs := (regs.flatMap (fun r => (List.range 64).map (lane r.val 16))).map q.decode
    let gives (r : DirResult) : Prop := exec (.dnorm f) s = .next ((s.writeDir (8 + Nat.log2 len) f.w f.d.toNat len r
      (s.me.base f.gd ||| s.me.fmt.mask ||| unionMasks (regs.map (·.mask)))).verdict .issued)
    ((∃ v ∈ vs, v.isNan = true ∨ v.isInf = true) → gives { lanes := [], norm := -32768, flags := flagINV }) ∧
    ((∀ v ∈ vs, v.isZero = true) → gives { lanes := [], norm := -32768, flags := 0 }) ∧
    (∀ e, (∀ v ∈ vs, v.isNan = false ∧ v.isInf = false) → topExponent vs = some e →
      gives (renormalise (vs.map (fun v => nearestInt v.int.1 (v.int.2 + 30 - e))) (256 * (e - 16))))) ∧
  (∀ (ls : List Int) (n0 : Int), (∀ l ∈ ls, l = 0) ↔ (renormalise ls n0).norm = -32768) ∧
  (∀ (ls : List Int) (n0 : Int), let S := (ls.map (fun l => l * l)).sum
    (∀ j : Nat, S = 2 ^ j → (renormalise ls n0).norm = max (-32767) (min 32767 (n0 + 128 * ((j : Int) - 28))) ∧
      (renormalise ls n0).flags = if -32767 ≤ n0 + 128 * ((j : Int) - 28) ∧ n0 + 128 * ((j : Int) - 28) ≤ 32767 then 0 else flagNSAT) ∧
    (∀ k : Nat, k ≤ 80 → S = 2 ^ (28 + 2 * k) → (renormalise ls n0).lanes = ls.map (fun l => nearestInt l (-k))) ∧
    (S < 2 ^ 200 → ∀ l ∈ (renormalise ls n0).lanes, |l| ≤ 16384)) ∧
  (∀ k : Nat, k ≤ 149 → ((ratio (-(256 * k))).1 : ℚ) * 2 ^ (ratio (-(256 * k))).2 = 1 / 2 ^ k) ∧
  (∀ (c : Nat × Int) (x y : Int), let v : ℚ := 2 ^ 16 * (x + c.1 * 2 ^ c.2 * y)
    |(blend c x y : ℚ) - v| ≤ 1 / 2 ∧ (|(blend c x y : ℚ) - v| = 1 / 2 → blend c x y % 2 = 0))

/-- R334 to R336, R339 and R340. `writeY` delivers one y register after L cycles. `dunnormLane` is the model's function; for a norm
that is a multiple of 256 the first clause ties it to R334.
What no rule states outright is the model's: notes/assumptions entries 12 and 38. -/
def Obligations.DirectionsIntoY : Prop :=
  (∀ (f : FDN) (s : State), s.me.holds f.gd = true → s.yReady f.d.toNat (chainLen f.chain) = .ok () →
    let len := chainLen f.chain
    let L := 8 + Nat.log2 len
    let q := if f.bf = true then bf16 else fp16
    let a := s.direction f.a len
    let m := s.me.base f.gd ||| s.me.fmt.mask ||| a.mask
    (∀ k l : Int, |k| ≤ 128 → dunnormLane q s.me.fmt.val (256 * k) l = ofRounded (q.roundExact (rmOf s.me.fmt.val) false l (k - 14))) ∧
    let el (j : Nat) : Nat × BitVec 8 := if a.zero = true then (0, 0) else dunnormLane q s.me.fmt.val a.norm ((a.lanes[j]?).getD 0)
    ∃ (vs : List Vec) (fl : BitVec 8), vs.length = len ∧
      exec (.dunnorm f) s = .next ((((List.range len).foldl (fun t i =>
        t.writeY L f.w (f.d.toNat + i) ((vs[i]?).getD 0) m) s).flagsIn L fl).verdict .issued) ∧
      (∀ i < len, ∀ j < 64, lane ((vs[i]?).getD 0) 16 j = (el (64 * i + j)).1 % 2 ^ 16) ∧
      (∀ b < 8, fl.getLsbD b = true ↔ ∃ j < 64 * len, (el j).2.getLsbD b = true)) ∧
  (∀ (f : FD1) (s : State), s.me.holds f.gd = true → s.yReady f.d.toNat (chainLen f.chain) = .ok () →
    let len := chainLen f.chain
    let a := s.direction f.a len
    ∃ (vs : List Vec), vs.length = len ∧
      exec (.dmovRaw f) s = .next (((List.range len).foldl (fun t i =>
        t.writeY 2 f.w (f.d.toNat + i) ((vs[i]?).getD 0) (s.me.base f.gd ||| a.mask)) s).verdict .issued) ∧
      ∀ i < len, ∀ j < 64, (lane ((vs[i]?).getD 0) 16 j : Int) =
        (if a.zero = true then 0 else (a.lanes[64 * i + j]?).getD 0) % 2 ^ 16) ∧
  (∀ (f : FDG) (s : State), s.me.holds f.gd = true → s.yReady f.d.toNat 1 = .ok () →
    let a := s.direction f.a 1
    exec (.dnget f) s = .next ((s.writeY 2 f.w f.d.toNat ((BitVec.ofInt 32 a.norm).setWidth 1024)
      (s.me.base f.gd ||| a.mask)).verdict .issued)) ∧
  (∀ (f : FD2) (s : State), s.me.holds f.gd = true → s.yReady f.d.toNat 1 = .ok () →
    let len := chainLen f.chain
    let a := s.direction f.a len
    let b := s.direction f.b len
    ∃ v, exec (.ddot f) s = .next ((s.writeY (6 + Nat.log2 len) f.w f.d.toNat v
        (s.me.base f.gd ||| a.mask ||| b.mask)).verdict .issued) ∧
      (∀ j, 2 ≤ j → j < 32 → lane v 32 j = 0) ∧
      (a.zero = true ∨ b.zero = true → lane v 32 0 = 0 ∧ lane v 32 1 = 2 ^ 32 - 65536) ∧
      (a.zero = false → b.zero = false →
        (lane v 32 0 : Int) = nearestInt (List.zipWith (fun x y => x * y) a.lanes b.lanes).sum (-14) % 2 ^ 32 ∧
        (lane v 32 1 : Int) = (a.norm + b.norm) % 2 ^ 32)) ∧
  (∀ (f : FDM) (s : State) (p : Port), s.me.holds f.gd = true → s.scanning f.port.toNat = false →
    let len := chainLen f.chain
    (s.myCore.scan ≠ none → s.det s.cur.core = false →
      exec (.dmaxcos f) s = .next ((s.modMe (fun x => { x with block := 7 })).verdict (.blocked 7))) ∧
    (s.myCore.scan = none → s.yReady f.d.toNat 1 = .ok () → s.me.port? f.port.toNat = some p →
      ((p.desc.out = true ∨ p.desc.repeat_ = true ∨ p.desc.total ≤ p.pos ∨ (p.desc.total - p.pos) % len ≠ 0) →
        exec (.dmaxcos f) s = .next (s.trapHere .illegal 0 0)) ∧
      (p.desc.out = false → p.desc.repeat_ = false → p.pos < p.desc.total → (p.desc.total - p.pos) % len = 0 →
        ∃ c : Scan, exec (.dmaxcos f) s = .next ((s.modMyCore (fun k => { k with scan := some c })).verdict .issued) ∧
          c.ctx = s.cur.ctx ∧ c.port = f.port.toNat ∧ c.y = f.d.toNat ∧ c.w = f.w ∧ c.chain = len ∧ c.cand = [] ∧
          c.left = p.desc.total - p.pos ∧
          (f.acc = false → c.best = -32768 ∧ c.idx = 0xFFFFFFFF ∧ c.cnt = 0) ∧
          (f.acc = true → let y := s.me.vreg .y f.d.toNat
            c.best = (BitVec.ofNat 32 (lane y.val 32 0)).toInt ∧ c.idx.toNat = lane y.val 32 1 ∧ c.cnt.toNat = lane y.val 32 2)))) ∧
  (∀ (c : Scan) (v : Lab 1024),
    (c.cand.length + 1 < c.chain → (c.take v).cand = c.cand ++ [v.val] ∧ (c.take v).best = c.best ∧ (c.take v).idx = c.idx ∧
      (c.take v).cnt = c.cnt) ∧
    (c.chain ≤ c.cand.length + 1 →
      let cos := cosine (c.a.flatMap lanes16) ((c.cand ++ [v.val]).flatMap lanes16)
      (c.take v).cand = [] ∧ (c.take v).cnt = c.cnt + 1 ∧ (c.take v).best = max c.best cos ∧
      (c.take v).idx = if c.best < cos then c.cnt else c.idx) ∧
    (c.take v).left = c.left - 1 ∧ (c.take v).mask = c.mask ||| v.mask)

/-! ## Numbers -/

/-- R218 and R219. -/
def Obligations.FloatArithmeticIsExactThenRounded : Prop :=
  (∀ (rm : RM) (neg : Bool) (m : Nat) (e q : Int), e < q →
    let v : ℚ := m / 2 ^ (q - e).toNat
    let r := roundAt rm neg { m := m, e := e, more := false } q
    (r.2 = true ↔ (r.1 : ℚ) ≠ v) ∧
    (rm = .ne → |(r.1 : ℚ) - v| ≤ 1 / 2 ∧ (|(r.1 : ℚ) - v| = 1 / 2 → r.1 % 2 = 0)) ∧
    (rm = .tz → (r.1 : ℚ) ≤ v ∧ v < r.1 + 1) ∧
    ((rm = .up ∧ neg = false) ∨ (rm = .dn ∧ neg = true) → v ≤ r.1 ∧ (r.1 : ℚ) < v + 1) ∧
    ((rm = .up ∧ neg = true) ∨ (rm = .dn ∧ neg = false) → (r.1 : ℚ) ≤ v ∧ v < r.1 + 1)) ∧
  (∀ (q : FloatFmt) (rm : RM) (c : Nat) (neg : Bool) (m : Nat) (e : Int), q ∈ [fp32, fp16, bf16, f8e4, f8e5] →
    c < 2 ^ q.width → q.decode c = .fin neg m e →
    q.round rm neg { m := m, e := e, more := false } = { bits := c, flags := 0, ovf := false }) ∧
  (∀ (q : FloatFmt) (rm : RM) (n1 n2 n3 : Bool) (m1 m2 m3 : Nat) (e1 e2 e3 : Int),
    let val (n : Bool) (m : Nat) (e : Int) : ℚ := (if n = true then -(m : ℚ) else m) * 2 ^ e
    (∃ i e z, q.add rm (.fin n1 m1 e1) (.fin n2 m2 e2) = q.roundExact rm z i e ∧ (i : ℚ) * 2 ^ e = val n1 m1 e1 + val n2 m2 e2 ∧
      z = (if n1 = n2 then n1 else decide (rm = .dn))) ∧
    (∃ i e, q.mul rm (.fin n1 m1 e1) (.fin n2 m2 e2) = q.roundExact rm (n1 != n2) i e ∧
      (i : ℚ) * 2 ^ e = val n1 m1 e1 * val n2 m2 e2) ∧
    (∃ i e z, q.fma rm (.fin n1 m1 e1) (.fin n2 m2 e2) (.fin n3 m3 e3) = q.roundExact rm z i e ∧
      (i : ℚ) * 2 ^ e = val n1 m1 e1 * val n2 m2 e2 + val n3 m3 e3 ∧
      z = (if (n1 != n2) = n3 then n3 else decide (rm = .dn)))) ∧
  (∀ (q : FloatFmt) (rm : RM) (x y z : FVal), 
    ((x.isNan = true ∨ y.isNan = true) → (q.add rm x y).bits = q.nanBits ∧ (q.mul rm x y).bits = q.nanBits ∧
      ((q.add rm x y).flags = if (x.signalling || y.signalling) = true then flagINV else 0)) ∧
    (∀ n, q.add rm (.inf n) (.inf (!n)) = { bits := q.nanBits, flags := flagINV, ovf := false }) ∧
    (∀ n k e, q.mul rm (.inf n) (.fin k 0 e) = { bits := q.nanBits, flags := flagINV, ovf := false } ∧
      q.fma rm (.inf n) (.fin k 0 e) z = { bits := q.nanBits, flags := flagINV, ovf := false }) ∧
    fp32.nanBits = 0x7FC00000 ∧ fp16.nanBits = 0x7E00 ∧ bf16.nanBits = 0x7FC0)

/-! ## Slot 3: rings, ports, copies, handles, the transpose unit and plane calls -/

/-- R261 to R263. The word is read field by field, as R235 lays it out. -/
def Obligations.RingOperations : Prop :=
  (∀ (f : FRset) (s s1 : State) (a : Lab 64), s.me.holds f.gd = true → s.ldaHolds = false → s.opnd3 f.a = .ok (a, s1) →
    let v := a.val
    let base := (v.extractLsb' 0 19).toNat
    let tile := (v.extractLsb' 30 8).toNat
    let log2n := (v.extractLsb' 38 4).toNat
    let src := fmtOfCode (v.extractLsb' 42 3).toNat
    let snk := fmtOfCode (v.extractLsb' 45 3).toNat
    let bm := s.me.base f.gd ||| s.me.fmt.mask ||| a.mask
    let valid : Prop := v.extractLsb' 48 16 = 0 ∧ v.extractLsb' 19 11 = 0 ∧ 1 ≤ log2n ∧ 1 ≤ tile ∧ tile ≤ 128 ∧
      64 * (base + tile * 2 ^ log2n) ≤ 0x01800000 ∧ (src = .raw ↔ snk = .raw)
    let sets (r : Ring) : Out := .next ((s1.modRing s1.cur.core f.ring.toNat (fun _ => r)).verdict .issued)
    (v ≠ 0 → ¬ valid → exec (.rset f) s = .next (s.trapHere .illegal 0 0)) ∧
    ((v = 0 ∨ valid) → s1.myCore.ringIdle f.ring.toNat = false → exec (.rset f) s = .next (s.trapHere .ringBusy 0 0)) ∧
    (v = 0 → s1.myCore.ringIdle f.ring.toNat = true →
      exec (.rset f) s = sets { base := 0, tile := 0, log2n := 0, src := .raw, snk := .raw, head := 0, tail := 0, resv := 0,
                                done := [], fmt := Lab.zero 4, bmask := bm }) ∧
    (valid → s1.myCore.ringIdle f.ring.toNat = true →
      exec (.rset f) s = sets { base := base, tile := tile, log2n := log2n, src := src, snk := snk, head := 0, tail := 0,
                                resv := 0, done := [], fmt := s.me.fmt, bmask := bm })) ∧
  (∀ (f : FE2) (s s1 s2 : State) (r : Nat × Mask) (b : Lab 64),
    s.me.holds f.gd = true → s.ldaHolds = false → s.mReady f.md = .ok () →
    s.obj f.a 16 = .ok (r, s1) → s1.opnd3 f.b = .ok (b, s2) →
    let n := b.val.toNat
    let ring := s2.myCore.ring r.1
    let m := s.me.base f.gd ||| r.2 ||| b.mask
    ((ring.log2n = 0 ∨ n = 0 ∨ 2 ^ ring.log2n < n) → exec (.rpush f) s = .next (s.trapHere .illegal 0 0)) ∧
    (ring.log2n ≠ 0 → n ≠ 0 → n ≤ 2 ^ ring.log2n →
      ((ring.resv ≠ ring.tail ∨ 2 ^ ring.log2n < (ring.tail - ring.head).toNat + n) →
        exec (.rpush f) s = .next ((s2.writeM f.w f.md 0 m).verdict .issued)) ∧
      (ring.resv = ring.tail → (ring.tail - ring.head).toNat + n ≤ 2 ^ ring.log2n →
        ∃ done, (∀ t, t ∈ done ↔ t ∈ ring.done ∨ ∃ i < n, t = ring.tail + BitVec.ofNat 32 i) ∧
          exec (.rpush f) s = .next (((s2.modRing s2.cur.core r.1
            (fun _ => { ring with resv := ring.resv + BitVec.ofNat 32 n, done := done })).writeM f.w f.md b.val m).verdict .issued)))) ∧
  (∀ (f : FRstat) (s s1 : State) (r : Nat × Mask),
    s.me.holds f.gd = true → s.mReady f.md = .ok () → s.obj f.a 16 = .ok (r, s1) →
    let ring := s1.myCore.ring r.1
    let gives (v : Word) : Out := .next ((s1.writeM f.w f.md v (s.me.base f.gd ||| r.2)).verdict .issued)
    (f.sel = .cfg → exec (.rstat f) s = gives ring.cfg) ∧
    (f.sel = .ptr → exec (.rstat f) s = gives (ring.tail ++ ring.head)) ∧
    (f.sel = .resv → exec (.rstat f) s = gives ((0 : BitVec 32) ++ ring.resv)))

/-- R264 to R266 and R279. What no rule states outright is the model's: notes/assumptions entries 29 and 31. -/
def Obligations.StreamPortOperations : Prop :=
  (∀ (f : FPortA) (s : State), s.me.holds f.gd = true → s.unbindReady f.port.toNat = false → s.det s.cur.core = false →
    exec (.sbind f) s = .next ((s.modMe (fun x => { x with block := 1 })).verdict (.blocked 1))) ∧
  (∀ (f : FPortA) (s s1 : State) (a : Lab 64), s.me.holds f.gd = true → s.unbindReady f.port.toNat = true → s.ldaHolds = false →
    s.opnd3 f.a = .ok (a, s1) →
    (a.val.toNat % 64 ≠ 0 → exec (.sbind f) s = .next (s.trapHere .misalign 0 0)) ∧
    (a.val.toNat % 64 = 0 → 0x017FFFC0 < a.val.toNat → exec (.sbind f) s = .next (s.trapHere .sliceRange 0 0)) ∧
    (∀ (r : BitVec 512) (rm : Mask), a.val.toNat % 64 = 0 → a.val.toNat ≤ 0x017FFFC0 → s1.readRecord a.val = .ok (r, rm) →
      (streamOf r = none → exec (.sbind f) s = .next (s.trapHere .illegal 0 0)) ∧
      (∀ d, streamOf r = some d →
        (s1.myCore.genUsed d.gen s1.cur.ctx f.port.toNat = true → exec (.sbind f) s = .next (s.trapHere .illegal 0 0)) ∧
        (s1.myCore.genUsed d.gen s1.cur.ctx f.port.toNat = false →
          let p : Port :=
            { desc := d, pos := 0, exh := false, fmt := s.me.fmt,
              bmask := s.me.base f.gd ||| s.me.fmt.mask ||| (a.mask ||| rm), buf := [], next := 0, pushes := [],
              phase := s1.myCore.phase, dead := false, first := s1.myCore.ticks + 2, num := s1.nextId }
          exec (.sbind f) s = .next ((s1.modMe (fun x => { x with ports := tput x.ports f.port.toNat p })).verdict .issued))))) ∧
  (∀ (r : BitVec 512) (d : StreamDesc), streamOf r = some d → ∀ k : Nat,
    0 ≤ d.addr k ∧ d.addr k + (d.bytes : Int) ≤ 0x01800000 ∧ d.addr k % 16 = 0) ∧
  (∀ (f : FPort) (s : State), s.me.holds f.gd = true →
    (s.unbindReady f.port.toNat = true →
      exec (.sunbind f) s = .next ((s.modMe (fun x => { x with ports := terase x.ports f.port.toNat })).verdict .issued)) ∧
    (s.unbindReady f.port.toNat = false → s.det s.cur.core = false →
      exec (.sunbind f) s = .next ((s.modMe (fun x => { x with block := 1 })).verdict (.blocked 1)))) ∧
  (∀ (f : FPortA) (s s1 : State) (a : Lab 64), s.me.holds f.gd = true → s.opnd3 f.a = .ok (a, s1) →
    let q := f.port.toNat
    let v := a.val.toNat
    (s1.me.port? q = none → ∀ i ∈ [Instr.scfgSeek f, .scfgRep f], exec i s = .next (s.trapHere .illegal 0 0)) ∧
    (∀ p, s1.me.port? q = some p →
      let puts (p : Port) : Out := .next ((s1.modMe (fun x => { x with ports := tput x.ports q p })).verdict .issued)
      let t := p.desc.total
      (s1.unbindReady q = true →
        (v < t → exec (.scfgSeek f) s = puts { p with buf := [], pos := v, next := v, exh := false }) ∧
        (t ≤ v → p.desc.repeat_ = true → exec (.scfgSeek f) s = puts { p with buf := [], pos := v % t, next := v % t, exh := false }) ∧
        (t ≤ v → p.desc.repeat_ = false → exec (.scfgSeek f) s = puts { p with buf := [], pos := t, next := t, exh := true })) ∧
      (2 ≤ v → exec (.scfgRep f) s = .next (s.trapHere .illegal 0 0)) ∧
      (v < 2 → s1.scanning q = false → exec (.scfgRep f) s = puts { p with desc := { p.desc with repeat_ := v == 1 } }))) ∧
  (∀ (f : FA) (s s1 : State) (a : Lab 64), s.me.holds f.gd = true → s.opnd3 f.a = .ok (a, s1) →
    exec (.rndseek f) s = .next ((s1.modMe (fun x => { x with rndPos := a.val, rndHeld := 0 })).verdict .issued)) ∧
  (∀ (f : FRnd) (s : State), s.me.holds f.gd = true → s.mReady f.md = .ok () →
    let gives (v : Word) : Out := .next ((s.writeM f.w f.md v (s.me.base f.gd)).verdict .issued)
    (f.sel = .pos → exec (.rndstat f) s = gives s.me.rndPos) ∧
    (f.sel = .held → exec (.rndstat f) s = gives (BitVec.ofNat 64 s.me.rndHeld)))

/-- R267 to R269, R271 to R273, R362 and R407. `takes` says what becomes of a command that has passed its checks.
What no rule states outright is the model's: notes/assumptions entries 29 and 31. -/
def Obligations.CopyQueueCommands : Prop :=
  let takes (s0 s : State) (kind : CopyKind) (m : Mask) (o : Out) : Prop :=
    (s.me.copyq.length < 16 → o = .next ((({ s with nextId := s.nextId + 1 } : State).modMe (fun x =>
      { x with copyq := x.copyq ++ [{ uid := s.nextId, kind := kind, cmask := m, stage := .queued, k := 0, total := 0, srec := 0,
                                      drec := 0, tile0 := 0, tiles := 0, popped := 0, fault := none, reported := false,
                                      data := [], dmask := 0, egress := [], phase := s.myCore.phase }] })).verdict .issued)) ∧
    (16 ≤ s.me.copyq.length → s.strict = true → o = .next (s0.trapHere .copyqFull 0 0)) ∧
    (16 ≤ s.me.copyq.length → s.strict = false → s0.det s0.cur.core = false →
      o = .next ((s0.modMe (fun x => { x with block := 3 })).verdict (.blocked 3)))
  (∀ (f : FAB) (s s1 s2 : State) (a : Nat × Mask) (b : Lab 64),
    s.me.holds f.gd = true → s.ldaHolds = false → s.obj f.a 64 = .ok (a, s1) → s1.opnd3 f.b = .ok (b, s2) →
    (b.val.toNat % 64 ≠ 0 → exec (.crec f) s = .next (s.trapHere .misalign 0 0)) ∧
    (b.val.toNat % 64 = 0 → 0x017FFFC0 < b.val.toNat → exec (.crec f) s = .next (s.trapHere .sliceRange 0 0)) ∧
    (∀ r, b.val.toNat % 64 = 0 → b.val.toNat ≤ 0x017FFFC0 → s2.readRecord b.val = .ok r →
      exec (.crec f) s = .next ((s2.modMyCore (fun k => { k with layouts := tset 0 k.layouts a.1 r.1 })).verdict .issued))) ∧
  (∀ (f : FCopy) (s s1 s2 : State) (cmd src dst : Lab 64),
    s.me.holds f.gd = true → s.ldaHolds = false → s.opnd3 f.b = .ok (cmd, s1) → s1.opnd3 f.a = .ok (src, s2) →
    s2.mdata f.md.toNat = .ok dst →
    let c := cmd.val
    let dkind := (c.extractLsb' 27 2).toNat
    let skind := (c.extractLsb' 25 2).toNat
    let legal : Prop := c.extractLsb' 29 35 = 0 ∧ dkind ≤ 2 ∧ skind ≤ 1 ∧ (dkind ≠ 0 → c.extractLsb' 6 6 = 0) ∧
      (skind ≠ 0 → c.extractLsb' 0 6 = 0) ∧ (c.getLsbD 24 = false → c.extractLsb' 18 6 = 0) ∧ (dkind = 0 ∨ skind = 0) ∧
      (skind = 1 → src.val.toNat < 16) ∧ (dkind = 1 → dst.val.toNat < 16) ∧
      (dkind = 2 → dst.val.toNat < 2 ^ 19 ∧ dst.val.toNat % 16 = 0)
    (¬ legal → exec (.copy f) s = .next (s.trapHere .illegal 0 0)) ∧
    (legal → takes s s2 (.copy c src.val dst.val f.fill)
      (s.me.base f.gd ||| s.me.fmt.mask ||| (cmd.mask ||| src.mask ||| dst.mask)) (exec (.copy f) s))) ∧
  (∀ (f : FAB) (s s1 s2 : State) (v : Lab 64) (h : Nat × Mask),
    s.me.holds f.gd = true → s.ldaHolds = false → s.opnd3 f.a = .ok (v, s1) → s1.obj f.b 64 = .ok (h, s2) →
    let va : Word := v.val &&& ~~~0xFFF
    let n := v.val.toNat % 4096 + 1
    (∀ (g : FAB) (w : Lab 64) (u : State), g.gd = f.gd → g.a = f.a → s1.opnd3 g.b = .ok (w, u) → 64 ≤ w.val.toNat →
      exec (.bclear g) s = .next (s.trapHere .illegal 0 0)) ∧
    (inAperture va.toNat = false → exec (.bclear f) s = .next (s.trapHere .transTarget 0 va)) ∧
    (∀ c, inAperture va.toNat = true → aperture (s2.launchCores s2.cur.core) s2.cur.core va.toNat = .error c →
      exec (.bclear f) s = .next (s.trapHere c 0 va)) ∧
    (∀ pa, inAperture va.toNat = true → aperture (s2.launchCores s2.cur.core) s2.cur.core va.toNat = .ok pa →
      (0x01800000 < pa % 0x2000000 + 4096 * n → exec (.bclear f) s = .next (s.trapHere .sliceRange 0 va)) ∧
      (pa % 0x2000000 + 4096 * n ≤ 0x01800000 → takes s s2 (.bclear va.toNat n h.1)
        (s.me.base f.gd ||| s.me.fmt.mask ||| (v.mask ||| h.2)) (exec (.bclear f) s)))) ∧
  (∀ (f : FRel) (s s1 s2 : State) (cmd src off : Lab 64),
    s.me.holds f.gd = true → s.ldaHolds = false → s.opnd3 f.b = .ok (cmd, s1) → s1.opnd3 f.a = .ok (src, s2) →
    s2.mdata f.md.toNat = .ok off →
    let c := cmd.val
    let len := (c.extractLsb' 0 24).toNat
    let legal : Prop := c.extractLsb' 38 26 = 0 ∧ c.extractLsb' 24 3 = 0 ∧ len ≠ 0 ∧ len % 16 = 0 ∧ len ≤ 1048576
    (¬ legal → exec (.release f) s = .next (s.trapHere .illegal 0 0)) ∧
    (legal → src.val.toNat % 16 ≠ 0 → exec (.release f) s = .next (s.trapHere .misalign 0 src.val)) ∧
    (legal → src.val.toNat % 16 = 0 → off.val.toNat % 16 ≠ 0 → exec (.release f) s = .next (s.trapHere .misalign 0 0)) ∧
    (legal → src.val.toNat % 16 = 0 → off.val.toNat % 16 = 0 →
      takes s s2 (.release (c.extractLsb' 27 5).toNat len (c.extractLsb' 32 6).toNat src.val off.val)
        (s.me.base f.gd ||| s.me.fmt.mask ||| (cmd.mask ||| src.mask ||| off.mask)) (exec (.release f) s))) ∧
  (∀ (f : FA) (s s1 : State) (a : Lab 64), s.me.holds f.gd = true → s.ldaHolds = false → s.opnd3 f.a = .ok (a, s1) →
    let legal : Prop := a.val.extractLsb' 15 49 = 0 ∧ a.val.extractLsb' 4 4 = 0
    let win := (a.val.extractLsb' 0 4).toNat
    let installed := tfind (s1.part (s1.partOf s1.cur.core)).pubwins win
    (¬ legal → exec (.publish f) s = .next (s.trapHere .illegal 0 0)) ∧
    (legal → installed = none → exec (.publish f) s = .next (s.trapHere .pubUnbound 0 0)) ∧
    (legal → ∀ w, installed = some w → takes s s1
      (.publish win (if a.val.getLsbD 8 then some (a.val.extractLsb' 9 6).toNat else none))
      (s.me.base f.gd ||| s.me.fmt.mask ||| a.mask) (exec (.publish f) s))) ∧
  (∀ (f : FZ) (s : State), s.me.holds f.gd = true →
    (s.me.copyPend = false → ∀ i ∈ [Instr.cresumePatch f, .cresumeRetry f, .cresumeSkip f], exec i s = .next (s.verdict .issued)) ∧
    (∀ e, s.me.copyPend = true → s.me.reportedEntry = some e →
      let ends (t : State) : Out := .next ((t.modMe (fun x => { x with copyPend := false })).verdict .issued)
      let onward (e : CopyEntry) : CopyEntry := { e with stage := .running, fault := none, reported := false }
      exec (.cresumeRetry f) s = ends (s.modEntry s.cur.core s.cur.ctx e.uid onward) ∧
      exec (.cresumePatch f) s = ends (s.modEntry s.cur.core s.cur.ctx e.uid (fun e => match e.kind with
        | .copy cmd _ _ _ => { onward e with total := 0, srec := tget 0 s.myCore.layouts (cmd.extractLsb' 0 6).toNat,
                                             drec := tget 0 s.myCore.layouts (cmd.extractLsb' 6 6).toNat }
        | _ => onward e)) ∧
      exec (.cresumeSkip f) s = ends (s.skipEntry s.cur.core s.cur.ctx e))) ∧
  (∀ (s : State) (core ctx h : Nat) (e : CopyEntry),
    let t := s.skipEntry core ctx e
    (e.kind.dhnd = some h → (e.kind.shnd ≠ some h ∨ e.stage = .queued) → (t.core core).handle h = { st := .full, skipped := true }) ∧
    (e.kind.shnd = some h → e.stage ≠ .queued → ((t.core core).handle h).st = .free) ∧
    (t.ctx core ctx).copyq = (s.ctx core ctx).copyq.filter (fun d => d.uid != e.uid)) ∧
  (∀ (f : FCstat) (s : State), s.me.holds f.gd = true → s.mReady f.md = .ok () →
    let gives (v : Word) : Out := .next ((s.writeM f.w f.md v (s.me.base f.gd)).verdict .issued)
    (f.sel = .queue → exec (.cstat f) s =
      gives (BitVec.ofNat 64 ((if s.strict = true then 256 else 0) + s.me.copyq.length))) ∧
    (f.sel = .fault → exec (.cstat f) s = gives s.me.copyFaultWord) ∧
    (f.sel = .stall → exec (.cstat f) s = gives s.me.copyStall))

/-- R274 to R278. -/
def Obligations.HandlesAndTranspose : Prop :=
  let code (h : Handle) : Nat := (match h.st with
    | .free => 0 | .filling => 1 | .full => 2 | .draining => 3) + (if h.skipped = true then 4 else 0)
  (∀ (f : FAB) (s s1 s2 : State) (h : Nat × Mask) (v : Lab 64),
    s.me.holds f.gd = true → s.obj f.a 64 = .ok (h, s1) → s1.opnd3 f.b = .ok (v, s2) →
    let old := s2.myCore.handle h.1
    (4 ≤ v.val.toNat → exec (.hset f) s = .next (s.trapHere .illegal 0 0)) ∧
    (v.val.toNat < 4 → old.st = .filling → exec (.hset f) s = .next (s.trapHere .handleState 0 0)) ∧
    (v.val.toNat < 4 → old.st ≠ .filling → ∃ st, code { st := st, skipped := false } = v.val.toNat ∧
      exec (.hset f) s = .next ((s2.setHandle s2.cur.core h.1 (fun x =>
        { st := st, skipped := if v.val = 0 then false else x.skipped })).verdict .issued))) ∧
  (∀ (f : FHwait) (s s1 : State) (h : Nat × Mask),
    s.me.holds f.gd = true → s.mReady f.md = .ok () → s.obj f.a 64 = .ok (h, s1) →
    let x := s1.myCore.handle h.1
    let want : HState := match f.sel with | .full => .full | .free => .free
    (x.st = want → exec (.hwait f) s =
      .next ((s1.writeM f.w f.md (BitVec.ofNat 64 (code x)) (s.me.base f.gd ||| h.2)).verdict .issued)) ∧
    (x.st ≠ want → s.det s.cur.core = false →
      exec (.hwait f) s = .next ((s.modMe (fun x => { x with block := 4 })).verdict (.blocked 4)))) ∧
  (∀ (f : FE1) (s s1 : State) (h : Nat × Mask),
    s.me.holds f.gd = true → s.mReady f.md = .ok () → s.obj f.a 64 = .ok (h, s1) →
    let x := s1.myCore.handle h.1
    let v := BitVec.ofNat 64 (code x)
    (x.st = .full → exec (.hwaitClaim f) s =
      .next (((s1.setHandle s1.cur.core h.1 (fun x => { x with st := .draining })).writeM f.w f.md v
        (s.me.base f.gd ||| h.2)).verdict .issued)) ∧
    (x.st ≠ .full → s.det s.cur.core = false →
      exec (.hwaitClaim f) s = .next ((s.modMe (fun x => { x with block := 4 })).verdict (.blocked 4))) ∧
    exec (.hquery f) s = .next ((s1.writeM f.w f.md v (s.me.base f.gd ||| h.2)).verdict .issued)) ∧
  (∀ (f : FA) (s s1 : State) (a : Lab 64), s.me.holds f.gd = true → s.opnd3 f.a = .ok (a, s1) →
    let v := a.val
    let base := (v.extractLsb' 0 25).toNat
    let pitch := (v.extractLsb' 32 16).toNat
    let w32 := v.getLsbD 25
    let store := v.getLsbD 26
    let columns := if w32 = true then 32 else 64
    let valid : Prop := v.extractLsb' 48 16 = 0 ∧ v.extractLsb' 27 5 = 0 ∧
      (store = false → base = 0 ∧ pitch = 0) ∧
      (store = true → base % 16 = 0 ∧ 8 ≤ pitch ∧ base + (columns - 1) * 16 * pitch + 128 ≤ 0x01800000)
    (¬ valid → exec (.trcfg f) s = .next (s.trapHere .illegal 0 0)) ∧
    (valid → exec (.trcfg f) s = .next ((s1.modMyCore (fun k => { k with trans :=
      { store := store, w32 := w32, base := base, pitch := pitch, rows := [], blocks := [], col := 0, freeAt := 0 } })).verdict .issued))) ∧
  (∀ (f : FTrpush) (s : State), s.me.holds f.gd = true → s.ldaHolds = false → s.pending (.vreg f.file f.r.toNat 0 1024) = false →
    let t := s.myCore.trans
    let r := s.me.vreg f.file f.r.toNat
    let rows := t.rows ++ [{ val := r.val, mask := s.me.base f.gd ||| r.mask }]
    let puts (t : Transpose) : Out := .next ((s.modMyCore (fun k => { k with trans := t })).verdict .issued)
    (2 ≤ t.blocks.length → s.det s.cur.core = false → exec (.trpush f) s = .next (s.verdict .stalled)) ∧
    (t.blocks.length < 2 → rows.length < (if t.w32 = true then 32 else 64) → exec (.trpush f) s = puts { t with rows := rows }) ∧
    (t.blocks.length < 2 → (if t.w32 = true then 32 else 64) ≤ rows.length →
      exec (.trpush f) s = puts { t with rows := [], blocks := t.blocks ++
        [{ rows := rows, doneAt := s.myCore.ticks, ctx := s.cur.ctx, phase := s.myCore.phase, num := s.nextId }] })) ∧
  (∀ (f : FTrpull) (s : State), s.me.holds f.gd = true → s.pending (.vreg f.file f.r.toNat 0 1024) = false →
    let t := s.myCore.trans
    let e := if t.w32 = true then 32 else 16
    ((t.store = true ∨ t.blocks = []) → exec (.trpull f) s = .next (s.trapHere .xposeOrder 0 0)) ∧
    (∀ b bs, t.store = false → t.blocks = b :: bs →
      (s.myCore.ticks < max b.doneAt t.freeAt + 8 + t.col → s.det s.cur.core = false →
        exec (.trpull f) s = .next (s.verdict .stalled)) ∧
      (max b.doneAt t.freeAt + 8 + t.col ≤ s.myCore.ticks →
        ∃ (v : BitVec 1024) (m : Mask) (u : Transpose),
          (∀ (j : Nat) (hj : j < b.rows.length), e * (j + 1) ≤ 1024 → lane v e j = lane b.rows[j].val e t.col) ∧
          (∀ i, m.getLsbD i = true ↔ ∃ r ∈ b.rows, r.mask.getLsbD i = true) ∧
          (t.col + 1 < (if t.w32 = true then 32 else 64) → u = { t with col := t.col + 1 }) ∧
          ((if t.w32 = true then 32 else 64) ≤ t.col + 1 → u = { t with col := 0, blocks := bs, freeAt := s.myCore.ticks }) ∧
          exec (.trpull f) s = .next (((s.modMyCore (fun k => { k with trans := u })).quiet false 3 f.w
            (.vreg f.file f.r.toNat 0 1024) v (s.me.base f.gd ||| m)).verdict .issued))))

/-- R342, R343 and R288. An MLOAD whose words an earlier slot of its own bundle holds back issues, keeps the core in stall cycles and is
finished at the boundary of a later cycle (`finishMload`). What no rule states outright is the model's: notes/assumptions entries 39 and
42. -/
def Obligations.PlaneCallAcceptance : Prop :=
  (∀ (f : FAB) (s s1 s2 : State) (a b : Lab 64),
    s.me.holds f.gd = true → s.ldaHolds = false → s.opnd3 f.a = .ok (a, s1) → s1.opnd3 f.b = .ok (b, s2) →
    let d := b.val
    let idx := (d.extractLsb' 0 8).toNat
    let start := (d.extractLsb' 8 12).toNat
    let len := (d.extractLsb' 20 12).toNat
    let legal : Prop := d.extractLsb' 32 32 = 0 ∧ start + len ≤ 4096
    let busy : Prop := ∃ c ∈ s2.myCore.calls, c.routine = idx ∨ runsMeet (s2.myCore.routine c.routine) (start, len) = true
    (¬ legal → exec (.mload f) s = .next (s.trapHere .illegal 0 0)) ∧
    (legal → len ≠ 0 → a.val.toNat % 16 ≠ 0 → exec (.mload f) s = .next (s.trapHere .misalign 0 a.val)) ∧
    (legal → (len = 0 ∨ a.val.toNat % 16 = 0) →
      (busy → s.det s.cur.core = false →
        exec (.mload f) s = .next ((s.modMe (fun x => { x with block := 6 })).verdict (.blocked 6))) ∧
      (s.det s.cur.core = true → exec (.mload f) s = .next (s.trapHere .overrun 0 0)) ∧
      (∀ hs s3, ¬ busy → s.det s.cur.core = false → s2.wordSpans a.val 0 len = .ok hs →
        s3 = (if len = 0 then s2 else s2.lookUp none a.val.toNat (16 * len)) →
        let pas := hs.map (·.pa)
        let late : Prop := (∃ r ∈ s3.reads, r.id < s3.cur.base ∧ r.core = s3.cur.core ∧ r.ctx = s3.cur.ctx ∧ r.reply = none ∧
            meets r.pas pas = true) ∨ s3.atomOpen s3.cur.base s3.cur.core s3.cur.ctx pas = true ∨ s3.earlierWaits pas = true ∨
          (s3.die (dieOf s3.cur.core)).clk.covers ((s3.homeClock pas).join (sealClock hs)) = false ∨
          (s3.meshPause = true ∧ overMesh s3.cur.core pas = true)
        let follows : Prop := len ≠ 0 ∧ (s3.acquiring s3.nextId s3.cur.core s3.cur.ctx = true ∨
          s3.readOpen s3.nextId s3.cur.core s3.cur.ctx pas = true ∨ s3.atomOpen s3.nextId s3.cur.core s3.cur.ctx pas = true)
        (late → exec (.mload f) s = .next (s.verdict .stalled)) ∧
        (¬ late → follows → exec (.mload f) s = .next ((({ s3 with nextId := s3.nextId + 1 } : State).modMyCore (fun k => { k with
          mload := some { ctx := s3.cur.ctx, id := s3.nextId, idx := idx, start := start, pas := pas, clk := sealClock hs } })).verdict
            .issued)) ∧
        (¬ late → ¬ follows →
        let ws := wordsFrom len ((hs.map (·.pa)).map s3.peekNow)
        ((∃ w ∈ ws, (decodeMicro w).toOption = none) → exec (.mload f) s = .next (s.trapHere .illegal 0 0)) ∧
        ((∀ w ∈ ws, ∃ i, (decodeMicro w).toOption = some i) →
          exec (.mload f) s = .next ((s3.installRoutine s3.cur.core idx start ws).verdict .issued)))))) ∧
  (∀ (s : State) (core : Nat) (h : MloadHold), (s.core core).mload = some h →
    let clk := (s.die (dieOf core)).clk
    let waits : Prop := s.acquiring h.id core h.ctx = true ∨ s.earlierOpen h.id core h.ctx h.pas = true ∨ s.mustWait clk h.pas = true ∨
      clk.covers ((s.homeClock h.pas).join h.clk) = false ∨ (s.meshPause = true ∧ overMesh core h.pas = true)
    let t := s.modCore core (fun k => { k with mload := none })
    let ws := wordsFrom (h.pas.length / 16) (t.peeks h.pas)
    (waits → s.finishMload core = s) ∧
    (¬ waits → (∀ w ∈ ws, ∃ i, (decodeMicro w).toOption = some i) → s.finishMload core = t.installRoutine core h.idx h.start ws) ∧
    (¬ waits → (∃ w ∈ ws, (decodeMicro w).toOption = none) → s.finishMload core = t.modCtx core h.ctx (fun x => { x with
      strikes := some { cause := .illegal, code := 0, frame := (t.core core).frame, halts := false, slots := 8 } }))) ∧
  (∀ (k : Core) (i start : Nat) (ws : List (BitVec 128)), k.storesWf = true →
    let t := k.install i start ws
    (∀ (n : Nat) (hn : n < ws.length), tget 0 t.ustore (start + n) = ws[n]) ∧
    (∀ n, (n < start ∨ start + ws.length ≤ n) → tget 0 t.ustore n = tget 0 k.ustore n) ∧
    t.routine i = (start, ws.length) ∧
    (∀ j, j ≠ i → t.routine j = (if runsMeet (k.routine j) (start, ws.length) = true then (0, 0) else k.routine j)) ∧
    { t with ustore := k.ustore, routines := k.routines } = k) ∧
  (∀ (f : FMcall) (s : State) (args : List Word) (am : Mask), s.me.holds f.gd = true → s.ldaHolds = false →
    s.callArgs 8 = .ok (args, am) →
    let k := s.myCore
    let c : Call :=
      { uid := s.nextId, routine := f.idx.toNat, ctx := s.cur.ctx, args := args, fmt := s.me.fmt,
        mask := s.me.base f.gd ||| s.me.fmt.mask ||| am, started := false, upc := (k.routine f.idx.toNat).1, inj := none,
        modes := List.replicate 8 .clip, keepSet := false, halo := [], haloMask := 0, loops := [], hexpDone := false,
        merged := 0, inboxes := List.replicate (((args[6]?).getD 0).extractLsb' 16 5).toNat
          { st := .free, from_ := 0, cells := [], mask := 0, order := 0 },
        wait := none, tap := 0, ust := .idle, phase := k.phase }
    let bad : Prop := (k.routine f.idx.toNat).2 = 0 ∨ c.argsOk = false ∨ ∃ r < 16, c.holdsRing r = true ∧ (k.ring r).configured = false
    let tooMany : Prop := 512 < c.units + k.keptUnits
    let busy : Prop := 4 ≤ k.calls.length ∨ k.planeHeld c.plane = true ∨ (c.opl = true ∧ k.planeHeld c.oplane = true) ∨
      (∃ r < 16, c.holdsRing r = true ∧ k.ringHeld r = true) ∨ k.freeUnits < c.units
    (bad → exec (.mcall f) s = .next (s.trapHere .illegal 0 0)) ∧
    (¬ bad → tooMany → exec (.mcall f) s = .next (s.trapHere .haloOverflow 0 0)) ∧
    (¬ bad → ¬ tooMany → busy → s.det s.cur.core = false →
      exec (.mcall f) s = .next ((s.modMe (fun x => { x with block := 6 })).verdict (.blocked 6))) ∧
    (¬ bad → ¬ tooMany → ¬ busy → exec (.mcall f) s =
      .next ((({ s with nextId := s.nextId + 1 } : State).modMyCore (fun k => { k with calls := k.calls ++ [c] })).verdict .issued)))

/-! ## Micro-ops -/

/-- R291 to R295 with the masks of R359, and the plane faults of R305. `onward` is the state in which the call stands at its next
micro-word, or has ended there with its launch (R427). What no rule states outright is the model's: notes/assumptions entries 40 (every use
of a tile joins its mask, also one that pops nothing), 43 (which of several faults ends the call) and 44. -/
def Obligations.PlaneStepsAndShifts : Prop :=
  let onward (s : State) (c : Call) (t : State) : Out :=
    .next ((t.modCall s.cur.core c.uid (fun d => { d with upc := d.upc + 1, ust := .running })).endAtBoundary s.cur.core c.uid)
  let again (s : State) (c : Call) (t : State) (f : Call → Call) : Out :=
    .next (t.modCall s.cur.core c.uid (fun d => { f d with ust := .running }))
  let waits (s : State) (c : Call) (x : UnitState) : Out := .next
    (if c.ending = true then (s.endCall s.cur.core c).finishRetire s.cur.core c.ctx
     else s.modCall s.cur.core c.uid (fun d => { d with ust := x }))
  (∀ (c : BitVec 32) (a b : Int) (v w : FVal),
    accumulate c (.int a) (.int b) = (BitVec.ofInt 32 (max (-(2 ^ 31)) (min (2 ^ 31 - 1) (c.toInt + a * b))),
      !decide (-(2 ^ 31) ≤ c.toInt + a * b ∧ c.toInt + a * b < 2 ^ 31)) ∧
    (accumulate c (.flt v) (.flt w)).1 = BitVec.ofNat 32 (fp32.fma .ne v w (fp32.decode c.toNat)).bits) ∧
  (∀ (s : State) (c : Call) (wring : Nat) (j : Inj) (wt xt : Tile),
    let k := s.core s.cur.core
    let w := k.ring wring
    let x := k.ring j.xring
    let p := k.plane c.plane
    c.holdsRing wring = true → c.inj = some j → c.holdsRing j.xring = true →
    stepFmt c.int w.snk = true → stepFmt c.int x.snk = true → w.elems = 512 → j.n.foldl (· * ·) 1 ≤ x.elems →
    s.tileAt c w = .ok wt → s.tileAt c x = .ok xt → p.wf = true →
    let gain (i : Nat) : BitVec 32 × Bool := accumulate (tget 0 p.cells i) (((wt.codes.map (cellValue w.snk))[i / 256]?).getD (.int 0))
      (match c.injElem j (i % 256) with
        | some e => cellValue x.snk ((xt.codes[e]?).getD 0)
        | none => cellValue x.snk 0)
    ∃ (cells : Table (BitVec 32)) (sat : Bool),
      (∀ i < 131072, tget 0 cells i = (gain i).1) ∧ (sat = true ↔ p.sat = true ∨ ∃ i < 131072, (gain i).2 = true) ∧
      s.stepOn c wring = .ok (s.modPlane s.cur.core c.plane (fun p =>
        { p with cells := cells, sat := sat, mask := p.mask ||| (c.mask ||| wt.mask ||| xt.mask) }))) ∧
  (∀ (s : State) (c : Call) (j : Inj) (w r : Nat) (popw popx : Bool), c.inj = some j →
    ((s.popStep c w popw popx).core s.cur.core).ring r =
      (let q := (s.core s.cur.core).ring r
       if (popw = true ∧ r = w) ∨ (popx = true ∧ r = j.xring) then { q with head := q.head + 1 } else q)) ∧
  (∀ (s : State) (c : Call) (wring : Nat),
    let k := s.core s.cur.core
    let w := k.ring wring
    let fails (x : PlaneCause) : Prop := s.stepOn c wring = .error (.fault x)
    (c.holdsRing wring = false → fails .ring) ∧
    (c.holdsRing wring = true → c.inj = none → fails .inj) ∧
    (∀ j, c.holdsRing wring = true → c.inj = some j →
      let x := k.ring j.xring
      let formats : Prop := stepFmt c.int w.snk = true ∧ stepFmt c.int x.snk = true
      (c.holdsRing j.xring = false → fails .ring) ∧
      (c.holdsRing j.xring = true → ¬ formats → fails .format) ∧
      (c.holdsRing j.xring = true → formats → (w.elems ≠ 512 ∨ x.elems < j.n.foldl (· * ·) 1) → fails .tile) ∧
      (c.holdsRing j.xring = true → formats → w.elems = 512 → j.n.foldl (· * ·) 1 ≤ x.elems → w.held = 0 →
        s.stepOn c wring = .error (.wait .waitTile)))) ∧
  (∀ (s : State) (c : Call), s.runningCall s.cur.core = some c →
    let fails (i : Instr) (x : PlaneCause) : Prop := exec i s = .next (s.callFault s.cur.core c x)
    (∀ (u : UStep) x, s.stepOn c u.wring.toNat = .error (.fault x) → fails (.step u) x) ∧
    (∀ u : UStepH,
      let w := (s.core s.cur.core).ring u.wring.toNat
      (c.opl = false → fails (.steph u) .operand) ∧
      (c.opl = true → c.holdsRing u.wring.toNat = false → fails (.steph u) .ring) ∧
      (c.opl = true → c.holdsRing u.wring.toNat = true → stepFmt c.int w.snk = false → fails (.steph u) .format) ∧
      (c.opl = true → c.holdsRing u.wring.toNat = true → stepFmt c.int w.snk = true → w.elems ≠ 512 → fails (.steph u) .tile) ∧
      (c.opl = true → c.holdsRing u.wring.toNat = true → stepFmt c.int w.snk = true → w.elems = 512 → w.held = 0 →
        exec (.steph u) s = waits s c .waitTile)) ∧
    (∀ u : USlide,
      let k := axisNum u.axis
      let form : Prop := (u.adv = true ∧ k ≠ 0) ∨ (u.adv = false ∧ u.stride = 0)
      (c.holdsRing u.wring.toNat = false → fails (.slide u) .ring) ∧
      (c.holdsRing u.wring.toNat = true → c.hasAxis k = false → fails (.slide u) .axis) ∧
      (c.holdsRing u.wring.toNat = true → c.hasAxis k = true → ¬ form → fails (.slide u) .inj) ∧
      (∀ x, c.holdsRing u.wring.toNat = true → c.hasAxis k = true → form → s.stepOn c u.wring.toNat = .error (.fault x) →
        fails (.slide u) x) ∧
      (∀ x, c.holdsRing u.wring.toNat = true → c.hasAxis k = true → form → s.stepOn c u.wring.toNat = .error (.wait x) →
        exec (.slide u) s = waits s c x)) ∧
    (∀ u : UShift,
      (u.op = true → c.opl = false → fails (.shift u) .operand) ∧
      ((u.op = true → c.opl = true) → c.hasAxis (axisNum u.axis) = false → fails (.shift u) .axis))) ∧
  (∀ (u : UStep) (s : State) (c : Call), s.runningCall s.cur.core = some c →
    (∀ t, s.stepOn c u.wring.toNat = .ok t → exec (.step u) s = onward s c (t.popStep c u.wring.toNat (!u.hold) u.popx)) ∧
    (∀ x, s.stepOn c u.wring.toNat = .error (.wait x) → exec (.step u) s = waits s c x)) ∧
  (∀ (u : UStepH) (s : State) (c : Call) (wt : Tile), s.runningCall s.cur.core = some c →
    let k := s.core s.cur.core
    let w := k.ring u.wring.toNat
    let p := k.plane c.plane
    let o := k.plane c.oplane
    c.opl = true → c.holdsRing u.wring.toNat = true → stepFmt c.int w.snk = true → w.elems = 512 → s.tileAt c w = .ok wt →
    p.wf = true →
    let gain (i : Nat) : BitVec 32 × Bool := accumulate (tget 0 p.cells i) (((wt.codes.map (cellValue w.snk))[i / 256]?).getD (.int 0))
      (patternValue c.int (tget 0 o.cells i))
    ∃ (cells : Table (BitVec 32)) (sat : Bool),
      (∀ i < 131072, tget 0 cells i = (gain i).1) ∧ (sat = true ↔ p.sat = true ∨ ∃ i < 131072, (gain i).2 = true) ∧
      let t := s.modPlane s.cur.core c.plane (fun p =>
        { p with cells := cells, sat := sat, mask := p.mask ||| (c.mask ||| wt.mask ||| o.mask) })
      exec (.steph u) s = onward s c (if u.hold = true then t else t.popTiles u.wring.toNat 1)) ∧
  (∀ (u : USlide) (s t : State) (c : Call) (j : Inj), s.runningCall s.cur.core = some c → c.inj = some j →
    let k := axisNum u.axis
    let w := u.wring.toNat
    let d : Int := (if u.neg = true then -1 else 1) * ((u.dil.toNat : Int) + 1)
    let moves (by_ : Int) (e : Call) : Call :=
      { e with inj := e.inj.map (fun i => { i with f := listSet i.f (k - 1) (fun f => f + by_) }) }
    c.holdsRing w = true → c.hasAxis k = true → (u.adv = true → k ≠ 0) → (u.adv = false → u.stride = 0) → s.stepOn c w = .ok t →
    let p := t.popTiles w 1
    let last := if u.popx = true ∧ j.xring ≠ w then p.popTiles j.xring 1 else p
    (c.tap < u.taps.toNat → u.adv = true →
      exec (.slide u) s = again s c p (fun e => { moves d e with tap := e.tap + 1 })) ∧
    (c.tap < u.taps.toNat → u.adv = false →
      exec (.slide u) s = again s c (p.shiftBox c k d) (fun e => { e with tap := e.tap + 1 })) ∧
    (u.taps.toNat ≤ c.tap → u.adv = true → exec (.slide u) s = onward s c (last.modCall s.cur.core c.uid (fun e =>
      { moves ((if u.neg = true then -1 else 1) * (u.stride.toNat : Int) - (u.taps.toNat : Int) * d) e with tap := 0 }))) ∧
    (u.taps.toNat ≤ c.tap → u.adv = false →
      exec (.slide u) s = onward s c (last.modCall s.cur.core c.uid (fun e => { e with tap := 0 })))) ∧
  (∀ (u : UShift) (s : State) (c : Call), s.runningCall s.cur.core = some c → c.wf = true →
    let core := s.cur.core
    let k := axisNum u.axis
    let d : Int := (if u.neg = true then -1 else 1) * ((u.mag.toNat : Int) + 1)
    c.hasAxis k = true →
    (u.op = false → exec (.shift u) s = onward s c (s.shiftBox c k d)) ∧
    (u.op = true → c.opl = true →
      let o := (s.core core).plane c.oplane
      o.wf = true → ∃ cells : Table (BitVec 32),
        (∀ i < 131072, tget 0 cells i =
          (let q := c.cellPos i
           let r := q.set k (q.get k - d)
           if u.rot = true then tget 0 o.cells (c.cellIndex (q.set k ((q.get k - d) % (c.size k : Int))))
           else if c.inPlane r = true then tget 0 o.cells (c.cellIndex r) else 0)) ∧
        exec (.shift u) s = onward s c (s.modPlane core c.oplane (fun p => { p with cells := cells, mask := p.mask ||| c.mask })))) ∧
  (∀ (s : State) (c : Call) (k : Nat) (d : Int), c.wf = true → k < 4 →
    let p := (s.core s.cur.core).plane c.plane
    p.wf = true → ∃ (cells halo : Table (BitVec 32)) (lost : Bool),
      (∀ i < c.boxCells, ({ c with halo := halo } : Call).boxCell { p with cells := cells } i =
        (let q := c.boxPos i
         let r := q.set k (q.get k - d)
         if c.inBox r = true then c.boxCell p (c.boxIndex r) else 0)) ∧
      (lost = true ↔ ∃ i < c.boxCells, c.boxCell p i ≠ 0 ∧
        c.inBox ((c.boxPos i).set k ((c.boxPos i).get k + d)) = false) ∧
      s.shiftBox c k d = (s.modPlane s.cur.core c.plane (fun p =>
        { p with cells := cells, hlost := p.hlost || lost, mask := p.mask ||| c.mask })).modCall s.cur.core c.uid
          (fun e => { e with halo := halo })) ∧
  (∀ (s : State), s.runningCall s.cur.core = none →
    (∀ u, exec (.step u) s = .next s) ∧ (∀ u, exec (.steph u) s = .next s) ∧ (∀ u, exec (.slide u) s = .next s) ∧
    (∀ u, exec (.shift u) s = .next s) ∧ (∀ u, exec (.inj u) s = .next s) ∧ (∀ u, exec (.clrp u) s = .next s) ∧
    (∀ u, exec (.ldp u) s = .next s) ∧ (∀ u, exec (.drnp u) s = .next s) ∧ exec .hexp s = .next s ∧
    (∀ u, exec (.hmrg u) s = .next s) ∧ (∀ u, exec (.bndm u) s = .next s) ∧ (∀ u, exec (.uloop u) s = .next s) ∧
    exec .uend s = .next s ∧ (∀ u, exec (.uwait u) s = .next s) ∧ exec .uret s = .next s)

/-- R290, R297 and R302 to R304. What no rule states outright is the model's: notes/assumptions entries 40, 43 and 44. -/
def Obligations.PlaneDataMovement : Prop :=
  let onward (s : State) (c : Call) (t : State) : Out :=
    .next ((t.modCall s.cur.core c.uid (fun d => { d with upc := d.upc + 1, ust := .running })).endAtBoundary s.cur.core c.uid)
  let turn (s : State) (c : Call) (t : State) (f : Call → Call) (more : Prop) (o : Out) : Prop :=
    (more → o = .next (t.modCall s.cur.core c.uid (fun d => { f d with tap := d.tap + 1, ust := .running }))) ∧
    (¬ more → o = onward s c (t.modCall s.cur.core c.uid (fun d => { f d with tap := 0 })))
  let waits (s : State) (c : Call) (x : UnitState) : Out := .next
    (if c.ending = true then (s.endCall s.cur.core c).finishRetire s.cur.core c.ctx
     else s.modCall s.cur.core c.uid (fun d => { d with ust := x }))
  (∀ (u : UInj) (s : State) (c : Call), s.runningCall s.cur.core = some c →
    let core := s.cur.core
    let zero (k : Nat) (f : BitVec 9) (n : BitVec 10) : Prop := c.hasAxis k = true ∨ (f = 0 ∧ n = 0)
    let good : Prop := (u.mode = .direct → u.s = 0) ∧ zero 1 u.f0 u.n0 ∧ zero 2 u.f1 u.n1 ∧ zero 3 u.f2 u.n2
    (c.holdsRing u.xring.toNat = false → exec (.inj u) s = .next (s.callFault core c .ring)) ∧
    (c.holdsRing u.xring.toNat = true → ¬ good → exec (.inj u) s = .next (s.callFault core c .inj)) ∧
    (c.holdsRing u.xring.toNat = true → good → exec (.inj u) s = onward s c ((s.modCall core c.uid (fun d =>
      { d with inj := some { xring := u.xring.toNat, mode := u.mode, s := u.s.toNat + 1, f := [u.f0.toInt, u.f1.toInt, u.f2.toInt],
                             n := [u.n0.toNat + 1, u.n1.toNat + 1, u.n2.toNat + 1] } })).modPlane core c.plane
      (fun p => { p with mask := p.mask ||| c.mask })))) ∧
  (∀ (s : State) (c : Call), s.runningCall s.cur.core = some c →
    let core := s.cur.core
    exec (.clrp false) s = onward s c ((s.modPlane core c.plane (fun p => { p with cells := [], mask := c.mask })).modCall core c.uid
      (fun d => { d with halo := [] })) ∧
    (c.opl = true → exec (.clrp true) s = onward s c (s.modPlane core c.oplane (fun p => { p with cells := [], mask := c.mask }))) ∧
    (c.opl = false → exec (.clrp true) s = .next (s.callFault core c .operand)) ∧
    (∀ u : UBndm, let ms := [u.f0, u.f1, u.f2, u.f3, u.f4, u.f5, u.f6, u.f7]
      exec (.bndm u) s = onward s c ((s.modCall core c.uid (fun d => { d with modes := ms, keepSet := decide (.keep ∈ ms) })).modPlane
        core c.plane (fun p => { p with mask := p.mask ||| c.mask })))) ∧
  (∀ (u : ULdp) (s : State) (c : Call) (t : Tile), s.runningCall s.cur.core = some c →
    let core := s.cur.core
    let r := (s.core core).ring u.ring.toNat
    let n := if u.op = true then c.oplane else c.plane
    let p := (s.core core).plane n
    let per := if r.snk = .raw then r.tileBytes / 4 else r.elems
    (u.op = true → c.opl = true) → c.holdsRing u.ring.toNat = true →
    (r.snk = .raw ∨ ((floatOf r.snk).isSome = true ↔ c.int = false)) →
    u.cell.toNat + (u.tiles.toNat + 1) * per ≤ 131072 → s.tileAt c r = .ok t →
    let first := u.cell.toNat + c.tap * per
    ∃ cells : Table (BitVec 32),
      (∀ i < 131072, tget 0 cells i = (if first ≤ i ∧ i < first + t.codes.length
        then BitVec.ofNat 32 (cellPattern r.snk ((t.codes[i - first]?).getD 0)) else tget 0 p.cells i)) ∧
      turn s c ((s.modPlane core n (fun p => { p with cells := cells, mask := p.mask ||| c.mask ||| t.mask })).popTiles u.ring.toNat 1)
        id (c.tap < u.tiles.toNat) (exec (.ldp u) s)) ∧
  (∀ (u : UDrnp) (s : State) (c : Call) (src : Source), s.runningCall s.cur.core = some c → s.drainSource c u.src = .ok src →
    let core := s.cur.core
    let n := u.ring.toNat
    let r := (s.core core).ring n
    let e := if r.src = .raw then 32 else fmtBits r.src
    let per := r.tileBytes * 8 / e
    c.holdsRing n = true →
    (src.count < u.cell.toNat + (u.tiles.toNat + 1) * per → exec (.drnp u) s = .next (s.callFault core c .tile)) ∧
    (u.cell.toNat + (u.tiles.toNat + 1) * per ≤ src.count →
      (2 ^ r.log2n < (r.resv - r.head).toNat + r.freed + 1 → exec (.drnp u) s = waits s c .waitTile) ∧
      ((r.resv - r.head).toNat + r.freed + 1 ≤ 2 ^ r.log2n → s.planeEscape c true (r.tileOff r.resv) r.tileBytes = none →
        let bytes := (src.cells (u.cell.toNat + c.tap * per) per).flatMap (fun p => bytesOf (e / 8) (drainCode c r.src p))
        let t := s.engineWrite core c.ctx ((r.tilePas core r.resv).zip bytes) (src.mask ||| c.mask) u.fill
        let pushed (q : Ring) : Ring :=
          { q with resv := q.resv + 1, done := if r.resv ∈ q.done then q.done else q.done ++ [r.resv] }
        turn s c (t.modRing core n pushed) (fun d => { d with pushed := c.pushed ++ [(n, r.resv)] }) (c.tap < u.tiles.toNat)
          (exec (.drnp u) s)))) ∧
  (∀ (s : State) (c : Call) (at_ n : Nat), ∃ src, s.drainSource c .acc = .ok src ∧ src.count = 131072 ∧
    src.mask = ((s.core s.cur.core).plane c.plane).mask ∧
    src.cells at_ n = (List.range n).map (fun i => tget 0 ((s.core s.cur.core).plane c.plane).cells (at_ + i))) ∧
  (∀ (c : Call) (i : Nat), c.wf = true → i < 131072 → c.cellIndex (c.cellPos i) = i ∧ c.inPlane (c.cellPos i) = true)

/-- R288, R296 to R301, R306, R308, R384, R385 and R427. What no rule states outright is the model's: notes/assumptions entries 4, 44 and 45. -/
def Obligations.PlaneControlAndHalos : Prop :=
  let goto (s : State) (c : Call) (t : State) (f : Call → Call) : Out :=
    .next ((t.modCall s.cur.core c.uid (fun d => { f d with ust := .running })).endAtBoundary s.cur.core c.uid)
  let onward (s : State) (c : Call) (t : State) (f : Call → Call) : Out := goto s c t (fun d => { f d with upc := d.upc + 1 })
  let waits (s : State) (c : Call) (x : UnitState) : Out := .next
    (if c.ending = true then (s.endCall s.cur.core c).finishRetire s.cur.core c.ctx
     else s.modCall s.cur.core c.uid (fun d => { d with ust := x }))
  let field (c : Call) (i : Nat) : Nat := ((c.arg 7).extractLsb' (16 * i) 16).toNat
  let count12 (n : UCount 12) (c : Call) : Nat := match n with
    | .imm v => v.toNat | .v0 => field c 0 | .v1 => field c 1 | .v2 => field c 2
  let count5 (n : UCount 5) (c : Call) : Nat := match n with
    | .imm v => v.toNat | .v0 => field c 0 | .v1 => field c 1 | .v2 => field c 2
  (∀ (s : State) (core uid : Nat),
    let found := (s.core core).calls.find? (fun c => c.uid == uid)
    ((∀ c, found = some c → c.ending = false ∨ c.tap ≠ 0 ∨ c.wait ≠ none) → s.endAtBoundary core uid = s) ∧
    (∀ c, found = some c → c.ending = true → c.tap = 0 → c.wait = none →
      s.endAtBoundary core uid = (s.endCall core c).finishRetire core c.ctx)) ∧
  (∀ (s : State) (core : Nat) (c : Call) (x : PlaneCause), let t := s.endCall core c
    (c.ending = true → s.callFault core c x = t.finishRetire core c.ctx) ∧
    (c.ending = false → s.callFault core c x = ((t.modCore core (fun k => { k with planeFault :=
      { pend := true, cause := some x, routine := c.routine, upc := c.upc, ctx := c.ctx } })).raiseAsync core c.ctx
        { cause := .planeFault, code := BitVec.ofNat 8 x.code, addr := 0 }).finishRetire core c.ctx)) ∧
  (∀ (c : Call) (p : Plane) (self first : Nat) (clk : Clock),
    let es := c.exportsOf p self first clk
    (∀ e ∈ es, e.tag = c.tag ∧ e.from_ = self ∧ e.mask = p.mask ∧ e.clk = clk ∧ ∀ h ∈ e.cells, h.box < c.boxCells ∧
      c.fate (c.boxPos h.box) = .sent e.owner [h.x0, h.x1, h.x2, h.x3] ∧ h.val = c.boxCell p h.box) ∧
    (∀ i < c.boxCells, ∀ o x, c.fate (c.boxPos i) = .sent o x → ∃ e ∈ es, e.owner = o ∧ ∃ h ∈ e.cells, h.box = i) ∧
    (es.map (·.owner)).Nodup) ∧
  (∀ (s : State) (c : Call), s.runningCall s.cur.core = some c →
    let core := s.cur.core
    let p := (s.core core).plane c.plane
    let mode (f : Nat) : BMode := (c.modes[f]?).getD .clip
    let es := c.exportsOf p (((s.core core).owner.map (·.lcore)).getD 0) s.nextId (s.die (dieOf core)).clk
    (c.tap = 1 → (s.core core).exports = [] → exec .hexp s = onward s c s (fun d => { d with tap := 0 })) ∧
    (c.tap = 1 → (s.core core).exports ≠ [] → exec .hexp s = waits s c .waitGrant) ∧
    (c.tap ≠ 1 → c.hexpDone = true → exec .hexp s = .next (s.callFault core c .exprt)) ∧
    (c.tap ≠ 1 → c.hexpDone = false → (∃ k < 4, ¬ (mode (2 * k) = .wrap ↔ mode (2 * k + 1) = .wrap)) →
      exec .hexp s = .next (s.callFault core c .mode)) ∧
    (c.tap ≠ 1 → c.hexpDone = false → (∀ k < 4, mode (2 * k) = .wrap ↔ mode (2 * k + 1) = .wrap) →
      (∀ e ∈ es, e.owner < (s.launchCores core).length) →
      let lost := ((c.listed p).filter (fun e => c.fate e.1 == .clipped && e.2 != 0)).length
      let t := (s.clearBox core c (fun q => c.fate q == .clipped)).modPlane core c.plane
        (fun p => { p with clip := BitVec.ofNat 32 (min (p.clip.toNat + lost) (2 ^ 32 - 1)) })
      exec .hexp s = .next ((({ t with nextId := t.nextId + es.length } : State).modCore core
        (fun k => { k with exports := es })).modCall core c.uid
          (fun d => { d with hexpDone := true, tap := 1, ust := .running })))) ∧
  (∀ (n : UCount 5) (s : State) (c : Call), s.runningCall s.cur.core = some c →
    let core := s.cur.core
    let n' := count5 n c
    let arrived := sortBoxes (fun b => (0, b.order)) (c.inboxes.filter (fun b => b.st == .arrived))
    let take := arrived.take n'
    (n' = 0 → exec (.hmrg n) s = onward s c s id) ∧
    (n' ≠ 0 → c.nin - c.merged < n' → exec (.hmrg n) s = .next (s.callFault core c .inbox)) ∧
    (n' ≠ 0 → n' ≤ c.nin - c.merged →
      (arrived.length < n' → exec (.hmrg n) s = waits s c .waitMerge) ∧
      (n' ≤ arrived.length → exec (.hmrg n) s = onward s c
        (s.modPlane core c.plane (fun p => (sortBoxes (fun b => (b.from_, b.order)) take).foldl (fun p b =>
          let q := b.cells.foldl c.mergeCell p
          { q with mask := q.mask ||| c.mask ||| b.mask }) p))
        (fun d => { d with merged := d.merged + n', inboxes := d.inboxes.map (fun b =>
          if b.st == .arrived && (take.map (·.order)).contains b.order then { b with st := .merged } else b) })))) ∧
  (∀ (n : UCount 12) (s : State) (c : Call), s.runningCall s.cur.core = some c →
    let core := s.cur.core
    (count12 n c ≠ 0 → c.loops.length < 4 →
      exec (.uloop n) s = onward s c s (fun d => { d with loops := (c.upc + 1, count12 n c) :: d.loops })) ∧
    (count12 n c ≠ 0 → 4 ≤ c.loops.length → exec (.uloop n) s = .next (s.callFault core c .loop)) ∧
    (∀ u, count12 n c = 0 → (s.core core).afterUend c.routine 4096 (c.upc + 1) 0 = some u →
      exec (.uloop n) s = goto s c s (fun d => { d with upc := u })) ∧
    (∀ u k ls, c.loops = (u, k) :: ls →
      (1 < k → exec .uend s = goto s c s (fun d => { d with loops := (u, k - 1) :: ls, upc := u })) ∧
      (k ≤ 1 → exec .uend s = onward s c s (fun d => { d with loops := ls }))) ∧
    (c.loops = [] → exec .uend s = .next (s.callFault core c .loop)) ∧
    (∀ (r : BitVec 4) (m : BitVec 16), c.holdsRing r.toNat = true →
      let q := (s.core core).ring r.toNat
      (2 ^ q.log2n < m.toNat → exec (.uwait (.ring r m)) s = .next (s.callFault core c .ring)) ∧
      (m.toNat ≤ 2 ^ q.log2n → (q.tail - q.head).toNat < m.toNat →
        exec (.uwait (.ring r m)) s = waits s c .waitUwait) ∧
      (m.toNat ≤ 2 ^ q.log2n → m.toNat ≤ (q.tail - q.head).toNat → exec (.uwait (.ring r m)) s = onward s c s id)) ∧
    (∀ m : BitVec 16,
      let left := c.wait.getD m.toNat
      (left ≤ 1 → exec (.uwait (.cyc m)) s = onward s c s (fun d => { d with wait := none })) ∧
      (1 < left → exec (.uwait (.cyc m)) s =
        .next (s.modCall core c.uid (fun d => { d with wait := some (left - 1), ust := .waitUwait })))) ∧
    let tails := ((List.range 16).filter c.holdsRing).foldl (fun s n => s.modRing core n Ring.settled) s
    let pushed : Prop := ∀ p ∈ c.pushed, p.2 ∉ ((tails.core core).ring p.1).done
    ((s.core core).exports ≠ [] → exec .uret s = waits s c .waitGrant) ∧
    ((s.core core).exports = [] → ¬ pushed → exec .uret s = waits s c .running) ∧
    ((s.core core).exports = [] → pushed →
      let t := tails.endCall core c
      (c.keepSet = false → exec .uret s = .next (t.finishRetire core c.ctx)) ∧
      (c.keepSet = true → exec .uret s = .next ((t.modPlane core c.plane (fun p =>
        { p with kept := some { l0 := c.l0, l1 := c.l1, nax := c.nax, depths := (List.range 8).map c.depth, cells := c.halo,
                                mask := p.mask, units := c.faceUnits } })).finishRetire core c.ctx)))) ∧
  (∀ (core : Nat) (s : State) (c : Call) (cs : List Call), (s.core core).calls = c :: cs →
    /- What the context did before the MCALL and is not yet performed for it. -/
    let ahead : Prop := (∃ r ∈ s.reads, r.id < c.uid ∧ r.core = core ∧ r.ctx = c.ctx ∧ (r.acquire = true ∨ ∀ n, r.kind ≠ .sysr n)) ∨
      (∃ a ∈ s.atoms, a.id < c.uid ∧ a.core = core ∧ a.ctx = c.ctx ∧ a.stage ≠ .replied) ∨ s.syncing c.uid core c.ctx = true
    (c.started = true ∨ (s.core core).halted = true ∨ ahead → exec (.planeCallStart core) s = .next s) ∧
    (c.started = false → (s.core core).halted = false → ¬ ahead →
      let t := s.modPlane core c.plane (fun p => { p with int := c.int })
      exec (.planeCallStart core) s = .next ((if c.opl = true then t.modPlane core c.oplane (fun p => { p with int := c.int }) else t).modCall
        core c.uid (fun d => { d with started := true, ust := .running })))) ∧
  (∀ (core : Nat) (s : State),
    (s.oldestGrant core = none ∨ s.meshPause = true → exec (.haloGrant core) s = .next s) ∧
    (∀ f e c i x, s.meshPause = false → s.oldestGrant core = some ((f, e), (c, i)) → (s.core f).calls.head? = some x →
      (c.uin * 512 < e.cells.length → exec (.haloGrant core) s = .next (s.callFault f x .inbox)) ∧
      (e.cells.length ≤ c.uin * 512 →
        let t := (s.clearBox f x (fun q => match x.fate q with | .sent o _ => o == e.owner | _ => false)).modCore f
          (fun k => { k with exports := k.exports.filter (fun d => d.order != e.order) })
        exec (.haloGrant core) s = .next (({ t with nextId := s.nextId + 1 } : State).modCall core c.uid (fun d =>
          { d with inboxes := listSet d.inboxes i (fun b => { b with st := .granted, from_ := e.from_, cells := e.cells,
                                                                     mask := e.mask, order := s.nextId, clk := e.clk }) }))))) ∧
  (∀ (core n : Nat) (s : State) (c : Call) (b : Inbox), (s.core core).calls[n / 16]? = some c → c.inboxes[n % 16]? = some b →
    let before : Prop := ∃ x ∈ (s.core core).calls, ∃ d ∈ x.inboxes, d.st = .granted ∧ d.from_ = b.from_ ∧ d.order < b.order
    let seen : Prop := (s.die (dieOf core)).clk.covers b.clk = true
    ((b.st ≠ .granted ∨ before ∨ ¬ seen) → exec (.haloArrival core n) s = .next s) ∧
    (b.st = .granted → ¬ before → seen → exec (.haloArrival core n) s = .next (({ s with nextId := s.nextId + 1 } : State).modCall core c.uid
      (fun d => { d with inboxes := listSet d.inboxes (n % 16) (fun b => { b with st := .arrived, order := s.nextId }) }))))

/-! ## Events: memory, clocks and translation -/

/-- R121, R164, R202, R367, R377, R378, R390, R434 and R474. An LDA lands, or a VSYNC completes, before the requests of its own bundle and
context that come after it are served, and the writes it held leave with their stamps (R370, R380, R388).
What no rule states outright is the model's: notes/assumptions entries 4, 28, 42, 56, 57, 60, 78 (a request that waits on a failed walk
takes MEM_ERROR) and 86 (which front store a walk fills). -/
def Obligations.MemoryEvents : Prop :=
  (∀ (id : Nat) (s : State) (w : WriteReq), s.writes.find? (fun w => w.id == id) = some w →
    (s.canPerform w = false → exec (.homeWrite (.store id)) s = .next s) ∧
    (s.canPerform w = true → w.performed = false ∧ (∀ pa ∈ w.pas, ∀ d, homeDie pa = some d → w.appliedTo d = true) ∧
      ∀ v ∈ s.writes, v.id ≠ w.id → v.performed = false →
        ((v.held = false ∧ w.stamp.covers v.stamp = true) ∨ (v.id < w.id ∧ v.ofCtx = true ∧ v.core = w.core ∧ v.ctx = w.ctx)) →
          ∀ pa ∈ w.pas, pa ∉ v.pas) ∧
    (w.held = true → s.canPerform w = false) ∧
    (s.canPerform w = true → s.memWf = true → (w.cells.map (fun c => c.1)).Nodup →
      (∀ c ∈ w.cells, homeDie c.1 ≠ none) → ∃ t : State, exec (.homeWrite (.store id)) s = .next t ∧
        (∀ c ∈ w.cells, t.peek c.1 = c.2) ∧ (∀ pa, (∀ c ∈ w.cells, c.1 ≠ pa) → t.peek pa = s.peek pa) ∧
        t.writes = s.writes.map (fun v => if v.id = id then { v with performed := true } else v) ∧
        t.reads = s.reads ∧ t.atoms = s.atoms ∧ (∀ c x, t.ctx c x = s.ctx c x))) ∧
  (∀ (die id : Nat) (s : State) (w : WriteReq), s.writes.find? (fun w => w.id == id) = some w →
    let v := (s.die die).clk
    let next : Prop := v.get w.die + 1 = w.stamp.get w.die ∧ ∀ k < 4, k ≠ w.die → (w.stamp.get k).toNat ≤ (v.get k).toNat
    let ready : Prop := die < 4 ∧ w.held = false ∧ w.appliedTo die = false ∧ s.notInjected w.sent = false ∧ next
    (¬ ready → exec (.remoteWriteApply die id) s = .next s) ∧
    (ready → exec (.remoteWriteApply die id) s =
      .next (((s.modDie die (fun x => { x with clk := x.clk.set w.die (w.stamp.get w.die) })).modWrite id
        (fun w => { w with applied := w.applied ++ [die] })).dropDone))) ∧
  (∀ (id : Nat) (s : State),
    let marked := s.writes.map (fun w => if w.id = id ∧ w.performed = true then { w with acked := true } else w)
    exec (.writeAcknowledge id) s =
      .next { s with writes := marked.filter (fun w => !(w.performed && w.acked && w.everywhere)) }) ∧
  (∀ (die line : Nat) (s : State), ∃ t : State, exec (.replicaUpdate die line) s = .next t ∧
    (∀ d, d ≠ die → t.die d = s.die d) ∧ (t.die die).clk = (s.die die).clk ∧
    ∀ (i : Nat) (r : Replica), (s.die die).replicas[i]? = some r → ∃ r', (t.die die).replicas[i]? = some r' ∧ r'.line = r.line ∧
      (∀ q qs, r.queue = q :: qs → r.line = line → (s.die die).hasApplied q.die q.stamp = true → r'.queue = qs ∧
        ((q.cells.map (fun c => c.1)).Nodup → twf 0 r.data = true →
          (∀ c ∈ q.cells, tget 0 r'.data c.1 = c.2) ∧ ∀ a, (∀ c ∈ q.cells, c.1 ≠ a) → tget 0 r'.data a = tget 0 r.data a)) ∧
      ((r.queue = [] ∨ r.line ≠ line) → r' = r)) ∧
  (∀ (id : Nat) (atReplica keep : Bool) (s : State) (r : ReadReq), s.reads.find? (fun r => r.id == id) = some r →
    let die := dieOf r.core
    let pas := r.pas
    let waits : Prop := s.paused id r.core r.pas = true
    let behind : Prop := (∃ q ∈ s.reads, q.id < r.id ∧ q.core = r.core ∧ q.ctx = r.ctx ∧ q.acquire = true) ∨
      (∃ v, (s.ctx r.core r.ctx).wait2 = some (.vsync v) ∧ (s.ctx r.core r.ctx).syncAt ≤ r.id) ∨ (s.die die).clk.covers r.clk = false
    let answered (v : BitVec 1024) (m : Mask) (c : Clock) : State :=
      { s with reads := s.reads.map (fun (r : ReadReq) => if r.id = id then { r with reply := some { val := v, mask := m }, rclk := c } else r) }
    ((r.reply ≠ none ∨ waits) → exec (.homeReadService id atReplica keep) s = .next s) ∧
    (∀ num, r.reply = none → ¬ waits → r.kind = .sysr num → exec (.homeReadService id atReplica keep) s =
      .next (answered (((s.iodReg (s.partOf r.core) num).getD 0).setWidth 1024) r.mask Clock.zero)) ∧
    (r.reply = none → ¬ waits → r.kind = .mem →
      let before : Prop := (∃ q ∈ s.reads, q.id < id ∧ q.core = r.core ∧ q.ctx = r.ctx ∧ meets q.pas pas = true) ∨
        s.atomBefore id r.core r.ctx pas = true
      (behind ∨ s.walking id = true ∨ s.earlierOpen id r.core r.ctx pas = true → exec (.homeReadService id atReplica keep) s = .next s) ∧
      (¬ behind → s.walking id = false → s.earlierOpen id r.core r.ctx pas = false →
        (atReplica = true → s.replicaServes die pas = true → ¬ before → exec (.homeReadService id atReplica keep) s =
          .next (answered (r.value (s.replicaByte die)) (r.mask ||| unionMasks (pas.map s.blockMask)) Clock.zero)) ∧
        (atReplica = true → (s.replicaServes die pas = false ∨ before) → exec (.homeReadService id atReplica keep) s = .next s) ∧
        (atReplica = false → s.mustWait r.clk pas = true → exec (.homeReadService id atReplica keep) s = .next s) ∧
        (atReplica = false → s.mustWait r.clk pas = false → ∃ t : State, exec (.homeReadService id atReplica keep) s = .next t ∧
          t.reads = (answered (r.value s.peek) (r.mask ||| unionMasks (pas.map s.blockMask)) (s.homeClock pas)).reads ∧
          (∀ pa, t.peek pa = s.peek pa) ∧ (keep = false → t.dies = s.dies) ∧ t.cores = s.cores))) ∧
    (∀ clr c pa, r.reply = none → ¬ waits → r.kind = .fe clr → pas.head? = some pa → sliceOf pa = some c →
      let stops : Prop := behind ∨ s.feBefore r c = true ∨ s.mustWait r.clk pas = true ∨ s.earlierOpen id r.core r.ctx pas = true ∨
        id ∈ (s.core c).feWait
      (stops → exec (.homeReadService id atReplica keep) s = .next s) ∧
      (¬ stops → exec (.homeReadService id atReplica keep) s = .next (s.modCore c (fun k => { k with feWait := k.feWait ++ [id] }))))) ∧
  (∀ (s : State) (r : ReadReq) (c : Nat), (∀ q ∈ s.reads, q.id < r.id → clusterOf q.core = clusterOf r.core → q.reply = none →
    (∃ clr, q.kind = .fe clr) → q.pas.head?.bind sliceOf = some c → q.id ∈ (s.core c).feWait) → s.feBefore r c = false) ∧
  (∀ (core granule : Nat) (s : State), (s.feWaiters core granule = [] → exec (.fullEmptyService core granule) s = .next s) ∧
    (∀ r clr pa rest, s.feWaiters core granule = [r] → r.kind = .fe clr → r.pas = pa :: rest →
      (s.fullBit pa = false → exec (.fullEmptyService core granule) s = .next s) ∧
      (s.fullBit pa = true → ∃ t : State, exec (.fullEmptyService core granule) s = .next t ∧
        t.reads = s.reads.map (fun q => if q.id = r.id then
          { q with reply := some { val := r.value s.peek, mask := r.mask ||| s.blockMask pa }, rclk := s.homeClock (pa :: rest) } else q) ∧
        r.id ∉ (t.core core).feWait ∧ (clr = false → t.fullBit pa = true) ∧
        (clr = true → (∀ c, tsortedFrom 0 (s.core c).fe = true) → t.fullBit pa = false) ∧
        (∀ a, t.peek a = s.peek a)))) ∧
  (∀ (id : Nat) (s : State),
    (∀ r v, s.reads.find? (fun r => r.id == id) = some r → r.reply = some v →
      ((s.die (dieOf r.core)).clk.covers r.rclk = false → exec (.pendingResultLands id) s = .next s) ∧
      ((s.die (dieOf r.core)).clk.covers r.rclk = true → exec (.pendingResultLands id) s =
        let t := ({ s with reads := s.reads.filter (fun q => q.id != r.id) } : State).modCtx r.core r.ctx
          (fun x => x.arrive r.dest v.val v.mask)
        .next (if r.acquire = true then t.acquired r else t))) ∧
    (∀ a, s.reads.find? (fun r => r.id == id) = none → s.atoms.find? (fun a => a.id == id) = some a →
      let t : State := { s with atoms := s.atoms.map (fun (b : AtomReq) => if b.id = id then { b with stage := .replied } else b) }
      let seen : Prop := (s.die (dieOf a.core)).clk.covers a.clk = true
      ((a.stage ≠ .applied ∨ ¬ seen) → exec (.pendingResultLands id) s = .next s) ∧
      (a.stage = .applied → seen → a.discard = true → exec (.pendingResultLands id) s = .next t) ∧
      (a.stage = .applied → seen → a.discard = false → exec (.pendingResultLands id) s =
        .next (t.modCtx a.core a.ctx (fun x => x.arrive a.dest (a.result.val.setWidth 1024) a.result.mask))))) ∧
  (∀ (s : State) (r : ReadReq),
    let later := s.reads.map (fun q =>
      if q.core = r.core ∧ q.ctx = r.ctx ∧ r.id < q.id then { q with clk := q.clk.join r.rclk } else q)
    ((∀ w ∈ s.writes, w.held = false) → s.acquired r = { s with reads := later }) ∧
    (∀ w, s.writes.filter (fun w => w.held) = [w] → (∀ q ∈ s.reads, q.core = w.core → q.ctx = w.ctx → q.acquire = false) →
      s.syncing w.id w.core w.ctx = false →
      let t := ({ s with reads := later } : State).modDie w.die (fun x => { x with clk := x.clk.set w.die (x.clk.get w.die + 1) })
      s.acquired r = { t with nextId := s.nextId + 1, writes := s.writes.map (fun v =>
        if v.id = w.id then { v with held := false, stamp := (t.die w.die).clk, left := s.nextId } else v) })) ∧
  (∀ (x : Ctx) (d : Dest) (v : BitVec 1024) (m : Mask), x.st ≠ .frozenTrap → x.st ≠ .frozenPre → x.arrive d v m = x.put d v m) ∧
  (∀ (id : Nat) (s : State),
    (∀ r, s.reads.find? (fun r => r.id == id) = some r → ∃ t : State, t.reads = s.reads.filter (fun r => r.id != id) ∧
      (∀ c x, t.ctx c x = s.ctx c x) ∧ exec (.errorResponse (.read id)) s =
        .next (t.raiseAsync r.core r.ctx { cause := .memError, code := 0, addr := r.va })) ∧
    (∀ w, s.writes.find? (fun w => w.id == id && !w.performed) = some w →
      let t := (s.modWrite id (fun w => { w with cells := [], raises := [], performed := true, acked := true })).dropDone
      (w.ofCtx = true → exec (.errorResponse (.write id)) s =
        .next (t.raiseAsync w.core w.ctx { cause := .memError, code := 0, addr := w.va })) ∧
      (w.ofCtx = false → exec (.errorResponse (.write id)) s = .next (s.failWrite w))) ∧
    (∀ a, s.atoms.find? (fun a => a.id == id && a.stage == .sent) = some a → exec (.errorResponse (.atomic id)) s =
      .next (({ s with atoms := s.atoms.map (fun (b : AtomReq) =>
        if b.id = id then { b with stage := .replied, discard := true, dest := .nowhere } else b) } : State).raiseAsync a.core a.ctx
          { cause := .memError, code := 0, addr := a.va }))) ∧
  (∀ (core : Nat) (s : State), (s.runningCall core = none → exec (.errorResponse (.plane core)) s = .next s) ∧
    (∀ c, s.runningCall core = some c → exec (.errorResponse (.plane core)) s = .next (s.callFault core c .uncorrectable))) ∧
  (∀ (die entry : Nat) (s : State) (m : Miss) (r : ReadReq), tfind (s.die die).misses entry = some m →
    (m.started = false → exec (.errorResponse (.walk die entry)) s = .next s) ∧
    (m.started = true → m.reqs = [r.id] → (s.ctx r.core r.ctx).st ≠ .retired → (s.ctx r.core r.ctx).st ≠ .retiring → s.reads.find? (fun q => q.id == r.id) = some r → (∀ w ∈ s.writes, w.id ≠ r.id) →
      (∀ a ∈ s.atoms, a.id ≠ r.id) → s.waitingCopies m = [] → ∃ t : State, t.reads = s.reads.filter (fun q => q.id != r.id) ∧
        (∀ c x, t.ctx c x = s.ctx c x) ∧ exec (.errorResponse (.walk die entry)) s =
          .next (t.raiseAsync r.core r.ctx { cause := .memError, code := 0, addr := r.va }))) ∧
  (∀ (die : Nat) (s : State),
    let busy := ((s.die die).misses.filter (fun e => e.2.started)).length
    (32 ≤ busy ∨ s.meshPause = true → exec (.walkStart die) s = .next s) ∧
    (∀ e, s.meshPause = false → busy < 32 → (s.die die).misses.find? (fun e => !e.2.started) = some e → exec (.walkStart die) s =
      .next (s.modDie die (fun x => { x with misses := tput x.misses e.1 { e.2 with started := true } })))) ∧
  (∀ (die entry : Nat) (s : State) (m : Miss), tfind (s.die die).misses entry = some m →
    let va := 4096 * m.key
    (m.started = false → exec (.walkComplete die entry) s = .next s) ∧
    (∀ x l, m.started = true → (s.part m.part).translate va = .ok x → (s.part m.part).leafAt va = some l →
      let e := l.page m.part va
      e.covers m.part va = true ∧ ∃ t : State, exec (.walkComplete die entry) s = .next t ∧ e ∈ (t.die die).store ∧
        e ∈ tget [] t.fronts m.cluster ∧
        (∀ q ∈ (t.die die).misses, e.covers q.2.part (4096 * q.2.key) = false) ∧
        ((s.die die).atFront = [] →
          (t.die die).misses = (s.die die).misses.filter (fun q => !e.covers q.2.part (4096 * q.2.key))) ∧
        t.cores = s.cores ∧ t.parts = s.parts) ∧
    (∀ c, m.started = true → (s.part m.part).translate va = .error c → (s.die die).atFront = [] → exec (.walkComplete die entry) s =
      .next (s.modDie die (fun x => { x with misses := x.misses.filter (fun e => !decide (e.2 = m)), atFront := [] }))))

/-- R119, R378, R380, R395, R397 and R399 to R403. Which of several requests arrives first is a free value of the model
(notes/assumptions entry 3), and no clause depends on it.
What no rule states outright is the model's: notes/assumptions entries 4, 33, 42 (what a VSYNC holds back of its own bundle), 58, 59 and 83
(the clocks of a group's requests, and the GLEAVE of a context that retires). -/
def Obligations.AtomicAndSerialEvents : Prop :=
  let new (op : AtomOp) (old v : Word) : Word := match op with
    | .add => old + v
    | .and => old &&& v
    | .or => old ||| v
    | .xor => old ^^^ v
    | .min => if old.toInt ≤ v.toInt then old else v
    | .max => if v.toInt ≤ old.toInt then old else v
    | .minu => if old.toNat ≤ v.toNat then old else v
    | .maxu => if v.toNat ≤ old.toNat then old else v
    | .swap => v
    | .cas c => if old = c then v else old
    | _ => old
  let plain (s : State) : Prop := ∀ c, ((s.launchOf c).map (fun l => l.replay || l.record)).getD false = false
  (∀ (engine : Nat) (s : State),
    let as := s.arriving engine
    let t := ({ s with freeCount := s.freeCount + 1 } : State).arrive engine as
    let q := t.arrivedAt engine
    as.length ≤ 2 ∧ (as.map (fun a => decide (a.station = 9))).Nodup ∧
    (∀ a ∈ as, a ∈ s.comingTo engine ∧ s.mayArrive a = true ∧ (s.comingTo engine).find? (fun b => b.core == a.core) = some a) ∧
    (∀ a, s.arrivedAt engine = [] → (oldestEach (s.comingTo engine)).filter s.mayArrive = [a] → as = [a]) ∧
    ((s.atoms.map (·.id)).Nodup → q = s.arrivedAt engine ++ as) ∧
    ((∀ a ∈ q, t.readyAt engine q a = false) → exec (.atomicService engine) s = .next t) ∧
    (∀ a, plain s → q.find? (t.readyAt engine q) = some a → exec (.atomicService engine) s = .next (t.serve a))) ∧
  (∀ (engine : Nat) (s : State) (q : List AtomReq) (a : AtomReq), plain s →
    (s.readyAt engine q a = true ↔ (q.find? (fun b => b.place == a.place)).map (·.id) = some a.id ∧
      (a.place.1 = true ∨ ∃ l ∈ (s.engine engine).store, l.line = a.place.2) ∧ (s.die (engine / 2)).clk.covers a.clk = true ∧
      s.mustWait (s.die (engine / 2)).clk a.pas = false)) ∧
  (∀ (busy : List Nat) (e : AtomEngine) (line : Nat),
    let new : AtomLine := { line := line, used := e.services }
    ((∃ l ∈ e.store, l.line = line) → AtomEngine.enterLine busy e line = e) ∧
    ((∀ l ∈ e.store, l.line ≠ line) →
      (e.store.length < 128 → AtomEngine.enterLine busy e line = { e with store := e.store ++ [new] }) ∧
      (128 ≤ e.store.length → (∀ l ∈ e.store, l.line ∈ busy) → AtomEngine.enterLine busy e line = e) ∧
      (∀ v ∈ e.store, 128 ≤ e.store.length → v.line ∉ busy → (∀ l ∈ e.store, l.line ∉ busy → l = v ∨ v.used < l.used) →
        AtomEngine.enterLine busy e line = { e with store := e.store.filter (fun l => l.line != v.line) ++ [new] }))) ∧
  (∀ (s : State) (a : AtomReq) (r : AtomRecord), (s.engine a.engine).records.find? a.sameTag = some r →
    let t := s.serve a
    t.atoms = s.atoms.map (fun (b : AtomReq) => if b.id = a.id then
      { b with stage := .applied, result := r.result, clk := (s.die (a.engine / 2)).clk } else b) ∧
    (∀ p, t.peek p = s.peek p) ∧ t.cells = s.cells ∧ t.writes = s.writes ∧
    (t.engine a.engine).records = (s.engine a.engine).records ∧ a.id ∉ (t.engine a.engine).inq) ∧
  (∀ (s : State) (a : AtomReq) (pa : Nat), (s.engine a.engine).records.find? a.sameTag = none → a.tgt = .mem pa → s.memWf = true →
    pa % 8 = 0 → homeDie pa ≠ none → a.op ≠ .fadd → a.op ≠ .xread → a.op ≠ .xclr →
    let pas := (List.range 8).map (fun i => pa + i)
    let old : Word := BitVec.ofNat 64 (leValue (s.peeks pas))
    let t := s.serve a
    t.peeks pas = bytesOf 8 (new a.op old a.v).toNat ∧ (∀ p, p ∉ pas → t.peek p = s.peek p) ∧
    t.atoms = s.atoms.map (fun b => if b.id = a.id then
      { b with stage := .applied, result := { val := old, mask := a.mask ||| a.pmask ||| s.blockMask pa }, clk := (t.die (a.engine / 2)).clk }
      else b) ∧
    (∃ q ∈ (t.engine a.engine).records, a.sameTag q = true ∧ q.result.val = old)) ∧
  (∀ (s : State) (a : AtomReq) (n : Nat), (s.engine a.engine).records.find? a.sameTag = none → a.tgt = .cell n →
    tsortedFrom 0 s.cells = true →
    let c := tget ExactCell.reset s.cells n
    let t := s.serve a
    let c' := tget ExactCell.reset t.cells n
    let f := a.v.toNat % 2 ^ 32
    (∀ k, k ≠ n → tget ExactCell.reset t.cells k = tget ExactCell.reset s.cells k) ∧ (∀ p, t.peek p = s.peek p) ∧
    (a.op = .xclr → c' = { v := 0, pinf := false, ninf := false, nan := false, mask := a.mask }) ∧
    (a.op = .fadd →
      (∀ neg k e, fp32.decode f = .fin neg k e →
        c' = { c with v := c.v + BitVec.ofInt 288 ((if neg then -1 else 1) * ((k * 2 ^ (e + 149).toNat : Nat) : Int)), mask := c.mask ||| a.mask }) ∧
      (fp32.decode f = .inf false → c' = { c with pinf := true, mask := c.mask ||| a.mask }) ∧
      (fp32.decode f = .inf true → c' = { c with ninf := true, mask := c.mask ||| a.mask }) ∧
      ((∀ neg k e, fp32.decode f ≠ .fin neg k e) → (∀ b, fp32.decode f ≠ .inf b) → c' = { c with nan := true, mask := c.mask ||| a.mask })) ∧
    (a.op = .xread → c' = c ∧
      let r := if c.nan = true ∨ (c.pinf = true ∧ c.ninf = true) then 0x7FC00000
        else if c.pinf = true then 0x7F800000 else if c.ninf = true then 0xFF800000
        else (fp32.roundExact .ne false c.v.toInt (-149)).bits
      t.atoms = s.atoms.map (fun b => if b.id = a.id then
        { b with stage := .applied, result := { val := BitVec.ofNat 64 r, mask := a.mask ||| c.mask }, clk := (t.die (a.engine / 2)).clk }
        else b))) ∧
  (∀ (id : Nat) (s : State) (a : AtomReq), s.atoms.find? (fun a => a.id == id && a.stage != .replied) = some a →
    ((s.engine a.engine).records.find? a.sameTag = none → exec (.atomicRetryTimeout id) s = .next s) ∧
    (∀ r, (s.engine a.engine).records.find? a.sameTag = some r → exec (.atomicRetryTimeout id) s =
      .next { s with atoms := s.atoms.map (fun (b : AtomReq) => if b.id = id then { b with stage := .applied, result := r.result } else b) })) ∧
  (∀ (id : Nat) (s : State) (a : AtomReq), s.atoms.find? (fun a => a.id == id && a.stage == .replied) = some a →
    exec (.atomicAck id) s = .next { s.modEngine a.engine (fun e => { e with records := e.records.filter (fun r => !a.sameTag r) })
      with atoms := s.atoms.filter (fun b => b.id != id) }) ∧
  (∀ (s : State), (s.vsyncReqs = [] ∨ s.meshPause = true → exec .serialiserStamp s = .next s) ∧
    (∀ w ws, s.meshPause = false → s.vsyncReqs = w :: ws → exec .serialiserStamp s =
      .next (({ s with vsyncReqs := ws, devStamp := s.devStamp + 1 } : State).modCtx w.core w.ctx (fun x =>
        { x with wait2 := some (.vsync (some [(s.die 0).clk.d0, (s.die 1).clk.d1, (s.die 2).clk.d2, (s.die 3).clk.d3])) })))) ∧
  (∀ (core ctx : Nat) (s : State) (v0 v1 v2 v3 : Word), (s.ctx core ctx).wait2 = some (.vsync (some [v0, v1, v2, v3])) →
    let v := (s.die (dieOf core)).clk
    let covers : Prop := v0.toNat ≤ v.d0.toNat ∧ v1.toNat ≤ v.d1.toNat ∧ v2.toNat ≤ v.d2.toNat ∧ v3.toNat ≤ v.d3.toNat
    (¬ covers → exec (.vsyncComplete core ctx) s = .next s) ∧
    (covers → exec (.vsyncComplete core ctx) s = .next ((s.synced core ctx).modCore core (fun k => { k with vsync := k.vsync + 1 })))) ∧
  (∀ (core ctx : Nat) (s : State),
    let later := s.reads.map (fun q => if q.core = core ∧ q.ctx = ctx ∧ (s.ctx core ctx).syncAt ≤ q.id
      then { q with clk := q.clk.join (s.die (dieOf core)).clk } else q)
    let u : State := { s.modCtx core ctx (fun x => { x with wait2 := none }) with reads := later }
    ((∀ w ∈ s.writes, w.held = false) → s.synced core ctx = u) ∧
    (∀ w, s.writes.filter (fun w => w.held) = [w] → w.core = core → w.ctx = ctx →
      (∀ q ∈ s.reads, q.core = core → q.ctx = ctx → q.acquire = false) →
      let t := u.modDie w.die (fun x => { x with clk := x.clk.set w.die (x.clk.get w.die + 1) })
      s.synced core ctx = { t with nextId := s.nextId + 1, writes := s.writes.map (fun v =>
        if v.id = w.id then { v with held := false, stamp := (t.die w.die).clk, left := s.nextId } else v) })) ∧
  (∀ (s : State), (s.groupReqs = [] ∨ s.meshPause = true → exec .groupRequestApply s = .next s) ∧
    (∀ r rs, s.meshPause = false → s.groupReqs = r :: rs →
      let waits : Prop := ∃ (n : CtxName) (id : Nat), r.after = some (n, id) ∧
        ∃ a ∈ s.atoms, a.id < id ∧ a.core = n.core ∧ a.ctx = n.ctx ∧ a.stage ≠ .replied
      let q : GroupReq := match r.after with
        | none => r
        | some (n, _) => { r with clk := r.clk.join (s.die (dieOf n.core)).clk, after := none }
      (waits → exec .groupRequestApply s = .next s) ∧
      (¬ waits → (∃ d < 4, (s.die d).clk.covers q.clk = false) →
        exec .groupRequestApply s = .next { s with groupReqs := q :: rs }) ∧
      (¬ waits → (∀ d < 4, (s.die d).clk.covers q.clk = true) →
        exec .groupRequestApply s = .next (({ s with groupReqs := rs } : State).groupApply r.group r.who r.op)))) ∧
  (∀ (g : Group), let ms := g.members.filter (fun m => m.rel != 2)
    (g.complete = true ↔ ms ≠ [] ∧ ∀ m ∈ ms, m.arrived = true) ∧ g.turn.phase = g.phase + 1 ∧
    (∀ m ∈ g.turn.members, m.rel = 2 → False)) ∧
  (∀ (core ctx : Nat) (s : State) (w : SnapWait), s.snaps.find? (fun w => w.who.core == core && w.who.ctx == ctx) = some w →
    (s.openBefore (s.partOf core) w.uid = true → exec (.snapadvComplete core ctx) s = .next s) ∧
    (s.openBefore (s.partOf core) w.uid = false → exec (.snapadvComplete core ctx) s =
      .next (({ s with snaps := s.snaps.filter (fun q => q.uid != w.uid) } : State).modCtx core ctx
        (fun x => if x.wait2 = some (.snapadv w.uid) then { x with wait2 := none } else x)))) ∧
  (∀ (s : State) (part id : Nat), s.openBefore part id = true →
    (∃ w ∈ s.writes, w.id < id ∧ w.performed = false ∧ ∃ pa ∈ w.pas, sliceOf pa = none) ∨
    (∃ r ∈ s.reads, r.id < id ∧ r.reply = none ∧ ∃ pa ∈ r.pas, sliceOf pa = none) ∨
    (∃ a ∈ s.atoms, a.id < id ∧ a.stage = .sent ∧ ∃ pa, a.tgt = .mem pa ∧ sliceOf pa = none))

/-! ## Events: contexts, copies and the feeding engines -/

/-- R130, R162, R173, R344, R416 to R418, R426, R427 and R429.
What no rule states outright is the model's: notes/assumptions entries 4, 15, 60, 61 and 79. -/
def Obligations.ContextEvents : Prop :=
  (∀ (core ctx : Nat) (s : State),
    let runs : Prop := ((s.ctx core ctx).st = .running ∨ (s.ctx core ctx).st = .retiring) ∧ (s.core core).halted = false
    (runs → exec (.resultWriteback core ctx) s = .next (s.modCtx core ctx Ctx.landResults) ∧
      exec (.fmtTakesEffect core ctx) s = .next (s.modCtx core ctx Ctx.landFmt)) ∧
    (¬ runs → exec (.resultWriteback core ctx) s = .next s ∧ exec (.fmtTakesEffect core ctx) s = .next s)) ∧
  (∀ (core ctx : Nat) (s : State),
    ((s.ctx core ctx).st ≠ .frozenTrap → exec (.trapDelivery core ctx) s = .next s) ∧
    (∀ f, (s.ctx core ctx).st = .frozenTrap → (s.ctx core ctx).found = some f →
      (s.awaits core ctx = true → exec (.trapDelivery core ctx) s = .next s) ∧
      (∀ at_, s.awaits core ctx = false → s.handlerAt core (s.ctx core ctx) = some at_ →
        ∃ t : State, exec (.trapDelivery core ctx) s = .next t ∧ (t.ctx core ctx).st = .running ∧ (t.ctx core ctx).pc = at_ ∧
          (t.ctx core ctx).inh = true ∧ (t.ctx core ctx).trapPc = (s.ctx core ctx).pc ∧
          (t.ctx core ctx).rstack = (s.ctx core ctx).pc :: (s.ctx core ctx).rstack ∧
          (t.ctx core ctx).trapNo = BitVec.ofNat 6 f.cause.number ∧ (t.ctx core ctx).trapAddr = f.addr ∧
          (t.ctx core ctx).flight = [] ∧ (t.ctx core ctx).s = (s.ctx core ctx).s ∧
          (∀ pa, t.peek pa = s.peek pa)))) ∧
  (∀ (core ctx : Nat) (s : State),
    (s.headless core ctx = false → exec (.terminalTrap core ctx) s = .next s) ∧
    (∀ tr ts, s.headless core ctx = true → (s.ctx core ctx).asyncQ = tr :: ts → exec (.terminalTrap core ctx) s =
      .next ((s.modCtx core ctx (fun x => { x with asyncQ := ts })).terminal core ctx tr.cause tr.addr))) ∧
  (∀ (core ctx : Nat) (s : State), (s.ctx core ctx).st = .running → (s.ctx core ctx).preReasons ≠ [] →
    let x := (s.ctx core ctx).land
    s.awaits core ctx = false → x.pushesDone = true →
    ∃ t : State, exec (.contextPreemption core ctx) s = .next t ∧
      let y := t.ctx core ctx
      y.st = .preempted ∧ y.block = 0 ∧ y.flight = [] ∧ y.latches = [] ∧ y.shadows = [] ∧ y.flagLands = [] ∧ y.nds = 0 ∧
      y.pc = x.pc ∧ y.s = x.s ∧ y.x = x.x ∧ y.y = x.y ∧ y.m = x.m ∧ y.d = x.d ∧ y.n = x.n ∧ y.p = x.p ∧ y.k = x.k ∧
      y.rndPos = x.rndPos ∧ y.rndHeld = 0 ∧ y.bankPre = some (x.snapshot []) ∧
      (∀ q p, (q, p) ∈ y.ports → p.buf = [] ∧ p.next = p.pos) ∧ (∀ pa, t.peek pa = s.peek pa) ∧
      ((t.core core).slotSpent = true ↔ (s.core core).slotSpent = true ∨ ((s.core core).holder = some ctx ∧ (s.core core).halted = false))) ∧
  (∀ (core ctx : Nat) (s : State), (s.ctx core ctx).preReasons ≠ [] → exec (.contextResume core ctx) s = .next s) ∧
  (∀ (core ctx : Nat) (s : State) (b : Snapshot), (s.ctx core ctx).preReasons = [] → (s.ctx core ctx).st = .preempted →
    (s.ctx core ctx).bankPre = some b → ∃ t : State, exec (.contextResume core ctx) s = .next t ∧
      let x := s.ctx core ctx
      let y := t.ctx core ctx
      let d := x.cycle - b.cycle
      y.st = .running ∧ y.bankPre = none ∧ y.keepLatch = true ∧ y.cycle = x.cycle ∧ y.nds = b.nds ∧ y.tgt = b.tgt ∧
      (∀ f ∈ b.flight, { f with vis := f.vis + d, issued := f.issued + d } ∈ y.flight) ∧
      (∀ f ∈ b.landed, { f with vis := x.cycle } ∈ y.flight) ∧ y.rndPos = b.rndPos ∧
      y.latches = b.latches.map (fun l => { l with b0 := l.b0 + d, issued := l.issued + d }) ∧
      y.divFree = max x.divFree (b.divFree + d) ∧ y.s = x.s ∧ y.pc = x.pc ∧ (∀ pa, t.peek pa = s.peek pa)) ∧
  (∀ (core ctx : Nat) (s : State), (s.ctx core ctx).preReasons = [] → (s.ctx core ctx).st = .frozenPre →
    exec (.contextResume core ctx) s = .next (s.modCtx core ctx (fun x => { x with
      st := .running, block := 0, bankPre := none, keepLatch := true,
      flight := x.flight ++ ((x.bankPre.map (·.landed)).getD []).map (fun f => { f with vis := x.cycle }) }))) ∧
  (∀ (core ctx : Nat) (s : State),
    let waits : Prop := (s.ctx core ctx).st = .retiring ∧ ∀ c ∈ (s.core core).calls, c.ctx ≠ ctx
    (¬ waits → exec (.contextRetirement core ctx) s = .next s) ∧
    (waits → exec (.contextRetirement core ctx) s = .next (s.retireCtx core ctx))) ∧
  (∀ (core object : Nat) (s : State),
    let seen : Prop := (s.die (dieOf core)).clk.covers (tget Obj.reset (s.part (s.partOf core)).objs object).clk = true
    (s.meshPause = true ∨ (s.core core).owner = none ∨ 4096 ≤ object ∨ ¬ seen → exec (.objectAnswerDelivery core object) s = .next s) ∧
    (s.meshPause = false → (s.core core).owner ≠ none → object < 4096 → seen → ∃ t : State, exec (.objectAnswerDelivery core object) s = .next t ∧
      (∀ x < 4,
        let answers := tput (s.ctx core x).objAns object (tget Obj.reset (s.part (s.partOf core)).objs object).val
        t.ctx core x = { s.ctx core x with objAns := answers }) ∧
      (∀ c x, (c ≠ core ∨ 4 ≤ x) → t.ctx c x = s.ctx c x) ∧ (∀ pa, t.peek pa = s.peek pa)))

/-- R130, R237, R246, R248 to R250, R273, R362 to R364, R370, R384, R407, R434, R445 and R446. `forkWaits` is spelled out in
PlaneControlAndHalos.
What no rule states outright is the model's: notes/assumptions entries 4, 24, 25, 46, 48, 57, 87 (the order of a copy's first checks) and 89
(a release whose write cannot reach its window). -/
def Obligations.CopyEvents : Prop :=
  (∀ (core : Nat) (s : State),
    let k := s.core core
    let fit (c : Nat) (e : CopyEntry) : Prop :=
      ((k.ctx c).copyq.find? (fun e => e.stage == .queued)) = some e ∧ e.uid ∈ k.ready ∧ k.mayBegin e = true ∧
        (∀ q ∈ s.reads, q.id < e.uid → q.core = core → q.ctx = c → q.acquire = false) ∧ s.syncing e.uid core c = false
    ((k.owner = none ∨ 4 ≤ k.inProgress) → exec (.copyBegin core) s = .next s) ∧
    (∀ i e, k.owner ≠ none → k.inProgress < 4 → 1 ≤ i → i ≤ 4 → fit ((k.lastBegan + i) % 4) e →
      (∀ j, 1 ≤ j → j < i → ∀ e', ¬ fit ((k.lastBegan + j) % 4) e') →
      exec (.copyBegin core) s = .next (s.beginEntry core ((k.lastBegan + i) % 4) e)) ∧
    ((∀ c < 4, ∀ e, ¬ fit c e) → exec (.copyBegin core) s = .next s) ∧
    (let j := (s.engineCycle core).core core
     ∀ uid, uid ∈ j.ready ↔ j.inProgress < 4 ∧ ∃ x ∈ j.ctxs, ∃ e ∈ x.2.copyq, e.uid = uid ∧ e.stage = .queued ∧ j.mayBegin e = true)) ∧
  (∀ (s : State) (core ctx : Nat) (cmd src dst : Word) (fill : Bool) (e : CopyEntry),
    e ∈ (s.ctx core ctx).copyq → e.kind = .copy cmd src dst fill → cmdSkind cmd = 0 → cmdDkind cmd = 0 →
    let t := s.beginEntry core ctx e
    let rec0 (n : Nat) : BitVec 512 := tget 0 (s.core core).layouts n
    let egress := (s.part (s.partOf core)).egress
    (∀ d ∈ (t.ctx core ctx).copyq, d.uid = e.uid →
      d = { e with stage := .running, egress := egress, srec := rec0 (cmdSrec cmd), drec := rec0 (cmdDrec cmd) }) ∧
    (cmdShv cmd = false → ((t.core core).handle (cmdDhnd cmd)).st = .filling) ∧
    (cmdShv cmd = true → ((t.core core).handle (cmdShnd cmd)).st = .draining ∧
      (cmdShnd cmd ≠ cmdDhnd cmd → ((t.core core).handle (cmdDhnd cmd)).st = .filling)) ∧
    (t.core core).lastBegan = ctx ∧ (∀ pa, t.peek pa = s.peek pa)) ∧
  (∀ (core ctx ent : Nat) (s : State) (e : CopyEntry), s.entryAt core ctx ent = some e → (s.ctx core ctx).entry e.uid = some e →
    let counts (t : State) (f : CopyEntry → CopyEntry) : Out := .next (t.modEntry core ctx e.uid f)
    /- What the context did before the entry is not yet performed for it: no element is sent, and the entry does not end. -/
    let free : Prop := s.forkWaits e.uid core ctx = false
    (e.stage ≠ .running ∨ ¬ free → exec (.homeWrite (.copyElem core ctx ent)) s = .next s ∧ exec (.copyComplete core ctx ent) s = .next s) ∧
    (∀ cmd src dst fill, free → e.stage = .running → e.kind = .copy cmd src dst fill → e.total ≠ 0 → e.failing = none → e.k < e.count →
      let n := e.esize
      let sva := lrAddr e.srec src e.k
      let dva := lrAddr e.drec dst e.k
      let next := exec (.homeWrite (.copyElem core ctx ent)) s
      let fails (s : State) (c : CopyCause) (side : Bool) (va : Option Word) : Prop := s.entryOpen core ctx e.uid = false →
        exec (.copyElementFault core ctx ent none) s = .next (s.failEntry core ctx e c side va)
      let sr := (s.core core).ring (src.toNat % 16)
      let dr := (s.core core).ring (dst.toNat % 16)
      (cmdSkind cmd = 0 → ∀ c va, s.elemRead core e sva n = .error (.fault s c false (some va)) → fails s c false (some va)) ∧
      (cmdSkind cmd ≠ 0 → e.popped ≤ e.k * n / sr.popBytes → (sr.held = 0 ∨ (s.core core).ringHeld (src.toNat % 16) = true) →
        next = .next s) ∧
      (∀ s1 bs m, cmdSkind cmd = 0 → s.elemRead core e sva n = .ok (s1, bs, m) →
        (cmdDkind cmd = 0 →
          (∀ hs s2 t, s1.elemCheck core e .write (m ||| e.cmask) dva n = .ok hs → s1.elemLook core e dva n = .ok s2 →
            s2.elemSend core ctx e ((hs.map (·.pa)).zip bs) (m ||| e.cmask) (fill && lastInGranule (s.launchCores core) core e.drec dst e.k) false = .ok t →
            next = counts t (fun e => { e with k := e.k + 1 })) ∧
          (∀ c va, s1.elemCheck core e .write (m ||| e.cmask) dva n = .error (.fault s1 c true (some va)) →
            s1.entryOpen core ctx e.uid = false →
            exec (.copyElementFault core ctx ent none) s = .next (s1.failEntry core ctx e c true (some va)))) ∧
        (cmdDkind cmd = 1 →
          let at_ := e.k * n
          let opens : Prop := e.tiles ≤ at_ / dr.tileBytes
          let new : CopyEntry := { e with tile0 := dr.resv, tiles := e.tiles + 1 }
          let pas (first : BitVec 32) := ((dr.tilePas core first).drop (at_ % dr.tileBytes)).take n
          let fe := fill && (at_ % dr.tileBytes + n) % 16 == 0
          let done (t : State) (first : BitVec 32) : State := if at_ % dr.tileBytes + n = dr.tileBytes
            then t.modRing core (dst.toNat % 16) (fun r => r.written first) else t
          (opens → dr.canReserve 1 = false → next = .next s1) ∧
          (∀ t, opens → dr.canReserve 1 = true → s1.engineEscape core e.phase 1 true (pas dr.resv) = none →
            ((s1.setEntry core ctx new).modRing core (dst.toNat % 16) (fun r => { r with resv := r.resv + 1 })).elemSend core ctx e
              ((pas dr.resv).zip bs) (m ||| e.cmask) fe false = .ok t →
            next = counts (done t dr.resv) (fun e => { e with k := e.k + 1 })) ∧
          (∀ t, ¬ opens → s1.engineEscape core e.phase 1 true (pas e.tile0) = none →
            s1.elemSend core ctx e ((pas e.tile0).zip bs) (m ||| e.cmask) fe false = .ok t →
            next = counts (done t e.tile0) (fun e => { e with k := e.k + 1 }))) ∧
        (cmdDkind cmd = 2 → 0x40000 < dst.toNat % 2 ^ 18 + e.k * n + n → s1.entryOpen core ctx e.uid = false →
          exec (.copyElementFault core ctx ent none) s = .next (s1.failEntry core ctx e .ibank true none)))) ∧
    (∀ cmd src dst fill c side va, free → e.stage = .running → e.kind = .copy cmd src dst fill → e.total = 0 →
      s.beginFault core e cmd src dst = some (c, side, va) → s.entryOpen core ctx e.uid = false →
      exec (.copyElementFault core ctx ent none) s = .next (s.failEntry core ctx e c side va)) ∧
    (∀ first blocks hnd, free → e.stage = .running → e.failing = none → e.kind = .bclear first blocks hnd → e.k < 256 * blocks →
      let va : Word := BitVec.ofNat 64 (first + 16 * e.k)
      (∀ hs t, s.elemCheck core e .write 0 va 16 = .ok hs → s.elemSend core ctx e (hs.map (fun h => (h.pa, 0))) 0 false true = .ok t →
        exec (.homeWrite (.copyElem core ctx ent)) s = counts t (fun e => { e with k := e.k + 1 })) ∧
      (∀ c a, s.elemCheck core e .write 0 va 16 = .error (.fault s c true (some a)) → s.entryOpen core ctx e.uid = false →
        exec (.copyElementFault core ctx ent none) s = .next (s.failEntry core ctx e c true (some a)))) ∧
    (∀ pol len hnd src off, free → e.stage = .running → e.failing = none → e.kind = .release pol len hnd src off → e.k < len / 16 →
      let va : Word := src + BitVec.ofNat 64 (16 * e.k)
      (∀ s1 bs m, s.elemRead core e va 16 = .ok (s1, bs, m) → exec (.homeWrite (.copyElem core ctx ent)) s =
        counts s1 (fun e => { e with k := e.k + 1, data := e.data ++ bs, dmask := e.dmask ||| m })) ∧
      (∀ c a, s.elemRead core e va 16 = .error (.fault s c false (some a)) → s.entryOpen core ctx e.uid = false →
        exec (.copyElementFault core ctx ent none) s = .next (s.failEntry core ctx e c false (some a)))) ∧
    (e.stage ≠ .running → ∀ u, exec (.copyElementFault core ctx ent u) s = .next s) ∧
    (∀ side, free → e.stage = .running → e.failing = none → (∀ cmd src dst fill, e.kind = .copy cmd src dst fill → e.total ≠ 0) → e.k < e.count →
      s.entryOpen core ctx e.uid = false → let at_ := s.errorAt core e side
      exec (.copyElementFault core ctx ent (some side)) s = .next (s.failEntry core ctx e .uncorrectable at_.1 at_.2)) ∧
    (∀ cmd src dst fill, free → e.stage = .running → e.kind = .copy cmd src dst fill → e.total ≠ 0 → e.count ≤ e.k →
      s.entryOpen core ctx e.uid = false → exec (.copyComplete core ctx ent) s = .next (s.finishEntry core ctx e false)) ∧
    (∀ first blocks hnd, free → e.stage = .running → e.kind = .bclear first blocks hnd → 256 * blocks ≤ e.k →
      s.entryOpen core ctx e.uid = false → exec (.copyComplete core ctx ent) s = .next (s.finishEntry core ctx e false)) ∧
    (∀ pol len hnd src off, free → e.stage = .running → e.kind = .release pol len hnd src off → len / 16 ≤ e.k →
      s.entryOpen core ctx e.uid = false → exec (.copyComplete core ctx ent) s =
        (if s.meshPause = true then .next s else
         let g : GateReq := { part := s.partOf core, core := core, ctx := ctx, uid := e.uid, pol := pol, off := off,
                              data := e.data, mask := e.dmask ||| e.cmask, image := ((s.imageOf core).map (·.digest)).getD 0 }
         .next (({ s with gate := s.gate ++ [g] } : State).modEntry core ctx e.uid (fun e => { e with stage := .gate }))))) ∧
  (∀ (s : State) (core ctx h : Nat) (e : CopyEntry), let t := s.finishEntry core ctx e false
    (e.kind.dhnd = some h → e.kind.shnd ≠ some h → (t.core core).handle h = { st := .full, skipped := false }) ∧
    (e.kind.shnd = some h → ((t.core core).handle h).st = .free) ∧
    (∀ n, e.destRing = some n → (t.core core).ring n = ((s.core core).ring n).settled) ∧
    (t.ctx core ctx).copyq = (s.ctx core ctx).copyq.filter (fun d => d.uid != e.uid)) ∧
  (∀ (s : State) (core : Nat) (e : CopyEntry),
    let place (side : Bool) (va : Option Word) : Prop := s.errorAt core e side = (side, va)
    (∀ cmd src dst fill, e.kind = .copy cmd src dst fill →
      let sr := (s.core core).ring (src.toNat % 16)
      let dr := (s.core core).ring (dst.toNat % 16)
      let at_ := e.k * e.esize
      (cmdSkind cmd = 0 → place false (some (lrAddr e.srec src e.k))) ∧
      (cmdSkind cmd ≠ 0 → place false (some (ownVa (sr.tileOff (if at_ / sr.popBytes < e.popped then e.src0 else sr.head) +
        at_ % sr.popBytes * sr.tileBytes / sr.popBytes)))) ∧
      (cmdDkind cmd = 0 → place true (some (lrAddr e.drec dst e.k))) ∧
      (cmdDkind cmd = 1 → place true (some (ownVa (dr.tileOff (if e.tiles ≤ at_ / dr.tileBytes then dr.resv else e.tile0) +
        at_ % dr.tileBytes)))) ∧
      (2 ≤ cmdDkind cmd → place true none)) ∧
    (∀ first blocks hnd, e.kind = .bclear first blocks hnd → place true (some (BitVec.ofNat 64 (first + 16 * e.k)))) ∧
    (∀ pol len hnd src off, e.kind = .release pol len hnd src off → place false (some (src + BitVec.ofNat 64 (16 * e.k))))) ∧
  (∀ (s : State) (w : WriteReq) (uid : Nat) (e : CopyEntry), w.ent = some uid → (s.ctx w.core w.ctx).entry uid = some e → e.stage = .running →
    let mine (v : WriteReq) : Prop := v.core = w.core ∧ v.ctx = w.ctx ∧ v.ent = w.ent ∧ v.performed = false
    (∀ v ∈ s.writes, mine v → w.elem ≤ v.elem) →
    (s.writes.countP (fun v => v.core == w.core && v.ctx == w.ctx && v.ent == w.ent && !v.performed && decide (w.elem ≤ v.elem))) + w.elem = e.k →
    ∃ t : State, (∀ pa, t.peek pa = s.peek pa) ∧ (∀ v ∈ t.writes, ¬ mine v) ∧ t.writes.length = s.writes.length ∧
      (let at_ := t.errorAt w.core { e with k := w.elem } true
       s.failWrite w = t.failEntry w.core w.ctx { e with k := w.elem } .uncorrectable at_.1 at_.2) ∧
      (t.ctx w.core w.ctx).entry uid = some { e with k := w.elem }) ∧
  (∀ (s : State) (core ctx : Nat) (e : CopyEntry) (c : CopyCause) (side : Bool) (va : Word),
    ((s.launchOf core).map (·.stage)) ≠ some .retiring → (s.ctx core ctx).copyPend = false →
    (s.ctx core ctx).st = .running → (s.ctx core ctx).copyq = [e] →
    let t := s.failEntry core ctx e c side (some va)
    (t.ctx core ctx).copyPend = true ∧ (∃ f, (t.ctx core ctx).copyFault = some f ∧ f.cause = c ∧ f.side = side ∧ f.faddr = va ∧
      f.fidx = e.k) ∧
    (t.ctx core ctx).asyncQ = (s.ctx core ctx).asyncQ ++ [{ cause := .copyFault, code := BitVec.ofNat 8 c.code, addr := va }] ∧
    (∀ d ∈ (t.ctx core ctx).copyq, d.uid = e.uid ∧ d.stage = .faulted ∧ d.k = e.k)) ∧
  (∀ (s : State), (s.gate = [] → exec .releaseGateDecision s = .next s) ∧
    (∀ g gs e, s.gate = g :: gs → (s.ctx g.core g.ctx).entry g.uid = some e →
      let pol := tfind (s.part g.part).policies g.pol
      let reason : Nat := match pol with
        | none => 1
        | some p => if p.image ≠ g.image then 2 else if g.mask &&& ~~~p.mask ≠ 0 then 3 else if p.maxBytes < g.data.length then 4
            else if p.size < g.off.toNat + g.data.length then 5 else if p.count = 0 then 6 else 0
      /- A release that is accepted behind a link or a peer port that is down: its write fails as a copy's does. -/
      let lost : Prop := reason = 0 ∧ ∃ p, pol = some p ∧ s.reachable (p.base + g.off.toNat) = false
      ∃ t : State, t.gate = gs ∧
        (¬ lost → exec .releaseGateDecision s = .next (t.finishEntry g.core g.ctx e (reason != 0)) ∧
          (t.ctx g.core g.ctx).relLast = BitVec.ofNat 5 (16 + reason)) ∧
        (lost → exec .releaseGateDecision s = .next (t.failEntry g.core g.ctx { e with k := 0 } .uncorrectable true none) ∧
          t.peek = s.peek ∧ ∀ c x, t.ctx c x = s.ctx c x) ∧
        (reason = 0 → ∀ p, pol = some p →
          (¬ lost → t.peek = (s.pokes (cellsAt (p.base + g.off.toNat) g.data)).peek) ∧
          (t.part g.part).relAccepted = (s.part g.part).relAccepted + 1 ∧
          tfind (t.part g.part).policies g.pol = some { p with count := p.count - 1 } ∧
          (t.part g.part).relRefused = (s.part g.part).relRefused) ∧
        (reason ≠ 0 → t.peek = s.peek ∧ (t.part g.part).relRefused = (s.part g.part).relRefused + 1 ∧
          (t.part g.part).relAccepted = (s.part g.part).relAccepted ∧ (t.part g.part).policies = (s.part g.part).policies ∧
          tget 0 (t.part g.part).relLog ((s.part g.part).relRefused.toNat % 16) =
            BitVec.ofNat 64 (reason * 2 ^ 60 + g.pol * 2 ^ 55 + (((pol.map (·.base)).getD 0) + g.off.toNat) % 2 ^ 52)))) ∧
  (∀ (core ctx ent win : Nat) (hnd : Option Nat) (s : State) (e : CopyEntry) (w : PubWin), s.entryAt core ctx ent = some e →
    e.kind = .publish win hnd → tfind (s.part (s.partOf core)).pubwins win = some w →
    let part := s.partOf core
    let pas := (List.range 8).map (fun i => w.counter + i)
    let begun : Prop := e.stage = .running ∧ s.earlierPublish part win e.total = false ∧ s.forkWaits e.uid core ctx = false ∧
      s.meshPause = false
    (¬ begun → exec (.publishVersionWrite core ctx ent) s = .next s) ∧
    (begun → (∀ a ∈ pas, s.reachable a = true) → egressOk e.egress e.cmask pas = false →
      exec (.publishVersionWrite core ctx ent) s = .next (s.failEntry core ctx e .labelStore true none)) ∧
    (begun → (∀ a ∈ pas, s.reachable a = true) → egressOk e.egress e.cmask pas = true →
      let raised := s.modPart part (fun p => { p with pubwins := tput p.pubwins win { w with version := w.version + 1 } })
      let written := raised.pokes (cellsAt w.counter (bytesOf 8 (w.version + 1).toNat))
      exec (.publishVersionWrite core ctx ent) s = .next (written.finishEntry core ctx e false)))

/-- R237, R242, R243, R253 to R255, R259, R264, R370 and R384.
What no rule states outright is the model's: notes/assumptions entries 4, 26, 47 and 63. -/
def Obligations.FeedEvents : Prop :=
  (∀ (core ring : Nat) (s : State) (r : Ring), ring < 16 → (s.core core).ring ring = r → r.done.Nodup →
    ∃ n ≤ r.done.length, (∀ i < n, r.tail + BitVec.ofNat 32 i ∈ r.done) ∧
      (n < r.done.length → r.tail + BitVec.ofNat 32 n ∉ r.done) ∧
      let rest := r.done.filter (fun t => !decide (∃ i < n, t = r.tail + BitVec.ofNat 32 i))
      exec (.ringTailAdvance core ring) s =
        .next (s.modRing core ring (fun _ => { r with tail := r.tail + BitVec.ofNat 32 n, done := rest }))) ∧
  (∀ (core gen c q : Nat) (s : State) (p : Port), (s.core core).fed gen false = some (c, q, p) →
    let d := p.desc
    let k := if p.next = d.total ∧ d.repeat_ = true then 0 else p.next
    let pas := d.pas core k
    let runs : Prop := ((s.ctx core c).st = .running ∨ (s.ctx core c).st = .frozenTrap) ∧ (s.core core).halted = false
    let enabled : Prop := p.dead = false ∧ p.buf.length < 4 ∧ k < d.total ∧ runs ∧ p.first ≤ (s.core core).ticks ∧
      s.forkWaits p.num core c = false
    (¬ enabled → exec (.streamReadahead core gen) s = .next s) ∧
    (enabled → s.engineEscape core p.phase 4 false pas = none → s.lags (dieOf core) pas = false →
      let v : Lab 1024 :=
        { val := BitVec.ofNat 1024 (leValue (recode p.fmt.val d.memFmt d.regFmt (s.peeks pas))),
          mask := p.bmask ||| unionMasks (pas.map s.blockMask) }
      exec (.streamReadahead core gen) s = .next (s.modCtx core c (fun x =>
        { x with ports := tput x.ports q { p with buf := p.buf ++ [v], next := k + 1 } })))) ∧
  (∀ (core gen c q : Nat) (s : State) (p : Port), (s.core core).fed gen true = some (c, q, p) →
    let d := p.desc
    (p.pushes = [] → exec (.streamPushWrite core gen) s = .next s) ∧
    (∀ i rest, p.pushes = i :: rest → p.dead = false → s.engineEscape core p.phase 4 true (d.pas core i.k) = none →
      s.mustWait (s.die (dieOf core)).clk (d.pas core i.k) = true → exec (.streamPushWrite core gen) s = .next s) ∧
    (∀ i rest, p.pushes = i :: rest → p.dead = false → s.engineEscape core p.phase 4 true (d.pas core i.k) = none →
      s.mustWait (s.die (dieOf core)).clk (d.pas core i.k) = false →
      exec (.streamPushWrite core gen) s = .next ((s.modCtx core c (fun x => { x with ports := tput x.ports q { p with pushes := rest } })).writeNow
        (dieOf core) core c false ((d.pas core i.k).zip (recode p.fmt.val d.regFmt d.memFmt (bytesOf (widthBits d.width / 8) i.val.toNat)))
        i.mask false))) ∧
  (∀ (core : Nat) (s : State) (b : TBlock) (bs : List TBlock),
    let t := (s.core core).trans
    t.blocks = b :: bs →
    let off := t.base + t.col * 16 * t.pitch
    let pas := (List.range 128).map (fun i => slicePa core (off + i))
    let col := b.column t.w32 t.col
    (t.store = false ∨ t.late ≠ none ∨ (s.core core).ticks < max b.doneAt t.freeAt + 8 + t.col ∨ s.acquiring b.num core b.ctx = true →
      exec (.transposeColumnReady core) s = .next s) ∧
    (t.store = true → t.late = none → s.acquiring b.num core b.ctx = false → max b.doneAt t.freeAt + 8 + t.col ≤ (s.core core).ticks → s.engineEscape core b.phase 3 true pas = none →
      exec (.transposeColumnReady core) s = .next ((s.engineWrite core b.ctx
        (pas.zip (bytesOf 128 col.val.toNat)) col.mask true).modCore core (fun k => { k with trans := { t with late := some (false, (s.core core).ticks) } })))) ∧
  (∀ (t : Transpose) (now at_ : Nat),
    let dropped := { t with late := none, col := 0, blocks := t.blocks.drop 1, freeAt := now }
    (t.late = none → t.settled at_ = t) ∧ (∀ drop, t.late = some (drop, now) → at_ ≤ now → t.settled at_ = t) ∧
    (t.late = some (true, now) → now < at_ → t.settled at_ = dropped) ∧
    (t.late = some (false, now) → now < at_ → t.settled at_ =
      if t.col + 1 < (if t.w32 = true then 32 else 64) then { t with late := none, col := t.col + 1 } else dropped)) ∧
  (∀ (core : Nat) (s : State), let k := s.core core
    let lacks (c : Nat) : Prop := ((k.ctx c).st = .running ∨ (k.ctx c).st = .frozenTrap) ∧ (k.ctx c).rndHeld < 4
    (((∀ c < 4, ¬ lacks c) ∨ k.rndMade = true ∨ k.owner = none ∨ k.halted = true) → exec (.randomVectorProduce core) s = .next s) ∧
    (∀ i, 1 ≤ i → i ≤ 4 → (∀ j, 1 ≤ j → j < i → ¬ lacks ((k.lastRnd + j) % 4)) → let c := (k.lastRnd + i) % 4
      lacks c → k.owner ≠ none → k.halted = false → k.rndMade = false →
      exec (.randomVectorProduce core) s = .next ((s.modCtx core c (fun x => { x with rndHeld := x.rndHeld + 1 })).modCore core
        (fun k => { k with lastRnd := c, rndMade := true })))) ∧
  (∀ (core : Nat) (s : State), let k := (s.engineCycle core).core core
    k.rndMade = false ∧ (∀ n, (k.ring n).freed = 0) ∧
    ((s.core core).trans.store = false → k.trans = (s.core core).trans.settled (s.core core).ticks))

/-! ## Events: the launch processor -/

/-- R56 to R58, R60, R61, R63, R69, R73, R74, R78, R80, R81 and R450.
What no rule states outright is the model's: notes/assumptions entries 4, 41, 50, 51, 71, 72 and 73. -/
def Obligations.RegisterPageWrites : Prop :=
  (∀ (fn : Nat) (v : Word) (s : State),
    let q := v.toNat % 4096
    let tail := v.extractLsb' 32 32
    (fn = 0 ∨ (fn ≤ 16 ∧ s.ownQueue fn q = false) → exec (.notify fn v) s = .next (s.setFstat fn fstatFOREIGN)) ∧
    (1 ≤ fn → fn ≤ 16 → s.ownQueue fn q = true →
      let u := s.logNotify (fn - 1) q
      let x := u.queue q
      let far : Prop := 2 ^ (x.log2size + 4) < (tail - x.head).toNat
      (far → exec (.notify fn v) s = .next (u.modQueue q (fun x => { x with badtail := true }))) ∧
      let w := u.modQueue q (fun x => { x with tail := tail, clk := u.hostClock })
      let empty : Prop := x.st = .mapped ∧ tail = x.head ∧ (u.part (fn - 1)).accepted q = 0
      (¬ far → x.st ≠ .draining → x.st ≠ .aborting → ¬ empty → (x.st ≠ .idle ∨ tail = x.head) →
        (∀ k, x.slot = some k → (tfind u.slots k).bind (·.reservedFor) = none) → exec (.notify fn v) s = .next w) ∧
      (¬ far → empty → ∃ t : State, exec (.notify fn v) s = .next t ∧ (t.queue q).st = .idle ∧ (t.queue q).slot = none ∧
        (t.queue q).tail = tail ∧ ∀ pa, t.peek pa = u.peek pa) ∧
      (¬ far → x.st = .idle → tail ≠ x.head → ∃ t : State, exec (.notify fn v) s = .next t ∧ (t.queue q).tail = tail ∧
        (t.queue q).head = x.head ∧ ((t.queue q).st = .mapped ∨ (t.queue q).st = .pending) ∧
        ((∃ k ∈ (u.part (fn - 1)).share, tfind u.slots k = none) → (t.queue q).st = .mapped) ∧ ∀ pa, t.peek pa = u.peek pa))) ∧
  (∀ (fn : Nat) (v : Word) (s : State), 1 ≤ fn → fn ≤ 16 →
    let part := fn - 1
    let q := (s.func fn).qsel
    let x := s.queue q
    let lg := (v.extractLsb' 4 4).toNat
    let odd : Prop := 12 < lg ∨ (x.enable = true ∧ (lg ≠ x.log2size ∨ v.getLsbD 1 ≠ x.preempt))
    let kept (s : State) : State := s.modQueue q (fun x => { x with log2size := lg, preempt := v.getLsbD 1, abort := v.getLsbD 3 })
    ((v.getLsbD 0 = false ∨ v.getLsbD 2 = true) → exec (.queueEnable fn v) s = .next s) ∧
    (v.getLsbD 0 = true → v.getLsbD 2 = false →
      (s.ownQueue fn q = false → (s.part part).desc ≠ none → exec (.queueEnable fn v) s = .next s) ∧
      ((s.part part).desc = none → exec (.queueEnable fn v) s = .next (s.setFstat fn fstatCFGERR)) ∧
      (s.ownQueue fn q = true → odd → exec (.queueEnable fn v) s = .next (s.setFstat fn fstatCFGERR)) ∧
      (s.ownQueue fn q = true → ¬ odd → x.enable = true → exec (.queueEnable fn v) s = .next (kept s)) ∧
      (s.ownQueue fn q = true → ¬ odd → x.enable = false → x.head = x.tail → exec (.queueEnable fn v) s =
        .next (s.modQueue q (fun x =>
          { x with log2size := lg, preempt := v.getLsbD 1, abort := v.getLsbD 3, enable := true, st := .idle }))) ∧
      (s.ownQueue fn q = true → ¬ odd → x.enable = false → x.head ≠ x.tail → x.st ≠ .draining →
        ∃ t : State, exec (.queueEnable fn v) s = .next t ∧ (t.queue q).enable = true ∧ (t.queue q).log2size = lg ∧
          ((t.queue q).st = .mapped ∨ (t.queue q).st = .pending))) ∧
    (v.getLsbD 2 = true → v.getLsbD 3 = false → s.ownQueue fn q = true → ¬ odd → x.enable = true →
      (x.st = .idle ∨ x.st = .pending ∨ x.st = .mapped) → ∃ t : State, exec (.teardown fn v) s = .next t ∧
        ((s.part part).accepted q = 0 → (t.queue q).st = .disabled ∧ (t.queue q).enable = false ∧ (t.queue q).teardown = false ∧
          (t.queue q).slot = none) ∧
        ((s.part part).accepted q ≠ 0 → (t.queue q).st = .draining ∧ (t.queue q).teardown = true ∧ (t.queue q).enable = true) ∧
        (t.part part).launches.map (·.num) = (s.part part).launches.map (·.num) ∧ ∀ pa, t.peek pa = s.peek pa) ∧
    (v.getLsbD 2 = true → v.getLsbD 3 = true → s.ownQueue fn q = true → ¬ odd → x.enable = true →
      (x.st = .idle ∨ x.st = .pending ∨ x.st = .mapped) → exec (.teardownAbort fn v) s =
        .next ((((kept s).modQueue q (fun x => { x with teardown := true, abort := true, st := .aborting })).abortQueue part q).settleQueue
          part q) ∧
        ((s.part part).launches = [] → ∃ t : State, exec (.teardownAbort fn v) s = .next t ∧
          (t.queue q).st = .disabled ∧ (t.queue q).enable = false ∧ (t.queue q).teardown = false))) ∧
  (∀ (s : State) (part q : Nat), ((s.abortQueue part q).part part).frozen = false ∧
    s.unfreeze part = s.modPart part (fun p => { p with frozen := false })) ∧
  (∀ (s : State) (part q : Nat) (l : Launch), (s.part part).launches = [l] → l.queue = q →
    (l.stage = .running → s.abortQueue part q =
      (s.endLaunch { part := part, launch := l.num, lcore := 0 } .aborted).unfreeze part) ∧
    ((l.stage = .serial ∨ l.stage = .waiting ∨ l.stage = .placing) → l.saved = [] →
      ∃ l', ((s.abortQueue part q).part part).launches = [l'] ∧ l'.num = l.num ∧ l'.stage = .record ∧ l'.status = .aborted)) ∧
  (∀ (fn : Nat) (v : Word) (s : State), 1 ≤ fn → fn ≤ 16 → s.memWf = true →
    let part := fn - 1
    let n := v.toNat % 4096
    let at_ := (s.func fn).objbase + 16 * n
    let o := tget Obj.reset (s.part part).objs n
    at_ + 16 ≤ 2 ^ 64 → ∃ t : State, exec (.objset fn v) s = .next t ∧
      tget Obj.reset (t.part part).objs n = { o with val := v.extractLsb' 32 32, status := .ok, clk := o.clk.join s.hostClock } ∧
      (∀ k, k ≠ n → tget Obj.reset (t.part part).objs k = tget Obj.reset (s.part part).objs k) ∧
      t.hostGet (s.part part).link at_ 16 = bytesOf 4 (v.toNat / 2 ^ 32) ++ bytesOf 4 0 ++ bytesOf 8 o.last.toNat ∧ t.cores = s.cores) ∧
  (∀ (v : Word) (s : State), exec (.objset 0 v) s = .next (s.setFstat 0 fstatFOREIGN)) ∧
  (∀ (fn : Nat) (v : Word) (s : State), 1 ≤ fn → fn ≤ 16 →
    let part := fn - 1
    let u := s.modFunc fn (fun f => { f with ephcons := v.setWidth 32 })
    let g := s.modFunc fn (fun f => { f with loglimit := v })
    let bad : Prop := (∃ l ∈ (s.part part).launches, l.record = true ∨ l.replay = true) ∨ v.toNat % 32 ≠ 0 ∨
      (s.func fn).loglimit.toNat ≤ v.toNat
    (u.recordWaits part = true → exec (.ephconsWrite fn v) s = .next (u.setFstat fn fstatEPHFULL)) ∧
    (u.recordWaits part = false → exec (.ephconsWrite fn v) s = .next u) ∧
    ((s.part part).logWait = [] → exec (.loglimitWrite fn v) s = .next g) ∧
    (∀ bs, (s.part part).logWait = [bs] → (s.func fn).logprod.toNat + 32 ≤ v.toNat → exec (.loglimitWrite fn v) s =
      .next (((g.putEntry part bs).modPart part (fun p => { p with logWait := [] })).unstallPart part .logStall)) ∧
    (∀ b bs, (s.part part).logWait = b :: bs → v.toNat < (s.func fn).logprod.toNat + 32 → exec (.loglimitWrite fn v) s = .next g) ∧
    (bad → exec (.logprodWrite fn v) s = .next (s.setFstat fn fstatCFGERR)) ∧
    (¬ bad → exec (.logprodWrite fn v) s = .next (s.modFunc fn (fun f => { f with logprod := v })))) ∧
  (∀ (fn : Nat) (v : Word) (s : State), 1 ≤ fn → fn ≤ 16 →
    let reads (off : Nat) (w : Nat) : Prop := ∃ t : State, exec (.registerWrite fn off v) s = .next t ∧
      t.readPage fn off = BitVec.ofNat 64 w ∧ t.queues = s.queues ∧ t.parts = s.parts ∧ t.cores = s.cores
    reads 0x030 (v.toNat / 2 ^ 16 * 2 ^ 16) ∧ reads 0x040 (v.toNat / 2 ^ 7 * 2 ^ 7) ∧ reads 0x048 (v.toNat % 16) ∧
    reads 0x060 (v.toNat % 2 ^ 56 / 32 * 32) ∧ reads 0x400 (v.toNat / 2 ^ 6 * 2 ^ 6) ∧
    reads 0x080 ((s.func fn).fstat &&& ~~~(v.setWidth 4)).toNat ∧
    (s.ownQueue fn (v.toNat % 4096) = true → reads 0x008 (v.toNat % 4096)) ∧
    (s.ownQueue fn (v.toNat % 4096) = false → exec (.registerWrite fn 0x008 v) s = .next (s.setFstat fn fstatFOREIGN)) ∧
    ((s.func fn).busy = true → exec (.registerWrite fn 0x408 v) s = .next (s.setFstat fn fstatCFGERR)) ∧
    ((s.func fn).busy = false → exec (.registerWrite fn 0x408 v) s =
      .next (s.modFunc fn (fun f => { f with busy := true, request := some (s.func fn).mbaddr }))) ∧
    (∀ off, off ∉ [0x000, 0x008, 0x010, 0x018, 0x028, 0x030, 0x038, 0x040, 0x048, 0x058, 0x060, 0x068, 0x070, 0x080, 0x400, 0x408] →
      exec (.registerWrite fn off v) s = .next s)) ∧
  (∀ (fn off : Nat) (v : Word) (s : State), 16 < fn → exec (.registerWrite fn off v) s = .next s)

/-- R60, R66 to R68, R70, R77, R78, R93 to R95, R430 and R438 to R441.
What no rule states outright is the model's: notes/assumptions entries 4, 11, 49, 51 and 52. -/
def Obligations.LaunchEvents : Prop :=
  (∀ (queue : Nat) (ok : Bool) (s : State),
    (s.parts.find? (fun e => e.2.ownsQueue queue) = none → exec (.packetAccept queue ok) s = .next s) ∧
    (∀ part p, s.parts.find? (fun e => e.2.ownsQueue queue) = some (part, p) → s.part part = p →
      let x := s.queue queue
      let up : Prop := ok = true ∧ (if p.link = 0 then s.linkUp0 else s.linkUp1) = true
      let able : Prop := x.st = .mapped ∧ x.head ≠ x.tail ∧ p.accepted queue < 16
      let num := p.nextLaunch
      (¬ able → exec (.packetAccept queue ok) s = .next s) ∧
      (able → ¬ up → exec (.packetAccept queue ok) s =
        .next ((s.modQueue queue (fun x => { x with readerr := true })).tearDown part queue false)) ∧
      (able → up → (∀ l ∈ p.launches, l.num ≠ num) →
        let bs := s.hostGet p.link (x.base + 64 * (x.head.toNat % 2 ^ (x.log2size + 4))) 64
        let k := packetOf bs
        ∃ t : State, exec (.packetAccept queue ok) s = .next t ∧ (t.queue queue).head = x.head + 1 ∧
          (t.part part).nextLaunch = num + 1 ∧ (∀ pa, t.peek pa = s.peek pa) ∧
          (∃ l ∈ (t.part part).launches, l.num = num ∧ l.queue = queue ∧ l.pkt = k ∧ l.qhead = x.head ∧
            (badPacket bs = true → l.stage = .record ∧ l.status = .badPacket) ∧
            (badPacket bs = false → k.part ≠ part → l.stage = .record ∧ l.status = .badPartition) ∧
            (badPacket bs = false → k.part = part → k.marker = false →
              (s.readImage part k.image = .unreadable ∨ s.readVirtual part k.bindings 144 = none) →
              l.stage = .record ∧ l.status = .badImage) ∧
            (badPacket bs = false → k.part = part → k.marker = true → (∀ w ∈ k.waits, w.getLsbD 31 = false) →
              l.stage = .record ∧ l.status = .ok)) ∧
          ((badPacket bs = true ∨ k.part ≠ part) → num ∈ (t.part part).retireOrder)))) ∧
  (∀ (part : Nat) (s : State),
    ((s.recordWaits part = true ∨ (s.part part).frozen = true ∨ (s.part part).launches.find? s.placeable = none) →
      exec (.placeAndLoad part) s = .next s) ∧
    (∀ l, s.recordWaits part = false → (s.part part).frozen = false → (s.part part).launches.find? s.placeable = some l →
      (s.part part).launch? l.num = some l →
      let o : Owner := { part := part, launch := l.num, lcore := 0 }
      let n := l.pkt.contexts / l.pkt.perCore
      let free := s.freeCores part
      let takes (w : State) (l : Launch) (img : Image) : Prop :=
        ((free.length < n ∨ s.diesCover l (free.take n) = false) → exec (.placeAndLoad part) s = .next w) ∧
        (n ≤ free.length → s.diesCover l (free.take n) = true →
          exec (.placeAndLoad part) s = .next (w.placeOn part l img (free.take n)))
      (l.image = none → s.readVirtual part l.pkt.image 64 = none →
        exec (.placeAndLoad part) s = .next (s.endUnrun part l.num .badImage)) ∧
      (∀ h, l.image = none → s.readVirtual part l.pkt.image 64 = some h →
        (headerOk h = false → exec (.placeAndLoad part) s = .next (s.endUnrun part l.num (.load .eFormat))) ∧
        (headerOk h = true → s.readVirtual part l.pkt.image (imageLength h) = none →
          exec (.placeAndLoad part) s = .next (s.endUnrun part l.num .badImage)) ∧
        (∀ bs, headerOk h = true → s.readVirtual part l.pkt.image (imageLength h) = some bs →
          (imageOfBytes bs = none → exec (.placeAndLoad part) s = .next (s.endUnrun part l.num (.load .eFormat))) ∧
          (∀ img v, imageOfBytes bs = some (img, v) →
            let u := s.modLaunch o (fun l => { l with imgDigest := some img.digest })
            (∀ e, (u.part part).loadError l bs img v = some e →
              exec (.placeAndLoad part) s = .next (u.endUnrun part l.num (.load e))) ∧
            ((u.part part).loadError l bs img v = none →
              takes (u.modLaunch o (fun l => { l with image := some img })) { l with imgDigest := some img.digest, image := some img }
                img)))) ∧
      (∀ img, l.image = some img → takes s l img))) ∧
  (∀ (k : Core) (o : Owner) (code : List Byte) (img : Image) (ds : List DeclRec),
    let t := k.placed o code img ds
    t.owner = some o ∧ t.slice = k.slice ∧ t.fe = k.fe ∧ t.bmask = k.bmask ∧ t.ctxs = [] ∧ t.calls = [] ∧ t.halted = false ∧
    t.ibank0 = bankOf code) ∧
  (∀ (img : Image) (ds : List DeclRec) (base : Word) (j h : Nat),
    let x := Ctx.placed img ds base j h
    x.st = .running ∧ x.pc = img.entry ∧ x.j = j ∧ x.rstack = [] ∧ x.flight = [] ∧ x.taint = 0 ∧ x.nds = 0 ∧
    (∀ n, (x.sreg n).val = 0 ∧ (x.sreg n).mask = 0) ∧ x.rndPos = base + BitVec.ofNat 64 (j * 2 ^ 24)) ∧
  (∀ (part : Nat) (s : State),
    ((s.part part).retireOrder.head?.bind (s.part part).launch? = none → exec (.launchRetirement part) s = .next s ∧
      exec (.ephemerisRecordWrite part) s = .next s) ∧
    (∀ l, (s.part part).retireOrder.head?.bind (s.part part).launch? = some l →
      let o : Owner := { part := part, launch := l.num, lcore := 0 }
      let u := l.cores.foldl (fun s c => four.foldl (fun s x => s.skipFaulted c x) s) s
      let f := s.func (fnOf part)
      (l.stage = .retiring → (∃ c ∈ l.cores, u.coreDone c = false) → exec (.launchRetirement part) s = .next u) ∧
      (∀ v, l.stage = .retiring → (∀ c ∈ l.cores, u.coreDone c = true) → (u.part part).launch? l.num = some v →
        let w := u.digestStep part v
        exec (.launchRetirement part) s = .next (w.modLaunch o (fun l =>
          { l with stage := .record, clk := l.cores.foldl (fun c k => c.join (w.die (dieOf k)).clk) l.clk }))) ∧
      (l.stage = .freeing → ∃ t : State, exec (.launchRetirement part) s = .next t ∧ (∀ c ∈ l.cores, (t.core c).owner = none) ∧
        (∀ c x, t.ctx c x = s.ctx c x) ∧
        (∀ e ∈ (t.part part).launches, e.num ≠ l.num) ∧ ∀ pa, t.peek pa = s.peek pa) ∧
      (l.stage ≠ .retiring → l.stage ≠ .freeing → exec (.launchRetirement part) s = .next s) ∧
      (l.stage ≠ .record → exec (.ephemerisRecordWrite part) s = .next s) ∧
      (l.stage = .record → f.ephFull = true →
        exec (.ephemerisRecordWrite part) s = .next (s.setFstat (fnOf part) fstatEPHFULL)) ∧
      (l.stage = .record → f.ephFull = false →
        let t := (((s.putRecord part l).signal part l).modPart part (fun p => { p with recClk := p.recClk.join l.clk })).modLaunch o
          (fun l => { l with stage := .freeing })
        (l.cores ≠ [] → exec (.ephemerisRecordWrite part) s = .next t) ∧
        (l.cores = [] → exec (.ephemerisRecordWrite part) s = .next (t.dropLaunch part { l with stage := .freeing }))))) ∧
  (∀ (part : Nat) (s : State) (l : Launch), s.memWf = true →
    let f := s.func (fnOf part)
    let at_ := f.ephbase + 128 * (f.ephprod.toNat % 2 ^ (f.ephctl + 6))
    at_ + 128 ≤ 2 ^ 64 →
    l.recordBytes.length = 128 ∧ (s.putRecord part l).hostGet (s.part part).link at_ 128 = l.recordBytes ∧
    ((s.putRecord part l).func (fnOf part)).ephprod = f.ephprod + 1) ∧
  (∀ (part : Nat) (s : State) (l : Launch),
    let n := l.pkt.signal.toNat % 4096
    let o := tget Obj.reset (s.part part).objs n
    (l.pkt.signal.getLsbD 15 = false → s.signal part l = s) ∧
    (l.pkt.signal.getLsbD 15 = true → (s.signal part l).msix = s.msix ++ [fnOf part] ∧
      tget Obj.reset ((s.signal part l).part part).objs n =
        { val := o.val + 1, status := l.status, last := BitVec.ofNat 64 l.num, clk := o.clk.join l.clk })) ∧
  (∀ (part : Nat) (s : State),
    ((s.part part).launches.find? s.stoppedLaunch = none → exec (.tenantPreemptionSave part) s = .next s) ∧
    (∀ l, (s.part part).launches.find? s.stoppedLaunch = some l → ∃ t : State, exec (.tenantPreemptionSave part) s = .next t ∧
      (∀ c ∈ l.cores, (t.core c).owner = none) ∧ (∀ r ∈ t.reads, r.core ∉ l.cores) ∧
      (∃ v ∈ (t.part part).launches, v.num = l.num ∧ v.stage = .placing ∧ v.cores = [] ∧
        v.saved = l.ctxNames.map (fun w => (s.ctx w.core w.ctx).saved)) ∧
      ∀ pa, t.peek pa = s.peek pa))

/-! ## Events: the management mailbox -/

/-- R85, R86, R123, R356, R361, R406, R428, R429, R432, R437, R441, R444, R450, R472 and R473. The layouts of bodies that no rule
gives, and the non-zero codes of the refusals to which no rule gives a code, are the model's (notes/assumptions entry 37).
What no rule states outright is the model's: notes/assumptions entries 4, 54 and 77. -/
def Obligations.MailboxEvents : Prop :=
  (∀ (fn core ctx num : Nat) (s : State) (i : Instr) (op : Nat) (pf : Bool),
    (i, op, pf) ∈ [(Instr.installDescriptor fn, 1, true), (.writePageTableEntries fn, 2, false), (.rangeEntries fn, 3, false),
      (.egressWindow fn, 4, true), (.publicationWindow fn, 5, false), (.releasePolicy fn, 6, false),
      (.resetPartitionRequest fn, 7, true), (.readManifest fn, 8, false), (.attest fn, 9, false), (.debugAttach fn, 10, false),
      (.debugHalt fn core, 10, false), (.debugResume fn core, 10, false), (.debugPreemptContext fn core ctx, 10, false),
      (.debugStateRead fn core ctx num, 10, false), (.readFaultRegisters fn, 11, false), (.readHarvestMap fn, 12, true)] →
    (s.submitted fn = none → exec i s = .next s) ∧
    (∀ h n body, s.submitted fn = some (h, n, body) →
      (reqOpcode h ≠ op → exec i s = .next s) ∧
      (reqOpcode h = op → reqPart fn pf h = none → exec i s = .next (State.respond fn h 0 (s.refuse codeDenied))))) ∧
  (∀ (fn : Nat) (h : List Byte) (part : Nat) (r : Served),
    ((State.respond fn h part r).func fn).request = none ∧
    ((State.respond fn h part r).func fn).response = some { addr := fieldAt h 16 8, part := part, code := r.code, data := r.data
                                                            after := if r.wait then some r.st.nextId else none, egress := r.slot } ∧
    (State.respond fn h part r).lastFn = fn ∧ (State.respond fn h part r).parts = r.st.parts ∧ (State.respond fn h part r).cores = r.st.cores) ∧
  (∀ (fn : Nat) (s : State), s.submitted fn ≠ none → s.nextServed = some fn ∧ s.asks fn = true) ∧
  (∀ (s : State) (i : Nat), i < 17 → s.asks ((s.lastFn + 1 + i) % 17) = true → (∀ j < i, s.asks ((s.lastFn + 1 + j) % 17) = false) →
    s.nextServed = some ((s.lastFn + 1 + i) % 17)) ∧
  (∀ (fn : Nat) (s : State) (h body : List Byte) (n : Nat), s.submitted fn = some (h, n, body) →
    let gives (i : Instr) (p : Nat) (u : State) (code : Nat) (data : List Byte) (wait : Bool) : Prop :=
      exec i s = .next (State.respond fn h p { st := u, code := code, data := data, wait := wait })
    let refused (i : Instr) (p code : Nat) : Prop := gives i p s code [] false
    let free (i : Instr) (p : Nat) : Prop := ∃ c, 0 < c ∧ c < 65536 ∧ gives i p { s with freeCount := s.freeCount + 1 } c [] false
    ∀ p < 16,
    (reqOpcode h = 1 → reqPart fn true h = some p → let i := Instr.installDescriptor fn
      (n ≠ 800 → free i p) ∧
      (n = 800 → s.descCode p (descOf body) ≠ 0 → refused i p (s.descCode p (descOf body))) ∧
      (n = 800 → s.descCode p (descOf body) = 0 → gives i p (s.resetPartition p (some (descOf body))) 0 [] false)) ∧
    (reqOpcode h = 2 → reqPart fn false h = some p → let i := Instr.writePageTableEntries fn
      let c := fieldAt body 0 8
      let bad : Prop := c = 0 ∨ 256 < c ∨ n ≠ 8 + 32 * c
      let rs := (piecesOf 32 c (body.drop 8)).map pteRecOf
      (bad → gives i p s 1 (bytesOf 8 0) false) ∧
      (∀ code k, ¬ bad → s.pteRefusal p rs = some (code, k) → gives i p s code (bytesOf 8 k) false) ∧
      (¬ bad → s.pteRefusal p rs = none → ∃ u : State, gives i p u 0 [] true ∧ (u.part p).leaves = rs.foldl placeLeaf (s.part p).leaves ∧
        (∀ r ∈ rs, (∀ d e, e ∈ (u.die d).store → e.part = p → spansMeet e.base e.size r.va (levelSpan r.level) = false) ∧
          ∀ c e, e ∈ tget [] u.fronts c → e.part = p → spansMeet e.base e.size r.va (levelSpan r.level) = false) ∧
        u.cores = s.cores ∧ u.stack = s.stack)) ∧
    (reqOpcode h = 3 → reqPart fn false h = some p → let i := Instr.rangeEntries fn
      let c := fieldAt body 0 8
      let bad : Prop := c = 0 ∨ 128 < c ∨ n ≠ 8 + 40 * c
      let rs := (piecesOf 40 c (body.drop 8)).map rangeRecOf
      (bad → gives i p s 1 (bytesOf 8 0) false) ∧
      (∀ code k, ¬ bad → s.rangeRefusal p rs = some (code, k) → gives i p s code (bytesOf 8 k) false) ∧
      (¬ bad → s.rangeRefusal p rs = none → ∃ u : State, gives i p u 0 [] true ∧
        (u.part p).ranges = rs.foldl placeRange (s.part p).ranges ∧ (u.part p).leaves = (s.part p).leaves ∧ u.cores = s.cores)) ∧
    (reqOpcode h = 4 → reqPart fn true h = some p → let i := Instr.egressWindow fn
      let slot := fieldAt body 0 1
      let r := body.drop 8
      let base := fieldAt r 0 8
      let size := fieldAt r 8 8
      let party := fieldAt r 16 1
      let form : Prop := n = 40 ∧ slot ≤ 15 ∧ zeroFrom body 1 8 = true ∧ zeroFrom r 17 32 = true
      let blank : Prop := ∀ b ∈ r, b = 0
      let answers (x : Option Egress) : Prop :=
        exec i s = .next (State.respond fn h p { st := s, code := 0, data := [], wait := false, slot := some (slot, x) })
      let meets : Prop := ∃ e ∈ (s.part p).egress, e.1 ≠ slot ∧ e.2.party ≠ party ∧ spansMeet base size e.2.base e.2.size = true
      ((¬ form ∨ (¬ blank ∧ pageForm base size = false)) → refused i p 1) ∧
      (form → blank → answers none) ∧
      (form → ¬ blank → pageForm base size = true →
        ((s.part p).parties ≤ party → refused i p 2) ∧
        (party < (s.part p).parties → inWindow false base size = false → refused i p 3) ∧
        (party < (s.part p).parties → inWindow false base size = true → meets → refused i p 4) ∧
        (party < (s.part p).parties → inWindow false base size = true → ¬ meets →
          answers (some { base := base, size := size, party := party })))) ∧
    (reqOpcode h = 5 → reqPart fn false h = some p → let i := Instr.publicationWindow fn
      let win := fieldAt body 0 1
      let r := body.drop 8
      let base := fieldAt r 0 8
      let size := fieldAt r 8 8
      let ctr := fieldAt r 16 8
      let form : Prop := n = 40 ∧ win ≤ 15 ∧ zeroFrom body 1 8 = true ∧ zeroFrom r 24 32 = true ∧ pageForm base size = true ∧
        ctr % 8 = 0 ∧ ctr < 2 ^ 52 ∧ inWindow true base size = true ∧ hostLinkOf ctr = hostLinkOf base ∧
        (ctr + 8 ≤ base ∨ base + size ≤ ctr)
      (¬ form → free i p) ∧
      (form → gives i p (s.modPart p (fun q =>
        { q with pubwins := tput q.pubwins win { base := base, size := size, counter := ctr, version := 0 } })) 0 [] false)) ∧
    (reqOpcode h = 6 → reqPart fn false h = some p → let i := Instr.releasePolicy fn
      let k := fieldAt body 128 2
      let form : Prop := n = 144 + 5360 * k ∧ zeroFrom body 130 144 = true
      let r := body.take 128
      let c := s.policyCode p r (piecesOf 5360 k (body.drop 144))
      (¬ form → free i p) ∧ (form → c ≠ 0 → refused i p c) ∧
      (form → c = 0 → gives i p (s.modPart p (fun q =>
        { q with policies := tput q.policies (fieldAt r 0 1) (policyOf r)
                 serials := tput q.serials (fieldAt r 0 1) (fieldAt r 0x40 8) })) 0 [] false)) ∧
    (reqOpcode h = 7 → reqPart fn true h = some p → gives (.resetPartitionRequest fn) p (s.resetPartition p none) 0 [] false) ∧
    (reqOpcode h = 8 → reqPart fn false h = some p → gives (.readManifest fn) p s 0 (s.manifest p) false) ∧
    (reqOpcode h = 9 → reqPart fn false h = some p →
      (n ≠ 32 → free (.attest fn) p) ∧
      (n = 32 → gives (.attest fn) p s 0 (s.report p body ++ identityBlock (asciiOf "LX4-ATST" ++ s.report p body)) false)) ∧
    (reqOpcode h = 10 → reqPart fn false h = some p →
      gives (.debugAttach fn) p (s.modPart p (fun q => { q with debugger := true })) 0 [] false ∧
      (∀ core, core ∉ (s.part p).coreList → refused (.debugHalt fn core) p 0xFFFF ∧ refused (.debugResume fn core) p 0xFFFF ∧
        ∀ x, refused (.debugPreemptContext fn core x) p 0xFFFF ∧ ∀ num, refused (.debugStateRead fn core x num) p 0xFFFF) ∧
      (∀ core, core ∈ (s.part p).coreList →
        (∃ u : State, gives (.debugHalt fn core) p u 0 [] false ∧ (u.core core).halted = true ∧ u.stack = s.stack) ∧
        ((s.part p).frozen = false → ∃ u : State, gives (.debugResume fn core) p u 0 [] false ∧ (u.core core).halted = false ∧
          ∀ x < 4, PreReason.debugger ∉ (u.ctx core x).preReasons ∧ PreReason.coreHalt ∉ (u.ctx core x).preReasons) ∧
        (∀ x < 4, gives (.debugPreemptContext fn core x) p ((s.askPre core x .debugger).preempt core x) 0 [] false) ∧
        (∀ x, 4 ≤ x → refused (.debugPreemptContext fn core x) p 0xFFFF) ∧
        (∀ x < 4, ∀ num < 0x800,
          let noted := (s.ctx core x).recorded num
          let held := s.heldReg core x (s.ctx core x).block num
          (∀ w, (noted = some w ∨ (noted = none ∧ held = some w)) →
            gives (.debugStateRead fn core x num) p s 0 (bytesOf 8 w.toNat) false) ∧
          (noted = none → held = none → refused (.debugStateRead fn core x num) p 0xFFFF)))) ∧
    (reqOpcode h = 11 → reqPart fn false h = some p → ∃ data, gives (.readFaultRegisters fn) p s 0 data false ∧ data.length = 280 ∧
      (∀ k < 17, (data.drop (8 * k)).take 8 = bytesOf 8 ((s.iodReg p (0x80F + k)).getD 0).toNat) ∧
      (∀ k < 18, (data.drop (136 + 8 * k)).take 8 = bytesOf 8 ((s.iodReg p (0x820 + k)).getD 0).toNat)) ∧
    (reqOpcode h = 12 → reqPart fn true h = some p → ∃ sensors, sensors.length = 128 ∧
      gives (.readHarvestMap fn) p { s with freeCount := s.freeCount + 16 } 0
        (bytesOf 8 s.retired.length ++ s.retired.flatMap unitBytes ++ (bytesOf 8 s.failing.length ++ s.failing.flatMap unitBytes) ++ sensors)
        false) ∧
    (let known : Prop := 1 ≤ reqOpcode h ∧ reqOpcode h ≤ 12
     (known → exec (.unlistedMailboxOpcode fn) s = .next s) ∧
     (¬ known → exec (.unlistedMailboxOpcode fn) s = .next (State.respond fn h 0 (s.refuse 0xFFFF))))) ∧
  (∀ (fn : Nat) (s : State), s.submitted fn = none → exec (.unlistedMailboxOpcode fn) s = .next s) ∧
  (∀ (s : State) (p : Nat) (rs : List PteRec), s.pteRefusal p rs = none → ∀ r ∈ rs, pteV r.entry = true →
    leafForm r.level r.entry = true ∧ r.va < 2 ^ 56 ∧ r.va % levelSpan r.level = 0 ∧ (pteMask r.entry).toNat < 2 ^ (s.part p).parties ∧
    s.targetOk p (leafTarget r.level r.entry).1 (leafTarget r.level r.entry).2 = true) ∧
  (∀ (s : State) (p : Nat) (rs : List RangeRec), s.rangeRefusal p rs = none → ∀ r ∈ rs, r.op = 1 →
    let e := rangeOf r.body
    e.formOk = true ∧ e.mask.toNat < 2 ^ (s.part p).parties ∧ s.targetOk p e.target (e.limit - e.base) = true ∧ r.index < 128) ∧
  (∀ (s : State) (p : Nat) (r : List Byte) (blocks : List (List Byte)), s.policyCode p r blocks = 0 →
    let index := fieldAt r 0 1
    let m := (policyOf r).mask
    index < 32 ∧ fieldAt r 1 1 = p ∧ m.toNat < 2 ^ (s.part p).parties ∧
    (∀ n, tfind (s.part p).serials index = some n → n < fieldAt r 0x40 8) ∧
    (∀ b ∈ blocks, blockVerifies b (asciiOf "LX4-RPOL" ++ r) = true) ∧
    (∀ k < 16, m.getLsbD k = true → ∃ b ∈ blocks, ∃ d, (s.part p).desc = some d ∧ d.partyKeys[k]? = some (keyDigest b))) ∧
  (∀ (s : State) (p : Nat) (d : Desc), (s.part p).desc = some d →
    let es := (s.part p).launches.filter (fun l => !l.cores.isEmpty)
    let m := s.manifest p
    let at_ (off n : Nat) : List Byte := (m.drop off).take n
    m.length = 128 + 128 * es.length ∧ at_ 0 4 = asciiOf "LX4M" ∧ at_ 4 2 = bytesOf 2 1 ∧ at_ 6 1 = bytesOf 1 p ∧
    at_ 7 1 = bytesOf 1 es.length ∧ at_ 8 8 = bytesOf 8 (s.part p).seq.toNat ∧ at_ 16 32 = digestBytes (sha3 d.raw) ∧
    at_ 48 32 = digestBytes Config.conversionDigest ∧ at_ 80 32 = digestBytes Config.firmwareDigest ∧ at_ 112 16 = bytesOf 16 0 ∧
    ∀ i l, es[i]? = some l → let e := 128 + 128 * i
      at_ e 8 = bytesOf 8 l.num ∧ at_ (e + 8) 32 = digestBytes (l.imgDigest.getD 0) ∧ at_ (e + 40) 32 = digestBytes l.microDigest ∧
      at_ (e + 72) 8 = bytesOf 8 l.pkt.seed.toNat ∧ at_ (e + 80) 8 = bytesOf 8 l.base.toNat ∧
      at_ (e + 88) 1 = bytesOf 1 l.pkt.mode.toNat ∧ at_ (e + 89) 1 = [1] ∧ at_ (e + 90) 1 = bytesOf 1 l.cores.length ∧
      at_ (e + 91) 1 = bytesOf 1 l.pkt.perCore ∧ at_ (e + 92) 4 = bytesOf 4 l.mloads ∧
      at_ (e + 96) 8 = bytesOf 8 (l.cores.foldl (fun a c => a + 2 ^ c) 0) ∧ at_ (e + 104) 24 = bytesOf 24 0) ∧
  (∀ (fn : Nat) (s : State),
    ((s.func fn).response = none → exec (.mailboxResponse fn) s = .next s) ∧
    (∀ r, (s.func fn).response = some r →
      let up : Prop := s.linkUp (s.linkOf fn) = true
      let waits : Prop := ∃ id, r.after = some id ∧ s.openBefore r.part id = true
      ((¬ up ∨ waits) → exec (.mailboxResponse fn) s = .next s) ∧
      (up → ¬ waits → s.memWf = true → r.addr + (16 + r.data.length) ≤ 2 ^ 64 →
        ∃ t : State, exec (.mailboxResponse fn) s = .next t ∧ (t.func fn).busy = false ∧ (t.func fn).response = none ∧
          t.hostGet (s.linkOf fn) r.addr (16 + r.data.length) = bytesOf 2 r.code ++ bytesOf 6 0 ++ bytesOf 8 r.data.length ++ r.data ∧
          t.cores = s.cores ∧ (r.egress = none → t.parts = s.parts) ∧ (∀ k, k ≠ r.part → t.part k = s.part k) ∧
          (∀ slot, r.egress = some (slot, none) → t.part r.part = { s.part r.part with egress := terase (s.part r.part).egress slot }) ∧
          (∀ slot e, r.egress = some (slot, some e) →
            t.part r.part = { s.part r.part with egress := tput (s.part r.part).egress slot e }))))

/-! ## Events: resets, links, power and errors -/

/-- R98, R104, R123, R130, R436, R437 and R445 to R449.
What no rule states outright is the model's: notes/assumptions entries 4, 53, 55, 75 and 90 (what counts as drained). -/
def Obligations.ModuleEvents : Prop :=
  (∀ (s : State) (p : Nat) (d : Desc) (new : Option Desc), (s.part p).desc = some d →
    let t := s.resetPartition p new
    let old := s.part p
    let q := t.part p
    let u := new.getD d
    let out := s.failing.filter (fun x => d.holds x || ((new.map (·.holds x)).getD false))
    let mine (c : Nat) : Prop := d.quads.getLsbD (c / 4) = true ∨ u.quads.getLsbD (c / 4) = true
    t.retired = (if out = [] then s.retired else closeUnits (s.retired ++ out)) ∧ t.failing = s.failing.filter (fun x => !out.contains x) ∧
    q.desc = some (if out = [] then u else { u with quads := keepBits u.quads (fun i => !t.quadRetired i),
                                                    ports := keepBits u.ports (fun i => !t.portRetired i) }) ∧
    q.leaves = old.leaves.filter (fun l => t.assigned p (leafTarget l.level l.entry).1 (leafTarget l.level l.entry).2) ∧
    q.ranges = old.ranges.filter (fun e => t.assigned p e.2.target (e.2.limit - e.2.base)) ∧
    q.launches = [] ∧ q.retireOrder = [] ∧
    q.egress = old.egress ∧ q.pubwins = old.pubwins ∧ q.policies = old.policies ∧ (new = none → q.serials = old.serials) ∧
    (new ≠ none → q.serials = []) ∧ q.step = (if s.hot (some u) = true then 0 else u.ceiling) ∧
    (∀ c, mine c → c < 64 → t.core c = Core.reset) ∧
    (∀ r ∈ t.reads, ¬ mine r.core) ∧ (∀ a ∈ t.atoms, ¬ mine a.core) ∧
    (∀ w ∈ t.writes, mine w.core → w.performed = true ∧ w.acked = true) ∧ (t.func (fnOf p)).fstat = 0 ∧
    (out = [] → ∀ k, k ≠ p → t.part k = s.part k)) ∧
  (∀ (fn : Nat) (s : State),
    (fn = 0 ∨ 16 < fn → exec (.functionLevelReset fn) s = .next s) ∧
    (1 ≤ fn → fn ≤ 16 → exec (.functionLevelReset fn) s = .next (s.resetPartition (fn - 1) none))) ∧
  (∀ (failed : List UnitName) (s : State), ∃ t : State, exec (.moduleReset failed) s = .next t ∧
    t.parts = [] ∧ t.cores = [] ∧ t.queues = [] ∧ t.funcs = [] ∧ t.reads = [] ∧ t.writes = [] ∧ t.atoms = [] ∧
    t.host0 = s.host0 ∧ t.host1 = s.host1 ∧ t.peers = s.peers ∧ t.stack = s.stack ∧
    (Config.exciaVerifies = true → t.dead = false ∧ t.retired = closeUnits (s.retired ++ s.failing ++ failed)) ∧
    (Config.exciaVerifies = false → t.dead = true ∧ t.linkUp0 = false ∧ t.linkUp1 = false)) ∧
  (∀ (s : State) (p : Nat) (d : Desc) (new : Option Desc), (s.part p).desc = some d → let t := s.resetPartition p new
    (s.meshPause = true → t.meshPause = true ∧ t.meshMark = s.meshMark ∧ t.meshHeld = s.meshHeld) ∧
    (s.meshPause = false → (t.meshPause = true ↔ linksLeft t.retired ≠ linksLeft s.retired) ∧
      (t.meshPause = true → t.meshMark = t.nextId ∧
        (∀ r ∈ t.reads, (t.walking r.id = true ∨ t.behind r = true) → r.id ∈ t.meshHeld) ∧
        (∀ w ∈ t.writes, t.walking w.id = true → w.sent ∈ t.meshHeld) ∧ ∀ a ∈ t.atoms, t.walking a.id = true → a.id ∈ t.meshHeld))) ∧
  (∀ (s : State) (id : Nat), s.notInjected id = true ↔ s.meshPause = true ∧ (s.meshMark ≤ id ∨ id ∈ s.meshHeld)) ∧
  (∀ s : State, let on (id : Nat) : Prop := s.notInjected id = false
    let seen (core : Nat) (c : Clock) : Prop := (s.die (dieOf core)).clk.covers c = true
    /- What has been injected and can still move: to its home or to a die, at its engine, or back to its core. -/
    let reads : Prop := ∃ r ∈ s.reads, on r.id ∧ overMesh r.core r.pas = true ∧
      ((∃ v, r.reply = some v ∧ seen r.core r.rclk) ∨ (r.reply = none ∧ match r.kind with
        | .sysr _ => True
        | .fe _ => ∃ c, r.pas.head?.bind sliceOf = some c ∧ s.feArrives r c = true
        | .mem => s.readable r = true))
    let writes : Prop := ∃ w ∈ s.writes, on w.sent ∧ ((∃ d < 4, s.applicable d w = true) ∨
      (overMesh w.core w.pas = true ∧ (s.canPerform w = true ∨ (w.performed = true ∧ w.acked = false))))
    let atoms : Prop := ∃ a ∈ s.atoms, a.station = 9 ∧ on a.id ∧ (a.stage = .replied ∨ (a.stage = .applied ∧ seen a.core a.clk) ∨
      (a.stage = .sent ∧ if a.id ∈ (s.engine a.engine).inq then s.readyAt a.engine (s.arrivedAt a.engine) a = true
        else s.mayArrive a = true ∧ a ∈ oldestEach (s.comingTo a.engine)))
    let walks : Prop := ∃ d ∈ s.dies, ∃ m ∈ d.2.misses, m.2.started = true
    let halos : Prop := ∃ k ∈ s.cores, ∃ c ∈ k.2.calls, ∃ b ∈ c.inboxes, b.st = .granted ∧ (s.core k.1).arrivesAfter b = false ∧ seen k.1 b.clk
    let moves : Prop := reads ∨ writes ∨ atoms ∨ walks ∨ halos
    (¬ moves → exec .meshRoutesInstalled s = .next { s with meshPause := false, meshHeld := [] }) ∧
    (moves → exec .meshRoutesInstalled s = .next s)) ∧
  (∀ (s : State) (p : Nat), let t := s.pruned p
    (∀ c e, e ∈ tget [] t.fronts c ↔ e ∈ tget [] s.fronts c ∧ (e.part = p → (t.part p).gives e = true)) ∧
    (∀ d e, e ∈ (t.die d).store ↔ e ∈ (s.die d).store ∧ (e.part = p → (t.part p).gives e = true)) ∧
    (t.part p).leaves = (s.part p).leaves.filter (fun l => s.assigned p (leafTarget l.level l.entry).1 (leafTarget l.level l.entry).2) ∧
    (t.part p).ranges = (s.part p).ranges.filter (fun e => s.assigned p e.2.target (e.2.limit - e.2.base)) ∧ t.cores = s.cores) ∧
  (∀ (link : Nat) (drop : Bool) (s : State),
    let uses (r : Region) : Bool := match r with
      | .host l _ => l == link
      | _ => false
    (2 ≤ link → exec (.linkRetrainOrDrop link drop) s = .next s) ∧
    (link < 2 → ∃ t : State, exec (.linkRetrainOrDrop link drop) s = .next t ∧ t.linkUp link = !drop) ∧
    (link < 2 → exec (.linkRetrainOrDrop link drop) s =
      .next ((failCopies (s.copiesIn uses) (s.setLink link false)).setLink link (!drop)))) ∧
  (∀ (port : Nat) (s : State),
    let uses (r : Region) : Bool := match r with
      | .peer j _ => j == port
      | _ => false
    (12 ≤ port → exec (.peerPortTrained port) s = .next s) ∧
    (port < 12 → ∃ t : State, exec (.peerPortTrained port) s = .next t ∧ tget false t.peerUp port = true ∧
      (∀ k, k ≠ port → tget false t.peerUp k = tget false s.peerUp k) ∧ t.cores = s.cores ∧ t.parts = s.parts) ∧
    (tsortedFrom 0 s.peerUp = true → ∃ u : State, exec (.peerPortTrainingLoss port) s = .next (failCopies (s.copiesIn uses) u) ∧
      tget false u.peerUp port = false ∧ (∀ k, k ≠ port → tget false u.peerUp k = tget false s.peerUp k) ∧ u.cores = s.cores ∧
      u.parts = s.parts)) ∧
  (∀ (s : State) (uses : Region → Bool) (core ctx : Nat) (e : CopyEntry), e ∈ (s.ctx core ctx).copyq → e.stage = .running →
    let meets (side : Bool) : Prop := ∃ a ∈ s.nextElement core e side, uses (regionOf a) = true
    (meets false → (core, ctx, e.uid, false) ∈ s.copiesIn uses) ∧
    (¬ meets false → meets true → (core, ctx, e.uid, true) ∈ s.copiesIn uses)) ∧
  (∀ (s : State) (es : List (Nat × Nat × Nat × Bool)) (core ctx uid : Nat) (side : Bool) (e : CopyEntry),
    (s.ctx core ctx).entry uid = some e → e.stage = .running → e.failing = none → e.k < e.count →
    let at_ := s.errorAt core e side
    failCopies [] s = s ∧
    (s.entryOpen core ctx uid = false →
      failCopies ((core, ctx, uid, side) :: es) s = failCopies es (s.failEntry core ctx e .uncorrectable at_.1 at_.2)) ∧
    (s.entryOpen core ctx uid = true → failCopies ((core, ctx, uid, side) :: es) s =
      failCopies es (s.modEntry core ctx uid (fun e => e.struckBy .uncorrectable side)))) ∧
  (∀ (mws : List Nat) (s : State),
    let power := (mws.sum :: s.power).take 20
    exec (.powerWindowEnd mws) s = .next { s with
      power := power, parts := s.parts.map (fun (e : Nat × Part) => (e.1, e.2.window ((mws[e.1]?).getD 0) (s.hot e.2.desc) power)) }) ∧
  (∀ (p : Part) (d : Desc) (mw : Nat) (hot : Bool) (ws : List Nat), p.desc = some d →
    let f := p.nextStep.getD p.step
    let q := p.window mw hot ws
    let own := if 1000 * d.cap < mw then f - 1
      else if 10 * mw < 9000 * d.cap ∧ f < d.ceiling ∧ ws.sum < 3000000 * ws.length ∧ hot = false then f + 1 else f
    let g := if 3200000 * ws.length < ws.sum then own - 1 else own
    q.nextStep.getD q.step = g ∧ q.step = p.step ∧ q.launches = p.launches ∧
    (q.caplow = true ↔ 1000 * d.cap < mw ∧ (p.caplow = true ∨ f = 0))) ∧
  (∀ (part : Nat) (s : State),
    ((s.part part).nextStep = none → exec (.frequencyChange part) s = .next s) ∧
    (∀ f, (s.part part).nextStep = some f →
      exec (.frequencyChange part) s = .next (s.modPart part (fun p => { p with step := f, nextStep := none })))) ∧
  (∀ (island : Nat) (s : State), 16 ≤ island → exec (.islandOvertemp island) s = .next s) ∧
  (∀ (island : Nat) (s : State), island < 16 → ∃ t : State, exec (.islandOvertemp island) s = .next t ∧ t.cores = s.cores ∧
    (∀ i, i ∈ t.hotIslands ↔ i ∈ s.hotIslands ∨ i = island) ∧
    ∀ k, ((s.part k).quadList.contains island = true → (t.part k).nextStep.getD (t.part k).step = 0) ∧
      ((s.part k).quadList.contains island = false → t.part k = s.part k)) ∧
  (∀ (s : State) (d : Desc), s.hot (some d) = true ↔ ∃ i ∈ s.hotIslands, d.quads.getLsbD i = true) ∧
  (∀ (part : Nat) (s : State), ∃ t : State, exec (.islandCooled part) s = .next t ∧ t = { s with hotIslands := t.hotIslands } ∧
    ∀ i, i ∈ t.hotIslands ↔ i ∈ s.hotIslands ∧ ¬ ((part < 16 ∧ i ∈ (s.part part).quadList) ∨
      (part = 16 + i ∧ ∀ e ∈ s.parts, i ∉ (s.part e.1).quadList))) ∧
  (∀ s : State, ∃ t : State, exec .thermalTrip s = .next t ∧ t.linkUp0 = false ∧ t.linkUp1 = false ∧
    ∀ p, (t.part p).launches = []) ∧
  (∀ (u : UnitName) (s : State), ∃ t : State, exec (.correctableError u) s = .next t ∧
    let count (es : List (UnitName × Nat)) : Nat := ((es.find? (fun e => e.1 == u)).map (·.2)).getD 0
    count t.errors = count s.errors + 1 ∧
    (15 ≤ count s.errors → u ∉ s.retired → u ∈ t.failing) ∧
    (∀ v, v ≠ u → (v ∈ t.failing ↔ v ∈ s.failing)) ∧ t.cores = s.cores ∧ t.parts = s.parts) ∧
  (∀ s : State,
    (s.frame.toNat % 2 ^ 30 = 0 → exec .errorWindowEnd s = .next { s with errors := [] }) ∧
    (s.frame.toNat % 2 ^ 30 ≠ 0 → exec .errorWindowEnd s = .next s))

/-! ## Encodings -/

/-- R131 to R133, R138, R144, R145, R157 and R158. No bit of an encoding is dropped, and none is free. -/
def Obligations.DecodeAndEncodeAgree : Prop :=
  (∀ i, Laws.RoundTrip.Statement i) ∧
  (∀ (k : Nat) (w : BitVec 32) (i : Instr), k < 4 → decodeSlot k w = .ok i →
    encode i = some w ∧ i.wf = true ∧ i.inSlot k = true) ∧
  (∀ (w : BitVec 128) (i : Instr), decodeMicro w = .ok i → encodeMicro i = some w ∧ i.wf = true) ∧
  (∀ (v : BitVec 128) (b : Bundle), decodeBundle v = .ok b →
    decodeSlot 1 (bundleSlot v 1) = .ok b.op1 ∧ decodeSlot 2 (bundleSlot v 2) = .ok b.op2 ∧ decodeSlot 3 (bundleSlot v 3) = .ok b.op3 ∧
    b.op1.groups + b.op2.groups ≤ 4 ∧
    (b.hdr = none → ∃ i, b.op0 = some i ∧ decodeSlot 0 (bundleSlot v 0) = .ok i) ∧
    (∀ h, b.hdr = some h → b.op0 = none ∧ bundleSlot v 0 = (0x3F : BitVec 6) ++ h.tgt ++ h.ext ++ h.stamp) ∧
    (∀ k i, (k, i) ∈ [(1, b.op1), (2, b.op2), (3, b.op3)] → i.readsExt = true → ∃ h, b.hdr = some h ∧ h.tgt.toNat = k) ∧
    (∀ h, b.hdr = some h → h.ext ≠ 0 → ∃ k i, (k, i) ∈ [(1, b.op1), (2, b.op2), (3, b.op3)] ∧ h.tgt.toNat = k ∧ i.readsExt = true)) ∧
  (∀ (v : BitVec 128) (i0 i1 i2 i3 : Instr), decodeSlot 0 (bundleSlot v 0) = .ok i0 → decodeSlot 1 (bundleSlot v 1) = .ok i1 →
    decodeSlot 2 (bundleSlot v 2) = .ok i2 → decodeSlot 3 (bundleSlot v 3) = .ok i3 → i1.readsExt = false → i2.readsExt = false →
    i3.readsExt = false → i1.groups + i2.groups ≤ 4 →
    decodeBundle v = .ok { hdr := none, op0 := some i0, op1 := i1, op2 := i2, op3 := i3 })

/-- R131, R133, R136, R139, R141 to R144 and R157: words from the manual's own examples. -/
def Obligations.SpelledWords : Prop :=
  let always : Guard := { g := 0, inv := false }
  decodeBundle 0x0C000700116600140983064408041050#128 = .ok
    { hdr := none, op0 := some (.add { gd := always, w := false, d := 4, a := .reg 4, b := .reg 5 })
      op1 := .vadd { gd := { g := 3, inv := false }, w := false, d := 3, a := .reg 1, b := .port 0, width := .w512, q := .f32 }
      op2 := .vmul { gd := { g := 2, inv := true }, w := true, d := 6, a := .reg 0, b := .reg 1, width := .w512, q := .f32 }
      op3 := .mcall { gd := always, idx := 7 } } ∧
  decodeSlot 1 ((2 : BitVec 6) ++ (3 : BitVec 3) ++ (0 : BitVec 1) ++ (0 : BitVec 1) ++ (3 : BitVec 5) ++ (1 : BitVec 6) ++ (36 : BitVec 6) ++
    (1 : BitVec 2) ++ (0 : BitVec 2)) =
    .ok (.vadd { gd := { g := 3, inv := false }, w := false, d := 3, a := .reg 1, b := .port 0, width := .w512, q := .f32 }) ∧
  decodeBundle 0x0C0002000400000044020BF0FDFFB025#128 = .ok
    { hdr := some { tgt := 1, ext := 0xFFB, stamp := 37 }, op0 := none
      op1 := .viadd { gd := always, w := false, d := 2, a := .reg 2, b := .ext, width := .w256, q := .i32 }
      op2 := .nop { gd := always }, op3 := .mcall { gd := always, idx := 2 } } ∧
  decodeSlot 0 0x9C030A02#32 = .ok (.ld { gd := always, w := false, d := 3, a := .reg 2, size := .b4, off := 2 }) ∧
  decodeSlot 0 0x849FFFFE#32 = .ok (.br { gd := { g := 1, inv := false }, disp := 0x1FFFFE }) ∧
  decodeSlot 0 0xD4040830#32 = .ok (.aadd { gd := always, w := false, d := 4, a := .reg 2, b := .reg 3 }) ∧
  decodeSlot 0 0xCC000183#32 = .ok (.fence { gd := always, scope := .dev, kind := .full }) ∧
  decodeSlot 0 0xF0000700#32 = .ok (.trap { gd := always, code := 7 }) ∧
  decodeSlot 0 0xBC040020#32 = .ok (.sysw { gd := always, d := 4, num := 0x020 }) ∧
  decodeSlot 2 0xC0021003#32 = .ok (.dnorm { gd := always, w := false, d := 2, a := .reg 4, chain := .c2, bf := true }) ∧
  decodeSlot 3 0x2C020401#32 = .ok (.copy { gd := always, md := 2, a := .reg 1, b := .reg 0, fill := true }) ∧
  decodeMicro 0x14000000000000000000006000000051#128 =
    .ok (.inj { n2 := 0, n1 := 0, n0 := 3, f2 := 0, f1 := 0, f0 := 0, s := 1, mode := .spread, xring := 1 }) ∧
  decodeMicro 0x0C000000000000000000000000008120#128 =
    .ok (.slide { stride := 0, popx := true, adv := false, neg := false, dil := 0, axis := .p0, taps := 2, wring := 0 })

/-! ## Steps -/

/-- R131, R132, R137, R160, R161, R168, R169, R171, R174, R175, R288 and R415, with the OVERRUN of R130 and R251 and the module held in
reset of R447. The agenda and the core in focus are the model's (notes/assumptions entry 5), and so are the order in which the slots of a
bundle act and what they see of each other (entries 13 and 14), that an unwritten predicate counts as long false and a write of p0 as a
write (entry 9), the TAINT that a skipped bundle raises (entry 17), that a waiting copy fault overruns every bundle that falls due, the
handler's too (entry 67), and the stall cycles of an MLOAD after its issue (R342 and entry 42). -/
def Obligations.StepRunsDecoded : Prop :=
  (∀ (i : Instr) (ts : List Turn) (s : State), s.dead = false → s.agenda = .event i :: ts → encode i = none → encodeMicro i = none →
    step s = exec i { s with agenda := ts }) ∧
  (∀ (core : Nat) (ts : List Turn) (s : State) (c : Call) (w : BitVec 128) (i : Instr), s.dead = false → s.agenda = .micro core :: ts →
    s.runningCall core = some c → (s.core core).microWord c = some w → decodeMicro w = .ok i →
    step s = exec i (({ s with agenda := ts } : State).focusOn core c.ctx 3 0)) ∧
  (∀ s : State, s.dead = false → s.agenda = [] → (s.core s.focus).owner = none → step s = .next s) ∧
  (∀ (t : Turn) (ts : List Turn) (s : State), s.dead = true → s.agenda = t :: ts →
    ((∀ u, t ≠ .event (.moduleReset u)) → step s = .fault .heldInReset) ∧
    (∀ u, t = .event (.moduleReset u) → step s = exec (.moduleReset u) { s with agenda := ts })) ∧
  (∀ (s : State) (o : Owner),
    let c := s.focus
    let u := four.foldl (fun s x => s.openCtx c x) (s.openCycle c)
    let ends (r : State) : Out := .next (if (r.core c).owner = none then r else r.closeCycle c)
    /- A bundle of context `h` in focus, and its slots one after the other, the slice read as it was before the bundle's writes. -/
    let at_ (a : State) (h : Nat) (b : Bundle) : State :=
      (a.focusOn c h 0 (bundleExt b)).modCtx c h (fun x => x.switched ((a.core c).switch? h))
    let runs (es : List (Nat × Instr)) (a : State) (v : Nat → State) : Prop :=
      v 0 = a ∧ ∀ j n i, es[j]? = some (n, i) →
        ((v (j + 1)).cur.verdict = .issued ∨ j + 1 = es.length ∧ (v (j + 1)).cur.verdict = .struck) ∧
        ((readsSlice i = false ∨ ∀ m < j, ∀ e, es[m]? = some e → writesSlice e.2 = false) →
          exec i ((v j).refocus n) = .next (v (j + 1))) ∧
        (∀ m < j, ∀ e, es[m]? = some e → writesSlice e.2 = true → (∀ l < m, ∀ e, es[l]? = some e → writesSlice e.2 = false) →
          readsSlice i = true → ∃ w, exec i (((v j).refocus n).sliceFrom c ((v m).core c)) = .next w ∧
            v (j + 1) = w.sliceFrom c ((v j).core c))
    let order (es : List (Nat × Instr)) : List (Nat × Instr) :=
      es.filter (fun e => !(e.1 == 0 && actsLast e.2)) ++ es.filter (fun e => e.1 == 0 && actsLast e.2)
    /- What the nullifier skips before the bundle that is tried: all guards false for more than three cycles, no delay slot. -/
    let skip (h : Nat) (a a' : State) : Prop := ∃ (b : Bundle) (v : Nat → State),
      a.fetched c h = .legal b ∧ a.det c = false ∧ liveOps b ≠ [] ∧ (a.ctx c h).nds = 0 ∧ (a.ctx c h).skips < 3 ∧
      (∀ e ∈ liveOps b, (a.ctx c h).holds (guardOf e.2) = false ∧
        ∀ t, tfind (a.ctx c h).predWrite (guardOf e.2).g.toNat = some t → t + 3 < (a.ctx c h).cycle) ∧
      runs (liveOps b) (a.focusOn c h 0 (bundleExt b)) v ∧
      a' = ((v (liveOps b).length).modCtx c h (fun x =>
          { x with pc := x.pc + 16, skips := x.skips + 1, taint := x.taint ||| x.taintNext, taintNext := 0 })).modCore c
        (fun k => { k with skip := k.skip + 1 })
    let free (a : State) (h : Nat) : Prop := (a.ctx c h).st = .running ∧ (a.ctx c h).strikes = none ∧
      ((a.ctx c h).asyncQ = [] ∨ (a.ctx c h).inh = true) ∧ (a.ctx c h).wait2 = none
    /- The bundle that context `h` tries in state `a`, after the skips, and the state then. -/
    let tries (a : State) (h : Nat) (a' : State) (b : Bundle) : Prop := free a h ∧
      (∃ (k : Nat) (us : Nat → State), k ≤ 3 ∧ (k = 0 ∨ ((a.core c).last = some h ∧ (a.ctx c h).stall = 0)) ∧ us 0 = a ∧ us k = a' ∧
        ∀ j < k, skip h (us j) (us (j + 1))) ∧
      a'.fetched c h = .legal b ∧
      ((a.core c).last ≠ some h ∨ (a.ctx c h).stall ≠ 0 ∨ (a'.ctx c h).skips? (a'.det c) b = false) ∧
      ((a'.ctx c h).nds = 0 ∨ ∀ e ∈ liveOps b, isBranch e.2 = false)
    let extra (a : State) (b : Bundle) : Nat := bankExtra (((a.imageOf c).map (·.mirrors)).getD []) b
    /- What a slot whose guard is true answers at the boundary: it meets what such slots before it pop and push. -/
    let answers (a : State) (h : Nat) (b : Bundle) (n : Nat) (r : Verdict) : Prop := ∃ i w, (n, i) ∈ liveOps b ∧
      (a.ctx c h).holds (guardOf i) = true ∧
      (let before := (liveOps b).filter (fun e => decide (e.1 < n) && (a.ctx c h).holds (guardOf e.2))
       exec i ((before.foldl (fun t e => t.slotTakes e.2) (at_ a h b)).refocus n) = .next w) ∧ w.cur.verdict = r
    let issues (a : State) (h : Nat) (r : State) : Prop := ∃ (a' : State) (b : Bundle) (v : Nat → State), tries a h a' b ∧
      extra a' b ≤ (a'.ctx c h).stall ∧ (∀ n r, answers a' h b n r → r = .issued ∨ r = .struck) ∧ a'.switchGate c h = .go ∧
      runs (order (liveOps b)) (at_ a' h b) v ∧
      r = (v (liveOps b).length).issued c h (a'.ctx c h).pc (if (a'.ctx c h).bank then (a'.core c).imask1 else (a'.core c).imask0)
    let blocks (a : State) (h n : Nat) (a' : State) : Prop :=
      (((a.ctx c h).st = .frozenTrap ∨ (a.ctx c h).st = .frozenPre) ∧ n = 12 ∧ a' = a) ∨
      ((a.ctx c h).st = .running ∧ (a.ctx c h).strikes = none ∧ ((a.ctx c h).asyncQ = [] ∨ (a.ctx c h).inh = true) ∧ a' = a ∧
        a.det c = false ∧ ∃ w, (a.ctx c h).wait2 = some w ∧ n = w.code) ∨
      (∃ b, tries a h a' b ∧ ((a'.ctx c h).stall = 0 ∨ extra a' b ≤ (a'.ctx c h).stall) ∧ (∃ k, answers a' h b k (.blocked n)) ∧
        ∀ k m, answers a' h b k (.blocked m) → n ≤ m)
    let raises (a : State) (h : Nat) (f : TrapFound) (a' : State) : Prop := f.async = false ∧ f.frame = 0 ∧ ∃ b, tries a h a' b ∧
      ((a'.ctx c h).stall = 0 ∨ extra a' b ≤ (a'.ctx c h).stall) ∧ (∀ k n, ¬ answers a' h b k (.blocked n)) ∧
      (∀ k, f.slots.getLsbD k = true ↔ ∃ z d g, answers a' h b k (.raised z d g)) ∧
      ∃ n, answers a' h b n (.raised f.cause f.code f.addr) ∧ ∀ k z d g, answers a' h b k (.raised z d g) → n ≤ k
    let trapped (a : State) (h : Nat) (f : TrapFound) : State := ((a.takeTrap c h f).afterTrap c h).idle c
    let away (a : State) (h : Nat) : Prop := (a.ctx c h).st ≠ .running ∧ (a.ctx c h).st ≠ .frozenTrap ∧
      (a.ctx c h).st ≠ .frozenPre ∧ ((a.ctx c h).st = .stopped → (a.ctx c h).asyncQ = [] ∨ (a.ctx c h).mayTake = false)
    s.dead = false → s.agenda = [] → (s.core c).owner = some o → ((s.openCycle c).core c).halted = false →
    ((u.core c).mload ≠ none → step s = .next ((u.modCore c (fun k => { k with bankstall := k.bankstall + 1 })).closeCycle c)) ∧
    ((u.core c).mload = none → u.det c = false → (u.core c).slotSpent = false →
      (∀ h, (u.core c).holder = some h →
        (∀ r, issues u h r → step s = ends r) ∧
        (∀ n a, blocks u h n a → step s = ends (((a.noteBlock c h n).yieldSlot c h).idle c)) ∧
        (∀ f a, raises u h f a → step s = ends (trapped a h f)) ∧
        (∀ b, free u h → u.fetched c h = .illegal b →
          step s = ends (trapped u h { cause := .illegal, code := 0, addr := 0, slots := b, async := false, frame := 0 })) ∧
        ((u.ctx c h).st = .running → (u.ctx c h).strikes ≠ none →
          step s = ends (((u.takeStrike c h).afterTrap c h).idle c)) ∧
        ((u.ctx c h).st = .running → (u.ctx c h).strikes = none → (u.ctx c h).asyncQ ≠ [] → (u.ctx c h).inh = false →
          step s = ends (((u.takeAsync c h).afterTrap c h).idle c)))) ∧
    ((u.core c).mload = none → u.det c = false → (u.core c).slotSpent = false → ∀ (f m : Nat) (w : Nat → State),
      ((∃ h, (u.core c).holder = some h ∧ away u h ∧ f = h ∧ w 0 = u.yieldSlot c h) ∨
        ((u.core c).holder = none ∧ f = (u.core c).from_ ∧ w 0 = u)) →
      (∀ j < m, (away (w j) ((f + 1 + j) % 4) ∧ w (j + 1) = w j) ∨
        ∃ n a, blocks (w j) ((f + 1 + j) % 4) n a ∧ w (j + 1) = a.noteBlock c ((f + 1 + j) % 4) n) →
      (m = 4 → step s = ends ((w 4).idle c)) ∧
      (m < 4 → (∀ r, issues (w m) ((f + 1 + m) % 4) r → step s = ends r) ∧
        (∀ g a, raises (w m) ((f + 1 + m) % 4) g a → step s = ends (trapped a ((f + 1 + m) % 4) g)))) ∧
    ((u.core c).mload = none → u.det c = true →
      let d := u.modCore c (fun k => { k with slotSpent := false })
      let rests (a : State) (x : Nat) : Prop := a.dueNow c x = false ∧
        ((a.ctx c x).st = .running → (a.ctx c x).strikes = none) ∧ ((a.ctx c x).st = .stopped → (a.ctx c x).asyncQ = [] ∨ (a.ctx c x).mayTake = false)
      ∀ h < 4, d.dueNow c h = true → free d h → (∀ x < h, rests d x) →
        (∀ r, d.meshPause = false → d.onTime c h = true → (d.ctx c h).copyFaultWaits = false → issues d h r →
          (∀ x < 4, h < x → rests r x) → step s = ends r) ∧
        ((d.meshPause = true ∨ d.onTime c h = false ∨ (d.ctx c h).copyFaultWaits = true) →
          let r := d.takeTrap c h { cause := .overrun, code := 0, addr := 0, slots := 0, async := false, frame := 0 }
          (∀ x < 4, h < x → rests r x ∧ rests (r.idle c) x) → step s = ends (r.idle c))))

/-! ## Invariants -/

/-- The canonical form is the model's (notes/assumptions entry 10); the memories are those of R104, R105 and R232. -/
def Obligations.EveryStepKeepsMemoryCanonical : Prop :=
  ∀ s t : State, s.memWf = true → step s = .next t → t.memWf = true

/-- R284, R286 to R289, R310 and R401. The canonical form of the tables is the model's: notes/assumptions entry 10. -/
def Obligations.EveryStepKeepsStores : Prop :=
  ∀ s t : State, s.storesWf = true → step s = .next t → t.storesWf = true

/-- R55, R84, R93 and R447 for what they state; the values of registers before a placement, and that the links are up and no unit
has failed, are the model's (notes/assumptions entry 11), and so is what an unwritten byte reads as (entry 10). -/
def Obligations.ResetState : Prop :=
  let s := State.reset
  s.memWf = true ∧ s.storesWf = true ∧ s.dead = false ∧ s.linkUp0 = true ∧ s.linkUp1 = true ∧ s.retired = [] ∧ s.reads = [] ∧
  s.writes = [] ∧ s.atoms = [] ∧ (∀ p, (s.part p).desc = none ∧ (s.part p).launches = []) ∧ (∀ c, (s.core c).owner = none) ∧
  (∀ q, (s.queue q).st = .disabled ∧ (s.queue q).enable = false) ∧ (∀ f, (s.func f).fstat = 0 ∧ (s.func f).request = none) ∧
  (∀ pa, s.peek pa = 0) ∧ (∀ c x n, ((s.ctx c x).sreg n).val = 0 ∧ ((s.ctx c x).sreg n).mask = 0)
end

