-- ==== Sys2Proof/Laws/Table.lean ====
section
/-! SUPPORT. Laws of tables: what a table holds after a change, and that every change keeps the keys rising and no default
listed. -/

namespace Sys2Proof.Machine

@[simp] theorem tget_tput {α : Type} (d : α) (t : Table α) (n m : Nat) (x : α) :
    tget d (tput t n x) m = if m = n then x else tget d t m := by
  induction t with
  | nil => simp [tput, tget]
  | cons e t ih =>
    obtain ⟨k, v⟩ := e
    simp only [tput]
    split_ifs <;> simp_all [tget]

theorem tfind_tput {α : Type} (t : Table α) (n m : Nat) (x : α) :
    tfind (tput t n x) m = if m = n then some x else tfind t m := by
  induction t with
  | nil => simp [tput, tfind]
  | cons e t ih =>
    obtain ⟨k, v⟩ := e
    simp only [tput]
    split_ifs <;> simp_all [tfind]

@[simp] theorem tget_tmod {α : Type} (d : α) (t : Table α) (n m : Nat) (f : α → α) :
    tget d (tmod d t n f) m = if m = n then f (tget d t n) else tget d t m := by
  simp [tmod]

theorem tsortedFrom_mono {α : Type} {lo lo' : Nat} (h : lo' ≤ lo) (t : Table α) (ht : tsortedFrom lo t = true) :
    tsortedFrom lo' t = true := by
  cases t with
  | nil => rfl
  | cons e t => simp_all [tsortedFrom]; omega

theorem tsorted_tput {α : Type} (t : Table α) (lo n : Nat) (x : α) (ht : tsortedFrom lo t = true) (hn : lo ≤ n) :
    tsortedFrom lo (tput t n x) = true := by
  induction t generalizing lo with
  | nil => simp [tput, tsortedFrom, hn]
  | cons e t ih =>
    obtain ⟨k, v⟩ := e
    simp only [tsortedFrom, Bool.and_eq_true, decide_eq_true_eq] at ht
    simp only [tput]
    split_ifs with h1 h2
    · simp only [tsortedFrom, Bool.and_eq_true, decide_eq_true_eq]; exact ⟨hn, by omega, ht.2⟩
    · simp only [tsortedFrom, Bool.and_eq_true, decide_eq_true_eq]; exact ⟨hn, h2 ▸ ht.2⟩
    · simp only [tsortedFrom, Bool.and_eq_true, decide_eq_true_eq]; exact ⟨ht.1, ih (k + 1) ht.2 (by omega)⟩

theorem tsorted_terase {α : Type} (t : Table α) (lo n : Nat) (ht : tsortedFrom lo t = true) :
    tsortedFrom lo (terase t n) = true := by
  induction t generalizing lo with
  | nil => rfl
  | cons e t ih =>
    obtain ⟨k, v⟩ := e
    simp only [tsortedFrom, Bool.and_eq_true, decide_eq_true_eq] at ht
    simp only [terase]
    split_ifs with h
    · exact tsortedFrom_mono (by omega) t ht.2
    · simp only [tsortedFrom, Bool.and_eq_true, decide_eq_true_eq]; exact ⟨ht.1, ih (k + 1) ht.2⟩

theorem tget_below {α : Type} (d : α) (t : Table α) (lo n : Nat) (ht : tsortedFrom lo t = true) (hn : n < lo) :
    tget d t n = d := by
  induction t generalizing lo with
  | nil => rfl
  | cons e t ih =>
    obtain ⟨k, v⟩ := e
    simp only [tsortedFrom, Bool.and_eq_true, decide_eq_true_eq] at ht
    simp only [tget, if_neg (show ¬ n = k by omega)]
    exact ih (k + 1) ht.2 (by omega)

theorem tget_terase {α : Type} (d : α) (t : Table α) (lo n m : Nat) (ht : tsortedFrom lo t = true) :
    tget d (terase t n) m = if m = n then d else tget d t m := by
  induction t generalizing lo with
  | nil => simp [terase, tget]
  | cons e t ih =>
    obtain ⟨k, v⟩ := e
    simp only [tsortedFrom, Bool.and_eq_true, decide_eq_true_eq] at ht
    simp only [terase]
    split_ifs with h1 h2 h2
    · subst h1; subst h2; exact tget_below d t _ _ ht.2 (by omega)
    · simp only [tget]; rw [if_neg (by omega)]
    · subst h2; simp only [tget, if_neg h1]; rw [ih _ ht.2]; simp
    · simp only [tget]; rw [ih _ ht.2]; simp [h2]

theorem mem_tput {α : Type} (t : Table α) (n : Nat) (x : α) (e : Nat × α) (h : e ∈ tput t n x) : e = (n, x) ∨ e ∈ t := by
  induction t with
  | nil => simpa [tput] using h
  | cons f t ih =>
    obtain ⟨k, v⟩ := f
    simp only [tput] at h
    split_ifs at h <;> simp_all <;> grind

theorem mem_terase {α : Type} (t : Table α) (n : Nat) (e : Nat × α) (h : e ∈ terase t n) : e ∈ t := by
  induction t with
  | nil => simp [terase] at h
  | cons f t ih =>
    obtain ⟨k, v⟩ := f
    simp only [terase] at h
    split_ifs at h <;> simp_all <;> grind

/-- The canonical form, spelt out. -/
theorem twf_iff {α : Type} [DecidableEq α] (d : α) (t : Table α) :
    twf d t = true ↔ tsortedFrom 0 t = true ∧ ∀ e ∈ t, e.2 ≠ d := by
  simp [twf, List.all_eq_true]

/-- A write in canonical form keeps the canonical form. -/
theorem twf_tset {α : Type} [DecidableEq α] (d : α) (t : Table α) (n : Nat) (x : α) (h : twf d t = true) :
    twf d (tset d t n x) = true := by
  rw [twf_iff] at h ⊢
  unfold tset
  split_ifs with hx
  · exact ⟨tsorted_terase t 0 n h.1, fun e he => h.2 e (mem_terase t n e he)⟩
  · refine ⟨tsorted_tput t 0 n x h.1 (Nat.zero_le n), fun e he => ?_⟩
    rcases mem_tput t n x e he with rfl | he
    · exact hx
    · exact h.2 e he

/-- Reading after a write in canonical form. -/
theorem tget_tset {α : Type} [DecidableEq α] (d : α) (t : Table α) (n m : Nat) (x : α) (h : twf d t = true) :
    tget d (tset d t n x) m = if m = n then x else tget d t m := by
  unfold tset
  split_ifs with hx hm hm
  · rw [tget_terase d t 0 n m ((twf_iff d t).1 h).1, if_pos hm, hx]
  · rw [tget_terase d t 0 n m ((twf_iff d t).1 h).1, if_neg hm]
  · rw [tget_tput, if_pos hm]
  · rw [tget_tput, if_neg hm]

theorem twf_nil {α : Type} [DecidableEq α] (d : α) : twf d ([] : Table α) = true := rfl

theorem tsorted_filter {α : Type} (p : Nat × α → Bool) (t : Table α) (lo : Nat) (h : tsortedFrom lo t = true) :
    tsortedFrom lo (t.filter p) = true := by
  induction t generalizing lo with
  | nil => rfl
  | cons e t ih =>
    obtain ⟨k, v⟩ := e
    simp only [tsortedFrom, Bool.and_eq_true, decide_eq_true_eq] at h
    simp only [List.filter]
    split
    · simp only [tsortedFrom, Bool.and_eq_true, decide_eq_true_eq]; exact ⟨h.1, ih _ h.2⟩
    · exact tsortedFrom_mono (by omega) _ (ih _ h.2)

/-- A part of a canonical table is canonical. -/
theorem twf_filter {α : Type} [DecidableEq α] (d : α) (p : Nat × α → Bool) (t : Table α) (h : twf d t = true) :
    twf d (t.filter p) = true := by
  rw [twf_iff] at h ⊢
  exact ⟨tsorted_filter p t 0 h.1, fun e he => h.2 e (List.mem_filter.1 he).1⟩

end Sys2Proof.Machine
end

