-- ==== Sys2Proof/Laws/State.lean ====
section
/-! SUPPORT. What each update of the state leaves alone: one law per field per update, and what the accessors read after
it. -/

set_option Elab.async false

namespace Sys2Proof.Machine

variable (s : State)

/-! ## modCore -/

@[simp] theorem State.modCore_dead (c : Nat) (f : Core → Core) : (s.modCore c f).dead = s.dead := rfl
@[simp] theorem State.modCore_agenda (c : Nat) (f : Core → Core) : (s.modCore c f).agenda = s.agenda := rfl
@[simp] theorem State.modCore_focus (c : Nat) (f : Core → Core) : (s.modCore c f).focus = s.focus := rfl
@[simp] theorem State.modCore_cur (c : Nat) (f : Core → Core) : (s.modCore c f).cur = s.cur := rfl
@[simp] theorem State.modCore_freeCount (c : Nat) (f : Core → Core) : (s.modCore c f).freeCount = s.freeCount := rfl
@[simp] theorem State.modCore_nextId (c : Nat) (f : Core → Core) : (s.modCore c f).nextId = s.nextId := rfl
@[simp] theorem State.modCore_dies (c : Nat) (f : Core → Core) : (s.modCore c f).dies = s.dies := rfl
@[simp] theorem State.modCore_engines (c : Nat) (f : Core → Core) : (s.modCore c f).engines = s.engines := rfl
@[simp] theorem State.modCore_fronts (c : Nat) (f : Core → Core) : (s.modCore c f).fronts = s.fronts := rfl
@[simp] theorem State.modCore_slotTables (c : Nat) (f : Core → Core) : (s.modCore c f).slotTables = s.slotTables := rfl
@[simp] theorem State.modCore_cells (c : Nat) (f : Core → Core) : (s.modCore c f).cells = s.cells := rfl
@[simp] theorem State.modCore_reads (c : Nat) (f : Core → Core) : (s.modCore c f).reads = s.reads := rfl
@[simp] theorem State.modCore_writes (c : Nat) (f : Core → Core) : (s.modCore c f).writes = s.writes := rfl
@[simp] theorem State.modCore_atoms (c : Nat) (f : Core → Core) : (s.modCore c f).atoms = s.atoms := rfl
@[simp] theorem State.modCore_stack (c : Nat) (f : Core → Core) : (s.modCore c f).stack = s.stack := rfl
@[simp] theorem State.modCore_host0 (c : Nat) (f : Core → Core) : (s.modCore c f).host0 = s.host0 := rfl
@[simp] theorem State.modCore_host1 (c : Nat) (f : Core → Core) : (s.modCore c f).host1 = s.host1 := rfl
@[simp] theorem State.modCore_peers (c : Nat) (f : Core → Core) : (s.modCore c f).peers = s.peers := rfl
@[simp] theorem State.modCore_peerUp (c : Nat) (f : Core → Core) : (s.modCore c f).peerUp = s.peerUp := rfl
@[simp] theorem State.modCore_linkUp0 (c : Nat) (f : Core → Core) : (s.modCore c f).linkUp0 = s.linkUp0 := rfl
@[simp] theorem State.modCore_linkUp1 (c : Nat) (f : Core → Core) : (s.modCore c f).linkUp1 = s.linkUp1 := rfl
@[simp] theorem State.modCore_parts (c : Nat) (f : Core → Core) : (s.modCore c f).parts = s.parts := rfl
@[simp] theorem State.modCore_funcs (c : Nat) (f : Core → Core) : (s.modCore c f).funcs = s.funcs := rfl
@[simp] theorem State.modCore_queues (c : Nat) (f : Core → Core) : (s.modCore c f).queues = s.queues := rfl
@[simp] theorem State.modCore_slots (c : Nat) (f : Core → Core) : (s.modCore c f).slots = s.slots := rfl
@[simp] theorem State.modCore_mapCount (c : Nat) (f : Core → Core) : (s.modCore c f).mapCount = s.mapCount := rfl
@[simp] theorem State.modCore_groups (c : Nat) (f : Core → Core) : (s.modCore c f).groups = s.groups := rfl
@[simp] theorem State.modCore_groupReqs (c : Nat) (f : Core → Core) : (s.modCore c f).groupReqs = s.groupReqs := rfl
@[simp] theorem State.modCore_vsyncReqs (c : Nat) (f : Core → Core) : (s.modCore c f).vsyncReqs = s.vsyncReqs := rfl
@[simp] theorem State.modCore_devStamp (c : Nat) (f : Core → Core) : (s.modCore c f).devStamp = s.devStamp := rfl
@[simp] theorem State.modCore_gate (c : Nat) (f : Core → Core) : (s.modCore c f).gate = s.gate := rfl
@[simp] theorem State.modCore_snaps (c : Nat) (f : Core → Core) : (s.modCore c f).snaps = s.snaps := rfl
@[simp] theorem State.modCore_frame (c : Nat) (f : Core → Core) : (s.modCore c f).frame = s.frame := rfl
@[simp] theorem State.modCore_retired (c : Nat) (f : Core → Core) : (s.modCore c f).retired = s.retired := rfl
@[simp] theorem State.modCore_failing (c : Nat) (f : Core → Core) : (s.modCore c f).failing = s.failing := rfl
@[simp] theorem State.modCore_errors (c : Nat) (f : Core → Core) : (s.modCore c f).errors = s.errors := rfl
@[simp] theorem State.modCore_power (c : Nat) (f : Core → Core) : (s.modCore c f).power = s.power := rfl
@[simp] theorem State.modCore_meshPause (c : Nat) (f : Core → Core) : (s.modCore c f).meshPause = s.meshPause := rfl
@[simp] theorem State.modCore_msix (c : Nat) (f : Core → Core) : (s.modCore c f).msix = s.msix := rfl
@[simp] theorem State.modCore_hotIslands (c : Nat) (f : Core → Core) : (s.modCore c f).hotIslands = s.hotIslands := rfl
@[simp] theorem State.modCore_meshMark (c : Nat) (f : Core → Core) : (s.modCore c f).meshMark = s.meshMark := rfl
@[simp] theorem State.modCore_meshHeld (c : Nat) (f : Core → Core) : (s.modCore c f).meshHeld = s.meshHeld := rfl
@[simp] theorem State.modCore_lastFn (c : Nat) (f : Core → Core) : (s.modCore c f).lastFn = s.lastFn := rfl

/-! ## modCtx -/

@[simp] theorem State.modCtx_dead (c x : Nat) (f : Ctx → Ctx) : (s.modCtx c x f).dead = s.dead := rfl
@[simp] theorem State.modCtx_agenda (c x : Nat) (f : Ctx → Ctx) : (s.modCtx c x f).agenda = s.agenda := rfl
@[simp] theorem State.modCtx_focus (c x : Nat) (f : Ctx → Ctx) : (s.modCtx c x f).focus = s.focus := rfl
@[simp] theorem State.modCtx_cur (c x : Nat) (f : Ctx → Ctx) : (s.modCtx c x f).cur = s.cur := rfl
@[simp] theorem State.modCtx_freeCount (c x : Nat) (f : Ctx → Ctx) : (s.modCtx c x f).freeCount = s.freeCount := rfl
@[simp] theorem State.modCtx_nextId (c x : Nat) (f : Ctx → Ctx) : (s.modCtx c x f).nextId = s.nextId := rfl
@[simp] theorem State.modCtx_dies (c x : Nat) (f : Ctx → Ctx) : (s.modCtx c x f).dies = s.dies := rfl
@[simp] theorem State.modCtx_engines (c x : Nat) (f : Ctx → Ctx) : (s.modCtx c x f).engines = s.engines := rfl
@[simp] theorem State.modCtx_fronts (c x : Nat) (f : Ctx → Ctx) : (s.modCtx c x f).fronts = s.fronts := rfl
@[simp] theorem State.modCtx_slotTables (c x : Nat) (f : Ctx → Ctx) : (s.modCtx c x f).slotTables = s.slotTables := rfl
@[simp] theorem State.modCtx_cells (c x : Nat) (f : Ctx → Ctx) : (s.modCtx c x f).cells = s.cells := rfl
@[simp] theorem State.modCtx_reads (c x : Nat) (f : Ctx → Ctx) : (s.modCtx c x f).reads = s.reads := rfl
@[simp] theorem State.modCtx_writes (c x : Nat) (f : Ctx → Ctx) : (s.modCtx c x f).writes = s.writes := rfl
@[simp] theorem State.modCtx_atoms (c x : Nat) (f : Ctx → Ctx) : (s.modCtx c x f).atoms = s.atoms := rfl
@[simp] theorem State.modCtx_stack (c x : Nat) (f : Ctx → Ctx) : (s.modCtx c x f).stack = s.stack := rfl
@[simp] theorem State.modCtx_host0 (c x : Nat) (f : Ctx → Ctx) : (s.modCtx c x f).host0 = s.host0 := rfl
@[simp] theorem State.modCtx_host1 (c x : Nat) (f : Ctx → Ctx) : (s.modCtx c x f).host1 = s.host1 := rfl
@[simp] theorem State.modCtx_peers (c x : Nat) (f : Ctx → Ctx) : (s.modCtx c x f).peers = s.peers := rfl
@[simp] theorem State.modCtx_peerUp (c x : Nat) (f : Ctx → Ctx) : (s.modCtx c x f).peerUp = s.peerUp := rfl
@[simp] theorem State.modCtx_linkUp0 (c x : Nat) (f : Ctx → Ctx) : (s.modCtx c x f).linkUp0 = s.linkUp0 := rfl
@[simp] theorem State.modCtx_linkUp1 (c x : Nat) (f : Ctx → Ctx) : (s.modCtx c x f).linkUp1 = s.linkUp1 := rfl
@[simp] theorem State.modCtx_parts (c x : Nat) (f : Ctx → Ctx) : (s.modCtx c x f).parts = s.parts := rfl
@[simp] theorem State.modCtx_funcs (c x : Nat) (f : Ctx → Ctx) : (s.modCtx c x f).funcs = s.funcs := rfl
@[simp] theorem State.modCtx_queues (c x : Nat) (f : Ctx → Ctx) : (s.modCtx c x f).queues = s.queues := rfl
@[simp] theorem State.modCtx_slots (c x : Nat) (f : Ctx → Ctx) : (s.modCtx c x f).slots = s.slots := rfl
@[simp] theorem State.modCtx_mapCount (c x : Nat) (f : Ctx → Ctx) : (s.modCtx c x f).mapCount = s.mapCount := rfl
@[simp] theorem State.modCtx_groups (c x : Nat) (f : Ctx → Ctx) : (s.modCtx c x f).groups = s.groups := rfl
@[simp] theorem State.modCtx_groupReqs (c x : Nat) (f : Ctx → Ctx) : (s.modCtx c x f).groupReqs = s.groupReqs := rfl
@[simp] theorem State.modCtx_vsyncReqs (c x : Nat) (f : Ctx → Ctx) : (s.modCtx c x f).vsyncReqs = s.vsyncReqs := rfl
@[simp] theorem State.modCtx_devStamp (c x : Nat) (f : Ctx → Ctx) : (s.modCtx c x f).devStamp = s.devStamp := rfl
@[simp] theorem State.modCtx_gate (c x : Nat) (f : Ctx → Ctx) : (s.modCtx c x f).gate = s.gate := rfl
@[simp] theorem State.modCtx_snaps (c x : Nat) (f : Ctx → Ctx) : (s.modCtx c x f).snaps = s.snaps := rfl
@[simp] theorem State.modCtx_frame (c x : Nat) (f : Ctx → Ctx) : (s.modCtx c x f).frame = s.frame := rfl
@[simp] theorem State.modCtx_retired (c x : Nat) (f : Ctx → Ctx) : (s.modCtx c x f).retired = s.retired := rfl
@[simp] theorem State.modCtx_failing (c x : Nat) (f : Ctx → Ctx) : (s.modCtx c x f).failing = s.failing := rfl
@[simp] theorem State.modCtx_errors (c x : Nat) (f : Ctx → Ctx) : (s.modCtx c x f).errors = s.errors := rfl
@[simp] theorem State.modCtx_power (c x : Nat) (f : Ctx → Ctx) : (s.modCtx c x f).power = s.power := rfl
@[simp] theorem State.modCtx_meshPause (c x : Nat) (f : Ctx → Ctx) : (s.modCtx c x f).meshPause = s.meshPause := rfl
@[simp] theorem State.modCtx_msix (c x : Nat) (f : Ctx → Ctx) : (s.modCtx c x f).msix = s.msix := rfl
@[simp] theorem State.modCtx_hotIslands (c x : Nat) (f : Ctx → Ctx) : (s.modCtx c x f).hotIslands = s.hotIslands := rfl
@[simp] theorem State.modCtx_meshMark (c x : Nat) (f : Ctx → Ctx) : (s.modCtx c x f).meshMark = s.meshMark := rfl
@[simp] theorem State.modCtx_meshHeld (c x : Nat) (f : Ctx → Ctx) : (s.modCtx c x f).meshHeld = s.meshHeld := rfl
@[simp] theorem State.modCtx_lastFn (c x : Nat) (f : Ctx → Ctx) : (s.modCtx c x f).lastFn = s.lastFn := rfl

/-! ## modMyCore -/

@[simp] theorem State.modMyCore_dead (f : Core → Core) : (s.modMyCore f).dead = s.dead := rfl
@[simp] theorem State.modMyCore_agenda (f : Core → Core) : (s.modMyCore f).agenda = s.agenda := rfl
@[simp] theorem State.modMyCore_focus (f : Core → Core) : (s.modMyCore f).focus = s.focus := rfl
@[simp] theorem State.modMyCore_cur (f : Core → Core) : (s.modMyCore f).cur = s.cur := rfl
@[simp] theorem State.modMyCore_freeCount (f : Core → Core) : (s.modMyCore f).freeCount = s.freeCount := rfl
@[simp] theorem State.modMyCore_nextId (f : Core → Core) : (s.modMyCore f).nextId = s.nextId := rfl
@[simp] theorem State.modMyCore_dies (f : Core → Core) : (s.modMyCore f).dies = s.dies := rfl
@[simp] theorem State.modMyCore_engines (f : Core → Core) : (s.modMyCore f).engines = s.engines := rfl
@[simp] theorem State.modMyCore_fronts (f : Core → Core) : (s.modMyCore f).fronts = s.fronts := rfl
@[simp] theorem State.modMyCore_slotTables (f : Core → Core) : (s.modMyCore f).slotTables = s.slotTables := rfl
@[simp] theorem State.modMyCore_cells (f : Core → Core) : (s.modMyCore f).cells = s.cells := rfl
@[simp] theorem State.modMyCore_reads (f : Core → Core) : (s.modMyCore f).reads = s.reads := rfl
@[simp] theorem State.modMyCore_writes (f : Core → Core) : (s.modMyCore f).writes = s.writes := rfl
@[simp] theorem State.modMyCore_atoms (f : Core → Core) : (s.modMyCore f).atoms = s.atoms := rfl
@[simp] theorem State.modMyCore_stack (f : Core → Core) : (s.modMyCore f).stack = s.stack := rfl
@[simp] theorem State.modMyCore_host0 (f : Core → Core) : (s.modMyCore f).host0 = s.host0 := rfl
@[simp] theorem State.modMyCore_host1 (f : Core → Core) : (s.modMyCore f).host1 = s.host1 := rfl
@[simp] theorem State.modMyCore_peers (f : Core → Core) : (s.modMyCore f).peers = s.peers := rfl
@[simp] theorem State.modMyCore_peerUp (f : Core → Core) : (s.modMyCore f).peerUp = s.peerUp := rfl
@[simp] theorem State.modMyCore_linkUp0 (f : Core → Core) : (s.modMyCore f).linkUp0 = s.linkUp0 := rfl
@[simp] theorem State.modMyCore_linkUp1 (f : Core → Core) : (s.modMyCore f).linkUp1 = s.linkUp1 := rfl
@[simp] theorem State.modMyCore_parts (f : Core → Core) : (s.modMyCore f).parts = s.parts := rfl
@[simp] theorem State.modMyCore_funcs (f : Core → Core) : (s.modMyCore f).funcs = s.funcs := rfl
@[simp] theorem State.modMyCore_queues (f : Core → Core) : (s.modMyCore f).queues = s.queues := rfl
@[simp] theorem State.modMyCore_slots (f : Core → Core) : (s.modMyCore f).slots = s.slots := rfl
@[simp] theorem State.modMyCore_mapCount (f : Core → Core) : (s.modMyCore f).mapCount = s.mapCount := rfl
@[simp] theorem State.modMyCore_groups (f : Core → Core) : (s.modMyCore f).groups = s.groups := rfl
@[simp] theorem State.modMyCore_groupReqs (f : Core → Core) : (s.modMyCore f).groupReqs = s.groupReqs := rfl
@[simp] theorem State.modMyCore_vsyncReqs (f : Core → Core) : (s.modMyCore f).vsyncReqs = s.vsyncReqs := rfl
@[simp] theorem State.modMyCore_devStamp (f : Core → Core) : (s.modMyCore f).devStamp = s.devStamp := rfl
@[simp] theorem State.modMyCore_gate (f : Core → Core) : (s.modMyCore f).gate = s.gate := rfl
@[simp] theorem State.modMyCore_snaps (f : Core → Core) : (s.modMyCore f).snaps = s.snaps := rfl
@[simp] theorem State.modMyCore_frame (f : Core → Core) : (s.modMyCore f).frame = s.frame := rfl
@[simp] theorem State.modMyCore_retired (f : Core → Core) : (s.modMyCore f).retired = s.retired := rfl
@[simp] theorem State.modMyCore_failing (f : Core → Core) : (s.modMyCore f).failing = s.failing := rfl
@[simp] theorem State.modMyCore_errors (f : Core → Core) : (s.modMyCore f).errors = s.errors := rfl
@[simp] theorem State.modMyCore_power (f : Core → Core) : (s.modMyCore f).power = s.power := rfl
@[simp] theorem State.modMyCore_meshPause (f : Core → Core) : (s.modMyCore f).meshPause = s.meshPause := rfl
@[simp] theorem State.modMyCore_msix (f : Core → Core) : (s.modMyCore f).msix = s.msix := rfl
@[simp] theorem State.modMyCore_hotIslands (f : Core → Core) : (s.modMyCore f).hotIslands = s.hotIslands := rfl
@[simp] theorem State.modMyCore_meshMark (f : Core → Core) : (s.modMyCore f).meshMark = s.meshMark := rfl
@[simp] theorem State.modMyCore_meshHeld (f : Core → Core) : (s.modMyCore f).meshHeld = s.meshHeld := rfl
@[simp] theorem State.modMyCore_lastFn (f : Core → Core) : (s.modMyCore f).lastFn = s.lastFn := rfl

/-! ## modMe -/

@[simp] theorem State.modMe_dead (f : Ctx → Ctx) : (s.modMe f).dead = s.dead := rfl
@[simp] theorem State.modMe_agenda (f : Ctx → Ctx) : (s.modMe f).agenda = s.agenda := rfl
@[simp] theorem State.modMe_focus (f : Ctx → Ctx) : (s.modMe f).focus = s.focus := rfl
@[simp] theorem State.modMe_cur (f : Ctx → Ctx) : (s.modMe f).cur = s.cur := rfl
@[simp] theorem State.modMe_freeCount (f : Ctx → Ctx) : (s.modMe f).freeCount = s.freeCount := rfl
@[simp] theorem State.modMe_nextId (f : Ctx → Ctx) : (s.modMe f).nextId = s.nextId := rfl
@[simp] theorem State.modMe_dies (f : Ctx → Ctx) : (s.modMe f).dies = s.dies := rfl
@[simp] theorem State.modMe_engines (f : Ctx → Ctx) : (s.modMe f).engines = s.engines := rfl
@[simp] theorem State.modMe_fronts (f : Ctx → Ctx) : (s.modMe f).fronts = s.fronts := rfl
@[simp] theorem State.modMe_slotTables (f : Ctx → Ctx) : (s.modMe f).slotTables = s.slotTables := rfl
@[simp] theorem State.modMe_cells (f : Ctx → Ctx) : (s.modMe f).cells = s.cells := rfl
@[simp] theorem State.modMe_reads (f : Ctx → Ctx) : (s.modMe f).reads = s.reads := rfl
@[simp] theorem State.modMe_writes (f : Ctx → Ctx) : (s.modMe f).writes = s.writes := rfl
@[simp] theorem State.modMe_atoms (f : Ctx → Ctx) : (s.modMe f).atoms = s.atoms := rfl
@[simp] theorem State.modMe_stack (f : Ctx → Ctx) : (s.modMe f).stack = s.stack := rfl
@[simp] theorem State.modMe_host0 (f : Ctx → Ctx) : (s.modMe f).host0 = s.host0 := rfl
@[simp] theorem State.modMe_host1 (f : Ctx → Ctx) : (s.modMe f).host1 = s.host1 := rfl
@[simp] theorem State.modMe_peers (f : Ctx → Ctx) : (s.modMe f).peers = s.peers := rfl
@[simp] theorem State.modMe_peerUp (f : Ctx → Ctx) : (s.modMe f).peerUp = s.peerUp := rfl
@[simp] theorem State.modMe_linkUp0 (f : Ctx → Ctx) : (s.modMe f).linkUp0 = s.linkUp0 := rfl
@[simp] theorem State.modMe_linkUp1 (f : Ctx → Ctx) : (s.modMe f).linkUp1 = s.linkUp1 := rfl
@[simp] theorem State.modMe_parts (f : Ctx → Ctx) : (s.modMe f).parts = s.parts := rfl
@[simp] theorem State.modMe_funcs (f : Ctx → Ctx) : (s.modMe f).funcs = s.funcs := rfl
@[simp] theorem State.modMe_queues (f : Ctx → Ctx) : (s.modMe f).queues = s.queues := rfl
@[simp] theorem State.modMe_slots (f : Ctx → Ctx) : (s.modMe f).slots = s.slots := rfl
@[simp] theorem State.modMe_mapCount (f : Ctx → Ctx) : (s.modMe f).mapCount = s.mapCount := rfl
@[simp] theorem State.modMe_groups (f : Ctx → Ctx) : (s.modMe f).groups = s.groups := rfl
@[simp] theorem State.modMe_groupReqs (f : Ctx → Ctx) : (s.modMe f).groupReqs = s.groupReqs := rfl
@[simp] theorem State.modMe_vsyncReqs (f : Ctx → Ctx) : (s.modMe f).vsyncReqs = s.vsyncReqs := rfl
@[simp] theorem State.modMe_devStamp (f : Ctx → Ctx) : (s.modMe f).devStamp = s.devStamp := rfl
@[simp] theorem State.modMe_gate (f : Ctx → Ctx) : (s.modMe f).gate = s.gate := rfl
@[simp] theorem State.modMe_snaps (f : Ctx → Ctx) : (s.modMe f).snaps = s.snaps := rfl
@[simp] theorem State.modMe_frame (f : Ctx → Ctx) : (s.modMe f).frame = s.frame := rfl
@[simp] theorem State.modMe_retired (f : Ctx → Ctx) : (s.modMe f).retired = s.retired := rfl
@[simp] theorem State.modMe_failing (f : Ctx → Ctx) : (s.modMe f).failing = s.failing := rfl
@[simp] theorem State.modMe_errors (f : Ctx → Ctx) : (s.modMe f).errors = s.errors := rfl
@[simp] theorem State.modMe_power (f : Ctx → Ctx) : (s.modMe f).power = s.power := rfl
@[simp] theorem State.modMe_meshPause (f : Ctx → Ctx) : (s.modMe f).meshPause = s.meshPause := rfl
@[simp] theorem State.modMe_msix (f : Ctx → Ctx) : (s.modMe f).msix = s.msix := rfl
@[simp] theorem State.modMe_hotIslands (f : Ctx → Ctx) : (s.modMe f).hotIslands = s.hotIslands := rfl
@[simp] theorem State.modMe_meshMark (f : Ctx → Ctx) : (s.modMe f).meshMark = s.meshMark := rfl
@[simp] theorem State.modMe_meshHeld (f : Ctx → Ctx) : (s.modMe f).meshHeld = s.meshHeld := rfl
@[simp] theorem State.modMe_lastFn (f : Ctx → Ctx) : (s.modMe f).lastFn = s.lastFn := rfl

/-! ## modDie -/

@[simp] theorem State.modDie_dead (d : Nat) (f : Die → Die) : (s.modDie d f).dead = s.dead := rfl
@[simp] theorem State.modDie_agenda (d : Nat) (f : Die → Die) : (s.modDie d f).agenda = s.agenda := rfl
@[simp] theorem State.modDie_focus (d : Nat) (f : Die → Die) : (s.modDie d f).focus = s.focus := rfl
@[simp] theorem State.modDie_cur (d : Nat) (f : Die → Die) : (s.modDie d f).cur = s.cur := rfl
@[simp] theorem State.modDie_freeCount (d : Nat) (f : Die → Die) : (s.modDie d f).freeCount = s.freeCount := rfl
@[simp] theorem State.modDie_nextId (d : Nat) (f : Die → Die) : (s.modDie d f).nextId = s.nextId := rfl
@[simp] theorem State.modDie_cores (d : Nat) (f : Die → Die) : (s.modDie d f).cores = s.cores := rfl
@[simp] theorem State.modDie_engines (d : Nat) (f : Die → Die) : (s.modDie d f).engines = s.engines := rfl
@[simp] theorem State.modDie_fronts (d : Nat) (f : Die → Die) : (s.modDie d f).fronts = s.fronts := rfl
@[simp] theorem State.modDie_slotTables (d : Nat) (f : Die → Die) : (s.modDie d f).slotTables = s.slotTables := rfl
@[simp] theorem State.modDie_cells (d : Nat) (f : Die → Die) : (s.modDie d f).cells = s.cells := rfl
@[simp] theorem State.modDie_reads (d : Nat) (f : Die → Die) : (s.modDie d f).reads = s.reads := rfl
@[simp] theorem State.modDie_writes (d : Nat) (f : Die → Die) : (s.modDie d f).writes = s.writes := rfl
@[simp] theorem State.modDie_atoms (d : Nat) (f : Die → Die) : (s.modDie d f).atoms = s.atoms := rfl
@[simp] theorem State.modDie_stack (d : Nat) (f : Die → Die) : (s.modDie d f).stack = s.stack := rfl
@[simp] theorem State.modDie_host0 (d : Nat) (f : Die → Die) : (s.modDie d f).host0 = s.host0 := rfl
@[simp] theorem State.modDie_host1 (d : Nat) (f : Die → Die) : (s.modDie d f).host1 = s.host1 := rfl
@[simp] theorem State.modDie_peers (d : Nat) (f : Die → Die) : (s.modDie d f).peers = s.peers := rfl
@[simp] theorem State.modDie_peerUp (d : Nat) (f : Die → Die) : (s.modDie d f).peerUp = s.peerUp := rfl
@[simp] theorem State.modDie_linkUp0 (d : Nat) (f : Die → Die) : (s.modDie d f).linkUp0 = s.linkUp0 := rfl
@[simp] theorem State.modDie_linkUp1 (d : Nat) (f : Die → Die) : (s.modDie d f).linkUp1 = s.linkUp1 := rfl
@[simp] theorem State.modDie_parts (d : Nat) (f : Die → Die) : (s.modDie d f).parts = s.parts := rfl
@[simp] theorem State.modDie_funcs (d : Nat) (f : Die → Die) : (s.modDie d f).funcs = s.funcs := rfl
@[simp] theorem State.modDie_queues (d : Nat) (f : Die → Die) : (s.modDie d f).queues = s.queues := rfl
@[simp] theorem State.modDie_slots (d : Nat) (f : Die → Die) : (s.modDie d f).slots = s.slots := rfl
@[simp] theorem State.modDie_mapCount (d : Nat) (f : Die → Die) : (s.modDie d f).mapCount = s.mapCount := rfl
@[simp] theorem State.modDie_groups (d : Nat) (f : Die → Die) : (s.modDie d f).groups = s.groups := rfl
@[simp] theorem State.modDie_groupReqs (d : Nat) (f : Die → Die) : (s.modDie d f).groupReqs = s.groupReqs := rfl
@[simp] theorem State.modDie_vsyncReqs (d : Nat) (f : Die → Die) : (s.modDie d f).vsyncReqs = s.vsyncReqs := rfl
@[simp] theorem State.modDie_devStamp (d : Nat) (f : Die → Die) : (s.modDie d f).devStamp = s.devStamp := rfl
@[simp] theorem State.modDie_gate (d : Nat) (f : Die → Die) : (s.modDie d f).gate = s.gate := rfl
@[simp] theorem State.modDie_snaps (d : Nat) (f : Die → Die) : (s.modDie d f).snaps = s.snaps := rfl
@[simp] theorem State.modDie_frame (d : Nat) (f : Die → Die) : (s.modDie d f).frame = s.frame := rfl
@[simp] theorem State.modDie_retired (d : Nat) (f : Die → Die) : (s.modDie d f).retired = s.retired := rfl
@[simp] theorem State.modDie_failing (d : Nat) (f : Die → Die) : (s.modDie d f).failing = s.failing := rfl
@[simp] theorem State.modDie_errors (d : Nat) (f : Die → Die) : (s.modDie d f).errors = s.errors := rfl
@[simp] theorem State.modDie_power (d : Nat) (f : Die → Die) : (s.modDie d f).power = s.power := rfl
@[simp] theorem State.modDie_meshPause (d : Nat) (f : Die → Die) : (s.modDie d f).meshPause = s.meshPause := rfl
@[simp] theorem State.modDie_msix (d : Nat) (f : Die → Die) : (s.modDie d f).msix = s.msix := rfl
@[simp] theorem State.modDie_hotIslands (d : Nat) (f : Die → Die) : (s.modDie d f).hotIslands = s.hotIslands := rfl
@[simp] theorem State.modDie_meshMark (d : Nat) (f : Die → Die) : (s.modDie d f).meshMark = s.meshMark := rfl
@[simp] theorem State.modDie_meshHeld (d : Nat) (f : Die → Die) : (s.modDie d f).meshHeld = s.meshHeld := rfl
@[simp] theorem State.modDie_lastFn (d : Nat) (f : Die → Die) : (s.modDie d f).lastFn = s.lastFn := rfl

/-! ## modEngine -/

@[simp] theorem State.modEngine_dead (k : Nat) (f : AtomEngine → AtomEngine) : (s.modEngine k f).dead = s.dead := rfl
@[simp] theorem State.modEngine_agenda (k : Nat) (f : AtomEngine → AtomEngine) : (s.modEngine k f).agenda = s.agenda := rfl
@[simp] theorem State.modEngine_focus (k : Nat) (f : AtomEngine → AtomEngine) : (s.modEngine k f).focus = s.focus := rfl
@[simp] theorem State.modEngine_cur (k : Nat) (f : AtomEngine → AtomEngine) : (s.modEngine k f).cur = s.cur := rfl
@[simp] theorem State.modEngine_freeCount (k : Nat) (f : AtomEngine → AtomEngine) : (s.modEngine k f).freeCount = s.freeCount := rfl
@[simp] theorem State.modEngine_nextId (k : Nat) (f : AtomEngine → AtomEngine) : (s.modEngine k f).nextId = s.nextId := rfl
@[simp] theorem State.modEngine_cores (k : Nat) (f : AtomEngine → AtomEngine) : (s.modEngine k f).cores = s.cores := rfl
@[simp] theorem State.modEngine_dies (k : Nat) (f : AtomEngine → AtomEngine) : (s.modEngine k f).dies = s.dies := rfl
@[simp] theorem State.modEngine_fronts (k : Nat) (f : AtomEngine → AtomEngine) : (s.modEngine k f).fronts = s.fronts := rfl
@[simp] theorem State.modEngine_slotTables (k : Nat) (f : AtomEngine → AtomEngine) : (s.modEngine k f).slotTables = s.slotTables := rfl
@[simp] theorem State.modEngine_cells (k : Nat) (f : AtomEngine → AtomEngine) : (s.modEngine k f).cells = s.cells := rfl
@[simp] theorem State.modEngine_reads (k : Nat) (f : AtomEngine → AtomEngine) : (s.modEngine k f).reads = s.reads := rfl
@[simp] theorem State.modEngine_writes (k : Nat) (f : AtomEngine → AtomEngine) : (s.modEngine k f).writes = s.writes := rfl
@[simp] theorem State.modEngine_atoms (k : Nat) (f : AtomEngine → AtomEngine) : (s.modEngine k f).atoms = s.atoms := rfl
@[simp] theorem State.modEngine_stack (k : Nat) (f : AtomEngine → AtomEngine) : (s.modEngine k f).stack = s.stack := rfl
@[simp] theorem State.modEngine_host0 (k : Nat) (f : AtomEngine → AtomEngine) : (s.modEngine k f).host0 = s.host0 := rfl
@[simp] theorem State.modEngine_host1 (k : Nat) (f : AtomEngine → AtomEngine) : (s.modEngine k f).host1 = s.host1 := rfl
@[simp] theorem State.modEngine_peers (k : Nat) (f : AtomEngine → AtomEngine) : (s.modEngine k f).peers = s.peers := rfl
@[simp] theorem State.modEngine_peerUp (k : Nat) (f : AtomEngine → AtomEngine) : (s.modEngine k f).peerUp = s.peerUp := rfl
@[simp] theorem State.modEngine_linkUp0 (k : Nat) (f : AtomEngine → AtomEngine) : (s.modEngine k f).linkUp0 = s.linkUp0 := rfl
@[simp] theorem State.modEngine_linkUp1 (k : Nat) (f : AtomEngine → AtomEngine) : (s.modEngine k f).linkUp1 = s.linkUp1 := rfl
@[simp] theorem State.modEngine_parts (k : Nat) (f : AtomEngine → AtomEngine) : (s.modEngine k f).parts = s.parts := rfl
@[simp] theorem State.modEngine_funcs (k : Nat) (f : AtomEngine → AtomEngine) : (s.modEngine k f).funcs = s.funcs := rfl
@[simp] theorem State.modEngine_queues (k : Nat) (f : AtomEngine → AtomEngine) : (s.modEngine k f).queues = s.queues := rfl
@[simp] theorem State.modEngine_slots (k : Nat) (f : AtomEngine → AtomEngine) : (s.modEngine k f).slots = s.slots := rfl
@[simp] theorem State.modEngine_mapCount (k : Nat) (f : AtomEngine → AtomEngine) : (s.modEngine k f).mapCount = s.mapCount := rfl
@[simp] theorem State.modEngine_groups (k : Nat) (f : AtomEngine → AtomEngine) : (s.modEngine k f).groups = s.groups := rfl
@[simp] theorem State.modEngine_groupReqs (k : Nat) (f : AtomEngine → AtomEngine) : (s.modEngine k f).groupReqs = s.groupReqs := rfl
@[simp] theorem State.modEngine_vsyncReqs (k : Nat) (f : AtomEngine → AtomEngine) : (s.modEngine k f).vsyncReqs = s.vsyncReqs := rfl
@[simp] theorem State.modEngine_devStamp (k : Nat) (f : AtomEngine → AtomEngine) : (s.modEngine k f).devStamp = s.devStamp := rfl
@[simp] theorem State.modEngine_gate (k : Nat) (f : AtomEngine → AtomEngine) : (s.modEngine k f).gate = s.gate := rfl
@[simp] theorem State.modEngine_snaps (k : Nat) (f : AtomEngine → AtomEngine) : (s.modEngine k f).snaps = s.snaps := rfl
@[simp] theorem State.modEngine_frame (k : Nat) (f : AtomEngine → AtomEngine) : (s.modEngine k f).frame = s.frame := rfl
@[simp] theorem State.modEngine_retired (k : Nat) (f : AtomEngine → AtomEngine) : (s.modEngine k f).retired = s.retired := rfl
@[simp] theorem State.modEngine_failing (k : Nat) (f : AtomEngine → AtomEngine) : (s.modEngine k f).failing = s.failing := rfl
@[simp] theorem State.modEngine_errors (k : Nat) (f : AtomEngine → AtomEngine) : (s.modEngine k f).errors = s.errors := rfl
@[simp] theorem State.modEngine_power (k : Nat) (f : AtomEngine → AtomEngine) : (s.modEngine k f).power = s.power := rfl
@[simp] theorem State.modEngine_meshPause (k : Nat) (f : AtomEngine → AtomEngine) : (s.modEngine k f).meshPause = s.meshPause := rfl
@[simp] theorem State.modEngine_msix (k : Nat) (f : AtomEngine → AtomEngine) : (s.modEngine k f).msix = s.msix := rfl
@[simp] theorem State.modEngine_hotIslands (k : Nat) (f : AtomEngine → AtomEngine) : (s.modEngine k f).hotIslands = s.hotIslands := rfl
@[simp] theorem State.modEngine_meshMark (k : Nat) (f : AtomEngine → AtomEngine) : (s.modEngine k f).meshMark = s.meshMark := rfl
@[simp] theorem State.modEngine_meshHeld (k : Nat) (f : AtomEngine → AtomEngine) : (s.modEngine k f).meshHeld = s.meshHeld := rfl
@[simp] theorem State.modEngine_lastFn (k : Nat) (f : AtomEngine → AtomEngine) : (s.modEngine k f).lastFn = s.lastFn := rfl

/-! ## modPart -/

@[simp] theorem State.modPart_dead (n : Nat) (f : Part → Part) : (s.modPart n f).dead = s.dead := rfl
@[simp] theorem State.modPart_agenda (n : Nat) (f : Part → Part) : (s.modPart n f).agenda = s.agenda := rfl
@[simp] theorem State.modPart_focus (n : Nat) (f : Part → Part) : (s.modPart n f).focus = s.focus := rfl
@[simp] theorem State.modPart_cur (n : Nat) (f : Part → Part) : (s.modPart n f).cur = s.cur := rfl
@[simp] theorem State.modPart_freeCount (n : Nat) (f : Part → Part) : (s.modPart n f).freeCount = s.freeCount := rfl
@[simp] theorem State.modPart_nextId (n : Nat) (f : Part → Part) : (s.modPart n f).nextId = s.nextId := rfl
@[simp] theorem State.modPart_cores (n : Nat) (f : Part → Part) : (s.modPart n f).cores = s.cores := rfl
@[simp] theorem State.modPart_dies (n : Nat) (f : Part → Part) : (s.modPart n f).dies = s.dies := rfl
@[simp] theorem State.modPart_engines (n : Nat) (f : Part → Part) : (s.modPart n f).engines = s.engines := rfl
@[simp] theorem State.modPart_fronts (n : Nat) (f : Part → Part) : (s.modPart n f).fronts = s.fronts := rfl
@[simp] theorem State.modPart_slotTables (n : Nat) (f : Part → Part) : (s.modPart n f).slotTables = s.slotTables := rfl
@[simp] theorem State.modPart_cells (n : Nat) (f : Part → Part) : (s.modPart n f).cells = s.cells := rfl
@[simp] theorem State.modPart_reads (n : Nat) (f : Part → Part) : (s.modPart n f).reads = s.reads := rfl
@[simp] theorem State.modPart_writes (n : Nat) (f : Part → Part) : (s.modPart n f).writes = s.writes := rfl
@[simp] theorem State.modPart_atoms (n : Nat) (f : Part → Part) : (s.modPart n f).atoms = s.atoms := rfl
@[simp] theorem State.modPart_stack (n : Nat) (f : Part → Part) : (s.modPart n f).stack = s.stack := rfl
@[simp] theorem State.modPart_host0 (n : Nat) (f : Part → Part) : (s.modPart n f).host0 = s.host0 := rfl
@[simp] theorem State.modPart_host1 (n : Nat) (f : Part → Part) : (s.modPart n f).host1 = s.host1 := rfl
@[simp] theorem State.modPart_peers (n : Nat) (f : Part → Part) : (s.modPart n f).peers = s.peers := rfl
@[simp] theorem State.modPart_peerUp (n : Nat) (f : Part → Part) : (s.modPart n f).peerUp = s.peerUp := rfl
@[simp] theorem State.modPart_linkUp0 (n : Nat) (f : Part → Part) : (s.modPart n f).linkUp0 = s.linkUp0 := rfl
@[simp] theorem State.modPart_linkUp1 (n : Nat) (f : Part → Part) : (s.modPart n f).linkUp1 = s.linkUp1 := rfl
@[simp] theorem State.modPart_funcs (n : Nat) (f : Part → Part) : (s.modPart n f).funcs = s.funcs := rfl
@[simp] theorem State.modPart_queues (n : Nat) (f : Part → Part) : (s.modPart n f).queues = s.queues := rfl
@[simp] theorem State.modPart_slots (n : Nat) (f : Part → Part) : (s.modPart n f).slots = s.slots := rfl
@[simp] theorem State.modPart_mapCount (n : Nat) (f : Part → Part) : (s.modPart n f).mapCount = s.mapCount := rfl
@[simp] theorem State.modPart_groups (n : Nat) (f : Part → Part) : (s.modPart n f).groups = s.groups := rfl
@[simp] theorem State.modPart_groupReqs (n : Nat) (f : Part → Part) : (s.modPart n f).groupReqs = s.groupReqs := rfl
@[simp] theorem State.modPart_vsyncReqs (n : Nat) (f : Part → Part) : (s.modPart n f).vsyncReqs = s.vsyncReqs := rfl
@[simp] theorem State.modPart_devStamp (n : Nat) (f : Part → Part) : (s.modPart n f).devStamp = s.devStamp := rfl
@[simp] theorem State.modPart_gate (n : Nat) (f : Part → Part) : (s.modPart n f).gate = s.gate := rfl
@[simp] theorem State.modPart_snaps (n : Nat) (f : Part → Part) : (s.modPart n f).snaps = s.snaps := rfl
@[simp] theorem State.modPart_frame (n : Nat) (f : Part → Part) : (s.modPart n f).frame = s.frame := rfl
@[simp] theorem State.modPart_retired (n : Nat) (f : Part → Part) : (s.modPart n f).retired = s.retired := rfl
@[simp] theorem State.modPart_failing (n : Nat) (f : Part → Part) : (s.modPart n f).failing = s.failing := rfl
@[simp] theorem State.modPart_errors (n : Nat) (f : Part → Part) : (s.modPart n f).errors = s.errors := rfl
@[simp] theorem State.modPart_power (n : Nat) (f : Part → Part) : (s.modPart n f).power = s.power := rfl
@[simp] theorem State.modPart_meshPause (n : Nat) (f : Part → Part) : (s.modPart n f).meshPause = s.meshPause := rfl
@[simp] theorem State.modPart_msix (n : Nat) (f : Part → Part) : (s.modPart n f).msix = s.msix := rfl
@[simp] theorem State.modPart_hotIslands (n : Nat) (f : Part → Part) : (s.modPart n f).hotIslands = s.hotIslands := rfl
@[simp] theorem State.modPart_meshMark (n : Nat) (f : Part → Part) : (s.modPart n f).meshMark = s.meshMark := rfl
@[simp] theorem State.modPart_meshHeld (n : Nat) (f : Part → Part) : (s.modPart n f).meshHeld = s.meshHeld := rfl
@[simp] theorem State.modPart_lastFn (n : Nat) (f : Part → Part) : (s.modPart n f).lastFn = s.lastFn := rfl

/-! ## modLaunch -/

@[simp] theorem State.modLaunch_dead (o : Owner) (f : Launch → Launch) : (s.modLaunch o f).dead = s.dead := rfl
@[simp] theorem State.modLaunch_agenda (o : Owner) (f : Launch → Launch) : (s.modLaunch o f).agenda = s.agenda := rfl
@[simp] theorem State.modLaunch_focus (o : Owner) (f : Launch → Launch) : (s.modLaunch o f).focus = s.focus := rfl
@[simp] theorem State.modLaunch_cur (o : Owner) (f : Launch → Launch) : (s.modLaunch o f).cur = s.cur := rfl
@[simp] theorem State.modLaunch_freeCount (o : Owner) (f : Launch → Launch) : (s.modLaunch o f).freeCount = s.freeCount := rfl
@[simp] theorem State.modLaunch_nextId (o : Owner) (f : Launch → Launch) : (s.modLaunch o f).nextId = s.nextId := rfl
@[simp] theorem State.modLaunch_cores (o : Owner) (f : Launch → Launch) : (s.modLaunch o f).cores = s.cores := rfl
@[simp] theorem State.modLaunch_dies (o : Owner) (f : Launch → Launch) : (s.modLaunch o f).dies = s.dies := rfl
@[simp] theorem State.modLaunch_engines (o : Owner) (f : Launch → Launch) : (s.modLaunch o f).engines = s.engines := rfl
@[simp] theorem State.modLaunch_fronts (o : Owner) (f : Launch → Launch) : (s.modLaunch o f).fronts = s.fronts := rfl
@[simp] theorem State.modLaunch_slotTables (o : Owner) (f : Launch → Launch) : (s.modLaunch o f).slotTables = s.slotTables := rfl
@[simp] theorem State.modLaunch_cells (o : Owner) (f : Launch → Launch) : (s.modLaunch o f).cells = s.cells := rfl
@[simp] theorem State.modLaunch_reads (o : Owner) (f : Launch → Launch) : (s.modLaunch o f).reads = s.reads := rfl
@[simp] theorem State.modLaunch_writes (o : Owner) (f : Launch → Launch) : (s.modLaunch o f).writes = s.writes := rfl
@[simp] theorem State.modLaunch_atoms (o : Owner) (f : Launch → Launch) : (s.modLaunch o f).atoms = s.atoms := rfl
@[simp] theorem State.modLaunch_stack (o : Owner) (f : Launch → Launch) : (s.modLaunch o f).stack = s.stack := rfl
@[simp] theorem State.modLaunch_host0 (o : Owner) (f : Launch → Launch) : (s.modLaunch o f).host0 = s.host0 := rfl
@[simp] theorem State.modLaunch_host1 (o : Owner) (f : Launch → Launch) : (s.modLaunch o f).host1 = s.host1 := rfl
@[simp] theorem State.modLaunch_peers (o : Owner) (f : Launch → Launch) : (s.modLaunch o f).peers = s.peers := rfl
@[simp] theorem State.modLaunch_peerUp (o : Owner) (f : Launch → Launch) : (s.modLaunch o f).peerUp = s.peerUp := rfl
@[simp] theorem State.modLaunch_linkUp0 (o : Owner) (f : Launch → Launch) : (s.modLaunch o f).linkUp0 = s.linkUp0 := rfl
@[simp] theorem State.modLaunch_linkUp1 (o : Owner) (f : Launch → Launch) : (s.modLaunch o f).linkUp1 = s.linkUp1 := rfl
@[simp] theorem State.modLaunch_funcs (o : Owner) (f : Launch → Launch) : (s.modLaunch o f).funcs = s.funcs := rfl
@[simp] theorem State.modLaunch_queues (o : Owner) (f : Launch → Launch) : (s.modLaunch o f).queues = s.queues := rfl
@[simp] theorem State.modLaunch_slots (o : Owner) (f : Launch → Launch) : (s.modLaunch o f).slots = s.slots := rfl
@[simp] theorem State.modLaunch_mapCount (o : Owner) (f : Launch → Launch) : (s.modLaunch o f).mapCount = s.mapCount := rfl
@[simp] theorem State.modLaunch_groups (o : Owner) (f : Launch → Launch) : (s.modLaunch o f).groups = s.groups := rfl
@[simp] theorem State.modLaunch_groupReqs (o : Owner) (f : Launch → Launch) : (s.modLaunch o f).groupReqs = s.groupReqs := rfl
@[simp] theorem State.modLaunch_vsyncReqs (o : Owner) (f : Launch → Launch) : (s.modLaunch o f).vsyncReqs = s.vsyncReqs := rfl
@[simp] theorem State.modLaunch_devStamp (o : Owner) (f : Launch → Launch) : (s.modLaunch o f).devStamp = s.devStamp := rfl
@[simp] theorem State.modLaunch_gate (o : Owner) (f : Launch → Launch) : (s.modLaunch o f).gate = s.gate := rfl
@[simp] theorem State.modLaunch_snaps (o : Owner) (f : Launch → Launch) : (s.modLaunch o f).snaps = s.snaps := rfl
@[simp] theorem State.modLaunch_frame (o : Owner) (f : Launch → Launch) : (s.modLaunch o f).frame = s.frame := rfl
@[simp] theorem State.modLaunch_retired (o : Owner) (f : Launch → Launch) : (s.modLaunch o f).retired = s.retired := rfl
@[simp] theorem State.modLaunch_failing (o : Owner) (f : Launch → Launch) : (s.modLaunch o f).failing = s.failing := rfl
@[simp] theorem State.modLaunch_errors (o : Owner) (f : Launch → Launch) : (s.modLaunch o f).errors = s.errors := rfl
@[simp] theorem State.modLaunch_power (o : Owner) (f : Launch → Launch) : (s.modLaunch o f).power = s.power := rfl
@[simp] theorem State.modLaunch_meshPause (o : Owner) (f : Launch → Launch) : (s.modLaunch o f).meshPause = s.meshPause := rfl
@[simp] theorem State.modLaunch_msix (o : Owner) (f : Launch → Launch) : (s.modLaunch o f).msix = s.msix := rfl
@[simp] theorem State.modLaunch_hotIslands (o : Owner) (f : Launch → Launch) : (s.modLaunch o f).hotIslands = s.hotIslands := rfl
@[simp] theorem State.modLaunch_meshMark (o : Owner) (f : Launch → Launch) : (s.modLaunch o f).meshMark = s.meshMark := rfl
@[simp] theorem State.modLaunch_meshHeld (o : Owner) (f : Launch → Launch) : (s.modLaunch o f).meshHeld = s.meshHeld := rfl
@[simp] theorem State.modLaunch_lastFn (o : Owner) (f : Launch → Launch) : (s.modLaunch o f).lastFn = s.lastFn := rfl

/-! ## modFunc -/

@[simp] theorem State.modFunc_dead (n : Nat) (f : Func → Func) : (s.modFunc n f).dead = s.dead := rfl
@[simp] theorem State.modFunc_agenda (n : Nat) (f : Func → Func) : (s.modFunc n f).agenda = s.agenda := rfl
@[simp] theorem State.modFunc_focus (n : Nat) (f : Func → Func) : (s.modFunc n f).focus = s.focus := rfl
@[simp] theorem State.modFunc_cur (n : Nat) (f : Func → Func) : (s.modFunc n f).cur = s.cur := rfl
@[simp] theorem State.modFunc_freeCount (n : Nat) (f : Func → Func) : (s.modFunc n f).freeCount = s.freeCount := rfl
@[simp] theorem State.modFunc_nextId (n : Nat) (f : Func → Func) : (s.modFunc n f).nextId = s.nextId := rfl
@[simp] theorem State.modFunc_cores (n : Nat) (f : Func → Func) : (s.modFunc n f).cores = s.cores := rfl
@[simp] theorem State.modFunc_dies (n : Nat) (f : Func → Func) : (s.modFunc n f).dies = s.dies := rfl
@[simp] theorem State.modFunc_engines (n : Nat) (f : Func → Func) : (s.modFunc n f).engines = s.engines := rfl
@[simp] theorem State.modFunc_fronts (n : Nat) (f : Func → Func) : (s.modFunc n f).fronts = s.fronts := rfl
@[simp] theorem State.modFunc_slotTables (n : Nat) (f : Func → Func) : (s.modFunc n f).slotTables = s.slotTables := rfl
@[simp] theorem State.modFunc_cells (n : Nat) (f : Func → Func) : (s.modFunc n f).cells = s.cells := rfl
@[simp] theorem State.modFunc_reads (n : Nat) (f : Func → Func) : (s.modFunc n f).reads = s.reads := rfl
@[simp] theorem State.modFunc_writes (n : Nat) (f : Func → Func) : (s.modFunc n f).writes = s.writes := rfl
@[simp] theorem State.modFunc_atoms (n : Nat) (f : Func → Func) : (s.modFunc n f).atoms = s.atoms := rfl
@[simp] theorem State.modFunc_stack (n : Nat) (f : Func → Func) : (s.modFunc n f).stack = s.stack := rfl
@[simp] theorem State.modFunc_host0 (n : Nat) (f : Func → Func) : (s.modFunc n f).host0 = s.host0 := rfl
@[simp] theorem State.modFunc_host1 (n : Nat) (f : Func → Func) : (s.modFunc n f).host1 = s.host1 := rfl
@[simp] theorem State.modFunc_peers (n : Nat) (f : Func → Func) : (s.modFunc n f).peers = s.peers := rfl
@[simp] theorem State.modFunc_peerUp (n : Nat) (f : Func → Func) : (s.modFunc n f).peerUp = s.peerUp := rfl
@[simp] theorem State.modFunc_linkUp0 (n : Nat) (f : Func → Func) : (s.modFunc n f).linkUp0 = s.linkUp0 := rfl
@[simp] theorem State.modFunc_linkUp1 (n : Nat) (f : Func → Func) : (s.modFunc n f).linkUp1 = s.linkUp1 := rfl
@[simp] theorem State.modFunc_parts (n : Nat) (f : Func → Func) : (s.modFunc n f).parts = s.parts := rfl
@[simp] theorem State.modFunc_queues (n : Nat) (f : Func → Func) : (s.modFunc n f).queues = s.queues := rfl
@[simp] theorem State.modFunc_slots (n : Nat) (f : Func → Func) : (s.modFunc n f).slots = s.slots := rfl
@[simp] theorem State.modFunc_mapCount (n : Nat) (f : Func → Func) : (s.modFunc n f).mapCount = s.mapCount := rfl
@[simp] theorem State.modFunc_groups (n : Nat) (f : Func → Func) : (s.modFunc n f).groups = s.groups := rfl
@[simp] theorem State.modFunc_groupReqs (n : Nat) (f : Func → Func) : (s.modFunc n f).groupReqs = s.groupReqs := rfl
@[simp] theorem State.modFunc_vsyncReqs (n : Nat) (f : Func → Func) : (s.modFunc n f).vsyncReqs = s.vsyncReqs := rfl
@[simp] theorem State.modFunc_devStamp (n : Nat) (f : Func → Func) : (s.modFunc n f).devStamp = s.devStamp := rfl
@[simp] theorem State.modFunc_gate (n : Nat) (f : Func → Func) : (s.modFunc n f).gate = s.gate := rfl
@[simp] theorem State.modFunc_snaps (n : Nat) (f : Func → Func) : (s.modFunc n f).snaps = s.snaps := rfl
@[simp] theorem State.modFunc_frame (n : Nat) (f : Func → Func) : (s.modFunc n f).frame = s.frame := rfl
@[simp] theorem State.modFunc_retired (n : Nat) (f : Func → Func) : (s.modFunc n f).retired = s.retired := rfl
@[simp] theorem State.modFunc_failing (n : Nat) (f : Func → Func) : (s.modFunc n f).failing = s.failing := rfl
@[simp] theorem State.modFunc_errors (n : Nat) (f : Func → Func) : (s.modFunc n f).errors = s.errors := rfl
@[simp] theorem State.modFunc_power (n : Nat) (f : Func → Func) : (s.modFunc n f).power = s.power := rfl
@[simp] theorem State.modFunc_meshPause (n : Nat) (f : Func → Func) : (s.modFunc n f).meshPause = s.meshPause := rfl
@[simp] theorem State.modFunc_msix (n : Nat) (f : Func → Func) : (s.modFunc n f).msix = s.msix := rfl
@[simp] theorem State.modFunc_hotIslands (n : Nat) (f : Func → Func) : (s.modFunc n f).hotIslands = s.hotIslands := rfl
@[simp] theorem State.modFunc_meshMark (n : Nat) (f : Func → Func) : (s.modFunc n f).meshMark = s.meshMark := rfl
@[simp] theorem State.modFunc_meshHeld (n : Nat) (f : Func → Func) : (s.modFunc n f).meshHeld = s.meshHeld := rfl
@[simp] theorem State.modFunc_lastFn (n : Nat) (f : Func → Func) : (s.modFunc n f).lastFn = s.lastFn := rfl

/-! ## modQueue -/

@[simp] theorem State.modQueue_dead (n : Nat) (f : Queue → Queue) : (s.modQueue n f).dead = s.dead := rfl
@[simp] theorem State.modQueue_agenda (n : Nat) (f : Queue → Queue) : (s.modQueue n f).agenda = s.agenda := rfl
@[simp] theorem State.modQueue_focus (n : Nat) (f : Queue → Queue) : (s.modQueue n f).focus = s.focus := rfl
@[simp] theorem State.modQueue_cur (n : Nat) (f : Queue → Queue) : (s.modQueue n f).cur = s.cur := rfl
@[simp] theorem State.modQueue_freeCount (n : Nat) (f : Queue → Queue) : (s.modQueue n f).freeCount = s.freeCount := rfl
@[simp] theorem State.modQueue_nextId (n : Nat) (f : Queue → Queue) : (s.modQueue n f).nextId = s.nextId := rfl
@[simp] theorem State.modQueue_cores (n : Nat) (f : Queue → Queue) : (s.modQueue n f).cores = s.cores := rfl
@[simp] theorem State.modQueue_dies (n : Nat) (f : Queue → Queue) : (s.modQueue n f).dies = s.dies := rfl
@[simp] theorem State.modQueue_engines (n : Nat) (f : Queue → Queue) : (s.modQueue n f).engines = s.engines := rfl
@[simp] theorem State.modQueue_fronts (n : Nat) (f : Queue → Queue) : (s.modQueue n f).fronts = s.fronts := rfl
@[simp] theorem State.modQueue_slotTables (n : Nat) (f : Queue → Queue) : (s.modQueue n f).slotTables = s.slotTables := rfl
@[simp] theorem State.modQueue_cells (n : Nat) (f : Queue → Queue) : (s.modQueue n f).cells = s.cells := rfl
@[simp] theorem State.modQueue_reads (n : Nat) (f : Queue → Queue) : (s.modQueue n f).reads = s.reads := rfl
@[simp] theorem State.modQueue_writes (n : Nat) (f : Queue → Queue) : (s.modQueue n f).writes = s.writes := rfl
@[simp] theorem State.modQueue_atoms (n : Nat) (f : Queue → Queue) : (s.modQueue n f).atoms = s.atoms := rfl
@[simp] theorem State.modQueue_stack (n : Nat) (f : Queue → Queue) : (s.modQueue n f).stack = s.stack := rfl
@[simp] theorem State.modQueue_host0 (n : Nat) (f : Queue → Queue) : (s.modQueue n f).host0 = s.host0 := rfl
@[simp] theorem State.modQueue_host1 (n : Nat) (f : Queue → Queue) : (s.modQueue n f).host1 = s.host1 := rfl
@[simp] theorem State.modQueue_peers (n : Nat) (f : Queue → Queue) : (s.modQueue n f).peers = s.peers := rfl
@[simp] theorem State.modQueue_peerUp (n : Nat) (f : Queue → Queue) : (s.modQueue n f).peerUp = s.peerUp := rfl
@[simp] theorem State.modQueue_linkUp0 (n : Nat) (f : Queue → Queue) : (s.modQueue n f).linkUp0 = s.linkUp0 := rfl
@[simp] theorem State.modQueue_linkUp1 (n : Nat) (f : Queue → Queue) : (s.modQueue n f).linkUp1 = s.linkUp1 := rfl
@[simp] theorem State.modQueue_parts (n : Nat) (f : Queue → Queue) : (s.modQueue n f).parts = s.parts := rfl
@[simp] theorem State.modQueue_funcs (n : Nat) (f : Queue → Queue) : (s.modQueue n f).funcs = s.funcs := rfl
@[simp] theorem State.modQueue_slots (n : Nat) (f : Queue → Queue) : (s.modQueue n f).slots = s.slots := rfl
@[simp] theorem State.modQueue_mapCount (n : Nat) (f : Queue → Queue) : (s.modQueue n f).mapCount = s.mapCount := rfl
@[simp] theorem State.modQueue_groups (n : Nat) (f : Queue → Queue) : (s.modQueue n f).groups = s.groups := rfl
@[simp] theorem State.modQueue_groupReqs (n : Nat) (f : Queue → Queue) : (s.modQueue n f).groupReqs = s.groupReqs := rfl
@[simp] theorem State.modQueue_vsyncReqs (n : Nat) (f : Queue → Queue) : (s.modQueue n f).vsyncReqs = s.vsyncReqs := rfl
@[simp] theorem State.modQueue_devStamp (n : Nat) (f : Queue → Queue) : (s.modQueue n f).devStamp = s.devStamp := rfl
@[simp] theorem State.modQueue_gate (n : Nat) (f : Queue → Queue) : (s.modQueue n f).gate = s.gate := rfl
@[simp] theorem State.modQueue_snaps (n : Nat) (f : Queue → Queue) : (s.modQueue n f).snaps = s.snaps := rfl
@[simp] theorem State.modQueue_frame (n : Nat) (f : Queue → Queue) : (s.modQueue n f).frame = s.frame := rfl
@[simp] theorem State.modQueue_retired (n : Nat) (f : Queue → Queue) : (s.modQueue n f).retired = s.retired := rfl
@[simp] theorem State.modQueue_failing (n : Nat) (f : Queue → Queue) : (s.modQueue n f).failing = s.failing := rfl
@[simp] theorem State.modQueue_errors (n : Nat) (f : Queue → Queue) : (s.modQueue n f).errors = s.errors := rfl
@[simp] theorem State.modQueue_power (n : Nat) (f : Queue → Queue) : (s.modQueue n f).power = s.power := rfl
@[simp] theorem State.modQueue_meshPause (n : Nat) (f : Queue → Queue) : (s.modQueue n f).meshPause = s.meshPause := rfl
@[simp] theorem State.modQueue_msix (n : Nat) (f : Queue → Queue) : (s.modQueue n f).msix = s.msix := rfl
@[simp] theorem State.modQueue_hotIslands (n : Nat) (f : Queue → Queue) : (s.modQueue n f).hotIslands = s.hotIslands := rfl
@[simp] theorem State.modQueue_meshMark (n : Nat) (f : Queue → Queue) : (s.modQueue n f).meshMark = s.meshMark := rfl
@[simp] theorem State.modQueue_meshHeld (n : Nat) (f : Queue → Queue) : (s.modQueue n f).meshHeld = s.meshHeld := rfl
@[simp] theorem State.modQueue_lastFn (n : Nat) (f : Queue → Queue) : (s.modQueue n f).lastFn = s.lastFn := rfl

/-! ## modGroup -/

@[simp] theorem State.modGroup_dead (n : Nat) (f : Group → Group) : (s.modGroup n f).dead = s.dead := rfl
@[simp] theorem State.modGroup_agenda (n : Nat) (f : Group → Group) : (s.modGroup n f).agenda = s.agenda := rfl
@[simp] theorem State.modGroup_focus (n : Nat) (f : Group → Group) : (s.modGroup n f).focus = s.focus := rfl
@[simp] theorem State.modGroup_cur (n : Nat) (f : Group → Group) : (s.modGroup n f).cur = s.cur := rfl
@[simp] theorem State.modGroup_freeCount (n : Nat) (f : Group → Group) : (s.modGroup n f).freeCount = s.freeCount := rfl
@[simp] theorem State.modGroup_nextId (n : Nat) (f : Group → Group) : (s.modGroup n f).nextId = s.nextId := rfl
@[simp] theorem State.modGroup_cores (n : Nat) (f : Group → Group) : (s.modGroup n f).cores = s.cores := rfl
@[simp] theorem State.modGroup_dies (n : Nat) (f : Group → Group) : (s.modGroup n f).dies = s.dies := rfl
@[simp] theorem State.modGroup_engines (n : Nat) (f : Group → Group) : (s.modGroup n f).engines = s.engines := rfl
@[simp] theorem State.modGroup_fronts (n : Nat) (f : Group → Group) : (s.modGroup n f).fronts = s.fronts := rfl
@[simp] theorem State.modGroup_slotTables (n : Nat) (f : Group → Group) : (s.modGroup n f).slotTables = s.slotTables := rfl
@[simp] theorem State.modGroup_cells (n : Nat) (f : Group → Group) : (s.modGroup n f).cells = s.cells := rfl
@[simp] theorem State.modGroup_reads (n : Nat) (f : Group → Group) : (s.modGroup n f).reads = s.reads := rfl
@[simp] theorem State.modGroup_writes (n : Nat) (f : Group → Group) : (s.modGroup n f).writes = s.writes := rfl
@[simp] theorem State.modGroup_atoms (n : Nat) (f : Group → Group) : (s.modGroup n f).atoms = s.atoms := rfl
@[simp] theorem State.modGroup_stack (n : Nat) (f : Group → Group) : (s.modGroup n f).stack = s.stack := rfl
@[simp] theorem State.modGroup_host0 (n : Nat) (f : Group → Group) : (s.modGroup n f).host0 = s.host0 := rfl
@[simp] theorem State.modGroup_host1 (n : Nat) (f : Group → Group) : (s.modGroup n f).host1 = s.host1 := rfl
@[simp] theorem State.modGroup_peers (n : Nat) (f : Group → Group) : (s.modGroup n f).peers = s.peers := rfl
@[simp] theorem State.modGroup_peerUp (n : Nat) (f : Group → Group) : (s.modGroup n f).peerUp = s.peerUp := rfl
@[simp] theorem State.modGroup_linkUp0 (n : Nat) (f : Group → Group) : (s.modGroup n f).linkUp0 = s.linkUp0 := rfl
@[simp] theorem State.modGroup_linkUp1 (n : Nat) (f : Group → Group) : (s.modGroup n f).linkUp1 = s.linkUp1 := rfl
@[simp] theorem State.modGroup_parts (n : Nat) (f : Group → Group) : (s.modGroup n f).parts = s.parts := rfl
@[simp] theorem State.modGroup_funcs (n : Nat) (f : Group → Group) : (s.modGroup n f).funcs = s.funcs := rfl
@[simp] theorem State.modGroup_queues (n : Nat) (f : Group → Group) : (s.modGroup n f).queues = s.queues := rfl
@[simp] theorem State.modGroup_slots (n : Nat) (f : Group → Group) : (s.modGroup n f).slots = s.slots := rfl
@[simp] theorem State.modGroup_mapCount (n : Nat) (f : Group → Group) : (s.modGroup n f).mapCount = s.mapCount := rfl
@[simp] theorem State.modGroup_groupReqs (n : Nat) (f : Group → Group) : (s.modGroup n f).groupReqs = s.groupReqs := rfl
@[simp] theorem State.modGroup_vsyncReqs (n : Nat) (f : Group → Group) : (s.modGroup n f).vsyncReqs = s.vsyncReqs := rfl
@[simp] theorem State.modGroup_devStamp (n : Nat) (f : Group → Group) : (s.modGroup n f).devStamp = s.devStamp := rfl
@[simp] theorem State.modGroup_gate (n : Nat) (f : Group → Group) : (s.modGroup n f).gate = s.gate := rfl
@[simp] theorem State.modGroup_snaps (n : Nat) (f : Group → Group) : (s.modGroup n f).snaps = s.snaps := rfl
@[simp] theorem State.modGroup_frame (n : Nat) (f : Group → Group) : (s.modGroup n f).frame = s.frame := rfl
@[simp] theorem State.modGroup_retired (n : Nat) (f : Group → Group) : (s.modGroup n f).retired = s.retired := rfl
@[simp] theorem State.modGroup_failing (n : Nat) (f : Group → Group) : (s.modGroup n f).failing = s.failing := rfl
@[simp] theorem State.modGroup_errors (n : Nat) (f : Group → Group) : (s.modGroup n f).errors = s.errors := rfl
@[simp] theorem State.modGroup_power (n : Nat) (f : Group → Group) : (s.modGroup n f).power = s.power := rfl
@[simp] theorem State.modGroup_meshPause (n : Nat) (f : Group → Group) : (s.modGroup n f).meshPause = s.meshPause := rfl
@[simp] theorem State.modGroup_msix (n : Nat) (f : Group → Group) : (s.modGroup n f).msix = s.msix := rfl
@[simp] theorem State.modGroup_hotIslands (n : Nat) (f : Group → Group) : (s.modGroup n f).hotIslands = s.hotIslands := rfl
@[simp] theorem State.modGroup_meshMark (n : Nat) (f : Group → Group) : (s.modGroup n f).meshMark = s.meshMark := rfl
@[simp] theorem State.modGroup_meshHeld (n : Nat) (f : Group → Group) : (s.modGroup n f).meshHeld = s.meshHeld := rfl
@[simp] theorem State.modGroup_lastFn (n : Nat) (f : Group → Group) : (s.modGroup n f).lastFn = s.lastFn := rfl

/-! ## verdict -/

@[simp] theorem State.verdict_dead (v : Verdict) : (s.verdict v).dead = s.dead := rfl
@[simp] theorem State.verdict_agenda (v : Verdict) : (s.verdict v).agenda = s.agenda := rfl
@[simp] theorem State.verdict_focus (v : Verdict) : (s.verdict v).focus = s.focus := rfl
@[simp] theorem State.verdict_freeCount (v : Verdict) : (s.verdict v).freeCount = s.freeCount := rfl
@[simp] theorem State.verdict_nextId (v : Verdict) : (s.verdict v).nextId = s.nextId := rfl
@[simp] theorem State.verdict_cores (v : Verdict) : (s.verdict v).cores = s.cores := rfl
@[simp] theorem State.verdict_dies (v : Verdict) : (s.verdict v).dies = s.dies := rfl
@[simp] theorem State.verdict_engines (v : Verdict) : (s.verdict v).engines = s.engines := rfl
@[simp] theorem State.verdict_fronts (v : Verdict) : (s.verdict v).fronts = s.fronts := rfl
@[simp] theorem State.verdict_slotTables (v : Verdict) : (s.verdict v).slotTables = s.slotTables := rfl
@[simp] theorem State.verdict_cells (v : Verdict) : (s.verdict v).cells = s.cells := rfl
@[simp] theorem State.verdict_reads (v : Verdict) : (s.verdict v).reads = s.reads := rfl
@[simp] theorem State.verdict_writes (v : Verdict) : (s.verdict v).writes = s.writes := rfl
@[simp] theorem State.verdict_atoms (v : Verdict) : (s.verdict v).atoms = s.atoms := rfl
@[simp] theorem State.verdict_stack (v : Verdict) : (s.verdict v).stack = s.stack := rfl
@[simp] theorem State.verdict_host0 (v : Verdict) : (s.verdict v).host0 = s.host0 := rfl
@[simp] theorem State.verdict_host1 (v : Verdict) : (s.verdict v).host1 = s.host1 := rfl
@[simp] theorem State.verdict_peers (v : Verdict) : (s.verdict v).peers = s.peers := rfl
@[simp] theorem State.verdict_peerUp (v : Verdict) : (s.verdict v).peerUp = s.peerUp := rfl
@[simp] theorem State.verdict_linkUp0 (v : Verdict) : (s.verdict v).linkUp0 = s.linkUp0 := rfl
@[simp] theorem State.verdict_linkUp1 (v : Verdict) : (s.verdict v).linkUp1 = s.linkUp1 := rfl
@[simp] theorem State.verdict_parts (v : Verdict) : (s.verdict v).parts = s.parts := rfl
@[simp] theorem State.verdict_funcs (v : Verdict) : (s.verdict v).funcs = s.funcs := rfl
@[simp] theorem State.verdict_queues (v : Verdict) : (s.verdict v).queues = s.queues := rfl
@[simp] theorem State.verdict_slots (v : Verdict) : (s.verdict v).slots = s.slots := rfl
@[simp] theorem State.verdict_mapCount (v : Verdict) : (s.verdict v).mapCount = s.mapCount := rfl
@[simp] theorem State.verdict_groups (v : Verdict) : (s.verdict v).groups = s.groups := rfl
@[simp] theorem State.verdict_groupReqs (v : Verdict) : (s.verdict v).groupReqs = s.groupReqs := rfl
@[simp] theorem State.verdict_vsyncReqs (v : Verdict) : (s.verdict v).vsyncReqs = s.vsyncReqs := rfl
@[simp] theorem State.verdict_devStamp (v : Verdict) : (s.verdict v).devStamp = s.devStamp := rfl
@[simp] theorem State.verdict_gate (v : Verdict) : (s.verdict v).gate = s.gate := rfl
@[simp] theorem State.verdict_snaps (v : Verdict) : (s.verdict v).snaps = s.snaps := rfl
@[simp] theorem State.verdict_frame (v : Verdict) : (s.verdict v).frame = s.frame := rfl
@[simp] theorem State.verdict_retired (v : Verdict) : (s.verdict v).retired = s.retired := rfl
@[simp] theorem State.verdict_failing (v : Verdict) : (s.verdict v).failing = s.failing := rfl
@[simp] theorem State.verdict_errors (v : Verdict) : (s.verdict v).errors = s.errors := rfl
@[simp] theorem State.verdict_power (v : Verdict) : (s.verdict v).power = s.power := rfl
@[simp] theorem State.verdict_meshPause (v : Verdict) : (s.verdict v).meshPause = s.meshPause := rfl
@[simp] theorem State.verdict_msix (v : Verdict) : (s.verdict v).msix = s.msix := rfl
@[simp] theorem State.verdict_hotIslands (v : Verdict) : (s.verdict v).hotIslands = s.hotIslands := rfl
@[simp] theorem State.verdict_meshMark (v : Verdict) : (s.verdict v).meshMark = s.meshMark := rfl
@[simp] theorem State.verdict_meshHeld (v : Verdict) : (s.verdict v).meshHeld = s.meshHeld := rfl
@[simp] theorem State.verdict_lastFn (v : Verdict) : (s.verdict v).lastFn = s.lastFn := rfl

/-! ## What accessors read after an update -/

@[simp] theorem State.modCore_core (c d : Nat) (f : Core → Core) :
    (s.modCore c f).core d = if d = c then f (s.core c) else s.core d := tget_tmod ..

@[simp] theorem Core.modCtx_ctx (k : Core) (x y : Nat) (f : Ctx → Ctx) :
    (k.modCtx x f).ctx y = if y = x then f (k.ctx x) else k.ctx y := tget_tmod ..

@[simp] theorem State.modCtx_ctx (c x d y : Nat) (f : Ctx → Ctx) :
    (s.modCtx c x f).ctx d y = if d = c ∧ y = x then f (s.ctx c x) else s.ctx d y := by
  unfold State.modCtx State.ctx
  rw [State.modCore_core]
  split_ifs with h1 h2 h2
  · rw [Core.modCtx_ctx, if_pos h2.2]
  · subst h1; rw [Core.modCtx_ctx, if_neg (fun h => h2 ⟨rfl, h⟩)]
  · exact absurd h2.1 h1
  · rfl

@[simp] theorem State.modMe_me (f : Ctx → Ctx) : (s.modMe f).me = f s.me := by
  unfold State.modMe State.me; rw [State.modCtx_ctx]; simp

@[simp] theorem State.modMe_ctx (c x : Nat) (f : Ctx → Ctx) :
    (s.modMe f).ctx c x = if c = s.cur.core ∧ x = s.cur.ctx then f s.me else s.ctx c x := by
  unfold State.modMe State.me; rw [State.modCtx_ctx]

@[simp] theorem State.modPart_part (n m : Nat) (f : Part → Part) :
    (s.modPart n f).part m = if m = n then f (s.part n) else s.part m := tget_tmod ..

@[simp] theorem State.modFunc_func (n m : Nat) (f : Func → Func) :
    (s.modFunc n f).func m = if m = n then f (s.func n) else s.func m := tget_tmod ..

@[simp] theorem State.modQueue_queue (n m : Nat) (f : Queue → Queue) :
    (s.modQueue n f).queue m = if m = n then f (s.queue n) else s.queue m := tget_tmod ..

@[simp] theorem State.modDie_die (n m : Nat) (f : Die → Die) :
    (s.modDie n f).die m = if m = n then f (s.die n) else s.die m := tget_tmod ..

@[simp] theorem State.modEngine_engine (n m : Nat) (f : AtomEngine → AtomEngine) :
    (s.modEngine n f).engine m = if m = n then f (s.engine n) else s.engine m := tget_tmod ..

@[simp] theorem State.modGroup_group (n m : Nat) (f : Group → Group) :
    (s.modGroup n f).group m = if m = n then f (s.group n) else s.group m := tget_tmod ..

@[simp] theorem State.verdict_verdict (v : Verdict) : (s.verdict v).cur.verdict = v := rfl
@[simp] theorem State.verdict_core (v : Verdict) (c : Nat) : (s.verdict v).core c = s.core c := rfl
@[simp] theorem State.verdict_ctx (v : Verdict) (c x : Nat) : (s.verdict v).ctx c x = s.ctx c x := rfl
@[simp] theorem State.verdict_me (v : Verdict) : (s.verdict v).me = s.me := rfl

end Sys2Proof.Machine
end

