-- ==== Sys2Proof/Laws/Memory.lean ====
section
/-! SUPPORT. Laws of memory: every memory operation keeps the canonical form, and a write of a byte is read back and leaves
every other byte alone. -/

set_option Elab.async false

namespace Sys2Proof.Machine

/-! ## The canonical form -/

theorem State.memWf_iff (s : State) :
    s.memWf = true ↔ (Memory.wf s.stack = true ∧ Memory.wf s.host0 = true ∧ Memory.wf s.host1 = true) ∧
      (∀ e ∈ s.peers, Memory.wf e.2 = true) ∧ (∀ e ∈ s.cores, Memory.wf e.2.slice = true) := by
  simp only [State.memWf, Bool.and_eq_true, List.all_eq_true]
  tauto

/-- A state with the same memories has them in canonical form as well. -/
theorem State.memWf_of_eq {s t : State} (h : s.memWf = true) (h1 : t.stack = s.stack) (h2 : t.host0 = s.host0)
    (h3 : t.host1 = s.host1) (h4 : t.peers = s.peers) (h5 : t.cores = s.cores) : t.memWf = true := by
  unfold State.memWf at *; rw [h1, h2, h3, h4, h5]; exact h

theorem tget_all {α : Type} (d : α) (p : α → Prop) (t : Table α) (n : Nat) (hd : p d) (h : ∀ e ∈ t, p e.2) : p (tget d t n) := by
  induction t with
  | nil => exact hd
  | cons e t ih =>
    obtain ⟨k, v⟩ := e
    simp only [tget]
    split_ifs
    · exact h (k, v) (by simp)
    · exact ih (fun e he => h e (by simp [he]))

theorem State.core_slice_wf {s : State} (h : s.memWf = true) (c : Nat) : Memory.wf (s.core c).slice = true :=
  tget_all Core.reset (fun k => Memory.wf k.slice = true) s.cores c rfl ((s.memWf_iff.1 h).2.2)

theorem State.modCore_memWf {s : State} (c : Nat) (f : Core → Core) (h : s.memWf = true)
    (hf : Memory.wf (f (s.core c)).slice = true) : (s.modCore c f).memWf = true := by
  rw [State.memWf_iff] at h ⊢
  refine ⟨h.1, h.2.1, fun e he => ?_⟩
  rcases mem_tput _ _ _ _ he with rfl | he
  · exact hf
  · exact h.2.2 e he

/-- An update of a core that leaves its slice alone keeps the form. -/
theorem State.modCore_memWf' {s : State} (c : Nat) (f : Core → Core) (h : s.memWf = true)
    (hf : ∀ k, (f k).slice = k.slice) : (s.modCore c f).memWf = true :=
  State.modCore_memWf c f h (by rw [hf]; exact State.core_slice_wf h c)

theorem State.modCtx_memWf {s : State} (c x : Nat) (f : Ctx → Ctx) (h : s.memWf = true) : (s.modCtx c x f).memWf = true :=
  State.modCore_memWf' c _ h (fun _ => rfl)

theorem State.modMe_memWf {s : State} (f : Ctx → Ctx) (h : s.memWf = true) : (s.modMe f).memWf = true :=
  State.modCtx_memWf _ _ f h

theorem State.poke_memWf {s : State} (pa : Nat) (b : Byte) (h : s.memWf = true) : (s.poke pa b).memWf = true := by
  unfold State.poke
  have h' := s.memWf_iff.1 h
  split
  · exact State.modCore_memWf _ _ h (twf_tset _ _ _ _ (State.core_slice_wf h _))
  · exact (State.memWf_iff _).2 ⟨⟨twf_tset _ _ _ _ h'.1.1, h'.1.2⟩, h'.2⟩
  · exact (State.memWf_iff _).2 ⟨⟨h'.1.1, twf_tset _ _ _ _ h'.1.2.1, h'.1.2.2⟩, h'.2⟩
  · exact (State.memWf_iff _).2 ⟨⟨h'.1.1, h'.1.2.1, twf_tset _ _ _ _ h'.1.2.2⟩, h'.2⟩
  · refine (State.memWf_iff _).2 ⟨h'.1, fun e he => ?_, h'.2.2⟩
    rcases mem_tput _ _ _ _ he with rfl | he
    · exact twf_tset _ _ _ _ (tget_all [] (fun t => Memory.wf t = true) s.peers _ rfl h'.2.1)
    · exact h'.2.1 e he
  · exact h

theorem State.pokes_memWf (cs : List Host.Cell) {s : State} (h : s.memWf = true) : (s.pokes cs).memWf = true := by
  induction cs generalizing s with
  | nil => exact h
  | cons c cs ih => exact ih (State.poke_memWf c.1 c.2 h)

theorem State.raiseBlock_memWf {s : State} (pa : Nat) (m : Mask) (h : s.memWf = true) : (s.raiseBlock pa m).memWf = true := by
  unfold State.raiseBlock
  split
  · exact State.modCore_memWf' _ _ h (fun _ => rfl)
  · exact h

theorem State.raiseBlocks_memWf (m : Mask) (as : List Nat) {s : State} (h : s.memWf = true) :
    (s.raiseBlocks m as).memWf = true := by
  induction as generalizing s with
  | nil => exact h
  | cons a as ih =>
    cases as with
    | nil => exact State.raiseBlock_memWf a m h
    | cons b as =>
      simp only [State.raiseBlocks]
      split_ifs
      · exact ih h
      · exact ih (State.raiseBlock_memWf a m h)

theorem State.setFull_memWf {s : State} (pa : Nat) (v : Bool) (h : s.memWf = true) : (s.setFull pa v).memWf = true := by
  unfold State.setFull
  split
  · exact State.modCore_memWf' _ _ h (fun _ => rfl)
  · exact h

theorem State.setFulls_memWf (v : Bool) (as : List Nat) {s : State} (h : s.memWf = true) : (s.setFulls v as).memWf = true := by
  induction as generalizing s with
  | nil => exact h
  | cons a as ih =>
    cases as with
    | nil => exact State.setFull_memWf a v h
    | cons b as =>
      simp only [State.setFulls]
      split_ifs
      · exact ih h
      · exact ih (State.setFull_memWf a v h)

theorem State.queueReplicas_memWf {s : State} (cs : List Host.Cell) (d : Nat) (st : Clock) (h : s.memWf = true) :
    (s.queueReplicas cs d st).memWf = true := State.memWf_of_eq h rfl rfl rfl rfl rfl

theorem State.perform_memWf {s : State} (cs : List Host.Cell) (m : Mask) (fe : Bool) (d : Nat) (st : Clock)
    (h : s.memWf = true) : (s.perform cs m fe d st).memWf = true := by
  unfold State.perform
  apply State.queueReplicas_memWf
  have := State.raiseBlocks_memWf m (cs.map (·.1)) (State.pokes_memWf cs h)
  cases fe
  · exact this
  · exact State.setFulls_memWf true _ this

theorem foldl_memWf {α : Type} (f : State → α → State) (hf : ∀ s a, s.memWf = true → (f s a).memWf = true) (l : List α)
    {s : State} (h : s.memWf = true) : (l.foldl f s).memWf = true := by
  induction l generalizing s with
  | nil => exact h
  | cons a l ih => exact ih (hf s a h)

theorem State.performClear_memWf {s : State} (cs : List Host.Cell) (d : Nat) (st : Clock) (h : s.memWf = true) :
    (s.performClear cs d st).memWf = true := by
  unfold State.performClear
  apply State.queueReplicas_memWf
  refine foldl_memWf _ (fun s a hs => ?_) _ (State.setFulls_memWf false _ (State.pokes_memWf cs h))
  split
  · exact State.modCore_memWf' _ _ hs (fun _ => rfl)
  · exact hs

theorem State.stamp_memWf {s : State} (d : Nat) (h : s.memWf = true) : (s.stamp d).memWf = true :=
  State.memWf_of_eq h rfl rfl rfl rfl rfl

theorem State.stampUnless_memWf {s : State} (b : Bool) (d : Nat) (h : s.memWf = true) : (s.stampUnless b d).memWf = true := by
  cases b
  · exact State.stamp_memWf d h
  · exact h

theorem State.sendWrite_memWf {s : State} (core ctx : Nat) (o : Bool) (va : Word) (cs : List Host.Cell) (m : Mask)
    (fe : Bool) (h : s.memWf = true) : (s.sendWrite core ctx o va cs m fe).memWf = true := by
  unfold State.sendWrite
  split
  · exact h
  · dsimp only
    split
    · exact State.perform_memWf _ _ _ _ _ (State.memWf_of_eq (State.stampUnless_memWf _ _ h) rfl rfl rfl rfl rfl)
    · exact State.memWf_of_eq (State.stampUnless_memWf _ _ h) rfl rfl rfl rfl rfl

theorem State.sendRaise_memWf {s : State} (core ctx : Nat) (va : Word) (pa : Nat) (m : Mask) (h : s.memWf = true) :
    (s.sendRaise core ctx va pa m).memWf = true := by
  unfold State.sendRaise
  dsimp only
  split
  · exact State.raiseBlock_memWf _ _ (State.memWf_of_eq h rfl rfl rfl rfl rfl)
  · exact State.memWf_of_eq h rfl rfl rfl rfl rfl

theorem State.writeNow_memWf {s : State} (die core ctx : Nat) (o : Bool) (cs : List Host.Cell) (m : Mask) (fe : Bool)
    (h : s.memWf = true) : (s.writeNow die core ctx o cs m fe).memWf = true := by
  unfold State.writeNow
  split
  · exact h
  · split
    · exact State.pokes_memWf _ h
    · exact State.perform_memWf _ _ _ _ _ (State.memWf_of_eq h rfl rfl rfl rfl rfl)

theorem State.entryWrite_memWf {s : State} (core ctx uid elem : Nat) (cs : List Host.Cell) (m : Mask) (fe clr : Bool)
    (h : s.memWf = true) : (s.entryWrite core ctx uid elem cs m fe clr).memWf = true := by
  unfold State.entryWrite
  split
  · exact h
  · split
    · exact State.pokes_memWf _ h
    · dsimp only
      split_ifs
      · exact State.memWf_of_eq h rfl rfl rfl rfl rfl
      · exact State.performClear_memWf _ _ _ (State.memWf_of_eq h rfl rfl rfl rfl rfl)
      · exact State.perform_memWf _ _ _ _ _ (State.memWf_of_eq h rfl rfl rfl rfl rfl)

theorem State.noteArrival_memWf {s : State} (engine : Nat) (ws : List Bool) (pas : List Nat) (h : s.memWf = true) :
    (s.noteArrival engine ws pas).memWf = true := by
  unfold State.noteArrival
  split
  · exact h
  · split
    · split
      · exact h
      · exact State.modCore_memWf' _ _ h (fun _ => rfl)
    · exact h

theorem State.performWrite_memWf {s : State} (w : WriteReq) (h : s.memWf = true) : (s.performWrite w).memWf = true := by
  unfold State.performWrite
  have h1 : (if w.clr then s.performClear w.cells w.die w.stamp
      else s.perform w.cells w.mask w.fe w.die w.stamp).memWf = true := by
    split
    · exact State.performClear_memWf _ _ _ h
    · exact State.perform_memWf _ _ _ _ _ h
  have h2 := State.raiseBlocks_memWf w.mask w.raises h1
  dsimp only
  split
  · exact State.memWf_of_eq h2 rfl rfl rfl rfl rfl
  · exact State.memWf_of_eq (State.noteArrival_memWf 5 [true] _ h2) rfl rfl rfl rfl rfl

theorem State.settleWrite_memWf {s : State} (id : Nat) (h : s.memWf = true) : (s.settleWrite id).memWf = true := by
  unfold State.settleWrite
  split
  · exact h
  · dsimp only
    have hr : ∀ (l : List ReadReq) (t : State), t.memWf = true →
        (l.foldl (fun t r => if t.readable r then t.readHome r else t) t).memWf = true := fun l t ht =>
      foldl_memWf _ (fun t r ht => by
        split
        · exact State.memWf_of_eq ht rfl rfl rfl rfl rfl
        · exact ht) l ht
    split
    · exact State.performWrite_memWf _ (hr _ _ h)
    · exact hr _ _ h

theorem State.settleSlice_memWf {s : State} (core : Nat) (h : s.memWf = true) : (s.settleSlice core).memWf = true := by
  unfold State.settleSlice
  exact foldl_memWf _ (fun _ w ht => State.settleWrite_memWf w.id ht) _ h

theorem State.engineWrite_memWf {s : State} (core ctx : Nat) (cs : List Host.Cell) (m : Mask) (fe : Bool) (h : s.memWf = true) :
    (s.engineWrite core ctx cs m fe).memWf = true := by
  unfold State.engineWrite
  exact State.writeNow_memWf _ _ _ _ _ _ _ (State.settleSlice_memWf core h)

theorem hostCells_wf (t : Table Byte) (addr : Nat) (bs : List Byte) (h : Memory.wf t = true) :
    Memory.wf (hostCells t addr bs) = true := by
  unfold hostCells
  induction cellsAt addr bs generalizing t with
  | nil => exact h
  | cons c cs ih => exact ih _ (twf_tset _ _ _ _ h)

theorem State.hostPoke_memWf {s : State} (link addr : Nat) (bs : List Byte) (h : s.memWf = true) :
    (s.hostPoke link addr bs).memWf = true := by
  have h' := s.memWf_iff.1 h
  unfold State.hostPoke
  split
  · exact (State.memWf_iff _).2 ⟨⟨h'.1.1, hostCells_wf _ _ _ h'.1.2.1, h'.1.2.2⟩, h'.2⟩
  · exact (State.memWf_iff _).2 ⟨⟨h'.1.1, h'.1.2.1, hostCells_wf _ _ _ h'.1.2.2⟩, h'.2⟩

/-! ## Reading after writing -/

/-- A byte written is read back, wherever memory stands. -/
theorem State.peek_poke_same {s : State} (pa : Nat) (b : Byte) (h : s.memWf = true)
    (hr : (∃ c off, regionOf pa = .slice c off) ∨ (∃ p off, regionOf pa = .port p off) ∨
      (∃ l off, regionOf pa = .host l off) ∨ (∃ j off, regionOf pa = .peer j off)) :
    (s.poke pa b).peek pa = b := by
  have h' := s.memWf_iff.1 h
  rcases hr with ⟨c, off, e⟩ | ⟨p, off, e⟩ | ⟨l, off, e⟩ | ⟨j, off, e⟩
  · simp only [State.poke, State.peek, e, State.modCore_core, if_true]
    rw [tget_tset _ _ _ _ _ (State.core_slice_wf h c), if_pos rfl]
  · simp only [State.poke, State.peek, e]
    rw [tget_tset _ _ _ _ _ h'.1.1, if_pos rfl]
  · match l, e with
    | 0, e =>
      simp only [State.poke, State.peek, e]
      rw [tget_tset _ _ _ _ _ h'.1.2.1, if_pos rfl]
    | l + 1, e =>
      simp only [State.poke, State.peek, e]
      rw [tget_tset _ _ _ _ _ h'.1.2.2, if_pos rfl]
  · simp only [State.poke, State.peek, e, tget_tmod, if_true]
    rw [tget_tset _ _ _ _ _ (tget_all [] (fun t => Memory.wf t = true) s.peers j rfl h'.2.1), if_pos rfl]

theorem regionOf_host {pa l off : Nat} (h : regionOf pa = .host l off) : l ≤ 1 := by
  unfold regionOf at h
  split at h
  · split at h <;> simp only [reduceCtorEq] at h
  split at h
  · simp only [reduceCtorEq] at h
  split at h
  · simp only [reduceCtorEq] at h
  split at h
  · simp only [reduceCtorEq] at h
  split at h
  · dsimp only at h
    split at h <;> simp only [reduceCtorEq] at h
  split at h
  · simp only [reduceCtorEq] at h
  split at h
  · simp only [reduceCtorEq] at h
  split at h
  · simp only [reduceCtorEq] at h
  split at h
  · simp only [Region.host.injEq] at h; omega
  split at h
  · simp only [Region.host.injEq] at h; omega
  split at h <;> simp only [reduceCtorEq] at h

/-- A write of a byte leaves every byte elsewhere alone. -/
theorem State.peek_poke_other {s : State} (pa pb : Nat) (b : Byte) (h : s.memWf = true) (hr : regionOf pb ≠ regionOf pa) :
    (s.poke pa b).peek pb = s.peek pb := by
  have h' := s.memWf_iff.1 h
  have hp : pb ≠ pa := fun e => hr (by rw [e])
  unfold State.poke
  split
  · next c off e =>
    unfold State.peek
    split <;> try rfl
    next c' off' e' =>
      simp only [State.modCore_core]
      split_ifs with hc
      · subst hc
        dsimp only
        rw [tget_tset _ _ _ _ _ (State.core_slice_wf h c'), if_neg]
        intro ho; exact hr (by rw [e, e', ho])
      · rfl
  · next p off e =>
    unfold State.peek
    split <;> try rfl
    dsimp only
    rw [tget_tset _ _ _ _ _ h'.1.1, if_neg hp]
  · next off e =>
    unfold State.peek
    split <;> try rfl
    next off' e' =>
      dsimp only
      rw [tget_tset _ _ _ _ _ h'.1.2.1, if_neg]
      intro ho; exact hr (by rw [e, e', ho])
  · next l off hl0 e =>
    unfold State.peek
    split <;> try rfl
    next l' off' hl0' e' =>
      dsimp only
      rw [tget_tset _ _ _ _ _ h'.1.2.2, if_neg]
      cases l with
      | zero => exact absurd rfl hl0
      | succ l =>
        cases l' with
        | zero => exact absurd rfl hl0'
        | succ l' =>
          have h1 := regionOf_host e
          have h2 := regionOf_host e'
          exact fun ho => hr (by rw [e, e', ho, show l = l' by omega])
  · next j off e =>
    unfold State.peek
    split <;> try rfl
    next j' off' e' =>
      simp only [tget_tmod]
      split_ifs with hc
      · subst hc
        rw [tget_tset _ _ _ _ _ (tget_all [] (fun t => Memory.wf t = true) s.peers j' rfl h'.2.1), if_neg]
        intro ho; exact hr (by rw [e, e', ho])
      · rfl
  · rfl

end Sys2Proof.Machine
end

