-- ==== Sys2Proof/Laws/Ops.lean ====
section
/-! SUPPORT. What each shared operation can do, said once: tables and updates in a row, attempts and their ends, operands,
results, traps, micro-ops and mailbox requests. -/

set_option Elab.async false

namespace Sys2Proof.Machine

/-! ## Tables and updates in a row -/

theorem tput_tput {α : Type} (t : Table α) (n : Nat) (x y : α) : tput (tput t n x) n y = tput t n y := by
  induction t with
  | nil => simp [tput]
  | cons e t ih =>
    obtain ⟨k, v⟩ := e
    simp only [tput]
    split
    · simp [tput]
    · split
      · simp [tput]
      · next h1 h2 => simp [tput, h1, h2, ih]

theorem tmod_tmod {α : Type} (d : α) (t : Table α) (n : Nat) (f g : α → α) :
    tmod d (tmod d t n f) n g = tmod d t n (fun x => g (f x)) := by
  simp [tmod, tput_tput, tget_tput]

theorem State.modCore_modCore (s : State) (c : Nat) (f g : Core → Core) :
    (s.modCore c f).modCore c g = s.modCore c (fun k => g (f k)) := by
  simp [State.modCore, tmod_tmod]

theorem Core.modCtx_modCtx (k : Core) (x : Nat) (f g : Ctx → Ctx) :
    (k.modCtx x f).modCtx x g = k.modCtx x (fun y => g (f y)) := by
  simp [Core.modCtx, tmod_tmod]

theorem State.modCtx_modCtx (s : State) (c x : Nat) (f g : Ctx → Ctx) :
    (s.modCtx c x f).modCtx c x g = s.modCtx c x (fun y => g (f y)) := by
  simp [State.modCtx, State.modCore_modCore, Core.modCtx_modCtx]

theorem State.modMe_modMe (s : State) (f g : Ctx → Ctx) : (s.modMe f).modMe g = s.modMe (fun x => g (f x)) :=
  State.modCtx_modCtx s _ _ f g

theorem State.modPart_modPart (s : State) (p : Nat) (f g : Part → Part) :
    (s.modPart p f).modPart p g = s.modPart p (fun q => g (f q)) := by
  simp [State.modPart, tmod_tmod]

theorem State.modFunc_modFunc (s : State) (n : Nat) (f g : Func → Func) :
    (s.modFunc n f).modFunc n g = s.modFunc n (fun q => g (f q)) := by
  simp [State.modFunc, tmod_tmod]

theorem State.modQueue_modQueue (s : State) (n : Nat) (f g : Queue → Queue) :
    (s.modQueue n f).modQueue n g = s.modQueue n (fun q => g (f q)) := by
  simp [State.modQueue, tmod_tmod]

/-! ## Attempts -/

/-- A computation in a row answers a value exactly when each part does. -/
theorem try_bind_ok {ε α β : Type} {x : Except ε α} {f : α → Except ε β} {r : β} :
    (x >>= f) = .ok r ↔ ∃ a, x = .ok a ∧ f a = .ok r := by
  cases x with
  | error e => simp [bind, Except.bind]
  | ok a => simp [bind, Except.bind]

/-- It ends early exactly when one part does and those before it answer. -/
theorem try_bind_error {ε α β : Type} {x : Except ε α} {f : α → Except ε β} {e : ε} :
    (x >>= f) = .error e ↔ x = .error e ∨ ∃ a, x = .ok a ∧ f a = .error e := by
  cases x with
  | error e => simp [bind, Except.bind]
  | ok a => simp [bind, Except.bind]

@[simp] theorem must_true (h : Halt) : must true h = .ok () := rfl
@[simp] theorem must_false (h : Halt) : must false h = .error h := rfl

theorem must_ok {c : Bool} {h : Halt} {u : Unit} : must c h = .ok u ↔ c = true := by cases c <;> simp [must]

/-- A true guard: the body's state issues. -/
theorem slotRun_ok {gd : Guard} {fx : State → FalseFx} {body : State → Try State} {s t : State} (hg : s.me.holds gd = true)
    (hb : body s = .ok t) : slotRun gd fx body s = .next (t.verdict .issued) := by
  simp [slotRun, hg, hb]

/-- A true guard: the body's end is the attempt's, from the state before it. -/
theorem slotRun_error {gd : Guard} {fx : State → FalseFx} {body : State → Try State} {s : State} {h : Halt}
    (hg : s.me.holds gd = true) (hb : body s = .error h) : slotRun gd fx body s = .next (s.halt h) := by
  simp [slotRun, hg, hb]

/-- A false guard: only its mask propagates. -/
theorem slotRun_false {gd : Guard} {fx : State → FalseFx} {body : State → Try State} {s : State} (hg : s.me.holds gd = false) :
    slotRun gd fx body s = .next ((s.falseGuard gd (fx s)).verdict .issued) := by
  simp [slotRun, hg]

/-- An attempt always answers a next state: one of the three above. -/
theorem slotRun_cases (gd : Guard) (fx : State → FalseFx) (body : State → Try State) (s : State) :
    (∃ t, s.me.holds gd = true ∧ body s = .ok t ∧ slotRun gd fx body s = .next (t.verdict .issued)) ∨
    (∃ h, s.me.holds gd = true ∧ body s = .error h ∧ slotRun gd fx body s = .next (s.halt h)) ∨
    (s.me.holds gd = false ∧ slotRun gd fx body s = .next ((s.falseGuard gd (fx s)).verdict .issued)) := by
  cases hg : s.me.holds gd with
  | false => exact .inr (.inr ⟨rfl, slotRun_false hg⟩)
  | true =>
    cases hb : body s with
    | ok t => exact .inl ⟨t, rfl, rfl, slotRun_ok hg hb⟩
    | error h => exact .inr (.inl ⟨h, rfl, rfl, slotRun_error hg hb⟩)

/-- A trap is taken as one of the slot in focus; a block notes its code; a stall changes nothing; both raise OVERRUN in
deterministic mode. -/
theorem State.halt_cases (s : State) (h : Halt) :
    (∃ c code addr, s.halt h = s.trapHere c code addr) ∨
    (∃ n, h = .block n ∧ s.det s.cur.core = false ∧
      s.halt h = (s.modMe (fun x => { x with block := n, yielded := x.yielded || n == 11 })).verdict (.blocked n)) ∨
    (h = .stall ∧ s.det s.cur.core = false ∧ s.halt h = s.verdict .stalled) := by
  cases h with
  | raise c code addr => exact .inl ⟨c, code, addr, rfl⟩
  | block n =>
    cases hd : s.det s.cur.core with
    | true => exact .inl ⟨.overrun, 0, 0, by simp [State.halt, hd]⟩
    | false => exact .inr (.inl ⟨n, rfl, rfl, by simp [State.halt, hd]⟩)
  | stall =>
    cases hd : s.det s.cur.core with
    | true => exact .inl ⟨.overrun, 0, 0, by simp [State.halt, hd]⟩
    | false => exact .inr (.inr ⟨rfl, rfl, by simp [State.halt, hd]⟩)

/-- A false guard of mask zero leaves the state as it is. -/
theorem State.falseGuard_zero {s : State} {gd : Guard} {fx : FalseFx} (h : (s.me.pred gd.g.toNat).mask = 0) :
    s.falseGuard gd fx = s := by simp [State.falseGuard, h]

/-! ## Operands and results -/

theorem State.ready_ok {s : State} {d : Dest} {u : Unit} : s.ready d = .ok u ↔ s.pending d = false := by
  simp [State.ready, must_ok]

/-- A latch read changes nothing but the mark of a lost entry. -/
theorem State.readLatch_state (s : State) (j : BitVec 2) :
    (s.readLatch j).2 = s ∨ (s.readLatch j).2 = s.modMe (fun x => { x with latchlost := true }) := by
  unfold State.readLatch
  dsimp only
  split
  · exact .inr rfl
  · exact .inl rfl

/-- `opnd` pops nothing: it changes nothing but the mark of a lost entry. -/
theorem State.opnd_state {s t : State} {o : Opnd} {v : Lab 64} (h : s.opnd o = .ok (v, t)) :
    t = s ∨ t = s.modMe (fun x => { x with latchlost := true }) := by
  cases o with
  | reg n =>
    simp only [State.opnd, try_bind_ok] at h
    obtain ⟨_, _, h⟩ := h
    exact .inl (congrArg Prod.snd (Except.ok.inj h)).symm
  | latch j =>
    simp only [State.opnd] at h
    obtain rfl : (s.readLatch j).2 = t := congrArg Prod.snd (Except.ok.inj h)
    exact s.readLatch_state j
  | zero =>
    simp only [State.opnd] at h
    exact .inl (congrArg Prod.snd (Except.ok.inj h)).symm
  | port q => simp [State.opnd, raise] at h
  | rnd => simp [State.opnd, raise] at h
  | ext => simp [State.opnd, raise] at h

/-- So is `opnd3`. -/
theorem State.opnd3_state {s t : State} {o : Opnd} {v : Lab 64} (h : s.opnd3 o = .ok (v, t)) :
    t = s ∨ t = s.modMe (fun x => { x with latchlost := true }) := by
  cases o with
  | reg n =>
    simp only [State.opnd3, try_bind_ok] at h
    obtain ⟨_, _, h⟩ := h
    exact .inl (congrArg Prod.snd (Except.ok.inj h)).symm
  | latch j =>
    simp only [State.opnd3] at h
    obtain rfl : (s.readLatch j).2 = t := congrArg Prod.snd (Except.ok.inj h)
    exact s.readLatch_state j
  | zero =>
    simp only [State.opnd3] at h
    exact .inl (congrArg Prod.snd (Except.ok.inj h)).symm
  | ext =>
    simp only [State.opnd3] at h
    exact .inl (congrArg Prod.snd (Except.ok.inj h)).symm
  | port q => simp [State.opnd3, raise] at h
  | rnd => simp [State.opnd3, raise] at h

/-- A result of the own unit touches the context in focus alone: its latches, and its flight unless the write is
suppressed. -/
theorem State.own_me (s : State) (L : Nat) (w : Bool) (d : Dest) (v : BitVec 1024) (m : Mask) :
    (s.own L w d v m).me =
      { s.me with
          latches := s.me.latches ++ [{ slot := s.cur.slot, b0 := s.me.cycle + L, issued := s.me.cycle, val := v, mask := m }]
          flight := if w || d == .nowhere then s.me.flight else s.me.flight ++
            [{ vis := s.me.cycle + L + 1, dest := d, val := v, mask := m, slot := s.cur.slot, own := true, issued := s.me.cycle,
               maskOnly := false }] } := by
  simp [State.own, State.modMe, State.me, State.modCtx, State.modCore, State.ctx, State.core, Core.modCtx, Core.ctx, tget_tmod]

theorem State.quiet_me (s : State) (own : Bool) (dly : Nat) (w : Bool) (d : Dest) (v : BitVec 1024) (m : Mask) :
    (s.quiet own dly w d v m).me =
      { s.me with
          flight := if w || d == .nowhere then s.me.flight else s.me.flight ++
            [{ vis := s.me.cycle + dly, dest := d, val := v, mask := m, slot := s.cur.slot, own := own, issued := s.me.cycle,
               maskOnly := false }] } := by
  simp [State.quiet, State.modMe, State.me, State.modCtx, State.modCore, State.ctx, State.core, Core.modCtx, Core.ctx, tget_tmod]

theorem State.taintUp_me (s : State) (m : Mask) : (s.taintUp m).me = { s.me with taintNext := s.me.taintNext ||| m } := by
  simp [State.taintUp, State.modMe, State.me, State.modCtx, State.modCore, State.ctx, State.core, Core.modCtx, Core.ctx, tget_tmod]

/-! ## Slot-0 shapes -/

/-- A two-operand form with latency L. -/
theorem alu2_ok {f : FS3} {s s1 s2 : State} {a b : Lab 64} (hg : s.me.holds f.gd = true)
    (hd : s.destReady (sDest f.d) = .ok ()) (ha : s.opnd f.a = .ok (a, s1)) (hb : s1.opnd f.b = .ok (b, s2)) (L : Nat)
    (g : Word → Word → Word) :
    alu2 L g f s = .next ((s2.writeS L f.w f.d (g a.val b.val) (s.me.base f.gd ||| a.mask ||| b.mask)).verdict .issued) := by
  simp only [alu2, slotRun, hg, if_true, bind, Except.bind, hd, ha, hb]
  rfl

/-- A one-operand form with latency 1. -/
theorem alu1_ok {gd : Guard} {w : Bool} {d : BitVec 5} {o : Opnd} {s s1 : State} {a : Lab 64} (hg : s.me.holds gd = true)
    (hd : s.destReady (sDest d) = .ok ()) (ha : s.opnd o = .ok (a, s1)) (g : Word → Word) :
    alu1 gd w d o g s = .next ((s1.writeS 1 w d (g a.val) (s.me.base gd ||| a.mask)).verdict .issued) := by
  simp only [alu1, slotRun, hg, if_true, bind, Except.bind, hd, ha]
  rfl

/-- A division takes the divider for 20 cycles. -/
theorem divide_ok {f : FS3} {s s1 s2 : State} {a b : Lab 64} (hg : s.me.holds f.gd = true)
    (hd : s.destReady (sDest f.d) = .ok ()) (ha : s.opnd f.a = .ok (a, s1)) (hb : s1.opnd f.b = .ok (b, s2))
    (hf : s2.me.divFree ≤ s2.me.cycle) (g : Word → Word → Word) :
    divide g f s = .next (((s2.modMe (fun x => { x with divFree := x.cycle + 20 })).writeS 20 f.w f.d (g a.val b.val)
      (s.me.base f.gd ||| a.mask ||| b.mask)).verdict .issued) := by
  simp only [divide, slotRun, hg, if_true, bind, Except.bind, hd, ha, hb, must, hf, decide_true]
  rfl

/-- A division finds the divider busy. -/
theorem divide_busy {f : FS3} {s s1 s2 : State} {a b : Lab 64} (hg : s.me.holds f.gd = true)
    (hd : s.destReady (sDest f.d) = .ok ()) (ha : s.opnd f.a = .ok (a, s1)) (hb : s1.opnd f.b = .ok (b, s2))
    (hf : s2.me.cycle < s2.me.divFree) (g : Word → Word → Word) : divide g f s = .next (s.halt .stall) := by
  have : ¬ s2.me.divFree ≤ s2.me.cycle := by omega
  simp only [divide, slotRun, hg, if_true, bind, Except.bind, hd, ha, hb, must, this, decide_false]
  rfl

/-! ## Traps -/

/-- A trap is delivered, or waits for results, or ends the launch. -/
theorem State.takeTrap_cases (s : State) (core ctx : Nat) (f : TrapFound) :
    let g := { f with frame := (s.core core).frame }
    (s.takeTrap core ctx f =
      (s.modCtx core ctx (fun x => { x with st := .frozenTrap, found := some g, block := 12, bankTrap := none })).deliver core ctx) ∨
    s.takeTrap core ctx f = s.terminal core ctx f.cause f.addr := by
  unfold State.takeTrap State.trapFrom
  dsimp only
  split
  · exact .inl rfl
  · exact .inr rfl

/-! ## Micro-ops -/

/-- Without a running call a micro-op does nothing. -/
theorem microRun_none {body : Call → State → MTry MicroEnd} {s : State} (h : s.runningCall s.cur.core = none) :
    microRun body s = .next s := by simp [microRun, h]

/-- A call that is not to end goes on from its micro-op boundary. -/
theorem State.endAtBoundary_keeps {s : State} {core uid : Nat} (h : ∀ c ∈ (s.core core).calls, c.uid = uid → c.ending = false) :
    s.endAtBoundary core uid = s := by
  unfold State.endAtBoundary
  split
  · rfl
  · next c hc => simp [h c (List.mem_of_find?_eq_some hc) (by simpa using List.find?_some hc)]

/-- A micro-op that is done leaves its call at the next word, where a call that is to end does (R427). -/
theorem microRun_done {body : Call → State → MTry MicroEnd} {s t : State} {c : Call} (h : s.runningCall s.cur.core = some c)
    (hb : body c s = .ok (.done t)) :
    microRun body s = .next ((t.modCall s.cur.core c.uid (fun d => { d with upc := d.upc + 1, ust := .running })).endAtBoundary
      s.cur.core c.uid) := by
  simp [microRun, h, hb, Call.at_]

/-- A fault of a micro-op ends its call. -/
theorem microRun_fault {body : Call → State → MTry MicroEnd} {s : State} {c : Call} {p : PlaneCause}
    (h : s.runningCall s.cur.core = some c) (hb : body c s = .error (.fault p)) :
    microRun body s = .next (s.callFault s.cur.core c p) := by simp [microRun, h, hb]

/-- A micro-op that waits changes nothing but the state of its unit; it gives way when its call is to end (R427). -/
theorem microRun_wait {body : Call → State → MTry MicroEnd} {s : State} {c : Call} {u : UnitState}
    (h : s.runningCall s.cur.core = some c) (hb : body c s = .error (.wait u)) :
    microRun body s = .next (if c.ending then (s.endCall s.cur.core c).finishRetire s.cur.core c.ctx
      else s.modCall s.cur.core c.uid (fun d => { d with ust := u })) := by simp [microRun, h, hb]

theorem State.modCall_modCall (s : State) (core uid : Nat) (f g : Call → Call) (hf : ∀ c, (f c).uid = c.uid) :
    (s.modCall core uid f).modCall core uid g = s.modCall core uid (fun c => g (f c)) := by
  unfold State.modCall
  rw [State.modCore_modCore]
  congr 1
  funext k
  simp only [List.map_map]
  congr 1
  refine List.map_congr_left fun c _ => ?_
  by_cases h : c.uid = uid <;> simp [h, hf]

/-! ## Exports of a plane call -/

/-- Only listed numbers are among the distinct ones. -/
theorem mem_distinct (l : List Nat) (n : Nat) (h : n ∈ distinct l) : n ∈ l := by
  have key : ∀ (l : List Nat) (t : Table Unit), n ∈ (l.foldl (fun (t : Table Unit) n => tput t n ()) t).map (·.1) →
      n ∈ l ∨ n ∈ t.map (·.1) := by
    intro l
    induction l with
    | nil => intro t h; exact .inr h
    | cons a l ih =>
      intro t h
      rcases ih _ h with h | h
      · exact .inl (List.mem_cons_of_mem _ h)
      · obtain ⟨e, he, rfl⟩ := List.mem_map.mp h
        rcases mem_tput _ _ _ _ he with rfl | he
        · exact .inl List.mem_cons_self
        · exact .inr (List.mem_map.mpr ⟨e, he, rfl⟩)
  rcases key l [] h with h | h
  · exact h
  · simp at h

/-! ## Several waits of one slot, and LDAs of a bundle -/

@[simp] theorem both_ok {α β : Type} (a : α) (t : Try β) : both (.ok a) t = t := rfl

@[simp] theorem needed_ok {α β : Type} (a : α) (c : Try β) : needed (.ok a) c = .ok a := rfl

/-- A slot that no LDA of its context holds back runs as any other. -/
theorem accessRun_free {gd : Guard} {fx : State → FalseFx} {body : State → Try State} {s : State} (h : s.ldaHolds = false) :
    accessRun gd fx body s = slotRun gd fx body s := by
  simp [accessRun, slotRun, State.afterLda, h]

theorem State.releaseHeld_none {s : State} (h : ∀ w ∈ s.writes, w.held = false) : s.releaseHeld = s := by
  rw [State.releaseHeld, List.filter_eq_nil_iff.mpr (fun w hw => by simp [h w hw])]
  rfl

/-- A write that can be performed is neither performed nor held, and no access open before it meets it. -/
theorem State.canPerform_ok {s : State} {w : WriteReq} (h : s.canPerform w = true) :
    w.performed = false ∧ w.held = false ∧ s.earlierOpen w.id w.core w.ctx w.pas = false ∧ s.followsOpen w = false := by
  simp only [State.canPerform, Bool.and_eq_true, Bool.not_eq_true'] at h
  exact ⟨h.1.1.1.1.1.1, h.1.1.1.1.1.2, h.1.2, h.2⟩

/-- A bound on the owners of cells that are sent bounds the owners of the exports. -/
theorem exports_owner (c : Call) (p : Plane) (self first m : Nat) (clk : Clock) (hc : ∀ q o x, c.fate q = .sent o x → o < m) :
    ∀ e ∈ c.exportsOf p self first clk, e.owner < m := by
  intro e he
  simp only [Call.exportsOf, List.mem_map] at he
  obtain ⟨⟨i, o⟩, hz, rfl⟩ := he
  have := mem_distinct _ _ (List.of_mem_zip hz).2
  simp only [List.mem_map, List.mem_filterMap] at this
  obtain ⟨⟨o', h⟩, ⟨j, _, hj⟩, rfl⟩ := this
  split at hj
  · rename_i o x hf
    simp only [Option.some.injEq, Prod.mk.injEq] at hj
    exact hj.1 ▸ hc _ _ _ hf
  · simp at hj

end Sys2Proof.Machine
end

