-- ==== Sys2Proof/Laws/Waits.lean ====
section
/-! SUPPORT. What an access, an operation of an engine, a held MLOAD, a bundle's slots and the pause of the mesh wait for, said once
each. -/

set_option Elab.async false

namespace Sys2Proof.Machine

/-! ## Accesses -/

/-- A span answers its bytes when each passes its checks, none leaves the open phase, and a load or store of the own slice overtakes
nothing. -/
theorem State.span_ok {s : State} {k : AKind} {va : Word} {n : Nat} {m : Mask} {hs : List Hit} :
    s.span k va n m = .ok hs ↔ s.checkSpan (s.accessOf k m) va.toNat n = .ok hs ∧
      (k ≠ .atomic → s.escapes (k == .write) hs 0 = none ∧ s.overdue hs = false) := by
  unfold State.span
  cases s.checkSpan (s.accessOf k m) va.toNat n with
  | error e => simp
  | ok hs' =>
    by_cases hk : k = .atomic
    · simp [hk]
    · cases he : s.escapes (k == .write) hs' 0 <;> cases ho : s.overdue hs' <;> simp [hk, he, ho] <;>
        (rintro rfl; simp_all)

/-- The first byte that fails gives the cause and the address. -/
theorem State.span_raise {s : State} {k : AKind} {va a : Word} {n : Nat} {m : Mask} {c : Cause}
    (h : s.checkSpan (s.accessOf k m) va.toNat n = .error (c, a)) : s.span k va n m = .error (.raise c 0 a) := by
  simp [State.span, h]

/-- A byte outside the open phase. -/
theorem State.span_escape {s : State} {k : AKind} {va : Word} {n i : Nat} {m : Mask} {hs : List Hit} (hk : k ≠ .atomic)
    (h : s.checkSpan (s.accessOf k m) va.toNat n = .ok hs) (he : s.escapes (k == .write) hs 0 = some i) :
    s.span k va n m = .error (.raise .phaseEscape 0 (va + BitVec.ofNat 64 i)) := by
  simp [State.span, h, hk, he]

/-- An access of the own slice that comes too soon. -/
theorem State.span_overdue {s : State} {k : AKind} {va : Word} {n : Nat} {m : Mask} {hs : List Hit} (hk : k ≠ .atomic)
    (h : s.checkSpan (s.accessOf k m) va.toNat n = .ok hs) (he : s.escapes (k == .write) hs 0 = none) (ho : s.overdue hs = true) :
    s.span k va n m = .error .stall := by
  simp [State.span, h, hk, he, ho]

/-! ## Forks -/

theorem State.syncing_eq_true {s : State} {id core ctx : Nat} :
    s.syncing id core ctx = true ↔ ∃ v, (s.ctx core ctx).wait2 = some (.vsync v) ∧ (s.ctx core ctx).syncAt ≤ id := by
  unfold State.syncing
  split <;> simp_all

/-- What an operation of an engine waits for: an LDA or a read of memory before it, an atomic before it that has not been answered, and a
VSYNC. -/
theorem State.forkWaits_eq_true {s : State} {id core ctx : Nat} : s.forkWaits id core ctx = true ↔
    (∃ r ∈ s.reads, r.id < id ∧ r.core = core ∧ r.ctx = ctx ∧ (r.acquire = true ∨ ∀ n, r.kind ≠ .sysr n)) ∨
    (∃ a ∈ s.atoms, a.id < id ∧ a.core = core ∧ a.ctx = ctx ∧ a.stage ≠ .replied) ∨ s.syncing id core ctx = true := by
  simp only [State.forkWaits, State.acquiring, Bool.or_eq_true, List.any_eq_true, Bool.and_eq_true, decide_eq_true_eq, beq_iff_eq,
    bne_iff_ne]
  constructor
  · rintro (((⟨r, hr, h⟩ | h) | ⟨r, hr, h⟩) | ⟨a, ha, h⟩)
    · exact .inl ⟨r, hr, h.1.1.1, h.1.1.2, h.1.2, .inl h.2⟩
    · exact .inr (.inr h)
    · exact .inl ⟨r, hr, h.1.1.1, h.1.1.2, h.1.2,  .inr (fun n hn => by simp [hn] at h)⟩
    · exact .inr (.inl ⟨a, ha, h.1.1.1, h.1.1.2, h.1.2, h.2⟩)
  · rintro (⟨r, hr, h1, h2, h3, h4 | h4⟩ | ⟨a, ha, h⟩ | h)
    · exact .inl (.inl (.inl ⟨r, hr, ⟨⟨h1, h2⟩, h3⟩, h4⟩))
    · refine .inl (.inr ⟨r, hr, ⟨⟨h1, h2⟩, h3⟩, ?_⟩)
      split
      · rename_i n hn
        exact absurd hn (h4 n)
      · rfl
    · exact .inr ⟨a, ha, ⟨⟨h.1, h.2.1⟩, h.2.2.1⟩, h.2.2.2⟩
    · exact .inl (.inl (.inr h))

/-! ## The MLOAD that holds a core -/

theorem State.finishMload_none {s : State} {core : Nat} (h : (s.core core).mload = none) : s.finishMload core = s := by
  simp [State.finishMload, h]

theorem State.finishMload_waits {s : State} {core : Nat} {m : MloadHold} (h : (s.core core).mload = some m)
    (hw : s.mloadWaits core m = true) : s.finishMload core = s := by
  simp [State.finishMload, h, hw]

/-! ## The slots of a bundle -/

@[simp] theorem slotVerdicts_nil (s : State) : slotVerdicts s [] = [] := rfl

@[simp] theorem slotVerdicts_cons (s : State) (e : Nat × Instr) (es : List (Nat × Instr)) :
    slotVerdicts s (e :: es) = slotVerdict s e :: slotVerdicts (s.slotTakes e.2) es := rfl

/-- Each slot is asked in the state that the slots before it leave by what they pop and push. -/
theorem mem_slotVerdicts {s : State} {es : List (Nat × Instr)} {v : Nat × Verdict} : v ∈ slotVerdicts s es ↔
    ∃ pre e post, es = pre ++ e :: post ∧ v = slotVerdict (pre.foldl (fun t e => t.slotTakes e.2) s) e := by
  induction es generalizing s with
  | nil => simp
  | cons e es ih =>
    simp only [slotVerdicts_cons, List.mem_cons, ih]
    constructor
    · rintro (rfl | ⟨pre, d, post, rfl, rfl⟩)
      · exact ⟨[], e, es, rfl, rfl⟩
      · exact ⟨e :: pre, d, post, rfl, rfl⟩
    · rintro ⟨_ | ⟨c, pre⟩, d, post, h, rfl⟩
      · obtain ⟨rfl, rfl⟩ := List.cons.inj h
        exact .inl rfl
      · obtain ⟨rfl, rfl⟩ := List.cons.inj h
        exact .inr ⟨pre, d, post, rfl, rfl⟩

/-! ## The transpose unit and the mesh -/

@[simp] theorem Transpose.settled_idle {t : Transpose} {at_ : Nat} (h : t.late = none) : t.settled at_ = t := by
  simp [Transpose.settled, h]

/-- What the unit does in a cycle shows in a later one (R259). -/
theorem Transpose.settled_same {t : Transpose} {at_ now : Nat} {drop : Bool} (h : t.late = some (drop, now)) (hn : at_ ≤ now) :
    t.settled at_ = t := by
  simp [Transpose.settled, h, hn]

theorem State.notInjected_eq_true {s : State} {id : Nat} :
    s.notInjected id = true ↔ s.meshPause = true ∧ (s.meshMark ≤ id ∨ id ∈ s.meshHeld) := by
  simp [State.notInjected]

/-- The classes are drained when nothing of them moves. -/
theorem State.meshDrained_eq_true {s : State} : s.meshDrained = true ↔
    (∀ r ∈ s.reads, s.readMoves r = false) ∧ (∀ w ∈ s.writes, s.writeMoves w = false) ∧ (∀ a ∈ s.atoms, s.atomMoves a = false) ∧
    (∀ d ∈ s.dies, ∀ m ∈ d.2.misses, m.2.started = false) ∧
    ∀ k ∈ s.cores, ∀ c ∈ k.2.calls, ∀ b ∈ c.inboxes, s.haloMoves k.1 b = false := by
  simp [State.meshDrained, and_assoc]

end Sys2Proof.Machine
end

