-- ==== Sys2Proof/Tests/Slice0.lean ====
section
/-! SUPPORT. Tests: the checks of well-formedness, decoded words, single steps on small states, and for every statement
states that meet its hypotheses. Values expected of an instruction come from the rule cited beside it. -/

set_option maxRecDepth 100000
set_option Elab.async false

namespace Sys2Proof.Tests

open Sys2Proof Sys2Proof.Machine

/-! ### Well-formedness: each check refuses an ill-formed term, and accepts its neighbour -/

/-- The guard of the tests. -/
abbrev g0 : Guard := Guard.always

theorem test_wf_scalar_operand : (Instr.add ⟨g0, false, 1, .port 0, .zero⟩).wf = false ∧
    (Instr.add ⟨g0, false, 1, .zero, .ext⟩).wf = false ∧ (Instr.add ⟨g0, false, 1, .latch 3, .reg 31⟩).wf = true := by
  decide

theorem test_wf_engine_operand : (Instr.hset ⟨g0, .reg 8, .zero⟩).wf = false ∧
    (Instr.hset ⟨g0, .zero, .rnd⟩).wf = false ∧ (Instr.hset ⟨g0, .reg 7, .ext⟩).wf = true := by decide

theorem test_wf_vector_memory_operands : (Instr.vld ⟨g0, false, 1, .ext, .zero, .w256⟩).wf = false ∧
    (Instr.vld ⟨g0, false, 1, .zero, .port 1, .w256⟩).wf = false ∧
    (Instr.vld ⟨g0, false, 1, .zero, .ext, .w256⟩).wf = true ∧
    (Instr.vgather ⟨g0, false, 1, .zero, .ext, .w256, .b8⟩).wf = false := by decide

theorem test_wf_direction_operands : (Instr.dmov ⟨g0, false, 1, .reg 16, .c1⟩).wf = false ∧
    (Instr.dmov ⟨g0, false, 1, .latch 0, .c1⟩).wf = false ∧ (Instr.dmov ⟨g0, false, 1, .reg 15, .c1⟩).wf = true ∧
    (Instr.dnorm ⟨g0, false, 1, .zero, .c1, false⟩).wf = false ∧
    (Instr.dnset ⟨g0, false, 1, .reg 0, .port 2, .c1⟩).wf = false ∧
    (Instr.dnset ⟨g0, false, 1, .reg 0, .ext, .c1⟩).wf = true := by decide

theorem test_wf_cross_move : (Instr.xmov ⟨g0, false, 1, .reg 2, 0, .x, .x⟩).wf = false ∧
    (Instr.xmov ⟨g0, false, 8, .reg 2, 0, .m, .s⟩).wf = false ∧
    (Instr.xmov ⟨g0, false, 1, .reg 8, 0, .s, .m⟩).wf = false ∧
    (Instr.xmov ⟨g0, false, 1, .reg 2, 1, .x, .y⟩).wf = false ∧
    (Instr.xmov ⟨g0, false, 1, .latch 0, 0, .s, .x⟩).wf = false ∧
    (Instr.xmov ⟨g0, false, 1, .reg 2, 15, .s, .x⟩).wf = true := by decide

/-- A lane index or a part past the last is an instruction, which raises when it is executed (R158, R326, R329). -/
theorem test_wf_lane_index : (Instr.vbcast ⟨g0, false, 1, .reg 2, 8, .w256, .b32⟩).wf = true ∧
    (Instr.vpack ⟨g0, false, 1, .reg 2, 2, 0, .w256⟩).wf = true ∧
    (Instr.vunpk ⟨g0, false, 1, .reg 2, 7, 7, .w1024⟩).wf = true := by decide

theorem test_wf_reserved_fields : (Instr.vcvt ⟨g0, false, 1, .reg 2, .raw, .f32, .w256⟩).wf = false ∧
    (Instr.vcvt ⟨g0, false, 1, .reg 2, .f32, .raw, .w256⟩).wf = false ∧
    (Instr.plog ⟨g0, 1, 2, 3, .neg⟩).wf = false ∧ (Instr.plog ⟨g0, 1, 2, 3, .conj⟩).wf = true ∧
    (Instr.klog ⟨g0, 1, 2, 3, .mov⟩).wf = false ∧ (Instr.klog ⟨g0, 1, 2, 0, .set⟩).wf = false ∧
    (Instr.lds ⟨g0, false, 1, .reg 2, .b8, 0⟩).wf = false ∧
    (Instr.shift ⟨true, 0, false, false, .o⟩).wf = false ∧ (Instr.hmrg (.imm 17)).wf = false ∧
    (Instr.hmrg (.imm 16)).wf = true := by decide


/-! ### Decoding: words of the spec, and words written out from its encoding tables

Where the spec spells a word in assembly, the word is the spec's; the others are the field values of R133 to R158 put
at their places. -/

/-- Each word decodes, in its slot, to the instruction beside it. -/
def reads (l : List (Nat × BitVec 32 × Instr)) : Prop :=
  ∀ r ∈ l, decodeSlot r.1 r.2.1 = .ok r.2.2

theorem reads_nil : reads [] := by simp [reads]

theorem reads_cons {s : Nat} {w : BitVec 32} {i : Instr} {l : List (Nat × BitVec 32 × Instr)}
    (h : decodeSlot s w = .ok i) (hl : reads l) : reads ((s, w, i) :: l) := by
  intro r hr
  rcases List.mem_cons.mp hr with rfl | hr
  · exact h
  · exact hl r hr

theorem test_decode_scalar_0 : reads [
    (0, 0x7003080C, .shli ⟨⟨0, false⟩, false, 3, .reg 2, 0xc⟩),
    (0, 0x78031234, .movsh ⟨⟨0, false⟩, false, 3, 0x1234⟩),
    (0, 0x7C0182D4, .cmp ⟨⟨0, false⟩, .write, 1, .latch 0, .zero, .gt⟩),
    (0, 0x80030423, .plog ⟨⟨0, false⟩, 3, 1, 2, .andn⟩),
    (0, 0x849FFFFE, .br ⟨⟨1, false⟩, 0x1ffffe⟩),
    (0, 0x74010005, .movi ⟨⟨0, false⟩, false, 1, 5⟩),
    (0, 0x74020000, .movi ⟨⟨0, false⟩, false, 2, 0⟩),
    (0, 0x600107FF, .addi ⟨⟨0, false⟩, false, 1, .reg 1, 0x3ff⟩),
    (0, 0x08020810, .add ⟨⟨0, false⟩, false, 2, .reg 2, .reg 1⟩),
    (0, 0x04000000, .nop ⟨⟨0, false⟩⟩),
    (0, 0x9C030A02, .ld ⟨⟨0, false⟩, false, 3, .reg 2, .b4, 2⟩),
    (0, 0xA8041A00, .ldfe ⟨⟨0, false⟩, false, 4, .reg 6, true, 0⟩)] := by
  repeat first | exact reads_nil | refine reads_cons rfl ?_

theorem test_decode_scalar_1 : reads [
    (0, 0xB0070103, .pld ⟨⟨0, false⟩, false, 7, .reg 0, 2, 3⟩),
    (0, 0xB4031481, .xmov ⟨⟨0, false⟩, false, 3, .reg 5, 2, .s, .x⟩),
    (0, 0xB8030000, .sysr ⟨⟨0, false⟩, false, 3, 0⟩),
    (0, 0xBC040020, .sysw ⟨⟨0, false⟩, 4, 0x20⟩),
    (0, 0xC0001400, .setfmt ⟨⟨0, false⟩, .reg 5⟩),
    (0, 0xC4050888, .lda ⟨⟨0, false⟩, false, 5, .reg 2, .clu, .b4⟩),
    (0, 0xC8030888, .stl ⟨⟨0, false⟩, 3, .reg 2, .clu, .b4⟩),
    (0, 0xCC000183, .fence ⟨⟨0, false⟩, .dev, .full⟩),
    (0, 0xD0000000, .vsync ⟨⟨0, false⟩⟩),
    (0, 0xD4040830, .aadd ⟨⟨0, false⟩, false, 4, .reg 2, .reg 3⟩),
    (0, 0xD8050860, .acas ⟨⟨0, false⟩, false, 5, .reg 2, .reg 6⟩),
    (0, 0xDC000470, .afadd ⟨⟨0, false⟩, .reg 1, .reg 7⟩)] := by
  repeat first | exact reads_nil | refine reads_cons rfl ?_

theorem test_decode_scalar_2 : reads [
    (0, 0xDC080401, .axread ⟨⟨0, false⟩, false, 8, .reg 1⟩),
    (0, 0xDC000402, .axclr ⟨⟨0, false⟩, .reg 1⟩),
    (0, 0xE0000402, .gbar ⟨⟨0, false⟩, .reg 1⟩),
    (0, 0xE0030403, .gquery ⟨⟨0, false⟩, false, 3, .reg 1⟩),
    (0, 0xE4000830, .snapadv ⟨⟨0, false⟩, .reg 2, .reg 3⟩),
    (0, 0xE8000810, .phase ⟨⟨0, false⟩, .reg 2, 4⟩),
    (0, 0xEC031000, .lblget ⟨⟨0, false⟩, false, 3, .reg 4⟩),
    (0, 0xEC001051, .lblraise ⟨⟨0, false⟩, .reg 4, .reg 5⟩),
    (0, 0xF0000700, .trap ⟨⟨0, false⟩, 7⟩),
    (0, 0xF0000001, .eret ⟨⟨0, false⟩⟩),
    (0, 0xF0000002, .yield ⟨⟨0, false⟩⟩),
    (0, 0xF0000C03, .waite ⟨⟨0, false⟩, .reg 3⟩)] := by
  repeat first | exact reads_nil | refine reads_cons rfl ?_

theorem test_decode_scalar_3 : reads [
    (0, 0xF0000004, .haltctx ⟨⟨0, false⟩⟩),
    (0, 0xF0000005, .dbgbrk ⟨⟨0, false⟩⟩),
    (0, 0xB8010000, .sysr ⟨⟨0, false⟩, false, 1, 0⟩),
    (0, 0x640180FF, .andi ⟨⟨0, false⟩, false, 1, .latch 0, 0xff⟩),
    (0, 0x70028007, .shli ⟨⟨0, false⟩, false, 2, .latch 0, 7⟩),
    (0, 0xB003800D, .pld ⟨⟨0, false⟩, false, 3, .latch 0, 0, 0xd⟩),
    (0, 0xA4050C00, .st ⟨⟨0, false⟩, 5, .reg 3, .b1, 0⟩),
    (0, 0xA4040F01, .st ⟨⟨0, false⟩, 4, .reg 3, .b8, 1⟩),
    (0, 0xB400180C, .xmov ⟨⟨0, false⟩, false, 0, .reg 6, 0, .m, .s⟩),
    (0, 0x7C012C00, .cmp ⟨⟨0, false⟩, .write, 1, .reg 0xb, .reg 0, .eq⟩),
    (0, 0x8480000B, .br ⟨⟨1, false⟩, 0xb⟩),
    (0, 0xAC0C2C00, .stfe ⟨⟨0, false⟩, 0xc, .reg 0xb, 0⟩)] := by
  repeat first | exact reads_nil | refine reads_cons rfl ?_

theorem test_decode_scalar_4 : reads [
    (0, 0xA80A2E00, .ldfe ⟨⟨0, false⟩, false, 0xa, .reg 0xb, true, 0⟩),
    (0, 0xCC000081, .fence ⟨⟨0, false⟩, .clu, .acq⟩),
    (0, 0xAC0C2400, .stfe ⟨⟨0, false⟩, 0xc, .reg 9, 0⟩),
    (0, 0xBC060200, .sysw ⟨⟨0, false⟩, 6, 0x200⟩),
    (0, 0x0C058030, .sub ⟨⟨0, false⟩, false, 5, .latch 0, .reg 3⟩),
    (0, 0x780C0007, .movsh ⟨⟨0, false⟩, false, 0xc, 7⟩),
    (0, 0xF0003003, .waite ⟨⟨0, false⟩, .reg 0xc⟩),
    (0, 0xF1800004, .haltctx ⟨⟨3, false⟩⟩),
    (0, 0x9E080E00, .ld ⟨⟨4, false⟩, false, 8, .reg 3, .b4, 0⟩),
    (0, 0xC6880D08, .lda ⟨⟨5, false⟩, false, 8, .reg 3, .die, .b4⟩),
    (0, 0xD0800000, .vsync ⟨⟨1, false⟩⟩),
    (0, 0x10CA86D0, .mul ⟨⟨1, true⟩, false, 0xa, .latch 1, .zero⟩)] := by
  repeat first | exact reads_nil | refine reads_cons rfl ?_

theorem test_decode_scalar_5 : reads [
    (0, 0x1531B470, .mulh ⟨⟨2, false⟩, true, 0x11, .zero, .reg 7⟩),
    (0, 0x19F82230, .mulhu ⟨⟨3, true⟩, true, 0x18, .reg 8, .latch 3⟩),
    (0, 0x1E1F82D0, .div ⟨⟨4, false⟩, false, 0x1f, .latch 0, .zero⟩),
    (0, 0x22C6B4A0, .divu ⟨⟨5, true⟩, false, 6, .zero, .reg 10⟩),
    (0, 0x272D2E20, .rem ⟨⟨6, false⟩, true, 0xd, .reg 11, .latch 2⟩),
    (0, 0x2BF48ED0, .remu ⟨⟨7, true⟩, true, 0x14, .latch 3, .zero⟩),
    (0, 0x2C1BB4D0, .and ⟨⟨0, false⟩, false, 0x1b, .zero, .reg 13⟩),
    (0, 0x30C23A10, .or ⟨⟨1, true⟩, false, 2, .reg 14, .latch 1⟩),
    (0, 0x35298AD0, .xor ⟨⟨2, false⟩, true, 9, .latch 2, .zero⟩),
    (0, 0x39F0B500, .andn ⟨⟨3, true⟩, true, 0x10, .zero, .reg 16⟩),
    (0, 0x3E174600, .shl ⟨⟨4, false⟩, false, 0x17, .reg 17, .latch 0⟩),
    (0, 0x42DE86D0, .shr ⟨⟨5, true⟩, false, 0x1e, .latch 1, .zero⟩)] := by
  repeat first | exact reads_nil | refine reads_cons rfl ?_

theorem test_decode_scalar_6 : reads [
    (0, 0x4725B530, .sar ⟨⟨6, false⟩, true, 5, .zero, .reg 19⟩),
    (0, 0x4BEC5230, .min ⟨⟨7, true⟩, true, 0xc, .reg 20, .latch 3⟩),
    (0, 0x4C1382D0, .max ⟨⟨0, false⟩, false, 0x13, .latch 0, .zero⟩),
    (0, 0x50DAB560, .minu ⟨⟨1, true⟩, false, 0x1a, .zero, .reg 22⟩),
    (0, 0x55215E20, .maxu ⟨⟨2, false⟩, true, 1, .reg 23, .latch 2⟩),
    (0, 0x59E88C00, .clz ⟨⟨3, true⟩, true, 8, .latch 3⟩),
    (0, 0x5A0FB401, .ctz ⟨⟨4, false⟩, false, 0xf, .zero⟩),
    (0, 0x5AD61802, .popc ⟨⟨5, true⟩, false, 0x16, .reg 6⟩),
    (0, 0x5F3D8AD6, .sel ⟨⟨6, false⟩, true, 0x1d, .latch 2, .zero, 6⟩),
    (0, 0x6BE4B7FD, .ori ⟨⟨7, true⟩, true, 4, .zero, 0x3fd⟩),
    (0, 0x6C0B27FF, .xori ⟨⟨0, false⟩, false, 0xb, .reg 9, 0x3ff⟩),
    (0, 0x70D2853E, .shri ⟨⟨1, true⟩, false, 0x12, .latch 1, 0x3e⟩)] := by
  repeat first | exact reads_nil | refine reads_cons rfl ?_

theorem test_decode_scalar_7 : reads [
    (0, 0x7139B63D, .sari ⟨⟨2, false⟩, true, 0x19, .zero, 0x3d⟩),
    (0, 0x89DABCDE, .call ⟨⟨3, true⟩, 0x1abcde⟩),
    (0, 0x8E008000, .calli ⟨⟨4, false⟩, .latch 0⟩),
    (0, 0x92C00000, .ret ⟨⟨5, true⟩⟩),
    (0, 0x97003FFF, .bswap ⟨⟨6, false⟩, 0x3fff⟩),
    (0, 0x9BC00000, .ifence ⟨⟨7, true⟩⟩),
    (0, 0xA003B6FD, .lds ⟨⟨0, false⟩, false, 3, .zero, .b4, 0xfd⟩),
    (0, 0xD4CA4A11, .aand ⟨⟨1, true⟩, false, 0xa, .reg 18, .latch 1⟩),
    (0, 0xD5318AD2, .aor ⟨⟨2, false⟩, true, 0x11, .latch 2, .zero⟩),
    (0, 0xD5F8B543, .axor ⟨⟨3, true⟩, true, 0x18, .zero, .reg 20⟩),
    (0, 0xD61F5604, .amin ⟨⟨4, false⟩, false, 0x1f, .reg 21, .latch 0⟩),
    (0, 0xD6C686D5, .amax ⟨⟨5, true⟩, false, 6, .latch 1, .zero⟩)] := by
  repeat first | exact reads_nil | refine reads_cons rfl ?_

theorem test_decode_scalar_8 : reads [
    (0, 0xD72DB576, .aminu ⟨⟨6, false⟩, true, 0xd, .zero, .reg 23⟩),
    (0, 0xD7F46237, .amaxu ⟨⟨7, true⟩, true, 0x14, .reg 24, .latch 3⟩),
    (0, 0xD41B82D8, .aswap ⟨⟨0, false⟩, false, 0x1b, .latch 0, .zero⟩),
    (0, 0xE0C0B400, .gjoin ⟨⟨1, true⟩, .zero⟩),
    (0, 0xE1001C01, .gleave ⟨⟨2, false⟩, .reg 7⟩)] := by
  repeat first | exact reads_nil | refine reads_cons rfl ?_

theorem test_decode_vector_0 : reads [
    (1, 0x44020BF0, .viadd ⟨⟨0, false⟩, false, 2, .reg 2, .ext, .w256, .i32⟩),
    (1, 0xAC040428, .vld ⟨⟨0, false⟩, false, 4, .reg 1, .reg 2, .w1024⟩),
    (1, 0xB0060424, .vst ⟨⟨0, false⟩, 6, .reg 1, .reg 2, .w512⟩),
    (1, 0xB4080438, .vlds ⟨⟨0, false⟩, false, 8, .reg 1, .reg 3, .w1024⟩),
    (1, 0xB8090458, .vgather ⟨⟨0, false⟩, false, 9, .reg 1, .reg 5, .w1024, .b32⟩),
    (1, 0xBC090456, .vscatter ⟨⟨0, false⟩, 9, .reg 1, .reg 5, .w512, .b16⟩),
    (1, 0x18030604, .vfms ⟨⟨0, false⟩, false, 3, .reg 1, .latch 0, .w512, .f32⟩),
    (1, 0x30030408, .vrsq ⟨⟨0, false⟩, false, 3, .reg 1, .w1024⟩),
    (1, 0x50050429, .vimad ⟨⟨0, false⟩, false, 5, .reg 1, .reg 2, .w1024, .i8⟩),
    (1, 0x780413F6, .vsar ⟨⟨0, false⟩, false, 4, .reg 4, .ext, .w512, .b16⟩),
    (1, 0x400A0468, .vcmp ⟨⟨0, false⟩, .lt, 2, .reg 1, .reg 6, .w1024, .f32⟩),
    (1, 0x7C032508, .vmrg ⟨⟨0, false⟩, false, 3, .reg 9, 2, .w1024⟩)] := by
  repeat first | exact reads_nil | refine reads_cons rfl ?_

theorem test_decode_vector_1 : reads [
    (1, 0xA4030423, .klog ⟨⟨0, false⟩, 3, 1, 2, .andn⟩),
    (1, 0x80021408, .vred ⟨⟨0, false⟩, false, 2, .reg 5, .add (.f32), .w1024⟩),
    (1, 0x84020439, .vperm ⟨⟨0, false⟩, false, 2, .reg 1, .reg 3, .w1024, .b8⟩),
    (1, 0x88040458, .vbcast ⟨⟨0, false⟩, false, 4, .reg 1, 5, .w1024, .b32⟩),
    (1, 0xA0010004, .vmov ⟨⟨0, false⟩, false, 1, .reg 0, .w512⟩),
    (1, 0xA0201668, .vmovPush ⟨⟨0, false⟩, true, 0, .reg 5, 2, .w1024⟩),
    (1, 0x94060838, .vcvt ⟨⟨0, false⟩, false, 6, .reg 2, .f32, .f8e4, .w1024⟩),
    (1, 0x98071918, .vpack ⟨⟨0, false⟩, false, 7, .reg 6, 2, 1, .w1024⟩),
    (1, 0xAC012BF8, .vld ⟨⟨0, false⟩, false, 1, .reg 0xa, .ext, .w1024⟩),
    (1, 0x100383F8, .vmul ⟨⟨0, false⟩, false, 3, .latch 0, .ext, .w1024, .f32⟩),
    (1, 0x080483F8, .vadd ⟨⟨0, false⟩, false, 4, .latch 0, .ext, .w1024, .f32⟩),
    (1, 0xB0042C08, .vst ⟨⟨0, false⟩, 4, .reg 0xb, .reg 0, .w1024⟩)] := by
  repeat first | exact reads_nil | refine reads_cons rfl ?_

theorem test_decode_vector_2 : reads [
    (1, 0x0DF09EC5, .vsub ⟨⟨3, true⟩, true, 0x10, .port 3, .rnd, .w512, .f16⟩),
    (1, 0x1617B09A, .vfma ⟨⟨4, false⟩, false, 0x17, .rnd, .reg 9, .w1024, .bf16⟩),
    (1, 0x1EDE2A90, .vmin ⟨⟨5, true⟩, false, 0x1e, .reg 10, .port 5, .w256, .f32⟩),
    (1, 0x2325AAC5, .vmax ⟨⟨6, false⟩, true, 5, .port 6, .rnd, .w512, .f16⟩),
    (1, 0x27ECB00A, .vabs ⟨⟨7, true⟩, true, 0xc, .rnd, .w1024, .bf16⟩),
    (1, 0x28133400, .vneg ⟨⟨0, false⟩, false, 0x13, .reg 13, .w256, .f32⟩),
    (1, 0x2CDA9404, .vrcp ⟨⟨1, true⟩, false, 0x1a, .port 1, .w512⟩),
    (1, 0x3521B008, .vsqrt ⟨⟨2, false⟩, true, 1, .rnd, .w1024⟩),
    (1, 0x39E84000, .vexp2 ⟨⟨3, true⟩, true, 8, .reg 16, .w256⟩),
    (1, 0x3E0FA004, .vlog2 ⟨⟨4, false⟩, false, 0xf, .port 4, .w512⟩),
    (1, 0x4AD6B129, .visub ⟨⟨5, true⟩, false, 0x16, .rnd, .reg 18, .w1024, .i8⟩),
    (1, 0x4F3D4EA0, .vimul ⟨⟨6, false⟩, true, 0x1d, .reg 19, .port 6, .w256, .i32⟩)] := by
  repeat first | exact reads_nil | refine reads_cons rfl ?_

theorem test_decode_vector_3 : reads [
    (1, 0x57E4AEC5, .vimin ⟨⟨7, true⟩, true, 4, .port 7, .rnd, .w512, .i8⟩),
    (1, 0x580BB158, .vimax ⟨⟨0, false⟩, false, 0xb, .rnd, .reg 21, .w1024, .i32⟩),
    (1, 0x5CDD5A51, .vicmp ⟨⟨1, true⟩, .ltu, 5, .reg 22, .port 1, .w256, .i8⟩),
    (1, 0x61399AC6, .vand ⟨⟨2, false⟩, true, 0x19, .port 2, .rnd, .w512, .b16⟩),
    (1, 0x65E0B18B, .vor ⟨⟨3, true⟩, true, 0, .rnd, .reg 24, .w1024, .b64⟩),
    (1, 0x6A071680, .vxor ⟨⟨4, false⟩, false, 7, .reg 5, .port 4, .w256, .b32⟩),
    (1, 0x6ECEA6C5, .vandn ⟨⟨5, true⟩, false, 0xe, .port 5, .rnd, .w512, .b8⟩),
    (1, 0x7335B07A, .vshl ⟨⟨6, false⟩, true, 0x15, .rnd, .reg 7, .w1024, .b16⟩),
    (1, 0x77FC22B3, .vshr ⟨⟨7, true⟩, true, 0x1c, .reg 8, .port 7, .w256, .b64⟩),
    (1, 0x8C039034, .vextr ⟨⟨0, false⟩, false, 3, .port 0, 3, .w512, .b32⟩),
    (1, 0x90CAB039, .vins ⟨⟨1, true⟩, false, 0xa, .rnd, 3, .w1024, .b8⟩),
    (1, 0x9D312EA0, .vunpk ⟨⟨2, false⟩, true, 0x11, .reg 11, 5, 2, .w256⟩)] := by
  repeat first | exact reads_nil | refine reads_cons rfl ?_

theorem test_decode_direction_0 : reads [
    (2, 0xC0021003, .dnorm ⟨⟨0, false⟩, false, 2, .reg 4, .c2, true⟩),
    (2, 0xE0061800, .dneg ⟨⟨0, false⟩, false, 6, .reg 6, .c1⟩),
    (2, 0xD4030FF0, .dscale ⟨⟨0, false⟩, false, 3, .reg 3, .ext, .c1⟩),
    (2, 0xD8010830, .dadd ⟨⟨0, false⟩, false, 1, .reg 2, .reg 3, .c1⟩),
    (2, 0xE8050A72, .dmaxcos ⟨⟨0, false⟩, false, 5, .reg 2, 3, .c2, false⟩),
    (2, 0xC0000802, .dnorm ⟨⟨0, false⟩, false, 0, .reg 2, .c2, false⟩),
    (2, 0xE8080242, .dmaxcos ⟨⟨0, false⟩, false, 8, .reg 0, 0, .c2, false⟩),
    (2, 0xEC090000, .dnget ⟨⟨0, false⟩, false, 9, .reg 0⟩),
    (2, 0xEC090800, .dnget ⟨⟨0, false⟩, false, 9, .reg 2⟩),
    (2, 0xC5E82405, .dunnorm ⟨⟨3, true⟩, true, 8, .reg 9, .c4, true⟩),
    (2, 0xCA0F0806, .dmov ⟨⟨4, false⟩, false, 0xf, .reg 2, .c8⟩),
    (2, 0xCAC63809, .dmovRaw ⟨⟨5, true⟩, false, 6, .reg 14, .c16⟩)] := by
  repeat first | exact reads_nil | refine reads_cons rfl ?_

theorem test_decode_direction_1 : reads [
    (2, 0xCF2D0000, .dzero ⟨⟨6, false⟩, true, 0xd, .c1⟩),
    (2, 0xD3E40862, .ddot ⟨⟨7, true⟩, true, 4, .reg 2, .reg 6, .c2⟩),
    (2, 0xDC0B1ED4, .dsub ⟨⟨0, false⟩, false, 0xb, .reg 7, .zero, .c4⟩),
    (2, 0xE4C2B426, .dmul ⟨⟨1, true⟩, false, 2, .zero, .reg 2, .c8⟩),
    (2, 0xF1290898, .dnset ⟨⟨2, false⟩, true, 9, .reg 2, .reg 9, .c16⟩)] := by
  repeat first | exact reads_nil | refine reads_cons rfl ?_

theorem test_decode_engine_0 : reads [
    (3, 0x0C000200, .mcall ⟨⟨0, false⟩, 2⟩),
    (3, 0x10030400, .rset ⟨⟨0, false⟩, 3, .reg 1⟩),
    (3, 0x2C030840, .copy ⟨⟨0, false⟩, 3, .reg 2, .reg 4, false⟩),
    (3, 0x3C051800, .hwait ⟨⟨0, false⟩, false, 5, .reg 6, .full⟩),
    (3, 0x14020010, .rpush ⟨⟨0, false⟩, false, 2, .reg 0, .reg 1⟩),
    (3, 0x18031001, .rstat ⟨⟨0, false⟩, false, 3, .reg 4, .ptr⟩),
    (3, 0x1C021400, .sbind ⟨⟨0, false⟩, 2, .reg 5⟩),
    (3, 0x20020000, .sunbind ⟨⟨0, false⟩, 2⟩),
    (3, 0x24010000, .scfgSeek ⟨⟨0, false⟩, 1, .reg 0⟩),
    (3, 0x28001870, .crec ⟨⟨0, false⟩, .reg 6, .reg 7⟩),
    (3, 0x2C020401, .copy ⟨⟨0, false⟩, 2, .reg 1, .reg 0, true⟩),
    (3, 0x30000001, .cresumeRetry ⟨⟨0, false⟩⟩)] := by
  repeat first | exact reads_nil | refine reads_cons rfl ?_

theorem test_decode_engine_1 : reads [
    (3, 0x34010000, .cstat ⟨⟨0, false⟩, false, 1, .queue⟩),
    (3, 0x50000C40, .bclear ⟨⟨0, false⟩, .reg 3, .reg 4⟩),
    (3, 0x38000420, .hset ⟨⟨0, false⟩, .reg 1, .reg 2⟩),
    (3, 0x3C051802, .hwaitClaim ⟨⟨0, false⟩, false, 5, .reg 6⟩),
    (3, 0x40020400, .hquery ⟨⟨0, false⟩, false, 2, .reg 1⟩),
    (3, 0x44000000, .trcfg ⟨⟨0, false⟩, .reg 0⟩),
    (3, 0x48000C01, .trpush ⟨⟨0, false⟩, .y, 3⟩),
    (3, 0x4C040001, .trpull ⟨⟨0, false⟩, false, .y, 4⟩),
    (3, 0x5C000C00, .rndseek ⟨⟨0, false⟩, .reg 3⟩),
    (3, 0x60010000, .rndstat ⟨⟨0, false⟩, false, 1, .pos⟩),
    (3, 0x08000420, .mload ⟨⟨0, false⟩, .reg 1, .reg 2⟩),
    (3, 0x0C000500, .mcall ⟨⟨0, false⟩, 5⟩)] := by
  repeat first | exact reads_nil | refine reads_cons rfl ?_

theorem test_decode_engine_2 : reads [
    (3, 0x54020400, .release ⟨⟨0, false⟩, 2, .reg 1, .reg 0⟩),
    (3, 0x58001C00, .publish ⟨⟨0, false⟩, .reg 7⟩),
    (3, 0x28000000, .crec ⟨⟨0, false⟩, .reg 0, .reg 0⟩),
    (3, 0x3C040000, .hwait ⟨⟨0, false⟩, false, 4, .reg 0, .full⟩),
    (3, 0x1C000C00, .sbind ⟨⟨0, false⟩, 0, .reg 3⟩),
    (3, 0x24000000, .scfgSeek ⟨⟨0, false⟩, 0, .reg 0⟩),
    (3, 0x54001460, .release ⟨⟨0, false⟩, 0, .reg 5, .reg 6⟩),
    (3, 0x48000400, .trpush ⟨⟨0, false⟩, .x, 1⟩),
    (3, 0x4C050000, .trpull ⟨⟨0, false⟩, false, .x, 5⟩),
    (3, 0x25C60C01, .scfgRep ⟨⟨3, true⟩, 6, .reg 3⟩),
    (3, 0x32000000, .cresumePatch ⟨⟨4, false⟩⟩),
    (3, 0x32C00002, .cresumeSkip ⟨⟨5, true⟩⟩)] := by
  repeat first | exact reads_nil | refine reads_cons rfl ?_

theorem test_decode_micro :
    decodeMicro 0x0400000000000000000000000000002B = .ok (.step ⟨true, false, 11⟩) ∧
    decodeMicro 0x08000000000000000000000000000017 = .ok (.steph ⟨true, 7⟩) ∧
    decodeMicro 0x0C000000000000000000000000008120 = .ok (.slide ⟨0, true, false, false, 0, .p0, 2, 0⟩) ∧
    decodeMicro 0x0C000000000000000000000000056AF9 = .ok (.slide ⟨5, false, true, true, 2, .p1, 15, 9⟩) ∧
    decodeMicro 0x100000000000000000000000000000DF = .ok (.shift ⟨true, 5, true, true, .p2⟩) ∧
    decodeMicro 0x14000000000000000000006000000051 = .ok (.inj ⟨0, 0, 3, 0, 0, 0, 1, .spread, 1⟩) ∧
    decodeMicro 0x18000000000000000000000000000001 = .ok (.clrp true) ∧
    decodeMicro 0x1C000000000000000000000000400037 = .ok (.ldp ⟨1, 1, true, 7⟩) ∧
    decodeMicro 0x200000000000000000000000100006E2 = .ok (.drnp ⟨1, 1, true, .halo 3, 2⟩) ∧
    decodeMicro 0x24000000000000000000000000000000 = .ok (.hexp) ∧
    decodeMicro 0x28000000000000000000000000000010 = .ok (.hmrg (.imm 16)) ∧
    decodeMicro 0x28000000000000000000000000000040 = .ok (.hmrg .v1) ∧
    decodeMicro 0x2C000000000000000000000000008001 = .ok (.bndm ⟨.wrap, .clip, .clip, .clip, .clip, .clip, .clip, .keep⟩) ∧
    decodeMicro 0x30000000000000000000000000000FFF = .ok (.uloop (.imm 4095)) ∧
    decodeMicro 0x34000000000000000000000000000000 = .ok (.uend) ∧
    decodeMicro 0x38000000000000000000000000000066 = .ok (.uwait (.ring 3 3)) ∧
    decodeMicro 0x38000000000000000000000000000041 = .ok (.uwait (.cyc 2)) ∧
    decodeMicro 0x3C000000000000000000000000000000 = .ok (.uret) := by
  refine ⟨?_, ?_, ?_, ?_, ?_, ?_, ?_, ?_, ?_, ?_, ?_, ?_, ?_, ?_, ?_, ?_, ?_, ?_⟩ <;> rfl

/-! ### Small states -/

/-- A partition descriptor: quad 0, two parties, ports 0 and 1, groups 8 to 11, queues 0 and 1. -/
def tDesc : Desc :=
  { quads := 1, signreq := false, detok := true, parties := 2, slotBase := 0, slotCount := 2, cap := 100, ports := 3,
    groupBase := 8, groupCount := 4, link := 0, trusted := 64, ceiling := 4, queueBase := 0, queueCount := 2,
    partyKeys := [], signers := [], raw := [] }

def tImage : Image :=
  { digest := 0, det := true, entry := 0, code := [], ovls := [], const := none, microRaw := [], micro := [], budget := [],
    mirrors := [], params := [], results := [], targets := [0, 64], phases := [⟨0, 0, true, 0xFF, 0, 64⟩, ⟨1, 1, true, 0, 0, 64⟩], decls := [], rebinds := [], coresReq := 2,
    portsReq := 0 }

def tPacket (mode : BitVec 8) : Packet :=
  { marker := false, mode := mode, part := 0, contexts := 2, perCore := 1, wmask := 1, image := 0x4000, bindings := 0x5000,
    seed := 0, waits := [], signal := 0xFFFF, userTag := 7, counterBase := 0 }

/-- A running launch of cores 0 and 1; bit 0 of the mode makes it deterministic. -/
def tLaunch (mode : BitVec 8) : Launch :=
  { num := 1, queue := 0, pkt := tPacket mode, qhead := 0, stage := .running, status := .ok, waitsLeft := [],
    image := some tImage, imgDigest := none, windows := [(0, (0x10000, 20))], area := 0x20000, cores := [0, 1], start := some 0,
    end_ := 0, digest := none, mloads := 0, microDigest := 0, stopReq := false, saved := [], logPos := none,
    recStopped := false }

/-- A page of port 0 at 0x10000 that may be read, written and updated, and an append-only page of 32 units at 0x11000. -/
def tLeaves : List Leaf :=
  [{ level := 0, va := 0x10000, entry := (0 : BitVec 24) ++ (0 : BitVec 24) ++ (3 : BitVec 16) ++ (0 : BitVec 12) ++ (0x10000000 : BitVec 40) ++ (0x01F : BitVec 12) },
   { level := 0, va := 0x11000, entry := (0x20 : BitVec 24) ++ (0 : BitVec 24) ++ (3 : BitVec 16) ++ (0 : BitVec 12) ++ (0x10000001 : BitVec 40) ++ (0x02F : BitVec 12) }]

def tPart (mode : BitVec 8) : Part :=
  { Part.reset with desc := some tDesc, launches := [tLaunch mode], nextLaunch := 2, leaves := tLeaves, step := 4 }

/-- Context 0: s1 is −1 with mask 1, s2 and s3 point into the own slice and into the slice of core 1, s4 at the page, s5
at the append-only page, s6 is the least number, s7 is 3; p1 is false with mask 2; m1 is 1. -/
def tCtx : Ctx :=
  { Ctx.reset with
    st := .running
    s := [(1, ⟨0xFFFFFFFFFFFFFFFF, 1⟩), (2, ⟨0x00FFFE0080000100, 0⟩), (3, ⟨0x00FFFE0002000100, 0⟩), (4, ⟨0x10000, 0⟩),
          (5, ⟨0x11000, 0⟩), (6, ⟨0x8000000000000000, 0⟩), (7, ⟨3, 0⟩)]
    p := [(1, ⟨false, 2⟩)]
    m := [(1, ⟨1, 0⟩)] }

def tCore (lcore : Nat) : Core :=
  { Core.reset with owner := some { part := 0, launch := 1, lcore := lcore }, ctxs := [(0, tCtx)], last := some 0,
                    holder := some 0 }

/-- Cores 0 and 1 run the launch; the translation of the two pages is in the store of die 0. -/
def tMode (mode : BitVec 8) : State :=
  { State.reset with
    cores := [(0, tCore 0), (1, tCore 1)]
    nextId := 5
    cur := { State.reset.cur with base := 5 }
    dies := [(0, { Die.reset with store := [{ part := 0, base := 0x10000, size := 0x1000 }, { part := 0, base := 0x11000, size := 0x1000 }] })]
    fronts := [(0, [{ part := 0, base := 0x10000, size := 0x1000 }, { part := 0, base := 0x11000, size := 0x1000 }])]
    parts := [(0, tPart mode)]
    queues := [(0, { Queue.reset with enable := true, st := .mapped, slot := some 0, base := 0x100000, log2size := 4 })]
    slots := [(0, { queue := 0, reservedFor := none })] }

/-- Not deterministic. -/
def tS : State := tMode 0
/-- Deterministic. -/
def tD : State := tMode 1

/-- tS with the context of the slot in focus changed. -/
def tX (f : Ctx → Ctx) : State := tS.modMe f
def tXD (f : Ctx → Ctx) : State := tD.modMe f

/-- A queued copy from memory into an instruction bank: layout records 1 and 2, handles 3 and 4. -/
def tCopy : CopyEntry :=
  { uid := 1, kind := .copy 0x11103081 0x10000 0 false, cmask := 0, stage := .queued, k := 0, total := 0, srec := 0, drec := 0,
    tile0 := 0, tiles := 0, popped := 0, fault := none, reported := false, data := [], dmask := 0, egress := [], phase := none }

/-- A guard that is false with a mask. -/
abbrev gF : Guard := { g := 1, inv := false }

/-- A store of the context to its own slice that has been performed and not acknowledged. -/
def tWrite : WriteReq :=
  { id := 3, core := 0, ctx := 0, ofCtx := true, va := 0x00FFFE0002000100, cells := [(0x2000100, 7)], raises := [],
    mask := 0, fe := false, clr := false, ent := none, die := 0, stamp := Clock.zero, performed := false, acked := false,
    applied := [] }
def tSent : State := { tS with writes := [tWrite] }
def tSentD : State := { tD with writes := [tWrite] }

/-- An LDA has not been performed. -/
def tLda : State := { tX (fun x => { x with ldaVis := 5 }) with cur := { tS.cur with ldaVis := 5 } }

def tAtom (id : Nat) : AtomReq :=
  { id := id, core := 0, ctx := 0, tag := BitVec.ofNat 16 id, engine := 0, station := 0, tgt := .mem 0x100,
    va := 0x00FFFE0080000100, op := .add, v := 1, dest := .nowhere, discard := true, mask := 0, pmask := 0, clk := Clock.zero, stage := .sent,
    result := Lab.zero 64 }
/-- 32 atomics of the core are outstanding. -/
def tFull : State := { tS with atoms := (List.range 32).map tAtom, nextId := 32 }
def tFullD : State := { tD with atoms := (List.range 32).map tAtom, nextId := 32 }

/-- The context is a member of group 11. -/
def tMember : State :=
  { tS with groups := [(11, { Group.reset with members := [{ who := ⟨0, 1, 0⟩, rel := 1, arrived := false, waits := false }] })] }
def tMemberSent : State := { tMember with writes := [tWrite] }

/-- A copy that began in phase 1 is outstanding. -/
def tOverlap : State := tXD (fun x => { x with copyq := [{ tCopy with phase := some (1, 0) }] })

/-- The attempt succeeds with a value of which `p` holds. -/
def gives {ε α : Type} (r : Except ε α) (p : α → Bool) : Bool := match r with
  | .ok x => p x
  | .error _ => false

/-- The instruction answers a next state of which `p` holds. -/
def after (i : Instr) (s : State) (p : State → Bool) : Bool := match exec i s with
  | .next t => p t
  | _ => false

/-- It answers a next state in which the slot has issued. -/
def issues (i : Instr) (s : State) : Bool := after i s (fun t => t.cur.verdict == .issued)

/-- The launch has been asked to stop at a boundary. -/
def tStop : State :=
  { tX (fun x => { x with yielded := true }) with
    parts := [(0, { tPart 0 with launches := [{ tLaunch 0 with stopReq := true }] })] }

/-- A debugger is attached. -/
def tDebug : State := { tS with parts := [(0, { tPart 0 with debugger := true })] }

/-- Objects 0 and 3 have been answered. -/
def tWait : State := tX (fun x => { x with objAns := [(0, 0x8000), (3, 0x7FFF)] })

/-- Handlers are on for cause 0 alone, with target 1; the context stands in the delay slots of a branch with BSWAP, and a
SETFMT waits. -/
def tTrap : State :=
  tX (fun x => { x with trapEn := true, trapTidx := 1, trapMask := BitVec.ofNat 64 (2 ^ (Cause.illegal).number), nds := 2,
                        tgt := some (160, true), shadows := [⟨3, Lab.zero 4⟩] })

def tRead (id : Nat) (dest : Dest) : ReadReq :=
  { id := id, core := 0, ctx := 0, kind := .mem, dest := dest, fmt := .zx 8, bytes := (List.range 8).map (fun i => some (0x2000100 + i)),
    known := [], va := 0x00FFFE0002000100, mask := 0, acquire := false, clk := Clock.zero, reply := none, rclk := Clock.zero }
/-- Reads of core 1's slice into s8 and m7 are pending. -/
def tPend : State := { tS with reads := [tRead 1 (.sreg 8), tRead 2 (.mreg 7)] }

/-- A port over a line of `n` vectors. -/
def tPort (out rep exh : Bool) (n : Nat) (buf : List (Lab 1024)) : Port :=
  { desc := { base := 0x1000, levels := [{ stride := 128, count := n }], out := out, repeat_ := rep, gen := 0, src := .raw,
              snk := .raw, width := .w1024 },
    pos := 0, exh := exh, fmt := Lab.zero 4, bmask := 0, buf := buf, next := 0, pushes := [], phase := none, dead := false }

/-- Vector state: x2 and x3 point into the own slice and core 1's, x4 at the page; y1 holds 1.0 in FP16 lane 0, y2 an
infinity; d1 and d2 have norms 256 and 128, d3 is the zero direction; ports 0, 4 in, 1 out, 2 at its end, 3 empty, 5 repeats. -/
def tVCtx (x : Ctx) : Ctx :=
  { x with
    x := [(1, ⟨0x00000002FFFFFFFF, 1⟩), (2, ⟨0x00FFFE0080000100, 0⟩), (3, ⟨0x00FFFE0002000100, 0⟩), (4, ⟨0x10000, 0⟩)]
    y := [(1, ⟨0x3C00, 0⟩), (2, ⟨0x7C00, 0⟩)]
    d := [(1, ⟨16384, 0⟩), (2, ⟨16384, 0⟩)]
    n := [(1, 256), (2, 128), (3, 0x8000)]
    ports := [(0, tPort false false false 2 [⟨5, 1⟩]), (1, tPort true false false 2 []), (2, tPort false false true 2 []),
              (3, tPort false false false 2 []), (4, tPort false false false 1 [⟨6, 0⟩]), (5, tPort false true false 1 [⟨6, 0⟩]),
              (6, tPort true false true 2 [])]
    rndHeld := 1 }
/-- In slot 1 and in slot 2. -/
def tV : State := { tX tVCtx with cur := { tS.cur with slot := 1, ext := 0xFFB } }
def tY : State := { tX tVCtx with cur := { tS.cur with slot := 2 } }

/-- A scan of port 4 into y8. -/
def tScanRec (chain : Nat) : Scan :=
  { ctx := 0, port := 4, y := 8, w := false, chain := chain, a := [16384], best := -32768, idx := 0xFFFFFFFF, cnt := 0,
    cand := [], left := 1, mask := 0 }
def tScan : State := tY.modMyCore (fun k => { k with scan := some (tScanRec 1) })

/-- A ring of core 0 with tiles of `tile` 64-byte units. -/
def tRing (tile : Nat) (fmt : Fmt) (head tail resv : BitVec 32) : Ring :=
  { Ring.reset with base := 64, tile := tile, log2n := 2, src := fmt, snk := fmt, head := head, tail := tail, resv := resv }

/-- The words m0 to m7 of a call: axes of 512 and 256 indices, plane 2, operand plane 3, tag 9, one halo cell deep at both
faces of axis 1, rings 4 to 7, two inboxes of one unit, counts 3, 0 and 5. -/
def tArgs : List Word :=
  [0x200000200, 0x100000100, 0, 0, 0x9002132, 0x41000, 0x402200F0, 0x500000003]

/-- A call of routine 2 that runs in plane 2. -/
def tCall : Call :=
  { uid := 1, routine := 2, ctx := 0, args := tArgs, fmt := Lab.zero 4, mask := 1, started := true, upc := 0, inj := none,
    modes := List.replicate 8 .clip, keepSet := false, halo := [], haloMask := 0, loops := [], hexpDone := false, merged := 0,
    inboxes := List.replicate 2 { st := .free, from_ := 0, cells := [], mask := 0, order := 0, clk := Clock.zero }, wait := none, tap := 0,
    ust := .running, phase := none }

/-- Slot 3 with given m registers; rings 1, 3 to 7 are configured (3 and 7 hold reserved tiles, 7 is full), a stream record stands
at 0x240 of the slice, handles 1 to 3 are filling, full and draining, routine 2 is installed, publication window 1 is. -/
def tEOf (mode : BitVec 8) (m : List Word) : State :=
  { (tMode mode).modMyCore (fun k => { k with
      rings := [(1, tRing 1 .raw 0 0 0), (3, tRing 1 .raw 0 0 1), (4, tRing 16 .f16 0 1 1), (5, tRing 16 .f16 0 1 1),
                (6, tRing 16 .f16 0 0 0), (7, tRing 16 .f16 0 4 4)]
      handles := [(1, ⟨.filling, false⟩), (2, ⟨.full, true⟩), (3, ⟨.draining, false⟩)]
      routines := [(2, (0, 4))]
      ustore := [(0, 0x3C000000000000000000000000000000)]
      slice := [(0x241, 0x10), (0x24C, 1), (0x254, 1), (0x25C, 1), (0x264, 1), (0x26A, 7), (0x26B, 7), (0x26C, 2), (0x30F, 0x3C)]
      ctxs := [(0, { tVCtx tCtx with m := (List.range 8).zip (m.map (fun v => ⟨v, 0⟩)), rndHeld := 1 })] }) with
    cur := { tS.cur with slot := 3 }
    parts := [(0, { tPart mode with pubwins := [(1, { base := 0x10000, size := 0x1000, counter := 0x10000, version := 0 })] })] }
def tE (m : List Word) : State := tEOf 0 m
/-- A call is running on the core. -/
def tP : State := { (tE tArgs).modMyCore (fun k => { k with calls := [tCall] }) with cur := { tS.cur with slot := 3 } }

/-- Only port 1 is bound, fed by generator 0, with a push unwritten; core state as in tE. -/
def tU : State :=
  (tE [0x240]).modMe (fun x => { x with ports := [(1, { tPort true false false 2 [] with
    pushes := [{ k := 0, val := 0, mask := 0 }], desc := { (tPort true false false 2 []).desc with gen := 5 } })] })

/-- A copy queue of sixteen entries. -/
def tQ (mode : BitVec 8) : State := (tEOf mode []).modMe (fun x => { x with copyq := List.replicate 16 tCopy })

/-- A copy fault has been reported and is pending. -/
def tRep : State := (tE []).modMe (fun x => { x with copyPend := true, copyq := [{ tCopy with stage := .faulted, reported := true }] })

/-- A transpose unit of 32-bit words with blocks and rows. -/
def tT (blocks rows : Nat) : State :=
  (tE []).modMyCore (fun k => { k with trans := { Transpose.reset with
    w32 := true, rows := List.replicate rows (Lab.zero 1024),
    blocks := List.replicate blocks { rows := List.replicate 32 (Lab.zero 1024), doneAt := 0, ctx := 0, phase := none } } })

/-- An injection of four elements from ring 5. -/
def tInj : Inj := { xring := 5, mode := .direct, s := 1, f := [0, 0, 0], n := [4, 1, 1] }
def tCallJ : Call := { tCall with inj := some tInj }

/-- The core runs the call `c` and waits for the exports `es`. -/
def tPc (c : Call) (es : List Export) : State := tP.modMyCore (fun k => { k with calls := [c], exports := es })
def tJ : State := tPc tCallJ []
/-- The same call without an operand plane. -/
def tP0 : State := tPc { tCall with args := tArgs.set 6 0xF0 } []

/-- An export of logical core 1 to logical core 0 of one cell, and one of 513. -/
def tExport : Export :=
  { owner := 0, tag := 9, from_ := 1, cells := [{ box := 0, x0 := 0, x1 := 0, x2 := 0, x3 := 0, val := 5 }], mask := 0, order := 4, clk := Clock.zero }
def tBigExport : Export := { tExport with cells := List.replicate 513 { box := 0, x0 := 0, x1 := 0, x2 := 0, x3 := 0, val := 5 } }
def tHalo : State := tP.modCore 1 (fun k => { k with calls := [tCall], exports := [tExport] })
def tBig : State := tP.modCore 1 (fun k => { k with calls := [tCall], exports := [tBigExport] })

/-! ### States that meet the hypotheses of the statements, clause by clause -/

theorem test_witness_RegisterArithmeticResults :
    let f : FS3 := ⟨g0, false, 1, .reg 1, .reg 7⟩
    let z : FS3 := ⟨g0, false, 0, .reg 1, .zero⟩
    let o : FS3 := ⟨g0, false, 31, .reg 6, .reg 1⟩
    (tS.me.holds f.gd = true ∧ tS.destReady (sDest f.d) = .ok () ∧ tS.opnd f.a = .ok (⟨0xFFFFFFFFFFFFFFFF, 1⟩, tS) ∧
      tS.opnd f.b = .ok (⟨3, 0⟩, tS) ∧ tS.me.divFree ≤ tS.me.cycle ∧ (3 : Word) ≠ 0) ∧
    (tS.destReady (sDest z.d) = .ok () ∧ tS.opnd z.b = .ok (⟨0, 0⟩, tS)) ∧
    (tS.destReady (sDest o.d) = .ok () ∧ tS.opnd o.a = .ok (⟨BitVec.intMin 64, 0⟩, tS) ∧ tS.opnd o.b = .ok (⟨-1, 1⟩, tS)) := by decide +kernel

theorem test_witness_SelectAndImmediateResults :
    (tS.me.holds g0 = true ∧ tS.destReady (sDest 8) = .ok () ∧ tS.opnd .zero = .ok (⟨0, 0⟩, tS)) ∧
    (tS.opnd (.reg 6) = .ok (⟨0x8000000000000000, 0⟩, tS) ∧ (0x8000000000000000 : Word).getLsbD (63 - 0) = true) ∧
    (tS.opnd (.reg 7) = .ok (⟨3, 0⟩, tS) ∧ (3 : Word).getLsbD 0 = true ∧ (3 : Word).getLsbD (63 - 62) = true) ∧
    tS.pending (.sreg 8) = false := by decide +kernel

theorem test_witness_PredicateResults :
    tS.me.holds g0 = true ∧ tS.opnd (.reg 1) = .ok (⟨0xFFFFFFFFFFFFFFFF, 1⟩, tS) ∧ tS.opnd (.reg 7) = .ok (⟨3, 0⟩, tS) ∧
    true = (0xFFFFFFFFFFFFFFFF : Word).slt 3 := by decide +kernel

theorem test_witness_Branches :
    (tS.me.holds g0 = true ∧ (tS.me.pc : Int) + 16 * (0x3FFF : BitVec 21).toInt = (0x3FFF0 : Nat) ∧ tS.me.rstack.length < 16) ∧
    (tS.opnd .zero = .ok (⟨0, 0⟩, tS) ∧ tS.imageOf tS.cur.core = some tImage ∧ tImage.targets[(0 : Word).toNat]? = some 0) ∧
    -- a target past the bank
    (let img : Image := { tImage with targets := [0x40000] }
     let s : State := { tS with parts := [(0, { tPart 0 with launches := [{ tLaunch 0 with image := some img }] })] }
     s.me.holds g0 = true ∧ s.opnd .zero = .ok (⟨0, 0⟩, s) ∧ s.imageOf s.cur.core = some img ∧ img.targets[(0 : Word).toNat]? = some 0x40000 ∧
     s.me.rstack.length < 16) ∧
    tS.me.rstack = [] ∧ (tX (fun x => { x with rstack := [32] })).me.rstack = [32] ∧
    (tS.me.pc : Int) + 16 * (0x1FFFFF : BitVec 21).toInt < 0 ∧ 0x3FFF0 < (tS.me.pc : Int) + 16 * (0x4000 : BitVec 21).toInt ∧
    (tX (fun x => { x with rstack := List.replicate 16 0 })).me.rstack.length = 16 ∧
    (tX (fun x => { x with rstack := List.replicate 16 0 })).me.holds g0 = true ∧
    (tS.opnd (.reg 7) = .ok (⟨3, 0⟩, tS) ∧ tImage.targets.length ≤ (3 : Word).toNat) ∧
    (tS.me.holds gF = false ∧ (tS.me.pred gF.g.toNat).mask ≠ 0) := by decide +kernel

theorem test_witness_NopIfenceAndBusyDivider :
    let b := tX (fun x => { x with divFree := 1 })
    let c := tX (fun x => { x with copyq := [tCopy] })
    let d := tXD (fun x => { x with copyq := [tCopy] })
    (b.me.holds g0 = true ∧ b.destReady (sDest 1) = .ok () ∧ b.opnd .zero = .ok (⟨0, 0⟩, b) ∧ b.me.cycle < b.me.divFree ∧
      b.det b.cur.core = false) ∧ tD.det tD.cur.core = true ∧
    (tS.me.copyq.any CopyEntry.toBank = false ∧ c.me.holds g0 = true ∧ c.me.copyq.any CopyEntry.toBank = true ∧
      c.det c.cur.core = false ∧ d.me.holds g0 = true ∧ d.me.copyq.any CopyEntry.toBank = true ∧ d.det d.cur.core = true) := by decide +kernel

/-- n hits from a physical address. -/
def hitsAt (pa n : Nat) (m : Mask) : List Hit := (List.range n).map (fun i => { pa := pa + i, mask := m })

/-- The page at 0x10000, in port 0. -/
abbrev pagePa : Nat := 0x10000000000

theorem test_witness_ScalarLoadsAndStores :
    (tS.me.holds g0 = true ∧ tS.ldaHolds = false ∧ tS.destReady (sDest 8) = .ok () ∧
      tS.opnd (.reg 2) = .ok (⟨0x00FFFE0080000100, 0⟩, tS)) ∧
    ((0x00FFFE00800000FC : Word).toNat % 4 = 0 ∧
      (0x00FFFE0080000100 + BitVec.ofInt 64 (4 * (0xFF : BitVec 8).toInt) : Word) = 0x00FFFE00800000FC ∧
      tS.span .read 0x00FFFE00800000FC 4 0 = .ok (hitsAt 0xFC 4 0) ∧ tS.noMiss 0x00FFFE00800000FC 4 = .ok () ∧
      (tS.lookUp (some tS.nextId) 0x00FFFE00800000FC 4).ownBytes (hitsAt 0xFC 4 0) = true) ∧
    (tS.opnd (.reg 4) = .ok (⟨0x10000, 0⟩, tS) ∧ tS.span .read 0x10000 4 0 = .ok (hitsAt pagePa 4 3) ∧
      tS.noMiss 0x10000 4 = .ok () ∧ (tS.lookUp (some tS.nextId) 0x10000 4).ownBytes (hitsAt pagePa 4 3) = false) ∧
    (tS.dataReg 7 = .ok ⟨3, 0⟩ ∧ tS.span .write 0x10000 8 0 = .ok (hitsAt pagePa 8 3) ∧ tS.noMiss 0x10000 8 = .ok ()) ∧
    -- a page that no store of deterministic mode holds
    (let s := tXD (fun x => { x with s := [(4, ⟨0x20000, 0⟩)] })
     s.me.holds g0 = true ∧ s.ldaHolds = false ∧ s.destReady (sDest 8) = .ok () ∧ s.opnd (.reg 4) = .ok (⟨0x20000, 0⟩, s) ∧
     (0x20000 : Word).toNat % 4 = 0 ∧ s.det s.cur.core = true ∧ s.noMiss 0x20000 4 ≠ .ok ()) := by decide +kernel

theorem test_witness_FullEmptyAndParameterLoads :
    (tS.opnd (.reg 4) = .ok (⟨0x10000, 0⟩, tS) ∧ inAperture 0x10000 = false) ∧
    (inAperture 0x00FFFE0080000100 = true ∧ tS.span .read 0x00FFFE0080000100 8 0 = .ok (hitsAt 0x100 8 0) ∧
      tS.ownBytes (hitsAt 0x100 8 0) = true ∧ tS.feReady 0x100 = false ∧ (tS.setFull 0x100 true).feReady 0x100 = true ∧
      (tS.setFull 0x100 true).span .read 0x00FFFE0080000100 8 0 = .ok (hitsAt 0x100 8 0) ∧ tS.det tS.cur.core = false ∧
      tD.opnd (.reg 2) = .ok (⟨0x00FFFE0080000100, 0⟩, tD) ∧ tD.span .read 0x00FFFE0080000100 8 0 = .ok (hitsAt 0x100 8 0) ∧
      tD.ownBytes (hitsAt 0x100 8 0) = true ∧ tD.feReady 0x100 = false ∧ tD.det tD.cur.core = true) ∧
    (tS.opnd (.reg 3) = .ok (⟨0x00FFFE0002000100, 0⟩, tS) ∧
      tS.span .read 0x00FFFE0002000100 8 0 = .ok (hitsAt 0x2000100 8 0) ∧ tS.ownBytes (hitsAt 0x2000100 8 0) = false) ∧
    (tS.dataReg 1 = .ok ⟨0xFFFFFFFFFFFFFFFF, 1⟩ ∧ tS.span .write 0x00FFFE0080000100 8 1 = .ok (hitsAt 0x100 8 0) ∧
      tS.noMiss 0x00FFFE0080000100 8 = .ok ()) ∧
    ((tS.launchOf tS.cur.core).bind (fun l => tfind l.windows 1) = none ∧
      (tS.launchOf tS.cur.core).bind (fun l => tfind l.windows 0) = some (0x10000, 20) ∧
      tS.opnd (.reg 7) = .ok (⟨3, 0⟩, tS) ∧
      ((3 : Word).toNat + 8 * (1 : BitVec 7).toNat) % 8 ≠ 0 ∧
      tS.opnd .zero = .ok (⟨0, 0⟩, tS) ∧ tS.span .read (BitVec.ofNat 64 (0x10000 + 16)) 4 0 = .ok (hitsAt (pagePa + 16) 4 3) ∧
      tS.noMiss (BitVec.ofNat 64 (0x10000 + 16)).toNat 4 = .ok () ∧ min 8 (20 - 16) = 4 ∧
      tS.span .read (BitVec.ofNat 64 (0x10000 + 24)) 0 0 = .ok [] ∧
      ((0 : Word).toNat + 8 * (3 : BitVec 7).toNat) % 8 = 0 ∧ 20 ≤ (0 : Word).toNat + 8 * (3 : BitVec 7).toNat) ∧
    -- a window whose base is no multiple of 8
    (let s : State := { tS with parts := [(0, { tPart 0 with launches := [{ tLaunch 0 with windows := [(0, (0x10004, 20))] }] })] }
     (s.launchOf s.cur.core).bind (fun l => tfind l.windows 0) = some (0x10004, 20) ∧ s.me.holds g0 = true ∧ s.ldaHolds = false ∧
     s.opnd .zero = .ok (⟨0, 0⟩, s) ∧ 8 < 20 ∧ (BitVec.ofNat 64 (0x10004 + 8) : Word).toNat % 8 ≠ 0) := by
  refine ⟨?_, ?_, ?_, ?_, ?_, ?_⟩ <;> decide +kernel

/-- An access of the test context to bytes of its partition. -/
def tAcc (k : AKind) (m : Mask) : Access :=
  { part := 0, cores := [0, 1], own := 0, kind := k, copy := false, mask := m, egress := [] }

theorem test_witness_AccessChecks :
    inAperture 0x00FFFE0080000100 = true ∧ aperture [0, 1] 0 0x00FFFE0080000100 = .ok 0x100 ∧
    aperture [0, 1] 0 0x00FFFE0004000000 = .error .sliceRange ∧
    (tPart 0).translate 0x12000 = .error .transInvalid ∧
    gives ((tPart 0).translate 0x10FFF) (fun x => x.rd && x.wr && x.at_ && admits false x.pa &&
      appendOk .write x && labelOk [] 3 x && !labelOk [] 4 x) = true ∧
    gives ((tPart 0).translate 0x11000) (fun x => !x.at_ && x.wr && x.rd && appendOk .write x && !appendOk .read x) = true ∧
    tS.checkSpan (tAcc .read 0) 0x10000 4 = .ok (hitsAt pagePa 4 3) ∧
    tS.checkSpan (tAcc .write 4) 0x10FFE 4 = .error (.labelStore, 0x10FFE) ∧
    tS.checkSpan (tAcc .atomic 0) 0x10FFE 4 = .error (.transPerm, 0x11000) ∧
    tS.checkSpan (tAcc .read 0) 0x10FFE 4 = .error (.snapBound, 0x11000) := by decide +kernel

theorem test_witness_StoreFrame :
    (tS.memWf = true ∧ tS.me.holds g0 = true ∧ tS.dataReg 7 = .ok ⟨3, 0⟩ ∧
      tS.opnd (.reg 2) = .ok (⟨0x00FFFE0080000100, 0⟩, tS) ∧
      tS.span .write (offAddr 0x00FFFE0080000100 4 1) 4 0 = .ok (hitsAt 0x104 4 0) ∧
      tS.span .write (offAddr 0x00FFFE0080000100 8 1) 8 0 = .ok (hitsAt 0x108 8 0) ∧
      tS.span .write 0x00FFFE0080000100 8 0 = .ok (hitsAt 0x100 8 0)) ∧
    issues (.st ⟨g0, 7, .reg 2, .b4, 1⟩) tS = true ∧
    issues (.stfe ⟨g0, 7, .reg 2, 1⟩) tS = true ∧
    issues (.stl ⟨g0, 7, .reg 2, .core, .b8⟩) tS = true ∧
    (tS.opnd (.reg 4) = .ok (⟨0x10000, 0⟩, tS) ∧ tS.span .write (offAddr 0x10000 8 0) 8 0 = .ok (hitsAt pagePa 8 3)) ∧
    issues (.st ⟨g0, 7, .reg 4, .b8, 0⟩) tS = true := by decide +kernel

theorem test_witness_XmovResults :
    tS.me.holds g0 = true ∧ tS.pending (xreg .x 5) = false ∧ tS.pending (xdest .s .x 8 15) = false ∧
    tS.pending (xdest .y .s 8 15) = false ∧ tS.pending (xreg .s 1) = false ∧
    tPend.me.holds g0 = true ∧ tPend.pending (xdest .s .x 8 0) = true ∧ tPend.det tPend.cur.core = false := by decide +kernel

theorem test_witness_AcquireReleaseAndFences :
    (tS.me.holds g0 = true ∧ tS.ldaHolds = false ∧ tS.destReady (sDest 8) = .ok () ∧
      tS.opnd (.reg 2) = .ok (⟨0x00FFFE0080000100, 0⟩, tS) ∧
      tS.span .read 0x00FFFE0080000100 8 0 = .ok (hitsAt 0x100 8 0) ∧ tS.noMiss 0x00FFFE0080000100 8 = .ok () ∧
      (tS.lookUp (some tS.nextId) 0x00FFFE0080000100 8).ownBytes (hitsAt 0x100 8 0) = true) ∧
    (tS.opnd (.reg 3) = .ok (⟨0x00FFFE0002000100, 0⟩, tS) ∧
      tS.span .read 0x00FFFE0002000100 4 0 = .ok (hitsAt 0x2000100 4 0) ∧ tS.noMiss 0x00FFFE0002000100 4 = .ok () ∧
      (tS.lookUp (some tS.nextId) 0x00FFFE0002000100 4).ownBytes (hitsAt 0x2000100 4 0) = false) ∧
    (tS.drained true = true ∧ tS.dataReg 7 = .ok ⟨3, 0⟩ ∧ tS.span .write 0x00FFFE0080000100 8 0 = .ok (hitsAt 0x100 8 0)) ∧
    (tSent.me.holds g0 = true ∧ tSent.ldaHolds = false ∧ tSent.drained true = false ∧ tSent.drained false = false ∧
      tSent.det tSent.cur.core = false ∧ tSent.dataReg 7 = .ok ⟨3, 0⟩ ∧ tSent.opnd (.reg 2) = .ok (⟨0x00FFFE0080000100, 0⟩, tSent) ∧
      tSent.span .write 0x00FFFE0080000100 8 0 = .ok (hitsAt 0x100 8 0) ∧ tSent.readsDone = true) ∧
    (tSentD.me.holds g0 = true ∧ tSentD.ldaHolds = false ∧ tSentD.drained true = false ∧ tSentD.det tSentD.cur.core = true) ∧
    tS.readsDone = true ∧
    (tLda.me.holds g0 = true ∧ tLda.ldaHolds = true ∧ tLda.det tLda.cur.core = false) := by decide +kernel

theorem test_witness_AtomicRequests :
    (tS.me.holds g0 = true ∧ tS.ldaHolds = false ∧ tS.destReady (sDest 8) = .ok () ∧
      tS.opnd (.reg 4) = .ok (⟨0x10000, 0⟩, tS) ∧ tS.opnd (.reg 7) = .ok (⟨3, 0⟩, tS) ∧
      tS.span .atomic 0x10000 8 0 = .ok (hitsAt pagePa 8 3) ∧ (hitsAt pagePa 8 3).head? = some { pa := pagePa, mask := 3 } ∧
      tS.noMiss 0x10000 8 = .ok () ∧ (tS.atoms.filter (fun a => a.core == tS.cur.core)).length < 32) ∧
    (tFull.me.holds g0 = true ∧ tFull.ldaHolds = false ∧ tFull.destReady (sDest 8) = .ok () ∧
      tFull.opnd (.reg 2) = .ok (⟨0x00FFFE0080000100, 0⟩, tFull) ∧ tFull.opnd (.reg 7) = .ok (⟨3, 0⟩, tFull) ∧
      tFull.span .atomic 0x00FFFE0080000100 8 0 = .ok (hitsAt 0x100 8 0) ∧ tFull.noMiss 0x00FFFE0080000100 8 = .ok () ∧
      ¬ (tFull.atoms.filter (fun a => a.core == tFull.cur.core)).length < 32 ∧ tFull.det tFull.cur.core = false) ∧
    (tFullD.me.holds g0 = true ∧ tFullD.opnd (.reg 2) = .ok (⟨0x00FFFE0080000100, 0⟩, tFullD) ∧
      tFullD.span .atomic 0x00FFFE0080000100 8 0 = .ok (hitsAt 0x100 8 0) ∧ tFullD.noMiss 0x00FFFE0080000100 8 = .ok () ∧
      ¬ (tFullD.atoms.filter (fun a => a.core == tFullD.cur.core)).length < 32 ∧ tFullD.det tFullD.cur.core = true) ∧
    (tS.dataReg 7 = .ok ⟨3, 0⟩ ∧ tS.cellOf 3 = .ok 3 ∧ tS.opnd .zero = .ok (⟨0, 0⟩, tS) ∧ tS.cellOf 0 = .ok 0) ∧
    (regionOf 0x100 = .slice 0 0x100 ∧ regionOf pagePa = .port 0 0) := by decide +kernel

theorem test_witness_GroupOperations :
    (tS.me.holds g0 = true ∧ tS.opnd (.reg 7) = .ok (⟨3, 0⟩, tS) ∧ (tS.part (tS.partOf tS.cur.core)).desc = some tDesc ∧
      (3 : Word).toNat < tDesc.groupCount ∧ (tS.relation tS.groupName 11).1 = 0 ∧ tS.drained true = true ∧
      tS.destReady (sDest 8) = .ok ()) ∧
    (tS.opnd (.reg 4) = .ok (⟨0x10000, 0⟩, tS) ∧ tDesc.groupCount ≤ (0x10000 : Word).toNat) ∧
    (tMember.me.holds g0 = true ∧ tMember.opnd (.reg 7) = .ok (⟨3, 0⟩, tMember) ∧ (tMember.relation tMember.groupName 11).1 = 1 ∧
      (tMember.part (tMember.partOf tMember.cur.core)).desc = some tDesc ∧ tMember.drained true = true) ∧
    (tMemberSent.me.holds g0 = true ∧ tMemberSent.opnd (.reg 7) = .ok (⟨3, 0⟩, tMemberSent) ∧
      (tMemberSent.relation tMemberSent.groupName 11).1 = 1 ∧ tMemberSent.drained true = false ∧
      (tMemberSent.part (tMemberSent.partOf tMemberSent.cur.core)).desc = some tDesc ∧
      tMemberSent.det tMemberSent.cur.core = false) := by decide +kernel

theorem test_witness_SnapshotPhaseAndLabels :
    (tS.me.holds g0 = true ∧ tS.ldaHolds = false ∧ tS.opnd (.reg 2) = .ok (⟨0x00FFFE0080000100, 0⟩, tS) ∧
      inAperture 0x00FFFE0080000100 = true ∧ tS.opnd (.reg 1) = .ok (⟨0xFFFFFFFFFFFFFFFF, 1⟩, tS) ∧
      inAperture 0xFFFFFFFFFFFFFFFF = false) ∧
    (tS.opnd (.reg 7) = .ok (⟨3, 0⟩, tS) ∧ (tS.part (tS.partOf tS.cur.core)).translate 3 = .error .transInvalid) ∧
    gives ((tS.part (tS.partOf tS.cur.core)).translate 0x10000) (fun x => !x.ap) = true ∧
    gives ((tS.part (tS.partOf tS.cur.core)).translate 0x11000) (fun x => x.ap && x.wr && decide (3 % x.unit ≠ 0) &&
      decide (0x10000 % x.unit = 0) && decide (x.wlim < 0x10000 / x.unit) && decide (x.wlim < 2 ^ 24) &&
      decide (x.rlim < 2 ^ 24)) = true ∧
    (tS.drained true = true ∧ tSent.drained true = false ∧ tSent.det tSent.cur.core = false ∧ tSent.ldaHolds = false ∧
      tSent.me.holds g0 = true ∧ tSent.opnd (.reg 5) = .ok (⟨0x11000, 0⟩, tSent) ∧ tSent.opnd .zero = .ok (⟨0, 0⟩, tSent)) ∧
    (tS.det tS.cur.core = false ∧ tD.me.holds g0 = true ∧ tD.det tD.cur.core = true ∧ tD.opnd (.reg 7) = .ok (⟨3, 0⟩, tD) ∧
      tD.opnd .zero = .ok (⟨0, 0⟩, tD) ∧ tD.overlaps (0, 0) = false ∧
      tD.opnd (.reg 2) = .ok (⟨0x00FFFE0080000100, 0⟩, tD) ∧ 0x017FFFF0 < (0x00FFFE0080000100 : Word).toNat) ∧
    (tOverlap.me.holds g0 = true ∧ tOverlap.det tOverlap.cur.core = true ∧ tOverlap.opnd .zero = .ok (⟨0, 0⟩, tOverlap) ∧
      tOverlap.overlaps (0, 0) = true) ∧
    (tS.destReady (sDest 8) = .ok () ∧ (3 : Word).toNat < 2 ^ (tS.part (tS.partOf tS.cur.core)).parties ∧
      2 ^ (tS.part (tS.partOf tS.cur.core)).parties ≤ (0x10000 : Word).toNat) ∧
    (inAperture 3 = false ∧ aperture (tS.launchCores tS.cur.core) tS.cur.core 0x00FFFE0080000100 = .ok 0x100) := by decide +kernel

theorem test_witness_SystemRegisterReads :
    (tS.me.holds g0 = true ∧ tS.destReady (sDest 8) = .ok () ∧
      tS.heldReg tS.cur.core tS.cur.ctx 0 0x000 = some 0 ∧ tS.heldReg tS.cur.core tS.cur.ctx 0 0x7FF = none ∧
      tS.iodReg (tS.partOf tS.cur.core) 0x80F ≠ none ∧ tS.iodReg (tS.partOf tS.cur.core) 0xFFF = none) ∧
    ((tS.ctx 0 0).j < 256 ∧ ((tS.core 0).owner.all (fun o => decide (o.lcore < 64))) = true ∧ (tS.ctx 0 0).inh = false ∧
      ((tX (fun x => { x with inh := true })).ctx 0 0).inh = true) := by decide +kernel

theorem test_witness_SystemRegisterWrites :
    (tS.me.holds g0 = true ∧ tS.dataReg 7 = .ok ⟨3, 0⟩ ∧ tS.dataReg 1 = .ok ⟨0xFFFFFFFFFFFFFFFF, 1⟩ ∧
      (3 : Word) &&& ~~~0xFF = 0 ∧ (3 : Word) &&& ~~~0xF0103 = 0 ∧ (3 : Word) &&& ~~~0x3FF = 0 ∧ (3 : Word) &&& ~~~0x37FFFF = 0 ∧
      (3 : Word) &&& ~~~0x1FF8001FFFFFF = 0 ∧ (3 : Word) &&& ~~~0xFFFFFFFF000000FC ≠ 0 ∧
      (0xFFFFFFFFFFFFFFFF : Word) &&& ~~~0xFF ≠ 0 ∧ (0xFFFFFFFFFFFFFFFF : Word) &&& ~~~0x1FF8001FFFFFF ≠ 0) ∧
    (tS.dataReg 0 = .ok ⟨0, 0⟩ ∧ (0 : Word) &&& ~~~0xFFFFFFFF000000FC = 0 ∧ tS.me.inh = false) ∧
    (let t := tX (fun x => { x with s := [(1, ⟨0x101, 0⟩), (2, ⟨0x102, 0⟩)], inh := true })
     t.me.holds g0 = true ∧ t.dataReg 1 = .ok ⟨0x101, 0⟩ ∧ t.dataReg 2 = .ok ⟨0x102, 0⟩ ∧ t.me.inh = true ∧
     (((t.imageOf t.cur.core).map (·.targets)).getD []).length = 2 ∧ (0x101 : Word).getLsbD 8 = true) ∧
    (0x7FF : BitVec 12).toNat ∉ [0x011, 0x020, 0x200, 0x201, 0x204, 0x306] := by decide +kernel

theorem test_witness_SetfmtGoverns :
    (tS.me.holds g0 = true ∧ tS.opnd (.reg 7) = .ok (⟨3, 0⟩, tS) ∧ tS.opnd (.reg 4) = .ok (⟨0x10000, 0⟩, tS)) ∧
    (let x : Ctx := { tCtx with cycle := 4, shadows := [⟨4, Lab.zero 4⟩, ⟨5, Lab.zero 4⟩] }
     x.shadows = ⟨4, Lab.zero 4⟩ :: [⟨5, Lab.zero 4⟩] ∧ ∀ h ∈ [(⟨5, Lab.zero 4⟩ : FmtShadow)], x.cycle < h.at_) := by
  decide +kernel

theorem test_witness_TrapControl :
    (tS.me.holds g0 = true ∧ tS.me.inh = false ∧ tS.det tS.cur.core = false ∧ tS.me.yielded = false ∧
      tS.myCore.calls.any (fun c => c.ctx == tS.cur.ctx) = false ∧ (tS.part (tS.partOf tS.cur.core)).debugger = false ∧
      tS.askedToStop = false) ∧
    (let h := tX (fun x => { x with inh := true, rstack := [64], yielded := true })
     h.me.holds g0 = true ∧ h.me.inh = true ∧ h.me.rstack ≠ [] ∧ h.me.eretReady = true ∧ h.me.yielded = true ∧ h.askedToStop = false) ∧
    -- the boundary after a TRAP, with a handler and with a debugger
    (let t := tTrap.modMe (fun x => { x with strikes := some { cause := .illegal, code := 7, frame := 1, halts := true } })
     let x := t.ctx 0 0
     x.strikes = some { cause := .illegal, code := 7, frame := 1, halts := true } ∧ x.trapEn = true ∧
     x.trapMask.getLsbD (Cause.illegal).number = true ∧ x.inh = false ∧ Cause.illegal ≠ .replayDiverge ∧ Cause.illegal ≠ .overrun ∧
     x.rstack.length < 16 ∧ t.awaits 0 0 = false ∧ t.handlerAt 0 x = some 64 ∧ x.pc < 2 ^ 18 ∧ x.nds < 4) ∧
    -- ERET waits for the pushes of a port of the handler
    (let p : Port := { tPort true false false 2 [] with pushes := [{ k := 0, val := 0, mask := 0 }] }
     let h := tX (fun x => { x with inh := true, rstack := [64], bankTrap := some (x.snapshot []), ports := [(1, p)] })
     h.me.holds g0 = true ∧ h.me.inh = true ∧ h.me.rstack ≠ [] ∧ h.me.eretReady = false ∧ h.det h.cur.core = false) ∧
    (tX (fun x => { x with inh := true })).me.rstack = [] ∧
    (tStop.me.holds g0 = true ∧ tStop.me.yielded = true ∧ tStop.askedToStop = true ∧ tStop.me.inh = false) ∧
    (tDebug.me.holds g0 = true ∧ (tDebug.part (tDebug.partOf tDebug.cur.core)).debugger = true) ∧
    (tS.opnd (.reg 2) = .ok (⟨0x00FFFE0080000100, 0⟩, tS) ∧ (0x00FFFE0080000100 : Word).extractLsb' 32 32 ≠ 0) ∧
    (tWait.me.holds g0 = true ∧ tWait.opnd (.reg 7) = .ok (⟨3, 0⟩, tWait) ∧ tfind tWait.me.objAns 3 = some 0x7FFF ∧
      tWait.opnd .zero = .ok (⟨0, 0⟩, tWait) ∧ tfind tWait.me.objAns 0 = some 0x8000 ∧ tWait.det tWait.cur.core = false ∧
      ((0x7FFF : BitVec 32).setWidth 16 - 0 : BitVec 16).toNat < 2 ^ 15 ∧
      ¬ ((0x8000 : BitVec 32).setWidth 16 - 0 : BitVec 16).toNat < 2 ^ 15) ∧
    (tS.me.holds gF = false ∧ tS.me.holds { g := 2, inv := false } = false ∧ (tS.me.pred 2).mask = 0) := by decide +kernel

theorem test_witness_TrapEntry :
    let x := tTrap.ctx 0 0
    x.trapEn = true ∧ x.trapMask.getLsbD (Cause.illegal).number = true ∧ x.inh = false ∧ x.rstack.length < 16 ∧
    tTrap.awaits 0 0 = false ∧ tTrap.handlerAt 0 x = some 64 ∧ x.tgt = some (160, true) ∧ x.nds = 2 ∧
    x.shadows.head? = some ⟨3, Lab.zero 4⟩ := by decide +kernel

theorem test_witness_TerminalTrapEndsLaunch :
    ((tS.ctx 0 0).trapEn = false ∧ (tS.core 0).owner = some { part := 0, launch := 1, lcore := 0 } ∧
      tS.launch? { part := 0, launch := 1, lcore := 0 } = some (tLaunch 0) ∧ (tLaunch 0).stage = .running) ∧
    ((tTrap.ctx 0 0).trapMask.getLsbD (Cause.brk).number = false) := by decide +kernel

theorem test_witness_TrapReturnRestores :
    let x := tTrap.ctx 0 0
    x.trapEn = true ∧ x.trapMask.getLsbD (Cause.illegal).number = true ∧ x.inh = false ∧ x.rstack.length < 16 ∧
    tTrap.awaits 0 0 = false ∧ tTrap.handlerAt 0 x = some 64 ∧ tTrap.det 0 = false ∧ (x.ports.map (·.1)).Nodup ∧
    (∀ e ∈ x.predWrite, e.2 < x.cycle) := by decide +kernel

theorem test_witness_FalseGuardPropagatesOnly :
    ∀ i ∈ [Instr.add ⟨gF, false, 1, .reg 1, .reg 2⟩, .vld ⟨gF, false, 1, .zero, .zero, .w256⟩, .hset ⟨gF, .zero, .zero⟩,
      .dzero ⟨gF, false, 1, .c1⟩, .st ⟨gF, 1, .zero, .b8, 0⟩],
      i.guard = some gF ∧ tS.me.holds gF = false := by decide +kernel

/-- A block (a fence behind a store), a stall (a busy divider) and a raise. -/
theorem test_witness_UnissuedAttemptChangesNothing :
    after (.fence ⟨g0, .dev, .full⟩) tSent (fun t => t.cur.verdict == .blocked 9) = true ∧
    after (.div ⟨g0, false, 1, .zero, .zero⟩) (tX (fun x => { x with divFree := 1 })) (fun t => t.cur.verdict == .stalled) = true ∧
    after (.eret ⟨g0⟩) tS (fun t => t.cur.verdict == .raised .illegal 0 0) = true := by decide +kernel

theorem test_witness_OperandReads :
    tS.pending (.sreg 31) = false ∧ tPend.pending (.sreg 8) = true ∧ tS.pending (.mreg 7) = false ∧
    tPend.pending (.mreg 7) = true ∧ tS.me.latchLost 3 = false ∧
    (tX (fun x => { x with lostAt := some 0 })).me.latchLost 0 = true := by decide +kernel

theorem test_witness_ResultTiming :
    tS.me.lostAt = none ∧ (∀ l ∈ tS.me.latches, l.slot = tS.cur.slot → l.b0 ≠ tS.me.cycle + 1) ∧
    (∀ f ∈ tS.me.flight, f.dest ≠ .sreg 31) := by decide +kernel

/-- A result in flight to s8, visible from cycle 2. -/
def tFly (own maskOnly : Bool) (issued slot : Nat) (dest : Dest) : InFlight :=
  { vis := 2, dest := dest, val := 5, mask := 1, slot := slot, own := own, issued := issued, maskOnly := maskOnly }

theorem test_witness_LandingRules :
    -- an own result with a later one before or after it, with one of the inbound port, with a raised mask; then two of the port
    (∀ d ∈ [Dest.sreg 8, .mreg 7, .vreg .y 31 0 512, .dlanes 15, .dnorm 0, .pred 7, .kmask 3 16],
      (∀ p ∈ [(tFly true false 1 0 d, tFly true false 0 3 d), (tFly true false 0 1 d, tFly true false 0 0 d),
          (tFly true false 0 0 d, tFly false false 0 1 d), (tFly true false 0 0 d, tFly true true 5 0 d),
          (tFly false false 0 1 d, tFly false false 0 0 d)],
        p.1.vis ≤ 2 ∧ p.1.maskOnly = false ∧ p.1.dest.same d = true ∧
        (p.2.maskOnly = false → (p.1.own = true ∧ p.2.own = false) ∨
          (p.1.own = true ∧ p.2.own = true ∧ (p.2.issued < p.1.issued ∨ (p.2.issued = p.1.issued ∧ p.2.slot < p.1.slot))) ∨
          (p.1.own = false ∧ p.2.own = false ∧ (p.2.slot < p.1.slot ∨ (p.2.slot = p.1.slot ∧ p.2.issued < p.1.issued)))))) ∧
    (let x : Ctx := { tCtx with cycle := 2, flight := [tFly true false 0 0 (.sreg 8)] }
     ∀ f ∈ x.flight, f.vis ≤ x.cycle → f.dest ≠ .sreg 9 ∧ f.dest ≠ .mreg 8 ∧ f.dest ≠ .dlanes 0 ∧ f.dest ≠ .dnorm 0) ∧
    (let x : Ctx := { tCtx with cycle := 2, flight := [tFly true true 0 0 (.sreg 8)] }
     ∀ g ∈ x.flight, g.vis ≤ x.cycle → g.dest = .sreg 8 → g.maskOnly = true) := by decide +kernel

theorem test_witness_ScalarRegisterFrame :
    scalarDest (.add ⟨g0, false, 8, .reg 1, .reg 7⟩) = some (.sreg 8) ∧ issues (.add ⟨g0, false, 8, .reg 1, .reg 7⟩) tS = true ∧
    issues (.div ⟨g0, false, 8, .reg 1, .zero⟩) tS = true ∧ issues (.cmp ⟨g0, .write, 7, .reg 1, .reg 7, .lt⟩) tS = true ∧
    issues (.plog ⟨g0, 0, 1, 0, .neg⟩) tS = true := by decide +kernel

theorem test_witness_VectorOperandReads :
    tV.pending (.vreg tV.vfile 31 0 1024) = false ∧
    ({ tV with reads := [tRead 1 (.vreg .x 31 0 1024)] } : State).pending (.vreg .x 31 0 1024) = true ∧
    tV.me.latchLost 0 = false ∧ tV.me.port? 7 = none ∧
    ((tV.me.port? 1).all (fun p => p.desc.out)) = true ∧ ((tV.me.port? 2).all (fun p => !p.desc.out && p.exh)) = true ∧
    ((tV.me.port? 3).all (fun p => !p.desc.out && !p.exh && p.buf.isEmpty)) = true ∧
    (∀ q ∈ [0, 4, 5], ((tV.me.port? q).all (fun p => !p.desc.out && !p.exh && !p.buf.isEmpty)) = true ∧ tV.scanning q = false) ∧
    tS.me.rndHeld = 0 ∧ tV.me.rndHeld ≠ 0 := by decide +kernel

/-- 32 lanes of FP32, 64 of FP16 and of BF16, and one operand of the special functions. -/
theorem test_witness_FloatVectorResults :
    (tV.me.holds g0 = true ∧ tV.vdestReady 8 = .ok () ∧ tV.vdata 9 = .ok (Lab.zero 1024)) ∧
    (∀ q ∈ [fp32, fp16, bf16], tV.opndv (.reg 1) 1024 q.width (some q) = .ok (⟨0x00000002FFFFFFFF, 1⟩, tV) ∧
      tV.opndv .zero 1024 q.width (some q) = .ok (Lab.zero 1024, tV)) := by decide +kernel

/-- Operands of one-operand functions: 2.0, −1 as a denormal number, a quiet and a signalling NaN, and a power of two. -/
theorem test_witness_FloatVectorResults_unary :
    (fp32.decode 0x40000000 = .fin false (2 ^ 23) (-22) ∧ (2 ^ 23 : Nat) ≠ 0 ∧ ((1 + 1 : Int) : ℚ) = ((2 ^ 23 : Nat) : ℚ) * 2 ^ (-22 : Int)) ∧
    (fp32.decode 0x80000001 = .fin true 1 (-149) ∧ (fp32.decode 0x7FC00000).isNan = true ∧ (fp32.decode 0x7F800001).signalling = true) := by
  refine ⟨⟨?_, ?_, ?_⟩, ?_⟩
  · decide +kernel
  · decide
  · norm_num
  · decide +kernel

theorem test_witness_IntegerVectorResults :
    (tV.me.holds g0 = true ∧ tV.vdestReady 8 = .ok () ∧ tV.vdata 8 = .ok (Lab.zero 1024)) ∧
    (∀ e ∈ [8, 32], tV.opndv (.reg 1) 1024 e none = .ok (⟨0x00000002FFFFFFFF, 1⟩, tV) ∧
      gives (tV.opndv .ext 1024 e none) (fun p => p.2 == tV) = true) ∧
    (∀ e ∈ [8, 16, 32, 64], tV.opndv (.reg 2) 256 e none = .ok (⟨0x00FFFE0080000100, 0⟩, tV)) := by decide +kernel

theorem test_witness_CompareAndMaskResults :
    tV.me.holds g0 = true ∧ tV.opndv (.reg 1) 512 16 (some fp16) = .ok (⟨0x00000002FFFFFFFF, 1⟩, tV) ∧
    tV.opndv .zero 512 16 (some fp16) = .ok (Lab.zero 1024, tV) ∧ tV.opndv (.reg 1) 1024 8 none = .ok (⟨0x00000002FFFFFFFF, 1⟩, tV) ∧
    tV.opndv .zero 1024 8 none = .ok (Lab.zero 1024, tV) ∧ tV.vdata 1 = .ok ⟨0x00000002FFFFFFFF, 1⟩ ∧
    tV.opndv .zero 1024 32 none = .ok (Lab.zero 1024, tV) := by decide +kernel

theorem test_witness_VectorMovementResults :
    (tV.me.holds g0 = true ∧ tV.vdestReady 8 = .ok () ∧
      tV.opndv (.reg 1) 256 (redBits (.imin .i8)).1 (redBits (.imin .i8)).2 = .ok (⟨0x00000002FFFFFFFF, 1⟩, tV) ∧
      tV.opndv (.reg 1) 1024 (redBits (.add .bf16)).1 (redBits (.add .bf16)).2 = .ok (⟨0x00000002FFFFFFFF, 1⟩, tV)) ∧
    ((63 : BitVec 6).toNat < 1024 / 16 ∧ tV.opndv (.reg 1) 1024 16 none = .ok (⟨0x00000002FFFFFFFF, 1⟩, tV) ∧
      tV.vdata 8 = .ok (Lab.zero 1024)) ∧
    (tV.opndv (.reg 1) 1024 32 none = .ok (⟨0x00000002FFFFFFFF, 1⟩, tV) ∧
      ((tV.me.port? 1).all (fun p => p.desc.out && !p.exh && decide (p.pushes.length < 4))) = true ∧
      ((tV.me.port? 0).all (fun p => !p.desc.out)) = true ∧ ((tV.me.port? 6).all (fun p => p.desc.out && p.exh)) = true) ∧
    tV.opndv (.reg 1) 1024 (fmtBits .f16) (floatOf .f16) = .ok (⟨0x00000002FFFFFFFF, 1⟩, tV) ∧
    (7 : BitVec 3).toNat * (1024 / 8) + 1024 / 8 ≤ 1024 := by decide +kernel

theorem test_witness_VectorRegisterFrame :
    vectorDest tV (.viadd ⟨g0, false, 8, .reg 1, .ext, .w1024, .i32⟩) = some (.vreg .x 8 0 1024) ∧
    issues (.viadd ⟨g0, false, 8, .reg 1, .ext, .w1024, .i32⟩) tV = true ∧
    issues (.vmovPush ⟨g0, false, 8, .reg 1, 1, .w1024⟩) tV = true ∧ issues (.vmov ⟨g0, false, 8, .port 0, .w512⟩) tV = true ∧
    issues (.vicmp ⟨g0, .lt, 2, .reg 1, .zero, .w256, .i32⟩) tV = true ∧ issues (.klog ⟨g0, 2, 0, 0, .set⟩) tV = true := by
  decide +kernel

theorem test_witness_VectorMemoryAccesses :
    (tV.me.holds g0 = true ∧ tV.ldaHolds = false ∧ tV.vdestReady 8 = .ok () ∧
      tV.opnd1 (.reg 2) = .ok (⟨0x00FFFE0080000100, 0⟩, tV) ∧ tV.vecOffset .zero = .ok (⟨0, 0⟩, tV) ∧
      tV.vecOffset .ext = .ok (⟨0xFFFFFFFFFFFFFFB0, 0⟩, tV) ∧
      tV.checkAll .read 0 [(0x00FFFE0080000100, 32)] = .ok [hitsAt 0x100 32 0] ∧
      tV.noMisses [(0x00FFFE0080000100, 32)] = .ok () ∧
      (tV.lookUpAll false tV.nextId [(0x00FFFE0080000100, 32)]).ownBytes [hitsAt 0x100 32 0].flatten = true) ∧
    (tV.opnd1 (.reg 3) = .ok (⟨0x00FFFE0002000100, 0⟩, tV) ∧
      tV.checkAll .read 0 [(0x00FFFE0002000100, 16), (0x00FFFE0002000100, 16)] = .ok [hitsAt 0x2000100 16 0, hitsAt 0x2000100 16 0] ∧
      tV.noMisses [(0x00FFFE0002000100, 16), (0x00FFFE0002000100, 16)] = .ok () ∧
      (tV.lookUpAll false tV.nextId [(0x00FFFE0002000100, 16), (0x00FFFE0002000100, 16)]).ownBytes (hitsAt 0x2000100 16 0) = false) ∧
    -- gather and scatter of 64-bit elements: indices −1, 2, 0, 0 by x1
    (tV.opnd1 (.reg 1) = .ok (⟨0x00000002FFFFFFFF, 1⟩, tV) ∧ (0x00FFFE0080000100 : Word).toNat % 8 = 0 ∧
      tV.checkAll .read 0 [(0x00FFFE00800000F8, 8), (0x00FFFE0080000110, 8), (0x00FFFE0080000100, 8), (0x00FFFE0080000100, 8)] =
        .ok [hitsAt 0xF8 8 0, hitsAt 0x110 8 0, hitsAt 0x100 8 0, hitsAt 0x100 8 0] ∧
      gives (tV.checkAll .write 1 [(0x00FFFE00800000F8, 8), (0x00FFFE0080000110, 8), (0x00FFFE0080000100, 8),
        (0x00FFFE0080000100, 8)]) (fun _ => true) = true ∧
      tV.noMisses [(0x00FFFE00800000F8, 8), (0x00FFFE0080000110, 8), (0x00FFFE0080000100, 8), (0x00FFFE0080000100, 8)] = .ok () ∧
      (tV.lookUpAll false tV.nextId [(0x00FFFE00800000F8, 8), (0x00FFFE0080000110, 8), (0x00FFFE0080000100, 8),
        (0x00FFFE0080000100, 8)]).ownBytes (hitsAt 0xF8 8 0) = true ∧ (∀ q ∈ tV.reads, q.id < tV.nextId) ∧
      tV.vdata 8 = .ok (Lab.zero 1024)) ∧
    (tV.span .write 0x00FFFE0080000100 32 0 = .ok (hitsAt 0x100 32 0) ∧ tV.noMiss 0x00FFFE0080000100 32 = .ok ()) := by
  decide +kernel

theorem test_witness_DirectionResults :
    (tY.me.holds g0 = true ∧ (tY.direction (.reg 3) 1).zero = true ∧ (tY.direction .zero 16).zero = true ∧
      (tY.direction (.reg 1) 1).zero = false ∧ (tY.direction (.reg 2) 1).zero = false) ∧
    (gives (tY.yOperand (.reg 1)) (fun p => p.1.1 == 0x3C00 && p.2 == tY) = true ∧
      gives (tY.yOperand .zero) (fun p => p.1.1 == 0 && p.2 == tY) = true) ∧
    ((tY.direction (.reg 2) 1).norm ≤ (tY.direction (.reg 1) 1).norm ∧ (tY.direction (.reg 2) 1).norm < (tY.direction (.reg 1) 1).norm) ∧
    (tY.yReady 1 1 = .ok () ∧ tY.yReady 16 16 = .ok ()) ∧
    (let vs (n : Nat) := ((List.range 64).map (lane (tY.me.vreg .y n).val 16)).map fp16.decode
     (∀ v ∈ vs 3, v.isZero = true) ∧ (vs 2).any (fun v => v.isNan || v.isInf) = true ∧
     (∀ v ∈ vs 1, v.isNan = false ∧ v.isInf = false) ∧ topExponent (vs 1) = some 0) := by decide +kernel

/-- Lanes whose squares sum to powers of two: 2^28, and 2^30 = 2^(28 + 2·1). -/
theorem test_witness_DirectionResults_exact :
    (([16384] : List Int).map (fun l => l * l)).sum = 2 ^ 28 ∧ (([16384, 16384, 16384, 16384] : List Int).map (fun l => l * l)).sum = 2 ^ 30 := by
  decide

theorem test_witness_DirectionsIntoY :
    (tY.me.holds g0 = true ∧ tY.yReady 8 16 = .ok () ∧ tY.yReady 31 1 = .ok () ∧
      (tY.direction (.reg 1) 1).zero = false ∧ (tY.direction (.reg 3) 1).zero = true) ∧
    (tY.scanning 0 = false ∧ tY.myCore.scan = none ∧ ((tY.me.port? 1).all (fun p => p.desc.out)) = true ∧
      ((tY.me.port? 5).all (fun p => p.desc.repeat_)) = true ∧
      ((tY.me.port? 0).all (fun p => !p.desc.out && !p.desc.repeat_ && decide (p.pos < p.desc.total) &&
        decide ((p.desc.total - p.pos) % 2 = 0))) = true ∧
      ((tY.me.port? 4).all (fun p => decide ((p.desc.total - p.pos) % 2 ≠ 0))) = true) ∧
    (tScan.me.holds g0 = true ∧ tScan.scanning 0 = false ∧ tScan.myCore.scan ≠ none ∧ tScan.det tScan.cur.core = false) ∧
    ((tScanRec 2).cand.length + 1 < (tScanRec 2).chain ∧ (tScanRec 1).chain ≤ (tScanRec 1).cand.length + 1) := by decide +kernel

theorem test_witness_FloatArithmeticIsExactThenRounded :
    ((-3 : Int) < 0) ∧ (f8e4 ∈ [fp32, fp16, bf16, f8e4, f8e5] ∧ 0x7E < 2 ^ f8e4.width ∧ f8e4.decode 0x7E = .fin false 14 5) ∧
    (fp32.decode 1 = .fin false 1 (-149)) ∧ ((FVal.inf true).isNan = false ∧ (fp16.decode 0x7E01).isNan = true) := by
  decide +kernel

theorem test_witness_RingOperations :
    (let s := tE [1, 0x4040000000, 0]
     s.me.holds g0 = true ∧ s.ldaHolds = false ∧ s.opnd3 (.reg 0) = .ok (⟨1, 0⟩, s) ∧ (1 : Word).extractLsb' 30 8 = 0 ∧
     s.opnd3 (.reg 1) = .ok (⟨0x4040000000, 0⟩, s) ∧ s.opnd3 (.reg 2) = .ok (⟨0, 0⟩, s) ∧
     -- the word of m1 is valid: one unit a tile, two tiles, at unit 0
     (0x4040000000 : Word).extractLsb' 48 16 = 0 ∧ (0x4040000000 : Word).extractLsb' 19 11 = 0 ∧
     (0x4040000000 : Word).extractLsb' 38 4 = 1 ∧ (0x4040000000 : Word).extractLsb' 30 8 = 1 ∧
     s.myCore.ringIdle 1 = true ∧ s.myCore.ringIdle 3 = false) ∧
    (let s := tE [6, 1, 4, 5, 0, 7]
     s.mReady 6 = .ok () ∧ s.obj (.reg 0) 16 = .ok ((6, 0), s) ∧ s.opnd3 (.reg 1) = .ok (⟨1, 0⟩, s) ∧
     s.opnd3 (.reg 2) = .ok (⟨4, 0⟩, s) ∧ s.opnd3 (.reg 3) = .ok (⟨5, 0⟩, s) ∧ s.obj (.reg 5) 16 = .ok ((7, 0), s) ∧
     (s.myCore.ring 6).resv = (s.myCore.ring 6).tail ∧ (s.myCore.ring 6).log2n = 2 ∧
     2 ^ (s.myCore.ring 7).log2n < ((s.myCore.ring 7).tail - (s.myCore.ring 7).head).toNat + 1) := by decide +kernel

theorem test_witness_StreamPortOperations :
    let s := tE [0x240, 0x241, 0x017FFFC0, 0x01800000, 1, 2, 0]
    (s.me.holds g0 = true ∧ s.ldaHolds = false ∧ s.opnd3 (.reg 1) = .ok (⟨0x241, 0⟩, s) ∧ 0x241 % 64 ≠ 0 ∧
      s.opnd3 (.reg 3) = .ok (⟨0x01800000, 0⟩, s) ∧ 0x01800000 % 64 = 0 ∧ 0x017FFFC0 < 0x01800000) ∧
    (s.opnd3 (.reg 2) = .ok (⟨0x017FFFC0, 0⟩, s) ∧ gives (s.readRecord 0x017FFFC0) (fun r => (streamOf r.1).isNone) = true) ∧
    (s.opnd3 (.reg 0) = .ok (⟨0x240, 0⟩, s) ∧
      gives (s.readRecord 0x240) (fun r => (streamOf r.1).any (fun d => d.base == 0x1000 && s.myCore.genUsed d.gen 0 0)) = true ∧
      gives (tU.readRecord 0x240) (fun r => (streamOf r.1).any (fun d => !tU.myCore.genUsed d.gen 0 0)) = true ∧
      tU.me.holds g0 = true ∧ tU.opnd3 (.reg 0) = .ok (⟨0x240, 0⟩, tU) ∧ tU.unbindReady 0 = true ∧
      tU.unbindReady 1 = false ∧ gives (tU.readRecord 0x240) (fun r => (streamOf r.1).any (fun d => d.gen == 0 && !tU.myCore.genUsed d.gen 0 1)) = true ∧
      tU.det tU.cur.core = false) ∧
    (s.me.port? 7 = none ∧ (s.me.port? 0).isSome = true ∧ s.unbindReady 0 = true ∧ s.opnd3 (.reg 4) = .ok (⟨1, 0⟩, s) ∧
      s.opnd3 (.reg 5) = .ok (⟨2, 0⟩, s) ∧ ((s.me.port? 0).all (fun p => decide (1 < p.desc.total ∧ p.desc.total ≤ 2) && !p.desc.repeat_)) = true ∧
      ((s.me.port? 5).all (fun p => decide (p.desc.total ≤ 1) && p.desc.repeat_)) = true ∧ s.scanning 0 = false) ∧
    s.mReady 6 = .ok () := by decide +kernel

theorem test_witness_CopyQueueCommands :
    (let s := tE [63, 0x240, 0x241, 0x01800000]
     s.me.holds g0 = true ∧ s.ldaHolds = false ∧ s.obj (.reg 0) 64 = .ok ((63, 0), s) ∧ s.opnd3 (.reg 1) = .ok (⟨0x240, 0⟩, s) ∧
     gives (s.readRecord 0x240) (fun _ => true) = true ∧ s.opnd3 (.reg 2) = .ok (⟨0x241, 0⟩, s) ∧
     s.opnd3 (.reg 3) = .ok (⟨0x01800000, 0⟩, s)) ∧
    -- a copy command that names a bank (m0), one with a reserved bit (m1), a source and a destination
    (let s := tE [0x10004001, 0x8000000000000000, 0x10000, 0x3FFF0]
     s.opnd3 (.reg 0) = .ok (⟨0x10004001, 0⟩, s) ∧ s.opnd3 (.reg 2) = .ok (⟨0x10000, 0⟩, s) ∧ s.mdata 3 = .ok ⟨0x3FFF0, 0⟩ ∧
     ((0x10004001 : Word).extractLsb' 27 2).toNat = 2 ∧ (0x10004001 : Word).extractLsb' 6 6 = 0 ∧ 0x3FFF0 < 2 ^ 19 ∧
     (0x8000000000000000 : Word).extractLsb' 29 35 ≠ 0 ∧ s.me.copyq.length < 16) ∧
    ((tQ 0).me.copyq.length = 16 ∧ (tQ 0).strict = false ∧ (tQ 0).det (tQ 0).cur.core = false ∧ (tQ 0).me.holds g0 = true ∧
    (tQ 0x40).me.copyq.length = 16 ∧ (tQ 0x40).strict = true ∧ (tQ 0x40).me.holds g0 = true) ∧
    -- BCLEAR: the page is no aperture address, the last block of the own slice with one block and with two, an absent core
    (let s := tE [0x10000, 0x00FFFE00817FF000, 0x00FFFE00817FF001, 0x00FFFE0004000000, 5]
     s.opnd3 (.reg 0) = .ok (⟨0x10000, 0⟩, s) ∧ s.opnd3 (.reg 1) = .ok (⟨0x00FFFE00817FF000, 0⟩, s) ∧
     s.opnd3 (.reg 2) = .ok (⟨0x00FFFE00817FF001, 0⟩, s) ∧ s.obj (.reg 4) 64 = .ok ((5, 0), s) ∧
     s.opnd3 (.reg 3) = .ok (⟨0x00FFFE0004000000, 0⟩, s) ∧ inAperture 0x10000 = false ∧
     aperture (s.launchCores s.cur.core) s.cur.core 0x00FFFE00817FF000 = .ok 0x17FF000 ∧
     aperture (s.launchCores s.cur.core) s.cur.core 0x00FFFE0004000000 = .error .sliceRange) ∧
    -- RELEASE: a legal command of 16 bytes, an illegal one, an aligned and a misaligned source and offset
    (let s := tE [0x10, 0x11, 0x10000, 0x10001, 0, 8]
     s.opnd3 (.reg 0) = .ok (⟨0x10, 0⟩, s) ∧ s.opnd3 (.reg 1) = .ok (⟨0x11, 0⟩, s) ∧ s.opnd3 (.reg 2) = .ok (⟨0x10000, 0⟩, s) ∧
     s.opnd3 (.reg 3) = .ok (⟨0x10001, 0⟩, s) ∧ s.mdata 4 = .ok ⟨0, 0⟩ ∧ s.mdata 5 = .ok ⟨8, 0⟩) ∧
    -- PUBLISH: windows 1 and 2, and a reserved bit
    (let s := tE [1, 2, 0x10]
     s.opnd3 (.reg 0) = .ok (⟨1, 0⟩, s) ∧ s.opnd3 (.reg 1) = .ok (⟨2, 0⟩, s) ∧ s.opnd3 (.reg 2) = .ok (⟨0x10, 0⟩, s) ∧
     (tfind (s.part (s.partOf s.cur.core)).pubwins 1).isSome = true ∧
     (tfind (s.part (s.partOf s.cur.core)).pubwins 2).isNone = true ∧ s.me.copyPend = false ∧ s.mReady 7 = .ok ()) ∧
    (tRep.me.holds g0 = true ∧ tRep.me.copyPend = true ∧ tRep.me.reportedEntry.isSome = true) ∧
    (tCopy.kind.dhnd = some 3 ∧ tCopy.kind.shnd = some 4 ∧ tCopy.stage = .queued) := by
  refine ⟨?_, ?_, ?_, ?_, ?_, ?_, ?_, ?_⟩ <;> decide +kernel

theorem test_witness_HandlesAndTranspose :
    (let s := tE [1, 2, 3, 4, 0, 0xA000000]
     s.me.holds g0 = true ∧ s.obj (.reg 0) 64 = .ok ((1, 0), s) ∧ s.obj (.reg 1) 64 = .ok ((2, 0), s) ∧
     s.opnd3 (.reg 2) = .ok (⟨3, 0⟩, s) ∧ s.opnd3 (.reg 3) = .ok (⟨4, 0⟩, s) ∧
     (s.myCore.handle 1).st = .filling ∧ (s.myCore.handle 2).st = .full ∧ (s.myCore.handle 4).st = .free ∧
     s.mReady 6 = .ok () ∧ s.det s.cur.core = false ∧ s.opnd3 (.reg 4) = .ok (⟨0, 0⟩, s) ∧
     s.opnd3 (.reg 5) = .ok (⟨0xA000000, 0⟩, s) ∧ (0xA000000 : Word).extractLsb' 27 5 ≠ 0) ∧
    (let s := tE []
     s.pending (.vreg .x 31 0 1024) = false ∧ s.myCore.trans.blocks.length < 2 ∧ s.myCore.trans.rows.length + 1 < 64) ∧
    ((tT 2 0).me.holds g0 = true ∧ 2 ≤ (tT 2 0).myCore.trans.blocks.length ∧ (tT 2 0).det (tT 2 0).cur.core = false) ∧
    (32 ≤ (tT 1 31).myCore.trans.rows.length + 1 ∧ (tT 1 31).myCore.trans.w32 = true ∧ (tT 1 31).myCore.trans.blocks.length < 2) ∧
    ((tT 1 0).myCore.trans.store = false ∧ (tT 1 0).myCore.ticks < max 0 0 + 8 + 0 ∧
      (let s := (tT 1 0).modMyCore (fun k => { k with ticks := 8 })
       s.me.holds g0 = true ∧ max 0 s.myCore.trans.freeAt + 8 + s.myCore.trans.col ≤ s.myCore.ticks)) := by decide +kernel

theorem test_witness_PlaneCallAcceptance :
    (let s := tE [0x00FFFE0080000300, 0x00100803, 0x1_0000_0000, 0x00FFFE0080000308, 0x00100002, 0x00000003]
     s.me.holds g0 = true ∧ s.ldaHolds = false ∧ s.opnd3 (.reg 0) = .ok (⟨0x00FFFE0080000300, 0⟩, s) ∧
     s.opnd3 (.reg 1) = .ok (⟨0x00100803, 0⟩, s) ∧ s.opnd3 (.reg 2) = .ok (⟨0x1_0000_0000, 0⟩, s) ∧
     s.opnd3 (.reg 3) = .ok (⟨0x00FFFE0080000308, 0⟩, s) ∧ s.opnd3 (.reg 5) = .ok (⟨3, 0⟩, s) ∧
     s.wordSpans 0x00FFFE0080000300 0 1 = .ok (hitsAt 0x300 16 0) ∧ s.wordSpans 0x00FFFE0080000300 0 0 = .ok [] ∧
     s.myCore.calls = [] ∧ (s.lookUp none 0x00FFFE0080000300 16).earlierWaits ((hitsAt 0x300 16 0).map (·.pa)) = false ∧
     (wordsFrom 1 (((hitsAt 0x300 16 0).map (·.pa)).map s.peekNow)).all (fun w => (decodeMicro w).toOption.isSome) = true ∧
     (wordsFrom 1 (((hitsAt 0x310 16 0).map (·.pa)).map s.peekNow)).any (fun w => (decodeMicro w).toOption.isNone) = true ∧
     s.wordSpans 0x00FFFE0080000310 0 1 = .ok (hitsAt 0x310 16 0) ∧
     (({ s with writes := [{ tWrite with cells := [(0x300, 7)] }] } : State).lookUp none 0x00FFFE0080000300 16).earlierWaits
       ((hitsAt 0x300 16 0).map (·.pa)) = true) ∧
    (tP.me.holds g0 = true ∧ tP.det tP.cur.core = false ∧ tP.myCore.calls.any (fun c => c.routine == 2) = true ∧
      (tEOf 1 []).me.holds g0 = true ∧ (tEOf 1 []).det (tEOf 1 []).cur.core = true) ∧
    (tE []).myCore.storesWf = true ∧
    (let s := tE tArgs
     s.me.holds g0 = true ∧ s.ldaHolds = false ∧ s.callArgs 8 = .ok (tArgs, 0) ∧ tCall.argsOk = true ∧ (s.myCore.routine 2).2 = 4 ∧
     (s.myCore.routine 3).2 = 0 ∧ (List.range 16).all (fun r => !tCall.holdsRing r || (s.myCore.ring r).configured) = true ∧
     tCall.units + s.myCore.keptUnits ≤ 512 ∧ s.myCore.freeUnits = 512 ∧ tP.myCore.planeHeld 2 = true ∧ s.det s.cur.core = false) ∧
    -- sixteen inboxes of 40 units are more than the pool
    512 < ({ tCall with args := [0x200000200, 0x100000100, 0, 0, 0x9002132, 0x41000, 0x451000F0, 0] } : Call).units := by
  decide +kernel

theorem test_witness_PlaneStepsAndShifts :
    (tJ.runningCall tJ.cur.core = some tCallJ ∧ tCallJ.holdsRing 4 = true ∧ tCallJ.holdsRing 5 = true ∧
      tCallJ.inj = some tInj ∧ stepFmt tCallJ.int (tJ.myCore.ring 4).snk = true ∧ (tJ.myCore.ring 4).elems = 512 ∧
      stepFmt tCallJ.int (tJ.myCore.ring 5).snk = true ∧ tInj.n.foldl (· * ·) 1 ≤ (tJ.myCore.ring 5).elems ∧
      gives (tJ.tileAt tCallJ (tJ.myCore.ring 4)) (fun _ => true) = true ∧
      gives (tJ.tileAt tCallJ (tJ.myCore.ring 5)) (fun _ => true) = true ∧ (tJ.myCore.plane tCallJ.plane).wf = true) ∧
    (gives (tJ.stepOn tCallJ 4) (fun _ => true) = true ∧
      (match tJ.stepOn tCallJ 6 with | .error (.wait .waitTile) => true | _ => false) = true) ∧
    (tCallJ.opl = true ∧ tCallJ.wf = true ∧ tCallJ.hasAxis 1 = true ∧ tCallJ.hasAxis 0 = true ∧
      (tJ.myCore.plane tCallJ.oplane).wf = true ∧ tCallJ.tap < (1 : BitVec 4).toNat ∧ (0 : BitVec 4).toNat ≤ tCallJ.tap) ∧
    tS.runningCall tS.cur.core = none := by
  refine ⟨?_, ?_, ?_, ?_⟩ <;> decide +kernel

theorem test_witness_PlaneDataMovement :
    (tP.runningCall tP.cur.core = some tCall ∧ tCall.holdsRing 4 = true ∧ tCall.holdsRing 3 = false ∧ tCall.hasAxis 1 = true ∧
      tCall.hasAxis 2 = false ∧ tCall.opl = true ∧ tCall.wf = true) ∧
    (tP0.runningCall tP0.cur.core = some { tCall with args := tArgs.set 6 0xF0 } ∧
      ({ tCall with args := tArgs.set 6 0xF0 } : Call).opl = false) ∧
    (((floatOf (tP.myCore.ring 4).snk).isSome = true ↔ tCall.int = false) ∧
      (0x1FE00 : BitVec 17).toNat + ((0 : BitVec 12).toNat + 1) * (tP.myCore.ring 4).elems ≤ 131072 ∧
      gives (tP.tileAt tCall (tP.myCore.ring 4)) (fun _ => true) = true) ∧
    (gives (tP.drainSource tCall .acc) (fun r => decide (0x1FE00 + 512 ≤ r.count) && decide (r.count < 0x1FE01 + 512)) = true ∧
      (tP.myCore.ring 4).tileBytes * 8 / fmtBits (tP.myCore.ring 4).src = 512 ∧
      2 ^ (tP.myCore.ring 7).log2n < ((tP.myCore.ring 7).resv - (tP.myCore.ring 7).head).toNat + 1 ∧
      ((tP.myCore.ring 6).resv - (tP.myCore.ring 6).head).toNat + 1 ≤ 2 ^ (tP.myCore.ring 6).log2n ∧
      tP.planeEscape tCall true ((tP.myCore.ring 6).tileOff (tP.myCore.ring 6).resv) (tP.myCore.ring 6).tileBytes = none) := by
  refine ⟨?_, ?_, ?_, ?_⟩ <;> decide +kernel

/-- Every cell that the test call sends goes to logical core 0: CBASE and the GSTR fields are zero. -/
theorem tCall_owner (q : Pos) (o : Nat) (x : List Nat) (h : tCall.fate q = .sent o x) : o < 2 := by
  have hz : ∀ k ∈ four, (tCall.axis k).gstr = 0 := by decide +kernel
  have hb : tCall.cbase = 0 := by decide +kernel
  have ho : ∀ x, tCall.owner x = 0 := by
    intro x
    have : ∀ (l : List (Nat × Nat)) (n : Nat), (∀ e ∈ l, e.1 ∈ four) →
        (l.map (fun e => e.2 / (tCall.axis e.1).ext * (tCall.axis e.1).gstr)).foldl (· + ·) n = n := by
      intro l
      induction l with
      | nil => intros; rfl
      | cons e l ih =>
        intro n hl
        simp only [List.map_cons, List.foldl_cons, hz _ (hl e List.mem_cons_self), Nat.mul_zero, Nat.add_zero]
        exact ih n (fun e he => hl e (List.mem_cons_of_mem _ he))
    rw [Call.owner, hb, this _ 0 (fun e he => (List.of_mem_zip he).1)]
  rw [Call.fate] at h
  split at h
  · cases h
  · dsimp only at h
    split at h
    · cases h
    · split at h
      · cases h
      · simp only [CellFate.sent.injEq] at h
        obtain ⟨rfl, -⟩ := h
        rw [ho]
        decide

theorem test_witness_PlaneControlAndHalos :
    -- HEXP: first turn, waiting turn with and without exports, a second HEXP, unequal wraps
    (tP.runningCall tP.cur.core = some tCall ∧ tCall.tap ≠ 1 ∧ tCall.hexpDone = false ∧
      (∀ k < 4, ((tCall.modes[2 * k]?).getD .clip = BMode.wrap ↔ (tCall.modes[2 * k + 1]?).getD .clip = BMode.wrap)) ∧
      (∀ e ∈ tCall.exportsOf (tP.myCore.plane 2) 0 tP.nextId Clock.zero, e.owner < (tP.launchCores tP.cur.core).length)) ∧
    ((tPc { tCall with tap := 1 } []).runningCall 0 = some { tCall with tap := 1 } ∧ ((tPc { tCall with tap := 1 } []).core 0).exports = [] ∧
      ((tPc { tCall with tap := 1 } [tExport]).core 0).exports ≠ []) ∧
    ((tPc { tCall with hexpDone := true } []).runningCall 0 = some { tCall with hexpDone := true }) ∧
    (let c := { tCall with modes := [BMode.wrap, .clip, .clip, .clip, .clip, .clip, .clip, .clip] }
     (tPc c []).runningCall 0 = some c ∧ ∃ k < 4, ¬ ((c.modes[2 * k]?).getD .clip = BMode.wrap ↔ (c.modes[2 * k + 1]?).getD .clip = BMode.wrap)) ∧
    -- HMRG of none, of more than are left, of one that has not arrived and of one that has
    (((tCall.arg 7).extractLsb' 16 16).toNat = 0 ∧ tCall.nin - tCall.merged < 3 ∧ 1 ≤ tCall.nin - tCall.merged ∧
      (tCall.inboxes.filter (fun b => b.st == .arrived)).length < 1 ∧
      (let c := { tCall with inboxes := [{ st := .arrived, from_ := 1, cells := [], mask := 0, order := 3, clk := Clock.zero }, { st := .free, from_ := 0, cells := [], mask := 0, order := 0, clk := Clock.zero }] }
       (tPc c []).runningCall 0 = some c ∧ 1 ≤ (c.inboxes.filter (fun b => b.st == .arrived)).length)) ∧
    -- ULOOP, UEND, UWAIT
    (tCall.loops.length < 4 ∧ tCall.loops = [] ∧ ((tP.myCore.ring 4).tail - (tP.myCore.ring 4).head).toNat = 1 ∧ 2 ^ (tP.myCore.ring 4).log2n = 4 ∧
      (let c := { tCall with loops := [(1, 2), (1, 1), (1, 1), (1, 1)] }
       (tPc c []).runningCall 0 = some c ∧ 4 ≤ c.loops.length) ∧
      (let s := (tPc tCall []).modCore 0 (fun k => { k with ustore := [(1, 0x34000000000000000000000000000000)] })
       s.runningCall 0 = some tCall ∧ (s.core 0).afterUend tCall.routine 4096 1 0 = some 2) ∧
      tCall.wait.getD 1 ≤ 1 ∧ 1 < tCall.wait.getD 2) ∧
    -- URET keeping and not keeping, and before a push is complete; the start of a call
    ((let rs := [(4, { tRing 16 .f16 0 1 1 with done := [3] })]
      (tP.modMyCore (fun k => { k with rings := rs })).runningCall 0 = some tCall ∧
        (∀ e ∈ rs, e.2.settled.done ≠ []) ∧ (∀ r < 16, ((tP.core 0).ring r).settled.done = [])) ∧
      tCall.keepSet = false ∧ (tPc { tCall with keepSet := true } []).runningCall 0 = some { tCall with keepSet := true } ∧
      ((tPc { tCall with started := false } []).core 0).calls = { tCall with started := false } :: [] ∧
      ((tPc { tCall with started := false } []).core 0).halted = false ∧ ((tPc tCall []).core 0).calls = tCall :: []) ∧
    -- grants and arrivals
    (tP.oldestGrant 0 = none ∧ tHalo.oldestGrant 0 = some ((1, tExport), (tCall, 0)) ∧ (tHalo.core 1).calls.head? = some tCall ∧
      tExport.cells.length ≤ tCall.uin * 512 ∧ tBig.oldestGrant 0 = some ((1, tBigExport), (tCall, 0)) ∧
      (tBig.core 1).calls.head? = some tCall ∧ tCall.uin * 512 < tBigExport.cells.length ∧
      tHalo.meshPause = false ∧ ({ tHalo with meshPause := true } : State).meshPause = true ∧
      (tP.core 0).calls[0 / 16]? = some tCall ∧ (tCall.inboxes[1 % 16]?).all (fun b => b.st != .granted) = true ∧
      (let b : Inbox := { st := .granted, from_ := 1, cells := [], mask := 0, order := 3, clk := Clock.zero }
       ((tPc { tCall with inboxes := [b] } []).core 0).calls[0 / 16]? = some { tCall with inboxes := [b] } ∧
       ({ tCall with inboxes := [b] } : Call).inboxes[0 % 16]? = some b ∧ (tP.die 0).clk.covers b.clk = true ∧
       -- a later export of the same exporter behind it, and one that the die's clock does not cover
       ({ tCall with inboxes := [b, { b with order := 4 }] } : Call).inboxes[1 % 16]? = some { b with order := 4 } ∧ b.order < 4 ∧
       (tP.die 0).clk.covers { Clock.zero with d1 := 1 } = false)) ∧
    -- a call of a launch that ends, at a boundary and within a micro-op
    (let c := { tCall with ending := true }
     ((tPc c []).core 0).calls.find? (fun d => d.uid == 1) = some c ∧ c.ending = true ∧ c.tap = 0 ∧ c.wait = none ∧
     tCall.ending = false ∧ ({ c with tap := 1 } : Call).tap ≠ 0) := by
  refine ⟨⟨?_, ?_, ?_, ?_, ?hexp⟩, ?_, ?_, ⟨?_, 0, by decide, ?_⟩, ?_, ?_, ?_, ?_, ?_⟩
  case hexp =>
    have : (tP.launchCores tP.cur.core).length = 2 := by decide +kernel
    rw [this]
    exact exports_owner _ _ _ _ _ _ tCall_owner
  all_goals decide +kernel

/-- A write of die 1, the first that it stamps. -/
def tW1 : WriteReq := { tWrite with id := 4, core := 17, die := 1, stamp := { Clock.zero with d1 := 1 } }
/-- Requests 1 to 9: reads of core 1's slice (8 answered, 7 of the IOD, 6 a full-empty load), writes and an atomic. -/
def tM : State :=
  { tS with
    nextId := 20
    cur := { tS.cur with base := 20 }
    writes := [{ tWrite with id := 3, cells := [(0x2000200, 7)] }, { tW1 with cells := [(0x2000300, 7)] }]
    reads := [tRead 1 (.sreg 8), { tRead 6 (.sreg 9) with kind := .fe true, bytes := (List.range 8).map (fun i => some (0x2000400 + i)) },
              { tRead 7 (.sreg 10) with kind := .sysr 0x80F, bytes := [] }, { tRead 8 (.sreg 11) with reply := some ⟨5, 1⟩ },
              { tRead 9 (.sreg 12) with bytes := (List.range 8).map (fun i => some (0x2000300 + i)), clk := { Clock.zero with d1 := 1 } },
              { tRead 11 (.sreg 13) with reply := some ⟨5, 1⟩, rclk := { Clock.zero with d1 := 1 } },
              { tRead 12 (.sreg 14) with kind := .fe false, bytes := (List.range 8).map (fun i => some (0x2000500 + i)) }]
    atoms := [{ tAtom 10 with stage := .applied }, { tAtom 13 with stage := .applied, discard := false, dest := .sreg 15 },
              { tAtom 14 with core := 1 }] }

theorem test_witness_MemoryEvents :
    (tM.writes.find? (fun w => w.id == 3) = some { tWrite with cells := [(0x2000200, 7)] } ∧
      tM.canPerform { tWrite with cells := [(0x2000200, 7)] } = true ∧ tM.memWf = true ∧ homeDie 0x2000200 ≠ none ∧
      tM.writes.find? (fun w => w.id == 4) = some { tW1 with cells := [(0x2000300, 7)] } ∧
      tM.canPerform { tW1 with cells := [(0x2000300, 7)] } = false ∧ ({ tWrite with held := true } : WriteReq).held = true) ∧
    (tW1.held = false ∧ tM.notInjected tW1.sent = false ∧ tW1.appliedTo 0 = false ∧ (tM.die 0).clk.get 1 + 1 = tW1.stamp.get 1 ∧ tWrite.appliedTo 0 = true) ∧
    (let d : Die := { Die.reset with replicas := [{ line := 5, data := [], queue := [{ cells := [(0x140, 3)], die := 0, stamp := Clock.zero }], clk := Clock.zero },
                                                  { line := 6, data := [], queue := [], clk := Clock.zero }] }
     let s : State := { tS with dies := [(0, d)] }
     (s.die 0).replicas.length = 2 ∧ (s.die 0).hasApplied 0 Clock.zero = true) ∧
    (tM.reads.find? (fun r => r.id == 1) = some (tRead 1 (.sreg 8)) ∧ tM.earlierOpen 1 0 0 (tRead 1 (.sreg 8)).pas = false ∧
      tM.replicaServes 0 (tRead 1 (.sreg 8)).pas = false ∧ tM.mustWait Clock.zero (tRead 1 (.sreg 8)).pas = false ∧
      (∃ r, tM.reads.find? (fun r => r.id == 9) = some r ∧ tM.mustWait r.clk r.pas = true ∧ r.kind = .mem ∧ r.reply = none) ∧
      (∃ r, tM.reads.find? (fun r => r.id == 8) = some r ∧ r.reply ≠ none ∧ (tM.die (dieOf r.core)).clk.covers r.rclk = true) ∧
      (∃ r, tM.reads.find? (fun r => r.id == 11) = some r ∧ r.reply ≠ none ∧ (tM.die (dieOf r.core)).clk.covers r.rclk = false) ∧
      (∃ r, tM.reads.find? (fun r => r.id == 7) = some r ∧ r.kind = .sysr 0x80F ∧ r.reply = none) ∧
      (∃ r, tM.reads.find? (fun r => r.id == 6) = some r ∧ r.kind = .fe true ∧ r.reply = none ∧ r.pas.head? = some 0x2000400 ∧
        sliceOf 0x2000400 = some 1 ∧ tM.mustWait r.clk r.pas = false ∧ tM.earlierOpen 6 0 0 r.pas = false ∧ 6 ∉ (tM.core 1).feWait)) ∧
    (let l : ReadReq := { tRead 2 (.sreg 8) with bytes := (List.range 8).map (fun i => some (pagePa + i)) }
     let d : Die := { Die.reset with replicas := [{ line := pagePa / 64, data := [], queue := [], clk := Clock.zero }] }
     let s : State := { tS with reads := [l, { l with id := 3 }], dies := [(0, d)] }
     s.replicaServes 0 l.pas = true ∧ s.earlierOpen 2 0 0 l.pas = false ∧ s.walking 2 = false ∧ (∀ q ∈ s.reads, ¬ q.id < 2) ∧
     (∃ q ∈ s.reads, q.id < 3 ∧ q.core = 0 ∧ q.ctx = 0 ∧ meets q.pas l.pas = true) ∧ s.paused 2 0 l.pas = false ∧
     ({ s with meshPause := true, meshMark := 2 } : State).paused 2 0 l.pas = true ∧
     ({ s with meshPause := true, meshMark := 3 } : State).paused 2 0 l.pas = false ∧
     -- an atomic of the context on the line comes first, and an LDA of the read's own bundle
     ({ s with atoms := [{ tAtom 1 with tgt := .mem pagePa, stage := .applied }] } : State).atomBefore 2 0 0 l.pas = true ∧
     s.atomBefore 2 0 0 l.pas = false ∧ (s.die 0).clk.covers l.clk = true ∧ (s.die 0).clk.covers { Clock.zero with d1 := 1 } = false ∧
     (∃ q ∈ [{ l with acquire := true }], q.id < 3 ∧ q.core = 0 ∧ q.ctx = 0 ∧ q.acquire = true)) ∧
    -- a full-empty load of the cluster on its way to the same slice
    (let f : ReadReq := { tRead 6 (.sreg 9) with kind := .fe true, bytes := (List.range 8).map (fun i => some (0x2000400 + i)) }
     tM.feBefore f 1 = false ∧ tM.feBefore { f with id := 12 } 1 = true ∧ f.acquire = false ∧ (∀ w ∈ tM.writes, w.held = false)) ∧
    -- a write that an LDA held
    (let w : WriteReq := { tWrite with held := true }
     let s : State := { tM with writes := [w, tW1] }
     s.writes.filter (fun w => w.held) = [w] ∧ (∀ q ∈ s.reads, q.core = w.core → q.ctx = w.ctx → q.acquire = false)) ∧

    (let s := tM.modCore 1 (fun k => { k with feWait := [6, 12], fe := [(0x500 / 16, true)] })
     s.feWaiters 1 0 = [] ∧ (∃ r, s.feWaiters 1 (0x400 / 16) = [r] ∧ r.kind = .fe true ∧ s.fullBit 0x2000400 = false) ∧
     (∃ r, s.feWaiters 1 (0x500 / 16) = [r] ∧ r.kind = .fe false ∧ s.fullBit 0x2000500 = true) ∧
     tsortedFrom 0 (s.core 1).fe = true ∧ tsortedFrom 0 (s.core 0).fe = true) ∧
    (tM.reads.find? (fun r => r.id == 10) = none ∧ tM.atoms.find? (fun a => a.id == 10) = some { tAtom 10 with stage := .applied } ∧
      tM.atoms.find? (fun a => a.id == 13) = some { tAtom 13 with stage := .applied, discard := false, dest := .sreg 15 } ∧
      tM.atoms.find? (fun a => a.id == 14) = some { tAtom 14 with core := 1 } ∧ tM.reads.find? (fun r => r.id == 13) = none ∧
      tM.reads.find? (fun r => r.id == 14) = none ∧ (tM.die 0).clk.covers (tAtom 10).clk = true ∧
      (tM.die 0).clk.covers { Clock.zero with d0 := 1 } = false) ∧
    (tCtx.st ≠ .frozenTrap ∧ tCtx.st ≠ .frozenPre) ∧
    (tM.writes.find? (fun w => w.id == 4 && !w.performed) = some { tW1 with cells := [(0x2000300, 7)] } ∧
      tM.atoms.find? (fun a => a.id == 14 && a.stage == .sent) = some { tAtom 14 with core := 1 } ∧
      tP.runningCall 0 = some tCall ∧ tS.runningCall 0 = none) ∧
    -- a walk that fails, on which one read waits
    (let m : Miss := { part := 0, key := 0x20, cluster := 0, started := true, reqs := [1] }
     let s : State := { tM with dies := [(0, { Die.reset with misses := [(1, m), (2, { m with started := false })] })] }
     tfind (s.die 0).misses 1 = some m ∧ m.reqs = [(tRead 1 (.sreg 8)).id] ∧ (s.ctx 0 0).st ≠ .retired ∧ (s.ctx 0 0).st ≠ .retiring ∧
     s.reads.find? (fun q => q.id == 1) = some (tRead 1 (.sreg 8)) ∧ (∀ w ∈ s.writes, w.id ≠ 1) ∧ (∀ a ∈ s.atoms, a.id ≠ 1) ∧
     s.waitingCopies m = [] ∧ tfind (s.die 0).misses 2 = some { m with started := false } ∧ s.walking 1 = true) ∧
    (let m : Miss := { part := 0, key := 0x10, cluster := 0, started := true }
     let d : Die := { Die.reset with misses := [(1, m), (2, { m with key := 0x20 }), (3, { m with started := false })] }
     let s : State := { tS with dies := [(0, d)] }
     ((s.die 0).misses.filter (fun e => e.2.started)).length < 32 ∧ s.meshPause = false ∧
     (s.die 0).misses.find? (fun e => !e.2.started) = some (3, { m with started := false }) ∧
     tfind (s.die 0).misses 1 = some m ∧ gives ((s.part 0).translate 0x10000) (fun _ => true) = true ∧
     ((s.part 0).leafAt 0x10000).isSome = true ∧ tfind (s.die 0).misses 2 = some { m with key := 0x20 } ∧
     (s.part 0).translate 0x20000 = .error .transInvalid ∧ (s.die 0).atFront = [] ∧
     32 ≤ (((List.range 32).map (fun i => (i, m))).filter (fun e => e.2.started)).length) := by
  refine ⟨?_, ?_, ?_, ⟨?_, ?_, ?_, ?_, ⟨_, rfl, ?_⟩, ⟨_, rfl, ?_⟩, ⟨_, rfl, ?_⟩, ⟨_, rfl, ?_⟩, ⟨_, rfl, ?_⟩⟩, ?_, ?_, ?_,
    ⟨?_, ⟨_, rfl, ?_⟩, ⟨_, rfl, ?_⟩, ?_⟩, ?_, ?_, ?_, ?_, ?_⟩ <;> decide +kernel

theorem test_witness_AtomicAndSerialEvents :
    -- one request arrives at once, of several one by a free value; the head of the line that the store holds is ready
    ((∀ c < 64, ((tFull.launchOf c).map (fun l => l.replay || l.record)).getD false = false) ∧
      tFull.arrivedAt 0 = [] ∧ (oldestEach (tFull.comingTo 0)).filter tFull.mayArrive = [tAtom 0] ∧ (tFull.atoms.map (·.id)).Nodup ∧
      (let e : AtomEngine := { AtomEngine.reset with inq := [0, 1], store := [{ line := (tAtom 0).place.2, used := 0 }] }
       let s : State := { tFull with engines := [(0, e)] }
       s.arrivedAt 0 = [tAtom 0, tAtom 1] ∧ s.readyAt 0 (s.arrivedAt 0) (tAtom 0) = true ∧ s.readyAt 0 (s.arrivedAt 0) (tAtom 1) = false ∧
       s.readyAt 0 [{ tAtom 0 with clk := { Clock.zero with d2 := 1 } }] { tAtom 0 with clk := { Clock.zero with d2 := 1 } } = false ∧
       ({ tFull with engines := [(0, { e with store := [] })] } : State).readyAt 0 [tAtom 0] (tAtom 0) = false)) ∧
    -- a full line store, of which one line has no requests queued
    (let e : AtomEngine := { AtomEngine.reset with store := (List.range 128).map (fun i => { line := i, used := i }) }
     128 ≤ e.store.length ∧ (∀ l ∈ e.store, l.line ≠ 500) ∧ (∀ l ∈ e.store, l.line ∈ List.range 128) ∧
     ({ line := 3, used := 3 } : AtomLine) ∈ e.store ∧ 3 ∉ [0, 1, 2] ∧
     (∀ l ∈ e.store, l.line ∉ [0, 1, 2] → l = { line := 3, used := 3 } ∨ 3 < l.used)) ∧
    (let r : AtomRecord := { core := 0, tag := 1, result := ⟨9, 0⟩ }
     let e : AtomEngine := { AtomEngine.reset with records := [r] }
     let s : State := { tS with engines := [(0, e)], atoms := [tAtom 1, { tAtom 2 with stage := .replied }] }
     (s.engine 0).records.find? (tAtom 1).sameTag = some r ∧ (s.engine 0).records.find? (tAtom 2).sameTag = none ∧
     s.atoms.find? (fun a => a.id == 1 && a.stage != .replied) = some (tAtom 1) ∧
     s.atoms.find? (fun a => a.id == 2 && a.stage == .replied) = some { tAtom 2 with stage := .replied } ∧
     (tFull.engine 0).records.find? (tAtom 1).sameTag = none ∧ tFull.atoms.find? (fun a => a.id == 1 && a.stage != .replied) = some (tAtom 1)) ∧
    ((tAtom 1).tgt = .mem 0x100 ∧ tFull.memWf = true ∧ 0x100 % 8 = 0 ∧ homeDie 0x100 ≠ none ∧ (tAtom 1).op = .add) ∧
    (let a : AtomReq := { tAtom 1 with tgt := .cell 0, op := .fadd, v := 0x80000001 }
     a.tgt = .cell 0 ∧ tsortedFrom 0 tS.cells = true ∧ fp32.decode (a.v.toNat % 2 ^ 32) = .fin true 1 (-149) ∧
     fp32.decode 0x7F800000 = .inf false ∧ fp32.decode 0xFF800000 = .inf true ∧ (fp32.decode 0x7FC00000).isNan = true) ∧
    (tS.vsyncReqs = [] ∧ ({ tS with vsyncReqs := [⟨0, 0⟩] } : State).vsyncReqs = ⟨0, 0⟩ :: [] ∧ tS.groupReqs = [] ∧
      (let r : GroupReq := { who := ⟨0, 1, 0⟩, group := 11, op := .join }
       ({ tS with groupReqs := [r] } : State).groupReqs = r :: [] ∧ (∀ d < 4, (tS.die d).clk.covers r.clk = true) ∧
       ∃ d < 4, (tS.die d).clk.covers { r.clk with d1 := 1 } = false) ∧ tS.meshPause = false) ∧
    (let s := tX (fun x => { x with wait2 := some (.vsync (some [0, 0, 0, 0])) })
     (s.ctx 0 0).wait2 = some (.vsync (some [0, 0, 0, 0])) ∧ ¬ (1 : Word).toNat ≤ (s.die 0).clk.d0.toNat) ∧
    (let w : SnapWait := ⟨⟨0, 0⟩, 15⟩
     ({ tS with snaps := [w] } : State).snaps.find? (fun w => w.who.core == 0 && w.who.ctx == 0) = some w ∧
     ({ tS with snaps := [w] } : State).openBefore 0 15 = false ∧ ({ tM with snaps := [w] } : State).openBefore 0 15 = false ∧
     ({ tS with snaps := [w], writes := [{ tWrite with cells := [(pagePa, 7)] }] } : State).openBefore 0 15 = true) := by
  refine ⟨?_, ?_, ?_, ?_, ?_, ?_, ?_, ?_⟩ <;> decide +kernel

/-- A trap that has been found. -/
def tFound : TrapFound := { cause := .illegal, code := 0, addr := 0, slots := 1, async := false, frame := 0 }
/-- A bank of an empty pipeline. -/
def tBank : Snapshot :=
  { cycle := 0, flight := [], landed := [], latches := [], lostAt := none, flags := [], shadows := [], divFree := 0, nds := 0,
    tgt := none, retPending := false, frameStart := 0, nextStart := 0, opens := true, lastDue := none }
/-- tTrap frozen behind the trap. -/
def tFrozen : State := tTrap.modMe (fun x => { x with st := .frozenTrap, found := some tFound })
/-- An asynchronous trap waits and no handler is on. -/
def tAsync : State := tX (fun x => { x with asyncQ := [{ cause := .copyFault, code := 0, addr := 0 }] })
def tPre : State := tX (fun x => { x with preReasons := [.debugger] })
def tPreempted : State := tX (fun x => { x with st := .preempted, bankPre := some tBank })

theorem test_witness_ContextEvents :
    (tS.ctx 0 0).st = .running ∧ (tS.core 0).halted = false ∧ (tS.ctx 0 1).st = .idle ∧
    ((tFrozen.ctx 0 0).st = .frozenTrap ∧ (tFrozen.ctx 0 0).found = some tFound ∧ tFrozen.awaits 0 0 = false ∧
      tFrozen.handlerAt 0 (tFrozen.ctx 0 0) = some 64 ∧
      ({ tFrozen with reads := [tRead 1 (.sreg 8)] } : State).awaits 0 0 = true) ∧
    (tS.headless 0 0 = false ∧ tAsync.headless 0 0 = true ∧
      (tAsync.ctx 0 0).asyncQ = { cause := .copyFault, code := 0, addr := 0 } :: []) ∧
    ((tPre.ctx 0 0).st = .running ∧ (tPre.ctx 0 0).preReasons ≠ [] ∧ tPre.awaits 0 0 = false ∧
      (tPre.ctx 0 0).land.pushesDone = true) ∧
    ((tPreempted.ctx 0 0).preReasons = [] ∧ (tPreempted.ctx 0 0).st = .preempted ∧ (tPreempted.ctx 0 0).bankPre = some tBank) ∧
    (let r := tX (fun x => { x with st := .retiring })
     (r.ctx 0 0).st = .retiring ∧ ∀ c ∈ (r.core 0).calls, c.ctx ≠ 0) ∧
    ((tS.core 5).owner = none ∧ (tS.core 0).owner ≠ none ∧ (tS.die 0).clk.covers (tget Obj.reset (tS.part 0).objs 3).clk = true) ∧
    (let o : Obj := { Obj.reset with clk := { Clock.zero with d1 := 1 } }
     let s : State := { tS with parts := [(0, { tPart 0 with objs := [(3, o)] })] }
     (s.die 0).clk.covers (tget Obj.reset (s.part (s.partOf 0)).objs 3).clk = false) := by decide +kernel

/-- A record of two elements of 16 bytes. -/
abbrev tRec : BitVec 512 := 0x00000002000000100000000000000401
/-- Entries in progress: a copy of the page into the slice, a clear of a block, a release of 16 bytes, a publication. -/
def tCopyRun (k : Nat) : CopyEntry :=
  { tCopy with kind := .copy 0x3081 0x10000 0x00FFFE0080000400 true, stage := .running, total := 2, k := k, srec := tRec, drec := tRec }
def tCopyTo (cmd dst : Word) (k tiles : Nat) : CopyEntry := { tCopyRun k with kind := .copy cmd 0x10000 dst false, tiles := tiles }
def tClear (k : Nat) : CopyEntry := { tCopyRun k with kind := .bclear 0x00FFFE0080001000 1 5, total := 0 }
def tRelease (src : Word) (k : Nat) : CopyEntry := { tCopyRun k with kind := .release 1 16 6 src 0, total := 0 }
def tPublish (m : Mask) : CopyEntry := { tCopyRun 0 with kind := .publish 1 (some 7), total := 1, cmask := m }
/-- A copy queue. -/
def tC (es : List CopyEntry) : State := (tE []).modMe (fun x => { x with copyq := es })

theorem test_witness_CopyEvents :
    -- the beginning: one entry that may begin, in the context after all the others; one that may not (its handle is full); none
    ((let e := { tCopy with kind := .bclear 0 1 4 }
      let k := ((tC [e]).modCore 0 (fun k => { k with ready := [1], lastBegan := 0 })).core 0
      k.owner ≠ none ∧ k.inProgress < 4 ∧ k.lastBegan = 0 ∧ (k.ctx 0).copyq.find? (fun e => e.stage == .queued) = some e ∧
      e.uid ∈ k.ready ∧ k.mayBegin e = true ∧ (∀ q ∈ (tC [e]).reads, q.acquire = false) ∧ (∀ c < 4, c ≠ 0 → (k.ctx c).copyq.find? (fun e => e.stage == .queued) = none)) ∧
      ((tC [{ tCopy with kind := .bclear 0 1 2 }]).core 0).mayBegin { tCopy with kind := .bclear 0 1 2 } = false ∧
      ((tS.core 5).owner = none) ∧ 4 ≤ ((tC (List.replicate 4 (tCopyRun 0))).core 0).inProgress) ∧
    (let e : CopyEntry := { tCopy with kind := .copy 0x3081 0x10000 0x00FFFE0080000400 false }
     e ∈ ((tC [e]).ctx 0 0).copyq ∧ cmdSkind 0x3081 = 0 ∧ cmdDkind 0x3081 = 0 ∧ cmdShv 0x3081 = false ∧ cmdShv 0x1103081 = true ∧
     cmdShnd 0x1103081 ≠ cmdDhnd 0x1103081 ∧ cmdSkind 0x1103081 = 0 ∧ cmdDkind 0x1103081 = 0) ∧
    -- elements between addresses, into ring 1 (opening a tile, and within one), into ring 7 (full), past a bank, out of ring 1 (empty)
    ((tC [tCopyRun 0]).entryAt 0 0 0 = some (tCopyRun 0) ∧ ((tC [tCopyRun 0]).ctx 0 0).entry (tCopyRun 0).uid = some (tCopyRun 0) ∧
      (tCopyRun 0).k < (tCopyRun 0).count ∧ (tCopyRun 0).total ≠ 0 ∧ (tCopyRun 0).failing = none ∧
      gives ((tC [tCopyRun 0]).elemRead 0 (tCopyRun 0) (lrAddr tRec 0x10000 0) 16) (fun r =>
        gives (r.1.elemCheck 0 (tCopyRun 0) .write (r.2.2 ||| 0) (lrAddr tRec 0x00FFFE0080000400 0) 16) (fun hs =>
          gives (r.1.elemLook 0 (tCopyRun 0) (lrAddr tRec 0x00FFFE0080000400 0) 16) (fun s2 =>
            gives (s2.elemSend 0 0 (tCopyRun 0) ((hs.map (·.pa)).zip r.2.1) (r.2.2 ||| 0)
              (true && lastInGranule (tS.launchCores 0) 0 tRec 0x00FFFE0080000400 0) false) (fun _ => true))) &&
        gives ((r.1.modRing 0 1 (fun r => { r with resv := r.resv + 1 })).elemSend 0 0 (tCopyTo 0x08003081 1 0 0)
          (((((tE []).core 0).ring 1).tilePas 0 0).take 16 |>.zip r.2.1) (r.2.2 ||| 0) false false) (fun _ => true) &&
        gives (r.1.elemSend 0 0 (tCopyTo 0x08003081 1 1 1)
          (((((tE []).core 0).ring 1).tilePas 0 0).drop 16 |>.zip r.2.1) (r.2.2 ||| 0) false false) (fun _ => true)) = true ∧
      (tCopyRun 0).esize = 16) ∧
    ((∀ e ∈ [tCopyTo 0x08003081 1 0 0, tCopyTo 0x08003081 1 1 1, tCopyTo 0x08003081 7 0 0, tCopyTo 0x10003081 0x3FFF8 0 0],
        e.stage = .running ∧ e.total ≠ 0 ∧ e.failing = none ∧ e.k < e.count ∧ (tC [e]).entryAt 0 0 0 = some e) ∧
      cmdDkind 0x08003081 = 1 ∧ cmdDkind 0x10003081 = 2 ∧ 0x40000 < (0x3FFF8 : Word).toNat % 2 ^ 18 + 0 * 16 + 16 ∧
      (((tE []).core 0).ring 1).tileBytes = 64 ∧ 0 ≤ 0 * 16 / 64 ∧ ¬ 1 ≤ 1 * 16 / 64 ∧
      (((tE []).core 0).ring 1).canReserve 1 = true ∧ (((tE []).core 0).ring 7).canReserve 1 = false ∧
      (tE []).engineEscape 0 none 1 true ((((tE []).core 0).ring 1).tilePas 0 0) = none ∧
      cmdSkind 0x02003081 ≠ 0 ∧ 0 ≤ 0 * 16 / (((tE []).core 0).ring 1).popBytes ∧ (((tE []).core 0).ring 1).held = 0) ∧
    -- faults of a copy at its source, at its destination and at its beginning, and of a clear
    (∃ e : CopyEntry, e = { tCopyTo 0x3081 0x20000 0 0 with kind := .copy 0x3081 0x20000 0x00FFFE0080000400 false } ∧
      (tC [e]).elemRead 0 e 0x20000 16 = .error (.fault (tC [e]) .transInvalid false (some 0x20000)) ∧ (tC [e]).entryOpen 0 0 e.uid = false) ∧
    (gives ((tC [tCopyTo 0x3081 0x20000 0 0]).elemRead 0 (tCopyTo 0x3081 0x20000 0 0) 0x10000 16) (fun r =>
        match r.1.elemCheck 0 (tCopyTo 0x3081 0x20000 0 0) .write (r.2.2 ||| 0) 0x20000 16 with
        | .error (.fault _ .transInvalid true (some a)) => a == 0x20000
        | _ => false) = true ∧
      (tC [{ tCopyTo 0x08003081 9 0 0 with total := 0 }]).beginFault 0 { tCopyTo 0x08003081 9 0 0 with total := 0 } 0x08003081 0x10000 9 =
        some (.ring, true, none)) ∧
    (let e : CopyEntry := { tClear 0 with kind := .bclear 0x00FFFE0004000000 1 5 }
     (match (tC [e]).elemCheck 0 e .write 0 0x00FFFE0004000000 16 with | .error (.fault _ _ true (some _)) => true | _ => false) = true) ∧
    (tCopy.stage ≠ .running ∧ (tC [tCopy]).entryAt 0 0 0 = some tCopy ∧ ((tC [tCopy]).ctx 0 0).entry tCopy.uid = some tCopy) ∧
    ((tC [tClear 0]).entryAt 0 0 0 = some (tClear 0) ∧ ((tC [tClear 0]).ctx 0 0).entry (tClear 0).uid = some (tClear 0) ∧
      (tClear 0).k < 256 * 1 ∧
      gives ((tC [tClear 0]).elemCheck 0 (tClear 0) .write 0 (BitVec.ofNat 64 (0x00FFFE0080001000 + 16 * 0)) 16) (fun hs =>
        gives ((tC [tClear 0]).elemSend 0 0 (tClear 0) (hs.map (fun h => (h.pa, 0))) 0 false true) (fun _ => true)) = true) ∧
    ((tC [tRelease 0x10000 0]).entryAt 0 0 0 = some (tRelease 0x10000 0) ∧
      gives ((tC [tRelease 0x10000 0]).elemRead 0 (tRelease 0x10000 0) (0x10000 + BitVec.ofNat 64 (16 * 0)) 16) (fun _ => true) = true ∧
      (tC [tRelease 0x12000 0]).elemRead 0 (tRelease 0x12000 0) (0x12000 + BitVec.ofNat 64 (16 * 0)) 16 =
        .error (.fault (tC [tRelease 0x12000 0]) .transInvalid false (some 0x12000)) ∧
      (tC [tRelease 0x12000 0]).entryOpen 0 0 1 = false) ∧
    -- completion, and a fault
    ((tC [tCopyRun 2]).entryAt 0 0 0 = some (tCopyRun 2) ∧ (tCopyRun 2).count ≤ (tCopyRun 2).k ∧ (tC [tCopyRun 2]).entryOpen 0 0 1 = false ∧
      (tC [tClear 256]).entryAt 0 0 0 = some (tClear 256) ∧ (tC [tRelease 0x10000 1]).entryAt 0 0 0 = some (tRelease 0x10000 1) ∧
      (tClear 1).kind.dhnd = some 5 ∧ (tClear 1).kind.shnd ≠ some 5 ∧ tCopy.kind.shnd = some 4 ∧
      (tCopyTo 0x08003081 1 0 0).destRing = some 1) ∧
    -- two writes of an entry are open, and the first is answered with an error
    (let w : WriteReq := { tWrite with ofCtx := false, ent := some 1, elem := 1 }
     let s : State := { tC [tCopyRun 3] with writes := [w, { w with id := 4, elem := 2 }] }
     w.ent = some 1 ∧ (s.ctx 0 0).entry 1 = some (tCopyRun 3) ∧ (tCopyRun 3).stage = .running ∧
     (∀ v ∈ s.writes, w.elem ≤ v.elem) ∧ (s.writes.countP (fun v => v.core == w.core && v.ctx == w.ctx && v.ent == w.ent && !v.performed &&
       decide (w.elem ≤ v.elem))) + w.elem = (tCopyRun 3).k) ∧
    (((tC [tCopyRun 0]).launchOf 0).map (·.stage) ≠ some .retiring ∧ ((tC [tCopyRun 0]).ctx 0 0).copyPend = false ∧
      ((tC [tCopyRun 0]).ctx 0 0).st = .running ∧ ((tC [tCopyRun 0]).ctx 0 0).copyq = [tCopyRun 0]) ∧
    -- the release gate
    (tS.gate = [] ∧ (let e := { tRelease 0x10000 1 with stage := .gate }
      let g : GateReq := { part := 0, core := 0, ctx := 0, uid := 1, pol := 1, off := 0, data := List.replicate 16 0, mask := 0, image := 0 }
      let s : State := { tC [e] with gate := [g], parts := [(0, { tPart 0 with policies := [(1, { mask := 3, maxBytes := 16, base := 0x4000, size := 16, count := 1, image := 0, serial := 0 })] })] }
      s.gate = g :: [] ∧ (s.ctx g.core g.ctx).entry g.uid = some e ∧ (tfind (s.part g.part).policies 1).isSome = true ∧
      tfind (s.part g.part).policies 2 = none)) ∧
    -- a publication with no party and with a party that no window admits
    ((tC [tPublish 0]).entryAt 0 0 0 = some (tPublish 0) ∧ (tC [tPublish 2]).entryAt 0 0 0 = some (tPublish 2) ∧
      (tfind ((tC []).part ((tC []).partOf 0)).pubwins 1).isSome = true ∧ (tC [tPublish 0]).earlierPublish 0 1 1 = false ∧
      (∀ a ∈ (List.range 8).map (fun i => 0x10000 + i), (tC []).reachable a = true) ∧
      egressOk [] 0 ((List.range 8).map (fun i => 0x10000 + i)) = true ∧ egressOk [] 2 ((List.range 8).map (fun i => 0x10000 + i)) = false) := by
  refine ⟨?_, ?_, ?_, ?_, ⟨_, rfl, ?_⟩, ?_, ?_, ?_, ?_, ?_, ?_, ?_, ?_, ?_, ?_⟩ <;> decide +kernel

theorem test_witness_FeedEvents :
    (((tE []).core 0).ring 15 = Ring.reset ∧ Ring.reset.done.Nodup ∧ (let r := { tRing 1 .raw 0 0 2 with done := [1, 0] }; r.done.Nodup)) ∧
    ((tV.core 0).fed 0 false = some (0, 0, tPort false false false 2 [⟨5, 1⟩]) ∧
      tV.engineEscape 0 none 4 false ((tPort false false false 2 []).desc.pas 0 0) = none ∧
      tV.lags (dieOf 0) ((tPort false false false 2 []).desc.pas 0 0) = false ∧ (tV.ctx 0 0).st = .running ∧ (tV.core 0).halted = false ∧
      (let p := { tPort false false false 2 [] with next := 2 }
       let s := tX (fun x => { x with ports := [(0, p)] })
       (s.core 0).fed 0 false = some (0, 0, p) ∧ ¬ p.next < p.desc.total)) ∧
    ((tV.core 0).fed 0 true = some (0, 1, tPort true false false 2 []) ∧ (tPort true false false 2 []).pushes = [] ∧
      (∃ p, (tU.core 0).fed 5 true = some (0, 1, p) ∧ p.pushes = { k := 0, val := 0, mask := 0 } :: [] ∧ p.dead = false ∧
        tU.engineEscape 0 p.phase 4 true (p.desc.pas 0 0) = none)) ∧
    (let b : TBlock := { rows := List.replicate 32 (Lab.zero 1024), doneAt := 0, ctx := 0, phase := none }
     let st (ticks : Nat) := (tT 1 0).modMyCore (fun k => { k with ticks := ticks, trans := { k.trans with store := true, pitch := 8 } })
     ((tT 1 0).core 0).trans.blocks = b :: [] ∧ ((tT 1 0).core 0).trans.store = false ∧ ((st 8).core 0).trans.blocks = b :: [] ∧
     ((st 8).core 0).trans.store = true ∧ max b.doneAt 0 + 8 + 0 ≤ ((st 8).core 0).ticks ∧ ((st 7).core 0).ticks < max b.doneAt 0 + 8 + 0 ∧
     ((st 8).core 0).trans.late = none ∧ ({ ((st 8).core 0).trans with late := some (false, 8) } : Transpose).late ≠ none ∧
     ((st 8).core 0).trans.col + 1 < 32 ∧ ¬ 63 + 1 < 64 ∧
     (st 8).engineEscape 0 b.phase 3 true ((List.range 128).map (fun i => slicePa 0 i)) = none) ∧
    (((tS.core 0).ctx 0).st = .running ∧ ((tS.core 0).ctx 0).rndHeld < 4 ∧ (∀ c < 4, c ≠ 0 → ((tS.core 0).ctx c).st = .idle) ∧
      (tS.core 0).owner ≠ none ∧ (tS.core 0).halted = false ∧ (tS.core 0).rndMade = false ∧ (tS.core 0).lastRnd = 3 ∧
      (∀ c < 4, ((tS.core 5).ctx c).st = .idle)) := by
  refine ⟨?_, ?_, ⟨?_, ?_, ⟨_, rfl, ?_⟩⟩, ?_, ?_⟩ <;> decide +kernel

/-- tS with queue 0 changed and the launches `ls`. -/
def tQu (f : Queue → Queue) (ls : List Launch) : State :=
  { tS with queues := [(0, f (tS.queue 0))], parts := [(0, { tPart 0 with launches := ls })] }

theorem test_witness_RegisterPageWrites :
    -- NOTIFY: foreign, far, kept, and the transition from idle
    (tS.ownQueue 1 2 = false ∧ tS.ownQueue 1 0 = true ∧
      (let u := tS.logNotify 0 0
       (u.queue 0).log2size = 4 ∧ 2 ^ ((u.queue 0).log2size + 4) < ((257 : BitVec 32) - (u.queue 0).head).toNat ∧
       ¬ 2 ^ ((u.queue 0).log2size + 4) < ((256 : BitVec 32) - (u.queue 0).head).toNat ∧ (u.queue 0).st ≠ .idle ∧
       (u.queue 0).st ≠ .draining ∧ (u.queue 0).st ≠ .aborting ∧ (256 : BitVec 32) ≠ (u.queue 0).head ∧
       (∀ k, (u.queue 0).slot = some k → (tfind u.slots k).bind (·.reservedFor) = none)) ∧
      (let u := (tQu id []).logNotify 0 0
       (u.queue 0).st = .mapped ∧ (0 : BitVec 32) = (u.queue 0).head ∧ (u.part 0).accepted 0 = 0) ∧
      (let u := (tQu (fun x => { x with st := .idle, slot := none }) []).logNotify 0 0
       (u.queue 0).st = .idle ∧ (1 : BitVec 32) ≠ (u.queue 0).head ∧ 1 ∈ (u.part 0).share ∧ tfind u.slots 1 = none)) ∧
    -- QCTL
    ((State.reset.part 0).desc = none ∧ (tS.part 0).desc ≠ none ∧ ((tS.modFunc 1 (fun f => { f with qsel := 7 })).func 1).qsel = 7 ∧
      tS.ownQueue 1 7 = false ∧ (tS.func 1).qsel = 0 ∧
      12 < ((0xD1 : Word).extractLsb' 4 4).toNat ∧ (0xD1 : Word).getLsbD 0 = true ∧ (0xD1 : Word).getLsbD 2 = false ∧
      (tS.queue 0).enable = true ∧ ((0x41 : Word).extractLsb' 4 4).toNat = (tS.queue 0).log2size ∧
      (0x41 : Word).getLsbD 1 = (tS.queue 0).preempt ∧
      (let s := tQu (fun x => { x with enable := false, st := .disabled, slot := none }) []
       (s.queue 0).enable = false ∧ (s.queue 0).head = (s.queue 0).tail ∧
       (let t := s.modQueue 0 (fun x => { x with tail := 1 })
        (t.queue 0).head ≠ (t.queue 0).tail ∧ (t.queue 0).st ≠ .draining ∧ t.ownQueue 1 0 = true))) ∧
    -- teardown, with launches and without
    ((0x45 : Word).getLsbD 2 = true ∧ (0x45 : Word).getLsbD 3 = false ∧ ((0x45 : Word).extractLsb' 4 4).toNat = 4 ∧
      (0x4D : Word).getLsbD 2 = true ∧ (0x4D : Word).getLsbD 3 = true ∧ ((0x4D : Word).extractLsb' 4 4).toNat = 4 ∧
      (tS.queue 0).st = .mapped ∧ (tS.part 0).accepted 0 ≠ 0 ∧
      ((tQu id []).part 0).accepted 0 = 0 ∧ ((tQu id []).part 0).launches = [] ∧ ((tQu id []).part 0).frozen = false) ∧
    -- an abort of a running launch and of one that waits
    ((tS.part 0).launches = [tLaunch 0] ∧ (tLaunch 0).queue = 0 ∧ (tLaunch 0).stage = .running ∧ (tS.part 0).frozen = false ∧
      ((tQu id [{ tLaunch 0 with stage := .placing, cores := [] }]).part 0).launches = [{ tLaunch 0 with stage := .placing, cores := [] }] ∧
      (tLaunch 0).saved = []) ∧
    -- objects
    (State.memWf tS = true ∧ (tS.func 1).objbase + 16 * 4095 + 16 ≤ 2 ^ 64) ∧
    -- EPHCONS, LOGLIMIT, LOGPROD
    (tS.recordWaits 0 = false ∧
      (let s := (tQu id [{ tLaunch 0 with stage := .record }]).modFunc 1 (fun f => { f with ephprod := 64 })
       (s.modPart 0 (fun p => { p with retireOrder := [1] })).recordWaits 0 = true ∧
       ((s.modPart 0 (fun p => { p with retireOrder := [1] })).modFunc 1 (fun f => { f with ephcons := 1 })).recordWaits 0 = false) ∧
      (tS.part 0).logWait = [] ∧
      (let s := tS.modPart 0 (fun p => { p with logWait := [[1]] })
       (s.part 0).logWait = [[1]] ∧ (s.func 1).logprod.toNat + 32 ≤ (32 : Word).toNat ∧ (31 : Word).toNat < (s.func 1).logprod.toNat + 32) ∧
      (let s := tS.modFunc 1 (fun f => { f with loglimit := 64 })
       (∀ l ∈ (s.part 0).launches, ¬ (l.record = true ∨ l.replay = true)) ∧ ¬ (32 : Word).toNat % 32 ≠ 0 ∧
       ¬ (s.func 1).loglimit.toNat ≤ (32 : Word).toNat ∧ (s.func 1).loglimit.toNat ≤ (64 : Word).toNat)) ∧
    -- the other registers
    (tS.ownQueue 1 ((0x1000 : Word).toNat % 4096) = true ∧ tS.ownQueue 1 ((2 : Word).toNat % 4096) = false ∧ (tS.func 1).busy = false ∧
      ((tS.modFunc 1 (fun f => { f with busy := true })).func 1).busy = true ∧
      (0x020 : Nat) ∉ [0x000, 0x008, 0x010, 0x018, 0x028, 0x030, 0x038, 0x040, 0x048, 0x058, 0x060, 0x068, 0x070, 0x080, 0x400, 0x408]) := by
  refine ⟨?_, ?_, ?_, ?_, ?_, ?_, ?_⟩ <;> decide +kernel

/-- An image of three bundles, RET and its delay slots, laid out by R30 to R36 and R90, with a version in its header. -/
def tImageAs (version : Nat) : List Byte :=
  let sect (type off size : Nat) : List Byte := bytesOf 8 type ++ bytesOf 8 off ++ bytesOf 8 size ++ bytesOf 8 0
  let nops (n : Nat) : List Byte := (List.replicate n (bytesOf 4 0x04000000)).flatten
  bytesOf 4 0x4B34584C ++ bytesOf 2 version ++ bytesOf 2 0 ++ bytesOf 4 6 ++ bytesOf 4 0 ++ bytesOf 8 544 ++ bytesOf 40 0x6B ++
  sect 1 256 48 ++ sect 4 304 16 ++ sect 5 320 16 ++ sect 7 336 128 ++ sect 9 464 64 ++ sect 11 528 16 ++
  bytesOf 4 0x90000000 ++ nops 11 ++ bytesOf 224 1 ++ bytesOf 16 0x01010000
def tImageBytes : List Byte := tImageAs 2

/-- A launch that waits for cores, whose image is at `va`, or has been checked. -/
def tPlacing (va : Nat) (img : Option Image) : Launch :=
  { tLaunch 0 with stage := .placing, cores := [], windows := [], start := none, image := img, pkt := { tPacket 0 with image := va } }
/-- Such a launch in a machine whose memory page holds `bs`; cores 0 and 1 are free or not. -/
def tPlace (l : Launch) (bs : List Byte) (free : Bool) : State :=
  { tQu id [l] with
    cores := if free then [] else (List.range 4).map (fun c => (c, tCore c))
    stack := ((List.range bs.length).zip bs).filterMap (fun c => if c.2 = 0 then none else some (pagePa + c.1, c.2)) }

/-- Whether the image check of a launch whose image is the bytes ends in the error. -/
def tLoadEnds (l : Launch) (bs : List Byte) (e : LoadErr) : Bool :=
  match imageOfBytes bs with
  | none => false
  | some (img, v) => (tPart 0).loadError l bs img v == some e

/-- Whether it passes. -/
def tLoads (l : Launch) (bs : List Byte) : Bool :=
  match imageOfBytes bs with
  | none => false
  | some (img, v) => (tPart 0).loadError l bs img v == none

theorem test_witness_LaunchEvents_accept :
    (State.reset.parts.find? (fun e => e.2.ownsQueue 0) = none) ∧
    (tS.parts.find? (fun e => e.2.ownsQueue 0) = some (0, tPart 0) ∧ tS.part 0 = tPart 0 ∧ (tS.queue 0).head = (tS.queue 0).tail ∧
      (let s := tS.modQueue 0 (fun x => { x with tail := 1 })
       (s.queue 0).st = .mapped ∧ (s.queue 0).head ≠ (s.queue 0).tail ∧ (tPart 0).accepted 0 < 16 ∧ (tPart 0).link = 0 ∧
       s.linkUp0 = true) ∧ (∀ l ∈ (tPart 0).launches, l.num ≠ (tPart 0).nextLaunch)) := by
  refine ⟨?_, ⟨rfl, rfl, rfl, ?_, fun l h => ?_⟩⟩
  · decide +kernel
  · decide +kernel
  · obtain rfl := List.mem_singleton.mp h
    decide

/-- A bad packet, one of another partition, one of the own. -/
theorem test_witness_LaunchEvents_packets :
    badPacket (List.replicate 64 0) = true ∧
    (let own (t p : Byte) : List Byte := [t, 0, 0, p, 1, 0, 1] ++ List.replicate 57 0
     badPacket (own 1 5) = false ∧ (packetOf (own 1 5)).part ≠ 0 ∧ (packetOf (own 1 0)).part = 0 ∧
     badPacket (own 1 0) = false ∧ (packetOf (own 1 0)).marker = false ∧
     tS.readImage 0 (packetOf (own 1 0)).image = .unreadable) := by decide +kernel

/-- A marker that waits for nothing. -/
theorem test_witness_LaunchEvents_marker :
    let m : List Byte := [2] ++ List.replicate 63 0
    badPacket m = false ∧ (packetOf m).part = 0 ∧ (packetOf m).marker = true ∧
    ∀ w ∈ (packetOf m).waits, w.getLsbD 31 = false := by
  intro m
  have h : (packetOf m).waits.all (fun w => !w.getLsbD 31) = true := by decide +kernel
  refine ⟨?_, ?_, ?_, fun w hw => ?_⟩
  · decide +kernel
  · decide +kernel
  · decide +kernel
  · simpa using List.all_eq_true.mp h w hw

theorem test_witness_LaunchEvents_place :
    ((tS.part 0).launches.find? tS.placeable = none) ∧
    -- no translation, a header that is none, an image with a wrong version
    (let l := tPlacing 0x12000 none
     let s := tPlace l [] false
     s.recordWaits 0 = false ∧ (s.part 0).frozen = false ∧ (s.part 0).launches.find? s.placeable = some l ∧
     (s.part 0).launch? l.num = some l ∧ l.image = none ∧ s.readVirtual 0 l.pkt.image 64 = none) ∧
    (let l := tPlacing 0x10000 none
     let s := tPlace l [] false
     (s.part 0).launches.find? s.placeable = some l ∧ (s.part 0).launch? l.num = some l ∧ l.image = none ∧
     s.readVirtual 0 l.pkt.image 64 = some (List.replicate 64 0) ∧ headerOk (List.replicate 64 0) = false) ∧
    (let l := tPlacing 0x10000 none
     let s := tPlace l tImageBytes false
     (s.part 0).launches.find? s.placeable = some l ∧ (s.part 0).launch? l.num = some l ∧ l.image = none ∧
     s.readVirtual 0 l.pkt.image 64 = some (tImageBytes.take 64) ∧ headerOk (tImageBytes.take 64) = true ∧
     s.readVirtual 0 l.pkt.image (imageLength (tImageBytes.take 64)) = some tImageBytes ∧ tLoadEnds l tImageBytes .eVersion = true) ∧
    -- an image that passes when it is read, with cores free
    (let l := tPlacing 0x10000 none
     let s := tPlace l (tImageAs 1) true
     s.recordWaits 0 = false ∧ (s.part 0).frozen = false ∧ (s.part 0).launches.find? s.placeable = some l ∧
     (s.part 0).launch? l.num = some l ∧ l.image = none ∧ s.readVirtual 0 l.pkt.image 64 = some ((tImageAs 1).take 64) ∧
     headerOk ((tImageAs 1).take 64) = true ∧ s.readVirtual 0 l.pkt.image (imageLength ((tImageAs 1).take 64)) = some (tImageAs 1) ∧
     tLoads l (tImageAs 1) = true ∧ l.pkt.contexts / l.pkt.perCore ≤ (s.freeCores 0).length ∧
     s.diesCover l ((s.freeCores 0).take 2) = true ∧ s.diesCover { l with clk := { Clock.zero with d0 := 1 } } ((s.freeCores 0).take 2) = false) ∧
    -- a checked image, with cores free and without
    (let l := tPlacing 0x10000 (some tImage)
     let s := tPlace l [] false
     let t := tPlace l [] true
     l.image = some tImage ∧ (s.part 0).launch? l.num = some l ∧ (t.part 0).launch? l.num = some l ∧
     (s.part 0).launches.find? s.placeable = some l ∧ (t.part 0).launches.find? t.placeable = some l ∧
     (s.freeCores 0).length < l.pkt.contexts / l.pkt.perCore ∧ l.pkt.contexts / l.pkt.perCore ≤ (t.freeCores 0).length ∧
     t.diesCover l ((t.freeCores 0).take 2) = true) := by
  refine ⟨?_, ?_, ?_, ?_, ?_, ?_⟩ <;> decide +kernel

theorem test_witness_LaunchEvents_retire :
    let at_ (st : LStage) (cores : List Nat) : State :=
      (tQu id [{ tLaunch 0 with stage := st, cores := cores }]).modPart 0 (fun p => { p with retireOrder := [1] })
    let head (s : State) : Option Launch := (s.part 0).retireOrder.head?.bind (s.part 0).launch?
    let u (s : State) (l : Launch) : State := l.cores.foldl (fun s c => four.foldl (fun s x => s.skipFaulted c x) s) s
    head tS = none ∧
    (let l : Launch := { tLaunch 0 with stage := .retiring }
     let s := at_ .retiring [0, 1]
     head s = some l ∧ (∀ c ∈ l.cores, (u s l).coreDone c = true) ∧ ((u s l).part 0).launch? l.num = some l ∧
     (let t : State := { s with writes := [tWrite] }
      head t = some l ∧ ∃ c ∈ l.cores, (u t l).coreDone c = false)) ∧
    (head (at_ .freeing [0, 1])).map (·.stage) = some .freeing ∧ (head (at_ .running [0, 1])).map (·.stage) = some .running ∧
    (head (at_ .record [0])).map (·.stage) = some .record ∧ ((at_ .record [0]).func 1).ephFull = false ∧
    (head (at_ .record [])).map (·.cores) = some [] ∧
    (((at_ .record [0]).modFunc 1 (fun f => { f with ephprod := 64 })).func 1).ephFull = true ∧
    State.memWf tS = true ∧ (tS.func 1).ephbase + 128 * 63 + 128 ≤ 2 ^ 64 ∧
    (tPacket 0).signal.getLsbD 15 = true ∧ ({ tPacket 0 with signal := 0 } : Packet).signal.getLsbD 15 = false ∧
    -- pre-emption
    (tS.part 0).launches.find? tS.stoppedLaunch = none ∧
    (let l : Launch := { tLaunch 0 with stopReq := true }
     let s : State := (tQu id [l]).modMe (fun x => { x with st := .stopped })
     let s := s.modCtx 1 0 (fun x => { x with st := .retired })
     (s.part 0).launches.find? s.stoppedLaunch = some l) := by
  refine ⟨?_, ?_, ?_, ?_, ?_, ?_, ?_, ?_, ?_, ?_, ?_, ?_, ?_, ?_⟩ <;> decide +kernel
/-- A request's header: opcode, partition of the physical function, and length of the body. -/
def tHead (op part n : Nat) : List Byte :=
  bytesOf 2 op ++ bytesOf 1 part ++ bytesOf 5 0 ++ bytesOf 8 n ++ bytesOf 8 0x8000 ++ bytesOf 40 0
/-- A function has submitted a request at 0x1000 of host memory, and nothing else stands there. -/
def tMb (s : State) (fn op part : Nat) (body : List Byte) : State :=
  { s with host0 := ((List.range 0x400).zip (tHead op part body.length ++ body)).filterMap
             (fun c => if c.2 = 0 then none else some (0x1000 + c.1, c.2))
           funcs := [(fn, { Func.reset with busy := true, request := some 0x1000 })] }
/-- Whether the request is submitted with its header and body, and may act on partition `p`. -/
def tAsks (s : State) (fn op part p : Nat) (pf : Bool) (body : List Byte) : Bool :=
  let h := tHead op part body.length
  (tMb s fn op part body).submitted fn == some (h, body.length, body) && reqOpcode h == op && reqPart fn pf h == some p

theorem test_witness_MailboxEvents :
    tS.submitted 1 = none ∧
    -- the header: submitted, of another opcode, denied
    (tAsks tS 1 8 0 0 false [] = true ∧ reqPart 1 true (tHead 1 0 0) = none ∧ reqPart 1 false (tHead 8 3 0) = none ∧
      reqOpcode (tHead 13 0 0) = 13 ∧ reqPart 0 true (tHead 1 15 0) = some 15) ∧
    -- opcodes without a body or with the body's length alone
    (tAsks tS 0 7 0 0 true [] = true ∧ tAsks tS 0 1 0 0 true [] = true ∧ tAsks tS 1 2 0 0 false [] = true ∧
      tAsks tS 1 3 0 0 false [] = true ∧ tAsks tS 1 9 0 0 false [] = true ∧ tAsks tS 1 9 0 0 false (bytesOf 32 7) = true ∧
      tAsks tS 1 10 0 0 false [] = true ∧ tAsks tS 1 11 0 0 false [] = true ∧ tAsks tS 0 12 0 0 true [] = true ∧
      tAsks tS 0 4 0 0 true [] = true ∧ tAsks tS 1 5 0 0 false [] = true ∧ tAsks tS 1 6 0 0 false [] = true) ∧
    -- the debugger
    (63 ∉ (tS.part 0).coreList ∧ 0 ∈ (tS.part 0).coreList ∧ (tS.part 0).frozen = false ∧
      (tS.heldReg 0 0 (tS.ctx 0 0).block 0x001).isSome = true ∧ tS.heldReg 0 0 (tS.ctx 0 0).block 0x7FF = none) ∧
    -- the response
    ((tS.func 1).response = none ∧
      (let r : MbResponse := { addr := 0x8000, part := 0, code := 0, data := [1], after := some 5 }
       let s : State := { tS with funcs := [(1, { Func.reset with busy := true, response := some r })] }
       (s.func 1).response = some r ∧ s.linkUp (s.linkOf 1) = true ∧ s.openBefore 0 5 = false ∧
       ({ s with writes := [{ tWrite with cells := [(pagePa, 7)] }] } : State).openBefore 0 5 = true ∧
       ({ s with linkUp0 := false } : State).linkUp 0 = false ∧ s.memWf = true ∧ r.addr + (16 + r.data.length) ≤ 2 ^ 64)) ∧
    -- the rotation: functions 3 and 16 ask, and function 3 has been served last
    (let f : Func := { Func.reset with busy := true, request := some 0x1000 }
     let s : State := { tS with funcs := [(3, f), (16, f)], lastFn := 3 }
     s.asks ((3 + 1 + 12) % 17) = true ∧ (∀ j < 12, s.asks ((3 + 1 + j) % 17) = false)) ∧
    -- what the halt of DBGBRK has recorded, and a register that it does not record
    (let x := tX (fun x => { x with dbg := some (5, 6) })
     ((x.ctx 0 0).recorded 0x204).isSome = true ∧ (x.ctx 0 0).recorded 0x001 = none) ∧
    -- the manifest of a partition with a launch
    ((tS.part 0).desc = some tDesc ∧ ((tS.part 0).launches.filter (fun l => !l.cores.isEmpty))[0]? = some (tLaunch 0)) := by
  refine ⟨?_, ?_, ?_, ?_, ?_, ?_, ?_, ?_⟩ <;> decide +kernel

/-- The body of a descriptor of quad 2: one party, slot 4, group 16 to 31, 100 W, port 5, queue 7. -/
def tDescBody : List Byte :=
  bytesOf 2 4 ++ [2, 1, 4, 1] ++ bytesOf 2 100 ++ bytesOf 8 32 ++ bytesOf 2 16 ++ bytesOf 2 16 ++ [0, 0, 4, 0] ++ bytesOf 2 7 ++
  bytesOf 2 1 ++ bytesOf 4 0 ++ bytesOf 768 0
/-- Bodies of one leaf and of one range, both of port 0 for parties 0 and 1. -/
def tPteBody (va e : Nat) : List Byte := bytesOf 8 1 ++ bytesOf 8 va ++ bytesOf 8 0 ++ bytesOf 16 e
def tRangeBody (base limit : Nat) : List Byte :=
  bytesOf 8 1 ++ bytesOf 8 1 ++ bytesOf 8 base ++ bytesOf 8 limit ++ bytesOf 8 0x10000000000 ++ bytesOf 8 0x70003
/-- Bodies of an egress window and of a publication window. -/
def tEgressBody (slot base size party : Nat) : List Byte :=
  bytesOf 8 slot ++ bytesOf 8 base ++ bytesOf 8 size ++ bytesOf 16 party
def tPubBody (win base size ctr : Nat) : List Byte :=
  bytesOf 8 win ++ bytesOf 8 base ++ bytesOf 8 size ++ bytesOf 16 ctr

theorem test_witness_MailboxEvents_install :
    tAsks tS 0 1 3 3 true tDescBody = true ∧ tDescBody.length = 800 ∧ tS.descCode 3 (descOf tDescBody) = 0 ∧
    tS.descCode 0 (descOf tDescBody) = 8 := by
  refine ⟨?_, ?_, ?_, ?_⟩ <;> decide +kernel

theorem test_witness_MailboxEvents_tables :
    tAsks tS 1 2 0 0 false (tPteBody 0x20000 (3 * 2 ^ 64 + 0x10000002007)) = true ∧
    (let recs (body : List Byte) := (piecesOf 32 1 (body.drop 8)).map pteRecOf
     (recs (tPteBody 0x20000 (3 * 2 ^ 64 + 0x10000002007))).map (fun r => pteV r.entry) = [true] ∧
     (recs (tPteBody 0x20000 (3 * 2 ^ 64 + 0x10000002007))).map (fun r => r.blank) = [true] ∧
     tS.pteRefusal 0 (recs (tPteBody 0x20000 (3 * 2 ^ 64 + 0x10000002007))) = none ∧
     tS.pteRefusal 0 (recs (tPteBody 0x20001 (3 * 2 ^ 64 + 0x10000002007))) = some (1, 0) ∧
     fieldAt (tPteBody 0x20000 0) 0 8 = 1 ∧ (tPteBody 0x20000 0).length = 8 + 32 * 1) ∧
    tAsks tS 1 3 0 0 false (tRangeBody 0x40000 0x42000) = true ∧
    (let recs (body : List Byte) := (piecesOf 40 1 (body.drop 8)).map rangeRecOf
     (recs (tRangeBody 0x40000 0x42000)).map (fun r => r.op) = [1] ∧ tS.rangeRefusal 0 (recs (tRangeBody 0x40000 0x42000)) = none ∧
     tS.rangeRefusal 0 (recs (tRangeBody 0x42000 0x40000)) = some (2, 0) ∧ (tRangeBody 0 0).length = 8 + 40 * 1) := by
  refine ⟨?_, ?_, ?_, ?_⟩ <;> decide +kernel

theorem test_witness_MailboxEvents_windows :
    tAsks tS 0 4 0 0 true (tEgressBody 2 0x400000000000 0x1000 1) = true ∧ (tEgressBody 2 0x400000000000 0x1000 1).length = 40 ∧
    (let e (slot base size party : Nat) : Bool :=
       let b := tEgressBody slot base size party
       let r := b.drop 8
       decide (b.length = 40) && decide (fieldAt b 0 1 ≤ 15) && zeroFrom b 1 8 && zeroFrom r 17 32
     e 2 0x400000000000 0x1000 1 = true ∧ e 2 0 0 0 = true ∧ e 16 0 0 0 = false ∧ pageForm 0x400000000000 0x1000 = true ∧
     pageForm 0x400000000800 0x1000 = false ∧ (tS.part 0).parties = 2 ∧ inWindow false 0x400000000000 0x1000 = true ∧
     inWindow false 0x10000000000 0x1000 = false ∧ (tS.part 0).egress = [] ∧
     (let s := tS.modPart 0 (fun p => { p with egress := [(1, { base := 0x400000000000, size := 0x2000, party := 0 })] })
      ∃ e ∈ (s.part 0).egress, e.1 ≠ 2 ∧ e.2.party ≠ 1 ∧ spansMeet 0x400000000000 0x1000 e.2.base e.2.size = true)) ∧
    tAsks tS 1 5 0 0 false (tPubBody 3 0x400000001000 0x1000 0x400000000008) = true ∧
    (let b := tPubBody 3 0x400000001000 0x1000 0x400000000008
     let r := b.drop 8
     b.length = 40 ∧ fieldAt b 0 1 ≤ 15 ∧ zeroFrom b 1 8 = true ∧ zeroFrom r 24 32 = true ∧
     pageForm (fieldAt r 0 8) (fieldAt r 8 8) = true ∧ fieldAt r 16 8 % 8 = 0 ∧ fieldAt r 16 8 < 2 ^ 52 ∧
     inWindow true (fieldAt r 0 8) (fieldAt r 8 8) = true ∧ hostLinkOf (fieldAt r 16 8) = hostLinkOf (fieldAt r 0 8) ∧
     fieldAt r 16 8 + 8 ≤ fieldAt r 0 8) ∧
    pageForm (fieldAt ((tPubBody 3 0 0 0).drop 8) 0 8) 0 = false := by
  refine ⟨?_, ?_, ?_, ?_, ?_, ?_⟩ <;> decide +kernel

theorem leValue_bytesOf (n v : Nat) : leValue (bytesOf n v) = v % 256 ^ n := by
  induction n generalizing v with
  | zero => simp [bytesOf, leValue, Nat.mod_one]
  | succ n ih =>
    simp only [bytesOf, leValue, ih, BitVec.toNat_ofNat]
    rw [show 256 ^ (n + 1) = 256 * 256 ^ n from by rw [Nat.pow_succ, Nat.mul_comm], Nat.mod_mul]

/-- A release policy of parties 0 and 1 for this device. -/
def tPolicy : List Byte :=
  [0, 0, 3, 0] ++ bytesOf 4 16 ++ bytesOf 8 0x400000000000 ++ bytesOf 8 0x1000 ++ bytesOf 4 1 ++ bytesOf 36 0 ++ bytesOf 8 1 ++
  digestBytes identityDigest ++ bytesOf 24 0
def tBlock : List Byte := bytesOf 5360 0
/-- Both parties hold the key `k`. -/
def tPolS (k : BitVec 256) : State :=
  { tS with parts := [(0, { tPart 0 with desc := some { tDesc with partyKeys := [k, k] } })] }

theorem tPolicy_digest : digestAt tPolicy 0x48 = identityDigest := by
  have h : (tPolicy.drop 0x48).take 32 = digestBytes identityDigest := rfl
  have hd : identityDigest.toNat % 256 ^ 32 = identityDigest.toNat :=
    Nat.mod_eq_of_lt (Nat.lt_of_lt_of_eq identityDigest.isLt (by norm_num))
  simp only [digestAt, fieldAt, h, digestBytes, leValue_bytesOf, hd, BitVec.ofNat_toNat, BitVec.setWidth_eq]

/-- A policy that a block verifies is admitted; whether a block verifies a message is opaque, so that it does is a premise. -/
theorem test_witness_MailboxEvents_policy (hv : blockVerifies tBlock (asciiOf "LX4-RPOL" ++ tPolicy) = true) :
    (tPolS (keyDigest tBlock)).policyCode 0 tPolicy [tBlock] = 0 := by
  have hp : ((tPolS (keyDigest tBlock)).part 0).partiesOf 3#16 (keyDigest tBlock) = [0, 1] := by
    generalize keyDigest tBlock = k
    have hb : bitList 3 16 = [0, 1] := by decide
    have hk : ((tPolS k).part 0).desc = some { tDesc with partyKeys := [k, k] } := rfl
    simp [Part.partiesOf, hb, hk]
  have hq : fieldAt tPolicy 1 1 = 0 := by decide +kernel
  have hm : (policyOf tPolicy).mask = 3#16 := rfl
  unfold State.policyCode
  rw [if_neg (by decide +kernel), if_neg (by simp [tPolicy_digest, hq]), if_neg (by decide +kernel), if_neg (by decide +kernel),
    if_neg (by decide +kernel), if_neg (by simp [hv]), if_neg (by simp [hm, hp, anyPair]), if_neg]
  have hb : bitList 3 16 = [0, 1] := by decide
  simp [hm, hb, hp]

theorem test_witness_MailboxEvents_policyBody :
    let b : List Byte := tPolicy ++ bytesOf 16 0
    b.length = 144 + 5360 * fieldAt b 128 2 ∧ zeroFrom b 130 144 = true ∧ b.take 128 = tPolicy ∧
    tS.policyCode 0 (bytesOf 128 0) [] ≠ 0 ∧ ((tPolicy.drop 2).length ≠ 144 + 5360 * fieldAt (tPolicy.drop 2) 128 2) := by
  refine ⟨?_, ?_, ?_, ?_, ?_⟩
  · rfl
  · decide +kernel
  · rfl
  · decide +kernel
  · decide +kernel

theorem test_witness_ModuleEvents :
    ((tS.part 0).desc = some tDesc ∧ tS.failing = [] ∧ (tS.part 1).desc = none ∧ tDesc.holds (.core 0) = true ∧
      ({ tS with failing := [.core 0] } : State).failing.filter (fun x => tDesc.holds x || false) ≠ []) ∧
    -- the mesh: drained, and not
    (tS.reads = [] ∧ tS.writes = [] ∧ tS.atoms = [] ∧ (∀ k ∈ tS.cores, k.2.calls = []) ∧
      (let s : State := { tFull with meshMark := 1 }
       ∃ a ∈ s.atoms, a.id < s.meshMark) ∧
      -- a read that crosses clusters and one that stays, a write that leaves late, and a walk
      overMesh 0 (tRead 1 (.sreg 8)).pas = false ∧ overMesh 8 (tRead 1 (.sreg 8)).pas = true ∧ overMesh 0 [] = true ∧
      ({ tWrite with left := 9 } : WriteReq).sent = 9 ∧ tWrite.sent = 3 ∧ (∀ d ∈ tS.dies, ∀ m ∈ d.2.misses, m.2.started = false)) ∧
    -- links and ports, used by a copy and not
    (let uses (r : Region) : Bool := match r with
       | .host l _ => l == 0
       | _ => false
     let peer (r : Region) : Bool := match r with
       | .peer j _ => j == 3
       | _ => false
     tS.copiesIn uses = [] ∧ tS.copiesIn peer = [] ∧ tsortedFrom 0 tS.peerUp = true) ∧
    -- copies whose next element uses a port at its source and at its destination, with a write on its way and without
    (let port (r : Region) : Bool := match r with
       | .port j _ => j == 0
       | _ => false
     let out : CopyEntry := { tCopyRun 0 with kind := .copy 0x3081 0x00FFFE0080000400 0x10000 true }
     let s := tC [tCopyRun 0]
     tCopyRun 0 ∈ (s.ctx 0 0).copyq ∧ (tCopyRun 0).stage = .running ∧ (tCopyRun 0).failing = none ∧ (tCopyRun 0).k < (tCopyRun 0).count ∧
     (s.nextElement 0 (tCopyRun 0) false).any (fun a => port (regionOf a)) = true ∧
     ((tC [out]).nextElement 0 out false).any (fun a => port (regionOf a)) = false ∧
     ((tC [out]).nextElement 0 out true).any (fun a => port (regionOf a)) = true ∧ s.entryOpen 0 0 1 = false ∧
     ({ s with writes := [{ tWrite with ent := some 1 }] } : State).entryOpen 0 0 1 = true) ∧
    -- power: too much, little, and neither; the module too
    ((tPart 0).desc = some tDesc ∧ 1000 * tDesc.cap < 100001 ∧ 10 * 89999 < 9000 * tDesc.cap ∧ (3 : Nat) < tDesc.ceiling ∧
      ¬ 1000 * tDesc.cap < 95000 ∧ ¬ 10 * 95000 < 9000 * tDesc.cap ∧ 3200000 * 3 < [3200000, 3200000, 3200001].sum ∧ [0, 0].sum < 3000000 * 2 ∧
      (({ tPart 0 with nextStep := some 3 } : Part).nextStep.getD 4 = 3)) ∧
    -- a step that waits, heat, and the error count
    ((tS.part 0).nextStep = none ∧ ((tS.modPart 0 (fun p => { p with nextStep := some 3 })).part 0).nextStep = some 3 ∧
      (tS.part 0).quadList.contains 0 = true ∧ (tS.part 1).quadList.contains 0 = false ∧ tS.hot (some tDesc) = false ∧
      ({ tS with hotIslands := [0] } : State).hot (some tDesc) = true ∧
      (let s : State := { tS with errors := [(.core 0, 15)] }
       15 ≤ ((s.errors.find? (fun e => e.1 == .core 0)).map (·.2)).getD 0 ∧ s.retired = [] ∧ ∀ v ∈ [UnitName.core 1], v ≠ .core 0) ∧
      tS.frame.toNat % 2 ^ 30 = 0 ∧ ({ tS with frame := 5 } : State).frame.toNat % 2 ^ 30 ≠ 0) := by
  refine ⟨⟨rfl, ?_, ?_, ?_, ?_⟩, ?_, ?_, ?_, ?_, ?_⟩ <;> decide +kernel

/-- The bundles of R131's own example and of R144's, and one whose slots are four NOPs. -/
theorem test_witness_DecodeAndEncodeAgree :
    let always : Guard := { g := 0, inv := false }
    (∃ b, decodeBundle 0x0C0002000400000044020BF0FDFFB025#128 = .ok b ∧ (∃ h, b.hdr = some h ∧ h.ext ≠ 0 ∧ h.tgt.toNat = 1) ∧
      b.op1.readsExt = true) ∧
    (∃ b, decodeBundle 0x0C000700116600140983064408041050#128 = .ok b ∧ b.hdr = none) ∧
    (let v : BitVec 128 := 0x04000000040000000400000004000000
     let nop : Instr := .nop { gd := always }
     decodeSlot 0 (bundleSlot v 0) = .ok nop ∧ decodeSlot 1 (bundleSlot v 1) = .ok nop ∧ decodeSlot 2 (bundleSlot v 2) = .ok nop ∧
     decodeSlot 3 (bundleSlot v 3) = .ok nop ∧ nop.readsExt = false ∧ nop.groups + nop.groups ≤ 4) ∧
    decodeMicro 0x3C000000000000000000000000000000#128 = .ok .uret := by
  refine ⟨⟨_, rfl, ⟨_, rfl, ?_, ?_⟩, ?_⟩, ⟨_, rfl, ?_⟩, ?_, ?_⟩ <;> decide +kernel

/-- s4 ← s4 + s5. -/
def tAdd : Instr := .add { gd := { g := 0, inv := false }, w := false, d := 4, a := .reg 4, b := .reg 5 }
/-- tMode with bundles at address 0 of core 0; sixteen registers of each file are in the budget. -/
def tFetches (mode : BitVec 8) (ws : List Nat) : State :=
  { (tMode mode).modCore 0 (fun k => { k with ibank0 := bankOf (ws.flatMap (bytesOf 4)) }) with
    parts := [(0, { tPart mode with launches := [{ tLaunch mode with image := some { tImage with budget := [16, 16, 16, 16] } }] })] }
/-- A bundle with NOPs beside a word of slot 0. -/
def tFetch (mode : BitVec 8) (w : Nat) : State := tFetches mode [w, 0x04000000, 0x04000000, 0x04000000]
/-- The state in which the contexts of core 0 try their bundles. -/
def tOpen (s : State) : State := four.foldl (fun s x => s.openCtx 0 x) (s.openCycle 0)

/-- Context 0 is free to try its bundle, with the live operations `es`. -/
def tTries (u : State) (es : List (Nat × Instr)) : Bool :=
  let x := u.ctx 0 0
  match u.fetched 0 0 with
  | .illegal _ => false
  | .legal b =>
    x.st == .running && x.strikes.isNone && x.asyncQ.isEmpty && x.wait2.isNone && !x.skips? (u.det 0) b && liveOps b == es && x.nds == 0 &&
    decide (bankExtra (((u.imageOf 0).map (·.mirrors)).getD []) b ≤ x.stall)
/-- The verdicts of its slots, asked in their order, and whether the bundle issues as a whole. -/
def tVerdicts (u : State) : List (Nat × Verdict) × Bool :=
  match u.fetched 0 0 with
  | .illegal _ => ([], false)
  | .legal b =>
    let at_ := (u.focusOn 0 0 0 (bundleExt b)).modCtx 0 0 (fun x => x.switched ((u.core 0).switch? 0))
    (slotVerdicts at_ (liveOps b), (u.switchGate 0 0 matches .go) &&
      (match runSlots 0 none (actOrder (liveOps b)) at_ with | .next v => v.cur.verdict == .issued | _ => false))

theorem test_witness_StepRunsDecoded :
    (tS.dead = false ∧ tS.agenda = [] ∧ ((tS.openCycle 0).core 0).halted = false ∧
      (tS.core 0).owner = some { part := 0, launch := 1, lcore := 0 } ∧
      tS.focus = 0 ∧ (State.reset.core State.reset.focus).owner = none ∧ encode (.errorWindowEnd) = none ∧
      encodeMicro (.errorWindowEnd) = none) ∧
    -- one operation, outside deterministic mode and in it
    (let u := tOpen (tFetch 0 0x08041050)
     tTries u [(0, tAdd)] = true ∧ tVerdicts u = ([(0, .issued)], true) ∧ u.det 0 = false ∧ (u.core 0).slotSpent = false ∧
     (u.core 0).holder = some 0) ∧
    (let u := tOpen (tFetch 1 0x08041050)
     tTries u [(0, tAdd)] = true ∧ tVerdicts u = ([(0, .issued)], true) ∧ u.det 0 = true ∧ u.meshPause = false ∧ u.dueNow 0 0 = true ∧
     u.onTime 0 0 = true ∧ (u.ctx 0 0).copyFaultWaits = false ∧ (∀ x < 4, 0 < x → u.dueNow 0 x = false)) ∧
    -- R131's own example: a scalar and two vector operations issue beside a call that raises (no routine 7 is installed)
    (let u := tOpen (tFetches 0 [0x08041050, 0x09830644, 0x11660014, 0x0C000700])
     (tVerdicts u).1.map (·.1) = [0, 1, 2, 3] ∧ (tVerdicts u).2 = false) ∧
    -- a store and a sum of vectors, in which nothing reads the slice
    (let u := tOpen (tFetches 0 [0xA4070B00, 0x44020410, 0x04000000, 0x04000000])
     (tVerdicts u) = ([(0, .issued), (1, .issued)], true)) ∧
    -- a bundle that the nullifier skips: its guard p1 has been false since the launch
    (let u := tOpen ((tFetch 0 0x09041050).modCtx 0 0 (fun x => { x with cycle := 9 }))
     (u.core 0).last = some 0 ∧ (match u.fetched 0 0 with | .legal b => (u.ctx 0 0).skips? (u.det 0) b | _ => false) = true) ∧
    -- a slot that blocks, one that raises, and an illegal bundle
    (let u := tOpen { tFetch 0 0x08041050 with reads := [tRead 1 (.sreg 4)] }
     (tVerdicts u).1 = [(0, .blocked 7)] ∧ tTries u [(0, tAdd)] = true) ∧
    ((tVerdicts (tOpen (tFetch 0 0xF0000001))).1 = [(0, .raised .illegal 0 0)]) ∧
    (let u := tOpen (tFetch 0 0)
     u.fetched 0 0 = .illegal 1 ∧ (u.ctx 0 0).wait2 = none) ∧
    -- the search: context 0 has left the slot to context 1, which is not there
    (let u := tOpen ((tFetch 0 0x08041050).modCore 0 (fun k => { k with holder := none, from_ := 0 }))
     (u.core 0).holder = none ∧ (u.core 0).from_ = 0 ∧ (∀ x < 4, x ≠ 0 → (u.ctx 0 x).st = .idle) ∧ (0 + 1 + 3) % 4 = 0) ∧
    -- a micro-word
    (let s : State := (tPc tCall []).modMyCore (fun k => { k with routines := [(2, (0, 1))] })
     s.dead = false ∧ s.runningCall 0 = some tCall ∧ (s.core 0).microWord tCall = some 0x3C000000000000000000000000000000#128) := by
  refine ⟨?_, ?_, ?_, ?_, ?_, ?_, ?_, ?_, ?_, ?_, ?_⟩ <;> decide +kernel

/-- A reset module steps, and the step keeps what the invariants say. -/
theorem test_witness_EveryStepKeeps :
    State.reset.memWf = true ∧ State.reset.storesWf = true ∧ step State.reset = .next State.reset ∧
    (match step { State.reset with agenda := [.hostWrite 0 0x1000 [7]] } with
     | .next t => t.memWf && (t.peek 0x400000001000 == 7)
     | _ => false) = true := by
  refine ⟨?_, ?_, rfl, ?_⟩ <;> decide +kernel

/-! ### Where accesses fail, and what waits: states for the clauses of that kind -/

/-- tS and tD with an atomic on the first bytes of the own slice that x2 and s2 point at, unserved. -/
def tOwes : State := { tS with atoms := [tAtom 3] }
def tOwesD : State := { tD with atoms := [tAtom 3] }
/-- Phase 1, which holds no byte of the own slice for writing at 0x100, is open in deterministic mode. -/
def tPhase : State := tD.modMyCore (fun k => { k with phase := some (1, 0) })
/-- tLda in deterministic mode. -/
def tLdaD : State := { tXD (fun x => { x with ldaVis := 5 }) with cur := { tD.cur with ldaVis := 5 } }

/-- An access of a form meets the hypotheses of one clause of `accessFails`: alignment, a miss in deterministic mode, a byte that fails,
a byte outside the phase, an own-slice access that comes too soon. -/
abbrev tMisses (t : State) (va : Word) (n : Nat) : Prop := va.toNat % n = 0 ∧ t.noMiss va.toNat n ≠ .ok ()
abbrev tFailsAt (t : State) (k : AKind) (va : Word) (n : Nat) (c : Cause) (a : Word) : Prop :=
  va.toNat % n = 0 ∧ t.noMiss va.toNat n = .ok () ∧ t.checkSpan (t.accessOf k 0) va.toNat n = .error (c, a)
abbrev tEscapes (t : State) (k : AKind) (va : Word) (n pa i : Nat) : Prop :=
  va.toNat % n = 0 ∧ t.noMiss va.toNat n = .ok () ∧ t.checkSpan (t.accessOf k 0) va.toNat n = .ok (hitsAt pa n 0) ∧
  t.escapes (k == .write) (hitsAt pa n 0) 0 = some i
abbrev tOverdue (t : State) (k : AKind) (va : Word) (n pa : Nat) : Prop :=
  va.toNat % n = 0 ∧ t.noMiss va.toNat n = .ok () ∧ t.checkSpan (t.accessOf k 0) va.toNat n = .ok (hitsAt pa n 0) ∧
  t.escapes (k == .write) (hitsAt pa n 0) 0 = none ∧ t.overdue (hitsAt pa n 0) = true

theorem test_witness_ScalarLoadsAndStores_fails :
    (3 : Word).toNat % 2 ≠ 0 ∧ tS.opnd (.reg 7) = .ok (⟨3, 0⟩, tS) ∧
    (let s := tX (fun x => { x with s := [(1, ⟨5, 0⟩), (4, ⟨0x12000, 0⟩)] })
     let d := tXD (fun x => { x with s := [(1, ⟨5, 0⟩), (4, ⟨0x20000, 0⟩)] })
     s.me.holds g0 = true ∧ s.ldaHolds = false ∧ s.destReady (sDest 8) = .ok () ∧ s.dataReg 1 = .ok ⟨5, 0⟩ ∧
     s.opnd (.reg 4) = .ok (⟨0x12000, 0⟩, s) ∧ tFailsAt s .read 0x12000 4 .transInvalid 0x12000 ∧
     tFailsAt s .write 0x12000 8 .transInvalid 0x12000 ∧ d.opnd (.reg 4) = .ok (⟨0x20000, 0⟩, d) ∧ d.dataReg 1 = .ok ⟨5, 0⟩ ∧
     tMisses d 0x20000 4) ∧
    (tPhase.me.holds g0 = true ∧ tPhase.ldaHolds = false ∧ tPhase.opnd (.reg 2) = .ok (⟨0x00FFFE0080000100, 0⟩, tPhase) ∧
      tPhase.destReady (sDest 8) = .ok () ∧ tPhase.dataReg 7 = .ok ⟨3, 0⟩ ∧ tEscapes tPhase .read 0x00FFFE0080000100 8 0x100 0 ∧
      tEscapes tPhase .write 0x00FFFE0080000100 8 0x100 0) ∧
    (tOwes.me.holds g0 = true ∧ tOwes.ldaHolds = false ∧ tOwes.opnd (.reg 2) = .ok (⟨0x00FFFE0080000100, 0⟩, tOwes) ∧
      tOwes.destReady (sDest 8) = .ok () ∧ tOwes.dataReg 7 = .ok ⟨3, 0⟩ ∧ tOwes.det tOwes.cur.core = false ∧
      tOverdue tOwes .read 0x00FFFE0080000100 8 0x100 ∧ tOverdue tOwes .write 0x00FFFE0080000100 4 0x100) ∧
    (tOwesD.me.holds g0 = true ∧ tOwesD.ldaHolds = false ∧ tOwesD.opnd (.reg 2) = .ok (⟨0x00FFFE0080000100, 0⟩, tOwesD) ∧
      tOwesD.destReady (sDest 8) = .ok () ∧ tOwesD.dataReg 7 = .ok ⟨3, 0⟩ ∧ tOwesD.det tOwesD.cur.core = true ∧
      tOverdue tOwesD .read 0x00FFFE0080000100 8 0x100 ∧ tOverdue tOwesD .write 0x00FFFE0080000100 4 0x100) := by
  refine ⟨?_, ?_, ?_, ?_, ?_, ?_⟩ <;> decide +kernel

theorem test_witness_FullEmptyAndParameterLoads_fails :
    (tS.opnd (.reg 7) = .ok (⟨3, 0⟩, tS) ∧ (3 : Word).toNat % 8 ≠ 0 ∧ tS.opnd (.reg 6) = .ok (⟨0x8000000000000000, 0⟩, tS) ∧
      (0x8000000000000000 : Word).toNat % 8 = 0 ∧ 2 ^ 56 ≤ (0x8000000000000000 : Word).toNat) ∧
    -- core 2 is not of the launch
    (let s := tX (fun x => { x with s := [(1, ⟨0x00FFFE0004000000, 0⟩)] })
     s.me.holds g0 = true ∧ s.ldaHolds = false ∧ s.destReady (sDest 8) = .ok () ∧ s.dataReg 2 = .ok ⟨0, 0⟩ ∧
     s.opnd (.reg 1) = .ok (⟨0x00FFFE0004000000, 0⟩, s) ∧ inAperture (0x00FFFE0004000000 : Word).toNat = true ∧
     tFailsAt s .read 0x00FFFE0004000000 8 .sliceRange 0x00FFFE0004000000 ∧ tFailsAt s .write 0x00FFFE0004000000 8 .sliceRange 0x00FFFE0004000000) := by
  decide +kernel

theorem test_witness_AcquireReleaseAndFences_fails :
    ((3 : Word).toNat % 4 ≠ 0 ∧ tS.opnd (.reg 7) = .ok (⟨3, 0⟩, tS)) ∧
    (tSentD.opnd (.reg 2) = .ok (⟨0x00FFFE0080000100, 0⟩, tSentD) ∧ tSentD.dataReg 7 = .ok ⟨3, 0⟩ ∧
      tSentD.noMiss 0x00FFFE0080000100 8 = .ok () ∧ tSentD.span .write 0x00FFFE0080000100 8 0 = .ok (hitsAt 0x100 8 0) ∧
      tSent.noMiss 0x00FFFE0080000100 8 = .ok () ∧ tSentD.drained (scopeWide .sys) = false ∧ tSent.drained (scopeWide .sys) = false ∧
      tSentD.det tSentD.cur.core = true ∧ tSentD.me.holds g0 = true ∧ tSentD.ldaHolds = false) ∧
    (tLdaD.me.holds g0 = true ∧ tLdaD.ldaHolds = true ∧ tLdaD.det tLdaD.cur.core = true) := by decide +kernel

theorem test_witness_AtomicRequests_fails :
    ((3 : Word).toNat % 8 ≠ 0 ∧ tS.opnd (.reg 7) = .ok (⟨3, 0⟩, tS)) ∧
    (tS.opnd (.reg 5) = .ok (⟨0x11000, 0⟩, tS) ∧ tS.opnd .zero = .ok (⟨0, 0⟩, tS) ∧ tFailsAt tS .atomic 0x11000 8 .transPerm 0x11000) ∧
    (let d := tXD (fun x => { x with s := [(4, ⟨0x20000, 0⟩)] })
     d.opnd (.reg 4) = .ok (⟨0x20000, 0⟩, d) ∧ d.me.holds g0 = true ∧ d.ldaHolds = false ∧ tMisses d 0x20000 8) ∧
    (tS.opnd (.reg 1) = .ok (⟨0xFFFFFFFFFFFFFFFF, 1⟩, tS) ∧
      (match tS.cellOf 0xFFFFFFFFFFFFFFFF with | .error _ => true | .ok _ => false) = true) := by
  decide +kernel

theorem test_witness_VectorMovementResults_full :
    let t := tV.modMe (fun x => { x with ports := [(1, { tPort true false false 9 [] with
      pushes := (List.range 4).map (fun k => { k := k, val := 0, mask := 0 }) })] })
    t.me.holds g0 = true ∧ t.vdestReady 8 = .ok () ∧ t.opndv (.reg 1) 1024 32 none = .ok (⟨0x00000002FFFFFFFF, 1⟩, t) ∧
    ((t.me.port? 1).all (fun p => p.desc.out && !p.exh && decide (4 ≤ p.pushes.length))) = true ∧ t.det t.cur.core = false := by
  decide +kernel

theorem test_witness_VectorMemoryAccesses_fails :
    -- the lowest of two misaligned spans, and of two that fail
    (tV.opnd1 (.reg 1) = .ok (⟨0x00000002FFFFFFFF, 1⟩, tV) ∧ tV.vecOffset .ext = .ok (⟨0xFFFFFFFFFFFFFFB0, 0⟩, tV) ∧
      (let sp : Spans := [(0x2FFFFFFFF, 16), (0x2FFFFFFAF, 16)]
       (0x2FFFFFFAF, 16) ∈ sp ∧ (0x2FFFFFFAF : Word).toNat % 16 ≠ 0 ∧ ∀ e' ∈ sp, e'.1.toNat % 16 ≠ 0 → (0x2FFFFFFAF : Word) ≤ e'.1) ∧
      (0x00000002FFFFFFFF : Word).toNat % 8 ≠ 0) ∧
    (let t := tV.modMe (fun x => { x with x := [(4, ⟨0x13000, 0⟩)] })
     let sp : Spans := [(0x13000, 16), (0x12000, 16)]
     t.me.holds g0 = true ∧ t.ldaHolds = false ∧ t.vdestReady 8 = .ok () ∧ t.opnd1 (.reg 4) = .ok (⟨0x13000, 0⟩, t) ∧
     t.vdata 8 = .ok (Lab.zero 1024) ∧ t.noMisses sp = .ok () ∧ (0x12000, 16) ∈ sp ∧
     (∀ k ∈ [AKind.read, .write], t.span k 0x12000 16 0 = .error (.raise .transInvalid 0 0x12000) ∧
       t.span k 0x13000 16 0 = .error (.raise .transInvalid 0 0x13000)) ∧ (0x12000 : Word) < 0x13000) ∧
    (let t : State := { tXD tVCtx with cur := { tD.cur with slot := 1 } }
     t.me.holds g0 = true ∧ t.ldaHolds = false ∧ t.noMisses [(0x20000, 16)] ≠ .ok ()) := by decide +kernel

theorem test_witness_CopyQueueCommands_handle :
    let s := tE [0x00FFFE00817FF000, 5, 64]
    s.me.holds g0 = true ∧ s.ldaHolds = false ∧ s.opnd3 (.reg 0) = .ok (⟨0x00FFFE00817FF000, 0⟩, s) ∧
    s.obj (.reg 1) 64 = .ok ((5, 0), s) ∧ s.opnd3 (.reg 2) = .ok (⟨64, 0⟩, s) ∧ 64 ≤ (64 : Word).toNat := by decide +kernel

/-- A core waits with an MLOAD of the word at 0x300 (a URET) or at 0x310 (no word), behind request 5. -/
def tHold (off : Nat) (f : State → State) : State :=
  (f (tE [])).modMyCore (fun k => { k with mload := some { ctx := 0, id := 6, idx := 3, start := 8, pas := (hitsAt off 16 0).map (·.pa), clk := Clock.zero } })

theorem test_witness_PlaneCallAcceptance_late :
    let s := tE [0x00FFFE0080000300, 0x00100803]
    let hs := hitsAt 0x300 16 0
    let here : ReadReq := { tRead 1 (.sreg 8) with bytes := (List.range 8).map (fun i => some (0x308 + i)) }
    let atom (i : Nat) : AtomReq := { tAtom i with tgt := .mem 0x308 }
    let ready (t : State) : Bool := t.me.holds g0 && !t.ldaHolds && (t.opnd3 (.reg 0)).toOption == some (⟨0x00FFFE0080000300, 0⟩, t) &&
      (t.opnd3 (.reg 1)).toOption == some (⟨0x00100803, 0⟩, t) && !t.det t.cur.core && t.myCore.calls.isEmpty
    -- an earlier read or atomic on the words
    (let t : State := { s with reads := [here] }
     ready t = true ∧ t.wordSpans 0x00FFFE0080000300 0 1 = .ok hs ∧
     (∃ r ∈ (t.lookUp none 0x00FFFE0080000300 16).reads, r.id < t.cur.base ∧ r.core = t.cur.core ∧ r.ctx = t.cur.ctx ∧ r.reply = none ∧
       meets r.pas (hs.map (·.pa)) = true)) ∧
    (let t : State := { s with atoms := [{ atom 3 with tgt := .mem pagePa }] }
     let hs := hitsAt pagePa 16 3
     ready t = true ∧ t.wordSpans 0x10000 0 1 = .ok hs ∧ (t.lookUp none 0x10000 16).atomOpen t.cur.base 0 0 (hs.map (·.pa)) = true) ∧
    -- an entry that a SNAPADV has raised and the die has not caught up with, and a pause of the mesh
    (let leaves := tLeaves.map (fun l => { l with sealed := { Clock.zero with d1 := 1 } })
     let t : State := { s with parts := [(0, { s.part 0 with leaves := leaves })] }
     ready t = true ∧ gives (t.wordSpans 0x10000 0 1) (fun hs =>
       !((t.lookUp none 0x10000 16).die 0).clk.covers (((t.lookUp none 0x10000 16).homeClock (hs.map (·.pa))).join (sealClock hs))) = true) ∧
    (let t : State := { s with meshPause := true }
     ready t = true ∧ t.wordSpans 0x10000 0 1 = .ok (hitsAt pagePa 16 3) ∧ (t.lookUp none 0x10000 16).meshPause = true ∧
     overMesh 0 ((hitsAt pagePa 16 3).map (·.pa)) = true) ∧
    -- in its own bundle: an LDA, a VSYNC, a read and an atomic, none of which makes it late
    (∀ t ∈ [{ s with reads := [{ tRead 5 (.sreg 8) with acquire := true }], nextId := 6 },
        { s with reads := [{ here with id := 5 }], nextId := 6 }, { s with atoms := [atom 5], nextId := 6 },
        s.modMe (fun x => { x with wait2 := some (.vsync none), syncAt := 5 })],
      ready t = true ∧ t.wordSpans 0x00FFFE0080000300 0 1 = .ok hs ∧
      (let u := t.lookUp none 0x00FFFE0080000300 16
       (u.acquiring u.nextId 0 0 || u.readOpen u.nextId 0 0 (hs.map (·.pa)) || u.atomOpen u.nextId 0 0 (hs.map (·.pa))) = true ∧
       u.readOpen u.cur.base 0 0 (hs.map (·.pa)) = false ∧ u.atomOpen u.cur.base 0 0 (hs.map (·.pa)) = false ∧
       u.earlierWaits (hs.map (·.pa)) = false ∧ (u.die 0).clk.covers ((u.homeClock (hs.map (·.pa))).join (sealClock hs)) = true ∧
       u.meshPause = false)) := by
  refine ⟨?_, ?_, ?_, ?_, ?_⟩ <;> decide +kernel

theorem test_witness_PlaneCallAcceptance_held :
    let w (off : Nat) : MloadHold := { ctx := 0, id := 6, idx := 3, start := 8, pas := (hitsAt off 16 0).map (·.pa), clk := Clock.zero }
    let free (t : State) (h : MloadHold) : Bool := !t.acquiring h.id 0 h.ctx && !t.earlierOpen h.id 0 h.ctx h.pas &&
      !t.mustWait (t.die 0).clk h.pas && (t.die 0).clk.covers ((t.homeClock h.pas).join h.clk) && !t.meshPause
    ((tHold 0x300 id).core 0).mload = some (w 0x300) ∧ free (tHold 0x300 id) (w 0x300) = true ∧
    ((tHold 0x310 id).core 0).mload = some (w 0x310) ∧ free (tHold 0x310 id) (w 0x310) = true ∧
    (let ws (off : Nat) := wordsFrom ((w off).pas.length / 16) (((tHold off id).modCore 0 (fun k => { k with mload := none })).peeks (w off).pas)
     (ws 0x300).all (fun w => (decodeMicro w).toOption.isSome) = true ∧ (ws 0x310).any (fun w => (decodeMicro w).toOption.isNone) = true) ∧
    (tHold 0x300 (fun s => { s with reads := [{ tRead 5 (.sreg 8) with acquire := true }] })).acquiring 6 0 0 = true ∧
    (tHold 0x300 (fun s => { s with atoms := [{ tAtom 5 with tgt := .mem 0x308 }] })).earlierOpen 6 0 0 (w 0x300).pas = true ∧
    (tHold 0x300 (fun s => { s with writes := [{ tWrite with cells := [(0x300, 7)] }] })).mustWait Clock.zero (w 0x300).pas = true ∧
    Clock.zero.covers ((tE []).homeClock (w 0x300).pas |>.join { Clock.zero with d1 := 1 }) = false ∧
    (tHold 0x300 (fun s => { s with meshPause := true })).meshPause = true ∧ overMesh 0 [pagePa] = true := by
  decide +kernel

/-- Whether the operation of a plane raises the cause. -/
def tPlaneFault {α : Type} (r : MTry α) (c : PlaneCause) : Bool := match r with
  | .error (.fault d) => d == c
  | _ => false

theorem test_witness_PlaneStepsAndShifts_faults :
    (tCallJ.holdsRing 3 = false ∧ tCall.holdsRing 4 = true ∧ tCall.inj = none ∧ tCallJ.holdsRing 4 = true ∧ tCallJ.inj = some tInj ∧
      (let c := { tCallJ with inj := some { tInj with xring := 3 } }
       c.holdsRing 4 = true ∧ c.inj = some { tInj with xring := 3 } ∧ c.holdsRing 3 = false) ∧
      (let s := tJ.modMyCore (fun k => { k with rings := [(4, tRing 16 .f16 0 1 1), (5, tRing 16 .i8 0 1 1), (6, tRing 1 .f16 0 1 1)] })
       tCallJ.holdsRing 5 = true ∧ stepFmt tCallJ.int (s.myCore.ring 5).snk = false ∧ stepFmt tCallJ.int (s.myCore.ring 4).snk = true ∧
       tCallJ.holdsRing 6 = true ∧ stepFmt tCallJ.int (s.myCore.ring 6).snk = true ∧ (s.myCore.ring 6).elems ≠ 512) ∧
      ((tJ.myCore.ring 6).held = 0 ∧ (tJ.myCore.ring 6).elems = 512 ∧ tInj.n.foldl (· * ·) 1 ≤ (tJ.myCore.ring 5).elems)) ∧
    (tJ.runningCall tJ.cur.core = some tCallJ ∧ tPlaneFault (tJ.stepOn tCallJ 3) .ring = true ∧ tPlaneFault (tP.stepOn tCall 4) .inj = true ∧
      tCallJ.opl = true ∧ ({ tCall with args := tArgs.set 6 0xF0 } : Call).opl = false ∧
      (let s := tJ.modMyCore (fun k => { k with rings := [(4, tRing 16 .i8 0 1 1), (6, tRing 1 .f16 0 1 1)] })
       s.runningCall s.cur.core = some tCallJ ∧ stepFmt tCallJ.int (s.myCore.ring 4).snk = false ∧
       stepFmt tCallJ.int (s.myCore.ring 6).snk = true ∧ (s.myCore.ring 6).elems ≠ 512)) ∧
    (tCallJ.hasAxis 2 = false ∧ tCallJ.hasAxis 1 = true ∧ ¬ ((true : Bool) = false ∧ (1 : Nat) = 0) ∧ (1 : Nat) ≠ 0 ∧
      (match tJ.stepOn tCallJ 6 with | .error (.wait _) => true | _ => false) = true) := by
  refine ⟨?_, ?_, ?_⟩ <;> decide +kernel

theorem test_witness_PlaneControlAndHalos_ahead :
    let c := { tCall with started := false }
    let s := tPc c []
    (s.core 0).calls = c :: [] ∧ (s.core 0).halted = false ∧ s.syncing c.uid 0 c.ctx = false ∧
    ({ s with reads := [{ tRead 0 (.sreg 9) with kind := .sysr 0x80F }] } : State).forkWaits c.uid 0 c.ctx = false ∧
    ({ s with reads := [tRead 0 (.sreg 9)] } : State).forkWaits c.uid 0 c.ctx = true ∧
    ({ s with atoms := [tAtom 0] } : State).forkWaits c.uid 0 c.ctx = true ∧ tAtom 0 ∈ [tAtom 0] ∧ (tAtom 0).id < c.uid ∧ (tAtom 0).stage ≠ .replied ∧
    (s.modMe (fun x => { x with wait2 := some (.vsync none), syncAt := 1 })).syncing c.uid 0 c.ctx = true := by decide +kernel

theorem test_witness_MemoryEvents_syncing :
    tM.syncing 3 0 0 = false ∧
    (let s := tM.modMe (fun x => { x with wait2 := some (.vsync none), syncAt := 1 })
     s.reads.find? (fun r => r.id == 1) = some (tRead 1 (.sreg 8)) ∧ (s.ctx 0 0).wait2 = some (.vsync none) ∧ (s.ctx 0 0).syncAt ≤ 1) := by
  decide +kernel

theorem test_witness_AtomicAndSerialEvents_synced :
    (∀ w ∈ tM.writes, w.held = false) ∧
    (let w : WriteReq := { tWrite with held := true }
     let s : State := { tM with writes := [w, tW1] }
     s.writes.filter (fun w => w.held) = [w] ∧ w.core = 0 ∧ w.ctx = 0 ∧ (∀ q ∈ s.reads, q.core = 0 → q.ctx = 0 → q.acquire = false)) ∧
    -- the GLEAVE of a context that has retired
    (let r : GroupReq := { who := ⟨0, 1, 0⟩, group := 11, op := .leave, after := some (⟨0, 0⟩, 20) }
     let s : State := { tFull with groupReqs := [r] }
     let t : State := { tS with groupReqs := [r] }
     s.meshPause = false ∧ s.groupReqs = r :: [] ∧ t.groupReqs = r :: [] ∧
     (∃ a ∈ s.atoms, a.id < 20 ∧ a.core = 0 ∧ a.ctx = 0 ∧ a.stage ≠ .replied) ∧ (∀ a ∈ t.atoms, 20 ≤ a.id) ∧
     (∀ d < 4, (t.die d).clk.covers (r.clk.join (t.die (dieOf 0)).clk) = true) ∧
     (t.die 0).clk.covers (({ r with clk := { Clock.zero with d1 := 1 } } : GroupReq).clk.join (t.die (dieOf 0)).clk) = false) := by
  decide +kernel

theorem test_witness_ContextEvents_frozen :
    (let s := tX (fun x => { x with st := .frozenPre, preReasons := [] })
     (s.ctx 0 0).preReasons = [] ∧ (s.ctx 0 0).st = .frozenPre) ∧
    ({ tS with meshPause := true } : State).meshPause = true ∧ tS.meshPause = false := by decide +kernel

theorem test_witness_CopyEvents_waits :
    -- a read, an atomic and a VSYNC of the context that came before an entry, and none
    (∀ e ∈ [tCopyRun 0, tClear 0, tRelease 0x10000 0, tPublish 0, { tCopyRun 0 with total := 0 }],
      (tC [e]).entryAt 0 0 0 = some e ∧ ((tC [e]).ctx 0 0).entry e.uid = some e ∧ (tC [e]).forkWaits e.uid 0 0 = false ∧
      (tC [e]).syncing e.uid 0 0 = false ∧
      ({ tC [e] with reads := [tRead 0 (.sreg 8)] } : State).forkWaits e.uid 0 0 = true ∧
      ({ tC [e] with atoms := [tAtom 0] } : State).forkWaits e.uid 0 0 = true ∧
      ((tC [e]).modMe (fun x => { x with wait2 := some (.vsync none), syncAt := 0 })).forkWaits e.uid 0 0 = true) ∧
    -- a granule that a copy's walk names by both of its aperture addresses, the latter later
    (let r : BitVec 512 := 0x00000002800000000000000000000401
     lastInGranule [0, 1] 0 r 0x00FFFE0080000400 0 = false ∧ lastInGranule [0, 1] 0 r 0x00FFFE0080000400 1 = true) ∧
    -- a release that the gate accepts, behind a link that is down; handing over waits for the mesh
    (let e := { tRelease 0x10000 1 with stage := .gate }
     let g : GateReq := { part := 0, core := 0, ctx := 0, uid := 1, pol := 1, off := 0, data := List.replicate 16 0, mask := 0, image := 0 }
     let pol : Policy := { mask := 3, maxBytes := 16, base := 0x400000001000, size := 16, count := 1, image := 0, serial := 0 }
     let s : State := { tC [e] with gate := [g], linkUp0 := false, parts := [(0, { tPart 0 with policies := [(1, pol)] })] }
     s.gate = g :: [] ∧ (s.ctx g.core g.ctx).entry g.uid = some e ∧ tfind (s.part g.part).policies 1 = some pol ∧ pol.image = g.image ∧
     g.mask &&& ~~~pol.mask = 0 ∧ ¬ pol.maxBytes < g.data.length ∧ ¬ pol.size < g.off.toNat + g.data.length ∧ pol.count ≠ 0 ∧
     s.reachable (pol.base + g.off.toNat) = false ∧ ({ s with linkUp0 := true } : State).reachable (pol.base + g.off.toNat) = true) ∧
    ((tC [tRelease 0x10000 1]).entryAt 0 0 0 = some (tRelease 0x10000 1) ∧ (tC [tRelease 0x10000 1]).meshPause = false ∧
      ({ tC [tRelease 0x10000 1] with meshPause := true } : State).meshPause = true ∧ (tC [tPublish 0]).meshPause = false) := by
  refine ⟨?_, ?_, ?_, ?_⟩ <;> decide +kernel

theorem test_witness_FeedEvents_waits :
    -- a port that was bound in this cycle and starts in the next, and one behind a read of its context
    (let p (first num : Nat) := { tPort false false false 2 [] with first := first, num := num }
     let s (first num : Nat) := tX (fun x => { x with ports := [(0, p first num)] })
     ((s 2 5).core 0).fed 0 false = some (0, 0, p 2 5) ∧ ¬ (p 2 5).first ≤ ((s 2 5).core 0).ticks ∧
     ((s 0 5).core 0).fed 0 false = some (0, 0, p 0 5) ∧ (s 0 5).forkWaits 5 0 0 = false ∧
     ({ s 0 5 with reads := [tRead 4 (.sreg 8)] } : State).forkWaits 5 0 0 = true) ∧
    -- a column of a block that an LDA of its own bundle holds, and a column of this cycle
    (let b : TBlock := { rows := List.replicate 32 (Lab.zero 1024), doneAt := 0, ctx := 0, phase := none, num := 6 }
     let t : Transpose := { Transpose.reset with w32 := true, store := true, pitch := 8, blocks := [b] }
     let s : State := (tE []).modMyCore (fun k => { k with ticks := 8, trans := t })
     s.acquiring b.num 0 b.ctx = false ∧ (s.core 0).trans.blocks = b :: [] ∧ (s.core 0).trans.store = true ∧ (s.core 0).trans.late = none ∧
     max b.doneAt t.freeAt + 8 + t.col ≤ (s.core 0).ticks ∧
     ({ s with reads := [{ tRead 5 (.sreg 8) with acquire := true }] } : State).acquiring b.num 0 b.ctx = true ∧
     ({ t with late := some (true, 8) } : Transpose).late = some (true, 8) ∧ ({ t with late := some (false, 8) } : Transpose).late = some (false, 8) ∧
     8 ≤ 8 ∧ ¬ 9 ≤ 8) := by decide +kernel

theorem test_witness_ModuleEvents_pause :
    -- the link between nodes 0 and 1 fails: a pause; a read that waits for a walk is not in the mesh
    (let m : Miss := { part := 1, key := 0x20, cluster := 8, started := false, reqs := [1] }
     let s : State := { tS with failing := [.link 0 1], reads := [{ tRead 1 (.sreg 8) with core := 32 }],
                                dies := [(2, { Die.reset with misses := [(1, m)] })] }
     let t := s.resetPartition 0 none
     (s.part 0).desc = some tDesc ∧ s.meshPause = false ∧ t.meshPause = true ∧ t.meshMark = t.nextId ∧
     linksLeft t.retired ≠ linksLeft s.retired ∧ (∃ r ∈ t.reads, t.walking r.id = true) ∧ t.meshHeld = [1] ∧ t.notInjected 1 = true ∧
     t.notInjected 0 = false) ∧
    ((tS.resetPartition 0 none).meshPause = false ∧ ({ tS with meshPause := true } : State).meshPause = true) ∧
    -- what moves: a read on its way and a reply, a write and its acknowledgement, atomics, a walk, an export
    ((let r : ReadReq := { tRead 1 (.sreg 8) with core := 8 }
      let s : State := { tS with reads := [r], meshPause := true, meshMark := 9 }
      s.notInjected r.id = false ∧ overMesh r.core r.pas = true ∧ r.kind = .mem ∧ r.reply = none ∧ s.readable r = true ∧ s.meshDrained = false ∧
      (s.die (dieOf r.core)).clk.covers ({ r with reply := some (Lab.zero 1024) } : ReadReq).rclk = true ∧
      s.feArrives { r with kind := .fe true } 1 = true ∧
      -- one that waits at its home behind a write that has not been injected moves no more
      ({ s with meshMark := 1 } : State).meshDrained = true) ∧
     (let w : WriteReq := { tWrite with core := 8 }
      let s : State := { tS with writes := [w], meshPause := true, meshMark := 9 }
      s.notInjected w.sent = false ∧ overMesh w.core w.pas = true ∧ s.canPerform w = true ∧ s.meshDrained = false ∧
      ({ s with writes := [{ w with performed := true }] } : State).meshDrained = false ∧
      ({ s with writes := [{ w with performed := true, acked := true }] } : State).meshDrained = true ∧
      s.applicable 1 { w with stamp := { Clock.zero with d0 := 1 } } = true) ∧
     (let a : AtomReq := { tAtom 3 with core := 8, station := 9 }
      let s (st : AtomStage) : State := { tS with atoms := [{ a with stage := st }], meshPause := true, meshMark := 9 }
      (s .replied).notInjected a.id = false ∧ (s .replied).meshDrained = false ∧ (s .applied).meshDrained = false ∧
      (s .sent).mayArrive { a with stage := .sent } = true ∧ (s .sent).meshDrained = false ∧
      ({ s .sent with engines := [(0, { AtomEngine.reset with inq := [3] })] } : State).meshDrained = true) ∧
     ({ tS with dies := [(0, { Die.reset with misses := [(1, { part := 0, key := 0, cluster := 0, started := true })] })] } : State).meshDrained = false ∧
     (let b : Inbox := { st := .granted, from_ := 1, cells := [], mask := 0, order := 3, clk := Clock.zero }
      (tPc { tCall with inboxes := [b] } []).meshDrained = false ∧
      (tPc { tCall with inboxes := [{ b with clk := { Clock.zero with d1 := 1 } }] } []).meshDrained = true) ∧
     tS.meshDrained = true) ∧
    -- a store entry that a leaf gives, one of another partition, and one that nothing gives
    (let e : StoreEntry := { part := 0, base := 0x10000, size := 0x1000 }
     (tS.part 0).gives e = true ∧ (tS.part 0).gives { e with base := 0x20000 } = false ∧ e ∈ tget [] tS.fronts 0 ∧ e ∈ (tS.die 0).store ∧
     ({ e with part := 3 } : StoreEntry).part ≠ 0) := by
  refine ⟨?_, ?_, ?_, ?_⟩ <;> decide +kernel

theorem test_witness_StepRunsDecoded_holds :
    -- an MLOAD that holds the core over the cycle, and one whose words are read at its boundary
    (let s := (tFetch 0 0x08041050).modCore 0 (fun k => { k with
       mload := some { ctx := 0, id := 6, idx := 3, start := 8, pas := (hitsAt 0x300 16 0).map (·.pa), clk := Clock.zero } })
     let held : State := { s with reads := [{ tRead 5 (.sreg 8) with acquire := true }] }
     ((tOpen held).core 0).mload ≠ none ∧ ((tOpen s).core 0).mload = none ∧ held.dead = false ∧ held.agenda = [] ∧ (held.core 0).owner ≠ none ∧
     ((held.openCycle 0).core 0).halted = false ∧ ((tOpen (tFetch 0 0x08041050)).core 0).mload = none ∧
     ((tOpen (tFetch 1 0x08041050)).core 0).mload = none) ∧
    -- two slots that pop the random vectors, of which none is held and the cycle makes one: the second blocks
    (let t := tFetches 0 [0x04000000, 0x4802B011, 0x4803B011, 0x04000000]
     (tVerdicts (tOpen (t.modCtx 0 0 (fun x => { x with rndHeld := 0 })))).1 = [(1, .issued), (2, .blocked 2)] ∧
     (tVerdicts (tOpen (t.modCtx 0 0 (fun x => { x with rndHeld := 1 })))).1 = [(1, .issued), (2, .issued)]) ∧
    -- a bundle that would be skipped but stands in stall cycles
    (let u := tOpen ((tFetch 0 0x09041050).modCtx 0 0 (fun x => { x with cycle := 9, stall := 1 }))
     (u.core 0).last = some 0 ∧ (u.ctx 0 0).stall ≠ 0) := by
  refine ⟨?_, ?_, ?_⟩ <;> decide +kernel

/-! ### Single instructions -/

/-- The result on its way after the instruction: value, mask, and the cycles until bundles see it (R162). -/
def lands (i : Instr) (s : State) : Option (BitVec 1024 × Mask × Nat) :=
  match exec i s with
  | .next t => (t.ctx 0 0).flight.getLast?.map (fun f => (f.val, f.mask, f.vis - (s.ctx 0 0).cycle))
  | _ => none

abbrev gT : Guard := { g := 0, inv := false }
/-- Three-register forms of slot 0, with the destination s8. -/
def s3 (a b : BitVec 5) : FS3 := { gd := gT, w := false, d := 8, a := .reg a, b := .reg b }

-- R180, R181, R165; the masks of both operands (R16)
theorem test_add : lands (.add (s3 1 7)) tS = some (2, 1, 2) := by decide +kernel
theorem test_sub : lands (.sub (s3 7 4)) tS = some (0xFFFFFFFFFFFF0003, 0, 2) := by decide +kernel
theorem test_mul : lands (.mul (s3 1 7)) tS = some (0xFFFFFFFFFFFFFFFD, 1, 4) := by decide +kernel
theorem test_mulh : lands (.mulh (s3 1 7)) tS = some (0xFFFFFFFFFFFFFFFF, 1, 4) := by decide +kernel
theorem test_mulhu : lands (.mulhu (s3 1 1)) tS = some (0xFFFFFFFFFFFFFFFE, 1, 4) := by decide +kernel
theorem test_div_corner : lands (.div (s3 6 1)) tS = some (0x8000000000000000, 1, 21) := by decide +kernel
theorem test_div_zero : lands (.div (s3 7 0)) tS = some (0xFFFFFFFFFFFFFFFF, 0, 21) := by decide +kernel
theorem test_divu : lands (.divu (s3 1 7)) tS = some (0x5555555555555555, 1, 21) := by decide +kernel
theorem test_rem : lands (.rem (s3 1 7)) tS = some (0xFFFFFFFFFFFFFFFF, 1, 21) := by decide +kernel
theorem test_remu : lands (.remu (s3 4 7)) tS = some (1, 0, 21) := by decide +kernel
theorem test_and : lands (.and (s3 1 7)) tS = some (3, 1, 2) := by decide +kernel
theorem test_or : lands (.or (s3 4 7)) tS = some (0x10003, 0, 2) := by decide +kernel
theorem test_xor : lands (.xor (s3 1 7)) tS = some (0xFFFFFFFFFFFFFFFC, 1, 2) := by decide +kernel
theorem test_andn : lands (.andn (s3 7 1)) tS = some (0, 1, 2) := by decide +kernel
theorem test_shl : lands (.shl (s3 7 1)) tS = some (0x8000000000000000, 1, 2) := by decide +kernel
theorem test_shr : lands (.shr (s3 1 1)) tS = some (1, 1, 2) := by decide +kernel
theorem test_sar : lands (.sar (s3 6 7)) tS = some (0xF000000000000000, 0, 2) := by decide +kernel
theorem test_min : lands (.min (s3 6 7)) tS = some (0x8000000000000000, 0, 2) := by decide +kernel
theorem test_max : lands (.max (s3 1 7)) tS = some (3, 1, 2) := by decide +kernel
theorem test_minu : lands (.minu (s3 6 7)) tS = some (3, 0, 2) := by decide +kernel
theorem test_maxu : lands (.maxu (s3 1 7)) tS = some (0xFFFFFFFFFFFFFFFF, 1, 2) := by decide +kernel
-- R183 to R187
theorem test_clz : lands (.clz { gd := gT, w := false, d := 8, a := .zero }) tS = some (64, 0, 2) := by decide +kernel
theorem test_ctz : lands (.ctz { gd := gT, w := false, d := 8, a := .reg 4 }) tS = some (16, 0, 2) := by decide +kernel
theorem test_popc : lands (.popc { gd := gT, w := false, d := 8, a := .reg 1 }) tS = some (64, 1, 2) := by decide +kernel
theorem test_sel : lands (.sel { gd := gT, w := false, d := 8, a := .reg 1, b := .reg 7, n := 1 }) tS = some (3, 3, 2) := by decide +kernel
theorem test_addi : lands (.addi { gd := gT, w := false, d := 8, a := .reg 7, imm := 0x3FF }) tS = some (2, 0, 2) := by decide +kernel
theorem test_andi : lands (.andi { gd := gT, w := false, d := 8, a := .reg 4, imm := 0x3F0 }) tS = some (0x10000, 0, 2) := by
  decide +kernel
theorem test_sari : lands (.sari { gd := gT, w := false, d := 8, a := .reg 6, amount := 63 }) tS = some (0xFFFFFFFFFFFFFFFF, 0, 2) := by
  decide +kernel
theorem test_movi : lands (.movi { gd := gT, w := false, d := 8, imm := 0x8000 }) tS = some (0xFFFFFFFFFFFF8000, 0, 2) := by decide +kernel
theorem test_movsh : lands (.movsh { gd := gT, w := false, d := 4, imm := 0x1234 }) tS = some (0x100001234, 0, 2) := by decide +kernel
-- R170, R178, R166: a false guard gives no result but its own label (R349), s0 takes none
theorem test_add_false : after (.add { s3 1 7 with gd := gF }) tS (fun t =>
    (t.ctx 0 0).flight.all (fun f => f.maskOnly && f.mask == 2)) = true := by decide +kernel
theorem test_add_s0 : lands (.add { s3 1 7 with d := 0 }) tS = none := by decide +kernel
theorem test_add_latch : after (.add { s3 1 7 with w := true }) tS (fun t =>
    decide ((t.ctx 0 0).flight = []) && (t.ctx 0 0).latches.any (fun l => l.val == 2)) = true := by decide +kernel
-- R163, R188, R189
theorem test_cmp : lands (.cmp { gd := gT, comb := .write, pd := 2, a := .reg 6, b := .reg 7, cond := .lt }) tS = some (1, 0, 1) := by
  decide +kernel
theorem test_cmp_unsigned : lands (.cmp { gd := gT, comb := .write, pd := 2, a := .reg 6, b := .reg 7, cond := .ltu }) tS = some (0, 0, 1) := by
  decide +kernel
theorem test_plog : lands (.plog { gd := gT, pd := 2, pa := 1, pb := 0, op := .neg }) tS = some (1, 2, 1) := by decide +kernel
-- R172, R191, R192, R194
theorem test_br : after (.br { gd := gT, disp := 3 }) (tX (fun x => { x with pc := 0x20 })) (fun t =>
    decide ((t.ctx 0 0).tgt = some (0x50, false))) = true := by decide +kernel
theorem test_br_outside : after (.br { gd := gT, disp := 0x1FFFFF }) tS (fun t =>
    decide ((t.ctx 0 0).tgt = none) && t.cur.verdict != .issued) = true := by decide +kernel
theorem test_call : after (.call { gd := gT, disp := 2 }) (tX (fun x => { x with pc := 0x10 })) (fun t =>
    decide ((t.ctx 0 0).rstack = [0x40]) && decide ((t.ctx 0 0).tgt = some (0x30, false))) = true := by decide +kernel
theorem test_ret : after (.ret { gd := gT }) (tX (fun x => { x with rstack := [0x70, 0x40] })) (fun t =>
    (t.ctx 0 0).rstack.length == 1 && (t.ctx 0 0).tgt.isSome) = true := by decide +kernel
-- R196, R197: the own slice after five cycles, least significant byte first
theorem test_lds : lands (.lds { gd := gT, w := false, d := 8, a := .reg 2, size := .b2, off := 0 })
    (tS.modMyCore (fun k => { k with slice := [(0x100, 0x34), (0x101, 0x92)] })) = some (0xFFFFFFFFFFFF9234, 0, 5) := by decide +kernel
theorem test_st : after (.st { gd := gT, d := 1, a := .reg 2, size := .b2, off := 1 }) tS (fun t =>
    t.writes.all (fun w => w.cells.map (·.1) == [0x102, 0x103]) && (t.core 0).slice.all (fun c => c.1 == 0x102 || c.1 == 0x103)) = true := by
  decide +kernel
theorem test_ld_misaligned : after (.ld { gd := gT, w := false, d := 8, a := .reg 7, size := .b2, off := 0 }) tS (fun t =>
    t.cur.verdict != .issued && decide ((t.ctx 0 0).flight = [])) = true := by decide +kernel

/-! Vector slots: x1 = y1 is -1 and 2 in lanes 0 and 1 of tV; y1 is 1.0 and y2 infinite in FP16 lane 0 of tY. -/

def v3 (Q : Type) (q : Q) (a b : BitVec 5) : FV3 Q := { gd := gT, w := false, d := 8, a := .reg a, b := .reg b, width := .w256, q := q }
/-- 300.0 in FP32 lane 0 of y1 (chapter 8's opening example). -/
def tThree : State := tY.modMe (fun x => { x with y := [(1, ⟨0x43960000, 4⟩)] })
def cvt (dst : Fmt) : Instr := .vcvt { gd := gT, w := false, d := 8, a := .reg 1, src := .f32, dst := dst, width := .w1024 }

-- R315, R165, R217: one, infinity, and what they do together
theorem test_vadd : lands (.vadd (v3 FltQ .f16 1 1)) tY = some (0x4000, 0, 5) := by decide +kernel
theorem test_vsub : lands (.vsub (v3 FltQ .f16 1 2)) tY = some (0xFC00, 0, 5) := by decide +kernel
theorem test_vsub_invalid : lands (.vsub (v3 FltQ .f16 2 2)) tY = some (0x7E00, 0, 5) := by decide +kernel
theorem test_vmul : lands (.vmul (v3 FltQ .f16 1 2)) tY = some (0x7C00, 0, 5) := by decide +kernel
theorem test_vneg : lands (.vneg { gd := gT, w := false, d := 8, a := .zero, width := .w256, q := .f32 }) tY =
    some (0x8000000080000000800000008000000080000000800000008000000080000000, 0, 5) := by decide +kernel
-- R318, R228: the root of 9.0
theorem test_vsqrt : lands (.vsqrt { gd := gT, w := false, d := 8, a := .reg 1, width := .w256 })
    (tY.modMe (fun x => { x with y := [(1, ⟨0x41100000, 0⟩)] })) = some (0x40400000, 0, 9) := by decide +kernel
-- R319, R320
theorem test_viadd_wraps : lands (.viadd (v3 IntQ .i32 1 1)) tV = some (0x00000004FFFFFFFE, 1, 3) := by decide +kernel
theorem test_vimul_i8 : lands (.vimul (v3 IntQ .i8 1 1)) tV = some (0x0000000401010101, 1, 4) := by decide +kernel
theorem test_vimin : lands (.vimin { v3 IntQ .i32 1 1 with b := .zero }) tV = some (0xFFFFFFFF, 1, 3) := by decide +kernel
theorem test_vshl_whole : lands (.vshl { v3 LaneQ .b8 1 1 with d := 8 }) tV = some (0x0000000800000000, 1, 3) := by decide +kernel
theorem test_vsar_ext : lands (.vsar { v3 LaneQ .b32 1 1 with b := .ext }) tV = some (0xFFFFFFFF, 1, 3) := by decide +kernel
-- R325, R326
theorem test_vperm : lands (.vperm { v3 LaneQ .b32 1 1 with b := .ext, width := .w256 }) { tV with cur := { tV.cur with ext := 1 } } =
    some (0x0000000200000002000000020000000200000002000000020000000200000002, 1, 4) := by decide +kernel
theorem test_vextr : lands (.vextr { gd := gT, w := false, d := 8, a := .reg 1, idx := 1, width := .w256, q := .b32 }) tV =
    some (2, 1, 3) := by decide +kernel
theorem test_vins : lands (.vins { gd := gT, w := false, d := 1, a := .reg 1, idx := 2, width := .w256, q := .b32 }) tV =
    some (0xFFFFFFFF00000002FFFFFFFF, 1, 3) := by decide +kernel
theorem test_vred_iadd : lands (.vred { gd := gT, w := false, d := 8, a := .reg 1, op := .iadd .i32, width := .w256 }) tV =
    some (1, 1, 7) := by decide +kernel
-- R328 and the opening example of chapter 8: 300.0 in the narrow formats
theorem test_vcvt_bf16 : lands (cvt .bf16) tThree = some (0x4396, 4, 4) := by decide +kernel
theorem test_vcvt_f16 : lands (cvt .f16) tThree = some (0x5CB0, 4, 4) := by decide +kernel
theorem test_vcvt_f8e4 : lands (cvt .f8e4) tThree = some (0x79, 4, 4) := by decide +kernel
theorem test_vcvt_f8e5 : lands (cvt .f8e5) tThree = some (0x5D, 4, 4) := by decide +kernel
-- R329
theorem test_vunpk : lands (.vunpk { gd := gT, w := false, d := 8, a := .reg 1, part := 1, frac := 2, width := .w256 }) tV =
    some (2, 1, 4) := by decide +kernel
-- R321: less as unsigned, never as signed
theorem test_vicmp : lands (.vicmp { gd := gT, cond := .lt, kd := 1, a := .reg 1, b := .zero, width := .w256, q := .i32 }) tV =
    some (0xF, 1, 2) := by decide +kernel

/-! Directions. -/

-- R230's own example
theorem test_renormalise :
    let r := renormalise (12288 :: 16384 :: List.replicate 62 0) 0
    r.lanes.take 3 = [9830, 13107, 0] ∧ r.norm = 0x52 := by decide +kernel
-- R335, R336
theorem test_dneg : lands (.dneg { gd := gT, w := false, d := 3, a := .reg 1, chain := .c1 }) tY = some (256, 0, 5) := by decide +kernel
theorem test_dnget : lands (.dnget { gd := gT, w := false, d := 8, a := .reg 3 }) tY = some (0xFFFF8000, 0, 3) := by decide +kernel

/-! The engine slot. -/

-- R260, R235, R237
theorem test_hquery : (lands (.hquery { gd := gT, w := false, md := 1, a := .zero }) (tE [])).isSome = true := by decide +kernel
theorem test_rstat_resv : (lands (.rstat { gd := gT, w := false, md := 1, a := .reg 0, sel := .resv }) (tE [7])).map (·.1) = some 4 := by
  decide +kernel

end Sys2Proof.Tests
end

section
/-! SUPPORT. The state after module reset: its tables are empty, so every accessor reads the default of its table, and the
defaults are what the statement asks for. -/

namespace Sys2Proof.Machine

/-! ## What the accessors read after reset -/

@[simp] theorem State.reset_core (c : Nat) : State.reset.core c = Core.reset := rfl
@[simp] theorem State.reset_ctx (c x : Nat) : State.reset.ctx c x = Ctx.reset := rfl
@[simp] theorem State.reset_part (n : Nat) : State.reset.part n = Part.reset := rfl
@[simp] theorem State.reset_func (n : Nat) : State.reset.func n = Func.reset := rfl
@[simp] theorem State.reset_queue (n : Nat) : State.reset.queue n = Queue.reset := rfl

/-- s0 reads zero by its own rule, the others because nothing has written them. -/
@[simp] theorem Ctx.reset_sreg (n : Nat) : Ctx.reset.sreg n = Lab.zero 64 := by
  unfold Ctx.sreg
  split_ifs
  · rfl
  · rfl

/-- Every region that holds bytes reads an empty table, and the others read zero. -/
@[simp] theorem State.reset_peek (pa : Nat) : State.reset.peek pa = 0 := by
  unfold State.peek
  split
  case h_1 c off => rfl
  case h_2 => rfl
  case h_3 off => rfl
  case h_4 => rfl
  case h_5 j off => rfl
  case h_6 => rfl

/-! ## The forms after reset -/

theorem State.reset_memWf : State.reset.memWf = true :=
  (State.memWf_iff _).2 ⟨⟨twf_nil 0, twf_nil 0, twf_nil 0⟩, List.forall_mem_nil _, List.forall_mem_nil _⟩

/-- Without exact cells and without cores nothing is left to keep. -/
theorem State.storesWf_of_empty {s : State} (hcells : s.cells = []) (hcores : s.cores = []) : s.storesWf = true := by
  simp [State.storesWf, hcells, hcores, tsortedFrom]

theorem State.reset_storesWf : State.reset.storesWf = true := State.storesWf_of_empty rfl rfl

/-- Settles O60: the memories and stores keep their forms because they are empty, and each accessor reads the reset value of
what it names. -/
theorem resetState : Obligations.ResetState := by
  unfold Obligations.ResetState
  refine ⟨State.reset_memWf, State.reset_storesWf, rfl, rfl, rfl, rfl, rfl, rfl, rfl, fun p => ?_, fun c => ?_, fun q => ?_,
    fun f => ?_, State.reset_peek, fun c x n => ?_⟩
  · rw [State.reset_part]
    exact ⟨rfl, rfl⟩
  · rw [State.reset_core]
    rfl
  · rw [State.reset_queue]
    exact ⟨rfl, rfl⟩
  · rw [State.reset_func]
    exact ⟨rfl, rfl⟩
  · rw [State.reset_ctx, Ctx.reset_sreg]
    exact ⟨rfl, rfl⟩

end Sys2Proof.Machine
end

section
/-! SUPPORT. The launch processor's tables: what the accessors read after an update of another table, which bytes an update leaves alone,
and what a queue keeps while slots are taken and given up (R61 to R63). -/

namespace Sys2Proof.Machine

/-! ## Accessors after an update of another table -/

@[simp] theorem State.modQueue_part (s : State) (n m : Nat) (f : Queue → Queue) : (s.modQueue n f).part m = s.part m := rfl
@[simp] theorem State.modQueue_func (s : State) (n m : Nat) (f : Queue → Queue) : (s.modQueue n f).func m = s.func m := rfl
@[simp] theorem State.modPart_queue (s : State) (n m : Nat) (f : Part → Part) : (s.modPart n f).queue m = s.queue m := rfl
@[simp] theorem State.modPart_func (s : State) (n m : Nat) (f : Part → Part) : (s.modPart n f).func m = s.func m := rfl
@[simp] theorem State.modPart_core (s : State) (n m : Nat) (f : Part → Part) : (s.modPart n f).core m = s.core m := rfl
@[simp] theorem State.modFunc_part (s : State) (n m : Nat) (f : Func → Func) : (s.modFunc n f).part m = s.part m := rfl
@[simp] theorem State.modFunc_queue (s : State) (n m : Nat) (f : Func → Func) : (s.modFunc n f).queue m = s.queue m := rfl
@[simp] theorem State.modCore_part (s : State) (n m : Nat) (f : Core → Core) : (s.modCore n f).part m = s.part m := rfl

/-- A byte is read from the slices and the four memories alone. -/
theorem State.peek_congr {s t : State} (hslice : ∀ c, (t.core c).slice = (s.core c).slice) (hstack : t.stack = s.stack)
    (hhost0 : t.host0 = s.host0) (hhost1 : t.host1 = s.host1) (hpeers : t.peers = s.peers) (pa : Nat) : t.peek pa = s.peek pa := by
  simp only [State.peek, hslice, hstack, hhost0, hhost1, hpeers]

@[simp] theorem State.modQueue_peek (s : State) (n pa : Nat) (f : Queue → Queue) : (s.modQueue n f).peek pa = s.peek pa := rfl
@[simp] theorem State.modPart_peek (s : State) (n pa : Nat) (f : Part → Part) : (s.modPart n f).peek pa = s.peek pa := rfl

/-! ## Slots are taken and given up -/

/-- What taking and giving up slots may do to a queue: it keeps its configuration and its packets, and one that drains goes on
draining. -/
structure Queue.Reslotted (x y : Queue) : Prop where
  rest : y = { x with st := y.st, slot := y.slot, mappedAt := y.mappedAt }
  draining : x.st = .draining → y.st = .draining

theorem Queue.Reslotted.refl (x : Queue) : x.Reslotted x := ⟨rfl, id⟩

theorem Queue.Reslotted.trans {x y z : Queue} (h : x.Reslotted y) (g : y.Reslotted z) : x.Reslotted z :=
  ⟨by rw [g.rest, h.rest], fun hx => g.draining (h.draining hx)⟩

namespace Queue.Reslotted
variable {x y : Queue} (h : x.Reslotted y)
include h
theorem head : y.head = x.head := by rw [h.rest]
theorem tail : y.tail = x.tail := by rw [h.rest]
theorem enable : y.enable = x.enable := by rw [h.rest]
theorem teardown : y.teardown = x.teardown := by rw [h.rest]
theorem log2size : y.log2size = x.log2size := by rw [h.rest]
end Queue.Reslotted

/-- A state that differs in its queues and slots alone, and its queues as `Reslotted` says. -/
structure State.Reslots (s t : State) : Prop where
  rest : t = { s with queues := t.queues, slots := t.slots, mapCount := t.mapCount }
  queue : ∀ q, (s.queue q).Reslotted (t.queue q)

theorem State.Reslots.refl (s : State) : s.Reslots s := ⟨rfl, fun _ => .refl _⟩

theorem State.Reslots.trans {s t u : State} (h : s.Reslots t) (g : t.Reslots u) : s.Reslots u :=
  ⟨by rw [g.rest, h.rest], fun q => (h.queue q).trans (g.queue q)⟩

/-- A change of the table of slots alone. -/
theorem State.Reslots.slots (s : State) (ks : Table QSlot) : s.Reslots { s with slots := ks } := ⟨rfl, fun _ => .refl _⟩

/-- A change of one queue that `Reslotted` allows. -/
theorem State.Reslots.modQueue (s : State) (q : Nat) (f : Queue → Queue) (hf : (s.queue q).Reslotted (f (s.queue q))) :
    s.Reslots (s.modQueue q f) := by
  refine ⟨rfl, fun r => ?_⟩
  rw [State.modQueue_queue]
  split_ifs with hr
  · exact hr ▸ hf
  · exact .refl _

theorem State.mapTo_queue (s : State) (k q r : Nat) : (s.mapTo k q).queue r =
    if r = q then { s.queue q with slot := some k, mappedAt := s.mapCount,
                                   st := if (s.queue q).st = QState.draining then .draining else .mapped }
    else s.queue r := by
  rw [State.mapTo, State.modQueue_queue]
  rfl

theorem State.mapTo_reslots (s : State) (k q : Nat) : s.Reslots (s.mapTo k q) := by
  refine ⟨rfl, fun r => ?_⟩
  rw [State.mapTo_queue]
  by_cases hr : r = q
  · subst hr
    rw [if_pos rfl]
    exact ⟨rfl, fun hd => if_pos hd⟩
  · rw [if_neg hr]
    exact .refl _

theorem State.emptied_mapped {s : State} {part q : Nat} (h : s.emptied part q = true) : (s.queue q).st = .mapped := by
  simp only [State.emptied, Bool.and_eq_true, beq_iff_eq] at h
  exact h.1.1

theorem State.not_emptied_of_packets {s : State} {part q : Nat} (h : (s.queue q).head ≠ (s.queue q).tail) :
    s.emptied part q = false := by
  simp [State.emptied, h]

/-- A mapped queue becomes idle without its slot. -/
theorem Queue.Reslotted.idles {x : Queue} (h : x.st = .mapped) : x.Reslotted { x with st := .idle, slot := none } :=
  ⟨rfl, fun hd => by simp [h] at hd⟩

theorem State.serveSlot_reslots (part k : Nat) (qs : List Nat) (s : State) : s.Reslots (State.serveSlot part k qs s) := by
  induction qs generalizing s with
  | nil => exact .refl s
  | cons q qs ih =>
    unfold State.serveSlot
    dsimp only
    split_ifs with he
    · refine (s.mapTo_reslots k q).trans ((State.Reslots.slots _ _).trans (.trans (.modQueue _ q _ ?_) (ih _)))
      exact .idles (State.emptied_mapped he)
    · exact s.mapTo_reslots k q

/-- Only the queues asked for the slot change. -/
theorem State.serveSlot_queue_of_notMem {part k q : Nat} {qs : List Nat} (s : State) (h : q ∉ qs) :
    (State.serveSlot part k qs s).queue q = s.queue q := by
  induction qs generalizing s with
  | nil => rfl
  | cons r qs ih =>
    obtain ⟨hr, hqs⟩ := not_or.mp (mt List.mem_cons.mpr h)
    unfold State.serveSlot
    dsimp only
    split_ifs
    · rw [ih _ hqs, State.modQueue_queue, if_neg hr]
      exact (s.mapTo_queue k r q).trans (if_neg hr)
    · rw [State.mapTo_queue, if_neg hr]

/-- The first queue asked keeps the slot when it has packets. -/
theorem State.serveSlot_cons {part k q : Nat} (qs : List Nat) {s : State} (h : (s.queue q).head ≠ (s.queue q).tail) :
    State.serveSlot part k (q :: qs) s = s.mapTo k q := by
  unfold State.serveSlot
  dsimp only
  rw [State.not_emptied_of_packets (by simpa [State.mapTo_queue] using h)]
  rfl

theorem State.giveUp_reslots (s : State) (part k : Nat) : s.Reslots (s.giveUp part k) :=
  (State.Reslots.slots s _).trans (State.serveSlot_reslots ..)

theorem State.mem_pendingQueues {s : State} {part q : Nat} (h : q ∈ s.pendingQueues part) : s.pendingBit part q = true := by
  simp only [State.pendingQueues, List.mem_filter, Bool.and_eq_true] at h
  exact h.2.2

/-- A slot goes to queues that are pending. -/
theorem State.giveUp_queue_of_not_pending {s : State} {part q : Nat} (k : Nat) (h : s.pendingBit part q = false) :
    (s.giveUp part k).queue q = s.queue q := by
  unfold State.giveUp
  refine State.serveSlot_queue_of_notMem _ ?_
  split
  · rw [List.mem_append, not_or]
    constructor
    · split
      · split_ifs with hr
        · rintro hq
          rw [List.mem_singleton.mp hq, hr] at h
          cases h
        · exact List.not_mem_nil
      · exact List.not_mem_nil
    · intro hq
      rw [State.mem_pendingQueues (List.mem_of_mem_filter hq)] at h
      cases h
  · exact List.not_mem_nil

theorem State.pendingBit_of_pending {s : State} {part q : Nat} (h : (s.queue q).st = .pending) : s.pendingBit part q = true := by
  simp [State.pendingBit, h]

theorem State.not_pendingBit {s : State} {part q : Nat} (hp : (s.queue q).st ≠ .pending) (hd : (s.queue q).st ≠ .draining) :
    s.pendingBit part q = false := by
  simp [State.pendingBit, hp, hd]

/-- The queue that a slot is reserved for gets it. -/
theorem State.giveUp_reserved {s : State} {part k q : Nat} {e : QSlot} (he : tfind s.slots k = some e)
    (hr : e.reservedFor = some q) (hst : (s.queue q).st = .pending) (hne : (s.queue q).head ≠ (s.queue q).tail) :
    ((s.giveUp part k).queue q).st = .mapped := by
  unfold State.giveUp
  simp only [he, Option.bind_some, hr, State.pendingBit_of_pending hst, if_true, Option.isSome_some, List.singleton_append]
  rw [State.serveSlot_cons (s := { s with slots := terase s.slots k }) _ hne, State.mapTo_queue, if_pos rfl]
  exact if_neg fun hd => by cases hst.symm.trans hd

theorem State.evict_reslots (s : State) (part q k : Nat) : s.Reslots (s.evict part q k) := by
  refine (State.Reslots.modQueue s q _ ⟨rfl, fun hd => ?_⟩).trans (State.giveUp_reslots ..)
  exact (if_neg (by rw [hd]; decide)).trans hd

/-- The queue that a slot is reserved for gets it from the queue that loses it. -/
theorem State.evict_reserved {s : State} {part p k q : Nat} {e : QSlot} (he : tfind s.slots k = some e)
    (hr : e.reservedFor = some q) (hst : (s.queue q).st = .pending) (hne : (s.queue q).head ≠ (s.queue q).tail) :
    ((s.evict part p k).queue q).st = .mapped := by
  have keeps : ∀ f : Queue → Queue, (∀ x, x.st = .pending → (f x).st = .pending ∧ (f x).head = x.head ∧ (f x).tail = x.tail) →
      ((s.modQueue p f).queue q).st = .pending ∧ ((s.modQueue p f).queue q).head ≠ ((s.modQueue p f).queue q).tail := by
    intro f hf
    rw [State.modQueue_queue]
    split_ifs with hq
    · obtain ⟨fst, fhead, ftail⟩ := hf _ (hq ▸ hst)
      exact ⟨fst, by rw [fhead, ftail, ← hq]; exact hne⟩
    · exact ⟨hst, hne⟩
  obtain ⟨hst', hne'⟩ := keeps (fun x => { x with slot := none, st := if x.st = QState.mapped then .pending else x.st })
    fun x hx => ⟨by simp [hx], rfl, rfl⟩
  exact State.giveUp_reserved (by exact he) hr hst' hne'

/-! ## A queue asks for a slot (R61) -/

/-- The queue that asks keeps its packets and its configuration. -/
theorem State.askSlot_reslotted (s : State) (part q r : Nat) : (s.queue r).Reslotted ((s.askSlot part q).queue r) := by
  unfold State.askSlot
  dsimp only
  have waits : s.Reslots (s.modQueue q (fun x => { x with st := if x.st = QState.draining then .draining else .pending })) :=
    .modQueue s q _ ⟨rfl, fun hd => if_pos hd⟩
  split
  · exact (s.mapTo_reslots ..).queue r
  · split
    · exact waits.queue r
    · split_ifs
      · exact waits.queue r
      · exact (waits.trans ((State.Reslots.slots _ _).trans (State.evict_reslots ..))).queue r

/-- A queue with packets that asks is mapped or pending, and mapped where a slot of its partition is free. -/
theorem State.askSlot_st {s : State} {part q : Nat} (hst : (s.queue q).st ≠ .draining)
    (hne : (s.queue q).head ≠ (s.queue q).tail) :
    (((s.askSlot part q).queue q).st = .mapped ∨ ((s.askSlot part q).queue q).st = .pending) ∧
    ((∃ k ∈ (s.part part).share, tfind s.slots k = none) → ((s.askSlot part q).queue q).st = .mapped) := by
  unfold State.askSlot
  dsimp only
  split
  · have : ∀ k, ((s.mapTo k q).queue q).st = .mapped := fun k => by simp [State.mapTo_queue, hst]
    exact ⟨.inl (this _), fun _ => this _⟩
  · next hfull =>
    have noFree : ¬ ∃ k ∈ (s.part part).share, tfind s.slots k = none := by
      rintro ⟨k, hk, hf⟩
      exact List.find?_eq_none.mp hfull k hk (by simp [hf])
    refine ⟨?_, fun h => absurd h noFree⟩
    set w := s.modQueue q (fun x => { x with st := if x.st = QState.draining then .draining else .pending }) with hw
    have wst : (w.queue q).st = .pending := by simp [hw, hst]
    have wne : (w.queue q).head ≠ (w.queue q).tail := by simpa [hw] using hne
    split
    · exact .inr wst
    · next k e hv =>
      split_ifs
      · exact .inr wst
      · exact .inl (State.evict_reserved (e := { e with reservedFor := some q }) ((tfind_tput ..).trans (if_pos rfl)) rfl wst wne)

theorem State.Reslots.peek {s t : State} (h : s.Reslots t) (pa : Nat) : t.peek pa = s.peek pa := by rw [h.rest]; rfl
theorem State.Reslots.part {s t : State} (h : s.Reslots t) (n : Nat) : t.part n = s.part n := by rw [h.rest]; rfl

theorem State.askSlot_peek (s : State) (part q pa : Nat) : (s.askSlot part q).peek pa = s.peek pa := by
  unfold State.askSlot
  dsimp only
  split
  · exact (s.mapTo_reslots ..).peek pa
  · split
    · rfl
    · split_ifs
      · rfl
      · exact ((State.Reslots.slots _ _).trans (State.evict_reslots ..)).peek pa

/-! ## What a queue does by itself (R62, R63, R73) -/

/-- What a queue does by itself changes queues and slots alone. -/
theorem State.settleQueue_rest (s : State) (part q : Nat) : s.settleQueue part q =
    { s with queues := (s.settleQueue part q).queues, slots := (s.settleQueue part q).slots
             mapCount := (s.settleQueue part q).mapCount } := by
  have after (f : Queue → Queue) (k : Nat) : (s.modQueue q f).giveUp part k =
      { s with queues := ((s.modQueue q f).giveUp part k).queues, slots := ((s.modQueue q f).giveUp part k).slots
               mapCount := ((s.modQueue q f).giveUp part k).mapCount } := ((s.modQueue q f).giveUp_reslots part k).rest
  unfold State.settleQueue
  dsimp only
  split_ifs
  · split
    · exact after _ _
    · rfl
  · split
    · exact after _ _
    · rfl
  · split
    · split_ifs
      · exact (s.evict_reslots part q _).rest
      · rfl
    · rfl

theorem State.settleQueue_peek (s : State) (part q pa : Nat) : (s.settleQueue part q).peek pa = s.peek pa := by
  rw [s.settleQueue_rest]; rfl
theorem State.settleQueue_part (s : State) (part q n : Nat) : (s.settleQueue part q).part n = s.part n := by
  rw [s.settleQueue_rest]; rfl
theorem State.settleQueue_cores (s : State) (part q : Nat) : (s.settleQueue part q).cores = s.cores := by
  rw [s.settleQueue_rest]
theorem State.settleQueue_reads (s : State) (part q : Nat) : (s.settleQueue part q).reads = s.reads := by
  rw [s.settleQueue_rest]

/-- A queue whose teardown ends is disabled. -/
theorem State.settleQueue_ended {s : State} {part q : Nat} (hst : (s.queue q).st = .draining ∨ (s.queue q).st = .aborting)
    (hn : (s.part part).accepted q = 0) : (s.settleQueue part q).queue q =
      { s.queue q with st := .disabled, enable := false, teardown := false, slot := none } := by
  unfold State.settleQueue
  dsimp only
  rw [if_pos (by simpa [hn] using hst)]
  split
  · rw [State.giveUp_queue_of_not_pending _ (State.not_pendingBit (by simp) (by simp))]
    simp
  · simp

/-- A mapped queue with nothing to do goes idle. -/
theorem State.settleQueue_emptied {s : State} {part q : Nat} (h : s.emptied part q = true) : (s.settleQueue part q).queue q =
      { s.queue q with st := .idle, slot := none } := by
  unfold State.settleQueue
  dsimp only
  rw [if_neg (by simp [State.emptied_mapped h]), if_pos h]
  split
  · rw [State.giveUp_queue_of_not_pending _ (State.not_pendingBit (by simp) (by simp))]
    simp
  · simp

/-- A queue in teardown with accepted launches waits for them, whether it holds a slot or not. -/
theorem State.settleQueue_draining {s : State} {part q : Nat} (hst : (s.queue q).st = .draining)
    (hn : (s.part part).accepted q ≠ 0) : (s.queue q).Reslotted ((s.settleQueue part q).queue q) := by
  unfold State.settleQueue
  dsimp only
  rw [if_neg (by simp [hn]), if_neg (by simp [State.emptied, hst])]
  split
  · split_ifs
    · exact (s.evict_reslots part q _).queue q
    · exact .refl _
  · exact .refl _

/-- Any other queue stays as it is while its slot is not reserved for another. -/
theorem State.settleQueue_stays {s : State} {part q : Nat} (hd : (s.queue q).st ≠ .draining) (ha : (s.queue q).st ≠ .aborting)
    (he : s.emptied part q = false) (hr : ∀ k, (s.queue q).slot = some k → (tfind s.slots k).bind (·.reservedFor) = none) :
    s.settleQueue part q = s := by
  unfold State.settleQueue
  dsimp only
  rw [if_neg (by simp [hd, ha]), if_neg (by simp [he])]
  split
  · next k hk => simp [hr k hk]
  · rfl

end Sys2Proof.Machine
end

section
/-! SUPPORT. The accepted launches of a partition: what an update of a launch leaves alone, and what the launch processor may do to
launches that have not begun (R66 to R72). -/

namespace Sys2Proof.Machine

/-! ## One launch of a partition -/

/-- What a launch keeps from its acceptance on (R67): its number, its queue, its packet and the packet's place. -/
def Launch.identity (l : Launch) : Nat × Nat × Packet × BitVec 32 := (l.num, l.queue, l.pkt, l.qhead)

theorem Launch.identity_eq {l m : Launch} (h : l.identity = m.identity) :
    l.num = m.num ∧ l.queue = m.queue ∧ l.pkt = m.pkt ∧ l.qhead = m.qhead := by
  simpa [Launch.identity] using h

theorem Part.launch?_num {p : Part} {n : Nat} {l : Launch} (h : p.launch? n = some l) : l.num = n := by
  simpa using List.find?_some h

/-- A change of a launch that keeps its number is found under that number. -/
theorem Part.launch?_modLaunch {p : Part} {n : Nat} {l : Launch} {f : Launch → Launch} (h : p.launch? n = some l)
    (hf : (f l).num = l.num) : (p.modLaunch n f).launch? n = some (f l) := by
  have hl := Part.launch?_num h
  unfold Part.launch? Part.modLaunch at *
  dsimp only
  generalize p.launches = ls at h
  induction ls with
  | nil => cases h
  | cons a ls ih =>
    by_cases ha : a.num = n
    · rw [List.find?_cons_of_pos (by simpa using ha)] at h
      obtain rfl := Option.some.inj h
      rw [List.map_cons, if_pos ha, List.find?_cons_of_pos (by simpa [hf] using hl)]
    · rw [List.find?_cons_of_neg (by simpa using ha)] at h
      rw [List.map_cons, if_neg ha, List.find?_cons_of_neg (by simpa using ha)]
      exact ih h

theorem Part.mem_modLaunch {p : Part} {l : Launch} (f : Launch → Launch) (h : l ∈ p.launches) :
    f l ∈ (p.modLaunch l.num f).launches := List.mem_map.mpr ⟨l, h, if_pos rfl⟩

theorem Part.modLaunch_identity (p : Part) (n : Nat) {f : Launch → Launch} (hf : ∀ l, (f l).identity = l.identity) :
    (p.modLaunch n f).launches.map Launch.identity = p.launches.map Launch.identity := by
  simp only [Part.modLaunch, List.map_map]
  refine List.map_congr_left fun l _ => ?_
  simp only [Function.comp_apply]
  split_ifs
  · exact hf l
  · rfl

@[simp] theorem State.modLaunch_part_self (s : State) (o : Owner) (f : Launch → Launch) :
    (s.modLaunch o f).part o.part = (s.part o.part).modLaunch o.launch f := by simp [State.modLaunch]

/-! ## Launches that move on -/

/-- A state in which launches have moved on: they keep their identities, others may begin to retire, and nothing else changes. -/
structure State.MovesLaunches (s t : State) : Prop where
  rest : t = { s with parts := t.parts }
  part : ∀ n, t.part n = { s.part n with launches := (t.part n).launches, retireOrder := (t.part n).retireOrder }
  identities : ∀ n, (t.part n).launches.map Launch.identity = (s.part n).launches.map Launch.identity

namespace State.MovesLaunches

theorem refl (s : State) : s.MovesLaunches s := ⟨rfl, fun _ => rfl, fun _ => rfl⟩

theorem trans {s t u : State} (h : s.MovesLaunches t) (g : t.MovesLaunches u) : s.MovesLaunches u :=
  ⟨by rw [g.rest, h.rest], fun n => by rw [g.part n, h.part n], fun n => (g.identities n).trans (h.identities n)⟩

/-- Steps in a row. -/
theorem foldl {α : Type} {f : State → α → State} (hf : ∀ (s : State) (a : α), s.MovesLaunches (f s a)) (l : List α) (s : State) :
    s.MovesLaunches (l.foldl f s) :=
  List.foldlRecOn l f (refl s) fun t ht a _ => ht.trans (hf t a)

/-- A change of one partition that touches launches and the order of retirement alone. -/
theorem modPart (s : State) (n : Nat) {f : Part → Part}
    (hf : ∀ p, f p = { p with launches := (f p).launches, retireOrder := (f p).retireOrder })
    (hid : ∀ p, (f p).launches.map Launch.identity = p.launches.map Launch.identity) : s.MovesLaunches (s.modPart n f) := by
  refine ⟨rfl, fun m => ?_, fun m => ?_⟩ <;> rw [State.modPart_part] <;> split_ifs with hm
  · exact hm ▸ hf _
  · rfl
  · exact hm ▸ hid _
  · rfl

/-- A change of one launch. -/
theorem modLaunch (s : State) (n num : Nat) {f : Launch → Launch} (hf : ∀ l, (f l).identity = l.identity) :
    s.MovesLaunches (s.modPart n (fun p => p.modLaunch num f)) :=
  .modPart s n (fun _ => rfl) fun p => p.modLaunch_identity num hf

variable {s t : State} (h : s.MovesLaunches t)
include h

theorem queue (q : Nat) : t.queue q = s.queue q := by rw [h.rest]; rfl
theorem func (n : Nat) : t.func n = s.func n := by rw [h.rest]; rfl
theorem core (c : Nat) : t.core c = s.core c := by rw [h.rest]; rfl
theorem peek (pa : Nat) : t.peek pa = s.peek pa := by rw [h.rest]; rfl
theorem hostGet (link addr n : Nat) : t.hostGet link addr n = s.hostGet link addr n := by rw [h.rest]; rfl
theorem objs (n : Nat) : (t.part n).objs = (s.part n).objs := by rw [h.part n]
theorem link (n : Nat) : (t.part n).link = (s.part n).link := by rw [h.part n]; rfl
theorem nextLaunch (n : Nat) : (t.part n).nextLaunch = (s.part n).nextLaunch := by rw [h.part n]

/-- Every launch is still there under its identity. -/
theorem exists_identity {n : Nat} {l : Launch} (hl : l ∈ (s.part n).launches) :
    ∃ m ∈ (t.part n).launches, m.identity = l.identity :=
  List.mem_map.mp ((h.identities n).symm ▸ List.mem_map_of_mem hl)

/-- No launch has come. -/
theorem num_of_mem {n : Nat} {m : Launch} (hm : m ∈ (t.part n).launches) : ∃ l ∈ (s.part n).launches, l.num = m.num := by
  obtain ⟨l, hl, hid⟩ := List.mem_map.mp ((h.identities n) ▸ List.mem_map_of_mem hm)
  exact ⟨l, hl, (Launch.identity_eq hid).1⟩

end State.MovesLaunches

/-! ## Launches that end without running, and waits (R71, R72) -/

theorem State.endUnrun_moves (s : State) (part num : Nat) (st : Status) : s.MovesLaunches (s.endUnrun part num st) :=
  .modPart s part (fun _ => rfl) fun p => p.modLaunch_identity num fun _ => rfl

/-- The launch that ends goes straight to its record with its status. -/
theorem State.endUnrun_launch {s : State} {part : Nat} {l : Launch} (st : Status) (h : l ∈ (s.part part).launches) :
    ∃ m ∈ ((s.endUnrun part l.num st).part part).launches, m.identity = l.identity ∧ m.stage = .record ∧ m.status = st := by
  refine ⟨{ l with stage := .record, status := st, start := l.start.orElse (fun _ => some s.frame), end_ := s.frame }, ?_, rfl, rfl, rfl⟩
  rw [State.endUnrun, State.modPart_part, if_pos rfl]
  exact List.mem_map.mpr ⟨l, h, if_pos rfl⟩

/-- A launch that is the partition's only one stays so. -/
theorem State.endUnrun_single {s : State} {part : Nat} {l : Launch} (st : Status) (h : (s.part part).launches = [l]) :
    ∃ m, ((s.endUnrun part l.num st).part part).launches = [m] ∧ m.identity = l.identity ∧ m.stage = .record ∧ m.status = st := by
  refine ⟨{ l with stage := .record, status := st, start := l.start.orElse (fun _ => some s.frame), end_ := s.frame }, ?_, rfl, rfl, rfl⟩
  rw [State.endUnrun, State.modPart_part, if_pos rfl]
  simp only [Part.modLaunch, h, List.map_cons, List.map_nil, if_true]

theorem State.mem_retireOrder_endUnrun (s : State) (part num : Nat) (st : Status) :
    num ∈ ((s.endUnrun part num st).part part).retireOrder := by
  simp [State.endUnrun]

theorem State.evaluate_moves (s : State) (part num : Nat) (touched : Nat → Bool) : s.MovesLaunches (s.evaluate part num touched) := by
  unfold State.evaluate
  split
  · exact .refl s
  · split
    · exact .refl s
    · split
      · exact s.endUnrun_moves ..
      · dsimp only
        split
        · exact .modLaunch s part num fun _ => rfl
        · split
          · refine State.MovesLaunches.trans ?_ (State.endUnrun_moves ..)
            exact .modLaunch s part num fun _ => rfl
          · refine State.MovesLaunches.trans ?_ (.modLaunch _ part num fun _ => rfl)
            exact .modLaunch s part num fun _ => rfl

/-- A MARKER in step 3 without a wait left ends (R66). -/
theorem State.evaluate_marker {s : State} {part num : Nat} {l : Launch} (touched : Nat → Bool)
    (h : (s.part part).launch? num = some l) (hst : l.stage = .waiting) (hw : l.waitsLeft = []) (hm : l.pkt.marker = true) :
    ∃ f : Launch → Launch, (∀ m, (f m).identity = m.identity) ∧
      s.evaluate part num touched = (s.modPart part (fun p => p.modLaunch num f)).endUnrun part num .ok := by
  unfold State.evaluate
  simp only [h, hst, hw, waitsAfter, hm, bne_self_eq_false, Bool.false_eq_true, if_false, if_true, List.isEmpty_nil, Bool.not_true]
  exact ⟨fun l' => { l' with waitsLeft := [], clk := waitClock (s.part part).objs [] [] l.clk }, fun _ => rfl, rfl⟩

theorem State.evaluateAll_moves (s : State) (part obj : Nat) : s.MovesLaunches (s.evaluateAll part obj) :=
  .foldl (fun t _ => t.evaluate_moves ..) _ s

theorem State.release_moves (s : State) (part : Nat) : s.MovesLaunches (s.release part) := by
  refine .foldl (fun t n => ?_) _ s
  dsimp only
  split
  · exact .refl t
  · split_ifs
    · refine State.MovesLaunches.trans ?_ (State.evaluate_moves ..)
      exact .modLaunch t part n fun _ => rfl
    · exact .refl t

end Sys2Proof.Machine
end

section
/-! SUPPORT. The register page: host memory as the device writes and reads it (R69, R78), and what a host write of each register does
(R56 to R63, R69, R73, R74, R78, R80, R450). -/

namespace Sys2Proof.Machine

/-! ## Host memory -/

@[simp] theorem bytesOf_length (n v : Nat) : (bytesOf n v).length = n := by
  induction n generalizing v with
  | zero => rfl
  | succ n ih => simp [bytesOf, ih]

theorem cellsAt_cons (a : Nat) (b : Byte) (bs : List Byte) : cellsAt a (b :: bs) = (a, b) :: cellsAt (a + 1) bs := by
  simp [cellsAt, List.range_succ_eq_map, Function.comp_def, Nat.add_assoc, Nat.add_comm 1]

theorem hostCells_cons (t : Table Byte) (a : Nat) (b : Byte) (bs : List Byte) :
    hostCells t a (b :: bs) = hostCells (tset 0 t (a % 2 ^ 64) b) (a + 1) bs := by
  simp [hostCells, cellsAt_cons]

/-- Bytes below the first address written stay. -/
theorem tget_hostCells_below {t : Table Byte} {a m : Nat} (bs : List Byte) (h : twf 0 t = true) (hend : a + bs.length ≤ 2 ^ 64)
    (hm : m < a) : tget 0 (hostCells t a bs) m = tget 0 t m := by
  induction bs generalizing t a with
  | nil => rfl
  | cons b bs ih =>
    rw [List.length_cons] at hend
    rw [hostCells_cons, ih (twf_tset 0 t _ b h) (by omega) (by omega), tget_tset 0 t _ m b h,
      if_neg (by rw [Nat.mod_eq_of_lt (by omega)]; omega)]

/-- The bytes written are read back. -/
theorem map_tget_hostCells {t : Table Byte} {a : Nat} {bs : List Byte} (h : twf 0 t = true) (hend : a + bs.length ≤ 2 ^ 64) :
    (List.range bs.length).map (fun i => tget 0 (hostCells t a bs) ((a + i) % 2 ^ 64)) = bs := by
  induction bs generalizing t a with
  | nil => rfl
  | cons b bs ih =>
    rw [List.length_cons] at hend
    have hb := twf_tset 0 t (a % 2 ^ 64) b h
    rw [List.length_cons, List.range_succ_eq_map, List.map_cons, List.map_map, hostCells_cons]
    congr 1
    · rw [tget_hostCells_below bs hb (by omega) (by rw [Nat.mod_eq_of_lt (by omega)]; omega), tget_tset 0 t _ _ b h]
      exact if_pos rfl
    · refine Eq.trans (List.map_congr_left fun i _ => ?_) (ih (a := a + 1) hb (by omega))
      rw [Function.comp_apply, Nat.succ_eq_add_one, show a + (i + 1) = a + 1 + i by omega]

/-- What the device writes to host memory it reads back. -/
theorem State.hostGet_hostPut {s : State} {part addr : Nat} {bs : List Byte} (h : s.memWf = true) (hend : addr + bs.length ≤ 2 ^ 64) :
    (s.hostPut part addr bs).hostGet (s.part part).link addr bs.length = bs := by
  obtain ⟨⟨-, h0, h1⟩, -⟩ := s.memWf_iff.mp h
  unfold State.hostPut State.hostPoke State.hostGet State.hostByte
  split_ifs with hl
  · exact map_tget_hostCells h0 hend
  · exact map_tget_hostCells h1 hend

/-! ## Functions and their partitions (R84) -/

theorem partOfFn_virtual {fn : Nat} (h1 : 1 ≤ fn) (h16 : fn ≤ 16) : partOfFn fn = some (fn - 1) := by simp [partOfFn, h1, h16]

theorem fnOf_pred {fn : Nat} (h1 : 1 ≤ fn) : fnOf (fn - 1) = fn := Nat.sub_add_cancel h1

theorem State.ownQueue_zero (s : State) (q : Nat) : s.ownQueue 0 q = false := rfl

theorem State.ownQueue_virtual {fn : Nat} (s : State) (q : Nat) (h1 : 1 ≤ fn) (h16 : fn ≤ 16) :
    s.ownQueue fn q = (s.part (fn - 1)).ownsQueue q := by simp [State.ownQueue, partOfFn_virtual h1 h16]

theorem Part.ownsQueue_of_desc_none {p : Part} (q : Nat) (h : p.desc = none) : p.ownsQueue q = false := by simp [Part.ownsQueue, h]

/-! ## The registers by their offsets (R56) -/

section
variable {fn : Nat} (s : State) (v : Word) (h : fn ≤ 16)
include h

theorem State.writePage_notify : s.writePage fn 0x000 v = s.writeNotify fn v := if_neg (Nat.not_lt.mpr h)
theorem State.writePage_qctl : s.writePage fn 0x018 v = s.writeQctl fn v := if_neg (Nat.not_lt.mpr h)
theorem State.writePage_objset : s.writePage fn 0x038 v = s.writeObjset fn v := if_neg (Nat.not_lt.mpr h)
theorem State.writePage_ephcons : s.writePage fn 0x058 v = s.writeEphcons fn v := if_neg (Nat.not_lt.mpr h)
theorem State.writePage_loglimit : s.writePage fn 0x068 v = s.writeLoglimit fn v := if_neg (Nat.not_lt.mpr h)
theorem State.writePage_logprod : s.writePage fn 0x070 v = s.writeLogprod fn v := if_neg (Nat.not_lt.mpr h)
theorem State.writePage_mbdoor : s.writePage fn 0x408 v = s.ringDoor fn := if_neg (Nat.not_lt.mpr h)

end

/-! ## NOTIFY (R57, R60 to R62) -/

theorem State.writeNotify_foreign {s : State} {fn : Nat} {v : Word} (h : s.ownQueue fn (v.toNat % 4096) = false) :
    s.writeNotify fn v = s.setFstat fn fstatFOREIGN := by
  unfold State.writeNotify
  split
  · rfl
  · exact if_pos (by simp [h])

/-- The tail that a NOTIFY sets, with what the host has observed. -/
def State.notified (u : State) (q : Nat) (tail : BitVec 32) : State :=
  u.modQueue q (fun x => { x with tail := tail, clk := u.hostClock })

section
variable {s : State} {fn : Nat} {v : Word} (h1 : 1 ≤ fn) (h16 : fn ≤ 16) (hown : s.ownQueue fn (v.toNat % 4096) = true)
include h1 h16 hown

theorem State.writeNotify_far
    (hfar : 2 ^ (((s.logNotify (fn - 1) (v.toNat % 4096)).queue (v.toNat % 4096)).log2size + 4) <
      (v.extractLsb' 32 32 - ((s.logNotify (fn - 1) (v.toNat % 4096)).queue (v.toNat % 4096)).head).toNat) :
    s.writeNotify fn v = (s.logNotify (fn - 1) (v.toNat % 4096)).modQueue (v.toNat % 4096) (fun x => { x with badtail := true }) := by
  simp only [State.writeNotify, partOfFn_virtual h1 h16, hown, Bool.not_true, Bool.false_eq_true, if_false]
  exact if_pos hfar

theorem State.writeNotify_near
    (hnear : ¬ 2 ^ (((s.logNotify (fn - 1) (v.toNat % 4096)).queue (v.toNat % 4096)).log2size + 4) <
      (v.extractLsb' 32 32 - ((s.logNotify (fn - 1) (v.toNat % 4096)).queue (v.toNat % 4096)).head).toNat) :
    s.writeNotify fn v =
      let q := v.toNat % 4096
      let u := s.logNotify (fn - 1) q
      let w := u.notified q (v.extractLsb' 32 32)
      if (u.queue q).st = .idle ∧ v.extractLsb' 32 32 ≠ (u.queue q).head then w.askSlot (fn - 1) q
      else w.settleQueue (fn - 1) q := by
  simp only [State.writeNotify, partOfFn_virtual h1 h16, hown, Bool.not_true, Bool.false_eq_true, if_false, if_neg hnear,
    Bool.and_eq_true, beq_iff_eq, bne_iff_ne]
  rfl

end

theorem State.notified_queue (u : State) (q : Nat) (tail : BitVec 32) :
    (u.notified q tail).queue q = { u.queue q with tail := tail, clk := u.hostClock } := by simp [State.notified]

/-- Whether the queue has nothing to do once its tail is set. -/
theorem State.notified_emptied (u : State) (part q : Nat) (tail : BitVec 32) : (u.notified q tail).emptied part q = true ↔
    (u.queue q).st = .mapped ∧ tail = (u.queue q).head ∧ (u.part part).accepted q = 0 := by
  have hp : (u.notified q tail).part part = u.part part := rfl
  simp [State.emptied, State.notified_queue, hp, and_assoc, eq_comm (a := tail)]

/-- The tail moves within the ring and the queue need not change its state. -/
theorem State.notified_stays {u : State} {part q : Nat} {tail : BitVec 32} (hd : (u.queue q).st ≠ .draining)
    (ha : (u.queue q).st ≠ .aborting)
    (he : ¬ ((u.queue q).st = .mapped ∧ tail = (u.queue q).head ∧ (u.part part).accepted q = 0))
    (hr : ∀ k, (u.queue q).slot = some k → (tfind u.slots k).bind (·.reservedFor) = none) :
    (u.notified q tail).settleQueue part q = u.notified q tail := by
  refine State.settleQueue_stays ?_ ?_ (Bool.eq_false_iff.mpr (mt (u.notified_emptied part q tail).mp he)) ?_
  · rw [State.notified_queue]; exact hd
  · rw [State.notified_queue]; exact ha
  · rw [State.notified_queue]; exact hr

/-- A mapped queue left without packets and launches goes idle. -/
theorem State.notified_idles {u : State} {part q : Nat} {tail : BitVec 32}
    (he : (u.queue q).st = .mapped ∧ tail = (u.queue q).head ∧ (u.part part).accepted q = 0) :
    let t := (u.notified q tail).settleQueue part q
    (t.queue q).st = .idle ∧ (t.queue q).slot = none ∧ (t.queue q).tail = tail ∧ ∀ pa, t.peek pa = u.peek pa := by
  intro t
  have ht : t.queue q = _ := State.settleQueue_emptied ((u.notified_emptied part q tail).mpr he)
  rw [State.notified_queue] at ht
  rw [ht]
  exact ⟨rfl, rfl, rfl, State.settleQueue_peek _ part q⟩

/-- An idle queue with packets is mapped or pending. -/
theorem State.notified_asks {u : State} {part q : Nat} {tail : BitVec 32} (hst : (u.queue q).st = .idle)
    (hne : tail ≠ (u.queue q).head) :
    let t := (u.notified q tail).askSlot part q
    (t.queue q).tail = tail ∧ (t.queue q).head = (u.queue q).head ∧ ((t.queue q).st = .mapped ∨ (t.queue q).st = .pending) ∧
    ((∃ k ∈ (u.part part).share, tfind u.slots k = none) → (t.queue q).st = .mapped) ∧ ∀ pa, t.peek pa = u.peek pa := by
  intro t
  have keeps := (u.notified q tail).askSlot_reslotted part q q
  have asks : ((t.queue q).st = .mapped ∨ (t.queue q).st = .pending) ∧
      ((∃ k ∈ (u.part part).share, tfind u.slots k = none) → (t.queue q).st = .mapped) := by
    refine State.askSlot_st (s := u.notified q tail) ?_ ?_
    · rw [State.notified_queue, hst]; decide
    · rw [State.notified_queue]; exact hne.symm
  refine ⟨?_, ?_, asks.1, asks.2, State.askSlot_peek _ part q⟩
  · rw [keeps.tail, State.notified_queue]
  · rw [keeps.head, State.notified_queue]

/-! ## QCTL (R58, R63, R73, R74, R87) -/

/-- The fields of QCTL that a write stores in the queue that QSEL names. -/
def State.stored (s : State) (fn : Nat) (v : Word) : State :=
  s.modQueue (s.func fn).qsel (fun x =>
    { x with log2size := (v.extractLsb' 4 4).toNat, preempt := v.getLsbD 1, abort := v.getLsbD 3 })

/-- Whether a write of QCTL asks for a size above 12, or for another size or another PREEMPT of an enabled queue. -/
def State.oddQctl (s : State) (fn : Nat) (v : Word) : Prop :=
  12 < (v.extractLsb' 4 4).toNat ∨ ((s.queue (s.func fn).qsel).enable = true ∧
    ((v.extractLsb' 4 4).toNat ≠ (s.queue (s.func fn).qsel).log2size ∨ v.getLsbD 1 ≠ (s.queue (s.func fn).qsel).preempt))

theorem State.stored_queue (s : State) (fn : Nat) (v : Word) : (s.stored fn v).queue (s.func fn).qsel =
    { s.queue (s.func fn).qsel with
        log2size := (v.extractLsb' 4 4).toNat, preempt := v.getLsbD 1, abort := v.getLsbD 3 } := by simp [State.stored]

section
variable {s : State} {fn : Nat} {v : Word} (h1 : 1 ≤ fn) (h16 : fn ≤ 16)
include h1 h16

theorem State.writeQctl_foreign (hown : s.ownQueue fn (s.func fn).qsel = false) (hdesc : (s.part (fn - 1)).desc ≠ none) :
    s.writeQctl fn v = s := by
  have : (s.part (fn - 1)).desc.isNone = false := Option.isNone_eq_false_iff.mpr (Option.isSome_iff_ne_none.mpr hdesc)
  simp [State.writeQctl, partOfFn_virtual h1 h16, hown, this]

theorem State.writeQctl_uninstalled (hdesc : (s.part (fn - 1)).desc = none) (hen : v.getLsbD 0 = true) :
    s.writeQctl fn v = s.setFstat fn fstatCFGERR := by
  have hown : s.ownQueue fn (s.func fn).qsel = false := by
    rw [State.ownQueue_virtual s _ h1 h16, Part.ownsQueue_of_desc_none _ hdesc]
  simp [State.writeQctl, partOfFn_virtual h1 h16, hown, hdesc, hen]

variable (hown : s.ownQueue fn (s.func fn).qsel = true)
include hown

theorem State.writeQctl_odd (hodd : s.oddQctl fn v) : s.writeQctl fn v = s.setFstat fn fstatCFGERR := by
  simp only [State.writeQctl, partOfFn_virtual h1 h16, hown, Bool.not_true, Bool.false_eq_true, if_false]
  refine if_pos ?_
  simp only [Bool.or_eq_true, Bool.and_eq_true, decide_eq_true_eq, bne_iff_ne]
  exact hodd.imp_right fun h => ⟨h.1, .inl h.2⟩

variable (hodd : ¬ s.oddQctl fn v)
include hodd

/-- A write that is not refused stores its fields, and then acts on the queue. -/
theorem State.writeQctl_acts (hbit : v.getLsbD 0 = true ∨ v.getLsbD 2 = true) : s.writeQctl fn v =
    if (s.queue (s.func fn).qsel).enable then
      (if v.getLsbD 2 then (s.stored fn v).tearDown (fn - 1) (s.func fn).qsel (v.getLsbD 3) else s.stored fn v)
    else if v.getLsbD 0 then
      let u := (s.stored fn v).modQueue (s.func fn).qsel (fun x => { x with enable := true })
      if (s.queue (s.func fn).qsel).head = (s.queue (s.func fn).qsel).tail then
        u.modQueue (s.func fn).qsel (fun x => { x with st := .idle })
      else u.askSlot (fn - 1) (s.func fn).qsel
    else s.stored fn v := by
  simp only [State.writeQctl, partOfFn_virtual h1 h16, hown, Bool.not_true, Bool.false_eq_true, if_false]
  rw [if_neg]
  · simp only [beq_iff_eq]
    rfl
  · simp only [Bool.or_eq_true, Bool.and_eq_true, decide_eq_true_eq, bne_iff_ne, Bool.not_eq_true']
    rintro (h | ⟨he, h | h⟩)
    · exact hodd (.inl h)
    · exact hodd (.inr ⟨he, h⟩)
    · rw [h.1, h.2] at hbit
      simp at hbit

theorem State.writeQctl_keeps (hen : v.getLsbD 0 = true) (htd : v.getLsbD 2 = false) (he : (s.queue (s.func fn).qsel).enable = true) :
    s.writeQctl fn v = s.stored fn v := by
  rw [State.writeQctl_acts h1 h16 hown hodd (.inl hen), if_pos he, htd]
  rfl

theorem State.writeQctl_enables_idle (hen : v.getLsbD 0 = true) (he : (s.queue (s.func fn).qsel).enable = false)
    (hempty : (s.queue (s.func fn).qsel).head = (s.queue (s.func fn).qsel).tail) : s.writeQctl fn v =
      s.modQueue (s.func fn).qsel (fun x =>
        { x with log2size := (v.extractLsb' 4 4).toNat, preempt := v.getLsbD 1, abort := v.getLsbD 3, enable := true, st := .idle }) := by
  rw [State.writeQctl_acts h1 h16 hown hodd (.inl hen), he, hen]
  simp only [Bool.false_eq_true, if_false, if_true, hempty, State.stored, State.modQueue_modQueue]

/-- A queue that is enabled with packets asks for a slot. -/
theorem State.writeQctl_enables_asking (hen : v.getLsbD 0 = true) (he : (s.queue (s.func fn).qsel).enable = false)
    (hne : (s.queue (s.func fn).qsel).head ≠ (s.queue (s.func fn).qsel).tail) (hst : (s.queue (s.func fn).qsel).st ≠ .draining) :
    let x := (s.writeQctl fn v).queue (s.func fn).qsel
    x.enable = true ∧ x.log2size = (v.extractLsb' 4 4).toNat ∧ (x.st = .mapped ∨ x.st = .pending) := by
  rw [State.writeQctl_acts h1 h16 hown hodd (.inl hen), he, hen]
  simp only [Bool.false_eq_true, if_false, if_true, if_neg hne]
  set u := (s.stored fn v).modQueue (s.func fn).qsel (fun x => { x with enable := true })
  have hu : u.queue (s.func fn).qsel = { s.queue (s.func fn).qsel with
      log2size := (v.extractLsb' 4 4).toNat, preempt := v.getLsbD 1, abort := v.getLsbD 3, enable := true } := by
    simp [u, State.stored_queue]
  have keeps := u.askSlot_reslotted (fn - 1) (s.func fn).qsel (s.func fn).qsel
  refine ⟨?_, ?_, (State.askSlot_st ?_ ?_).1⟩
  · rw [keeps.enable, hu]
  · rw [keeps.log2size, hu]
  · rw [hu]; exact hst
  · rw [hu]; exact hne

theorem State.writeQctl_tearsDown (htd : v.getLsbD 2 = true) (he : (s.queue (s.func fn).qsel).enable = true) :
    s.writeQctl fn v = (s.stored fn v).tearDown (fn - 1) (s.func fn).qsel (v.getLsbD 3) := by
  rw [State.writeQctl_acts h1 h16 hown hodd (.inr htd), if_pos he, if_pos htd]

end

/-- A teardown without ABORT begins: the queue drains. -/
theorem State.tearDown_drains {s : State} {part q : Nat}
    (hst : (s.queue q).st = .idle ∨ (s.queue q).st = .pending ∨ (s.queue q).st = .mapped) : s.tearDown part q false =
      (s.modQueue q (fun x => { x with teardown := true, abort := false, st := .draining })).settleQueue part q := by
  simp [State.tearDown, or_assoc, hst]

/-- A teardown with ABORT begins: the launches of the queue are aborted. -/
theorem State.tearDown_aborts {s : State} {part q : Nat}
    (hst : (s.queue q).st = .idle ∨ (s.queue q).st = .pending ∨ (s.queue q).st = .mapped) : s.tearDown part q true =
      ((s.modQueue q (fun x => { x with teardown := true, abort := true, st := .aborting })).abortQueue part q).settleQueue part q := by
  simp [State.tearDown, or_assoc, hst]

/-- A queue that drains is disabled at once where no launch of it is accepted, and waits for them otherwise. -/
theorem State.settleQueue_drains {s : State} {part q : Nat} (hst : (s.queue q).st = .draining) (htd : (s.queue q).teardown = true)
    (hen : (s.queue q).enable = true) :
    let x := (s.settleQueue part q).queue q
    ((s.part part).accepted q = 0 → x.st = .disabled ∧ x.enable = false ∧ x.teardown = false ∧ x.slot = none) ∧
    ((s.part part).accepted q ≠ 0 → x.st = .draining ∧ x.teardown = true ∧ x.enable = true) := by
  refine ⟨fun hn => ?_, fun hn => ?_⟩
  · rw [State.settleQueue_ended (.inl hst) hn]
    exact ⟨rfl, rfl, rfl, rfl⟩
  · have keeps := State.settleQueue_draining hst hn
    exact ⟨keeps.draining hst, keeps.teardown.trans htd, keeps.enable.trans hen⟩

/-! ## Aborts (R74, R433) -/

theorem State.abortQueue_frozen (s : State) (part q : Nat) : ((s.abortQueue part q).part part).frozen = false := by
  simp [State.abortQueue, State.unfreeze]

theorem State.abortQueue_nil {s : State} {part : Nat} (q : Nat) (h : (s.part part).launches = []) :
    s.abortQueue part q = s.unfreeze part := by
  simp [State.abortQueue, h]

/-- A running launch of the queue begins to retire ABORTED. -/
theorem State.abortQueue_running {s : State} {part : Nat} {l : Launch} (h : (s.part part).launches = [l])
    (hst : l.stage = .running) :
    s.abortQueue part l.queue = (s.endLaunch { part := part, launch := l.num, lcore := 0 } .aborted).unfreeze part := by
  simp [State.abortQueue, h, hst]

/-- A launch of the queue that waits ends ABORTED without running. -/
theorem State.abortQueue_waiting {s : State} {part : Nat} {l : Launch} (h : (s.part part).launches = [l])
    (hst : l.stage = .serial ∨ l.stage = .waiting ∨ l.stage = .placing) (hs : l.saved = []) :
    s.abortQueue part l.queue = (s.endUnrun part l.num .aborted).unfreeze part := by
  rcases hst with hst | hst | hst <;> simp [State.abortQueue, State.leaveSaved, h, hst, hs]

/-! ## Objects (R69) -/

/-- What a change of an object does: the object and its copy in host memory, and then launches that wait on it move on. -/
theorem State.changeObject_moves (s : State) (part obj : Nat) (f : Obj → Obj) :
    ((s.modPart part (fun p => { p with objs := tmod Obj.reset p.objs obj f })).copyObject part obj).MovesLaunches
      (s.changeObject part obj f) := State.evaluateAll_moves ..

theorem State.copyObject_rest (s : State) (part obj : Nat) : s.copyObject part obj =
    { s with host0 := (s.copyObject part obj).host0, host1 := (s.copyObject part obj).host1 } := by
  unfold State.copyObject State.hostPut State.hostPoke
  dsimp only
  split_ifs <;> rfl

theorem State.copyObject_part (s : State) (part obj n : Nat) : (s.copyObject part obj).part n = s.part n := by
  rw [State.copyObject_rest]; rfl

theorem State.changeObject_objs (s : State) (part obj n : Nat) (f : Obj → Obj) :
    tget Obj.reset ((s.changeObject part obj f).part part).objs n =
      if n = obj then f (tget Obj.reset (s.part part).objs obj) else tget Obj.reset (s.part part).objs n := by
  rw [(s.changeObject_moves part obj f).objs, State.copyObject_part, State.modPart_part, if_pos rfl, tget_tmod]

theorem State.changeObject_cores (s : State) (part obj : Nat) (f : Obj → Obj) : (s.changeObject part obj f).cores = s.cores := by
  rw [(s.changeObject_moves part obj f).rest, State.copyObject_rest]; rfl

theorem State.changeObject_msix (s : State) (part obj : Nat) (f : Obj → Obj) : (s.changeObject part obj f).msix = s.msix := by
  rw [(s.changeObject_moves part obj f).rest, State.copyObject_rest]; rfl

/-- The 16 bytes of an object in host memory. -/
def Obj.bytes (o : Obj) : List Byte :=
  bytesOf 4 o.val.toNat ++ bytesOf 2 o.status.code ++ bytesOf 2 0 ++ bytesOf 8 o.last.toNat

theorem Obj.bytes_length (o : Obj) : o.bytes.length = 16 := by simp [Obj.bytes]

/-- The copy of an object that changes is read back. -/
theorem State.changeObject_copy {s : State} {part obj : Nat} (f : Obj → Obj) (h : s.memWf = true)
    (hend : (s.func (fnOf part)).objbase + 16 * obj + 16 ≤ 2 ^ 64) :
    (s.changeObject part obj f).hostGet (s.part part).link ((s.func (fnOf part)).objbase + 16 * obj) 16 =
      (f (tget Obj.reset (s.part part).objs obj)).bytes := by
  rw [(s.changeObject_moves part obj f).hostGet]
  set u := s.modPart part (fun p => { p with objs := tmod Obj.reset p.objs obj f })
  have hobj : tget Obj.reset (u.part part).objs obj = f (tget Obj.reset (s.part part).objs obj) := by simp [u]
  have hlink : (u.part part).link = (s.part part).link := by simp [u, Part.link]
  have hread := State.hostGet_hostPut (s := u) (part := part) (bs := (tget Obj.reset (u.part part).objs obj).bytes)
    (addr := (s.func (fnOf part)).objbase + 16 * obj) h (by rw [Obj.bytes_length]; exact hend)
  rw [Obj.bytes_length, hlink] at hread
  rw [← hobj]
  exact hread

/-- The copy of an object set by the host: its value, status OK and the launch that signalled it last. -/
theorem Obj.bytes_set (o : Obj) (v : Word) (c : Clock) :
    ({ o with val := v.extractLsb' 32 32, status := .ok, clk := c } : Obj).bytes =
      bytesOf 4 (v.toNat / 2 ^ 32) ++ bytesOf 4 0 ++ bytesOf 8 o.last.toNat := by
  have hval : (v.extractLsb' 32 32).toNat = v.toNat / 2 ^ 32 := by
    have := v.isLt
    rw [BitVec.extractLsb'_toNat, Nat.shiftRight_eq_div_pow]
    omega
  simp only [Obj.bytes, hval, List.append_assoc, Status.code]
  rfl

theorem State.writeObjset_virtual {fn : Nat} (s : State) (v : Word) (h1 : 1 ≤ fn) (h16 : fn ≤ 16) : s.writeObjset fn v =
    s.changeObject (fn - 1) (v.toNat % 4096) (fun o =>
      { o with val := v.extractLsb' 32 32, status := .ok, clk := o.clk.join s.hostClock }) := by
  simp only [State.writeObjset, partOfFn_virtual h1 h16]

/-! ## EPHCONS, LOGLIMIT and LOGPROD (R78, R80, R81) -/

theorem State.limited_fits {fn : Nat} (s : State) (v : Word) (h1 : 1 ≤ fn) :
    ((s.modFunc fn (fun f => { f with loglimit := v })).func (fnOf (fn - 1))).fits =
      decide ((s.func fn).logprod.toNat + 32 ≤ v.toNat) := by
  rw [fnOf_pred h1]
  simp [Func.fits]

section
variable {fn : Nat} (s : State) (v : Word) (h1 : 1 ≤ fn) (h16 : fn ≤ 16)
include h1 h16

theorem State.writeEphcons_virtual : s.writeEphcons fn v =
    let u := s.modFunc fn (fun f => { f with ephcons := v.setWidth 32 })
    if u.recordWaits (fn - 1) then u.setFstat fn fstatEPHFULL else u := by
  simp only [State.writeEphcons, partOfFn_virtual h1 h16]

theorem State.writeLoglimit_virtual : s.writeLoglimit fn v =
    let g := s.modFunc fn (fun f => { f with loglimit := v })
    if (s.part (fn - 1)).logWait.isEmpty then g else State.flushLog ((s.part (fn - 1)).logWait.length + 1) g (fn - 1) := by
  simp only [State.writeLoglimit, partOfFn_virtual h1 h16]
  rfl

theorem State.writeLoglimit_none (h : (s.part (fn - 1)).logWait = []) :
    s.writeLoglimit fn v = s.modFunc fn (fun f => { f with loglimit := v }) := by
  rw [State.writeLoglimit_virtual s v h1 h16, h]
  rfl

/-- An entry that waits and fits now is written, and the partition goes on. -/
theorem State.writeLoglimit_flushes {bs : List Byte} (h : (s.part (fn - 1)).logWait = [bs])
    (hfits : (s.func fn).logprod.toNat + 32 ≤ v.toNat) : s.writeLoglimit fn v =
      (((s.modFunc fn (fun f => { f with loglimit := v })).putEntry (fn - 1) bs).modPart (fn - 1)
        (fun p => { p with logWait := [] })).unstallPart (fn - 1) .logStall := by
  have hg : ((s.modFunc fn (fun f => { f with loglimit := v })).part (fn - 1)).logWait = [bs] := h
  rw [State.writeLoglimit_virtual s v h1 h16, h]
  simp only [List.isEmpty_cons, Bool.false_eq_true, if_false, List.length_singleton, State.flushLog, hg,
    State.limited_fits s v h1, hfits, decide_true, if_true, State.modPart_part]

/-- While the first entry that waits does not fit, none is written. -/
theorem State.writeLoglimit_waits {b : List Byte} {bs : List (List Byte)} (h : (s.part (fn - 1)).logWait = b :: bs)
    (hfull : v.toNat < (s.func fn).logprod.toNat + 32) : s.writeLoglimit fn v = s.modFunc fn (fun f => { f with loglimit := v }) := by
  have hg : ((s.modFunc fn (fun f => { f with loglimit := v })).part (fn - 1)).logWait = b :: bs := h
  rw [State.writeLoglimit_virtual s v h1 h16, h]
  simp only [List.isEmpty_cons, Bool.false_eq_true, if_false, State.flushLog, hg, State.limited_fits s v h1,
    Nat.not_le.mpr hfull, decide_false]

theorem State.writeLogprod_refused (h : (∃ l ∈ (s.part (fn - 1)).launches, l.record = true ∨ l.replay = true) ∨
    v.toNat % 32 ≠ 0 ∨ (s.func fn).loglimit.toNat ≤ v.toNat) : s.writeLogprod fn v = s.setFstat fn fstatCFGERR := by
  simp only [State.writeLogprod, partOfFn_virtual h1 h16]
  refine if_pos ?_
  simpa [BitVec.ule_iff_le, BitVec.le_def, or_assoc] using h

theorem State.writeLogprod_sets (h : ¬ ((∃ l ∈ (s.part (fn - 1)).launches, l.record = true ∨ l.replay = true) ∨
    v.toNat % 32 ≠ 0 ∨ (s.func fn).loglimit.toNat ≤ v.toNat)) :
    s.writeLogprod fn v = s.modFunc fn (fun f => { f with logprod := v }) := by
  simp only [State.writeLogprod, partOfFn_virtual h1 h16]
  refine if_neg (mt (fun hb => ?_) h)
  simpa [BitVec.ule_iff_le, BitVec.le_def, or_assoc] using hb

end

/-! ## The other registers -/

theorem exec_registerWrite (fn off : Nat) (v : Word) (s : State) :
    exec (.registerWrite fn off v) s = .next (s.writePage fn off v) := by rfl

/-- A write that changes a register of the function alone, and what the register then reads. -/
theorem exec_registerWrite_reads {s : State} {fn off : Nat} {v w : Word} {f : Func → Func}
    (hw : s.writePage fn off v = s.modFunc fn f) (hr : (s.modFunc fn f).readPage fn off = w) :
    ∃ t : State, exec (.registerWrite fn off v) s = .next t ∧ t.readPage fn off = w ∧ t.queues = s.queues ∧ t.parts = s.parts ∧
      t.cores = s.cores := 
  ⟨_, (exec_registerWrite ..).trans (congrArg _ hw), hr, rfl, rfl, rfl⟩

/-- At any other offset a write changes nothing. -/
theorem State.writePage_other {off : Nat} (s : State) (fn : Nat) (v : Word)
    (h : off ∉ [0x000, 0x008, 0x010, 0x018, 0x028, 0x030, 0x038, 0x040, 0x048, 0x058, 0x060, 0x068, 0x070, 0x080, 0x400, 0x408]) :
    s.writePage fn off v = s := by
  unfold State.writePage
  dsimp only
  split
  · rfl
  · split
    case h_17 => rfl
    all_goals exact absurd (by decide) h

/-! ## Host writes as events -/

section
variable {fn : Nat} (v : Word) (s : State) (h : fn ≤ 16)
include h

theorem exec_notify : exec (.notify fn v) s = .next (s.writeNotify fn v) := congrArg Host.Outcome.next (s.writePage_notify v h)
theorem exec_objset : exec (.objset fn v) s = .next (s.writeObjset fn v) := congrArg Host.Outcome.next (s.writePage_objset v h)
theorem exec_ephconsWrite : exec (.ephconsWrite fn v) s = .next (s.writeEphcons fn v) :=
  congrArg Host.Outcome.next (s.writePage_ephcons v h)
theorem exec_loglimitWrite : exec (.loglimitWrite fn v) s = .next (s.writeLoglimit fn v) :=
  congrArg Host.Outcome.next (s.writePage_loglimit v h)
theorem exec_logprodWrite : exec (.logprodWrite fn v) s = .next (s.writeLogprod fn v) :=
  congrArg Host.Outcome.next (s.writePage_logprod v h)

theorem exec_queueEnable : exec (.queueEnable fn v) s =
    .next (if v.getLsbD 0 && !v.getLsbD 2 then s.writeQctl fn v else s) := by
  rw [← s.writePage_qctl v h]; rfl
theorem exec_teardown : exec (.teardown fn v) s = .next (if v.getLsbD 2 && !v.getLsbD 3 then s.writeQctl fn v else s) := by
  rw [← s.writePage_qctl v h]; rfl
theorem exec_teardownAbort : exec (.teardownAbort fn v) s =
    .next (if v.getLsbD 2 && v.getLsbD 3 then s.writeQctl fn v else s) := by
  rw [← s.writePage_qctl v h]; rfl

end

/-- A write of QCTL that enables, and asks for no teardown. -/
theorem exec_queueEnable_set {fn : Nat} {v : Word} (s : State) (h : fn ≤ 16) (hen : v.getLsbD 0 = true)
    (htd : v.getLsbD 2 = false) : exec (.queueEnable fn v) s = .next (s.writeQctl fn v) := by
  rw [exec_queueEnable v s h, hen, htd]; rfl

/-- The registers of a page that hold what is written to them, each by its offset. -/
theorem registerWrite_reads (fn : Nat) (v : Word) (s : State) (h1 : 1 ≤ fn) (h16 : fn ≤ 16) :
    let reads (off : Nat) (w : Nat) : Prop := ∃ t : State, exec (.registerWrite fn off v) s = .next t ∧
      t.readPage fn off = BitVec.ofNat 64 w ∧ t.queues = s.queues ∧ t.parts = s.parts ∧ t.cores = s.cores
    reads 0x030 (v.toNat / 2 ^ 16 * 2 ^ 16) ∧ reads 0x040 (v.toNat / 2 ^ 7 * 2 ^ 7) ∧ reads 0x048 (v.toNat % 16) ∧
    reads 0x060 (v.toNat % 2 ^ 56 / 32 * 32) ∧ reads 0x400 (v.toNat / 2 ^ 6 * 2 ^ 6) ∧
    reads 0x080 ((s.func fn).fstat &&& ~~~(v.setWidth 4)).toNat ∧
    (s.ownQueue fn (v.toNat % 4096) = true → reads 0x008 (v.toNat % 4096)) := by
  have h : ¬ 16 < fn := Nat.not_lt.mpr h16
  have h0 : fn ≠ 0 := Nat.one_le_iff_ne_zero.mp h1
  refine ⟨?_, ?_, ?_, ?_, ?_, ?_, fun hown => ?_⟩
  · exact exec_registerWrite_reads (f := fun f => { f with objbase := lowClear v 16 }) (by simp [State.writePage, h, h0])
      (by simp [State.readPage, h, h0, lowClear])
  · exact exec_registerWrite_reads (f := fun f => { f with ephbase := lowClear v 7 }) (by simp [State.writePage, h, h0])
      (by simp [State.readPage, h, h0, lowClear])
  · exact exec_registerWrite_reads (f := fun f => { f with ephctl := v.toNat % 16 }) (by simp [State.writePage, h, h0])
      (by simp [State.readPage, h, h0])
  · exact exec_registerWrite_reads (f := fun f => { f with logbase := v.toNat % 2 ^ 56 / 32 * 32 })
      (by simp [State.writePage, h, h0]) (by simp [State.readPage, h, h0])
  · exact exec_registerWrite_reads (f := fun f => { f with mbaddr := lowClear v 6 }) (by simp [State.writePage, h])
      (by simp [State.readPage, h, lowClear])
  · exact exec_registerWrite_reads (f := fun f => { f with fstat := f.fstat &&& ~~~(v.setWidth 4) }) (by simp [State.writePage, h])
      (by simp [State.readPage, h])
  · exact exec_registerWrite_reads (f := fun f => { f with qsel := v.toNat % 4096 }) (by simp [State.writePage, h, hown])
      (by simp [State.readPage, h, h0])

/-- Settles O51, register by register: what each write does is said by the lemmas of its register above. -/
theorem registerPageWrites : Obligations.RegisterPageWrites := by
  unfold Obligations.RegisterPageWrites
  refine ⟨fun fn v s => ⟨?foreign, fun h1 h16 hown => ⟨fun hfar => ?far, fun hnear hd ha he hi hr => ?stays, fun hnear he => ?idles,
      fun hnear hst hne => ?asks⟩⟩,
    fun fn v s h1 h16 => ⟨fun hbit => ?ignored, fun hen htd => ⟨fun hown hdesc => ?other, fun hdesc => ?uninstalled,
      fun hown hodd => ?odd, fun hown hodd he => ?enabled, fun hown hodd he hempty => ?enablesIdle,
      fun hown hodd he hne hst => ?enablesAsking⟩, fun htd hab hown hodd he hst => ?drains, fun htd hab hown hodd he hst => ?aborts⟩,
    fun s part q => ⟨s.abortQueue_frozen part q, rfl⟩, fun s part q l hl hq => ⟨fun hst => ?abortRunning, fun hst hs => ?abortWaiting⟩,
    fun fn v s h1 h16 hwf => ?objset, fun v s => exec_objset v s (Nat.zero_le 16),
    fun fn v s h1 h16 => ⟨fun hw => ?ephFull, fun hw => ?ephRoom, fun hw => ?limitNone, fun bs hw hf => ?limitFits,
      fun b bs hw hf => ?limitWaits, fun hbad => ?prodBad, fun hgood => ?prodGood⟩,
    fun fn v s h1 h16 => ?registers, fun fn off v s h => ?noPage⟩
  case foreign =>
    rintro (rfl | ⟨h16, hown⟩)
    · rw [exec_notify v s (Nat.zero_le 16), State.writeNotify_foreign (s.ownQueue_zero _)]
    · rw [exec_notify v s h16, State.writeNotify_foreign hown]
  case far => rw [exec_notify v s h16, State.writeNotify_far h1 h16 hown hfar]
  case stays =>
    rw [exec_notify v s h16, State.writeNotify_near h1 h16 hown hnear]
    dsimp only
    rw [if_neg fun h => hi.elim (fun hn => hn h.1) h.2, State.notified_stays hd ha he hr]
    rfl
  case idles =>
    refine ⟨_, ?_, State.notified_idles he⟩
    rw [exec_notify v s h16, State.writeNotify_near h1 h16 hown hnear]
    exact congrArg _ (if_neg fun h => h.2 he.2.1)
  case asks =>
    refine ⟨_, ?_, State.notified_asks hst hne⟩
    rw [exec_notify v s h16, State.writeNotify_near h1 h16 hown hnear]
    exact congrArg _ (if_pos ⟨hst, hne⟩)
  case ignored =>
    rw [exec_queueEnable v s h16, if_neg]
    rcases hbit with h | h <;> rw [h] <;> simp
  case other => rw [exec_queueEnable_set s h16 hen htd, State.writeQctl_foreign h1 h16 hown hdesc]
  case uninstalled => rw [exec_queueEnable_set s h16 hen htd, State.writeQctl_uninstalled h1 h16 hdesc hen]
  case odd => rw [exec_queueEnable_set s h16 hen htd, State.writeQctl_odd h1 h16 hown hodd]
  case enabled =>
    rw [exec_queueEnable_set s h16 hen htd, State.writeQctl_keeps h1 h16 hown hodd hen htd he]
    rfl
  case enablesIdle => rw [exec_queueEnable_set s h16 hen htd, State.writeQctl_enables_idle h1 h16 hown hodd hen he hempty]
  case enablesAsking =>
    exact ⟨_, exec_queueEnable_set s h16 hen htd, State.writeQctl_enables_asking h1 h16 hown hodd hen he hne hst⟩
  case drains =>
    have hqst := s.stored_queue fn v
    set u := ((s.stored fn v).modQueue (s.func fn).qsel (fun x => { x with teardown := true, abort := false, st := .draining }))
      with hu
    have hex : exec (.teardown fn v) s = .next (u.settleQueue (fn - 1) (s.func fn).qsel) := by
      rw [exec_teardown v s h16, htd, hab, State.writeQctl_tearsDown h1 h16 hown hodd htd he, hab,
        State.tearDown_drains (by rw [hqst]; exact hst)]
      rfl
    obtain ⟨ended, waits⟩ := State.settleQueue_drains (s := u) (part := fn - 1) (q := (s.func fn).qsel) (by simp [hu])
      (by simp [hu]) (by simp [hu, hqst, he])
    exact ⟨_, hex, ended, waits, by rw [State.settleQueue_part]; rfl, State.settleQueue_peek u _ _⟩
  case aborts =>
    have hex : exec (.teardownAbort fn v) s = .next ((((s.stored fn v).modQueue (s.func fn).qsel (fun x =>
        { x with teardown := true, abort := true, st := .aborting })).abortQueue (fn - 1) (s.func fn).qsel).settleQueue (fn - 1)
          (s.func fn).qsel) := by
      rw [exec_teardownAbort v s h16, htd, hab, State.writeQctl_tearsDown h1 h16 hown hodd htd he, hab,
        State.tearDown_aborts (by rw [s.stored_queue]; exact hst)]
      rfl
    refine ⟨hex, fun hnil => ⟨_, hex, ?_⟩⟩
    rw [State.abortQueue_nil _ (by exact hnil), State.settleQueue_ended]
    · exact ⟨rfl, rfl, rfl⟩
    · exact .inr (by simp [State.unfreeze])
    · simp [State.unfreeze, Part.accepted, State.stored, hnil]
  case abortRunning => rw [← hq, State.abortQueue_running hl hst]
  case abortWaiting =>
    obtain ⟨m, hm, hid, hstage, hstatus⟩ := State.endUnrun_single .aborted hl
    rw [← hq, State.abortQueue_waiting hl hst hs]
    exact ⟨m, by rw [State.unfreeze, State.modPart_part, if_pos rfl]; exact hm, (Launch.identity_eq hid).1, hstage, hstatus⟩
  case objset =>
    intro part n at_ o hend
    have hfn : fnOf (fn - 1) = fn := fnOf_pred h1
    refine ⟨_, exec_objset v s h16, ?_⟩
    rw [State.writeObjset_virtual s v h1 h16]
    refine ⟨?_, fun k hk => ?_, ?_, State.changeObject_cores ..⟩
    · rw [State.changeObject_objs, if_pos rfl]
    · rw [State.changeObject_objs, if_neg hk]
    · have hcopy := State.changeObject_copy (part := fn - 1) (obj := n) (fun o =>
        { o with val := v.extractLsb' 32 32, status := .ok, clk := o.clk.join s.hostClock }) hwf (by rw [hfn]; exact hend)
      rw [hfn] at hcopy
      exact hcopy.trans (Obj.bytes_set ..)
  case ephFull => rw [exec_ephconsWrite v s h16, State.writeEphcons_virtual s v h1 h16]; exact congrArg _ (if_pos hw)
  case ephRoom =>
    rw [exec_ephconsWrite v s h16, State.writeEphcons_virtual s v h1 h16]
    exact congrArg _ (if_neg (Bool.eq_false_iff.mp hw))
  case limitNone => rw [exec_loglimitWrite v s h16, State.writeLoglimit_none s v h1 h16 hw]
  case limitFits => rw [exec_loglimitWrite v s h16, State.writeLoglimit_flushes s v h1 h16 hw hf]
  case limitWaits => rw [exec_loglimitWrite v s h16, State.writeLoglimit_waits s v h1 h16 hw hf]
  case prodBad => rw [exec_logprodWrite v s h16, State.writeLogprod_refused s v h1 h16 hbad]
  case prodGood => rw [exec_logprodWrite v s h16, State.writeLogprod_sets s v h1 h16 hgood]
  case registers =>
    obtain ⟨objbase, ephbase, ephctl, logbase, mbaddr, fstat, qsel⟩ := registerWrite_reads fn v s h1 h16
    refine ⟨objbase, ephbase, ephctl, logbase, mbaddr, fstat, qsel, fun hown => ?_, fun hb => ?_, fun hb => ?_, fun off hoff => ?_⟩
    · rw [exec_registerWrite]
      exact congrArg _ (by simp [State.writePage, Nat.not_lt.mpr h16, hown])
    · rw [exec_registerWrite, State.writePage_mbdoor s v h16, State.ringDoor, if_pos hb]
    · rw [exec_registerWrite, State.writePage_mbdoor s v h16, State.ringDoor, hb]
      rfl
    · rw [exec_registerWrite, State.writePage_other s fn v hoff]
  case noPage => rw [exec_registerWrite]; exact congrArg _ (if_pos h)

end Sys2Proof.Machine
end

section
/-! SUPPORT. Launches from their packets on: acceptance (R60, R65 to R68), placement and load (R93 to R95), retirement and records
(R77, R78, R438 to R441), and the saving of a tenant (R430). -/

namespace Sys2Proof.Machine

/-! ## Reads of a partition's memory (R66) -/

/-- Two states in which the launch processor reads the same bytes: partitions translate alike, and bytes, masks and links are the
same. -/
structure State.ReadsAlike (s t : State) : Prop where
  desc : ∀ n, (t.part n).desc = (s.part n).desc
  leaves : ∀ n, (t.part n).leaves = (s.part n).leaves
  ranges : ∀ n, (t.part n).ranges = (s.part n).ranges
  blockMask : ∀ pa, t.blockMask pa = s.blockMask pa
  peek : ∀ pa, t.peek pa = s.peek pa
  reachable : ∀ pa, t.reachable pa = s.reachable pa

namespace State.ReadsAlike
variable {s t : State} (h : s.ReadsAlike t)
include h

theorem checkByte (a : Access) (va : Nat) : t.checkByte a va = s.checkByte a va := by
  have htr : ∀ n, (t.part n).translate va = (s.part n).translate va := fun n => by
    simp only [Part.translate, Part.rangeAt, Part.leafAt, h.leaves n, h.ranges n]
  have hlin : ∀ pa, t.linear pa = s.linear pa := fun pa => by
    have hports : ∀ n, (t.part n).portList = (s.part n).portList := fun n => by simp only [Part.portList, h.desc n]
    unfold State.linear
    split
    · simp only [hports]
    · rfl
  simp only [State.checkByte, h.blockMask, htr, hlin]

theorem checkSpan (a : Access) (va n : Nat) : t.checkSpan a va n = s.checkSpan a va n := by
  induction n generalizing va with
  | zero => rfl
  | succ n ih => simp only [State.checkSpan, h.checkByte, ih]

theorem readVirtual (part va n : Nat) : t.readVirtual part va n = s.readVirtual part va n := by
  simp only [State.readVirtual, h.checkSpan, h.reachable, State.peeks, funext h.peek]

theorem readImage (part va : Nat) : t.readImage part va = s.readImage part va := by
  simp only [State.readImage, h.readVirtual]

end State.ReadsAlike

/-! ## The first steps of a launch (R66, R68) -/

/-- A packet that breaks R65 or names another partition, or whose image or table cannot be read, ends its launch at once. -/
inductive State.Refused (s : State) (part : Nat) (bs : List Byte) : Status → Prop
  | bad (h : badPacket bs = true) : s.Refused part bs .badPacket
  | foreign (h : badPacket bs = false) (hp : (packetOf bs).part ≠ part) : s.Refused part bs .badPartition
  | unreadable (h : badPacket bs = false) (hp : (packetOf bs).part = part) (hm : (packetOf bs).marker = false)
      (hr : s.readImage part (packetOf bs).image = .unreadable ∨ s.readVirtual part (packetOf bs).bindings 144 = none) :
      s.Refused part bs .badImage

theorem State.Refused.status_unique {s : State} {part : Nat} {bs : List Byte} {st st' : Status} (h : s.Refused part bs st)
    (h' : s.Refused part bs st') : st' = st := by
  cases h <;> cases h' <;> simp_all

theorem State.Refused.congr {s t : State} {part : Nat} {bs : List Byte} {st : Status} (h : s.Refused part bs st)
    (alike : s.ReadsAlike t) : t.Refused part bs st := by
  cases h with
  | bad h => exact .bad h
  | foreign h hp => exact .foreign h hp
  | unreadable h hp hm hr => exact .unreadable h hp hm (by rwa [alike.readImage, alike.readVirtual])

theorem State.firstSteps_refused {s : State} {part num : Nat} {bs : List Byte} {st : Status} (h : s.Refused part bs st) :
    s.firstSteps part num bs = s.endUnrun part num st := by
  unfold State.firstSteps
  cases h with
  | bad h => exact if_pos h
  | foreign h hp => simp [h, hp]
  | unreadable h hp hm hr =>
    simp only [h, hp, hm, Bool.false_eq_true, if_false, ne_eq, not_true_eq_false]
    rcases hr with hr | hr
    · rw [hr]
    · rw [hr]
      cases s.readImage part (packetOf bs).image <;> rfl

theorem State.firstSteps_marker {s : State} {part num : Nat} {bs : List Byte} (h : badPacket bs = false)
    (hp : (packetOf bs).part = part) (hm : (packetOf bs).marker = true) :
    s.firstSteps part num bs = s.evaluate part num (fun _ => true) := by
  simp [State.firstSteps, h, hp, hm]

theorem State.firstSteps_moves (s : State) (part num : Nat) (bs : List Byte) : s.MovesLaunches (s.firstSteps part num bs) := by
  unfold State.firstSteps
  dsimp only
  split
  · exact s.endUnrun_moves ..
  split
  · exact s.endUnrun_moves ..
  split
  · exact s.evaluate_moves ..
  split
  · exact s.endUnrun_moves ..
  · exact s.endUnrun_moves ..
  · split
    · refine State.MovesLaunches.trans ?_ (State.release_moves ..)
      exact .modLaunch s part num fun _ => rfl
    · refine State.MovesLaunches.trans ?_ (State.evaluate_moves ..)
      refine State.MovesLaunches.trans ?_ (.modLaunch _ part num fun _ => rfl)
      exact .modLaunch s part num fun _ => rfl

/-! ## PACKET_ACCEPT (R60, R67) -/

/-- The launch that a packet becomes has joined its partition, and the head of its queue has advanced. -/
def State.joined (s : State) (part queue : Nat) (l : Launch) : State :=
  (s.modPart part (fun p => { p with nextLaunch := l.num + 1, launches := p.launches ++ [l] })).modQueue queue
    (fun x => { x with head := x.head + 1 })

/-- The launch of the packet at a queue's head. -/
def State.nextOf (s : State) (part queue : Nat) (bs : List Byte) : Launch :=
  newLaunch (s.part part).nextLaunch queue (packetOf bs) (s.queue queue).head (s.queue queue).clk

theorem State.joined_part (s : State) (part queue : Nat) (l : Launch) : (s.joined part queue l).part part =
    { s.part part with nextLaunch := l.num + 1, launches := (s.part part).launches ++ [l] } := by
  simp [State.joined]

theorem State.joined_readsAlike (s : State) (part queue : Nat) (l : Launch) : s.ReadsAlike (s.joined part queue l) := by
  have alike : ∀ n, ((s.joined part queue l).part n).desc = (s.part n).desc ∧ ((s.joined part queue l).part n).leaves = (s.part n).leaves ∧
      ((s.joined part queue l).part n).ranges = (s.part n).ranges := fun n => by
    by_cases hn : n = part
    · subst hn
      rw [State.joined_part]
      exact ⟨rfl, rfl, rfl⟩
    · simp [State.joined, hn]
  exact ⟨fun n => (alike n).1, fun n => (alike n).2.1, fun n => (alike n).2.2, fun _ => rfl, fun _ => rfl, fun _ => rfl⟩

theorem State.joined_launch? {s : State} {part queue : Nat} {l : Launch} (h : ∀ m ∈ (s.part part).launches, m.num ≠ l.num) :
    ((s.joined part queue l).part part).launch? l.num = some l := by
  rw [State.joined_part, Part.launch?, List.find?_append, List.find?_eq_none.mpr (by simpa using h)]
  simp

theorem State.joined_mem (s : State) (part queue : Nat) (l : Launch) : l ∈ ((s.joined part queue l).part part).launches := by
  simp [State.joined_part]

section
variable {s : State} {queue part : Nat} {p : Part} {ok : Bool} (hfind : s.parts.find? (fun e => e.2.ownsQueue queue) = some (part, p))
include hfind

theorem exec_packetAccept_idle
    (h : ¬ ((s.queue queue).st = .mapped ∧ (s.queue queue).head ≠ (s.queue queue).tail ∧ p.accepted queue < 16)) :
    exec (.packetAccept queue ok) s = .next s := by
  show execPacketAccept queue ok s = _
  simp only [execPacketAccept, hfind]
  refine if_pos ?_
  simp only [Bool.or_eq_true, bne_iff_ne, beq_iff_eq, decide_eq_true_eq]
  by_contra hc
  push Not at hc
  exact h ⟨hc.1.1, hc.1.2, hc.2⟩

variable (h : (s.queue queue).st = .mapped ∧ (s.queue queue).head ≠ (s.queue queue).tail ∧ p.accepted queue < 16)
include h

theorem exec_packetAccept_fails (hup : ¬ (ok = true ∧ (if p.link = 0 then s.linkUp0 else s.linkUp1) = true)) :
    exec (.packetAccept queue ok) s =
      .next ((s.modQueue queue (fun x => { x with readerr := true })).tearDown part queue false) := by
  show execPacketAccept queue ok s = _
  obtain ⟨hst, hne, hn⟩ := h
  simp only [execPacketAccept, hfind, hst, bne_self_eq_false, Bool.false_or, beq_eq_false_iff_ne.mpr hne, Nat.not_le.mpr hn,
    decide_false, Bool.false_eq_true, if_false]
  refine if_pos ?_
  rw [← Bool.not_and, Bool.not_eq_true', Bool.eq_false_iff, ne_eq, Bool.and_eq_true]
  exact hup

theorem exec_packetAccept_accepts (hp : s.part part = p) (hup : ok = true ∧ (if p.link = 0 then s.linkUp0 else s.linkUp1) = true) :
    let bs := s.hostGet p.link ((s.queue queue).base + 64 * ((s.queue queue).head.toNat % 2 ^ ((s.queue queue).log2size + 4))) 64
    exec (.packetAccept queue ok) s =
      .next ((s.joined part queue (s.nextOf part queue bs)).firstSteps part p.nextLaunch bs) := by
  show execPacketAccept queue ok s = _
  obtain ⟨hst, hne, hn⟩ := h
  obtain ⟨rfl, hlink⟩ := hup
  subst hp
  simp only [execPacketAccept, hfind, hst, bne_self_eq_false, Bool.false_or, beq_eq_false_iff_ne.mpr hne, Nat.not_le.mpr hn,
    decide_false, Bool.false_eq_true, if_false, Bool.not_true, hlink]
  rfl

end

/-- What the first steps leave of a launch that has just joined its partition. -/
theorem State.joined_firstSteps {s : State} {part queue num : Nat} {bs : List Byte} {head : BitVec 32} {clk : Clock}
    (hnew : ∀ m ∈ (s.part part).launches, m.num ≠ num) :
    let l := newLaunch num queue (packetOf bs) head clk
    ∃ m ∈ (((s.joined part queue l).firstSteps part num bs).part part).launches, m.identity = l.identity ∧
      (∀ st, s.Refused part bs st → m.stage = .record ∧ m.status = st) ∧
      (badPacket bs = false → (packetOf bs).part = part → (packetOf bs).marker = true →
        (∀ w ∈ (packetOf bs).waits, w.getLsbD 31 = false) → m.stage = .record ∧ m.status = .ok) := by
  intro l
  have hl : l ∈ ((s.joined part queue l).part part).launches := s.joined_mem part queue l
  by_cases hr : ∃ st, s.Refused part bs st
  · obtain ⟨st, hst⟩ := hr
    obtain ⟨m, hm, hid, hstage, hstatus⟩ := State.endUnrun_launch st hl
    refine ⟨m, ?_, hid, fun st' hst' => ⟨hstage, hstatus.trans (hst'.status_unique hst)⟩, fun hb hp hmk _ => ?_⟩
    · rw [State.firstSteps_refused (hst.congr (s.joined_readsAlike part queue l))]
      exact hm
    · cases hst <;> simp_all
  · by_cases hmk : badPacket bs = false ∧ (packetOf bs).part = part ∧ (packetOf bs).marker = true ∧
        ∀ w ∈ (packetOf bs).waits, w.getLsbD 31 = false
    · obtain ⟨hb, hp, hmark, hwaits⟩ := hmk
      have hleft : l.waitsLeft = [] := List.filter_eq_nil_iff.mpr fun w hw => Bool.eq_false_iff.mp (hwaits w hw)
      have hjoined : ((s.joined part queue l).part part).launch? num = some l := State.joined_launch? hnew
      obtain ⟨f, hf, hev⟩ := State.evaluate_marker (fun _ => true) hjoined rfl hleft hmark
      have hnum : ∀ m, (f m).num = m.num := fun m => (Launch.identity_eq (hf m)).1
      have hfl : f l ∈ (((s.joined part queue l).modPart part (fun p => p.modLaunch num f)).part part).launches := by
        rw [State.modPart_part, if_pos rfl]
        exact Part.mem_modLaunch f hl
      obtain ⟨m, hm, hid, hend⟩ := State.endUnrun_launch .ok hfl
      refine ⟨m, ?_, hid.trans (hf l), fun st hst => absurd ⟨st, hst⟩ hr, fun _ _ _ _ => hend⟩
      rw [State.firstSteps_marker hb hp hmark, hev]
      rw [hnum] at hm
      exact hm
    · obtain ⟨m, hm, hid⟩ := (State.firstSteps_moves (s.joined part queue l) part num bs).exists_identity hl
      exact ⟨m, hm, hid, fun st hst => absurd ⟨st, hst⟩ hr, fun hb hp hmark hw => absurd ⟨hb, hp, hmark, hw⟩ hmk⟩

/-! ## Placement (R93 to R95) -/

theorem Core.installResident_keeps (k : Core) (ms : List MicroRec) :
    k.installResident ms = { k with ustore := (k.installResident ms).ustore, routines := (k.installResident ms).routines } := by
  unfold Core.installResident
  refine List.foldlRecOn (motive := fun a : Core × Nat => a.1 = { k with ustore := a.1.ustore, routines := a.1.routines }) _ _ rfl
    fun a ha i _ => ?_
  split
  · rw [Core.install, ha]
  · exact ha

/-- A core as a placement leaves it: only the micro store, the routine table, the rings and the layout records are the image's. -/
theorem Core.placed_keeps (k : Core) (o : Owner) (code : List Byte) (img : Image) (ds : List DeclRec) :
    let t := k.placed o code img ds
    t = { Core.reset with
            owner := some o, ibank0 := bankOf code, slice := k.slice, fe := k.fe, bmask := k.bmask
            ustore := t.ustore, routines := t.routines, rings := t.rings, layouts := t.layouts } := by
  unfold Core.placed
  dsimp only
  refine List.foldlRecOn (motive := fun t : Core => t = { Core.reset with
    owner := some o, ibank0 := bankOf code, slice := k.slice, fe := k.fe, bmask := k.bmask
    ustore := t.ustore, routines := t.routines, rings := t.rings, layouts := t.layouts }) _ _ ?_ fun t ht d _ => ?_
  · rw [Core.installResident_keeps]
  · split
    · split
      · rw [ht]
      · exact ht
    · rw [ht]
    · exact ht

/-- The last step of PLACE_AND_LOAD: a launch in step 4 whose image has been checked is placed, if it can be. -/
def State.tryPlace (u : State) (part num : Nat) : Out :=
  match (u.part part).launch? num with
  | none => .next u
  | some l =>
    match l.stage, l.image with
    | .placing, some img =>
      let n := l.pkt.contexts / l.pkt.perCore
      let free := u.freeCores part
      if free.length < n || !u.diesCover l (free.take n) then .next u else .next (u.placeOn part l img (free.take n))
    | _, _ => .next u

section
variable {s : State} {part : Nat} {l : Launch}

theorem exec_placeAndLoad_none (h : s.recordWaits part = true ∨ (s.part part).frozen = true ∨
    (s.part part).launches.find? s.placeable = none) : exec (.placeAndLoad part) s = .next s := by
  show execPlaceAndLoad part s = _
  unfold execPlaceAndLoad
  by_cases hw : (s.recordWaits part || (s.part part).frozen) = true
  · rw [if_pos hw]
  · rw [if_neg hw]
    rw [Bool.or_eq_true, not_or] at hw
    rw [(h.resolve_left hw.1).resolve_left hw.2]

variable (hwait : s.recordWaits part = false) (hfrozen : (s.part part).frozen = false)
  (hfind : (s.part part).launches.find? s.placeable = some l)
include hwait hfrozen hfind

/-- The launch found is checked first, if its image has not been read. -/
theorem exec_placeAndLoad_found : exec (.placeAndLoad part) s =
    (if l.image.isSome then s else s.checkLaunch part l).tryPlace part l.num := by
  show execPlaceAndLoad part s = _
  unfold execPlaceAndLoad
  rw [hwait, hfrozen, hfind]
  rfl

/-- A launch whose image has been read and checked takes cores. -/
theorem exec_placeAndLoad_image (himg : l.image ≠ none) :
    exec (.placeAndLoad part) s = s.tryPlace part l.num := by
  rw [exec_placeAndLoad_found hwait hfrozen hfind, if_pos (Option.isSome_iff_ne_none.mpr himg)]

/-- A launch whose image has not been read is checked. -/
theorem exec_placeAndLoad_check (himg : l.image = none) :
    exec (.placeAndLoad part) s = (s.checkLaunch part l).tryPlace part l.num := by
  rw [exec_placeAndLoad_found hwait hfrozen hfind, himg]
  rfl

end

/-- A launch that ends at its check is not placed. -/
theorem State.tryPlace_ended {s : State} {part : Nat} {l : Launch} (st : Status) (h : (s.part part).launch? l.num = some l) :
    (s.endUnrun part l.num st).tryPlace part l.num = .next (s.endUnrun part l.num st) := by
  have hend : ((s.endUnrun part l.num st).part part).launch? l.num =
      some { l with stage := .record, status := st, start := l.start.orElse (fun _ => some s.frame), end_ := s.frame } := by
    rw [State.endUnrun, State.modPart_part, if_pos rfl]
    exact Part.launch?_modLaunch h rfl
  simp only [State.tryPlace, hend]

/-- A launch waits while too few cores are free, or while their dies have not applied what comes before it. -/
theorem State.tryPlace_waits {u : State} {part : Nat} {l : Launch} {img : Image} (h : (u.part part).launch? l.num = some l)
    (hst : l.stage = .placing) (himg : l.image = some img)
    (hwait : (u.freeCores part).length < l.pkt.contexts / l.pkt.perCore ∨
      u.diesCover l ((u.freeCores part).take (l.pkt.contexts / l.pkt.perCore)) = false) : u.tryPlace part l.num = .next u := by
  simp only [State.tryPlace, h, hst, himg]
  exact if_pos (by simpa using hwait)

/-- It is placed on the lowest free cores once there are enough. -/
theorem State.tryPlace_places {u : State} {part : Nat} {l : Launch} {img : Image} (h : (u.part part).launch? l.num = some l)
    (hst : l.stage = .placing) (himg : l.image = some img)
    (hfree : l.pkt.contexts / l.pkt.perCore ≤ (u.freeCores part).length)
    (hdies : u.diesCover l ((u.freeCores part).take (l.pkt.contexts / l.pkt.perCore)) = true) :
    u.tryPlace part l.num = .next (u.placeOn part l img ((u.freeCores part).take (l.pkt.contexts / l.pkt.perCore))) := by
  simp only [State.tryPlace, h, hst, himg]
  exact if_neg (by simp [hdies, hfree])

/-! ## The check of an image (R54, R66) -/

section
variable {s : State} {part : Nat} {l : Launch}

theorem State.checkLaunch_unreadable (h : s.readVirtual part l.pkt.image 64 = none) :
    s.checkLaunch part l = s.endUnrun part l.num .badImage := by
  simp only [State.checkLaunch, State.readImage, h]

variable {hd bs : List Byte} (h : s.readVirtual part l.pkt.image 64 = some hd)
include h

theorem State.checkLaunch_malformed (hok : headerOk hd = false) :
    s.checkLaunch part l = s.endUnrun part l.num (.load .eFormat) := by
  simp [State.checkLaunch, State.readImage, h, hok]

variable (hok : headerOk hd = true)
include hok

theorem State.checkLaunch_truncated (hbs : s.readVirtual part l.pkt.image (imageLength hd) = none) :
    s.checkLaunch part l = s.endUnrun part l.num .badImage := by
  simp [State.checkLaunch, State.readImage, h, hok, hbs]

variable (hbs : s.readVirtual part l.pkt.image (imageLength hd) = some bs)
include hbs

theorem State.checkLaunch_formless (himg : imageOfBytes bs = none) :
    s.checkLaunch part l = s.endUnrun part l.num (.load .eFormat) := by
  simp [State.checkLaunch, State.readImage, h, hok, hbs, himg]

/-- The launch notes the digest of the image that it has read. -/
def State.noted (s : State) (part : Nat) (l : Launch) (img : Image) : State :=
  s.modLaunch { part := part, launch := l.num, lcore := 0 } (fun l => { l with imgDigest := some img.digest })

variable {img : Image} {v : DepthVerdict} (himg : imageOfBytes bs = some (img, v))
include himg

theorem State.checkLaunch_fails {e : LoadErr} (he : ((s.noted part l img).part part).loadError l bs img v = some e) :
    s.checkLaunch part l = (s.noted part l img).endUnrun part l.num (.load e) := by
  unfold State.noted at *
  simp [State.checkLaunch, State.readImage, h, hok, hbs, himg, he]

theorem State.checkLaunch_passes (he : ((s.noted part l img).part part).loadError l bs img v = none) :
    s.checkLaunch part l = (s.noted part l img).modLaunch { part := part, launch := l.num, lcore := 0 }
      (fun l => { l with image := some img }) := by
  unfold State.noted at *
  simp [State.checkLaunch, State.readImage, h, hok, hbs, himg, he]

end

section
variable {s : State} {part : Nat} {l : Launch} (h : (s.part part).launch? l.num = some l) (img : Image)
include h

theorem State.noted_launch? : ((s.noted part l img).part part).launch? l.num = some { l with imgDigest := some img.digest } := by
  rw [State.noted, State.modLaunch_part_self]
  exact Part.launch?_modLaunch h rfl

theorem State.passed_launch? :
    (((s.noted part l img).modLaunch { part := part, launch := l.num, lcore := 0 } (fun l => { l with image := some img })).part
      part).launch? l.num = some { l with imgDigest := some img.digest, image := some img } := by
  rw [State.modLaunch_part_self]
  exact Part.launch?_modLaunch (f := fun l => { l with image := some img }) (State.noted_launch? h img) rfl

end

/-- A change of launches frees no core. -/
theorem State.modLaunch_freeCores (s : State) (o : Owner) (f : Launch → Launch) :
    (s.modLaunch o f).freeCores o.part = s.freeCores o.part := by
  unfold State.freeCores
  rw [State.modLaunch_part_self]
  rfl

theorem State.placeable_stage {s : State} {part : Nat} {l : Launch} (h : (s.part part).launches.find? s.placeable = some l) :
    l.stage = .placing := by
  have := List.find?_some h
  simp only [State.placeable, Bool.and_eq_true, beq_iff_eq] at this
  exact this.1

/-! ## Cores that are left (R94, R438) -/

/-- Cores changed in a row: what the change brings about on each of them. -/
theorem foldl_modCore_core {f : Core → Core} {P : Core → Prop} (hf : ∀ k, P (f k)) (cs : List Nat) (s : State) :
    ∀ c ∈ cs, P ((cs.foldl (fun s c => s.modCore c f) s).core c) := by
  induction cs using List.reverseRecOn with
  | nil => exact fun _ h => absurd h List.not_mem_nil
  | append_singleton cs d ih =>
    intro c hc
    rw [List.foldl_concat, State.modCore_core]
    split_ifs with hd
    · exact hf _
    · exact ih c ((List.mem_append.mp hc).resolve_right fun h => hd (List.mem_singleton.mp h))

/-- What the change keeps of every core. -/
theorem foldl_modCore_keeps {α : Type} {f : Core → Core} {g : Core → α} (hf : ∀ k, g (f k) = g k) (cs : List Nat) (s : State)
    (c : Nat) : g ((cs.foldl (fun s c => s.modCore c f) s).core c) = g (s.core c) := by
  refine List.foldlRecOn (motive := fun t : State => g (t.core c) = g (s.core c)) cs _ rfl fun t ht d _ => ?_
  rw [State.modCore_core]
  split_ifs with hd
  · rw [hf, ← hd, ht]
  · exact ht

/-- Nothing but cores changes. -/
theorem foldl_modCore_rest (f : Core → Core) (cs : List Nat) (s : State) : cs.foldl (fun s c => s.modCore c f) s =
    { s with cores := (cs.foldl (fun s c => s.modCore c f) s).cores } :=
  List.foldlRecOn (motive := fun t : State => t = { s with cores := t.cores }) cs _ rfl fun t ht d _ => by
    rw [State.modCore, ht]

/-- Cores that keep their slices keep every byte. -/
theorem foldl_modCore_peek {f : Core → Core} (hf : ∀ k, (f k).slice = k.slice) (cs : List Nat) (s : State) (pa : Nat) :
    (cs.foldl (fun s c => s.modCore c f) s).peek pa = s.peek pa := by
  have rest := foldl_modCore_rest f cs s
  exact State.peek_congr (foldl_modCore_keeps hf cs s) (by rw [rest]) (by rw [rest]) (by rw [rest]) (by rw [rest]) pa

/-! ## LAUNCH_RETIREMENT (R438 to R441) -/

/-- The launch of a partition whose retirement began first. -/
def Part.retiringFirst (p : Part) : Option Launch := p.retireOrder.head?.bind p.launch?

/-- What step 1 does with the faults that the copies of a launch meet: they are taken as SKIP. -/
def State.faultsSkipped (s : State) (l : Launch) : State := l.cores.foldl (fun s c => four.foldl (fun s x => s.skipFaulted c x) s) s

theorem exec_launchRetirement_none {s : State} {part : Nat} (h : (s.part part).retiringFirst = none) :
    exec (.launchRetirement part) s = .next s := by
  show execLaunchRetirement part s = _
  unfold Part.retiringFirst at h
  simp only [execLaunchRetirement, h]

section
variable {s : State} {part : Nat} {l : Launch} (h : (s.part part).retiringFirst = some l)
include h

theorem exec_launchRetirement_other (hr : l.stage ≠ .retiring) (hf : l.stage ≠ .freeing) :
    exec (.launchRetirement part) s = .next s := by
  show execLaunchRetirement part s = _
  unfold Part.retiringFirst at h
  simp only [execLaunchRetirement, h]

theorem exec_launchRetirement_freeing (hst : l.stage = .freeing) :
    exec (.launchRetirement part) s = .next (s.dropLaunch part l) := by
  show execLaunchRetirement part s = _
  unfold Part.retiringFirst at h
  simp only [execLaunchRetirement, h, hst]

theorem State.digestTurn_retiring (hst : l.stage = .retiring) : s.digestTurn part =
    (s.faultsSkipped l, if l.cores.all (s.faultsSkipped l).coreDone then ((s.faultsSkipped l).part part).launch? l.num else none) := by
  unfold Part.retiringFirst at h
  simp only [State.digestTurn, h, hst]
  rfl

/-- A launch whose cores have not finished stays in step 1. -/
theorem exec_launchRetirement_unfinished (hst : l.stage = .retiring) (hc : ∃ c ∈ l.cores, (s.faultsSkipped l).coreDone c = false) :
    exec (.launchRetirement part) s = .next (s.faultsSkipped l) := by
  have hall : l.cores.all (s.faultsSkipped l).coreDone = false := by simpa [List.all_eq_false] using hc
  have hturn := State.digestTurn_retiring h hst
  rw [hall] at hturn
  show execLaunchRetirement part s = _
  unfold Part.retiringFirst at h
  simp only [execLaunchRetirement, h, hst, hturn]
  rfl

/-- Once every core has finished, the digest is taken and the launch goes on to its record. -/
theorem exec_launchRetirement_finished {v : Launch} (hst : l.stage = .retiring)
    (hc : ∀ c ∈ l.cores, (s.faultsSkipped l).coreDone c = true) (hv : ((s.faultsSkipped l).part part).launch? l.num = some v) :
    exec (.launchRetirement part) s = .next (((s.faultsSkipped l).digestStep part v).toRecord part l.num) := by
  have hturn := State.digestTurn_retiring h hst
  rw [List.all_eq_true.mpr hc, if_pos rfl, hv] at hturn
  show execLaunchRetirement part s = _
  unfold Part.retiringFirst at h
  simp only [execLaunchRetirement, h, hst, hturn, Part.launch?_num hv]

end

/-- A launch that leaves: its cores are free and nothing else of them changes for its contexts, and no byte of memory. -/
theorem State.dropLaunch_leaves (s : State) (part : Nat) (l : Launch) :
    let t := s.dropLaunch part l
    (∀ c ∈ l.cores, (t.core c).owner = none) ∧ (∀ c x, t.ctx c x = s.ctx c x) ∧
    (∀ e ∈ (t.part part).launches, e.num ≠ l.num) ∧ ∀ pa, t.peek pa = s.peek pa := by
  intro t
  set u := l.cores.foldl (fun s c => s.modCore c Core.released) s with hu
  set w := u.modPart part (fun p =>
    { p with launches := p.launches.filter (fun e => e.num != l.num), retireOrder := p.retireOrder.filter (fun n => n != l.num)
             seq := if l.cores.isEmpty then p.seq else p.seq + 1 }) with hw
  have moves : (w.settleQueue part l.queue).MovesLaunches t := State.release_moves _ part
  have hcore : ∀ c, t.core c = u.core c := fun c => by
    rw [moves.core, State.core, State.settleQueue_cores]
    rfl
  refine ⟨fun c hc => ?_, fun c x => ?_, fun e he => ?_, fun pa => ?_⟩
  · rw [hcore]
    exact foldl_modCore_core (P := fun k => k.owner = none) (fun _ => rfl) l.cores s c hc
  · rw [State.ctx, hcore]
    exact foldl_modCore_keeps (f := Core.released) (g := fun k => k.ctx x) (fun _ => rfl) l.cores s c
  · obtain ⟨m, hm, hnum⟩ := moves.num_of_mem he
    rw [State.settleQueue_part, hw, State.modPart_part, if_pos rfl] at hm
    rw [← hnum]
    simpa using (List.mem_filter.mp hm).2
  · rw [moves.peek, State.settleQueue_peek]
    exact foldl_modCore_peek (f := Core.released) (fun _ => rfl) l.cores s pa

/-! ## EPHEMERIS_RECORD_WRITE (R70, R77, R78) -/

theorem exec_ephemerisRecordWrite_none {s : State} {part : Nat} (h : (s.part part).retiringFirst = none) :
    exec (.ephemerisRecordWrite part) s = .next s := by
  show execEphemerisRecordWrite part s = _
  unfold Part.retiringFirst at h
  simp only [execEphemerisRecordWrite, h]

/-- The record is written and the launch signalled; what the launch has observed is then observed by the host. -/
def State.recorded (s : State) (part : Nat) (l : Launch) : State :=
  (((s.putRecord part l).signal part l).modPart part (fun p => { p with recClk := p.recClk.join l.clk })).modLaunch
    { part := part, launch := l.num, lcore := 0 } (fun l => { l with stage := .freeing })

section
variable {s : State} {part : Nat} {l : Launch} (h : (s.part part).retiringFirst = some l)
include h

theorem exec_ephemerisRecordWrite_early (hst : l.stage ≠ .record) : exec (.ephemerisRecordWrite part) s = .next s := by
  show execEphemerisRecordWrite part s = _
  unfold Part.retiringFirst at h
  simp only [execEphemerisRecordWrite, h]
  exact if_pos (by simpa using hst)

theorem exec_ephemerisRecordWrite_full (hst : l.stage = .record) (hf : (s.func (fnOf part)).ephFull = true) :
    exec (.ephemerisRecordWrite part) s = .next (s.setFstat (fnOf part) fstatEPHFULL) := by
  show execEphemerisRecordWrite part s = _
  unfold Part.retiringFirst at h
  simp only [execEphemerisRecordWrite, h, hst, hf, bne_self_eq_false, Bool.false_eq_true, if_false, if_true]

theorem exec_ephemerisRecordWrite_writes (hst : l.stage = .record)
    (hf : (s.func (fnOf part)).ephFull = false) : exec (.ephemerisRecordWrite part) s =
      .next (if l.cores = [] then (s.recorded part l).dropLaunch part { l with stage := .freeing } else s.recorded part l) := by
  show execEphemerisRecordWrite part s = _
  unfold Part.retiringFirst at h
  simp only [execEphemerisRecordWrite, h, hst, hf, bne_self_eq_false, Bool.false_eq_true, if_false, List.isEmpty_iff]
  rfl

end

/-- A record has the size of its place in the ring. -/
theorem Launch.recordBytes_length (l : Launch) : l.recordBytes.length = 128 := by
  unfold Launch.recordBytes
  dsimp only
  split <;> simp [digestBytes]

/-- The record that is written at EPHPROD is read back there. -/
theorem State.putRecord_hostGet {s : State} {part : Nat} (l : Launch) (h : s.memWf = true)
    (hend : (s.func (fnOf part)).ephbase + 128 * ((s.func (fnOf part)).ephprod.toNat % 2 ^ ((s.func (fnOf part)).ephctl + 6)) + 128 ≤
      2 ^ 64) :
    (s.putRecord part l).hostGet (s.part part).link
      ((s.func (fnOf part)).ephbase + 128 * ((s.func (fnOf part)).ephprod.toNat % 2 ^ ((s.func (fnOf part)).ephctl + 6))) 128 =
        l.recordBytes := by
  have hread := State.hostGet_hostPut (part := part) (bs := l.recordBytes) h (by rw [l.recordBytes_length]; exact hend)
  rw [l.recordBytes_length] at hread
  exact hread

theorem State.hostPut_func (s : State) (part addr n : Nat) (bs : List Byte) : (s.hostPut part addr bs).func n = s.func n := by
  unfold State.hostPut State.hostPoke
  split_ifs <;> rfl

theorem State.putRecord_ephprod (s : State) (part : Nat) (l : Launch) :
    ((s.putRecord part l).func (fnOf part)).ephprod = (s.func (fnOf part)).ephprod + 1 := by
  simp [State.putRecord, State.hostPut_func]

theorem State.signal_none {s : State} {part : Nat} {l : Launch} (h : l.pkt.signal.getLsbD 15 = false) : s.signal part l = s := by
  unfold State.signal
  dsimp only
  rw [h]
  rfl

/-- A launch that signals: the function's vector is sent, and the object counts on and takes the status. -/
theorem State.signal_some {s : State} {part : Nat} {l : Launch} (h : l.pkt.signal.getLsbD 15 = true) :
    let n := l.pkt.signal.toNat % 4096
    let o := tget Obj.reset (s.part part).objs n
    (s.signal part l).msix = s.msix ++ [fnOf part] ∧ tget Obj.reset ((s.signal part l).part part).objs n =
      { val := o.val + 1, status := l.status, last := BitVec.ofNat 64 l.num, clk := o.clk.join l.clk } := by
  unfold State.signal
  dsimp only
  rw [h]
  simp only [Bool.not_true, Bool.false_eq_true, if_false]
  refine ⟨State.changeObject_msix .., ?_⟩
  rw [State.changeObject_objs, if_pos rfl]
  rfl

/-! ## TENANT_PREEMPTION_SAVE (R430) -/

theorem exec_tenantPreemptionSave_none {s : State} {part : Nat} (h : (s.part part).launches.find? s.stoppedLaunch = none) :
    exec (.tenantPreemptionSave part) s = .next s := by
  show execTenantPreemptionSave part s = _
  simp only [execTenantPreemptionSave, h]

/-- The launch that stopped keeps what is saved of its contexts and can be placed again; its cores are free, and its reads dropped. -/
theorem exec_tenantPreemptionSave_saves {s : State} {part : Nat} {l : Launch}
    (h : (s.part part).launches.find? s.stoppedLaunch = some l) : ∃ t : State, exec (.tenantPreemptionSave part) s = .next t ∧
      (∀ c ∈ l.cores, (t.core c).owner = none) ∧ (∀ r ∈ t.reads, r.core ∉ l.cores) ∧
      (∃ v ∈ (t.part part).launches, v.num = l.num ∧ v.stage = .placing ∧ v.cores = [] ∧
        v.saved = l.ctxNames.map (fun w => (s.ctx w.core w.ctx).saved)) ∧
      ∀ pa, t.peek pa = s.peek pa := by
  set kept := l.ctxNames.map (fun w => (s.ctx w.core w.ctx).saved)
  set clk := l.cores.foldl (fun c k => c.join (s.die (dieOf k)).clk) l.clk
  set r : State := { s with reads := s.reads.filter (fun r => !l.cores.contains r.core) } with hr
  set u := l.cores.foldl (fun s c => s.modCore c (fun k => { k.released with ctxs := [] })) r with hu
  have rest : u = { r with cores := u.cores } := foldl_modCore_rest ..
  set w := u.modPart part (fun p => { p.modLaunch l.num (fun l =>
    { l with stage := .placing, cores := [], saved := kept, stopReq := false, clk := clk }) with seq := p.seq + 1 }) with hw
  have hmem : l ∈ (u.part part).launches := by
    rw [rest]
    exact List.mem_of_find?_eq_some h
  refine ⟨w.settleQueue part l.queue, ?_, fun c hc => ?_, fun q hq => ?_, ?_, fun pa => ?_⟩
  · show execTenantPreemptionSave part s = _
    simp only [execTenantPreemptionSave, h]
    rfl
  · rw [State.core, State.settleQueue_cores]
    exact foldl_modCore_core (P := fun k => k.owner = none) (fun _ => rfl) l.cores r c hc
  · rw [State.settleQueue_reads, hw, State.modPart_reads, rest] at hq
    simpa using (List.mem_filter.mp hq).2
  · refine ⟨{ l with stage := .placing, cores := [], saved := kept, stopReq := false, clk := clk }, ?_, rfl, rfl, rfl, rfl⟩
    rw [State.settleQueue_part, hw, State.modPart_part, if_pos rfl]
    exact List.mem_map.mpr ⟨l, hmem, if_pos rfl⟩
  · rw [State.settleQueue_peek]
    exact foldl_modCore_peek (f := fun k => { k.released with ctxs := [] }) (fun _ => rfl) l.cores r pa

/-! ## The events of a launch together -/

/-- PACKET_ACCEPT of a packet that can be read: the launch that it becomes, and how its first steps may end it. -/
theorem exec_packetAccept_launch {s : State} {queue part : Nat} {p : Part} {ok : Bool}
    (hfind : s.parts.find? (fun e => e.2.ownsQueue queue) = some (part, p)) (hp : s.part part = p)
    (hable : (s.queue queue).st = .mapped ∧ (s.queue queue).head ≠ (s.queue queue).tail ∧ p.accepted queue < 16)
    (hup : ok = true ∧ (if p.link = 0 then s.linkUp0 else s.linkUp1) = true) (hnew : ∀ l ∈ p.launches, l.num ≠ p.nextLaunch) :
    let x := s.queue queue
    let bs := s.hostGet p.link (x.base + 64 * (x.head.toNat % 2 ^ (x.log2size + 4))) 64
    let k := packetOf bs
    ∃ t : State, exec (.packetAccept queue ok) s = .next t ∧ (t.queue queue).head = x.head + 1 ∧
      (t.part part).nextLaunch = p.nextLaunch + 1 ∧ (∀ pa, t.peek pa = s.peek pa) ∧
      (∃ l ∈ (t.part part).launches, l.num = p.nextLaunch ∧ l.queue = queue ∧ l.pkt = k ∧ l.qhead = x.head ∧
        (badPacket bs = true → l.stage = .record ∧ l.status = .badPacket) ∧
        (badPacket bs = false → k.part ≠ part → l.stage = .record ∧ l.status = .badPartition) ∧
        (badPacket bs = false → k.part = part → k.marker = false →
          (s.readImage part k.image = .unreadable ∨ s.readVirtual part k.bindings 144 = none) →
          l.stage = .record ∧ l.status = .badImage) ∧
        (badPacket bs = false → k.part = part → k.marker = true → (∀ w ∈ k.waits, w.getLsbD 31 = false) →
          l.stage = .record ∧ l.status = .ok)) ∧
      ((badPacket bs = true ∨ k.part ≠ part) → p.nextLaunch ∈ (t.part part).retireOrder) := by
  intro x bs k
  subst hp
  set l := s.nextOf part queue bs
  set w := s.joined part queue l with hw
  have moves := w.firstSteps_moves part (s.part part).nextLaunch bs
  obtain ⟨m, hm, hid, refused, marker⟩ := State.joined_firstSteps (queue := queue) (bs := bs) (head := x.head) (clk := x.clk) hnew
  obtain ⟨hnum, hqueue, hpkt, hqhead⟩ := Launch.identity_eq hid
  refine ⟨_, exec_packetAccept_accepts hfind hable rfl hup, ?_, ?_, fun pa => moves.peek pa,
    ⟨m, hm, hnum, hqueue, hpkt, hqhead, fun hb => refused _ (.bad hb), fun hb hp => refused _ (.foreign hb hp),
      fun hb hp hmk hr => refused _ (.unreadable hb hp hmk hr), marker⟩, fun hbad => ?_⟩
  · rw [moves.queue, hw, State.joined, State.modQueue_queue, if_pos rfl]
    rfl
  · rw [moves.nextLaunch, hw, State.joined_part]
    rfl
  · obtain ⟨st, hst⟩ : ∃ st, w.Refused part bs st := by
      cases hb : badPacket bs with
      | true => exact ⟨_, .bad hb⟩
      | false => exact ⟨_, .foreign hb (hbad.resolve_left (by simp [hb]))⟩
    rw [State.firstSteps_refused hst]
    exact State.mem_retireOrder_endUnrun ..

/-- PLACE_AND_LOAD of a launch found in step 4: whether it waits or takes cores, once its image is known. -/
theorem tryPlace_takes {s u : State} {part : Nat} {l : Launch} {img : Image} (h : (u.part part).launch? l.num = some l)
    (hst : l.stage = .placing) (himg : l.image = some img) (hfree : u.freeCores part = s.freeCores part)
    (hdies : u.dies = s.dies) :
    let n := l.pkt.contexts / l.pkt.perCore
    let free := s.freeCores part
    ((free.length < n ∨ s.diesCover l (free.take n) = false) → u.tryPlace part l.num = .next u) ∧
    (n ≤ free.length → s.diesCover l (free.take n) = true →
      u.tryPlace part l.num = .next (u.placeOn part l img (free.take n))) := by
  intro n free
  have hcover : ∀ cs, u.diesCover l cs = s.diesCover l cs := fun cs => by simp only [State.diesCover, State.die, hdies]
  refine ⟨fun hw => State.tryPlace_waits h hst himg ?_, fun hn hd => ?_⟩
  · rw [hfree, hcover]
    exact hw
  · rw [State.tryPlace_places h hst himg (by rw [hfree]; exact hn) (by rw [hfree, hcover]; exact hd), hfree]

/-- Settles O52, event by event: what each event does is said by the lemmas above, and here they are put together. -/
theorem launchEvents : Obligations.LaunchEvents := by
  unfold Obligations.LaunchEvents
  refine ⟨fun queue ok s => ⟨fun hnone => ?nobody, fun part p hfind hp => ⟨fun hn => exec_packetAccept_idle hfind hn,
      fun ha hu => exec_packetAccept_fails hfind ha hu, fun ha hu hnew => exec_packetAccept_launch hfind hp ha hu hnew⟩⟩,
    fun part s => ⟨exec_placeAndLoad_none, fun l hw hf hfind hl => ⟨fun himg hr => ?unreadable, fun hd himg hr =>
      ⟨fun hok => ?malformed, fun hok hbs => ?truncated, fun bs hok hbs => ⟨fun hform => ?formless, fun img v hform =>
        ⟨fun e he => ?fails, fun he => ?passes⟩⟩⟩, fun img himg => ?checked⟩⟩,
    fun k o code img ds => ?core, fun img ds base j h => ⟨rfl, rfl, rfl, rfl, rfl, rfl, rfl, fun n => ?sreg, rfl⟩,
    fun part s => ⟨fun hnone => ⟨exec_launchRetirement_none hnone, exec_ephemerisRecordWrite_none hnone⟩, fun l hl =>
      ⟨fun hst hc => exec_launchRetirement_unfinished hl hst hc, fun v hst hc hv => exec_launchRetirement_finished hl hst hc hv,
        fun hst => ⟨_, exec_launchRetirement_freeing hl hst, s.dropLaunch_leaves part l⟩,
        fun hr hf => exec_launchRetirement_other hl hr hf, fun hst => exec_ephemerisRecordWrite_early hl hst,
        fun hst hfull => exec_ephemerisRecordWrite_full hl hst hfull,
        fun hst hroom => ⟨fun hc => ?holdsCores, fun hc => ?holdsNone⟩⟩⟩,
    fun part s l hwf hend => ⟨l.recordBytes_length, State.putRecord_hostGet l hwf hend, s.putRecord_ephprod part l⟩,
    fun part s l => ⟨State.signal_none, State.signal_some⟩,
    fun part s => ⟨exec_tenantPreemptionSave_none, fun l hl => exec_tenantPreemptionSave_saves hl⟩⟩
  case nobody =>
    show execPacketAccept queue ok s = _
    simp only [execPacketAccept, hnone]
  case unreadable =>
    rw [exec_placeAndLoad_check hw hf hfind himg, State.checkLaunch_unreadable hr, State.tryPlace_ended _ hl]
  case malformed =>
    rw [exec_placeAndLoad_check hw hf hfind himg, State.checkLaunch_malformed hr hok, State.tryPlace_ended _ hl]
  case truncated =>
    rw [exec_placeAndLoad_check hw hf hfind himg, State.checkLaunch_truncated hr hok hbs, State.tryPlace_ended _ hl]
  case formless =>
    rw [exec_placeAndLoad_check hw hf hfind himg, State.checkLaunch_formless hr hok hbs hform, State.tryPlace_ended _ hl]
  case fails =>
    rw [exec_placeAndLoad_check hw hf hfind himg, State.checkLaunch_fails hr hok hbs hform he]
    exact State.tryPlace_ended (s := s.noted part l img) (l := { l with imgDigest := some img.digest }) _
      (State.noted_launch? hl img)
  case passes =>
    rw [exec_placeAndLoad_check hw hf hfind himg, State.checkLaunch_passes hr hok hbs hform he]
    have hst := State.placeable_stage hfind
    refine tryPlace_takes (l := { l with imgDigest := some img.digest, image := some img }) (State.passed_launch? hl img)
      hst rfl ?_ rfl
    exact (State.modLaunch_freeCores _ { part := part, launch := l.num, lcore := 0 } _).trans
      (State.modLaunch_freeCores _ { part := part, launch := l.num, lcore := 0 } _)
  case checked =>
    rw [exec_placeAndLoad_image hw hf hfind (by simp [himg])]
    exact tryPlace_takes hl (State.placeable_stage hfind) himg rfl rfl
  case core =>
    intro t
    have ht : t = _ := Core.placed_keeps k o code img ds
    rw [ht]
    exact ⟨rfl, rfl, rfl, rfl, rfl, rfl, rfl, rfl⟩
  case sreg =>
    rw [show (Ctx.placed img ds base j h).sreg n = Ctx.reset.sreg n from rfl, Ctx.reset_sreg]
    exact ⟨rfl, rfl⟩
  case holdsCores =>
    rw [exec_ephemerisRecordWrite_writes hl hst hroom, if_neg hc]
    rfl
  case holdsNone =>
    rw [exec_ephemerisRecordWrite_writes hl hst hroom, if_pos hc]
    rfl

end Sys2Proof.Machine
end

section
/-! SUPPORT. The group operations (R100, R403, R405): each reads its operand, finds the module group that it names, and then sends its
request, waits before it sends, or delivers what it reads. -/

namespace Sys2Proof.Machine

/-! ## The module group that an operand names (R100) -/

theorem State.groupOf_outside {s : State} {g : Word} {d : Desc} (hd : (s.part (s.partOf s.cur.core)).desc = some d)
    (h : d.groupCount ≤ g.toNat) : s.groupOf g = raise .groupRange := by
  simp only [State.groupOf, hd, Nat.not_lt.mpr h, if_false]

theorem State.groupOf_inside {s : State} {g : Word} {d : Desc} (hd : (s.part (s.partOf s.cur.core)).desc = some d)
    (h : g.toNat < d.groupCount) : s.groupOf g = .ok (d.groupBase + g.toNat) := by
  simp only [State.groupOf, hd, h, if_true]

/-- A slot that blocks outside deterministic mode leaves its code, and has not been a YIELD. -/
theorem State.halt_block {s : State} {n : Nat} (hdet : s.det s.cur.core = false) (hn : n ≠ 11) :
    s.halt (.block n) = (s.modMe (fun x => { x with block := n })).verdict (.blocked n) := by
  simp [State.halt, hdet, beq_eq_false_iff_ne.mpr hn]

/-! ## The operations one by one (R403, R405) -/

section
variable {f : FA} {s s1 : State} {a : Lab 64} (hg : s.me.holds f.gd = true) (ha : s.opnd f.a = .ok (a, s1))
include hg ha

section
variable (hn : s1.groupOf a.val = raise .groupRange)
include hn

theorem exec_gjoin_range : exec (.gjoin f) s = .next (s.trapHere .groupRange 0 0) := by
  show execGjoin f s = _
  exact slotRun_error (h := .raise .groupRange 0 0) hg (by simp only [bind, Except.bind, ha, hn, raise])
theorem exec_gleave_range : exec (.gleave f) s = .next (s.trapHere .groupRange 0 0) := by
  show execGleave f s = _
  exact slotRun_error (h := .raise .groupRange 0 0) hg (by simp only [bind, Except.bind, ha, hn, raise])
theorem exec_gbar_range : exec (.gbar f) s = .next (s.trapHere .groupRange 0 0) := by
  show execGbar f s = _
  exact slotRun_error (h := .raise .groupRange 0 0) hg (by simp only [bind, Except.bind, ha, hn, raise])

end

variable {g : Nat} (hn : s1.groupOf a.val = .ok g)
include hn

theorem exec_gjoin_sends : exec (.gjoin f) s = .next ((s1.askGroup g .join).verdict .issued) := by
  show execGjoin f s = _
  exact slotRun_ok hg (by simp only [bind, Except.bind, ha, hn]; rfl)

/-- Only a member waits, and only for its accesses. -/
theorem exec_gleave_sends (h : (s1.relation s1.groupName g).1 ≠ 1 ∨ s1.drained true = true) :
    exec (.gleave f) s = .next ((s1.askGroup g .leave).verdict .issued) := by
  have hready : ((s1.relation s1.groupName g).1 != 1 || s1.drained true) = true := by simpa using h
  show execGleave f s = _
  exact slotRun_ok hg (by simp only [bind, Except.bind, ha, hn, hready, must_true]; rfl)

theorem exec_gleave_waits (hr : (s1.relation s1.groupName g).1 = 1) (hw : s1.drained true = false) :
    exec (.gleave f) s = .next (s.halt (.block 9)) := by
  have hready : ((s1.relation s1.groupName g).1 != 1 || s1.drained true) = false := by simp [hr, hw]
  show execGleave f s = _
  exact slotRun_error hg (by simp only [bind, Except.bind, ha, hn, hready, must_false])

/-- A member or joiner that has no access left sends, and its next bundle waits for the phase. -/
theorem exec_gbar_joins (hr : (s1.relation s1.groupName g).1 = 1 ∨ (s1.relation s1.groupName g).1 = 2) (hw : s1.drained true = true) :
    exec (.gbar f) s =
      .next (((s1.askGroup g .bar).modMe (fun x => { x with wait2 := some (.gbar g) })).verdict .issued) := by
  have hwaits : ((s1.relation s1.groupName g).1 == 1 || (s1.relation s1.groupName g).1 == 2) = true := by simpa using hr
  show execGbar f s = _
  exact slotRun_ok hg (by simp only [bind, Except.bind, ha, hn, hwaits, hw, Bool.not_true, Bool.or_true, must_true, if_true]; rfl)

/-- Another context only sends. -/
theorem exec_gbar_sends (h1 : (s1.relation s1.groupName g).1 ≠ 1) (h2 : (s1.relation s1.groupName g).1 ≠ 2) :
    exec (.gbar f) s = .next ((s1.askGroup g .bar).verdict .issued) := by
  have hwaits : ((s1.relation s1.groupName g).1 == 1 || (s1.relation s1.groupName g).1 == 2) = false := by simp [h1, h2]
  show execGbar f s = _
  exact slotRun_ok hg (by simp only [bind, Except.bind, ha, hn, hwaits, Bool.not_false, Bool.true_or, must_true]; rfl)

theorem exec_gbar_waits (hr : (s1.relation s1.groupName g).1 = 1 ∨ (s1.relation s1.groupName g).1 = 2)
    (hw : s1.drained true = false) : exec (.gbar f) s = .next (s.halt (.block 9)) := by
  have hwaits : ((s1.relation s1.groupName g).1 == 1 || (s1.relation s1.groupName g).1 == 2) = true := by simpa using hr
  show execGbar f s = _
  exact slotRun_error hg (by simp only [bind, Except.bind, ha, hn, hwaits, hw, Bool.not_true, Bool.or_false, must_false])

end

theorem exec_gquery_delivers {f : FS2} {s s1 : State} {a : Lab 64} {g : Nat} (hg : s.me.holds f.gd = true)
    (hd : s.destReady (sDest f.d) = .ok ()) (ha : s.opnd f.a = .ok (a, s1)) (hn : s1.groupOf a.val = .ok g) :
    let r := s1.relation s1.groupName g
    exec (.gquery f) s = .next ((s1.writeS 2 f.w f.d
      (tget 0 s1.myCore.phases g ++ BitVec.ofNat 32 (r.1 + if r.2 = true then 4 else 0)) (s.me.base f.gd ||| a.mask)).verdict .issued) := by
  show execGquery f s = _
  exact slotRun_ok hg (by simp only [bind, Except.bind, hd, ha, hn]; rfl)

/-- Settles O13, operation by operation: a group number out of range raises, and each other outcome is said by its lemma above. -/
theorem groupOperations : Obligations.GroupOperations := by
  unfold Obligations.GroupOperations
  refine ⟨fun f s s1 a d hg ha hd => ⟨fun hout => ?range, fun hin => ?_⟩, fun f s s1 a d hg hdest ha hd hin => ?query⟩
  case range =>
    have hn := State.groupOf_outside hd hout
    simp only [List.forall_mem_cons]
    exact ⟨exec_gjoin_range hg ha hn, exec_gleave_range hg ha hn, exec_gbar_range hg ha hn, List.forall_mem_nil _⟩
  case query => exact exec_gquery_delivers hg hdest ha (State.groupOf_inside hd hin)
  have hn := State.groupOf_inside hd hin
  refine ⟨exec_gjoin_sends hg ha hn, exec_gleave_sends hg ha hn, exec_gbar_joins hg ha hn, exec_gbar_sends hg ha hn,
    fun hw hdet => ⟨fun hr => ?leaveBlocks, fun hr => ?barBlocks⟩⟩
  case leaveBlocks => exact (exec_gleave_waits hg ha hn hr hw).trans (congrArg _ (State.halt_block hdet (by decide)))
  case barBlocks => exact (exec_gbar_waits hg ha hn hr hw).trans (congrArg _ (State.halt_block hdet (by decide)))

end Sys2Proof.Machine
end

section
/-! SUPPORT. What a partition reset does (R436, R437): entries that are kept while they lead to assigned addresses, units that retire,
units that are reset, and the state in between, stage by stage. -/

namespace Sys2Proof.Machine

/-! ## Tables changed entry by entry -/

/-- A change of every value of a table, one that keeps the default. -/
theorem tget_map {α : Type} {d : α} {g : α → α} (hd : g d = d) (t : Table α) (n : Nat) :
    tget d (t.map (fun e => (e.1, g e.2))) n = g (tget d t n) := by
  induction t with
  | nil => exact hd.symm
  | cons e t ih =>
    simp only [List.map_cons, tget, ih]
    split_ifs <;> rfl

/-- A table reads its default, or lists what it reads. -/
theorem tget_eq_or_mem {α : Type} (d : α) (t : Table α) (n : Nat) : tget d t n = d ∨ (n, tget d t n) ∈ t := by
  induction t with
  | nil => exact .inl rfl
  | cons e t ih =>
    obtain ⟨k, v⟩ := e
    simp only [tget]
    split_ifs with hn
    · exact .inr (hn ▸ List.mem_cons_self)
    · exact ih.imp_right (List.mem_cons_of_mem _)

theorem tget_of_notMem_keys {α : Type} (d : α) {t : Table α} {n : Nat} (h : n ∉ t.map (·.1)) : tget d t n = d :=
  (tget_eq_or_mem d t n).resolve_right fun hm => h (List.mem_map_of_mem (f := (·.1)) hm)

/-- Steps in a row keep what each step keeps. -/
theorem foldl_keeps {α β : Type} {f : State → α → State} {g : State → β} (hf : ∀ s a, g (f s a) = g s) (l : List α) (s : State) :
    g (l.foldl f s) = g s :=
  List.foldlRecOn (motive := fun t => g t = g s) l f rfl fun t ht a _ => (hf t a).trans ht

/-! ## Bits kept of a mask -/

/-- A sum of distinct powers of two has the bits that are summed. -/
theorem testBit_sum_filter (P : Nat → Bool) (w : Nat) :
    let m := ((List.range w).filter P).foldl (fun a i => a + 2 ^ i) 0
    m < 2 ^ w ∧ ∀ j, m.testBit j = (decide (j < w) && P j) := by
  induction w with
  | zero => exact ⟨Nat.one_pos, fun j => by simp⟩
  | succ w ih =>
    obtain ⟨hlt, hbit⟩ := ih
    rw [List.range_succ, List.filter_append, List.foldl_append]
    generalize ((List.range w).filter P).foldl (fun a i => a + 2 ^ i) 0 = m at hlt hbit
    cases hP : P w with
    | false =>
      simp only [List.filter_cons, hP, Bool.false_eq_true, if_false, List.filter_nil, List.foldl_nil]
      refine ⟨hlt.trans (Nat.pow_lt_pow_right Nat.one_lt_two (Nat.lt_succ_self w)), fun j => ?_⟩
      rw [hbit]
      rcases Nat.lt_trichotomy j w with h | rfl | h
      · simp [h, Nat.lt_succ_of_lt h]
      · simp [hP]
      · simp [Nat.not_lt.mpr h.le, Nat.not_lt.mpr (Nat.succ_le_of_lt h)]
    | true =>
      simp only [List.filter_cons, hP, if_true, List.filter_nil, List.foldl_cons, List.foldl_nil, Nat.add_comm m]
      refine ⟨by rw [Nat.pow_succ]; omega, fun j => ?_⟩
      rcases Nat.lt_trichotomy j w with h | rfl | h
      · rw [Nat.testBit_two_pow_add_gt h, hbit]
        simp [h, Nat.lt_succ_of_lt h]
      · rw [Nat.testBit_two_pow_add_eq, hbit]
        simp [hP]
      · have hj : 2 ^ w + m < 2 ^ j :=
          lt_of_lt_of_le (by rw [Nat.pow_succ]; omega) (Nat.pow_le_pow_right Nat.two_pos (Nat.succ_le_of_lt h))
        rw [Nat.testBit_lt_two_pow hj]
        simp [Nat.not_lt.mpr (Nat.succ_le_of_lt h)]

theorem mem_bitList {m w i : Nat} : i ∈ bitList m w ↔ i < w ∧ m.testBit i = true := by simp [bitList]

/-- The bits that `keepBits` keeps are those that meet the test. -/
theorem bitList_keepBits {w n : Nat} (m : BitVec w) (f : Nat → Bool) (hn : n ≤ w) :
    bitList (keepBits m f).toNat n = (bitList m.toNat n).filter f := by
  have key := testBit_sum_filter (fun i => m.toNat.testBit i && f i) w
  have hkeep : (keepBits m f).toNat =
      ((List.range w).filter (fun i => m.toNat.testBit i && f i)).foldl (fun a i => a + 2 ^ i) 0 := by
    simp only [keepBits, bitList, List.filter_filter, Bool.and_comm (f _), BitVec.toNat_ofNat]
    exact Nat.mod_eq_of_lt key.1
  rw [hkeep, bitList, bitList, List.filter_filter]
  refine List.filter_congr fun i hi => ?_
  have hiw : i < w := (List.mem_range.mp hi).trans_le hn
  rw [key.2, decide_eq_true hiw, Bool.true_and, Bool.and_comm]

/-! ## Entries that are kept (R104, R108, R123) -/

/-- The entries of a partition whose targets meet a test. -/
def Part.keeping (p : Part) (ok : Nat → Nat → Bool) : Part :=
  { p with leaves := p.leaves.filter (fun l => ok (leafTarget l.level l.entry).1 (leafTarget l.level l.entry).2)
           ranges := p.ranges.filter (fun e => ok e.2.target (e.2.limit - e.2.base)) }

/-- A stronger test decides alone. -/
theorem Part.keeping_keeping (p : Part) {f g : Nat → Nat → Bool} (h : ∀ a n, g a n = true → f a n = true) :
    (p.keeping f).keeping g = p.keeping g := by
  have hand : ∀ a n, (g a n && f a n) = g a n := fun a n => by
    cases hg : g a n with
    | false => rfl
    | true => simp [h a n hg]
  simp only [Part.keeping, List.filter_filter, hand]

/-- Which addresses are assigned to a partition depends on its descriptor alone. -/
theorem State.assigned_congr {s t : State} {part : Nat} (h : (t.part part).desc = (s.part part).desc) :
    t.assigned part = s.assigned part := by
  have hports : (t.part part).portList = (s.part part).portList := by simp only [Part.portList, h]
  funext base size
  unfold State.assigned
  rw [hports]

/-- A partition that loses ports has no address assigned that it had not before. -/
theorem State.assigned_of_fewer_ports {s t : State} {part base size : Nat}
    (hports : (t.part part).portList.Sublist (s.part part).portList) (h : t.assigned part base size = true) :
    s.assigned part base size = true := by
  unfold State.assigned at *
  dsimp only at *
  split <;> simp_all only [Bool.and_eq_true, List.contains_iff_mem, decide_eq_true_eq]
  · exact ⟨hports.subset h.1, trivial⟩
  · exact ⟨trivial, h.2.trans (Nat.mul_le_mul_right _ hports.length_le)⟩

theorem State.pruned_part (s : State) (part k : Nat) :
    (s.pruned part).part k = if k = part then (s.part part).keeping (s.assigned part) else s.part k :=
  State.modPart_part s part k fun p => p.keeping (s.assigned part)

theorem State.pruned_desc (s : State) (part k : Nat) : ((s.pruned part).part k).desc = (s.part k).desc := by
  rw [State.pruned_part]
  split_ifs with hk
  · rw [hk]; rfl
  · rfl

theorem State.pruned_assigned (s : State) (part k : Nat) : (s.pruned part).assigned k = s.assigned k :=
  State.assigned_congr (s.pruned_desc part k)

/-- Nothing but the partition, its entries in the stores and their copies on the dies changes. -/
theorem State.pruned_rest (s : State) (part : Nat) : s.pruned part =
    { s with parts := (s.pruned part).parts, fronts := (s.pruned part).fronts, dies := (s.pruned part).dies } := rfl

/-- What the front stores keep: the entries of other partitions, and those that the partition still gives. -/
theorem State.mem_pruned_fronts {s : State} {part c : Nat} {e : StoreEntry} : e ∈ tget [] (s.pruned part).fronts c ↔
    e ∈ tget [] s.fronts c ∧ (e.part = part → ((s.pruned part).part part).gives e = true) := by
  have hmap := tget_map (d := ([] : List StoreEntry))
    (g := List.filter (fun e => e.part != part || ((s.pruned part).part part).gives e)) rfl s.fronts c
  rw [show (s.pruned part).fronts = s.fronts.map (fun e =>
    (e.1, e.2.filter (fun e => e.part != part || ((s.pruned part).part part).gives e))) from rfl, hmap]
  simp [List.mem_filter, or_iff_not_imp_left]

/-- The same of the stores of the dies. -/
theorem State.mem_pruned_store {s : State} {part d : Nat} {e : StoreEntry} : e ∈ ((s.pruned part).die d).store ↔
    e ∈ (s.die d).store ∧ (e.part = part → ((s.pruned part).part part).gives e = true) := by
  have hmap := tget_map (d := Die.reset) (g := fun x : Die =>
    { x with store := x.store.filter (fun e => e.part != part || ((s.pruned part).part part).gives e) }) rfl s.dies d
  rw [show (s.pruned part).die d = _ from hmap]
  simp [List.mem_filter, or_iff_not_imp_left, State.die]

/-- Partitions pruned in a row, each by what is assigned to it. -/
theorem State.foldl_pruned_part (ks : List Nat) (s : State) (k : Nat) :
    (ks.foldl State.pruned s).part k = if k ∈ ks then (s.part k).keeping (s.assigned k) else s.part k := by
  induction ks generalizing s with
  | nil => simp
  | cons n ks ih =>
    rw [List.foldl_cons, ih, State.pruned_assigned, State.pruned_part]
    by_cases hn : k = n
    · subst hn
      simp [Part.keeping_keeping]
    · simp [hn]

/-- All partitions pruned, those that the table lists and the others, which have no entries. -/
theorem State.pruneAll_part (s : State) (k : Nat) :
    ((s.parts.map (·.1)).foldl State.pruned s).part k = (s.part k).keeping (s.assigned k) := by
  rw [State.foldl_pruned_part]
  split_ifs with hk
  · rfl
  · rw [State.part, tget_of_notMem_keys Part.reset hk]
    rfl

/-! ## Units that retire (R130, R436) -/

/-- A descriptor without the quads and ports that have retired. -/
def Desc.reduced (r : State) (d : Desc) : Desc :=
  { d with quads := keepBits d.quads (fun q => !r.quadRetired q), ports := keepBits d.ports (fun p => !r.portRetired p) }

theorem Desc.reduced_congr {r t : State} (h : t.retired = r.retired) (d : Desc) : d.reduced t = d.reduced r := by
  simp only [Desc.reduced, State.quadRetired, State.portRetired, h]

/-- A partition whose descriptor has lost the bits of what has retired. -/
def Part.reduced (r : State) (p : Part) : Part := { p with desc := p.desc.map (Desc.reduced r) }

theorem Part.reduced_portList (r : State) (p : Part) : (p.reduced r).portList.Sublist p.portList := by
  cases hd : p.desc with
  | none => simp [Part.portList, Part.reduced, hd]
  | some d =>
    simp only [Part.portList, Part.reduced, hd, Option.map_some, Option.getD_some, Desc.reduced]
    rw [bitList_keepBits _ _ (by omega)]
    exact List.filter_sublist

/-- Units close: they are in the harvest map, with what they take with them, and fail no more. -/
def State.closed (s : State) (us : List UnitName) : State :=
  { s with retired := closeUnits (s.retired ++ us), failing := s.failing.filter (fun u => !us.contains u) }

/-- What a retired unit takes with it: bits of descriptors, and the memory behind a port. -/
def State.unitsGone (s : State) : State :=
  { s with parts := s.parts.map (fun e => (e.1, e.2.reduced s))
           stack := s.stack.filter (fun e => match regionOf e.1 with
             | .port p _ => !s.portRetired p
             | _ => true) }

/-- Units retire, and entries that led to what they take with them go; whether the mesh pauses is decided then. -/
def State.afterRetiring (s : State) (us : List UnitName) : State :=
  ((s.closed us).unitsGone.parts.map (·.1)).foldl State.pruned (s.closed us).unitsGone

theorem State.retireUnits_nil (s : State) : s.retireUnits [] = s := rfl

theorem State.retireUnits_of_ne {s : State} {us : List UnitName} (h : us ≠ []) : s.retireUnits us =
    let w := s.afterRetiring us
    if w.meshPause || linksLeft w.retired == linksLeft s.retired then w
    else { w with meshPause := true, meshMark := w.nextId, meshHeld := w.uninjected } := by
  have hne : us.isEmpty = false := by simpa using h
  simp only [State.retireUnits, hne, Bool.false_eq_true, if_false]
  rfl

theorem State.afterRetiring_rest (s : State) (us : List UnitName) : s.afterRetiring us =
    { s with retired := closeUnits (s.retired ++ us), failing := s.failing.filter (fun u => !us.contains u)
             parts := (s.afterRetiring us).parts, stack := (s.afterRetiring us).stack
             fronts := (s.afterRetiring us).fronts, dies := (s.afterRetiring us).dies } := by
  unfold State.afterRetiring
  refine List.foldlRecOn (motive := fun t : State => t =
    { s with retired := closeUnits (s.retired ++ us), failing := s.failing.filter (fun u => !us.contains u)
             parts := t.parts, stack := t.stack, fronts := t.fronts, dies := t.dies }) _ _ rfl fun t ht p _ => ?_
  rw [State.pruned_rest, ht]

/-- Nothing changes but the harvest map, what it takes from partitions and memory, and the mesh. -/
theorem State.retireUnits_rest (s : State) (us : List UnitName) : s.retireUnits us =
    { s with retired := (s.retireUnits us).retired, failing := (s.retireUnits us).failing, parts := (s.retireUnits us).parts
             stack := (s.retireUnits us).stack, fronts := (s.retireUnits us).fronts, dies := (s.retireUnits us).dies
             meshPause := (s.retireUnits us).meshPause, meshMark := (s.retireUnits us).meshMark
             meshHeld := (s.retireUnits us).meshHeld } := by
  by_cases h : us = []
  · subst h; rfl
  · rw [State.retireUnits_of_ne h]
    dsimp only
    split_ifs <;> rw [State.afterRetiring_rest]

theorem State.retireUnits_retired (s : State) (us : List UnitName) :
    (s.retireUnits us).retired = if us = [] then s.retired else closeUnits (s.retired ++ us) := by
  split_ifs with h
  · subst h; rfl
  · rw [State.retireUnits_of_ne h]
    dsimp only
    split_ifs <;> rw [State.afterRetiring_rest]

theorem State.retireUnits_failing (s : State) (us : List UnitName) :
    (s.retireUnits us).failing = s.failing.filter (fun u => !us.contains u) := by
  by_cases h : us = []
  · subst h
    rw [State.retireUnits_nil]
    simp
  · rw [State.retireUnits_of_ne h]
    dsimp only
    split_ifs <;> rw [State.afterRetiring_rest]

theorem State.unitsGone_part (s : State) (k : Nat) : s.unitsGone.part k = (s.part k).reduced s :=
  tget_map (g := Part.reduced s) rfl s.parts k

/-- A partition after units retire: its descriptor is reduced, and it keeps the entries that lead where it still has addresses. -/
theorem State.retireUnits_part {s : State} {us : List UnitName} (h : us ≠ []) (k : Nat) :
    (s.retireUnits us).part k = ((s.part k).reduced (s.retireUnits us)).keeping ((s.retireUnits us).assigned k) := by
  have hpart : (s.retireUnits us).part k = (s.afterRetiring us).part k := by
    rw [State.retireUnits_of_ne h]
    dsimp only
    split_ifs <;> rfl
  have hgone : (s.afterRetiring us).part k =
      ((s.part k).reduced (s.closed us)).keeping ((s.closed us).unitsGone.assigned k) := by
    rw [State.afterRetiring, State.pruneAll_part, State.unitsGone_part]
    rfl
  have hdesc : ((s.retireUnits us).part k).desc = ((s.closed us).unitsGone.part k).desc := by
    rw [hpart, hgone, State.unitsGone_part]
    rfl
  have hred : (s.part k).reduced (s.retireUnits us) = (s.part k).reduced (s.closed us) := by
    simp only [Part.reduced, funext fun d => Desc.reduced_congr (r := s.closed us) (t := s.retireUnits us)
      ((s.retireUnits_retired us).trans (if_neg h)) d]
  rw [hpart, hgone, hred, State.assigned_congr hdesc]

end Sys2Proof.Machine
end

section
/-! SUPPORT. Partition reset (R87, R437): its stages, what each leaves alone, and what the whole leaves. -/

namespace Sys2Proof.Machine

/-! ## The stages of a partition reset -/

/-- Step 3: the launches that have not retired get their records. -/
def State.recordsReset (s : State) (part : Nat) : State := (s.part part).launches.foldl (fun s l => s.resetRecord part l) s

/-- Steps 1, 2 and 4 for the units of a descriptor, if there is one. -/
def State.unitsReset (s : State) (part : Nat) : Option Desc → State
  | some d => s.resetUnits part d
  | none => s

/-- The partition as step 4 leaves it, under the descriptor that takes effect. -/
def Part.installed (p : Part) (new : Option Desc) (hot : Bool) (clk : Clock) : Part :=
  match new with
  | some d => { p with desc := some d, serials := [] }.afterReset hot clk
  | none => p.afterReset hot clk

/-- Both descriptors' units are reset: what the partition itself becomes is not yet decided. -/
def State.bothReset (s : State) (part : Nat) (new : Option Desc) : State :=
  ((s.recordsReset part).unitsReset part (s.part part).desc).unitsReset part new

/-- What a partition's records have told and will have told the host. -/
def State.resetClock (s : State) (part : Nat) : Clock :=
  (((s.part part).desc.map Desc.cores).getD []).foldl (fun c k => c.join ((s.recordsReset part).die (dieOf k)).clk)
    ((s.recordsReset part).part part).recClk

/-- The partition is as step 4 leaves it, its function's status is clear and the copies of its objects are written. -/
def State.reinstalled (s : State) (part : Nat) (new : Option Desc) : State :=
  let t := s.bothReset part new
  let hot := t.hot (if new.isSome then new else (s.part part).desc)
  (((s.recordsReset part).part part).objs.filter (fun e => decide (e.2 ≠ Obj.reset))).foldl (fun s o => s.copyObject part o.1)
    ((t.modPart part (fun p => p.installed new hot (s.resetClock part))).modFunc (fnOf part) (fun f => { f with fstat := 0 }))

/-- Failing units of the descriptor before and of the one that takes effect: they retire (R436). -/
def State.outOf (s : State) (old new : Option Desc) : List UnitName :=
  s.failing.filter (fun u => ((old.map (·.holds u)).getD false) || ((new.map (·.holds u)).getD false))

/-- The partition as step 4 leaves it. -/
def State.asInstalled (s : State) (part : Nat) (new : Option Desc) : Part :=
  (s.part part).installed new (s.hot (if new.isSome then new else (s.part part).desc)) (s.resetClock part)

/-- That partition, field by field. -/
theorem State.asInstalled_eq (s : State) (part : Nat) (new : Option Desc) {d : Desc} (hd : (s.part part).desc = some d) :
    s.asInstalled part new = { Part.reset with
      desc := some (new.getD d), leaves := (s.part part).leaves, ranges := (s.part part).ranges, egress := (s.part part).egress
      pubwins := (s.part part).pubwins, policies := (s.part part).policies
      serials := if new = none then (s.part part).serials else [], recClk := s.resetClock part
      step := if s.hot (some (new.getD d)) = true then 0 else (new.getD d).ceiling } := by
  unfold State.asInstalled Part.installed Part.afterReset
  cases new <;> simp [hd]

theorem State.recordsReset_rest (s : State) (part : Nat) : s.recordsReset part =
    { s with host0 := (s.recordsReset part).host0, host1 := (s.recordsReset part).host1, funcs := (s.recordsReset part).funcs } := by
  refine List.foldlRecOn (motive := fun t : State => t = { s with host0 := t.host0, host1 := t.host1, funcs := t.funcs }) _ _ rfl
    fun t ht l _ => ?_
  unfold State.resetRecord State.putRecord State.hostPut State.hostPoke
  dsimp only
  split_ifs
  · exact ht
  all_goals rw [ht]; rfl

theorem State.resetPartition_eq (s : State) (part : Nat) (new : Option Desc) : s.resetPartition part new =
    ((s.reinstalled part new).pruned part).dropDone.retireUnits ((s.reinstalled part new).outOf (s.part part).desc new) := by
  unfold State.resetPartition State.reinstalled State.bothReset State.resetClock State.outOf
  dsimp only
  rw [List.foldl_map]
  cases (s.part part).desc <;> cases new <;> rfl

/-! ## The units of a descriptor (R437) -/

/-- Cores, queues and groups of a descriptor as after reset, before anything else of it. -/
def State.unitsCleared (s : State) (d : Desc) : State :=
  d.groups.foldl (fun s g => if (tfind s.groups g).isSome then s.modGroup g (fun _ => Group.reset) else s)
    (d.queues.foldl (fun s q => if (tfind s.queues q).isSome then s.modQueue q Queue.afterReset else s)
      (d.cores.foldl (fun s c => s.modCore c (fun _ => Core.reset)) s))

theorem State.unitsCleared_rest (s : State) (d : Desc) : s.unitsCleared d =
    { s with cores := (s.unitsCleared d).cores, queues := (s.unitsCleared d).queues, groups := (s.unitsCleared d).groups } := by
  unfold State.unitsCleared
  refine List.foldlRecOn (motive := fun t : State => t = { s with cores := t.cores, queues := t.queues, groups := t.groups }) _ _
    (List.foldlRecOn (motive := fun t : State => t = { s with cores := t.cores, queues := t.queues, groups := t.groups }) _ _
      ?_ fun t ht q _ => ?_) fun t ht g _ => ?_
  · rw [foldl_modCore_rest]
  · split_ifs
    · rw [ht]; rfl
    · exact ht
  · split_ifs
    · rw [ht]; rfl
    · exact ht

theorem State.unitsCleared_cores (s : State) (d : Desc) :
    (s.unitsCleared d).cores = (d.cores.foldl (fun s c => s.modCore c (fun _ => Core.reset)) s).cores := by
  unfold State.unitsCleared
  rw [foldl_keeps (g := State.cores), foldl_keeps (g := State.cores)]
  · intro t q
    split_ifs <;> rfl
  · intro t g
    split_ifs <;> rfl

/-- What a descriptor's units are is decided by their cores: nothing of other tables changes. -/
theorem State.resetUnits_rest (s : State) (part : Nat) (d : Desc) : s.resetUnits part d =
    let t := s.resetUnits part d
    { s with cores := t.cores, queues := t.queues, groups := t.groups, reads := t.reads, writes := t.writes, atoms := t.atoms
             vsyncReqs := t.vsyncReqs, groupReqs := t.groupReqs, gate := t.gate, snaps := t.snaps, cells := t.cells
             engines := t.engines, dies := t.dies, slots := t.slots, slotTables := t.slotTables } := by
  have rest := s.unitsCleared_rest d
  unfold State.unitsCleared at rest
  dsimp only
  unfold State.resetUnits
  dsimp only
  rw [rest]

theorem Desc.mem_cores {d : Desc} {c : Nat} (hc : c < 64) (h : d.quads.getLsbD (c / 4) = true) : c ∈ d.cores := by
  refine List.mem_flatMap.mpr ⟨c / 4, mem_bitList.mpr ⟨by omega, h⟩, List.mem_map.mpr ⟨c % 4, ?_, by omega⟩⟩
  have : c % 4 < 4 := Nat.mod_lt _ (by omega)
  interval_cases c % 4 <;> decide

/-- Nothing is left of the units of a descriptor: its cores are as after reset, and what they had sent has been answered. -/
structure State.ClearOf (t : State) (d : Desc) : Prop where
  core : ∀ c < 64, d.quads.getLsbD (c / 4) = true → t.core c = Core.reset
  reads : ∀ r ∈ t.reads, d.quads.getLsbD (r.core / 4) = false
  atoms : ∀ a ∈ t.atoms, d.quads.getLsbD (a.core / 4) = false
  writes : ∀ w ∈ t.writes, d.quads.getLsbD (w.core / 4) = true → w.performed = true ∧ w.acked = true

theorem State.ClearOf.congr {s t : State} {d : Desc} (h : s.ClearOf d) (hcores : t.cores = s.cores) (hreads : t.reads = s.reads)
    (hatoms : t.atoms = s.atoms) (hwrites : ∀ w ∈ t.writes, w ∈ s.writes) : t.ClearOf d := by
  refine ⟨fun c hc hd => ?_, hreads ▸ h.reads, hatoms ▸ h.atoms, fun w hw => h.writes w (hwrites w hw)⟩
  rw [State.core, hcores]
  exact h.core c hc hd

/-- A write on its way from a descriptor's core goes on as an empty one, performed and acknowledged. -/
def WriteReq.emptiedBy (d : Desc) (w : WriteReq) : WriteReq :=
  if !d.quads.getLsbD (w.core / 4) then w
  else if w.performed then { w with acked := true }
  else { w with cells := [], raises := [], performed := true, acked := true }

theorem WriteReq.emptiedBy_core (d : Desc) (w : WriteReq) : (w.emptiedBy d).core = w.core := by
  unfold WriteReq.emptiedBy
  split_ifs <;> rfl

theorem WriteReq.emptiedBy_done {d : Desc} {w : WriteReq} (h : d.quads.getLsbD (w.core / 4) = true) :
    (w.emptiedBy d).performed = true ∧ (w.emptiedBy d).acked = true := by
  unfold WriteReq.emptiedBy
  rw [h]
  split_ifs with hp
  · exact absurd hp (by decide)
  · exact ⟨by assumption, rfl⟩
  · exact ⟨rfl, rfl⟩

theorem WriteReq.emptiedBy_keeps_done (d : Desc) {w : WriteReq} (h : w.performed = true ∧ w.acked = true) :
    (w.emptiedBy d).performed = true ∧ (w.emptiedBy d).acked = true := by
  unfold WriteReq.emptiedBy
  split_ifs
  · exact h
  · exact ⟨h.1, rfl⟩
  · exact ⟨rfl, rfl⟩

section
variable (s : State) (part : Nat) (d : Desc)

theorem State.resetUnits_reads : (s.resetUnits part d).reads = s.reads.filter (fun r => !d.quads.getLsbD (r.core / 4)) := by
  show (s.unitsCleared d).reads.filter _ = _
  rw [s.unitsCleared_rest]

theorem State.resetUnits_atoms : (s.resetUnits part d).atoms = s.atoms.filter (fun a => !d.quads.getLsbD (a.core / 4)) := by
  show (s.unitsCleared d).atoms.filter _ = _
  rw [s.unitsCleared_rest]

theorem State.resetUnits_writes : (s.resetUnits part d).writes =
    (s.writes.filter (fun w => !(d.quads.getLsbD (w.core / 4) && w.held))).map (WriteReq.emptiedBy d) := by
  show ((s.unitsCleared d).writes.filter _).map _ = _
  rw [s.unitsCleared_rest]
  rfl

theorem State.resetUnits_core (c : Nat) :
    (s.resetUnits part d).core c = (d.cores.foldl (fun s c => s.modCore c (fun _ => Core.reset)) s).core c := by
  show tget Core.reset (s.unitsCleared d).cores c = _
  rw [s.unitsCleared_cores]
  rfl

/-- A reset leaves nothing of its own units. -/
theorem State.resetUnits_clearOf : (s.resetUnits part d).ClearOf d where
  core c hc hd := by
    rw [State.resetUnits_core]
    exact foldl_modCore_core (P := fun k => k = Core.reset) (fun _ => rfl) d.cores s c (Desc.mem_cores hc hd)
  reads r hr := by
    rw [State.resetUnits_reads] at hr
    simpa using (List.mem_filter.mp hr).2
  atoms a ha := by
    rw [State.resetUnits_atoms] at ha
    simpa using (List.mem_filter.mp ha).2
  writes w hw hd := by
    rw [State.resetUnits_writes] at hw
    obtain ⟨v, -, rfl⟩ := List.mem_map.mp hw
    rw [WriteReq.emptiedBy_core] at hd
    exact WriteReq.emptiedBy_done hd

variable {s}

/-- A reset of other units brings nothing back. -/
theorem State.ClearOf.resetUnits {d' : Desc} (h : s.ClearOf d') : (s.resetUnits part d).ClearOf d' where
  core c hc hd := by
    rw [State.resetUnits_core]
    refine List.foldlRecOn (motive := fun t : State => t.core c = Core.reset) _ _ (h.core c hc hd) fun t ht k _ => ?_
    rw [State.modCore_core]
    split_ifs
    · rfl
    · exact ht
  reads r hr := by
    rw [State.resetUnits_reads] at hr
    exact h.reads r (List.mem_of_mem_filter hr)
  atoms a ha := by
    rw [State.resetUnits_atoms] at ha
    exact h.atoms a (List.mem_of_mem_filter ha)
  writes w hw hd := by
    rw [State.resetUnits_writes] at hw
    obtain ⟨v, hv, rfl⟩ := List.mem_map.mp hw
    rw [WriteReq.emptiedBy_core] at hd
    exact WriteReq.emptiedBy_keeps_done d (h.writes v (List.mem_of_mem_filter hv) hd)

end

/-! ## What the stages leave (R437) -/

theorem State.copyObject_func (s : State) (part obj n : Nat) : (s.copyObject part obj).func n = s.func n := by
  rw [State.copyObject_rest]; rfl

section
variable (s : State) (part : Nat) (new : Option Desc)

theorem State.bothReset_rest : s.bothReset part new =
    let t := s.bothReset part new
    { s with host0 := t.host0, host1 := t.host1, funcs := t.funcs, cores := t.cores, queues := t.queues, groups := t.groups
             reads := t.reads, writes := t.writes, atoms := t.atoms, vsyncReqs := t.vsyncReqs, groupReqs := t.groupReqs
             gate := t.gate, snaps := t.snaps, cells := t.cells, engines := t.engines, dies := t.dies, slots := t.slots
             slotTables := t.slotTables } := by
  dsimp only
  have h := s.recordsReset_rest part
  unfold State.bothReset
  generalize s.recordsReset part = r at *
  cases (s.part part).desc <;> cases new <;> simp only [State.unitsReset]
  · rw [h]
  · rw [State.resetUnits_rest, h]
  · rw [State.resetUnits_rest, h]
  · rw [State.resetUnits_rest (r.resetUnits _ _), State.resetUnits_rest r, h]

theorem State.bothReset_clearOf_old {d : Desc} (h : (s.part part).desc = some d) : (s.bothReset part new).ClearOf d := by
  have hd := (s.recordsReset part).resetUnits_clearOf part d
  unfold State.bothReset
  rw [h]
  cases new with
  | none => exact hd
  | some e => exact hd.resetUnits part e

theorem State.bothReset_clearOf_new (d : Desc) : (s.bothReset part (some d)).ClearOf d := State.resetUnits_clearOf ..

/-- Nothing is left of the descriptor that takes effect. -/
theorem State.bothReset_clearOf_getD {d : Desc} (h : (s.part part).desc = some d) : (s.bothReset part new).ClearOf (new.getD d) := by
  cases new with
  | none => exact s.bothReset_clearOf_old part none h
  | some e => exact s.bothReset_clearOf_new part e

theorem State.reinstalled_rest : s.reinstalled part new =
    let t := s.reinstalled part new
    { s.bothReset part new with parts := t.parts, funcs := t.funcs, host0 := t.host0, host1 := t.host1 } := by
  dsimp only
  unfold State.reinstalled
  refine List.foldlRecOn (motive := fun t : State => t =
    { s.bothReset part new with parts := t.parts, funcs := t.funcs, host0 := t.host0, host1 := t.host1 }) _ _ rfl fun t ht o _ => ?_
  rw [State.copyObject_rest, ht]

theorem State.reinstalled_part (k : Nat) : (s.reinstalled part new).part k =
    if k = part then s.asInstalled part new else s.part k := by
  have hhot : ∀ o, (s.bothReset part new).hot o = s.hot o := fun o => by rw [s.bothReset_rest]; rfl
  have hpart : ∀ k, (s.bothReset part new).part k = s.part k := fun k => by rw [s.bothReset_rest]; rfl
  unfold State.reinstalled State.asInstalled
  dsimp only
  rw [foldl_keeps (g := fun t : State => t.part k) fun t o => t.copyObject_part ..]
  rw [State.modFunc_part, State.modPart_part, hhot, hpart, hpart]

theorem State.reinstalled_fstat : ((s.reinstalled part new).func (fnOf part)).fstat = 0 := by
  unfold State.reinstalled
  dsimp only
  rw [foldl_keeps (g := fun t : State => t.func (fnOf part)) fun t o => t.copyObject_func ..]
  rw [State.modFunc_func, if_pos rfl]

end

/-! ## What a partition reset leaves (R87, R436, R437) -/

/-- The partition has been reset, and the units that fail have not yet retired. -/
def State.resetButUnits (s : State) (part : Nat) (new : Option Desc) : State := ((s.reinstalled part new).pruned part).dropDone

section
variable (s : State) (part : Nat) (new : Option Desc)

theorem State.resetPartition_retires : s.resetPartition part new =
    (s.resetButUnits part new).retireUnits (s.outOf (s.part part).desc new) := by
  have hout : (s.reinstalled part new).outOf = s.outOf := by
    unfold State.outOf
    rw [s.reinstalled_rest, s.bothReset_rest]
  rw [s.resetPartition_eq, hout]
  rfl

theorem State.reinstalled_keeps : (s.reinstalled part new).retired = s.retired ∧
    (s.reinstalled part new).failing = s.failing ∧ (s.reinstalled part new).meshPause = s.meshPause ∧
    (s.reinstalled part new).meshMark = s.meshMark ∧ (s.reinstalled part new).meshHeld = s.meshHeld := by
  rw [s.reinstalled_rest, s.bothReset_rest]
  exact ⟨rfl, rfl, rfl, rfl, rfl⟩

/-- What decides about the mesh and the harvest map is as before. -/
theorem State.resetButUnits_keeps : (s.resetButUnits part new).retired = s.retired ∧
    (s.resetButUnits part new).failing = s.failing ∧ (s.resetButUnits part new).meshPause = s.meshPause ∧
    (s.resetButUnits part new).meshMark = s.meshMark ∧ (s.resetButUnits part new).meshHeld = s.meshHeld := by
  have keeps := s.reinstalled_keeps part new
  unfold State.resetButUnits
  generalize s.reinstalled part new = r at keeps
  exact keeps

theorem State.resetButUnits_part (k : Nat) : (s.resetButUnits part new).part k =
    if k = part then (s.asInstalled part new).keeping ((s.resetButUnits part new).assigned part) else s.part k := by
  have hpart : (s.resetButUnits part new).part k = ((s.reinstalled part new).pruned part).part k := rfl
  have hassigned : (s.resetButUnits part new).assigned part = (s.reinstalled part new).assigned part :=
    (s.reinstalled part new).pruned_assigned part part
  rw [hpart, hassigned, State.pruned_part, s.reinstalled_part, s.reinstalled_part, if_pos rfl]
  split_ifs <;> rfl

theorem State.resetPartition_retired : (s.resetPartition part new).retired =
    if s.outOf (s.part part).desc new = [] then s.retired else closeUnits (s.retired ++ s.outOf (s.part part).desc new) := by
  rw [s.resetPartition_retires, State.retireUnits_retired, (s.resetButUnits_keeps part new).1]

theorem State.resetPartition_failing : (s.resetPartition part new).failing =
    s.failing.filter (fun u => !(s.outOf (s.part part).desc new).contains u) := by
  rw [s.resetPartition_retires, State.retireUnits_failing, (s.resetButUnits_keeps part new).2.1]

/-- The partition after its reset: as step 4 leaves it, without what has retired, and with the entries that still lead to its
addresses. -/
theorem State.resetPartition_part_self : (s.resetPartition part new).part part =
    (if s.outOf (s.part part).desc new = [] then s.asInstalled part new
     else (s.asInstalled part new).reduced (s.resetPartition part new)).keeping ((s.resetPartition part new).assigned part) := by
  have hpart := s.resetButUnits_part part new part
  rw [if_pos rfl] at hpart
  rw [s.resetPartition_retires]
  split_ifs with hout
  · rw [hout, State.retireUnits_nil]
    exact hpart
  · set t := (s.resetButUnits part new).retireUnits (s.outOf (s.part part).desc new)
    have ht : t.part part = ((s.asInstalled part new).reduced t |>.keeping ((s.resetButUnits part new).assigned part)).keeping
        (t.assigned part) := by
      rw [State.retireUnits_part hout, hpart]
      rfl
    rw [ht, Part.keeping_keeping]
    refine fun a n => State.assigned_of_fewer_ports ?_
    rw [ht, hpart]
    exact Part.reduced_portList ..

/-- That partition, field by field. -/
theorem State.resetPartition_part_fields {d : Desc} (hd : (s.part part).desc = some d) : (s.resetPartition part new).part part =
    { Part.reset with
      desc := some (if s.outOf (s.part part).desc new = [] then new.getD d else (new.getD d).reduced (s.resetPartition part new))
      leaves := (s.part part).leaves, ranges := (s.part part).ranges, egress := (s.part part).egress
      pubwins := (s.part part).pubwins, policies := (s.part part).policies
      serials := if new = none then (s.part part).serials else [], recClk := s.resetClock part
      step := if s.hot (some (new.getD d)) = true then 0 else (new.getD d).ceiling : Part }.keeping
      ((s.resetPartition part new).assigned part) := by
  rw [s.resetPartition_part_self, s.asInstalled_eq part new hd]
  by_cases hout : s.outOf (s.part part).desc new = []
  · rw [if_pos hout, if_pos hout]
  · rw [if_neg hout, if_neg hout]
    rfl

/-- Other partitions keep everything where nothing retires, and their launches always. -/
theorem State.resetPartition_part_other {k : Nat} (hk : k ≠ part) :
    (s.outOf (s.part part).desc new = [] → (s.resetPartition part new).part k = s.part k) ∧
    ((s.resetPartition part new).part k).launches = (s.part k).launches := by
  have hpart := s.resetButUnits_part part new k
  rw [if_neg hk] at hpart
  rw [s.resetPartition_retires]
  refine ⟨fun hout => by rw [hout, State.retireUnits_nil, hpart], ?_⟩
  by_cases hout : s.outOf (s.part part).desc new = []
  · rw [hout, State.retireUnits_nil, hpart]
  · rw [State.retireUnits_part hout, hpart]
    rfl

theorem State.resetPartition_launches (k : Nat) :
    ((s.resetPartition part new).part k).launches = if k = part then [] else (s.part k).launches := by
  split_ifs with hk
  · rw [hk, State.resetPartition_part_self]
    split_ifs <;> cases new <;> rfl
  · exact (s.resetPartition_part_other part new hk).2

/-- Entries that go and units that retire touch neither cores nor functions, and bring no request back. -/
theorem State.retiring_keeps (r : State) (us : List UnitName) : let t := (r.pruned part).dropDone.retireUnits us
    t.cores = r.cores ∧ t.reads = r.reads ∧ t.atoms = r.atoms ∧ t.funcs = r.funcs ∧ ∀ w ∈ t.writes, w ∈ r.writes := by
  dsimp only
  rw [State.retireUnits_rest]
  exact ⟨rfl, rfl, rfl, rfl, fun w hw => List.mem_of_mem_filter hw⟩

/-- Nothing of a descriptor whose units were reset is left. -/
theorem State.resetPartition_clearOf {d : Desc} (h : (s.bothReset part new).ClearOf d) : (s.resetPartition part new).ClearOf d := by
  have hr : (s.reinstalled part new).ClearOf d := by
    rw [s.reinstalled_rest]
    exact h.congr rfl rfl rfl fun _ hw => hw
  obtain ⟨cores, reads, atoms, -, writes⟩ := State.retiring_keeps part (s.reinstalled part new) (s.outOf (s.part part).desc new)
  rw [s.resetPartition_retires]
  exact hr.congr cores reads atoms writes

theorem State.resetPartition_fstat : ((s.resetPartition part new).func (fnOf part)).fstat = 0 := by
  obtain ⟨-, -, -, funcs, -⟩ := State.retiring_keeps part (s.reinstalled part new) (s.outOf (s.part part).desc new)
  rw [s.resetPartition_retires, State.func]
  exact (congrArg (fun t : Table Func => (tget Func.reset t (fnOf part)).fstat) funcs).trans (s.reinstalled_fstat part new)

end

/-! ## The pause of the mesh (R130) -/

/-- A pause that has begun goes on as it is; one begins where the links left are others, and holds what has not been injected. -/
theorem State.retireUnits_mesh (s : State) (us : List UnitName) : let t := s.retireUnits us
    (s.meshPause = true → t.meshPause = true ∧ t.meshMark = s.meshMark ∧ t.meshHeld = s.meshHeld) ∧
    (s.meshPause = false → (t.meshPause = true ↔ linksLeft t.retired ≠ linksLeft s.retired) ∧
      (t.meshPause = true → t.meshMark = t.nextId ∧ t.meshHeld = t.uninjected)) := by
  intro t
  by_cases hus : us = []
  · have ht : t = s := by rw [show t = s.retireUnits us from rfl, hus, State.retireUnits_nil]
    rw [ht]
    exact ⟨fun h => ⟨h, rfl, rfl⟩, fun h => by simp [h]⟩
  have hw := s.afterRetiring_rest us
  have ht : t = _ := State.retireUnits_of_ne hus
  set w := s.afterRetiring us
  have hpause : w.meshPause = s.meshPause := by rw [hw]
  dsimp only at ht
  refine ⟨fun h => ?_, fun h => ?_⟩
  · rw [if_pos (by simp [hpause, h])] at ht
    rw [ht, hw]
    exact ⟨h, rfl, rfl⟩
  · by_cases hl : linksLeft w.retired = linksLeft s.retired
    · rw [if_pos (by simp [hl])] at ht
      rw [ht]
      simp [hpause, h, hl]
    · rw [if_neg (by simp [hpause, h, hl])] at ht
      rw [ht]
      exact ⟨iff_of_true rfl hl, fun _ => ⟨rfl, rfl⟩⟩

/-- What has not been injected: what waits for a walk, or at its core. -/
theorem State.mem_uninjected (s : State) :
    (∀ r ∈ s.reads, (s.walking r.id = true ∨ s.behind r = true) → r.id ∈ s.uninjected) ∧
    (∀ w ∈ s.writes, s.walking w.id = true → w.sent ∈ s.uninjected) ∧
    ∀ a ∈ s.atoms, s.walking a.id = true → a.id ∈ s.uninjected := by
  simp only [State.uninjected, List.mem_append, List.mem_map, List.mem_filter, Bool.or_eq_true]
  exact ⟨fun r hr h => .inl (.inl ⟨r, ⟨hr, h⟩, rfl⟩), fun w hw h => .inl (.inr ⟨w, ⟨hw, h⟩, rfl⟩),
    fun a ha h => .inr ⟨a, ⟨ha, h⟩, rfl⟩⟩

end Sys2Proof.Machine
end

section
/-! SUPPORT. The other events of the module: the end of a mesh rebuild (R130), links and peer ports (R250, R445, R446), power, heat and
corrected errors (R98, R436, R448, R449). -/

namespace Sys2Proof.Machine

/-! ## What moves in the mesh (R130) -/

/-- A read without its reply that can be served: the IOD takes it, or it arrives at its granule or at its homes. -/
def State.servable (s : State) (r : ReadReq) : Prop :=
  match r.kind with
  | .sysr _ => True
  | .fe _ => ∃ c, r.pas.head?.bind sliceOf = some c ∧ s.feArrives r c = true
  | .mem => s.readable r = true

theorem State.readMoves_eq_true {s : State} {r : ReadReq} : s.readMoves r = true ↔
    s.notInjected r.id = false ∧ overMesh r.core r.pas = true ∧
    ((∃ v, r.reply = some v ∧ (s.die (dieOf r.core)).clk.covers r.rclk = true) ∨ (r.reply = none ∧ s.servable r)) := by
  unfold State.readMoves State.servable
  rw [Bool.and_eq_true, Bool.and_eq_true, Bool.not_eq_true', and_comm (a := overMesh r.core r.pas = true), and_assoc]
  refine and_congr_right fun _ => and_congr_right fun _ => ?_
  cases r.reply with
  | some v => simp
  | none =>
    cases r.kind with
    | sysr n => simp
    | mem => simp
    | fe clr => cases r.pas.head?.bind sliceOf <;> simp

theorem State.writeMoves_eq_true {s : State} {w : WriteReq} : s.writeMoves w = true ↔ s.notInjected w.sent = false ∧
    ((∃ d < 4, s.applicable d w = true) ∨
      (overMesh w.core w.pas = true ∧ (s.canPerform w = true ∨ (w.performed = true ∧ w.acked = false)))) := by
  have hfour : four.any (fun d => s.applicable d w) = true ↔ ∃ d < 4, s.applicable d w = true := by
    rw [List.any_eq_true, show four = List.range 4 from rfl]
    simp only [List.mem_range]
  simp only [State.writeMoves, Bool.and_eq_true, Bool.or_eq_true, Bool.not_eq_true', hfour]
  exact and_congr_right fun _ => or_comm

theorem State.atomMoves_eq_true {s : State} {a : AtomReq} : s.atomMoves a = true ↔ a.station = 9 ∧ s.notInjected a.id = false ∧
    (a.stage = .replied ∨ (a.stage = .applied ∧ (s.die (dieOf a.core)).clk.covers a.clk = true) ∨
      (a.stage = .sent ∧ if a.id ∈ (s.engine a.engine).inq then s.readyAt a.engine (s.arrivedAt a.engine) a = true
        else s.mayArrive a = true ∧ a ∈ oldestEach (s.comingTo a.engine))) := by
  unfold State.atomMoves
  cases a.stage with
  | sent =>
    by_cases hin : a.id ∈ (s.engine a.engine).inq <;> simp [hin, and_assoc]
  | applied => simp [and_assoc]
  | replied => simp

theorem State.haloMoves_eq_true {s : State} {core : Nat} {b : Inbox} : s.haloMoves core b = true ↔
    b.st = .granted ∧ (s.core core).arrivesAfter b = false ∧ (s.die (dieOf core)).clk.covers b.clk = true := by
  simp [State.haloMoves, and_assoc]

/-- The classes have not drained while something moves. -/
theorem State.meshDrained_eq_false {s : State} : s.meshDrained = false ↔
    (∃ r ∈ s.reads, s.readMoves r = true) ∨ (∃ w ∈ s.writes, s.writeMoves w = true) ∨ (∃ a ∈ s.atoms, s.atomMoves a = true) ∨
    (∃ d ∈ s.dies, ∃ m ∈ d.2.misses, m.2.started = true) ∨
    ∃ k ∈ s.cores, ∃ c ∈ k.2.calls, ∃ b ∈ c.inboxes, s.haloMoves k.1 b = true := by
  simp only [State.meshDrained, Bool.and_eq_false_iff, Bool.not_eq_false', List.any_eq_true, or_assoc]

theorem exec_meshRoutesInstalled (s : State) : exec .meshRoutesInstalled s =
    .next (if s.meshDrained then { s with meshPause := false, meshHeld := [] } else s) := by rfl

/-! ## Copies that meet an error (R250) -/

/-- A copy in the queue of a context stands in a core and a context that the tables list. -/
theorem State.mem_cores_of_mem_copyq {s : State} {core ctx : Nat} {e : CopyEntry} (h : e ∈ (s.ctx core ctx).copyq) :
    (core, s.core core) ∈ s.cores ∧ (ctx, s.ctx core ctx) ∈ (s.core core).ctxs := by
  have hctx : (ctx, s.ctx core ctx) ∈ (s.core core).ctxs := by
    refine (tget_eq_or_mem Ctx.reset (s.core core).ctxs ctx).resolve_left fun hr => ?_
    rw [show s.ctx core ctx = Ctx.reset from hr] at h
    exact absurd h List.not_mem_nil
  refine ⟨(tget_eq_or_mem Core.reset s.cores core).resolve_left fun hr => ?_, hctx⟩
  rw [show s.core core = Core.reset from hr] at hctx
  exact absurd hctx List.not_mem_nil

/-- A running copy whose next element lies in a region at a side, the source first, is among those that use the region. -/
theorem State.mem_copiesIn {s : State} {uses : Region → Bool} {core ctx : Nat} {e : CopyEntry} {side : Bool}
    (h : e ∈ (s.ctx core ctx).copyq) (hst : e.stage = .running)
    (hside : [false, true].find? (fun b => (s.nextElement core e b).any (fun a => uses (regionOf a))) = some side) :
    (core, ctx, e.uid, side) ∈ s.copiesIn uses := by
  obtain ⟨hcore, hctx⟩ := State.mem_cores_of_mem_copyq h
  refine List.mem_flatMap.mpr ⟨_, hcore, List.mem_flatMap.mpr ⟨_, hctx, List.mem_filterMap.mpr ⟨e, h, ?_⟩⟩⟩
  dsimp only
  rw [if_neg (by simp [hst]), hside]
  rfl

theorem Ctx.entry_uid {x : Ctx} {uid : Nat} {e : CopyEntry} (h : x.entry uid = some e) : e.uid = uid := by
  simpa using List.find?_some h

/-- An entry whose change keeps its number is found under that number. -/
theorem State.modEntry_entry {s : State} {core ctx uid : Nat} {e : CopyEntry} {f : CopyEntry → CopyEntry}
    (h : (s.ctx core ctx).entry uid = some e) (hf : ∀ e, (f e).uid = e.uid) :
    ((s.modEntry core ctx uid f).ctx core ctx).entry uid = some (f e) := by
  have hpred : (fun e : CopyEntry => (if e.uid = uid then f e else e).uid == uid) = fun e => e.uid == uid := by
    funext e
    split_ifs
    · rw [hf]
    · rfl
  rw [State.modEntry, State.modCtx_ctx, if_pos ⟨rfl, rfl⟩]
  unfold Ctx.entry at *
  rw [List.find?_map, Function.comp_def, hpred, h, Option.map_some, if_pos (by simpa using List.find?_some h)]

theorem State.modEntry_modEntry (s : State) (core ctx uid : Nat) {f g : CopyEntry → CopyEntry} (hf : ∀ e, (f e).uid = e.uid) :
    (s.modEntry core ctx uid f).modEntry core ctx uid g = s.modEntry core ctx uid (fun e => g (f e)) := by
  unfold State.modEntry
  rw [State.modCtx_modCtx]
  congr 1
  funext x
  simp only [List.map_map]
  congr 1
  refine List.map_congr_left fun e _ => ?_
  by_cases he : e.uid = uid
  · simp [he, hf]
  · simp [he]

/-- An error touches what fails of an entry, and nothing else. -/
theorem CopyEntry.struckBy_rest (e : CopyEntry) (c : CopyCause) (side : Bool) :
    e.struckBy c side = { e with failing := (e.struckBy c side).failing } := by
  unfold CopyEntry.struckBy
  split_ifs <;> rfl

theorem CopyEntry.struckBy_uid (e : CopyEntry) (c : CopyCause) (side : Bool) : (e.struckBy c side).uid = e.uid := by
  rw [e.struckBy_rest]

theorem CopyEntry.struckBy_failing {e : CopyEntry} (c : CopyCause) (side : Bool) (hst : e.stage = .running) (hf : e.failing = none)
    (hk : e.k < e.count) : (e.struckBy c side).failing = some (c, side) := by
  simp [CopyEntry.struckBy, hst, hf, hk]

/-- Where an error of an entry stands does not depend on what fails of it. -/
theorem State.errorAt_struckBy (s : State) (core ctx uid : Nat) (e : CopyEntry) (c : CopyCause) (side b : Bool)
    (f : CopyEntry → CopyEntry) : (s.modEntry core ctx uid f).errorAt core (e.struckBy c side) b = s.errorAt core e b := by
  have hring : ∀ r, ((s.modEntry core ctx uid f).core core).ring r = (s.core core).ring r := fun r => by
    rw [State.modEntry, State.modCtx, State.modCore_core, if_pos rfl]
    rfl
  rw [e.struckBy_rest]
  unfold State.errorAt
  dsimp only
  simp only [hring]
  rfl

/-- The fault of an entry takes the place of what failed of it. -/
theorem State.failEntry_struckBy (s : State) (core ctx : Nat) (e : CopyEntry) (c c' : CopyCause) (side side' : Bool)
    (va : Option Word) : (s.modEntry core ctx e.uid (fun e => e.struckBy c side)).failEntry core ctx (e.struckBy c side) c' side' va =
      s.failEntry core ctx e c' side' va := by
  have hmod : ∀ (t : State) (st : CopyStage) (f : Option CopyFaultRec),
      (t.modEntry core ctx e.uid (fun e => e.struckBy c side)).modEntry core ctx e.uid
        (fun e => { e with stage := st, fault := f, reported := false, failing := none }) =
      t.modEntry core ctx e.uid (fun e => { e with stage := st, fault := f, reported := false, failing := none }) := by
    intro t st f
    rw [State.modEntry_modEntry _ _ _ _ fun e => e.struckBy_uid c side]
    congr 1
    funext e
    rw [e.struckBy_rest]
  have hnext : ∀ n, { s.modEntry core ctx e.uid (fun e => e.struckBy c side) with freeCount := n } =
      { s with freeCount := n }.modEntry core ctx e.uid (fun e => e.struckBy c side) := fun _ => rfl
  have hkind : (e.struckBy c side).kind = e.kind := by rw [e.struckBy_rest]
  have hk : (e.struckBy c side).k = e.k := by rw [e.struckBy_rest]
  have hfree : (s.modEntry core ctx e.uid (fun e => e.struckBy c side)).freeCount = s.freeCount := rfl
  unfold State.failEntry
  simp only [e.struckBy_uid, hkind, hk, hfree, hnext, hmod]

section
variable {s : State} {core ctx uid : Nat} {side : Bool} {e : CopyEntry} (es : List (Nat × Nat × Nat × Bool))
  (he : (s.ctx core ctx).entry uid = some e) (hst : e.stage = .running) (hf : e.failing = none) (hk : e.k < e.count)
include he hst hf hk

/-- A copy that meets an error: once its earlier elements are performed it fails, and until then it waits for them. -/
theorem failCopies_cons : failCopies ((core, ctx, uid, side) :: es) s =
    failCopies es (if s.entryOpen core ctx uid then s.modEntry core ctx uid (fun e => e.struckBy .uncorrectable side)
      else s.failEntry core ctx e .uncorrectable (s.errorAt core e side).1 (s.errorAt core e side).2) := by
  have hentry := State.modEntry_entry he fun e => e.struckBy_uid .uncorrectable side
  have hfail := CopyEntry.struckBy_failing .uncorrectable side hst hf hk
  obtain rfl := Ctx.entry_uid he
  have hopen : (s.modEntry core ctx e.uid (fun e => e.struckBy .uncorrectable side)).entryOpen core ctx e.uid =
      s.entryOpen core ctx e.uid := rfl
  unfold failCopies
  rw [List.foldl_cons]
  congr 1
  simp only [hentry, hfail, e.struckBy_uid, hopen, State.errorAt_struckBy, State.failEntry_struckBy]

end

end Sys2Proof.Machine
end

section
/-! SUPPORT. Links and peer ports (R445, R446), power and heat (R98, R448, R449), corrected errors (R436) and module reset (R447), and the
events of the module together. -/

namespace Sys2Proof.Machine

/-! ## Links and peer ports (R445, R446) -/

@[simp] theorem State.setLink_linkUp (s : State) (link : Nat) (up : Bool) : (s.setLink link up).linkUp link = up := by
  unfold State.setLink State.linkUp
  split_ifs <;> rfl

theorem exec_linkRetrainOrDrop_none {link : Nat} (drop : Bool) (s : State) (h : 2 ≤ link) :
    exec (.linkRetrainOrDrop link drop) s = .next s := by
  show execLinkRetrainOrDrop link drop s = _
  exact if_pos h

/-- Whether a region lies behind a link, or behind a peer port. -/
def Region.onLink (link : Nat) : Region → Bool
  | .host l _ => l == link
  | _ => false
def Region.onPeer (port : Nat) : Region → Bool
  | .peer j _ => j == port
  | _ => false

/-- The copies that use the link fail while it is down. -/
theorem exec_linkRetrainOrDrop_fails {link : Nat} (drop : Bool) (s : State) (h : link < 2) :
    exec (.linkRetrainOrDrop link drop) s =
      .next ((failCopies (s.copiesIn (Region.onLink link)) (s.setLink link false)).setLink link (!drop)) := by
  show execLinkRetrainOrDrop link drop s = _
  exact if_neg (Nat.not_le.mpr h)

theorem exec_peerPortTrained (port : Nat) (s : State) : exec (.peerPortTrained port) s =
    .next (if port < 12 then { s with peerUp := tset false s.peerUp port true } else s) := by rfl

theorem exec_peerPortTrainingLoss (port : Nat) (s : State) : exec (.peerPortTrainingLoss port) s =
    .next (failCopies (s.copiesIn (Region.onPeer port)) { s with peerUp := tset false s.peerUp port false }) := by rfl

theorem tget_tset_true (t : Table Bool) (n k : Nat) : tget false (tset false t n true) k = if k = n then true else tget false t k :=
  tget_tput ..

theorem tget_tset_false {t : Table Bool} (h : tsortedFrom 0 t = true) (n k : Nat) :
    tget false (tset false t n false) k = if k = n then false else tget false t k := tget_terase false t 0 n k h

/-! ## Power and heat (R98, R448, R449) -/

/-- The step to which a partition goes at the end of a window. -/
theorem Part.window_step {p : Part} {d : Desc} (h : p.desc = some d) (mw : Nat) (hot : Bool) (ws : List Nat) :
    (p.window mw hot ws).nextStep.getD (p.window mw hot ws).step = p.stepAfter d.ceiling d.cap mw hot ws := by
  unfold Part.window
  rw [h]
  dsimp only
  split_ifs with hg
  · exact hg.symm
  · rfl

/-- That step, its conditions in milliwatts. -/
theorem Part.stepAfter_eq (p : Part) (ceiling cap mw : Nat) (hot : Bool) (ws : List Nat) :
    p.stepAfter ceiling cap mw hot ws =
      let f := p.nextStep.getD p.step
      let own := if 1000 * cap < mw then f - 1
        else if 10 * mw < 9000 * cap ∧ f < ceiling ∧ ws.sum < 3000000 * ws.length ∧ hot = false then f + 1 else f
      if 3200000 * ws.length < ws.sum then own - 1 else own := by
  simp only [Part.stepAfter, meanAbove, meanBelow, Bool.and_eq_true, decide_eq_true_eq, Bool.not_eq_true', and_assoc,
    Nat.mul_comm mw, Nat.mul_comm cap, Nat.reduceMul]

theorem Part.window_rest {p : Part} {d : Desc} (h : p.desc = some d) (mw : Nat) (hot : Bool) (ws : List Nat) :
    (p.window mw hot ws).step = p.step ∧ (p.window mw hot ws).launches = p.launches ∧
    ((p.window mw hot ws).caplow = true ↔ 1000 * d.cap < mw ∧ (p.caplow = true ∨ p.nextStep.getD p.step = 0)) := by
  unfold Part.window
  rw [h]
  refine ⟨rfl, rfl, ?_⟩
  dsimp only
  split_ifs with hc
  · simp [hc]
  · simp [hc]

theorem exec_frequencyChange_none {s : State} {part : Nat} (h : (s.part part).nextStep = none) :
    exec (.frequencyChange part) s = .next s := by
  show execFrequencyChange part s = _
  simp only [execFrequencyChange, h]

theorem exec_frequencyChange_some {s : State} {part f : Nat} (h : (s.part part).nextStep = some f) :
    exec (.frequencyChange part) s = .next (s.modPart part (fun p => { p with step := f, nextStep := none })) := by
  show execFrequencyChange part s = _
  simp only [execFrequencyChange, h]

/-- What the heat of an island does to a partition: one that holds it goes to step 0. -/
def Part.heated (island : Nat) (p : Part) : Part :=
  if p.quadList.contains island then { p with nextStep := if p.step = 0 then none else some 0 } else p

theorem Part.heated_step {island : Nat} {p : Part} (h : p.quadList.contains island = true) :
    (p.heated island).nextStep.getD (p.heated island).step = 0 := by
  unfold Part.heated
  rw [if_pos h]
  dsimp only
  split_ifs with hz
  · exact hz
  · rfl

theorem Part.heated_of_notMem {island : Nat} {p : Part} (h : p.quadList.contains island = false) : p.heated island = p := by
  rw [Part.heated, h]
  rfl

/-- Each partition is heated: the one that holds the island, and no other, gets another step. -/
theorem State.heated_part {s t : State} {island : Nat} (h : t.parts = s.parts.map (fun e => (e.1, e.2.heated island))) (k : Nat) :
    ((s.part k).quadList.contains island = true → (t.part k).nextStep.getD (t.part k).step = 0) ∧
    ((s.part k).quadList.contains island = false → t.part k = s.part k) := by
  have hreset : Part.reset.heated island = Part.reset := Part.heated_of_notMem (by simp [Part.quadList, Part.reset])
  have hpart : t.part k = (s.part k).heated island := by
    rw [State.part, h]
    exact tget_map hreset s.parts k
  rw [hpart]
  exact ⟨Part.heated_step, Part.heated_of_notMem⟩

theorem exec_islandOvertemp_none {island : Nat} (s : State) (h : 16 ≤ island) : exec (.islandOvertemp island) s = .next s := by
  show execIslandOvertemp island s = _
  exact if_pos h

theorem exec_islandOvertemp_heats {island : Nat} (s : State) (h : island < 16) : exec (.islandOvertemp island) s = .next { s with
    hotIslands := if s.hotIslands.contains island then s.hotIslands else s.hotIslands ++ [island]
    parts := s.parts.map (fun e => (e.1, e.2.heated island)) } := by
  have hmap : ∀ e : Nat × Part, (if e.2.quadList.contains island then
      (e.1, { e.2 with nextStep := if e.2.step = 0 then none else some 0 }) else e) = (e.1, e.2.heated island) := fun e => by
    unfold Part.heated
    split_ifs <;> rfl
  show execIslandOvertemp island s = _
  unfold execIslandOvertemp
  rw [if_neg (Nat.not_le.mpr h), List.map_congr_left fun e _ => hmap e]

theorem State.hot_some {s : State} {d : Desc} : s.hot (some d) = true ↔ ∃ i ∈ s.hotIslands, d.quads.getLsbD i = true := by
  simp [State.hot]

/-- The islands that an event has cooled are hot no more. -/
theorem exec_islandCooled (part : Nat) (s : State) : ∃ t : State, exec (.islandCooled part) s = .next t ∧
    t = { s with hotIslands := t.hotIslands } ∧
    ∀ i, i ∈ t.hotIslands ↔ i ∈ s.hotIslands ∧ ¬ ((part < 16 ∧ i ∈ (s.part part).quadList) ∨
      (part = 16 + i ∧ ∀ e ∈ s.parts, i ∉ (s.part e.1).quadList)) := by
  refine ⟨_, rfl, rfl, fun i => ?_⟩
  rw [List.mem_filter]
  refine and_congr_right fun _ => ?_
  by_cases hp : part < 16
  · have hi : part ≠ 16 + i := by omega
    simp [hp, hi]
  · simp [hp, imp_iff_not_or]

/-- After a thermal trip no partition has a launch, and both links are down. -/
theorem exec_thermalTrip (s : State) : ∃ t : State, exec .thermalTrip s = .next t ∧ t.linkUp0 = false ∧ t.linkUp1 = false ∧
    ∀ p, (t.part p).launches = [] := by
  refine ⟨_, rfl, rfl, rfl, fun p => ?_⟩
  have key : ∀ (ks : List Nat) (t : State), (p ∉ ks → (t.part p).launches = []) →
      ((ks.foldl (fun s p => s.resetPartition p none) t).part p).launches = [] := by
    intro ks
    induction ks with
    | nil => exact fun t h => h List.not_mem_nil
    | cons k ks ih =>
      refine fun t h => ih _ fun hp => ?_
      rw [State.resetPartition_launches]
      split_ifs with hk
      · rfl
      · exact h fun hm => (List.mem_cons.mp hm).elim hk hp
  refine key _ s fun hp => ?_
  rw [State.part, tget_of_notMem_keys Part.reset hp]
  rfl

/-! ## Corrected errors (R436) -/

/-- The errors counted of a unit. -/
def errorCount (u : UnitName) (es : List (UnitName × Nat)) : Nat := ((es.find? (fun e => e.1 == u)).map (·.2)).getD 0

theorem errorCount_countUp (u : UnitName) (es : List (UnitName × Nat)) : errorCount u (countUp u es) = errorCount u es + 1 := by
  induction es with
  | nil => simp [countUp, errorCount]
  | cons e es ih =>
    obtain ⟨v, n⟩ := e
    unfold countUp
    by_cases hv : v = u
    · simp [hv, errorCount]
    · rw [if_neg hv]
      simpa [errorCount, hv] using ih

/-- A unit that has been counted is listed with its count. -/
theorem mem_of_errorCount_pos {u : UnitName} {es : List (UnitName × Nat)} (h : 0 < errorCount u es) : (u, errorCount u es) ∈ es := by
  unfold errorCount at *
  cases hf : es.find? (fun e => e.1 == u) with
  | none => rw [hf] at h; exact absurd h (Nat.lt_irrefl 0)
  | some e =>
    obtain rfl : e.1 = u := by simpa using List.find?_some hf
    exact List.mem_of_find?_eq_some hf

/-- A corrected error is counted, and the 16th marks its unit. -/
theorem exec_correctableError (u : UnitName) (s : State) : ∃ t : State, exec (.correctableError u) s = .next t ∧
    errorCount u t.errors = errorCount u s.errors + 1 ∧
    (15 ≤ errorCount u s.errors → u ∉ s.retired → u ∈ t.failing) ∧
    (∀ v, v ≠ u → (v ∈ t.failing ↔ v ∈ s.failing)) ∧ t.cores = s.cores ∧ t.parts = s.parts := by
  refine ⟨_, rfl, errorCount_countUp u s.errors, fun h hr => ?_, fun v hv => ?_, rfl, rfl⟩
  · have hcount := errorCount_countUp u s.errors
    have hmem := mem_of_errorCount_pos (u := u) (es := countUp u s.errors) (by omega)
    have hany : (countUp u s.errors).any (fun e => decide (e.1 = u) && decide (16 ≤ e.2)) = true :=
      List.any_eq_true.mpr ⟨_, hmem, by simp only [decide_true, Bool.true_and, decide_eq_true_eq]; omega⟩
    by_cases hf : u ∈ s.failing
    · simp [hf]
    · simp [hany, hf, hr]
  · dsimp only
    split_ifs
    · simp [hv]
    · rfl

/-! ## Resets -/

theorem exec_functionLevelReset (fn : Nat) (s : State) :
    (fn = 0 ∨ 16 < fn → exec (.functionLevelReset fn) s = .next s) ∧
    (1 ≤ fn → fn ≤ 16 → exec (.functionLevelReset fn) s = .next (s.resetPartition (fn - 1) none)) := by
  show (_ → execFunctionLevelReset fn s = _) ∧ (_ → _ → execFunctionLevelReset fn s = _)
  refine ⟨fun h => ?_, fun h1 h16 => ?_⟩
  · have hnone : partOfFn fn = none := if_neg (by simp only [Bool.and_eq_true, decide_eq_true_eq]; omega)
    simp only [execFunctionLevelReset, hnone]
  · simp only [execFunctionLevelReset, partOfFn_virtual h1 h16]

/-- A module reset keeps what lies outside the module, and its harvest map where Excia verifies. -/
theorem exec_moduleReset (failed : List UnitName) (s : State) : ∃ t : State, exec (.moduleReset failed) s = .next t ∧
    t.parts = [] ∧ t.cores = [] ∧ t.queues = [] ∧ t.funcs = [] ∧ t.reads = [] ∧ t.writes = [] ∧ t.atoms = [] ∧
    t.host0 = s.host0 ∧ t.host1 = s.host1 ∧ t.peers = s.peers ∧ t.stack = s.stack ∧
    (Config.exciaVerifies = true → t.dead = false ∧ t.retired = closeUnits (s.retired ++ s.failing ++ failed)) ∧
    (Config.exciaVerifies = false → t.dead = true ∧ t.linkUp0 = false ∧ t.linkUp1 = false) := by
  refine ⟨_, rfl, ?_⟩
  cases Config.exciaVerifies
  · exact ⟨rfl, rfl, rfl, rfl, rfl, rfl, rfl, rfl, rfl, rfl, rfl, fun h => absurd h (by decide), fun _ => ⟨rfl, rfl, rfl⟩⟩
  · exact ⟨rfl, rfl, rfl, rfl, rfl, rfl, rfl, rfl, rfl, rfl, rfl, fun _ => ⟨rfl, rfl⟩, fun h => absurd h (by decide)⟩

/-! ## The events together -/

/-- Settles O54, event by event: what each does is said by the lemmas above, and here they are put together. -/
theorem moduleEvents : Obligations.ModuleEvents := by
  unfold Obligations.ModuleEvents
  refine ⟨fun s p d new hd => ?reset, exec_functionLevelReset, exec_moduleReset, fun s p d new hd => ?pause,
    fun s id => State.notInjected_eq_true, fun s => ?routes, fun s p => ?pruned, fun link drop s => ?link, fun port s => ?peer,
    fun s uses core ctx e he hst => ?uses, fun s es core ctx uid side e he hst hf hk => ?fails, fun mws s => rfl,
    fun p d mw hot ws hd => ?window, fun part s => ⟨exec_frequencyChange_none, fun f => exec_frequencyChange_some⟩,
    fun island s => exec_islandOvertemp_none s, fun island s h => ?overtemp, fun s d => State.hot_some, exec_islandCooled,
    exec_thermalTrip, exec_correctableError, fun s => ⟨fun h => congrArg _ (if_pos h), fun h => congrArg _ (if_neg h)⟩⟩
  case reset =>
    intro t old q u out mine
    have hout : s.outOf (s.part p).desc new = out := by
      simp only [State.outOf, hd, Option.map_some, Option.getD_some]
      rfl
    have hq : q = _ := s.resetPartition_part_fields p new hd
    have hretired := s.resetPartition_retired p new
    have hfailing := s.resetPartition_failing p new
    rw [hout] at hq hretired hfailing
    have clear : t.ClearOf d ∧ t.ClearOf u :=
      ⟨s.resetPartition_clearOf p new (s.bothReset_clearOf_old p new hd),
        s.resetPartition_clearOf p new (s.bothReset_clearOf_getD p new hd)⟩
    have clear_of : ∀ c, d.quads.getLsbD (c / 4) = false → u.quads.getLsbD (c / 4) = false → ¬ mine c := fun c h h' hm =>
      hm.elim (fun hc => absurd (hc.symm.trans h) (by decide)) fun hc => absurd (hc.symm.trans h') (by decide)
    have other := fun (ho : out = []) k (hk : k ≠ p) => (s.resetPartition_part_other p new hk).1 (hout.trans ho)
    refine ⟨hretired, hfailing, by rw [hq]; rfl, by rw [hq]; rfl, by rw [hq]; rfl, by rw [hq]; rfl, by rw [hq]; rfl, by rw [hq]; rfl,
      by rw [hq]; rfl, by rw [hq]; rfl, fun hn => by rw [hq]; exact if_pos hn, fun hn => by rw [hq]; exact if_neg hn, by rw [hq]; rfl,
      fun c hm hc => hm.elim (clear.1.core c hc) (clear.2.core c hc), fun r hr => clear_of r.core (clear.1.reads r hr) (clear.2.reads r hr),
      fun a ha => clear_of a.core (clear.1.atoms a ha) (clear.2.atoms a ha),
      fun w hw hm => hm.elim (clear.1.writes w hw) (clear.2.writes w hw), s.resetPartition_fstat p new, other⟩
  case pause =>
    intro t
    have mesh := (s.resetButUnits p new).retireUnits_mesh (s.outOf (s.part p).desc new)
    obtain ⟨hretired, -, hpause, hmark, hheld⟩ := s.resetButUnits_keeps p new
    rw [← s.resetPartition_retires, hretired, hpause, hmark, hheld] at mesh
    refine ⟨mesh.1, fun h => ⟨(mesh.2 h).1, fun ht => ?_⟩⟩
    obtain ⟨markNext, held⟩ := (mesh.2 h).2 ht
    rw [held]
    exact ⟨markNext, t.mem_uninjected⟩
  case routes =>
    intro on seen reads writes atoms walks halos moves
    have hmoves : moves ↔ s.meshDrained = false := by
      rw [State.meshDrained_eq_false]
      refine or_congr (exists_congr fun r => and_congr_right fun _ => State.readMoves_eq_true.symm) (or_congr
        (exists_congr fun w => and_congr_right fun _ => State.writeMoves_eq_true.symm) (or_congr
        (exists_congr fun a => and_congr_right fun _ => State.atomMoves_eq_true.symm) (or_congr Iff.rfl
        (exists_congr fun k => and_congr_right fun _ => exists_congr fun c => and_congr_right fun _ => exists_congr fun b =>
          and_congr_right fun _ => State.haloMoves_eq_true.symm))))
    rw [exec_meshRoutesInstalled, hmoves]
    exact ⟨fun h => congrArg _ (if_pos (by simpa using h)), fun h => congrArg _ (if_neg (by simp [h]))⟩
  case pruned =>
    intro t
    have hpart := s.pruned_part p p
    rw [if_pos rfl] at hpart
    refine ⟨fun c e => State.mem_pruned_fronts, fun n e => State.mem_pruned_store, ?_, ?_, rfl⟩ <;> rw [hpart] <;> rfl
  case link =>
    intro uses
    have huses : uses = Region.onLink link := by
      funext r
      cases r <;> rfl
    rw [huses]
    refine ⟨exec_linkRetrainOrDrop_none drop s, fun h => ⟨_, exec_linkRetrainOrDrop_fails drop s h, State.setLink_linkUp ..⟩,
      exec_linkRetrainOrDrop_fails drop s⟩
  case peer =>
    intro uses
    have huses : uses = Region.onPeer port := by
      funext r
      cases r <;> rfl
    rw [huses, exec_peerPortTrained]
    refine ⟨fun h => congrArg _ (if_neg (Nat.not_lt.mpr h)), fun h => ⟨_, congrArg _ (if_pos h), ?_, fun k hk => ?_, rfl, rfl⟩,
      fun h => ⟨_, exec_peerPortTrainingLoss port s, ?_, fun k hk => ?_, rfl, rfl⟩⟩
    · exact (tget_tset_true ..).trans (if_pos rfl)
    · exact (tget_tset_true ..).trans (if_neg hk)
    · exact (tget_tset_false h ..).trans (if_pos rfl)
    · exact (tget_tset_false h ..).trans (if_neg hk)
  case uses =>
    intro meets
    have hmeets : ∀ b, meets b ↔ (s.nextElement core e b).any (fun a => uses (regionOf a)) = true := fun b => List.any_eq_true.symm
    refine ⟨fun h => State.mem_copiesIn he hst ?_, fun hn h => State.mem_copiesIn he hst ?_⟩
    · exact List.find?_cons_of_pos ((hmeets false).mp h)
    · exact (List.find?_cons_of_neg (p := fun b => (s.nextElement core e b).any fun a => uses (regionOf a))
        (mt (hmeets false).mpr hn)).trans (List.find?_cons_of_pos ((hmeets true).mp h))
  case fails =>
    intro at_
    refine ⟨rfl, fun ho => ?_, fun ho => ?_⟩ <;> rw [failCopies_cons es he hst hf hk, ho] <;> rfl
  case window =>
    intro f q own g
    refine ⟨?_, Part.window_rest hd mw hot ws⟩
    rw [show q = p.window mw hot ws from rfl, Part.window_step hd, Part.stepAfter_eq]
  case overtemp =>
    refine ⟨_, exec_islandOvertemp_heats s h, rfl, fun i => ?_, fun k => ?_⟩
    · dsimp only
      split_ifs with hc
      · refine ⟨Or.inl, fun h => h.elim id ?_⟩
        rintro rfl
        simpa using hc
      · simp
    · exact State.heated_part rfl k

end Sys2Proof.Machine
end

section
/-! SUPPORT. Requests of the mailbox (R85, R450): which one is served, what shuts one out, and what its response leaves. -/

namespace Sys2Proof.Machine

/-! ## Which request is served -/

/-- A served request is the one of the function next in rotation, which asks. -/
theorem State.submitted_ne_none {s : State} {fn : Nat} (h : s.submitted fn ≠ none) : s.nextServed = some fn ∧ s.asks fn = true := by
  have hnext : s.nextServed = some fn := by
    by_contra hn
    exact h (if_pos (bne_iff_ne.mpr hn))
  exact ⟨hnext, List.find?_some hnext⟩

/-- The first function that asks, counted from the one after the function served last. -/
theorem State.nextServed_first {s : State} {i : Nat} (hi : i < 17) (hasks : s.asks ((s.lastFn + 1 + i) % 17) = true)
    (hfirst : ∀ j < i, s.asks ((s.lastFn + 1 + j) % 17) = false) : s.nextServed = some ((s.lastFn + 1 + i) % 17) := by
  have hfind : (List.range 17).find? (fun j => s.asks ((s.lastFn + 1 + j) % 17)) = some i :=
    List.find?_range_eq_some.mpr ⟨hasks, List.mem_range.mpr hi, fun j hj => by simp [hfirst j hj]⟩
  rw [State.nextServed, List.find?_map]
  exact congrArg (Option.map _) hfind

/-! ## What a request meets -/

section
variable {s : State} {fn op : Nat} {pf : Bool} {act : State → Nat → Nat → List Byte → Served}

theorem State.serveRequest_none (h : s.submitted fn = none) : s.serveRequest fn op pf act = s := by
  simp only [State.serveRequest, h]

section
variable {h : List Byte} {n : Nat} {body : List Byte} (hs : s.submitted fn = some (h, n, body))
include hs

theorem State.serveRequest_other (hop : reqOpcode h ≠ op) : s.serveRequest fn op pf act = s := by
  simp only [State.serveRequest, hs, hop, ne_eq, not_false_eq_true, if_true]

theorem State.serveRequest_denied (hop : reqOpcode h = op) (hp : reqPart fn pf h = none) :
    s.serveRequest fn op pf act = State.respond fn h 0 (s.refuse codeDenied) := by
  simp only [State.serveRequest, hs, hop, ne_eq, not_true_eq_false, if_false, hp]

theorem State.serveRequest_served {p : Nat} (hlt : p < 16) (hop : reqOpcode h = op) (hp : reqPart fn pf h = some p) :
    s.serveRequest fn op pf act = State.respond fn h p (act s p n body) := by
  simp only [State.serveRequest, hs, hop, ne_eq, not_true_eq_false, if_false, hp, hlt, decide_true, Bool.true_or, if_true]

end

end

/-- The events that serve a request, with its opcode and whether it is the physical function's alone: each does so in the same way, with
an act of its own. -/
theorem exec_requestEvent {fn core ctx num op : Nat} {i : Instr} {pf : Bool}
    (h : (i, op, pf) ∈ [(Instr.installDescriptor fn, 1, true), (.writePageTableEntries fn, 2, false), (.rangeEntries fn, 3, false),
      (.egressWindow fn, 4, true), (.publicationWindow fn, 5, false), (.releasePolicy fn, 6, false),
      (.resetPartitionRequest fn, 7, true), (.readManifest fn, 8, false), (.attest fn, 9, false), (.debugAttach fn, 10, false),
      (.debugHalt fn core, 10, false), (.debugResume fn core, 10, false), (.debugPreemptContext fn core ctx, 10, false),
      (.debugStateRead fn core ctx num, 10, false), (.readFaultRegisters fn, 11, false), (.readHarvestMap fn, 12, true)])
    (s : State) : ∃ act, exec i s = .next (s.serveRequest fn op pf act) := by
  simp only [List.mem_cons, List.not_mem_nil, or_false, Prod.mk.injEq] at h
  rcases h with ⟨rfl, rfl, rfl⟩ | ⟨rfl, rfl, rfl⟩ | ⟨rfl, rfl, rfl⟩ | ⟨rfl, rfl, rfl⟩ | ⟨rfl, rfl, rfl⟩ | ⟨rfl, rfl, rfl⟩ |
    ⟨rfl, rfl, rfl⟩ | ⟨rfl, rfl, rfl⟩ | ⟨rfl, rfl, rfl⟩ | ⟨rfl, rfl, rfl⟩ | ⟨rfl, rfl, rfl⟩ | ⟨rfl, rfl, rfl⟩ | ⟨rfl, rfl, rfl⟩ |
    ⟨rfl, rfl, rfl⟩ | ⟨rfl, rfl, rfl⟩ | ⟨rfl, rfl, rfl⟩ <;> exact ⟨_, rfl⟩

theorem exec_unlistedMailboxOpcode_none {fn : Nat} {s : State} (h : s.submitted fn = none) :
    exec (.unlistedMailboxOpcode fn) s = .next s := by
  show execUnlistedMailboxOpcode fn s = _
  simp only [execUnlistedMailboxOpcode, h]

theorem exec_unlistedMailboxOpcode_some {fn n : Nat} {s : State} {h body : List Byte} (hs : s.submitted fn = some (h, n, body)) :
    exec (.unlistedMailboxOpcode fn) s =
      .next (if 1 ≤ reqOpcode h ∧ reqOpcode h ≤ 12 then s else State.respond fn h 0 (s.refuse 0xFFFF)) := by
  show execUnlistedMailboxOpcode fn s = _
  simp only [execUnlistedMailboxOpcode, hs, Bool.and_eq_true, decide_eq_true_eq]
  rfl

/-! ## The response -/

theorem State.respond_func (fn : Nat) (h : List Byte) (part : Nat) (r : Served) :
    ((State.respond fn h part r).func fn).request = none ∧
    ((State.respond fn h part r).func fn).response = some { addr := fieldAt h 16 8, part := part, code := r.code, data := r.data
                                                            after := if r.wait then some r.st.nextId else none, egress := r.slot } := by
  unfold State.respond
  rw [State.modFunc_func, if_pos rfl]
  exact ⟨rfl, rfl⟩

/-- Writing a response leaves it written, and nothing else of host memory. -/
theorem State.hostGet_hostPoke {s : State} {link addr : Nat} {bs : List Byte} (h : s.memWf = true) (hend : addr + bs.length ≤ 2 ^ 64) :
    (s.hostPoke link addr bs).hostGet link addr bs.length = bs := by
  obtain ⟨⟨-, h0, h1⟩, -⟩ := s.memWf_iff.mp h
  unfold State.hostPoke State.hostGet State.hostByte
  split_ifs with hl
  · exact map_tget_hostCells h0 hend
  · exact map_tget_hostCells h1 hend

theorem State.hostGet_congr {s t : State} (h0 : t.host0 = s.host0) (h1 : t.host1 = s.host1) (link addr n : Nat) :
    t.hostGet link addr n = s.hostGet link addr n := by
  simp only [State.hostGet, State.hostByte, h0, h1]

theorem State.hostPoke_rest (s : State) (link addr : Nat) (bs : List Byte) : s.hostPoke link addr bs =
    { s with host0 := (s.hostPoke link addr bs).host0, host1 := (s.hostPoke link addr bs).host1 } := by
  unfold State.hostPoke
  split_ifs <;> rfl

/-- The bytes of a response: its code, the length of its data, and the data (R450). -/
def MbResponse.bytes (r : MbResponse) : List Byte := bytesOf 2 r.code ++ bytesOf 6 0 ++ bytesOf 8 r.data.length ++ r.data

/-- The response of a function is written, and its request is over. -/
def State.responded (s : State) (fn : Nat) (r : MbResponse) : State :=
  (s.hostPoke (s.linkOf fn) r.addr r.bytes).modFunc fn (fun f => { f with busy := false, response := none })

/-- An egress window takes effect with the response (R356). -/
def State.withEgress (s : State) (part : Nat) (x : Option (Nat × Option Egress)) : State :=
  if x.isNone then s else s.modPart part (fun p => { p with egress := setEgress p.egress x })

/-- What a response waits for: a link that is up, and the accesses translated before it. -/
def State.responseHeld (s : State) (fn : Nat) (r : MbResponse) : Prop :=
  ¬ s.linkUp (s.linkOf fn) = true ∨ ∃ id, r.after = some id ∧ s.openBefore r.part id = true

theorem exec_mailboxResponse_none {s : State} {fn : Nat} (h : (s.func fn).response = none) : exec (.mailboxResponse fn) s = .next s := by
  show execMailboxResponse fn s = _
  simp only [execMailboxResponse, h]

theorem responseHeld_iff {s : State} {fn : Nat} {r : MbResponse} :
    (!s.linkUp (s.linkOf fn) || (match r.after with
      | some id => s.openBefore r.part id
      | none => false)) = true ↔ s.responseHeld fn r := by
  unfold State.responseHeld
  cases r.after <;> simp

theorem exec_mailboxResponse_some {s : State} {fn : Nat} {r : MbResponse} (h : (s.func fn).response = some r) :
    (s.responseHeld fn r → exec (.mailboxResponse fn) s = .next s) ∧
    (¬ s.responseHeld fn r → exec (.mailboxResponse fn) s = .next ((s.responded fn r).withEgress r.part r.egress)) := by
  show (_ → execMailboxResponse fn s = _) ∧ (_ → execMailboxResponse fn s = _)
  simp only [execMailboxResponse, h]
  exact ⟨fun hw => if_pos (responseHeld_iff.mpr hw), fun hw => if_neg (mt responseHeld_iff.mp hw)⟩

theorem State.responded_rest (s : State) (fn : Nat) (r : MbResponse) : s.responded fn r =
    { s with host0 := (s.responded fn r).host0, host1 := (s.responded fn r).host1, funcs := (s.responded fn r).funcs } := by
  unfold State.responded
  rw [State.hostPoke_rest]
  rfl

theorem State.responded_keeps (s : State) (fn : Nat) (r : MbResponse) :
    (s.responded fn r).cores = s.cores ∧ (s.responded fn r).parts = s.parts := by
  rw [State.responded_rest]
  exact ⟨rfl, rfl⟩

theorem State.responded_func (s : State) (fn : Nat) (r : MbResponse) :
    ((s.responded fn r).func fn).busy = false ∧ ((s.responded fn r).func fn).response = none := by
  unfold State.responded
  rw [State.modFunc_func, if_pos rfl]
  exact ⟨rfl, rfl⟩

theorem MbResponse.bytes_length (r : MbResponse) : r.bytes.length = 16 + r.data.length := by
  simp only [MbResponse.bytes, List.length_append, bytesOf_length]

theorem State.responded_hostGet {s : State} {fn : Nat} {r : MbResponse} (h : s.memWf = true)
    (hend : r.addr + (16 + r.data.length) ≤ 2 ^ 64) :
    (s.responded fn r).hostGet (s.linkOf fn) r.addr (16 + r.data.length) = r.bytes := by
  rw [← r.bytes_length] at hend ⊢
  exact State.hostGet_hostPoke h hend

end Sys2Proof.Machine
end

section
/-! SUPPORT. The requests of the mailbox one by one (R86, R356, R361, R406, R441, R444, R450, R472): what a served one changes and
answers. -/

namespace Sys2Proof.Machine

/-! ## Stores without the translations of a span (R123) -/

theorem State.mem_dropStores_store {s : State} {part base size d : Nat} {e : StoreEntry} :
    e ∈ ((s.dropStores part base size).die d).store ↔
      e ∈ (s.die d).store ∧ (e.part = part → spansMeet e.base e.size base size = false) := by
  have hmap := tget_map (d := Die.reset) (g := fun x : Die =>
    { x with store := x.store.filter (fun e => !(e.part == part && spansMeet e.base e.size base size)) }) rfl s.dies d
  rw [show (s.dropStores part base size).die d = _ from hmap]
  simp [State.die, imp_iff_not_or]

theorem State.mem_dropStores_fronts {s : State} {part base size c : Nat} {e : StoreEntry} :
    e ∈ tget [] (s.dropStores part base size).fronts c ↔
      e ∈ tget [] s.fronts c ∧ (e.part = part → spansMeet e.base e.size base size = false) := by
  have hmap := tget_map (d := ([] : List StoreEntry))
    (g := List.filter (fun e => !(e.part == part && spansMeet e.base e.size base size))) rfl s.fronts c
  rw [show (s.dropStores part base size).fronts = s.fronts.map (fun e =>
    (e.1, e.2.filter (fun e => !(e.part == part && spansMeet e.base e.size base size)))) from rfl, hmap]
  simp [imp_iff_not_or]

theorem State.dropStores_rest (s : State) (part base size : Nat) : s.dropStores part base size =
    { s with fronts := (s.dropStores part base size).fronts, dies := (s.dropStores part base size).dies } := rfl

/-- The stores without the translations of the spans of records. -/
def State.dropRecords (s : State) (part : Nat) (rs : List PteRec) : State :=
  rs.foldl (fun s r => s.dropStores part r.va (levelSpan r.level)) s

theorem State.dropRecords_rest (s : State) (part : Nat) (rs : List PteRec) : s.dropRecords part rs =
    { s with fronts := (s.dropRecords part rs).fronts, dies := (s.dropRecords part rs).dies } := by
  refine List.foldlRecOn (motive := fun t : State => t = { s with fronts := t.fronts, dies := t.dies }) _ _ rfl fun t ht r _ => ?_
  rw [State.dropStores_rest, ht]

theorem State.dropRecords_keeps (s : State) (part : Nat) (rs : List PteRec) : (s.dropRecords part rs).parts = s.parts ∧
    (s.dropRecords part rs).cores = s.cores ∧ (s.dropRecords part rs).stack = s.stack := by
  rw [State.dropRecords_rest]
  exact ⟨rfl, rfl, rfl⟩

/-- The leaves of a partition with records applied. -/
def State.withLeaves (s : State) (part : Nat) (rs : List PteRec) : State :=
  s.modPart part (fun p => { p with leaves := rs.foldl placeLeaf p.leaves })

theorem State.withLeaves_leaves (s : State) (part : Nat) (rs : List PteRec) :
    ((s.withLeaves part rs).part part).leaves = rs.foldl placeLeaf (s.part part).leaves := by
  rw [State.withLeaves, State.modPart_part, if_pos rfl]

/-- What a predicate says of every state without a span's translations holds of each record's span in the end. -/
theorem State.dropRecords_drops {s : State} {part : Nat} {P : State → Nat → Nat → Prop}
    (hdrops : ∀ (s : State) base size, P (s.dropStores part base size) base size)
    (hkeeps : ∀ (s : State) b n base size, P s base size → P (s.dropStores part b n) base size) (rs : List PteRec) :
    ∀ r ∈ rs, P (s.dropRecords part rs) r.va (levelSpan r.level) := by
  have keep : ∀ (rs : List PteRec) (s : State) (base size : Nat), P s base size → P (s.dropRecords part rs) base size :=
    fun rs s base size h => List.foldlRecOn (motive := fun t => P t base size) _ _ h fun t ht r _ => hkeeps t _ _ _ _ ht
  induction rs generalizing s with
  | nil => simp
  | cons r rs ih =>
    refine List.forall_mem_cons.mpr ⟨keep rs _ _ _ (hdrops s _ _), fun q hq => ?_⟩
    exact ih (s := s.dropStores part r.va (levelSpan r.level)) q hq

/-- No store holds a translation of a span of a partition. -/
def State.SpanFree (s : State) (part base size : Nat) : Prop :=
  (∀ d e, e ∈ (s.die d).store → e.part = part → spansMeet e.base e.size base size = false) ∧
  ∀ c e, e ∈ tget [] s.fronts c → e.part = part → spansMeet e.base e.size base size = false

theorem State.dropRecords_spanFree (s : State) (part : Nat) (rs : List PteRec) :
    ∀ r ∈ rs, (s.dropRecords part rs).SpanFree part r.va (levelSpan r.level) :=
  State.dropRecords_drops (P := fun s base size => s.SpanFree part base size)
    (fun _ _ _ => ⟨fun _ _ he => (State.mem_dropStores_store.mp he).2, fun _ _ he => (State.mem_dropStores_fronts.mp he).2⟩)
    (fun _ _ _ _ _ h => ⟨fun d e he => h.1 d e (State.mem_dropStores_store.mp he).1,
      fun c e he => h.2 c e (State.mem_dropStores_fronts.mp he).1⟩) rs

/-! ## Range records applied (R114, R115) -/

theorem State.applyRange_part (s : State) (part : Nat) (r : RangeRec) :
    (s.applyRange part r).part part = { s.part part with ranges := placeRange (s.part part).ranges r } ∧
    (s.applyRange part r).cores = s.cores := by
  have drop : ∀ (t : State) base size k, (t.dropStores part base size).part k = t.part k := fun _ _ _ _ => rfl
  have hcores : ∀ (t : State) base size, (t.dropStores part base size).cores = t.cores := fun _ _ _ => rfl
  unfold State.applyRange
  cases tfind (s.part part).ranges r.index <;> dsimp only <;> split_ifs <;> simp [drop, hcores]

theorem State.applyRanges_part (s : State) (part : Nat) (rs : List RangeRec) : let u := rs.foldl (fun s r => s.applyRange part r) s
    (u.part part).ranges = rs.foldl placeRange (s.part part).ranges ∧ (u.part part).leaves = (s.part part).leaves ∧
    u.cores = s.cores := by
  induction rs generalizing s with
  | nil => exact ⟨rfl, rfl, rfl⟩
  | cons r rs ih =>
    obtain ⟨hpart, hcores⟩ := s.applyRange_part part r
    have := ih (s.applyRange part r)
    rwa [hpart, hcores] at this

/-! ## Blocks of one length in a row -/

theorem length_flatMap_of_length {α β : Type} {f : α → List β} {w : Nat} (hf : ∀ a, (f a).length = w) (l : List α) :
    (l.flatMap f).length = w * l.length := by
  simp [List.length_flatMap, hf, Nat.mul_comm]

/-- The block at a place. -/
theorem slice_flatMap {α β : Type} {f : α → List β} {w : Nat} (hf : ∀ a, (f a).length = w) {l : List α} {k : Nat} {a : α}
    (h : l[k]? = some a) : ((l.flatMap f).drop (w * k)).take w = f a := by
  induction l generalizing k with
  | nil => simp at h
  | cons b l ih =>
    cases k with
    | zero =>
      obtain rfl : b = a := by simpa using h
      rw [Nat.mul_zero, List.drop_zero, List.flatMap_cons, ← hf b, List.take_left]
    | succ k =>
      rw [List.flatMap_cons, Nat.mul_succ, Nat.add_comm, ← List.drop_drop, ← hf b, List.drop_left, hf b]
      exact ih (by simpa using h)

/-! ## Requests that are served -/

/-- A refusal whose code no rule gives has a code that a response can hold, and not 0. -/
theorem State.refuseFree_eq (s : State) : ∃ c, 0 < c ∧ c < 65536 ∧ s.refuseFree =
    { st := { s with freeCount := s.freeCount + 1 }, code := c, data := [], wait := false } := by
  refine ⟨_, ?_, ?_, rfl⟩
  · exact Nat.add_pos_left Nat.one_pos _
  · have := Nat.mod_lt (Config.freeWord s.freeCount).toNat (show 0 < 0xFFFF by decide)
    omega

theorem exec_free {i : Instr} {s : State} {fn p : Nat} {h : List Byte} (hx : exec i s = .next (State.respond fn h p s.refuseFree)) :
    ∃ c, 0 < c ∧ c < 65536 ∧ exec i s = .next (State.respond fn h p
      { st := { s with freeCount := s.freeCount + 1 }, code := c, data := [], wait := false }) := by
  obtain ⟨c, hpos, hlt, hc⟩ := s.refuseFree_eq
  exact ⟨c, hpos, hlt, hc ▸ hx⟩

/-- An event that serves a request serves it by its act. -/
theorem served_next {i : Instr} {s : State} {fn op n p : Nat} {pf : Bool} {act : State → Nat → Nat → List Byte → Served}
    {h body : List Byte} (hx : exec i s = .next (s.serveRequest fn op pf act)) (hs : s.submitted fn = some (h, n, body)) (hlt : p < 16)
    (hop : reqOpcode h = op) (hp : reqPart fn pf h = some p) : exec i s = .next (State.respond fn h p (act s p n body)) := by
  rw [hx, State.serveRequest_served hs hlt hop hp]

section
variable {fn n p : Nat} {s : State} {h body : List Byte} (hs : s.submitted fn = some (h, n, body)) (hlt : p < 16)
include hs hlt

theorem exec_installDescriptor_served (hop : reqOpcode h = 1) (hp : reqPart fn true h = some p) :
    (n ≠ 800 → exec (.installDescriptor fn) s = .next (State.respond fn h p s.refuseFree)) ∧
    (n = 800 → s.descCode p (descOf body) ≠ 0 →
      exec (.installDescriptor fn) s = .next (State.respond fn h p (s.refuse (s.descCode p (descOf body))))) ∧
    (n = 800 → s.descCode p (descOf body) = 0 →
      exec (.installDescriptor fn) s = .next (State.respond fn h p (s.resetPartition p (some (descOf body))).done)) := by
  have hx : exec (.installDescriptor fn) s = .next _ := served_next rfl hs hlt hop hp
  rw [hx]
  refine ⟨fun hn => ?_, fun hn hc => ?_, fun hn hc => ?_⟩
  · rw [if_pos hn]
  · rw [if_neg (not_not_intro hn), if_neg hc]
  · rw [if_neg (not_not_intro hn), if_pos hc]

theorem exec_writePageTableEntries_served (hop : reqOpcode h = 2) (hp : reqPart fn false h = some p) :
    let c := fieldAt body 0 8
    let bad : Prop := c = 0 ∨ 256 < c ∨ n ≠ 8 + 32 * c
    let rs := (piecesOf 32 c (body.drop 8)).map pteRecOf
    (bad → exec (.writePageTableEntries fn) s = .next (State.respond fn h p (s.refuseAt 1 0))) ∧
    (∀ code k, ¬ bad → s.pteRefusal p rs = some (code, k) →
      exec (.writePageTableEntries fn) s = .next (State.respond fn h p (s.refuseAt code k))) ∧
    (¬ bad → s.pteRefusal p rs = none → exec (.writePageTableEntries fn) s = .next (State.respond fn h p
      { st := (s.withLeaves p rs).dropRecords p rs
        code := 0, data := [], wait := true })) := by
  intro c bad rs
  have hbad : (decide (c = 0) || decide (256 < c) || decide (n ≠ 8 + 32 * c)) = true ↔ bad := by simp [bad, or_assoc]
  have hx : exec (.writePageTableEntries fn) s = .next _ := served_next rfl hs hlt hop hp
  rw [hx]
  refine ⟨fun hb => ?_, fun code k hb hr => ?_, fun hb hr => ?_⟩
  · rw [if_pos (hbad.mpr hb)]
  · rw [if_neg (mt hbad.mp hb)]
    simp only [rs, c] at hr
    simp only [hr]
  · rw [if_neg (mt hbad.mp hb)]
    simp only [rs, c] at hr
    simp only [hr]
    rfl

theorem exec_rangeEntries_served (hop : reqOpcode h = 3) (hp : reqPart fn false h = some p) :
    let c := fieldAt body 0 8
    let bad : Prop := c = 0 ∨ 128 < c ∨ n ≠ 8 + 40 * c
    let rs := (piecesOf 40 c (body.drop 8)).map rangeRecOf
    (bad → exec (.rangeEntries fn) s = .next (State.respond fn h p (s.refuseAt 1 0))) ∧
    (∀ code k, ¬ bad → s.rangeRefusal p rs = some (code, k) →
      exec (.rangeEntries fn) s = .next (State.respond fn h p (s.refuseAt code k))) ∧
    (¬ bad → s.rangeRefusal p rs = none → exec (.rangeEntries fn) s = .next (State.respond fn h p
      { st := rs.foldl (fun s r => s.applyRange p r) s, code := 0, data := [], wait := true })) := by
  intro c bad rs
  have hbad : (decide (c = 0) || decide (128 < c) || decide (n ≠ 8 + 40 * c)) = true ↔ bad := by simp [bad, or_assoc]
  have hx : exec (.rangeEntries fn) s = .next _ := served_next rfl hs hlt hop hp
  rw [hx]
  refine ⟨fun hb => ?_, fun code k hb hr => ?_, fun hb hr => ?_⟩
  · rw [if_pos (hbad.mpr hb)]
  · rw [if_neg (mt hbad.mp hb)]
    simp only [rs, c] at hr
    simp only [hr]
  · rw [if_neg (mt hbad.mp hb)]
    simp only [rs, c] at hr
    simp only [hr]
    rfl

theorem exec_egressWindow_served (hop : reqOpcode h = 4) (hp : reqPart fn true h = some p) :
    let slot := fieldAt body 0 1
    let r := body.drop 8
    let base := fieldAt r 0 8
    let size := fieldAt r 8 8
    let party := fieldAt r 16 1
    let form : Prop := n = 40 ∧ slot ≤ 15 ∧ zeroFrom body 1 8 = true ∧ zeroFrom r 17 32 = true
    let blank : Prop := ∀ b ∈ r, b = 0
    let gives (a : Served) : Prop := exec (.egressWindow fn) s = .next (State.respond fn h p a)
    let meets : Prop := ∃ e ∈ (s.part p).egress, e.1 ≠ slot ∧ e.2.party ≠ party ∧ spansMeet base size e.2.base e.2.size = true
    ((¬ form ∨ (¬ blank ∧ pageForm base size = false)) → gives (s.refuse 1)) ∧
    (form → blank → gives { s.done with slot := some (slot, none) }) ∧
    (form → ¬ blank → pageForm base size = true →
      ((s.part p).parties ≤ party → gives (s.refuse 2)) ∧
      (party < (s.part p).parties → inWindow false base size = false → gives (s.refuse 3)) ∧
      (party < (s.part p).parties → inWindow false base size = true → meets → gives (s.refuse 4)) ∧
      (party < (s.part p).parties → inWindow false base size = true → ¬ meets →
        gives { s.done with slot := some (slot, some { base := base, size := size, party := party }) })) := by
  intro slot r base size party form blank gives meets
  have hform : (decide (n ≠ 40) || decide (15 < slot) || !zeroFrom body 1 8 || !zeroFrom r 17 32) = true ↔ ¬ form := by
    simp only [form, Bool.or_eq_true, decide_eq_true_eq, Bool.not_eq_true', ← Bool.not_eq_true, not_and_or, not_le, or_assoc]
  have hblank : r.all (fun b => b == 0) = true ↔ blank := by simp [blank]
  have hmeets : ((s.part p).egress.any (fun e => e.1 != slot && e.2.party != party && spansMeet base size e.2.base e.2.size)) = true ↔
      meets := by simp [meets, and_assoc]
  have hx : exec (.egressWindow fn) s = .next _ := served_next rfl hs hlt hop hp
  simp only [gives]
  rw [hx]
  have formed : form → ¬ (decide (n ≠ 40) || decide (15 < slot) || !zeroFrom body 1 8 || !zeroFrom r 17 32) = true :=
    fun hf => mt hform.mp (not_not_intro hf)
  refine ⟨fun hb => ?_, fun hf hb => ?_, fun hf hb hpage => ?_⟩
  · by_cases hf : form
    · obtain ⟨hb, hpage⟩ := hb.resolve_left (not_not_intro hf)
      rw [if_neg (formed hf), if_neg (mt hblank.mp hb), if_pos (by rw [hpage]; rfl)]
    · rw [if_pos (hform.mpr hf)]
  · rw [if_neg (formed hf), if_pos (hblank.mpr hb)]
  · rw [if_neg (formed hf), if_neg (mt hblank.mp hb), if_neg (by rw [hpage]; decide)]
    refine ⟨fun hparty => ?_, fun hparty hw => ?_, fun hparty hw hm => ?_, fun hparty hw hm => ?_⟩
    · rw [if_pos hparty]
    · rw [if_neg (Nat.not_le.mpr hparty), if_pos (by rw [hw]; rfl)]
    · rw [if_neg (Nat.not_le.mpr hparty), if_neg (by rw [hw]; decide), if_pos (hmeets.mpr hm)]
    · rw [if_neg (Nat.not_le.mpr hparty), if_neg (by rw [hw]; decide), if_neg (mt hmeets.mp hm)]

theorem exec_publicationWindow_served (hop : reqOpcode h = 5) (hp : reqPart fn false h = some p) :
    let win := fieldAt body 0 1
    let r := body.drop 8
    let base := fieldAt r 0 8
    let size := fieldAt r 8 8
    let ctr := fieldAt r 16 8
    let form : Prop := n = 40 ∧ win ≤ 15 ∧ zeroFrom body 1 8 = true ∧ zeroFrom r 24 32 = true ∧ pageForm base size = true ∧
      ctr % 8 = 0 ∧ ctr < 2 ^ 52 ∧ inWindow true base size = true ∧ hostLinkOf ctr = hostLinkOf base ∧
      (ctr + 8 ≤ base ∨ base + size ≤ ctr)
    (¬ form → exec (.publicationWindow fn) s = .next (State.respond fn h p s.refuseFree)) ∧
    (form → exec (.publicationWindow fn) s = .next (State.respond fn h p (s.modPart p (fun q =>
      { q with pubwins := tput q.pubwins win { base := base, size := size, counter := ctr, version := 0 } })).done)) := by
  intro win r base size ctr form
  have hform : (decide (n ≠ 40) || decide (15 < win) || !zeroFrom body 1 8 || !pageForm base size || ctr % 8 != 0 ||
      decide (2 ^ 52 ≤ ctr) || !zeroFrom r 24 32 || !inWindow true base size || hostLinkOf ctr != hostLinkOf base ||
      (decide (base < ctr + 8) && decide (ctr < base + size))) = false ↔ form := by
    simp only [form, Bool.or_eq_false_iff, Bool.and_eq_false_iff, decide_eq_false_iff_not, bne_eq_false_iff_eq, Bool.not_eq_false',
      not_not, not_lt, not_le, and_assoc]
    tauto
  have hx : exec (.publicationWindow fn) s = .next _ := served_next rfl hs hlt hop hp
  rw [hx]
  refine ⟨fun hf => ?_, fun hf => ?_⟩
  · rw [if_pos (Bool.not_eq_false _ ▸ mt hform.mp hf)]
  · rw [if_neg (Bool.not_eq_true _ ▸ hform.mpr hf)]

theorem exec_releasePolicy_served (hop : reqOpcode h = 6) (hp : reqPart fn false h = some p) :
    let k := fieldAt body 128 2
    let form : Prop := n = 144 + 5360 * k ∧ zeroFrom body 130 144 = true
    let r := body.take 128
    let c := s.policyCode p r (piecesOf 5360 k (body.drop 144))
    (¬ form → exec (.releasePolicy fn) s = .next (State.respond fn h p s.refuseFree)) ∧
    (form → c ≠ 0 → exec (.releasePolicy fn) s = .next (State.respond fn h p (s.refuse c))) ∧
    (form → c = 0 → exec (.releasePolicy fn) s = .next (State.respond fn h p (s.modPart p (fun q =>
      { q with policies := tput q.policies (fieldAt r 0 1) (policyOf r)
               serials := tput q.serials (fieldAt r 0 1) (policyOf r).serial })).done)) := by
  intro k form r c
  have hform : (decide (n < 144) || decide (n ≠ 144 + 5360 * k) || !zeroFrom body 130 144) = false ↔ form := by
    simp only [form, Bool.or_eq_false_iff, decide_eq_false_iff_not, Bool.not_eq_false', not_not, and_assoc]
    exact ⟨fun h => h.2, fun h => ⟨by omega, h⟩⟩
  have hx : exec (.releasePolicy fn) s = .next _ := served_next rfl hs hlt hop hp
  rw [hx]
  refine ⟨fun hf => ?_, fun hf hc => ?_, fun hf hc => ?_⟩
  · rw [if_pos (Bool.not_eq_false _ ▸ mt hform.mp hf)]
  · rw [if_neg (Bool.not_eq_true _ ▸ hform.mpr hf), if_pos hc]
  · rw [if_neg (Bool.not_eq_true _ ▸ hform.mpr hf), if_neg (not_not_intro hc)]

theorem exec_attest_served (hop : reqOpcode h = 9) (hp : reqPart fn false h = some p) :
    (n ≠ 32 → exec (.attest fn) s = .next (State.respond fn h p s.refuseFree)) ∧
    (n = 32 → exec (.attest fn) s = .next (State.respond fn h p
      (s.giving (s.report p body ++ identityBlock (asciiOf "LX4-ATST" ++ s.report p body))))) := by
  have hx : exec (.attest fn) s = .next _ := served_next rfl hs hlt hop hp
  rw [hx]
  exact ⟨fun hn => by rw [if_pos hn], fun hn => by rw [if_neg (not_not_intro hn)]⟩

/-- The registers that READ_FAULT_REGISTERS reads, each as eight bytes. -/
def State.regBytes (s : State) (p num : Nat) : List Byte := bytesOf 8 ((s.iodReg p num).getD 0).toNat

/-- Their numbers, in ascending order. -/
def faultRegs : List Nat := (List.range 17).map (fun i => 0x80F + i) ++ (List.range 18).map (fun i => 0x820 + i)

theorem exec_readFaultRegisters_served (hop : reqOpcode h = 11) (hp : reqPart fn false h = some p) :
    exec (.readFaultRegisters fn) s = .next (State.respond fn h p (s.giving (faultRegs.flatMap (s.regBytes p)))) :=
  served_next (act := fun s p _ _ => s.giving (faultRegs.flatMap (s.regBytes p))) rfl hs hlt hop hp

/-- The islands' sensors, free values. -/
def sensorBytes (c : Nat) : List Byte := (List.range 16).flatMap (fun i => bytesOf 8 (Config.freeWord (c + i)).toNat)

theorem exec_readHarvestMap_served (hop : reqOpcode h = 12) (hp : reqPart fn true h = some p) :
    exec (.readHarvestMap fn) s = .next (State.respond fn h p ({ s with freeCount := s.freeCount + 16 }.giving
      (bytesOf 8 s.retired.length ++ s.retired.flatMap unitBytes ++ (bytesOf 8 s.failing.length ++ s.failing.flatMap unitBytes) ++
        sensorBytes s.freeCount))) :=
  served_next (act := fun s _ _ _ => { s with freeCount := s.freeCount + 16 }.giving
    (bytesOf 8 s.retired.length ++ s.retired.flatMap unitBytes ++ (bytesOf 8 s.failing.length ++ s.failing.flatMap unitBytes) ++
      sensorBytes s.freeCount)) rfl hs hlt hop hp

end

theorem faultRegs_bytes_length (s : State) (p : Nat) : (faultRegs.flatMap (s.regBytes p)).length = 280 :=
  length_flatMap_of_length (fun _ => bytesOf_length ..) faultRegs

theorem faultRegs_bytes (s : State) (p k num : Nat) (h : faultRegs[k]? = some num) :
    ((faultRegs.flatMap (s.regBytes p)).drop (8 * k)).take 8 = s.regBytes p num :=
  slice_flatMap (fun _ => bytesOf_length ..) h

theorem sensorBytes_length (c : Nat) : (sensorBytes c).length = 128 := length_flatMap_of_length (fun _ => bytesOf_length ..) (List.range 16)

end Sys2Proof.Machine
end

section
/-! SUPPORT. The debugger's requests (R428, R429, R432, R450): a halted core, a resumed one, and what they leave of the reasons for
pre-emption. -/

namespace Sys2Proof.Machine

/-! ## A core that is halted (R432) -/

/-- A core is halted, and the stacks are as they were. -/
def State.HaltedAs (s t : State) (core : Nat) : Prop := (t.core core).halted = true ∧ t.stack = s.stack

theorem State.HaltedAs.modCtx {s t : State} {core : Nat} (h : s.HaltedAs t core) (c x : Nat) (f : Ctx → Ctx) :
    s.HaltedAs (t.modCtx c x f) core := by
  refine ⟨?_, h.2⟩
  show ((t.modCore c _).core core).halted = true
  rw [State.modCore_core]
  split_ifs with hc
  · exact hc ▸ h.1
  · exact h.1

theorem State.HaltedAs.preempt {s t : State} {core : Nat} (h : s.HaltedAs t core) (x : Nat) :
    s.HaltedAs ((t.askPre core x .coreHalt).preempt core x) core := by
  have hask : s.HaltedAs (t.askPre core x .coreHalt) core := by
    unfold State.askPre
    dsimp only
    split_ifs
    · exact h
    · exact h.modCtx ..
  have hfreeze : s.HaltedAs ((t.askPre core x .coreHalt).freeze core x) core := by
    unfold State.freeze
    dsimp only
    split_ifs
    · refine ⟨?_, hask.2⟩
      rw [State.modCore_core, if_pos rfl]
      exact (hask.modCtx ..).1
    · exact hask
  unfold State.preempt State.bankPreempted
  dsimp only
  split_ifs
  · exact hfreeze.modCtx ..
  · exact hfreeze

theorem State.haltCore_halts (s : State) (core : Nat) : s.HaltedAs (s.haltCore core) core := by
  unfold State.haltCore
  refine List.foldlRecOn (motive := fun t => s.HaltedAs t core) _ _ ⟨?_, rfl⟩ fun t ht x _ => ht.preempt x
  rw [State.modCore_core, if_pos rfl]

/-! ## A core that is resumed (R432) -/

/-- The reasons that hold a context. -/
def State.reasons (s : State) (core x : Nat) : List PreReason := (s.ctx core x).preReasons

theorem State.modCtx_reasons {f : Ctx → Ctx} (hf : ∀ y, (f y).preReasons = y.preReasons) (s : State) (c x core y : Nat) :
    (s.modCtx c x f).reasons core y = s.reasons core y := by
  unfold State.reasons
  rw [State.modCtx_ctx]
  split_ifs with hy
  · rw [hf, hy.1, hy.2]
  · rfl

theorem State.endPre_reasons (s : State) (core x : Nat) (r : PreReason) (y : Nat) :
    (s.endPre core x r).reasons core y = if y = x then (s.reasons core x).filter (fun q => q != r) else s.reasons core y := by
  unfold State.endPre State.reasons
  rw [State.modCtx_ctx]
  by_cases hy : y = x <;> simp [hy]

/-- A context that resumes is another, with the same reasons; one that does not stays as it is. -/
theorem State.resume_cases (s : State) (c x : Nat) : s.resume c x = s ∨
    ∃ f : Ctx → Ctx, s.resume c x = s.modCtx c x f ∧ ∀ y, (f y).preReasons = y.preReasons := by
  unfold State.resume
  dsimp only
  split_ifs
  · exact .inl rfl
  · exact .inr ⟨_, rfl, fun _ => rfl⟩
  · split
    · exact .inl rfl
    · exact .inr ⟨_, rfl, fun _ => rfl⟩
  · exact .inl rfl

theorem State.resume_reasons (s : State) (c x core y : Nat) : (s.resume c x).reasons core y = s.reasons core y := by
  obtain h | ⟨f, h, hf⟩ := s.resume_cases c x
  · rw [h]
  · rw [h, State.modCtx_reasons hf]

theorem State.modCtx_halted (s : State) (c x core : Nat) (f : Ctx → Ctx) :
    ((s.modCtx c x f).core core).halted = (s.core core).halted := by
  show ((s.modCore c _).core core).halted = _
  rw [State.modCore_core]
  split_ifs with hc
  · rw [hc]; rfl
  · rfl

theorem State.resume_halted (s : State) (c x core : Nat) : ((s.resume c x).core core).halted = (s.core core).halted := by
  obtain h | ⟨f, h, -⟩ := s.resume_cases c x
  · rw [h]
  · rw [h, State.modCtx_halted]

theorem State.resume_part (s : State) (c x k : Nat) : (s.resume c x).part k = s.part k := by
  obtain h | ⟨f, h, -⟩ := s.resume_cases c x <;> rw [h]
  rfl

/-- Steps that end a reason, each for one context, and bring no reason back: of the contexts that they name, none has it left. -/
theorem State.foldl_ends_reason {core : Nat} {r : PreReason} {f : State → Nat → State}
    (hf : ∀ s x y, (f s x).reasons core y = if y = x then (s.reasons core x).filter (fun q => q != r) else s.reasons core y)
    (xs : List Nat) (s : State) (y : Nat) (q : PreReason) :
    q ∈ (xs.foldl f s).reasons core y ↔ q ∈ s.reasons core y ∧ (y ∈ xs → q ≠ r) := by
  induction xs generalizing s with
  | nil => simp
  | cons x xs ih =>
    rw [List.foldl_cons, ih, hf]
    by_cases hy : y = x
    · subst hy
      simp only [if_true, List.mem_filter, bne_iff_ne, List.mem_cons, true_or, true_imp_iff]
      tauto
    · simp [hy]

/-- One context of a core that resumes. -/
def State.resumeCtx (s : State) (core x : Nat) : State :=
  ((s.endPre core x .coreHalt).modCtx core x (fun x => { x with dbg := none })).resume core x

theorem State.resumeCore_eq (s : State) (core : Nat) : s.resumeCore core =
    four.foldl (fun s x => s.resumeCtx core x) (s.modCore core (fun k => { k with halted := false })) := rfl

theorem State.resumeCtx_reasons (s : State) (core x y : Nat) : (s.resumeCtx core x).reasons core y =
    if y = x then (s.reasons core x).filter (fun q => q != .coreHalt) else s.reasons core y := by
  unfold State.resumeCtx
  rw [State.resume_reasons, State.modCtx_reasons (f := fun x => { x with dbg := none }) (fun _ => rfl), State.endPre_reasons]

/-- A core that the debugger lets go: it is not halted, and of its contexts none is held by the debugger or by the halt. -/
theorem State.debugResume_lets_go (s : State) (core : Nat) :
    let u := (four.foldl (fun s x => s.endPre core x .debugger) s).resumeCore core
    (u.core core).halted = false ∧ ∀ x < 4, PreReason.debugger ∉ u.reasons core x ∧ PreReason.coreHalt ∉ u.reasons core x := by
  dsimp only
  rw [State.resumeCore_eq]
  refine ⟨?_, fun x hx => ?_⟩
  · refine List.foldlRecOn (motive := fun t : State => (t.core core).halted = false) _ _ ?_ fun t ht x _ => ?_
    · rw [State.modCore_core, if_pos rfl]
    · unfold State.resumeCtx State.endPre
      rw [State.resume_halted, State.modCtx_halted, State.modCtx_halted, ht]
  · have hfour : x ∈ four := by
      interval_cases x <;> decide
    have hcore : ∀ (t : State), (t.modCore core (fun k => { k with halted := false })).reasons core x = t.reasons core x := fun t => by
      unfold State.reasons State.ctx
      rw [State.modCore_core, if_pos rfl]
      rfl
    rw [State.foldl_ends_reason (fun s x y => s.resumeCtx_reasons core x y),
      State.foldl_ends_reason (fun s x y => s.resumeCtx_reasons core x y), hcore,
      State.foldl_ends_reason (fun s x y => s.endPre_reasons core x .debugger y),
      State.foldl_ends_reason (fun s x y => s.endPre_reasons core x .debugger y)]
    exact ⟨fun h => h.1.2 hfour rfl, fun h => h.2 hfour rfl⟩

/-! ## The requests -/

section
variable {fn n p : Nat} {s : State} {h body : List Byte} (hs : s.submitted fn = some (h, n, body)) (hlt : p < 16)
  (hop : reqOpcode h = 10) (hp : reqPart fn false h = some p)
include hs hlt hop hp

theorem exec_debugAttach_served : exec (.debugAttach fn) s =
    .next (State.respond fn h p (s.modPart p (fun q => { q with debugger := true })).done) :=
  served_next (act := fun s p _ _ => (s.modPart p (fun q => { q with debugger := true })).done) rfl hs hlt hop hp

/-- A request that names a core of its partition is served, and any other is denied. -/
theorem State.debug_served (core : Nat) (act : State → Nat → Served) :
    (core ∉ (s.part p).coreList → s.debug fn core act = State.respond fn h p (s.refuse 0xFFFF)) ∧
    (core ∈ (s.part p).coreList → s.debug fn core act = State.respond fn h p (act s p)) := by
  unfold State.debug
  rw [State.serveRequest_served hs hlt hop hp]
  exact ⟨fun hc => by rw [if_neg (by simpa using hc)]; rfl, fun hc => by rw [if_pos (by simpa using hc)]⟩

variable {core : Nat}

theorem exec_debug_denied (hc : core ∉ (s.part p).coreList) {i : Instr} {act : State → Nat → Served}
    (hx : exec i s = .next (s.debug fn core act)) : exec i s = .next (State.respond fn h p (s.refuse 0xFFFF)) := by
  rw [hx, (State.debug_served hs hlt hop hp core act).1 hc]

section
variable (hc : core ∈ (s.part p).coreList)
include hc

theorem exec_debug_served {i : Instr} {act : State → Nat → Served} (hx : exec i s = .next (s.debug fn core act)) :
    exec i s = .next (State.respond fn h p (act s p)) := by
  rw [hx, (State.debug_served hs hlt hop hp core act).2 hc]

theorem exec_debugHalt_served : exec (.debugHalt fn core) s = .next (State.respond fn h p (s.haltCore core).done) :=
  exec_debug_served hs hlt hop hp hc (act := fun s _ => (s.haltCore core).done) rfl

theorem exec_debugResume_served (hfrozen : (s.part p).frozen = false) : exec (.debugResume fn core) s =
    .next (State.respond fn h p ((four.foldl (fun s x => s.endPre core x .debugger) s).resumeCore core).done) := by
  have hx : exec (.debugResume fn core) s = .next _ := exec_debug_served hs hlt hop hp hc rfl
  have hpart : (((four.foldl (fun s x => s.endPre core x .debugger) s).resumeCore core).part p).frozen = false := by
    rw [State.resumeCore_eq, foldl_keeps (g := fun t : State => t.part p), ← hfrozen]
    · exact congrArg Part.frozen (foldl_keeps (g := fun t : State => t.part p) (fun _ _ => rfl) four s)
    · exact fun t x => State.resume_part ..
  rw [hx]
  dsimp only
  rw [if_neg (by rw [hpart]; decide)]

theorem exec_debugPreemptContext_served (x : Nat) :
    (x < 4 → exec (.debugPreemptContext fn core x) s =
      .next (State.respond fn h p ((s.askPre core x .debugger).preempt core x).done)) ∧
    (4 ≤ x → exec (.debugPreemptContext fn core x) s = .next (State.respond fn h p (s.refuse 0xFFFF))) := by
  have hx : exec (.debugPreemptContext fn core x) s = .next _ := exec_debug_served hs hlt hop hp hc rfl
  rw [hx]
  exact ⟨fun h4 => by rw [if_pos h4], fun h4 => by rw [if_neg (Nat.not_lt.mpr h4)]; rfl⟩

/-- A read answers what a DBGBRK has recorded, or the register as the core holds it. -/
theorem exec_debugStateRead_served {x num : Nat} (hx4 : x < 4) (hnum : num < 0x800) :
    (∀ w, ((s.ctx core x).recorded num).or (s.heldReg core x (s.ctx core x).block num) = some w →
      exec (.debugStateRead fn core x num) s = .next (State.respond fn h p (s.giving (bytesOf 8 w.toNat)))) ∧
    (((s.ctx core x).recorded num).or (s.heldReg core x (s.ctx core x).block num) = none →
      exec (.debugStateRead fn core x num) s = .next (State.respond fn h p (s.refuse 0xFFFF))) := by
  have hx : exec (.debugStateRead fn core x num) s = .next _ := exec_debug_served hs hlt hop hp hc rfl
  have hv : (if ((s.ctx core x).recorded num).isSome = true then (s.ctx core x).recorded num
      else if num < 0x800 then s.heldReg core x (s.ctx core x).block num else s.iodReg p num) =
      ((s.ctx core x).recorded num).or (s.heldReg core x (s.ctx core x).block num) := by
    rw [if_pos hnum]
    cases (s.ctx core x).recorded num <;> rfl
  rw [hx]
  dsimp only
  rw [hv]
  refine ⟨fun w hw => ?_, fun hw => ?_⟩
  · simp only [hw, if_pos hx4]
  · simp only [hw]
    rfl

end

end

end Sys2Proof.Machine
end

section
/-! SUPPORT. What an accepted request is known to meet (R86, R361, R472), and the layout of the manifest (R441). -/

namespace Sys2Proof.Machine

/-! ## Records that pass every check (R472) -/

/-- An element whose code is one of 0 to 4, none of which but 0 an element of the list has. -/
theorem code_eq_zero {α : Type} {f : α → Nat} {xs : List α} {x : α} (hx : x ∈ xs) (hle : f x ≤ 4)
    (h1 : xs.findIdx? (fun y => f y == 1) = none) (h2 : xs.findIdx? (fun y => f y == 2) = none)
    (h3 : xs.findIdx? (fun y => f y == 3) = none) (h4 : xs.findIdx? (fun y => f y == 4) = none) : f x = 0 := by
  have hne : ∀ c, xs.findIdx? (fun y => f y == c) = none → f x ≠ c := fun c hc =>
    by simpa using List.findIdx?_eq_none_iff.mp hc x hx
  have := hne 1 h1
  have := hne 2 h2
  have := hne 3 h3
  have := hne 4 h4
  omega

theorem State.pteCode_le (s : State) (p : Nat) (r : PteRec) : s.pteCode p r ≤ 4 := by
  unfold State.pteCode
  split_ifs <;> decide

theorem State.pteCode_of_accepted {s : State} {p : Nat} {rs : List PteRec} (h : s.pteRefusal p rs = none) {r : PteRec} (hr : r ∈ rs) :
    s.pteCode p r = 0 := by
  simp only [State.pteRefusal, Option.orElse_eq_or, Option.or_eq_none_iff, Option.map_eq_none_iff] at h
  obtain ⟨h1, h2, h3, h4, -⟩ := h
  exact code_eq_zero hr (s.pteCode_le p r) h1 h2 h3 h4

/-- A valid record without a failing check. -/
theorem State.pteCode_eq_zero {s : State} {p : Nat} {r : PteRec} (h : s.pteCode p r = 0) (hv : pteV r.entry = true) :
    leafForm r.level r.entry = true ∧ r.va < 2 ^ 56 ∧ r.va % levelSpan r.level = 0 ∧ (pteMask r.entry).toNat < 2 ^ (s.part p).parties ∧
    s.targetOk p (leafTarget r.level r.entry).1 (leafTarget r.level r.entry).2 = true := by
  simp only [State.pteCode, hv] at h
  split_ifs at h with hform hleaf hmask htarget
  all_goals simp_all [Part.maskOk]

theorem State.rangeCode_le (s : State) (p : Nat) (r : RangeRec) : s.rangeCode p r ≤ 4 := by
  unfold State.rangeCode
  dsimp only
  split_ifs <;> decide

theorem State.rangeCode_of_accepted {s : State} {p : Nat} {rs : List RangeRec} (h : s.rangeRefusal p rs = none) {r : RangeRec}
    (hr : r ∈ rs) : s.rangeCode p r = 0 := by
  simp only [State.rangeRefusal, Option.orElse_eq_or, Option.or_eq_none_iff, Option.map_eq_none_iff] at h
  obtain ⟨h1, h2, h3, h4, -⟩ := h
  exact code_eq_zero hr (s.rangeCode_le p r) h1 h2 h3 h4

/-- A record that sets an entry and has no failing check. -/
theorem State.rangeCode_eq_zero {s : State} {p : Nat} {r : RangeRec} (h : s.rangeCode p r = 0) (hop : r.op = 1) :
    (rangeOf r.body).formOk = true ∧ (rangeOf r.body).mask.toNat < 2 ^ (s.part p).parties ∧
    s.targetOk p (rangeOf r.body).target ((rangeOf r.body).limit - (rangeOf r.body).base) = true ∧ r.index < 128 := by
  simp only [State.rangeCode, hop] at h
  split_ifs at h with hform hentry hmask htarget
  all_goals simp_all [Part.maskOk]
  omega

/-! ## A policy that is accepted (R361) -/

/-- A party named by the mask, whose entry has the key. -/
theorem Part.mem_partiesOf {p : Part} {m : Mask} {key : BitVec 256} {i : Nat} : i ∈ p.partiesOf m key ↔
    (i < 16 ∧ m.getLsbD i = true) ∧ ∃ d, p.desc = some d ∧ d.partyKeys[i]? = some key := by
  unfold Part.partiesOf
  rw [List.mem_filter, mem_bitList]
  refine and_congr Iff.rfl ?_
  cases p.desc <;> simp

theorem State.policyCode_eq_zero {s : State} {p : Nat} {r : List Byte} {blocks : List (List Byte)} (h : s.policyCode p r blocks = 0) :
    let index := fieldAt r 0 1
    let m := (policyOf r).mask
    index < 32 ∧ fieldAt r 1 1 = p ∧ m.toNat < 2 ^ (s.part p).parties ∧
    (∀ n, tfind (s.part p).serials index = some n → n < fieldAt r 0x40 8) ∧
    (∀ b ∈ blocks, blockVerifies b (asciiOf "LX4-RPOL" ++ r) = true) ∧
    (∀ k < 16, m.getLsbD k = true → ∃ b ∈ blocks, ∃ d, (s.part p).desc = some d ∧ d.partyKeys[k]? = some (keyDigest b)) := by
  intro index m
  unfold State.policyCode at h
  dsimp only at h
  split_ifs at h with hform hpart hmask hwin hserial hblocks hkeys hsigned
  refine ⟨?_, ?_, by simpa [Part.maskOk] using hmask, fun n hn => ?_, by simpa using hblocks, fun k hk hm => ?_⟩
  · simp only [Bool.or_eq_true, decide_eq_true_eq, not_or, not_lt] at hform
    exact Nat.lt_succ_of_le (by tauto)
  · simp only [Bool.or_eq_true, decide_eq_true_eq, not_or, not_not] at hpart
    exact hpart.1
  · rw [hn] at hserial
    exact Nat.not_le.mp (of_decide_eq_false (Bool.not_eq_true _ ▸ hserial))
  · have hall : ∀ i ∈ bitList m.toNat 16, ∃ b ∈ blocks, i ∈ (s.part p).partiesOf m (keyDigest b) := by simpa using hsigned
    obtain ⟨b, hb, hparty⟩ := hall k (mem_bitList.mpr ⟨hk, hm⟩)
    exact ⟨b, hb, (Part.mem_partiesOf.mp hparty).2⟩

/-! ## The manifest (R441) -/

@[simp] theorem digestBytes_length (d : BitVec 256) : (digestBytes d).length = 32 := bytesOf_length ..

theorem Launch.manifest_length (l : Launch) : l.manifest.length = 128 := by
  simp only [Launch.manifest, List.length_append, bytesOf_length, digestBytes_length]

/-- The header of a manifest, before its entries. -/
def Part.manifestHeader (p : Part) (part count : Nat) : List Byte :=
  bytesOf 4 0x4D34584C ++ bytesOf 2 1 ++ bytesOf 1 part ++ bytesOf 1 count ++ bytesOf 8 p.seq.toNat ++
  digestBytes ((p.desc.map (fun d => sha3 d.raw)).getD 0) ++ digestBytes Config.conversionDigest ++
  digestBytes Config.firmwareDigest ++ bytesOf 16 0

theorem Part.manifestHeader_length (p : Part) (part count : Nat) : (p.manifestHeader part count).length = 128 := by
  simp only [Part.manifestHeader, List.length_append, bytesOf_length, digestBytes_length]

/-- The launches on cores: each has an entry. -/
def Part.manifested (p : Part) : List Launch := p.launches.filter (fun l => !l.cores.isEmpty)

theorem State.manifest_eq (s : State) (part : Nat) : s.manifest part =
    (s.part part).manifestHeader part (s.part part).manifested.length ++ (s.part part).manifested.flatMap Launch.manifest := by rfl

theorem State.manifest_length (s : State) (part : Nat) : (s.manifest part).length = 128 + 128 * (s.part part).manifested.length := by
  rw [s.manifest_eq, List.length_append, Part.manifestHeader_length, length_flatMap_of_length Launch.manifest_length]

/-- Bytes of the header. -/
theorem State.manifest_header (s : State) (part : Nat) {off n : Nat} (h : off + n ≤ 128) : ((s.manifest part).drop off).take n =
    (((s.part part).manifestHeader part (s.part part).manifested.length).drop off).take n := by
  have hlen := (s.part part).manifestHeader_length part (s.part part).manifested.length
  rw [s.manifest_eq, List.drop_append_of_le_length (by omega), List.take_append_of_le_length (by rw [List.length_drop]; omega)]

/-- Bytes of an entry. -/
theorem State.manifest_entry (s : State) (part : Nat) {i off n : Nat} {l : Launch} (hl : (s.part part).manifested[i]? = some l)
    (h : off + n ≤ 128) : ((s.manifest part).drop (128 + 128 * i + off)).take n = (l.manifest.drop off).take n := by
  have hblock := slice_flatMap Launch.manifest_length hl
  have hlen := (s.part part).manifestHeader_length part (s.part part).manifested.length
  have hpast : ∀ xs : List Byte, (((s.part part).manifestHeader part (s.part part).manifested.length) ++ xs).drop 128 = xs :=
    fun xs => List.drop_left' hlen
  rw [s.manifest_eq, Nat.add_assoc, ← List.drop_drop, hpast, ← List.drop_drop, ← hblock, List.drop_take, List.take_take,
    Nat.min_eq_left (by omega)]

theorem Part.manifestHeader_fields (p : Part) (part count : Nat) :
    let at_ (off n : Nat) : List Byte := ((p.manifestHeader part count).drop off).take n
    at_ 0 4 = bytesOf 4 0x4D34584C ∧ at_ 4 2 = bytesOf 2 1 ∧ at_ 6 1 = bytesOf 1 part ∧ at_ 7 1 = bytesOf 1 count ∧
    at_ 8 8 = bytesOf 8 p.seq.toNat ∧ at_ 16 32 = digestBytes ((p.desc.map (fun d => sha3 d.raw)).getD 0) ∧
    at_ 48 32 = digestBytes Config.conversionDigest ∧ at_ 80 32 = digestBytes Config.firmwareDigest ∧ at_ 112 16 = bytesOf 16 0 := by
  simp [Part.manifestHeader, List.drop_append, List.drop_of_length_le, List.take_of_length_le]

theorem Launch.manifest_fields (l : Launch) :
    let at_ (off n : Nat) : List Byte := (l.manifest.drop off).take n
    at_ 0 8 = bytesOf 8 l.num ∧ at_ 8 32 = digestBytes (l.imgDigest.getD 0) ∧ at_ 40 32 = digestBytes l.microDigest ∧
    at_ 72 8 = bytesOf 8 l.pkt.seed.toNat ∧ at_ 80 8 = bytesOf 8 l.base.toNat ∧ at_ 88 1 = bytesOf 1 l.pkt.mode.toNat ∧
    at_ 89 1 = bytesOf 1 1 ∧ at_ 90 1 = bytesOf 1 l.cores.length ∧ at_ 91 1 = bytesOf 1 l.pkt.perCore ∧ at_ 92 4 = bytesOf 4 l.mloads ∧
    at_ 96 8 = bytesOf 8 (l.cores.foldl (fun a c => a + 2 ^ c) 0) ∧ at_ 104 24 = bytesOf 24 0 := by
  simp [Launch.manifest, List.drop_append, List.drop_of_length_le, List.take_of_length_le]

end Sys2Proof.Machine
end

section
/-! SUPPORT. The mailbox events together (R85, R450). -/

namespace Sys2Proof.Machine

theorem State.withEgress_keeps (s : State) (part : Nat) (x : Option (Nat × Option Egress)) : let t := s.withEgress part x
    t.funcs = s.funcs ∧ t.host0 = s.host0 ∧ t.host1 = s.host1 ∧ t.cores = s.cores ∧ (x = none → t.parts = s.parts) := by
  cases x
  · exact ⟨rfl, rfl, rfl, rfl, fun _ => rfl⟩
  · exact ⟨rfl, rfl, rfl, rfl, fun h => absurd h (by simp)⟩

/-- An egress window takes effect with the response (R356); of the partition nothing else changes, and of the others nothing. -/
theorem State.withEgress_part (s : State) (part : Nat) (x : Option (Nat × Option Egress)) (k : Nat) :
    (s.withEgress part x).part k =
    if k = part then { s.part part with egress := setEgress (s.part part).egress x } else s.part k := by
  cases x with
  | none =>
    by_cases hk : k = part
    · rw [if_pos hk, hk]; rfl
    · rw [if_neg hk]; rfl
  | some e => exact State.modPart_part ..

/-- Settles O53, request by request: what each does is said by the lemmas above, and here they are put together. -/
theorem mailboxEvents : Obligations.MailboxEvents := by
  unfold Obligations.MailboxEvents
  refine ⟨fun fn core ctx num s i op pf hi => ?request, fun fn h part r => ?respond, fun fn s => State.submitted_ne_none,
    fun s i hi => State.nextServed_first hi, fun fn s h body n hs => ?served, fun fn s => exec_unlistedMailboxOpcode_none,
    fun s p rs hr r hmem hv => State.pteCode_eq_zero (State.pteCode_of_accepted hr hmem) hv,
    fun s p rs hr r hmem hop => State.rangeCode_eq_zero (State.rangeCode_of_accepted hr hmem) hop,
    fun s p r blocks => State.policyCode_eq_zero, fun s p d hd => ?manifest, fun fn s => ?response⟩
  case request =>
    obtain ⟨act, hx⟩ := exec_requestEvent hi s
    rw [hx]
    refine ⟨fun hs => ?_, fun h n body hs => ⟨fun hop => ?_, fun hop hp => ?_⟩⟩
    · rw [State.serveRequest_none hs]
    · rw [State.serveRequest_other hs hop]
    · rw [State.serveRequest_denied hs hop hp]
  case respond =>
    obtain ⟨hrequest, hresponse⟩ := State.respond_func fn h part r
    exact ⟨hrequest, hresponse, rfl, rfl, rfl⟩
  case served =>
    intro gives refused free p hlt
    refine ⟨?install, ?pages, ?ranges, exec_egressWindow_served hs hlt, ?publication, ?policy, ?reset, ?reads, ?attest, ?debug,
      ?faults, ?harvest, ?unlisted⟩
    case install =>
      intro hop hp i
      obtain ⟨hsize, hrefused, hinstalled⟩ := exec_installDescriptor_served hs hlt hop hp
      exact ⟨fun hn => exec_free (hsize hn), hrefused, hinstalled⟩
    case pages =>
      intro hop hp i c bad rs
      obtain ⟨hbad, hrefused, happlied⟩ := exec_writePageTableEntries_served hs hlt hop hp
      obtain ⟨hparts, hcores, hstack⟩ := (s.withLeaves p rs).dropRecords_keeps p rs
      refine ⟨hbad, hrefused, fun hb hr => ⟨_, happlied hb hr, ?_, State.dropRecords_spanFree _ p rs, hcores, hstack⟩⟩
      rw [State.part, hparts]
      exact s.withLeaves_leaves p rs
    case ranges =>
      intro hop hp i c bad rs
      obtain ⟨hbad, hrefused, happlied⟩ := exec_rangeEntries_served hs hlt hop hp
      exact ⟨hbad, hrefused, fun hb hr => ⟨_, happlied hb hr, s.applyRanges_part p rs⟩⟩
    case publication =>
      intro hop hp i win r base size ctr form
      obtain ⟨hrefused, hset⟩ := exec_publicationWindow_served hs hlt hop hp
      exact ⟨fun hf => exec_free (hrefused hf), hset⟩
    case policy =>
      intro hop hp i k form r c
      obtain ⟨hform, hrefused, hset⟩ := exec_releasePolicy_served hs hlt hop hp
      exact ⟨fun hf => exec_free (hform hf), hrefused, hset⟩
    case reset =>
      exact fun hop hp => served_next (act := fun s p _ _ => (s.resetPartition p none).done) rfl hs hlt hop hp
    case reads =>
      exact fun hop hp => served_next (act := fun s p _ _ => s.giving (s.manifest p)) rfl hs hlt hop hp
    case attest =>
      intro hop hp
      obtain ⟨hsize, hreport⟩ := exec_attest_served hs hlt hop hp
      exact ⟨fun hn => exec_free (hsize hn), hreport⟩
    case debug =>
      intro hop hp
      refine ⟨exec_debugAttach_served hs hlt hop hp, fun core hc => ?_, fun core hc => ?_⟩
      · exact ⟨exec_debug_denied hs hlt hop hp hc rfl, exec_debug_denied hs hlt hop hp hc rfl, fun x =>
          ⟨exec_debug_denied hs hlt hop hp hc rfl, fun num => exec_debug_denied hs hlt hop hp hc rfl⟩⟩
      · refine ⟨⟨_, exec_debugHalt_served hs hlt hop hp hc, s.haltCore_halts core⟩,
          fun hf => ⟨_, exec_debugResume_served hs hlt hop hp hc hf, s.debugResume_lets_go core⟩,
          fun x => (exec_debugPreemptContext_served hs hlt hop hp hc x).1, fun x => (exec_debugPreemptContext_served hs hlt hop hp hc x).2,
          fun x hx num hnum => ?_⟩
        intro noted held
        obtain ⟨hread, hnone⟩ := exec_debugStateRead_served hs hlt hop hp hc hx hnum
        refine ⟨fun w hw => hread w (Option.or_eq_some_iff.mpr hw), fun hn hh => hnone (Option.or_eq_none_iff.mpr ⟨hn, hh⟩)⟩
    case faults =>
      intro hop hp
      refine ⟨_, exec_readFaultRegisters_served hs hlt hop hp, faultRegs_bytes_length s p, fun k hk => ?_, fun k hk => ?_⟩
      · exact faultRegs_bytes s p k (0x80F + k) (by simp [faultRegs, hk, List.getElem?_append])
      · rw [show 136 + 8 * k = 8 * (17 + k) by omega]
        exact faultRegs_bytes s p (17 + k) (0x820 + k) (by simp [faultRegs, hk, List.getElem?_append])
    case harvest =>
      exact fun hop hp => ⟨_, sensorBytes_length s.freeCount, exec_readHarvestMap_served hs hlt hop hp⟩
    case unlisted =>
      intro known
      rw [exec_unlistedMailboxOpcode_some hs]
      exact ⟨fun hk => congrArg _ (if_pos hk), fun hk => congrArg _ (if_neg hk)⟩
  case manifest =>
    intro es m at_
    have head : ∀ {off n : Nat}, off + n ≤ 128 → at_ off n = (((s.part p).manifestHeader p es.length).drop off).take n :=
      s.manifest_header p
    obtain ⟨f0, f4, f6, f7, f8, f16, f48, f80, f112⟩ := (s.part p).manifestHeader_fields p es.length
    rw [hd] at f16
    refine ⟨s.manifest_length p, (head (by decide)).trans (f0.trans (by decide)), (head (by decide)).trans f4, (head (by decide)).trans f6,
      (head (by decide)).trans f7, (head (by decide)).trans f8, (head (by decide)).trans f16, (head (by decide)).trans f48,
      (head (by decide)).trans f80, (head (by decide)).trans f112, fun i l hl => ?_⟩
    intro e
    have entry : ∀ {off n : Nat}, off + n ≤ 128 → at_ (e + off) n = (l.manifest.drop off).take n := s.manifest_entry p hl
    obtain ⟨g0, g8, g40, g72, g80, g88, g89, g90, g91, g92, g96, g104⟩ := l.manifest_fields
    exact ⟨(entry (by decide)).trans g0, (entry (by decide)).trans g8, (entry (by decide)).trans g40, (entry (by decide)).trans g72,
      (entry (by decide)).trans g80, (entry (by decide)).trans g88, (entry (by decide)).trans g89, (entry (by decide)).trans g90,
      (entry (by decide)).trans g91, (entry (by decide)).trans g92, (entry (by decide)).trans g96, (entry (by decide)).trans g104⟩
  case response =>
    refine ⟨exec_mailboxResponse_none, fun r hr => ?_⟩
    intro up waits
    obtain ⟨hheld, hwritten⟩ := exec_mailboxResponse_some hr
    refine ⟨hheld, fun hup hw hwf hend => ⟨_, hwritten (not_or.mpr ⟨not_not_intro hup, hw⟩), ?_⟩⟩
    obtain ⟨hbusy, hresponse⟩ := s.responded_func fn r
    have hread := State.responded_hostGet (fn := fn) hwf hend
    obtain ⟨hcores, hparts⟩ := s.responded_keeps fn r
    have hpart := (s.responded fn r).withEgress_part r.part r.egress
    have hsame : ∀ k, (s.responded fn r).part k = s.part k := fun k => by rw [State.part, hparts]; rfl
    obtain ⟨hfuncs, hhost0, hhost1, hcores', hnone⟩ := (s.responded fn r).withEgress_keeps r.part r.egress
    have hfunc : ((s.responded fn r).withEgress r.part r.egress).func fn = (s.responded fn r).func fn := by
      rw [State.func, hfuncs]; rfl
    refine ⟨by rw [hfunc, hbusy], by rw [hfunc, hresponse], (State.hostGet_congr hhost0 hhost1 ..).trans hread, hcores'.trans hcores,
      fun he => (hnone he).trans hparts, fun k hk => ?_, fun slot he => ?_, fun slot e he => ?_⟩
    · rw [hpart, if_neg hk, hsame]
    · rw [hpart, if_pos rfl, hsame, he]; rfl
    · rw [hpart, if_pos rfl, hsame, he]; rfl

end Sys2Proof.Machine
end

section
/-! SUPPORT. The checks of a byte outside the aperture (R116), and the clock that a byte carries from the entry that translates it
(R408). -/

namespace Sys2Proof.Machine

/-- Step 3 of R116: what an access of a kind needs its entry to permit. -/
def Xlat.permits (x : Xlat) : AKind → Bool
  | .read => x.rd
  | .write => x.wr
  | .atomic => x.rd && x.wr && x.at_

/-- Steps 3 to 6 of R116 in their order. A byte that passes them has the address and the mask of its entry, and the clock of the
SNAPADVs that raised the entry's limit. -/
theorem State.checkByte_translated {s : State} {a : Access} {va : Nat} {x : Xlat} (hv : va < 0x100000000000000)
    (ha : inAperture va = false) (ht : (s.part a.part).translate va = .ok x) : s.checkByte a va =
      if !x.permits a.kind then .error .transPerm
      else if !admits a.copy x.pa then .error .transTarget
      else if !appendOk a.kind x then .error .snapBound
      else if a.kind != .read && !labelOk a.egress a.mask x then .error .labelStore
      else .ok { pa := s.linear x.pa, mask := x.mask, sealed := x.sealed } := by
  rw [State.checkByte, if_neg (by omega), if_neg (by simp [ha]), ht]
  cases hk : a.kind <;> rfl

/-- A byte outside the aperture that passes every check carries the clock of its entry. -/
theorem State.checkByte_sealed {s : State} {a : Access} {va : Nat} {x : Xlat} {h : Hit} (hv : va < 0x100000000000000)
    (ha : inAperture va = false) (ht : (s.part a.part).translate va = .ok x) (hc : s.checkByte a va = .ok h) : h.sealed = x.sealed := by
  rw [State.checkByte_translated hv ha ht] at hc
  split_ifs at hc
  exact congrArg Hit.sealed (Except.ok.inj hc).symm

/-- A readable page of port 0 whose limit has been raised by a SNAPADV of die 0 that released its write number 1. -/
def sealedRange : RangeEntry :=
  { base := 0, limit := 0x1000, target := 0x10000000000, mask := 0, rd := true, wr := false, at_ := false, ap := true, rlim := 1,
    wlim := 1, sealed := { Clock.zero with d0 := 1 } }

/-- What `sealedRange` gives of address 0. -/
def sealedXlat : Xlat :=
  { pa := 0x10000000000, mask := 0, rd := true, wr := false, at_ := false, ap := true, rlim := 1, wlim := 1, unit := 4096, off := 0,
    size := 0x1000, base := 0, sealed := { Clock.zero with d0 := 1 } }

/-- The state after module reset, with that page in partition 0. -/
def sealedState : State := { State.reset with parts := [(0, { Part.reset with ranges := [(0, sealedRange)] })] }

/-- A context of partition 0 that reads. -/
def sealedRead : Access := { part := 0, cores := [], own := 0, kind := .read, copy := false, mask := 0, egress := [] }

theorem sealedState_translate : (sealedState.part sealedRead.part).translate 0 = .ok sealedXlat := rfl

/-- Refutes O8: its clause for a byte that passes every check says that the byte carries no clock. A byte carries the clock of its
entry (R408), here that of a page whose limit a SNAPADV has raised. -/
theorem not_accessChecks : ¬ Obligations.AccessChecks := by
  unfold Obligations.AccessChecks
  rintro ⟨bytes, -, -⟩
  obtain ⟨-, -, -, translated⟩ := bytes sealedState sealedRead 0
  obtain ⟨-, -, -, -, passes⟩ := (translated (by decide) rfl).2 sealedXlat sealedState_translate
  have hit := passes ⟨fun _ => rfl, fun h => absurd h (by decide), fun h => absurd h (by decide)⟩ rfl rfl (.inl rfl)
  have clock : Clock.zero = { Clock.zero with d0 := 1 } :=
    State.checkByte_sealed (by decide) rfl sealedState_translate hit
  exact absurd clock (by decide)

end Sys2Proof.Machine
end

section
/-! SUPPORT. A calculus for one invariant: every memory is in canonical form (R104, R232). A property of outcomes and of
attempts with the rules of their constructors, and the rules of the state's updates, which leave the memories alone or change them
by a law of memory. The sections that follow go through the model's operations with these rules, in the model's own order. -/

set_option Elab.async false

namespace Sys2Proof.Machine

/-- Every memory is in canonical form: what O58 says of each state. -/
def State.Canonical (s : State) : Prop := s.memWf = true

/-- An outcome whose next state, if there is one, has canonical memories. -/
def Keeps : Out → Prop
  | .next t => t.Canonical
  | .fault _ => True
  | .refused _ => True

/-- A computation whose value, if there is one, has a property, and whose early end has another. -/
def Ends {ε α : Type} (E : ε → Prop) (P : α → Prop) : Except ε α → Prop
  | .ok a => P a
  | .error e => E e

/-- An attempt whose value, if there is one, has a property. -/
abbrev Answers {α : Type} (P : α → Prop) (x : Try α) : Prop := Ends (fun _ => True) P x

/-- What an element that stops carries has canonical memories. -/
def ElemStop.Canonical (e : ElemStop) : Prop := e.state.Canonical

/-- What a micro-op that stops carries has canonical memories, if it carries a state. -/
def MicroStop.Canonical : MicroStop → Prop
  | .escape s _ => s.Canonical
  | _ => True

/-- The state that a micro-op leaves has canonical memories. -/
def MicroEnd.Canonical : MicroEnd → Prop
  | .done s | .goto s _ | .again s | .counts s | .ended s => s.Canonical

namespace Keeps

theorem next {t : State} (h : t.Canonical) : Keeps (.next t) := h
theorem fault {r : Fault} : Keeps (.fault r) := trivial

theorem ite {c : Prop} [Decidable c] {a b : Out} (ha : Keeps a) (hb : Keeps b) : Keeps (if c then a else b) := by
  split <;> assumption

end Keeps

namespace Ends

variable {ε α β : Type} {E : ε → Prop} {P : α → Prop} {Q : β → Prop}

theorem ok {a : α} (h : P a) : Ends E P (.ok a) := h
theorem pure {a : α} (h : P a) : Ends E P (Pure.pure a) := h
theorem error {e : ε} (h : E e) : Ends E P (.error e) := h

/-- Of an attempt's value that holds no state nothing is asked. -/
theorem any {x : Try α} : Answers (fun _ => True) x := by cases x <;> trivial

theorem bind {x : Except ε α} {f : α → Except ε β} (hx : Ends E P x) (hf : ∀ a, P a → Ends E Q (f a)) : Ends E Q (x >>= f) := by
  cases x with
  | error e => exact hx
  | ok a => exact hf a hx

/-- What follows a check, or a read that gives no state. -/
theorem after {x : Try α} {f : α → Try β} (hf : ∀ a, Answers Q (f a)) : Answers Q (x >>= f) := bind any fun a _ => hf a

theorem ite {c : Prop} [Decidable c] {x y : Except ε α} (hx : Ends E P x) (hy : Ends E P y) : Ends E P (if c then x else y) := by
  split <;> assumption

theorem raise {c : Cause} : Answers P (raise c) := trivial
theorem blocked {n : Nat} : Answers P (blocked n) := trivial

/-- What a check that has failed says does not matter. -/
theorem both {c : Try α} {t : Try β} (h : Answers Q t) : Answers Q (both c t) := by
  cases c with
  | error e => trivial
  | ok a => exact h

theorem needed {v : Try α} {c : Try β} (h : Answers P v) : Answers P (needed v c) := by
  cases v with
  | error e => trivial
  | ok a => exact h

/-- A check of a micro-op fails without a state. -/
theorem need {c : Bool} {p : PlaneCause} : Ends MicroStop.Canonical (fun _ => True) (need c p) := by
  cases c <;> trivial

end Ends

namespace State

variable {s t : State}

/-! ## The rules -/

/-- An update of the fields that are no memories. -/
theorem Canonical.upd (h : s.Canonical) {dead agenda focus cur freeCount nextId dies engines fronts slotTables cells reads
    writes atoms peerUp linkUp0 linkUp1 parts funcs queues slots mapCount groups groupReqs vsyncReqs devStamp gate snaps frame
    retired failing errors power hotIslands meshPause meshMark meshHeld lastFn msix} :
    State.Canonical {
      dead, agenda, focus, cur, freeCount, nextId, cores := s.cores, dies, engines, fronts, slotTables, cells,
      reads, writes, atoms, stack := s.stack, host0 := s.host0, host1 := s.host1, peers := s.peers, peerUp, linkUp0, linkUp1,
      parts, funcs, queues, slots, mapCount, groups, groupReqs, vsyncReqs, devStamp, gate, snaps, frame, retired, failing,
      errors, power, hotIslands, meshPause, meshMark, meshHeld, lastFn, msix } :=
  memWf_of_eq h rfl rfl rfl rfl rfl

theorem Canonical.ite {c : Prop} [Decidable c] (hs : s.Canonical) (ht : t.Canonical) : (if c then s else t).Canonical := by
  split <;> assumption

theorem Canonical.foldl {α : Type} {f : State → α → State} {l : List α} (hf : ∀ s a, s.Canonical → (f s a).Canonical)
    (h : s.Canonical) : (l.foldl f s).Canonical := foldl_memWf f hf l h

/-- An update of a core that leaves its slice alone. -/
theorem Canonical.modCore (h : s.Canonical) {c : Nat} {f : Core → Core} (hf : ∀ k, (f k).slice = k.slice := by exact fun _ => rfl) :
    (s.modCore c f).Canonical := modCore_memWf' c f h hf

/-- An update of a core whose slice is in canonical form afterwards. -/
theorem Canonical.modCore_of_wf (h : s.Canonical) {c : Nat} {f : Core → Core} (hf : Memory.wf (f (s.core c)).slice = true) :
    (s.modCore c f).Canonical := modCore_memWf c f h hf

theorem Canonical.modCtx (h : s.Canonical) {c x f} : (s.modCtx c x f).Canonical := modCtx_memWf c x f h
theorem Canonical.modMe (h : s.Canonical) {f} : (s.modMe f).Canonical := modMe_memWf f h
theorem Canonical.pokes (h : s.Canonical) {cs} : (s.pokes cs).Canonical := pokes_memWf cs h
theorem Canonical.raiseBlock (h : s.Canonical) {pa m} : (s.raiseBlock pa m).Canonical := raiseBlock_memWf pa m h
theorem Canonical.setFull (h : s.Canonical) {pa v} : (s.setFull pa v).Canonical := setFull_memWf pa v h
theorem Canonical.stamp (h : s.Canonical) {d} : (s.stamp d).Canonical := stamp_memWf d h
theorem Canonical.sendWrite (h : s.Canonical) {c x o va cs m fe} : (s.sendWrite c x o va cs m fe).Canonical :=
  sendWrite_memWf c x o va cs m fe h
theorem Canonical.sendRaise (h : s.Canonical) {c x va pa m} : (s.sendRaise c x va pa m).Canonical := sendRaise_memWf c x va pa m h
theorem Canonical.entryWrite (h : s.Canonical) {c x u e cs m fe clr} : (s.entryWrite c x u e cs m fe clr).Canonical :=
  entryWrite_memWf c x u e cs m fe clr h
theorem Canonical.noteArrival (h : s.Canonical) {e ws pas} : (s.noteArrival e ws pas).Canonical := noteArrival_memWf e ws pas h
theorem Canonical.performWrite (h : s.Canonical) {w} : (s.performWrite w).Canonical := performWrite_memWf w h
theorem Canonical.settleSlice (h : s.Canonical) {c} : (s.settleSlice c).Canonical := settleSlice_memWf c h
theorem Canonical.engineWrite (h : s.Canonical) {c x cs m fe} : (s.engineWrite c x cs m fe).Canonical :=
  engineWrite_memWf c x cs m fe h
theorem Canonical.hostPoke (h : s.Canonical) {l a bs} : (s.hostPoke l a bs).Canonical := hostPoke_memWf l a bs h

end State
end Sys2Proof.Machine
end

section
/-! SUPPORT. Operations on the state keep memories canonical: records, translation, engines, traps and the verdict of an attempt. -/

set_option Elab.async false

namespace Sys2Proof.Machine

variable {s t : State}

namespace State

/-! ## Updates of one record (R1, R82, R83) -/

theorem Canonical.modDie (h : s.Canonical) {d f} : (s.modDie d f).Canonical := h.upd

theorem Canonical.modEngine (h : s.Canonical) {k f} : (s.modEngine k f).Canonical := h.upd

theorem Canonical.modPart (h : s.Canonical) {n f} : (s.modPart n f).Canonical := h.upd

theorem Canonical.modFunc (h : s.Canonical) {n f} : (s.modFunc n f).Canonical := h.upd

theorem Canonical.modQueue (h : s.Canonical) {n f} : (s.modQueue n f).Canonical := h.upd

theorem Canonical.modGroup (h : s.Canonical) {n f} : (s.modGroup n f).Canonical := h.upd

theorem Canonical.modLaunch (h : s.Canonical) {o f} : (s.modLaunch o f).Canonical := h.modPart

/-! ## Memory behind an address (R104 to R106, R117, R232) -/

theorem Canonical.dropDone (h : s.Canonical) : s.dropDone.Canonical := h.upd

theorem Canonical.modWrite (h : s.Canonical) {id f} : (s.modWrite id f).Canonical := h.upd

theorem Canonical.answer (h : s.Canonical) {id v c} : (s.answer id v c).Canonical := h.upd

theorem Canonical.readHome (h : s.Canonical) {r} : (s.readHome r).Canonical := h.answer

theorem Canonical.releaseHeld (h : s.Canonical) : s.releaseHeld.Canonical := .foldl (fun _ _ h' => h'.stamp.upd.modWrite) h

theorem Canonical.writeNow (h : s.Canonical) {die core ctx o cs m fe} : (s.writeNow die core ctx o cs m fe).Canonical :=
  writeNow_memWf die core ctx o cs m fe h

/-! ## The engines of a core and groups (R237, R249, R101 to R103) -/

theorem Canonical.setHandle (h : s.Canonical) {core n f} : (s.setHandle core n f).Canonical := h.modCore

theorem Canonical.fillHandle (h : s.Canonical) {core n skipped} : (s.fillHandle core n skipped).Canonical := h.setHandle

theorem Canonical.freeHandle (h : s.Canonical) {core n} : (s.freeHandle core n).Canonical := h.setHandle

theorem Canonical.modRing (h : s.Canonical) {core r f} : (s.modRing core r f).Canonical := h.modCore

theorem Canonical.modEntry (h : s.Canonical) {core ctx uid f} : (s.modEntry core ctx uid f).Canonical := h.modCtx

theorem Canonical.dropEntry (h : s.Canonical) {core ctx uid} : (s.dropEntry core ctx uid).Canonical := h.modCtx

theorem Canonical.zeroReserved (h : s.Canonical) {core ctx e} : (s.zeroReserved core ctx e).Canonical := by
  unfold State.zeroReserved
  split
  · exact h
  · exact .ite h h.engineWrite.modRing

theorem Canonical.skipEntry (h : s.Canonical) {core ctx e} : (s.skipEntry core ctx e).Canonical := by
  unfold State.skipEntry
  extract_lets s1 s2 s3 s4
  have h1 : s1.Canonical := h.zeroReserved
  have h2 : s2.Canonical := by
    dsimp only [s2]
    split
    · exact h1.fillHandle
    · exact h1
  have h3 : s3.Canonical := by
    dsimp only [s3]
    split
    · exact .ite h2 h2.freeHandle
    · exact h2
  have h4 : s4.Canonical := by
    dsimp only [s4]
    split
    · exact h3.modCtx
    · exact h3
  exact h4.dropEntry

/-- A fault of a copy entry is reported once, by whatever tells it. -/
theorem Canonical.reportFault (h : s.Canonical) {core ctx tell} (ht : ∀ t f, t.Canonical → (tell t f).Canonical) :
    (s.reportFault core ctx tell).Canonical := by
  unfold State.reportFault
  refine .ite h ?_
  split
  · exact h
  · split
    · exact h
    · exact ht _ _ h.modEntry.modCtx

theorem Canonical.modPlane (h : s.Canonical) {core n f} : (s.modPlane core n f).Canonical := h.modCore

theorem Canonical.endCall (h : s.Canonical) {core c} : (s.endCall core c).Canonical := h.modCore

theorem Canonical.resumeGbar (h : s.Canonical) {g ws} : (s.resumeGbar g ws).Canonical := by
  induction ws generalizing s with
  | nil => exact h
  | cons w ws ih =>
    refine ih ?_
    split
    · exact h.modCtx
    · exact h

theorem Canonical.viewGroup (h : s.Canonical) {g whom} : (s.viewGroup g whom).Canonical := .foldl (fun _ _ h' => h'.modCore) h

/-- The turns of a group that one request sets off, by induction on their bound. -/
theorem Canonical.groupTurns (h : s.Canonical) {n g} : (State.groupTurns n s g).Canonical := by
  induction n generalizing s with
  | zero => exact h
  | succ n ih => exact .ite (ih h.resumeGbar.modGroup.viewGroup) h

theorem Canonical.groupApply (h : s.Canonical) {g w op} : (s.groupApply g w op).Canonical := by
  unfold State.groupApply
  extract_lets grp s1 s2 s3
  have h1 : s1.Canonical := h.modGroup
  have h2 : s2.Canonical := by
    dsimp only [s2]
    split
    · exact h1.resumeGbar
    · exact .ite h1.resumeGbar h1
    · exact h1
  have h3 : s3.Canonical := h2.viewGroup
  exact h3.groupTurns

theorem Canonical.leaveGroups (h : s.Canonical) {w clk after} : (s.leaveGroups w clk after).Canonical := h.upd

/-! ## Results, traps, the ends of launches, and a slot's attempt (R162 to R168, R415 to R419) -/

theorem Canonical.own (h : s.Canonical) {L w d v m joins} : (s.own L w d v m joins).Canonical := h.modMe

theorem Canonical.quiet (h : s.Canonical) {own dly w d v m} : (s.quiet own dly w d v m).Canonical := h.modMe

theorem Canonical.setPred (h : s.Canonical) {n v m} : (s.setPred n v m).Canonical := h.quiet.modMe

theorem Canonical.flagsIn (h : s.Canonical) {dly f} : (s.flagsIn dly f).Canonical := .ite h h.modMe

theorem Canonical.taintUp (h : s.Canonical) {m} : (s.taintUp m).Canonical := h.modMe

theorem Canonical.falseGuard (h : s.Canonical) {gd fx} : (s.falseGuard gd fx).Canonical := .ite h (.ite h.modMe.taintUp h.modMe)

theorem Canonical.logFault (h : s.Canonical) {part c term addr core ctx} : (s.logFault part c term addr core ctx).Canonical :=
  h.modPart

theorem Canonical.beginRetire (h : s.Canonical) {o st} : (s.beginRetire o st).Canonical := h.modLaunch.modPart

theorem Canonical.discardCtx (h : s.Canonical) {core ctx} : (s.discardCtx core ctx).Canonical :=
  h.modCtx.modCore.upd.releaseHeld.leaveGroups

theorem Canonical.retireCtx (h : s.Canonical) {core ctx} : (s.retireCtx core ctx).Canonical := by
  unfold State.retireCtx
  dsimp only
  split
  · exact h.discardCtx
  · split
    · exact h.discardCtx
    · exact .ite h.discardCtx.beginRetire h.discardCtx

theorem Canonical.endCtx (h : s.Canonical) {core ctx drops} : (s.endCtx core ctx drops).Canonical :=
  .discardCtx (.foldl (fun _ _ h' => .ite (.ite h'.dropEntry h') (.ite h'.skipEntry h')) h)

theorem Canonical.endCalls (h : s.Canonical) {core} : (s.endCalls core).Canonical :=
  .foldl (fun _ _ h' => .ite h'.modCore h'.endCall) h

theorem Canonical.endLaunch (h : s.Canonical) {o st} : (s.endLaunch o st).Canonical := by
  unfold State.endLaunch
  split
  · exact h
  · exact .ite h.modLaunch (.beginRetire (.foldl (fun _ _ h' => h'.endCalls) (.foldl (fun _ _ h' => h'.endCtx) h)))

theorem Canonical.terminal (h : s.Canonical) {core ctx c addr} : (s.terminal core ctx c addr).Canonical := by
  unfold State.terminal
  split
  · exact h
  · exact h.logFault.endLaunch

theorem Canonical.raiseAsync (h : s.Canonical) {core ctx t} : (s.raiseAsync core ctx t).Canonical := .ite h.terminal h.modCtx

theorem Canonical.lateTrap (h : s.Canonical) {core ctx} : (s.lateTrap core ctx).Canonical := by
  unfold State.lateTrap
  dsimp only
  split
  · exact h
  · exact .ite h.modCtx.terminal h

theorem Canonical.enterHandler (h : s.Canonical) {core ctx f at_} : (s.enterHandler core ctx f at_).Canonical := h.modCtx

theorem Canonical.deliver (h : s.Canonical) {core ctx} : (s.deliver core ctx).Canonical := by
  unfold State.deliver
  dsimp only
  split
  · exact h
  · refine .ite h ?_
    split
    · exact h.terminal
    · exact .ite (.logFault (.ite h.enterHandler.modCore h.enterHandler)) (.ite h.enterHandler.modCore h.enterHandler)

theorem Canonical.trapFrom (h : s.Canonical) {core ctx f} :
    (s.trapFrom core ctx f).Canonical := .ite h.modCtx.deliver h.terminal

theorem Canonical.takeTrap (h : s.Canonical) {core ctx f} : (s.takeTrap core ctx f).Canonical := h.trapFrom

theorem Canonical.takeStrike (h : s.Canonical) {core ctx} : (s.takeStrike core ctx).Canonical := by
  unfold State.takeStrike
  split
  · exact h
  · exact h.modCtx.trapFrom

theorem Canonical.takeAsync (h : s.Canonical) {core ctx} : (s.takeAsync core ctx).Canonical := by
  unfold State.takeAsync
  dsimp only
  split
  · exact h
  · exact .ite h h.modCtx.takeTrap

theorem Canonical.eret (h : s.Canonical) {core ctx} : (s.eret core ctx).Canonical := h.modCtx

theorem Canonical.verdict (h : s.Canonical) {v} : (s.verdict v).Canonical := h.upd

theorem Canonical.trapHere (h : s.Canonical) {c code addr} : (s.trapHere c code addr).Canonical := h.takeTrap.verdict

/-- Every end of an attempt: a raise, a block or a stall. -/
theorem Canonical.halt (h : s.Canonical) {e} : (s.halt e).Canonical := by
  cases e with
  | raise c code addr => exact h.trapHere
  | block n => exact .ite h.trapHere h.modMe.verdict
  | stall => exact .ite h.trapHere h.verdict

/-- A slot's attempt: what its body answers, what a trap at the boundary leaves, and what a false guard propagates. -/
theorem Canonical.slotRun (h : s.Canonical) {gd fx body} (hb : ∀ t, t.Canonical → Answers Canonical (body t)) :
    Keeps (Machine.slotRun gd fx body s) := by
  have hs := hb s h
  unfold Machine.slotRun
  refine .ite ?_ h.falseGuard.verdict
  cases hx : body s with
  | ok t =>
    rw [hx] at hs
    exact Canonical.verdict hs
  | error e => exact h.halt

end State

end Sys2Proof.Machine
end

section
/-! SUPPORT. Operands, memory accesses and system registers keep memories canonical. -/

set_option Elab.async false

namespace Sys2Proof.Machine

variable {s t : State}

namespace State

/-! ## Operand forms (R178, R257, R311) and ports (R241 to R244) -/

theorem Canonical.popPort (h : s.Canonical) {q w} : Answers (fun r => r.2.Canonical) (s.popPort q w) := by
  unfold State.popPort
  split
  · exact .raise
  · refine .ite .raise (.ite .raise (.ite .blocked ?_))
    split
    · exact .blocked
    · exact .ok h.modMe

theorem Canonical.popRnd (h : s.Canonical) {w} : Answers (fun r => r.2.Canonical) (s.popRnd w) := .ite .blocked (.ok h.modMe)

theorem Canonical.readLatch (h : s.Canonical) {j} : (s.readLatch j).2.Canonical := .ite h.modMe h

theorem Canonical.opnd (h : s.Canonical) {o} : Answers (fun r => r.2.Canonical) (s.opnd o) := by
  unfold State.opnd
  split
  · exact .after fun _ => .pure h
  · exact .ok h.readLatch
  · exact .ok h
  · exact .raise

theorem Canonical.opnd3 (h : s.Canonical) {o} : Answers (fun r => r.2.Canonical) (s.opnd3 o) := by
  unfold State.opnd3
  split
  · exact .after fun _ => .pure h
  · exact .ok h.readLatch
  · exact .ok h
  · exact .ok h
  · exact .raise

theorem Canonical.obj (h : s.Canonical) {o n} : Answers (fun r => r.2.Canonical) (s.obj o n) := by
  unfold State.obj
  refine .bind (P := fun r => r.2.Canonical) ?_ fun ⟨_, _⟩ h1 => .ite (.pure h1) .raise
  split
  · exact .ok h
  · exact h.opnd3

theorem Canonical.opndv (h : s.Canonical) {o w e f} : Answers (fun r => r.2.Canonical) (s.opndv o w e f) := by
  unfold State.opndv
  split
  · exact .after fun _ => .pure h
  · exact .ok h.readLatch
  · exact h.popPort
  · exact h.popRnd
  · exact .ok h
  · exact .ok h

theorem Canonical.opndv2 (h : s.Canonical) {a b w e f} : Answers (fun r => r.2.2.Canonical) (s.opndv2 a b w e f) := by
  have ha : Answers (fun r => r.2.Canonical) (s.opndv a w e f) := h.opndv
  unfold State.opndv2
  split <;> rename_i hx <;> rw [hx] at ha
  · exact .bind (Canonical.opndv ha) fun ⟨_, _⟩ hb => .pure hb
  · exact .error trivial

theorem Canonical.writeV (h : s.Canonical) {L wr d w v m joins} : (s.writeV L wr d w v m joins).Canonical := h.own

theorem Canonical.writeS (h : s.Canonical) {L wr d v m} : (s.writeS L wr d v m).Canonical := h.own

theorem Canonical.writeM (h : s.Canonical) {wr d v m} : (s.writeM wr d v m).Canonical := h.own

/-! ## Accesses of a context (R120 to R123, R196 to R203) -/

/-- A slot that accesses memory also says what it waits for. -/
theorem Canonical.accessRun (h : s.Canonical) {gd fx body} (hb : ∀ t, t.Canonical → Answers Canonical (body t)) :
    Keeps (Machine.accessRun gd fx body s) := h.slotRun fun t ht => .both (hb t ht)

theorem Canonical.fillFront (h : s.Canonical) {cluster e} : (s.fillFront cluster e).Canonical := h.upd

theorem Canonical.lookPage (h : s.Canonical) {core req va} : (s.lookPage core req va).Canonical := by
  unfold State.lookPage
  refine .ite h ?_
  split
  · exact h.fillFront
  · exact h.fillFront
  · exact h.modDie

theorem Canonical.lookSpan (h : s.Canonical) {core req va n} : (s.lookSpan core req va n).Canonical :=
  .foldl (fun _ _ h' => h'.lookPage) h

theorem Canonical.lookUp (h : s.Canonical) {req va n} : (s.lookUp req va n).Canonical := h.lookSpan

theorem Canonical.request (h : s.Canonical) {kind dest fmt bytes va m acq seen} :
    (s.request kind dest fmt bytes va m acq seen).Canonical :=
  h.upd

theorem Canonical.knowing (h : s.Canonical) {t} : (s.knowing t).Canonical := h.upd

theorem Canonical.loadBytes (h : s.Canonical) {hs va L wr d fmt m acq} : (s.loadBytes hs va L wr d fmt m acq).Canonical :=
  .ite h.own.modMe h.request

theorem Canonical.load (h : s.Canonical) {va n L wr d fmt m acq} : Answers Canonical (s.load va n L wr d fmt m acq) :=
  .after fun _ => .after fun _ => .after fun _ => .pure h.lookUp.loadBytes

theorem Canonical.store (h : s.Canonical) {va n v m fe} : Answers Canonical (s.store va n v m fe) :=
  .after fun _ => .after fun _ => .after fun _ => .pure h.lookUp.sendWrite

theorem Canonical.scalarLoad (h : s.Canonical) {f fmt} : Keeps (Machine.scalarLoad f fmt s) :=
  h.accessRun fun _ h' => .after fun _ => .bind h'.opnd fun ⟨_, _⟩ h1 => h1.load

theorem Canonical.execSt (h : s.Canonical) {f} : Keeps (Machine.execSt f s) :=
  h.accessRun fun _ h' => .after fun _ => .bind h'.opnd fun ⟨_, _⟩ h1 => h1.store

theorem Canonical.execLdfe (h : s.Canonical) {f} : Keeps (Machine.execLdfe f s) :=
  h.accessRun fun _ h' => .both (.bind h'.opnd fun ⟨_, _⟩ h1 => .after fun _ => .after fun _ =>
    .ite (.ite .blocked (.pure (.ite h1.loadBytes.setFull.raiseBlock h1.loadBytes))) (.pure h1.request))

theorem Canonical.execStfe (h : s.Canonical) {f} : Keeps (Machine.execStfe f s) :=
  h.accessRun fun _ h' => .after fun _ => .bind h'.opnd fun ⟨_, _⟩ h1 => .after fun _ => h1.store

theorem Canonical.execPld (h : s.Canonical) {f} : Keeps (Machine.execPld f s) := by
  unfold Machine.execPld
  dsimp only
  refine h.accessRun fun _ h' => .after fun _ => .bind h'.opnd fun ⟨_, _⟩ h1 => ?_
  split
  · exact .raise
  · exact .after fun _ => .ite (.after fun _ => .after fun _ =>
      .pure (.request (.ite (.modMe (.ite h1 h1.lookUp)) (.ite h1 h1.lookUp))))
      (.after fun _ => .pure (.request (.ite (.modMe (.ite h1 h1.lookUp)) (.ite h1 h1.lookUp))))

theorem Canonical.execXmov (h : s.Canonical) {f} : Keeps (Machine.execXmov f s) := by
  unfold Machine.execXmov
  exact h.slotRun fun _ h' => .after fun _ => .ite (.pure h') (.after fun _ => .pure h'.quiet)

/-! ## System registers (R205 to R208) and SETFMT (R341) -/

theorem Canonical.requestReg (h : s.Canonical) {num dest m} : (s.requestReg num dest m).Canonical := h.upd

theorem Canonical.readClears (h : s.Canonical) {num} : (s.readClears num).Canonical := .ite h.modPlane h

theorem Canonical.execSysr (h : s.Canonical) {f} : Keeps (Machine.execSysr f s) := by
  unfold Machine.execSysr
  refine h.slotRun fun _ h' => .after fun _ => .ite ?_ ?_
  · split
    · exact .raise
    · exact .pure h'.readClears.writeS
  · split
    · exact .raise
    · exact .pure h'.requestReg

/-- A system register is a field of the context, of the core or of a plane. -/
theorem Canonical.sysWrite (h : s.Canonical) {num v} (ht : s.sysWrite num v = some t) : t.Canonical := by
  unfold State.sysWrite at ht
  dsimp only at ht
  split_ifs at ht <;> cases ht
  · exact h.modMe
  · exact h.modMe
  · exact h.modMe
  · exact h.modMe
  · exact h.modMe
  · exact h.modCore
  · exact h.modPlane

theorem Canonical.execSysw (h : s.Canonical) {f} : Keeps (Machine.execSysw f s) := by
  refine h.slotRun fun _ h' => .after fun _ => ?_
  split
  · exact .raise
  · rename_i hw
    exact .pure (h'.sysWrite hw)

theorem Canonical.execSetfmt (h : s.Canonical) {f} : Keeps (Machine.execSetfmt f s) :=
  h.slotRun fun _ h' => .bind h'.opnd fun ⟨_, _⟩ h1 => .ite .raise (.pure h1.modMe)

end State

end Sys2Proof.Machine
end

section
/-! SUPPORT. Ports, rings, copies, plane calls and preemption keep memories canonical. -/

set_option Elab.async false

namespace Sys2Proof.Machine

variable {s t : State}

namespace State

/-! ## Slot 3: rings, ports, copies, handles and the transpose unit (R257 to R279) -/

theorem Canonical.execRset (h : s.Canonical) {f} : Keeps (Machine.execRset f s) := by
  unfold Machine.execRset
  dsimp only
  refine h.accessRun fun _ h' => .bind h'.opnd3 fun ⟨_, _⟩ h1 => ?_
  split
  · exact .raise
  · exact .after fun _ => .pure h1.modRing

theorem Canonical.execRpush (h : s.Canonical) {f} : Keeps (Machine.execRpush f s) :=
  h.accessRun fun _ h' => .after fun _ => .bind h'.obj fun ⟨_, _⟩ h1 => .bind h1.opnd3 fun ⟨_, _⟩ h2 => .after fun _ =>
    .ite (.pure h2.writeM) (.pure h2.modRing.writeM)

theorem Canonical.execRstat (h : s.Canonical) {f} : Keeps (Machine.execRstat f s) :=
  h.slotRun fun _ h' => .after fun _ => .bind h'.obj fun ⟨_, _⟩ h1 => .pure h1.writeM

theorem Canonical.execSbind (h : s.Canonical) {f} : Keeps (Machine.execSbind f s) := by
  unfold Machine.execSbind
  dsimp only
  refine h.slotRun fun _ h' => .after fun _ => .both (.bind h'.opnd3 fun ⟨_, _⟩ h1 => .after fun _ => .after fun _ => ?_)
  split
  · exact .raise
  · exact .after fun _ => .pure h1.modMe

theorem Canonical.execSunbind (h : s.Canonical) {f} : Keeps (Machine.execSunbind f s) :=
  h.slotRun fun _ h' => .after fun _ => .pure h'.modMe

theorem Canonical.execScfgSeek (h : s.Canonical) {f} : Keeps (Machine.execScfgSeek f s) := by
  refine h.slotRun fun _ h' => .bind (.needed h'.opnd3) fun ⟨_, _⟩ h1 => ?_
  dsimp only
  split
  · exact .raise
  · exact .after fun _ => .pure h1.modMe

theorem Canonical.execScfgRep (h : s.Canonical) {f} : Keeps (Machine.execScfgRep f s) := by
  refine h.slotRun fun _ h' => .bind (.needed h'.opnd3) fun ⟨_, _⟩ h1 => ?_
  dsimp only
  split
  · exact .raise
  · exact .after fun _ => .after fun _ => .pure h1.modMe

theorem Canonical.execCrec (h : s.Canonical) {f} : Keeps (Machine.execCrec f s) :=
  h.accessRun fun _ h' => .bind h'.obj fun ⟨_, _⟩ h1 => .bind h1.opnd3 fun ⟨_, _⟩ h2 => .after fun _ => .after fun _ =>
    .pure h2.modCore

theorem Canonical.queueOpnd (h : s.Canonical) {o} : Answers (fun r => r.2.Canonical) (s.queueOpnd o) := .needed h.opnd3

theorem Canonical.queueHandle (h : s.Canonical) {o} : Answers (fun r => r.2.Canonical) (s.queueHandle o) := by
  unfold State.queueHandle
  split
  · exact .error trivial
  · exact h.obj

theorem Canonical.enqueue (h : s.Canonical) {kind m} : Answers Canonical (s.enqueue kind m) :=
  .after fun _ => .pure h.upd.modMe

theorem Canonical.execCopy (h : s.Canonical) {f} : Keeps (Machine.execCopy f s) :=
  h.accessRun fun _ h' => .bind h'.queueOpnd fun ⟨_, _⟩ h1 => .bind h1.queueOpnd fun ⟨_, _⟩ h2 => .after fun _ =>
    .after fun _ => h2.enqueue

/-- A resume acts on the faulted entry alone. -/
theorem Canonical.resumeCopy (h : s.Canonical) {gd g} (hg : ∀ t e, t.Canonical → (g t e).Canonical) :
    Keeps (Machine.resumeCopy gd g s) := by
  refine h.slotRun fun t ht => .ite ht (.modMe ?_)
  split
  · exact ht
  · exact hg _ _ ht

theorem Canonical.execCresumePatch (h : s.Canonical) {f} :
    Keeps (Machine.execCresumePatch f s) := h.resumeCopy fun _ _ h' => h'.modEntry

theorem Canonical.execCresumeRetry (h : s.Canonical) {f} :
    Keeps (Machine.execCresumeRetry f s) := h.resumeCopy fun _ _ h' => h'.modEntry

theorem Canonical.execCresumeSkip (h : s.Canonical) {f} :
    Keeps (Machine.execCresumeSkip f s) := h.resumeCopy fun _ _ h' => h'.skipEntry

theorem Canonical.execCstat (h : s.Canonical) {f} : Keeps (Machine.execCstat f s) :=
  h.slotRun fun _ h' => .after fun _ => .pure h'.writeM

theorem Canonical.execBclear (h : s.Canonical) {f} : Keeps (Machine.execBclear f s) := by
  refine h.accessRun fun _ h' => .bind h'.queueOpnd fun ⟨_, _⟩ h1 => .bind h1.queueHandle fun ⟨_, _⟩ h2 => .after fun _ => ?_
  split
  case h_1 c _ => trivial
  case h_2 pa _ =>
    generalize decide (pa % 0x2000000 + _ ≤ sliceBytes) = fits
    exact .after fun _ => h2.enqueue

theorem Canonical.execRelease (h : s.Canonical) {f} : Keeps (Machine.execRelease f s) :=
  h.accessRun fun _ h' => .bind h'.queueOpnd fun ⟨_, _⟩ h1 => .bind h1.queueOpnd fun ⟨_, _⟩ h2 => .after fun _ =>
    .after fun _ => .after fun _ => .after fun _ => .after fun _ => h2.enqueue

theorem Canonical.execPublish (h : s.Canonical) {f} : Keeps (Machine.execPublish f s) :=
  h.accessRun fun _ h' => .bind h'.queueOpnd fun ⟨_, _⟩ h1 => .after fun _ => .after fun _ => h1.enqueue

theorem Canonical.execHset (h : s.Canonical) {f} : Keeps (Machine.execHset f s) :=
  h.slotRun fun _ h' => .bind h'.obj fun ⟨_, _⟩ h1 => .bind h1.opnd3 fun ⟨_, _⟩ h2 => .after fun _ => .after fun _ =>
    .pure h2.setHandle

theorem Canonical.handleWait (h : s.Canonical) {gd wr md a want claim} : Keeps (Machine.handleWait gd wr md a want claim s) :=
  h.slotRun fun _ h' => .both (.bind h'.obj fun ⟨_, _⟩ h1 => .after fun _ => .pure (.writeM (.ite h1.setHandle h1)))

theorem Canonical.execHwait (h : s.Canonical) {f} : Keeps (Machine.execHwait f s) := h.handleWait

theorem Canonical.execHquery (h : s.Canonical) {f} : Keeps (Machine.execHquery f s) :=
  h.slotRun fun _ h' => .after fun _ => .bind h'.obj fun ⟨_, _⟩ h1 => .pure h1.writeM

theorem Canonical.execTrcfg (h : s.Canonical) {f} : Keeps (Machine.execTrcfg f s) := by
  unfold Machine.execTrcfg
  dsimp only
  refine h.slotRun fun _ h' => .bind h'.opnd3 fun ⟨_, _⟩ h1 => ?_
  split
  · exact .raise
  · exact .pure h1.modCore

theorem Canonical.execTrpush (h : s.Canonical) {f} : Keeps (Machine.execTrpush f s) :=
  h.accessRun fun _ h' => .after fun _ => .after fun _ => .pure h'.modCore

theorem Canonical.execTrpull (h : s.Canonical) {f} : Keeps (Machine.execTrpull f s) := by
  unfold Machine.execTrpull
  dsimp only
  refine h.slotRun fun _ h' => .after fun _ => ?_
  split
  · exact .raise
  · exact .raise
  · exact .after fun _ => .pure h'.modCore.quiet

theorem Canonical.execRndseek (h : s.Canonical) {f} : Keeps (Machine.execRndseek f s) :=
  h.slotRun fun _ h' => .bind h'.opnd3 fun ⟨_, _⟩ h1 => .pure h1.modMe

theorem Canonical.execRndstat (h : s.Canonical) {f} : Keeps (Machine.execRndstat f s) :=
  h.slotRun fun _ h' => .after fun _ => .pure h'.writeM

/-! ## MLOAD and MCALL (R288, R342, R343) -/

theorem Canonical.installRoutine (h : s.Canonical) {core i start ws} : (s.installRoutine core i start ws).Canonical := by
  unfold State.installRoutine
  dsimp only
  split
  · exact h.modCore
  · exact h.modCore.modLaunch.modPart

theorem Canonical.holdMload (h : s.Canonical) {idx start pas lim} : (s.holdMload idx start pas lim).Canonical := h.upd.modCore

theorem Canonical.finishMload (h : s.Canonical) {core} : (s.finishMload core).Canonical := by
  unfold State.finishMload
  split
  · exact h
  · exact .ite h (.ite h.modCore.installRoutine h.modCore.modCtx)

theorem Canonical.execMload (h : s.Canonical) {f} : Keeps (Machine.execMload f s) :=
  h.accessRun fun _ h' => .bind h'.opnd3 fun ⟨_, _⟩ h1 => .bind h1.opnd3 fun ⟨_, _⟩ h2 => .after fun _ => .after fun _ =>
    .after fun _ => .after fun _ => .after fun _ => .after fun _ =>
    .ite (.pure (.holdMload (.ite h2 h2.lookUp))) (.after fun _ => .pure (.installRoutine (.ite h2 h2.lookUp)))

theorem Canonical.execMcall (h : s.Canonical) {f} : Keeps (Machine.execMcall f s) :=
  h.accessRun fun _ h' => .after fun _ => .after fun _ => .pure h'.upd.modCore

/-! ## Pre-emption, resume and the advance past a bundle (R172, R194, R427, R429) -/

theorem Canonical.freeze (h : s.Canonical) {core ctx} : (s.freeze core ctx).Canonical := .ite h.modCtx.modCore h

theorem Canonical.bankPreempted (h : s.Canonical) {core ctx} : (s.bankPreempted core ctx).Canonical := .ite h.modCtx h

theorem Canonical.preempt (h : s.Canonical) {core ctx} : (s.preempt core ctx).Canonical := h.freeze.bankPreempted

theorem Canonical.askPre (h : s.Canonical) {core ctx r} : (s.askPre core ctx r).Canonical := .ite h h.modCtx

theorem Canonical.endPre (h : s.Canonical) {core ctx r} : (s.endPre core ctx r).Canonical := h.modCtx

theorem Canonical.resume (h : s.Canonical) {core ctx} : (s.resume core ctx).Canonical := by
  unfold State.resume
  refine .ite h (.ite h.modCtx (.ite ?_ h))
  split
  · exact h
  · exact h.modCtx

theorem Canonical.finishRetire (h : s.Canonical) {core ctx} : (s.finishRetire core ctx).Canonical := .ite h.retireCtx h

theorem Canonical.haltCtx (h : s.Canonical) {core ctx} : (s.haltCtx core ctx).Canonical := h.modCtx.finishRetire

theorem Canonical.advance (h : s.Canonical) {core ctx} : (s.advance core ctx).Canonical := h.modCtx

theorem Canonical.retOut (h : s.Canonical) {core ctx} : (s.retOut core ctx).Canonical := .ite h.haltCtx h

theorem Canonical.pass (h : s.Canonical) {core ctx} : (s.pass core ctx).Canonical := h.advance.retOut

end State

end Sys2Proof.Machine
end

section
/-! SUPPORT. Micro-ops, boundaries and the record log keep memories canonical. -/

set_option Elab.async false

namespace Sys2Proof.Machine

variable {s t : State}

namespace State

/-! ## The plane unit (R290 to R305) -/

theorem Canonical.modCall (h : s.Canonical) {core uid f} : (s.modCall core uid f).Canonical := h.modCore

theorem Canonical.endAtBoundary (h : s.Canonical) {core uid} : (s.endAtBoundary core uid).Canonical := by
  unfold State.endAtBoundary
  split
  · exact h
  · exact .ite h.endCall.finishRetire h

theorem Canonical.callFault (h : s.Canonical) {core c cause} : (s.callFault core c cause).Canonical :=
  .ite h.endCall.finishRetire h.endCall.modCore.raiseAsync.finishRetire

theorem Canonical.callEscape (h : s.Canonical) {core c off} : (s.callEscape core c off).Canonical :=
  .finishRetire (.ite h.endCall h.endCall.raiseAsync)

/-- A micro-op of the running call: how it leaves the call, or where it stops. -/
theorem Canonical.microRun (h : s.Canonical) {body}
    (hb : ∀ c t, t.Canonical → Ends MicroStop.Canonical MicroEnd.Canonical (body c t)) : Keeps (Machine.microRun body s) := by
  unfold Machine.microRun
  dsimp only
  split
  · exact h
  · rename_i c _
    have hc := hb c s h
    split <;> rename_i hx <;> rw [hx] at hc
    · exact Canonical.endAtBoundary (Canonical.modCall hc)
    · exact Canonical.endAtBoundary (Canonical.modCall hc)
    · exact Canonical.modCall hc
    · exact Canonical.modCall hc
    · exact Canonical.finishRetire hc
    · exact .next (.ite h.endCall.finishRetire h.modCall)
    · exact h.callFault
    · exact Canonical.callEscape hc

theorem Canonical.popTiles (h : s.Canonical) {n count} : (s.popTiles n count).Canonical := h.modRing

end State

theorem Ends.useRing {c : Call} {n} :
    Ends MicroStop.Canonical (fun _ => True) (c.useRing s n) := .bind .need fun _ _ => .pure trivial

theorem Ends.operand {c : Call} : Ends MicroStop.Canonical (fun _ => True) c.operand := .bind .need fun _ _ => .pure trivial

namespace State

/-- The tile at the head of a ring: what stops the read carries the state that the read began in. -/
theorem Canonical.tileAt (h : s.Canonical) {c r} : Ends MicroStop.Canonical (fun _ => True) (s.tileAt c r) := by
  unfold State.tileAt
  refine .ite (.error trivial) ?_
  dsimp only
  split
  · exact .error h
  · exact .ite (.error trivial) (.ite (.ok trivial) (.ok trivial))

end State

theorem Ends.drainSource {c : Call} {src} : Ends MicroStop.Canonical (fun _ => True) (s.drainSource c src) := by
  unfold State.drainSource
  dsimp only
  split
  · exact .ok trivial
  · exact .bind .operand fun _ _ => .pure trivial
  · exact .ok trivial
  · split
    · exact .error trivial
    · exact .ok trivial

namespace State

theorem Canonical.stepOn (h : s.Canonical) {c wring} : Ends MicroStop.Canonical Canonical (s.stepOn c wring) := by
  unfold State.stepOn
  refine .bind .useRing fun _ _ => ?_
  split
  · exact .error trivial
  · exact .bind .useRing fun _ _ => .bind .need fun _ _ => .bind .need fun _ _ => .bind h.tileAt fun _ _ =>
      .bind h.tileAt fun _ _ => .pure h.modPlane

theorem Canonical.popStep (h : s.Canonical) {c wring popw popx} : (s.popStep c wring popw popx).Canonical :=
  .ite (.popTiles (.ite h.popTiles h)) (.ite h.popTiles h)

theorem Canonical.execStep (h : s.Canonical) {u} : Keeps (Machine.execStep u s) :=
  h.microRun fun _ _ h' => .bind h'.stepOn fun _ h1 => .pure h1.popStep

theorem Canonical.execSteph (h : s.Canonical) {u} : Keeps (Machine.execSteph u s) :=
  h.microRun fun _ _ h' => .bind .operand fun _ _ => .bind .useRing fun _ _ => .bind .need fun _ _ => .bind .need fun _ _ =>
    .bind h'.tileAt fun _ _ => .pure (.ite h'.modPlane h'.modPlane.popTiles)

theorem Canonical.shiftBox (h : s.Canonical) {c k d} : (s.shiftBox c k d).Canonical := h.modPlane.modCall

theorem Canonical.shiftOperand (h : s.Canonical) {c o k d rot} : (s.shiftOperand c o k d rot).Canonical := h.modPlane

theorem Canonical.execShift (h : s.Canonical) {u} : Keeps (Machine.execShift u s) :=
  h.microRun fun _ _ h' => .ite (.bind .operand fun _ _ => .bind .need fun _ _ => .pure h'.shiftOperand)
    (.bind .need fun _ _ => .pure h'.shiftBox)

theorem Canonical.execSlide (h : s.Canonical) {u} : Keeps (Machine.execSlide u s) := by
  unfold Machine.execSlide
  refine h.microRun fun _ _ h' => .bind .useRing fun _ _ => .bind .need fun _ _ => .bind .need fun _ _ =>
    .bind h'.stepOn fun _ h1 => .ite (.pure (.modCall (.ite h1.popTiles.modCall h1.popTiles.shiftBox))) (.pure ?_)
  split
  · exact .ite (.popTiles (.modCall (.ite h1.popTiles.modCall h1.popTiles))) (.modCall (.ite h1.popTiles.modCall h1.popTiles))
  · exact .modCall (.ite h1.popTiles.modCall h1.popTiles)

theorem Canonical.markPlane (h : s.Canonical) {c} : (s.markPlane c).Canonical := h.modPlane

theorem Canonical.execInj (h : s.Canonical) {u} : Keeps (Machine.execInj u s) :=
  h.microRun fun _ _ h' => .bind .useRing fun _ _ => .bind .need fun _ _ => .bind .need fun _ _ => .pure h'.modCall.markPlane

theorem Canonical.execClrp (h : s.Canonical) {op} : Keeps (Machine.execClrp op s) :=
  h.microRun fun _ _ h' => .ite (.bind .operand fun _ _ => .pure h'.modPlane) (.pure h'.modPlane.modCall)

theorem Canonical.execBndm (h : s.Canonical) {u} : Keeps (Machine.execBndm u s) :=
  h.microRun fun _ _ h' => .ok h'.modCall.markPlane

theorem Canonical.execLdp (h : s.Canonical) {u} : Keeps (Machine.execLdp u s) :=
  h.microRun fun _ _ h' => .bind (P := fun _ => True) (.ite .operand (.ok trivial)) fun _ _ => .bind .useRing fun _ _ =>
    .bind .need fun _ _ => .bind .need fun _ _ => .bind h'.tileAt fun _ _ =>
    .ite (.pure h'.modPlane.popTiles.modCall) (.pure h'.modPlane.popTiles.modCall)

theorem Canonical.execDrnp (h : s.Canonical) {u} : Keeps (Machine.execDrnp u s) := by
  unfold Machine.execDrnp
  dsimp only
  refine h.microRun fun _ _ h' => .bind .drainSource fun _ _ => .bind .useRing fun _ _ => .bind .need fun _ _ =>
    .ite (.error trivial) ?_
  split
  · exact .error h'.engineWrite
  · exact .ite (.pure h'.engineWrite.modRing.modCall) (.pure h'.engineWrite.modRing.modCall)

theorem Canonical.clearBox (h : s.Canonical) {core c gone} : (s.clearBox core c gone).Canonical := h.modPlane.modCall

theorem Canonical.execHexp (h : s.Canonical) : Keeps (Machine.execHexp s) :=
  h.microRun fun _ _ h' => .ite (.ite (.pure h'.modCall) (.error trivial))
    (.bind .need fun _ _ => .bind .need fun _ _ => .bind .need fun _ _ => .pure h'.clearBox.modPlane.upd.modCore.modCall)

theorem Canonical.execHmrg (h : s.Canonical) {n} : Keeps (Machine.execHmrg n s) :=
  h.microRun fun _ _ h' => .ite (.pure h') (.bind .need fun _ _ => .ite (.error trivial) (.pure h'.modPlane.modCall))

theorem Canonical.execUloop (h : s.Canonical) {n} : Keeps (Machine.execUloop n s) := by
  unfold Machine.execUloop
  refine h.microRun fun _ _ h' => .ite ?_ (.bind .need fun _ _ => .pure h'.modCall)
  split
  · exact .pure h'
  · exact .error trivial

theorem Canonical.execUend (h : s.Canonical) : Keeps (Machine.execUend s) := by
  unfold Machine.execUend
  refine h.microRun fun _ _ h' => ?_
  split
  · exact .error trivial
  · exact .ite (.ok h'.modCall) (.ok h'.modCall)

theorem Canonical.execUwait (h : s.Canonical) {u} : Keeps (Machine.execUwait u s) := by
  unfold Machine.execUwait
  refine h.microRun fun _ _ h' => ?_
  split
  · exact .bind .useRing fun _ _ => .bind .need fun _ _ => .ite (.error trivial) (.pure h')
  · exact .ite (.ok h'.modCall) (.ok h'.modCall)

theorem Canonical.execUret (h : s.Canonical) : Keeps (Machine.execUret s) :=
  h.microRun fun _ _ h' => .ite (.error trivial) (.ite (.error trivial)
    (.ok (.ite (.modPlane (.endCall (.foldl (fun _ _ h' => h'.modRing) h')))
    (.endCall (.foldl (fun _ _ h' => h'.modRing) h')))))

theorem Canonical.execPlaneCallStart (h : s.Canonical) {core} : Keeps (Machine.execPlaneCallStart core s) := by
  unfold Machine.execPlaneCallStart
  split
  · exact .next h
  · exact .ite (.next h) (.next (.modCall (.ite h.modPlane.modPlane h.modPlane)))

theorem Canonical.execHaloGrant (h : s.Canonical) {core} : Keeps (Machine.execHaloGrant core s) := by
  unfold Machine.execHaloGrant
  split
  · exact .next h
  · exact .next h
  · split
    · exact .next h
    · exact .ite (.next h.callFault) (.next h.clearBox.modCore.upd.modCall)

theorem Canonical.execHaloArrival (h : s.Canonical) {core inbox} : Keeps (Machine.execHaloArrival core inbox s) := by
  unfold Machine.execHaloArrival
  split
  · exact .next h
  · split
    · exact .next h
    · exact .ite (.next h) (.next h.upd.modCall)

/-! ## Events of a context (R417, R426, R427) -/

theorem Canonical.execResultWriteback (h : s.Canonical) {core ctx} : Keeps (Machine.execResultWriteback core ctx s) :=
  .next (.ite h.modCtx h)

theorem Canonical.execFmtTakesEffect (h : s.Canonical) {core ctx} : Keeps (Machine.execFmtTakesEffect core ctx s) :=
  .next (.ite h.modCtx h)

theorem Canonical.acquired (h : s.Canonical) {r} : (s.acquired r).Canonical := h.upd.releaseHeld

theorem Canonical.landRead (h : s.Canonical) {r} : (s.landRead r).Canonical := by
  unfold State.landRead
  split
  · exact h
  · exact .ite h (.ite h.upd.modCtx.acquired h.upd.modCtx)

theorem Canonical.execPendingResultLands (h : s.Canonical) {id} : Keeps (Machine.execPendingResultLands id s) := by
  unfold Machine.execPendingResultLands
  split
  · exact .next h.landRead
  · split
    · exact .next h
    · exact .ite (.next h) (.next (.ite h.upd h.upd.modCtx))

theorem Canonical.execTrapDelivery (h : s.Canonical) {core ctx} : Keeps (Machine.execTrapDelivery core ctx s) :=
  .next (.ite h.deliver h)

theorem Canonical.execTerminalTrap (h : s.Canonical) {core ctx} : Keeps (Machine.execTerminalTrap core ctx s) :=
  .next (.ite h.takeAsync h)

theorem Canonical.execObjectAnswerDelivery (h : s.Canonical) {core object} :
    Keeps (Machine.execObjectAnswerDelivery core object s) :=
  .next (.ite h h.modCore)

/-! ## What the launch processor writes for a partition (R56, R79 to R81, R433) -/

theorem Canonical.setFstat (h : s.Canonical) {fn bit} : (s.setFstat fn bit).Canonical := .ite h h.upd.modFunc

theorem Canonical.hostPut (h : s.Canonical) {part addr bs} : (s.hostPut part addr bs).Canonical := h.hostPoke

theorem Canonical.procPut (h : s.Canonical) {cells} : (s.procPut cells).Canonical := h.pokes.upd

theorem Canonical.virtPut (h : s.Canonical) {part va bs} : (s.virtPut part va bs).Canonical := h.procPut

theorem Canonical.stallPart (h : s.Canonical) {part r} : (s.stallPart part r).Canonical :=
  .foldl (fun _ _ h' => .ite (.foldl (fun _ _ h2 => h2.askPre) h') h') h

theorem Canonical.unstallPart (h : s.Canonical) {part r} : (s.unstallPart part r).Canonical :=
  .foldl (fun _ _ h' => .foldl (fun _ _ h2 => h2.endPre.resume) h') h

theorem Canonical.putEntry (h : s.Canonical) {part bs} : (s.putEntry part bs).Canonical := h.virtPut.modFunc.modLaunch

theorem Canonical.record (h : s.Canonical) {o d} : (s.record o d).Canonical := by
  unfold State.record
  split
  · exact h
  · exact .ite h (.ite h.putEntry (.ite h.setFstat.modLaunch h.setFstat.modPart.stallPart))

theorem Canonical.flushLog (h : s.Canonical) {n part} : (State.flushLog n s part).Canonical := by
  induction n generalizing s with
  | zero => exact h
  | succ n ih =>
    unfold State.flushLog
    split
    · exact h.unstallPart
    · exact .ite (ih h.putEntry.modPart) h

theorem Canonical.takeDecision (h : s.Canonical) {part} : (s.takeDecision part).Canonical := h.modFunc

theorem Canonical.diverge (h : s.Canonical) {part core ctx} : (s.diverge part core ctx).Canonical :=
  .foldl (fun _ _ h' => .ite (.foldl (fun _ _ h2 => h2.askPre.preempt) h'.modCore) h') h.modPart.logFault

theorem Canonical.decided (h : s.Canonical) {core ctx d} : (s.decided core ctx d).Canonical := by
  unfold State.decided
  split
  · exact h
  · split
    · exact h
    · exact .ite (.ite h.takeDecision h.diverge) h.record

end State

end Sys2Proof.Machine
end

section
/-! SUPPORT. Groups, snapshots, the traffic of the mesh and the copy engines keep memories canonical. -/

set_option Elab.async false

namespace Sys2Proof.Machine

variable {s t : State}

namespace State

/-! ## Slot 0, instructions that synchronise (R388 to R413) -/

theorem Canonical.execLda (h : s.Canonical) {f} : Keeps (Machine.execLda f s) :=
  h.accessRun fun _ h' => .after fun _ => .bind h'.opnd fun ⟨_, _⟩ h1 => h1.load

theorem Canonical.execStl (h : s.Canonical) {f} : Keeps (Machine.execStl f s) :=
  h.accessRun fun _ h' => .after fun _ => .bind h'.opnd fun ⟨_, _⟩ h1 => .after fun _ => .after fun _ => .after fun _ =>
    .after fun _ => h1.store

theorem Canonical.execFence (h : s.Canonical) {f} : Keeps (Machine.execFence f s) :=
  h.accessRun fun _ h' => .after fun _ => .pure h'

theorem Canonical.askStamp (h : s.Canonical) : s.askStamp.Canonical := h.upd.modMe

theorem Canonical.execVsync (h : s.Canonical) {f} : Keeps (Machine.execVsync f s) :=
  h.accessRun fun _ h' => .after fun _ => .pure h'.askStamp

theorem Canonical.sendAtom (h : s.Canonical) {engine tgt va op v dest m pm} :
    Answers Canonical (s.sendAtom engine tgt va op v dest m pm) :=
  .after fun _ => .pure h.upd.modCore

theorem Canonical.memAtom (h : s.Canonical) {va op v dest m} : Answers Canonical (s.memAtom va op v dest m) :=
  .after fun _ => .after fun _ => .after fun _ => h.lookUp.sendAtom

theorem Canonical.atomic (h : s.Canonical) {op f} : Keeps (Machine.atomic op f s) :=
  h.accessRun fun _ h' => .after fun _ => .bind h'.opnd fun ⟨_, _⟩ h1 => .bind h1.opnd fun ⟨_, _⟩ h2 => h2.memAtom

theorem Canonical.execAcas (h : s.Canonical) {f} : Keeps (Machine.execAcas f s) :=
  h.accessRun fun _ h' => .after fun _ => .bind h'.opnd fun ⟨_, _⟩ h1 => .bind h1.opnd fun ⟨_, _⟩ h2 => h2.memAtom

theorem Canonical.execAfadd (h : s.Canonical) {f} : Keeps (Machine.execAfadd f s) :=
  h.accessRun fun _ h' => .bind h'.opnd fun ⟨_, _⟩ h1 => .bind h1.opnd fun ⟨_, _⟩ h2 => .after fun _ => h2.sendAtom

theorem Canonical.execAxread (h : s.Canonical) {f} : Keeps (Machine.execAxread f s) :=
  h.accessRun fun _ h' => .after fun _ => .bind h'.opnd fun ⟨_, _⟩ h1 => .after fun _ => h1.sendAtom

theorem Canonical.execAxclr (h : s.Canonical) {f} : Keeps (Machine.execAxclr f s) :=
  h.accessRun fun _ h' => .bind h'.opnd fun ⟨_, _⟩ h1 => .after fun _ => h1.sendAtom

theorem Canonical.askGroup (h : s.Canonical) {g op} : (s.askGroup g op).Canonical := h.upd

theorem Canonical.execGjoin (h : s.Canonical) {f} : Keeps (Machine.execGjoin f s) :=
  h.slotRun fun _ h' => .bind h'.opnd fun ⟨_, _⟩ h1 => .after fun _ => .pure h1.askGroup

theorem Canonical.execGleave (h : s.Canonical) {f} : Keeps (Machine.execGleave f s) :=
  h.slotRun fun _ h' => .bind h'.opnd fun ⟨_, _⟩ h1 => .after fun _ => .after fun _ => .pure h1.askGroup

theorem Canonical.execGbar (h : s.Canonical) {f} : Keeps (Machine.execGbar f s) :=
  h.slotRun fun _ h' => .bind h'.opnd fun ⟨_, _⟩ h1 => .after fun _ => .after fun _ =>
    .pure (.ite h1.askGroup.modMe h1.askGroup)

theorem Canonical.execGquery (h : s.Canonical) {f} : Keeps (Machine.execGquery f s) :=
  h.slotRun fun _ h' => .after fun _ => .bind h'.opnd fun ⟨_, _⟩ h1 => .after fun _ => .pure h1.writeS

theorem Canonical.advanceLimit (h : s.Canonical) {va n} : (s.advanceLimit va n).Canonical := h.upd.modPart.modMe

theorem Canonical.execSnapadv (h : s.Canonical) {f} : Keeps (Machine.execSnapadv f s) := by
  unfold Machine.execSnapadv
  refine h.accessRun fun _ h' => .bind h'.opnd fun ⟨_, _⟩ h1 => .bind h1.opnd fun ⟨_, _⟩ h2 => .after fun _ =>
    .after fun _ => ?_
  split
  · exact .error trivial
  · exact .after fun _ => .after fun _ => .after fun _ => .after fun _ => .pure h2.advanceLimit

theorem Canonical.openPhase (h : s.Canonical) {ph} : (s.openPhase ph).Canonical := h.modCore

theorem Canonical.execPhase (h : s.Canonical) {f} : Keeps (Machine.execPhase f s) :=
  h.slotRun fun _ h' => .ite (.pure h') (.bind h'.opnd fun ⟨_, _⟩ h1 => .after fun _ => .after fun _ => .after fun _ =>
    .pure h1.openPhase)

theorem Canonical.execLblget (h : s.Canonical) {f} : Keeps (Machine.execLblget f s) :=
  h.slotRun fun _ h' => .after fun _ => .bind h'.opnd fun ⟨_, _⟩ h1 => .pure h1.writeS

theorem Canonical.raiseAt (h : s.Canonical) {t m} : Answers Canonical (s.raiseAt t m) := by
  unfold State.raiseAt
  refine .after fun _ => ?_
  split
  · exact .error trivial
  · exact .pure h.sendRaise

theorem Canonical.execLblraise (h : s.Canonical) {f} : Keeps (Machine.execLblraise f s) := by
  unfold Machine.execLblraise
  refine h.slotRun fun _ h' => ?_
  split
  · exact .bind h'.opnd fun ⟨_, _⟩ h1 => .after fun _ => .pure h1.taintUp
  · exact .both (.bind h'.opnd fun ⟨_, _⟩ h1 => .bind h1.opnd fun ⟨_, _⟩ h2 => .after fun _ => h2.raiseAt)

/-! ## Homes, replicas, walks and groups (R121, R376 to R380, R403) -/

theorem Canonical.execWriteAcknowledge (h : s.Canonical) {id} : Keeps (Machine.execWriteAcknowledge id s) :=
  .next h.modWrite.dropDone

theorem Canonical.execRemoteWriteApply (h : s.Canonical) {die id} : Keeps (Machine.execRemoteWriteApply die id s) := by
  unfold Machine.execRemoteWriteApply
  split
  · exact .next h
  · exact .ite (.next h) (.next h.modDie.modWrite.dropDone)

theorem Canonical.keepLine (h : s.Canonical) {die line} : (s.keepLine die line).Canonical := .ite h h.modDie

theorem Canonical.execReplicaUpdate (h : s.Canonical) {die line} : Keeps (Machine.execReplicaUpdate die line s) := by
  unfold Machine.execReplicaUpdate
  refine .ite (.next ?_) (.next h.modDie)
  split
  · exact .ite h h.keepLine
  · exact h

theorem Canonical.execHomeReadService (h : s.Canonical) {id atReplica keep} :
    Keeps (Machine.execHomeReadService id atReplica keep s) := by
  unfold Machine.execHomeReadService
  dsimp only
  split
  · exact .next h
  · refine .ite (.next h) ?_
    split
    · exact .next h.answer
    · split
      · exact .next h
      · exact .ite (.next h) (.next h.modCore)
    · exact .ite (.next h) (.ite (.ite (.next h.answer) (.next h)) (.ite (.next h)
        (.next (.ite (.foldl (fun _ _ h' => h'.keepLine) h.readHome) h.readHome))))

theorem Canonical.serveFe (h : s.Canonical) {core r} : (s.serveFe core r).Canonical := by
  unfold State.serveFe
  split
  · exact .ite h (.ite h.answer.modCore.setFull.raiseBlock h.answer.modCore)
  · exact h

theorem Canonical.execFullEmptyService (h : s.Canonical) {core granule} : Keeps (Machine.execFullEmptyService core granule s) :=
  .next (.foldl (fun _ _ h' => h'.serveFe) h)

theorem Canonical.execWalkStart (h : s.Canonical) {die} : Keeps (Machine.execWalkStart die s) := by
  unfold Machine.execWalkStart
  refine .ite (.next h) ?_
  split
  · exact .next h
  · exact .next h.modDie

theorem Canonical.execWalkComplete (h : s.Canonical) {die entry} : Keeps (Machine.execWalkComplete die entry s) := by
  unfold Machine.execWalkComplete
  split
  · exact .next h
  · refine .ite (.next h) ?_
    split
    · exact .next h.upd.modDie.fillFront
    · exact .next h.modDie

theorem Canonical.execSerialiserStamp (h : s.Canonical) : Keeps (Machine.execSerialiserStamp s) := by
  unfold Machine.execSerialiserStamp
  split
  · exact .next h
  · exact .next h
  · exact .next h.upd.modCtx

theorem Canonical.synced (h : s.Canonical) {core ctx} : (s.synced core ctx).Canonical := h.modCtx.upd.releaseHeld

theorem Canonical.execVsyncComplete (h : s.Canonical) {core ctx} : Keeps (Machine.execVsyncComplete core ctx s) := by
  unfold Machine.execVsyncComplete
  split
  · exact .ite (.next h.synced.modCore) (.next h)
  · exact .next h

theorem Canonical.execGroupRequestApply (h : s.Canonical) : Keeps (Machine.execGroupRequestApply s) := by
  unfold Machine.execGroupRequestApply
  split
  · exact .next h
  · exact .next h
  · exact .ite (.next h) (.next (.ite h.upd.groupApply h.upd))

theorem Canonical.execSnapadvComplete (h : s.Canonical) {core ctx} : Keeps (Machine.execSnapadvComplete core ctx s) := by
  unfold Machine.execSnapadvComplete
  split
  · exact .next h
  · exact .ite (.next h) (.next h.upd.modCtx)

/-! ## Copies, streams and releases (R242 to R251, R271, R273, R362, R407) -/

theorem Canonical.setEntry (h : s.Canonical) {core ctx e} : (s.setEntry core ctx e).Canonical := h.modEntry

/-- The checks of an element stop it in the state they began in. -/
theorem Canonical.elemCheck (h : s.Canonical) {core e k m va n} :
    Ends ElemStop.Canonical (fun _ => True) (s.elemCheck core e k m va n) := by
  unfold State.elemCheck
  dsimp only
  split
  · exact .error h
  · split
    · exact .error h
    · split
      · exact .error h
      · exact .ok trivial

theorem Canonical.elemLook (h : s.Canonical) {core e va n} : Ends ElemStop.Canonical Canonical (s.elemLook core e va n) :=
  .ite (.ok h.lookSpan) (.error h.lookSpan)

theorem Canonical.elemRead (h : s.Canonical) {core e va n} :
    Ends ElemStop.Canonical (fun r => r.1.Canonical) (s.elemRead core e va n) :=
  .bind h.elemCheck fun _ _ => .bind h.elemLook fun _ h1 => .ite (.error h1) (.pure h1)

theorem Canonical.elemSend (h : s.Canonical) {core ctx e cells m fe clr} :
    Ends ElemStop.Canonical Canonical (s.elemSend core ctx e cells m fe clr) :=
  .ite (.error h) (.ok (.ite h.entryWrite.noteArrival h.entryWrite))

theorem Canonical.copySource (h : s.Canonical) {core ctx e cmd src} :
    Ends ElemStop.Canonical (fun r => r.1.Canonical) (s.copySource core ctx e cmd src) := by
  unfold State.copySource
  dsimp only
  refine .ite (.bind h.elemRead fun ⟨_, _, _⟩ h1 => .pure h1) (.ite (.pure h) (.ite (.error h) ?_))
  split
  · exact .error h
  · exact .ite (.error h) (.pure h.setEntry.modRing)

theorem Canonical.copyDest (h : s.Canonical) {core ctx e cmd dst fill bs m} :
    Ends ElemStop.Canonical Canonical (s.copyDest core ctx e cmd dst fill bs m) := by
  unfold State.copyDest
  dsimp only
  split
  · exact .bind h.elemCheck fun _ _ => .bind h.elemLook fun _ h1 => h1.elemSend
  · refine .ite (.error h) ?_
    have ht {c : Prop} [Decidable c] {e' n f} : (if c then (s.setEntry core ctx e').modRing core n f else s).Canonical :=
      .ite h.setEntry.modRing h
    split
    · exact .error ht
    · exact .bind ht.elemSend fun _ h1 => .pure (.ite h1.modRing h1)
  · exact .ite (.error h) (.ok (h.modCore fun k => by split <;> rfl))

theorem Canonical.elem (h : s.Canonical) {core ctx e} : Ends ElemStop.Canonical Canonical (s.elem core ctx e) := by
  unfold State.elem
  split
  · exact .bind h.copySource fun ⟨_, _, _, _⟩ h1 => .bind h1.copyDest fun _ h2 => .pure h2.modEntry
  · exact .bind h.elemCheck fun _ _ => .bind h.elemSend fun _ h1 => .pure h1.modEntry
  · exact .bind h.elemRead fun ⟨_, _, _⟩ h1 => .pure h1.modEntry
  · exact .error h

theorem Canonical.elemReady (h : s.Canonical) {core ctx e} :
    Ends ElemStop.Canonical (fun r => r.1.Canonical) (s.elemReady core ctx e) := by
  unfold State.elemReady
  split
  · refine .ite (.ok h) ?_
    split
    · exact .error h
    · exact .ok h.setEntry
  · exact .ok h

theorem Canonical.elemNext (h : s.Canonical) {core ctx uid} : Ends ElemStop.Canonical Canonical (s.elemNext core ctx uid) := by
  unfold State.elemNext
  dsimp only
  split
  · exact .ok h
  · refine .ite (.error h) (.bind h.elemReady fun ⟨_, _⟩ h1 => ?_)
    split
    · exact .ite (.pure h1) (.error h1)
    · exact .ite (.pure h1) h1.elem

/-- The elements of a copy, by induction on their bound. -/
theorem Canonical.elemRun (h : s.Canonical) {core ctx uid n} :
    Ends ElemStop.Canonical Canonical (State.elemRun core ctx uid n s) := by
  induction n generalizing s with
  | zero => exact h
  | succ n ih =>
    have hn : Ends ElemStop.Canonical Canonical (s.elemNext core ctx uid) := h.elemNext
    unfold State.elemRun
    cases hx : s.elemNext core ctx uid with
    | ok t =>
      rw [hx] at hn
      exact ih hn
    | error e =>
      rw [hx] at hn
      exact hn

/-- What a copy has reached, whether its elements ended or one stopped. -/
theorem Canonical.reached {x : ETry State} (hx : Ends ElemStop.Canonical Canonical x) : (Machine.reached x).Canonical := by
  cases x with
  | ok t => exact hx
  | error e => exact hx

theorem Canonical.finishEntry (h : s.Canonical) {core ctx e skipped} : (s.finishEntry core ctx e skipped).Canonical := by
  unfold State.finishEntry
  extract_lets s1 s2 s3
  have h1 : s1.Canonical := by
    dsimp only [s1]
    split
    · exact h.modRing
    · exact h
  have h2 : s2.Canonical := by
    dsimp only [s2]
    split
    · exact h1.fillHandle
    · exact h1
  have h3 : s3.Canonical := by
    dsimp only [s3]
    split
    · exact h2.freeHandle
    · exact h2
  exact h3.dropEntry

theorem Canonical.handOver (h : s.Canonical) {core ctx e pol off} : (s.handOver core ctx e pol off).Canonical := h.upd.modEntry

theorem Canonical.entryDone (h : s.Canonical) {core ctx uid} : (s.entryDone core ctx uid).Canonical := by
  unfold State.entryDone
  split
  · exact h
  · refine .ite h ?_
    split
    · exact .ite h h.handOver
    · exact h
    · exact .ite h h.finishEntry
    · exact h.finishEntry

theorem Canonical.execCopyComplete (h : s.Canonical) {core ctx ent} : Keeps (Machine.execCopyComplete core ctx ent s) := by
  unfold Machine.execCopyComplete
  split
  · exact h
  · rename_i e _
    refine .ite h ?_
    have hr := h.elemRun (core := core) (ctx := ctx) (uid := e.uid) (n := e.count + 1)
    split <;> rename_i hx <;> rw [hx] at hr
    · exact Canonical.entryDone hr
    · exact hr

theorem Canonical.beginEntry (h : s.Canonical) {core ctx e} : (s.beginEntry core ctx e).Canonical := by
  unfold State.beginEntry
  extract_lets k e1 e2
  split
  rename_i s1 hs1
  have h1 : s1.Canonical := by
    split at hs1
    · split at hs1 <;> cases hs1
      · exact h.modRing
      · exact h
    · cases hs1
      exact h
  extract_lets s2 s3
  have h2 : s2.Canonical := by
    dsimp only [s2]
    split
    · exact h1.setHandle
    · exact h1
  have h3 : s3.Canonical := by
    dsimp only [s3]
    split
    · exact h2.setHandle
    · exact h2
  exact h3.upd.setEntry.modCore

theorem Canonical.execCopyBegin (h : s.Canonical) {core} : Keeps (Machine.execCopyBegin core s) := by
  unfold Machine.execCopyBegin
  dsimp only
  refine .ite (.next h) ?_
  split
  · exact .next h
  · exact .next h.beginEntry

theorem Canonical.tellFault (h : s.Canonical) {core ctx} : (s.tellFault core ctx).Canonical :=
  h.reportFault fun _ _ h' => h'.raiseAsync

theorem Canonical.skipFaulted (h : s.Canonical) {core ctx} : (s.skipFaulted core ctx).Canonical := by
  unfold State.skipFaulted
  split
  · exact .ite (.foldl (fun _ _ h' => .ite h'.skipEntry.modLaunch h') h) h
  · exact h

theorem Canonical.failEntry (h : s.Canonical) {core ctx e c side va} : (s.failEntry core ctx e c side va).Canonical :=
  .ite h.upd.modEntry.skipFaulted h.upd.modEntry.tellFault

theorem Canonical.escapeEntry (h : s.Canonical) {core ctx e va} : (s.escapeEntry core ctx e va).Canonical :=
  h.skipEntry.raiseAsync

theorem Canonical.execCopyElementFault (h : s.Canonical) {core ctx ent u} :
    Keeps (Machine.execCopyElementFault core ctx ent u s) := by
  unfold Machine.execCopyElementFault
  split
  · exact h
  · rename_i e _
    refine .ite h ?_
    extract_lets s1 r t
    have h1 : s1.Canonical := by
      dsimp only [s1]
      split
      · exact h.modEntry
      · exact h
    have ht : t.Canonical := .reached h1.elemRun
    refine .ite ht ?_
    split
    · exact ht.failEntry
    · exact ht.escapeEntry
    · exact ht

theorem Canonical.failWrite (h : s.Canonical) {w} : (s.failWrite w).Canonical := by
  unfold State.failWrite
  split
  · exact h
  · exact .ite h h.upd.setEntry.failEntry

theorem Canonical.execHomeWrite (h : s.Canonical) {w} : Keeps (Machine.execHomeWrite w s) := by
  unfold Machine.execHomeWrite
  split
  · split
    · exact h
    · exact .next (.ite h.performWrite h)
  · split
    · exact h
    · exact .next (.ite (.reached h.elemNext) h)

theorem Canonical.execPublishVersionWrite (h : s.Canonical) {core ctx ent} :
    Keeps (Machine.execPublishVersionWrite core ctx ent s) := by
  unfold Machine.execPublishVersionWrite
  dsimp only
  split
  · exact .next h
  · split
    · split
      · exact .next h
      · exact .ite (.next h) (.ite (.next h.failEntry) (.ite (.next h.failEntry) (.next h.modPart.pokes.finishEntry)))
    · exact .next h

theorem Canonical.execReleaseGateDecision (h : s.Canonical) : Keeps (Machine.execReleaseGateDecision s) := by
  unfold Machine.execReleaseGateDecision
  dsimp only
  split
  · exact .next h
  · split
    · exact .next (.ite (.modPart (.ite h.upd.pokes h.upd)) h.upd.modPart)
    · exact .next (.ite (.failEntry (.ite (.modPart (.ite h.upd.pokes h.upd)) h.upd.modPart))
        (.finishEntry (.modCtx (.ite (.modPart (.ite h.upd.pokes h.upd)) h.upd.modPart))))

theorem Canonical.execRingTailAdvance (h : s.Canonical) {core ring} : Keeps (Machine.execRingTailAdvance core ring s) :=
  .next (.ite h.modRing h)

theorem Canonical.setPort (h : s.Canonical) {core ctx q p} : (s.setPort core ctx q p).Canonical := h.modCtx

theorem Canonical.stopPort (h : s.Canonical) {core ctx q p off} :
    (s.stopPort core ctx q p off).Canonical := h.setPort.raiseAsync

theorem Canonical.execStreamReadahead (h : s.Canonical) {core gen} : Keeps (Machine.execStreamReadahead core gen s) := by
  unfold Machine.execStreamReadahead
  dsimp only
  split
  · exact .next h
  · refine .ite (.next h) ?_
    split
    · exact .next h.stopPort
    · exact .ite (.next h) (.next h.setPort)

theorem Canonical.execStreamPushWrite (h : s.Canonical) {core gen} : Keeps (Machine.execStreamPushWrite core gen s) := by
  unfold Machine.execStreamPushWrite
  split
  · exact h
  · split
    · exact h
    · refine .ite h.setPort ?_
      dsimp only
      split
      · exact h.stopPort
      · exact .ite h (.next h.setPort.writeNow)

theorem Canonical.storeColumn (h : s.Canonical) {core} : (s.storeColumn core).Canonical := by
  unfold State.storeColumn
  dsimp only
  split
  · exact h
  · refine .ite h ?_
    split
    · exact h.modCore.raiseAsync
    · exact h.engineWrite.modCore

theorem Canonical.makeRandom (h : s.Canonical) {core} : (s.makeRandom core).Canonical := by
  unfold State.makeRandom
  dsimp only
  split
  · exact h
  · exact .ite h h.modCtx.modCore

theorem Canonical.landDue (h : s.Canonical) {core} : (s.landDue core).Canonical := .foldl (fun _ _ h' => h'.landRead) h

theorem Canonical.engineCycle (h : s.Canonical) {core} : (s.engineCycle core).Canonical :=
  h.makeRandom.modCore.storeColumn.landDue.modCore

end State

end Sys2Proof.Machine
end

section
/-! SUPPORT. Direction registers, atomics and control transfers keep memories canonical. -/

set_option Elab.async false

namespace Sys2Proof.Machine

variable {s t : State}

namespace State

/-! ## Direction instructions and the scan (R330 to R340) -/

theorem Canonical.writeDir (h : s.Canonical) {L wr d len r m} : (s.writeDir L wr d len r m).Canonical :=
  .flagsIn (.quiet (.foldl (fun _ _ h' => h'.quiet) h))

theorem Canonical.writeY (h : s.Canonical) {L wr d v m} : (s.writeY L wr d v m).Canonical := h.quiet

theorem Canonical.execDnorm (h : s.Canonical) {f} : Keeps (Machine.execDnorm f s) := by
  unfold Machine.execDnorm
  refine h.slotRun fun _ h' => ?_
  split
  · exact .after fun _ => .pure h'.writeDir
  · exact .raise

theorem Canonical.execDunnorm (h : s.Canonical) {f} : Keeps (Machine.execDunnorm f s) := by
  unfold Machine.execDunnorm
  exact h.slotRun fun _ h' => .after fun _ => .pure (.flagsIn (.foldl (fun _ _ h' => h'.writeY) h'))

theorem Canonical.dir1 (h : s.Canonical) {L gd wr d a chain g} : Keeps (Machine.dir1 L gd wr d a chain g s) := by
  unfold Machine.dir1
  exact h.slotRun fun _ h' => .ok h'.writeDir

theorem Canonical.execDmovRaw (h : s.Canonical) {f} : Keeps (Machine.execDmovRaw f s) := by
  unfold Machine.execDmovRaw
  exact h.slotRun fun _ h' => .after fun _ => .pure (.foldl (fun _ _ h' => h'.writeY) h')

theorem Canonical.execDzero (h : s.Canonical) {f} : Keeps (Machine.execDzero f s) := by
  unfold Machine.execDzero
  exact h.slotRun fun _ h' => .ok h'.writeDir

theorem Canonical.yOperand (h : s.Canonical) {o} : Answers (fun r => r.2.Canonical) (s.yOperand o) := by
  unfold State.yOperand
  refine .bind (P := fun r => r.2.Canonical) ?_ fun ⟨_, _⟩ h1 => .pure h1
  split
  · exact .raise
  · exact .raise
  · exact h.opndv

theorem Canonical.dirNorm (h : s.Canonical) {f g} : Keeps (Machine.dirNorm f g s) := by
  unfold Machine.dirNorm
  exact h.slotRun fun _ h' => .bind h'.yOperand fun ⟨_, _⟩ h1 => .pure h1.writeDir

theorem Canonical.execDscale (h : s.Canonical) {f} : Keeps (Machine.execDscale f s) := h.dirNorm

theorem Canonical.execDnset (h : s.Canonical) {f} : Keeps (Machine.execDnset f s) := h.dirNorm

theorem Canonical.execDnget (h : s.Canonical) {f} : Keeps (Machine.execDnget f s) :=
  h.slotRun fun _ h' => .after fun _ => .pure h'.writeY

theorem Canonical.dir2 (h : s.Canonical) {f g} : Keeps (Machine.dir2 f g s) := by
  unfold Machine.dir2
  exact h.slotRun fun _ h' => .ok h'.writeDir

theorem Canonical.execDdot (h : s.Canonical) {f} : Keeps (Machine.execDdot f s) := by
  unfold Machine.execDdot
  exact h.slotRun fun _ h' => .after fun _ => .pure h'.writeY

theorem Canonical.execDmaxcos (h : s.Canonical) {f} : Keeps (Machine.execDmaxcos f s) := by
  unfold Machine.execDmaxcos
  exact h.slotRun fun _ h' => .after fun _ => .after fun _ => .after fun _ => .after fun _ => .pure h'.modCore

theorem Canonical.scanStep (h : s.Canonical) {core} : (s.scanStep core).Canonical := by
  unfold State.scanStep
  split
  · exact h
  · split
    · exact h
    · split
      · exact h
      · exact .ite h.modCtx.modCore h.modCtx.modCore.modCtx

/-! ## The atomic engines (R393 to R402) -/

theorem Canonical.applyAtom (h : s.Canonical) {a} : (s.applyAtom a).1.Canonical := by
  unfold State.applyAtom
  dsimp only
  split
  · split
    · exact h.noteArrival
    · exact h.noteArrival.writeNow
  · split
    · exact h.upd
    · exact h.upd
    · exact h

theorem Canonical.arrive (h : s.Canonical) {engine as} : (s.arrive engine as).Canonical := h.modEngine

theorem Canonical.serve (h : s.Canonical) {a} : (s.serve a).Canonical := by
  unfold State.serve
  extract_lets known t new u
  have ht : t.1.Canonical := by
    dsimp only [t, known]
    split
    · exact h
    · exact h.applyAtom
  exact ht.modEngine.upd

theorem Canonical.granted (h : s.Canonical) {a contends} : (s.granted a contends).Canonical := by
  unfold State.granted
  refine .ite (.serve (.ite h.decided h)) ?_
  split
  · exact h.serve
  · exact h.takeDecision.serve
  · exact h
  · exact h.diverge

theorem Canonical.execAtomicService (h : s.Canonical) {engine} : Keeps (Machine.execAtomicService engine s) := by
  unfold Machine.execAtomicService
  dsimp only
  split
  · exact .next h.upd.arrive
  · exact .next h.upd.arrive.granted

theorem Canonical.execAtomicRetryTimeout (h : s.Canonical) {id} : Keeps (Machine.execAtomicRetryTimeout id s) := by
  unfold Machine.execAtomicRetryTimeout
  split
  · exact .next h
  · split
    · exact .next h
    · exact .next h.upd

theorem Canonical.execAtomicAck (h : s.Canonical) {id} : Keeps (Machine.execAtomicAck id s) := by
  unfold Machine.execAtomicAck
  split
  · exact .next h
  · exact .next h.modEngine.upd

/-! ## Trap control (R422 to R428, R432) -/

/-- An operation of slot 0 that ends or redirects the flow. -/
theorem Canonical.struckRun (h : s.Canonical) {gd body} (hb : ∀ t, t.Canonical → Answers Canonical (body t)) :
    Keeps (Machine.struckRun gd body s) := by
  have hs := hb s h
  unfold Machine.struckRun
  refine .ite ?_ h.verdict
  split <;> rename_i hx <;> rw [hx] at hs
  · exact Canonical.verdict hs
  · exact h.halt

theorem Canonical.strike (h : s.Canonical) {c code halts} : (s.strike c code halts).Canonical := h.modMe

theorem Canonical.execEret (h : s.Canonical) {f} : Keeps (Machine.execEret f s) :=
  h.struckRun fun _ h' => .ite .raise (.ite (.ok h'.terminal) (.ite .blocked (.ok h'.eret)))

theorem Canonical.stopCtx (h : s.Canonical) : s.stopCtx.Canonical := h.pass.modMe

theorem Canonical.execYield (h : s.Canonical) {f} : Keeps (Machine.execYield f s) :=
  .ite h.verdict (.ite h.halt (.ite h.stopCtx.verdict h.verdict))

theorem Canonical.execWaite (h : s.Canonical) {f} : Keeps (Machine.execWaite f s) :=
  h.slotRun fun _ h' => .bind h'.opnd fun ⟨_, _⟩ h1 => .after fun _ => .after fun _ => .pure h1

theorem Canonical.execHaltctx (h : s.Canonical) {f} : Keeps (Machine.execHaltctx f s) := h.struckRun fun _ h' => .ok h'.haltCtx

theorem Canonical.haltCore (h : s.Canonical) {core} : (s.haltCore core).Canonical :=
  .foldl (fun _ _ h' => h'.askPre.preempt) h.modCore

theorem Canonical.debugHalt (h : s.Canonical) {core ctx} : (s.debugHalt core ctx).Canonical := .ite h.modCtx.haltCore h

theorem Canonical.resumeCore (h : s.Canonical) {core} : (s.resumeCore core).Canonical :=
  .foldl (fun _ _ h' => h'.endPre.modCtx.resume) h.modCore

theorem Canonical.execDbgbrk (h : s.Canonical) {f} : Keeps (Machine.execDbgbrk f s) := h.slotRun fun _ h' => .ok h'.strike

end State

end Sys2Proof.Machine
end

section
/-! SUPPORT. Launches, scalar instructions and the end of a launch keep memories canonical. -/

set_option Elab.async false

namespace Sys2Proof.Machine

variable {s t : State}

namespace State

/-! ## Register pages, queues, packets, records and retirement (R55 to R81, R430, R438) -/

theorem Canonical.mapTo (h : s.Canonical) {slot q} : (s.mapTo slot q).Canonical := h.upd.modQueue

theorem Canonical.serveSlot (h : s.Canonical) {part slot qs} : (State.serveSlot part slot qs s).Canonical := by
  induction qs generalizing s with
  | nil => exact h
  | cons q qs ih => exact .ite (ih h.mapTo.upd.modQueue) h.mapTo

theorem Canonical.giveUp (h : s.Canonical) {part slot} : (s.giveUp part slot).Canonical := h.upd.serveSlot

theorem Canonical.evict (h : s.Canonical) {part q slot} : (s.evict part q slot).Canonical := h.modQueue.giveUp

theorem Canonical.askSlot (h : s.Canonical) {part q} : (s.askSlot part q).Canonical := by
  unfold State.askSlot
  dsimp only
  split
  · exact h.mapTo
  · split
    · exact h.modQueue
    · exact .ite h.modQueue.upd.modPart h.modQueue.upd.evict

theorem Canonical.settleQueue (h : s.Canonical) {part q} : (s.settleQueue part q).Canonical := by
  unfold State.settleQueue
  refine .ite ?_ (.ite ?_ ?_)
  · split
    · exact h.modQueue.giveUp
    · exact h.modQueue
  · split
    · exact h.modQueue.giveUp
    · exact h.modQueue
  · split
    · exact .ite h.evict h
    · exact h

theorem Canonical.endUnrun (h : s.Canonical) {part num st} : (s.endUnrun part num st).Canonical := h.modPart

theorem Canonical.evaluate (h : s.Canonical) {part num touched} : (s.evaluate part num touched).Canonical := by
  unfold State.evaluate
  split
  · exact h
  · refine .ite h ?_
    split
    · exact h.endUnrun
    · exact .ite h.modPart (.ite h.modPart.endUnrun h.modPart.modPart)

theorem Canonical.evaluateAll (h : s.Canonical) {part obj} : (s.evaluateAll part obj).Canonical :=
  .foldl (fun _ _ h' => h'.evaluate) h

theorem Canonical.release (h : s.Canonical) {part} : (s.release part).Canonical := by
  refine .foldl (fun _ _ h' => ?_) h
  dsimp only
  split
  · exact h'
  · exact .ite h'.modPart.evaluate h'

theorem Canonical.copyObject (h : s.Canonical) {part obj} : (s.copyObject part obj).Canonical := h.hostPut

theorem Canonical.changeObject (h : s.Canonical) {part obj f} : (s.changeObject part obj f).Canonical :=
  h.modPart.copyObject.evaluateAll

theorem Canonical.signal (h : s.Canonical) {part l} : (s.signal part l).Canonical := .ite h h.upd.changeObject

theorem Canonical.logNotify (h : s.Canonical) {part q} : (s.logNotify part q).Canonical := by
  refine .foldl (fun _ _ h' => ?_) h
  split
  · exact h'.decided
  · exact h'

theorem Canonical.writeNotify (h : s.Canonical) {fn v} : (s.writeNotify fn v).Canonical := by
  unfold State.writeNotify
  split
  · exact h.setFstat
  · exact .ite h.setFstat (.ite h.logNotify.modQueue (.ite h.logNotify.modQueue.askSlot h.logNotify.modQueue.settleQueue))

theorem Canonical.leaveSaved (h : s.Canonical) {part l} : (s.leaveSaved part l).Canonical :=
  .foldl (fun _ _ h' => h'.leaveGroups) h

theorem Canonical.unfreeze (h : s.Canonical) {part} : (s.unfreeze part).Canonical := h.modPart

theorem Canonical.abortQueue (h : s.Canonical) {part q} : (s.abortQueue part q).Canonical := by
  refine .unfreeze (.foldl (fun _ _ h' => .ite h' ?_) h)
  split
  · exact h'.leaveSaved.endUnrun
  · exact h'.leaveSaved.endUnrun
  · exact h'.leaveSaved.endUnrun
  · exact h'.endLaunch
  · exact h'

theorem Canonical.tearDown (h : s.Canonical) {part q abort} : (s.tearDown part q abort).Canonical :=
  .ite (.settleQueue (.ite h.modQueue.abortQueue h.modQueue)) h

theorem Canonical.writeQctl (h : s.Canonical) {fn v} : (s.writeQctl fn v).Canonical := by
  unfold State.writeQctl
  split
  · exact h
  · exact .ite (.ite h.setFstat h) (.ite h.setFstat (.ite (.ite h.modQueue.tearDown h.modQueue)
      (.ite (.ite h.modQueue.modQueue.modQueue h.modQueue.modQueue.askSlot) h.modQueue)))

theorem Canonical.writeObjset (h : s.Canonical) {fn v} : (s.writeObjset fn v).Canonical := by
  unfold State.writeObjset
  split
  · exact h.setFstat
  · exact h.changeObject

theorem Canonical.writeEphcons (h : s.Canonical) {fn v} : (s.writeEphcons fn v).Canonical := by
  unfold State.writeEphcons
  split
  · exact h
  · exact .ite h.modFunc.setFstat h.modFunc

theorem Canonical.writeLoglimit (h : s.Canonical) {fn v} : (s.writeLoglimit fn v).Canonical := by
  unfold State.writeLoglimit
  split
  · exact h
  · exact .ite h.modFunc h.modFunc.flushLog

theorem Canonical.writeLogprod (h : s.Canonical) {fn v} : (s.writeLogprod fn v).Canonical := by
  unfold State.writeLogprod
  split
  · exact h
  · exact .ite h.setFstat h.modFunc

theorem Canonical.writeQueueReg (h : s.Canonical) {fn off v} : (s.writeQueueReg fn off v).Canonical :=
  .ite h (.ite (.ite h.setFstat h.modQueue) h.modQueue)

theorem Canonical.ringDoor (h : s.Canonical) {fn} : (s.ringDoor fn).Canonical := .ite h.setFstat h.modFunc

theorem Canonical.writePage (h : s.Canonical) {fn off v} : (s.writePage fn off v).Canonical := by
  unfold State.writePage
  refine .ite h ?_
  split
  · exact h.writeNotify
  · exact .ite h.modFunc h.setFstat
  · exact h.writeQueueReg
  · exact h.writeQctl
  · exact h.writeQueueReg
  · exact .ite h h.modFunc
  · exact h.writeObjset
  · exact .ite h h.modFunc
  · exact .ite h h.modFunc
  · exact h.writeEphcons
  · exact .ite h h.modFunc
  · exact h.writeLoglimit
  · exact h.writeLogprod
  · exact h.modFunc
  · exact h.modFunc
  · exact h.ringDoor
  · exact h

theorem Canonical.execQueueEnable (h : s.Canonical) {fn value} : Keeps (Machine.execQueueEnable fn value s) :=
  .next (.ite h.writePage h)

theorem Canonical.execTeardown (h : s.Canonical) {fn value} : Keeps (Machine.execTeardown fn value s) :=
  .next (.ite h.writePage h)

theorem Canonical.execTeardownAbort (h : s.Canonical) {fn value} : Keeps (Machine.execTeardownAbort fn value s) :=
  .next (.ite h.writePage h)

theorem Canonical.firstSteps (h : s.Canonical) {part num bs} : (s.firstSteps part num bs).Canonical := by
  unfold State.firstSteps
  refine .ite h.endUnrun (.ite h.endUnrun (.ite h.evaluate ?_))
  split
  · exact h.endUnrun
  · exact h.endUnrun
  · exact .ite h.modPart.release h.modPart.modPart.evaluate

theorem Canonical.execPacketAccept (h : s.Canonical) {queue readOk} : Keeps (Machine.execPacketAccept queue readOk s) := by
  unfold Machine.execPacketAccept
  split
  · exact .next h
  · exact .ite (.next h) (.ite (.next h.modQueue.tearDown) (.next h.modPart.modQueue.firstSteps))

theorem Canonical.digestFails (h : s.Canonical) {part l c a} : (s.digestFails part l c a).Canonical := h.modLaunch.logFault

theorem Canonical.digestStep (h : s.Canonical) {part l} : (s.digestStep part l).Canonical := by
  unfold State.digestStep
  split
  · exact h
  · exact h
  · split
    · exact h.digestFails
    · exact .ite h h.modLaunch

theorem Canonical.dropLaunch (h : s.Canonical) {part l} : (s.dropLaunch part l).Canonical :=
  .release (.settleQueue (.modPart (.foldl (fun _ _ h' => h'.modCore) h)))

theorem Canonical.digestTurn (h : s.Canonical) {part} : (s.digestTurn part).1.Canonical := by
  unfold State.digestTurn
  split
  · exact h
  · split
    · exact h
    · exact .foldl (fun _ _ h' => .foldl (fun _ _ h' => h'.skipFaulted) h') h

theorem Canonical.toRecord (h : s.Canonical) {part num} : (s.toRecord part num).Canonical := h.modLaunch

theorem Canonical.execLaunchRetirement (h : s.Canonical) {part} : Keeps (Machine.execLaunchRetirement part s) := by
  have hd := h.digestTurn (part := part)
  unfold Machine.execLaunchRetirement
  split
  · exact h
  · split
    · split <;> rename_i hx <;> rw [hx] at hd
      · exact hd
      · exact (Canonical.digestStep hd).toRecord
    · exact h.dropLaunch
    · exact h

theorem Canonical.digestError (h : s.Canonical) {part va} : (s.digestError part va).Canonical := by
  have hd := h.digestTurn (part := part)
  unfold State.digestError
  split <;> rename_i hx <;> rw [hx] at hd
  · exact hd
  · exact .ite (Canonical.digestFails hd).toRecord hd

theorem Canonical.putRecord (h : s.Canonical) {part l} : (s.putRecord part l).Canonical := h.hostPut.modFunc

theorem Canonical.execEphemerisRecordWrite (h : s.Canonical) {part} : Keeps (Machine.execEphemerisRecordWrite part s) := by
  unfold Machine.execEphemerisRecordWrite
  split
  · exact .next h
  · exact .ite (.next h) (.ite (.next h.setFstat) (.next (.ite h.putRecord.signal.modPart.modLaunch.dropLaunch
      h.putRecord.signal.modPart.modLaunch)))

theorem Canonical.execTenantPreemptionSave (h : s.Canonical) {part} : Keeps (Machine.execTenantPreemptionSave part s) := by
  unfold Machine.execTenantPreemptionSave
  split
  · exact .next h
  · exact .next (.settleQueue (.modPart (.foldl (fun _ _ h' => h'.modCore) h.upd)))

/-! ## Register arithmetic, predicates and branches (R180 to R195) -/

theorem Canonical.alu2 (h : s.Canonical) {L g f} : Keeps (Machine.alu2 L g f s) :=
  h.slotRun fun _ h' => .after fun _ => .bind h'.opnd fun ⟨_, _⟩ h1 => .bind h1.opnd fun ⟨_, _⟩ h2 => .pure h2.writeS

theorem Canonical.divide (h : s.Canonical) {g f} : Keeps (Machine.divide g f s) :=
  h.slotRun fun _ h' => .after fun _ => .bind h'.opnd fun ⟨_, _⟩ h1 => .bind h1.opnd fun ⟨_, _⟩ h2 => .after fun _ =>
    .pure h2.modMe.writeS

theorem Canonical.alu1 (h : s.Canonical) {gd w d a g} : Keeps (Machine.alu1 gd w d a g s) :=
  h.slotRun fun _ h' => .after fun _ => .bind h'.opnd fun ⟨_, _⟩ h1 => .pure h1.writeS

theorem Canonical.execSel (h : s.Canonical) {f} : Keeps (Machine.execSel f s) :=
  h.slotRun fun _ h' => .after fun _ => .bind h'.opnd fun ⟨_, _⟩ h1 => .bind h1.opnd fun ⟨_, _⟩ h2 => .pure h2.writeS

theorem Canonical.execMovi (h : s.Canonical) {f} : Keeps (Machine.execMovi f s) :=
  h.slotRun fun _ h' => .after fun _ => .pure h'.writeS

theorem Canonical.execMovsh (h : s.Canonical) {f} : Keeps (Machine.execMovsh f s) :=
  h.slotRun fun _ h' => .after fun _ => .pure h'.writeS

theorem Canonical.execCmp (h : s.Canonical) {f} : Keeps (Machine.execCmp f s) := by
  unfold Machine.execCmp
  refine h.slotRun fun _ h' => .bind h'.opnd fun ⟨_, _⟩ h1 => .bind h1.opnd fun ⟨_, _⟩ h2 => .pure ?_
  split
  · exact h2.setPred
  · exact h2.setPred
  · exact h2.setPred

theorem Canonical.execPlog (h : s.Canonical) {f} : Keeps (Machine.execPlog f s) := h.slotRun fun _ h' => .ok h'.setPred

theorem Canonical.take (h : s.Canonical) {tgt} : (s.take tgt).Canonical := h.modMe

theorem Canonical.branchTaint (h : s.Canonical) {gd m} : (s.branchTaint gd m).Canonical := h.taintUp

theorem Canonical.pushReturn (h : s.Canonical) : s.pushReturn.Canonical := h.modMe

theorem Canonical.execBr (h : s.Canonical) {f} : Keeps (Machine.execBr f s) := by
  unfold Machine.execBr
  refine h.slotRun fun _ h' => ?_
  split
  · exact .raise
  · exact .ok h'.branchTaint.take

theorem Canonical.execCall (h : s.Canonical) {f} : Keeps (Machine.execCall f s) := by
  unfold Machine.execCall
  refine h.slotRun fun _ h' => .ite .raise ?_
  split
  · exact .raise
  · exact .ok h'.branchTaint.pushReturn.take

theorem Canonical.execCalli (h : s.Canonical) {f} : Keeps (Machine.execCalli f s) := by
  unfold Machine.execCalli
  refine h.slotRun fun _ h' => .bind h'.opnd fun ⟨_, _⟩ h1 => .ite .raise ?_
  split
  · exact .raise
  · exact .after fun _ => .pure h1.branchTaint.pushReturn.take

theorem Canonical.execRet (h : s.Canonical) {f} : Keeps (Machine.execRet f s) := by
  unfold Machine.execRet
  dsimp only
  refine h.slotRun fun _ h' => ?_
  split
  · exact .ok h'.branchTaint.take.modMe
  · exact .ok h'.branchTaint.modMe.take

theorem Canonical.execBswap (h : s.Canonical) {f} :
    Keeps (Machine.execBswap f s) := h.slotRun fun _ h' => .ok h'.branchTaint.take

theorem Canonical.execIfence (h : s.Canonical) {f} : Keeps (Machine.execIfence f s) :=
  h.slotRun fun _ h' => .ite .blocked (.ok h')

end State

end Sys2Proof.Machine
end

section
/-! SUPPORT. Resets, mailbox requests, events of the module and placements keep memories canonical. -/

set_option Elab.async false

namespace Sys2Proof.Machine

variable {s t : State}

namespace State

/-! ## Units that retire (R130, R436) and partition reset (R437) -/

theorem Canonical.pruned (h : s.Canonical) {part} : (s.pruned part).Canonical := h.modPart.upd

/-- The contents behind ports that have gone are lost. -/
theorem Canonical.filterStack (h : s.Canonical) {p} : State.Canonical { s with stack := s.stack.filter p } := by
  obtain ⟨⟨hs, hh⟩, hrest⟩ := s.memWf_iff.1 h
  exact (State.memWf_iff _).2 ⟨⟨twf_filter 0 p _ hs, hh⟩, hrest⟩

/-- Units that retire take the memory behind their ports with them (R130). -/
theorem Canonical.retireUnits (h : s.Canonical) {us} : (s.retireUnits us).Canonical := by
  unfold State.retireUnits
  refine .ite h ?_
  extract_lets old s1 s2 s3 s4
  have h4 : s4.Canonical := .foldl (fun _ _ h' => h'.pruned) h.upd.upd.filterStack
  exact .ite h4 h4.upd

theorem Canonical.resetRecord (h : s.Canonical) {part l} : (s.resetRecord part l).Canonical := .ite h h.putRecord

/-- A reset empties the slices of the partition's cores (R437). -/
theorem Canonical.resetUnits (h : s.Canonical) {part d} : (s.resetUnits part d).Canonical :=
  .upd (.foldl (fun _ _ h' => .ite h'.modGroup h') (.foldl (fun _ _ h' => .ite h'.modQueue h')
    (.foldl (fun _ _ h' => h'.modCore_of_wf (twf_nil 0)) h)))

theorem Canonical.resetPartition (h : s.Canonical) {part new} : (s.resetPartition part new).Canonical := by
  unfold State.resetPartition
  extract_lets old s1 clk changed s2 s3 s4 s5 s6 held
  have h1 : s1.Canonical := .foldl (fun _ _ h' => h'.resetRecord) h
  have h2 : s2.Canonical := by
    dsimp only [s2, old]
    split
    · exact h1.resetUnits
    · exact h1
  have h3 : s3.Canonical := by
    dsimp only [s3]
    split
    · exact h2.resetUnits
    · exact h2
  have h6 : s6.Canonical := .foldl (fun _ _ h' => h'.copyObject) h3.modPart.modFunc
  exact h6.pruned.dropDone.retireUnits

end State

/-! ## The management mailbox (R450) -/

/-- What the service of a mailbox request gives has canonical memories. -/
def Served.Canonical (r : Served) : Prop := r.st.Canonical

theorem Served.Canonical.ite {c : Prop} [Decidable c] {a b : Served} (ha : a.Canonical) (hb : b.Canonical) :
    (if c then a else b).Canonical := by
  split <;> assumption

namespace State

theorem Canonical.refuse (h : s.Canonical) {code} : (s.refuse code).Canonical := h
theorem Canonical.refuseFree (h : s.Canonical) : s.refuseFree.Canonical := h.upd
theorem Canonical.refuseAt (h : s.Canonical) {code i} : (s.refuseAt code i).Canonical := h
theorem Canonical.done (h : s.Canonical) : s.done.Canonical := h
theorem Canonical.giving (h : s.Canonical) {data} : (s.giving data).Canonical := h

theorem Canonical.respond {r : Served} (h : r.Canonical) {fn hd part} : (State.respond fn hd part r).Canonical :=
  .modFunc (.upd (show r.st.Canonical from h))

/-- A mailbox request is refused or served, and the response is written. -/
theorem Canonical.serveRequest (h : s.Canonical) {fn op pf act} (ha : ∀ t p n b, t.Canonical → (act t p n b).Canonical) :
    (s.serveRequest fn op pf act).Canonical := by
  have hr {code hd} : (State.respond fn hd 0 (s.refuse code)).Canonical := .respond h.refuse
  unfold State.serveRequest
  split
  · exact h
  · refine .ite h ?_
    split
    · exact hr
    · exact .ite (.respond (ha _ _ _ _ h)) hr

theorem Canonical.execMailboxResponse (h : s.Canonical) {fn} : Keeps (Machine.execMailboxResponse fn s) := by
  unfold Machine.execMailboxResponse
  split
  · exact .next h
  · exact .ite (.next h) (.next (.ite h.hostPoke.modFunc h.hostPoke.modFunc.modPart))

theorem Canonical.execUnlistedMailboxOpcode (h : s.Canonical) {fn} : Keeps (Machine.execUnlistedMailboxOpcode fn s) := by
  unfold Machine.execUnlistedMailboxOpcode
  split
  · exact h
  · exact .next (.ite h (.respond h.refuse))

theorem Canonical.execInstallDescriptor (h : s.Canonical) {fn} : Keeps (Machine.execInstallDescriptor fn s) :=
  .next (h.serveRequest fun _ _ _ _ h' => .ite h'.refuseFree (.ite h'.resetPartition.done h'.refuse))

theorem Canonical.execResetPartitionRequest (h : s.Canonical) {fn} : Keeps (Machine.execResetPartitionRequest fn s) :=
  .next (h.serveRequest fun _ _ _ _ h' => h'.resetPartition.done)

theorem Canonical.dropStores (h : s.Canonical) {part base size} : (s.dropStores part base size).Canonical := h.upd

theorem Canonical.execWritePageTableEntries (h : s.Canonical) {fn} : Keeps (Machine.execWritePageTableEntries fn s) := by
  refine .next (h.serveRequest fun _ _ _ _ h' => .ite h'.refuseAt ?_)
  dsimp only
  split
  · exact h'.refuseAt
  · exact Canonical.foldl (fun _ _ h' => h'.dropStores) h'.modPart

theorem Canonical.applyRange (h : s.Canonical) {part r} : (s.applyRange part r).Canonical := by
  unfold State.applyRange
  extract_lets s1 s2
  have h1 : s1.Canonical := by
    dsimp only [s1]
    split
    · exact h.dropStores
    · exact h
  have h2 : s2.Canonical := h1.modPart
  exact .ite h2.dropStores h2

theorem Canonical.execRangeEntries (h : s.Canonical) {fn} : Keeps (Machine.execRangeEntries fn s) := by
  refine .next (h.serveRequest fun _ _ _ _ h' => .ite h'.refuseAt ?_)
  dsimp only
  split
  · exact h'.refuseAt
  · exact Canonical.foldl (fun _ _ h' => h'.applyRange) h'

theorem Canonical.execEgressWindow (h : s.Canonical) {fn} : Keeps (Machine.execEgressWindow fn s) :=
  .next (h.serveRequest fun _ _ _ _ h' => .ite h'.refuse (.ite h'.done (.ite h'.refuse (.ite h'.refuse (.ite h'.refuse
    (.ite h'.refuse h'.done))))))

theorem Canonical.execPublicationWindow (h : s.Canonical) {fn} : Keeps (Machine.execPublicationWindow fn s) :=
  .next (h.serveRequest fun _ _ _ _ h' => .ite h'.refuseFree h'.modPart.done)

theorem Canonical.execReleasePolicy (h : s.Canonical) {fn} : Keeps (Machine.execReleasePolicy fn s) :=
  .next (h.serveRequest fun _ _ _ _ h' => .ite h'.refuseFree (.ite h'.refuse h'.modPart.done))

theorem Canonical.execReadManifest (h : s.Canonical) {fn} : Keeps (Machine.execReadManifest fn s) :=
  .next (h.serveRequest fun _ _ _ _ h' => h'.giving)

theorem Canonical.execAttest (h : s.Canonical) {fn} : Keeps (Machine.execAttest fn s) :=
  .next (h.serveRequest fun _ _ _ _ h' => .ite h'.refuseFree h'.giving)

/-- A request of the debugger, for a core that it may act on. -/
theorem Canonical.debug (h : s.Canonical) {fn core act} (ha : ∀ t p, t.Canonical → (act t p).Canonical) :
    (s.debug fn core act).Canonical :=
  h.serveRequest fun _ _ _ _ h' => .ite (ha _ _ h') h'.refuse

theorem Canonical.execDebugAttach (h : s.Canonical) {fn} : Keeps (Machine.execDebugAttach fn s) :=
  .next (h.serveRequest fun _ _ _ _ h' => h'.modPart.done)

theorem Canonical.execDebugHalt (h : s.Canonical) {fn core} : Keeps (Machine.execDebugHalt fn core s) :=
  .next (h.debug fun _ _ h' => h'.haltCore.done)

theorem Canonical.execDebugResume (h : s.Canonical) {fn core} : Keeps (Machine.execDebugResume fn core s) := by
  refine .next (h.debug fun t _ h' => ?_)
  extract_lets s1 s2
  have h2 : s2.Canonical := .resumeCore (.foldl (fun _ _ h' => h'.endPre) h')
  exact Canonical.done (.ite h2.modCore h2)

theorem Canonical.execDebugPreemptContext (h : s.Canonical) {fn core ctx} :
    Keeps (Machine.execDebugPreemptContext fn core ctx s) :=
  .next (h.debug fun _ _ h' => .ite h'.askPre.preempt.done h'.refuse)

theorem Canonical.execDebugStateRead (h : s.Canonical) {fn core ctx num} :
    Keeps (Machine.execDebugStateRead fn core ctx num s) := by
  refine .next (h.debug fun _ _ h' => ?_)
  dsimp only
  split
  · exact .ite h'.giving h'.refuse
  · exact h'.refuse

theorem Canonical.execReadFaultRegisters (h : s.Canonical) {fn} : Keeps (Machine.execReadFaultRegisters fn s) :=
  .next (h.serveRequest fun _ _ _ _ h' => h'.giving)

theorem Canonical.execReadHarvestMap (h : s.Canonical) {fn} : Keeps (Machine.execReadHarvestMap fn s) :=
  .next (h.serveRequest fun _ _ _ _ h' => h'.upd.giving)

/-! ## Events of the module (R130, R434, R445 to R449) -/

theorem Canonical.execFunctionLevelReset (h : s.Canonical) {fn} : Keeps (Machine.execFunctionLevelReset fn s) := by
  unfold Machine.execFunctionLevelReset
  split
  · exact .next h
  · exact .next h.resetPartition

/-- What lies outside the module stays, and so does stack memory; the slices are empty (R447). -/
theorem Canonical.execModuleReset (h : s.Canonical) {failed} : Keeps (Machine.execModuleReset failed s) := by
  obtain ⟨hmem, hpeers, -⟩ := s.memWf_iff.1 h
  have hr : State.Canonical { State.reset with
      agenda := s.agenda, focus := s.focus, freeCount := s.freeCount, host0 := s.host0, host1 := s.host1, peers := s.peers
      stack := s.stack } := (State.memWf_iff _).2 ⟨hmem, hpeers, List.forall_mem_nil _⟩
  exact .next (.ite hr.upd hr.upd)

theorem Canonical.execMeshRoutesInstalled (h : s.Canonical) : Keeps (Machine.execMeshRoutesInstalled s) := .next (.ite h.upd h)

/-- An update of every core that leaves its slice alone. -/
theorem Canonical.mapCores (h : s.Canonical) {f : Core → Core} (hf : ∀ k, (f k).slice = k.slice := by exact fun _ => rfl) :
    State.Canonical { s with cores := s.cores.map (fun e => (e.1, f e.2)) } := by
  obtain ⟨hmem, hpeers, hcores⟩ := s.memWf_iff.1 h
  refine (State.memWf_iff _).2 ⟨hmem, hpeers, fun e he => ?_⟩
  obtain ⟨d, hd, rfl⟩ := List.mem_map.1 he
  exact (hf d.2).symm ▸ hcores d hd

theorem Canonical.failRead (h : s.Canonical) {id} : (s.failRead id).Canonical := by
  unfold State.failRead
  split
  · exact h
  · refine .raiseAsync (.releaseHeld ?_)
    exact .upd (h.mapCores (f := fun k => { k with feWait := k.feWait.filter (fun i => i != id) }))

theorem Canonical.failStore (h : s.Canonical) {id} : (s.failStore id).Canonical := by
  unfold State.failStore
  split
  · exact h
  · exact .ite h.failWrite h.modWrite.dropDone.raiseAsync

theorem Canonical.failAtomic (h : s.Canonical) {id} : (s.failAtomic id).Canonical := by
  unfold State.failAtomic
  split
  · exact h
  · exact h.upd.raiseAsync

theorem Canonical.failWalk (h : s.Canonical) {die m} : (s.failWalk die m).Canonical :=
  .foldl (fun _ _ h' => h'.modEntry) (.foldl (fun _ _ h' => h'.failRead.failStore.failAtomic) h.modDie)

/-- An error response ends what waited for it, by the kind of its request (R434). -/
theorem Canonical.execErrorResponse (h : s.Canonical) {r} : Keeps (Machine.execErrorResponse r s) := by
  cases r with
  | read id => exact h.failRead
  | write id => exact h.failStore
  | atomic id => exact h.failAtomic
  | walk die entry =>
    unfold Machine.execErrorResponse
    dsimp only
    split
    · exact .next (.ite h.failWalk h)
    · exact h
  | plane core =>
    unfold Machine.execErrorResponse
    dsimp only
    split
    · exact h.callFault
    · exact h
  | digest part va => exact h.digestError

theorem Canonical.failCopies (h : s.Canonical) {es} : (Machine.failCopies es s).Canonical := by
  refine .foldl (fun _ _ h' => ?_) h
  dsimp only
  split
  · exact h'.modEntry
  · split
    · exact .ite h'.modEntry h'.modEntry.failEntry
    · exact h'.modEntry

theorem Canonical.setLink (h : s.Canonical) {link up} : (s.setLink link up).Canonical := .ite h.upd h.upd

theorem Canonical.execLinkRetrainOrDrop (h : s.Canonical) {link drop} : Keeps (Machine.execLinkRetrainOrDrop link drop s) :=
  .ite (.next h) (.next h.setLink.failCopies.setLink)

theorem Canonical.execPeerPortTrained (h : s.Canonical) {port} : Keeps (Machine.execPeerPortTrained port s) :=
  .next (.ite h.upd h)

theorem Canonical.execPeerPortTrainingLoss (h : s.Canonical) {port} : Keeps (Machine.execPeerPortTrainingLoss port s) :=
  .next h.upd.failCopies

theorem Canonical.execPowerWindowEnd (h : s.Canonical) {milliwatts} : Keeps (Machine.execPowerWindowEnd milliwatts s) :=
  .next h.upd

theorem Canonical.execFrequencyChange (h : s.Canonical) {part} : Keeps (Machine.execFrequencyChange part s) := by
  unfold Machine.execFrequencyChange
  split
  · exact .next h
  · exact .next h.modPart

theorem Canonical.execIslandOvertemp (h : s.Canonical) {island} : Keeps (Machine.execIslandOvertemp island s) :=
  .ite (.next h) (.next h.upd)

theorem Canonical.execIslandCooled (h : s.Canonical) {part} : Keeps (Machine.execIslandCooled part s) := .next h.upd

theorem Canonical.execThermalTrip (h : s.Canonical) : Keeps (Machine.execThermalTrip s) :=
  .next (.upd (.foldl (fun _ _ h' => h'.resetPartition) h))

theorem Canonical.execCorrectableError (h : s.Canonical) {u} : Keeps (Machine.execCorrectableError u s) := .next h.upd

/-! ## Placement and load (R89 to R96) -/

theorem Canonical.areaPut (h : s.Canonical) {part va bs} : (s.areaPut part va bs).Canonical := h.procPut

theorem Canonical.writeArea (h : s.Canonical) {part img vs base again} : (s.writeArea part img vs base again).Canonical :=
  .foldl (fun _ _ h' => .ite h'.areaPut (.foldl (fun _ _ h2 => h2.areaPut) h')) h

end State

/-- Resident microprograms leave the slice as it is. -/
theorem Core.installResident_slice (k : Core) (ms : List MicroRec) : (k.installResident ms).slice = k.slice := by
  unfold Core.installResident
  refine List.foldlRecOn (motive := fun a : Core × Nat => a.1.slice = k.slice) _ _ rfl fun a ha i _ => ?_
  split <;> exact ha

/-- A placement leaves the slice as it is (R232). -/
theorem Core.placed_slice (k : Core) (o : Owner) (code : List Byte) (img : Image) (ds : List DeclRec) :
    (k.placed o code img ds).slice = k.slice := by
  unfold Core.placed
  refine List.foldlRecOn (motive := fun a : Core => a.slice = k.slice) _ _ (Core.installResident_slice _ _) fun a ha d _ => ?_
  split
  · split <;> exact ha
  · exact ha
  · exact ha

namespace State

theorem Canonical.fillCores (h : s.Canonical) {part l img vs cores} : (s.fillCores part l img vs cores).Canonical :=
  .foldl (fun _ _ h' => h'.modCtx) (.foldl (fun _ _ h' => h'.modCore fun k => k.placed_slice _ _ _ _) h)

theorem Canonical.rejoin (h : s.Canonical) {part num} : (s.rejoin part num).Canonical := .foldl (fun _ _ h' => h'.viewGroup) h

theorem Canonical.placeOn (h : s.Canonical) {part l img cores} : (s.placeOn part l img cores).Canonical :=
  .ite h.upd.writeArea.fillCores.modLaunch.rejoin.modPart h.upd.writeArea.fillCores.modLaunch.rejoin.modPart.stallPart

theorem Canonical.checkLaunch (h : s.Canonical) {part l} : (s.checkLaunch part l).Canonical := by
  unfold State.checkLaunch
  dsimp only
  split
  · exact h.endUnrun
  · exact h.endUnrun
  · split
    · exact h.endUnrun
    · split
      · exact h.modLaunch.endUnrun
      · exact h.modLaunch.modLaunch

theorem Canonical.execPlaceAndLoad (h : s.Canonical) {part} : Keeps (Machine.execPlaceAndLoad part s) := by
  unfold Machine.execPlaceAndLoad
  dsimp only
  refine .ite (.next h) ?_
  split
  · exact .next h
  · split
    · exact .next (.ite h h.checkLaunch)
    · split
      · exact .ite (.next (.ite h h.checkLaunch)) (.next (.placeOn (.ite h h.checkLaunch)))
      · exact .next (.ite h h.checkLaunch)

end State

end Sys2Proof.Machine
end

section
/-! SUPPORT. Vector instructions keep memories canonical. -/

set_option Elab.async false

namespace Sys2Proof.Machine

variable {s t : State}

namespace State

/-! ## Lanes, masks, reductions and conversion (R311 to R329) -/

theorem Canonical.writeVF (h : s.Canonical) {L wr d w r m} : (s.writeVF L wr d w r m).Canonical := h.writeV.flagsIn

theorem Canonical.vop1 (h : s.Canonical) {L e fl gov gd wr d a width g legal} :
    Keeps (Machine.vop1 L e fl gov gd wr d a width g s legal) := by
  unfold Machine.vop1
  exact h.slotRun fun _ h' => .bind (.both h'.opndv) fun ⟨_, _⟩ h1 => .after fun _ => .pure h1.writeVF

theorem Canonical.vop2 (h : s.Canonical) {L e fl gov gd wr d a b width g} :
    Keeps (Machine.vop2 L e fl gov gd wr d a b width g s) := by
  unfold Machine.vop2
  exact h.slotRun fun _ h' => .bind (.both h'.opndv2) fun ⟨_, _, _⟩ h1 => .pure h1.writeVF

theorem Canonical.vop3 (h : s.Canonical) {L e fl gov gd wr d a b width g} :
    Keeps (Machine.vop3 L e fl gov gd wr d a b width g s) := by
  unfold Machine.vop3
  exact h.slotRun fun _ h' => .bind (.both h'.opndv2) fun ⟨_, _, _⟩ h1 => .pure h1.writeVF

theorem Canonical.vop1d (h : s.Canonical) {L e gd wr d a width g legal} :
    Keeps (Machine.vop1d L e gd wr d a width g s legal) := by
  unfold Machine.vop1d
  exact h.slotRun fun _ h' => .bind (.both h'.opndv) fun ⟨_, _⟩ h1 => .after fun _ => .pure h1.writeV

theorem Canonical.flt2 (h : s.Canonical) {L g f} : Keeps (Machine.flt2 L g f s) := by
  unfold Machine.flt2
  exact h.vop2

theorem Canonical.flt3 (h : s.Canonical) {g f} : Keeps (Machine.flt3 g f s) := by
  unfold Machine.flt3
  exact h.vop3

theorem Canonical.fltMinMax (h : s.Canonical) {wantMax f} : Keeps (Machine.fltMinMax wantMax f s) := by
  unfold Machine.fltMinMax
  exact h.vop2

theorem Canonical.fltSign (h : s.Canonical) {g f} : Keeps (Machine.fltSign g f s) := by
  unfold Machine.fltSign
  exact h.vop1

theorem Canonical.fltFn (h : s.Canonical) {L fn f} : Keeps (Machine.fltFn L fn f s) := h.vop1

theorem Canonical.int2 (h : s.Canonical) {L g f} : Keeps (Machine.int2 L g f s) := by
  unfold Machine.int2
  exact h.vop2

theorem Canonical.execVimad (h : s.Canonical) {f} : Keeps (Machine.execVimad f s) := by
  unfold Machine.execVimad
  exact h.vop3

theorem Canonical.bits2 (h : s.Canonical) {g f} : Keeps (Machine.bits2 g f s) := by
  unfold Machine.bits2
  exact h.vop2

theorem Canonical.execVsar (h : s.Canonical) {f} : Keeps (Machine.execVsar f s) := h.bits2

theorem Canonical.writeK (h : s.Canonical) {kd bits v m} : (s.writeK kd bits v m).Canonical := h.quiet

theorem Canonical.vcompare (h : s.Canonical) {e fl gd kd a b width g} : Keeps (Machine.vcompare e fl gd kd a b width g s) := by
  unfold Machine.vcompare
  exact h.slotRun fun _ h' => .bind h'.opndv2 fun ⟨_, _, _⟩ h1 => .pure h1.writeK.flagsIn

theorem Canonical.execVcmp (h : s.Canonical) {f} : Keeps (Machine.execVcmp f s) := h.vcompare

theorem Canonical.execVicmp (h : s.Canonical) {f} : Keeps (Machine.execVicmp f s) := h.vcompare

theorem Canonical.execVmrg (h : s.Canonical) {f} : Keeps (Machine.execVmrg f s) := by
  unfold Machine.execVmrg
  exact h.slotRun fun _ h' => .bind (.both h'.opndv) fun ⟨_, _⟩ h1 => .pure h1.writeV

theorem Canonical.execKlog (h : s.Canonical) {f} : Keeps (Machine.execKlog f s) := h.slotRun fun _ h' => .ok h'.writeK

theorem Canonical.execVred (h : s.Canonical) {f} : Keeps (Machine.execVred f s) := by
  unfold Machine.execVred
  exact h.vop1

theorem Canonical.execVperm (h : s.Canonical) {f} : Keeps (Machine.execVperm f s) := by
  unfold Machine.execVperm
  exact h.vop2

theorem Canonical.execVbcast (h : s.Canonical) {f} : Keeps (Machine.execVbcast f s) := by
  unfold Machine.execVbcast
  exact h.vop1

theorem Canonical.execVextr (h : s.Canonical) {f} : Keeps (Machine.execVextr f s) := by
  unfold Machine.execVextr
  exact h.vop1

theorem Canonical.execVins (h : s.Canonical) {f} : Keeps (Machine.execVins f s) := by
  unfold Machine.execVins
  exact h.vop1d

theorem Canonical.pushPort (h : s.Canonical) {q v m} : Answers Canonical (s.pushPort q v m) := by
  unfold State.pushPort
  split
  · exact .raise
  · exact .ite .raise (.ite .raise (.ite .blocked (.ok h.modMe)))

theorem Canonical.execVmovPush (h : s.Canonical) {f} : Keeps (Machine.execVmovPush f s) := by
  unfold Machine.execVmovPush
  exact h.slotRun fun _ h' => .both (.bind (.needed h'.opndv) fun ⟨_, _⟩ h1 => .bind h1.pushPort fun _ h2 => .pure h2.writeV)

theorem Canonical.execVcvt (h : s.Canonical) {f} : Keeps (Machine.execVcvt f s) := by
  unfold Machine.execVcvt
  exact h.vop1

theorem Canonical.execVpack (h : s.Canonical) {f} : Keeps (Machine.execVpack f s) := h.vop1d

theorem Canonical.execVunpk (h : s.Canonical) {f} : Keeps (Machine.execVunpk f s) := h.vop1

/-! ## Vector memory access (R280 to R282) -/

theorem Canonical.lookUpAll (h : s.Canonical) {each id es} : (s.lookUpAll each id es).Canonical := by
  induction es generalizing s id with
  | nil => exact h
  | cons e es ih => exact ih h.lookUp

theorem Canonical.opnd1 (h : s.Canonical) {o} : Answers (fun r => r.2.Canonical) (s.opnd1 o) := by
  unfold State.opnd1
  split
  · exact h.opndv
  · exact h.opndv
  · exact h.opndv
  · exact .raise

theorem Canonical.vecOffset (h : s.Canonical) {o} : Answers (fun r => r.2.Canonical) (s.vecOffset o) := by
  unfold State.vecOffset
  split
  · exact .ok h
  · exact .bind h.opnd1 fun ⟨_, _⟩ h1 => .pure h1

theorem Canonical.landsBy (h : s.Canonical) {id due} : (s.landsBy id due).Canonical := by
  unfold State.landsBy
  split
  · exact h
  · exact h.readHome.upd

theorem Canonical.vecLoad (h : s.Canonical) {sp wr d w m pend} : Answers Canonical (s.vecLoad sp wr d w m pend) :=
  .after fun _ => .after fun _ => .ite (.pure (.ite h.lookUpAll.request.knowing.landsBy h.lookUpAll.request.knowing))
    (.pure h.lookUpAll.loadBytes)

theorem Canonical.execVld (h : s.Canonical) {f} : Keeps (Machine.execVld f s) :=
  h.accessRun fun _ h' => .after fun _ => .bind h'.opnd1 fun ⟨_, _⟩ h1 => .bind h1.vecOffset fun ⟨_, _⟩ h2 => .after fun _ =>
    h2.vecLoad

theorem Canonical.execVlds (h : s.Canonical) {f} : Keeps (Machine.execVlds f s) :=
  h.accessRun fun _ h' => .after fun _ => .bind h'.opnd1 fun ⟨_, _⟩ h1 => .bind h1.vecOffset fun ⟨_, _⟩ h2 => .after fun _ =>
    h2.vecLoad

theorem Canonical.execVgather (h : s.Canonical) {f} : Keeps (Machine.execVgather f s) :=
  h.accessRun fun _ h' => .after fun _ => .bind h'.opnd1 fun ⟨_, _⟩ h1 => .bind h1.opnd1 fun ⟨_, _⟩ h2 => .after fun _ =>
    h2.vecLoad

theorem Canonical.sendAll (h : s.Canonical) {m es} : (s.sendAll m es).Canonical := by
  induction es generalizing s with
  | nil => exact h
  | cons e es ih => exact ih h.sendWrite

theorem Canonical.execVst (h : s.Canonical) {f} : Keeps (Machine.execVst f s) :=
  h.accessRun fun _ h' => .after fun _ => .bind h'.opnd1 fun ⟨_, _⟩ h1 => .bind h1.vecOffset fun ⟨_, _⟩ h2 => .after fun _ =>
    .after fun _ => .after fun _ => .pure h2.lookUp.sendAll

theorem Canonical.execVscatter (h : s.Canonical) {f} : Keeps (Machine.execVscatter f s) :=
  h.accessRun fun _ h' => .after fun _ => .bind h'.opnd1 fun ⟨_, _⟩ h1 => .bind h1.opnd1 fun ⟨_, _⟩ h2 => .after fun _ =>
    .after fun _ => .after fun _ => .pure h2.lookUpAll.sendAll

end State

end Sys2Proof.Machine
end

section
/-! SUPPORT. Every instruction, every cycle and every step keeps memories canonical. -/

set_option Elab.async false

namespace Sys2Proof.Machine

variable {s t : State}

namespace State

/-! ## Every instruction, micro-op and event -/

/-- The shape of each instruction, micro-op and event: those of one shape share its lemma. -/
theorem Canonical.exec (h : s.Canonical) {i} : Keeps (Machine.exec i s) :=
  match i with
  | .nop _ => h.verdict
  | .add _ | .sub _ | .mul _ | .mulh _ | .mulhu _ | .and _ | .or _ | .xor _ | .shl _ | .shr _ | .sar _ | .min _ | .max _ |
    .minu _ | .maxu _ => h.alu2
  | .div _ | .divu _ | .rem _ | .remu _ => h.divide
  | .andn f => show Keeps (execAndn f s) from h.alu2
  | .clz _ | .ctz _ | .popc _ => h.alu1
  | .sel _ => h.execSel
  | .addi f => show Keeps (execAddi f s) from h.alu1
  | .andi f => show Keeps (execAndi f s) from h.alu1
  | .ori f => show Keeps (execOri f s) from h.alu1
  | .xori f => show Keeps (execXori f s) from h.alu1
  | .shli f => show Keeps (execShli f s) from h.alu1
  | .shri f => show Keeps (execShri f s) from h.alu1
  | .sari f => show Keeps (execSari f s) from h.alu1
  | .movi _ => h.execMovi
  | .movsh _ => h.execMovsh
  | .cmp _ => h.execCmp
  | .plog _ => h.execPlog
  | .br _ => h.execBr
  | .call _ => h.execCall
  | .calli _ => h.execCalli
  | .ret _ => h.execRet
  | .bswap _ => h.execBswap
  | .ifence _ => h.execIfence
  | .ld _ | .lds _ => h.scalarLoad
  | .st _ => h.execSt
  | .ldfe _ => h.execLdfe
  | .stfe _ => h.execStfe
  | .pld _ => h.execPld
  | .xmov _ => h.execXmov
  | .sysr _ => h.execSysr
  | .sysw _ => h.execSysw
  | .setfmt _ => h.execSetfmt
  | .lda _ => h.execLda
  | .stl _ => h.execStl
  | .fence _ => h.execFence
  | .vsync _ => h.execVsync
  | .aadd _ | .aand _ | .aor _ | .axor _ | .amin _ | .amax _ | .aminu _ | .amaxu _ | .aswap _ => h.atomic
  | .acas _ => h.execAcas
  | .afadd _ => h.execAfadd
  | .axread _ => h.execAxread
  | .axclr _ => h.execAxclr
  | .gjoin _ => h.execGjoin
  | .gleave _ => h.execGleave
  | .gbar _ => h.execGbar
  | .gquery _ => h.execGquery
  | .snapadv _ => h.execSnapadv
  | .phase _ => h.execPhase
  | .lblget _ => h.execLblget
  | .lblraise _ => h.execLblraise
  | .trap _ => h.slotRun fun _ h' => .ok h'.strike
  | .eret _ => h.execEret
  | .yield _ => h.execYield
  | .waite _ => h.execWaite
  | .haltctx _ => h.execHaltctx
  | .dbgbrk _ => h.execDbgbrk
  | .vadd _ | .vmul _ => h.flt2
  | .vsub f => show Keeps (execVsub f s) from h.flt2
  | .vfma _ => h.flt3
  | .vfms f => show Keeps (execVfms f s) from h.flt3
  | .vmin _ | .vmax _ => h.fltMinMax
  | .vabs f => show Keeps (execVabs f s) from h.fltSign
  | .vneg f => show Keeps (execVneg f s) from h.fltSign
  | .vrcp _ | .vrsq _ | .vsqrt _ | .vexp2 _ | .vlog2 _ => h.fltFn
  | .vcmp _ => h.execVcmp
  | .viadd _ | .visub _ | .vimul _ | .vimin _ | .vimax _ => h.int2
  | .vimad _ => h.execVimad
  | .vicmp _ => h.execVicmp
  | .vand f => show Keeps (execVand f s) from h.bits2
  | .vor f => show Keeps (execVor f s) from h.bits2
  | .vxor f => show Keeps (execVxor f s) from h.bits2
  | .vandn f => show Keeps (execVandn f s) from h.bits2
  | .vshl f => show Keeps (execVshl f s) from h.bits2
  | .vshr f => show Keeps (execVshr f s) from h.bits2
  | .vsar _ => h.execVsar
  | .vmrg _ => h.execVmrg
  | .vred _ => h.execVred
  | .vperm _ => h.execVperm
  | .vbcast _ => h.execVbcast
  | .vextr _ => h.execVextr
  | .vins _ => h.execVins
  | .vcvt _ => h.execVcvt
  | .vpack _ => h.execVpack
  | .vunpk _ => h.execVunpk
  | .vmov f => show Keeps (execVmov f s) from h.vop1
  | .vmovPush _ => h.execVmovPush
  | .klog _ => h.execKlog
  | .vld _ => h.execVld
  | .vst _ => h.execVst
  | .vlds _ => h.execVlds
  | .vgather _ => h.execVgather
  | .vscatter _ => h.execVscatter
  | .dnorm _ => h.execDnorm
  | .dunnorm _ => h.execDunnorm
  | .dmov _ | .dneg _ => h.dir1
  | .dmovRaw _ => h.execDmovRaw
  | .dzero _ => h.execDzero
  | .ddot _ => h.execDdot
  | .dscale _ => h.execDscale
  | .dadd _ | .dsub _ | .dmul _ => h.dir2
  | .dmaxcos _ => h.execDmaxcos
  | .dnget _ => h.execDnget
  | .dnset _ => h.execDnset
  | .mload _ => h.execMload
  | .mcall _ => h.execMcall
  | .rset _ => h.execRset
  | .rpush _ => h.execRpush
  | .rstat _ => h.execRstat
  | .sbind _ => h.execSbind
  | .sunbind _ => h.execSunbind
  | .scfgSeek _ => h.execScfgSeek
  | .scfgRep _ => h.execScfgRep
  | .crec _ => h.execCrec
  | .copy _ => h.execCopy
  | .cresumePatch _ => h.execCresumePatch
  | .cresumeRetry _ => h.execCresumeRetry
  | .cresumeSkip _ => h.execCresumeSkip
  | .cstat _ => h.execCstat
  | .hset _ => h.execHset
  | .hwait _ => h.execHwait
  | .hwaitClaim _ => h.handleWait
  | .hquery _ => h.execHquery
  | .trcfg _ => h.execTrcfg
  | .trpush _ => h.execTrpush
  | .trpull _ => h.execTrpull
  | .bclear _ => h.execBclear
  | .release _ => h.execRelease
  | .publish _ => h.execPublish
  | .rndseek _ => h.execRndseek
  | .rndstat _ => h.execRndstat
  | .step _ => h.execStep
  | .steph _ => h.execSteph
  | .slide _ => h.execSlide
  | .shift _ => h.execShift
  | .inj _ => h.execInj
  | .clrp _ => h.execClrp
  | .ldp _ => h.execLdp
  | .drnp _ => h.execDrnp
  | .hexp => h.execHexp
  | .hmrg _ => h.execHmrg
  | .bndm _ => h.execBndm
  | .uloop _ => h.execUloop
  | .uend => h.execUend
  | .uwait _ => h.execUwait
  | .uret => h.execUret
  | .planeCallStart _ => h.execPlaneCallStart
  | .haloGrant _ => h.execHaloGrant
  | .haloArrival _ _ => h.execHaloArrival
  | .notify _ _ | .objset _ _ | .ephconsWrite _ _ | .loglimitWrite _ _ | .logprodWrite _ _ | .registerWrite _ _ _ =>
      h.writePage
  | .queueEnable _ _ => h.execQueueEnable
  | .teardown _ _ => h.execTeardown
  | .teardownAbort _ _ => h.execTeardownAbort
  | .packetAccept _ _ => h.execPacketAccept
  | .placeAndLoad _ => h.execPlaceAndLoad
  | .contextRetirement _ _ => h.finishRetire
  | .launchRetirement _ => h.execLaunchRetirement
  | .ephemerisRecordWrite _ => h.execEphemerisRecordWrite
  | .tenantPreemptionSave _ => h.execTenantPreemptionSave
  | .resultWriteback _ _ => h.execResultWriteback
  | .fmtTakesEffect _ _ => h.execFmtTakesEffect
  | .pendingResultLands _ => h.execPendingResultLands
  | .trapDelivery _ _ => h.execTrapDelivery
  | .terminalTrap _ _ => h.execTerminalTrap
  | .contextPreemption _ _ => h.preempt
  | .contextResume _ _ => h.resume
  | .copyBegin _ => h.execCopyBegin
  | .copyComplete _ _ _ => h.execCopyComplete
  | .copyElementFault _ _ _ _ => h.execCopyElementFault
  | .ringTailAdvance _ _ => h.execRingTailAdvance
  | .streamReadahead _ _ => h.execStreamReadahead
  | .streamPushWrite _ _ => h.execStreamPushWrite
  | .transposeColumnReady _ => h.storeColumn
  | .randomVectorProduce _ => h.makeRandom
  | .walkStart _ => h.execWalkStart
  | .walkComplete _ _ => h.execWalkComplete
  | .homeWrite _ => h.execHomeWrite
  | .remoteWriteApply _ _ => h.execRemoteWriteApply
  | .replicaUpdate _ _ => h.execReplicaUpdate
  | .homeReadService _ _ _ => h.execHomeReadService
  | .writeAcknowledge _ => h.execWriteAcknowledge
  | .errorResponse _ => h.execErrorResponse
  | .fullEmptyService _ _ => h.execFullEmptyService
  | .atomicService _ => h.execAtomicService
  | .atomicRetryTimeout _ => h.execAtomicRetryTimeout
  | .atomicAck _ => h.execAtomicAck
  | .serialiserStamp => h.execSerialiserStamp
  | .vsyncComplete _ _ => h.execVsyncComplete
  | .groupRequestApply => h.execGroupRequestApply
  | .snapadvComplete _ _ => h.execSnapadvComplete
  | .releaseGateDecision => h.execReleaseGateDecision
  | .publishVersionWrite _ _ _ => h.execPublishVersionWrite
  | .objectAnswerDelivery _ _ => h.execObjectAnswerDelivery
  | .installDescriptor _ => h.execInstallDescriptor
  | .writePageTableEntries _ => h.execWritePageTableEntries
  | .rangeEntries _ => h.execRangeEntries
  | .egressWindow _ => h.execEgressWindow
  | .publicationWindow _ => h.execPublicationWindow
  | .releasePolicy _ => h.execReleasePolicy
  | .resetPartitionRequest _ => h.execResetPartitionRequest
  | .readManifest _ => h.execReadManifest
  | .attest _ => h.execAttest
  | .debugAttach _ => h.execDebugAttach
  | .debugHalt _ _ => h.execDebugHalt
  | .debugResume _ _ => h.execDebugResume
  | .debugPreemptContext _ _ _ => h.execDebugPreemptContext
  | .debugStateRead _ _ _ _ => h.execDebugStateRead
  | .readFaultRegisters _ => h.execReadFaultRegisters
  | .readHarvestMap _ => h.execReadHarvestMap
  | .mailboxResponse _ => h.execMailboxResponse
  | .functionLevelReset _ => h.execFunctionLevelReset
  | .meshRoutesInstalled => h.execMeshRoutesInstalled
  | .moduleReset _ => h.execModuleReset
  | .linkRetrainOrDrop _ _ => h.execLinkRetrainOrDrop
  | .peerPortTrained _ => h.execPeerPortTrained
  | .peerPortTrainingLoss _ => h.execPeerPortTrainingLoss
  | .powerWindowEnd _ => h.execPowerWindowEnd
  | .frequencyChange _ => h.execFrequencyChange
  | .islandOvertemp _ => h.execIslandOvertemp
  | .islandCooled _ => h.execIslandCooled
  | .thermalTrip => h.execThermalTrip
  | .correctableError _ => h.execCorrectableError
  | .errorWindowEnd => .next (.ite h.upd h)
  | .unlistedMailboxOpcode _ => h.execUnlistedMailboxOpcode

/-! ## One island cycle of a core (R160, R161, R168 to R175) -/

theorem Canonical.sliceFrom (h : s.Canonical) {core k} (hk : Memory.wf k.slice = true) : (s.sliceFrom core k).Canonical :=
  h.modCore_of_wf hk

theorem Canonical.focusOn (h : s.Canonical) {core ctx slot ext} : (s.focusOn core ctx slot ext).Canonical := h.upd

theorem Canonical.refocus (h : s.Canonical) {slot} : (s.refocus slot).Canonical := h.upd

/-- One slot acts, whether or not it reads its slice as it was before. -/
theorem Canonical.actSlot (h : s.Canonical) {core old e} (ho : ∀ k, old = some k → Memory.wf k.slice = true) :
    Keeps (Machine.actSlot core old e s) := by
  have hr : (s.refocus e.1).Canonical := h.refocus
  unfold Machine.actSlot
  dsimp only
  split
  · rename_i k _
    have hx := (hr.sliceFrom (core := core) (ho k rfl)).exec (i := e.2)
    split <;> rename_i hn
    · rw [hn] at hx
      exact Canonical.sliceFrom hx (core_slice_wf hr core)
    · exact hx
  · exact hr.exec

/-- The slots of a bundle in order; the slice that a later slot reads, as it was before one wrote it, is canonical too. -/
theorem Canonical.runSlots (h : s.Canonical) {core old es} (ho : ∀ k, old = some k → Memory.wf k.slice = true) :
    Keeps (Machine.runSlots core old es s) := by
  induction es generalizing s old with
  | nil => exact h
  | cons e es ih =>
    have ha := h.actSlot (core := core) (e := e) ho
    unfold Machine.runSlots
    split <;> rename_i hx
    · rw [hx] at ha
      refine .ite (ih ha fun k hk => ?_) ha
      split at hk
      · cases old with
        | none =>
          cases hk
          exact core_slice_wf h core
        | some k' => exact ho k hk
      · exact ho k hk
    · exact ha

/-- The bundles that the nullifier skips, by induction on their bound (R171). -/
theorem Canonical.skipping (h : s.Canonical) {n core ctx} : Keeps (State.skipping n core ctx s) := by
  induction n generalizing s with
  | zero => exact h
  | succ n ih =>
    unfold State.skipping
    split
    · exact h
    · rename_i b _
      refine .ite ?_ h
      have hr : Keeps (Machine.runSlots core none (liveOps b) (s.focusOn core ctx 0 (bundleExt b))) :=
        h.focusOn.runSlots (by simp)
      split <;> rename_i hx
      · rw [hx] at hr
        exact ih (Canonical.modCore (Canonical.modCtx hr))
      · exact hr

theorem Canonical.issued (h : s.Canonical) {core ctx pc bankMask} : (s.issued core ctx pc bankMask).Canonical := by
  unfold State.issued
  extract_lets sw struck ended s1 now s2 s3 s4
  have h1 : s1.Canonical := h.modCore
  have h2 : s2.Canonical := by
    dsimp only [s2]
    split
    · exact h1
    · exact h1.modLaunch
  have h3 : s3.Canonical := .ite h2.decided h2
  have h4 : s4.Canonical := h3.modCtx
  exact .ite h4 h4.pass

end State

/-- An attempt that issues or stops has canonical memories. -/
def Attempt.Canonical : Attempt → Prop
  | .issues t => t.Canonical
  | .stops o => Keeps o
  | _ => True

theorem Attempt.Canonical.ite {c : Prop} [Decidable c] {a b : Attempt} (ha : a.Canonical) (hb : b.Canonical) :
    (if c then a else b).Canonical := by
  split <;> assumption

namespace State

/-- A bundle that issues has run its slots; one that does not leaves the state to `settle`. -/
theorem Canonical.tryBundle (h : s.Canonical) {core ctx b} : (s.tryBundle core ctx b).Canonical := by
  unfold State.tryBundle
  extract_lets k x det extra s0 vs
  have h0 : s0.Canonical := h.focusOn.modCtx
  have hr : Keeps (Machine.runSlots core none (actOrder (liveOps b)) s0) := h0.runSlots (by simp)
  refine .ite trivial (.ite trivial ?_)
  split
  · trivial
  · split
    · trivial
    · refine .ite (.ite trivial trivial) ?_
      split
      · trivial
      · trivial
      · split <;> rename_i hx
        · rw [hx] at hr
          split
          · trivial
          · trivial
          · trivial
          · exact Canonical.issued hr
        · exact hr

/-- A state and an attempt from it, both with canonical memories. -/
def Attempted (r : State × Attempt) : Prop := r.1.Canonical ∧ r.2.Canonical

theorem Attempted.ite {c : Prop} [Decidable c] {a b : State × Attempt} (ha : Attempted a) (hb : Attempted b) :
    Attempted (if c then a else b) := by
  split <;> assumption

theorem Canonical.attempt (h : s.Canonical) {core ctx} : Attempted (s.attempt core ctx) := by
  unfold State.attempt
  refine .ite ⟨h, trivial⟩ (.ite ⟨h, trivial⟩ (.ite ⟨h, trivial⟩ (.ite ⟨h, trivial⟩ (.ite ⟨h, trivial⟩ ?_))))
  split
  · exact .ite ⟨h, trivial⟩ ⟨h, trivial⟩
  · have hk := h.skipping (n := if (s.core core).last == some ctx && (s.ctx core ctx).stall == 0 then 3 else 0)
      (core := core) (ctx := ctx)
    split <;> rename_i hx
    · rw [hx] at hk
      split
      · exact ⟨hk, trivial⟩
      · exact ⟨hk, Canonical.tryBundle hk⟩
    · exact ⟨h, hk⟩

theorem Canonical.idle (h : s.Canonical) {core} : (s.idle core).Canonical := h.modCore

theorem Canonical.noteBlock (h : s.Canonical) {core ctx code} : (s.noteBlock core ctx code).Canonical := h.modCtx

theorem Canonical.hold (h : s.Canonical) {core ctx} : (s.hold core ctx).Canonical := h.modCore

theorem Canonical.yieldSlot (h : s.Canonical) {core ctx} : (s.yieldSlot core ctx).Canonical := h.modCore

theorem Canonical.afterTrap (h : s.Canonical) {core ctx} : (s.afterTrap core ctx).Canonical := .ite h.hold h.yieldSlot

/-- What the cycle does with an attempt. -/
theorem Canonical.settle (h : s.Canonical) {core ctx a} (ha : a.Canonical) : Keeps (s.settle core ctx a).1 := by
  cases a with
  | absent => exact h
  | blocks n => exact h.noteBlock
  | traps f => exact h.takeTrap.afterTrap.idle
  | takesStrike => exact h.takeStrike.afterTrap.idle
  | takesAsync => exact h.takeAsync.afterTrap.idle
  | stalls => exact h.modCtx.modCore
  | issues t => exact ha
  | diverges => exact h.diverge
  | stops o => exact ha

/-- The search for a context that issues, in the order of R161. -/
theorem Canonical.search (h : s.Canonical) {core xs} : Keeps (State.search core xs s) := by
  induction xs generalizing s with
  | nil => exact h.idle
  | cons x xs ih =>
    obtain ⟨h1, h2⟩ := h.attempt (core := core) (ctx := x)
    have hs := h1.settle (core := core) (ctx := x) h2
    unfold State.search
    dsimp only
    split <;> rename_i hx <;> rw [hx] at hs
    · exact ih hs
    · exact hs

theorem Canonical.issueOrdinary (h : s.Canonical) {core} : Keeps (s.issueOrdinary core) := by
  unfold State.issueOrdinary
  dsimp only
  refine .ite h.modCore.idle ?_
  split
  · rename_i x _
    obtain ⟨h1, h2⟩ := h.attempt (core := core) (ctx := x)
    have hs := h1.settle (core := core) (ctx := x) h2
    split
    · exact h1.yieldSlot.search
    · split <;> rename_i hx <;> rw [hx] at hs
      · exact (Canonical.yieldSlot hs).idle
      · exact hs
  · exact h.search

theorem Canonical.stepDet (h : s.Canonical) {core ctx taken} : Keeps (s.stepDet core ctx taken).1 := by
  obtain ⟨h1, h2⟩ := h.attempt (core := core) (ctx := ctx)
  have hs := h1.settle (core := core) (ctx := ctx) h2
  unfold State.stepDet
  extract_lets x due t t' r
  have ht : t.Canonical := h.takeAsync
  have ht' : t'.Canonical := h.takeTrap
  clear_value t t'
  split_ifs
  · exact h.takeStrike
  · exact h.takeAsync
  · exact h
  · exact ht.idle
  · exact ht
  · exact ht'.idle
  · exact ht'
  · exact hs

/-- The contexts of deterministic mode in ascending order (R174, R175). -/
theorem Canonical.issueDet (h : s.Canonical) {core xs taken} : Keeps (State.issueDet core xs taken s) := by
  induction xs generalizing s taken with
  | nil => exact .next (.ite h h.idle)
  | cons x xs ih =>
    have hs := h.stepDet (core := core) (ctx := x) (taken := taken)
    unfold State.issueDet
    split <;> rename_i hx <;> rw [hx] at hs
    · exact ih hs
    · exact hs

theorem Canonical.openCtx (h : s.Canonical) {core ctx} : (s.openCtx core ctx).Canonical := by
  unfold State.openCtx
  extract_lets s1 s2
  have h1 : s1.Canonical := .ite h.deliver h
  have h2 : s2.Canonical := by
    dsimp only [s2]
    split
    · exact h1.modCtx.tellFault.retOut
    · exact h1.tellFault
    · exact h1.lateTrap
    · exact h1.lateTrap
    · exact h1
  exact h2.preempt

theorem Canonical.closeCycle (h : s.Canonical) {core} : (s.closeCycle core).Canonical := h.modCore.modCore

theorem Canonical.openCycle (h : s.Canonical) {core} : (s.openCycle core).Canonical :=
  .foldl (fun _ _ h' => h'.debugHalt) h.settleSlice.engineCycle.finishMload.scanStep

theorem Canonical.mloadStall (h : s.Canonical) {core} : (s.mloadStall core).Canonical := h.modCore.closeCycle

/-- Of a halted core every context is asked whether it freezes. -/
theorem Canonical.preemptAll (h : s.Canonical) {core} : (four.foldl (fun s x => s.preempt core x) s).Canonical :=
  .foldl (fun _ _ h' => h'.preempt) h

/-- The start of a cycle for every context of a core. -/
theorem Canonical.openAll (h : s.Canonical) {core} : (four.foldl (fun s x => s.openCtx core x) s).Canonical :=
  .foldl (fun _ _ h' => h'.openCtx) h

theorem Canonical.coreCycle (h : s.Canonical) {core} : Keeps (s.coreCycle core) := by
  unfold State.coreCycle
  split
  · exact h
  have h1 : (s.openCycle core).Canonical := h.openCycle
  generalize s.openCycle core = s1 at h1
  dsimp only
  split
  · exact Canonical.modCore h1.preemptAll
  have h2 := h1.openAll (core := core)
  generalize four.foldl (fun s x => s.openCtx core x) s1 = s2 at h2
  split
  · exact h2.mloadStall
  have hr : Keeps (if s2.det core then State.issueDet core four false (s2.modCore core fun k => { k with slotSpent := false })
    else s2.issueOrdinary core) := .ite h2.modCore.issueDet h2.issueOrdinary
  split <;> rename_i hx
  · rw [hx] at hr
    exact Canonical.ite hr (Canonical.closeCycle hr)
  · exact hr

theorem Canonical.microTurn (h : s.Canonical) {core} : Keeps (s.microTurn core) := by
  unfold State.microTurn
  split
  · exact h
  · split
    · exact h.callFault
    · split
      · exact h.callFault
      · exact h.focusOn.exec

/-- One turn of the schedule. -/
theorem Canonical.turn (h : s.Canonical) {t} : Keeps (s.turn t) := by
  cases t with
  | cycle c => exact h.coreCycle
  | ref => exact h.upd
  | micro c => exact h.microTurn
  | hostWrite link addr bytes => exact h.hostPoke
  | doorbell fn addr => exact h.writePage.writePage
  | event i => exact .ite h.exec h

theorem Canonical.nextTurn (h : s.Canonical) : s.nextTurn.2.Canonical := by
  unfold State.nextTurn
  split
  · exact h
  · exact h.upd

theorem Canonical.run (h : s.Canonical) : Keeps s.run := .ite .fault h.nextTurn.turn

/-! ## The step of the module -/

/-- A step runs the turn that comes next. -/
theorem Canonical.step (h : s.Canonical) : Keeps (Machine.step s) := h.run

end State

/-- Settles O58: every operation of the model changes a memory by the updates of one byte or of a table, which keep the canonical
form, and so does every turn of a step. -/
theorem everyStepKeepsMemoryCanonical : Obligations.EveryStepKeepsMemoryCanonical := by
  unfold Obligations.EveryStepKeepsMemoryCanonical
  intro s t h hs
  have hk : Keeps (step s) := State.Canonical.step h
  rwa [hs] at hk

end Sys2Proof.Machine
end

section
/-! SUPPORT. A slot whose guard is false (R134, R170, R349): what it propagates, form by form, and that nothing else changes. -/

namespace Sys2Proof.Machine

/-! ## Guards (R134) -/

theorem Ctx.holds_iff (x : Ctx) (gd : Guard) : x.holds gd = true ↔ ((x.pred gd.g.toNat).val ^^ gd.inv) = true := Iff.rfl

@[simp] theorem Ctx.pred_zero (x : Ctx) : x.pred 0 = { val := true, mask := 0 } := rfl

/-! ## What a false guard propagates (R349) -/

/-- Every destination is labelled in a later cycle. -/
def FalseFx.Later (fx : FalseFx) : Prop := ∀ e ∈ fx.dests, 0 < e.2

theorem FalseFx.later_none : FalseFx.none.Later := by simp [FalseFx.Later, FalseFx.none]
theorem FalseFx.later_act : FalseFx.act.Later := by simp [FalseFx.Later, FalseFx.act]

theorem FalseFx.later_one {w : Bool} {d : Dest} {n : Nat} (h : 0 < n) : (FalseFx.one w d n).Later := by
  cases w <;> simp [FalseFx.Later, FalseFx.one, h]

/-- Whether the form has an effect does not matter. -/
theorem FalseFx.Later.withEffect {fx : FalseFx} (h : fx.Later) (b : Bool) : { fx with effect := b }.Later := h

theorem FalseFx.later_each {α : Type} {w : Bool} {l : List α} {f : α → Dest} {n : Nat} {b : Bool} (h : 0 < n) :
    FalseFx.Later { dests := if w then [] else l.map (fun i => (f i, n)), effect := b } := by
  cases w <;> simp [FalseFx.Later, h]

theorem fxS_later {w d L s} : (fxS w d L s).Later := FalseFx.later_one (Nat.succ_pos _)
theorem fxM_later {eff w d s} : (fxM eff w d s).Later := (FalseFx.later_one (Nat.succ_pos _)).withEffect _
theorem fxV_later {wr d w L ops s} : (fxV wr d w L ops s).Later := (FalseFx.later_one (Nat.succ_pos _)).withEffect _
theorem fxK_later {kd bits ops s} : (fxK kd bits ops s).Later := (FalseFx.later_one (Nat.succ_pos _)).withEffect _
theorem fxPred_later {pd s} : (fxPred pd s).Later := FalseFx.later_one Nat.one_pos
theorem fxAct_later {s} : (fxAct s).Later := FalseFx.later_act
theorem fxPhase_later {s : State} : FalseFx.Later (if s.det s.cur.core then FalseFx.act else FalseFx.none) := by
  split
  · exact FalseFx.later_act
  · exact FalseFx.later_none
theorem fxNone_later {s} : (fxNone s).Later := FalseFx.later_none
theorem fxAtom_later {w d s} : (fxAtom w d s).Later := (FalseFx.later_one Nat.one_pos).withEffect _
theorem fxSysr_later {f s} : (fxSysr f s).Later := FalseFx.later_one (by split <;> decide)
theorem State.loadDelay_pos (s : State) (va : Word) (L : Nat) : 0 < s.loadDelay va L := by
  unfold State.loadDelay; split <;> omega
theorem fxLoad_later {wr d a n off s} : (fxLoad wr d a n off s).Later := FalseFx.later_one (s.loadDelay_pos _ _)
theorem fxVecLoad_later {wr d w sp s} : (fxVecLoad wr d w sp s).Later := FalseFx.later_one (by split <;> decide)
theorem fxY_later {L wr d len s} : (fxY L wr d len s).Later := FalseFx.later_each (Nat.succ_pos _)

theorem fxDir_later {L wr d len s} : (fxDir L wr d len s).Later := by
  cases wr <;> simp [FalseFx.Later, fxDir]
  grind

/-! ## The answer of a slot whose guard is false -/

/-- The slot issues, and at most the mask of its guard propagates, each time to a later cycle. -/
inductive State.Propagates (s : State) (gd : Guard) : Out → Prop
  | nothing : s.Propagates gd (.next (s.verdict .issued))
  | mask {fx : FalseFx} (h : fx.Later) : s.Propagates gd (.next ((s.falseGuard gd fx).verdict .issued))

section
variable {s : State} {gd : Guard} (hg : s.me.holds gd = false)
include hg

theorem State.Propagates.slotRun {fx : State → FalseFx} {body : State → Try State} (h : (fx s).Later) :
    s.Propagates gd (slotRun gd fx body s) := slotRun_false hg ▸ .mask h

theorem State.Propagates.accessRun {fx : State → FalseFx} {body : State → Try State} (h : (fx s).Later) :
    s.Propagates gd (accessRun gd fx body s) := .slotRun hg h

theorem State.Propagates.struckRun {body : State → Try State} : s.Propagates gd (struckRun gd body s) := by
  rw [Machine.struckRun, hg]; exact .nothing
end

/-! ## Forms that share a shape -/

section
variable {s : State}

theorem State.Propagates.alu2 {L g} {f : FS3} (hg : s.me.holds f.gd = false) : s.Propagates f.gd (Machine.alu2 L g f s) := by
  unfold Machine.alu2
  exact .slotRun hg fxS_later

theorem State.Propagates.divide {g} {f : FS3} (hg : s.me.holds f.gd = false) : s.Propagates f.gd (Machine.divide g f s) := by
  unfold Machine.divide
  exact .slotRun hg fxS_later

theorem State.Propagates.alu1 {gd w d a g} (hg : s.me.holds gd = false) : s.Propagates gd (Machine.alu1 gd w d a g s) := by
  unfold Machine.alu1
  exact .slotRun hg fxS_later

theorem State.Propagates.scalarLoad {fmt} {f : FLd} (hg : s.me.holds f.gd = false) :
    s.Propagates f.gd (Machine.scalarLoad f fmt s) := by
  unfold Machine.scalarLoad
  exact .accessRun hg fxLoad_later

theorem State.Propagates.atomic {op} {f : FS3} (hg : s.me.holds f.gd = false) : s.Propagates f.gd (Machine.atomic op f s) := by
  unfold Machine.atomic
  exact .accessRun hg fxAtom_later

theorem State.Propagates.vop1 {gd L e fl gov wr d a width g legal} (hg : s.me.holds gd = false) :
    s.Propagates gd (Machine.vop1 L e fl gov gd wr d a width g s legal) := by
  unfold Machine.vop1
  exact .slotRun hg fxV_later

theorem State.Propagates.vop2 {gd L e fl gov wr d a b width g} (hg : s.me.holds gd = false) :
    s.Propagates gd (Machine.vop2 L e fl gov gd wr d a b width g s) := by
  unfold Machine.vop2
  exact .slotRun hg fxV_later

theorem State.Propagates.vop3 {gd L e fl gov wr d a b width g} (hg : s.me.holds gd = false) :
    s.Propagates gd (Machine.vop3 L e fl gov gd wr d a b width g s) := by
  unfold Machine.vop3
  exact .slotRun hg fxV_later

theorem State.Propagates.vop1d {gd L e wr d a width g legal} (hg : s.me.holds gd = false) :
    s.Propagates gd (Machine.vop1d L e gd wr d a width g s legal) := by
  unfold Machine.vop1d
  exact .slotRun hg fxV_later

theorem State.Propagates.flt2 {L g} {f : FV3 FltQ} (hg : s.me.holds f.gd = false) : s.Propagates f.gd (Machine.flt2 L g f s) := by
  unfold Machine.flt2
  exact .vop2 hg

theorem State.Propagates.flt3 {g} {f : FV3 FltQ} (hg : s.me.holds f.gd = false) : s.Propagates f.gd (Machine.flt3 g f s) := by
  unfold Machine.flt3
  exact .vop3 hg

theorem State.Propagates.fltMinMax {m} {f : FV3 FltQ} (hg : s.me.holds f.gd = false) :
    s.Propagates f.gd (Machine.fltMinMax m f s) := by
  unfold Machine.fltMinMax
  exact .vop2 hg

theorem State.Propagates.fltSign {g} {f : FV1 FltQ} (hg : s.me.holds f.gd = false) :
    s.Propagates f.gd (Machine.fltSign g f s) := by
  unfold Machine.fltSign
  exact .vop1 hg

theorem State.Propagates.fltFn {L fn} {f : FV1n} (hg : s.me.holds f.gd = false) : s.Propagates f.gd (Machine.fltFn L fn f s) := by
  unfold Machine.fltFn
  exact .vop1 hg

theorem State.Propagates.int2 {L g} {f : FV3 IntQ} (hg : s.me.holds f.gd = false) : s.Propagates f.gd (Machine.int2 L g f s) := by
  unfold Machine.int2
  exact .vop2 hg

theorem State.Propagates.bits2 {g} {f : FV3 LaneQ} (hg : s.me.holds f.gd = false) : s.Propagates f.gd (Machine.bits2 g f s) := by
  unfold Machine.bits2
  exact .vop2 hg

theorem State.Propagates.vcompare {gd e fl kd a b width g} (hg : s.me.holds gd = false) :
    s.Propagates gd (Machine.vcompare e fl gd kd a b width g s) := by
  unfold Machine.vcompare
  exact .slotRun hg fxK_later

theorem State.Propagates.dir1 {gd L wr d a chain g} (hg : s.me.holds gd = false) :
    s.Propagates gd (Machine.dir1 L gd wr d a chain g s) := by
  unfold Machine.dir1
  exact .slotRun hg fxDir_later

theorem State.Propagates.dir2 {f : FD2} {g} (hg : s.me.holds f.gd = false) : s.Propagates f.gd (Machine.dir2 f g s) := by
  unfold Machine.dir2
  exact .slotRun hg fxDir_later

theorem State.Propagates.dirNorm {f : FD2} {g} (hg : s.me.holds f.gd = false) : s.Propagates f.gd (Machine.dirNorm f g s) := by
  unfold Machine.dirNorm
  exact .slotRun hg fxDir_later

theorem State.Propagates.resumeCopy {gd g} (hg : s.me.holds gd = false) : s.Propagates gd (Machine.resumeCopy gd g s) := by
  unfold Machine.resumeCopy
  exact .slotRun hg fxAct_later

theorem State.Propagates.handleWait {gd wr md a want claim} (hg : s.me.holds gd = false) :
    s.Propagates gd (Machine.handleWait gd wr md a want claim s) := by
  unfold Machine.handleWait
  exact .slotRun hg fxM_later

theorem State.Propagates.yield {f : FZ} (hg : s.me.holds f.gd = false) : s.Propagates f.gd (execYield f s) := by
  rw [execYield, hg]; exact .nothing
end

/-! ## Every slot form -/

/-- Those of one shape share its lemma; micro-ops and events have no guard. -/
theorem State.Propagates.exec {s : State} {gd : Guard} (hg : s.me.holds gd = false) {i : Instr} (hi : i.guard = some gd) :
    s.Propagates gd (Machine.exec i s) := by
  cases i
  case nop => exact .nothing
  all_goals try obtain rfl := Option.some.inj hi
  case add | sub | mul | mulh | mulhu | and | or | xor | shl | shr | sar | min | max | minu | maxu => exact .alu2 hg
  case div | divu | rem | remu => exact .divide hg
  case andn =>
    simp only [Machine.exec, execAndn]
    exact .alu2 hg
  case clz | ctz | popc => exact .alu1 hg
  case sel | movi | movsh | gquery | lblget =>
    simp only [Machine.exec, execSel, execMovi, execMovsh, execGquery, execLblget]
    exact .slotRun hg fxS_later
  case addi | andi | ori | xori | shli | shri | sari =>
    simp only [Machine.exec, execAddi, execAndi, execOri, execXori, execShli, execShri, execSari]
    exact .alu1 hg
  case cmp | plog =>
    simp only [Machine.exec, execCmp, execPlog]
    exact .slotRun hg fxPred_later
  case br | call | calli | ret | bswap | sysw | setfmt | gjoin | gleave | gbar | lblraise | sbind | sunbind |
      scfgSeek | scfgRep | hset | trcfg | rndseek =>
    simp only [Machine.exec, execBr, execCall, execCalli, execRet, execBswap, execSysw, execSetfmt, execGjoin,
      execGleave, execGbar, execLblraise, execSbind, execSunbind, execScfgSeek, execScfgRep, execHset, execTrcfg,
      execRndseek]
    exact .slotRun hg fxAct_later
  case ifence | trap | waite | dbgbrk =>
    simp only [Machine.exec, execIfence, execTrap, execWaite, execDbgbrk]
    exact .slotRun hg fxNone_later
  case ld | lds => exact .scalarLoad hg
  case st | stfe | stl | afadd | axclr | snapadv | vst | vscatter | mload | mcall | rset | crec | copy | trpush |
      bclear | release | publish =>
    simp only [Machine.exec, execSt, execStfe, execStl, execAfadd, execAxclr, execSnapadv, execVst, execVscatter,
      execMload, execMcall, execRset, execCrec, execCopy, execTrpush, execBclear, execRelease, execPublish]
    exact .accessRun hg fxAct_later
  case ldfe =>
    simp only [Machine.exec, execLdfe]
    exact .accessRun hg (fxLoad_later.withEffect _)
  case pld | vgather =>
    simp only [Machine.exec, execPld, execVgather]
    exact .accessRun hg (FalseFx.later_one Nat.one_pos)
  case xmov =>
    simp only [Machine.exec, execXmov]
    exact .slotRun hg (FalseFx.later_one Nat.two_pos)
  case sysr =>
    simp only [Machine.exec, execSysr]
    exact .slotRun hg fxSysr_later
  case lda =>
    simp only [Machine.exec, execLda]
    exact .accessRun hg (FalseFx.later_one (s.loadDelay_pos _ _))
  case fence | vsync =>
    simp only [Machine.exec, execFence, execVsync]
    exact .accessRun hg fxNone_later
  case aadd | aand | aor | axor | amin | amax | aminu | amaxu | aswap => exact .atomic hg
  case acas | axread =>
    simp only [Machine.exec, execAcas, execAxread]
    exact .accessRun hg fxAtom_later
  case phase =>
    simp only [Machine.exec, execPhase]
    exact .slotRun hg fxPhase_later
  case eret | haltctx =>
    simp only [Machine.exec, execEret, execHaltctx]
    exact .struckRun hg
  case yield =>
    simp only [Machine.exec]
    exact .yield hg
  case vadd | vmul => exact .flt2 hg
  case vsub =>
    simp only [Machine.exec, execVsub]
    exact .flt2 hg
  case vfma => exact .flt3 hg
  case vfms =>
    simp only [Machine.exec, execVfms]
    exact .flt3 hg
  case vmin | vmax => exact .fltMinMax hg
  case vabs | vneg =>
    simp only [Machine.exec, execVabs, execVneg]
    exact .fltSign hg
  case vrcp | vrsq | vsqrt | vexp2 | vlog2 => exact .fltFn hg
  case vcmp | vicmp =>
    simp only [Machine.exec, execVcmp, execVicmp]
    exact .vcompare hg
  case viadd | visub | vimul | vimin | vimax => exact .int2 hg
  case vimad =>
    simp only [Machine.exec, execVimad]
    exact .vop3 hg
  case vand | vor | vxor | vandn | vshl | vshr | vsar =>
    simp only [Machine.exec, execVand, execVor, execVxor, execVandn, execVshl, execVshr, execVsar]
    exact .bits2 hg
  case vmrg =>
    simp only [Machine.exec, execVmrg]
    exact .slotRun hg fxV_later
  case vred | vbcast | vextr | vcvt | vunpk | vmov =>
    simp only [Machine.exec, execVred, execVbcast, execVextr, execVcvt, execVunpk, execVmov]
    exact .vop1 hg
  case vperm =>
    simp only [Machine.exec, execVperm]
    exact .vop2 hg
  case vins | vpack =>
    simp only [Machine.exec, execVins, execVpack]
    exact .vop1d hg
  case vmovPush =>
    simp only [Machine.exec, execVmovPush]
    exact .slotRun hg (fxV_later.withEffect _)
  case klog =>
    simp only [Machine.exec, execKlog]
    exact .slotRun hg fxK_later
  case vld | vlds =>
    simp only [Machine.exec, execVld, execVlds]
    exact .accessRun hg fxVecLoad_later
  case dnorm | dzero =>
    simp only [Machine.exec, execDnorm, execDzero]
    exact .slotRun hg fxDir_later
  case dunnorm | dmovRaw | ddot | dnget =>
    simp only [Machine.exec, execDunnorm, execDmovRaw, execDdot, execDnget]
    exact .slotRun hg fxY_later
  case dmov | dneg => exact .dir1 hg
  case dscale | dnset =>
    simp only [Machine.exec, execDscale, execDnset]
    exact .dirNorm hg
  case dadd | dsub | dmul => exact .dir2 hg
  case dmaxcos =>
    simp only [Machine.exec, execDmaxcos]
    exact .slotRun hg ((FalseFx.later_one Nat.one_pos).withEffect _)
  case rpush =>
    simp only [Machine.exec, execRpush]
    exact .accessRun hg fxM_later
  case rstat | cstat | hquery | rndstat =>
    simp only [Machine.exec, execRstat, execCstat, execHquery, execRndstat]
    exact .slotRun hg fxM_later
  case cresumePatch | cresumeRetry | cresumeSkip =>
    simp only [Machine.exec, execCresumePatch, execCresumeRetry, execCresumeSkip]
    exact .resumeCopy hg
  case hwait | hwaitClaim => exact .handleWait hg
  case trpull =>
    simp only [Machine.exec, execTrpull]
    exact .slotRun hg ((FalseFx.later_one (Nat.succ_pos _)).withEffect _)
  all_goals cases hi

/-! ## What it leaves unchanged -/

/-- An update of the context in focus and the outcome of its slot leave everything else alone. -/
theorem State.onlyMyContext_modMe_verdict (s : State) (f : Ctx → Ctx) (v : Verdict) :
    s.onlyMyContext ((s.modMe f).verdict v) := by
  refine ⟨rfl, rfl, fun c => ?_, fun c x => ?_⟩
  · rw [State.verdict_core, State.modMe, State.modCtx, State.modCore_core]
    split
    · next h => rw [h]; rfl
    · rfl
  · rw [State.verdict_ctx, State.modMe_ctx]
    split
    · next h => exact .inl h
    · exact .inr rfl

theorem State.onlyMyContext_verdict (s : State) (v : Verdict) : s.onlyMyContext (s.verdict v) :=
  ⟨rfl, rfl, fun _ => rfl, fun _ _ => .inr rfl⟩

/-- The raises of mask `gm` that a false guard adds to the results in flight. -/
def Ctx.raises (x : Ctx) (slot : Nat) (gm : Mask) (fx : FalseFx) : List InFlight :=
  fx.dests.map (fun e => { vis := x.cycle + e.2, dest := e.1, val := 0, mask := gm ||| x.taint, slot := slot, own := true,
                           issued := x.cycle, maskOnly := true })

theorem Ctx.raises_spec {x : Ctx} {slot : Nat} {gm : Mask} {fx : FalseFx} (h : fx.Later) {e : InFlight}
    (he : e ∈ x.raises slot gm fx) : e.maskOnly = true ∧ e.mask = gm ||| x.taint ∧ x.cycle < e.vis := by
  obtain ⟨d, hd, rfl⟩ := List.mem_map.mp he
  exact ⟨rfl, rfl, Nat.lt_add_of_pos_right (h d hd)⟩

/-- A false guard whose mask is not zero is one update of the context in focus. -/
theorem State.falseGuard_modMe {s : State} {gd : Guard} {fx : FalseFx} (h : (s.me.pred gd.g.toNat).mask ≠ 0) :
    let gm := (s.me.pred gd.g.toNat).mask
    s.falseGuard gd fx = s.modMe (fun x =>
      { x with flight := x.flight ++ x.raises s.cur.slot gm fx,
               taintNext := if fx.effect then x.taintNext ||| gm else x.taintNext }) := by
  simp only [State.falseGuard, h, if_false]
  split
  · rw [State.taintUp, State.modMe_modMe]; rfl
  · rfl

/-- Nothing but the context in focus changes, and of it only raises of masks are added, and TAINT rises at most by the guard's mask. -/
theorem State.Propagates.frame {s : State} {gd : Guard} {o : Out} (h : s.Propagates gd o) :
    let gm := (s.me.pred gd.g.toNat).mask
    ∃ t es tn, o = .next t ∧ t.cur.verdict = .issued ∧ s.onlyMyContext t ∧
      t.me = { s.me with flight := s.me.flight ++ es, taintNext := tn } ∧
      (∀ e ∈ es, e.maskOnly = true ∧ e.mask = gm ||| s.me.taint ∧ s.me.cycle < e.vis) ∧
      (tn = s.me.taintNext ∨ tn = s.me.taintNext ||| gm) ∧ (gm = 0 → es = [] ∧ tn = s.me.taintNext) := by
  have idle : s.me = { s.me with flight := s.me.flight ++ [], taintNext := s.me.taintNext } := by rw [List.append_nil]
  cases h with
  | nothing =>
    exact ⟨_, [], s.me.taintNext, rfl, rfl, s.onlyMyContext_verdict _, idle, by simp, .inl rfl, fun _ => ⟨rfl, rfl⟩⟩
  | @mask fx hl =>
    by_cases hm : (s.me.pred gd.g.toNat).mask = 0
    · rw [State.falseGuard_zero hm]
      exact ⟨_, [], s.me.taintNext, rfl, rfl, s.onlyMyContext_verdict _, idle, by simp, .inl rfl, fun _ => ⟨rfl, rfl⟩⟩
    · rw [State.falseGuard_modMe hm]
      refine ⟨_, s.me.raises s.cur.slot _ fx, _, rfl, rfl, s.onlyMyContext_modMe_verdict _ _, State.modMe_me s _,
        fun e he => Ctx.raises_spec hl he, ?_, fun h => absurd h hm⟩
      split
      · exact .inr rfl
      · exact .inl rfl

/-- Settles O22: the guard is read as its predicate says, and under a false guard every slot form answers as `Propagates` says, which
leaves all but the raises of masks. -/
theorem falseGuardPropagatesOnly : Obligations.FalseGuardPropagatesOnly := by
  unfold Obligations.FalseGuardPropagatesOnly
  exact ⟨fun x gd => ⟨x.holds_iff gd, rfl, rfl⟩, fun i gd s hi hg => (State.Propagates.exec hg hi).frame⟩

end Sys2Proof.Machine
end

section
/-! SUPPORT. What the decoder's checks and codes accept, and words put together from their fields (R133, R136, R138, R158): what the
forms' encoders need to give back the word that the forms' decoders have read. -/

namespace Sys2Proof

/-! ## Attempts to decode -/

theorem dec_bind_ok {α β : Type} {x : Dec α} {f : α → Dec β} {r : β} : (x >>= f) = .ok r ↔ ∃ a, x = .ok a ∧ f a = .ok r :=
  Machine.try_bind_ok

theorem dec_pure_ok {α : Type} {a r : α} : (pure a : Dec α) = .ok r ↔ a = r := Except.ok.injEq a r ▸ Iff.rfl

theorem need_ok {c : Bool} {e : BadCode} {u : Unit} : need c e = .ok u ↔ c = true := by cases c <;> simp [need]

theorem zeroField_ok {n : Nat} {v : BitVec n} {u : Unit} : zeroField v = .ok u ↔ v = 0 := by simp [zeroField, need_ok]

theorem opnd_ok {ok : Opnd → Bool} {c : BitVec 6} {o : Opnd} : opnd ok c = .ok o ↔ ok o = true ∧ encOpnd o = c := by
  have key : ∀ c, (decOpnd c).all (fun o => encOpnd o == c) = true := by decide
  constructor
  · intro h
    have hc := key c
    unfold opnd at h
    split at h
    · next o' ho =>
      split at h
      · next hok =>
        cases h
        exact ⟨hok, by simpa [ho] using hc⟩
      · cases h
    · cases h
  · rintro ⟨hok, rfl⟩
    rw [opnd_encOpnd, if_pos hok]

/-! ## Codes: a code that is accepted is the code of what it names -/

/-- What a table of codes accepts has the code, when each code of the table says so. -/
theorem code_ok {C Q : Type} [DecidableEq C] {dec : C → Dec Q} {enc : Q → C} {c : C} {q : Q}
    (hall : ∀ c, (dec c).toOption.all (fun q => enc q == c) = true) (henc : ∀ q, dec (enc q) = .ok q) :
    dec c = .ok q ↔ enc q = c := by
  constructor
  · intro h
    simpa [h, Except.toOption] using hall c
  · rintro rfl
    exact henc q

theorem decWidth_ok {c q} : decWidth c = .ok q ↔ encWidth q = c := code_ok (by decide) decWidth_enc
theorem decFltQ_ok {c q} : decFltQ c = .ok q ↔ encFltQ q = c := code_ok (by decide) decFltQ_enc
theorem decIntQ_ok {c q} : decIntQ c = .ok q ↔ encIntQ q = c := code_ok (by decide) decIntQ_enc
theorem decLaneQ_ok {c q} : decLaneQ c = .ok q ↔ encLaneQ q = c := code_ok (by decide) decLaneQ_enc
theorem decOSize_ok {c q} : decOSize c = .ok q ↔ encOSize q = c := code_ok (by decide) decOSize_enc
theorem decScope_ok {c q} : decScope c = .ok q ↔ encScope q = c := code_ok (by decide) decScope_enc
theorem decFenceKind_ok {c q} : decFenceKind c = .ok q ↔ encFenceKind q = c := code_ok (by decide) decFenceKind_enc
theorem decCombine_ok {c q} : decCombine c = .ok q ↔ encCombine q = c := code_ok (by decide) decCombine_enc
theorem decCond_ok {c q} : decCond c = .ok q ↔ encCond q = c := code_ok (by decide) decCond_enc
theorem decPlogOp_ok {c q} : decPlogOp c = .ok q ↔ encPlogOp q = c := code_ok (by decide) decPlogOp_enc
theorem decKlogOp_ok {c q} : decKlogOp c = .ok q ↔ encKlogOp q = c := code_ok (by decide) decKlogOp_enc
theorem decChain_ok {c q} : decChain c = .ok q ↔ encChain q = c := code_ok (by decide) decChain_enc
theorem decBMode_ok {c q} : decBMode c = .ok q ↔ encBMode q = c := code_ok (by decide) decBMode_enc
theorem decNoQ_ok {c u} : decNoQ c = .ok u ↔ c = 0 := by simp [decNoQ, need_ok]

theorem encMSize_dec (c : BitVec 2) : encMSize (decMSize c) = c := by revert c; decide
theorem encXFile_dec (c : BitVec 2) : encXFile (decXFile c) = c := by revert c; decide
theorem encVCond_dec (c : BitVec 2) : encVCond (decVCond c) = c := by revert c; decide
theorem encVICond_dec (c : BitVec 2) : encVICond (decVICond c) = c := by revert c; decide
theorem encFmt_dec (c : BitVec 3) : encFmt (decFmt c) = c := by revert c; decide
theorem encAxis_dec (c : BitVec 2) : encAxis (decAxis c) = c := by revert c; decide

theorem decRedOp_ok {c : BitVec 3} {q : BitVec 2} {o : RedOp} : decRedOp c q = .ok o ↔ (encRedOp o).1 = c ∧ (encRedOp o).2 = q := by
  have key : ∀ c q, (decRedOp c q).toOption.all (fun o => encRedOp o == (c, q)) = true := by decide
  constructor
  · intro h
    have hc := key c q
    simp only [h, Except.toOption, Option.all_some, beq_iff_eq] at hc
    exact Prod.ext_iff.mp hc
  · rintro ⟨rfl, rfl⟩
    exact decRedOp_enc o

/-! ## Words put together from their fields -/

/-- Two fields side by side are one field. -/
theorem field_app {N m n s : Nat} {w : BitVec N} {a : BitVec m} {b : BitVec n} (ha : a = w.extractLsb' (s + n) m)
    (hb : b = w.extractLsb' s n) : a ++ b = w.extractLsb' s (m + n) := by
  subst ha hb
  apply BitVec.eq_of_getLsbD_eq
  intro i hi
  simp only [BitVec.getLsbD_append, BitVec.getLsbD_extractLsb']
  split
  · next h => simp [h, hi]
  · next h => simp [show i - n < m by omega, hi, show s + n + (i - n) = s + i by omega]

theorem field_bit {N : Nat} (w : BitVec N) (s : Nat) : bit1 (w.getLsbD s) = w.extractLsb' s 1 := by
  apply BitVec.eq_of_getLsbD_eq
  intro i hi
  obtain rfl : i = 0 := by omega
  rw [bit1_lsb, BitVec.getLsbD_extractLsb']
  simp

/-- A field of zeros. -/
theorem field_zero {n : Nat} {v : BitVec n} (h : v = 0) : (0 : BitVec n) = v := h.symm

/-- A part of a field of zeros. -/
theorem zero_part {N s n t k : Nat} {w : BitVec N} (h : w.extractLsb' s n = 0) (hs : s ≤ t) (ht : t + k ≤ s + n) :
    w.extractLsb' t k = 0 := by
  apply BitVec.eq_of_getLsbD_eq
  intro i hi
  have hb := congrArg (fun v => v.getLsbD (t + i - s)) h
  simp only [BitVec.getLsbD_extractLsb', show t + i - s < n by omega, show s + (t + i - s) = t + i by omega] at hb
  simpa [hi] using hb

/-- Two fields of zeros side by side are one. -/
theorem zero_join {N m n s : Nat} {w : BitVec N} (ha : w.extractLsb' (s + n) m = 0) (hb : w.extractLsb' s n = 0) :
    w.extractLsb' s (m + n) = 0 := by
  rw [← field_app ha.symm hb.symm]
  exact BitVec.zero_append_zero

theorem zero_AB {w : BitVec 32} (hA : fA w = 0) (hB : fB w = 0) : w.extractLsb' 4 12 = 0 :=
  zero_join (s := 4) (m := 6) (n := 6) hA hB

theorem zero_low {w : BitVec 32} (hB : fB w = 0) (hs : fMinor w = 0) : w.extractLsb' 0 10 = 0 :=
  zero_join (s := 0) (m := 6) (n := 4) hB hs

theorem field_bit_val {N : Nat} {w : BitVec N} {s : Nat} {b : Bool} (h : w.getLsbD s = b) : bit1 b = w.extractLsb' s 1 :=
  h ▸ field_bit w s

theorem encOpnd_dec {c : BitVec 6} {o : Opnd} (h : decOpnd c = some o) : encOpnd o = c :=
  (opnd_ok (ok := anyOpnd).mp (by simp [opnd, h, anyOpnd])).2

theorem field_vfile (w : BitVec 32) : bit1 (encVFile (fVFile w)) = w.extractLsb' 0 1 := by
  refine field_bit_val ?_
  unfold fVFile
  cases w.getLsbD 0 <;> rfl

theorem mdOk_ok {w : BitVec 32} {b : Bool} {u : Unit} : mdOk w b = .ok u ↔ w.extractLsb' 19 2 = 0 ∧ (b || !fW w) = true := by
  simp [mdOk, dec_bind_ok, zeroField_ok, need_ok]

theorem field_md {w : BitVec 32} (h : w.extractLsb' 19 2 = 0) : eMd (fW w) (fMd w) = w.extractLsb' 16 6 :=
  field_app (field_app (field_bit w 21) (field_zero h)) rfl

theorem field_md_free {w : BitVec 32} (h : w.extractLsb' 19 2 = 0) (hf : (false || !fW w) = true) :
    eMd false (fMd w) = w.extractLsb' 16 6 := by
  rw [← field_md h, show fW w = false by simpa using hf]

theorem field_head {w : BitVec 32} {m : BitVec 6} (hm : (fMajor w).toNat = m.toNat) :
    encHead m (fGuard w) = w.extractLsb' 22 10 := by
  obtain rfl := BitVec.eq_of_toNat_eq hm
  exact field_app (field_app rfl rfl) (field_bit w 22)

theorem field_minor {w : BitVec 32} {m : BitVec 4} (hm : (fMinor w).toNat = m.toNat) : m = w.extractLsb' 0 4 :=
  (BitVec.eq_of_toNat_eq hm).symm

/-! ## The fields that many forms begin with (R133, R140, R141, R143) -/

section
variable {w : BitVec 32} {m : BitVec 6} {a : Opnd}

/-- W and D. -/
theorem field_dest (hm : (fMajor w).toNat = m.toNat) : encHead m (fGuard w) ++ bit1 (fW w) ++ fD w = w.extractLsb' 16 16 :=
  field_app (field_app (field_head hm) (field_bit w 21)) rfl

theorem field_destA (hm : (fMajor w).toNat = m.toNat) (ea : encOpnd a = fA w) :
    encHead m (fGuard w) ++ bit1 (fW w) ++ fD w ++ encOpnd a = w.extractLsb' 10 22 :=
  field_app (field_dest hm) ea

/-- A data register in D, without W. -/
theorem field_dataA (hm : (fMajor w).toNat = m.toNat) (hz : w.extractLsb' 21 1 = 0) (ea : encOpnd a = fA w) :
    encHead m (fGuard w) ++ (0 : BitVec 1) ++ fD w ++ encOpnd a = w.extractLsb' 10 22 :=
  field_app (field_app (field_app (field_head hm) (field_zero hz)) rfl) ea

/-- Neither W nor D. -/
theorem field_onlyA (hm : (fMajor w).toNat = m.toNat) (hz : w.extractLsb' 16 6 = 0) (ea : encOpnd a = fA w) :
    encHead m (fGuard w) ++ (0 : BitVec 6) ++ encOpnd a = w.extractLsb' 10 22 :=
  field_app (field_app (field_head hm) (field_zero hz)) ea

/-- W and a direction register. -/
theorem field_dir (hm : (fMajor w).toNat = m.toNat) (hz : w.extractLsb' 20 1 = 0) :
    encHead m (fGuard w) ++ bit1 (fW w) ++ (0 : BitVec 1) ++ fDd w = w.extractLsb' 16 16 :=
  field_app (field_app (field_app (field_head hm) (field_bit w 21)) (field_zero hz)) rfl

theorem field_dirA (hm : (fMajor w).toNat = m.toNat) (hz : w.extractLsb' 20 1 = 0) (ea : encOpnd a = fA w) :
    encHead m (fGuard w) ++ bit1 (fW w) ++ (0 : BitVec 1) ++ fDd w ++ encOpnd a = w.extractLsb' 10 22 :=
  field_app (field_dir hm hz) ea

/-- W and an m register. -/
theorem field_mdA (hm : (fMajor w).toNat = m.toNat) (hd : w.extractLsb' 19 2 = 0) (ea : encOpnd a = fA w) :
    encHead m (fGuard w) ++ eMd (fW w) (fMd w) ++ encOpnd a = w.extractLsb' 10 22 :=
  field_app (field_app (field_head hm) (field_md hd)) ea

/-- A port or an m register without W. -/
theorem field_portA (hm : (fMajor w).toNat = m.toNat) (hd : w.extractLsb' 19 2 = 0) (hf : (false || !fW w) = true)
    (ea : encOpnd a = fA w) : encHead m (fGuard w) ++ eMd false (fMd w) ++ encOpnd a = w.extractLsb' 10 22 :=
  field_app (field_app (field_head hm) (field_md_free hd hf)) ea
end

/-! ## What a slot's word stands for -/

/-- An instruction stands for a word in a slot. -/
structure Spells (k : Nat) (w : BitVec 32) (i : Instr) : Prop where
  word : encode i = some w
  wf : i.wf = true
  slot : i.inSlot k = true

/-- The instructions of a form in a slot: their encoder and the check of their fields. -/
def Coded {F : Type} (k : Nat) (e : F → BitVec 32) (ok : F → Bool) (c : F → Instr) : Prop :=
  ∀ f, encode (c f) = some (e f) ∧ (c f).wf = ok f ∧ (c f).inSlot k = true

theorem Coded.spells {F : Type} {k : Nat} {e : F → BitVec 32} {ok : F → Bool} {c : F → Instr} {f : F} {w : BitVec 32}
    (hc : Coded k e ok c) (hok : ok f = true) (hw : e f = w.extractLsb' 0 32) : Spells k w (c f) :=
  ⟨hw.trans (extract_all w) ▸ (hc f).1, (hc f).2.1.trans hok, (hc f).2.2⟩

end Sys2Proof
end

section
/-! SUPPORT. Encoding undoes decoding in slot 0 (R139, R140, R153, R154): every form of it, and the slot. -/

namespace Sys2Proof

section
variable {w : BitVec 32} {j : Nat} {m : BitVec 6} {s : BitVec 4} {i : Instr}

theorem dZ_spells {c} (h : dZ w c = .ok i) (hc : Coded j (eZ m) (fun _ => true) c) (hm : (fMajor w).toNat = m.toNat) :
    Spells j w i := by
  simp only [dZ, dec_bind_ok, zeroField_ok, dec_pure_ok] at h
  obtain ⟨_, hz, rfl⟩ := h
  exact hc.spells rfl (field_app (field_head hm) (field_zero hz))

theorem dS3_spells {c} (h : dS3 w c = .ok i) (hc : Coded j (eS3 m s) (fun f => f.a.okS && f.b.okS) c)
    (hm : (fMajor w).toNat = m.toNat) (hs : (fMinor w).toNat = s.toNat) : Spells j w i := by
  simp only [dS3, dec_bind_ok, opnd_ok, dec_pure_ok] at h
  obtain ⟨a, ⟨ha, ea⟩, b, ⟨hb, eb⟩, rfl⟩ := h
  exact hc.spells (by simp [ha, hb]) (field_app (field_app (field_destA hm ea) eb) (field_minor hs))

theorem dS3z_spells {c} (h : dS3z w c = .ok i) (hc : Coded j (eS3 m 0) (fun f => f.a.okS && f.b.okS) c)
    (hm : (fMajor w).toNat = m.toNat) : Spells j w i := by
  simp only [dS3z, dec_bind_ok, need_ok, beq_iff_eq] at h
  obtain ⟨_, hs, h⟩ := h
  exact dS3_spells h hc hm (congrArg BitVec.toNat hs)

theorem dS2_spells {c} (h : dS2 w c = .ok i) (hc : Coded j (eS2 m s) (fun f => f.a.okS) c) (hm : (fMajor w).toNat = m.toNat)
    (hs : (fMinor w).toNat = s.toNat) : Spells j w i := by
  simp only [dS2, dec_bind_ok, opnd_ok, zeroField_ok, dec_pure_ok] at h
  obtain ⟨a, ⟨ha, ea⟩, _, hz, rfl⟩ := h
  exact hc.spells ha (field_app (field_app (field_destA hm ea) (field_zero hz)) (field_minor hs))

theorem dA_spells {c} (h : dA w c = .ok i) (hc : Coded j (eA m s) (fun f => f.a.okS) c) (hm : (fMajor w).toNat = m.toNat)
    (hs : (fMinor w).toNat = s.toNat) : Spells j w i := by
  simp only [dA, dec_bind_ok, opnd_ok, zeroField_ok, dec_pure_ok] at h
  obtain ⟨a, ⟨ha, ea⟩, _, hz, _, hy, rfl⟩ := h
  exact hc.spells ha (field_app (field_app (field_onlyA hm hz ea) (field_zero hy)) (field_minor hs))

theorem dAB_spells {c} (h : dAB w c = .ok i) (hc : Coded j (eAB m s) (fun f => f.a.okS && f.b.okS) c)
    (hm : (fMajor w).toNat = m.toNat) (hs : (fMinor w).toNat = s.toNat) : Spells j w i := by
  simp only [dAB, dec_bind_ok, opnd_ok, zeroField_ok, dec_pure_ok] at h
  obtain ⟨a, ⟨ha, ea⟩, b, ⟨hb, eb⟩, _, hz, rfl⟩ := h
  exact hc.spells (by simp [ha, hb]) (field_app (field_app (field_onlyA hm hz ea) eb) (field_minor hs))

theorem dCI_spells {c} (h : dCI w c = .ok i) (hc : Coded j (eA m 0) (fun f => f.a.okS) c) (hm : (fMajor w).toNat = m.toNat) :
    Spells j w i := by
  simp only [dCI, dec_bind_ok, opnd_ok, zeroField_ok, dec_pure_ok] at h
  obtain ⟨a, ⟨ha, ea⟩, _, hz, _, hy, rfl⟩ := h
  exact hc.spells ha
    (field_app (field_app (field_onlyA hm hz ea) (field_zero (zero_part hy (by decide) (by decide)))) (field_zero (zero_part
      hy (by decide) (by decide))))

theorem dSel_spells (h : dSel w = .ok i) (hm : (fMajor w).toNat = (0x17 : BitVec 6).toNat) : Spells 0 w i := by
  have hc : Coded 0 eSel (fun f => f.a.okS && f.b.okS) .sel := fun _ => ⟨rfl, rfl, rfl⟩
  simp only [dSel, dec_bind_ok, opnd_ok, zeroField_ok, dec_pure_ok] at h
  obtain ⟨a, ⟨ha, ea⟩, b, ⟨hb, eb⟩, _, hz, rfl⟩ := h
  exact hc.spells (by simp [ha, hb]) (field_app (field_app (field_app (field_destA hm ea) eb) (field_zero hz)) rfl)

theorem dSI_spells {c} (h : dSI w c = .ok i) (hc : Coded j (eSI m) (fun f => f.a.okS) c) (hm : (fMajor w).toNat = m.toNat) :
    Spells j w i := by
  simp only [dSI, dec_bind_ok, opnd_ok, dec_pure_ok] at h
  obtain ⟨a, ⟨ha, ea⟩, rfl⟩ := h
  exact hc.spells ha (field_app (field_destA hm ea) rfl)

theorem eSH_field {kind : BitVec 2} {a : Opnd} (hm : (fMajor w).toNat = (0x1C : BitVec 6).toNat) (ea : encOpnd a = fA w)
    (hk : (w.extractLsb' 8 2).toNat = kind.toNat) (hz : w.extractLsb' 6 2 = 0) :
    eSH kind { gd := fGuard w, w := fW w, d := fD w, a := a, amount := w.extractLsb' 0 6 } = w.extractLsb' 0 32 :=
  field_app (field_app (field_app (field_destA hm ea) ((BitVec.eq_of_toNat_eq hk).symm)) (field_zero hz)) rfl

theorem dSH_spells (h : dSH w = .ok i) (hm : (fMajor w).toNat = (0x1C : BitVec 6).toNat) : Spells 0 w i := by
  have hl : Coded 0 (eSH 0) (fun f => f.a.okS) .shli := fun _ => ⟨rfl, rfl, rfl⟩
  have hr : Coded 0 (eSH 1) (fun f => f.a.okS) .shri := fun _ => ⟨rfl, rfl, rfl⟩
  have ha : Coded 0 (eSH 2) (fun f => f.a.okS) .sari := fun _ => ⟨rfl, rfl, rfl⟩
  simp only [dSH, dec_bind_ok, opnd_ok, zeroField_ok, dec_pure_ok] at h
  obtain ⟨k, hk, a, ⟨hok, ea⟩, _, hz, rfl⟩ := h
  split at hk
  · next hk' => cases hk; exact hl.spells hok (eSH_field hm ea hk' hz)
  · next hk' => cases hk; exact hr.spells hok (eSH_field hm ea hk' hz)
  · next hk' => cases hk; exact ha.spells hok (eSH_field hm ea hk' hz)
  · cases hk

theorem dSL_spells {c} (h : dSL w c = .ok i) (hc : Coded j (eSL m) (fun _ => true) c) (hm : (fMajor w).toNat = m.toNat) :
    Spells j w i := by
  simp only [dSL, Except.ok.injEq] at h
  obtain rfl := h
  exact hc.spells rfl (field_app (field_dest hm) rfl)

theorem dPC_spells (h : dPC w = .ok i) (hm : (fMajor w).toNat = (0x1F : BitVec 6).toNat) : Spells 0 w i := by
  have hc : Coded 0 ePC (fun f => f.a.okS && f.b.okS) .cmp := fun _ => ⟨rfl, rfl, rfl⟩
  simp only [dPC, dec_bind_ok, decCombine_ok, decCond_ok, opnd_ok, zeroField_ok, dec_pure_ok] at h
  obtain ⟨_, ec, _, ed, a, ⟨ha, ea⟩, b, ⟨hb, eb⟩, _, hz, rfl⟩ := h
  exact hc.spells (by simp [ha, hb])
    (field_app (field_app (field_app (field_app (field_app (field_app (field_head hm) (field_zero hz)) ec) rfl) ea) eb) ed)

theorem dPL_spells (h : dPL w = .ok i) (hm : (fMajor w).toNat = (0x20 : BitVec 6).toNat) : Spells 0 w i := by
  have hc : Coded 0 ePL FPL.ok .plog := fun _ => ⟨rfl, rfl, rfl⟩
  simp only [dPL, dec_bind_ok, decPlogOp_ok, zeroField_ok, need_ok, dec_pure_ok] at h
  obtain ⟨_, eo, _, h1, _, h2, _, h3, _, hok, rfl⟩ := h
  exact hc.spells hok
    (field_app (field_app (field_app (field_app (field_app (field_app (field_app (field_head hm) (field_zero h1)) rfl)
      (field_zero h2)) rfl) (field_zero h3)) rfl) eo)

theorem dBR_spells {c} (h : dBR w c = .ok i) (hc : Coded j (eBR m) (fun _ => true) c) (hm : (fMajor w).toNat = m.toNat) :
    Spells j w i := by
  simp only [dBR, dec_bind_ok, zeroField_ok, dec_pure_ok] at h
  obtain ⟨_, hz, rfl⟩ := h
  exact hc.spells rfl (field_app (field_app (field_head hm) (field_zero hz)) rfl)

theorem dBS_spells (h : dBS w = .ok i) (hm : (fMajor w).toNat = (0x25 : BitVec 6).toNat) : Spells 0 w i := by
  have hc : Coded 0 eBS (fun _ => true) .bswap := fun _ => ⟨rfl, rfl, rfl⟩
  simp only [dBS, dec_bind_ok, zeroField_ok, dec_pure_ok] at h
  obtain ⟨_, hz, rfl⟩ := h
  exact hc.spells rfl (field_app (field_app (field_head hm) (field_zero hz)) rfl)

theorem dLd_spells {signed} {c} (h : dLd w signed c = .ok i)
    (hc : Coded j (eLd m) (fun f => f.a.okS && !(signed && f.size == .b8)) c) (hm : (fMajor w).toNat = m.toNat) :
    Spells j w i := by
  simp only [dLd, dec_bind_ok, opnd_ok, need_ok, dec_pure_ok] at h
  obtain ⟨a, ⟨ha, ea⟩, _, hn, rfl⟩ := h
  exact hc.spells (by simp only [ha, hn, Bool.and_self]) (field_app (field_app (field_destA hm ea) (encMSize_dec _)) rfl)

theorem dSt_spells (h : dSt w = .ok i) (hm : (fMajor w).toNat = (0x29 : BitVec 6).toNat) : Spells 0 w i := by
  have hc : Coded 0 eSt (fun f => f.a.okS) .st := fun _ => ⟨rfl, rfl, rfl⟩
  simp only [dSt, dec_bind_ok, opnd_ok, zeroField_ok, dec_pure_ok] at h
  obtain ⟨a, ⟨ha, ea⟩, _, hz, rfl⟩ := h
  exact hc.spells ha (field_app (field_app (field_dataA hm hz ea) (encMSize_dec _)) rfl)

theorem dLdfe_spells (h : dLdfe w = .ok i) (hm : (fMajor w).toNat = (0x2A : BitVec 6).toNat) : Spells 0 w i := by
  have hc : Coded 0 eLdfe (fun f => f.a.okS) .ldfe := fun _ => ⟨rfl, rfl, rfl⟩
  simp only [dLdfe, dec_bind_ok, opnd_ok, zeroField_ok, dec_pure_ok] at h
  obtain ⟨a, ⟨ha, ea⟩, _, hz, rfl⟩ := h
  exact hc.spells ha (field_app (field_app (field_app (field_destA hm ea) (field_bit w 9)) (field_zero hz)) rfl)

theorem dStfe_spells (h : dStfe w = .ok i) (hm : (fMajor w).toNat = (0x2B : BitVec 6).toNat) : Spells 0 w i := by
  have hc : Coded 0 eStfe (fun f => f.a.okS) .stfe := fun _ => ⟨rfl, rfl, rfl⟩
  simp only [dStfe, dec_bind_ok, opnd_ok, zeroField_ok, dec_pure_ok] at h
  obtain ⟨a, ⟨ha, ea⟩, _, hz, _, hy, rfl⟩ := h
  exact hc.spells ha (field_app (field_app (field_dataA hm hz ea) (field_zero hy)) rfl)

theorem dPld_spells (h : dPld w = .ok i) (hm : (fMajor w).toNat = (0x2C : BitVec 6).toNat) : Spells 0 w i := by
  have hc : Coded 0 ePld (fun f => f.a.okS) .pld := fun _ => ⟨rfl, rfl, rfl⟩
  simp only [dPld, dec_bind_ok, opnd_ok, dec_pure_ok] at h
  obtain ⟨a, ⟨ha, ea⟩, rfl⟩ := h
  exact hc.spells ha (field_app (field_app (field_destA hm ea) rfl) rfl)

theorem dXmov_spells (h : dXmov w = .ok i) (hm : (fMajor w).toNat = (0x2D : BitVec 6).toNat) : Spells 0 w i := by
  have hc : Coded 0 eXmov FXmov.ok .xmov := fun _ => ⟨rfl, rfl, rfl⟩
  simp only [dXmov, dec_bind_ok, opnd_ok, zeroField_ok, need_ok, dec_pure_ok] at h
  obtain ⟨a, ⟨_, ea⟩, _, _, _, hz, _, hok, rfl⟩ := h
  exact hc.spells hok
    (field_app (field_app (field_app (field_app (field_destA hm ea) rfl) (field_zero hz)) (encXFile_dec _)) (encXFile_dec _))

theorem dSR_spells (h : dSR w = .ok i) (hm : (fMajor w).toNat = (0x2E : BitVec 6).toNat) : Spells 0 w i := by
  have hc : Coded 0 eSR (fun _ => true) .sysr := fun _ => ⟨rfl, rfl, rfl⟩
  simp only [dSR, dec_bind_ok, zeroField_ok, dec_pure_ok] at h
  obtain ⟨_, hz, rfl⟩ := h
  exact hc.spells rfl (field_app (field_app (field_dest hm) (field_zero hz)) rfl)

theorem dSW_spells (h : dSW w = .ok i) (hm : (fMajor w).toNat = (0x2F : BitVec 6).toNat) : Spells 0 w i := by
  have hc : Coded 0 eSW (fun _ => true) .sysw := fun _ => ⟨rfl, rfl, rfl⟩
  simp only [dSW, dec_bind_ok, zeroField_ok, dec_pure_ok] at h
  obtain ⟨_, hz, _, hy, rfl⟩ := h
  exact hc.spells rfl (field_app (field_app (field_app (field_app (field_head hm) (field_zero hz)) rfl) (field_zero hy)) rfl)

theorem dLda_spells (h : dLda w = .ok i) (hm : (fMajor w).toNat = (0x31 : BitVec 6).toNat) : Spells 0 w i := by
  have hc : Coded 0 eLda (fun f => f.a.okS) .lda := fun _ => ⟨rfl, rfl, rfl⟩
  simp only [dLda, dec_bind_ok, decScope_ok, decOSize_ok, opnd_ok, zeroField_ok, dec_pure_ok] at h
  obtain ⟨_, es, _, ez, a, ⟨ha, ea⟩, _, hz, _, hy, rfl⟩ := h
  exact hc.spells ha (field_app (field_app (field_app (field_app (field_destA hm ea) es) (field_zero hz)) ez) (field_zero hy))

theorem dStl_spells (h : dStl w = .ok i) (hm : (fMajor w).toNat = (0x32 : BitVec 6).toNat) : Spells 0 w i := by
  have hc : Coded 0 eStl (fun f => f.a.okS) .stl := fun _ => ⟨rfl, rfl, rfl⟩
  simp only [dStl, dec_bind_ok, decScope_ok, decOSize_ok, opnd_ok, zeroField_ok, dec_pure_ok] at h
  obtain ⟨_, es, _, ez, a, ⟨ha, ea⟩, _, hx, _, hz, _, hy, rfl⟩ := h
  exact hc.spells ha
    (field_app (field_app (field_app (field_app (field_app (field_app (field_app (field_head hm) (field_zero hx)) rfl) ea)
      es) (field_zero hz)) ez) (field_zero hy))

theorem dFence_spells (h : dFence w = .ok i) (hm : (fMajor w).toNat = (0x33 : BitVec 6).toNat) : Spells 0 w i := by
  have hc : Coded 0 eFence (fun _ => true) .fence := fun _ => ⟨rfl, rfl, rfl⟩
  simp only [dFence, dec_bind_ok, decScope_ok, decFenceKind_ok, zeroField_ok, dec_pure_ok] at h
  obtain ⟨_, es, _, ek, _, hz, _, hy, rfl⟩ := h
  exact hc.spells rfl (field_app (field_app (field_app (field_app (field_head hm) (field_zero hz)) es) (field_zero hy)) ek)

theorem dPhase_spells (h : dPhase w = .ok i) (hm : (fMajor w).toNat = (0x3A : BitVec 6).toNat) : Spells 0 w i := by
  have hc : Coded 0 ePhase (fun f => f.a.okS) .phase := fun _ => ⟨rfl, rfl, rfl⟩
  simp only [dPhase, dec_bind_ok, opnd_ok, zeroField_ok, dec_pure_ok] at h
  obtain ⟨a, ⟨ha, ea⟩, _, hz, _, hy, rfl⟩ := h
  exact hc.spells ha (field_app (field_app (field_onlyA hm hz ea) rfl) (field_zero hy))

/-- A form of a major and a sub with every other field zero. -/
theorem eZsub_spells {c} (hc : Coded j (eZsub m s) (fun _ => true) c) (hz : w.extractLsb' 4 18 = 0) (hm : (fMajor w).toNat = m.toNat)
    (hs : (fMinor w).toNat = s.toNat) : Spells j w (c { gd := fGuard w }) :=
  hc.spells rfl (field_app (field_app (field_head hm) (field_zero hz)) (field_minor hs))

theorem dCT_spells (h : dCT w = .ok i) (hm : (fMajor w).toNat = (0x3C : BitVec 6).toNat) : Spells 0 w i := by
  unfold dCT at h
  split at h
  · next hs =>
    have hc : Coded 0 eTrap (fun _ => true) .trap := fun _ => ⟨rfl, rfl, rfl⟩
    simp only [dec_bind_ok, zeroField_ok, dec_pure_ok] at h
    obtain ⟨_, hz, _, hy, rfl⟩ := h
    exact hc.spells rfl
      (field_app (field_app (field_app (field_app (field_head hm) (field_zero hz)) rfl) (field_zero hy)) (field_minor (m := 0) hs))
  · next hs =>
    simp only [dec_bind_ok, zeroField_ok, dec_pure_ok] at h
    obtain ⟨_, hz, rfl⟩ := h
    exact eZsub_spells (c := .eret) (s := 1) (fun _ => ⟨rfl, rfl, rfl⟩) hz hm hs
  · next hs =>
    simp only [dec_bind_ok, zeroField_ok, dec_pure_ok] at h
    obtain ⟨_, hz, rfl⟩ := h
    exact eZsub_spells (c := .yield) (s := 2) (fun _ => ⟨rfl, rfl, rfl⟩) hz hm hs
  · next hs =>
    have hc : Coded 0 (eA 0x3C 3) (fun f => f.a.okS) .waite := fun _ => ⟨rfl, rfl, rfl⟩
    simp only [dec_bind_ok, opnd_ok, zeroField_ok, dec_pure_ok] at h
    obtain ⟨a, ⟨ha, ea⟩, _, hz, _, hy, rfl⟩ := h
    exact hc.spells ha (field_app (field_app (field_onlyA hm hz ea) (field_zero hy)) (field_minor (m := 3) hs))
  · next hs =>
    simp only [dec_bind_ok, zeroField_ok, dec_pure_ok] at h
    obtain ⟨_, hz, rfl⟩ := h
    exact eZsub_spells (c := .haltctx) (s := 4) (fun _ => ⟨rfl, rfl, rfl⟩) hz hm hs
  · next hs =>
    simp only [dec_bind_ok, zeroField_ok, dec_pure_ok] at h
    obtain ⟨_, hz, rfl⟩ := h
    exact eZsub_spells (c := .dbgbrk) (s := 5) (fun _ => ⟨rfl, rfl, rfl⟩) hz hm hs
  · cases h

/-- Major by major, in the order of the decoder's table. -/
theorem decodeSlot0_spells (h : decodeSlot0 w = .ok i) : Spells 0 w i := by
  unfold decodeSlot0 at h
  split at h
  · next hm => exact dZ_spells h (fun _ => ⟨rfl, rfl, rfl⟩) hm
  · next hm => exact dS3z_spells h (fun _ => ⟨rfl, rfl, rfl⟩) hm
  · next hm => exact dS3z_spells h (fun _ => ⟨rfl, rfl, rfl⟩) hm
  · next hm => exact dS3z_spells h (fun _ => ⟨rfl, rfl, rfl⟩) hm
  · next hm => exact dS3z_spells h (fun _ => ⟨rfl, rfl, rfl⟩) hm
  · next hm => exact dS3z_spells h (fun _ => ⟨rfl, rfl, rfl⟩) hm
  · next hm => exact dS3z_spells h (fun _ => ⟨rfl, rfl, rfl⟩) hm
  · next hm => exact dS3z_spells h (fun _ => ⟨rfl, rfl, rfl⟩) hm
  · next hm => exact dS3z_spells h (fun _ => ⟨rfl, rfl, rfl⟩) hm
  · next hm => exact dS3z_spells h (fun _ => ⟨rfl, rfl, rfl⟩) hm
  · next hm => exact dS3z_spells h (fun _ => ⟨rfl, rfl, rfl⟩) hm
  · next hm => exact dS3z_spells h (fun _ => ⟨rfl, rfl, rfl⟩) hm
  · next hm => exact dS3z_spells h (fun _ => ⟨rfl, rfl, rfl⟩) hm
  · next hm => exact dS3z_spells h (fun _ => ⟨rfl, rfl, rfl⟩) hm
  · next hm => exact dS3z_spells h (fun _ => ⟨rfl, rfl, rfl⟩) hm
  · next hm => exact dS3z_spells h (fun _ => ⟨rfl, rfl, rfl⟩) hm
  · next hm => exact dS3z_spells h (fun _ => ⟨rfl, rfl, rfl⟩) hm
  · next hm => exact dS3z_spells h (fun _ => ⟨rfl, rfl, rfl⟩) hm
  · next hm => exact dS3z_spells h (fun _ => ⟨rfl, rfl, rfl⟩) hm
  · next hm => exact dS3z_spells h (fun _ => ⟨rfl, rfl, rfl⟩) hm
  · next hm => exact dS3z_spells h (fun _ => ⟨rfl, rfl, rfl⟩) hm
  · next hm =>
    split at h
    · next hs => exact dS2_spells (s := 0) h (fun _ => ⟨rfl, rfl, rfl⟩) hm hs
    · next hs => exact dS2_spells (s := 1) h (fun _ => ⟨rfl, rfl, rfl⟩) hm hs
    · next hs => exact dS2_spells (s := 2) h (fun _ => ⟨rfl, rfl, rfl⟩) hm hs
    · cases h
  · next hm => exact dSel_spells h hm
  · next hm => exact dSI_spells h (fun _ => ⟨rfl, rfl, rfl⟩) hm
  · next hm => exact dSI_spells h (fun _ => ⟨rfl, rfl, rfl⟩) hm
  · next hm => exact dSI_spells h (fun _ => ⟨rfl, rfl, rfl⟩) hm
  · next hm => exact dSI_spells h (fun _ => ⟨rfl, rfl, rfl⟩) hm
  · next hm => exact dSH_spells h hm
  · next hm => exact dSL_spells h (fun _ => ⟨rfl, rfl, rfl⟩) hm
  · next hm => exact dSL_spells h (fun _ => ⟨rfl, rfl, rfl⟩) hm
  · next hm => exact dPC_spells h hm
  · next hm => exact dPL_spells h hm
  · next hm => exact dBR_spells h (fun _ => ⟨rfl, rfl, rfl⟩) hm
  · next hm => exact dBR_spells h (fun _ => ⟨rfl, rfl, rfl⟩) hm
  · next hm => exact dCI_spells h (fun _ => ⟨rfl, rfl, rfl⟩) hm
  · next hm => exact dZ_spells h (fun _ => ⟨rfl, rfl, rfl⟩) hm
  · next hm => exact dBS_spells h hm
  · next hm => exact dZ_spells h (fun _ => ⟨rfl, rfl, rfl⟩) hm
  · next hm => exact dLd_spells h (fun _ => ⟨rfl, (Bool.and_true _).symm, rfl⟩) hm
  · next hm => exact dLd_spells h (fun _ => ⟨rfl, rfl, rfl⟩) hm
  · next hm => exact dSt_spells h hm
  · next hm => exact dLdfe_spells h hm
  · next hm => exact dStfe_spells h hm
  · next hm => exact dPld_spells h hm
  · next hm => exact dXmov_spells h hm
  · next hm => exact dSR_spells h hm
  · next hm => exact dSW_spells h hm
  · next hm => exact dCI_spells h (fun _ => ⟨rfl, rfl, rfl⟩) hm
  · next hm => exact dLda_spells h hm
  · next hm => exact dStl_spells h hm
  · next hm => exact dFence_spells h hm
  · next hm => exact dZ_spells h (fun _ => ⟨rfl, rfl, rfl⟩) hm
  · next hm =>
    split at h
    · next hs => exact dS3_spells (s := 0) h (fun _ => ⟨rfl, rfl, rfl⟩) hm hs
    · next hs => exact dS3_spells (s := 1) h (fun _ => ⟨rfl, rfl, rfl⟩) hm hs
    · next hs => exact dS3_spells (s := 2) h (fun _ => ⟨rfl, rfl, rfl⟩) hm hs
    · next hs => exact dS3_spells (s := 3) h (fun _ => ⟨rfl, rfl, rfl⟩) hm hs
    · next hs => exact dS3_spells (s := 4) h (fun _ => ⟨rfl, rfl, rfl⟩) hm hs
    · next hs => exact dS3_spells (s := 5) h (fun _ => ⟨rfl, rfl, rfl⟩) hm hs
    · next hs => exact dS3_spells (s := 6) h (fun _ => ⟨rfl, rfl, rfl⟩) hm hs
    · next hs => exact dS3_spells (s := 7) h (fun _ => ⟨rfl, rfl, rfl⟩) hm hs
    · next hs => exact dS3_spells (s := 8) h (fun _ => ⟨rfl, rfl, rfl⟩) hm hs
    · cases h
  · next hm => exact dS3z_spells h (fun _ => ⟨rfl, rfl, rfl⟩) hm
  · next hm =>
    split at h
    · next hs => exact dAB_spells (s := 0) h (fun _ => ⟨rfl, rfl, rfl⟩) hm hs
    · next hs => exact dS2_spells (s := 1) h (fun _ => ⟨rfl, rfl, rfl⟩) hm hs
    · next hs => exact dA_spells (s := 2) h (fun _ => ⟨rfl, rfl, rfl⟩) hm hs
    · cases h
  · next hm =>
    split at h
    · next hs => exact dA_spells (s := 0) h (fun _ => ⟨rfl, rfl, rfl⟩) hm hs
    · next hs => exact dA_spells (s := 1) h (fun _ => ⟨rfl, rfl, rfl⟩) hm hs
    · next hs => exact dA_spells (s := 2) h (fun _ => ⟨rfl, rfl, rfl⟩) hm hs
    · next hs => exact dS2_spells (s := 3) h (fun _ => ⟨rfl, rfl, rfl⟩) hm hs
    · cases h
  · next hm =>
    simp only [dec_bind_ok, need_ok, beq_iff_eq] at h
    obtain ⟨_, hs, h⟩ := h
    exact dAB_spells (s := 0) h (fun _ => ⟨rfl, rfl, rfl⟩) hm (congrArg BitVec.toNat hs)
  · next hm => exact dPhase_spells h hm
  · next hm =>
    split at h
    · next hs => exact dS2_spells (s := 0) h (fun _ => ⟨rfl, rfl, rfl⟩) hm hs
    · next hs => exact dAB_spells (s := 1) h (fun _ => ⟨rfl, rfl, rfl⟩) hm hs
    · cases h
  · next hm => exact dCT_spells h hm
  · cases h
end

end Sys2Proof
end

section
/-! SUPPORT. Encoding undoes decoding in slots 1 and 2 (R141, R142, R155, R330): every form of them, and the slots. -/

namespace Sys2Proof

section
variable {w : BitVec 32} {j : Nat} {m : BitVec 6} {s : BitVec 4} {i : Instr}

theorem dV3_spells {Q : Type} {dq : BitVec 2 → Dec Q} {eq : Q → BitVec 2} {c} (h : dV3 w dq c = .ok i)
    (hc : Coded j (eV3 m eq) (fun _ => true) c) (hq : ∀ {c q}, dq c = .ok q ↔ eq q = c) (hm : (fMajor w).toNat = m.toNat) :
    Spells j w i := by
  simp only [dV3, dec_bind_ok, hq, opnd_ok, fWidth, decWidth_ok, dec_pure_ok] at h
  obtain ⟨_, eq, a, ⟨_, ea⟩, b, ⟨_, eb⟩, _, ew, rfl⟩ := h
  exact hc.spells rfl (field_app (field_app (field_app (field_destA hm ea) eb) ew) eq)

theorem dV1_spells {Q : Type} {dq : BitVec 2 → Dec Q} {eq : Q → BitVec 2} {c} (h : dV1 w dq c = .ok i)
    (hc : Coded j (eV1 m eq) (fun _ => true) c) (hq : ∀ {c q}, dq c = .ok q ↔ eq q = c) (hm : (fMajor w).toNat = m.toNat) :
    Spells j w i := by
  simp only [dV1, dec_bind_ok, hq, opnd_ok, fWidth, decWidth_ok, zeroField_ok, dec_pure_ok] at h
  obtain ⟨_, eq, a, ⟨_, ea⟩, _, hz, _, ew, rfl⟩ := h
  exact hc.spells rfl (field_app (field_app (field_app (field_destA hm ea) (field_zero hz)) ew) eq)

theorem dV1n_spells {c} (h : dV1n w c = .ok i) (hc : Coded j (eV1n m) (fun _ => true) c) (hm : (fMajor w).toNat = m.toNat) :
    Spells j w i := by
  simp only [dV1n, dec_bind_ok, decNoQ_ok, opnd_ok, fWidth, decWidth_ok, zeroField_ok, dec_pure_ok] at h
  obtain ⟨_, eq, a, ⟨_, ea⟩, _, hz, _, ew, rfl⟩ := h
  exact hc.spells rfl (field_app (field_app (field_app (field_destA hm ea) (field_zero hz)) ew) (field_zero eq))

theorem dVmov_spells (h : dVmov w = .ok i) (hj : (j == 1 || j == 2) = true) (hm : (fMajor w).toNat = (0x28 : BitVec 6).toNat) :
    Spells j w i := by
  simp only [dVmov, dec_bind_ok, decNoQ_ok, opnd_ok] at h
  obtain ⟨_, eq, a, ⟨_, ea⟩, h⟩ := h
  split at h
  · next hz =>
    have hc : Coded j (eV1n 0x28) (fun _ => true) .vmov := fun _ => ⟨rfl, rfl, hj⟩
    simp only [dec_bind_ok, fWidth, decWidth_ok, dec_pure_ok] at h
    obtain ⟨_, ew, rfl⟩ := h
    exact hc.spells rfl (field_app (field_app (field_app (field_destA hm ea) (field_zero (beq_iff_eq.mp hz))) ew) (field_zero eq))
  · split at h
    · next hp =>
      have hc : Coded j eVpush (fun _ => true) .vmovPush := fun _ => ⟨rfl, rfl, hj⟩
      simp only [dec_bind_ok, fWidth, decWidth_ok, dec_pure_ok] at h
      obtain ⟨_, ew, rfl⟩ := h
      exact hc.spells rfl (field_app (field_app (field_app (field_destA hm ea) (encOpnd_dec hp)) ew) (field_zero eq))
    · cases h

theorem dVC_spells {C Q : Type} {dc : BitVec 2 → C} {dq : BitVec 2 → Dec Q} {ec : C → BitVec 2} {eq : Q → BitVec 2} {c}
    (h : dVC w dc dq c = .ok i) (hc : Coded j (eVC m ec eq) (fun _ => true) c) (hd : ∀ c, ec (dc c) = c)
    (hq : ∀ {c q}, dq c = .ok q ↔ eq q = c) (hm : (fMajor w).toNat = m.toNat) : Spells j w i := by
  simp only [dVC, dec_bind_ok, hq, opnd_ok, fWidth, decWidth_ok, zeroField_ok, dec_pure_ok] at h
  obtain ⟨_, eq, a, ⟨_, ea⟩, b, ⟨_, eb⟩, _, hz, _, ew, rfl⟩ := h
  exact hc.spells rfl
    (field_app (field_app (field_app (field_app (field_app (field_app (field_app (field_head hm) (field_zero hz)) (hd _))
      rfl) ea) eb) ew) eq)

theorem dVK_spells (h : dVK w = .ok i) (hj : (j == 1 || j == 2) = true) (hm : (fMajor w).toNat = (0x1F : BitVec 6).toNat) :
    Spells j w i := by
  have hc : Coded j eVK (fun _ => true) .vmrg := fun _ => ⟨rfl, rfl, hj⟩
  simp only [dVK, dec_bind_ok, decNoQ_ok, opnd_ok, fWidth, decWidth_ok, zeroField_ok, dec_pure_ok] at h
  obtain ⟨_, eq, a, ⟨_, ea⟩, _, hz, _, ew, rfl⟩ := h
  exact hc.spells rfl
    (field_app (field_app (field_app (field_app (field_destA hm ea) rfl) (field_zero hz)) ew) (field_zero eq))

theorem dKL_spells (h : dKL w = .ok i) (hj : (j == 1 || j == 2) = true) (hm : (fMajor w).toNat = (0x29 : BitVec 6).toNat) :
    Spells j w i := by
  have hc : Coded j eKL FKL.ok .klog := fun _ => ⟨rfl, rfl, hj⟩
  simp only [dKL, dec_bind_ok, decKlogOp_ok, zeroField_ok, need_ok, dec_pure_ok] at h
  obtain ⟨_, eo, _, h1, _, h2, _, h3, _, hok, rfl⟩ := h
  exact hc.spells hok
    (field_app (field_app (field_app (field_app (field_app (field_app (field_app (field_head hm) (field_zero h1)) rfl)
      (field_zero h2)) rfl) (field_zero h3)) rfl) eo)

theorem dRed_spells (h : dRed w = .ok i) (hj : (j == 1 || j == 2) = true) (hm : (fMajor w).toNat = (0x20 : BitVec 6).toNat) :
    Spells j w i := by
  have hc : Coded j eRed (fun _ => true) .vred := fun _ => ⟨rfl, rfl, hj⟩
  simp only [dRed, dec_bind_ok, decRedOp_ok, opnd_ok, fWidth, decWidth_ok, zeroField_ok, dec_pure_ok] at h
  obtain ⟨_, ⟨eo, eq⟩, a, ⟨_, ea⟩, _, hz, _, ew, rfl⟩ := h
  exact hc.spells rfl (field_app (field_app (field_app (field_app (field_destA hm ea) eo) (field_zero hz)) ew) eq)

theorem dLane_spells {c} (h : dLane w c = .ok i) (hc : Coded j (eLane m) (fun _ => true) c) (hm : (fMajor w).toNat = m.toNat) :
    Spells j w i := by
  simp only [dLane, dec_bind_ok, decLaneQ_ok, opnd_ok, fWidth, decWidth_ok, dec_pure_ok] at h
  obtain ⟨_, eq, a, ⟨_, ea⟩, _, ew, rfl⟩ := h
  exact hc.spells rfl (field_app (field_app (field_app (field_destA hm ea) rfl) ew) eq)

theorem dCvt_spells (h : dCvt w = .ok i) (hj : (j == 1 || j == 2) = true) (hm : (fMajor w).toNat = (0x25 : BitVec 6).toNat) :
    Spells j w i := by
  have hc : Coded j eCvt FCvt.ok .vcvt := fun _ => ⟨rfl, rfl, hj⟩
  simp only [dCvt, dec_bind_ok, decNoQ_ok, opnd_ok, fWidth, decWidth_ok, need_ok, dec_pure_ok] at h
  obtain ⟨_, eq, a, ⟨_, ea⟩, _, hn, _, ew, rfl⟩ := h
  exact hc.spells hn
    (field_app (field_app (field_app (field_app (field_destA hm ea) (encFmt_dec _)) (encFmt_dec _)) ew) (field_zero eq))

theorem dPack_spells {c} (h : dPack w c = .ok i) (hc : Coded j (ePack m) (fun _ => true) c) (hm : (fMajor w).toNat = m.toNat) :
    Spells j w i := by
  simp only [dPack, dec_bind_ok, decNoQ_ok, opnd_ok, fWidth, decWidth_ok, dec_pure_ok] at h
  obtain ⟨_, eq, a, ⟨_, ea⟩, _, ew, rfl⟩ := h
  exact hc.spells rfl (field_app (field_app (field_app (field_app (field_destA hm ea) rfl) rfl) ew) (field_zero eq))

theorem dVld_spells {c} (h : dVld w c = .ok i) (hc : Coded j (eVld m) (fun f => f.a.okM && f.b.okMx) c)
    (hm : (fMajor w).toNat = m.toNat) : Spells j w i := by
  simp only [dVld, dec_bind_ok, decNoQ_ok, opnd_ok, fWidth, decWidth_ok, dec_pure_ok] at h
  obtain ⟨_, eq, a, ⟨ha, ea⟩, b, ⟨hb, eb⟩, _, ew, rfl⟩ := h
  exact hc.spells (by simp [ha, hb]) (field_app (field_app (field_app (field_destA hm ea) eb) ew) (field_zero eq))

theorem dVst_spells (h : dVst w = .ok i) (hm : (fMajor w).toNat = (0x2C : BitVec 6).toNat) : Spells 1 w i := by
  have hc : Coded 1 eVst (fun f => f.a.okM && f.b.okMx) .vst := fun _ => ⟨rfl, rfl, rfl⟩
  simp only [dVst, dec_bind_ok, decNoQ_ok, opnd_ok, fWidth, decWidth_ok, zeroField_ok, dec_pure_ok] at h
  obtain ⟨_, eq, a, ⟨ha, ea⟩, b, ⟨hb, eb⟩, _, hz, _, ew, rfl⟩ := h
  exact hc.spells (by simp [ha, hb]) (field_app (field_app (field_app (field_dataA hm hz ea) eb) ew) (field_zero eq))

theorem dGather_spells (h : dGather w = .ok i) (hm : (fMajor w).toNat = (0x2E : BitVec 6).toNat) : Spells 1 w i := by
  have hc : Coded 1 (eV3 0x2E encLaneQ) (fun f => f.a.okM && f.b.okM) .vgather := fun _ => ⟨rfl, rfl, rfl⟩
  simp only [dGather, dec_bind_ok, decLaneQ_ok, opnd_ok, fWidth, decWidth_ok, dec_pure_ok] at h
  obtain ⟨_, eq, a, ⟨ha, ea⟩, b, ⟨hb, eb⟩, _, ew, rfl⟩ := h
  exact hc.spells (by simp [ha, hb]) (field_app (field_app (field_app (field_destA hm ea) eb) ew) eq)

theorem dScat_spells (h : dScat w = .ok i) (hm : (fMajor w).toNat = (0x2F : BitVec 6).toNat) : Spells 1 w i := by
  have hc : Coded 1 eScat (fun f => f.a.okM && f.b.okM) .vscatter := fun _ => ⟨rfl, rfl, rfl⟩
  simp only [dScat, dec_bind_ok, decLaneQ_ok, opnd_ok, fWidth, decWidth_ok, zeroField_ok, dec_pure_ok] at h
  obtain ⟨_, eq, a, ⟨ha, ea⟩, b, ⟨hb, eb⟩, _, hz, _, ew, rfl⟩ := h
  exact hc.spells (by simp [ha, hb]) (field_app (field_app (field_app (field_dataA hm hz ea) eb) ew) eq)

theorem dD1_spells {ok} {b : BitVec 1} {c} (h : dD1 w ok c = .ok i) (hc : Coded j (eD1 m b) (fun f => ok f.a) c)
    (hb : b = w.extractLsb' 0 1) (hm : (fMajor w).toNat = m.toNat) : Spells j w i := by
  simp only [dD1, dec_bind_ok, decChain_ok, opnd_ok, zeroField_ok, dec_pure_ok] at h
  obtain ⟨_, ec, a, ⟨ha, ea⟩, _, hz, _, hy, rfl⟩ := h
  exact hc.spells ha (field_app (field_app (field_app (field_dirA hm hz ea) (field_zero hy)) ec) hb)

theorem dDneg_spells (h : dDneg w = .ok i) (hm : (fMajor w).toNat = (0x38 : BitVec 6).toNat) : Spells 2 w i := by
  have hc : Coded 2 (eD1 0x38 0) (fun f => f.a.okD) .dneg := fun _ => ⟨rfl, rfl, rfl⟩
  simp only [dDneg, dec_bind_ok, decChain_ok, opnd_ok, zeroField_ok, dec_pure_ok] at h
  obtain ⟨_, ec, a, ⟨ha, ea⟩, _, hz, _, hy, _, hx, rfl⟩ := h
  exact hc.spells ha (field_app (field_app (field_app (field_dirA hm hz ea) (field_zero hy)) ec) (field_zero hx))

theorem dDN_spells {ok} {c} (h : dDN w ok c = .ok i) (hc : Coded j (eDN m) (fun f => ok f.a) c)
    (hm : (fMajor w).toNat = m.toNat) : Spells j w i := by
  simp only [dDN, dec_bind_ok, decChain_ok, opnd_ok, zeroField_ok, dec_pure_ok] at h
  obtain ⟨_, ec, a, ⟨ha, ea⟩, _, hz, _, hy, rfl⟩ := h
  exact hc.spells ha (field_app (field_app (field_app (field_dirA hm hz ea) (field_zero hy)) ec) (field_bit w 0))

theorem dD2_spells {ok} {c} (h : dD2 w ok c = .ok i) (hc : Coded j (eD2 m) (fun f => f.a.okD && ok f.b) c)
    (hm : (fMajor w).toNat = m.toNat) : Spells j w i := by
  simp only [dD2, dec_bind_ok, decChain_ok, opnd_ok, zeroField_ok, dec_pure_ok] at h
  obtain ⟨_, ec, a, ⟨ha, ea⟩, b, ⟨hb, eb⟩, _, hz, _, hy, rfl⟩ := h
  exact hc.spells (by simp [ha, hb]) (field_app (field_app (field_app (field_dirA hm hz ea) eb) ec) (field_zero hy))

theorem dDzero_spells (h : dDzero w = .ok i) (hm : (fMajor w).toNat = (0x33 : BitVec 6).toNat) : Spells 2 w i := by
  have hc : Coded 2 eD0 (fun _ => true) .dzero := fun _ => ⟨rfl, rfl, rfl⟩
  simp only [dDzero, dec_bind_ok, decChain_ok, zeroField_ok, dec_pure_ok] at h
  obtain ⟨_, ec, _, hz, _, hA, _, hB, _, hy, rfl⟩ := h
  exact hc.spells rfl (field_app (field_app (field_app (field_dir hm hz) (field_zero (zero_AB hA hB))) ec) (field_zero hy))

theorem dDnget_spells (h : dDnget w = .ok i) (hm : (fMajor w).toNat = (0x3B : BitVec 6).toNat) : Spells 2 w i := by
  have hc : Coded 2 eDG (fun f => f.a.okD) .dnget := fun _ => ⟨rfl, rfl, rfl⟩
  simp only [dDnget, dec_bind_ok, need_ok, beq_iff_eq, opnd_ok, zeroField_ok, dec_pure_ok] at h
  obtain ⟨_, hc3, a, ⟨ha, ea⟩, _, hz, _, hB, _, hy, rfl⟩ := h
  exact hc.spells ha (field_app (field_dirA hm hz ea) (field_zero (zero_low hB (zero_join (m := 3) (n := 1) hc3 hy))))

theorem dDmaxcos_spells (h : dDmaxcos w = .ok i) (hm : (fMajor w).toNat = (0x3A : BitVec 6).toNat) : Spells 2 w i := by
  have hc : Coded 2 eDM (fun f => f.a.okD) .dmaxcos := fun _ => ⟨rfl, rfl, rfl⟩
  simp only [dDmaxcos, dec_bind_ok, decChain_ok, opnd_ok] at h
  obtain ⟨_, ec, a, ⟨ha, ea⟩, h⟩ := h
  split at h
  · next hp =>
    simp only [dec_bind_ok, zeroField_ok, dec_pure_ok] at h
    obtain ⟨_, hz, rfl⟩ := h
    exact hc.spells ha (field_app (field_app (field_app (field_dirA hm hz ea) (encOpnd_dec hp)) ec) (field_bit w 0))
  · cases h

/-- Major by major, in the order of the decoder's table. -/
theorem decodeVec_spells (h : decodeVec w = .ok i) (hj : (j == 1 || j == 2) = true) : Spells j w i := by
  unfold decodeVec at h
  split at h
  · next hm => exact dZ_spells h (fun _ => ⟨rfl, rfl, rfl⟩) hm
  · next hm => exact dV3_spells h (fun _ => ⟨rfl, rfl, hj⟩) decFltQ_ok hm
  · next hm => exact dV3_spells h (fun _ => ⟨rfl, rfl, hj⟩) decFltQ_ok hm
  · next hm => exact dV3_spells h (fun _ => ⟨rfl, rfl, hj⟩) decFltQ_ok hm
  · next hm => exact dV3_spells h (fun _ => ⟨rfl, rfl, hj⟩) decFltQ_ok hm
  · next hm => exact dV3_spells h (fun _ => ⟨rfl, rfl, hj⟩) decFltQ_ok hm
  · next hm => exact dV3_spells h (fun _ => ⟨rfl, rfl, hj⟩) decFltQ_ok hm
  · next hm => exact dV3_spells h (fun _ => ⟨rfl, rfl, hj⟩) decFltQ_ok hm
  · next hm => exact dV1_spells h (fun _ => ⟨rfl, rfl, hj⟩) decFltQ_ok hm
  · next hm => exact dV1_spells h (fun _ => ⟨rfl, rfl, hj⟩) decFltQ_ok hm
  · next hm => exact dV1n_spells h (fun _ => ⟨rfl, rfl, hj⟩) hm
  · next hm => exact dV1n_spells h (fun _ => ⟨rfl, rfl, hj⟩) hm
  · next hm => exact dV1n_spells h (fun _ => ⟨rfl, rfl, hj⟩) hm
  · next hm => exact dV1n_spells h (fun _ => ⟨rfl, rfl, hj⟩) hm
  · next hm => exact dV1n_spells h (fun _ => ⟨rfl, rfl, hj⟩) hm
  · next hm => exact dVC_spells h (fun _ => ⟨rfl, rfl, hj⟩) encVCond_dec decFltQ_ok hm
  · next hm => exact dV3_spells h (fun _ => ⟨rfl, rfl, hj⟩) decIntQ_ok hm
  · next hm => exact dV3_spells h (fun _ => ⟨rfl, rfl, hj⟩) decIntQ_ok hm
  · next hm => exact dV3_spells h (fun _ => ⟨rfl, rfl, hj⟩) decIntQ_ok hm
  · next hm => exact dV3_spells h (fun _ => ⟨rfl, rfl, hj⟩) decIntQ_ok hm
  · next hm => exact dV3_spells h (fun _ => ⟨rfl, rfl, hj⟩) decIntQ_ok hm
  · next hm => exact dV3_spells h (fun _ => ⟨rfl, rfl, hj⟩) decIntQ_ok hm
  · next hm => exact dVC_spells h (fun _ => ⟨rfl, rfl, hj⟩) encVICond_dec decIntQ_ok hm
  · next hm => exact dV3_spells h (fun _ => ⟨rfl, rfl, hj⟩) decLaneQ_ok hm
  · next hm => exact dV3_spells h (fun _ => ⟨rfl, rfl, hj⟩) decLaneQ_ok hm
  · next hm => exact dV3_spells h (fun _ => ⟨rfl, rfl, hj⟩) decLaneQ_ok hm
  · next hm => exact dV3_spells h (fun _ => ⟨rfl, rfl, hj⟩) decLaneQ_ok hm
  · next hm => exact dV3_spells h (fun _ => ⟨rfl, rfl, hj⟩) decLaneQ_ok hm
  · next hm => exact dV3_spells h (fun _ => ⟨rfl, rfl, hj⟩) decLaneQ_ok hm
  · next hm => exact dV3_spells h (fun _ => ⟨rfl, rfl, hj⟩) decLaneQ_ok hm
  · next hm => exact dVK_spells h hj hm
  · next hm => exact dRed_spells h hj hm
  · next hm => exact dV3_spells h (fun _ => ⟨rfl, rfl, hj⟩) decLaneQ_ok hm
  · next hm => exact dLane_spells h (fun _ => ⟨rfl, rfl, hj⟩) hm
  · next hm => exact dLane_spells h (fun _ => ⟨rfl, rfl, hj⟩) hm
  · next hm => exact dLane_spells h (fun _ => ⟨rfl, rfl, hj⟩) hm
  · next hm => exact dCvt_spells h hj hm
  · next hm => exact dPack_spells h (fun _ => ⟨rfl, rfl, hj⟩) hm
  · next hm => exact dPack_spells h (fun _ => ⟨rfl, rfl, hj⟩) hm
  · next hm => exact dVmov_spells h hj hm
  · next hm => exact dKL_spells h hj hm
  · cases h

/-- Major by major, in the order of the decoder's table. -/
theorem decodeSlot1_spells (h : decodeSlot1 w = .ok i) : Spells 1 w i := by
  unfold decodeSlot1 at h
  split at h
  · next hm => exact dVld_spells h (fun _ => ⟨rfl, rfl, rfl⟩) hm
  · next hm => exact dVst_spells h hm
  · next hm => exact dVld_spells h (fun _ => ⟨rfl, rfl, rfl⟩) hm
  · next hm => exact dGather_spells h hm
  · next hm => exact dScat_spells h hm
  · exact decodeVec_spells h rfl

/-- Major by major, in the order of the decoder's table. -/
theorem decodeSlot2_spells (h : decodeSlot2 w = .ok i) : Spells 2 w i := by
  unfold decodeSlot2 at h
  split at h
  · next hm => exact dDN_spells h (fun _ => ⟨rfl, rfl, rfl⟩) hm
  · next hm => exact dDN_spells h (fun _ => ⟨rfl, rfl, rfl⟩) hm
  · next hm =>
    split at h
    · next hb => exact dD1_spells h (fun _ => ⟨rfl, rfl, rfl⟩) (b := 1) (field_bit_val hb) hm
    · next hb => exact dD1_spells h (fun _ => ⟨rfl, rfl, rfl⟩) (b := 0) (field_bit_val (Bool.eq_false_of_not_eq_true hb)) hm
  · next hm => exact dDzero_spells h hm
  · next hm => exact dD2_spells h (fun _ => ⟨rfl, rfl, rfl⟩) hm
  · next hm => exact dD2_spells h (fun _ => ⟨rfl, rfl, rfl⟩) hm
  · next hm => exact dD2_spells h (fun _ => ⟨rfl, rfl, rfl⟩) hm
  · next hm => exact dD2_spells h (fun _ => ⟨rfl, rfl, rfl⟩) hm
  · next hm => exact dDneg_spells h hm
  · next hm => exact dD2_spells h (fun _ => ⟨rfl, rfl, rfl⟩) hm
  · next hm => exact dDmaxcos_spells h hm
  · next hm => exact dDnget_spells h hm
  · next hm => exact dD2_spells h (fun _ => ⟨rfl, rfl, rfl⟩) hm
  · exact decodeVec_spells h rfl
end

end Sys2Proof
end

section
/-! SUPPORT. Encoding undoes decoding in slot 3 (R143, R156, R260): every form of it, and the slot. -/

namespace Sys2Proof

section
variable {w : BitVec 32} {j : Nat} {m : BitVec 6} {s : BitVec 4} {i : Instr}

theorem dE2_spells {c} (h : dE2 w c = .ok i) (hc : Coded j (eE2 m) (fun f => f.a.okE && f.b.okE) c)
    (hm : (fMajor w).toNat = m.toNat) : Spells j w i := by
  simp only [dE2, dec_bind_ok, need_ok, beq_iff_eq, opnd_ok, mdOk_ok, dec_pure_ok] at h
  obtain ⟨_, hs, a, ⟨ha, ea⟩, b, ⟨hb, eb⟩, _, ⟨hd, _⟩, rfl⟩ := h
  exact hc.spells (by simp [ha, hb]) (field_app (field_app (field_mdA hm hd ea) eb) (field_zero hs))

theorem dE1_spells {c} (h : dE1 w c = .ok i) (hc : Coded j (eE1 m s) (fun f => f.a.okE) c) (hm : (fMajor w).toNat = m.toNat)
    (hs : (fMinor w).toNat = s.toNat) : Spells j w i := by
  simp only [dE1, dec_bind_ok, opnd_ok, mdOk_ok, zeroField_ok, dec_pure_ok] at h
  obtain ⟨a, ⟨ha, ea⟩, _, ⟨hd, _⟩, _, hz, rfl⟩ := h
  exact hc.spells ha (field_app (field_app (field_mdA hm hd ea) (field_zero hz)) (field_minor hs))

theorem dEA_spells {c} (h : dEA w c = .ok i) (hc : Coded j (eA m 0) (fun f => f.a.okE) c) (hm : (fMajor w).toNat = m.toNat) :
    Spells j w i := by
  simp only [dEA, dec_bind_ok, need_ok, beq_iff_eq, opnd_ok, zeroField_ok, dec_pure_ok] at h
  obtain ⟨_, hs, a, ⟨ha, ea⟩, _, hz, _, hy, rfl⟩ := h
  exact hc.spells ha (field_app (field_app (field_onlyA hm hz ea) (field_zero hy)) (field_zero hs))

theorem dEAB_spells {c} (h : dEAB w c = .ok i) (hc : Coded j (eAB m 0) (fun f => f.a.okE && f.b.okE) c)
    (hm : (fMajor w).toNat = m.toNat) : Spells j w i := by
  simp only [dEAB, dec_bind_ok, need_ok, beq_iff_eq, opnd_ok, zeroField_ok, dec_pure_ok] at h
  obtain ⟨_, hs, a, ⟨ha, ea⟩, b, ⟨hb, eb⟩, _, hz, rfl⟩ := h
  exact hc.spells (by simp [ha, hb]) (field_app (field_app (field_onlyA hm hz ea) eb) (field_zero hs))

theorem dRset_spells (h : dRset w = .ok i) (hm : (fMajor w).toNat = (0x04 : BitVec 6).toNat) : Spells 3 w i := by
  have hc : Coded 3 eRset (fun f => f.a.okE) .rset := fun _ => ⟨rfl, rfl, rfl⟩
  simp only [dRset, dec_bind_ok, need_ok, beq_iff_eq, opnd_ok, zeroField_ok, dec_pure_ok] at h
  obtain ⟨_, hs, a, ⟨ha, ea⟩, _, hx, _, hy, rfl⟩ := h
  exact hc.spells ha
    (field_app (field_app (field_app (field_app (field_head hm) (field_zero hx)) rfl) ea) (field_zero (zero_low hy hs)))

theorem dRstat_spells (h : dRstat w = .ok i) (hm : (fMajor w).toNat = (0x06 : BitVec 6).toNat) : Spells 3 w i := by
  have hc : Coded 3 eRstat (fun f => f.a.okE) .rstat := fun _ => ⟨rfl, rfl, rfl⟩
  simp only [dRstat, dec_bind_ok, opnd_ok, mdOk_ok, zeroField_ok, dec_pure_ok] at h
  obtain ⟨_, hk, a, ⟨ha, ea⟩, _, ⟨hd, _⟩, _, hz, rfl⟩ := h
  split at hk
  · next hs =>
    cases hk
    exact hc.spells ha (field_app (field_app (field_mdA hm hd ea) (field_zero hz)) (field_minor (m := 0) hs))
  · next hs =>
    cases hk
    exact hc.spells ha (field_app (field_app (field_mdA hm hd ea) (field_zero hz)) (field_minor (m := 1) hs))
  · next hs =>
    cases hk
    exact hc.spells ha (field_app (field_app (field_mdA hm hd ea) (field_zero hz)) (field_minor (m := 2) hs))
  · cases hk

theorem dPortA_spells {c} (h : dPortA w c = .ok i) (hc : Coded j (ePortA m s) (fun f => f.a.okE) c)
    (hm : (fMajor w).toNat = m.toNat) (hs : (fMinor w).toNat = s.toNat) : Spells j w i := by
  simp only [dPortA, dec_bind_ok, opnd_ok, mdOk_ok, zeroField_ok, dec_pure_ok] at h
  obtain ⟨a, ⟨ha, ea⟩, _, ⟨hd, hf⟩, _, hz, rfl⟩ := h
  exact hc.spells ha (field_app (field_app (field_portA hm hd hf ea) (field_zero hz)) (field_minor hs))

theorem dSunbind_spells (h : dSunbind w = .ok i) (hm : (fMajor w).toNat = (0x08 : BitVec 6).toNat) : Spells 3 w i := by
  have hc : Coded 3 ePort (fun _ => true) .sunbind := fun _ => ⟨rfl, rfl, rfl⟩
  simp only [dSunbind, dec_bind_ok, need_ok, beq_iff_eq, mdOk_ok, zeroField_ok, dec_pure_ok] at h
  obtain ⟨_, hs, _, ⟨hd, hf⟩, _, hA, _, hB, rfl⟩ := h
  exact hc.spells rfl
    (field_app (field_app (field_head hm) (field_md_free hd hf)) (field_zero (zero_join (m := 6) (n := 10) hA (zero_low hB
      hs))))

theorem dCopy_spells (h : dCopy w = .ok i) (hm : (fMajor w).toNat = (0x0B : BitVec 6).toNat) : Spells 3 w i := by
  have hc : Coded 3 eCopy (fun f => f.a.okE && f.b.okE) .copy := fun _ => ⟨rfl, rfl, rfl⟩
  simp only [dCopy, dec_bind_ok, need_ok, beq_iff_eq, opnd_ok, mdOk_ok, dec_pure_ok] at h
  obtain ⟨_, hz, a, ⟨ha, ea⟩, b, ⟨hb, eb⟩, _, ⟨hd, hf⟩, rfl⟩ := h
  exact hc.spells (by simp [ha, hb])
    (field_app (field_app (field_app (field_portA hm hd hf ea) eb) (field_zero hz)) (field_bit w 0))

theorem dRelease_spells (h : dRelease w = .ok i) (hm : (fMajor w).toNat = (0x15 : BitVec 6).toNat) : Spells 3 w i := by
  have hc : Coded 3 eRel (fun f => f.a.okE && f.b.okE) .release := fun _ => ⟨rfl, rfl, rfl⟩
  simp only [dRelease, dec_bind_ok, need_ok, beq_iff_eq, opnd_ok, mdOk_ok, dec_pure_ok] at h
  obtain ⟨_, hs, a, ⟨ha, ea⟩, b, ⟨hb, eb⟩, _, ⟨hd, hf⟩, rfl⟩ := h
  exact hc.spells (by simp [ha, hb]) (field_app (field_app (field_portA hm hd hf ea) eb) (field_zero hs))

theorem dCresume_spells (h : dCresume w = .ok i) (hm : (fMajor w).toNat = (0x0C : BitVec 6).toNat) : Spells 3 w i := by
  simp only [dCresume, dec_bind_ok, zeroField_ok, dec_pure_ok] at h
  obtain ⟨k, hk, _, hz, rfl⟩ := h
  split at hk
  · next hs => cases hk; exact eZsub_spells (s := 0) (fun _ => ⟨rfl, rfl, rfl⟩) hz hm hs
  · next hs => cases hk; exact eZsub_spells (s := 1) (fun _ => ⟨rfl, rfl, rfl⟩) hz hm hs
  · next hs => cases hk; exact eZsub_spells (s := 2) (fun _ => ⟨rfl, rfl, rfl⟩) hz hm hs
  · cases hk

theorem dCstat_spells (h : dCstat w = .ok i) (hm : (fMajor w).toNat = (0x0D : BitVec 6).toNat) : Spells 3 w i := by
  have hc : Coded 3 eCstat (fun _ => true) .cstat := fun _ => ⟨rfl, rfl, rfl⟩
  simp only [dCstat, dec_bind_ok, mdOk_ok, zeroField_ok, dec_pure_ok] at h
  obtain ⟨_, hk, _, ⟨hd, _⟩, _, hA, _, hB, rfl⟩ := h
  split at hk
  · next hs =>
    cases hk
    exact hc.spells rfl
      (field_app (field_app (field_app (field_head hm) (field_md hd)) (field_zero (zero_AB hA hB))) (field_minor (m := 0)
        hs))
  · next hs =>
    cases hk
    exact hc.spells rfl
      (field_app (field_app (field_app (field_head hm) (field_md hd)) (field_zero (zero_AB hA hB))) (field_minor (m := 1)
        hs))
  · next hs =>
    cases hk
    exact hc.spells rfl
      (field_app (field_app (field_app (field_head hm) (field_md hd)) (field_zero (zero_AB hA hB))) (field_minor (m := 2)
        hs))
  · cases hk

theorem dRndstat_spells (h : dRndstat w = .ok i) (hm : (fMajor w).toNat = (0x18 : BitVec 6).toNat) : Spells 3 w i := by
  have hc : Coded 3 eRnd (fun _ => true) .rndstat := fun _ => ⟨rfl, rfl, rfl⟩
  simp only [dRndstat, dec_bind_ok, mdOk_ok, zeroField_ok, dec_pure_ok] at h
  obtain ⟨_, hk, _, ⟨hd, _⟩, _, hA, _, hB, rfl⟩ := h
  split at hk
  · next hs =>
    cases hk
    exact hc.spells rfl
      (field_app (field_app (field_app (field_head hm) (field_md hd)) (field_zero (zero_AB hA hB))) (field_minor (m := 0)
        hs))
  · next hs =>
    cases hk
    exact hc.spells rfl
      (field_app (field_app (field_app (field_head hm) (field_md hd)) (field_zero (zero_AB hA hB))) (field_minor (m := 1)
        hs))
  · cases hk

theorem dHwait_spells (h : dHwait w = .ok i) (hm : (fMajor w).toNat = (0x0F : BitVec 6).toNat) : Spells 3 w i := by
  have hc : Coded 3 eHwait (fun f => f.a.okE) .hwait := fun _ => ⟨rfl, rfl, rfl⟩
  unfold dHwait at h
  split at h
  · next hs =>
    simp only [dec_bind_ok, opnd_ok, mdOk_ok, zeroField_ok, dec_pure_ok] at h
    obtain ⟨a, ⟨ha, ea⟩, _, ⟨hd, _⟩, _, hz, rfl⟩ := h
    exact hc.spells ha (field_app (field_app (field_mdA hm hd ea) (field_zero hz)) (field_minor (m := 0) hs))
  · next hs =>
    simp only [dec_bind_ok, opnd_ok, mdOk_ok, zeroField_ok, dec_pure_ok] at h
    obtain ⟨a, ⟨ha, ea⟩, _, ⟨hd, _⟩, _, hz, rfl⟩ := h
    exact hc.spells ha (field_app (field_app (field_mdA hm hd ea) (field_zero hz)) (field_minor (m := 1) hs))
  · next hs => exact dE1_spells (s := 2) h (fun _ => ⟨rfl, rfl, rfl⟩) hm hs
  · cases h

theorem dTrpush_spells (h : dTrpush w = .ok i) (hm : (fMajor w).toNat = (0x12 : BitVec 6).toNat) : Spells 3 w i := by
  have hc : Coded 3 eTrpush (fun _ => true) .trpush := fun _ => ⟨rfl, rfl, rfl⟩
  simp only [dTrpush, dec_bind_ok, zeroField_ok, dec_pure_ok] at h
  obtain ⟨_, hz, _, hy, rfl⟩ := h
  exact hc.spells rfl
    (field_app (field_app (field_app (field_app (field_head hm) (field_zero hz)) rfl) (field_zero hy)) (field_vfile w))

theorem dTrpull_spells (h : dTrpull w = .ok i) (hm : (fMajor w).toNat = (0x13 : BitVec 6).toNat) : Spells 3 w i := by
  have hc : Coded 3 eTrpull (fun _ => true) .trpull := fun _ => ⟨rfl, rfl, rfl⟩
  simp only [dTrpull, dec_bind_ok, zeroField_ok, dec_pure_ok] at h
  obtain ⟨_, hz, rfl⟩ := h
  exact hc.spells rfl (field_app (field_app (field_dest hm) (field_zero hz)) (field_vfile w))

theorem dMcall_spells (h : dMcall w = .ok i) (hm : (fMajor w).toNat = (0x03 : BitVec 6).toNat) : Spells 3 w i := by
  have hc : Coded 3 eMcall (fun _ => true) .mcall := fun _ => ⟨rfl, rfl, rfl⟩
  simp only [dMcall, dec_bind_ok, zeroField_ok, dec_pure_ok] at h
  obtain ⟨_, hz, _, hy, rfl⟩ := h
  exact hc.spells rfl (field_app (field_app (field_app (field_head hm) (field_zero hz)) rfl) (field_zero hy))

/-- Major by major, in the order of the decoder's table. -/
theorem decodeSlot3_spells (h : decodeSlot3 w = .ok i) : Spells 3 w i := by
  unfold decodeSlot3 at h
  split at h
  · next hm => exact dZ_spells h (fun _ => ⟨rfl, rfl, rfl⟩) hm
  · next hm => exact dEAB_spells h (fun _ => ⟨rfl, rfl, rfl⟩) hm
  · next hm => exact dMcall_spells h hm
  · next hm => exact dRset_spells h hm
  · next hm => exact dE2_spells h (fun _ => ⟨rfl, rfl, rfl⟩) hm
  · next hm => exact dRstat_spells h hm
  · next hm =>
    simp only [dec_bind_ok, need_ok, beq_iff_eq] at h
    obtain ⟨_, hs, h⟩ := h
    exact dPortA_spells (s := 0) h (fun _ => ⟨rfl, rfl, rfl⟩) hm (congrArg BitVec.toNat hs)
  · next hm => exact dSunbind_spells h hm
  · next hm =>
    split at h
    · next hs => exact dPortA_spells (s := 0) h (fun _ => ⟨rfl, rfl, rfl⟩) hm hs
    · next hs => exact dPortA_spells (s := 1) h (fun _ => ⟨rfl, rfl, rfl⟩) hm hs
    · cases h
  · next hm => exact dEAB_spells h (fun _ => ⟨rfl, rfl, rfl⟩) hm
  · next hm => exact dCopy_spells h hm
  · next hm => exact dCresume_spells h hm
  · next hm => exact dCstat_spells h hm
  · next hm => exact dEAB_spells h (fun _ => ⟨rfl, rfl, rfl⟩) hm
  · next hm => exact dHwait_spells h hm
  · next hm =>
    simp only [dec_bind_ok, need_ok, beq_iff_eq] at h
    obtain ⟨_, hs, h⟩ := h
    exact dE1_spells (s := 0) h (fun _ => ⟨rfl, rfl, rfl⟩) hm (congrArg BitVec.toNat hs)
  · next hm => exact dEA_spells h (fun _ => ⟨rfl, rfl, rfl⟩) hm
  · next hm => exact dTrpush_spells h hm
  · next hm => exact dTrpull_spells h hm
  · next hm => exact dEAB_spells h (fun _ => ⟨rfl, rfl, rfl⟩) hm
  · next hm => exact dRelease_spells h hm
  · next hm => exact dEA_spells h (fun _ => ⟨rfl, rfl, rfl⟩) hm
  · next hm => exact dEA_spells h (fun _ => ⟨rfl, rfl, rfl⟩) hm
  · next hm => exact dRndstat_spells h hm
  · cases h
end

end Sys2Proof
end

section
/-! SUPPORT. Encoding undoes decoding for micro-words (R157, R308). -/

namespace Sys2Proof

/-- A micro-op stands for a micro-word. -/
structure MicroSpells (w : BitVec 128) (i : Instr) : Prop where
  word : encodeMicro i = some w
  wf : i.wf = true

theorem MicroSpells.of_field {w v : BitVec 128} {i : Instr} (he : encodeMicro i = some v) (hw : v = w.extractLsb' 0 128)
    (hwf : i.wf = true) : MicroSpells w i := ⟨hw.trans (extract_all w) ▸ he, hwf⟩

/-- A count of 0 stands for its value, and the others need a field of zeros. -/
theorem decUCount_ok {n : Nat} {src : BitVec 2} {v : BitVec n} {c : UCount n} (h : decUCount src v = .ok c) :
    encUCount c = src ++ v := by
  unfold decUCount at h
  split at h
  · next hs =>
    obtain rfl : src = 0 := BitVec.eq_of_toNat_eq hs
    cases h; rfl
  · next hs =>
    obtain rfl : src = 1 := BitVec.eq_of_toNat_eq hs
    simp only [dec_bind_ok, zeroField_ok, dec_pure_ok] at h
    obtain ⟨_, rfl, rfl⟩ := h
    rfl
  · next hs =>
    obtain rfl : src = 2 := BitVec.eq_of_toNat_eq hs
    simp only [dec_bind_ok, zeroField_ok, dec_pure_ok] at h
    obtain ⟨_, rfl, rfl⟩ := h
    rfl
  · next h0 h1 h2 =>
    obtain rfl : src = 3 := by
      have : src.toNat < 4 := src.isLt
      exact BitVec.eq_of_toNat_eq (show src.toNat = 3 by grind)
    simp only [dec_bind_ok, zeroField_ok, dec_pure_ok] at h
    obtain ⟨_, rfl, rfl⟩ := h
    rfl

/-- An immediate count is the field. -/
theorem decUCount_imm {n : Nat} {src : BitVec 2} {v k : BitVec n} (h : decUCount src v = .ok (.imm k)) : k = v := by
  unfold decUCount at h
  split at h
  · cases h; rfl
  all_goals
    simp only [dec_bind_ok, dec_pure_ok] at h
    obtain ⟨_, _, h⟩ := h
    cases h

section
variable {w : BitVec 128} {i : Instr}

/-- The major of a micro-word. -/
theorem field_microMajor {m : BitVec 6} (hm : (w.extractLsb' 122 6).toNat = m.toNat) : m = w.extractLsb' 122 6 :=
  (BitVec.eq_of_toNat_eq hm).symm

/-- The face and the source of DRNP. -/
theorem dUDrnp_spells (h : dUDrnp w = .ok i) (hm : (w.extractLsb' 122 6).toNat = (0x08 : BitVec 6).toNat) : MicroSpells w i := by
  have key {src : DrainSrc} (es : encDrain src = w.extractLsb' 4 5) (hz : w.extractLsb' 40 82 = 0) :
      MicroSpells w (.drnp { tiles := w.extractLsb' 28 12, cell := w.extractLsb' 10 18, fill := w.getLsbD 9, src := src,
                             ring := w.extractLsb' 0 4 }) :=
    .of_field rfl
      (field_app (field_app (field_app (field_app (field_app (field_app (field_microMajor hm) (field_zero hz)) rfl) rfl) (field_bit w 9))
        es) rfl) rfl
  have code {m : BitVec 2} (hs : (w.extractLsb' 4 2).toNat = m.toNat) : m = w.extractLsb' 4 2 := (BitVec.eq_of_toNat_eq hs).symm
  simp only [dUDrnp, dec_bind_ok, zeroField_ok, dec_pure_ok] at h
  obtain ⟨src, hs, _, hz, rfl⟩ := h
  refine key ?_ hz
  split at hs
  · next hc =>
    simp only [dec_bind_ok, zeroField_ok, dec_pure_ok] at hs
    obtain ⟨_, hf, rfl⟩ := hs
    exact (field_app (field_zero hf) (code (m := 0) hc) : (0 : BitVec 3) ++ (0 : BitVec 2) = _)
  · next hc =>
    simp only [dec_bind_ok, zeroField_ok, dec_pure_ok] at hs
    obtain ⟨_, hf, rfl⟩ := hs
    exact field_app (field_zero hf) (code (m := 1) hc)
  · next hc =>
    cases hs
    exact field_app rfl (code (m := 2) hc)
  · next h0 h1 h2 =>
    cases hs
    have hlt : (w.extractLsb' 4 2).toNat < 4 := (w.extractLsb' 4 2).isLt
    exact field_app rfl (code (m := 3) (show (w.extractLsb' 4 2).toNat = 3 by grind))

theorem dUInj_spells (h : dUInj w = .ok i) (hm : (w.extractLsb' 122 6).toNat = (0x05 : BitVec 6).toNat) : MicroSpells w i := by
  simp only [dUInj, dec_bind_ok, zeroField_ok, dec_pure_ok] at h
  obtain ⟨m, hm', _, h1, _, h2, rfl⟩ := h
  have em : encInjMode m = w.extractLsb' 4 2 := by
    split at hm'
    · next hc => cases hm'; exact (BitVec.eq_of_toNat_eq hc).symm
    · next hc => cases hm'; exact (BitVec.eq_of_toNat_eq hc).symm
    · next hc => cases hm'; exact (BitVec.eq_of_toNat_eq hc).symm
    · cases hm'
  exact .of_field rfl
    (field_app (field_app (field_app (field_app (field_app (field_app (field_app (field_app (field_app (field_app (field_app
      (field_microMajor hm) (field_zero h1)) rfl) rfl) rfl) rfl) rfl) rfl) (field_zero h2)) rfl) em) rfl) rfl

theorem dUBndm_spells (h : dUBndm w = .ok i) (hm : (w.extractLsb' 122 6).toNat = (0x0B : BitVec 6).toNat) : MicroSpells w i := by
  simp only [dUBndm, dec_bind_ok, decBMode_ok, zeroField_ok, dec_pure_ok] at h
  obtain ⟨_, e0, _, e1, _, e2, _, e3, _, e4, _, e5, _, e6, _, e7, _, hz, rfl⟩ := h
  exact .of_field rfl
    (field_app (field_app (field_app (field_app (field_app (field_app (field_app (field_app (field_app (field_microMajor hm)
      (field_zero hz)) e7) e6) e5) e4) e3) e2) e1) e0) rfl

/-- Major by major, in the order of the decoder's table. -/
theorem decodeMicro_spells (h : decodeMicro w = .ok i) : MicroSpells w i := by
  unfold decodeMicro at h
  split at h
  · next hm =>
    simp only [dec_bind_ok, zeroField_ok, dec_pure_ok] at h
    obtain ⟨_, hz, rfl⟩ := h
    exact .of_field rfl
      (field_app (field_app (field_app (field_app (field_microMajor hm) (field_zero hz)) (field_bit w 5)) (field_bit w 4))
        rfl) rfl
  · next hm =>
    simp only [dec_bind_ok, zeroField_ok, dec_pure_ok] at h
    obtain ⟨_, hz, rfl⟩ := h
    exact .of_field rfl (field_app (field_app (field_app (field_microMajor hm) (field_zero hz)) (field_bit w 4)) rfl) rfl
  · next hm =>
    simp only [dec_bind_ok, zeroField_ok, dec_pure_ok] at h
    obtain ⟨_, hz, rfl⟩ := h
    exact .of_field rfl
      (field_app (field_app (field_app (field_app (field_app (field_app (field_app (field_app (field_app (field_microMajor
        hm) (field_zero hz)) rfl) (field_bit w 15)) (field_bit w 14)) (field_bit w 13)) rfl) (encAxis_dec _)) rfl) rfl) rfl
  · next hm =>
    simp only [dec_bind_ok, zeroField_ok, need_ok, dec_pure_ok] at h
    obtain ⟨_, hz, _, hn, rfl⟩ := h
    exact .of_field rfl
      (field_app (field_app (field_app (field_app (field_app (field_app (field_microMajor hm) (field_zero hz)) (field_bit w
        7)) rfl) (field_bit w 3)) (field_bit w 2)) (encAxis_dec _)) hn
  · next hm => exact dUInj_spells h hm
  · next hm =>
    simp only [dec_bind_ok, zeroField_ok, dec_pure_ok] at h
    obtain ⟨_, hz, rfl⟩ := h
    exact .of_field rfl (field_app (field_app (field_microMajor hm) (field_zero hz)) (field_bit w 0)) rfl
  · next hm =>
    simp only [dec_bind_ok, zeroField_ok, dec_pure_ok] at h
    obtain ⟨_, hz, rfl⟩ := h
    exact .of_field rfl
      (field_app (field_app (field_app (field_app (field_app (field_microMajor hm) (field_zero hz)) rfl) rfl) (field_bit w
        4)) rfl) rfl
  · next hm => exact dUDrnp_spells h hm
  · next hm =>
    simp only [dec_bind_ok, zeroField_ok, dec_pure_ok] at h
    obtain ⟨_, hz, rfl⟩ := h
    exact .of_field rfl (field_app (field_microMajor hm) (field_zero hz)) rfl
  · next hm =>
    simp only [dec_bind_ok, zeroField_ok, need_ok, dec_pure_ok] at h
    obtain ⟨c, hc, _, hn, _, hz, rfl⟩ := h
    have hwf : (Instr.hmrg c).wf = true := by
      cases c with
      | imm k => exact decUCount_imm hc ▸ hn
      | v0 | v1 | v2 => rfl
    exact .of_field rfl
      (field_app (field_app (field_microMajor hm) (field_zero hz)) ((decUCount_ok hc).trans (field_app rfl rfl))) hwf
  · next hm => exact dUBndm_spells h hm
  · next hm =>
    simp only [dec_bind_ok, zeroField_ok, dec_pure_ok] at h
    obtain ⟨c, hc, _, hz, rfl⟩ := h
    exact .of_field rfl
      (field_app (field_app (field_microMajor hm) (field_zero hz)) ((decUCount_ok hc).trans (field_app rfl rfl))) rfl
  · next hm =>
    simp only [dec_bind_ok, zeroField_ok, dec_pure_ok] at h
    obtain ⟨_, hz, rfl⟩ := h
    exact .of_field rfl (field_app (field_microMajor hm) (field_zero hz)) rfl
  · next hm =>
    simp only [dec_bind_ok, zeroField_ok] at h
    obtain ⟨_, hz, h⟩ := h
    split at h
    · next hb =>
      simp only [dec_bind_ok, zeroField_ok, dec_pure_ok] at h
      obtain ⟨_, hy, rfl⟩ := h
      exact .of_field rfl
        (field_app (field_app (field_app (field_app (field_microMajor hm) (field_zero hz)) rfl) (field_zero hy)) (field_bit_val hb)) rfl
    · next hb =>
      cases h
      exact .of_field rfl
        (field_app (field_app (field_app (field_app (field_microMajor hm) (field_zero hz)) rfl) rfl)
          (field_bit_val (Bool.eq_false_of_not_eq_true hb))) rfl
  · next hm =>
    simp only [dec_bind_ok, zeroField_ok, dec_pure_ok] at h
    obtain ⟨_, hz, rfl⟩ := h
    exact .of_field rfl (field_app (field_microMajor hm) (field_zero hz)) rfl
  · cases h
end

end Sys2Proof
end

section
/-! SUPPORT. Decoding and encoding agree (R131, R132, R138, R144, R145, R158): the slots together, every instruction, and legal bundles. -/

namespace Sys2Proof

theorem decodeSlot_spells {k : Nat} (hk : k < 4) {w : BitVec 32} {i : Instr} (h : decodeSlot k w = .ok i) : Spells k w i := by
  match k, hk with
  | 0, _ => exact decodeSlot0_spells h
  | 1, _ => exact decodeSlot1_spells h
  | 2, _ => exact decodeSlot2_spells h
  | 3, _ => exact decodeSlot3_spells h

end Sys2Proof

namespace Sys2Proof.Laws

/-- The laws of the instructions one by one, put together. -/
theorem RoundTrip.all (i : Instr) : RoundTrip.Statement i :=
  match i with
  | .nop f => RoundTrip.nop f
  | .add f => RoundTrip.add f
  | .sub f => RoundTrip.sub f
  | .mul f => RoundTrip.mul f
  | .mulh f => RoundTrip.mulh f
  | .mulhu f => RoundTrip.mulhu f
  | .div f => RoundTrip.div f
  | .divu f => RoundTrip.divu f
  | .rem f => RoundTrip.rem f
  | .remu f => RoundTrip.remu f
  | .and f => RoundTrip.and f
  | .or f => RoundTrip.or f
  | .xor f => RoundTrip.xor f
  | .andn f => RoundTrip.andn f
  | .shl f => RoundTrip.shl f
  | .shr f => RoundTrip.shr f
  | .sar f => RoundTrip.sar f
  | .min f => RoundTrip.min f
  | .max f => RoundTrip.max f
  | .minu f => RoundTrip.minu f
  | .maxu f => RoundTrip.maxu f
  | .clz f => RoundTrip.clz f
  | .ctz f => RoundTrip.ctz f
  | .popc f => RoundTrip.popc f
  | .sel f => RoundTrip.sel f
  | .addi f => RoundTrip.addi f
  | .andi f => RoundTrip.andi f
  | .ori f => RoundTrip.ori f
  | .xori f => RoundTrip.xori f
  | .shli f => RoundTrip.shli f
  | .shri f => RoundTrip.shri f
  | .sari f => RoundTrip.sari f
  | .movi f => RoundTrip.movi f
  | .movsh f => RoundTrip.movsh f
  | .cmp f => RoundTrip.cmp f
  | .plog f => RoundTrip.plog f
  | .br f => RoundTrip.br f
  | .call f => RoundTrip.call f
  | .calli f => RoundTrip.calli f
  | .ret f => RoundTrip.ret f
  | .bswap f => RoundTrip.bswap f
  | .ifence f => RoundTrip.ifence f
  | .ld f => RoundTrip.ld f
  | .lds f => RoundTrip.lds f
  | .st f => RoundTrip.st f
  | .ldfe f => RoundTrip.ldfe f
  | .stfe f => RoundTrip.stfe f
  | .pld f => RoundTrip.pld f
  | .xmov f => RoundTrip.xmov f
  | .sysr f => RoundTrip.sysr f
  | .sysw f => RoundTrip.sysw f
  | .setfmt f => RoundTrip.setfmt f
  | .lda f => RoundTrip.lda f
  | .stl f => RoundTrip.stl f
  | .fence f => RoundTrip.fence f
  | .vsync f => RoundTrip.vsync f
  | .aadd f => RoundTrip.aadd f
  | .aand f => RoundTrip.aand f
  | .aor f => RoundTrip.aor f
  | .axor f => RoundTrip.axor f
  | .amin f => RoundTrip.amin f
  | .amax f => RoundTrip.amax f
  | .aminu f => RoundTrip.aminu f
  | .amaxu f => RoundTrip.amaxu f
  | .aswap f => RoundTrip.aswap f
  | .acas f => RoundTrip.acas f
  | .afadd f => RoundTrip.afadd f
  | .axread f => RoundTrip.axread f
  | .axclr f => RoundTrip.axclr f
  | .gjoin f => RoundTrip.gjoin f
  | .gleave f => RoundTrip.gleave f
  | .gbar f => RoundTrip.gbar f
  | .gquery f => RoundTrip.gquery f
  | .snapadv f => RoundTrip.snapadv f
  | .phase f => RoundTrip.phase f
  | .lblget f => RoundTrip.lblget f
  | .lblraise f => RoundTrip.lblraise f
  | .trap f => RoundTrip.trap f
  | .eret f => RoundTrip.eret f
  | .yield f => RoundTrip.yield f
  | .waite f => RoundTrip.waite f
  | .haltctx f => RoundTrip.haltctx f
  | .dbgbrk f => RoundTrip.dbgbrk f
  | .vadd f => RoundTrip.vadd f
  | .vsub f => RoundTrip.vsub f
  | .vmul f => RoundTrip.vmul f
  | .vfma f => RoundTrip.vfma f
  | .vfms f => RoundTrip.vfms f
  | .vmin f => RoundTrip.vmin f
  | .vmax f => RoundTrip.vmax f
  | .vabs f => RoundTrip.vabs f
  | .vneg f => RoundTrip.vneg f
  | .vrcp f => RoundTrip.vrcp f
  | .vrsq f => RoundTrip.vrsq f
  | .vsqrt f => RoundTrip.vsqrt f
  | .vexp2 f => RoundTrip.vexp2 f
  | .vlog2 f => RoundTrip.vlog2 f
  | .vcmp f => RoundTrip.vcmp f
  | .viadd f => RoundTrip.viadd f
  | .visub f => RoundTrip.visub f
  | .vimul f => RoundTrip.vimul f
  | .vimad f => RoundTrip.vimad f
  | .vimin f => RoundTrip.vimin f
  | .vimax f => RoundTrip.vimax f
  | .vicmp f => RoundTrip.vicmp f
  | .vand f => RoundTrip.vand f
  | .vor f => RoundTrip.vor f
  | .vxor f => RoundTrip.vxor f
  | .vandn f => RoundTrip.vandn f
  | .vshl f => RoundTrip.vshl f
  | .vshr f => RoundTrip.vshr f
  | .vsar f => RoundTrip.vsar f
  | .vmrg f => RoundTrip.vmrg f
  | .vred f => RoundTrip.vred f
  | .vperm f => RoundTrip.vperm f
  | .vbcast f => RoundTrip.vbcast f
  | .vextr f => RoundTrip.vextr f
  | .vins f => RoundTrip.vins f
  | .vcvt f => RoundTrip.vcvt f
  | .vpack f => RoundTrip.vpack f
  | .vunpk f => RoundTrip.vunpk f
  | .vmov f => RoundTrip.vmov f
  | .vmovPush f => RoundTrip.vmovPush f
  | .klog f => RoundTrip.klog f
  | .vld f => RoundTrip.vld f
  | .vst f => RoundTrip.vst f
  | .vlds f => RoundTrip.vlds f
  | .vgather f => RoundTrip.vgather f
  | .vscatter f => RoundTrip.vscatter f
  | .dnorm f => RoundTrip.dnorm f
  | .dunnorm f => RoundTrip.dunnorm f
  | .dmov f => RoundTrip.dmov f
  | .dmovRaw f => RoundTrip.dmovRaw f
  | .dzero f => RoundTrip.dzero f
  | .ddot f => RoundTrip.ddot f
  | .dscale f => RoundTrip.dscale f
  | .dadd f => RoundTrip.dadd f
  | .dsub f => RoundTrip.dsub f
  | .dneg f => RoundTrip.dneg f
  | .dmul f => RoundTrip.dmul f
  | .dmaxcos f => RoundTrip.dmaxcos f
  | .dnget f => RoundTrip.dnget f
  | .dnset f => RoundTrip.dnset f
  | .mload f => RoundTrip.mload f
  | .mcall f => RoundTrip.mcall f
  | .rset f => RoundTrip.rset f
  | .rpush f => RoundTrip.rpush f
  | .rstat f => RoundTrip.rstat f
  | .sbind f => RoundTrip.sbind f
  | .sunbind f => RoundTrip.sunbind f
  | .scfgSeek f => RoundTrip.scfgSeek f
  | .scfgRep f => RoundTrip.scfgRep f
  | .crec f => RoundTrip.crec f
  | .copy f => RoundTrip.copy f
  | .cresumePatch f => RoundTrip.cresumePatch f
  | .cresumeRetry f => RoundTrip.cresumeRetry f
  | .cresumeSkip f => RoundTrip.cresumeSkip f
  | .cstat f => RoundTrip.cstat f
  | .hset f => RoundTrip.hset f
  | .hwait f => RoundTrip.hwait f
  | .hwaitClaim f => RoundTrip.hwaitClaim f
  | .hquery f => RoundTrip.hquery f
  | .trcfg f => RoundTrip.trcfg f
  | .trpush f => RoundTrip.trpush f
  | .trpull f => RoundTrip.trpull f
  | .bclear f => RoundTrip.bclear f
  | .release f => RoundTrip.release f
  | .publish f => RoundTrip.publish f
  | .rndseek f => RoundTrip.rndseek f
  | .rndstat f => RoundTrip.rndstat f
  | .step u => RoundTrip.step u
  | .steph u => RoundTrip.steph u
  | .slide u => RoundTrip.slide u
  | .shift u => RoundTrip.shift u
  | .inj u => RoundTrip.inj u
  | .clrp op => RoundTrip.clrp op
  | .ldp u => RoundTrip.ldp u
  | .drnp u => RoundTrip.drnp u
  | .hexp => RoundTrip.hexp
  | .hmrg n => RoundTrip.hmrg n
  | .bndm u => RoundTrip.bndm u
  | .uloop n => RoundTrip.uloop n
  | .uend => RoundTrip.uend
  | .uwait u => RoundTrip.uwait u
  | .uret => RoundTrip.uret
  | .planeCallStart core => RoundTrip.planeCallStart core
  | .haloGrant core => RoundTrip.haloGrant core
  | .haloArrival core inbox => RoundTrip.haloArrival core inbox
  | .notify fn value => RoundTrip.notify fn value
  | .queueEnable fn value => RoundTrip.queueEnable fn value
  | .teardown fn value => RoundTrip.teardown fn value
  | .teardownAbort fn value => RoundTrip.teardownAbort fn value
  | .objset fn value => RoundTrip.objset fn value
  | .ephconsWrite fn value => RoundTrip.ephconsWrite fn value
  | .loglimitWrite fn value => RoundTrip.loglimitWrite fn value
  | .logprodWrite fn value => RoundTrip.logprodWrite fn value
  | .registerWrite fn off value => RoundTrip.registerWrite fn off value
  | .packetAccept queue readOk => RoundTrip.packetAccept queue readOk
  | .placeAndLoad part => RoundTrip.placeAndLoad part
  | .contextRetirement core ctx => RoundTrip.contextRetirement core ctx
  | .launchRetirement part => RoundTrip.launchRetirement part
  | .ephemerisRecordWrite part => RoundTrip.ephemerisRecordWrite part
  | .tenantPreemptionSave part => RoundTrip.tenantPreemptionSave part
  | .resultWriteback core ctx => RoundTrip.resultWriteback core ctx
  | .fmtTakesEffect core ctx => RoundTrip.fmtTakesEffect core ctx
  | .pendingResultLands id => RoundTrip.pendingResultLands id
  | .trapDelivery core ctx => RoundTrip.trapDelivery core ctx
  | .terminalTrap core ctx => RoundTrip.terminalTrap core ctx
  | .contextPreemption core ctx => RoundTrip.contextPreemption core ctx
  | .contextResume core ctx => RoundTrip.contextResume core ctx
  | .copyBegin core => RoundTrip.copyBegin core
  | .copyComplete core ctx ent => RoundTrip.copyComplete core ctx ent
  | .copyElementFault core ctx ent uncorrectable => RoundTrip.copyElementFault core ctx ent uncorrectable
  | .ringTailAdvance core ring => RoundTrip.ringTailAdvance core ring
  | .streamReadahead core gen => RoundTrip.streamReadahead core gen
  | .streamPushWrite core gen => RoundTrip.streamPushWrite core gen
  | .transposeColumnReady core => RoundTrip.transposeColumnReady core
  | .randomVectorProduce core => RoundTrip.randomVectorProduce core
  | .walkStart die => RoundTrip.walkStart die
  | .walkComplete die entry => RoundTrip.walkComplete die entry
  | .homeWrite w => RoundTrip.homeWrite w
  | .remoteWriteApply die id => RoundTrip.remoteWriteApply die id
  | .replicaUpdate die line => RoundTrip.replicaUpdate die line
  | .homeReadService id atReplica keep => RoundTrip.homeReadService id atReplica keep
  | .writeAcknowledge id => RoundTrip.writeAcknowledge id
  | .errorResponse r => RoundTrip.errorResponse r
  | .fullEmptyService core granule => RoundTrip.fullEmptyService core granule
  | .atomicService engine => RoundTrip.atomicService engine
  | .atomicRetryTimeout id => RoundTrip.atomicRetryTimeout id
  | .atomicAck id => RoundTrip.atomicAck id
  | .serialiserStamp => RoundTrip.serialiserStamp
  | .vsyncComplete core ctx => RoundTrip.vsyncComplete core ctx
  | .groupRequestApply => RoundTrip.groupRequestApply
  | .snapadvComplete core ctx => RoundTrip.snapadvComplete core ctx
  | .releaseGateDecision => RoundTrip.releaseGateDecision
  | .publishVersionWrite core ctx ent => RoundTrip.publishVersionWrite core ctx ent
  | .objectAnswerDelivery core object => RoundTrip.objectAnswerDelivery core object
  | .installDescriptor fn => RoundTrip.installDescriptor fn
  | .writePageTableEntries fn => RoundTrip.writePageTableEntries fn
  | .rangeEntries fn => RoundTrip.rangeEntries fn
  | .egressWindow fn => RoundTrip.egressWindow fn
  | .publicationWindow fn => RoundTrip.publicationWindow fn
  | .releasePolicy fn => RoundTrip.releasePolicy fn
  | .resetPartitionRequest fn => RoundTrip.resetPartitionRequest fn
  | .readManifest fn => RoundTrip.readManifest fn
  | .attest fn => RoundTrip.attest fn
  | .debugAttach fn => RoundTrip.debugAttach fn
  | .debugHalt fn core => RoundTrip.debugHalt fn core
  | .debugResume fn core => RoundTrip.debugResume fn core
  | .debugPreemptContext fn core ctx => RoundTrip.debugPreemptContext fn core ctx
  | .debugStateRead fn core ctx num => RoundTrip.debugStateRead fn core ctx num
  | .readFaultRegisters fn => RoundTrip.readFaultRegisters fn
  | .readHarvestMap fn => RoundTrip.readHarvestMap fn
  | .mailboxResponse fn => RoundTrip.mailboxResponse fn
  | .functionLevelReset fn => RoundTrip.functionLevelReset fn
  | .meshRoutesInstalled => RoundTrip.meshRoutesInstalled
  | .moduleReset failed => RoundTrip.moduleReset failed
  | .linkRetrainOrDrop link drop => RoundTrip.linkRetrainOrDrop link drop
  | .peerPortTrained port => RoundTrip.peerPortTrained port
  | .peerPortTrainingLoss port => RoundTrip.peerPortTrainingLoss port
  | .powerWindowEnd milliwatts => RoundTrip.powerWindowEnd milliwatts
  | .frequencyChange part => RoundTrip.frequencyChange part
  | .islandOvertemp island => RoundTrip.islandOvertemp island
  | .islandCooled part => RoundTrip.islandCooled part
  | .thermalTrip => RoundTrip.thermalTrip
  | .correctableError u => RoundTrip.correctableError u
  | .errorWindowEnd => RoundTrip.errorWindowEnd
  | .unlistedMailboxOpcode fn => RoundTrip.unlistedMailboxOpcode fn

end Sys2Proof.Laws

namespace Sys2Proof

/-! ## Bundles (R131, R132, R138, R144, R145) -/

theorem decHeader_some {w : BitVec 32} {h : Header} (hd : decHeader w = some h) :
    w = (0x3F : BitVec 6) ++ h.tgt ++ h.ext ++ h.stamp := by
  unfold decHeader at hd
  split at hd
  · next hm =>
    cases hd
    have hw : (0x3F : BitVec 6) ++ w.extractLsb' 24 2 ++ w.extractLsb' 12 12 ++ w.extractLsb' 0 12 = w.extractLsb' 0 32 :=
      field_app (field_app (field_app hm.symm rfl) rfl) rfl
    exact (hw.trans (extract_all w)).symm
  · cases hd

/-- The header's major is no operation's. -/
theorem decHeader_none {w : BitVec 32} {i : Instr} (h : decodeSlot0 w = .ok i) : decHeader w = none := by
  unfold decHeader
  split
  · next hm =>
    rw [decodeSlot0, hm] at h
    cases h
  · rfl

theorem Bundle.extPlace_iff (b : Bundle) : b.extPlace = true ↔
    ∀ k i, (k, i) ∈ [(1, b.op1), (2, b.op2), (3, b.op3)] → i.readsExt = true → ∃ h, b.hdr = some h ∧ h.tgt.toNat = k := by
  obtain ⟨hdr, op0, op1, op2, op3⟩ := b
  cases hdr with
  | none => simp [Bundle.extPlace, or_imp, forall_and, and_assoc]
  | some h => simp [Bundle.extPlace, or_imp, forall_and, and_assoc, ← Bool.not_eq_true, ← imp_iff_not_or]

theorem Bundle.extUsed_iff (b : Bundle) : b.extUsed = true ↔
    ∀ h, b.hdr = some h → h.ext ≠ 0 →
      ∃ k i, (k, i) ∈ [(1, b.op1), (2, b.op2), (3, b.op3)] ∧ h.tgt.toNat = k ∧ i.readsExt = true := by
  obtain ⟨hdr, op0, op1, op2, op3⟩ := b
  cases hdr with
  | none => simp [Bundle.extUsed]
  | some h =>
    simp only [Bundle.extUsed, Option.some.injEq, forall_eq', Bool.or_eq_true, beq_iff_eq, ne_eq, or_iff_not_imp_left]
    refine imp_congr_right fun _ => ?_
    split <;> simp_all

/-- A bundle without a code 63 needs no header. -/
theorem Bundle.extPlace_of_none {b : Bundle} (h1 : b.op1.readsExt = false) (h2 : b.op2.readsExt = false)
    (h3 : b.op3.readsExt = false) : b.extPlace = true := by
  simp [Bundle.extPlace, h1, h2, h3]

/-- A legal bundle is its four slots, the first a header or an operation, with EXT lent to the slot that reads it and its lane groups
in bounds. -/
structure Bundle.Legal (v : BitVec 128) (b : Bundle) : Prop where
  op0 : b.hdr = none → ∃ i, b.op0 = some i ∧ decodeSlot0 (bundleSlot v 0) = .ok i
  hdr : ∀ h, b.hdr = some h → b.op0 = none ∧ decHeader (bundleSlot v 0) = some h
  op1 : decodeSlot1 (bundleSlot v 1) = .ok b.op1
  op2 : decodeSlot2 (bundleSlot v 2) = .ok b.op2
  op3 : decodeSlot3 (bundleSlot v 3) = .ok b.op3
  place : b.extPlace = true
  used : b.extUsed = true
  groups : b.op1.groups + b.op2.groups ≤ 4

theorem decodeBundle_ok {v : BitVec 128} {b : Bundle} (h : decodeBundle v = .ok b) : b.Legal v := by
  unfold decodeBundle at h
  dsimp only at h
  split at h
  · next o0 o1 o2 o3 h0 h1 h2 h3 =>
    split at h
    · cases h
    split at h
    · cases h
    split at h
    · cases h
    next hp hu hg =>
    cases h
    have slot0 : (decHeader (bundleSlot v 0) = none → ∃ i, o0 = some i ∧ decodeSlot0 (bundleSlot v 0) = .ok i) ∧
        ∀ h, decHeader (bundleSlot v 0) = some h → o0 = none := by
      cases hd : decHeader (bundleSlot v 0) with
      | some hd' => rw [hd] at h0; cases h0; exact ⟨nofun, fun _ _ => rfl⟩
      | none =>
        rw [hd] at h0
        cases hi : decodeSlot0 (bundleSlot v 0) with
        | ok i => rw [hi] at h0; cases h0; exact ⟨fun _ => ⟨i, rfl, rfl⟩, nofun⟩
        | error e => rw [hi] at h0; cases h0
    exact ⟨slot0.1, fun h hh => ⟨slot0.2 h hh, hh⟩, h1, h2, h3, by simpa using hp, by simpa using hu, by simpa using hg⟩
  · split at h <;> cases h

theorem decodeBundle_of_slots {v : BitVec 128} {i0 i1 i2 i3 : Instr} (h0 : decodeSlot0 (bundleSlot v 0) = .ok i0)
    (h1 : decodeSlot1 (bundleSlot v 1) = .ok i1) (h2 : decodeSlot2 (bundleSlot v 2) = .ok i2)
    (h3 : decodeSlot3 (bundleSlot v 3) = .ok i3) (e1 : i1.readsExt = false) (e2 : i2.readsExt = false) (e3 : i3.readsExt = false)
    (hg : i1.groups + i2.groups ≤ 4) :
    decodeBundle v = .ok { hdr := none, op0 := some i0, op1 := i1, op2 := i2, op3 := i3 } := by
  have hp := Bundle.extPlace_of_none (b := { hdr := none, op0 := some i0, op1 := i1, op2 := i2, op3 := i3 }) e1 e2 e3
  simp [decodeBundle, decHeader_none h0, h0, h1, h2, h3, hp, Bundle.extUsed, Except.map, show ¬ 4 < i1.groups + i2.groups by omega]

/-- Settles O55: each form's encoder gives back the word that its decoder has read, and a legal bundle is read slot by slot. -/
theorem decodeAndEncodeAgree : Obligations.DecodeAndEncodeAgree := by
  unfold Obligations.DecodeAndEncodeAgree
  refine ⟨Laws.RoundTrip.all, fun k w i hk h => ?_, fun w i h => ?_, fun v b h => ?_, fun v i0 i1 i2 i3 => ?_⟩
  · obtain ⟨hw, hwf, hs⟩ := decodeSlot_spells hk h
    exact ⟨hw, hwf, hs⟩
  · obtain ⟨hw, hwf⟩ := decodeMicro_spells h
    exact ⟨hw, hwf⟩
  · have hb := decodeBundle_ok h
    exact ⟨hb.op1, hb.op2, hb.op3, hb.groups, hb.op0, fun h hh => ⟨(hb.hdr h hh).1, decHeader_some (hb.hdr h hh).2⟩,
      b.extPlace_iff.mp hb.place, b.extUsed_iff.mp hb.used⟩
  · exact decodeBundle_of_slots

/-- Settles O56: each word is put through the decoder, which computes. -/
theorem spelledWords : Obligations.SpelledWords := by
  unfold Obligations.SpelledWords
  exact ⟨rfl, rfl, rfl, rfl, rfl, rfl, rfl, rfl, rfl, rfl, rfl, rfl, rfl⟩

end Sys2Proof
end

section
/-! SUPPORT. What one cycle of a core does with the bundle that a context tries (R131, R160, R161, R169, R171, R174, R175, R415):
the slots one after the other, the answers at the boundary, the nullifier, and the attempts in the order of the contexts. -/

namespace Sys2Proof.Machine

/-! ## The slots of a bundle one after the other -/

/-- The slots `es` of a bundle act one after the other from `a`, through the states `v`; the slice is read as it was before the
bundle's writes (R372). -/
def SlotsRun (c : Nat) (es : List (Nat × Instr)) (a : State) (v : Nat → State) : Prop :=
  v 0 = a ∧ ∀ j n i, es[j]? = some (n, i) →
    ((v (j + 1)).cur.verdict = .issued ∨ j + 1 = es.length ∧ (v (j + 1)).cur.verdict = .struck) ∧
    ((readsSlice i = false ∨ ∀ m < j, ∀ e, es[m]? = some e → writesSlice e.2 = false) →
      exec i ((v j).refocus n) = .next (v (j + 1))) ∧
    (∀ m < j, ∀ e, es[m]? = some e → writesSlice e.2 = true → (∀ l < m, ∀ e, es[l]? = some e → writesSlice e.2 = false) →
      readsSlice i = true → ∃ w, exec i (((v j).refocus n).sliceFrom c ((v m).core c)) = .next w ∧
        v (j + 1) = w.sliceFrom c ((v j).core c))

/-- `old` is the core before the first of the `j` slots that have acted and may have written its slice. -/
def BeforeWrites (c : Nat) (es : List (Nat × Instr)) (v : Nat → State) (j : Nat) : Option Core → Prop
  | none => ∀ m < j, ∀ e, es[m]? = some e → writesSlice e.2 = false
  | some k => ∃ m < j, (∃ e, es[m]? = some e ∧ writesSlice e.2 = true) ∧
      (∀ l < m, ∀ e, es[l]? = some e → writesSlice e.2 = false) ∧ k = (v m).core c

@[simp] theorem State.refocus_core (s : State) (n c : Nat) : (s.refocus n).core c = s.core c := rfl

/-- What the next slot finds of the slice before the bundle's writes. -/
theorem BeforeWrites.succ {c : Nat} {es : List (Nat × Instr)} {v : Nat → State} {j : Nat} {e : Nat × Instr} {old : Option Core}
    (h : BeforeWrites c es v j old) (he : es[j]? = some e) :
    BeforeWrites c es v (j + 1) (if writesSlice e.2 then old.orElse (fun _ => some ((v j).core c)) else old) := by
  cases old with
  | some k =>
    obtain ⟨m, hm, hw, hl, hk⟩ := h
    have : (if writesSlice e.2 then (some k).orElse (fun _ => some ((v j).core c)) else some k) = some k := by split <;> rfl
    rw [this]
    exact ⟨m, by omega, hw, hl, hk⟩
  | none =>
    cases hw : writesSlice e.2 with
    | true => exact ⟨j, by omega, ⟨e, he, hw⟩, h, rfl⟩
    | false =>
      intro m hm d hd
      by_cases hj : m = j
      · subst hj
        rw [he] at hd
        cases hd
        exact hw
      · exact h m (by omega) d hd

/-- One slot of such a run. -/
theorem SlotsRun.actSlot {c : Nat} {es : List (Nat × Instr)} {a : State} {v : Nat → State} (h : SlotsRun c es a v) {j : Nat}
    {e : Nat × Instr} (he : es[j]? = some e) {old : Option Core} (ho : BeforeWrites c es v j old) :
    Machine.actSlot c old e (v j) = .next (v (j + 1)) := by
  obtain ⟨n, i⟩ := e
  obtain ⟨-, hplain, hold⟩ := h.2 j n i he
  unfold Machine.actSlot
  dsimp only
  cases old with
  | none => exact hplain (.inr ho)
  | some k =>
    cases hr : readsSlice i with
    | false => exact hplain (.inl hr)
    | true =>
      obtain ⟨m, hm, ⟨d, hd, hw⟩, hl, rfl⟩ := ho
      obtain ⟨w, hx, hv⟩ := hold m hm d hd hw hl hr
      simp only [hx, State.refocus_core, hv]

/-- The slots from the `j`-th on. -/
theorem SlotsRun.runSlots_drop {c : Nat} {es : List (Nat × Instr)} {a : State} {v : Nat → State} (h : SlotsRun c es a v) (d : Nat) :
    ∀ (j : Nat) (old : Option Core), j + d = es.length → BeforeWrites c es v j old →
      runSlots c old (es.drop j) (v j) = .next (v es.length) := by
  induction d with
  | zero =>
    intro j old hj _
    obtain rfl : j = es.length := hj
    simp [runSlots]
  | succ d ih =>
    intro j old hj ho
    have hlt : j < es.length := by omega
    have he : es[j]? = some es[j] := List.getElem?_eq_getElem hlt
    rw [List.drop_eq_getElem_cons hlt]
    unfold runSlots
    rw [h.actSlot he ho]
    dsimp only
    obtain ⟨hv | ⟨hlast, hv⟩, -⟩ := h.2 j _ _ he
    · rw [if_pos hv]
      exact ih (j + 1) _ (by omega) (ho.succ he)
    · rw [if_neg (by rw [hv]; decide), hlast]

theorem SlotsRun.runSlots {c : Nat} {es : List (Nat × Instr)} {a : State} {v : Nat → State} (h : SlotsRun c es a v) :
    Machine.runSlots c none es a = .next (v es.length) := by
  have := h.runSlots_drop es.length 0 none (by omega) (by intro m hm; omega)
  rwa [List.drop_zero, h.1] at this

/-- After the last slot the bundle has issued, whether or not that slot has ended its context. -/
theorem SlotsRun.verdict {c : Nat} {es : List (Nat × Instr)} {a : State} {v : Nat → State} (h : SlotsRun c es a v)
    (ha : a.cur.verdict = .issued) : (v es.length).cur.verdict = .issued ∨ (v es.length).cur.verdict = .struck := by
  cases hl : es.length with
  | zero => exact .inl (by rw [h.1, ha])
  | succ j =>
    have he : es[j]? = some es[j] := List.getElem?_eq_getElem (by omega)
    obtain ⟨hv | ⟨-, hv⟩, -⟩ := h.2 j _ _ he
    · exact .inl hv
    · exact .inr hv

/-! ## The order of the slots -/

/-- The live slots of a bundle stand in ascending order. -/
theorem liveOps_pairwise (b : Bundle) : (liveOps b).Pairwise (fun d e => d.1 < e.1) := by
  have h : (bundleOps b).Pairwise (fun d e => d.1 < e.1) := by
    unfold bundleOps
    cases b.op0 <;> simp
  exact h.filter _

/-- The order in which the slots act: ascending, but a slot 0 that redirects the flow comes last. -/
def slotOrder (es : List (Nat × Instr)) : List (Nat × Instr) :=
  es.filter (fun e => !(e.1 == 0 && actsLast e.2)) ++ es.filter (fun e => e.1 == 0 && actsLast e.2)

/-- Where no slot is slot 0, none acts last. -/
theorem slotOrder_of_pos {es : List (Nat × Instr)} (h : ∀ e ∈ es, 0 < e.1) : slotOrder es = es := by
  have hn : ∀ e ∈ es, (e.1 == 0 && actsLast e.2) = false := fun e he => by simp [Nat.ne_of_gt (h e he)]
  unfold slotOrder
  rw [List.filter_eq_self.mpr fun e he => by rw [hn e he]; rfl, List.filter_eq_nil_iff.mpr fun e he => by rw [hn e he]; decide,
    List.append_nil]

theorem slotOrder_cons_of_pos {i : Instr} {es : List (Nat × Instr)} (h : ∀ e ∈ es, 0 < e.1) :
    slotOrder ((0, i) :: es) = if actsLast i then es ++ [(0, i)] else (0, i) :: es := by
  have hs := slotOrder_of_pos h
  unfold slotOrder at hs ⊢
  have hn : ∀ e ∈ es, (e.1 == 0 && actsLast e.2) = false := fun e he => by simp [Nat.ne_of_gt (h e he)]
  have hnil : es.filter (fun e => e.1 == 0 && actsLast e.2) = [] := List.filter_eq_nil_iff.mpr fun e he => by rw [hn e he]; decide
  rw [hnil, List.append_nil] at hs
  cases ha : actsLast i <;>
    simp only [List.filter_cons, ha, hnil, hs, beq_self_eq_true, Bool.and_self, Bool.and_false, Bool.not_true, Bool.not_false,
      if_true, Bool.false_eq_true, if_false, List.append_nil]

/-- In an ascending list this is the model's order. -/
theorem slotOrder_eq_actOrder {es : List (Nat × Instr)} (h : es.Pairwise (fun d e => d.1 < e.1)) : slotOrder es = actOrder es := by
  cases es with
  | nil => rfl
  | cons e es =>
    obtain ⟨n, i⟩ := e
    obtain ⟨hlt, -⟩ := List.pairwise_cons.mp h
    cases n with
    | zero => exact slotOrder_cons_of_pos hlt
    | succ n =>
      exact slotOrder_of_pos fun e he => by
        rcases List.mem_cons.mp he with rfl | he
        · exact Nat.succ_pos n
        · exact Nat.lt_trans (Nat.succ_pos n) (hlt e he)

theorem slotOrder_length (es : List (Nat × Instr)) : (slotOrder es).length = es.length := by
  unfold slotOrder
  have h := List.length_eq_length_filter_add (l := es) (fun e => e.1 == 0 && actsLast e.2)
  simp only [List.length_append]
  omega

/-! ## The bits of a set of slots -/

/-- A bit for each slot that meets the test, and none beyond. -/
theorem slotBits_getLsbD (p : Nat → Bool) {k : Nat} (hk : k < 4) : (slotBits p).getLsbD k = p k := by
  have h4 : k = 0 ∨ k = 1 ∨ k = 2 ∨ k = 3 := by omega
  unfold slotBits four
  rcases h4 with rfl | rfl | rfl | rfl <;> cases h0 : p 0 <;> cases h1 : p 1 <;> cases h2 : p 2 <;> cases h3 : p 3 <;>
    simp [h0, h1, h2, h3]

/-! ## What the slots answer at the boundary -/

/-- The bundle of context `h` in focus, its latches switched where the issue would be a switch (R168). -/
def State.bundleAt (a : State) (c h : Nat) (b : Bundle) : State :=
  (a.focusOn c h 0 (bundleExt b)).modCtx c h (fun x => x.switched ((a.core c).switch? h))

/-- The slots whose guards are true. -/
def State.guardedOps (a : State) (c h : Nat) (b : Bundle) : List (Nat × Instr) :=
  (liveOps b).filter (fun e => (a.ctx c h).holds (guardOf e.2))

/-- What a slot whose guard is true answers at the boundary: it meets what such slots before it pop and push. -/
def State.SlotAnswers (a : State) (c h : Nat) (b : Bundle) (n : Nat) (r : Verdict) : Prop :=
  ∃ i w, (n, i) ∈ liveOps b ∧ (a.ctx c h).holds (guardOf i) = true ∧
    exec i ((((liveOps b).filter (fun e => decide (e.1 < n) && (a.ctx c h).holds (guardOf e.2))).foldl
      (fun t e => t.slotTakes e.2) (a.bundleAt c h b)).refocus n) = .next w ∧ w.cur.verdict = r

theorem slotVerdict_next {s w : State} {e : Nat × Instr} (h : exec e.2 (s.refocus e.1) = .next w) :
    slotVerdict s e = (e.1, w.cur.verdict) := by
  unfold slotVerdict
  rw [h]

/-- A slot answers other than by issuing only through the state that it leaves. -/
theorem exec_of_slotVerdict {s : State} {e : Nat × Instr} {n : Nat} {r : Verdict} (h : slotVerdict s e = (n, r)) (hr : r ≠ .issued) :
    n = e.1 ∧ ∃ w, exec e.2 (s.refocus e.1) = .next w ∧ w.cur.verdict = r := by
  unfold slotVerdict at h
  split at h
  · next t hx => cases h; exact ⟨rfl, t, hx, rfl⟩
  · cases h; exact absurd rfl hr

/-- Every slot gives one answer, under its own number. -/
theorem slotVerdicts_map_fst (s : State) (es : List (Nat × Instr)) : (slotVerdicts s es).map Prod.fst = es.map Prod.fst := by
  induction es generalizing s with
  | nil => rfl
  | cons e es ih =>
    rw [slotVerdicts_cons, List.map_cons, List.map_cons, ih]
    congr 1
    unfold slotVerdict
    split <;> rfl

/-- In an ascending list the elements before one are those with a lower number. -/
theorem filter_lt_of_pairwise {pre post : List (Nat × Instr)} {e : Nat × Instr}
    (h : (pre ++ e :: post).Pairwise (fun d e => d.1 < e.1)) : (pre ++ e :: post).filter (fun d => decide (d.1 < e.1)) = pre := by
  obtain ⟨-, hp, hlt⟩ := List.pairwise_append.mp h
  obtain ⟨hpost, -⟩ := List.pairwise_cons.mp hp
  rw [List.filter_append, List.filter_eq_self.mpr fun d hd => decide_eq_true (hlt d hd e List.mem_cons_self),
    List.filter_eq_nil_iff.mpr, List.append_nil]
  intro d hd
  rcases List.mem_cons.mp hd with rfl | hd
  · simp
  · have := hpost d hd
    simp
    omega

section
variable {a : State} {c h : Nat} {b : Bundle}

theorem State.guardedOps_pairwise (a : State) (c h : Nat) (b : Bundle) : (a.guardedOps c h b).Pairwise (fun d e => d.1 < e.1) :=
  (liveOps_pairwise b).filter _

theorem State.filter_lt_guardedOps (n : Nat) :
    (a.guardedOps c h b).filter (fun e => decide (e.1 < n)) =
      (liveOps b).filter (fun e => decide (e.1 < n) && (a.ctx c h).holds (guardOf e.2)) :=
  List.filter_filter

/-- The answers are the model's list of them. -/
theorem State.SlotAnswers.mem {n : Nat} {r : Verdict} (ha : a.SlotAnswers c h b n r) :
    (n, r) ∈ slotVerdicts (a.bundleAt c h b) (a.guardedOps c h b) := by
  obtain ⟨i, w, hi, hg, hx, hr⟩ := ha
  have hm : (n, i) ∈ a.guardedOps c h b := List.mem_filter.mpr ⟨hi, hg⟩
  obtain ⟨pre, post, hs⟩ := List.append_of_mem hm
  have hpre := filter_lt_of_pairwise (hs ▸ a.guardedOps_pairwise c h b)
  rw [← hs, State.filter_lt_guardedOps] at hpre
  rw [hpre] at hx
  exact mem_slotVerdicts.mpr ⟨pre, (n, i), post, hs, by rw [slotVerdict_next (e := (n, i)) hx, hr]⟩

/-- An answer of the model's list other than an issue is one of a slot whose guard is true. -/
theorem State.slotAnswers_of_mem {n : Nat} {r : Verdict}
    (hm : (n, r) ∈ slotVerdicts (a.bundleAt c h b) (a.guardedOps c h b)) (hr : r ≠ .issued) : a.SlotAnswers c h b n r := by
  obtain ⟨pre, ⟨k, i⟩, post, hs, hv⟩ := mem_slotVerdicts.mp hm
  obtain ⟨rfl, w, hx, hw⟩ := exec_of_slotVerdict hv.symm hr
  obtain ⟨hi, hg⟩ := List.mem_filter.mp (hs ▸ List.mem_append_right pre List.mem_cons_self : (n, i) ∈ a.guardedOps c h b)
  have hpre := filter_lt_of_pairwise (hs ▸ a.guardedOps_pairwise c h b)
  rw [← hs, State.filter_lt_guardedOps] at hpre
  exact ⟨i, w, hi, hg, by rw [hpre]; exact hx, hw⟩

/-- A slot has one answer in the model's list. -/
theorem State.verdict_unique_of_mem {n : Nat} {r r' : Verdict}
    (h1 : (n, r) ∈ slotVerdicts (a.bundleAt c h b) (a.guardedOps c h b))
    (h2 : (n, r') ∈ slotVerdicts (a.bundleAt c h b) (a.guardedOps c h b)) : r = r' := by
  have hn : ((slotVerdicts (a.bundleAt c h b) (a.guardedOps c h b)).map Prod.fst).Nodup := by
    rw [slotVerdicts_map_fst]
    exact List.Pairwise.map _ (fun _ _ hlt => Nat.ne_of_lt hlt) (a.guardedOps_pairwise c h b)
  exact congrArg Prod.snd (List.inj_on_of_nodup_map hn h1 h2 rfl)

end

/-! ## The code and the trap that stand (R160, R415) -/

/-- The codes of the slots that block. -/
theorem lowestBlock_eq_some {vs : List (Nat × Verdict)} {n : Nat} (h : ∃ k, (k, Verdict.blocked n) ∈ vs)
    (hle : ∀ k m, (k, Verdict.blocked m) ∈ vs → n ≤ m) : lowestBlock vs = some n := by
  unfold lowestBlock
  rw [List.min?_eq_some_iff]
  constructor
  · obtain ⟨k, hk⟩ := h
    exact List.mem_filterMap.mpr ⟨_, hk, rfl⟩
  · intro m hm
    obtain ⟨⟨k, r⟩, hk, hr⟩ := List.mem_filterMap.mp hm
    cases r <;> cases hr
    exact hle k m hk

theorem lowestBlock_eq_none {vs : List (Nat × Verdict)} (h : ∀ k n, (k, Verdict.blocked n) ∉ vs) : lowestBlock vs = none := by
  unfold lowestBlock
  rw [List.min?_eq_none_iff, List.filterMap_eq_nil_iff]
  rintro ⟨k, r⟩ hk
  cases r with
  | blocked n => exact absurd hk (h k n)
  | _ => rfl

/-- A raising slot with what it raises. -/
abbrev Raise := Nat × Cause × BitVec 8 × Word

/-- The choice of the lowest slot keeps the lowest of all that it has met. -/
theorem foldl_lowest (rs : List Raise) (x : Raise) :
    let best := rs.foldl (fun a r => if r.1 < a.1 then r else a) x
    (best = x ∨ best ∈ rs) ∧ best.1 ≤ x.1 ∧ ∀ r ∈ rs, best.1 ≤ r.1 := by
  induction rs generalizing x with
  | nil => simp
  | cons r rs ih =>
    obtain ⟨hmem, hx, hrs⟩ := ih (if r.1 < x.1 then r else x)
    simp only [List.foldl_cons, List.mem_cons, forall_eq_or_imp]
    split at hmem <;> rename_i hlt
    · rw [if_pos hlt] at hx hrs ⊢
      exact ⟨.inr hmem, by omega, hx, hrs⟩
    · rw [if_neg hlt] at hx hrs ⊢
      exact ⟨hmem.imp_right .inr, hx, by omega, hrs⟩

theorem lowestTrap_eq_none {vs : List (Nat × Verdict)} (h : ∀ k z d g, (k, Verdict.raised z d g) ∉ vs) : lowestTrap vs = none := by
  unfold lowestTrap
  dsimp only
  rw [List.filterMap_eq_nil_iff.mpr]
  rintro ⟨k, r⟩ hk
  cases r with
  | raised z d g => exact absurd hk (h k z d g)
  | _ => rfl

/-- The trap of the lowest raising slot, with a bit for each. -/
theorem lowestTrap_eq_some {vs : List (Nat × Verdict)} {f : TrapFound} {n : Nat} (hasync : f.async = false) (hframe : f.frame = 0)
    (hslots : ∀ k < 4, f.slots.getLsbD k = true ↔ ∃ z d g, (k, Verdict.raised z d g) ∈ vs)
    (hn : (n, Verdict.raised f.cause f.code f.addr) ∈ vs)
    (hle : ∀ k z d g, (k, Verdict.raised z d g) ∈ vs → n ≤ k)
    (huniq : ∀ r, (n, r) ∈ vs → r = .raised f.cause f.code f.addr) : lowestTrap vs = some f := by
  unfold lowestTrap
  dsimp only
  generalize hrs : List.filterMap _ vs = rs
  have hmem : ∀ k z d g, (k, z, d, g) ∈ rs ↔ (k, Verdict.raised z d g) ∈ vs := by
    intro k z d g
    rw [← hrs, List.mem_filterMap]
    constructor
    · rintro ⟨⟨k', r⟩, hk, hr⟩
      cases r <;> cases hr
      exact hk
    · exact fun hk => ⟨_, hk, rfl⟩
  have hbits : slotBits (fun k => rs.any (fun r => r.1 == k)) = f.slots := by
    refine BitVec.eq_of_getLsbD_eq fun k hk => ?_
    rw [slotBits_getLsbD _ hk, Bool.eq_iff_iff, hslots k hk]
    simp [hmem]
  have hin := (hmem ..).mpr hn
  match rs, hin, hmem, hbits with
  | x :: xs, hin, hmem, hbits =>
    dsimp only
    rw [hbits]
    obtain ⟨hb, hx, hxs⟩ := foldl_lowest (x :: xs) x
    generalize List.foldl _ x (x :: xs) = best at hb hx hxs
    obtain ⟨k, z, d, g⟩ := best
    have hbv : (k, Verdict.raised z d g) ∈ vs := (hmem ..).mp (hb.elim (fun e => e ▸ List.mem_cons_self) id)
    obtain rfl : k = n := Nat.le_antisymm (hxs _ hin) (hle k z d g hbv)
    obtain ⟨rfl, rfl, rfl⟩ := Verdict.raised.inj (huniq _ hbv)
    rw [← hasync, ← hframe]

/-! ## What the nullifier skips (R171) -/

/-- The nullifier skips one bundle of context `h`: all guards false for more than three cycles, no delay slot. -/
def State.Skips (c h : Nat) (a a' : State) : Prop := ∃ (b : Bundle) (v : Nat → State),
  a.fetched c h = .legal b ∧ a.det c = false ∧ liveOps b ≠ [] ∧ (a.ctx c h).nds = 0 ∧ (a.ctx c h).skips < 3 ∧
  (∀ e ∈ liveOps b, (a.ctx c h).holds (guardOf e.2) = false ∧
    ∀ t, tfind (a.ctx c h).predWrite (guardOf e.2).g.toNat = some t → t + 3 < (a.ctx c h).cycle) ∧
  SlotsRun c (liveOps b) (a.focusOn c h 0 (bundleExt b)) v ∧
  a' = ((v (liveOps b).length).modCtx c h (fun x =>
      { x with pc := x.pc + 16, skips := x.skips + 1, taint := x.taint ||| x.taintNext, taintNext := 0 })).modCore c
    (fun k => { k with skip := k.skip + 1 })

theorem Ctx.longFalse_eq_true {x : Ctx} {gd : Guard} (hg : x.holds gd = false)
    (ht : ∀ t, tfind x.predWrite gd.g.toNat = some t → t + 3 < x.cycle) : x.longFalse gd = true := by
  unfold Ctx.longFalse
  rw [hg]
  cases hf : tfind x.predWrite gd.g.toNat with
  | none => rfl
  | some t => simp [ht t hf]

section
variable {a a' : State} {c h : Nat}

/-- A bundle that is skipped uses up one of the skips that are left. -/
theorem State.Skips.skipping_succ (hs : State.Skips c h a a') (n : Nat) :
    State.skipping (n + 1) c h a = State.skipping n c h a' := by
  obtain ⟨b, v, hb, hdet, hlive, hnds, hskips, hfalse, hruns, rfl⟩ := hs
  have hskip : (a.ctx c h).skips? (a.det c) b = true := by
    have hall : (liveOps b).all (fun e => (a.ctx c h).longFalse (guardOf e.2)) = true :=
      List.all_eq_true.mpr fun e he => Ctx.longFalse_eq_true (hfalse e he).1 (hfalse e he).2
    unfold Ctx.skips?
    rw [hall, hdet]
    simp [hnds, hskips, hlive]
  conv_lhs => unfold State.skipping
  rw [hb]
  dsimp only
  rw [if_pos hskip, hruns.runSlots]

theorem State.skipping_of_skips {us : Nat → State} {k : Nat} :
    ∀ n, k ≤ n → (∀ j < k, State.Skips c h (us j) (us (j + 1))) →
      State.skipping n c h (us 0) = State.skipping (n - k) c h (us k) := by
  induction k with
  | zero => exact fun _ _ _ => rfl
  | succ k ih =>
    intro n hn hs
    rw [ih n (by omega) (fun j hj => hs j (by omega)), show n - k = n - (k + 1) + 1 by omega,
      (hs k (by omega)).skipping_succ]

/-- A legal bundle that the nullifier does not skip is the one that is tried. -/
theorem State.skipping_stops {n : Nat} {b : Bundle} (hb : a.fetched c h = .legal b)
    (hs : n = 0 ∨ (a.ctx c h).skips? (a.det c) b = false) : State.skipping n c h a = .next a := by
  cases n with
  | zero => rfl
  | succ n =>
    unfold State.skipping
    rw [hb]
    dsimp only
    rw [if_neg (by simpa using hs)]

theorem State.skipping_illegal {n : Nat} {v : BitVec 4} (hb : a.fetched c h = .illegal v) :
    State.skipping n c h a = .next a := by
  cases n with
  | zero => rfl
  | succ n =>
    unfold State.skipping
    rw [hb]

/-! ## One attempt of a context -/

/-- Nothing at the boundary of a running context comes before its bundle. -/
def State.FreeToTry (a : State) (c h : Nat) : Prop := (a.ctx c h).st = .running ∧ (a.ctx c h).strikes = none ∧
  ((a.ctx c h).asyncQ = [] ∨ (a.ctx c h).inh = true) ∧ (a.ctx c h).wait2 = none

/-- The bundle that context `h` tries in state `a`, after the skips, and the state then. -/
def State.Tries (a : State) (c h : Nat) (a' : State) (b : Bundle) : Prop := a.FreeToTry c h ∧
  (∃ (k : Nat) (us : Nat → State), k ≤ 3 ∧ (k = 0 ∨ ((a.core c).last = some h ∧ (a.ctx c h).stall = 0)) ∧ us 0 = a ∧ us k = a' ∧
    ∀ j < k, State.Skips c h (us j) (us (j + 1))) ∧
  a'.fetched c h = .legal b ∧
  ((a.core c).last ≠ some h ∨ (a.ctx c h).stall ≠ 0 ∨ (a'.ctx c h).skips? (a'.det c) b = false) ∧
  ((a'.ctx c h).nds = 0 ∨ ∀ e ∈ liveOps b, isBranch e.2 = false)

/-- The bank stall cycles of a bundle (R169). -/
def State.bundleExtra (c : Nat) (a : State) (b : Bundle) : Nat := bankExtra (((a.imageOf c).map (·.mirrors)).getD []) b

def State.BundleIssues (a : State) (c h : Nat) (r : State) : Prop :=
  ∃ (a' : State) (b : Bundle) (v : Nat → State), a.Tries c h a' b ∧
    State.bundleExtra c a' b ≤ (a'.ctx c h).stall ∧ (∀ n r, a'.SlotAnswers c h b n r → r = .issued ∨ r = .struck) ∧
    a'.switchGate c h = .go ∧ SlotsRun c (slotOrder (liveOps b)) (a'.bundleAt c h b) v ∧
    r = (v (liveOps b).length).issued c h (a'.ctx c h).pc (if (a'.ctx c h).bank then (a'.core c).imask1 else (a'.core c).imask0)

def State.BundleBlocks (a : State) (c h n : Nat) (a' : State) : Prop :=
  (((a.ctx c h).st = .frozenTrap ∨ (a.ctx c h).st = .frozenPre) ∧ n = 12 ∧ a' = a) ∨
  ((a.ctx c h).st = .running ∧ (a.ctx c h).strikes = none ∧ ((a.ctx c h).asyncQ = [] ∨ (a.ctx c h).inh = true) ∧ a' = a ∧
    a.det c = false ∧ ∃ w, (a.ctx c h).wait2 = some w ∧ n = w.code) ∨
  (∃ b, a.Tries c h a' b ∧ ((a'.ctx c h).stall = 0 ∨ State.bundleExtra c a' b ≤ (a'.ctx c h).stall) ∧
    (∃ k, a'.SlotAnswers c h b k (.blocked n)) ∧ ∀ k m, a'.SlotAnswers c h b k (.blocked m) → n ≤ m)

def State.BundleRaises (a : State) (c h : Nat) (f : TrapFound) (a' : State) : Prop :=
  f.async = false ∧ f.frame = 0 ∧ ∃ b, a.Tries c h a' b ∧
    ((a'.ctx c h).stall = 0 ∨ State.bundleExtra c a' b ≤ (a'.ctx c h).stall) ∧ (∀ k n, ¬ a'.SlotAnswers c h b k (.blocked n)) ∧
    (∀ k, f.slots.getLsbD k = true ↔ ∃ z d g, a'.SlotAnswers c h b k (.raised z d g)) ∧
    ∃ n, a'.SlotAnswers c h b n (.raised f.cause f.code f.addr) ∧ ∀ k z d g, a'.SlotAnswers c h b k (.raised z d g) → n ≤ k

/-- The context neither runs nor freezes, and takes no trap. -/
def State.Away (a : State) (c h : Nat) : Prop := (a.ctx c h).st ≠ .running ∧ (a.ctx c h).st ≠ .frozenTrap ∧
  (a.ctx c h).st ≠ .frozenPre ∧ ((a.ctx c h).st = .stopped → (a.ctx c h).asyncQ = [] ∨ (a.ctx c h).mayTake = false)

theorem State.attempt_frozen (hs : (a.ctx c h).st = .frozenTrap ∨ (a.ctx c h).st = .frozenPre) :
    a.attempt c h = (a, .blocks 12) := by
  unfold State.attempt
  rcases hs with hs | hs <;> simp [hs]

theorem State.Away.attempt (hw : a.Away c h) : a.attempt c h = (a, .absent) := by
  obtain ⟨hrun, htrap, hpre, hstop⟩ := hw
  have hn : ((a.ctx c h).st = CtxState.stopped && (a.ctx c h).mayTake && !(a.ctx c h).asyncQ.isEmpty) = false := by
    cases hst : decide ((a.ctx c h).st = CtxState.stopped) with
    | false => rfl
    | true => rcases hstop (of_decide_eq_true hst) with hq | hq <;> simp [hq]
  unfold State.attempt
  simp [hrun, htrap, hpre, hn]

theorem State.attempt_strike (hst : (a.ctx c h).st = .running) (hs : (a.ctx c h).strikes ≠ none) :
    a.attempt c h = (a, .takesStrike) := by
  unfold State.attempt
  simp [hst, Option.isSome_iff_ne_none, hs]

theorem State.attempt_async (hst : (a.ctx c h).st = .running) (hs : (a.ctx c h).strikes = none) (hq : (a.ctx c h).asyncQ ≠ [])
    (hi : (a.ctx c h).inh = false) : a.attempt c h = (a, .takesAsync) := by
  unfold State.attempt
  simp [hst, hs, hq, hi]

theorem State.attempt_wait2 {w : Wait2} (hst : (a.ctx c h).st = .running) (hs : (a.ctx c h).strikes = none)
    (hq : (a.ctx c h).asyncQ = [] ∨ (a.ctx c h).inh = true) (hdet : a.det c = false) (hw : (a.ctx c h).wait2 = some w) :
    a.attempt c h = (a, .blocks w.code) := by
  have hn : (!(a.ctx c h).asyncQ.isEmpty && !(a.ctx c h).inh) = false := by rcases hq with hq | hq <;> simp [hq]
  unfold State.attempt
  simp [hst, hs, hn, hw, hdet]

/-- How many bundles the nullifier may skip before an attempt of context `h`. -/
def State.skipBound (a : State) (c h : Nat) : Nat := if (a.core c).last == some h && (a.ctx c h).stall == 0 then 3 else 0

/-- A context with nothing at its boundary tries the bundle that the nullifier leaves. -/
theorem State.FreeToTry.attempt_legal {b : Bundle} (hf : a.FreeToTry c h)
    (hs : State.skipping (a.skipBound c h) c h a = .next a') (hb : a'.fetched c h = .legal b) :
    a.attempt c h = (a', a'.tryBundle c h b) := by
  obtain ⟨hst, hstr, hq, hw⟩ := hf
  have hn : (!(a.ctx c h).asyncQ.isEmpty && !(a.ctx c h).inh) = false := by rcases hq with hq | hq <;> simp [hq]
  unfold State.skipBound at hs
  unfold State.attempt
  simp only [hst, hstr, hn, hw, hs, hb]
  simp

theorem State.FreeToTry.attempt_illegal {v : BitVec 4} (hf : a.FreeToTry c h) (hb : a.fetched c h = .illegal v) :
    a.attempt c h = (a, .traps (illegalAt v .illegal)) := by
  obtain ⟨hst, hstr, hq, hw⟩ := hf
  have hn : (!(a.ctx c h).asyncQ.isEmpty && !(a.ctx c h).inh) = false := by rcases hq with hq | hq <;> simp [hq]
  unfold State.attempt
  simp only [hst, hstr, hn, hw, State.skipping_illegal hb, hb]
  simp

theorem State.Tries.attempt {b : Bundle} (ht : a.Tries c h a' b) : a.attempt c h = (a', a'.tryBundle c h b) := by
  obtain ⟨hf, ⟨k, us, hk, hlast, rfl, rfl, hus⟩, hb, hstop, -⟩ := ht
  refine hf.attempt_legal ?_ hb
  unfold State.skipBound
  cases hcond : ((us 0).core c).last == some h && ((us 0).ctx c h).stall == 0 with
  | true =>
    simp only [Bool.and_eq_true, beq_iff_eq] at hcond
    rw [if_pos rfl, State.skipping_of_skips 3 hk hus]
    refine State.skipping_stops hb (.inr ?_)
    rcases hstop with hl | hs | hs
    · exact absurd hcond.1 hl
    · exact absurd hcond.2 hs
    · exact hs
  | false =>
    rcases hlast with rfl | ⟨hl, hs⟩
    · rfl
    · simp [hl, hs] at hcond

/-- No branch stands in a delay slot of the bundle that is tried. -/
theorem State.Tries.no_delayBranch {b : Bundle} (ht : a.Tries c h a' b) :
    (decide (0 < (a'.ctx c h).nds) && (liveOps b).any (fun e => isBranch e.2)) = false := by
  obtain ⟨-, -, -, -, hn | hb⟩ := ht
  · simp [hn]
  · rw [List.any_eq_false.mpr fun e he => by rw [hb e he]; decide, Bool.and_false]

/-! ## The bundle that is tried -/

variable {b : Bundle}

/-- A bundle in the middle of its stall cycles is not tried before they have passed (R169). -/
theorem State.not_midStall (hstall : (a.ctx c h).stall = 0 ∨ State.bundleExtra c a b ≤ (a.ctx c h).stall) :
    ¬(decide (0 < (a.ctx c h).stall) && decide ((a.ctx c h).stall < State.bundleExtra c a b)) = true := by
  rcases hstall with hstall | hstall
  · simp [hstall]
  · simp [Nat.not_lt.mpr hstall]

theorem State.tryBundle_blocks {n : Nat}
    (hbr : (decide (0 < (a.ctx c h).nds) && (liveOps b).any (fun e => isBranch e.2)) = false)
    (hstall : (a.ctx c h).stall = 0 ∨ State.bundleExtra c a b ≤ (a.ctx c h).stall)
    (hb : lowestBlock (slotVerdicts (a.bundleAt c h b) (a.guardedOps c h b)) = some n) : a.tryBundle c h b = .blocks n := by
  unfold State.tryBundle
  extract_lets k x det extra s0 vs
  have hvs : lowestBlock vs = some n := hb
  refine (if_neg (Bool.eq_false_iff.mp hbr)).trans ((if_neg (State.not_midStall hstall)).trans ?_)
  rw [hvs]

theorem State.tryBundle_traps {f : TrapFound}
    (hbr : (decide (0 < (a.ctx c h).nds) && (liveOps b).any (fun e => isBranch e.2)) = false)
    (hstall : (a.ctx c h).stall = 0 ∨ State.bundleExtra c a b ≤ (a.ctx c h).stall)
    (hb : lowestBlock (slotVerdicts (a.bundleAt c h b) (a.guardedOps c h b)) = none)
    (hf : lowestTrap (slotVerdicts (a.bundleAt c h b) (a.guardedOps c h b)) = some f) : a.tryBundle c h b = .traps f := by
  unfold State.tryBundle
  extract_lets k x det extra s0 vs
  have hvb : lowestBlock vs = none := hb
  have hvf : lowestTrap vs = some f := hf
  refine (if_neg (Bool.eq_false_iff.mp hbr)).trans ((if_neg (State.not_midStall hstall)).trans ?_)
  rw [hvb]
  dsimp only
  rw [hvf]

/-- A bundle of which no slot answers otherwise runs its slots and issues. -/
theorem State.tryBundle_issues {v : Nat → State}
    (hbr : (decide (0 < (a.ctx c h).nds) && (liveOps b).any (fun e => isBranch e.2)) = false)
    (hstall : State.bundleExtra c a b ≤ (a.ctx c h).stall)
    (hans : ∀ n r, a.SlotAnswers c h b n r → r = .issued ∨ r = .struck) (hgate : a.switchGate c h = .go)
    (hruns : SlotsRun c (slotOrder (liveOps b)) (a.bundleAt c h b) v) :
    a.tryBundle c h b = .issues ((v (liveOps b).length).issued c h (a.ctx c h).pc
      (if (a.ctx c h).bank then (a.core c).imask1 else (a.core c).imask0)) := by
  have hvd := hruns.verdict rfl
  have hrun := hruns.runSlots
  rw [slotOrder_length] at hvd hrun
  rw [slotOrder_eq_actOrder (liveOps_pairwise b)] at hrun
  have hmem : ∀ n r, (n, r) ∈ slotVerdicts (a.bundleAt c h b) (a.guardedOps c h b) → r = .issued ∨ r = .struck := fun n r hr =>
    (em (r = .issued)).imp_right fun hi => (hans n r (State.slotAnswers_of_mem hr hi)).resolve_left hi
  have hblock : lowestBlock (slotVerdicts (a.bundleAt c h b) (a.guardedOps c h b)) = none :=
    lowestBlock_eq_none fun k n hk => by simpa using hmem _ _ hk
  have htrap : lowestTrap (slotVerdicts (a.bundleAt c h b) (a.guardedOps c h b)) = none :=
    lowestTrap_eq_none fun k z d g hk => by simpa using hmem _ _ hk
  have hgo : ¬(decide ((a.ctx c h).stall < State.bundleExtra c a b) ||
      (slotVerdicts (a.bundleAt c h b) (a.guardedOps c h b)).any (fun e => e.2 == .stalled)) = true := by
    rw [decide_eq_false (Nat.not_lt.mpr hstall), List.any_eq_false.mpr]
    · decide
    · rintro ⟨n, r⟩ hr
      rcases hmem n r hr with rfl | rfl <;> simp
  unfold State.tryBundle
  extract_lets k x det extra s0 vs
  have hvb : lowestBlock vs = none := hblock
  have hvf : lowestTrap vs = none := htrap
  have hs0 : Machine.runSlots c none (actOrder (liveOps b)) s0 = .next (v (liveOps b).length) := hrun
  refine (if_neg (Bool.eq_false_iff.mp hbr)).trans ((if_neg (State.not_midStall (.inr hstall))).trans ?_)
  rw [hvb]
  dsimp only
  rw [hvf]
  dsimp only
  refine (if_neg hgo).trans ?_
  rw [hgate]
  dsimp only
  rw [hs0]
  dsimp only
  rcases hvd with hv | hv <;> rw [hv] <;> rfl

theorem State.BundleBlocks.attempt {n : Nat} (hb : a.BundleBlocks c h n a') : a.attempt c h = (a', .blocks n) := by
  rcases hb with ⟨hst, rfl, rfl⟩ | ⟨hst, hs, hq, rfl, hdet, w, hw, rfl⟩ | ⟨b, ht, hstall, ⟨k, hk⟩, hle⟩
  · exact State.attempt_frozen hst
  · exact State.attempt_wait2 hst hs hq hdet hw
  · rw [ht.attempt, State.tryBundle_blocks ht.no_delayBranch hstall]
    exact lowestBlock_eq_some ⟨k, hk.mem⟩ fun k m hm => hle k m (State.slotAnswers_of_mem hm (by simp))

theorem State.BundleRaises.attempt {f : TrapFound} (hr : a.BundleRaises c h f a') : a.attempt c h = (a', .traps f) := by
  obtain ⟨hasync, hframe, b, ht, hstall, hblock, hslots, n, hn, hle⟩ := hr
  have hiff : ∀ k z d g, a'.SlotAnswers c h b k (.raised z d g) ↔
      (k, Verdict.raised z d g) ∈ slotVerdicts (a'.bundleAt c h b) (a'.guardedOps c h b) := fun k z d g =>
    ⟨State.SlotAnswers.mem, fun hm => State.slotAnswers_of_mem hm (by simp)⟩
  rw [ht.attempt, State.tryBundle_traps ht.no_delayBranch hstall
    (lowestBlock_eq_none fun k m hm => hblock k m (State.slotAnswers_of_mem hm (by simp)))]
  refine lowestTrap_eq_some hasync hframe (fun k _ => ?_) hn.mem (fun k z d g hm => hle k z d g ((hiff ..).mpr hm)) fun r hm => ?_
  · simp only [hslots, hiff]
  · exact State.verdict_unique_of_mem hm hn.mem

theorem State.BundleIssues.attempt {r : State} (hi : a.BundleIssues c h r) : ∃ a', a.attempt c h = (a', .issues r) := by
  obtain ⟨a', b, v, ht, hstall, hans, hgate, hruns, rfl⟩ := hi
  exact ⟨a', by rw [ht.attempt, State.tryBundle_issues ht.no_delayBranch hstall hans hgate hruns]⟩

end

/-! ## The issue slot of a cycle (R161) -/

/-- A trap is taken, and the core has issued nothing in the cycle. -/
def State.trapTaken (c : Nat) (a : State) (h : Nat) (f : TrapFound) : State := ((a.takeTrap c h f).afterTrap c h).idle c

/-- The search goes on past context `x`, which is away or blocks. -/
def State.Passes (c : Nat) (a : State) (x : Nat) (a' : State) : Prop :=
  (a.Away c x ∧ a' = a) ∨ ∃ n b, a.BundleBlocks c x n b ∧ a' = b.noteBlock c x n

section
variable {a a' r : State} {c h x n : Nat} {f : TrapFound} {xs : List Nat}

theorem State.Passes.search_cons (hp : State.Passes c a x a') : State.search c (x :: xs) a = State.search c xs a' := by
  rcases hp with ⟨hw, rfl⟩ | ⟨n, b, hb, rfl⟩
  · rw [State.search, hw.attempt]
    rfl
  · rw [State.search, hb.attempt]
    rfl

theorem State.BundleIssues.search_cons (hi : a.BundleIssues c x r) : State.search c (x :: xs) a = .next r := by
  obtain ⟨a', ha⟩ := hi.attempt
  rw [State.search, ha]
  rfl

theorem State.BundleRaises.search_cons (hr : a.BundleRaises c x f a') :
    State.search c (x :: xs) a = .next (State.trapTaken c a' x f) := by
  rw [State.search, hr.attempt]
  rfl

/-- From the `m`-th context on, the rotation goes on with it. -/
theorem rotation_drop {m : Nat} (hm : m < 4) (f : Nat) :
    (rotation f).drop m = (f + 1 + m) % 4 :: (rotation f).drop (m + 1) := by
  have h4 : m = 0 ∨ m = 1 ∨ m = 2 ∨ m = 3 := by omega
  rcases h4 with rfl | rfl | rfl | rfl
  · rfl
  · rfl
  · rfl
  · simp [rotation, show f + 1 + 3 = f + 4 by omega]

/-- The search has passed the first `m` contexts after `f`. -/
theorem State.search_passes {w : Nat → State} {m f : Nat} (hm : m ≤ 4)
    (hp : ∀ j < m, State.Passes c (w j) ((f + 1 + j) % 4) (w (j + 1))) :
    State.search c (rotation f) (w 0) = State.search c ((rotation f).drop m) (w m) := by
  induction m with
  | zero => rfl
  | succ m ih =>
    rw [ih (by omega) fun j hj => hp j (by omega), rotation_drop (by omega), (hp m (by omega)).search_cons]

/-! ## The holder of the issue slot -/

/-- What the attempt of the holder `h` makes of the cycle: away, it leaves the slot to the others; blocked, it passes the slot on. -/
def State.holderCycle (c h : Nat) : State × Attempt → Out
  | (a, .absent) => State.search c (rotation h) (a.yieldSlot c h)
  | (a, .blocks n) => .next (((a.noteBlock c h n).yieldSlot c h).idle c)
  | (a, att) => (a.settle c h att).1

theorem State.issueOrdinary_holder (hs : (a.core c).slotSpent = false) (hh : (a.core c).holder = some h) :
    a.issueOrdinary c = State.holderCycle c h (a.attempt c h) := by
  unfold State.issueOrdinary
  dsimp only
  rw [hs, hh, if_neg Bool.false_ne_true]
  dsimp only
  generalize a.attempt c h = att
  obtain ⟨a', att⟩ := att
  cases att with
  | stops o => cases o <;> rfl
  | _ => rfl

theorem State.issueOrdinary_free (hs : (a.core c).slotSpent = false) (hh : (a.core c).holder = none) :
    a.issueOrdinary c = State.search c (rotation (a.core c).from_) a := by
  unfold State.issueOrdinary
  dsimp only
  rw [hs, hh, if_neg Bool.false_ne_true]

/-- The search of a cycle starts after context `f` in state `b`: the holder is away, or no context holds the slot. -/
def State.SearchFrom (a : State) (c f : Nat) (b : State) : Prop :=
  (∃ h, (a.core c).holder = some h ∧ a.Away c h ∧ f = h ∧ b = a.yieldSlot c h) ∨
    ((a.core c).holder = none ∧ f = (a.core c).from_ ∧ b = a)

theorem State.SearchFrom.issueOrdinary {f : Nat} {b : State} (hf : a.SearchFrom c f b) (hs : (a.core c).slotSpent = false) :
    a.issueOrdinary c = State.search c (rotation f) b := by
  rcases hf with ⟨h, hh, hw, rfl, rfl⟩ | ⟨hh, rfl, rfl⟩
  · rw [State.issueOrdinary_holder hs hh, hw.attempt]
    rfl
  · exact State.issueOrdinary_free hs hh

/-! ## Deterministic mode (R174, R175) -/

/-- The bundle of context `x` is not due, and no trap of it is taken. -/
def State.Rests (c : Nat) (a : State) (x : Nat) : Prop := a.dueNow c x = false ∧
  ((a.ctx c x).st = .running → (a.ctx c x).strikes = none) ∧
  ((a.ctx c x).st = .stopped → (a.ctx c x).asyncQ = [] ∨ (a.ctx c x).mayTake = false)

theorem State.takeAsync_nil (hq : (a.ctx c x).asyncQ = []) : a.takeAsync c x = a := by
  unfold State.takeAsync
  dsimp only
  rw [hq]

theorem State.Rests.stepDet (hr : State.Rests c a x) (taken : Bool) : a.stepDet c x taken = (.next a, false) := by
  obtain ⟨hdue, hrun, hstop⟩ := hr
  have hstrike : ¬(decide ((a.ctx c x).st = CtxState.running) && (a.ctx c x).strikes.isSome) = true := by
    simpa using hrun
  unfold State.stepDet
  dsimp only
  rw [if_neg hstrike]
  split
  · next hs =>
    obtain ⟨hst, hmay⟩ := Bool.and_eq_true_iff.mp hs
    have hq := (hstop (of_decide_eq_true hst)).resolve_right (by simp [hmay])
    rw [State.takeAsync_nil hq]
  · simp [hdue]

/-- Contexts that rest leave the cycle as it is. -/
theorem State.issueDet_rests {ys : List Nat} {taken : Bool} (hr : ∀ x ∈ xs, State.Rests c a x) :
    State.issueDet c (xs ++ ys) taken a = State.issueDet c ys taken a := by
  induction xs with
  | nil => rfl
  | cons x xs ih =>
    rw [List.cons_append, State.issueDet, (hr x List.mem_cons_self).stepDet]
    dsimp only
    rw [Bool.or_false, ih fun y hy => hr y (List.mem_cons_of_mem x hy)]

theorem State.issueDet_rests_end {taken : Bool} (hr : ∀ x ∈ xs, State.Rests c a x) :
    State.issueDet c xs taken a = .next (if taken then a else a.idle c) := by
  have := State.issueDet_rests (ys := []) (taken := taken) hr
  rw [List.append_nil] at this
  exact this

/-- The contexts before one and those after it. -/
theorem four_eq_split {h : Nat} (hh : h < 4) : four = List.range h ++ h :: List.range' (h + 1) (3 - h) := by
  have h4 : h = 0 ∨ h = 1 ∨ h = 2 ∨ h = 3 := by omega
  rcases h4 with rfl | rfl | rfl | rfl <;> rfl

/-- Only context `h` has a turn, where those before it and those after it rest. -/
theorem State.issueDet_only {used : Bool} (hh : h < 4) (hbefore : ∀ x < h, State.Rests c a x)
    (hstep : a.stepDet c h false = (.next a', used)) (hafter : ∀ x < 4, h < x → State.Rests c a' x) :
    State.issueDet c four false a = .next (if used then a' else a'.idle c) := by
  rw [four_eq_split hh, State.issueDet_rests fun x hx => hbefore x (List.mem_range.mp hx), State.issueDet, hstep]
  dsimp only
  rw [Bool.false_or, State.issueDet_rests_end]
  intro x hx
  have := List.mem_range'_1.mp hx
  exact hafter x (by omega) (by omega)

/-- A context that is free to try and due has no trap to take before. -/
theorem State.FreeToTry.stepDet_due (hf : a.FreeToTry c h) (hd : a.dueNow c h = true) :
    a.stepDet c h false =
      if a.meshPause || !a.onTime c h || (a.ctx c h).copyFaultWaits then
        (.next (if a.due c h == (a.core c).frame then (a.takeTrap c h overrunAt).idle c else a.takeTrap c h overrunAt),
          a.due c h == (a.core c).frame)
      else (a.attempt c h).1.settle c h (a.attempt c h).2 := by
  obtain ⟨hst, hstr, hq, -⟩ := hf
  have hn : (!(a.ctx c h).asyncQ.isEmpty && !(a.ctx c h).inh) = false := by rcases hq with hq | hq <;> simp [hq]
  unfold State.stepDet
  simp [hst, hstr, hd, hn]

/-- The bundle that alone falls due issues. -/
theorem State.BundleIssues.issueDet (hi : a.BundleIssues c h r) (hf : a.FreeToTry c h) (hd : a.dueNow c h = true) (hh : h < 4)
    (hbefore : ∀ x < h, State.Rests c a x) (hpause : a.meshPause = false) (htime : a.onTime c h = true)
    (hcopy : (a.ctx c h).copyFaultWaits = false) (hafter : ∀ x < 4, h < x → State.Rests c r x) :
    State.issueDet c four false a = .next r := by
  obtain ⟨a', ha⟩ := hi.attempt
  refine State.issueDet_only (used := true) hh hbefore ?_ hafter
  rw [hf.stepDet_due hd, hpause, htime, hcopy, ha]
  rfl

/-- In the mesh pause, off its time or behind a copy fault it is overrun instead (R130, R174, R251). -/
theorem State.FreeToTry.issueDet_overrun (hf : a.FreeToTry c h) (hd : a.dueNow c h = true) (hh : h < 4)
    (hbefore : ∀ x < h, State.Rests c a x)
    (hover : a.meshPause = true ∨ a.onTime c h = false ∨ (a.ctx c h).copyFaultWaits = true)
    (hafter : ∀ x < 4, h < x → State.Rests c (a.takeTrap c h overrunAt) x ∧ State.Rests c ((a.takeTrap c h overrunAt).idle c) x) :
    State.issueDet c four false a = .next ((a.takeTrap c h overrunAt).idle c) := by
  have hcond : (a.meshPause || !a.onTime c h || (a.ctx c h).copyFaultWaits) = true := by
    rcases hover with ho | ho | ho <;> simp [ho]
  have hstep := hf.stepDet_due hd
  rw [if_pos hcond] at hstep
  cases hdue : a.due c h == (a.core c).frame with
  | true =>
    rw [hdue] at hstep
    exact State.issueDet_only hh hbefore hstep fun x hx hlt => (hafter x hx hlt).2
  | false =>
    rw [hdue] at hstep
    exact State.issueDet_only hh hbefore hstep fun x hx hlt => (hafter x hx hlt).1

end

/-! ## The cycle of a core and the step -/

/-- The core in a cycle that has begun. -/
def State.opened (s : State) (c : Nat) : State := four.foldl (fun s x => s.openCtx c x) (s.openCycle c)

/-- The end of the cycle of a core that still has a launch. -/
def endsCycle (c : Nat) (r : State) : Out := .next (if (r.core c).owner = none then r else r.closeCycle c)

section
variable {s r : State} {o : Owner} {c : Nat}

theorem State.coreCycle_unowned (ho : (s.core c).owner = none) : s.coreCycle c = .next s := by
  unfold State.coreCycle
  rw [if_pos (by rw [ho]; rfl)]

section
variable (ho : (s.core c).owner = some o) (hh : ((s.openCycle c).core c).halted = false)
include ho hh

theorem State.coreCycle_mload (hm : ((s.opened c).core c).mload ≠ none) :
    s.coreCycle c = .next ((s.opened c).mloadStall c) := by
  unfold State.coreCycle
  dsimp only
  rw [if_neg (by rw [ho]; exact Bool.false_ne_true), if_neg (by rw [hh]; exact Bool.false_ne_true)]
  exact if_pos (Option.isSome_iff_ne_none.mpr hm)

/-- A core that issues a bundle, or may: what the issue slot makes of the cycle, then its end. -/
theorem State.coreCycle_issues (hm : ((s.opened c).core c).mload = none)
    (hr : (if (s.opened c).det c then State.issueDet c four false ((s.opened c).modCore c (fun k => { k with slotSpent := false }))
      else (s.opened c).issueOrdinary c) = .next r) : s.coreCycle c = endsCycle c r := by
  unfold State.opened at hm hr
  unfold State.coreCycle
  dsimp only
  rw [if_neg (by rw [ho]; exact Bool.false_ne_true), if_neg (by rw [hh]; exact Bool.false_ne_true),
    if_neg (by rw [hm]; exact Bool.false_ne_true), hr]
  simp only [Option.isNone_iff_eq_none, endsCycle]

theorem State.coreCycle_ordinary (hm : ((s.opened c).core c).mload = none) (hd : (s.opened c).det c = false)
    (hr : (s.opened c).issueOrdinary c = .next r) : s.coreCycle c = endsCycle c r :=
  State.coreCycle_issues ho hh hm (by rw [if_neg (by rw [hd]; exact Bool.false_ne_true), hr])

theorem State.coreCycle_det (hm : ((s.opened c).core c).mload = none) (hd : (s.opened c).det c = true)
    (hr : State.issueDet c four false ((s.opened c).modCore c (fun k => { k with slotSpent := false })) = .next r) :
    s.coreCycle c = endsCycle c r :=
  State.coreCycle_issues ho hh hm (by rw [if_pos hd, hr])

end

/-- With an empty agenda a step is a cycle of the core in focus. -/
theorem step_cycle (hd : s.dead = false) (ha : s.agenda = []) : step s = s.coreCycle s.focus := by
  unfold step State.run State.nextTurn
  rw [ha]
  dsimp only
  rw [hd]
  rfl

theorem step_turn {t : Turn} {ts : List Turn} (hd : s.dead = false) (ha : s.agenda = t :: ts) :
    step s = ({ s with agenda := ts } : State).turn t := by
  unfold step State.run State.nextTurn
  rw [ha]
  dsimp only
  rw [hd]
  rfl

theorem State.turn_event {i : Instr} (he : encode i = none) (hm : encodeMicro i = none) : s.turn (.event i) = exec i s := by
  unfold State.turn isEvent
  dsimp only
  rw [he, hm]
  rfl

/-- A turn of the plane unit runs the micro-op that its call reads. -/
theorem State.turn_micro {core : Nat} {k : Call} {w : BitVec 128} {i : Instr} (hc : s.runningCall core = some k)
    (hw : (s.core core).microWord k = some w) (hi : decodeMicro w = .ok i) :
    s.turn (.micro core) = exec i (s.focusOn core k.ctx 3 0) := by
  unfold State.turn State.microTurn
  dsimp only
  rw [hc]
  dsimp only
  rw [hw]
  dsimp only
  rw [hi]

theorem step_dead {t : Turn} {ts : List Turn} (hd : s.dead = true) (ha : s.agenda = t :: ts) (ht : isReset t = false) :
    step s = .fault .heldInReset := by
  unfold step State.run State.nextTurn
  rw [ha]
  dsimp only
  rw [hd, ht]
  rfl

theorem step_reset {u : List UnitName} {ts : List Turn} (ha : s.agenda = .event (.moduleReset u) :: ts) :
    step s = exec (.moduleReset u) { s with agenda := ts } := by
  unfold step State.run State.nextTurn
  rw [ha]
  dsimp only
  rw [show isReset (.event (.moduleReset u)) = true from rfl, Bool.not_true, Bool.and_false]
  exact State.turn_event (i := .moduleReset u) rfl rfl

end

/-! ## What the issue slot makes of a cycle outside deterministic mode -/

section
variable {a a' r : State} {c h n : Nat} {f : TrapFound} (hs : (a.core c).slotSpent = false)
include hs

theorem State.BundleIssues.issueOrdinary (hi : a.BundleIssues c h r) (hh : (a.core c).holder = some h) :
    a.issueOrdinary c = .next r := by
  obtain ⟨a', ha⟩ := hi.attempt
  rw [State.issueOrdinary_holder hs hh, ha]
  rfl

theorem State.BundleBlocks.issueOrdinary (hb : a.BundleBlocks c h n a') (hh : (a.core c).holder = some h) :
    a.issueOrdinary c = .next (((a'.noteBlock c h n).yieldSlot c h).idle c) := by
  rw [State.issueOrdinary_holder hs hh, hb.attempt]
  rfl

theorem State.BundleRaises.issueOrdinary (hr : a.BundleRaises c h f a') (hh : (a.core c).holder = some h) :
    a.issueOrdinary c = .next (State.trapTaken c a' h f) := by
  rw [State.issueOrdinary_holder hs hh, hr.attempt]
  rfl

theorem State.FreeToTry.issueOrdinary_illegal {v : BitVec 4} (hf : a.FreeToTry c h) (hb : a.fetched c h = .illegal v)
    (hh : (a.core c).holder = some h) : a.issueOrdinary c = .next (State.trapTaken c a h (illegalAt v .illegal)) := by
  rw [State.issueOrdinary_holder hs hh, hf.attempt_illegal hb]
  rfl

theorem State.issueOrdinary_strike (hst : (a.ctx c h).st = .running) (hx : (a.ctx c h).strikes ≠ none)
    (hh : (a.core c).holder = some h) : a.issueOrdinary c = .next (((a.takeStrike c h).afterTrap c h).idle c) := by
  rw [State.issueOrdinary_holder hs hh, State.attempt_strike hst hx]
  rfl

theorem State.issueOrdinary_async (hst : (a.ctx c h).st = .running) (hx : (a.ctx c h).strikes = none)
    (hq : (a.ctx c h).asyncQ ≠ []) (hi : (a.ctx c h).inh = false) (hh : (a.core c).holder = some h) :
    a.issueOrdinary c = .next (((a.takeAsync c h).afterTrap c h).idle c) := by
  rw [State.issueOrdinary_holder hs hh, State.attempt_async hst hx hq hi]
  rfl

section
variable {b : State} {w : Nat → State} {g m : Nat} (hf : a.SearchFrom c g (w 0))
  (hp : ∀ j < m, State.Passes c (w j) ((g + 1 + j) % 4) (w (j + 1)))
include hf hp

/-- Where every context is passed, the core idles. -/
theorem State.SearchFrom.issueOrdinary_all (hm : m = 4) : a.issueOrdinary c = .next ((w 4).idle c) := by
  subst hm
  rw [hf.issueOrdinary hs, State.search_passes (Nat.le_refl 4) hp]
  rfl

/-- The first context that is not passed is asked next. -/
theorem State.SearchFrom.issueOrdinary_next (hm : m < 4) :
    a.issueOrdinary c = State.search c ((g + 1 + m) % 4 :: (rotation g).drop (m + 1)) (w m) := by
  rw [hf.issueOrdinary hs, State.search_passes (Nat.le_of_lt hm) hp, rotation_drop hm]

end
end

/-- Settles O57: each turn of a step by itself, then the cycle of a core by the attempt of the context that has the issue slot. -/
theorem stepRunsDecoded : Obligations.StepRunsDecoded := by
  unfold Obligations.StepRunsDecoded
  refine ⟨?_, ?_, ?_, ?_, ?_⟩
  · intro i ts s hd ha he hm
    rw [step_turn hd ha, State.turn_event he hm]
  · intro core ts s k w i hd ha hc hw hi
    rw [step_turn hd ha]
    exact State.turn_micro (s := { s with agenda := ts }) hc hw hi
  · intro s hd ha ho
    rw [step_cycle hd ha, State.coreCycle_unowned ho]
  · intro t ts s hd ha
    refine ⟨fun ht => step_dead hd ha ?_, fun u ht => step_reset (ht ▸ ha)⟩
    unfold isReset
    split
    · exact absurd rfl (ht _)
    · rfl
  intro s o c u ends at_ runs order skip free tries extra answers issues blocks raises trapped away hd ha ho hh
  rw [step_cycle hd ha]
  refine ⟨State.coreCycle_mload ho hh, ?_, ?_, ?_⟩
  · intro hm hdet hs h hold
    have hcycle {r : State} := State.coreCycle_ordinary (r := r) ho hh hm hdet
    exact ⟨fun r hr => hcycle (State.BundleIssues.issueOrdinary hs hr hold),
      fun n a hb => hcycle (State.BundleBlocks.issueOrdinary hs hb hold),
      fun f a hr => hcycle (State.BundleRaises.issueOrdinary hs hr hold),
      fun b hf hb => hcycle (State.FreeToTry.issueOrdinary_illegal hs hf hb hold),
      fun hst hx => hcycle (State.issueOrdinary_strike hs hst hx hold),
      fun hst hx hq hi => hcycle (State.issueOrdinary_async hs hst hx hq hi hold)⟩
  · intro hm hdet hs f m w hfrom hpass
    have hcycle {r : State} := State.coreCycle_ordinary (r := r) ho hh hm hdet
    have hf : u.SearchFrom c f (w 0) := hfrom
    have hp : ∀ j < m, State.Passes c (w j) ((f + 1 + j) % 4) (w (j + 1)) := hpass
    refine ⟨fun h4 => hcycle (hf.issueOrdinary_all hs hp h4), fun h4 => ⟨fun r hr => hcycle ?_, fun g a hr => hcycle ?_⟩⟩
    · exact (hf.issueOrdinary_next hs hp h4).trans (State.BundleIssues.search_cons hr)
    · exact (hf.issueOrdinary_next hs hp h4).trans (State.BundleRaises.search_cons hr)
  · intro hm hdet d rests h h4 hdue hf hbefore
    have hcycle {r : State} := State.coreCycle_det (r := r) ho hh hm hdet
    refine ⟨fun r hpause htime hcopy hr hafter => hcycle ?_, fun hover hafter => hcycle ?_⟩
    · exact State.BundleIssues.issueDet hr hf hdue h4 hbefore hpause htime hcopy hafter
    · exact State.FreeToTry.issueDet_overrun hf hdue h4 hbefore hover hafter

end Sys2Proof.Machine
end

section
/-! SUPPORT. The end of a slot's attempt (R160, R169, R175, R415): it has issued, or it has halted and left what halting leaves of the
state before it. -/

namespace Sys2Proof.Machine

/-- The answer of an attempt: its slot has issued, or has halted in the state in which it began. -/
inductive State.SlotAnswer (s : State) : Out → Prop
  | issued (t : State) : s.SlotAnswer (.next (t.verdict .issued))
  | struck (t : State) : s.SlotAnswer (.next (t.verdict .struck))
  | halted (h : Halt) : s.SlotAnswer (.next (s.halt h))

namespace State.SlotAnswer

theorem slotRun {s : State} {gd : Guard} {fx : State → FalseFx} {body : State → Try State} :
    s.SlotAnswer (slotRun gd fx body s) := by
  obtain ⟨t, -, -, h⟩ | ⟨e, -, -, h⟩ | ⟨-, h⟩ := slotRun_cases gd fx body s
  · exact h ▸ .issued t
  · exact h ▸ .halted e
  · exact h ▸ .issued _

theorem struckRun {s : State} {gd : Guard} {body : State → Try State} : s.SlotAnswer (struckRun gd body s) := by
  unfold Machine.struckRun
  split
  · cases body s with
    | ok t => exact .struck t
    | error h => exact .halted h
  · exact .issued s

theorem yield {s : State} {f : FZ} : s.SlotAnswer (execYield f s) := by
  unfold execYield
  split
  · exact .issued s
  split
  · exact .halted _
  split
  · exact .struck _
  · exact .issued s

/-- Every slot form but NOP, ERET, YIELD and HALTCTX runs as `slotRun` says; micro-ops and events have no guard. -/
theorem exec {s : State} {gd : Guard} {i : Instr} (hi : i.guard = some gd) : s.SlotAnswer (Machine.exec i s) := by
  cases i
  all_goals cases hi
  all_goals simp only [Machine.exec]
  case nop => exact .issued s
  case eret | haltctx => apply struckRun
  case yield => exact .yield
  case dmov | dzero | dneg =>
    simp only [execDmov, execDzero, execDneg, dir1]
    exact .slotRun
  case dadd | dsub | dmul =>
    simp only [execDadd, execDsub, execDmul, dir2]
    exact .slotRun
  all_goals apply slotRun

end State.SlotAnswer

/-! ## What an attempt without issue leaves -/

theorem State.SlotAnswer.unissued {s : State} {o : Out} (h : s.SlotAnswer o) :
    ∃ t : State, o = .next t ∧
      (∀ n, t.cur.verdict = .blocked n →
        s.det s.cur.core = false ∧
        t = (s.modMe (fun x => { x with block := n, yielded := x.yielded || n == 11 })).verdict (.blocked n)) ∧
      (t.cur.verdict = .stalled → s.det s.cur.core = false ∧ t = s.verdict .stalled) ∧
      (∀ c code addr, t.cur.verdict = .raised c code addr → t = s.trapHere c code addr) := by
  cases h with
  | issued t => exact ⟨_, rfl, nofun, nofun, nofun⟩
  | struck t => exact ⟨_, rfl, nofun, nofun, nofun⟩
  | halted h =>
    refine ⟨_, rfl, ?_⟩
    obtain ⟨c, code, addr, e⟩ | ⟨n, -, hd, e⟩ | ⟨-, hd, e⟩ := s.halt_cases h <;> rw [e]
    · refine ⟨nofun, nofun, fun c' code' addr' hv => ?_⟩
      obtain ⟨rfl, rfl, rfl⟩ := Verdict.raised.inj hv
      rfl
    · refine ⟨fun m hv => ?_, nofun, nofun⟩
      obtain rfl := Verdict.blocked.inj hv
      exact ⟨hd, rfl⟩
    · exact ⟨nofun, fun _ => ⟨hd, rfl⟩, nofun⟩

/-- Settles O23: a slot that has not issued has halted, and a halt leaves the block, the stall or the trap alone. -/
theorem unissuedAttemptChangesNothing : Obligations.UnissuedAttemptChangesNothing := by
  unfold Obligations.UnissuedAttemptChangesNothing
  exact fun i gd s hi => (State.SlotAnswer.exec hi).unissued

end Sys2Proof.Machine
end

section
/-! SUPPORT. Landing (R162, R166, R349): which results land, which of them stands, and what a register shows of them. -/

namespace Sys2Proof.Machine

/-! ## Names of registers -/

theorem Dest.same_sreg {d : Dest} {n : Nat} : d.same (.sreg n) = true ↔ d = .sreg n := by
  cases d <;> simp [Dest.same]

theorem Dest.same_mreg {d : Dest} {n : Nat} : d.same (.mreg n) = true ↔ d = .mreg n := by
  cases d <;> simp [Dest.same]

theorem Dest.same_vreg {d : Dest} {g : VFile} {n lo len : Nat} :
    d.same (.vreg g n lo len) = true ↔ ∃ lo' len', d = .vreg g n lo' len' := by
  cases d <;> simp [Dest.same]

theorem Dest.same_dlanes {d : Dest} {n : Nat} : d.same (.dlanes n) = true ↔ d = .dlanes n := by
  cases d <;> simp [Dest.same]

theorem Dest.same_dnorm {d : Dest} {n : Nat} : d.same (.dnorm n) = true ↔ d = .dnorm n := by
  cases d <;> simp [Dest.same]

theorem Dest.same_pred {d : Dest} {n : Nat} : d.same (.pred n) = true ↔ d = .pred n := by
  cases d <;> simp [Dest.same]

theorem Dest.same_kmask {d : Dest} {n len : Nat} : d.same (.kmask n len) = true ↔ ∃ len', d = .kmask n len' := by
  cases d <;> simp [Dest.same]

theorem Dest.same_comm (d e : Dest) : d.same e = e.same d := by
  cases d <;> cases e <;> grind [Dest.same]

/-! ## Which result stands (R166) -/

/-- An own result over one of the inbound port, the later-issued of own results, the higher slot of arrivals. -/
theorem InFlight.beats_iff {f g : InFlight} : f.beats g = true ↔
    (f.own = true ∧ g.own = false) ∨
    (f.own = true ∧ g.own = true ∧ (g.issued < f.issued ∨ (g.issued = f.issued ∧ g.slot < f.slot))) ∨
    (f.own = false ∧ g.own = false ∧ (g.slot < f.slot ∨ (g.slot = f.slot ∧ g.issued < f.issued))) := by
  unfold InFlight.beats
  cases f.own <;> cases g.own <;> simp [eq_comm (a := f.slot), eq_comm (a := f.issued)]

theorem InFlight.beats_asymm {f g : InFlight} (h : f.beats g = true) : g.beats f = false := by
  by_contra hn
  rw [Bool.not_eq_false, InFlight.beats_iff] at hn
  rw [InFlight.beats_iff] at h
  grind

theorem InFlight.beats_irrefl (f : InFlight) : f.beats f = false := by
  by_contra hn
  have h := Bool.not_eq_false _ ▸ hn
  exact hn (InFlight.beats_asymm h)

/-- The results whose time has come. -/
def Ctx.due (x : Ctx) : List InFlight := x.flight.filter (fun f => decide (f.vis ≤ x.cycle))

/-- Those with a value that stand over every other for their register. -/
def Ctx.wins (x : Ctx) : List InFlight :=
  let vals := x.due.filter (fun f => !f.maskOnly)
  vals.filter (fun f => !vals.any (fun g => g.dest.same f.dest && g.beats f))

/-- The mask raises that are due. -/
def Ctx.dueRaises (x : Ctx) : List InFlight := x.due.filter (·.maskOnly)

theorem Ctx.mem_due {x : Ctx} {f : InFlight} : f ∈ x.due ↔ f ∈ x.flight ∧ f.vis ≤ x.cycle := by
  simp [Ctx.due]

theorem Ctx.mem_wins {x : Ctx} {f : InFlight} : f ∈ x.wins ↔ (f ∈ x.due ∧ f.maskOnly = false) ∧
    ∀ g ∈ x.due, g.maskOnly = false → g.dest.same f.dest = true → g.beats f = false := by
  simp only [Ctx.wins, List.mem_filter, Bool.not_eq_true', List.any_eq_false, Bool.and_eq_true, not_and, Bool.not_eq_true,
    and_imp]

theorem Ctx.mem_dueRaises {x : Ctx} {f : InFlight} : f ∈ x.dueRaises ↔ f ∈ x.due ∧ f.maskOnly = true := by
  simp [Ctx.dueRaises]

/-- The result that stands over every other due one of its register. -/
def Ctx.Best (x : Ctx) (f : InFlight) : Prop :=
  f ∈ x.due ∧ f.maskOnly = false ∧ ∀ g ∈ x.due, g.maskOnly = false → g.dest.same f.dest = true → g = f ∨ f.beats g = true

theorem Ctx.Best.mem_wins {x : Ctx} {f : InFlight} (h : x.Best f) : f ∈ x.wins := by
  obtain ⟨hd, hm, ho⟩ := h
  refine Ctx.mem_wins.mpr ⟨⟨hd, hm⟩, fun g hg hgm hs => ?_⟩
  rcases ho g hg hgm hs with rfl | hb
  · exact g.beats_irrefl
  · exact InFlight.beats_asymm hb

theorem Ctx.Best.eq_of_wins {x : Ctx} {f g : InFlight} (h : x.Best f) (hg : g ∈ x.wins) (hs : g.dest.same f.dest = true) :
    g = f := by
  obtain ⟨hd, hm, ho⟩ := h
  obtain ⟨⟨hgd, hgm⟩, hu⟩ := Ctx.mem_wins.mp hg
  rcases ho g hgd hgm hs with rfl | hb
  · rfl
  · rw [hu f hd hm (Dest.same_comm _ _ ▸ hs)] at hb
    cases hb

/-! ## What a register holds after landings -/

/-- What `read` shows of a context is touched by landings on the registers `names` names, and by nothing else of landing. -/
structure Shows {α : Type} (read : Ctx → α) (names : Dest → Bool) : Prop where
  other : ∀ (x : Ctx) (f : InFlight), names f.dest = false → read (x.landOne f) = read x
  rest : ∀ (x : Ctx) (fl : List InFlight) (fp : BitVec 8) (ff : List FlagLand) (ls : List Latch),
    read { x with flight := fl, fpflags := fp, flagLands := ff, latches := ls } = read x

/-- A landing acts on it by `act`, a result that lands twice lands once, and mask raises act as `raise`. -/
structure Lands {α : Type} (read : Ctx → α) (names : Dest → Bool) (act : InFlight → α → α) (raise : Mask → α → α) : Prop extends
    Shows read names where
  named : ∀ (x : Ctx) (f : InFlight), names f.dest = true → read (x.landOne f) = act f (read x)
  again : ∀ (f : InFlight) (a : α), f.maskOnly = false → act f (act f a) = act f a
  raises : ∀ (f : InFlight) (a : α), f.maskOnly = true → act f a = raise f.mask a
  raise_zero : ∀ a, raise 0 a = a
  raise_raise : ∀ a m n, raise n (raise m a) = raise (m ||| n) a

/-- The mask that the raises due on the named registers join to. -/
def Ctx.raised (x : Ctx) (names : Dest → Bool) : Mask :=
  unionMasks ((x.flight.filter (fun g => decide (g.vis ≤ x.cycle) && g.maskOnly && names g.dest)).map (·.mask))

theorem Ctx.raised_eq (x : Ctx) (names : Dest → Bool) :
    x.raised names = unionMasks ((x.dueRaises.filter (fun g => names g.dest)).map (·.mask)) := by
  simp only [Ctx.raised, Ctx.dueRaises, Ctx.due, List.filter_filter]
  congr 3
  funext g
  cases decide (g.vis ≤ x.cycle) <;> cases g.maskOnly <;> cases names g.dest <;> rfl

theorem Ctx.landAll_append (x : Ctx) (fs gs : List InFlight) : x.landAll (fs ++ gs) = (x.landAll fs).landAll gs := by
  induction fs generalizing x with
  | nil => rfl
  | cons f fs ih => exact ih (x.landOne f)

section
variable {α : Type} {read : Ctx → α} {names : Dest → Bool} {act : InFlight → α → α} {raise : Mask → α → α}

theorem Shows.landAll {fs : List InFlight} (h : Shows read names) (x : Ctx) (hf : ∀ f ∈ fs, names f.dest = false) :
    read (x.landAll fs) = read x := by
  induction fs generalizing x with
  | nil => rfl
  | cons f fs ih =>
    obtain ⟨hf, hfs⟩ := List.forall_mem_cons.mp hf
    exact (ih (x.landOne f) hfs).trans (h.other x f hf)

/-- The results that stand land first, then the raises. -/
theorem Shows.landResults_eq (h : Shows read names) (x : Ctx) :
    ∃ y : Ctx, read y = read x ∧ read x.landResults = read ((y.landAll x.wins).landAll x.dueRaises) :=
  ⟨{ x with flight := x.flight.filter (fun f => decide (x.cycle < f.vis)) }, h.rest x _ _ _ _,
    (h.rest _ _ _ _ _).trans (congrArg read (Ctx.landAll_append _ _ _))⟩

/-- What no due result names stays. -/
theorem Shows.landResults (h : Shows read names) (x : Ctx) (hf : ∀ f ∈ x.flight, f.vis ≤ x.cycle → names f.dest = false) :
    read x.landResults = read x := by
  obtain ⟨y, hy, e⟩ := h.landResults_eq x
  have hd : ∀ f ∈ x.due, names f.dest = false := fun f hx => hf f (Ctx.mem_due.mp hx).1 (Ctx.mem_due.mp hx).2
  rw [e, h.landAll _ (fun f hx => hd f (Ctx.mem_dueRaises.mp hx).1), h.landAll _ (fun f hx => hd f (Ctx.mem_wins.mp hx).1.1), hy]

/-- Where one result alone names the register, in however many copies, it is what stands. -/
theorem Lands.landAll_one (h : Lands read names act raise) {f : InFlight} (hn : names f.dest = true) (hm : f.maskOnly = false)
    {fs : List InFlight} (x : Ctx) (hf : ∀ g ∈ fs, names g.dest = true → g = f) :
    read (x.landAll fs) = if f ∈ fs then act f (read x) else read x := by
  induction fs generalizing x with
  | nil => rfl
  | cons g fs ih =>
    obtain ⟨hg, hfs⟩ := List.forall_mem_cons.mp hf
    refine (ih (x.landOne g) hfs).trans ?_
    cases hgn : names g.dest with
    | true =>
      obtain rfl := hg hgn
      simp only [List.mem_cons_self, if_true, h.named x g hn, h.again g _ hm, ite_self]
    | false =>
      have hne : f ≠ g := fun e => by rw [e, hgn] at hn; cases hn
      simp only [List.mem_cons, hne, false_or, h.other x g hgn]

/-- Mask raises are joined. -/
theorem Lands.landAll_raises (h : Lands read names act raise) {fs : List InFlight} (x : Ctx)
    (hf : ∀ g ∈ fs, g.maskOnly = true) :
    read (x.landAll fs) = raise (unionMasks ((fs.filter (fun g => names g.dest)).map (·.mask))) (read x) := by
  induction fs generalizing x with
  | nil => exact (h.raise_zero _).symm
  | cons g fs ih =>
    obtain ⟨hg, hfs⟩ := List.forall_mem_cons.mp hf
    refine (ih (x.landOne g) hfs).trans ?_
    rw [List.filter_cons]
    split
    · next hgn => rw [h.named x g hgn, h.raises g _ hg, h.raise_raise]; rfl
    · next hgn => rw [h.other x g (Bool.not_eq_true _ ▸ hgn)]

/-- The best result stands, and the raises are joined to it. -/
theorem Lands.landResults {x : Ctx} {f : InFlight} (h : Lands read (fun d => d.same f.dest) act raise) (hb : x.Best f)
    (hs : f.dest.same f.dest = true) :
    read x.landResults = raise (x.raised (fun d => d.same f.dest))
      (read (x.put f.dest f.val (if f.joins = true then x.maskOf f.dest ||| f.mask else f.mask))) := by
  have hput : x.landOne f = x.put f.dest f.val (if f.joins = true then x.maskOf f.dest ||| f.mask else f.mask) := by
    simp only [Ctx.landOne, hb.2.1, Bool.false_eq_true, if_false]
  obtain ⟨y, hy, e⟩ := h.landResults_eq x
  rw [e, h.landAll_raises _ (fun g hg => (Ctx.mem_dueRaises.mp hg).2), Ctx.raised_eq, h.landAll_one hs hb.2.1 y
    (fun g hg hgs => hb.eq_of_wins hg hgs), if_pos hb.mem_wins, hy, ← h.named x f hs, hput]

/-- Where raises alone are due, the value stays. -/
theorem Lands.landResults_raises (h : Lands read names act raise) {x : Ctx}
    (hf : ∀ g ∈ x.flight, g.vis ≤ x.cycle → names g.dest = true → g.maskOnly = true) :
    read x.landResults = raise (x.raised names) (read x) := by
  obtain ⟨y, hy, e⟩ := h.landResults_eq x
  have hw : ∀ g ∈ x.wins, names g.dest = false := by
    intro g hg
    obtain ⟨⟨hd, hm⟩, -⟩ := Ctx.mem_wins.mp hg
    obtain ⟨hx, hv⟩ := Ctx.mem_due.mp hd
    by_contra hne
    rw [hf g hx hv (Bool.not_eq_false _ ▸ hne)] at hm
    cases hm
  rw [e, h.landAll_raises _ (fun g hg => (Ctx.mem_dueRaises.mp hg).2), Ctx.raised_eq, h.landAll _ hw, hy]
end

end Sys2Proof.Machine
end

section
/-! SUPPORT. What each register reads after landings (R166, R346, R347, R349), and the timing of a result (R162, R167). -/

namespace Sys2Proof.Machine

/-! ## Labelled values under landings -/

/-- A mask is joined to a labelled value. -/
def Lab.join {w : Nat} (m : Mask) (l : Lab w) : Lab w := { l with mask := l.mask ||| m }

def PredVal.join (m : Mask) (v : PredVal) : PredVal := { v with mask := v.mask ||| m }

theorem Lab.join_zero {w : Nat} (l : Lab w) : l.join 0 = l := by simp [Lab.join]

theorem Lab.join_join {w : Nat} (l : Lab w) (m n : Mask) : (l.join m).join n = l.join (m ||| n) := by
  simp [Lab.join, BitVec.or_assoc]

theorem PredVal.join_zero (l : PredVal) : l.join 0 = l := by simp [PredVal.join]

theorem PredVal.join_join (l : PredVal) (m n : Mask) : (l.join m).join n = l.join (m ||| n) := by
  simp [PredVal.join, BitVec.or_assoc]

/-- The mask with which a result stands on a register of mask `old`. -/
def InFlight.maskOn (f : InFlight) (old : Mask) : Mask := if f.joins then old ||| f.mask else f.mask

theorem InFlight.maskOn_maskOn (f : InFlight) (old : Mask) : f.maskOn (f.maskOn old) = f.maskOn old := by
  unfold InFlight.maskOn
  split
  · simp [BitVec.or_assoc]
  · rfl

/-- A landing on a register that a result replaces, with the part of its value that the register holds. -/
def InFlight.onto {w : Nat} (v : BitVec w) (f : InFlight) (l : Lab w) : Lab w :=
  if f.maskOnly then l.join f.mask else { val := v, mask := f.maskOn l.mask }

def InFlight.ontoPred (f : InFlight) (l : PredVal) : PredVal :=
  if f.maskOnly then l.join f.mask else { val := f.val.getLsbD 0, mask := f.maskOn l.mask }

/-- A landing on bits of a register. -/
def InFlight.ontoBits {w : Nat} (v : BitVec w) (lo len : Nat) (f : InFlight) (l : Lab w) : Lab w :=
  if f.maskOnly then l.join f.mask
  else { val := insertBits l.val v lo len,
         mask := if lo = 0 ∧ w ≤ len then f.maskOn l.mask else l.mask ||| f.maskOn l.mask }

theorem insertBits_insertBits {w : Nat} (old v : BitVec w) (lo len : Nat) :
    insertBits (insertBits old v lo len) v lo len = insertBits old v lo len := by
  ext i hi
  simp only [insertBits, BitVec.getElem_or, BitVec.getElem_and, BitVec.getElem_not]
  cases (BitVec.ofNat w ((2 ^ len - 1) * 2 ^ lo))[i] <;> simp

/-- Whole bits below the width replaced, and those around them left. -/
theorem insertBits_getLsbD {w : Nat} (old v : BitVec w) {lo len i : Nat} (hi : i < w) :
    (insertBits old v lo len).getLsbD i = if lo ≤ i ∧ i < lo + len then v.getLsbD (i - lo) else old.getLsbD i := by
  have hm : (BitVec.ofNat w ((2 ^ len - 1) * 2 ^ lo)).getLsbD i = decide (lo ≤ i ∧ i < lo + len) := by
    rw [BitVec.getLsbD_ofNat, Nat.testBit_mul_two_pow, Nat.testBit_two_pow_sub_one]
    grind
  simp only [insertBits, BitVec.getLsbD_or, BitVec.getLsbD_and, BitVec.getLsbD_not, BitVec.getLsbD_shiftLeft, hm]
  split
  · next h => simp [h, hi, Nat.not_lt.mpr h.1]
  · next h => rw [decide_eq_false h]; simp [hi]

/-! ## What each register reads after a landing -/

theorem InFlight.onto_again {w : Nat} {v : BitVec w} {f : InFlight} (l : Lab w) (h : f.maskOnly = false) :
    f.onto v (f.onto v l) = f.onto v l := by
  simp [InFlight.onto, h, InFlight.maskOn_maskOn]

theorem InFlight.ontoPred_again {f : InFlight} (l : PredVal) (h : f.maskOnly = false) :
    f.ontoPred (f.ontoPred l) = f.ontoPred l := by
  simp [InFlight.ontoPred, h, InFlight.maskOn_maskOn]

theorem InFlight.ontoBits_again {w : Nat} {v : BitVec w} {lo len : Nat} {f : InFlight} (l : Lab w) (h : f.maskOnly = false) :
    f.ontoBits v lo len (f.ontoBits v lo len l) = f.ontoBits v lo len l := by
  simp only [InFlight.ontoBits, h, Bool.false_eq_true, if_false, insertBits_insertBits]
  split
  · rw [InFlight.maskOn_maskOn]
  · unfold InFlight.maskOn
    split <;> simp [BitVec.or_assoc]

/-- s0 reads zero, and nothing lands on it. -/
theorem sreg_shows (n : Nat) : Shows (fun x => x.sreg n) (fun d => d.same (.sreg n)) where
  other x f h := by
    unfold Ctx.landOne Ctx.put Ctx.raiseMask
    cases hd : f.dest
    all_goals dsimp only
    case vreg g _ _ _ => cases g <;> dsimp only <;> split <;> rfl
    case sreg k =>
      have hk : n ≠ k := fun e => by simp [hd, Dest.same, e] at h
      (repeat' split) <;> simp [Ctx.sreg, hk]
    all_goals (repeat' split) <;> rfl
  rest _ _ _ _ _ := rfl

theorem sreg_lands {n : Nat} (hn : n ≠ 0) :
    Lands (fun x => x.sreg n) (fun d => d.same (.sreg n)) (fun f => f.onto (f.val.setWidth 64)) Lab.join where
  toShows := sreg_shows n
  named x f h := by
    have h := Dest.same_sreg.mp h
    unfold Ctx.landOne InFlight.onto
    rw [h]
    split
    · simp [Ctx.raiseMask, Ctx.sreg, hn, Lab.join]
    · simp [Ctx.put, Ctx.sreg, hn, Ctx.maskOf, InFlight.maskOn]
  again _ _ := InFlight.onto_again _
  raises _ _ h := by simp [InFlight.onto, h]
  raise_zero := Lab.join_zero
  raise_raise := Lab.join_join

theorem mreg_lands (n : Nat) :
    Lands (fun x => x.mreg n) (fun d => d.same (.mreg n)) (fun f => f.onto (f.val.setWidth 64)) Lab.join where
  other x f h := by
    unfold Ctx.landOne Ctx.put Ctx.raiseMask
    cases hd : f.dest
    all_goals dsimp only
    case vreg g _ _ _ => cases g <;> dsimp only <;> split <;> rfl
    case mreg k =>
      have hk : n ≠ k := fun e => by simp [hd, Dest.same, e] at h
      (repeat' split) <;> simp [Ctx.mreg, hk]
    all_goals (repeat' split) <;> rfl
  rest _ _ _ _ _ := rfl
  named x f h := by
    have h := Dest.same_mreg.mp h
    unfold Ctx.landOne InFlight.onto
    rw [h]
    split
    · simp [Ctx.raiseMask, Ctx.mreg, Lab.join]
    · simp [Ctx.put, Ctx.mreg, Ctx.maskOf, InFlight.maskOn]
  again _ _ := InFlight.onto_again _
  raises _ _ h := by simp [InFlight.onto, h]
  raise_zero := Lab.join_zero
  raise_raise := Lab.join_join

/-- The bits that a destination names of a vector register or a lane mask: the first and how many. -/
def Dest.bits : Dest → Nat × Nat
  | .vreg _ _ lo len => (lo, len)
  | .kmask _ len => (0, len)
  | _ => (0, 0)

theorem vreg_lands (g : VFile) (n : Nat) (lo len : Nat) :
    Lands (fun x => x.vreg g n) (fun d => d.same (.vreg g n lo len))
      (fun f => f.ontoBits f.val f.dest.bits.1 f.dest.bits.2) Lab.join where
  other x f h := by
    unfold Ctx.landOne Ctx.put Ctx.raiseMask
    cases hd : f.dest
    all_goals dsimp only
    case vreg g' k lo' len' =>
      have hk : g = g' → n ≠ k := fun e e' => by simp [hd, Dest.same, e, e'] at h
      cases g <;> cases g' <;> dsimp only <;> split <;> simp_all [Ctx.vreg]
    all_goals (repeat' split) <;> rfl
  rest _ _ _ _ _ := rfl
  named x f h := by
    obtain ⟨lo', len', h⟩ := Dest.same_vreg.mp h
    unfold Ctx.landOne InFlight.ontoBits
    rw [h]
    split
    · cases g <;> simp [Ctx.raiseMask, Ctx.vreg, Lab.join]
    · cases g <;> simp [Ctx.put, Ctx.vreg, Ctx.maskOf, InFlight.maskOn, Dest.bits] <;> rfl
  again _ _ := InFlight.ontoBits_again _
  raises _ _ h := by simp [InFlight.ontoBits, h]
  raise_zero := Lab.join_zero
  raise_raise := Lab.join_join

theorem kreg_lands (n len : Nat) :
    Lands (fun x => x.kreg n) (fun d => d.same (.kmask n len))
      (fun f => f.ontoBits (f.val.setWidth 128) f.dest.bits.1 f.dest.bits.2) Lab.join where
  other x f h := by
    unfold Ctx.landOne Ctx.put Ctx.raiseMask
    cases hd : f.dest
    all_goals dsimp only
    case vreg g _ _ _ => cases g <;> dsimp only <;> split <;> rfl
    case kmask k len' =>
      have hk : n ≠ k := fun e => by simp [hd, Dest.same, e] at h
      (repeat' split) <;> simp [Ctx.kreg, hk]
    all_goals (repeat' split) <;> rfl
  rest _ _ _ _ _ := rfl
  named x f h := by
    obtain ⟨len', h⟩ := Dest.same_kmask.mp h
    unfold Ctx.landOne InFlight.ontoBits
    rw [h]
    split <;> simp [Ctx.raiseMask, Ctx.kreg, Lab.join, Ctx.put, Ctx.maskOf, InFlight.maskOn, Dest.bits]
  again _ _ := InFlight.ontoBits_again _
  raises _ _ h := by simp [InFlight.ontoBits, h]
  raise_zero := Lab.join_zero
  raise_raise := Lab.join_join

/-- p0 reads true, and nothing lands on it. -/
theorem pred_shows (n : Nat) : Shows (fun x => x.pred n) (fun d => d.same (.pred n)) where
  other x f h := by
    unfold Ctx.landOne Ctx.put Ctx.raiseMask
    cases hd : f.dest
    all_goals dsimp only
    case vreg g _ _ _ => cases g <;> dsimp only <;> split <;> rfl
    case pred k =>
      have hk : n ≠ k := fun e => by simp [hd, Dest.same, e] at h
      (repeat' split) <;> simp [Ctx.pred, hk]
    all_goals (repeat' split) <;> rfl
  rest _ _ _ _ _ := rfl

theorem pred_lands {n : Nat} (hn : n ≠ 0) :
    Lands (fun x => x.pred n) (fun d => d.same (.pred n)) InFlight.ontoPred PredVal.join where
  toShows := pred_shows n
  named x f h := by
    have h := Dest.same_pred.mp h
    unfold Ctx.landOne InFlight.ontoPred
    rw [h]
    split
    · simp [Ctx.raiseMask, Ctx.pred, hn, PredVal.join]
    · simp [Ctx.put, Ctx.pred, hn, Ctx.maskOf, InFlight.maskOn]
  again _ _ := InFlight.ontoPred_again _
  raises _ _ h := by simp [InFlight.ontoPred, h]
  raise_zero := PredVal.join_zero
  raise_raise := PredVal.join_join

/-- The lanes of a direction register, apart from the mask that they share with its norm. -/
theorem dlanes_lands (n : Nat) :
    Lands (fun x => (x.dreg n).val) (fun d => d.same (.dlanes n)) (fun f a => if f.maskOnly then a else f.val) (fun _ a => a) where
  other x f h := by
    unfold Ctx.landOne Ctx.put Ctx.raiseMask
    cases hd : f.dest
    all_goals dsimp only
    case vreg g _ _ _ => cases g <;> dsimp only <;> split <;> rfl
    case dlanes k =>
      have hk : n ≠ k := fun e => by simp [hd, Dest.same, e] at h
      (repeat' split) <;> simp [Ctx.dreg, hk]
    case dnorm k =>
      (repeat' split) <;> simp only [Ctx.dreg, tget_tput] <;> grind
    all_goals (repeat' split) <;> rfl
  rest _ _ _ _ _ := rfl
  named x f h := by
    have h := Dest.same_dlanes.mp h
    unfold Ctx.landOne
    rw [h]
    split <;> simp [Ctx.raiseMask, Ctx.dreg, Ctx.put]
  again _ _ h := by simp [h]
  raises _ _ h := by simp [h]
  raise_zero _ := rfl
  raise_raise _ _ _ := rfl

/-- The norm of a direction register, apart from its mask. -/
theorem dnorm_lands (n : Nat) :
    Lands (fun x => (x.nreg n).val) (fun d => d.same (.dnorm n)) (fun f a => if f.maskOnly then a else f.val.setWidth 16)
      (fun _ a => a) where
  other x f h := by
    unfold Ctx.landOne Ctx.put Ctx.raiseMask
    cases hd : f.dest
    all_goals dsimp only
    case vreg g _ _ _ => cases g <;> dsimp only <;> split <;> rfl
    case dnorm k =>
      have hk : n ≠ k := fun e => by simp [hd, Dest.same, e] at h
      (repeat' split) <;> simp [Ctx.nreg, hk]
    all_goals (repeat' split) <;> rfl
  rest _ _ _ _ _ := rfl
  named x f h := by
    have h := Dest.same_dnorm.mp h
    unfold Ctx.landOne
    rw [h]
    split <;> simp [Ctx.raiseMask, Ctx.nreg, Ctx.put]
  again _ _ h := by simp [h]
  raises _ _ h := by simp [h]
  raise_zero _ := rfl
  raise_raise _ _ _ := rfl

/-- A direction register's lanes with their mask: results on its norm touch the mask too. -/
theorem dreg_shows (n : Nat) : Shows (fun x => x.dreg n) (fun d => d.same (.dlanes n) || d.same (.dnorm n)) where
  other x f h := by
    unfold Ctx.landOne Ctx.put Ctx.raiseMask
    cases hd : f.dest
    all_goals dsimp only
    case vreg g _ _ _ => cases g <;> dsimp only <;> split <;> rfl
    case dlanes k | dnorm k =>
      have hk : n ≠ k := fun e => by simp [hd, Dest.same, e] at h
      (repeat' split) <;> simp [Ctx.dreg, hk]
    all_goals (repeat' split) <;> rfl
  rest _ _ _ _ _ := rfl


/-! ## The rules together -/

theorem Ctx.kreg_put_kmask (x : Ctx) (n w : Nat) (v : BitVec 1024) (m : Mask) : (x.put (.kmask n w) v m).kreg n =
    { val := insertBits (x.kreg n).val (v.setWidth 128) 0 w, mask := if 128 ≤ w then m else (x.kreg n).mask ||| m } := by
  simp only [Ctx.put, Ctx.kreg, tget_tput, if_true]

theorem Ctx.vreg_put_vreg (x : Ctx) (g : VFile) (n lo w : Nat) (v : BitVec 1024) (m : Mask) : (x.put (.vreg g n lo w) v m).vreg g n =
    { val := insertBits (x.vreg g n).val v lo w, mask := if lo = 0 ∧ 1024 ≤ w then m else (x.vreg g n).mask ||| m } := by
  cases g <;> simp [Ctx.put, Ctx.vreg]

theorem Ctx.landOne_flight (x : Ctx) (f : InFlight) : (x.landOne f).flight = x.flight := by
  unfold Ctx.landOne Ctx.put Ctx.raiseMask
  cases f.dest
  all_goals dsimp only
  case vreg g _ _ _ => cases g <;> dsimp only <;> split <;> rfl
  all_goals (repeat' split) <;> rfl

theorem Ctx.landAll_flight (x : Ctx) (fs : List InFlight) : (x.landAll fs).flight = x.flight := by
  induction fs generalizing x with
  | nil => rfl
  | cons f fs ih => exact (ih (x.landOne f)).trans (x.landOne_flight f)

/-- What no due result names keeps its value and mask, register by register. -/
theorem Ctx.landResults_unnamed (x : Ctx) :
    x.landResults.flight = x.flight.filter (fun f => decide (x.cycle < f.vis)) ∧
    (∀ n, (∀ f ∈ x.flight, f.vis ≤ x.cycle → f.dest ≠ .sreg n) → x.landResults.sreg n = x.sreg n) ∧
    (∀ n, (∀ f ∈ x.flight, f.vis ≤ x.cycle → f.dest ≠ .mreg n) → x.landResults.mreg n = x.mreg n) ∧
    (∀ g n, (∀ f ∈ x.flight, f.vis ≤ x.cycle → ∀ lo len, f.dest ≠ .vreg g n lo len) → x.landResults.vreg g n = x.vreg g n) ∧
    (∀ n, (∀ f ∈ x.flight, f.vis ≤ x.cycle → f.dest ≠ .dlanes n) →
      (x.landResults.dreg n).val = (x.dreg n).val ∧
      ((∀ f ∈ x.flight, f.vis ≤ x.cycle → f.dest ≠ .dnorm n) → x.landResults.dreg n = x.dreg n)) ∧
    (∀ n, (∀ f ∈ x.flight, f.vis ≤ x.cycle → f.dest ≠ .dnorm n) → (x.landResults.nreg n).val = (x.nreg n).val) ∧
    (∀ n, (∀ f ∈ x.flight, f.vis ≤ x.cycle → f.dest ≠ .pred n) → x.landResults.pred n = x.pred n) ∧
    (∀ n, (∀ f ∈ x.flight, f.vis ≤ x.cycle → ∀ len, f.dest ≠ .kmask n len) → x.landResults.kreg n = x.kreg n) := by
  refine ⟨?_, fun n h => ?_, fun n h => ?_, fun g n h => ?_, fun n h => ⟨?_, fun h' => ?_⟩, fun n h => ?_, fun n h => ?_,
    fun n h => ?_⟩
  · exact Ctx.landAll_flight _ _
  · exact (sreg_shows n).landResults x fun f hf hv => Bool.eq_false_iff.mpr fun e => h f hf hv (Dest.same_sreg.mp e)
  · exact (mreg_lands n).toShows.landResults x fun f hf hv => Bool.eq_false_iff.mpr fun e => h f hf hv (Dest.same_mreg.mp e)
  · refine (vreg_lands g n 0 0).toShows.landResults x fun f hf hv => Bool.eq_false_iff.mpr fun e => ?_
    obtain ⟨lo, len, e⟩ := Dest.same_vreg.mp e
    exact h f hf hv lo len e
  · exact (dlanes_lands n).toShows.landResults x fun f hf hv => Bool.eq_false_iff.mpr fun e => h f hf hv (Dest.same_dlanes.mp e)
  · refine (dreg_shows n).landResults x fun f hf hv => Bool.eq_false_iff.mpr fun e => ?_
    rcases Bool.or_eq_true_iff.mp e with e | e
    · exact h f hf hv (Dest.same_dlanes.mp e)
    · exact h' f hf hv (Dest.same_dnorm.mp e)
  · exact (dnorm_lands n).toShows.landResults x fun f hf hv => Bool.eq_false_iff.mpr fun e => h f hf hv (Dest.same_dnorm.mp e)
  · exact (pred_shows n).landResults x fun f hf hv => Bool.eq_false_iff.mpr fun e => h f hf hv (Dest.same_pred.mp e)
  · refine (kreg_lands n 0).toShows.landResults x fun f hf hv => Bool.eq_false_iff.mpr fun e => ?_
    obtain ⟨len, e⟩ := Dest.same_kmask.mp e
    exact h f hf hv len e

/-- The best due result of a register stands in it as `put` writes it, with the raises joined. -/
theorem Ctx.Best.landResults {x : Ctx} {f : InFlight} (hb : x.Best f) :
    let raised := x.raised (fun d => d.same f.dest)
    let y := x.put f.dest f.val (if f.joins = true then x.maskOf f.dest ||| f.mask else f.mask)
    (∀ n, f.dest = .sreg n → n ≠ 0 → x.landResults.sreg n = (y.sreg n).join raised) ∧
    (∀ n, f.dest = .mreg n → x.landResults.mreg n = (y.mreg n).join raised) ∧
    (∀ g n lo len, f.dest = .vreg g n lo len → x.landResults.vreg g n = (y.vreg g n).join raised) ∧
    (∀ n, f.dest = .dlanes n → (x.landResults.dreg n).val = f.val) ∧
    (∀ n, f.dest = .dnorm n → (x.landResults.nreg n).val = f.val.setWidth 16) ∧
    (∀ n, f.dest = .pred n → n ≠ 0 → x.landResults.pred n = (y.pred n).join raised) ∧
    (∀ n len, f.dest = .kmask n len → x.landResults.kreg n = (y.kreg n).join raised) := by
  have hs : f.dest ≠ .nowhere → f.dest.same f.dest = true := by cases f.dest <;> simp [Dest.same]
  refine ⟨fun n hd hn => ?_, fun n hd => ?_, fun g n lo len hd => ?_, fun n hd => ?_, fun n hd => ?_, fun n hd hn => ?_,
    fun n len hd => ?_⟩
  · exact Lands.landResults (hd ▸ sreg_lands hn) hb (hs (by simp [hd]))
  · exact Lands.landResults (hd ▸ mreg_lands n) hb (hs (by simp [hd]))
  · exact Lands.landResults (hd ▸ vreg_lands g n lo len) hb (hs (by simp [hd]))
  · refine (Lands.landResults (hd ▸ dlanes_lands n) hb (hs (by simp [hd]))).trans ?_
    simp [hd, Ctx.put, Ctx.dreg]
  · refine (Lands.landResults (hd ▸ dnorm_lands n) hb (hs (by simp [hd]))).trans ?_
    simp [hd, Ctx.put, Ctx.nreg]
  · exact Lands.landResults (hd ▸ pred_lands hn) hb (hs (by simp [hd]))
  · exact Lands.landResults (hd ▸ kreg_lands n len) hb (hs (by simp [hd]))

/-- Settles O26: what no due result names stays, the best one stands with the raises joined, and each write is read back as `put`
writes it. -/
theorem landingRules : Obligations.LandingRules := by
  unfold Obligations.LandingRules
  refine ⟨Ctx.landResults_unnamed, ?_, ?_, ?_, ?_, ?_⟩
  · rintro x f due better best raised y ⟨⟨hf, hv⟩, hm, ho⟩
    have hb : x.Best f := ⟨Ctx.mem_due.mpr ⟨hf, hv⟩, hm, fun g hg hgm hs =>
      (ho g (Ctx.mem_due.mp hg) hgm hs).imp_right InFlight.beats_iff.mpr⟩
    exact hb.landResults
  · intro x n hn h
    exact (sreg_lands hn).landResults_raises fun g hg hv hs => h g hg hv (Dest.same_sreg.mp hs)
  · intro x n v m
    exact ⟨rfl, by simp [Ctx.put, Ctx.mreg], by simp [Ctx.put, Ctx.dreg], by simp [Ctx.put, Ctx.nreg, Ctx.dreg],
      by simp [Ctx.put, Ctx.dreg], fun hn => by simp [Ctx.put, Ctx.pred, hn]⟩
  · intro x n w v m hw old new
    simp only [new, Ctx.kreg_put_kmask]
    refine ⟨fun i hi => ?_, if_congr (by omega) rfl rfl⟩
    rw [insertBits_getLsbD _ _ hi]
    simp [hi, old]
  · intro x g n lo w v m hw old new
    simp only [new, Ctx.vreg_put_vreg]
    exact ⟨fun i hi => insertBits_getLsbD _ _ hi, if_congr (by omega) rfl rfl⟩


/-! ## The timing of a result (R162, R167) -/

/-- The context after a result of latency L has been delivered to an s register, at another cycle of its count. -/
def State.delivered (s : State) (L n : Nat) (v : Word) (m : Mask) (c : Nat) : Ctx :=
  { (s.own L false (.sreg n) (v.setWidth 1024) m).me with cycle := c }

/-- The result in flight. -/
def State.resultOf (s : State) (L n : Nat) (v : Word) (m : Mask) : InFlight :=
  { vis := s.me.cycle + L + 1, dest := .sreg n, val := v.setWidth 1024, mask := m, slot := s.cur.slot, own := true,
    issued := s.me.cycle, maskOnly := false }

theorem State.delivered_flight (s : State) (L n : Nat) (v : Word) (m : Mask) (c : Nat) :
    (s.delivered L n v m c).flight = s.me.flight ++ [s.resultOf L n v m] := by
  rw [State.delivered, State.own_me]
  rfl

theorem State.delivered_sreg (s : State) (L n : Nat) (v : Word) (m : Mask) (c k : Nat) :
    (s.delivered L n v m c).sreg k = s.me.sreg k := by
  rw [State.delivered, State.own_me]
  rfl

theorem State.delivered_lostAt (s : State) (L n : Nat) (v : Word) (m : Mask) (c : Nat) :
    (s.delivered L n v m c).lostAt = s.me.lostAt := by
  rw [State.delivered, State.own_me]

theorem State.delivered_latches (s : State) (L n : Nat) (v : Word) (m : Mask) (c : Nat) :
    (s.delivered L n v m c).latches =
      s.me.latches ++ [{ slot := s.cur.slot, b0 := s.me.cycle + L, issued := s.me.cycle, val := v.setWidth 1024, mask := m }] := by
  rw [State.delivered, State.own_me]

/-- Latch bj reads a result of latency L in the cycle t + L + j. -/
theorem State.delivered_latch {s : State} {L n : Nat} {v : Word} {m : Mask} (j : Nat) (hlost : s.me.lostAt = none)
    (hother : ∀ l ∈ s.me.latches, l.slot = s.cur.slot → l.b0 ≠ s.me.cycle + L) :
    (s.delivered L n v m (s.me.cycle + L + j)).latch s.cur.slot j = { val := v.setWidth 1024, mask := m } := by
  have hnone : s.me.latches.filter (fun l => l.slot == s.cur.slot && l.b0 + j == s.me.cycle + L + j) = [] := by
    refine List.filter_eq_nil_iff.mpr fun l hl => ?_
    have := hother l hl
    simp only [Bool.and_eq_true, beq_iff_eq]
    omega
  have hcycle : (s.delivered L n v m (s.me.cycle + L + j)).cycle = s.me.cycle + L + j := rfl
  simp only [Ctx.latch, Ctx.latchLost, State.delivered_lostAt, hlost, State.delivered_latches, List.filter_append, hcycle, hnone]
  simp [latestLatch]

/-- Settles O25: up to cycle t + L nothing is due on the register, and in the next cycle the delivered result is the one due on it. -/
theorem resultTiming : Obligations.ResultTiming := by
  unfold Obligations.ResultTiming
  intro s L n v m hn y at_
  refine ⟨fun j _ hlost hother => s.delivered_latch j hlost hother, fun hfree => ⟨fun c hc => ?_, ?_⟩⟩
  · refine ((s.delivered L n v m c).landResults_unnamed.2.1 n fun f hf hv => ?_).trans (s.delivered_sreg L n v m c n)
    rw [State.delivered_flight] at hf
    rcases List.mem_append.mp hf with hf | hf
    · exact hfree f hf
    · obtain rfl := List.mem_singleton.mp hf
      have : s.me.cycle + L + 1 ≤ c := hv
      omega
  · have hb : (s.delivered L n v m (s.me.cycle + L + 1)).Best (s.resultOf L n v m) := by
      refine ⟨Ctx.mem_due.mpr ⟨by simp [State.delivered_flight], Nat.le_refl _⟩, rfl, fun g hg _ hs => .inl ?_⟩
      have hg := (Ctx.mem_due.mp hg).1
      rw [State.delivered_flight] at hg
      rcases List.mem_append.mp hg with hg | hg
      · exact absurd (Dest.same_sreg.mp hs) (hfree g hg)
      · exact List.mem_singleton.mp hg
    have hr : (s.delivered L n v m (s.me.cycle + L + 1)).raised (fun d => d.same (.sreg n)) = 0 := by
      rw [Ctx.raised, List.filter_eq_nil_iff.mpr]
      · rfl
      intro g hg
      rw [State.delivered_flight] at hg
      rcases List.mem_append.mp hg with hg | hg
      · simp [Dest.same_sreg, hfree g hg]
      · simp [List.mem_singleton.mp hg, State.resultOf]
    refine (hb.landResults.1 n rfl hn).trans ?_
    rw [show (s.resultOf L n v m).dest = .sreg n from rfl, hr, Lab.join_zero]
    simp [Ctx.put, Ctx.sreg, hn, State.resultOf]

end Sys2Proof.Machine
end

section
/-! SUPPORT. Events of a context (R162, R173, R416 to R418, R426, R427, R429): landing, delivery of a trap that waits, pre-emption and
resume, retirement, and answers on completion objects. -/

namespace Sys2Proof.Machine

/-! ## An update of one context leaves the rest of the module alone -/

section
variable (s : State) (c x : Nat) (f : Ctx → Ctx)

theorem State.modCtx_core (d : Nat) : (s.modCtx c x f).core d = if d = c then (s.core c).modCtx x f else s.core d :=
  State.modCore_core ..

/-- Nothing of a core but its contexts changes. -/
theorem State.modCtx_core_read {α : Type} {g : Core → α} (hg : ∀ k : Core, g (k.modCtx x f) = g k) (d : Nat) :
    g ((s.modCtx c x f).core d) = g (s.core d) := by
  rw [State.modCtx_core]
  split
  · next h => rw [hg, h]
  · rfl

@[simp] theorem State.modCtx_peek (pa : Nat) : (s.modCtx c x f).peek pa = s.peek pa :=
  State.peek_congr (s.modCtx_core_read c x f (g := Core.slice) fun _ => rfl) rfl rfl rfl rfl pa

theorem State.modCore_peek {g : Core → Core} (hg : ∀ k, (g k).slice = k.slice) (pa : Nat) : (s.modCore c g).peek pa = s.peek pa := by
  have h (d : Nat) : ((s.modCore c g).core d).slice = (s.core d).slice := by
    rw [State.modCore_core]
    split
    · next h => rw [hg, h]
    · rfl
  exact State.peek_congr h rfl rfl rfl rfl pa

theorem State.modCore_ctx {g : Core → Core} (hg : ∀ k, (g k).ctxs = k.ctxs) (d y : Nat) :
    (s.modCore c g).ctx d y = s.ctx d y := by
  unfold State.ctx Core.ctx
  rw [State.modCore_core]
  split
  · next h => rw [hg, h]
  · rfl

@[simp] theorem State.modCtx_launchOf (d : Nat) : (s.modCtx c x f).launchOf d = s.launchOf d := by
  unfold State.launchOf
  rw [s.modCtx_core_read c x f (g := Core.owner) fun _ => rfl]
  rfl

@[simp] theorem State.modCtx_det (d : Nat) : (s.modCtx c x f).det d = s.det d := by
  simp only [State.det, State.modCtx_launchOf]

@[simp] theorem State.modCtx_awaits (d y : Nat) : (s.modCtx c x f).awaits d y = s.awaits d y := by
  unfold State.awaits
  rw [s.modCtx_core_read c x f (g := Core.scan) fun _ => rfl]
  rfl

@[simp] theorem State.logFault_ctx (p : Nat) (k : Cause) (term : Bool) (a : Word) (d y : Nat) (d' y' : Nat) :
    (s.logFault p k term a d y).ctx d' y' = s.ctx d' y' := rfl

@[simp] theorem State.logFault_peek (p : Nat) (k : Cause) (term : Bool) (a : Word) (d y : Nat) (pa : Nat) :
    (s.logFault p k term a d y).peek pa = s.peek pa := rfl

/-! ## Delivery of a trap that waits (R417, R476) -/

/-- PEND of `plane.fault` is no part of a context. -/
theorem State.clearPend_ctx_peek (b : Prop) [Decidable b] (core : Nat) :
    let t := if b then s.modCore core (fun k => { k with planeFault := { k.planeFault with pend := false } }) else s
    (∀ d y, t.ctx d y = s.ctx d y) ∧ ∀ pa, t.peek pa = s.peek pa := by
  split
  · exact ⟨State.modCore_ctx s core fun _ => rfl, State.modCore_peek s core fun _ => rfl⟩
  · exact ⟨fun _ _ => rfl, fun _ => rfl⟩

variable {s : State} {core ctx : Nat}

/-- After the handler is entered, the delivery touches no context and no byte. -/
theorem State.deliver_enters {g : TrapFound} {at_ : Nat} (hg : (s.ctx core ctx).found = some g) (hw : s.awaits core ctx = false)
    (hh : s.handlerAt core (s.ctx core ctx) = some at_) :
    (∀ d y, (s.deliver core ctx).ctx d y = (s.enterHandler core ctx g at_).ctx d y) ∧ ∀ pa, (s.deliver core ctx).peek pa = s.peek pa := by
  have hp (pa : Nat) : (s.enterHandler core ctx g at_).peek pa = s.peek pa := s.modCtx_peek ..
  unfold State.deliver
  simp only [hg, hw, hh, Bool.false_eq_true, if_false, ← hp]
  split <;> exact State.clearPend_ctx_peek ..

/-- An asynchronous trap without a handler ends the launch. -/
theorem State.takeAsync_headless {t : AsyncTrap} {ts : List AsyncTrap} (hh : s.headless core ctx = true)
    (hq : (s.ctx core ctx).asyncQ = t :: ts) :
    s.takeAsync core ctx = (s.modCtx core ctx (fun x => { x with asyncQ := ts })).terminal core ctx t.cause t.addr := by
  simp only [State.headless, hq, Bool.and_eq_true] at hh
  obtain ⟨⟨⟨hm, -⟩, -⟩, hn⟩ := hh
  have hx : (s.modCtx core ctx (fun x => { x with asyncQ := ts })).ctx core ctx = { s.ctx core ctx with asyncQ := ts } := by simp
  simp only [State.takeAsync, hq, hm, Bool.not_true, Bool.false_eq_true, if_false, State.takeTrap, State.trapFrom, hx, State.modCtx_det]
  exact if_neg (Bool.eq_false_iff.mp (Bool.not_eq_true' _ ▸ hn))

/-! ## Pre-emption (R429) -/

/-- A context that is asked for, frozen at its boundary once what is due has landed. -/
def Ctx.frozen (x : Ctx) : Ctx := { x with st := .frozenPre, block := 12, bankPre := none, yielded := false }

/-- A frozen context whose snapshot is banked. -/
def Ctx.banked (x : Ctx) : Ctx :=
  { x.emptied with
      st := .preempted, block := 0, bankPre := some (x.snapshot ((x.bankPre.map (·.landed)).getD [])), ports := dropAhead x.ports,
      rndHeld := 0 }

theorem State.freeze_eq (hst : (s.ctx core ctx).st = .running) (hr : (s.ctx core ctx).preReasons ≠ []) :
    s.freeze core ctx = (s.modCtx core ctx (fun x => x.land.frozen)).modCore core
      (fun k => { k with slotSpent := k.slotSpent || (k.holder == some ctx && !k.halted) }) := by
  unfold State.freeze
  exact if_pos (by simp [hst, hr])

theorem State.bankPreempted_eq (hst : (s.ctx core ctx).st = .frozenPre) (hw : s.awaits core ctx = false)
    (hp : (s.ctx core ctx).pushesDone = true) : s.bankPreempted core ctx = s.modCtx core ctx Ctx.banked := by
  unfold State.bankPreempted
  exact if_pos (by simp [hst, hw, hp])

theorem State.awaits_congr {t : State} (hr : t.reads = s.reads) (ha : t.atoms = s.atoms)
    (hs : (t.core core).scan = (s.core core).scan) : t.awaits core ctx = s.awaits core ctx := by
  unfold State.awaits
  rw [hr, ha, hs]

/-- A context that is asked for and awaits nothing is frozen and banked. -/
theorem State.preempt_eq (hst : (s.ctx core ctx).st = .running) (hr : (s.ctx core ctx).preReasons ≠ [])
    (hw : s.awaits core ctx = false) (hp : (s.ctx core ctx).land.pushesDone = true) :
    ((s.freeze core ctx).ctx core ctx = (s.ctx core ctx).land.frozen) ∧
    s.preempt core ctx = (s.freeze core ctx).modCtx core ctx Ctx.banked := by
  have hx : (s.freeze core ctx).ctx core ctx = (s.ctx core ctx).land.frozen := by
    rw [State.freeze_eq hst hr]
    exact (State.modCore_ctx _ _ (by intro; rfl) _ _).trans (by simp)
  refine ⟨hx, State.bankPreempted_eq (by rw [hx]; rfl) ?_ (by rw [hx]; exact hp)⟩
  rw [← hw, State.freeze_eq hst hr]
  refine State.awaits_congr rfl rfl ?_
  rw [State.modCore_core, if_pos rfl]
  exact s.modCtx_core_read core ctx _ (g := Core.scan) (fun _ => rfl) core

theorem State.preempt_ctx (hst : (s.ctx core ctx).st = .running) (hr : (s.ctx core ctx).preReasons ≠ [])
    (hw : s.awaits core ctx = false) (hp : (s.ctx core ctx).land.pushesDone = true) :
    (s.preempt core ctx).ctx core ctx = (s.ctx core ctx).land.frozen.banked := by
  obtain ⟨hx, e⟩ := State.preempt_eq hst hr hw hp
  rw [e, State.modCtx_ctx, if_pos ⟨rfl, rfl⟩, hx]

theorem State.preempt_peek (hst : (s.ctx core ctx).st = .running) (hr : (s.ctx core ctx).preReasons ≠ [])
    (hw : s.awaits core ctx = false) (hp : (s.ctx core ctx).land.pushesDone = true) (pa : Nat) :
    (s.preempt core ctx).peek pa = s.peek pa := by
  rw [(State.preempt_eq hst hr hw hp).2, State.modCtx_peek, State.freeze_eq hst hr]
  exact (State.modCore_peek _ _ (by intro; rfl) pa).trans (s.modCtx_peek ..)

/-- The issue slot's coming cycle is spent where the context held it. -/
theorem State.preempt_slotSpent (hst : (s.ctx core ctx).st = .running) (hr : (s.ctx core ctx).preReasons ≠ [])
    (hw : s.awaits core ctx = false) (hp : (s.ctx core ctx).land.pushesDone = true) :
    ((s.preempt core ctx).core core).slotSpent = true ↔
      (s.core core).slotSpent = true ∨ ((s.core core).holder = some ctx ∧ (s.core core).halted = false) := by
  have h : ((s.preempt core ctx).core core).slotSpent =
      ((s.core core).slotSpent || ((s.core core).holder == some ctx && !(s.core core).halted)) := by
    rw [(State.preempt_eq hst hr hw hp).2, State.modCtx_core_read _ _ _ _ (g := Core.slotSpent) (fun _ => rfl), State.freeze_eq hst hr,
      State.modCore_core, if_pos rfl, State.modCtx_core, if_pos rfl]
    rfl
  simp [h]

/-! ## Resume (R419, R429) -/

theorem State.resume_held (hr : (s.ctx core ctx).preReasons ≠ []) : s.resume core ctx = s := by
  unfold State.resume
  exact if_pos (by simp [hr])

theorem State.resume_preempted {b : Snapshot} (hr : (s.ctx core ctx).preReasons = []) (hst : (s.ctx core ctx).st = .preempted)
    (hb : (s.ctx core ctx).bankPre = some b) : s.resume core ctx =
      s.modCtx core ctx (fun x => { x.restore b x.cycle with st := .running, bankPre := none, keepLatch := true }) := by
  unfold State.resume
  simp [hr, hst, hb]

theorem State.resume_frozen (hr : (s.ctx core ctx).preReasons = []) (hst : (s.ctx core ctx).st = .frozenPre) : s.resume core ctx =
    s.modCtx core ctx (fun x => { x with
      st := .running, block := 0, bankPre := none, keepLatch := true,
      flight := x.flight ++ ((x.bankPre.map (·.landed)).getD []).map (fun f => { f with vis := x.cycle }) }) := by
  unfold State.resume
  simp [hr, hst]

/-- Every held item of a snapshot is in flight again. -/
theorem Ctx.restore_flight {x : Ctx} {b : Snapshot} {base : Nat} :
    (∀ f ∈ b.flight, { f with vis := f.vis + (base - b.cycle), issued := f.issued + (base - b.cycle) } ∈ (x.restore b base).flight) ∧
    ∀ f ∈ b.landed, { f with vis := base } ∈ (x.restore b base).flight := by
  simp only [Ctx.restore, List.mem_append, List.mem_map]
  exact ⟨fun f hf => .inr (.inl ⟨f, hf, rfl⟩), fun f hf => .inr (.inr ⟨f, hf, rfl⟩)⟩

end

/-! ## Answers on completion objects (R426) -/

/-- The answer reaches the four contexts of a core. -/
theorem Core.foldl_modCtx_four (g : Ctx → Ctx) (k : Core) (y : Nat) :
    (four.foldl (fun k x => k.modCtx x g) k).ctx y = if y < 4 then g (k.ctx y) else k.ctx y := by
  have h4 : y = 0 ∨ y = 1 ∨ y = 2 ∨ y = 3 ∨ 4 ≤ y := by omega
  simp only [four, List.foldl, Core.modCtx_ctx]
  rcases h4 with rfl | rfl | rfl | rfl | h
  · simp
  · simp
  · simp
  · simp
  · simp [show y ≠ 0 by omega, show y ≠ 1 by omega, show y ≠ 2 by omega, show y ≠ 3 by omega, show ¬ y < 4 by omega]

theorem State.modCore_four_ctx (s : State) (core : Nat) (g : Ctx → Ctx) (c y : Nat) :
    (s.modCore core (fun k => four.foldl (fun k x => k.modCtx x g) k)).ctx c y =
      if c = core ∧ y < 4 then g (s.ctx core y) else s.ctx c y := by
  unfold State.ctx
  rw [State.modCore_core]
  by_cases hc : c = core
  · simp [hc, Core.foldl_modCtx_four]
  · simp [hc]

theorem Core.foldl_modCtx_slice (g : Ctx → Ctx) (xs : List Nat) (k : Core) :
    (xs.foldl (fun k x => k.modCtx x g) k).slice = k.slice :=
  List.foldlRecOn (motive := fun t : Core => t.slice = k.slice) xs _ rfl fun _ ht _ _ => ht

/-! ## The events together -/

/-- Settles O48, event by event: each is enabled as the statement says, and what it leaves is said by the lemmas above. -/
theorem contextEvents : Obligations.ContextEvents := by
  unfold Obligations.ContextEvents
  refine ⟨?_, ?_, ?_, ?_, ?_, ?_, ?_, ?_, ?_⟩
  · intro core ctx s runs
    have hc : s.counts core ctx = true ↔ runs := by
      simp [State.counts, runs]
    exact ⟨fun h => ⟨congrArg _ (if_pos (hc.mpr h)), congrArg _ (if_pos (hc.mpr h))⟩,
      fun h => ⟨congrArg _ (if_neg (hc.not.mpr h)), congrArg _ (if_neg (hc.not.mpr h))⟩⟩
  · intro core ctx s
    refine ⟨fun h => congrArg _ (if_neg h), fun f hst hf => ?_⟩
    have hd : exec (.trapDelivery core ctx) s = .next (s.deliver core ctx) := congrArg Host.Outcome.next (if_pos hst)
    refine ⟨fun hw => hd.trans ?_, fun at_ hw hh => ⟨_, hd, ?_⟩⟩
    · simp [State.deliver, hf, hw]
    · obtain ⟨hx, hp⟩ := State.deliver_enters hf hw hh
      have hy : (s.deliver core ctx).ctx core ctx = (s.enterHandler core ctx f at_).ctx core ctx := hx ..
      rw [State.enterHandler, State.modCtx_ctx, if_pos ⟨rfl, rfl⟩] at hy
      rw [hy]
      exact ⟨rfl, rfl, rfl, rfl, rfl, rfl, rfl, rfl, rfl, hp⟩
  · intro core ctx s
    exact ⟨fun h => congrArg _ (if_neg (by simp [h])),
      fun tr ts h hq => congrArg _ ((if_pos h).trans (State.takeAsync_headless h hq))⟩
  · intro core ctx s hst hr x hw hp
    have hy : (s.preempt core ctx).ctx core ctx = x.frozen.banked := State.preempt_ctx hst hr hw hp
    have hpeek := State.preempt_peek hst hr hw hp
    have hspent := State.preempt_slotSpent hst hr hw hp
    refine ⟨_, rfl, ?_⟩
    rw [hy]
    clear_value x
    refine ⟨rfl, rfl, rfl, rfl, rfl, rfl, rfl, rfl, rfl, rfl, rfl, rfl, rfl, rfl, rfl, rfl, rfl, rfl, rfl, fun q p hq => ?_,
      hpeek, hspent⟩
    obtain ⟨e, -, he⟩ := List.mem_map.mp hq
    cases he
    exact ⟨rfl, rfl⟩
  · exact fun core ctx s hr => congrArg _ (State.resume_held hr)
  · intro core ctx s b hr hst hb
    refine ⟨_, congrArg Host.Outcome.next (State.resume_preempted hr hst hb), ?_⟩
    intro x y d
    have hy : y = { x.restore b x.cycle with st := .running, bankPre := none, keepLatch := true } :=
      (State.modCtx_ctx ..).trans (if_pos ⟨rfl, rfl⟩)
    rw [hy]
    exact ⟨rfl, rfl, rfl, rfl, rfl, rfl, Ctx.restore_flight.1, Ctx.restore_flight.2, rfl, rfl, rfl, rfl, rfl, State.modCtx_peek _ _ _ _⟩
  · exact fun core ctx s hr hst => congrArg _ (State.resume_frozen hr hst)
  · intro core ctx s waits
    have hc : ((s.ctx core ctx).st = CtxState.retiring && !(s.core core).calls.any (fun c => c.ctx == ctx)) = true ↔ waits := by
      simp [waits]
    exact ⟨fun h => congrArg _ (if_neg (hc.not.mpr h)), fun h => congrArg _ (if_pos (hc.mpr h))⟩
  · intro core object s seen
    have hoff : (s.meshPause || (s.core core).owner.isNone || decide (4096 ≤ object) ||
        !(s.die (dieOf core)).clk.covers (tget Obj.reset (s.part (s.partOf core)).objs object).clk) = true ↔
        s.meshPause = true ∨ (s.core core).owner = none ∨ 4096 ≤ object ∨ ¬ seen := by
      simp [seen, or_assoc]
    refine ⟨fun h => congrArg _ (if_pos (hoff.mpr h)), fun hm ho hn hs => ?_⟩
    have hon : ¬ (s.meshPause = true ∨ (s.core core).owner = none ∨ 4096 ≤ object ∨ ¬ seen) := by
      simp [hm, ho, hs, Nat.not_le.mpr hn]
    refine ⟨_, congrArg Host.Outcome.next (if_neg (hoff.not.mpr hon)), fun x hx => ?_, fun c x hcx => ?_, fun pa => ?_⟩
    · exact (s.modCore_four_ctx core _ core x).trans (if_pos ⟨rfl, hx⟩)
    · exact (s.modCore_four_ctx core _ c x).trans (if_neg (by omega))
    · exact State.modCore_peek _ _ (fun k => Core.foldl_modCtx_slice _ _ k) pa

end Sys2Proof.Machine
end

section
/-! SUPPORT. What the operations of memory leave alone (R201, R232, R354, R367): the requests in flight and the contexts; and, for
those that write no byte, every byte. -/

namespace Sys2Proof.Machine

/-! ## Requests and contexts left alone -/

/-- From `s` to `t` no request in flight and no context has changed. -/
structure State.SameTraffic (s t : State) : Prop where
  reads : t.reads = s.reads
  writes : t.writes = s.writes
  atoms : t.atoms = s.atoms
  ctxs : ∀ c, (t.core c).ctxs = (s.core c).ctxs

theorem State.SameTraffic.ctx {s t : State} (h : s.SameTraffic t) (c x : Nat) : t.ctx c x = s.ctx c x := by
  rw [State.ctx, Core.ctx, h.ctxs]
  rfl

theorem State.SameTraffic.refl (s : State) : s.SameTraffic s := ⟨rfl, rfl, rfl, fun _ => rfl⟩

theorem State.SameTraffic.trans {s t u : State} (h : s.SameTraffic t) (g : t.SameTraffic u) : s.SameTraffic u :=
  ⟨g.reads.trans h.reads, g.writes.trans h.writes, g.atoms.trans h.atoms, fun c => (g.ctxs c).trans (h.ctxs c)⟩

/-- What a core keeps, an update of it keeps of every core. -/
theorem State.modCore_core_read {α : Type} {g : Core → α} {f : Core → Core} (hg : ∀ k, g (f k) = g k) (s : State) (c d : Nat) :
    g ((s.modCore c f).core d) = g (s.core d) := by
  rw [State.modCore_core]
  split
  · next h => rw [hg, h]
  · rfl

theorem State.SameTraffic.modCore (s : State) (c : Nat) {f : Core → Core} (hf : ∀ k, (f k).ctxs = k.ctxs) :
    s.SameTraffic (s.modCore c f) :=
  ⟨rfl, rfl, rfl, State.modCore_core_read hf s c⟩

theorem State.SameTraffic.poke (s : State) (pa : Nat) (b : Byte) : s.SameTraffic (s.poke pa b) := by
  unfold State.poke
  split
  · exact .modCore s _ fun _ => rfl
  all_goals exact ⟨rfl, rfl, rfl, fun _ => rfl⟩

theorem State.SameTraffic.pokes (cs : List Host.Cell) (s : State) : s.SameTraffic (s.pokes cs) := by
  induction cs generalizing s with
  | nil => exact .refl s
  | cons c cs ih => exact (State.SameTraffic.poke s c.1 c.2).trans (ih _)

/-- From `s` to `t` no byte has changed either. -/
structure State.SameBytes (s t : State) : Prop extends s.SameTraffic t where
  slice : ∀ c, (t.core c).slice = (s.core c).slice
  stack : t.stack = s.stack
  host0 : t.host0 = s.host0
  host1 : t.host1 = s.host1
  peers : t.peers = s.peers

namespace State.SameBytes
variable {s t u : State}

theorem peek (h : s.SameBytes t) (pa : Nat) : t.peek pa = s.peek pa :=
  State.peek_congr h.slice h.stack h.host0 h.host1 h.peers pa

theorem refl (s : State) : s.SameBytes s := ⟨.refl s, fun _ => rfl, rfl, rfl, rfl, rfl⟩

theorem trans (h : s.SameBytes t) (g : t.SameBytes u) : s.SameBytes u :=
  ⟨h.toSameTraffic.trans g.toSameTraffic, fun c => (g.slice c).trans (h.slice c), g.stack.trans h.stack, g.host0.trans h.host0,
    g.host1.trans h.host1, g.peers.trans h.peers⟩

theorem modCore (s : State) (c : Nat) {f : Core → Core} (hx : ∀ k, (f k).ctxs = k.ctxs) (hf : ∀ k, (f k).slice = k.slice) :
    s.SameBytes (s.modCore c f) :=
  ⟨.modCore s c hx, State.modCore_core_read hf s c, rfl, rfl, rfl, rfl⟩

theorem raiseBlock (s : State) (pa : Nat) (m : Mask) : s.SameBytes (s.raiseBlock pa m) := by
  unfold State.raiseBlock
  split
  · exact modCore s _ (fun _ => rfl) fun _ => rfl
  · exact .refl s

theorem raiseBlocks (m : Mask) (pas : List Nat) (s : State) : s.SameBytes (s.raiseBlocks m pas) := by
  induction pas generalizing s with
  | nil => exact .refl s
  | cons a as ih =>
    cases as with
    | nil => exact raiseBlock s a m
    | cons b bs =>
      unfold State.raiseBlocks
      split
      · exact ih s
      · exact (raiseBlock s a m).trans (ih _)

theorem setFull (s : State) (pa : Nat) (v : Bool) : s.SameBytes (s.setFull pa v) := by
  unfold State.setFull
  split
  · exact modCore s _ (fun _ => rfl) fun _ => rfl
  · exact .refl s

theorem setFulls (v : Bool) (pas : List Nat) (s : State) : s.SameBytes (s.setFulls v pas) := by
  induction pas generalizing s with
  | nil => exact .refl s
  | cons a as ih =>
    cases as with
    | nil => exact setFull s a v
    | cons b bs =>
      unfold State.setFulls
      split
      · exact ih s
      · exact (setFull s a v).trans (ih _)

theorem foldl {α : Type} {f : State → α → State} (hf : ∀ (s : State) (a : α), s.SameBytes (f s a)) (l : List α) (s : State) :
    s.SameBytes (l.foldl f s) :=
  List.foldlRecOn (motive := fun t => s.SameBytes t) l f (.refl s) fun t ht a _ => ht.trans (hf t a)

theorem queueReplicas (s : State) (cs : List Host.Cell) (die : Nat) (stamp : Clock) : s.SameBytes (s.queueReplicas cs die stamp) :=
  ⟨⟨rfl, rfl, rfl, fun _ => rfl⟩, fun _ => rfl, rfl, rfl, rfl, rfl⟩

theorem noteArrival (s : State) (engine : Nat) (ws : List Bool) (pas : List Nat) : s.SameBytes (s.noteArrival engine ws pas) := by
  unfold State.noteArrival
  split
  · exact .refl s
  split
  · split
    · exact .refl s
    · exact modCore s _ (fun _ => rfl) fun _ => rfl
  · exact .refl s

/-- All that a write does at its home besides its bytes. -/
theorem perform (s : State) (cs : List Host.Cell) (m : Mask) (fe : Bool) (die : Nat) (stamp : Clock) :
    (s.pokes cs).SameBytes (s.perform cs m fe die stamp) := by
  unfold State.perform
  refine ((raiseBlocks m (cs.map (·.1)) _).trans ?_).trans (queueReplicas _ cs die stamp)
  split
  · exact setFulls ..
  · exact .refl _

theorem performClear (s : State) (cs : List Host.Cell) (die : Nat) (stamp : Clock) :
    (s.pokes cs).SameBytes (s.performClear cs die stamp) := by
  unfold State.performClear
  refine ((setFulls ..).trans (foldl (fun t a => ?_) _ _)).trans (queueReplicas _ cs die stamp)
  split
  · exact modCore t _ (fun _ => rfl) fun _ => rfl
  · exact .refl t

end State.SameBytes

/-! ## Bytes written in a row (R104, R232) -/

theorem eq_slicePa_of_regionOf {pa c off : Nat} (h : regionOf pa = .slice c off) : pa = slicePa c off := by
  unfold regionOf at h
  dsimp only at h
  (repeat' split at h) <;> simp only [reduceCtorEq, Region.slice.injEq] at h
  unfold slicePa
  omega

theorem eq_portPa_of_regionOf {pa p off : Nat} (h : regionOf pa = .port p off) : pa = portPa p off := by
  unfold regionOf at h
  dsimp only at h
  (repeat' split at h) <;> simp only [reduceCtorEq, Region.port.injEq] at h
  unfold portPa
  omega

/-- A byte with a home lies in a slice or at a port. -/
theorem homeDie_ne_none {pa : Nat} (h : homeDie pa ≠ none) :
    (∃ c off, regionOf pa = .slice c off) ∨ ∃ p off, regionOf pa = .port p off := by
  unfold homeDie at h
  split at h
  · next c off e => exact .inl ⟨c, off, e⟩
  · next p off e => exact .inr ⟨p, off, e⟩
  · exact absurd rfl h

/-- Bytes with homes lie apart where their addresses differ. -/
theorem regionOf_ne {pa pb : Nat} (h : homeDie pa ≠ none) (hne : pb ≠ pa) : regionOf pb ≠ regionOf pa := by
  intro he
  rcases homeDie_ne_none h with ⟨c, off, e⟩ | ⟨p, off, e⟩
  · exact hne ((eq_slicePa_of_regionOf (he.trans e)).trans (eq_slicePa_of_regionOf e).symm)
  · exact hne ((eq_portPa_of_regionOf (he.trans e)).trans (eq_portPa_of_regionOf e).symm)

theorem State.peek_poke {s : State} {pa : Nat} (b : Byte) (hwf : s.memWf = true) (h : homeDie pa ≠ none) (pb : Nat) :
    (s.poke pa b).peek pb = if pb = pa then b else s.peek pb := by
  split
  · next e =>
    rw [e]
    exact State.peek_poke_same pa b hwf ((homeDie_ne_none h).imp_right .inl)
  · next hne => exact State.peek_poke_other pa pb b hwf (regionOf_ne h hne)

theorem State.peek_pokes_other {cs : List Host.Cell} {s : State} (hwf : s.memWf = true) (hh : ∀ c ∈ cs, homeDie c.1 ≠ none)
    {pa : Nat} (hpa : ∀ c ∈ cs, c.1 ≠ pa) : (s.pokes cs).peek pa = s.peek pa := by
  induction cs generalizing s with
  | nil => rfl
  | cons c cs ih =>
    obtain ⟨hc, hcs⟩ := List.forall_mem_cons.mp hh
    obtain ⟨hne, hnes⟩ := List.forall_mem_cons.mp hpa
    refine (ih (State.poke_memWf c.1 c.2 hwf) hcs hnes).trans ?_
    rw [State.peek_poke _ hwf hc, if_neg (Ne.symm hne)]

/-- Each of several bytes at different addresses is read back. -/
theorem State.peek_pokes_mem {cs : List Host.Cell} {s : State} (hwf : s.memWf = true) (hh : ∀ c ∈ cs, homeDie c.1 ≠ none)
    (hnd : (cs.map (fun c => c.1)).Nodup) : ∀ c ∈ cs, (s.pokes cs).peek c.1 = c.2 := by
  induction cs generalizing s with
  | nil => exact List.forall_mem_nil _
  | cons c cs ih =>
    obtain ⟨hc, hcs⟩ := List.forall_mem_cons.mp hh
    obtain ⟨hnot, hnd⟩ := List.nodup_cons.mp hnd
    have hwf' := State.poke_memWf c.1 c.2 hwf
    refine List.forall_mem_cons.mpr ⟨?_, ih hwf' hcs hnd⟩
    refine (State.peek_pokes_other hwf' hcs fun d hd e => hnot (List.mem_map.mpr ⟨d, hd, e⟩)).trans ?_
    rw [State.peek_poke _ hwf hc, if_pos rfl]

end Sys2Proof.Machine
end

section
/-! SUPPORT. Events of writes (R367, R369, R377, R378, R390, R474): a write is performed at its homes, applied by the dies and
acknowledged, and replicas take it. -/

namespace Sys2Proof.Machine

variable {s : State}

/-! ## Order (R369, R370, R380) -/

theorem meets_eq_false {a b : List Nat} : meets a b = false ↔ ∀ x ∈ b, x ∉ a := by
  simp only [meets, List.any_eq_false, List.contains_iff_mem]
  exact ⟨fun h x hb ha => h x ha hb, fun h x ha hb => h x hb ha⟩

/-- A write that follows no open write meets none whose stamp it covers. -/
theorem State.not_followsOpen {w v : WriteReq} (h : s.followsOpen w = false) (hv : v ∈ s.writes) (hid : v.id ≠ w.id)
    (hp : v.performed = false) (hh : v.held = false) (hc : w.stamp.covers v.stamp = true) : ∀ pa ∈ w.pas, pa ∉ v.pas := by
  rw [State.followsOpen, List.any_eq_false] at h
  have := h v hv
  rw [← meets_eq_false]
  simp_all

/-- A request that no open access comes before meets no open write of its context. -/
theorem State.not_earlierOpen {id core ctx : Nat} {pas : List Nat} {v : WriteReq} (h : s.earlierOpen id core ctx pas = false)
    (hv : v ∈ s.writes) (hid : v.id < id) (hx : v.ofCtx = true) (hcore : v.core = core) (hctx : v.ctx = ctx)
    (hp : v.performed = false) : ∀ pa ∈ pas, pa ∉ v.pas := by
  simp only [State.earlierOpen, State.earlierAccess, Bool.or_eq_false_iff, List.any_eq_false] at h
  have := h.1.1 v hv
  rw [← meets_eq_false]
  simp_all

theorem State.canPerform_applied {w : WriteReq} (h : s.canPerform w = true) :
    ∀ pa ∈ w.pas, ∀ d, homeDie pa = some d → w.appliedTo d = true := by
  simp only [State.canPerform, Bool.and_eq_true, List.all_eq_true] at h
  intro pa hpa d hd
  have := h.1.1.2 pa hpa
  rwa [hd] at this

theorem State.canPerform_held {w : WriteReq} (h : w.held = true) : s.canPerform w = false := by
  simp [State.canPerform, h]

/-! ## HOME_WRITE (R367) -/

theorem exec_homeWrite_store {id : Nat} {w : WriteReq} (hw : s.writes.find? (fun w => w.id == id) = some w) :
    exec (.homeWrite (.store id)) s = .next (if s.canPerform w then s.performWrite w else s) := by
  simp only [exec, execHomeWrite, hw]

theorem find?_id {α : Type} {f : α → Nat} {l : List α} {id : Nat} {a : α} (h : l.find? (fun a => f a == id) = some a) : f a = id := by
  simpa using List.find?_some h

/-- A write performed at its homes: its bytes, and marks beside them. -/
theorem State.performWrite_bytes (s : State) (w : WriteReq) : ∃ t : State, (s.pokes w.cells).SameBytes t ∧
    s.performWrite w = t.modWrite w.id (fun w => { w with performed := true }) := by
  unfold State.performWrite
  refine ⟨_, ?_, rfl⟩
  have h : (s.pokes w.cells).SameBytes
      (if w.clr then s.performClear w.cells w.die w.stamp else s.perform w.cells w.mask w.fe w.die w.stamp) := by
    split
    · exact .performClear ..
    · exact .perform ..
  have h := h.trans (.raiseBlocks w.mask w.raises _)
  split
  · exact h
  · exact h.trans (.noteArrival ..)

/-- What a write leaves that is performed at its homes. -/
theorem exec_homeWrite_performs {id : Nat} {w : WriteReq} (hw : s.writes.find? (fun w => w.id == id) = some w)
    (hc : s.canPerform w = true) (hwf : s.memWf = true) (hnd : (w.cells.map (fun c => c.1)).Nodup)
    (hh : ∀ c ∈ w.cells, homeDie c.1 ≠ none) : ∃ t : State, exec (.homeWrite (.store id)) s = .next t ∧
      (∀ c ∈ w.cells, t.peek c.1 = c.2) ∧ (∀ pa, (∀ c ∈ w.cells, c.1 ≠ pa) → t.peek pa = s.peek pa) ∧
      t.writes = s.writes.map (fun v => if v.id = id then { v with performed := true } else v) ∧
      t.reads = s.reads ∧ t.atoms = s.atoms ∧ (∀ c x, t.ctx c x = s.ctx c x) := by
  obtain ⟨t, ht, e⟩ := s.performWrite_bytes w
  have htr : s.SameTraffic t := (State.SameTraffic.pokes w.cells s).trans ht.toSameTraffic
  have hp (pa : Nat) : (t.modWrite w.id (fun w => { w with performed := true })).peek pa = (s.pokes w.cells).peek pa := ht.peek pa
  refine ⟨_, (exec_homeWrite_store hw).trans (congrArg _ ((if_pos hc).trans e)), fun c hcm => ?_, fun pa hpa => ?_, ?_, htr.reads,
    htr.atoms, htr.ctx⟩
  · rw [hp]
    exact State.peek_pokes_mem hwf hh hnd c hcm
  · rw [hp]
    exact State.peek_pokes_other hwf hh hpa
  · rw [State.modWrite, htr.writes, find?_id hw]

/-! ## REMOTE_WRITE_APPLY and WRITE_ACKNOWLEDGE (R378, R390) -/

theorem four_all {p : Nat → Bool} : four.all p = true ↔ ∀ k < 4, p k = true := by
  rw [List.all_eq_true, show four = List.range 4 from rfl]
  simp only [List.mem_range]

/-- A die applies a write that is the next of its die, when the stamp is covered otherwise. -/
theorem State.applicable_iff {die : Nat} {w : WriteReq} : s.applicable die w = true ↔
    die < 4 ∧ w.held = false ∧ w.appliedTo die = false ∧ s.notInjected w.sent = false ∧
      (s.die die).clk.get w.die + 1 = w.stamp.get w.die ∧
      ∀ k < 4, k ≠ w.die → (w.stamp.get k).toNat ≤ ((s.die die).clk.get k).toNat := by
  simp only [State.applicable, Bool.and_eq_true, four_all, Bool.not_eq_true', decide_eq_true_eq, Bool.or_eq_true, beq_iff_eq,
    BitVec.ule_eq_decide, or_iff_not_imp_left, ne_eq, and_assoc]

theorem exec_remoteWriteApply {die id : Nat} {w : WriteReq} (hw : s.writes.find? (fun w => w.id == id) = some w) :
    exec (.remoteWriteApply die id) s = .next (if s.applicable die w then
      ((s.modDie die (fun x => { x with clk := x.clk.set w.die (w.stamp.get w.die) })).modWrite id
        (fun w => { w with applied := w.applied ++ [die] })).dropDone else s) := by
  simp only [exec, execRemoteWriteApply, hw]
  cases s.applicable die w <;> rfl

theorem exec_writeAcknowledge (s : State) (id : Nat) :
    let marked := s.writes.map (fun w => if w.id = id ∧ w.performed = true then { w with acked := true } else w)
    exec (.writeAcknowledge id) s =
      .next { s with writes := marked.filter (fun w => !(w.performed && w.acked && w.everywhere)) } := by
  have h : (fun w : WriteReq => if w.id = id then (if w.performed then { w with acked := true } else w) else w) =
      (fun w : WriteReq => if w.id = id ∧ w.performed = true then { w with acked := true } else w) := by
    funext w
    by_cases hi : w.id = id <;> simp [hi]
  simp only [exec, execWriteAcknowledge, State.dropDone, State.modWrite, h]

/-! ## REPLICA_UPDATE (R378, R474) -/

/-- Cells written into a line in canonical form. -/
theorem tget_foldl_tset {cs : List Host.Cell} {t : Table Byte} (ht : twf 0 t = true) :
    (∀ a, (∀ c ∈ cs, c.1 ≠ a) → tget 0 (cs.foldl (fun t c => tset 0 t c.1 c.2) t) a = tget 0 t a) ∧
    ((cs.map (fun c => c.1)).Nodup → ∀ c ∈ cs, tget 0 (cs.foldl (fun t c => tset 0 t c.1 c.2) t) c.1 = c.2) := by
  induction cs generalizing t with
  | nil => exact ⟨fun _ _ => rfl, fun _ => List.forall_mem_nil _⟩
  | cons c cs ih =>
    obtain ⟨hother, hmem⟩ := ih (twf_tset 0 t c.1 c.2 ht)
    refine ⟨fun a ha => ?_, fun hnd => ?_⟩
    · obtain ⟨hne, hnes⟩ := List.forall_mem_cons.mp ha
      exact (hother a hnes).trans ((tget_tset 0 t c.1 a c.2 ht).trans (if_neg (Ne.symm hne)))
    · obtain ⟨hnot, hnd⟩ := List.nodup_cons.mp hnd
      refine List.forall_mem_cons.mpr ⟨?_, hmem hnd⟩
      refine (hother c.1 fun d hd e => hnot (List.mem_map.mpr ⟨d, hd, e⟩)).trans ?_
      exact (tget_tset 0 t c.1 c.1 c.2 ht).trans (if_pos rfl)

/-- A replica of a line takes its oldest write, once the die has applied it. -/
def Die.take (x : Die) (line : Nat) (r : Replica) : Replica :=
  match r.queue with
  | [] => r
  | q :: qs =>
    if r.line = line && x.hasApplied q.die q.stamp then
      { r with data := q.cells.foldl (fun t c => tset 0 t c.1 c.2) r.data, queue := qs }
    else r

theorem Die.take_line (x : Die) (line : Nat) (r : Replica) : (x.take line r).line = r.line := by
  unfold Die.take
  split
  · rfl
  · split <;> rfl

theorem Die.take_idle {x : Die} {line : Nat} {r : Replica} (h : r.queue = [] ∨ r.line ≠ line) : x.take line r = r := by
  unfold Die.take
  split
  · rfl
  · next q qs hq => exact if_neg (by simp [h.resolve_left (by simp [hq])])

theorem Die.take_applied {x : Die} {line : Nat} {r : Replica} {q : ReplWrite} {qs : List ReplWrite} (hq : r.queue = q :: qs)
    (hl : r.line = line) (ha : x.hasApplied q.die q.stamp = true) :
    x.take line r = { r with data := q.cells.foldl (fun t c => tset 0 t c.1 c.2) r.data, queue := qs } := by
  unfold Die.take
  rw [hq]
  exact if_pos (by simp [hl, ha])

/-- From `x` to `y` a die keeps its clock, and its replicas in place with at most the oldest write of the line taken. -/
def Die.TakesLine (x y : Die) (line : Nat) : Prop :=
  y.clk = x.clk ∧ ∀ (i : Nat) (r : Replica), x.replicas[i]? = some r → ∃ r', y.replicas[i]? = some r' ∧ r'.line = r.line ∧
    (∀ q qs, r.queue = q :: qs → r.line = line → x.hasApplied q.die q.stamp = true → r'.queue = qs ∧
      ((q.cells.map (fun c => c.1)).Nodup → twf 0 r.data = true →
        (∀ c ∈ q.cells, tget 0 r'.data c.1 = c.2) ∧ ∀ a, (∀ c ∈ q.cells, c.1 ≠ a) → tget 0 r'.data a = tget 0 r.data a)) ∧
    ((r.queue = [] ∨ r.line ≠ line) → r' = r)

theorem Die.takesLine_map (x : Die) (line : Nat) : x.TakesLine { x with replicas := x.replicas.map (x.take line) } line := by
  refine ⟨rfl, fun i r hr => ⟨x.take line r, by simp [hr], x.take_line line r, fun q qs hq hl ha => ?_, Die.take_idle⟩⟩
  rw [Die.take_applied hq hl ha]
  exact ⟨rfl, fun hnd hwf => ⟨(tget_foldl_tset hwf).2 hnd, (tget_foldl_tset hwf).1⟩⟩

/-- A die without a replica of the line keeps the others, whatever it comes to hold. -/
theorem Die.takesLine_append {x : Die} {line : Nat} (h : ∀ r ∈ x.replicas, r.line ≠ line) (rs : List Replica) :
    x.TakesLine { x with replicas := x.replicas ++ rs } line := by
  refine ⟨rfl, fun i r hr => ⟨r, ?_, rfl, fun _ _ _ hl => absurd hl (h r (List.mem_of_getElem? hr)), fun _ => rfl⟩⟩
  exact (List.getElem?_append_left (List.getElem?_eq_some_iff.mp hr).1).trans hr

theorem State.modDie_takesLine {die line : Nat} {f : Die → Die} (h : (s.die die).TakesLine (f (s.die die)) line) :
    (∀ d, d ≠ die → (s.modDie die f).die d = s.die d) ∧ (s.die die).TakesLine ((s.modDie die f).die die) line :=
  ⟨fun d hd => (s.modDie_die die d f).trans (if_neg hd), ((s.modDie_die die die f).trans (if_pos rfl)).symm ▸ h⟩

theorem State.keepLine_takesLine {die line : Nat} (h : ∀ r ∈ (s.die die).replicas, r.line ≠ line) :
    (∀ d, d ≠ die → (s.keepLine die line).die d = s.die d) ∧ (s.die die).TakesLine ((s.keepLine die line).die die) line := by
  have hany : ¬ (s.die die).replicas.any (fun r => r.line == line) = true := by simpa using h
  rw [State.keepLine, if_neg hany]
  exact State.modDie_takesLine (Die.takesLine_append h _)

theorem exec_replicaUpdate (s : State) (die line : Nat) : ∃ t : State, exec (.replicaUpdate die line) s = .next t ∧
    (∀ d, d ≠ die → t.die d = s.die d) ∧ (s.die die).TakesLine (t.die die) line := by
  cases hl : (s.die die).replicas.any (fun r => r.line == line) with
  | true =>
    refine ⟨s.modDie die (fun x => { x with replicas := x.replicas.map (x.take line) }), ?_,
      State.modDie_takesLine (Die.takesLine_map _ line)⟩
    simp only [exec, execReplicaUpdate, hl, Bool.not_true, Bool.false_eq_true, if_false]
    rfl
  | false =>
    have hnone : ∀ r ∈ (s.die die).replicas, r.line ≠ line := by simpa using hl
    have hsame : (∀ d, d ≠ die → s.die d = s.die d) ∧ (s.die die).TakesLine (s.die die) line :=
      ⟨fun _ _ => rfl, by simpa using Die.takesLine_append hnone []⟩
    simp only [exec, execReplicaUpdate, hl, Bool.not_false, if_true]
    refine ⟨_, rfl, ?_⟩
    split
    · split
      · exact hsame
      · exact State.keepLine_takesLine hnone
    · exact hsame

end Sys2Proof.Machine
end

section
/-! SUPPORT. Events of reads (R121, R164, R200, R202, R369, R370, R378, R380, R388, R474): a read is answered at its homes or by replicas,
a request on a full-empty bit waits and is served, and answers land. -/

namespace Sys2Proof.Machine

variable {s : State}

/-! ## HOME_READ_SERVICE (R474) -/

/-- What holds a read back: an LDA or a VSYNC of its bundle, or its die's clock. -/
theorem State.behind_iff {r : ReadReq} : s.behind r = true ↔
    (∃ q ∈ s.reads, q.id < r.id ∧ q.core = r.core ∧ q.ctx = r.ctx ∧ q.acquire = true) ∨
    (∃ v, (s.ctx r.core r.ctx).wait2 = some (.vsync v) ∧ (s.ctx r.core r.ctx).syncAt ≤ r.id) ∨
    (s.die (dieOf r.core)).clk.covers r.clk = false := by
  simp only [State.behind, State.acquiring, Bool.or_eq_true, State.syncing_eq_true, List.any_eq_true, Bool.and_eq_true,
    decide_eq_true_eq, beq_iff_eq, Bool.not_eq_true', and_assoc, or_assoc]

/-- Replicas serve a read that no read and no atomic of its context at its bytes comes before. -/
theorem State.atReplica_iff {r : ReadReq} : s.atReplica r = true ↔ s.replicaServes (dieOf r.core) r.pas = true ∧
    ¬ ((∃ q ∈ s.reads, q.id < r.id ∧ q.core = r.core ∧ q.ctx = r.ctx ∧ meets q.pas r.pas = true) ∨
      s.atomBefore r.id r.core r.ctx r.pas = true) := by
  simp only [State.atReplica, Bool.and_eq_true, Bool.not_eq_true', ← Bool.not_eq_true, List.any_eq_true, decide_eq_true_eq,
    beq_iff_eq, and_assoc, not_or]
  exact and_congr_right fun _ => and_comm

/-- A request on a full-empty bit arrives when nothing of these holds it. -/
theorem State.feArrives_iff {r : ReadReq} {c : Nat} : s.feArrives r c = true ↔
    ¬ (s.behind r = true ∨ s.feBefore r c = true ∨ s.mustWait r.clk r.pas = true ∨ s.earlierOpen r.id r.core r.ctx r.pas = true ∨
      r.id ∈ (s.core c).feWait) := by
  simp only [State.feArrives, Bool.and_eq_true, Bool.not_eq_true', ← Bool.not_eq_true, List.contains_iff_mem, not_or, and_assoc]

theorem State.feBefore_eq_false {r : ReadReq} {c : Nat} (h : ∀ q ∈ s.reads, q.id < r.id → clusterOf q.core = clusterOf r.core →
    q.reply = none → (∃ clr, q.kind = .fe clr) → q.pas.head?.bind sliceOf = some c → q.id ∈ (s.core c).feWait) :
    s.feBefore r c = false := by
  rw [State.feBefore, List.any_eq_false]
  intro q hq hb
  simp only [Bool.and_eq_true, decide_eq_true_eq, beq_iff_eq, Option.isNone_iff_eq_none, Bool.not_eq_true', List.contains_eq_mem,
    decide_eq_false_iff_not] at hb
  obtain ⟨⟨⟨⟨⟨hid, hcl⟩, hr⟩, hk⟩, hp⟩, hn⟩ := hb
  refine hn (h q hq hid hcl hr ?_ hp)
  split at hk
  · next clr e => exact ⟨clr, e⟩
  · cases hk

/-- Replicas that are kept leave the rest of the module. -/
theorem State.keepLine_dies (die line : Nat) (s : State) : ∃ ds, s.keepLine die line = { s with dies := ds } := by
  unfold State.keepLine
  split
  · exact ⟨s.dies, rfl⟩
  · exact ⟨_, rfl⟩

theorem State.keepLines_dies (die : Nat) (ls : List Nat) (s : State) :
    ∃ ds, ls.foldl (fun s l => s.keepLine die l) s = { s with dies := ds } :=
  List.foldlRecOn (motive := fun t : State => ∃ ds, t = { s with dies := ds }) ls _ ⟨s.dies, rfl⟩ fun t ht l _ => by
    obtain ⟨ds, rfl⟩ := ht
    obtain ⟨ds', e⟩ := State.keepLine_dies die l { s with dies := ds }
    exact ⟨ds', e⟩

section
variable {id : Nat} {r : ReadReq} (hr : s.reads.find? (fun r => r.id == id) = some r) (atReplica keep : Bool)
include hr

theorem exec_homeReadService_stays (h : r.reply ≠ none ∨ s.paused id r.core r.pas = true) :
    exec (.homeReadService id atReplica keep) s = .next s := by
  have hc : (r.reply.isSome || s.paused id r.core r.pas) = true := by
    simpa [Option.isSome_iff_ne_none] using h
  simp only [exec, execHomeReadService, hr]
  exact if_pos hc

variable (hn : r.reply = none) (hp : s.paused id r.core r.pas = false)
include hn hp

theorem exec_homeReadService_sysr {num : Nat} (hk : r.kind = .sysr num) : exec (.homeReadService id atReplica keep) s =
    .next (s.answer id { val := ((s.iodReg (s.partOf r.core) num).getD 0).setWidth 1024, mask := r.mask } Clock.zero) := by
  simp only [exec, execHomeReadService, hr, hn, hp, hk]
  rfl

theorem exec_homeReadService_fe {clr : Bool} {c pa : Nat} (hk : r.kind = .fe clr) (hpa : r.pas.head? = some pa)
    (hc : sliceOf pa = some c) : exec (.homeReadService id atReplica keep) s =
      .next (if s.feArrives r c then s.modCore c (fun k => { k with feWait := k.feWait ++ [id] }) else s) := by
  simp only [exec, execHomeReadService, hr, hn, hp, hk, hpa, Option.bind_some, hc]
  cases s.feArrives r c <;> rfl

/-- A read of memory waits, is served by replicas, or is served at its homes. -/
theorem exec_homeReadService_mem (hk : r.kind = .mem) : exec (.homeReadService id atReplica keep) s =
    .next (if s.behind r || s.walking id || s.earlierOpen id r.core r.ctx r.pas then s
      else if atReplica then
        if s.atReplica r then
          s.answer id { val := r.value (s.replicaByte (dieOf r.core)), mask := r.mask ||| unionMasks (r.pas.map s.blockMask) } Clock.zero
        else s
      else if s.mustWait r.clk r.pas then s
      else if keep then (foreignLines (dieOf r.core) r.pas).foldl (fun s l => s.keepLine (dieOf r.core) l) (s.readHome r)
      else s.readHome r) := by
  simp only [exec, execHomeReadService, hr, hn, hp, hk, apply_ite Host.Outcome.next]
  rfl

end

/-! ## FULL_EMPTY_SERVICE (R202) -/

/-- A request that finds its bit clear waits on. -/
theorem State.serveFe_waits {core : Nat} {r : ReadReq} {clr : Bool} {pa : Nat} {pas : List Nat} (hk : r.kind = .fe clr)
    (hp : r.pas = pa :: pas) (hf : s.fullBit pa = false) : s.serveFe core r = s := by
  simp [State.serveFe, hk, hp, hf]

/-- One that finds it set is answered, and with CLR clears it. -/
theorem State.serveFe_serves {core : Nat} {r : ReadReq} {clr : Bool} {pa : Nat} {pas : List Nat} (hk : r.kind = .fe clr)
    (hp : r.pas = pa :: pas) (hf : s.fullBit pa = true) :
    let t := (s.answer r.id { val := r.value s.peek, mask := r.mask ||| s.blockMask pa } (s.homeClock (pa :: pas))).modCore core
      (fun k => { k with feWait := k.feWait.filter (fun i => i != r.id) })
    s.serveFe core r = if clr then (t.setFull pa false).raiseBlock pa r.mask else t := by
  simp [State.serveFe, hk, hp, hf]

/-- An update of a core that keeps its full-empty bits keeps every bit. -/
theorem State.modCore_fullBit (s : State) (c : Nat) {f : Core → Core} (hf : ∀ k, (f k).fe = k.fe) (pa : Nat) :
    (s.modCore c f).fullBit pa = s.fullBit pa := by
  unfold State.fullBit
  split
  · rw [State.modCore_core_read hf]
  · rfl

theorem State.raiseBlock_fullBit (s : State) (pa : Nat) (m : Mask) (pb : Nat) : (s.raiseBlock pa m).fullBit pb = s.fullBit pb := by
  unfold State.raiseBlock
  split
  · exact State.modCore_fullBit s _ (by intro; rfl) pb
  · rfl

theorem State.raiseBlock_feWait (s : State) (pa : Nat) (m : Mask) (c : Nat) :
    ((s.raiseBlock pa m).core c).feWait = (s.core c).feWait := by
  unfold State.raiseBlock
  split
  · exact State.modCore_core_read (g := Core.feWait) (by intro; rfl) s _ c
  · rfl

theorem State.setFull_feWait (s : State) (pa : Nat) (v : Bool) (c : Nat) :
    ((s.setFull pa v).core c).feWait = (s.core c).feWait := by
  unfold State.setFull
  split
  · exact State.modCore_core_read (g := Core.feWait) (by intro; rfl) s _ c
  · rfl

theorem State.setFull_false (s : State) (pa : Nat) (h : ∀ c, tsortedFrom 0 (s.core c).fe = true) :
    (s.setFull pa false).fullBit pa = false := by
  unfold State.setFull State.fullBit
  split
  · next c off _ =>
    rw [State.modCore_core, if_pos rfl]
    exact (tget_terase false _ 0 _ _ (h c)).trans (if_pos rfl)
  · rfl

theorem exec_fullEmptyService {core granule : Nat} {r : ReadReq} (hw : s.feWaiters core granule = [r]) :
    exec (.fullEmptyService core granule) s = .next (s.serveFe core r) := by
  simp only [exec, execFullEmptyService, hw, List.foldl]

/-- The only request that waits is answered and waits no more. -/
theorem State.serveFe_spec {core : Nat} {r : ReadReq} {clr : Bool} {pa : Nat} {rest : List Nat}
    (hk : r.kind = .fe clr) (hp : r.pas = pa :: rest) (hf : s.fullBit pa = true) :
    let t := s.serveFe core r
    t.reads = s.reads.map (fun q => if q.id = r.id then
      { q with reply := some { val := r.value s.peek, mask := r.mask ||| s.blockMask pa }, rclk := s.homeClock (pa :: rest) } else q) ∧
    r.id ∉ (t.core core).feWait ∧ (clr = false → t.fullBit pa = true) ∧
    (clr = true → (∀ c, tsortedFrom 0 (s.core c).fe = true) → t.fullBit pa = false) ∧
    (∀ a, t.peek a = s.peek a) := by
  rw [State.serveFe_serves hk hp hf]
  dsimp only
  generalize hu : s.answer r.id { val := r.value s.peek, mask := r.mask ||| s.blockMask pa } (s.homeClock (pa :: rest)) = u
  have hreads : u.reads = s.reads.map (fun q => if q.id = r.id then
      { q with reply := some { val := r.value s.peek, mask := r.mask ||| s.blockMask pa }, rclk := s.homeClock (pa :: rest) } else q) :=
    hu ▸ rfl
  have hfull : u.fullBit pa = true := hu ▸ hf
  have hfe (c : Nat) : (u.core c).fe = (s.core c).fe := hu ▸ rfl
  have hpeek (a : Nat) : u.peek a = s.peek a := hu ▸ rfl
  clear hu
  generalize ht : u.modCore core (fun k => { k with feWait := k.feWait.filter (fun i => i != r.id) }) = t
  have hut : u.SameBytes t := ht ▸ .modCore u core (by intro; rfl) (by intro; rfl)
  have hwait : r.id ∉ (t.core core).feWait := by
    rw [← ht, State.modCore_core, if_pos rfl]
    simp
  have hbit : t.fullBit pa = true := by
    rw [← ht]
    exact (State.modCore_fullBit u core (by intro; rfl) pa).trans hfull
  cases clr with
  | false => exact ⟨hut.reads.trans hreads, hwait, fun _ => hbit, nofun, fun a => (hut.peek a).trans (hpeek a)⟩
  | true =>
    have hclr := (State.SameBytes.setFull t pa false).trans (.raiseBlock _ pa r.mask)
    refine ⟨(hclr.reads.trans hut.reads).trans hreads, ?_, nofun, fun _ hs => ?_,
      fun a => (hclr.peek a).trans ((hut.peek a).trans (hpeek a))⟩
    · rw [if_pos rfl, State.raiseBlock_feWait, State.setFull_feWait]
      exact hwait
    · rw [if_pos rfl, State.raiseBlock_fullBit]
      refine State.setFull_false t pa fun c => ?_
      rw [← ht, State.modCore_core_read (g := Core.fe) (by intro; rfl), hfe]
      exact hs c

/-! ## Results that land (R164, R378, R388) -/

theorem exec_pendingResultLands_read {id : Nat} {r : ReadReq} {v : Lab 1024} (hr : s.reads.find? (fun r => r.id == id) = some r)
    (hv : r.reply = some v) :
    ((s.die (dieOf r.core)).clk.covers r.rclk = false → exec (.pendingResultLands id) s = .next s) ∧
    ((s.die (dieOf r.core)).clk.covers r.rclk = true → exec (.pendingResultLands id) s =
      let t := ({ s with reads := s.reads.filter (fun q => q.id != r.id) } : State).modCtx r.core r.ctx
        (fun x => x.arrive r.dest v.val v.mask)
      .next (if r.acquire = true then t.acquired r else t)) := by
  simp only [exec, execPendingResultLands, hr, State.landRead, hv]
  exact ⟨fun h => by simp [h], fun h => by simp [h]⟩

theorem exec_pendingResultLands_atom {id : Nat} {a : AtomReq} (hr : s.reads.find? (fun r => r.id == id) = none)
    (ha : s.atoms.find? (fun a => a.id == id) = some a) :
    let t : State := { s with atoms := s.atoms.map (fun (b : AtomReq) => if b.id = id then { b with stage := .replied } else b) }
    let seen : Prop := (s.die (dieOf a.core)).clk.covers a.clk = true
    ((a.stage ≠ .applied ∨ ¬ seen) → exec (.pendingResultLands id) s = .next s) ∧
    (a.stage = .applied → seen → a.discard = true → exec (.pendingResultLands id) s = .next t) ∧
    (a.stage = .applied → seen → a.discard = false → exec (.pendingResultLands id) s =
      .next (t.modCtx a.core a.ctx (fun x => x.arrive a.dest (a.result.val.setWidth 1024) a.result.mask))) := by
  intro t seen
  simp only [exec, execPendingResultLands, hr, ha]
  refine ⟨fun h => if_pos (by simpa [seen] using h), fun hs hc hd => ?_, fun hs hc hd => ?_⟩ <;>
    refine (if_neg (by simp [hs, show _ = true from hc])).trans ?_ <;> rw [hd] <;> rfl

theorem Ctx.arrive_put {x : Ctx} (ht : x.st ≠ .frozenTrap) (hp : x.st ≠ .frozenPre) (d : Dest) (v : BitVec 1024) (m : Mask) :
    x.arrive d v m = x.put d v m := by
  unfold Ctx.arrive
  dsimp only
  split
  · next h => rw [h]; rfl
  · split
    · next h => exact absurd h ht
    · next h => exact absurd h hp
    · rfl

/-- Nothing holds a request of a context: no LDA before it has still to land, and no VSYNC to complete. -/
theorem State.acquiring_eq_false {id core ctx : Nat} : s.acquiring id core ctx = false ↔
    (∀ q ∈ s.reads, q.id < id → q.core = core → q.ctx = ctx → q.acquire = false) ∧ s.syncing id core ctx = false := by
  simp only [State.acquiring, Bool.or_eq_false_iff, List.any_eq_false, Bool.and_eq_true, decide_eq_true_eq, beq_iff_eq, not_and,
    Bool.not_eq_true, and_imp]

/-- A held write leaves when no LDA and no VSYNC of its context holds it any more. -/
theorem State.releaseHeld_one {w : WriteReq} (hw : s.writes.filter (fun w => w.held) = [w])
    (ha : s.acquiring w.id w.core w.ctx = false) :
    let t := s.modDie w.die (fun x => { x with clk := x.clk.set w.die (x.clk.get w.die + 1) })
    s.releaseHeld = { t with nextId := s.nextId + 1, writes := s.writes.map (fun v =>
      if v.id = w.id then { v with held := false, stamp := (t.die w.die).clk, left := s.nextId } else v) } := by
  have hf : s.writes.filter (fun w => w.held && !s.acquiring w.id w.core w.ctx) = [w] := by
    rw [← List.filter_filter, List.filter_comm, hw, List.filter_singleton, ha]
    rfl
  rw [State.releaseHeld, hf]
  rfl

theorem State.acquired_spec (r : ReadReq) :
    let later := s.reads.map (fun q =>
      if q.core = r.core ∧ q.ctx = r.ctx ∧ r.id < q.id then { q with clk := q.clk.join r.rclk } else q)
    ((∀ w ∈ s.writes, w.held = false) → s.acquired r = { s with reads := later }) ∧
    (∀ w, s.writes.filter (fun w => w.held) = [w] → (∀ q ∈ s.reads, q.core = w.core → q.ctx = w.ctx → q.acquire = false) →
      s.syncing w.id w.core w.ctx = false →
      let t := ({ s with reads := later } : State).modDie w.die (fun x => { x with clk := x.clk.set w.die (x.clk.get w.die + 1) })
      s.acquired r = { t with nextId := s.nextId + 1, writes := s.writes.map (fun v =>
        if v.id = w.id then { v with held := false, stamp := (t.die w.die).clk, left := s.nextId } else v) }) := by
  intro later
  have hlater : s.acquired r = ({ s with reads := later } : State).releaseHeld := by
    simp only [State.acquired, later, Bool.and_eq_true, beq_iff_eq, decide_eq_true_eq, and_assoc]
  rw [hlater]
  refine ⟨fun h => State.releaseHeld_none (s := { s with reads := later }) h, fun w hw hacq hsync => State.releaseHeld_one hw ?_⟩
  rw [State.acquiring_eq_false]
  refine ⟨fun q hq _ hc hx => ?_, hsync⟩
  obtain ⟨p, hp, rfl⟩ := List.mem_map.mp hq
  have hsame (P : Prop) [Decidable P] (c : Clock) : let q := if P then { p with clk := c } else p
      q.core = p.core ∧ q.ctx = p.ctx ∧ q.acquire = p.acquire := by
    by_cases hP : P
    · exact ⟨by rw [if_pos hP], by rw [if_pos hP], by rw [if_pos hP]⟩
    · exact ⟨by rw [if_neg hP], by rw [if_neg hP], by rw [if_neg hP]⟩
  obtain ⟨ec, ex, ea⟩ := hsame (p.core = r.core ∧ p.ctx = r.ctx ∧ r.id < p.id) (p.clk.join r.rclk)
  exact ea.trans (hacq p hp (ec.symm.trans hc) (ex.symm.trans hx))

end Sys2Proof.Machine
end

section
/-! SUPPORT. Error responses and walks of pages (R112, R120 to R122, R434, R474): what a failed request does, and what the stores and
the miss table of a die hold after a walk. -/

namespace Sys2Proof.Machine

/-! ## ERROR_RESPONSE (R434) -/

section
variable {s : State}

/-- The writes that leave keep their numbers, and no read, no atomic and no context changes. -/
theorem State.releaseHeld_keeps (s : State) : s.releaseHeld.reads = s.reads ∧ s.releaseHeld.atoms = s.atoms ∧
    (∀ c x, s.releaseHeld.ctx c x = s.ctx c x) ∧ ∀ w ∈ s.releaseHeld.writes, ∃ v ∈ s.writes, v.id = w.id := by
  unfold State.releaseHeld
  refine List.foldlRecOn (motive := fun t : State => t.reads = s.reads ∧ t.atoms = s.atoms ∧ (∀ c x, t.ctx c x = s.ctx c x) ∧
    ∀ w ∈ t.writes, ∃ v ∈ s.writes, v.id = w.id) _ _ ⟨rfl, rfl, fun _ _ => rfl, fun w hw => ⟨w, hw, rfl⟩⟩ ?_
  rintro t ⟨hr, ha, hx, hw⟩ v -
  refine ⟨hr, ha, hx, fun w hm => ?_⟩
  obtain ⟨u, hu, rfl⟩ := List.mem_map.mp hm
  obtain ⟨v', hv', he⟩ := hw u hu
  refine ⟨v', hv', he.trans ?_⟩
  split <;> rfl

/-- The reads without one that an error answers, and nowhere that it waits on a full-empty bit. -/
def State.dropRead (s : State) (id : Nat) : State :=
  { s with reads := s.reads.filter (fun q => q.id != id),
           cores := s.cores.map (fun (e : Nat × Core) => (e.1, { e.2 with feWait := e.2.feWait.filter (fun i => i != id) })) }

theorem State.dropRead_ctx (s : State) (id c x : Nat) : (s.dropRead id).ctx c x = s.ctx c x := by
  have h := tget_map (d := Core.reset) (g := fun k => { k with feWait := k.feWait.filter (fun i => i != id) }) rfl s.cores c
  exact (congrArg (fun k : Core => tget Ctx.reset k.ctxs x) h :)

theorem State.failRead_eq {id : Nat} {r : ReadReq} (hr : s.reads.find? (fun r => r.id == id) = some r) :
    s.failRead id = (s.dropRead id).releaseHeld.raiseAsync r.core r.ctx (memError r.va) := by
  rw [State.failRead, hr]
  rfl

/-- The read is discarded, no context has changed, and no write has come. -/
theorem State.dropRead_releaseHeld (s : State) (id : Nat) :
    let t := (s.dropRead id).releaseHeld
    t.reads = s.reads.filter (fun q => q.id != id) ∧ t.atoms = s.atoms ∧ (∀ c x, t.ctx c x = s.ctx c x) ∧
      ∀ w ∈ t.writes, ∃ v ∈ s.writes, v.id = w.id := by
  obtain ⟨hr, ha, hx, hw⟩ := (s.dropRead id).releaseHeld_keeps
  exact ⟨hr, ha, fun c x => (hx c x).trans (s.dropRead_ctx id c x), hw⟩

theorem exec_errorResponse_read {id : Nat} {r : ReadReq} (hr : s.reads.find? (fun r => r.id == id) = some r) :
    ∃ t : State, t.reads = s.reads.filter (fun r => r.id != id) ∧ (∀ c x, t.ctx c x = s.ctx c x) ∧
      exec (.errorResponse (.read id)) s = .next (t.raiseAsync r.core r.ctx { cause := .memError, code := 0, addr := r.va }) := by
  obtain ⟨hreads, -, hx, -⟩ := s.dropRead_releaseHeld id
  exact ⟨_, hreads, hx, congrArg Host.Outcome.next (State.failRead_eq hr)⟩

theorem exec_errorResponse_write {id : Nat} {w : WriteReq} (hw : s.writes.find? (fun w => w.id == id && !w.performed) = some w) :
    let t := (s.modWrite id (fun w => { w with cells := [], raises := [], performed := true, acked := true })).dropDone
    (w.ofCtx = true → exec (.errorResponse (.write id)) s =
      .next (t.raiseAsync w.core w.ctx { cause := .memError, code := 0, addr := w.va })) ∧
    (w.ofCtx = false → exec (.errorResponse (.write id)) s = .next (s.failWrite w)) := by
  simp only [exec, execErrorResponse, State.failStore, hw]
  exact ⟨fun h => by rw [h]; rfl, fun h => by rw [h]; rfl⟩

theorem exec_errorResponse_atomic {id : Nat} {a : AtomReq} (ha : s.atoms.find? (fun a => a.id == id && a.stage == .sent) = some a) :
    exec (.errorResponse (.atomic id)) s = .next (({ s with atoms := s.atoms.map (fun (b : AtomReq) =>
      if b.id = id then { b with stage := .replied, discard := true, dest := .nowhere } else b) } : State).raiseAsync a.core a.ctx
        { cause := .memError, code := 0, addr := a.va }) := by
  simp only [exec, execErrorResponse, State.failAtomic, ha]
  rfl

theorem exec_errorResponse_plane (core : Nat) (s : State) :
    (s.runningCall core = none → exec (.errorResponse (.plane core)) s = .next s) ∧
    (∀ c, s.runningCall core = some c → exec (.errorResponse (.plane core)) s = .next (s.callFault core c .uncorrectable)) := by
  simp only [exec, execErrorResponse]
  exact ⟨fun h => by rw [h], fun c h => by rw [h]⟩

theorem State.failStore_none {id : Nat} (h : ∀ w ∈ s.writes, w.id ≠ id) : s.failStore id = s := by
  rw [State.failStore, List.find?_eq_none.mpr fun w hw => by simp [h w hw]]

theorem State.failAtomic_none {id : Nat} (h : ∀ a ∈ s.atoms, a.id ≠ id) : s.failAtomic id = s := by
  rw [State.failAtomic, List.find?_eq_none.mpr fun a ha => by simp [h a ha]]

/-- A trap for a context that has not retired waits with it, and no request in flight changes. -/
theorem State.raiseAsync_requests {c x : Nat} (hd : (s.ctx c x).st ≠ .retired) (hi : (s.ctx c x).st ≠ .retiring) (t : AsyncTrap) :
    (s.raiseAsync c x t).writes = s.writes ∧ (s.raiseAsync c x t).atoms = s.atoms := by
  rw [State.raiseAsync, show (s.ctx c x).gone = false by simp [Ctx.gone, hd, hi]]
  exact ⟨rfl, rfl⟩

/-- A walk that fails fails the one read that waits on it. -/
theorem State.failWalk_read {die : Nat} {m : Miss} {r : ReadReq} (hm : m.reqs = [r.id])
    (hd : (s.ctx r.core r.ctx).st ≠ .retired) (hi : (s.ctx r.core r.ctx).st ≠ .retiring)
    (hr : s.reads.find? (fun q => q.id == r.id) = some r) (hw : ∀ w ∈ s.writes, w.id ≠ r.id) (ha : ∀ a ∈ s.atoms, a.id ≠ r.id)
    (hc : s.waitingCopies m = []) :
    s.failWalk die m = (((s.modDie die (fun x => x.answerMisses (fun q => decide (q = m)))).dropRead r.id).releaseHeld).raiseAsync
      r.core r.ctx (memError r.va) := by
  simp only [State.failWalk, hm, hc, List.foldl]
  generalize hu : s.modDie die (fun x => x.answerMisses (fun q => decide (q = m))) = u
  have hur : u.reads.find? (fun q => q.id == r.id) = some r := by rw [← hu]; exact hr
  have huw : ∀ w ∈ u.writes, w.id ≠ r.id := by rw [← hu]; exact hw
  have hua : ∀ a ∈ u.atoms, a.id ≠ r.id := by rw [← hu]; exact ha
  have hux : u.ctx r.core r.ctx = s.ctx r.core r.ctx := by rw [← hu]; rfl
  clear hu
  obtain ⟨-, hta, htx, htw⟩ := u.dropRead_releaseHeld r.id
  obtain ⟨hvw, hva⟩ := State.raiseAsync_requests (s := (u.dropRead r.id).releaseHeld) (by rw [htx, hux]; exact hd)
    (by rw [htx, hux]; exact hi) (memError r.va)
  rw [State.failRead_eq hur, State.failStore_none, State.failAtomic_none]
  · rw [hva, hta]
    exact hua
  · rw [hvw]
    intro w h
    obtain ⟨v, hv, e⟩ := htw w h
    exact e ▸ huw v hv

theorem exec_errorResponse_walk {die entry : Nat} {m : Miss} {r : ReadReq} (hf : tfind (s.die die).misses entry = some m) :
    (m.started = false → exec (.errorResponse (.walk die entry)) s = .next s) ∧
    (m.started = true → m.reqs = [r.id] → (s.ctx r.core r.ctx).st ≠ .retired → (s.ctx r.core r.ctx).st ≠ .retiring →
      s.reads.find? (fun q => q.id == r.id) = some r → (∀ w ∈ s.writes, w.id ≠ r.id) → (∀ a ∈ s.atoms, a.id ≠ r.id) →
      s.waitingCopies m = [] → ∃ t : State, t.reads = s.reads.filter (fun q => q.id != r.id) ∧ (∀ c x, t.ctx c x = s.ctx c x) ∧
        exec (.errorResponse (.walk die entry)) s =
          .next (t.raiseAsync r.core r.ctx { cause := .memError, code := 0, addr := r.va })) := by
  simp only [exec, execErrorResponse, hf]
  refine ⟨fun h => by rw [h]; rfl, fun h hm hd hi hr hw ha hc => ?_⟩
  obtain ⟨hreads, -, hx, -⟩ := (s.modDie die (fun x => x.answerMisses (fun q => decide (q = m)))).dropRead_releaseHeld r.id
  refine ⟨_, hreads, hx, ?_⟩
  rw [if_pos h, State.failWalk_read hm hd hi hr hw ha hc]
  rfl

end

/-! ## Walks (R120 to R122) -/

theorem exec_walkStart (die : Nat) (s : State) :
    let busy := ((s.die die).misses.filter (fun e => e.2.started)).length
    (32 ≤ busy ∨ s.meshPause = true → exec (.walkStart die) s = .next s) ∧
    (∀ e, s.meshPause = false → busy < 32 → (s.die die).misses.find? (fun e => !e.2.started) = some e → exec (.walkStart die) s =
      .next (s.modDie die (fun x => { x with misses := tput x.misses e.1 { e.2 with started := true } }))) := by
  intro busy
  simp only [exec, execWalkStart]
  refine ⟨fun h => if_pos ?_, fun e hp hb he => (if_neg ?_).trans (by rw [he])⟩
  · simpa [or_comm] using h
  · simpa [hp] using hb

/-- The page of the leaf that covers an address covers it. -/
theorem Leaf.page_covers {p : Part} {va : Nat} {l : Leaf} (h : p.leafAt va = some l) (part : Nat) :
    (l.page part va).covers part va = true := by
  have hl : l.va ≤ va ∧ va < l.va + levelSpan l.level := by simpa using List.find?_some h
  unfold Leaf.page
  split
  · simp only [StoreEntry.covers, Bool.and_eq_true, beq_iff_eq, decide_eq_true_eq]
    exact ⟨⟨trivial, Nat.div_mul_le_self va 65536⟩, Nat.lt_div_mul_add (by decide)⟩
  · simpa [StoreEntry.covers] using hl

theorem mem_fillStore (n free : Nat) (l : List StoreEntry) (e : StoreEntry) : e ∈ fillStore n free l e := by
  unfold fillStore
  split <;> simp

theorem Die.note_store (x : Die) (m : Miss) : (x.note m).store = x.store := by
  unfold Die.note
  split
  · rfl
  · split_ifs <;> rfl

/-- An entry after a miss has joined has the page of an entry before it, or of the miss. -/
theorem Die.mem_note_misses {x : Die} {m : Miss} {e : Nat × Miss} (h : e ∈ (x.note m).misses) :
    (∃ f ∈ x.misses, e.2.part = f.2.part ∧ e.2.key = f.2.key) ∨ (e.2.part = m.part ∧ e.2.key = m.key) := by
  unfold Die.note at h
  split at h
  · next f hf =>
    rcases mem_tput _ _ _ _ h with rfl | h
    · exact .inl ⟨f, List.mem_of_find?_eq_some hf, rfl, rfl⟩
    · exact .inl ⟨e, h, rfl, rfl⟩
  · split_ifs at h
    · exact .inl ⟨e, h, rfl, rfl⟩
    · rcases mem_tput _ _ _ _ h with rfl | h
      · exact .inr ⟨rfl, rfl⟩
      · exact .inl ⟨e, h, rfl, rfl⟩
    · exact .inl ⟨e, h, rfl, rfl⟩

theorem Die.answerMisses_store (x : Die) (p : Miss → Bool) : (x.answerMisses p).store = x.store :=
  List.foldlRecOn (motive := fun y : Die => y.store = x.store) _ _ rfl fun y hy m _ => (y.note_store m).trans hy

/-- With no miss waiting at the front stores, the entries that meet the test go and no other comes. -/
theorem Die.answerMisses_of_atFront_nil {x : Die} (h : x.atFront = []) (p : Miss → Bool) :
    x.answerMisses p = { x with misses := x.misses.filter (fun e => !p e.2), atFront := [] } := by
  rw [Die.answerMisses, h]
  rfl

/-- No entry meets a test on pages once those that do are answered. -/
theorem Die.answerMisses_clears {x : Die} {p : Miss → Bool} (hp : ∀ a b : Miss, a.part = b.part → a.key = b.key → p a = p b) :
    ∀ e ∈ (x.answerMisses p).misses, p e.2 = false := by
  refine List.foldlRecOn (motive := fun y : Die => ∀ e ∈ y.misses, p e.2 = false) _ _ (fun e he => ?_) fun y hy m hm e he => ?_
  · simpa using (List.mem_filter.mp he).2
  · rcases Die.mem_note_misses he with ⟨f, hf, hpart, hkey⟩ | ⟨hpart, hkey⟩
    · exact (hp _ _ hpart hkey).trans (hy f hf)
    · exact (hp _ _ hpart hkey).trans (by simpa using (List.mem_filter.mp hm).2)

theorem State.mem_fillFront (s : State) (cluster : Nat) (e : StoreEntry) : e ∈ tget [] (s.fillFront cluster e).fronts cluster := by
  rw [State.fillFront, tget_tmod, if_pos rfl]
  exact mem_fillStore ..

/-- An update of a die is told by the value it gives that die. -/
theorem State.modDie_congr {s : State} {die : Nat} {f g : Die → Die} (h : f (s.die die) = g (s.die die)) :
    s.modDie die f = s.modDie die g := by
  unfold State.modDie tmod
  rw [show f (tget _ s.dies die) = g (tget _ s.dies die) from h]

section
variable {s : State} {die entry : Nat} {m : Miss} (hm : tfind (s.die die).misses entry = some m)
include hm

theorem exec_walkComplete_idle (h : m.started = false) : exec (.walkComplete die entry) s = .next s := by
  simp only [exec, execWalkComplete, hm, h]
  rfl

/-- A walk that finds its page gone ends its own entry. -/
theorem exec_walkComplete_gone (h : m.started = true) {c : Cause} (ht : (s.part m.part).translate (4096 * m.key) = .error c)
    (ha : (s.die die).atFront = []) : exec (.walkComplete die entry) s =
      .next (s.modDie die (fun x => { x with misses := x.misses.filter (fun e => !decide (e.2 = m)), atFront := [] })) := by
  simp only [exec, execWalkComplete, hm, h, ht]
  exact congrArg Host.Outcome.next (State.modDie_congr (Die.answerMisses_of_atFront_nil ha _))

/-- A walk that finds its page fills the stores and satisfies every miss in it. -/
theorem exec_walkComplete_fills (h : m.started = true) {x : Xlat} {l : Leaf}
    (ht : (s.part m.part).translate (4096 * m.key) = .ok x) (hl : (s.part m.part).leafAt (4096 * m.key) = some l) :
    let e := l.page m.part (4096 * m.key)
    ∃ t : State, exec (.walkComplete die entry) s = .next t ∧ e ∈ (t.die die).store ∧ e ∈ tget [] t.fronts m.cluster ∧
      (∀ q ∈ (t.die die).misses, e.covers q.2.part (4096 * q.2.key) = false) ∧
      ((s.die die).atFront = [] →
        (t.die die).misses = (s.die die).misses.filter (fun q => !e.covers q.2.part (4096 * q.2.key))) ∧
      t.cores = s.cores ∧ t.parts = s.parts := by
  intro e
  let d : Die := { s.die die with store := fillStore 4096 (Config.freeWord s.freeCount).toNat (s.die die).store e }
  let u : State := ({ s with freeCount := s.freeCount + 1 } : State).modDie die (fun x =>
    { x with store := fillStore 4096 (Config.freeWord s.freeCount).toNat x.store e }.answerMisses
      (fun q => e.covers q.part (4096 * q.key)))
  have hd : ((u.fillFront m.cluster e).die die) = d.answerMisses (fun q => e.covers q.part (4096 * q.key)) := by
    change u.die die = _
    rw [State.modDie_die, if_pos rfl]
    rfl
  refine ⟨u.fillFront m.cluster e, ?_, ?_, u.mem_fillFront m.cluster e, ?_, fun ha => ?_, rfl, rfl⟩
  · simp only [exec, execWalkComplete, hm, h, ht, hl]
    rfl
  · rw [hd, Die.answerMisses_store]
    exact mem_fillStore ..
  · rw [hd]
    exact Die.answerMisses_clears fun a b hpart hkey => by rw [hpart, hkey]
  · rw [hd, Die.answerMisses_of_atFront_nil (x := d) ha]

end

end Sys2Proof.Machine
end

section
/-! SUPPORT. The events of memory (O46): a read of memory in each of its cases, and the statement from the rules of each event. -/

namespace Sys2Proof.Machine

section
variable {s : State} {id : Nat} {r : ReadReq} (hr : s.reads.find? (fun r => r.id == id) = some r)
  (hn : r.reply = none) (hp : s.paused id r.core r.pas = false) (hk : r.kind = .mem) (atReplica keep : Bool)
include hr hn hp hk

theorem exec_homeReadService_mem_waits (h : s.behind r = true ∨ s.walking id = true ∨ s.earlierOpen id r.core r.ctx r.pas = true) :
    exec (.homeReadService id atReplica keep) s = .next s := by
  rw [exec_homeReadService_mem hr atReplica keep hn hp hk, if_pos (by simpa [or_assoc] using h)]

variable (hb : s.behind r = false) (hw : s.walking id = false) (ho : s.earlierOpen id r.core r.ctx r.pas = false)
include hb hw ho

theorem exec_homeReadService_replica : exec (.homeReadService id true keep) s = .next (if s.atReplica r then
    s.answer id { val := r.value (s.replicaByte (dieOf r.core)), mask := r.mask ||| unionMasks (r.pas.map s.blockMask) } Clock.zero
    else s) := by
  rw [exec_homeReadService_mem hr true keep hn hp hk, if_neg (by simp [hb, hw, ho]), if_pos rfl]

theorem exec_homeReadService_home : exec (.homeReadService id false keep) s = .next (if s.mustWait r.clk r.pas then s
    else if keep then (foreignLines (dieOf r.core) r.pas).foldl (fun s l => s.keepLine (dieOf r.core) l) (s.readHome r)
    else s.readHome r) := by
  rw [exec_homeReadService_mem hr false keep hn hp hk, if_neg (by simp [hb, hw, ho]), if_neg Bool.false_ne_true]

/-- A read that nothing holds is answered at its homes; replicas that are kept change only the dies. -/
theorem exec_homeReadService_home_serves (hm : s.mustWait r.clk r.pas = false) : ∃ t : State,
    exec (.homeReadService id false keep) s = .next t ∧ t.reads = (s.readHome r).reads ∧ (∀ pa, t.peek pa = s.peek pa) ∧
      (keep = false → t.dies = s.dies) ∧ t.cores = s.cores := by
  refine ⟨_, (exec_homeReadService_home hr hn hp hk keep hb hw ho).trans (congrArg _ (if_neg (by simp [hm]))), ?_⟩
  cases keep with
  | false => exact ⟨rfl, fun _ => rfl, fun _ => rfl, rfl⟩
  | true =>
    obtain ⟨ds, e⟩ := State.keepLines_dies (dieOf r.core) (foreignLines (dieOf r.core) r.pas) (s.readHome r)
    rw [if_pos rfl, e]
    exact ⟨rfl, fun _ => rfl, nofun, rfl⟩

end

/-- Settles O46, clause by clause from the rule of each event. -/
theorem memoryEvents : Obligations.MemoryEvents := by
  unfold Obligations.MemoryEvents
  refine ⟨fun id s w hw => ⟨fun h => ?_, fun h => ?_, State.canPerform_held, exec_homeWrite_performs hw⟩,
    fun die id s w hw => ?_, fun id s => exec_writeAcknowledge s id, fun die line s => exec_replicaUpdate s die line,
    fun id atReplica keep s r hr => ?_, fun s r c => State.feBefore_eq_false, fun core granule s => ?_,
    fun id s => ⟨fun r v => exec_pendingResultLands_read, fun a => exec_pendingResultLands_atom⟩,
    fun s r => State.acquired_spec r, fun x d v m ht hp => Ctx.arrive_put ht hp d v m,
    fun id s => ⟨fun r => exec_errorResponse_read, fun w => exec_errorResponse_write, fun a => exec_errorResponse_atomic⟩,
    exec_errorResponse_plane, fun die entry s m r => exec_errorResponse_walk, exec_walkStart, fun die entry s m hm => ?_⟩
  · rw [exec_homeWrite_store hw, h]
    rfl
  · obtain ⟨hperf, -, hopen, hfollows⟩ := State.canPerform_ok h
    refine ⟨hperf, State.canPerform_applied h, fun v hv hid hvp hbefore => ?_⟩
    rcases hbefore with ⟨hheld, hcov⟩ | ⟨hlt, hctx, hcore, hx⟩
    · exact State.not_followsOpen hfollows hv hid hvp hheld hcov
    · exact State.not_earlierOpen hopen hv hlt hctx hcore hx hvp
  · intro v next ready
    rw [exec_remoteWriteApply hw]
    exact ⟨fun h => congrArg _ (if_neg (State.applicable_iff.not.mpr h)), fun h => congrArg _ (if_pos (State.applicable_iff.mpr h))⟩
  · have hid : r.id = id := find?_id hr
    intro die pas waits behind answered
    refine ⟨exec_homeReadService_stays hr atReplica keep,
      fun num hn hw hk => exec_homeReadService_sysr hr atReplica keep hn (by simpa [waits] using hw) hk,
      fun hn hw hk => ?_, fun clr c pa hn hw hk hpa hc => ?_⟩
    · replace hw : s.paused id r.core r.pas = false := by simpa [waits] using hw
      refine ⟨fun h => exec_homeReadService_mem_waits hr hn hw hk atReplica keep (h.imp_left State.behind_iff.mpr),
        fun hb hwalk hopen => ?_⟩
      replace hb : s.behind r = false := by simpa using State.behind_iff.not.mpr hb
      have hiff := State.atReplica_iff (s := s) (r := r)
      rw [hid] at hiff
      refine ⟨fun ha hs hbefore => ?_, fun ha hs => ?_, fun ha hm => ?_, fun ha hm => ?_⟩
      all_goals rw [ha]
      · rw [exec_homeReadService_replica hr hn hw hk keep hb hwalk hopen, if_pos (hiff.mpr ⟨hs, hbefore⟩)]
        rfl
      · rw [exec_homeReadService_replica hr hn hw hk keep hb hwalk hopen, if_neg]
        rintro h
        obtain ⟨hserves, hbefore⟩ := hiff.mp h
        exact hs.elim (by simp [pas, die, hserves]) hbefore
      · rw [exec_homeReadService_home hr hn hw hk keep hb hwalk hopen, if_pos hm]
      · have h := exec_homeReadService_home_serves hr hn hw hk keep hb hwalk hopen hm
        rw [State.readHome, hid] at h
        exact h
    · replace hw : s.paused id r.core r.pas = false := by simpa [waits] using hw
      have hiff := State.feArrives_iff (s := s) (r := r) (c := c)
      rw [hid, State.behind_iff] at hiff
      rw [exec_homeReadService_fe hr atReplica keep hn hw hk hpa hc]
      exact ⟨fun h => congrArg _ (if_neg fun ha => hiff.mp ha h), fun h => congrArg _ (if_pos (hiff.mpr h))⟩
  · refine ⟨fun h => by simp only [exec, execFullEmptyService, h, List.foldl],
      fun r clr pa rest hw hk hp => ⟨fun hf => ?_, fun hf => ?_⟩⟩
    · rw [exec_fullEmptyService hw, State.serveFe_waits hk hp hf]
    · exact ⟨_, exec_fullEmptyService hw, State.serveFe_spec hk hp hf⟩
  · refine ⟨exec_walkComplete_idle hm, fun x l h ht hl => ?_, fun c h ht ha => exec_walkComplete_gone hm h ht ha⟩
    exact ⟨Leaf.page_covers hl m.part, exec_walkComplete_fills hm h ht hl⟩

end Sys2Proof.Machine
end

section
/-! SUPPORT. Register arithmetic (R180, R181): the functions of the model are the operations on words that the rules name. -/

namespace Sys2Proof.Machine

/-! ## The functions of R180 as operations on words -/

/-- A shift amount is bits [5:0] of its operand. -/
theorem amountOf_eq (b : Word) : amountOf b = (b.extractLsb' 0 6).toNat := by
  simp [amountOf, BitVec.extractLsb'_toNat]

/-- The low half of a wide product is the product of the words. -/
theorem mul_eq_extractLsb (a b : Word) : a * b = (a.setWidth 128 * b.setWidth 128).extractLsb' 0 64 := by
  apply BitVec.eq_of_toNat_eq
  have ha := a.isLt
  have hb := b.isLt
  simp only [BitVec.toNat_mul, BitVec.extractLsb'_toNat, BitVec.toNat_setWidth, Nat.shiftRight_zero]
  rw [Nat.mod_eq_of_lt (a := a.toNat) (by omega), Nat.mod_eq_of_lt (a := b.toNat) (by omega),
    Nat.mod_mod_of_dvd _ (by decide : 2 ^ 64 ∣ 2 ^ 128)]

theorem mulhu_eq_extractLsb (a b : Word) : mulhu a b = (a.setWidth 128 * b.setWidth 128).extractLsb' 64 64 := by
  apply BitVec.eq_of_toNat_eq
  have hab : a.toNat * b.toNat < 2 ^ 128 := by
    have := Nat.mul_lt_mul'' a.isLt b.isLt
    simpa [← Nat.pow_add] using this
  simp only [mulhu, BitVec.toNat_ofNat, BitVec.toNat_mul, BitVec.extractLsb'_toNat, BitVec.toNat_setWidth, Nat.shiftRight_eq_div_pow]
  rw [Nat.mod_eq_of_lt (a := a.toNat) (by omega), Nat.mod_eq_of_lt (a := b.toNat) (by omega), Nat.mod_eq_of_lt hab]

theorem mulh_eq_extractLsb (a b : Word) : mulh a b = (a.signExtend 128 * b.signExtend 128).extractLsb' 64 64 := by
  have h : (a.signExtend 128 * b.signExtend 128) = BitVec.ofInt 128 (a.toInt * b.toInt) := by
    rw [BitVec.ofInt_mul]; rfl
  rw [h]
  apply BitVec.eq_of_toNat_eq
  simp only [mulh, BitVec.extractLsb'_toNat, BitVec.toNat_ofInt, Nat.shiftRight_eq_div_pow]
  generalize a.toInt * b.toInt = z
  omega

theorem shl_eq_mul (a b : Word) : shl a b = a * BitVec.ofNat 64 (2 ^ (b.extractLsb' 0 6).toNat) := by
  rw [shl, amountOf_eq, BitVec.shiftLeft_eq_mul_twoPow]
  congr 1
  exact BitVec.eq_of_toNat_eq (by simp [BitVec.toNat_twoPow])

theorem ushiftRight_eq_ofNat (a : Word) (n : Nat) : a >>> n = BitVec.ofNat 64 (a.toNat / 2 ^ n) := by
  apply BitVec.eq_of_toNat_eq
  have := Nat.div_le_self a.toNat (2 ^ n)
  rw [BitVec.toNat_ushiftRight, Nat.shiftRight_eq_div_pow, BitVec.toNat_ofNat, Nat.mod_eq_of_lt (by omega)]

theorem sshiftRight_eq_ofInt (a : Word) (n : Nat) : a.sshiftRight n = BitVec.ofInt 64 (a.toInt / 2 ^ n) := by
  rw [BitVec.sshiftRight, Int.shiftRight_eq_div_pow]
  norm_cast

theorem shr_eq_ofNat (a b : Word) : shr a b = BitVec.ofNat 64 (a.toNat / 2 ^ (b.extractLsb' 0 6).toNat) := by
  rw [shr, amountOf_eq, ushiftRight_eq_ofNat]

theorem sar_eq_ofInt (a b : Word) : sar a b = BitVec.ofInt 64 (a.toInt / 2 ^ (b.extractLsb' 0 6).toNat) := by
  rw [sar, amountOf_eq, sshiftRight_eq_ofInt]

theorem minS_eq_ofInt (a b : Word) : minS a b = BitVec.ofInt 64 (min a.toInt b.toInt) := by
  unfold minS
  split
  · next h => rw [min_eq_right h.le, BitVec.ofInt_toInt]
  · next h => rw [min_eq_left (not_lt.mp h), BitVec.ofInt_toInt]

theorem maxS_eq_ofInt (a b : Word) : maxS a b = BitVec.ofInt 64 (max a.toInt b.toInt) := by
  unfold maxS
  split
  · next h => rw [max_eq_right h.le, BitVec.ofInt_toInt]
  · next h => rw [max_eq_left (not_lt.mp h), BitVec.ofInt_toInt]

theorem minU_eq_ofNat (a b : Word) : minU a b = BitVec.ofNat 64 (min a.toNat b.toNat) := by
  unfold minU
  split
  · next h => rw [min_eq_right h.le, BitVec.ofNat_toNat, BitVec.setWidth_eq]
  · next h => rw [min_eq_left (not_lt.mp h), BitVec.ofNat_toNat, BitVec.setWidth_eq]

theorem maxU_eq_ofNat (a b : Word) : maxU a b = BitVec.ofNat 64 (max a.toNat b.toNat) := by
  unfold maxU
  split
  · next h => rw [max_eq_right h.le, BitVec.ofNat_toNat, BitVec.setWidth_eq]
  · next h => rw [max_eq_left (not_lt.mp h), BitVec.ofNat_toNat, BitVec.setWidth_eq]

/-! ## Divisions (R180, R181) -/

/-- A signed quotient reduced modulo 2^64: only −2^63 over −1 needs the reduction. -/
theorem sdiv_eq_ofInt (a b : Word) : a.sdiv b = BitVec.ofInt 64 (a.toInt.tdiv b.toInt) :=
  BitVec.eq_of_toInt_eq (by rw [BitVec.toInt_sdiv, BitVec.toInt_ofInt])

theorem divS_of_ne_zero (a : Word) {b : Word} (h : b ≠ 0) : divS a b = a.sdiv b := by
  rw [divS, if_neg h, sdiv_eq_ofInt]

theorem divU_of_ne_zero (a : Word) {b : Word} (h : b ≠ 0) : divU a b = a / b := by
  rw [divU, if_neg h]
  apply BitVec.eq_of_toNat_eq
  have := Nat.div_le_self a.toNat b.toNat
  rw [BitVec.toNat_udiv, BitVec.toNat_ofNat, Nat.mod_eq_of_lt (by omega)]

theorem remS_of_ne_zero (a : Word) {b : Word} (h : b ≠ 0) : remS a b = a - b * a.sdiv b := by
  rw [remS, if_neg h, Int.tmod_def, Int.sub_eq_add_neg, BitVec.ofInt_add, BitVec.ofInt_neg, BitVec.ofInt_mul, BitVec.ofInt_toInt, BitVec.ofInt_toInt, sdiv_eq_ofInt,
    BitVec.sub_eq_add_neg]

theorem remU_of_ne_zero (a : Word) {b : Word} (h : b ≠ 0) : remU a b = a % b := by
  rw [remU, if_neg h]
  apply BitVec.eq_of_toNat_eq
  have := Nat.mod_le a.toNat b.toNat
  rw [BitVec.toNat_umod, BitVec.toNat_ofNat, Nat.mod_eq_of_lt (by omega)]

/-- Division by zero answers all ones or the dividend (R181). -/
theorem div_zero_results (a : Word) : divS a 0 = 0xFFFFFFFFFFFFFFFF ∧ divU a 0 = 0xFFFFFFFFFFFFFFFF ∧ remS a 0 = a ∧ remU a 0 = a :=
  ⟨rfl, rfl, rfl, rfl⟩

/-- The quotient that does not fit wraps to the dividend (R181). -/
theorem divS_intMin_neg_one : divS (BitVec.intMin 64) (-1) = BitVec.intMin 64 := by decide

theorem remS_intMin_neg_one : remS (BitVec.intMin 64) (-1) = 0 := by decide

/-- Settles O1: each form is its shape with its function of R180, and the function is the operation on words that the statement
writes. -/
theorem registerArithmeticResults : Obligations.RegisterArithmeticResults := by
  unfold Obligations.RegisterArithmeticResults
  intro f s s1 s2 a b hg hd ha hb m gives busy divides
  have alu (L : Nat) (g : Word → Word → Word) {v : Word} (h : g a.val b.val = v) : alu2 L g f s = gives L v :=
    h ▸ alu2_ok hg hd ha hb L g
  refine ⟨alu 1 (· + ·) rfl, alu 1 (· - ·) rfl, alu 3 (· * ·) (mul_eq_extractLsb ..), alu 3 mulh (mulh_eq_extractLsb ..),
    alu 3 mulhu (mulhu_eq_extractLsb ..), alu 1 (· &&& ·) rfl, alu 1 (· ||| ·) rfl, alu 1 (· ^^^ ·) rfl,
    alu 1 (fun a b => a &&& ~~~b) rfl, alu 1 shl (shl_eq_mul ..), alu 1 shr (shr_eq_ofNat ..), alu 1 sar (sar_eq_ofInt ..),
    alu 1 minS (minS_eq_ofInt ..), alu 1 maxS (maxS_eq_ofInt ..), alu 1 minU (minU_eq_ofNat ..), alu 1 maxU (maxU_eq_ofNat ..),
    fun hfree => ?_⟩
  have div (g : Word → Word → Word) {v : Word} (h : g a.val b.val = v) : divide g f s = divides v :=
    h ▸ divide_ok hg hd ha hb hfree g
  refine ⟨fun h => ?nonzero, fun h => ?zero, fun h h' => ?overflow⟩
  case nonzero =>
    exact ⟨div divS (divS_of_ne_zero _ h), div divU (divU_of_ne_zero _ h), div remS (remS_of_ne_zero _ h),
      div remU (remU_of_ne_zero _ h)⟩
  case zero =>
    obtain ⟨hdivS, hdivU, hremS, hremU⟩ := div_zero_results a.val
    rw [← h] at hdivS hdivU hremS hremU
    exact ⟨div divS hdivS, div divU hdivU, div remS hremS, div remU hremU⟩
  case overflow =>
    exact ⟨div divS (by rw [h, h', divS_intMin_neg_one]), div remS (by rw [h, h', remS_intMin_neg_one])⟩

end Sys2Proof.Machine
end

section
/-! SUPPORT. Operands of slots 0 and 3 (R139, R164, R167, R168, R178, R257), form by form: what each reads, and when it blocks. -/

namespace Sys2Proof.Machine

variable {s : State}

/-! ## Registers (R164) -/

theorem State.ready_free {d : Dest} (h : s.pending d = false) : s.ready d = .ok () := State.ready_ok.mpr h

theorem State.ready_pending {d : Dest} (h : s.pending d = true) : s.ready d = .error (.block 7) := by
  simp [State.ready, h]

theorem State.opnd_reg {n : BitVec 5} (h : s.pending (.sreg n.toNat) = false) : s.opnd (.reg n) = .ok (s.me.sreg n.toNat, s) := by
  simp only [State.opnd, State.ready_free h, bind, Except.bind]
  rfl

theorem State.opnd_reg_pending {n : BitVec 5} (h : s.pending (.sreg n.toNat) = true) : s.opnd (.reg n) = .error (.block 7) := by
  simp only [State.opnd, State.ready_pending h, bind, Except.bind]

theorem State.opnd3_reg {n : BitVec 5} (h : s.pending (.mreg n.toNat) = false) :
    s.opnd3 (.reg n) = .ok (s.me.mreg n.toNat, s) := by
  simp only [State.opnd3, State.ready_free h, bind, Except.bind]
  rfl

theorem State.opnd3_reg_pending {n : BitVec 5} (h : s.pending (.mreg n.toNat) = true) :
    s.opnd3 (.reg n) = .error (.block 7) := by
  simp only [State.opnd3, State.ready_pending h, bind, Except.bind]

theorem State.dataReg_ready {d : BitVec 5} (h : s.pending (.sreg d.toNat) = false) :
    s.dataReg d = .ok (s.me.sreg d.toNat) := by
  simp only [State.dataReg, State.ready_free h, bind, Except.bind]
  rfl

/-! ## Latches (R167, R168) -/

/-- A latch entry that stands is read as it is. -/
theorem State.readLatch_held {j : BitVec 2} (h : s.me.latchLost j.toNat = false) :
    s.readLatch j = (s.me.latch s.cur.slot j.toNat, s) := by
  simp [State.readLatch, h]

/-- A lost latch entry reads zero, and the read is marked. -/
theorem State.readLatch_lost {j : BitVec 2} (h : s.me.latchLost j.toNat = true) :
    s.readLatch j = (Lab.zero 1024, s.modMe (fun x => { x with latchlost := true })) := by
  simp [State.readLatch, Ctx.latch, h]

@[simp] theorem Lab.low64_zero : (Lab.zero 1024).low64 = Lab.zero 64 := by
  simp [Lab.low64, Lab.zero]

theorem State.opnd_latch_held {j : BitVec 2} (h : s.me.latchLost j.toNat = false) :
    s.opnd (.latch j) = .ok ((s.me.latch s.cur.slot j.toNat).low64, s) := by
  rw [State.opnd, State.readLatch_held h]

theorem State.opnd_latch_lost {j : BitVec 2} (h : s.me.latchLost j.toNat = true) :
    s.opnd (.latch j) = .ok (Lab.zero 64, s.modMe (fun x => { x with latchlost := true })) := by
  rw [State.opnd, State.readLatch_lost h, Lab.low64_zero]

/-- Settles O24: each form by its lemma above; the codes that slots 0 and 3 do not take raise. -/
theorem operandReads : Obligations.OperandReads := by
  unfold Obligations.OperandReads
  refine ⟨fun s n => ⟨State.opnd_reg, State.opnd_reg_pending, State.opnd3_reg, State.opnd3_reg_pending⟩, fun x => rfl,
    fun s j => ⟨fun h => ⟨State.opnd_latch_held h, rfl⟩, fun h => ⟨State.opnd_latch_lost h, rfl⟩⟩,
    fun s => ⟨rfl, rfl, rfl, rfl, rfl, rfl, fun q => ⟨rfl, rfl⟩⟩⟩

end Sys2Proof.Machine
end

section
/-! SUPPORT. Bit counts, selection and the immediate forms (R183 to R187). -/

namespace Sys2Proof.Machine

/-! ## Bit counts (R183) -/

/-- The length of a number is one more than the place of its highest set bit. -/
theorem bitLen_of_highest {m k : Nat} (hk : m.testBit k = true) (hj : ∀ j, k < j → m.testBit j = false) : bitLen m = k + 1 := by
  have hlow : 2 ^ k ≤ m := Nat.ge_two_pow_of_testBit hk
  have hne : m ≠ 0 := by
    rintro rfl
    simp at hk
  rw [bitLen, if_neg hne, (Nat.log2_eq_iff hne).mpr ⟨hlow, Nat.lt_pow_two_of_testBit m fun j h => hj j h⟩]

/-- The count from bit `i` up stops at the lowest set bit. -/
theorem ctzFrom_of_lowest {v m n i : Nat} (hi : i ≤ m) (hm : m < i + n) (hv : v.testBit m = true)
    (hj : ∀ j < m, v.testBit j = false) : ctzFrom v n i = m := by
  induction n generalizing i with
  | zero => omega
  | succ n ih =>
    rw [ctzFrom]
    rcases eq_or_lt_of_le hi with rfl | hlt
    · rw [if_pos hv]
    · rw [if_neg (by simp [hj i hlt])]
      exact ih hlt (by omega)

theorem clz_zero : clz 0 = BitVec.ofNat 64 64 := rfl

theorem ctz_zero : ctz 0 = BitVec.ofNat 64 64 := rfl

theorem clz_of_highest {a : Word} {n : Nat} (hn : n < 64) (hset : a.getLsbD (63 - n) = true)
    (hclear : ∀ j, 63 - n < j → a.getLsbD j = false) : clz a = BitVec.ofNat 64 n := by
  rw [clz, bitLen_of_highest hset hclear]
  congr 1
  omega

theorem ctz_of_lowest {a : Word} {n : Nat} (hn : n < 64) (hset : a.getLsbD n = true)
    (hclear : ∀ j < n, a.getLsbD j = false) : ctz a = BitVec.ofNat 64 n := by
  rw [ctz, ctzFrom_of_lowest (Nat.zero_le n) (by omega) hset hclear]

theorem popc_eq_card (a : Word) :
    popc a = BitVec.ofNat 64 ((Finset.range 64).filter (fun j => a.getLsbD j = true)).card := by
  have h : bitList a.toNat 64 = (List.range 64).filter (fun j => decide (a.getLsbD j = true)) :=
    List.filter_congr fun j _ => Bool.decide_eq_true.symm
  rw [popc, h]
  rfl

/-! ## Immediates (R185 to R187) -/

theorem add_imm10 (v : Word) (i : BitVec 10) : v + imm10 i = BitVec.ofInt 64 (v.toInt + i.toInt) := by
  rw [BitVec.ofInt_add, BitVec.ofInt_toInt]
  rfl

theorem shiftLeft_eq_ofNat (v : Word) (n : Nat) : v <<< n = BitVec.ofNat 64 (v.toNat * 2 ^ n) := by
  apply BitVec.eq_of_toNat_eq
  rw [BitVec.toNat_shiftLeft, Nat.shiftLeft_eq, BitVec.toNat_ofNat]

/-- The shifted word and the immediate share no bit. -/
theorem shiftLeft_or_imm16 (v : Word) (i : BitVec 16) :
    (v <<< 16) ||| i.setWidth 64 = BitVec.ofNat 64 (v.toNat * 2 ^ 16 + i.toNat) := by
  apply BitVec.eq_of_getLsbD_eq
  intro j hj
  rw [BitVec.getLsbD_or, BitVec.getLsbD_shiftLeft, BitVec.getLsbD_setWidth, BitVec.getLsbD_ofNat, Nat.mul_comm,
    Nat.testBit_two_pow_mul_add _ i.isLt]
  by_cases h : j < 16
  · simp [h, hj, BitVec.getLsbD]
  · simp [h, hj, BitVec.getLsbD, Nat.testBit_lt_two_pow (i.isLt.trans_le (Nat.pow_le_pow_right Nat.two_pos (not_lt.mp h)))]

/-! ## The forms that read no first operand -/

theorem exec_sel {f : FSel} {s s1 s2 : State} {a b : Lab 64} (hg : s.me.holds f.gd = true) (hd : s.destReady (sDest f.d) = .ok ())
    (ha : s.opnd f.a = .ok (a, s1)) (hb : s1.opnd f.b = .ok (b, s2)) :
    exec (.sel f) s = .next ((s2.writeS 1 f.w f.d (if (s.me.pred f.n.toNat).val then a.val else b.val)
      (s.me.base f.gd ||| (s.me.pred f.n.toNat).mask ||| a.mask ||| b.mask)).verdict .issued) := by
  show execSel f s = _
  exact slotRun_ok hg (by simp only [bind, Except.bind, hd, ha, hb]; rfl)

theorem exec_movi {f : FSL} {s : State} (hg : s.me.holds f.gd = true) (hd : s.destReady (sDest f.d) = .ok ()) :
    exec (.movi f) s = .next ((s.writeS 1 f.w f.d (f.imm.signExtend 64) (s.me.base f.gd)).verdict .issued) := by
  show execMovi f s = _
  exact slotRun_ok hg (by simp only [bind, Except.bind, hd]; rfl)

theorem exec_movsh {f : FSL} {s : State} (hg : s.me.holds f.gd = true) (hd : s.pending (.sreg f.d.toNat) = false) :
    exec (.movsh f) s = .next ((s.writeS 1 f.w f.d (((s.me.sreg f.d.toNat).val <<< 16) ||| f.imm.setWidth 64)
      (s.me.base f.gd ||| (s.me.sreg f.d.toNat).mask)).verdict .issued) := by
  show execMovsh f s = _
  exact slotRun_ok hg (by simp only [bind, Except.bind, State.dataReg_ready hd]; rfl)

/-- Settles O2: the one-operand forms are one shape with their functions, and each function is what the statement writes. -/
theorem selectAndImmediateResults : Obligations.SelectAndImmediateResults := by
  unfold Obligations.SelectAndImmediateResults
  refine ⟨fun f s s1 a hg hd ha => ?bits, fun f s s1 s2 a b hg hd ha hb => exec_sel hg hd ha hb,
    fun f s s1 a hg hd ha => ?imm, fun f s s1 a hg hd ha => ?shift, fun f s hg => ⟨exec_movi hg, fun hp => ?movsh⟩⟩
  case bits =>
    intro gives
    have form (g : Word → Word) {n : Nat} (h : g a.val = BitVec.ofNat 64 n) : alu1 f.gd f.w f.d f.a g s = gives n :=
      (alu1_ok hg hd ha g).trans (by rw [h])
    exact ⟨fun h => ⟨form clz (h ▸ clz_zero), form ctz (h ▸ ctz_zero)⟩,
      fun n hn hset hclear => form clz (clz_of_highest hn hset hclear),
      fun n hn hset hclear => form ctz (ctz_of_lowest hn hset hclear), form popc (popc_eq_card a.val)⟩
  case imm =>
    intro gives
    have form (g : Word → Word) {v : Word} (h : g a.val = v) : alu1 f.gd f.w f.d f.a g s = gives v :=
      h ▸ alu1_ok hg hd ha g
    exact ⟨form (fun v => v + imm10 f.imm) (add_imm10 ..), form (fun v => v &&& imm10 f.imm) rfl,
      form (fun v => v ||| imm10 f.imm) rfl, form (fun v => v ^^^ imm10 f.imm) rfl⟩
  case shift =>
    intro gives
    have form (g : Word → Word) {v : Word} (h : g a.val = v) : alu1 f.gd f.w f.d f.a g s = gives v :=
      h ▸ alu1_ok hg hd ha g
    exact ⟨form (fun v => v <<< f.amount.toNat) (shiftLeft_eq_ofNat ..), form (fun v => v >>> f.amount.toNat) (ushiftRight_eq_ofNat ..),
      form (fun v => v.sshiftRight f.amount.toNat) (sshiftRight_eq_ofInt ..)⟩
  case movsh =>
    intro old
    rw [exec_movsh hg hp, shiftLeft_or_imm16]

end Sys2Proof.Machine
end

section
/-! SUPPORT. Predicates (R188, R189) and control flow (R151, R152, R182, R191 to R194, R209) of slot 0: what each form does with a true
guard, and what a false guard leaves. -/

namespace Sys2Proof.Machine

/-! ## Predicates (R188, R189) -/

theorem condHolds_eq (c : Cond) (a b : Word) : condHolds c a b = (match c with
    | .eq => decide (a = b)
    | .ne => decide (a ≠ b)
    | .lt => a.slt b
    | .le => a.sle b
    | .gt => b.slt a
    | .ge => b.sle a
    | .ltu => a.ult b
    | .leu => a.ule b
    | .gtu => b.ult a
    | .geu => b.ule a) := by
  cases c
  case eq => exact beq_eq_decide ..
  case ne => rw [condHolds, bne, beq_eq_decide, decide_not]
  all_goals rfl

theorem exec_cmp {f : FPC} {s s1 s2 : State} {a b : Lab 64} (hg : s.me.holds f.gd = true) (ha : s.opnd f.a = .ok (a, s1))
    (hb : s1.opnd f.b = .ok (b, s2)) :
    let c := condHolds f.cond a.val b.val
    let m := s.me.base f.gd ||| a.mask ||| b.mask
    let old := s.me.pred f.pd.toNat
    exec (.cmp f) s = .next ((match f.comb with
      | .write => s2.setPred f.pd.toNat c m
      | .conj => s2.setPred f.pd.toNat (old.val && c) (m ||| old.mask)
      | .disj => s2.setPred f.pd.toNat (old.val || c) (m ||| old.mask)).verdict .issued) := by
  intro c m old
  show execCmp f s = _
  refine slotRun_ok hg ?_
  simp only [bind, Except.bind, ha, hb]
  cases f.comb <;> rfl

theorem exec_plog {f : FPL} {s : State} (hg : s.me.holds f.gd = true) :
    exec (.plog f) s = .next ((s.setPred f.pd.toNat (plogVal f.op (s.me.pred f.pa.toNat).val (s.me.pred f.pb.toNat).val)
      (s.me.base f.gd ||| (s.me.pred f.pa.toNat).mask ||| (if plogTwo f.op then (s.me.pred f.pb.toNat).mask else 0) |||
        (s.me.pred f.pd.toNat).mask)).verdict .issued) := by
  show execPlog f s = _
  exact slotRun_ok hg rfl

/-- A predicate result is in flight for the next cycle, and the nullifier sees its write. -/
theorem State.setPred_me (s : State) (n : Nat) (v : Bool) (m : Mask) :
    (s.setPred n v m).me = { s.me with
      flight := s.me.flight ++
        [{ vis := s.me.cycle + 1, dest := .pred n, val := if v then 1 else 0, mask := m, slot := s.cur.slot, own := true,
           issued := s.me.cycle, maskOnly := false }]
      predWrite := tput s.me.predWrite n s.me.cycle } := by
  rw [State.setPred, State.modMe_me, State.quiet_me]
  rfl

/-- A predicate result is read back; p0 keeps its value (R134). -/
theorem Ctx.pred_put_pred (x : Ctx) (n : Nat) (v : Bool) (m : Mask) :
    (x.put (.pred n) (if v then 1 else 0) m).pred n = if n = 0 then { val := true, mask := 0 } else { val := v, mask := m } := by
  by_cases h : n = 0
  · simp [Ctx.pred, h]
  · cases v <;> simp [Ctx.put, Ctx.pred, h]

/-- Settles O3: each form sends one predicate result, whose value and mask are compared case by case. -/
theorem predicateResults : Obligations.PredicateResults := by
  unfold Obligations.PredicateResults
  refine ⟨fun f s s1 s2 a b c hg ha hb hc => ?cmp, fun f s hg => ?plog,
    fun s n v m => ⟨by rw [State.setPred_me], by rw [State.setPred_me]⟩, Ctx.pred_put_pred⟩
  case cmp =>
    obtain rfl : c = condHolds f.cond a.val b.val := hc.trans (condHolds_eq ..).symm
    exact exec_cmp hg ha hb
  case plog =>
    intro a b
    rw [exec_plog hg]
    cases f.op <;> rfl

/-! ## Updates of the context in focus -/

/-- An update counts only by what it makes of the context as it stands. -/
theorem State.modMe_congr {s : State} {f g : Ctx → Ctx} (h : f s.me = g s.me) : s.modMe f = s.modMe g := by
  have hk : (s.core s.cur.core).modCtx s.cur.ctx f = (s.core s.cur.core).modCtx s.cur.ctx g := by
    simp only [Core.modCtx, tmod]
    rw [show f (tget Ctx.reset (s.core s.cur.core).ctxs s.cur.ctx) = g (tget Ctx.reset (s.core s.cur.core).ctxs s.cur.ctx) from h]
  simp only [State.modMe, State.modCtx, State.modCore, tmod]
  rw [show (tget Core.reset s.cores s.cur.core).modCtx s.cur.ctx f = (tget Core.reset s.cores s.cur.core).modCtx s.cur.ctx g from hk]

/-- The core in focus keeps its frame. -/
theorem State.modMe_myCore_frame (s : State) (f : Ctx → Ctx) : (s.modMe f).myCore.frame = s.myCore.frame :=
  State.modCtx_core_read s _ _ f (g := Core.frame) (fun _ => rfl) _

/-! ## Branches (R172, R190 to R195) -/

/-- A taken branch: what becomes of the context in focus, given what it makes of the return stack. -/
def State.branched (s : State) (gd : Guard) (m : Mask) (tgt : Option (Nat × Bool)) (rs : List Nat) (rp : Bool) : State :=
  s.modMe (fun x => { x with nds := 3, tgt := tgt, nextStart := s.myCore.frame + 3, rstack := rs, retPending := rp,
                             taintNext := x.taintNext ||| ((x.pred gd.g.toNat).mask ||| m) })

section
variable {s : State} (gd : Guard) (m : Mask) (tgt : Option (Nat × Bool))

theorem State.take_branchTaint : (s.branchTaint gd m).take tgt = s.branched gd m tgt s.me.rstack s.me.retPending := by
  rw [State.take, State.branchTaint, State.taintUp, State.modMe_myCore_frame, State.modMe_modMe]
  exact State.modMe_congr rfl

theorem State.take_pushReturn_branchTaint : (s.branchTaint gd m).pushReturn.take tgt =
    s.branched gd m tgt ((s.me.pc + 48) % 2 ^ 18 :: s.me.rstack) s.me.retPending := by
  rw [State.take, State.pushReturn, State.branchTaint, State.taintUp, State.modMe_myCore_frame, State.modMe_myCore_frame,
    State.modMe_modMe, State.modMe_modMe]
  exact State.modMe_congr rfl

theorem State.take_popReturn_branchTaint (ts : List Nat) :
    ((s.branchTaint gd m).modMe (fun x => { x with rstack := ts })).take tgt = s.branched gd m tgt ts s.me.retPending := by
  rw [State.take, State.branchTaint, State.taintUp, State.modMe_myCore_frame, State.modMe_myCore_frame, State.modMe_modMe,
    State.modMe_modMe]
  exact State.modMe_congr rfl

theorem State.retires_take_branchTaint :
    ((s.branchTaint gd m).take tgt).modMe (fun x => { x with retPending := true }) = s.branched gd m tgt s.me.rstack true := by
  rw [State.take_branchTaint, State.branched, State.modMe_modMe]
  exact State.modMe_congr rfl

end

theorem branchTarget_inside {pc t : Nat} {disp : BitVec 21} (h : (pc : Int) + 16 * disp.toInt = t) (ht : t ≤ 0x3FFF0) :
    branchTarget pc disp = some t := by
  simp [branchTarget, h, lastPc, ht]

theorem branchTarget_outside {pc : Nat} {disp : BitVec 21}
    (h : (pc : Int) + 16 * disp.toInt < 0 ∨ 0x3FFF0 < (pc : Int) + 16 * disp.toInt) : branchTarget pc disp = none := by
  rw [branchTarget, if_neg]
  simp only [lastPc]
  omega

section
variable {f : FBR} {s : State} (hg : s.me.holds f.gd = true)
include hg

theorem exec_br_taken {t : Nat} (ht : branchTarget s.me.pc f.disp = some t) :
    exec (.br f) s = .next ((s.branched f.gd 0 (some (t, false)) s.me.rstack s.me.retPending).verdict .issued) := by
  rw [← State.take_branchTaint]
  show execBr f s = _
  exact slotRun_ok hg (by simp only [ht])

theorem exec_br_illegal (ht : branchTarget s.me.pc f.disp = none) : exec (.br f) s = .next (s.trapHere .illegal 0 0) := by
  show execBr f s = _
  exact slotRun_error (h := .raise .illegal 0 0) hg (by simp only [ht]; rfl)

theorem exec_call_taken {t : Nat} (hr : s.me.rstack.length < 16) (ht : branchTarget s.me.pc f.disp = some t) :
    exec (.call f) s = .next ((s.branched f.gd 0 (some (t, false)) ((s.me.pc + 48) % 2 ^ 18 :: s.me.rstack)
      s.me.retPending).verdict .issued) := by
  rw [← State.take_pushReturn_branchTaint]
  show execCall f s = _
  exact slotRun_ok hg (by simp only [if_neg (not_le.mpr hr), ht])

theorem exec_call_full (hr : 16 ≤ s.me.rstack.length) : exec (.call f) s = .next (s.trapHere .retstackFull 0 0) := by
  show execCall f s = _
  exact slotRun_error (h := .raise .retstackFull 0 0) hg (by simp only [if_pos hr]; rfl)

theorem exec_call_illegal (hr : s.me.rstack.length < 16) (ht : branchTarget s.me.pc f.disp = none) :
    exec (.call f) s = .next (s.trapHere .illegal 0 0) := by
  show execCall f s = _
  exact slotRun_error (h := .raise .illegal 0 0) hg (by simp only [if_neg (not_le.mpr hr), ht]; rfl)

end

section
variable {f : FA} {s s1 : State} {i : Lab 64} (hg : s.me.holds f.gd = true) (ha : s.opnd f.a = .ok (i, s1))
include hg ha

theorem exec_calli_full (hr : 16 ≤ s1.me.rstack.length) : exec (.calli f) s = .next (s.trapHere .retstackFull 0 0) := by
  show execCalli f s = _
  exact slotRun_error (h := .raise .retstackFull 0 0) hg (by simp only [bind, Except.bind, ha, if_pos hr]; rfl)

variable {img : Image} (hi : s1.imageOf s.cur.core = some img) (hr : s1.me.rstack.length < 16)
include hi hr

/-- CALLI looks its operand up in the target table of its launch's image. -/
theorem exec_calli_lookup : exec (.calli f) s = slotRun f.gd fxAct (fun _ =>
    match img.targets[i.val.toNat]? with
    | none => raise .callRange
    | some t => do
      must (decide (t ≤ lastPc)) (.raise .illegal 0 0)
      return (s1.branchTaint f.gd i.mask).pushReturn.take (some (t, false))) s := by
  have hcur : s1.cur = s.cur := by
    rcases State.opnd_state ha with rfl | rfl <;> rfl
  show execCalli f s = _
  simp only [execCalli, slotRun, hg, if_true, bind, Except.bind, ha, if_neg (not_le.mpr hr), hcur, hi]
  rfl

theorem exec_calli_range (h : img.targets.length ≤ i.val.toNat) : exec (.calli f) s = .next (s.trapHere .callRange 0 0) := by
  rw [exec_calli_lookup hg ha hi hr, List.getElem?_eq_none h]
  exact slotRun_error (h := .raise .callRange 0 0) hg rfl

variable {t : Nat} (ht : img.targets[i.val.toNat]? = some t)
include ht

theorem exec_calli_illegal (h : 0x3FFF0 < t) : exec (.calli f) s = .next (s.trapHere .illegal 0 0) := by
  rw [exec_calli_lookup hg ha hi hr, ht]
  have hout : decide (t ≤ lastPc) = false := decide_eq_false (not_le.mpr h)
  exact slotRun_error (h := .raise .illegal 0 0) hg (by simp only [hout, must_false, bind, Except.bind])

theorem exec_calli_taken (h : t ≤ 0x3FFF0) : exec (.calli f) s = .next ((s1.branched f.gd i.mask (some (t, false))
    ((s1.me.pc + 48) % 2 ^ 18 :: s1.me.rstack) s1.me.retPending).verdict .issued) := by
  rw [exec_calli_lookup hg ha hi hr, ht, ← State.take_pushReturn_branchTaint]
  have hin : decide (t ≤ lastPc) = true := decide_eq_true h
  exact slotRun_ok hg (by simp only [hin, must_true, bind, Except.bind]; rfl)

end

section
variable {f : FZ} {s : State} (hg : s.me.holds f.gd = true)
include hg

theorem exec_ret_taken {t : Nat} {ts : List Nat} (hr : s.me.rstack = t :: ts) :
    exec (.ret f) s = .next ((s.branched f.gd 0 (some (t, false)) ts s.me.retPending).verdict .issued) := by
  have hr' : (s.branchTaint f.gd 0).me.rstack = t :: ts := by rw [State.branchTaint, State.taintUp_me, hr]
  rw [← State.take_popReturn_branchTaint]
  show execRet f s = _
  exact slotRun_ok hg (by simp only [hr'])

theorem exec_ret_retires (hr : s.me.rstack = []) :
    exec (.ret f) s = .next ((s.branched f.gd 0 none [] true).verdict .issued) := by
  have hr' : (s.branchTaint f.gd 0).me.rstack = [] := by rw [State.branchTaint, State.taintUp_me, hr]
  rw [← hr, ← State.retires_take_branchTaint]
  show execRet f s = _
  exact slotRun_ok hg (by simp only [hr'])

end

theorem exec_bswap {f : FBS} {s : State} (hg : s.me.holds f.gd = true) : exec (.bswap f) s =
    .next ((s.branched f.gd 0 (some (16 * f.idx.toNat, true)) s.me.rstack s.me.retPending).verdict .issued) := by
  rw [← State.take_branchTaint]
  show execBswap f s = _
  exact slotRun_ok hg rfl

/-- Under a false guard a form with an effect but no destination raises TAINT (R350). -/
theorem slotRun_act_false {gd : Guard} {body : State → Try State} {s : State} (hg : s.me.holds gd = false)
    (hm : (s.me.pred gd.g.toNat).mask ≠ 0) :
    slotRun gd fxAct body s = .next ((s.taintUp (s.me.pred gd.g.toNat).mask).verdict .issued) := by
  rw [slotRun_false hg, State.falseGuard_modMe hm, State.taintUp]
  congr 2
  refine State.modMe_congr ?_
  simp [Ctx.raises, fxAct, FalseFx.act]

/-- Settles O4: each form by its lemmas above, taken or not. -/
theorem branches : Obligations.Branches := by
  unfold Obligations.Branches
  intro taken
  refine ⟨fun f s t hg h ht => ⟨exec_br_taken hg (branchTarget_inside h ht), fun hr => exec_call_taken hg hr (branchTarget_inside h ht)⟩,
    fun f s s1 i t img hg ha hi ht hr => ⟨exec_calli_illegal hg ha hi hr ht, exec_calli_taken hg ha hi hr ht⟩,
    fun f s hg => ⟨fun t ts => exec_ret_taken hg, exec_ret_retires hg⟩, fun f s => exec_bswap,
    fun f s hg => ⟨fun h => exec_br_illegal hg (branchTarget_outside h), fun hr => exec_call_full hg hr.ge,
      fun hr h => exec_call_illegal hg hr (branchTarget_outside h)⟩,
    fun f s s1 i img hg ha hi => ⟨fun hr => exec_calli_full hg ha hr.ge, exec_calli_range hg ha hi⟩,
    fun gd s hg hm => ?_⟩
  have noop {body : State → Try State} := slotRun_act_false (body := body) hg hm
  simp only [exec, execBr, execCall, execCalli, execRet, execBswap]
  exact ⟨fun d => ⟨noop, noop⟩, fun a => noop, noop, fun i => noop⟩

/-! ## A busy divider, NOP and IFENCE (R151, R182, R209) -/

/-- A stall cycle outside deterministic mode, an OVERRUN in it (R169, R175). -/
theorem State.halt_stall (s : State) :
    (s.det s.cur.core = false → s.halt .stall = s.verdict .stalled) ∧
    (s.det s.cur.core = true → s.halt .stall = s.trapHere .overrun 0 0) :=
  ⟨fun h => by simp [State.halt, h], fun h => by simp [State.halt, h]⟩

theorem State.halt_block_det {s : State} {n : Nat} (h : s.det s.cur.core = true) : s.halt (.block n) = s.trapHere .overrun 0 0 := by
  simp [State.halt, h]

section
variable {f : FZ} {s : State} (hg : s.me.holds f.gd = true)
include hg

theorem exec_ifence_passes (h : s.me.copyq.any CopyEntry.toBank = false) : exec (.ifence f) s = .next (s.verdict .issued) := by
  show execIfence f s = _
  exact slotRun_ok hg (by simp [h])

theorem exec_ifence_waits (h : s.me.copyq.any CopyEntry.toBank = true) : exec (.ifence f) s = .next (s.halt (.block 9)) := by
  show execIfence f s = _
  exact slotRun_error hg (by simp only [h, if_true]; rfl)

end

/-- Settles O5: a busy divider stalls each division alike, and IFENCE passes or blocks. -/
theorem nopIfenceAndBusyDivider : Obligations.NopIfenceAndBusyDivider := by
  unfold Obligations.NopIfenceAndBusyDivider
  refine ⟨fun f s s1 s2 a b hg hd ha hb hbusy => ?divisions, fun f s => ⟨rfl, rfl⟩, fun f s hg => ?ifence⟩
  case divisions =>
    have held {i : Instr} (g : Word → Word → Word) (hi : exec i s = divide g f s) :
        (s.det s.cur.core = false → exec i s = .next (s.verdict .stalled)) ∧
        (s.det s.cur.core = true → exec i s = .next (s.trapHere .overrun 0 0)) := by
      rw [hi, divide_busy hg hd ha hb hbusy]
      exact ⟨fun h => by rw [s.halt_stall.1 h], fun h => by rw [s.halt_stall.2 h]⟩
    simp only [List.forall_mem_cons]
    exact ⟨held divS rfl, held divU rfl, held remS rfl, held remU rfl, List.forall_mem_nil _⟩
  case ifence =>
    refine ⟨exec_ifence_passes hg, fun h hdet => ?_, fun h hdet => ?_⟩
    · rw [exec_ifence_waits hg h, State.halt_block hdet (by decide)]
    · rw [exec_ifence_waits hg h, State.halt_block_det hdet]

end Sys2Proof.Machine
end

section
/-! SUPPORT. XMOV (R204) and the system registers (R176, R177, R205 to R208, R217, R306, R411, R420): what each form delivers, asks for or
writes, and what it refuses. -/

namespace Sys2Proof.Machine

/-! ## XMOV (R163, R204) -/

section
variable {f : FXmov} {s : State} (hg : s.me.holds f.gd = true)
include hg

theorem exec_xmov_pending (h : s.pending (xdest f.dst f.src f.d.toNat f.lane.toNat) = true) :
    exec (.xmov f) s = .next (s.halt (.block 7)) := by
  simp only [exec, execXmov]
  exact slotRun_error hg (by simp only [State.ready_pending h, bind, Except.bind])

variable (h : s.pending (xdest f.dst f.src f.d.toNat f.lane.toNat) = false)
include h

theorem exec_xmov_suppressed (hw : f.w = true) : exec (.xmov f) s = .next (s.verdict .issued) := by
  simp only [exec, execXmov]
  exact slotRun_ok hg (by simp only [State.ready_free h, hw, if_true, bind, Except.bind]; rfl)

/-- The bits that XMOV moves: a lane of a wide source to a narrow file, else the source as it is. -/
def xmovBits (dst src : XFile) (lane_ : Nat) (v : Vec) : Vec :=
  if xwide src && !xwide dst then BitVec.ofNat 1024 (lane v 64 lane_) else v

theorem exec_xmov_reg {n : BitVec 5} (hw : f.w = false) (ha : f.a = .reg n) (hs : s.pending (xreg f.src n.toNat) = false) :
    exec (.xmov f) s = .next ((s.quiet false 2 false (xdest f.dst f.src f.d.toNat f.lane.toNat)
      (xmovBits f.dst f.src f.lane.toNat (s.me.xread f.src n.toNat).val)
      (s.me.base f.gd ||| (s.me.xread f.src n.toNat).mask)).verdict .issued) := by
  simp only [exec, execXmov]
  exact slotRun_ok hg (by simp only [State.ready_free h, State.ready_free hs, hw, ha, bind, Except.bind]; rfl)

theorem exec_xmov_zero (hw : f.w = false) (ha : f.a = .zero) :
    exec (.xmov f) s = .next ((s.quiet false 2 false (xdest f.dst f.src f.d.toNat f.lane.toNat)
      (xmovBits f.dst f.src f.lane.toNat 0) (s.me.base f.gd ||| 0)).verdict .issued) := by
  simp only [exec, execXmov]
  exact slotRun_ok hg (by simp only [State.ready_free h, hw, ha, bind, Except.bind]; rfl)

end

/-- Lane j of 64 bits, as a slice of the vector. -/
theorem ofNat_lane_64 (v : Vec) (j : Nat) : BitVec.ofNat 1024 (lane v 64 j) = ((v >>> (64 * j)).setWidth 64).setWidth 1024 := by
  apply BitVec.eq_of_toNat_eq
  simp [lane, Nat.shiftRight_eq_div_pow]

theorem xmovBits_zero (dst src : XFile) (j : Nat) : xmovBits dst src j 0 = 0 := by
  simp [xmovBits, lane]

theorem xwide_iff {g : XFile} : xwide g = true ↔ g = .x ∨ g = .y := by
  cases g <;> simp [xwide]

/-- Settles O10: the destination and the source are waited for, and one result goes through the inbound port. -/
theorem xmovResults : Obligations.XmovResults := by
  unfold Obligations.XmovResults
  intro f s hg named
  refine ⟨fun hw h => exec_xmov_suppressed hg h hw, fun h hdet => ?pending, fun n hw ha hs hd => ?reg, fun hw ha hd => ?zero⟩
  case pending => rw [exec_xmov_pending hg h, State.halt_block hdet (by decide)]
  case reg =>
    intro got wide value dest
    have hdest : xdest f.dst f.src f.d.toNat f.lane.toNat = dest := by
      simp only [dest, wide, ← xwide_iff, xdest]
      cases f.dst
      case s => exact if_congr (BitVec.toNat_eq (y := 0)).symm rfl rfl
      all_goals rfl
    refine ⟨xmovBits f.dst f.src f.lane.toNat got.val, ?_, hdest ▸ exec_xmov_reg hg hd hw ha hs⟩
    simp only [value, wide, ← xwide_iff, xmovBits, Bool.and_eq_true, Bool.not_eq_true', ← Bool.not_eq_true]
    split
    · exact ofNat_lane_64 ..
    · rfl
  case zero => 
    rw [exec_xmov_zero hg hd hw ha, xmovBits_zero]
    exact congrArg (fun m => Host.Outcome.next ((s.quiet false 2 false _ 0 m).verdict .issued)) BitVec.or_zero

/-! ## SYSR (R176, R177, R205, R206, R420) -/

section
variable {f : FSR} {s : State} (hg : s.me.holds f.gd = true) (hd : s.destReady (sDest f.d) = .ok ())
include hg hd

theorem exec_sysr_held {v : Word} (hn : f.num.toNat < 0x800) (h : s.heldReg s.cur.core s.cur.ctx 0 f.num.toNat = some v) :
    exec (.sysr f) s = .next (((s.readClears f.num.toNat).writeS 2 f.w f.d v (s.me.base f.gd)).verdict .issued) := by
  show execSysr f s = _
  exact slotRun_ok hg (by simp only [hd, if_pos hn, h, bind, Except.bind]; rfl)

theorem exec_sysr_unheld (hn : f.num.toNat < 0x800) (h : s.heldReg s.cur.core s.cur.ctx 0 f.num.toNat = none) :
    exec (.sysr f) s = .next (s.trapHere .illegal 0 0) := by
  show execSysr f s = _
  exact slotRun_error (h := .raise .illegal 0 0) hg (by simp only [hd, if_pos hn, h, bind, Except.bind]; rfl)

theorem exec_sysr_asks (hn : 0x800 ≤ f.num.toNat) (h : s.iodReg (s.partOf s.cur.core) f.num.toNat ≠ none) :
    exec (.sysr f) s = .next ((s.requestReg f.num.toNat (if f.w then .nowhere else sDest f.d) (s.me.base f.gd)).verdict .issued) := by
  obtain ⟨v, hv⟩ := Option.ne_none_iff_exists'.mp h
  show execSysr f s = _
  exact slotRun_ok hg (by simp only [hd, if_neg (not_lt.mpr hn), hv, bind, Except.bind]; rfl)

theorem exec_sysr_unassigned (hn : 0x800 ≤ f.num.toNat) (h : s.iodReg (s.partOf s.cur.core) f.num.toNat = none) :
    exec (.sysr f) s = .next (s.trapHere .illegal 0 0) := by
  show execSysr f s = _
  exact slotRun_error (h := .raise .illegal 0 0) hg (by simp only [hd, if_neg (not_lt.mpr hn), h, bind, Except.bind]; rfl)

end

@[simp] theorem State.modPlane_plane (s : State) (c n m : Nat) (f : Plane → Plane) :
    ((s.modPlane c n f).core c).plane m = if m = n then f ((s.core c).plane n) else (s.core c).plane m := by
  rw [State.modPlane, State.modCore_core, if_pos rfl]
  exact tget_tmod ..

theorem State.readClears_other {s : State} {num : Nat} (h : num < 0x490 ∨ 0x4A0 ≤ num) : s.readClears num = s := by
  have : ¬ (0x490 ≤ num ∧ num < 0x4A0) := by omega
  simp [State.readClears, this]

theorem State.readClears_plane {s : State} {num : Nat} (h : num < 16) :
    s.readClears (0x490 + num) = s.modPlane s.cur.core num (fun p => { p with clip := 0 }) := by
  have : 0x490 + num < 0x4A0 := by omega
  simp [State.readClears, this]

/-- The fields of `ctx.id`: core, logical core, context and context number. -/
theorem ctxId_fields {core lcore ctx j : Nat} (hcore : core < 64) (hlcore : lcore < 64) (hctx : ctx < 4) (hj : j < 256) :
    let v := BitVec.ofNat 64 (core * 2 ^ 24 + lcore * 2 ^ 16 + ctx * 2 ^ 8 + j % 256)
    v.extractLsb' 24 6 = BitVec.ofNat 6 core ∧ v.extractLsb' 8 2 = BitVec.ofNat 2 ctx ∧
      v.extractLsb' 16 6 = BitVec.ofNat 6 lcore ∧ v.extractLsb' 0 8 = BitVec.ofNat 8 j := by
  intro v
  have field (lo n k : Nat) (h : v.toNat / 2 ^ lo % 2 ^ n = k % 2 ^ n) : v.extractLsb' lo n = BitVec.ofNat n k :=
    BitVec.eq_of_toNat_eq ((BitVec.extractLsb'_toNat ..).trans (by rw [Nat.shiftRight_eq_div_pow, h, BitVec.toNat_ofNat]))
  have hv : v.toNat = core * 2 ^ 24 + lcore * 2 ^ 16 + ctx * 2 ^ 8 + j := by
    rw [BitVec.toNat_ofNat]
    omega
  rw [hv] at field
  exact ⟨field 24 6 core (by omega), field 8 2 ctx (by omega), field 16 6 lcore (by omega), field 0 8 j (by omega)⟩

/-- The fields of `ctx.status` with BLOCK zero. -/
theorem status_fields : ∀ det pwoob lost : Bool,
    let v := BitVec.ofNat 64 (0 * 2 ^ 16 + natBit det 8 + natBit pwoob 1 + natBit lost 0)
    v.extractLsb' 16 4 = 0 ∧ v.getLsbD 8 = det ∧ v.getLsbD 1 = pwoob ∧ v.getLsbD 0 = lost := by decide

/-- Outside a handler the trap registers above `trap.mask` have no value (R420). -/
theorem State.heldReg_trap_outside {s : State} {core ctx block num : Nat} (h : (s.ctx core ctx).inh = false) (hlo : 0x202 ≤ num)
    (hhi : num ≤ 0x207) : s.heldReg core ctx block num = none := by
  rw [State.heldReg, if_neg (by omega), if_pos (by omega)]
  obtain rfl | rfl | rfl | rfl | rfl | rfl : num = 0x202 ∨ num = 0x203 ∨ num = 0x204 ∨ num = 0x205 ∨ num = 0x206 ∨ num = 0x207 := by
    omega
  all_goals simp [Ctx.trapReg, h]

/-- Settles O15: SYSR in its four cases, and the registers that the statement names one by one. -/
theorem systemRegisterReads : Obligations.SystemRegisterReads := by
  unfold Obligations.SystemRegisterReads
  refine ⟨fun f s hg hd => ⟨fun v => exec_sysr_held hg hd, exec_sysr_unheld hg hd, exec_sysr_asks hg hd, exec_sysr_unassigned hg hd⟩,
    fun s core ctx num => ⟨State.readClears_other, fun h => ?clip, ?fields⟩⟩
  case clip => rw [State.readClears_plane h, State.modPlane_plane, if_pos rfl]
  case fields =>
    intro x reads hcore hctx hj hlcore
    refine ⟨⟨_, rfl, ?id⟩, rfl, rfl, rfl, ⟨_, rfl, status_fields (s.det core) x.pwoob x.latchlost⟩, rfl, rfl, rfl, rfl, rfl, rfl, rfl,
      fun h => ⟨if_pos h, if_pos h⟩, fun h n => State.heldReg_trap_outside h⟩
    cases ho : (s.core core).owner with
    | none =>
      obtain ⟨hc, hx, -, hk⟩ := ctxId_fields hcore (Nat.zero_lt_succ 63) hctx hj
      exact ⟨hc, hx, nofun, hk⟩
    | some o =>
      obtain ⟨hc, hx, hl, hk⟩ := ctxId_fields hcore (hlcore o ho) hctx hj
      exact ⟨hc, hx, fun _ h => Option.some.inj h ▸ hl, hk⟩

/-! ## SYSW (R9, R176, R207, R217, R306, R411, R420) -/

section
variable {f : FSW} {s : State} {v : Lab 64} (hg : s.me.holds f.gd = true) (hv : s.dataReg f.d = .ok v)
include hg hv

theorem exec_sysw_writes {t : State} (h : s.sysWrite f.num.toNat v.val = some t) : exec (.sysw f) s = .next (t.verdict .issued) := by
  show execSysw f s = _
  exact slotRun_ok hg (by simp only [hv, h, bind, Except.bind]; rfl)

theorem exec_sysw_refused (h : s.sysWrite f.num.toNat v.val = none) : exec (.sysw f) s = .next (s.trapHere .illegal 0 0) := by
  show execSysw f s = _
  exact slotRun_error (h := .raise .illegal 0 0) hg (by simp only [hv, h, bind, Except.bind]; rfl)

end

/-- No bit of a value lies outside the fields of a register. -/
theorem keepsRsv_iff {v fields : Word} : keepsRsv v fields.toNat = true ↔ v &&& ~~~fields = 0 := by
  have h : v &&& fields = v ↔ v &&& ~~~fields = 0 := by
    simp only [BitVec.eq_of_getLsbD_eq_iff, BitVec.getLsbD_and, BitVec.getLsbD_not]
    refine forall₂_congr fun i hi => ?_
    cases v.getLsbD i <;> cases fields.getLsbD i <;> simp [hi]
  rw [← h, keepsRsv, beq_iff_eq, ← BitVec.toNat_and, BitVec.toNat_inj]

section
variable {s : State} {v : Word}

/-- The write of `trap.hnd`, with its index read as the field that the rule names (R420). -/
theorem State.sysWrite_hnd : s.sysWrite 0x200 v =
    if !keepsRsv v 0x3FF || (v.getLsbD 8 &&
        decide ((((s.imageOf s.cur.core).map (·.targets)).getD []).length ≤ (v.extractLsb' 0 8).toNat)) then none
    else some (s.modMe (fun x => { x with trapEn := v.getLsbD 8, trapTidx := v.extractLsb' 0 8 })) := by
  rw [show v.extractLsb' 0 8 = v.setWidth 8 from BitVec.eq_of_toNat_eq (by simp), BitVec.toNat_setWidth]
  rfl

/-- The write of `trap.pc` (R420). -/
theorem State.sysWrite_pc : s.sysWrite 0x204 v =
    if s.me.inh && keepsRsv v 0x37FFFF then
      some (s.modMe (fun x => { x with trapPc := (v.extractLsb' 0 18).toNat, trapNds := 0,
                                       bankTrap := x.bankTrap.map (fun b => { b with nds := 0, tgt := none, retPending := false }) }))
    else none := by
  rw [BitVec.extractLsb'_toNat, Nat.shiftRight_zero]
  rfl

theorem State.sysWrite_plane {num : Nat} (hlo : 0x490 ≤ num) (hhi : num < 0x4A0) : s.sysWrite num v =
    if keepsRsv v 0xFFFFFFFF000000FC then some (s.modPlane s.cur.core (num - 0x490) (fun p =>
      { p with route := p.route && !v.getLsbD 5, hlost := p.hlost && !v.getLsbD 4, sat := p.sat && !v.getLsbD 3 })) else none := by
  simp only [State.sysWrite]
  rw [if_neg (by omega), if_neg (by omega), if_neg (by omega), if_neg (by omega), if_neg (by omega), if_neg (by omega),
    if_pos (by simp [hlo, hhi])]

theorem State.sysWrite_other {num : Nat} (hn : num ∉ [0x011, 0x020, 0x200, 0x201, 0x204, 0x306]) (hp : num < 0x490 ∨ 0x4A0 ≤ num) :
    s.sysWrite num v = none := by
  simp only [List.mem_cons, List.not_mem_nil, or_false, not_or] at hn
  obtain ⟨h1, h2, h3, h4, h5, h6⟩ := hn
  have : ¬ (0x490 ≤ num ∧ num < 0x4A0) := by omega
  simp [State.sysWrite, h1, h2, h3, h4, h5, h6, this]

end

/-- Settles O16: each writable register takes the fields that are written, and refuses bits outside them; no other is writable. -/
theorem systemRegisterWrites : Obligations.SystemRegisterWrites := by
  unfold Obligations.SystemRegisterWrites
  intro f s v hg hv illegal becomes within due
  have writes {t : State} (h : s.sysWrite f.num.toNat v.val = some t) : becomes t := exec_sysw_writes hg hv h
  have refused (h : s.sysWrite f.num.toNat v.val = none) : illegal := exec_sysw_refused hg hv h
  have kept {fields : Word} (h : within fields) : keepsRsv v.val fields.toNat = true := keepsRsv_iff.mpr h
  have broken {fields : Word} (h : ¬ within fields) : ¬ keepsRsv v.val fields.toNat = true := keepsRsv_iff.not.mpr h
  refine ⟨fun hn => ?flags, fun hn => ?status, fun hn => ?hnd, fun hn => writes (by rw [hn]; rfl), fun hn => ?pc, fun hn => ?phase,
    fun hlo hhi => ?plane, fun hn hp => refused (State.sysWrite_other hn hp)⟩
  all_goals try rw [hn] at writes refused
  case flags =>
    exact ⟨fun h => writes ((if_pos (kept h)).trans (congrArg some (State.modMe_congr rfl))), fun h => refused (if_neg (broken h))⟩
  case status => exact ⟨fun h => writes (if_pos (kept h)), fun h => refused (if_neg (broken h))⟩
  case hnd =>
    intro count
    replace writes {t : State} := (State.sysWrite_hnd (s := s) (v := v.val) ▸ writes (t := t))
    replace refused := (State.sysWrite_hnd (s := s) (v := v.val) ▸ refused)
    refine ⟨fun h hidx => writes (if_neg ?_), fun h => refused (if_pos ?_), fun hen hidx => refused (if_pos ?_)⟩
    · have hk := kept h
      simpa [show keepsRsv v.val 0x3FF = true from hk] using hidx
    · have hb := broken h
      simp [show ¬ keepsRsv v.val 0x3FF = true from hb]
    · simp only [hen, decide_eq_true hidx, Bool.and_self, Bool.or_true, count]
  case pc =>
    replace writes {t : State} := (State.sysWrite_pc (s := s) (v := v.val) ▸ writes (t := t))
    replace refused := (State.sysWrite_pc (s := s) (v := v.val) ▸ refused)
    refine ⟨fun hin h => writes (if_pos (Bool.and_eq_true_iff.mpr ⟨hin, kept h⟩)), fun h => refused (if_neg fun hand => ?_)⟩
    obtain ⟨hin, hk⟩ := Bool.and_eq_true_iff.mp hand
    exact h.elim (fun h => absurd hin (by simp [h])) (fun h => broken h hk)
  case phase => exact ⟨fun h => writes (if_pos (kept h)), fun h => refused (if_neg (broken h))⟩
  case plane =>
    rw [State.sysWrite_plane hlo hhi] at writes refused
    exact ⟨fun h => writes (if_pos (kept h)), fun h => refused (if_neg (broken h))⟩

end Sys2Proof.Machine
end

section
/-! SUPPORT. The frame of the forms of slot 0 that write one s register or one predicate (R162, R179, R349): what an issue changes of the
context in focus. -/

namespace Sys2Proof.Machine

/-! ## An attempt that has issued -/

theorem State.halt_verdict_ne_issued (s : State) (h : Halt) : (s.halt h).cur.verdict ≠ .issued := by
  obtain ⟨c, code, addr, e⟩ | ⟨n, -, -, e⟩ | ⟨-, -, e⟩ := s.halt_cases h <;> rw [e] <;> exact nofun

/-- An issue is that of the body, or the propagation under a false guard. -/
theorem slotRun_issued {gd : Guard} {fx : State → FalseFx} {body : State → Try State} {s t : State}
    (h : slotRun gd fx body s = .next t) (hv : t.cur.verdict = .issued) :
    (∃ u, body s = .ok u ∧ t = u.verdict .issued) ∨ t = (s.falseGuard gd (fx s)).verdict .issued := by
  obtain ⟨u, -, hb, e⟩ | ⟨k, -, -, e⟩ | ⟨-, e⟩ := slotRun_cases gd fx body s
  all_goals obtain rfl := Host.Outcome.next.inj (e.symm.trans h)
  · exact .inl ⟨u, hb, rfl⟩
  · exact absurd hv (s.halt_verdict_ne_issued k)
  · exact .inr rfl

/-! ## Updates of the context in focus -/

/-- From `s` to `t` at most the context in focus has been updated, and the update is one of `R`. -/
structure State.Updates (s : State) (R : Ctx → Ctx → Prop) (t : State) : Prop where
  step : t = s ∨ ∃ f, t = s.modMe f
  me : R s.me t.me

namespace State.Updates
variable {R : Ctx → Ctx → Prop} {s t u : State}

theorem same (h : R s.me s.me) : s.Updates R s := ⟨.inl rfl, h⟩

theorem modMe {f : Ctx → Ctx} (h : R s.me (f s.me)) : s.Updates R (s.modMe f) :=
  ⟨.inr ⟨f, rfl⟩, (State.modMe_me s f).symm ▸ h⟩

theorem trans (hR : ∀ x y z, R x y → R y z → R x z) (h : s.Updates R t) (g : t.Updates R u) : s.Updates R u := by
  refine ⟨?_, hR _ _ _ h.me g.me⟩
  obtain rfl | ⟨f, rfl⟩ := h.step
  · exact g.step
  obtain rfl | ⟨k, rfl⟩ := g.step
  · exact .inr ⟨f, rfl⟩
  · exact .inr ⟨_, State.modMe_modMe s f k⟩

theorem cur (h : s.Updates R t) : t.cur = s.cur := by
  obtain rfl | ⟨f, rfl⟩ := h.step <;> rfl

theorem onlyMyContext (h : s.Updates R t) (v : Verdict) : s.onlyMyContext (t.verdict v) := by
  obtain rfl | ⟨f, rfl⟩ := h.step
  · exact t.onlyMyContext_verdict v
  · exact s.onlyMyContext_modMe_verdict f v

theorem peek (h : s.Updates R t) (pa : Nat) : t.peek pa = s.peek pa := by
  obtain rfl | ⟨f, rfl⟩ := h.step
  · rfl
  · exact State.modCtx_peek ..

/-- An operand of slot 0 updates the mark of a lost latch at most. -/
theorem opnd (hsame : ∀ x, R x x) (hlost : ∀ x : Ctx, R x { x with latchlost := true }) {o : Opnd} {v : Lab 64}
    (h : s.opnd o = .ok (v, t)) : s.Updates R t := by
  obtain rfl | rfl := State.opnd_state h
  · exact same (hsame _)
  · exact modMe (hlost _)

end State.Updates

/-! ## What a result for an s register may change -/

/-- Nothing of a context but results for `d`, latches of the slot, LATCHLOST and the divider; the divider neither where `keep` holds. -/
structure Ctx.WritesRegister (slot : Nat) (d : Dest) (keep : Prop) (x y : Ctx) : Prop where
  rest : y = { x with flight := y.flight, latches := y.latches, latchlost := y.latchlost, divFree := y.divFree }
  flight : ∀ e ∈ y.flight, e ∈ x.flight ∨ (e.dest = d ∧ e.slot = slot ∧ x.cycle < e.vis)
  latches : ∀ l ∈ y.latches, l ∈ x.latches ∨ l.slot = slot
  divFree : keep → y.divFree = x.divFree

namespace Ctx.WritesRegister
variable {slot : Nat} {d : Dest} {keep : Prop}

theorem refl (x : Ctx) : WritesRegister slot d keep x x := ⟨rfl, fun _ => .inl, fun _ => .inl, fun _ => rfl⟩

theorem lost (x : Ctx) : WritesRegister slot d keep x { x with latchlost := true } := ⟨rfl, fun _ => .inl, fun _ => .inl, fun _ => rfl⟩

theorem divider {x : Ctx} {n : Nat} (h : ¬ keep) : WritesRegister slot d keep x { x with divFree := n } :=
  ⟨rfl, fun _ => .inl, fun _ => .inl, fun hk => absurd hk h⟩

theorem trans (x y z : Ctx) (h : WritesRegister slot d keep x y) (g : WritesRegister slot d keep y z) : WritesRegister slot d keep x z := by
  have hcycle : y.cycle = x.cycle := by rw [h.rest]
  refine ⟨?_, fun e he => ?_, fun l hl => ?_, fun hk => (g.divFree hk).trans (h.divFree hk)⟩
  · rw [g.rest, h.rest]
  · exact (g.flight e he).elim (h.flight e) fun hn => .inr (hcycle ▸ hn)
  · exact (g.latches l hl).elim (h.latches l) .inr

end Ctx.WritesRegister

section
variable {s t u : State} {d : Dest} {keep : Prop}

/-- A result of the slot's own unit. -/
theorem State.Updates.own {L : Nat} {w : Bool} {v : BitVec 1024} {m : Mask} :
    s.Updates (Ctx.WritesRegister s.cur.slot d keep) (s.own L w d v m) := by
  refine ⟨.inr ⟨_, rfl⟩, ?_⟩
  rw [State.own_me]
  refine ⟨rfl, fun e he => ?_, fun l hl => ?_, fun _ => rfl⟩
  · dsimp only at he
    split at he
    · exact .inl he
    · refine (List.mem_append.mp he).imp_right fun he => ?_
      obtain rfl := List.mem_singleton.mp he
      exact ⟨rfl, rfl, by dsimp only; omega⟩
  · refine (List.mem_append.mp hl).imp_right fun hl => ?_
    obtain rfl := List.mem_singleton.mp hl
    rfl

/-- The propagation of a false guard to one destination. -/
theorem State.Updates.falseGuard_one {gd : Guard} {w : Bool} {n : Nat} (hn : 0 < n) :
    s.Updates (Ctx.WritesRegister s.cur.slot d keep) (s.falseGuard gd (.one w d n)) := by
  by_cases hm : (s.me.pred gd.g.toNat).mask = 0
  · rw [State.falseGuard_zero hm]
    exact .same (.refl _)
  · rw [State.falseGuard_modMe hm]
    refine .modMe ⟨rfl, fun e he => (List.mem_append.mp he).imp_right fun he => ?_, fun _ => .inl, fun _ => rfl⟩
    obtain ⟨p, hp, rfl⟩ := List.mem_map.mp he
    cases w with
    | true => exact absurd hp List.not_mem_nil
    | false =>
      obtain rfl := List.mem_singleton.mp hp
      exact ⟨rfl, rfl, Nat.lt_add_of_pos_right hn⟩

theorem State.Updates.read {o : Opnd} {v : Lab 64} (h : s.opnd o = .ok (v, t)) : s.Updates (Ctx.WritesRegister s.cur.slot d keep) t :=
  .opnd .refl .lost h

/-- A result after operands. -/
theorem State.Updates.writeS {L : Nat} {w : Bool} {r : BitVec 5} {v : Word} {m : Mask}
    (h : s.Updates (Ctx.WritesRegister s.cur.slot (sDest r) keep) t) :
    s.Updates (Ctx.WritesRegister s.cur.slot (sDest r) keep) (t.writeS L w r v m) := by
  refine h.trans Ctx.WritesRegister.trans ?_
  rw [← congrArg Cur.slot h.cur]
  exact .own

theorem State.Updates.read_after {o : Opnd} {v : Lab 64} (h : s.Updates (Ctx.WritesRegister s.cur.slot d keep) t)
    (ho : t.opnd o = .ok (v, u)) : s.Updates (Ctx.WritesRegister s.cur.slot d keep) u := by
  refine h.trans Ctx.WritesRegister.trans ?_
  rw [← congrArg Cur.slot h.cur]
  exact .read ho

end

/-! ## The forms -/

/-- An answer that has issued and updated the context in focus by `R` alone. -/
def State.IssuesBy (s : State) (R : Ctx → Ctx → Prop) (o : Out) : Prop :=
  ∀ t, o = .next t → t.cur.verdict = .issued → ∃ u, t = u.verdict .issued ∧ s.Updates R u

section
variable {s : State} {keep : Prop}

/-- A form that writes an s register issues by its body, or propagates its guard's mask to that register. -/
theorem State.IssuesBy.slotRun_fxS {gd : Guard} {w : Bool} {d : BitVec 5} {L : Nat} {body : State → Try State}
    (h : ∀ u, body s = .ok u → s.Updates (Ctx.WritesRegister s.cur.slot (sDest d) keep) u) :
    s.IssuesBy (Ctx.WritesRegister s.cur.slot (sDest d) keep) (slotRun gd (fxS w d L) body s) := by
  intro t ht hv
  obtain ⟨u, hu, rfl⟩ | rfl := slotRun_issued ht hv
  · exact ⟨u, rfl, h u hu⟩
  · exact ⟨_, rfl, .falseGuard_one (Nat.succ_pos L)⟩

theorem State.IssuesBy.alu2 {L g} {f : FS3} :
    s.IssuesBy (Ctx.WritesRegister s.cur.slot (sDest f.d) keep) (Machine.alu2 L g f s) := by
  refine .slotRun_fxS fun u hu => ?_
  simp only [try_bind_ok] at hu
  obtain ⟨-, -, ⟨a, s1⟩, ha, ⟨b, s2⟩, hb, hu⟩ := hu
  obtain rfl := Except.ok.inj hu
  exact ((State.Updates.read ha).read_after hb).writeS

/-- A division may take the divider. -/
theorem State.IssuesBy.divide {g} {f : FS3} (hk : ¬ keep) :
    s.IssuesBy (Ctx.WritesRegister s.cur.slot (sDest f.d) keep) (Machine.divide g f s) := by
  refine .slotRun_fxS fun u hu => ?_
  simp only [try_bind_ok] at hu
  obtain ⟨-, -, ⟨a, s1⟩, ha, ⟨b, s2⟩, hb, -, -, hu⟩ := hu
  obtain rfl := Except.ok.inj hu
  refine (State.Updates.trans Ctx.WritesRegister.trans ((State.Updates.read ha).read_after hb) (.modMe ?_)).writeS
  exact .divider hk

theorem State.IssuesBy.alu1 {gd w d o g} :
    s.IssuesBy (Ctx.WritesRegister s.cur.slot (sDest d) keep) (Machine.alu1 gd w d o g s) := by
  refine .slotRun_fxS fun u hu => ?_
  simp only [try_bind_ok] at hu
  obtain ⟨-, -, ⟨a, s1⟩, ha, hu⟩ := hu
  obtain rfl := Except.ok.inj hu
  exact (State.Updates.read ha).writeS

theorem State.IssuesBy.sel {f : FSel} : s.IssuesBy (Ctx.WritesRegister s.cur.slot (sDest f.d) keep) (execSel f s) := by
  refine .slotRun_fxS fun u hu => ?_
  simp only [try_bind_ok] at hu
  obtain ⟨-, -, ⟨a, s1⟩, ha, ⟨b, s2⟩, hb, hu⟩ := hu
  obtain rfl := Except.ok.inj hu
  exact ((State.Updates.read ha).read_after hb).writeS

theorem State.IssuesBy.movi {f : FSL} : s.IssuesBy (Ctx.WritesRegister s.cur.slot (sDest f.d) keep) (execMovi f s) := by
  refine .slotRun_fxS fun u hu => ?_
  simp only [try_bind_ok] at hu
  obtain ⟨-, -, hu⟩ := hu
  obtain rfl := Except.ok.inj hu
  exact .own

theorem State.IssuesBy.movsh {f : FSL} : s.IssuesBy (Ctx.WritesRegister s.cur.slot (sDest f.d) keep) (execMovsh f s) := by
  refine .slotRun_fxS fun u hu => ?_
  simp only [try_bind_ok] at hu
  obtain ⟨v, -, hu⟩ := hu
  obtain rfl := Except.ok.inj hu
  exact .own

theorem State.IssuesBy.gquery {f : FS2} : s.IssuesBy (Ctx.WritesRegister s.cur.slot (sDest f.d) keep) (execGquery f s) := by
  refine .slotRun_fxS fun u hu => ?_
  simp only [try_bind_ok] at hu
  obtain ⟨-, -, ⟨a, s1⟩, ha, g, -, hu⟩ := hu
  obtain rfl := Except.ok.inj hu
  exact (State.Updates.read ha).writeS

theorem State.IssuesBy.lblget {f : FS2} : s.IssuesBy (Ctx.WritesRegister s.cur.slot (sDest f.d) keep) (execLblget f s) := by
  refine .slotRun_fxS fun u hu => ?_
  simp only [try_bind_ok] at hu
  obtain ⟨-, -, ⟨a, s1⟩, ha, hu⟩ := hu
  obtain rfl := Except.ok.inj hu
  exact (State.Updates.read ha).writeS

/-- Every form that writes one s register; a division alone takes the divider. -/
theorem State.IssuesBy.scalar {i : Instr} {d : Dest} (h : scalarDest i = some d) :
    s.IssuesBy (Ctx.WritesRegister s.cur.slot d (∀ f, i ≠ .div f ∧ i ≠ .divu f ∧ i ≠ .rem f ∧ i ≠ .remu f)) (exec i s) := by
  cases i
  all_goals try obtain rfl := Option.some.inj h
  case add | sub | mul | mulh | mulhu | and | or | xor | shl | shr | sar | min | max | minu | maxu => exact .alu2
  case andn =>
    simp only [exec, execAndn]
    exact .alu2
  case div f => exact .divide fun hk => (hk f).1 rfl
  case divu f => exact .divide fun hk => (hk f).2.1 rfl
  case rem f => exact .divide fun hk => (hk f).2.2.1 rfl
  case remu f => exact .divide fun hk => (hk f).2.2.2 rfl
  case clz | ctz | popc => exact .alu1
  case addi | andi | ori | xori | shli | shri | sari =>
    simp only [exec, execAddi, execAndi, execOri, execXori, execShli, execShri, execSari]
    exact .alu1
  case sel => exact .sel
  case movi => exact .movi
  case movsh => exact .movsh
  case gquery => exact .gquery
  case lblget => exact .lblget
  all_goals cases h

end

/-! ## What a predicate result may change -/

/-- Nothing of a context but results for p[n], LATCHLOST, and what the nullifier sees. -/
structure Ctx.WritesPred (n : Nat) (x y : Ctx) : Prop where
  rest : y = { x with flight := y.flight, latchlost := y.latchlost, predWrite := y.predWrite }
  flight : ∀ e ∈ y.flight, e ∈ x.flight ∨ (e.dest = .pred n ∧ e.vis = x.cycle + 1)

namespace Ctx.WritesPred
variable {n : Nat}

theorem refl (x : Ctx) : WritesPred n x x := ⟨rfl, fun _ => .inl⟩

theorem lost (x : Ctx) : WritesPred n x { x with latchlost := true } := ⟨rfl, fun _ => .inl⟩

theorem trans (x y z : Ctx) (h : WritesPred n x y) (g : WritesPred n y z) : WritesPred n x z := by
  have hcycle : y.cycle = x.cycle := by rw [h.rest]
  refine ⟨by rw [g.rest, h.rest], fun e he => ?_⟩
  exact (g.flight e he).elim (h.flight e) fun hn => .inr (hcycle ▸ hn)

end Ctx.WritesPred

section
variable {s t u : State} {n : Nat}

theorem State.Updates.setPred {v : Bool} {m : Mask} : s.Updates (Ctx.WritesPred n) (s.setPred n v m) := by
  refine ⟨.inr ⟨_, State.modMe_modMe ..⟩, ?_⟩
  rw [State.setPred_me]
  refine ⟨rfl, fun e he => (List.mem_append.mp he).imp_right fun he => ?_⟩
  obtain rfl := List.mem_singleton.mp he
  exact ⟨rfl, rfl⟩

theorem State.Updates.falseGuard_pred {gd : Guard} {pd : BitVec 3} :
    s.Updates (Ctx.WritesPred pd.toNat) (s.falseGuard gd (fxPred pd s)) := by
  by_cases hm : (s.me.pred gd.g.toNat).mask = 0
  · rw [State.falseGuard_zero hm]
    exact .same (.refl _)
  · rw [State.falseGuard_modMe hm]
    refine .modMe ⟨rfl, fun e he => (List.mem_append.mp he).imp_right fun he => ?_⟩
    obtain ⟨p, hp, rfl⟩ := List.mem_map.mp he
    obtain rfl := List.mem_singleton.mp hp
    exact ⟨rfl, rfl⟩

/-- A form that writes a predicate issues by its body, or propagates its guard's mask to that predicate. -/
theorem State.IssuesBy.slotRun_fxPred {gd : Guard} {pd : BitVec 3} {body : State → Try State}
    (h : ∀ u, body s = .ok u → s.Updates (Ctx.WritesPred pd.toNat) u) :
    s.IssuesBy (Ctx.WritesPred pd.toNat) (slotRun gd (fxPred pd) body s) := by
  intro t ht hv
  obtain ⟨u, hu, rfl⟩ | rfl := slotRun_issued ht hv
  · exact ⟨u, rfl, h u hu⟩
  · exact ⟨_, rfl, .falseGuard_pred⟩

theorem State.IssuesBy.cmp {f : FPC} : s.IssuesBy (Ctx.WritesPred f.pd.toNat) (execCmp f s) := by
  refine .slotRun_fxPred fun u hu => ?_
  simp only [try_bind_ok] at hu
  obtain ⟨⟨a, s1⟩, ha, ⟨b, s2⟩, hb, hu⟩ := hu
  obtain rfl := Except.ok.inj hu
  have reads : s.Updates (Ctx.WritesPred f.pd.toNat) s2 :=
    (State.Updates.opnd .refl .lost ha).trans Ctx.WritesPred.trans (.opnd .refl .lost hb)
  refine reads.trans Ctx.WritesPred.trans ?_
  cases f.comb <;> exact .setPred

theorem State.IssuesBy.plog {f : FPL} : s.IssuesBy (Ctx.WritesPred f.pd.toNat) (execPlog f s) := by
  refine .slotRun_fxPred fun u hu => ?_
  obtain rfl := Except.ok.inj hu
  exact .setPred

end

/-- Settles O27: an issue updates the context in focus as its form writes a register or a predicate, and nothing else. -/
theorem scalarRegisterFrame : Obligations.ScalarRegisterFrame := by
  unfold Obligations.ScalarRegisterFrame
  refine ⟨fun i d s t hd ht hv => ?register, fun i pd s t hi ht hv => ?predicate⟩
  case register =>
    obtain ⟨u, rfl, h⟩ := State.IssuesBy.scalar hd t ht hv
    obtain ⟨hrest, hflight, hlatches, hdiv⟩ := h.me
    exact ⟨h.onlyMyContext _, h.peek, hrest, hflight, hlatches, hdiv⟩
  case predicate =>
    have issues : s.IssuesBy (Ctx.WritesPred pd.toNat) (exec i s) := by
      obtain ⟨f, rfl, rfl⟩ | ⟨f, rfl, rfl⟩ := hi
      · exact .cmp
      · exact .plog
    obtain ⟨u, rfl, h⟩ := issues t ht hv
    obtain ⟨hrest, hflight⟩ := h.me
    exact ⟨h.onlyMyContext _, h.peek, hrest, hflight⟩

end Sys2Proof.Machine
end

section
/-! SUPPORT. Accesses of slot 0 to memory (R116, R117, R120, R123, R196, R197, R200, R201, R203, R410): the checks that each begins with,
what they end in, and what the access does when they pass. -/

namespace Sys2Proof.Machine

/-! ## The answer of an attempt whose guard is true -/

/-- The state that the attempt leaves, or its end. -/
def State.ends (s : State) : Try State → Out
  | .ok t => .next (t.verdict .issued)
  | .error h => .next (s.halt h)

@[simp] theorem State.ends_ok (s t : State) : s.ends (.ok t) = .next (t.verdict .issued) := rfl
@[simp] theorem State.ends_error (s : State) (h : Halt) : s.ends (.error h) = .next (s.halt h) := rfl

theorem slotRun_ends {gd : Guard} {fx : State → FalseFx} {body : State → Try State} {s : State} (hg : s.me.holds gd = true) :
    slotRun gd fx body s = s.ends (body s) := by
  rw [slotRun, if_pos hg]
  cases body s <;> rfl

theorem accessRun_ends {gd : Guard} {fx : State → FalseFx} {body : State → Try State} {s : State} (hg : s.me.holds gd = true)
    (hl : s.ldaHolds = false) : accessRun gd fx body s = s.ends (body s) := by
  rw [accessRun_free hl, slotRun_ends hg]

/-! ## Looking up the stores (R120, R121) -/

/-- From `s` to `t` only the front stores and the miss tables of dies have changed. -/
structure State.LookedUp (s t : State) : Prop where
  rest : t = { s with fronts := t.fronts, dies := t.dies, freeCount := t.freeCount }
  die : ∀ d, (t.die d).store = (s.die d).store ∧ (t.die d).clk = (s.die d).clk ∧ (t.die d).replicas = (s.die d).replicas

namespace State.LookedUp
variable {s t u : State}

theorem refl (s : State) : s.LookedUp s := ⟨rfl, fun _ => ⟨rfl, rfl, rfl⟩⟩

theorem trans (h : s.LookedUp t) (g : t.LookedUp u) : s.LookedUp u := by
  refine ⟨by rw [g.rest, h.rest], fun d => ?_⟩
  obtain ⟨hs, hc, hr⟩ := h.die d
  obtain ⟨gs, gc, gr⟩ := g.die d
  exact ⟨gs.trans hs, gc.trans hc, gr.trans hr⟩

theorem fillFront (s : State) (cl : Nat) (e : StoreEntry) : s.LookedUp (s.fillFront cl e) := ⟨rfl, fun _ => ⟨rfl, rfl, rfl⟩⟩

/-- A miss enters the tables of its die alone. -/
theorem note (x : Die) (m : Miss) : (x.note m).store = x.store ∧ (x.note m).clk = x.clk ∧ (x.note m).replicas = x.replicas := by
  unfold Die.note
  split
  · exact ⟨rfl, rfl, rfl⟩
  split_ifs <;> exact ⟨rfl, rfl, rfl⟩

theorem modDie_note (s : State) (n : Nat) (m : Miss) : s.LookedUp (s.modDie n (fun x => x.note m)) := by
  refine ⟨rfl, fun d => ?_⟩
  rw [State.modDie_die]
  split
  · next h => exact h ▸ note _ m
  · exact ⟨rfl, rfl, rfl⟩

theorem lookPage (s : State) (core : Nat) (req : Option Nat) (va : Nat) : s.LookedUp (s.lookPage core req va) := by
  unfold State.lookPage
  dsimp only
  split
  · exact refl s
  split
  · exact fillFront ..
  · exact fillFront ..
  · exact modDie_note ..

theorem lookUp (s : State) (req : Option Nat) (va n : Nat) : s.LookedUp (s.lookUp req va n) :=
  List.foldlRecOn (motive := fun t => s.LookedUp t) _ _ (refl s) fun _ h a _ => h.trans (lookPage _ _ req a)

theorem cur (h : s.LookedUp t) : t.cur = s.cur := by rw [h.rest]

end State.LookedUp

@[simp] theorem State.lookUp_cur (s : State) (req : Option Nat) (va n : Nat) : (s.lookUp req va n).cur = s.cur :=
  (State.LookedUp.lookUp s req va n).cur

/-! ## The checks of an access (R116, R117, R123, R196, R410) -/

/-- What every load and store checks before a byte moves: alignment, the stores in deterministic mode, and its bytes. -/
def State.checks (s : State) (k : AKind) (va : Word) (n : Nat) (m : Mask) : Try (List Hit) := do
  aligned va n
  s.noMiss va.toNat n
  s.span k va n m

theorem aligned_ok {va : Word} {n : Nat} (h : va.toNat % n = 0) : aligned va n = .ok () := by
  simp [aligned, h]

theorem aligned_error {va : Word} {n : Nat} (h : va.toNat % n ≠ 0) : aligned va n = .error (.raise .misalign 0 va) := by
  rw [aligned, beq_eq_false_iff_ne.mpr h, must_false]

theorem State.noMiss_error {s : State} {va n : Nat} (h : s.noMiss va n ≠ .ok ()) :
    s.noMiss va n = .error (.raise .overrun 0 0) := by
  revert h
  unfold State.noMiss must
  split
  · exact fun h => absurd rfl h
  · exact fun _ => rfl

section
variable {s t : State} {k : AKind} {va : Word} {n : Nat} {m : Mask}

theorem State.checks_misaligned (h : va.toNat % n ≠ 0) : s.checks k va n m = .error (.raise .misalign 0 va) := by
  simp only [State.checks, aligned_error h, bind, Except.bind]

theorem State.checks_aligned (h : va.toNat % n = 0) (hm : s.noMiss va.toNat n = .ok ()) : s.checks k va n m = s.span k va n m := by
  simp only [State.checks, aligned_ok h, hm, bind, Except.bind]

theorem State.checks_misses (h : va.toNat % n = 0) (hm : s.noMiss va.toNat n ≠ .ok ()) :
    s.checks k va n m = .error (.raise .overrun 0 0) := by
  simp only [State.checks, aligned_ok h, State.noMiss_error hm, bind, Except.bind]

theorem State.checks_ok {hs : List Hit} : s.checks k va n m = .ok hs ↔
    va.toNat % n = 0 ∧ s.noMiss va.toNat n = .ok () ∧ s.span k va n m = .ok hs := by
  simp only [State.checks, try_bind_ok, aligned, must_ok, beq_iff_eq]
  exact ⟨fun ⟨_, ha, _, hm, hc⟩ => ⟨ha, hm, hc⟩, fun ⟨ha, hm, hc⟩ => ⟨(), ha, (), hm, hc⟩⟩

/-- An access that begins with its checks ends as the first that fails says. -/
theorem State.accessFails_ends (g : List Hit → Try State) : s.accessFails t k va n m (s.ends (t.checks k va n m >>= g)) := by
  have fails {e : Halt} (h : t.checks k va n m = .error e) : s.ends (t.checks k va n m >>= g) = .next (s.halt e) := by
    rw [h]
    rfl
  refine ⟨fun h => fails (State.checks_misaligned h), fun h hm => fails (State.checks_misses h hm), fun h hm => ?_⟩
  rw [State.checks_aligned h hm] at fails ⊢
  refine ⟨fun c a hc => fails (State.span_raise hc), fun hs hc hk => ⟨fun i he => fails (State.span_escape hk hc he), fun he ho => ?_⟩⟩
  have held := fails (State.span_overdue hk hc he ho)
  exact ⟨fun hdet => by rw [held, s.halt_stall.1 hdet], fun hdet => by rw [held, s.halt_stall.2 hdet]⟩

end

theorem State.load_eq (s : State) (va : Word) (n L : Nat) (wr : Bool) (d : Dest) (fmt : ReadFmt) (m : Mask) (acq : Bool) :
    s.load va n L wr d fmt m acq = s.checks .read va n 0 >>= fun hs =>
      .ok ((s.lookUp (some s.nextId) va.toNat n).loadBytes hs va L wr d fmt m acq) := by
  simp only [State.load, State.checks, bind_assoc]
  rfl

theorem State.store_eq (s : State) (va : Word) (n v : Nat) (m : Mask) (fe : Bool) :
    s.store va n v m fe = s.checks .write va n m >>= fun hs =>
      .ok ((s.lookUp (some s.nextId) va.toNat n).sendWrite s.cur.core s.cur.ctx true va (cellsOf hs v) m fe) := by
  simp only [State.store, State.checks, bind_assoc]
  rfl

/-- A span has a place for each byte. -/
theorem State.checkSpan_length {s : State} {a : Access} {va n : Nat} {hs : List Hit} (h : s.checkSpan a va n = .ok hs) :
    hs.length = n := by
  induction n generalizing va hs with
  | zero => rw [← Except.ok.inj h]; rfl
  | succ n ih =>
    rw [State.checkSpan] at h
    split at h
    · exact nomatch h
    split at h
    · exact nomatch h
    · next htail => rw [← Except.ok.inj h, List.length_cons, ih htail]

theorem State.span_length {s : State} {k : AKind} {va : Word} {n : Nat} {m : Mask} {hs : List Hit} (h : s.span k va n m = .ok hs) :
    hs.length = n :=
  State.checkSpan_length (State.span_ok.mp h).1

/-- The scaled offset of R197, signed. -/
theorem offAddr_eq (a : Word) (n : Nat) (off : BitVec 8) : offAddr a n off = a + BitVec.ofInt 64 (n * off.toInt) := by
  rw [offAddr, BitVec.ofInt_mul, BitVec.ofInt_natCast]
  rfl

/-! ## LD, LDS and ST (R197) -/

section
variable {s s1 : State} {a : Lab 64}

theorem scalarLoad_ends {f : FLd} {fmt : ReadFmt} (hg : s.me.holds f.gd = true) (hl : s.ldaHolds = false)
    (hd : s.destReady (sDest f.d) = .ok ()) (ha : s.opnd f.a = .ok (a, s1)) :
    scalarLoad f fmt s = s.ends (s1.load (offAddr a.val (sizeBytes f.size) f.off) (sizeBytes f.size) 4 f.w (sDest f.d) fmt
      (s.me.base f.gd ||| a.mask) false) := by
  rw [scalarLoad, accessRun_ends hg hl]
  simp only [hd, ha, bind, Except.bind]

theorem exec_st_ends {f : FSt} {v : Lab 64} (hg : s.me.holds f.gd = true) (hl : s.ldaHolds = false) (hv : s.dataReg f.d = .ok v)
    (ha : s.opnd f.a = .ok (a, s1)) :
    exec (.st f) s = s.ends (s1.store (offAddr a.val (sizeBytes f.size) f.off) (sizeBytes f.size) v.val.toNat
      (s.me.base f.gd ||| a.mask ||| v.mask) false) := by
  simp only [exec, execSt]
  rw [accessRun_ends hg hl]
  simp only [hv, ha, bind, Except.bind]

end

section
variable {s : State} {va : Word} {n : Nat} {m : Mask} {hs : List Hit}

/-- A store whose checks pass sends its bytes. -/
theorem State.store_ok {v : Nat} {fe : Bool} (ha : va.toNat % n = 0) (hm : s.noMiss va.toNat n = .ok ())
    (hc : s.span .write va n m = .ok hs) :
    let s2 := s.lookUp (some s.nextId) va.toNat n
    s.store va n v m fe = .ok (s2.sendWrite s2.cur.core s2.cur.ctx true va ((hs.map (·.pa)).zip (bytesOf n v)) m fe) := by
  intro s2
  rw [State.store_eq, State.checks_ok.mpr ⟨ha, hm, hc⟩, show s2.cur = s.cur from State.lookUp_cur ..]
  obtain rfl := State.span_length hc
  rfl

/-- A load whose checks pass reads its bytes. -/
theorem State.load_ok {L : Nat} {wr : Bool} {d : Dest} {fmt : ReadFmt} {acq : Bool} (ha : va.toNat % n = 0)
    (hm : s.noMiss va.toNat n = .ok ()) (hc : s.span .read va n 0 = .ok hs) :
    s.load va n L wr d fmt m acq = .ok ((s.lookUp (some s.nextId) va.toNat n).loadBytes hs va L wr d fmt m acq) := by
  rw [State.load_eq, State.checks_ok.mpr ⟨ha, hm, hc⟩]
  rfl

/-- From the own slice the value lands with the latency given. -/
theorem State.loadBytes_own {L : Nat} {wr : Bool} {d : Dest} {fmt : ReadFmt} (h : s.ownBytes hs = true) :
    s.loadBytes hs va L wr d fmt m false =
      (s.own L wr d (fmt.value (s.peeks (hs.map (·.pa)))) (m ||| s.hitsMask hs)).modMe (fun x =>
        { x with readVis := max x.readVis (x.cycle + (L + 1)) }) := by
  rw [State.loadBytes, if_pos h]
  rfl

/-- From elsewhere a pending read asks for it. -/
theorem State.loadBytes_asks {L : Nat} {wr : Bool} {d : Dest} {fmt : ReadFmt} (h : s.ownBytes hs = false) :
    s.loadBytes hs va L wr d fmt m false =
      s.request .mem (if wr then .nowhere else d) fmt (hs.map (fun h => some h.pa)) va (m ||| entryMasks hs) false (sealClock hs) := by
  rw [State.loadBytes, if_neg (by simp [h])]

end

/-- The bytes of the slots read one by one. -/
theorem State.peeks_pas (s : State) (hs : List Hit) : s.peeks (hs.map (·.pa)) = hs.map (fun h => s.peek h.pa) := by
  simp [State.peeks, Function.comp_def]

theorem ReadFmt.value_zx {n : Nat} {bs : List Byte} (h : bs.length = n) : (ReadFmt.zx n).value bs = BitVec.ofNat 1024 (leValue bs) := by
  rw [ReadFmt.value, List.take_of_length_le h.le]

theorem ReadFmt.value_sx {n : Nat} {bs : List Byte} (h : bs.length = n) :
    (ReadFmt.sx n).value bs = (BitVec.ofInt 64 (BitVec.ofNat (8 * n) (leValue bs)).toInt).setWidth 1024 := by
  rw [ReadFmt.value, List.take_of_length_le h.le]
  rfl

/-- Settles O6: the checks come first and end the access as `accessFails` says; then the load reads or asks, and the store sends. -/
theorem scalarLoadsAndStores : Obligations.ScalarLoadsAndStores := by
  unfold Obligations.ScalarLoadsAndStores
  refine ⟨fun f s s1 a hg hl hd ha => ?load, fun f s s1 v a hg hl hv ha => ?store⟩
  case load =>
    intro n va
    have exec_load (fmt : ReadFmt) :
        scalarLoad f fmt s = s.ends (s1.load va n 4 f.w (sDest f.d) fmt (s.me.base f.gd ||| a.mask) false) := by
      rw [scalarLoad_ends hg hl hd ha, offAddr_eq]
    have exec_ld := exec_load (.zx n)
    have exec_lds := exec_load (.sx n)
    refine ⟨?_, ?_, ?_⟩
    · show s.accessFails s1 .read va n 0 (scalarLoad f (.zx n) s)
      rw [exec_ld, State.load_eq]
      exact State.accessFails_ends _
    · show s.accessFails s1 .read va n 0 (scalarLoad f (.sx n) s)
      rw [exec_lds, State.load_eq]
      exact State.accessFails_ends _
    intro hs hal hm hc s2 m v lands asks
    have hlen : (hs.map (fun h => s2.peek h.pa)).length = n := by rw [List.length_map, State.span_length hc]
    rw [State.load_ok hal hm hc] at exec_ld exec_lds
    refine ⟨fun hown => ⟨?_, ?_⟩, fun hown => ⟨?_, ?_⟩⟩
    · rw [State.loadBytes_own hown, State.peeks_pas, ReadFmt.value_zx hlen] at exec_ld
      exact exec_ld
    · rw [State.loadBytes_own hown, State.peeks_pas, ReadFmt.value_sx hlen] at exec_lds
      exact exec_lds
    · rw [State.loadBytes_asks hown] at exec_ld
      exact exec_ld
    · rw [State.loadBytes_asks hown] at exec_lds
      exact exec_lds
  case store =>
    intro n va m
    have exec_st : exec (.st f) s = s.ends (s1.store va n v.val.toNat m false) := by
      rw [exec_st_ends hg hl hv ha, offAddr_eq]
    rw [exec_st]
    refine ⟨?_, fun hs hal hm hc => ?_⟩
    · rw [State.store_eq]
      exact State.accessFails_ends _
    · rw [State.store_ok hal hm hc]
      rfl

end Sys2Proof.Machine
end

section
/-! SUPPORT. LDFE, STFE and PLD (R196, R200, R201, R203): the checks of the address, and what the access does when they pass. -/

namespace Sys2Proof.Machine

/-! ## The address of a full-empty access (R200) -/

section
variable {va : Word}

theorem fullEmptyAddr_misaligned (h : va.toNat % 8 ≠ 0) : fullEmptyAddr va = .error (.raise .misalign 0 va) := by
  simp only [fullEmptyAddr, aligned_error h, bind, Except.bind]

variable (ha : va.toNat % 8 = 0)
include ha

theorem fullEmptyAddr_invalid (h : 2 ^ 56 ≤ va.toNat) : fullEmptyAddr va = .error (.raise .transInvalid 0 va) := by
  simp only [fullEmptyAddr, aligned_ok ha, decide_eq_false (not_lt.mpr h), must_false, bind, Except.bind]

variable (hv : va.toNat < 2 ^ 56)
include hv

theorem fullEmptyAddr_outside (h : inAperture va.toNat = false) : fullEmptyAddr va = .error (.raise .transTarget 0 va) := by
  simp only [fullEmptyAddr, aligned_ok ha, decide_eq_true hv, must_true, h, must_false, bind, Except.bind]

theorem fullEmptyAddr_ok (h : inAperture va.toNat = true) : fullEmptyAddr va = .ok () := by
  simp only [fullEmptyAddr, aligned_ok ha, decide_eq_true hv, must_true, h, bind, Except.bind]

end

/-- Eight aligned bytes of the aperture lie in one page and need no walk. -/
theorem State.noMiss_aperture {s : State} {va : Nat} (ha : va % 8 = 0) (h : inAperture va = true) : s.noMiss va 8 = .ok () := by
  have hpage : (va + 7) / 4096 - va / 4096 = 0 := by omega
  simp [State.noMiss, pageStarts, hpage, State.held, h]

/-- With its address checked, an access of the aperture has its span left to check. -/
theorem State.checks_aperture {s : State} {k : AKind} {va : Word} {m : Mask} (ha : va.toNat % 8 = 0) (h : inAperture va.toNat = true) :
    s.checks k va 8 m = s.span k va 8 m :=
  State.checks_aligned ha (State.noMiss_aperture ha h)

/-! ## LDFE (R200, R201) -/

/-- What LDFE does with the bytes of its granule: it takes a full one, waits for an empty one, and asks another slice. -/
def State.takeGranule (s : State) (f : FLdfe) (va : Word) (m : Mask) (hs : List Hit) : Try State :=
  if s.ownBytes hs then
    let pa := (hs.map (·.pa)).headD 0
    if !s.feReady pa then blocked 5
    else
      let got := s.loadBytes hs va 4 f.w (sDest f.d) (.zx 8) m false
      .ok (if f.clr then (got.setFull pa false).raiseBlock pa m else got)
  else .ok (s.request (.fe f.clr) (if f.w then .nowhere else sDest f.d) (.zx 8) (hs.map (fun h => some h.pa)) va m false)

section
variable {s s1 : State} {a : Lab 64}

theorem exec_ldfe_ends {f : FLdfe} (hg : s.me.holds f.gd = true) (hl : s.ldaHolds = false) (hd : s.destReady (sDest f.d) = .ok ())
    (ha : s.opnd f.a = .ok (a, s1)) :
    exec (.ldfe f) s = s.ends (fullEmptyAddr (offAddr a.val 8 f.off) >>= fun _ =>
      s1.span .read (offAddr a.val 8 f.off) 8 0 >>= s1.takeGranule f (offAddr a.val 8 f.off) (s.me.base f.gd ||| a.mask)) := by
  simp only [exec, execLdfe]
  rw [accessRun_ends hg hl]
  simp only [hd, ha, both_ok, bind, Except.bind]
  rfl

theorem exec_stfe_ends {f : FStfe} {v : Lab 64} (hg : s.me.holds f.gd = true) (hl : s.ldaHolds = false) (hv : s.dataReg f.d = .ok v)
    (ha : s.opnd f.a = .ok (a, s1)) :
    exec (.stfe f) s = s.ends (fullEmptyAddr (offAddr a.val 8 f.off) >>= fun _ =>
      s1.store (offAddr a.val 8 f.off) 8 v.val.toNat (s.me.base f.gd ||| a.mask ||| v.mask) true) := by
  simp only [exec, execStfe]
  rw [accessRun_ends hg hl]
  simp only [hv, ha, bind, Except.bind]

end

section
variable {s : State} {f : FLdfe} {va : Word} {m : Mask} {hs : List Hit}

theorem State.takeGranule_full (ho : s.ownBytes hs = true) (hr : s.feReady ((hs.map (·.pa)).headD 0) = true) :
    s.takeGranule f va m hs =
      let pa := (hs.map (·.pa)).headD 0
      let got := s.loadBytes hs va 4 f.w (sDest f.d) (.zx 8) m false
      .ok (if f.clr = true then (got.setFull pa false).raiseBlock pa m else got) := by
  simp only [State.takeGranule, ho, hr, if_true, Bool.not_true, Bool.false_eq_true, if_false]

theorem State.takeGranule_empty (ho : s.ownBytes hs = true) (hr : s.feReady ((hs.map (·.pa)).headD 0) = false) :
    s.takeGranule f va m hs = blocked 5 := by
  simp only [State.takeGranule, ho, hr, if_true, Bool.not_false]

theorem State.takeGranule_asks (ho : s.ownBytes hs = false) : s.takeGranule f va m hs =
    .ok (s.request (.fe f.clr) (if f.w then .nowhere else sDest f.d) (.zx 8) (hs.map (fun h => some h.pa)) va m false) := by
  simp only [State.takeGranule, ho, Bool.false_eq_true, if_false]

end

/-! ## PLD (R203) -/

/-- What PLD does at offset `o` of a bound window: eight bytes are asked for, those beyond the bound size being absent. -/
def State.readWindow (s : State) (f : FPld) (m : Mask) (o base size : Nat) : Try State := do
  let va := BitVec.ofNat 64 (base + o)
  let k := min 8 (size - o)
  must (o % 8 == 0 && (k == 0 || va.toNat % 8 == 0)) (.raise .misalign 0 va)
  if k ≠ 0 then s.noMiss va.toNat k
  let hs ← s.span .read va k 0
  let s := if k = 0 then s else s.lookUp (some s.nextId) va.toNat k
  let s := if k < 8 then s.modMe (fun x => { x with pwoob := true }) else s
  return s.request .mem (if f.w then .nowhere else sDest f.d) (.zx 8)
    (hs.map (fun h => some h.pa) ++ List.replicate (8 - k) none) va (m ||| entryMasks hs) false (sealClock hs)

/-- The window of the launch that a PLD names. -/
def State.windowOf (s : State) (win : Nat) : Option (Nat × Nat) :=
  (s.launchOf s.cur.core).bind (fun l => tfind l.windows win)

section
variable {f : FPld} {s s1 : State} {a : Lab 64} (hg : s.me.holds f.gd = true) (hl : s.ldaHolds = false)
  (hd : s.destReady (sDest f.d) = .ok ()) (ha : s.opnd f.a = .ok (a, s1))
include hg hl hd ha

theorem exec_pld_unbound (hw : s1.windowOf f.win.toNat = none) : exec (.pld f) s = .next (s.trapHere .paramUnbound 0 0) := by
  rw [State.windowOf] at hw
  simp only [exec, execPld]
  rw [accessRun_ends hg hl]
  simp only [hd, ha, hw, bind, Except.bind]
  rfl

theorem exec_pld_bound {base size : Nat} (hw : s1.windowOf f.win.toNat = some (base, size)) :
    exec (.pld f) s = s.ends (s1.readWindow f (s.me.base f.gd ||| a.mask) (a.val.toNat + 8 * f.off.toNat) base size) := by
  rw [State.windowOf] at hw
  simp only [exec, execPld]
  rw [accessRun_ends hg hl]
  simp only [hd, ha, hw, bind, Except.bind]
  rfl

end

/-- A span of no bytes passes every check. -/
theorem State.span_nil (s : State) (va : Word) : s.span .read va 0 0 = .ok [] := by
  refine State.span_ok.mpr ⟨rfl, fun _ => ⟨rfl, ?_⟩⟩
  have hwait (clk : Clock) : s.mustWait clk [] = false := by simp [State.mustWait, WriteReq.touches]
  have hatom (id core ctx : Nat) : s.atomOpen id core ctx [] = false := by
    simp only [State.atomOpen, List.any_eq_false]
    intro q _
    cases q.tgt <;> simp [meets]
  simp [State.overdue, hwait, hatom]

section
variable {f : FPld} {s : State} {m : Mask} {o base size : Nat}

theorem State.readWindow_misaligned
    (h : o % 8 ≠ 0 ∨ (o < size ∧ (BitVec.ofNat 64 (base + o)).toNat % 8 ≠ 0)) :
    s.readWindow f m o base size = .error (.raise .misalign 0 (BitVec.ofNat 64 (base + o))) := by
  have hfail : (o % 8 == 0 && (min 8 (size - o) == 0 || (BitVec.ofNat 64 (base + o)).toNat % 8 == 0)) = false := by
    rcases h with h | ⟨hin, h⟩
    · rw [beq_eq_false_iff_ne.mpr h, Bool.false_and]
    · rw [beq_eq_false_iff_ne.mpr h, beq_eq_false_iff_ne.mpr (show min 8 (size - o) ≠ 0 by omega), Bool.or_false, Bool.and_false]
  simp only [State.readWindow, hfail, must_false, bind, Except.bind]

variable (ho : o % 8 = 0) (hva : o < size → (BitVec.ofNat 64 (base + o)).toNat % 8 = 0)
include ho hva

theorem State.readWindow_ok {hs : List Hit} (hm : 0 < min 8 (size - o) → s.noMiss (BitVec.ofNat 64 (base + o)).toNat (min 8 (size - o)) = .ok ())
    (hc : s.span .read (BitVec.ofNat 64 (base + o)) (min 8 (size - o)) 0 = .ok hs) :
    let va := BitVec.ofNat 64 (base + o)
    let k := min 8 (size - o)
    let s2 := if k = 0 then s else s.lookUp (some s.nextId) va.toNat k
    let s3 := if k < 8 then s2.modMe (fun x => { x with pwoob := true }) else s2
    s.readWindow f m o base size = .ok (s3.request .mem (if f.w then .nowhere else sDest f.d) (.zx 8)
      (hs.map (fun h => some h.pa) ++ List.replicate (8 - k) none) va (m ||| entryMasks hs) false (sealClock hs)) := by
  have hpass : (o % 8 == 0 && (min 8 (size - o) == 0 || (BitVec.ofNat 64 (base + o)).toNat % 8 == 0)) = true := by
    rw [beq_iff_eq.mpr ho, Bool.true_and, Bool.or_eq_true, beq_iff_eq, beq_iff_eq]
    exact (Nat.eq_zero_or_pos (min 8 (size - o))).imp_right fun hk => hva (by omega)
  intro va k
  simp only [State.readWindow, hpass, must_true, hc, bind, Except.bind]
  by_cases hk : k = 0
  · rw [if_neg (not_not.mpr hk)]
    rfl
  · rw [if_pos hk, hm (Nat.pos_of_ne_zero hk)]
    rfl

end

/-! ## The three forms together -/

/-- The clauses of an access whose address is checked first (R200): each check that fails, and then those of the bytes. -/
theorem fullEmpty_fails {s s1 : State} {va : Word} {k : AKind} {m : Mask} {o : Out} {body : Try State} {g : List Hit → Try State}
    (ho : o = s.ends (fullEmptyAddr va >>= fun _ => body)) (hb : inAperture va.toNat = true → va.toNat % 8 = 0 → body = s1.checks k va 8 m >>= g) :
    (va.toNat % 8 ≠ 0 → o = .next (s.trapHere .misalign 0 va)) ∧
    (va.toNat % 8 = 0 → 2 ^ 56 ≤ va.toNat → o = .next (s.trapHere .transInvalid 0 va)) ∧
    (va.toNat % 8 = 0 → va.toNat < 2 ^ 56 →
      (inAperture va.toNat = false → o = .next (s.trapHere .transTarget 0 va)) ∧
      (inAperture va.toNat = true → o = s.ends body ∧ s.accessFails s1 k va 8 m o)) := by
  subst ho
  refine ⟨fun h => ?_, fun ha h => ?_, fun ha hv => ⟨fun h => ?_, fun h => ?_⟩⟩
  · rw [fullEmptyAddr_misaligned h]; rfl
  · rw [fullEmptyAddr_invalid ha h]; rfl
  · rw [fullEmptyAddr_outside ha hv h]; rfl
  · rw [fullEmptyAddr_ok ha hv h]
    refine ⟨rfl, ?_⟩
    show s.accessFails s1 k va 8 m (s.ends body)
    rw [hb h ha]
    exact State.accessFails_ends g

/-- Settles O7: the address and the bytes are checked in their order; then each form by what it does with bytes that pass. -/
theorem fullEmptyAndParameterLoads : Obligations.FullEmptyAndParameterLoads := by
  unfold Obligations.FullEmptyAndParameterLoads
  refine ⟨fun f s s1 a hg hl hd ha => ?ldfe, fun f s s1 v a hg hl hv ha => ?stfe, fun f s s1 a hg hl hd ha => ?pld⟩
  case ldfe =>
    intro va m
    have hexec := exec_ldfe_ends hg hl hd ha
    rw [show offAddr a.val 8 f.off = va from offAddr_eq ..] at hexec
    obtain ⟨hmis, hinv, hin⟩ := fullEmpty_fails (k := .read) (m := 0) (s1 := s1) hexec fun h h8 => by rw [State.checks_aperture h8 h]
    refine ⟨hmis, hinv, fun h8 hv => ⟨(hin h8 hv).1, fun h => ((hin h8 hv).2 h).2, ?_⟩⟩
    intro hs h hc pa got
    have hbody : exec (.ldfe f) s = s.ends (s1.takeGranule f va m hs) := by
      rw [((hin h8 hv).2 h).1, hc]
      rfl
    rw [hbody]
    refine ⟨fun ho hr => ?_, fun ho hr hdet => ?_, fun ho hr hdet => ?_, fun ho => ?_⟩
    · rw [State.takeGranule_full ho hr]; rfl
    · rw [State.takeGranule_empty ho hr, ← State.halt_block hdet (by decide)]; rfl
    · rw [State.takeGranule_empty ho hr, ← State.halt_block_det (n := 5) hdet]; rfl
    · rw [State.takeGranule_asks ho]; rfl
  case stfe =>
    intro va m
    have hexec := exec_stfe_ends hg hl hv ha
    rw [show offAddr a.val 8 f.off = va from offAddr_eq ..] at hexec
    obtain ⟨hmis, hinv, hin⟩ := fullEmpty_fails hexec fun _ _ => State.store_eq ..
    refine ⟨hmis, hinv, fun h8 hv => ⟨(hin h8 hv).1, fun h => ((hin h8 hv).2 h).2, fun hs h hm hc => ?_⟩⟩
    rw [((hin h8 hv).2 h).1, State.store_ok h8 hm hc]
    rfl
  case pld =>
    intro o window
    refine ⟨exec_pld_unbound hg hl hd ha, fun base size hw => ?_⟩
    have hexec := exec_pld_bound hg hl hd ha hw
    intro va k dest
    rw [hexec]
    have reads (hs : List Hit) (ho : o % 8 = 0) (hva : o < size → va.toNat % 8 = 0) (hm : 0 < k → s1.noMiss va.toNat k = .ok ())
        (hc : s1.span .read va k 0 = .ok hs) := congrArg s.ends (State.readWindow_ok (f := f) (m := s.me.base f.gd ||| a.mask) ho hva hm hc)
    refine ⟨fun h => ?_, fun hin h => ?_, fun ho hout => ?_, reads⟩
    · rw [State.readWindow_misaligned (.inl h)]; rfl
    · rw [State.readWindow_misaligned (.inr ⟨hin, h⟩)]; rfl
    · have hk : k = 0 := by simp only [k]; omega
      have hnil : s1.span .read va k 0 = .ok [] := hk ▸ s1.span_nil va
      refine (reads [] ho (fun h => absurd h (by omega)) (fun h => absurd hk h.ne') hnil).trans ?_
      have hmask : s.me.base f.gd ||| a.mask ||| entryMasks [] = s.me.base f.gd ||| a.mask := BitVec.or_zero
      rw [hmask, show min 8 (size - o) = 0 from hk]
      rfl

end Sys2Proof.Machine
end

section
/-! SUPPORT. Where the bytes of an access lie (R104, R109, R116, R117): an aligned access of up to eight bytes lies in one slice or in none,
and its bytes follow one another there. -/

namespace Sys2Proof.Machine

/-! ## Slices (R104, R109) -/

theorem regionOf_eq_slice {pa c off : Nat} : regionOf pa = .slice c off ↔
    pa < 0x80000000 ∧ pa % 0x2000000 < sliceBytes ∧ pa / 0x2000000 = c ∧ pa % 0x2000000 = off := by
  constructor
  · intro h
    unfold regionOf at h
    dsimp only at h
    (repeat' split at h) <;> simp only [reduceCtorEq, Region.slice.injEq] at h
    next hlt hoff => exact ⟨hlt, hoff, h⟩
  · rintro ⟨hlt, hoff, rfl, rfl⟩
    unfold regionOf
    rw [if_pos hlt, if_pos hoff]

theorem sliceOf_eq_some {pa c : Nat} :
    sliceOf pa = some c ↔ pa < 0x80000000 ∧ pa % 0x2000000 < sliceBytes ∧ pa / 0x2000000 = c := by
  have region : sliceOf pa = some c ↔ ∃ off, regionOf pa = .slice c off := by
    unfold sliceOf
    split <;> simp_all
  rw [region]
  simp only [regionOf_eq_slice, exists_and_left, exists_eq', and_true]

theorem sliceOf_eq_none {pa : Nat} (h : 0x80000000 ≤ pa) : sliceOf pa = none := by
  cases hs : sliceOf pa with
  | none => rfl
  | some c => exact absurd (sliceOf_eq_some.mp hs).1 (by omega)

theorem regionOf_of_sliceOf {pa c : Nat} (h : sliceOf pa = some c) : regionOf pa = .slice c (pa % 0x2000000) := by
  obtain ⟨hlt, hoff, hc⟩ := sliceOf_eq_some.mp h
  exact regionOf_eq_slice.mpr ⟨hlt, hoff, hc, rfl⟩

theorem homeDie_of_sliceOf {pa c : Nat} (h : sliceOf pa = some c) : homeDie pa ≠ none := by
  simp [homeDie, regionOf_of_sliceOf h]

/-- An aperture address goes to its offset in a slice, and so do the others of its part of the aperture. -/
theorem aperture_ok {cores : List Nat} {own va pa : Nat} (h : aperture cores own va = .ok pa) :
    ∃ c, pa = slicePa c (va % 0x2000000) ∧ va % 0x2000000 < sliceBytes ∧
      ∀ v q, v / 0x2000000 = va / 0x2000000 → aperture cores own v = .ok q →
        q = slicePa c (v % 0x2000000) ∧ v % 0x2000000 < sliceBytes := by
  have same {v : Nat} (hv : v / 0x2000000 = va / 0x2000000) : v / 0x80000000 = va / 0x80000000 := by omega
  unfold aperture at h ⊢
  dsimp only at h ⊢
  split_ifs at h with hoff hself hi
  · exact ⟨own, (Except.ok.inj h).symm, not_le.mp hoff, fun v q hv hq => by
      rw [same hv, hv, if_pos hself, if_pos hi] at hq
      split_ifs at hq with hoff'
      exact ⟨(Except.ok.inj hq).symm, not_le.mp hoff'⟩⟩
  · split at h
    · next c hc =>
      exact ⟨c, (Except.ok.inj h).symm, not_le.mp hoff, fun v q hv hq => by
        rw [same hv, hv, if_neg hself, hc] at hq
        split_ifs at hq with hoff'
        exact ⟨(Except.ok.inj hq).symm, not_le.mp hoff'⟩⟩
    · exact nomatch h

/-! ## Bytes that pass their checks (R116) -/

/-- The bytes of ports and windows have names outside the slices. -/
theorem State.sliceOf_linear {s : State} {pa : Nat} (h : admits false pa = true) : sliceOf (s.linear pa) = none := by
  have above : 0x80000000 ≤ pa := by
    by_contra hlt
    by_cases hoff : pa % 0x2000000 < sliceBytes
    · have hr : regionOf pa = .slice _ _ := regionOf_eq_slice.mpr ⟨not_le.mp hlt, hoff, rfl, rfl⟩
      simp [admits, hr] at h
    · have hr : regionOf pa = .unassigned := by rw [regionOf, if_pos (not_le.mp hlt), if_neg hoff]
      simp [admits, hr] at h
  unfold State.linear
  dsimp only
  split
  · split
    · exact sliceOf_eq_none above
    split
    · exact sliceOf_eq_none (by unfold portPa; omega)
    · exact sliceOf_eq_none above
  · exact sliceOf_eq_none above

section
variable {s : State} {a : Access} {va : Nat} {h : Hit} (hc : s.checkByte a va = .ok h)
include hc

theorem State.checkByte_aperture (hin : inAperture va = true) : aperture a.cores a.own va = .ok h.pa := by
  have hv : ¬ 0x100000000000000 ≤ va := by
    have := hin
    simp only [inAperture, beq_iff_eq] at this
    omega
  rw [State.checkByte, if_neg hv, if_pos hin] at hc
  split at hc
  · next pa hpa => rw [hpa, ← Except.ok.inj hc]
  · exact nomatch hc

/-- A byte that an entry translates lies in no slice. -/
theorem State.checkByte_outside (hin : inAperture va = false) (hcopy : a.copy = false) : sliceOf h.pa = none := by
  have hv : va < 0x100000000000000 := by
    by_contra hge
    rw [State.checkByte, if_pos (not_lt.mp hge)] at hc
    exact nomatch hc
  cases ht : (s.part a.part).translate va with
  | error e =>
    rw [State.checkByte, if_neg (not_le.mpr hv), if_neg (by simp [hin]), ht] at hc
    exact nomatch hc
  | ok x =>
    rw [State.checkByte_translated hv hin ht] at hc
    split_ifs at hc with hperm hadm happ hlab
    rw [← Except.ok.inj hc]
    exact State.sliceOf_linear (by simpa [hcopy] using hadm)

end

/-- Byte i of a span is checked at its own address. -/
theorem State.checkSpan_getElem {s : State} {a : Access} {va n : Nat} {hs : List Hit} (h : s.checkSpan a va n = .ok hs) (i : Nat)
    (hi : i < hs.length) : s.checkByte a ((va + i) % 2 ^ 64) = .ok hs[i] := by
  induction n generalizing va hs i with
  | zero =>
    obtain rfl := Except.ok.inj h
    exact absurd hi (Nat.not_lt_zero i)
  | succ n ih =>
    rw [State.checkSpan] at h
    split at h
    · exact nomatch h
    next b hb =>
      split at h
      · exact nomatch h
      next tl htl =>
        obtain rfl := Except.ok.inj h
        cases i with
        | zero => exact hb
        | succ i =>
          have := ih htl i (Nat.lt_of_succ_lt_succ hi)
          rwa [Nat.add_assoc, Nat.add_comm 1 i] at this

/-! ## Aligned accesses (R196, R197) -/

/-- The sizes of the accesses of slot 0. -/
def wordSizes : List Nat := [1, 2, 4, 8]

theorem sizeBytes_mem (z : MSize) : sizeBytes z ∈ wordSizes := by cases z <;> decide

theorem osizeBytes_mem (z : OSize) : osizeBytes z ∈ wordSizes := by cases z <;> decide

/-- An aligned access lies in one group of eight bytes. -/
theorem aligned_group {va n i : Nat} (hn : n ∈ wordSizes) (ha : va % n = 0) (hi : i < n) : (va + i) / 8 = va / 8 := by
  simp only [wordSizes, List.mem_cons, List.not_mem_nil, or_false] at hn
  rcases hn with rfl | rfl | rfl | rfl <;> omega

/-- An aligned span lies outside the slices, or its bytes follow one another in one slice or beyond the last. -/
theorem State.checkSpan_place {s : State} {a : Access} {va : Word} {n : Nat} {hs : List Hit} (hn : n ∈ wordSizes)
    (ha : va.toNat % n = 0) (hcopy : a.copy = false) (hc : s.checkSpan a va.toNat n = .ok hs) :
    (∀ h ∈ hs, sliceOf h.pa = none) ∨
    ∃ p, ∀ i (hi : i < hs.length), hs[i].pa = p + i ∧ sliceOf (p + i) = sliceOf p := by
  have hlen := State.checkSpan_length hc
  have byte (i : Nat) (hi : i < hs.length) : (va.toNat + i) / 8 = va.toNat / 8 ∧ s.checkByte a (va.toNat + i) = .ok hs[i] := by
    have hg := aligned_group hn ha (hlen ▸ hi)
    have := State.checkSpan_getElem hc i hi
    rw [Nat.mod_eq_of_lt (by have := va.isLt; omega)] at this
    exact ⟨hg, this⟩
  cases hin : inAperture va.toNat with
  | false =>
    refine .inl fun h hh => ?_
    obtain ⟨i, hi, rfl⟩ := List.getElem_of_mem hh
    obtain ⟨hg, hb⟩ := byte i hi
    refine State.checkByte_outside hb ?_ hcopy
    unfold inAperture at hin ⊢
    rwa [show (va.toNat + i) / 0x100000000 = va.toNat / 0x100000000 by omega]
  | true =>
    rcases Nat.eq_zero_or_pos hs.length with h0 | hpos
    · exact .inr ⟨0, fun i hi => absurd hi (by omega)⟩
    obtain ⟨-, hb0⟩ := byte 0 hpos
    obtain ⟨c, hp, hoff, hall⟩ := aperture_ok (State.checkByte_aperture hb0 hin)
    refine .inr ⟨slicePa c (va.toNat % 0x2000000), fun i hi => ?_⟩
    obtain ⟨hg, hb⟩ := byte i hi
    have hin' : inAperture (va.toNat + i) = true := by
      unfold inAperture at hin ⊢
      rwa [show (va.toNat + i) / 0x100000000 = va.toNat / 0x100000000 by omega]
    obtain ⟨hq, hqoff⟩ := hall (va.toNat + i) _ (by omega) (State.checkByte_aperture hb hin')
    have hpa : hs[i].pa = slicePa c (va.toNat % 0x2000000) + i := by
      rw [hq]
      unfold slicePa
      omega
    refine ⟨hpa, Option.ext fun k => ?_⟩
    have hsz : sliceBytes ≤ 0x2000000 := by decide
    simp only [sliceOf_eq_some]
    unfold slicePa
    omega

/-- The bytes of an aligned store lie in the own slice, at different addresses, or none of them lies there. -/
theorem State.span_own_or_away {s : State} {k : AKind} {va : Word} {n : Nat} {m : Mask} {hs : List Hit} (hn : n ∈ wordSizes)
    (ha : va.toNat % n = 0) (hc : s.span k va n m = .ok hs) :
    (s.ownBytes hs = true ∧ (∀ h ∈ hs, sliceOf h.pa = some s.cur.core) ∧ (hs.map (·.pa)).Nodup) ∨
    (s.ownBytes hs = false ∧ ∀ h ∈ hs, sliceOf h.pa ≠ some s.cur.core) := by
  have hspan := (State.span_ok.mp hc).1
  have hpos : 0 < hs.length := by
    rw [State.checkSpan_length hspan]
    revert hn
    simp only [wordSizes, List.mem_cons, List.not_mem_nil, or_false]
    omega
  have own_iff : s.ownBytes hs = true ↔ ∀ h ∈ hs, sliceOf h.pa = some s.cur.core := by
    simp [State.ownBytes]
  have away (h : ∀ h ∈ hs, sliceOf h.pa ≠ some s.cur.core) : s.ownBytes hs = false := by
    by_contra ho
    exact h _ (List.getElem_mem hpos) (own_iff.mp (Bool.not_eq_false _ ▸ ho) _ (List.getElem_mem hpos))
  rcases State.checkSpan_place hn ha rfl hspan with hout | ⟨p, hp⟩
  · have hno : ∀ h ∈ hs, sliceOf h.pa ≠ some s.cur.core := fun h hh => by simp [hout h hh]
    exact .inr ⟨away hno, hno⟩
  have place : ∀ h ∈ hs, sliceOf h.pa = sliceOf p := by
    intro h hh
    obtain ⟨i, hi, rfl⟩ := List.getElem_of_mem hh
    rw [(hp i hi).1, (hp i hi).2]
  by_cases hown : sliceOf p = some s.cur.core
  · have hall : ∀ h ∈ hs, sliceOf h.pa = some s.cur.core := fun h hh => (place h hh).trans hown
    refine .inl ⟨own_iff.mpr hall, hall, List.pairwise_iff_getElem.mpr fun i j hi hj hij => ?_⟩
    rw [List.length_map] at hi hj
    rw [List.getElem_map, List.getElem_map, (hp i hi).1, (hp j hj).1]
    omega
  · have hno : ∀ h ∈ hs, sliceOf h.pa ≠ some s.cur.core := fun h hh => place h hh ▸ hown
    exact .inr ⟨away hno, hno⟩

end Sys2Proof.Machine
end

section
/-! SUPPORT. The frame of the stores of slot 0 (R197, R201, R354, R372, R377): a write leaves its core, and one of the own slice is
performed at once; what else may change, and what the memory reads afterwards. -/

namespace Sys2Proof.Machine

/-! ## What of a core a write touches (R104, R201, R354) -/

section
variable {α : Type} {g : Core → α}

theorem State.poke_core_read (hg : ∀ k t, g { k with slice := t } = g k) (s : State) (pa : Nat) (b : Byte) (d : Nat) :
    g ((s.poke pa b).core d) = g (s.core d) := by
  unfold State.poke
  split
  · exact State.modCore_core_read (fun k => hg k _) s _ d
  all_goals rfl

theorem State.pokes_core_read (hg : ∀ k t, g { k with slice := t } = g k) (cs : List Host.Cell) (s : State) (d : Nat) :
    g ((s.pokes cs).core d) = g (s.core d) := by
  induction cs generalizing s with
  | nil => rfl
  | cons c cs ih => exact (ih _).trans (State.poke_core_read hg s c.1 c.2 d)

theorem State.raiseBlock_core_read (hg : ∀ k t, g { k with bmask := t } = g k) (s : State) (pa : Nat) (m : Mask) (d : Nat) :
    g ((s.raiseBlock pa m).core d) = g (s.core d) := by
  unfold State.raiseBlock
  split
  · exact State.modCore_core_read (fun k => hg k _) s _ d
  · rfl

theorem State.setFull_core_read (hg : ∀ k t, g { k with fe := t } = g k) (s : State) (pa : Nat) (v : Bool) (d : Nat) :
    g ((s.setFull pa v).core d) = g (s.core d) := by
  unfold State.setFull
  split
  · exact State.modCore_core_read (fun k => hg k _) s _ d
  · rfl

end

/-- The walk over a list of addresses that skips one whose unit the next shares: what each step keeps, the whole keeps. -/
theorem State.raiseBlocks_keeps {P : State → Prop} (m : Mask) {pas : List Nat} (hP : ∀ s, ∀ a ∈ pas, P s → P (s.raiseBlock a m))
    {s : State} (h : P s) : P (s.raiseBlocks m pas) := by
  induction pas generalizing s with
  | nil => exact h
  | cons a as ih =>
    have rest {t : State} (ht : P t) : P (t.raiseBlocks m as) := ih (fun s b hb => hP s b (List.mem_cons_of_mem a hb)) ht
    cases as with
    | nil => exact hP s a List.mem_cons_self h
    | cons b bs =>
      unfold State.raiseBlocks
      split
      · exact rest h
      · exact rest (hP s a List.mem_cons_self h)

theorem State.setFulls_keeps {P : State → Prop} (v : Bool) {pas : List Nat} (hP : ∀ s, ∀ a ∈ pas, P s → P (s.setFull a v))
    {s : State} (h : P s) : P (s.setFulls v pas) := by
  induction pas generalizing s with
  | nil => exact h
  | cons a as ih =>
    have rest {t : State} (ht : P t) : P (t.setFulls v as) := ih (fun s b hb => hP s b (List.mem_cons_of_mem a hb)) ht
    cases as with
    | nil => exact hP s a List.mem_cons_self h
    | cons b bs =>
      unfold State.setFulls
      split
      · exact rest h
      · exact rest (hP s a List.mem_cons_self h)

/-! ## Block masks and full-empty bits elsewhere -/

theorem tget_tset_other {α : Type} [DecidableEq α] (d : α) (t : Table α) {n m : Nat} (x : α) (h : m ≠ n) :
    tget d (tset d t n x) m = tget d t m := by
  unfold tset
  split
  · induction t with
    | nil => rfl
    | cons e t ih =>
      simp only [terase]
      split
      · next hn => rw [tget, if_neg (hn ▸ h)]
      · rw [tget, tget, ih]
  · rw [tget_tput, if_neg h]

theorem State.blockMask_congr {s t : State} (h : ∀ c, (t.core c).bmask = (s.core c).bmask) (pa : Nat) :
    t.blockMask pa = s.blockMask pa := by
  unfold State.blockMask
  split
  · rw [h]
  · rfl

theorem State.fullBit_congr {s t : State} (h : ∀ c, (t.core c).fe = (s.core c).fe) (pa : Nat) : t.fullBit pa = s.fullBit pa := by
  unfold State.fullBit
  split
  · rw [h]
  · rfl

theorem State.raiseBlock_blockMask_other (s : State) {pa a : Nat} (m : Mask) (h : pa / 4096 ≠ a / 4096) :
    (s.raiseBlock a m).blockMask pa = s.blockMask pa := by
  unfold State.raiseBlock
  split
  · next c off ha =>
    unfold State.blockMask
    split
    · next c' off' hpa =>
      rw [State.modCore_core]
      split
      · next hcc =>
        have hpa' := eq_slicePa_of_regionOf hpa
        have ha' := eq_slicePa_of_regionOf ha
        subst hcc
        refine tget_tset_other _ _ _ fun hoff => h ?_
        unfold slicePa at hpa' ha'
        omega
      · rfl
    · rfl
  · rfl

theorem State.setFull_fullBit_other (s : State) {pa a : Nat} (v : Bool) (h : pa / 16 ≠ a / 16) :
    (s.setFull a v).fullBit pa = s.fullBit pa := by
  unfold State.setFull
  split
  · next c off ha =>
    unfold State.fullBit
    split
    · next c' off' hpa =>
      rw [State.modCore_core]
      split
      · next hcc =>
        have hpa' := eq_slicePa_of_regionOf hpa
        have ha' := eq_slicePa_of_regionOf ha
        subst hcc
        refine tget_tset_other _ _ _ fun hoff => h ?_
        unfold slicePa at hpa' ha'
        omega
      · rfl
    · rfl
  · rfl

/-- A performed write raises masks in its own blocks alone. -/
theorem State.perform_blockMask_other (s : State) {pa : Nat} (cs : List Host.Cell) (m : Mask) (fe : Bool) (die : Nat) (stamp : Clock)
    (h : ∀ c ∈ cs, pa / 4096 ≠ c.1 / 4096) : (s.perform cs m fe die stamp).blockMask pa = s.blockMask pa := by
  have hraise : ((s.pokes cs).raiseBlocks m (cs.map (·.1))).blockMask pa = s.blockMask pa := by
    refine State.raiseBlocks_keeps (P := fun t => t.blockMask pa = s.blockMask pa) m (fun t a ha ht => ?_) ?_
    · obtain ⟨c, hc, rfl⟩ := List.mem_map.mp ha
      exact (t.raiseBlock_blockMask_other m (h c hc)).trans ht
    · exact State.blockMask_congr (State.pokes_core_read (g := Core.bmask) (fun _ _ => rfl) cs s) pa
  unfold State.perform
  cases fe with
  | false => exact hraise
  | true =>
    refine State.setFulls_keeps (P := fun t => t.blockMask pa = s.blockMask pa) true (fun t a _ ht => ?_) hraise
    exact (State.blockMask_congr (State.setFull_core_read (g := Core.bmask) (fun _ _ => rfl) t a true) pa).trans ht

/-- It sets full-empty bits of its own granules alone. -/
theorem State.perform_fullBit_other (s : State) {pa : Nat} (cs : List Host.Cell) (m : Mask) (fe : Bool) (die : Nat) (stamp : Clock)
    (h : ∀ c ∈ cs, pa / 16 ≠ c.1 / 16) : (s.perform cs m fe die stamp).fullBit pa = s.fullBit pa := by
  have hraise : ((s.pokes cs).raiseBlocks m (cs.map (·.1))).fullBit pa = s.fullBit pa := by
    refine State.raiseBlocks_keeps (P := fun t => t.fullBit pa = s.fullBit pa) m (fun t a _ ht => ?_) ?_
    · exact (State.fullBit_congr (State.raiseBlock_core_read (g := Core.fe) (fun _ _ => rfl) t a m) pa).trans ht
    · exact State.fullBit_congr (State.pokes_core_read (g := Core.fe) (fun _ _ => rfl) cs s) pa
  unfold State.perform
  cases fe with
  | false => exact hraise
  | true =>
    refine State.setFulls_keeps (P := fun t => t.fullBit pa = s.fullBit pa) true (fun t a ha ht => ?_) hraise
    obtain ⟨c, hc, rfl⟩ := List.mem_map.mp ha
    exact (t.setFull_fullBit_other true (h c hc)).trans ht

/-- Memory reads in `t` as in `s`: every byte, block mask and full-empty bit. -/
structure State.SameMemory (s t : State) : Prop where
  peek : ∀ pa, t.peek pa = s.peek pa
  blockMask : ∀ pa, t.blockMask pa = s.blockMask pa
  fullBit : ∀ pa, t.fullBit pa = s.fullBit pa
  memWf : s.memWf = true → t.memWf = true

namespace State.SameMemory
variable {s t u : State}

theorem refl (s : State) : s.SameMemory s := ⟨fun _ => rfl, fun _ => rfl, fun _ => rfl, id⟩

theorem trans (h : s.SameMemory t) (g : t.SameMemory u) : s.SameMemory u :=
  ⟨fun pa => (g.peek pa).trans (h.peek pa), fun pa => (g.blockMask pa).trans (h.blockMask pa),
    fun pa => (g.fullBit pa).trans (h.fullBit pa), fun hwf => g.memWf (h.memWf hwf)⟩

/-- With the same cores and memories it does. -/
theorem of_cores (hcores : t.cores = s.cores) (hstack : t.stack = s.stack) (hhost0 : t.host0 = s.host0) (hhost1 : t.host1 = s.host1)
    (hpeers : t.peers = s.peers) : s.SameMemory t := by
  have hcore (c : Nat) : t.core c = s.core c := by unfold State.core; rw [hcores]
  exact ⟨State.peek_congr (fun c => by rw [hcore]) hstack hhost0 hhost1 hpeers, State.blockMask_congr fun c => by rw [hcore],
    State.fullBit_congr fun c => by rw [hcore], fun h => State.memWf_of_eq h hstack hhost0 hhost1 hpeers hcores⟩

theorem lookedUp (h : s.LookedUp t) : s.SameMemory t := by
  apply of_cores
  all_goals rw [h.rest]

theorem modMe (s : State) (f : Ctx → Ctx) : s.SameMemory (s.modMe f) :=
  ⟨State.modCtx_peek s _ _ f, State.blockMask_congr (s.modCtx_core_read _ _ f (g := Core.bmask) fun _ => rfl),
    State.fullBit_congr (s.modCtx_core_read _ _ f (g := Core.fe) fun _ => rfl), State.modMe_memWf f⟩

end State.SameMemory

/-! ## The rest of the module -/

/-- What a replica owes after a write of cells. -/
def Replica.owe (r : Replica) (cs : List Host.Cell) (die : Nat) (stamp : Clock) : Replica :=
  let mine := cs.filter (fun c => c.1 / 64 == r.line)
  if mine.isEmpty then r else { r with queue := r.queue ++ [{ cells := mine, die := die, stamp := stamp }] }

theorem Replica.owe_holds (r : Replica) (cs : List Host.Cell) (die : Nat) (stamp : Clock) :
    ((r.owe cs die stamp).line, (r.owe cs die stamp).data) = (r.line, r.data) := by
  unfold Replica.owe
  dsimp only
  split <;> rfl

theorem State.queueReplicas_die (s : State) (cs : List Host.Cell) (die : Nat) (stamp : Clock) (d : Nat) :
    (s.queueReplicas cs die stamp).die d = { s.die d with replicas := (s.die d).replicas.map (·.owe cs die stamp) } :=
  tget_map (g := fun x : Die => { x with replicas := x.replicas.map (·.owe cs die stamp) }) rfl s.dies d

/-- From `s` to `t` nothing has changed but slices with their bits and masks, the open writes, the counters, the front stores, and of a
die its miss tables, what its replicas owe, and the clock of die `n`. -/
structure State.StoreFrame (n : Nat) (s t : State) : Prop where
  rest : t = { s with cores := t.cores, dies := t.dies, fronts := t.fronts, freeCount := t.freeCount, nextId := t.nextId,
                      writes := t.writes }
  core : ∀ c, t.core c = { s.core c with slice := (t.core c).slice, fe := (t.core c).fe, bmask := (t.core c).bmask }
  die : ∀ d, (t.die d).store = (s.die d).store ∧ (d ≠ n → (t.die d).clk = (s.die d).clk) ∧
    (t.die d).replicas.map (fun r => (r.line, r.data)) = (s.die d).replicas.map (fun r => (r.line, r.data))

namespace State.StoreFrame
variable {n : Nat} {s t u : State}

theorem refl (s : State) : s.StoreFrame n s := ⟨rfl, fun _ => rfl, fun _ => ⟨rfl, fun _ => rfl, rfl⟩⟩

theorem trans (h : s.StoreFrame n t) (g : t.StoreFrame n u) : s.StoreFrame n u := by
  refine ⟨by rw [g.rest, h.rest], fun c => by rw [g.core c, h.core c], fun d => ?_⟩
  obtain ⟨hs, hc, hr⟩ := h.die d
  obtain ⟨gs, gc, gr⟩ := g.die d
  exact ⟨gs.trans hs, fun hd => (gc hd).trans (hc hd), gr.trans hr⟩

theorem lookedUp (h : s.LookedUp t) : s.StoreFrame n t := by
  have hcores : t.cores = s.cores := by rw [h.rest]
  refine ⟨by rw [h.rest], fun c => by unfold State.core; rw [hcores], fun d => ?_⟩
  obtain ⟨hs, hc, hr⟩ := h.die d
  exact ⟨hs, fun _ => hc, by rw [hr]⟩

theorem stampUnless (s : State) (held : Bool) : s.StoreFrame n (s.stampUnless held n) := by
  cases held with
  | true => exact refl s
  | false =>
    refine ⟨rfl, fun _ => rfl, fun d => ?_⟩
    show ((s.stamp n).die d).store = _ ∧ (_ → ((s.stamp n).die d).clk = _) ∧ ((s.stamp n).die d).replicas.map _ = _
    rw [State.stamp, State.modDie_die]
    split
    · next h => exact ⟨by rw [h], fun hd => absurd h hd, by rw [h]⟩
    · exact ⟨rfl, fun _ => rfl, rfl⟩

theorem modCore (s : State) (c : Nat) {f : Core → Core}
    (hf : ∀ k, f k = { k with slice := (f k).slice, fe := (f k).fe, bmask := (f k).bmask }) : s.StoreFrame n (s.modCore c f) := by
  refine ⟨rfl, fun d => ?_, fun _ => ⟨rfl, fun _ => rfl, rfl⟩⟩
  rw [State.modCore_core]
  split
  · next h =>
    rw [h]
    exact hf _
  · rfl

/-- A byte of a slice. -/
theorem poke (s : State) {pa c : Nat} (b : Byte) (h : sliceOf pa = some c) : s.StoreFrame n (s.poke pa b) := by
  rw [State.poke, regionOf_of_sliceOf h]
  exact modCore s c fun _ => rfl

theorem pokes {cs : List Host.Cell} {c : Nat} (h : ∀ x ∈ cs, sliceOf x.1 = some c) (s : State) : s.StoreFrame n (s.pokes cs) := by
  induction cs generalizing s with
  | nil => exact refl s
  | cons x cs ih =>
    obtain ⟨hx, hcs⟩ := List.forall_mem_cons.mp h
    exact (poke s x.2 hx).trans (ih hcs _)

theorem raiseBlocks (m : Mask) (pas : List Nat) (s : State) : s.StoreFrame n (s.raiseBlocks m pas) := by
  refine State.raiseBlocks_keeps (P := fun t => s.StoreFrame n t) m (fun t a _ ht => ht.trans ?_) (refl s)
  unfold State.raiseBlock
  split
  · exact modCore t _ fun _ => rfl
  · exact refl t

theorem setFulls (v : Bool) (pas : List Nat) (s : State) : s.StoreFrame n (s.setFulls v pas) := by
  refine State.setFulls_keeps (P := fun t => s.StoreFrame n t) v (fun t a _ ht => ht.trans ?_) (refl s)
  unfold State.setFull
  split
  · exact modCore t _ fun _ => rfl
  · exact refl t

/-- Replicas of the lines owe the write, and hold what they held. -/
theorem queueReplicas (s : State) (cs : List Host.Cell) (die : Nat) (stamp : Clock) : s.StoreFrame n (s.queueReplicas cs die stamp) := by
  refine ⟨rfl, fun _ => rfl, fun d => ?_⟩
  rw [State.queueReplicas_die]
  refine ⟨rfl, fun _ => rfl, ?_⟩
  rw [List.map_map]
  exact List.map_congr_left fun r _ => r.owe_holds cs die stamp

theorem perform {cs : List Host.Cell} {c : Nat} (h : ∀ x ∈ cs, sliceOf x.1 = some c) (s : State) (m : Mask) (fe : Bool) (die : Nat)
    (stamp : Clock) : s.StoreFrame n (s.perform cs m fe die stamp) := by
  unfold State.perform
  refine (((pokes h s).trans (raiseBlocks m (cs.map (·.1)) _)).trans ?_).trans (queueReplicas ..)
  split
  · exact setFulls ..
  · exact refl _

end State.StoreFrame

/-! ## A write that leaves (R370, R372, R377) -/

/-- The request that a write leaves by. -/
def State.leaving (s : State) (core ctx : Nat) (ofCtx : Bool) (va : Word) (cs : List Host.Cell) (m : Mask) (fe own : Bool) : WriteReq :=
  let held := !own && s.acquiring s.nextId core ctx
  { id := s.nextId, core := core, ctx := ctx, ofCtx := ofCtx, va := va, cells := cs, raises := [], mask := m, fe := fe, clr := false,
    ent := none, die := dieOf core, stamp := if held then Clock.zero else ((s.stampUnless held (dieOf core)).die (dieOf core)).clk,
    performed := own, acked := own, applied := [], held := held }

/-- The state that a write leaves behind before it is performed anywhere. -/
def State.left (s : State) (core ctx : Nat) (w : WriteReq) : State :=
  let u := s.stampUnless (!w.performed && s.acquiring s.nextId core ctx) (dieOf core)
  { u with nextId := s.nextId + 1, writes := s.writes ++ [w] }

/-- A write to the own slice is performed as it leaves, another is not. -/
theorem State.sendWrite_cons (s : State) (core ctx : Nat) (o : Bool) (va : Word) (c : Host.Cell) (cs : List Host.Cell) (m : Mask)
    (fe : Bool) :
    let own := sliceOf c.1 == some core
    let w := s.leaving core ctx o va (c :: cs) m fe own
    s.sendWrite core ctx o va (c :: cs) m fe =
      if own then (s.left core ctx w).perform (c :: cs) m fe (dieOf core) w.stamp else s.left core ctx w := by
  have hid (held : Bool) (d : Nat) : (s.stampUnless held d).nextId = s.nextId ∧ (s.stampUnless held d).writes = s.writes := by
    cases held <;> exact ⟨rfl, rfl⟩
  intro own w
  simp only [State.sendWrite, State.left, State.leaving, hid, own, w]

section
variable (s : State) (core ctx : Nat) (w : WriteReq)

theorem State.left_cores : (s.left core ctx w).cores = s.cores := by
  unfold State.left State.stampUnless
  split <;> rfl

theorem State.left_frame : s.StoreFrame (dieOf core) (s.left core ctx w) :=
  (State.StoreFrame.stampUnless s _).trans ⟨rfl, fun _ => rfl, fun _ => ⟨rfl, fun _ => rfl, rfl⟩⟩

theorem State.left_sameMemory : s.SameMemory (s.left core ctx w) := by
  have hrest := (s.left_frame core ctx w).rest
  refine .of_cores (s.left_cores core ctx w) ?_ ?_ ?_ ?_
  all_goals rw [hrest]

end

section
variable {s : State} {core ctx : Nat} {o : Bool} {va : Word} {cells : List Host.Cell} {m : Mask} {fe : Bool} (hne : cells ≠ [])
include hne

theorem State.sendWrite_own (h : ∀ c ∈ cells, sliceOf c.1 = some core) : ∃ w,
    s.sendWrite core ctx o va cells m fe = (s.left core ctx w).perform cells m fe (dieOf core) w.stamp := by
  obtain ⟨c, cs, rfl⟩ := List.exists_cons_of_ne_nil hne
  refine ⟨_, (State.sendWrite_cons s core ctx o va c cs m fe).trans (if_pos ?_)⟩
  rw [h c List.mem_cons_self, beq_self_eq_true]

theorem State.sendWrite_away (h : ∀ c ∈ cells, sliceOf c.1 ≠ some core) : ∃ w,
    s.sendWrite core ctx o va cells m fe = s.left core ctx w := by
  obtain ⟨c, cs, rfl⟩ := List.exists_cons_of_ne_nil hne
  refine ⟨_, (State.sendWrite_cons s core ctx o va c cs m fe).trans (if_neg ?_)⟩
  rw [beq_eq_false_iff_ne.mpr (h c List.mem_cons_self)]
  exact Bool.false_ne_true

end

theorem State.perform_writes (s : State) (cs : List Host.Cell) (m : Mask) (fe : Bool) (die : Nat) (stamp : Clock) :
    (s.perform cs m fe die stamp).writes = s.writes :=
  (State.SameBytes.perform s cs m fe die stamp).writes.trans (State.SameTraffic.pokes cs s).writes

/-! ## The bytes of a store -/

theorem cellsOf_pas (hs : List Hit) (v : Nat) : (cellsOf hs v).map (·.1) = hs.map (·.pa) :=
  List.map_fst_zip (by simp)

theorem mem_cellsOf {hs : List Hit} {v : Nat} {c : Host.Cell} (h : c ∈ cellsOf hs v) : ∃ x ∈ hs, x.pa = c.1 := by
  have : c.1 ∈ (cellsOf hs v).map (·.1) := List.mem_map_of_mem h
  rw [cellsOf_pas] at this
  exact List.mem_map.mp this

/-- Where each cell reads its byte, the addresses read the bytes of the value. -/
theorem State.peeks_cellsOf {s : State} {hs : List Hit} {v : Nat} (h : ∀ c ∈ cellsOf hs v, s.peek c.1 = c.2) :
    s.peeks (hs.map (·.pa)) = bytesOf hs.length v := by
  have hbytes : (cellsOf hs v).map (·.2) = bytesOf hs.length v := List.map_snd_zip (by simp)
  rw [← cellsOf_pas hs v, ← hbytes, State.peeks, List.map_map]
  exact List.map_congr_left h

/-- What a store leaves of memory, given where its bytes lie. -/
structure State.Stores (s t : State) (hs : List Hit) (mine : Prop) (bytes : List Byte) : Prop where
  peek : ∀ pa, pa ∉ hs.map (·.pa) → t.peek pa = s.peek pa
  stored : mine → t.peeks (hs.map (·.pa)) = bytes
  away : ¬ mine → ∀ pa, t.peek pa = s.peek pa
  blockMask : ∀ pa, (∀ h ∈ hs, pa / 4096 ≠ h.pa / 4096) → t.blockMask pa = s.blockMask pa
  fullBit : ∀ pa, (∀ h ∈ hs, pa / 16 ≠ h.pa / 16) → t.fullBit pa = s.fullBit pa

section
variable {s : State} {ctx v : Nat} {o : Bool} {va : Word} {hs : List Hit} {m : Mask} {fe : Bool} (hne : hs ≠ [])
include hne

theorem cellsOf_ne_nil : cellsOf hs v ≠ [] := by
  intro h
  have := congrArg (List.map (·.1)) h
  rw [cellsOf_pas] at this
  exact hne (List.map_eq_nil_iff.mp this)

/-- A store of the own slice is performed as it leaves. -/
theorem State.sendWrite_stores {core : Nat} (hwf : s.memWf = true) (hown : ∀ h ∈ hs, sliceOf h.pa = some core)
    (hnd : (hs.map (·.pa)).Nodup) :
    let t := s.sendWrite core ctx o va (cellsOf hs v) m fe
    s.Stores t hs True (bytesOf hs.length v) ∧ s.StoreFrame (dieOf core) t ∧ ∃ w, t.writes = s.writes ++ [w] := by
  have hcells : ∀ c ∈ cellsOf hs v, sliceOf c.1 = some core := fun c hc => by
    obtain ⟨h, hh, e⟩ := mem_cellsOf hc
    exact e ▸ hown h hh
  have hhome : ∀ c ∈ cellsOf hs v, homeDie c.1 ≠ none := fun c hc => homeDie_of_sliceOf (hcells c hc)
  obtain ⟨w, hw⟩ := State.sendWrite_own (s := s) (ctx := ctx) (o := o) (va := va) (m := m) (fe := fe) (cellsOf_ne_nil hne) hcells
  have hmem := s.left_sameMemory core ctx w
  have hbytes := State.SameBytes.perform (s.left core ctx w) (cellsOf hs v) m fe (dieOf core) w.stamp
  intro t
  have ht : t = _ := hw
  refine ⟨⟨fun pa hpa => ?_, fun _ => ?_, fun h => absurd trivial h, fun pa hpa => ?_, fun pa hpa => ?_⟩, ?_, w, ?_⟩
  · rw [ht, hbytes.peek, State.peek_pokes_other (hmem.memWf hwf) hhome, hmem.peek]
    rintro c hc rfl
    obtain ⟨h, hh, e⟩ := mem_cellsOf hc
    exact hpa (List.mem_map.mpr ⟨h, hh, e⟩)
  · refine State.peeks_cellsOf fun c hc => ?_
    rw [ht, hbytes.peek]
    exact State.peek_pokes_mem (hmem.memWf hwf) hhome ((cellsOf_pas hs v).symm ▸ hnd) c hc
  · rw [ht, State.perform_blockMask_other, hmem.blockMask]
    intro c hc
    obtain ⟨h, hh, e⟩ := mem_cellsOf hc
    exact e ▸ hpa h hh
  · rw [ht, State.perform_fullBit_other, hmem.fullBit]
    intro c hc
    obtain ⟨h, hh, e⟩ := mem_cellsOf hc
    exact e ▸ hpa h hh
  · rw [ht]
    exact (s.left_frame core ctx w).trans (.perform hcells _ m fe _ _)
  · rw [ht, State.perform_writes]
    rfl

/-- Another store waits for its home, and memory reads as before. -/
theorem State.sendWrite_waits {core : Nat} (haway : ∀ h ∈ hs, sliceOf h.pa ≠ some core) (bytes : List Byte) :
    let t := s.sendWrite core ctx o va (cellsOf hs v) m fe
    s.Stores t hs False bytes ∧ s.StoreFrame (dieOf core) t ∧ ∃ w, t.writes = s.writes ++ [w] := by
  have hcells : ∀ c ∈ cellsOf hs v, sliceOf c.1 ≠ some core := fun c hc => by
    obtain ⟨h, hh, e⟩ := mem_cellsOf hc
    exact e ▸ haway h hh
  obtain ⟨w, hw⟩ := State.sendWrite_away (s := s) (ctx := ctx) (o := o) (va := va) (m := m) (fe := fe) (cellsOf_ne_nil hne) hcells
  have hmem := s.left_sameMemory core ctx w
  intro t
  have ht : t = s.left core ctx w := hw
  rw [ht]
  exact ⟨⟨fun pa _ => hmem.peek pa, False.elim, fun _ => hmem.peek, fun pa _ => hmem.blockMask pa, fun pa _ => hmem.fullBit pa⟩,
    s.left_frame core ctx w, w, rfl⟩

end

/-! ## The whole of a storing form -/

/-- What the statement asks of a storing form: `s` is the state before it, `s1` that after its operands, `t` that after its issue. -/
def State.StoreFramed (s s1 t : State) (hs : List Hit) (bytes : List Byte) : Prop :=
  (∀ pa, pa ∉ hs.map (·.pa) → t.peek pa = s.peek pa) ∧
  (s1.ownBytes hs = true → t.peeks (hs.map (·.pa)) = bytes) ∧
  (s1.ownBytes hs = false → ∀ pa, t.peek pa = s.peek pa) ∧
  (∀ pa, (∀ h ∈ hs, pa / 4096 ≠ h.pa / 4096) → t.blockMask pa = s.blockMask pa) ∧
  (∀ pa, (∀ h ∈ hs, pa / 16 ≠ h.pa / 16) → t.fullBit pa = s.fullBit pa) ∧
  (∀ c x, t.ctx c x = if c = s.cur.core ∧ x = s.cur.ctx then { s.me with latchlost := t.me.latchlost } else s.ctx c x) ∧
  t = { s with cur := t.cur, cores := t.cores, dies := t.dies, fronts := t.fronts, freeCount := t.freeCount, nextId := t.nextId,
               writes := t.writes } ∧
  (∀ c, t.core c = { s.core c with ctxs := (t.core c).ctxs, slice := (t.core c).slice, fe := (t.core c).fe, bmask := (t.core c).bmask }) ∧
  (∀ d, (t.die d).store = (s.die d).store ∧ (d ≠ dieOf s.cur.core → (t.die d).clk = (s.die d).clk) ∧
    (t.die d).replicas.map (fun r => (r.line, r.data)) = (s.die d).replicas.map (fun r => (r.line, r.data))) ∧
  (∃ w, t.writes = s.writes ++ [w])

/-- A store that answers has sent its bytes, which lie in the own slice or elsewhere. -/
theorem State.store_stores {s u : State} {va : Word} {n v : Nat} {m : Mask} {fe : Bool} {hs : List Hit} (hn : n ∈ wordSizes)
    (hwf : s.memWf = true) (hc : s.span .write va n m = .ok hs) (hu : s.store va n v m fe = .ok u) :
    s.Stores u hs (s.ownBytes hs = true) (bytesOf n v) ∧ s.StoreFrame (dieOf s.cur.core) u ∧ ∃ w, u.writes = s.writes ++ [w] := by
  rw [State.store_eq, try_bind_ok] at hu
  obtain ⟨hs', hchecks, hu⟩ := hu
  obtain ⟨hal, -, hc'⟩ := State.checks_ok.mp hchecks
  obtain rfl : hs' = hs := Except.ok.inj (hc'.symm.trans hc)
  obtain rfl := Except.ok.inj hu
  obtain rfl := State.span_length hc
  have hne : hs' ≠ [] := fun h => by simp [h, wordSizes] at hn
  have looked := State.LookedUp.lookUp s (some s.nextId) va.toNat hs'.length
  have hmem := State.SameMemory.lookedUp looked
  have hwrites : (s.lookUp (some s.nextId) va.toNat hs'.length).writes = s.writes := by rw [looked.rest]
  have hframe : s.StoreFrame (dieOf s.cur.core) _ := .lookedUp looked
  have conclude {own : Prop} {t : State} (ho : s.ownBytes hs' = true ↔ own)
      (h : (s.lookUp (some s.nextId) va.toNat hs'.length).Stores t hs' own (bytesOf hs'.length v) ∧
        (s.lookUp (some s.nextId) va.toNat hs'.length).StoreFrame (dieOf s.cur.core) t ∧
        ∃ w, t.writes = (s.lookUp (some s.nextId) va.toNat hs'.length).writes ++ [w]) :
      s.Stores t hs' (s.ownBytes hs' = true) (bytesOf hs'.length v) ∧ s.StoreFrame (dieOf s.cur.core) t ∧
        ∃ w, t.writes = s.writes ++ [w] := by
    obtain ⟨hst, hfr, w, hw⟩ := h
    exact ⟨⟨fun pa hpa => (hst.peek pa hpa).trans (hmem.peek pa), fun h => hst.stored (ho.mp h),
      fun h pa => (hst.away (ho.not.mp h) pa).trans (hmem.peek pa), fun pa hpa => (hst.blockMask pa hpa).trans (hmem.blockMask pa),
      fun pa hpa => (hst.fullBit pa hpa).trans (hmem.fullBit pa)⟩, hframe.trans hfr, w, hwrites ▸ hw⟩
  rcases State.span_own_or_away hn hal hc with ⟨ho, hown, hnd⟩ | ⟨ho, haway⟩
  · exact conclude (iff_true_intro ho) (State.sendWrite_stores hne (hmem.memWf hwf) hown hnd)
  · exact conclude (by simp [ho]) (State.sendWrite_waits hne haway _)

theorem State.store_framed {s s1 u : State} {va : Word} {n v : Nat} {m : Mask} {fe : Bool} {hs : List Hit}
    (hread : s1 = s ∨ s1 = s.modMe (fun x => { x with latchlost := true })) (hn : n ∈ wordSizes) (hwf : s.memWf = true)
    (hc : s1.span .write va n m = .ok hs) (hu : s1.store va n v m fe = .ok u) :
    s.StoreFramed s1 (u.verdict .issued) hs (bytesOf n v) := by
  have hsame : s.SameMemory s1 := by
    rcases hread with rfl | rfl
    · exact .refl s1
    · exact .modMe s _
  have hcur : s1.cur = s.cur := by rcases hread with rfl | rfl <;> rfl
  obtain ⟨hst, hfr, w, hw⟩ := State.store_stores hn (hsame.memWf hwf) hc hu
  have hrest : u = { s with cores := u.cores, dies := u.dies, fronts := u.fronts, freeCount := u.freeCount, nextId := u.nextId,
                            writes := u.writes } := by
    rcases hread with rfl | rfl <;> exact hfr.rest
  have hucur : u.cur = s.cur := by rw [hrest]
  have hctx (c x : Nat) : u.ctx c x = s1.ctx c x := by
    unfold State.ctx
    rw [hfr.core c]
    rfl
  have hume : u.me = s1.me := by
    unfold State.me
    rw [hctx, hucur, hcur]
  refine ⟨fun pa hpa => (hst.peek pa hpa).trans (hsame.peek pa), hst.stored, fun ho pa => ?away, fun pa hpa => ?mask, fun pa hpa => ?bit,
    fun c x => ?ctx, ?rest, fun c => ?core, fun d => ?die, w, ?writes⟩
  case away => exact (hst.away (by simp [ho]) pa).trans (hsame.peek pa)
  case mask => exact (hst.blockMask pa hpa).trans (hsame.blockMask pa)
  case bit => exact (hst.fullBit pa hpa).trans (hsame.fullBit pa)
  case ctx =>
    rw [State.verdict_ctx, State.verdict_me, hctx, hume]
    rcases hread with rfl | rfl
    · split
      · next h => rw [h.1, h.2]; rfl
      · rfl
    · rw [State.modMe_ctx, State.modMe_me]
  case rest =>
    refine (congrArg (·.verdict .issued) hrest).trans ?_
    rw [State.verdict, State.verdict, hucur]
  case core =>
    have h1 : s1.core c = { s.core c with ctxs := (s1.core c).ctxs } := by
      rcases hread with rfl | rfl
      · rfl
      · rw [State.modMe, State.modCtx_core]
        split
        · next h => rw [h]; rfl
        · rfl
    rw [State.verdict_core, hfr.core c, h1]
  case die =>
    rw [← hcur]
    rcases hread with rfl | rfl <;> exact hfr.die d
  case writes =>
    rcases hread with rfl | rfl <;> exact hw

/-- An access that issues under a true guard has run its body. -/
theorem accessRun_issued {gd : Guard} {fx : State → FalseFx} {body : State → Try State} {s t : State} (hg : s.me.holds gd = true)
    (h : accessRun gd fx body s = .next t) (hv : t.cur.verdict = .issued) : ∃ u, body s = .ok u ∧ t = u.verdict .issued := by
  rw [accessRun, slotRun_ends hg] at h
  cases hb : both s.afterLda (body s) with
  | error e =>
    rw [hb] at h
    obtain rfl := Host.Outcome.next.inj h
    exact absurd hv (s.halt_verdict_ne_issued e)
  | ok u =>
    rw [hb] at h
    refine ⟨u, ?_, (Host.Outcome.next.inj h).symm⟩
    cases hl : s.afterLda with
    | error e =>
      rw [hl] at hb
      exact nomatch hb
    | ok => rwa [hl, both_ok] at hb

/-- Settles O9: each storing form that issues has run the store of its checked bytes. -/
theorem storeFrame : Obligations.StoreFrame := by
  unfold Obligations.StoreFrame
  intro framed
  refine ⟨fun f s s1 t v a hs hg hv ha hc hx hwf hi => ?st, fun f s s1 t v a hs hg hv ha hc hx hwf hi => ?stfe,
    fun f s s1 t v a hs hg hv ha hc hx hwf hi => ?stl⟩
  all_goals have hread := State.opnd_state ha
  case st =>
    simp only [exec, execSt] at hx
    obtain ⟨u, hu, rfl⟩ := accessRun_issued hg hx hi
    simp only [hv, ha, bind, Except.bind] at hu
    exact State.store_framed hread (sizeBytes_mem _) hwf hc hu
  case stfe =>
    simp only [exec, execStfe] at hx
    obtain ⟨u, hu, rfl⟩ := accessRun_issued hg hx hi
    simp only [hv, ha, try_bind_ok, Except.ok.injEq, exists_eq_left'] at hu
    obtain ⟨_, -, hu⟩ := hu
    exact State.store_framed hread (by decide) hwf hc hu
  case stl =>
    simp only [exec, execStl] at hx
    obtain ⟨u, hu, rfl⟩ := accessRun_issued hg hx hi
    simp only [hv, ha, try_bind_ok, Except.ok.injEq, exists_eq_left'] at hu
    obtain ⟨_, _, _, _, _, _, _, _, hu⟩ := hu
    exact State.store_framed hread (osizeBytes_mem _) hwf hc hu

end Sys2Proof.Machine
end

section
/-! SUPPORT. Rounding and the floating arithmetic (R212, R213, R218, R219): what `roundAt` gives at a place, that a code rounds to
itself, and that a sum or a product is the one rounding of its exact value. -/

namespace Sys2Proof.Machine

/-! ## Rounding at a place (R218) -/

/-- The modes that cut a magnitude down at its place: toward zero, and the directed mode that points away from its sign. -/
def RM.Cuts (rm : RM) (neg : Bool) : Prop := rm = .tz ∨ (rm = .up ∧ neg = true) ∨ (rm = .dn ∧ neg = false)

/-- The directed mode that points along the sign raises a magnitude. -/
def RM.Raises (rm : RM) (neg : Bool) : Prop := (rm = .up ∧ neg = false) ∨ (rm = .dn ∧ neg = true)

theorem RM.ne_or_cuts_or_raises (rm : RM) (neg : Bool) : rm = .ne ∨ rm.Cuts neg ∨ rm.Raises neg := by
  cases rm <;> cases neg <;> simp [RM.Cuts, RM.Raises]

/-- At its own place a magnitude stands as it is. -/
@[simp] theorem roundAt_own_place (rm : RM) (neg : Bool) (x : Mag) : roundAt rm neg x x.e = (x.m, x.more) := by
  simp [roundAt]

theorem cast_div_two_pow (m k : Nat) : (m : ℚ) / 2 ^ k = (m / 2 ^ k : Nat) + (m % 2 ^ k : Nat) / 2 ^ k := by
  rw [div_eq_iff (by positivity), add_mul, div_mul_cancel₀ _ (by positivity)]
  exact_mod_cast (Nat.div_add_mod' m (2 ^ k)).symm

theorem mod_two_pow_eq_zero_of_cast {m k n : Nat} (h : (n : ℚ) = m / 2 ^ k) : m % 2 ^ k = 0 := by
  rw [eq_div_iff (by positivity)] at h
  have hm : n * 2 ^ k = m := by exact_mod_cast h
  exact Nat.mod_eq_zero_of_dvd ⟨n, by rw [← hm, mul_comm]⟩

section
variable {rm : RM} {neg : Bool} {m : Nat} {e q : Int}

theorem roundAt_inexact (h : e < q) : (roundAt rm neg ⟨m, e, false⟩ q).2 = (m % 2 ^ (q - e).toNat != 0) := by
  simp [roundAt, not_le.mpr h]

theorem roundAt_cuts (h : e < q) (hc : rm.Cuts neg) :
    (roundAt rm neg ⟨m, e, false⟩ q).1 = ⌊(m : ℚ) / 2 ^ (q - e).toNat⌋₊ := by
  have hfloor : ⌊(m : ℚ) / 2 ^ (q - e).toNat⌋₊ = m / 2 ^ (q - e).toNat := by
    exact_mod_cast Nat.floor_div_eq_div (K := ℚ) m (2 ^ (q - e).toNat)
  obtain rfl | ⟨rfl, rfl⟩ | ⟨rfl, rfl⟩ := hc <;> simp [roundAt, not_le.mpr h, hfloor]

theorem roundAt_raises (h : e < q) (hr : rm.Raises neg) :
    (roundAt rm neg ⟨m, e, false⟩ q).1 = ⌈(m : ℚ) / 2 ^ (q - e).toNat⌉₊ := by
  set k := (q - e).toNat
  have hlt : ((m % 2 ^ k : Nat) : ℚ) / 2 ^ k ≤ 1 := by
    rw [div_le_one (by positivity)]
    exact_mod_cast (Nat.mod_lt m (by positivity)).le
  have hceil : ⌈(m : ℚ) / 2 ^ k⌉₊ = if m % 2 ^ k = 0 then m / 2 ^ k else m / 2 ^ k + 1 := by
    rw [cast_div_two_pow]
    split
    case isTrue h0 => simp [h0]
    case isFalse h0 =>
      have hpos : (0 : ℚ) < (m % 2 ^ k : Nat) / 2 ^ k := div_pos (by exact_mod_cast Nat.pos_of_ne_zero h0) (by positivity)
      refine (Nat.ceil_eq_iff (Nat.succ_ne_zero _)).mpr ⟨?_, ?_⟩
      · rw [Nat.succ_sub_one]
        linarith
      · rw [Nat.cast_succ]
        linarith
  obtain ⟨rfl, rfl⟩ | ⟨rfl, rfl⟩ := hr <;> simp [roundAt, not_le.mpr h, hceil, k, ite_not]

/-- To nearest: the remainder is compared to half of the place, and a tie goes to the even quotient. -/
theorem roundAt_ne {j : Nat} (hj : (q - e).toNat = j + 1) : (roundAt .ne neg ⟨m, e, false⟩ q).1 =
    if 2 ^ j < m % 2 ^ (j + 1) ∨ (m % 2 ^ (j + 1) = 2 ^ j ∧ m / 2 ^ (j + 1) % 2 = 1) then m / 2 ^ (j + 1) + 1
    else m / 2 ^ (j + 1) := by
  simp [roundAt, show ¬q ≤ e by omega, hj]

theorem roundAt_nearest (h : e < q) : let v : ℚ := m / 2 ^ (q - e).toNat
    let n := (roundAt .ne neg ⟨m, e, false⟩ q).1
    |(n : ℚ) - v| ≤ 1 / 2 ∧ (|(n : ℚ) - v| = 1 / 2 → n % 2 = 0) := by
  intro v n
  obtain ⟨j, hj⟩ : ∃ j, (q - e).toNat = j + 1 := ⟨(q - e).toNat - 1, by omega⟩
  set r := m % 2 ^ (j + 1) with hr
  set t : ℚ := r / 2 ^ (j + 1) with ht
  have hv : v = (m / 2 ^ (j + 1) : Nat) + t := by rw [ht, hr, ← cast_div_two_pow, ← hj]
  have hrt : (r : ℚ) = t * 2 * 2 ^ j := by rw [mul_assoc, ← pow_succ', ht, div_mul_cancel₀ _ (by positivity)]
  have hlt : 2 ^ j < r ↔ 1 < t * 2 := by
    rw [← Nat.cast_lt (α := ℚ), hrt, Nat.cast_pow, Nat.cast_two, lt_mul_iff_one_lt_left (by positivity)]
  have heq : r = 2 ^ j ↔ t * 2 = 1 := by
    rw [← Nat.cast_inj (R := ℚ), hrt, Nat.cast_pow, Nat.cast_two, mul_eq_right₀ (by positivity)]
  have hn : n = _ := roundAt_ne (m := m) (neg := neg) hj
  simp only [← hr, hlt, heq] at hn
  have ht0 : 0 ≤ t := by positivity
  have ht1 : t < 1 := by
    rw [ht, div_lt_one (by positivity)]
    exact_mod_cast Nat.mod_lt m (by positivity)
  split at hn
  case isTrue hup =>
    have hdist : |(n : ℚ) - v| = 1 - t := by
      rw [hn, hv, Nat.cast_add_one, add_sub_add_left_eq_sub, abs_of_pos (by linarith)]
    rw [hdist]
    obtain hlt | ⟨htie, hodd⟩ := hup
    · exact ⟨by linarith, fun he => by linarith⟩
    · exact ⟨by linarith, fun _ => by omega⟩
  case isFalse hdown =>
    obtain ⟨hle, hodd⟩ := not_or.mp hdown
    have hdist : |(n : ℚ) - v| = t := by
      rw [hn, hv, sub_add_cancel_left, abs_neg, abs_of_nonneg ht0]
    rw [hdist]
    refine ⟨by linarith, fun he => ?_⟩
    have heven : m / 2 ^ (j + 1) % 2 ≠ 1 := fun ho => hodd ⟨by linarith, ho⟩
    omega

theorem roundAt_inexact_iff (h : e < q) :
    (roundAt rm neg ⟨m, e, false⟩ q).2 = true ↔ ((roundAt rm neg ⟨m, e, false⟩ q).1 : ℚ) ≠ m / 2 ^ (q - e).toNat := by
  rw [roundAt_inexact h, bne_iff_ne, not_iff_not]
  refine ⟨fun h0 => ?_, mod_two_pow_eq_zero_of_cast⟩
  have hv : (m : ℚ) / 2 ^ (q - e).toNat = (m / 2 ^ (q - e).toNat : Nat) := by
    rw [cast_div_two_pow, h0, Nat.cast_zero, zero_div, add_zero]
  obtain rfl | hc | hr := rm.ne_or_cuts_or_raises neg
  · have hn := (roundAt_nearest (neg := neg) (m := m) h).1
    rw [hv] at hn ⊢
    have hlt := hn.trans_lt one_half_lt_one
    have hint : |((roundAt .ne neg ⟨m, e, false⟩ q).1 : Int) - (m / 2 ^ (q - e).toNat : Nat)| < 1 := by exact_mod_cast hlt
    exact_mod_cast sub_eq_zero.mp (Int.abs_lt_one_iff.mp hint)
  · rw [roundAt_cuts h hc, hv, Nat.floor_natCast]
  · rw [roundAt_raises h hr, hv, Nat.ceil_natCast]

end

/-! ## Codes and their values (R212, R213) -/

theorem bitLen_le_of_lt {m k : Nat} (h : m < 2 ^ k) : bitLen m ≤ k := by
  rw [bitLen]
  split
  case isTrue => exact k.zero_le
  case isFalse hm => exact (Nat.log2_lt hm).mpr h

theorem bitLen_of_leading {m k : Nat} (hlo : 2 ^ k ≤ m) (hhi : m < 2 ^ (k + 1)) : bitLen m = k + 1 := by
  have hm : m ≠ 0 := (Nat.two_pow_pos k).trans_le hlo |>.ne'
  rw [bitLen, if_neg hm, (Nat.log2_eq_iff hm).mpr ⟨hlo, hhi⟩]

namespace FloatFmt

/-- The limits of R212 in the terms of R213: the exponent of the largest finite value is that of the highest field that holds
finite values, and normal values exist. -/
structure Standard (f : FloatFmt) : Prop where
  emax_eq : f.emax = (2 ^ f.eb : Nat) - (if f.top then 1 else 2) - f.bias
  emin_le_emax : f.emin ≤ f.emax

theorem standard_of_mem {q : FloatFmt} (hq : q ∈ [fp32, fp16, bf16, f8e4, f8e5]) : q.Standard := by
  have key : ∀ q ∈ [fp32, fp16, bf16, f8e4, f8e5],
      q.emax = (2 ^ q.eb : Nat) - (if q.top then 1 else 2) - q.bias ∧ q.emin ≤ q.emax := by decide
  exact ⟨(key q hq).1, (key q hq).2⟩

/-- The exponent field of a code. -/
def exponentField (f : FloatFmt) (c : Nat) : Nat := c / 2 ^ f.mb % 2 ^ f.eb

/-- The fraction field of a code. -/
def fractionField (f : FloatFmt) (c : Nat) : Nat := c % 2 ^ f.mb

variable {f : FloatFmt} {c m : Nat} {neg : Bool} {e : Int}

/-- The two kinds of finite code (R213): subnormals and zeros, and normal values, which in F8E4 take all of the highest exponent
field but its NaN. -/
theorem finite_code (h : f.decode c = .fin neg m e) : neg = c.testBit (f.eb + f.mb) ∧
    ((f.exponentField c = 0 ∧ m = f.fractionField c ∧ e = f.emin - f.mb) ∨
      (f.exponentField c ≠ 0 ∧ m = f.fractionField c + 2 ^ f.mb ∧ e = (f.exponentField c : Int) - f.bias - f.mb ∧
        (f.exponentField c + 1 = 2 ^ f.eb → f.top = true ∧ f.fractionField c + 1 ≠ 2 ^ f.mb))) := by
  simp only [decode] at h
  split at h
  case isTrue => split_ifs at h
  case isFalse hfin =>
    split at h
    case isTrue h0 =>
      obtain ⟨rfl, rfl, rfl⟩ := FVal.fin.inj h
      exact ⟨rfl, .inl ⟨h0, rfl, rfl⟩⟩
    case isFalse h0 =>
      obtain ⟨rfl, rfl, rfl⟩ := FVal.fin.inj h
      refine ⟨rfl, .inr ⟨h0, rfl, rfl, fun hlast => ?_⟩⟩
      have hnan : f.top = true ∧ c % 2 ^ f.mb ≠ 2 ^ f.mb - 1 := by
        simpa [show c / 2 ^ f.mb % 2 ^ f.eb = 2 ^ f.eb - 1 from Nat.eq_sub_of_add_eq hlast] using hfin
      exact ⟨hnan.1, fun hfr => hnan.2 (Nat.eq_sub_of_add_eq hfr)⟩

/-- A code is its sign, exponent and fraction put together. -/
theorem code_of_fields (hc : c < 2 ^ f.width) :
    f.signBit (c.testBit (f.eb + f.mb)) + (f.exponentField c * 2 ^ f.mb + f.fractionField c) = c := by
  have hlow : f.exponentField c * 2 ^ f.mb + f.fractionField c = c % 2 ^ (f.eb + f.mb) := by
    rw [exponentField, fractionField, Nat.add_comm f.eb, pow_add, Nat.mod_mul]
    ring
  have hsign : f.signBit (c.testBit (f.eb + f.mb)) = c / 2 ^ (f.eb + f.mb) * 2 ^ (f.eb + f.mb) := by
    have htop : c / 2 ^ (f.eb + f.mb) < 2 := by
      rwa [Nat.div_lt_iff_lt_mul (by positivity), ← pow_succ', show f.eb + f.mb + 1 = f.width by rw [width]; omega]
    rw [signBit, Nat.testBit_eq_decide_div_mod_eq, Nat.mod_eq_of_lt htop]
    obtain h0 | h1 := Nat.le_one_iff_eq_zero_or_eq_one.mp (Nat.le_of_lt_succ htop)
    · simp [h0]
    · simp [h1]
  rw [hlow, hsign, Nat.div_add_mod']

/-! ## A value of the format rounds to itself (R218) -/

theorem round_zero (rm : RM) : f.round rm neg ⟨0, e, false⟩ = { bits := f.signBit neg, flags := 0, ovf := false } := rfl

/-- A magnitude that stands at the place its rounding would take, and is within the format's range, is not changed. -/
theorem round_of_place (rm : RM) (hm : m ≠ 0) (hplace : max (e + bitLen m - 1) f.emin - f.mb = e)
    (hrange : e + bitLen m - 1 < f.emax ∨ (e + bitLen m - 1 = f.emax ∧ (f.top = true → m + 1 ≠ 2 ^ (f.mb + 1)))) :
    f.round rm neg ⟨m, e, false⟩ =
      { bits := f.signBit neg + if m < 2 ^ f.mb then m else (e + f.mb + f.bias).toNat * 2 ^ f.mb + (m - 2 ^ f.mb),
        flags := 0, ovf := false } := by
  have hown : roundAt rm neg ⟨m, e, false⟩ e = (m, false) := roundAt_own_place rm neg ⟨m, e, false⟩
  have hfits : (decide (f.emax < e + bitLen m - 1) ||
      (f.top && decide (f.emax = e + bitLen m - 1) && m == 2 ^ (f.mb + 1) - 1)) = false := by
    simp only [Bool.or_eq_false_iff, Bool.and_eq_false_imp, Bool.and_eq_true, decide_eq_false_iff_not, decide_eq_true_eq,
      beq_eq_false_iff_ne]
    obtain hlt | ⟨heq, htop⟩ := hrange
    · exact ⟨by omega, fun h => by omega⟩
    · exact ⟨by omega, fun h hm => htop h.1 (by omega)⟩
  simp [round, hm, hplace, hown, hfits, flagIf]

theorem fractionField_lt (f : FloatFmt) (c : Nat) : f.fractionField c < 2 ^ f.mb := Nat.mod_lt c (by positivity)

theorem exponentField_lt (f : FloatFmt) (c : Nat) : f.exponentField c < 2 ^ f.eb := Nat.mod_lt _ (by positivity)

/-- A subnormal magnitude is its own code. -/
theorem round_subnormal (hf : f.Standard) (rm : RM) (hm : m < 2 ^ f.mb) :
    f.round rm neg ⟨m, f.emin - f.mb, false⟩ = { bits := f.signBit neg + m, flags := 0, ovf := false } := by
  obtain rfl | h0 := eq_or_ne m 0
  · rw [round_zero, add_zero]
  · have hlen := bitLen_le_of_lt hm
    have hrange := hf.emin_le_emax
    rw [round_of_place rm h0 (by omega) (.inl (by omega)), if_pos hm]

/-- A normal magnitude with exponent field `ex` and fraction field `fr` has those fields in its code. -/
theorem round_normal (hf : f.Standard) (rm : RM) {ex fr : Nat} (hex : ex ≠ 0) (hex' : ex < 2 ^ f.eb) (hfr : fr < 2 ^ f.mb)
    (hfin : ex + 1 = 2 ^ f.eb → f.top = true ∧ fr + 1 ≠ 2 ^ f.mb) :
    f.round rm neg ⟨fr + 2 ^ f.mb, (ex : Int) - f.bias - f.mb, false⟩ =
      { bits := f.signBit neg + (ex * 2 ^ f.mb + fr), flags := 0, ovf := false } := by
  have hlen : bitLen (fr + 2 ^ f.mb) = f.mb + 1 := bitLen_of_leading (Nat.le_add_left ..) (by rw [pow_succ]; omega)
  have hexp : (ex : Int) - f.bias - f.mb + bitLen (fr + 2 ^ f.mb) - 1 = ex - f.bias := by omega
  have hmin : f.emin ≤ ex - f.bias := by rw [emin]; omega
  have hrange : (ex : Int) - f.bias < f.emax ∨
      ((ex : Int) - f.bias = f.emax ∧ (f.top = true → fr + 2 ^ f.mb + 1 ≠ 2 ^ (f.mb + 1))) := by
    have hmax := hf.emax_eq
    cases htop : f.top with
    | true =>
      rw [htop, if_pos rfl] at hmax
      by_cases hlast : ex + 1 = 2 ^ f.eb
      · refine .inr ⟨by omega, fun _ => ?_⟩
        have := (hfin hlast).2
        rw [pow_succ]
        omega
      · exact .inl (by omega)
    | false =>
      rw [htop, if_neg Bool.false_ne_true] at hmax
      have hlast : ex + 1 ≠ 2 ^ f.eb := fun h => Bool.false_ne_true (htop.symm.trans (hfin h).1)
      have hle : (ex : Int) - f.bias ≤ f.emax := by omega
      exact hle.lt_or_eq.imp_right fun h => ⟨h, nofun⟩
  rw [round_of_place rm (by omega) (by rw [hexp]; omega) (by rwa [hexp]), if_neg (by omega), Nat.add_sub_cancel,
    show ((ex : Int) - f.bias - f.mb + f.mb + f.bias).toNat = ex by omega]

theorem round_decode (hf : f.Standard) (rm : RM) (hc : c < 2 ^ f.width) (h : f.decode c = .fin neg m e) :
    f.round rm neg ⟨m, e, false⟩ = { bits := c, flags := 0, ovf := false } := by
  obtain ⟨rfl, ⟨hex, rfl, rfl⟩ | ⟨hex, rfl, rfl, hfin⟩⟩ := finite_code h
  · rw [round_subnormal hf rm (f.fractionField_lt c)]
    conv_rhs => rw [← code_of_fields hc, hex, zero_mul, zero_add]
  · rw [round_normal hf rm hex (f.exponentField_lt c) (f.fractionField_lt c) hfin, code_of_fields hc]

end FloatFmt

/-! ## Sums and products of finite values (R219) -/

/-- The number an integer times a power of two stands for. -/
def dyadic (a : Int × Int) : ℚ := a.1 * 2 ^ a.2

theorem dyadic_scaled {a : Int × Int} {e : Int} (h : e ≤ a.2) : ((a.1 * 2 ^ (a.2 - e).toNat : Int) : ℚ) * 2 ^ e = dyadic a := by
  rw [dyadic, Int.cast_mul, mul_assoc, Int.cast_pow, Int.cast_ofNat, ← zpow_natCast, ← zpow_add₀ two_ne_zero]
  congr 2
  omega

theorem dyadic_addDyadic (a b : Int × Int) : dyadic (addDyadic a b) = dyadic a + dyadic b := by
  rw [← dyadic_scaled (min_le_left a.2 b.2), ← dyadic_scaled (min_le_right a.2 b.2), ← add_mul, ← Int.cast_add]
  rfl

theorem dyadic_mul (i j a b : Int) : dyadic (i * j, a + b) = dyadic (i, a) * dyadic (j, b) := by
  simp only [dyadic, Int.cast_mul, zpow_add₀ (two_ne_zero (α := ℚ))]
  ring

/-- The exact value of a finite number (R213). -/
theorem dyadic_int_fin (n : Bool) (m : Nat) (e : Int) :
    dyadic (FVal.fin n m e).int = (if n = true then -(m : ℚ) else m) * 2 ^ e := by
  cases n <;> simp [dyadic, FVal.int]

theorem dyadic_int_one : dyadic (FVal.fin false 1 0).int = 1 := by simp [dyadic_int_fin]

theorem FVal.neither_inf_nor_zero_of_nan {x : FVal} (h : x.isNan = true) : x.isInf = false ∧ x.isZero = false := by
  cases x with
  | nan => exact ⟨rfl, rfl⟩
  | inf => exact nomatch h
  | fin => exact nomatch h

namespace FloatFmt
variable (q : FloatFmt) (rm : RM)

/-- The exact product of two values, as an integer times a power of two. -/
def product (x y : FVal) : Int × Int := (x.int.1 * y.int.1, x.int.2 + y.int.2)

theorem dyadic_product (x y : FVal) : dyadic (product x y) = dyadic x.int * dyadic y.int := dyadic_mul ..

theorem mul_fin (n1 n2 : Bool) (m1 m2 : Nat) (e1 e2 : Int) : q.mul rm (.fin n1 m1 e1) (.fin n2 m2 e2) =
    q.roundExact rm (n1 != n2) (product (.fin n1 m1 e1) (.fin n2 m2 e2)).1 (product (.fin n1 m1 e1) (.fin n2 m2 e2)).2 := by
  simp [mul, product, FVal.isInf, FVal.isNan, FVal.neg]

theorem fma_fin (n1 n2 n3 : Bool) (m1 m2 m3 : Nat) (e1 e2 e3 : Int) :
    let s := addDyadic (product (.fin n1 m1 e1) (.fin n2 m2 e2)) (FVal.fin n3 m3 e3).int
    q.fma rm (.fin n1 m1 e1) (.fin n2 m2 e2) (.fin n3 m3 e3) =
      q.roundExact rm (if (n1 != n2) = n3 then n3 else decide (rm = .dn)) s.1 s.2 := by
  simp only [fma, FVal.signalling, FVal.isInf, FVal.isNan, FVal.neg, product]
  obtain rfl | hne := eq_or_ne (n1 != n2) n3
  · simp
  · simp [hne]

/-! ## NaNs and infinities (R219) -/

variable {q rm} {x y z : FVal}

theorem mul_nan (h : x.isNan = true ∨ y.isNan = true) :
    q.mul rm x y = q.nan (flagIf (x.signalling || y.signalling) flagINV) := by
  obtain hx | hy := h
  · obtain ⟨hinf, hzero⟩ := FVal.neither_inf_nor_zero_of_nan hx
    simp [mul, hx, hinf, hzero]
  · obtain ⟨hinf, hzero⟩ := FVal.neither_inf_nor_zero_of_nan hy
    simp [mul, hy, hinf, hzero]

theorem add_nan (h : x.isNan = true ∨ y.isNan = true) :
    q.add rm x y = q.nan (flagIf (x.signalling || y.signalling) flagINV) := by
  have hnan : (x.isNan || (FVal.fin false 1 0).isNan || y.isNan) = true := by simpa [FVal.isNan] using h
  rw [add, fma, if_neg (by simp [FVal.isInf, FVal.isZero]), if_pos hnan]
  simp [FVal.signalling]

theorem add_opposite_inf (n : Bool) : q.add rm (.inf n) (.inf (!n)) = q.nan flagINV := by cases n <;> rfl

theorem mul_inf_zero (n k : Bool) (e : Int) : q.mul rm (.inf n) (.fin k 0 e) = q.nan flagINV := rfl

theorem fma_inf_zero (n k : Bool) (e : Int) : q.fma rm (.inf n) (.fin k 0 e) z = q.nan flagINV := rfl

end FloatFmt

/-! ## The obligation -/

/-- R218 at a place: the clause of O37 for each mode. -/
theorem roundAt_exact (rm : RM) (neg : Bool) (m : Nat) (e q : Int) (h : e < q) :
    let v : ℚ := m / 2 ^ (q - e).toNat
    let r := roundAt rm neg { m := m, e := e, more := false } q
    (r.2 = true ↔ (r.1 : ℚ) ≠ v) ∧
    (rm = .ne → |(r.1 : ℚ) - v| ≤ 1 / 2 ∧ (|(r.1 : ℚ) - v| = 1 / 2 → r.1 % 2 = 0)) ∧
    (rm.Cuts neg → (r.1 : ℚ) ≤ v ∧ v < r.1 + 1) ∧
    (rm.Raises neg → v ≤ r.1 ∧ (r.1 : ℚ) < v + 1) := by
  intro v r
  have hv : 0 ≤ v := by positivity
  refine ⟨roundAt_inexact_iff h, ?_, fun hc => ?_, fun hr => ?_⟩
  · rintro rfl
    exact roundAt_nearest h
  · rw [show r.1 = ⌊v⌋₊ from roundAt_cuts h hc]
    exact ⟨Nat.floor_le hv, Nat.lt_floor_add_one v⟩
  · rw [show r.1 = ⌈v⌉₊ from roundAt_raises h hr]
    exact ⟨Nat.le_ceil v, Nat.ceil_lt_add_one hv⟩

/-- Settles O37: each mode's quotient is the nearest, the floor or the ceiling; a finite code stands at its own place already; the
sum and the product are formed exactly before their one rounding. -/
theorem floatArithmeticIsExactThenRounded : Obligations.FloatArithmeticIsExactThenRounded := by
  unfold Obligations.FloatArithmeticIsExactThenRounded
  refine ⟨fun rm neg m e q h => ?place, fun q rm c neg m e hq hc hd => FloatFmt.round_decode (FloatFmt.standard_of_mem hq) rm hc hd,
    fun q rm n1 n2 n3 m1 m2 m3 e1 e2 e3 => ⟨?sum, ?product, ?fused⟩,
    fun q rm x y z => ⟨fun h => ?nan, FloatFmt.add_opposite_inf,
      fun n k e => ⟨FloatFmt.mul_inf_zero n k e, FloatFmt.fma_inf_zero n k e⟩, by decide⟩⟩
  case place =>
    obtain ⟨hinx, hne, hcuts, hraises⟩ := roundAt_exact rm neg m e q h
    exact ⟨hinx, hne, fun htz => hcuts (.inl htz), hraises, fun hd => hcuts (.inr hd)⟩
  case sum =>
    refine ⟨_, _, _, FloatFmt.fma_fin q rm n1 false n2 m1 1 m2 e1 0 e2, ?_, ?_⟩
    · rw [← dyadic, dyadic_addDyadic, FloatFmt.dyadic_product, dyadic_int_one, mul_one, dyadic_int_fin, dyadic_int_fin]
    · rw [Bool.bne_false]
      split <;> simp_all
  case product =>
    refine ⟨_, _, FloatFmt.mul_fin q rm n1 n2 m1 m2 e1 e2, ?_⟩
    rw [← dyadic, FloatFmt.dyadic_product, dyadic_int_fin, dyadic_int_fin]
  case fused =>
    refine ⟨_, _, _, FloatFmt.fma_fin q rm n1 n2 n3 m1 m2 m3 e1 e2 e3, ?_, rfl⟩
    rw [← dyadic, dyadic_addDyadic, FloatFmt.dyadic_product, dyadic_int_fin, dyadic_int_fin, dyadic_int_fin]
  case nan =>
    rw [FloatFmt.add_nan h, FloatFmt.mul_nan h]
    exact ⟨rfl, rfl, rfl⟩

end Sys2Proof.Machine
end

section
/-! SUPPORT. Handles (R249, R274 to R276) and the transpose unit (R252, R253, R277, R278): what each form of slot 3 does in each of its
cases. -/

namespace Sys2Proof.Machine

/-! ## Handles (R249, R274 to R276) -/

theorem HState.code_hstateOf {n : Nat} (h : n < 4) : (hstateOf n).code = n := by
  interval_cases n <;> rfl

section
variable {f : FAB} {s s1 s2 : State} {h : Nat × Mask} {v : Lab 64} (hg : s.me.holds f.gd = true) (hh : s.obj f.a 64 = .ok (h, s1))
  (hv : s1.opnd3 f.b = .ok (v, s2))
include hg hh hv

theorem exec_hset_illegal (h4 : 4 ≤ v.val.toNat) : exec (.hset f) s = .next (s.trapHere .illegal 0 0) := by
  have hlt : decide (v.val.toNat < 4) = false := decide_eq_false (Nat.not_lt.mpr h4)
  show execHset f s = _
  exact slotRun_error (h := .raise .illegal 0 0) hg (by simp only [bind, Except.bind, hh, hv, hlt, must_false])

theorem exec_hset_filling (h4 : v.val.toNat < 4) (hst : (s2.myCore.handle h.1).st = .filling) :
    exec (.hset f) s = .next (s.trapHere .handleState 0 0) := by
  have hfree : ((s2.myCore.handle h.1).st != .filling) = false := by rw [hst]; rfl
  show execHset f s = _
  exact slotRun_error (h := .raise .handleState 0 0) hg
    (by simp only [bind, Except.bind, hh, hv, decide_eq_true h4, must_true, hfree, must_false])

theorem exec_hset_sets (h4 : v.val.toNat < 4) (hst : (s2.myCore.handle h.1).st ≠ .filling) : exec (.hset f) s =
    .next ((s2.setHandle s2.cur.core h.1 (fun x =>
      { st := hstateOf v.val.toNat, skipped := if v.val = 0 then false else x.skipped })).verdict .issued) := by
  have hfree : ((s2.myCore.handle h.1).st != .filling) = true := by simpa using hst
  have hskip (b : Bool) : (b && v.val != 0) = if v.val = 0 then false else b := by
    split
    · next hz => rw [hz, bne_self_eq_false, Bool.and_false]
    · next hz => rw [bne_iff_ne.mpr hz, Bool.and_true]
  show execHset f s = _
  refine slotRun_ok hg ?_
  simp only [bind, Except.bind, hh, hv, decide_eq_true h4, must_true, hfree, hskip]
  rfl

end

section
variable {gd : Guard} {wr claim : Bool} {md : BitVec 3} {o : Opnd} {want : HState} {s s1 : State} {h : Nat × Mask}
  (hg : s.me.holds gd = true) (hd : s.mReady md = .ok ()) (hh : s.obj o 64 = .ok (h, s1))
include hg hd hh

/-- The code delivered is the one seen at issue, before a claim. -/
theorem handleWait_delivers (hst : (s1.myCore.handle h.1).st = want) : handleWait gd wr md o want claim s =
    .next (((if claim then s1.setHandle s1.cur.core h.1 (fun x => { x with st := .draining }) else s1).writeM wr md
      (BitVec.ofNat 64 (s1.myCore.handle h.1).code) (s.me.base gd ||| h.2)).verdict .issued) := by
  have hwant : ((s1.myCore.handle h.1).st == want) = true := beq_iff_eq.mpr hst
  refine slotRun_ok hg ?_
  simp only [hd, both_ok, bind, Except.bind, hh, hwant, must_true]
  rfl

theorem handleWait_blocks (hst : (s1.myCore.handle h.1).st ≠ want) (hdet : s.det s.cur.core = false) :
    handleWait gd wr md o want claim s = .next ((s.modMe (fun x => { x with block := 4 })).verdict (.blocked 4)) := by
  have hwant : ((s1.myCore.handle h.1).st == want) = false := beq_eq_false_iff_ne.mpr hst
  refine (slotRun_error (h := .block 4) hg ?_).trans (congrArg _ (State.halt_block hdet (by decide)))
  simp only [hd, both_ok, bind, Except.bind, hh, hwant, must_false]

end

theorem exec_hquery {f : FE1} {s s1 : State} {h : Nat × Mask} (hg : s.me.holds f.gd = true) (hd : s.mReady f.md = .ok ())
    (hh : s.obj f.a 64 = .ok (h, s1)) : exec (.hquery f) s = .next ((s1.writeM f.w f.md
      (BitVec.ofNat 64 (s1.myCore.handle h.1).code) (s.me.base f.gd ||| h.2)).verdict .issued) := by
  show execHquery f s = _
  refine slotRun_ok hg ?_
  simp only [hd, bind, Except.bind, hh]
  rfl

/-! ## The configuration of the transpose unit (R252, R277) -/

theorem bitsOf_toNat {w : Nat} (v : BitVec w) (hi lo : Nat) : bitsOf v.toNat hi lo = (v.extractLsb' lo (hi + 1 - lo)).toNat := by
  rw [bitsOf, BitVec.extractLsb'_toNat, Nat.shiftRight_eq_div_pow]

/-- A word that TRCFG takes: reserved bits clear, no base and no pitch in pull mode, and in store mode every column inside the slice. -/
def transValid (v : Word) : Prop :=
  v.extractLsb' 48 16 = 0 ∧ v.extractLsb' 27 5 = 0 ∧
  (v.getLsbD 26 = false → (v.extractLsb' 0 25).toNat = 0 ∧ (v.extractLsb' 32 16).toNat = 0) ∧
  (v.getLsbD 26 = true → (v.extractLsb' 0 25).toNat % 16 = 0 ∧ 8 ≤ (v.extractLsb' 32 16).toNat ∧
    (v.extractLsb' 0 25).toNat + ((if v.getLsbD 25 = true then 32 else 64) - 1) * 16 * (v.extractLsb' 32 16).toNat + 128 ≤ 0x01800000)

/-- The unit as TRCFG leaves it. -/
def transConfigured (v : Word) : Transpose :=
  { store := v.getLsbD 26, w32 := v.getLsbD 25, base := (v.extractLsb' 0 25).toNat, pitch := (v.extractLsb' 32 16).toNat, rows := [],
    blocks := [], col := 0, freeAt := 0 }

theorem transOf_eq (v : Word) [Decidable (transValid v)] : transOf v = if transValid v then some (transConfigured v) else none := by
  have hfield (hi lo : Nat) := bitsOf_toNat v hi lo
  have hbit (i : Nat) : v.toNat.testBit i = v.getLsbD i := rfl
  have hzero {n : Nat} (x : BitVec n) : x = 0 ↔ x.toNat = 0 := by rw [← BitVec.toNat_inj]; simp
  unfold transOf
  simp only [hfield, hbit]
  refine if_congr ?_ rfl rfl
  unfold transValid
  rw [hzero, hzero]
  cases v.getLsbD 26 <;> simp [transCount, sliceBytes, and_assoc]

section
variable {f : FA} {s s1 : State} {a : Lab 64} (hg : s.me.holds f.gd = true) (ha : s.opnd3 f.a = .ok (a, s1))
include hg ha

theorem exec_trcfg_illegal (hv : ¬ transValid a.val) : exec (.trcfg f) s = .next (s.trapHere .illegal 0 0) := by
  show execTrcfg f s = _
  classical
  refine slotRun_error (h := .raise .illegal 0 0) hg ?_
  simp only [bind, Except.bind, ha, transOf_eq, hv, if_false, raise]

theorem exec_trcfg_sets (hv : transValid a.val) :
    exec (.trcfg f) s = .next ((s1.modMyCore (fun k => { k with trans := transConfigured a.val })).verdict .issued) := by
  show execTrcfg f s = _
  classical
  refine slotRun_ok hg ?_
  simp only [bind, Except.bind, ha, transOf_eq, hv, if_true]
  rfl

end

/-! ## Rows (R253, R278) -/

theorem Transpose.push_row {t : Transpose} {r : Lab 1024} {now ctx num : Nat} {phase : Option (Nat × Nat)}
    (h : (t.rows ++ [r]).length < transCount t.w32) : t.push r now ctx phase num = { t with rows := t.rows ++ [r] } := if_pos h

theorem Transpose.push_last {t : Transpose} {r : Lab 1024} {now ctx num : Nat} {phase : Option (Nat × Nat)}
    (h : transCount t.w32 ≤ (t.rows ++ [r]).length) : t.push r now ctx phase num =
      { t with rows := [], blocks := t.blocks ++
        [{ rows := t.rows ++ [r], doneAt := now, ctx := ctx, phase := phase, num := num }] } := if_neg (Nat.not_lt.mpr h)

/-- The row that a TRPUSH adds: it carries its register's mask and the guard's. -/
def State.rowPushed (s : State) (f : FTrpush) : Lab 1024 :=
  { val := (s.me.vreg f.file f.r.toNat).val, mask := s.me.base f.gd ||| (s.me.vreg f.file f.r.toNat).mask }

section
variable {f : FTrpush} {s : State} (hg : s.me.holds f.gd = true) (hl : s.ldaHolds = false)
  (hp : s.pending (.vreg f.file f.r.toNat 0 1024) = false)
include hg hl hp

theorem exec_trpush_stalls (hb : 2 ≤ s.myCore.trans.blocks.length) : exec (.trpush f) s = .next (s.halt .stall) := by
  have hroom : decide (s.myCore.trans.blocks.length < 2) = false := decide_eq_false (Nat.not_lt.mpr hb)
  show execTrpush f s = _
  refine (accessRun_free hl).trans (slotRun_error hg ?_)
  simp only [bind, Except.bind, State.ready_free hp, hroom, must_false]

theorem exec_trpush_adds (hb : s.myCore.trans.blocks.length < 2) : exec (.trpush f) s = .next ((s.modMyCore (fun k =>
    { k with trans := s.myCore.trans.push (s.rowPushed f) s.myCore.ticks s.cur.ctx s.myCore.phase s.nextId })).verdict .issued) := by
  show execTrpush f s = _
  refine (accessRun_free hl).trans (slotRun_ok hg ?_)
  simp only [bind, Except.bind, State.ready_free hp, decide_eq_true hb, must_true]
  rfl

end

/-! ## Columns (R253, R278) -/

/-- A lane of a vector put together from lanes. -/
theorem lane_ofLanes {e : Nat} {ls : List Nat} {j : Nat} (hj : j < ls.length) (hw : e * (j + 1) ≤ 1024) :
    lane (ofLanes e ls) e j = ls[j] % 2 ^ e := by
  have hpack : ∀ (ls : List Nat) (j : Nat) (hj : j < ls.length), packLanes e ls / 2 ^ (e * j) % 2 ^ e = ls[j] % 2 ^ e := by
    intro ls
    induction ls with
    | nil => exact fun j hj => absurd hj (Nat.not_lt_zero j)
    | cons v vs ih =>
      rintro (_ | j) hj
      · simp [packLanes]
      · have hdiv : packLanes e (v :: vs) / 2 ^ e = packLanes e vs := by
          rw [packLanes, Nat.add_mul_div_left _ _ (Nat.two_pow_pos e), Nat.div_eq_of_lt (Nat.mod_lt _ (Nat.two_pow_pos e)), Nat.zero_add]
        rw [Nat.mul_succ, Nat.add_comm, Nat.pow_add, ← Nat.div_div_eq_div_mul, hdiv]
        exact ih j (Nat.lt_of_succ_lt_succ hj)
  rw [← hpack ls j hj, lane, ofLanes, BitVec.toNat_ofNat]
  refine Nat.eq_of_testBit_eq fun i => ?_
  rw [Nat.mul_succ] at hw
  simp only [Nat.testBit_mod_two_pow, Nat.testBit_div_two_pow]
  by_cases hi : i < e
  · have : i + e * j < 1024 := by omega
    simp [hi, this]
  · simp [hi]

theorem unionMasks_getLsbD (ms : List Mask) (i : Nat) : (unionMasks ms).getLsbD i = true ↔ ∃ m ∈ ms, m.getLsbD i = true := by
  induction ms with
  | nil => simp [unionMasks]
  | cons m ms ih => simp [unionMasks, ih]

theorem lane_mod (v : Vec) (e j : Nat) : lane v e j % 2 ^ e = lane v e j := Nat.mod_mod _ _

/-- Element c of every row, in order. -/
theorem TBlock.lane_column {b : TBlock} {w32 : Bool} {c j : Nat} (hj : j < b.rows.length)
    (hw : (if w32 = true then 32 else 16) * (j + 1) ≤ 1024) :
    lane (b.column w32 c).val (if w32 = true then 32 else 16) j = lane b.rows[j].val (if w32 = true then 32 else 16) c := by
  rw [TBlock.column, lane_ofLanes (by simpa using hj) hw, List.getElem_map, lane_mod]

theorem TBlock.mask_column (b : TBlock) (w32 : Bool) (c i : Nat) :
    (b.column w32 c).mask.getLsbD i = true ↔ ∃ r ∈ b.rows, r.mask.getLsbD i = true := by
  simp [TBlock.column, unionMasks_getLsbD]

theorem Transpose.delivered_next {t : Transpose} {now : Nat} (h : t.col + 1 < transCount t.w32) :
    t.delivered now = { t with col := t.col + 1 } := if_pos h

theorem Transpose.delivered_last {t : Transpose} {now : Nat} (h : transCount t.w32 ≤ t.col + 1) :
    t.delivered now = { t with col := 0, blocks := t.blocks.drop 1, freeAt := now } := if_neg (Nat.not_lt.mpr h)

section
variable {f : FTrpull} {s : State} (hg : s.me.holds f.gd = true) (hp : s.pending (.vreg f.file f.r.toNat 0 1024) = false)
include hg hp

theorem exec_trpull_order (h : s.myCore.trans.store = true ∨ s.myCore.trans.blocks = []) :
    exec (.trpull f) s = .next (s.trapHere .xposeOrder 0 0) := by
  show execTrpull f s = _
  unfold execTrpull
  refine slotRun_error (h := .raise .xposeOrder 0 0) hg ?_
  simp only [bind, Except.bind, State.destReady, State.ready_free hp]
  cases hs : s.myCore.trans.store with
  | true => rfl
  | false =>
    rw [h.resolve_left (by simp [hs])]
    rfl

variable {b : TBlock} {bs : List TBlock} (hs : s.myCore.trans.store = false) (hb : s.myCore.trans.blocks = b :: bs)
include hs hb

theorem exec_trpull_stalls (hr : s.myCore.ticks < max b.doneAt s.myCore.trans.freeAt + 8 + s.myCore.trans.col) :
    exec (.trpull f) s = .next (s.halt .stall) := by
  have hready : s.myCore.trans.ready s.myCore.ticks = false := by
    rw [Transpose.ready, hb]
    exact decide_eq_false (Nat.not_le.mpr hr)
  show execTrpull f s = _
  unfold execTrpull
  refine slotRun_error hg ?_
  simp only [bind, Except.bind, State.destReady, State.ready_free hp, hs, hb, hready, must_false]

theorem exec_trpull_delivers (hr : max b.doneAt s.myCore.trans.freeAt + 8 + s.myCore.trans.col ≤ s.myCore.ticks) :
    exec (.trpull f) s =
      .next (((s.modMyCore (fun k => { k with trans := s.myCore.trans.delivered s.myCore.ticks })).quiet false 3 f.w
        (.vreg f.file f.r.toNat 0 1024) (b.column s.myCore.trans.w32 s.myCore.trans.col).val
        (s.me.base f.gd ||| (b.column s.myCore.trans.w32 s.myCore.trans.col).mask)).verdict .issued) := by
  have hready : s.myCore.trans.ready s.myCore.ticks = true := by
    rw [Transpose.ready, hb]
    exact decide_eq_true hr
  show execTrpull f s = _
  unfold execTrpull
  refine slotRun_ok hg ?_
  simp only [bind, Except.bind, State.destReady, State.ready_free hp, hs, hb, hready, must_true]
  rfl

end

/-- Settles O41, form by form. -/
theorem handlesAndTranspose : Obligations.HandlesAndTranspose := by
  unfold Obligations.HandlesAndTranspose
  intro code
  have hcode (x : Handle) : code x = x.code := by
    cases x with
    | mk st skipped => cases st <;> rfl
  simp only [hcode]
  refine ⟨fun f s s1 s2 h v hg hh hv => ⟨exec_hset_illegal hg hh hv, exec_hset_filling hg hh hv, fun h4 hst => ?hset⟩,
    fun f s s1 h hg hd hh => ⟨handleWait_delivers hg hd hh, handleWait_blocks hg hd hh⟩,
    fun f s s1 h hg hd hh => ⟨handleWait_delivers (claim := true) hg hd hh, handleWait_blocks hg hd hh, exec_hquery hg hd hh⟩,
    fun f s s1 a hg ha => ⟨exec_trcfg_illegal hg ha, exec_trcfg_sets hg ha⟩,
    fun f s hg hl hp => ⟨fun hb hdet => ?stalls, fun hb hrow => ?row, fun hb hlast => ?last⟩,
    fun f s hg hp => ⟨exec_trpull_order hg hp, fun b bs hs hb => ⟨fun hr hdet => ?early, fun hr => ?pull⟩⟩⟩
  case hset => exact ⟨hstateOf v.val.toNat, HState.code_hstateOf h4, exec_hset_sets hg hh hv h4 hst⟩
  case stalls => exact (exec_trpush_stalls hg hl hp hb).trans (congrArg _ (s.halt_stall.1 hdet))
  case row =>
    rw [exec_trpush_adds hg hl hp hb, Transpose.push_row (r := s.rowPushed f) hrow]
    rfl
  case last =>
    rw [exec_trpush_adds hg hl hp hb, Transpose.push_last (r := s.rowPushed f) hlast]
    rfl
  case early => exact (exec_trpull_stalls hg hp hs hb hr).trans (congrArg _ (s.halt_stall.1 hdet))
  case pull =>
    exact ⟨_, _, _, fun j hj hw => TBlock.lane_column hj hw, TBlock.mask_column b _ _, Transpose.delivered_next,
      fun h => (Transpose.delivered_last h).trans (by rw [hb]; rfl), exec_trpull_delivers hg hp hs hb hr⟩

end Sys2Proof.Machine
end

section
/-! SUPPORT. Events of the feeding engines (R237, R242, R243, R253 to R255, R259): TAIL of a ring, generators of streams, the store mode
of the transpose unit, the random queue, and the engines in a cycle of their core. -/

namespace Sys2Proof.Machine

/-! ## Updates that do the same -/

theorem State.modCore_congr {s : State} {c : Nat} {f g : Core → Core} (h : f (s.core c) = g (s.core c)) :
    s.modCore c f = s.modCore c g := by
  simp only [State.modCore, tmod, show f (tget Core.reset s.cores c) = g (tget Core.reset s.cores c) from h]

theorem State.modRing_congr {s : State} {c n : Nat} {f g : Ring → Ring} (h : f ((s.core c).ring n) = g ((s.core c).ring n)) :
    s.modRing c n f = s.modRing c n g := by
  refine State.modCore_congr ?_
  simp only [tmod, show f (tget Ring.reset (s.core c).rings n) = g (tget Ring.reset (s.core c).rings n) from h]

/-! ## TAIL of a ring (R237) -/

/-- Tile numbers are of 32 bits, so a list of different ones is no longer than their range. -/
theorem length_le_of_nodup {l : List (BitVec 32)} (h : l.Nodup) : l.length ≤ 2 ^ 32 := by
  have hmap : (l.map BitVec.toFin).Nodup := h.map fun a b hab => BitVec.eq_of_toFin_eq hab
  simpa using hmap.length_le_card

theorem add_ofNat_succ (a : BitVec 32) (i : Nat) : a + BitVec.ofNat 32 (i + 1) = a + 1 + BitVec.ofNat 32 i := by
  rw [BitVec.ofNat_add, BitVec.add_comm (BitVec.ofNat 32 i), ← BitVec.add_assoc]
  rfl

/-- TAIL passes exactly the tiles that follow it without a gap, and they leave the list. -/
theorem Ring.advanceTail_spec (k : Nat) (r : Ring) (hnd : r.done.Nodup) (hk : r.done.length = k) :
    ∃ n ≤ r.done.length, (∀ i < n, r.tail + BitVec.ofNat 32 i ∈ r.done) ∧
      (n < r.done.length → r.tail + BitVec.ofNat 32 n ∉ r.done) ∧
      r.advanceTail k = { r with tail := r.tail + BitVec.ofNat 32 n,
                                 done := r.done.filter (fun t => !decide (∃ i < n, t = r.tail + BitVec.ofNat 32 i)) } := by
  induction k generalizing r with
  | zero =>
    have hnil := List.eq_nil_of_length_eq_zero hk
    refine ⟨0, Nat.zero_le _, fun i hi => absurd hi (Nat.not_lt_zero i), fun h => absurd h (by simp [hnil]), ?_⟩
    simp [Ring.advanceTail]
  | succ k ih =>
    rw [Ring.advanceTail]
    by_cases hmem : r.tail ∈ r.done
    · have hlen : (r.done.filter (fun t => t != r.tail)).length = k := by
        rw [← hnd.erase_eq_filter, List.length_erase_of_mem hmem, hk, Nat.add_sub_cancel]
      obtain ⟨n, hn, hin, hout, heq⟩ := ih { r with tail := r.tail + 1, done := r.done.filter (fun t => t != r.tail) }
        (hnd.filter _) hlen
      simp only [hlen, ← add_ofNat_succ, List.mem_filter, bne_iff_ne] at hn hin hout heq
      rw [if_pos (List.contains_iff_mem.mpr hmem), heq]
      refine ⟨n + 1, by omega, ?passed, fun hlt hm => ?gap, ?result⟩
      case passed =>
        rintro (_ | i) hi
        · simpa using hmem
        · exact (hin i (by omega)).1
      case gap =>
        have hback : r.tail + BitVec.ofNat 32 (n + 1) = r.tail := not_not.mp fun hne => hout (by omega) ⟨hm, hne⟩
        have hzero : (BitVec.ofNat 32 (n + 1)).toNat = 0 := by
          rw [BitVec.add_right_eq_self.mp hback]
          rfl
        have := length_le_of_nodup hnd
        rw [BitVec.toNat_ofNat] at hzero
        omega
      case result =>
        congr 1
        rw [List.filter_filter]
        refine List.filter_congr fun t _ => ?_
        simp only [Nat.exists_lt_succ_left, BitVec.add_zero]
        by_cases ht : t = r.tail <;> simp [ht]
    · rw [if_neg (fun h => hmem (List.contains_iff_mem.mp h))]
      refine ⟨0, Nat.zero_le _, fun i hi => absurd hi (Nat.not_lt_zero i), fun _ => by simpa using hmem, by simp⟩

theorem exec_ringTailAdvance {core ring : Nat} {s : State} {r : Ring} (hlt : ring < 16) (hr : (s.core core).ring ring = r) :
    exec (.ringTailAdvance core ring) s = .next (s.modRing core ring (fun _ => r.settled)) := by
  show Host.Outcome.next (if ring < 16 then s.modRing core ring Ring.settled else s) = _
  rw [if_pos hlt, State.modRing_congr (g := fun _ => r.settled) (congrArg Ring.settled hr)]

/-! ## Streams (R242, R243) -/

section
variable {core gen c q : Nat} {s : State} {p : Port}

/-- Whether a generator of an input port reads its next transfer, number `k`: not four are ahead, the context runs, and what came before
the binding is done. -/
def State.readsAhead (s : State) (core c : Nat) (p : Port) (k : Nat) : Prop :=
  p.dead = false ∧ p.buf.length < 4 ∧ k < p.desc.total ∧
    (((s.ctx core c).st = .running ∨ (s.ctx core c).st = .frozenTrap) ∧ (s.core core).halted = false) ∧
    p.first ≤ (s.core core).ticks ∧ s.forkWaits p.num core c = false

/-- The number of the next transfer: a repeated walk begins again. -/
def Port.nextTransfer (p : Port) : Nat := if p.next = p.desc.total ∧ p.desc.repeat_ = true then 0 else p.next

theorem Port.nextTransfer_eq (p : Port) :
    (if (decide (p.next = p.desc.total) && p.desc.repeat_) = true then 0 else p.next) = p.nextTransfer := by
  simp only [Port.nextTransfer, Bool.and_eq_true, decide_eq_true_eq]

/-- The condition of the model under which the generator waits. -/
theorem State.not_readsAhead_iff {k : Nat} : (p.dead || 4 ≤ p.buf.length || p.desc.total ≤ k ||
    !((s.ctx core c).st == .running || (s.ctx core c).st == .frozenTrap) || (s.core core).halted ||
      decide ((s.core core).ticks < p.first) || s.forkWaits p.num core c) = true ↔ ¬ s.readsAhead core c p k := by
  rw [← Bool.not_eq_false, not_iff_not]
  simp only [State.readsAhead, Bool.or_eq_false_iff, decide_eq_false_iff_not, Nat.not_le, Nat.not_lt, Bool.not_eq_false', Bool.or_eq_true,
    beq_iff_eq, and_assoc]

section
variable (hf : (s.core core).fed gen false = some (c, q, p))
include hf

theorem exec_streamReadahead_waits (h : ¬ s.readsAhead core c p p.nextTransfer) : exec (.streamReadahead core gen) s = .next s := by
  show execStreamReadahead core gen s = _
  simp only [execStreamReadahead, hf, p.nextTransfer_eq]
  exact if_pos (State.not_readsAhead_iff.mpr h)

theorem exec_streamReadahead_reads (h : s.readsAhead core c p p.nextTransfer)
    (he : s.engineEscape core p.phase 4 false (p.desc.pas core p.nextTransfer) = none)
    (hl : s.lags (dieOf core) (p.desc.pas core p.nextTransfer) = false) :
    exec (.streamReadahead core gen) s = .next (s.modCtx core c (fun x => { x with ports := tput x.ports q { p with
      buf := p.buf ++ [{ val := BitVec.ofNat 1024 (leValue (recode p.fmt.val p.desc.memFmt p.desc.regFmt
                           (s.peeks (p.desc.pas core p.nextTransfer)))),
                         mask := p.bmask ||| unionMasks ((p.desc.pas core p.nextTransfer).map s.blockMask) }],
      next := p.nextTransfer + 1 } })) := by
  show execStreamReadahead core gen s = _
  simp only [execStreamReadahead, hf, p.nextTransfer_eq]
  refine (if_neg (fun hn => State.not_readsAhead_iff.mp hn h)).trans ?_
  simp only [he, hl, Bool.false_eq_true, if_false]
  rfl

end

section
variable (hf : (s.core core).fed gen true = some (c, q, p))
include hf

theorem exec_streamPushWrite_idle (h : p.pushes = []) : exec (.streamPushWrite core gen) s = .next s := by
  show execStreamPushWrite core gen s = _
  simp only [execStreamPushWrite, hf, h]

variable {i : PushItem} {rest : List PushItem} (hp : p.pushes = i :: rest) (hd : p.dead = false)
  (he : s.engineEscape core p.phase 4 true (p.desc.pas core i.k) = none)
include hp hd he

theorem exec_streamPushWrite_waits (hw : s.mustWait (s.die (dieOf core)).clk (p.desc.pas core i.k) = true) :
    exec (.streamPushWrite core gen) s = .next s := by
  show execStreamPushWrite core gen s = _
  simp only [execStreamPushWrite, hf, hp, hd, he, hw, Bool.false_eq_true, if_false, if_true]

theorem exec_streamPushWrite_writes (hw : s.mustWait (s.die (dieOf core)).clk (p.desc.pas core i.k) = false) :
    exec (.streamPushWrite core gen) s = .next
      ((s.modCtx core c (fun x => { x with ports := tput x.ports q { p with pushes := rest } })).writeNow (dieOf core) core c false
        ((p.desc.pas core i.k).zip
          (recode p.fmt.val p.desc.regFmt p.desc.memFmt (bytesOf (widthBits p.desc.width / 8) i.val.toNat))) i.mask false) := by
  show execStreamPushWrite core gen s = _
  simp only [execStreamPushWrite, hf, hp, hd, he, hw, Bool.false_eq_true, if_false]
  rfl

end
end

/-! ## The transpose unit in store mode (R253, R259) -/

/-! The clock of a core is no part of a write. -/

section
variable (s : State)

theorem State.perform_ticks (cs : List Host.Cell) (m : Mask) (fe : Bool) (die : Nat) (stamp : Clock) (d : Nat) :
    ((s.perform cs m fe die stamp).core d).ticks = (s.core d).ticks := by
  have hpokes := State.pokes_core_read (g := Core.ticks) (fun _ _ => rfl) cs s d
  have hraise := State.raiseBlocks_keeps (P := fun t => (t.core d).ticks = (s.core d).ticks) m (pas := cs.map (·.1))
    (fun t a _ h => (State.raiseBlock_core_read (g := Core.ticks) (fun _ _ => rfl) t a m d).trans h) hpokes
  unfold State.perform
  cases fe with
  | false => exact hraise
  | true =>
    exact State.setFulls_keeps (P := fun t => (t.core d).ticks = (s.core d).ticks) true
      (fun t a _ h => (State.setFull_core_read (g := Core.ticks) (fun _ _ => rfl) t a true d).trans h) hraise

theorem State.performClear_ticks (cs : List Host.Cell) (die : Nat) (stamp : Clock) (d : Nat) :
    ((s.performClear cs die stamp).core d).ticks = (s.core d).ticks := by
  have hpokes := State.pokes_core_read (g := Core.ticks) (fun _ _ => rfl) cs s d
  have hfulls := State.setFulls_keeps (P := fun t => (t.core d).ticks = (s.core d).ticks) false (pas := cs.map (·.1))
    (fun t a _ h => (State.setFull_core_read (g := Core.ticks) (fun _ _ => rfl) t a false d).trans h) hpokes
  refine (foldl_keeps (g := fun t : State => (t.core d).ticks) (fun t a => ?_) _ _).trans hfulls
  split
  · exact State.modCore_core_read (g := Core.ticks) (by intro; rfl) t _ d
  · rfl

theorem State.noteArrival_ticks (engine : Nat) (ws : List Bool) (pas : List Nat) (d : Nat) :
    ((s.noteArrival engine ws pas).core d).ticks = (s.core d).ticks := by
  unfold State.noteArrival
  split
  · rfl
  split
  · split
    · rfl
    · exact State.modCore_core_read (g := Core.ticks) (by intro; rfl) s _ d
  · rfl

theorem State.performWrite_ticks (w : WriteReq) (d : Nat) : ((s.performWrite w).core d).ticks = (s.core d).ticks := by
  have hbytes : ((if w.clr then s.performClear w.cells w.die w.stamp else s.perform w.cells w.mask w.fe w.die w.stamp).core d).ticks =
      (s.core d).ticks := by
    split
    · exact s.performClear_ticks ..
    · exact s.perform_ticks ..
  have hraise := State.raiseBlocks_keeps (P := fun t => (t.core d).ticks = (s.core d).ticks) w.mask (pas := w.raises)
    (fun t a _ h => (State.raiseBlock_core_read (g := Core.ticks) (fun _ _ => rfl) t a w.mask d).trans h) hbytes
  unfold State.performWrite
  dsimp only
  split
  · exact hraise
  · exact (State.noteArrival_ticks _ ..).trans hraise

theorem State.settleWrite_ticks (id d : Nat) : ((s.settleWrite id).core d).ticks = (s.core d).ticks := by
  unfold State.settleWrite
  split
  · rfl
  have hreads (l : List ReadReq) : ((l.foldl (fun s r => if s.readable r then s.readHome r else s) s).core d).ticks = (s.core d).ticks :=
    foldl_keeps (g := fun t : State => (t.core d).ticks) (fun t r => by split <;> rfl) l s
  dsimp only
  split
  · exact (State.performWrite_ticks _ ..).trans (hreads _)
  · exact hreads _

theorem State.engineWrite_ticks (core ctx : Nat) (cs : List Host.Cell) (m : Mask) (fe : Bool) (d : Nat) :
    ((s.engineWrite core ctx cs m fe).core d).ticks = (s.core d).ticks := by
  have hsettle : ((s.settleSlice core).core d).ticks = (s.core d).ticks :=
    foldl_keeps (g := fun t : State => (t.core d).ticks) (fun t (w : WriteReq) => t.settleWrite_ticks w.id d) _ s
  unfold State.engineWrite State.writeNow
  split
  · exact hsettle
  split
  · exact (State.pokes_core_read (g := Core.ticks) (fun _ _ => rfl) _ _ d).trans hsettle
  · exact (State.perform_ticks _ ..).trans hsettle

end

section
variable {core : Nat} {s : State}

theorem State.storeColumn_pull (h : (s.core core).trans.store = false) : s.storeColumn core = s := by
  unfold State.storeColumn
  dsimp only
  split
  · rfl
  · simp [h]

variable {b : TBlock} {bs : List TBlock} (hb : (s.core core).trans.blocks = b :: bs)
include hb

theorem State.storeColumn_waits (h : (s.core core).trans.store = false ∨ (s.core core).trans.late ≠ none ∨
    (s.core core).ticks < max b.doneAt (s.core core).trans.freeAt + 8 + (s.core core).trans.col ∨
      s.acquiring b.num core b.ctx = true) : s.storeColumn core = s := by
  simp only [State.storeColumn, hb, Transpose.ready]
  refine if_pos ?_
  simp only [Bool.or_eq_true, Bool.not_eq_true', Option.isSome_iff_ne_none, decide_eq_false_iff_not, Nat.not_le]
  tauto

/-- The column that is ready is written after what has reached the slice, and shows as out from the next cycle on. -/
theorem State.storeColumn_writes (hs : (s.core core).trans.store = true) (hl : (s.core core).trans.late = none)
    (ha : s.acquiring b.num core b.ctx = false)
    (hr : max b.doneAt (s.core core).trans.freeAt + 8 + (s.core core).trans.col ≤ (s.core core).ticks) :
    let t := (s.core core).trans
    let pas := (List.range 128).map (fun i => slicePa core (t.base + t.col * 16 * t.pitch + i))
    let col := b.column t.w32 t.col
    s.engineEscape core b.phase 3 true pas = none →
    s.storeColumn core = (s.engineWrite core b.ctx (pas.zip (bytesOf 128 col.val.toNat)) col.mask true).modCore core
      (fun k => { k with trans := { t with late := some (false, (s.core core).ticks) } }) := by
  intro t pas col he
  have hready : t.ready (s.core core).ticks = true := by
    rw [Transpose.ready, hb]
    exact decide_eq_true hr
  have hoff : (!t.store || t.late.isSome || !t.ready (s.core core).ticks || s.acquiring b.num core b.ctx) = false := by
    rw [hs, hl, hready, ha]
    rfl
  simp only [State.storeColumn, hb]
  refine (if_neg (Bool.eq_false_iff.mp hoff)).trans ?_
  split
  · next i hi => exact absurd (he.symm.trans hi) (Option.some_ne_none i).symm
  · refine State.modCore_congr ?_
    rw [State.engineWrite_ticks, ← hb]

end

theorem Transpose.settled_drops {t : Transpose} {at_ now : Nat} (h : t.late = some (true, now)) (hn : now < at_) :
    t.settled at_ = { t with late := none, col := 0, blocks := t.blocks.drop 1, freeAt := now } := by
  simp [Transpose.settled, h, Nat.not_le.mpr hn]

theorem Transpose.settled_delivers {t : Transpose} {at_ now : Nat} (h : t.late = some (false, now)) (hn : now < at_) :
    t.settled at_ = ({ t with late := none } : Transpose).delivered now := by
  simp [Transpose.settled, h, Nat.not_le.mpr hn]

theorem Transpose.settled_store (t : Transpose) (at_ : Nat) : (t.settled at_).store = t.store := by
  unfold Transpose.settled Transpose.delivered
  dsimp only
  split
  · rfl
  split_ifs <;> rfl

/-! ## Rotations (R248, R254) -/

/-- The first of the four places of a rotation that meets a test. -/
theorem find?_rotation {p : Nat → Bool} {i : Nat} (h1 : 1 ≤ i) (h4 : i ≤ 4) (hp : p i = true)
    (hfirst : ∀ j, 1 ≤ j → j < i → p j = false) : [1, 2, 3, 4].find? p = some i := by
  rw [show [1, 2, 3, 4] = List.range' 1 4 from rfl, List.find?_range'_eq_some]
  exact ⟨hp, List.mem_range'_1.mpr ⟨h1, by omega⟩, fun j hj hlt => by simp [hfirst j hj hlt]⟩

theorem find?_rotation_none {p : Nat → Bool} (h : ∀ i, 1 ≤ i → i ≤ 4 → p i = false) : [1, 2, 3, 4].find? p = none := by
  simp [h]

/-! ## The random queue (R254) -/

/-- Whether a context of a core runs and holds fewer than four vectors. -/
def Core.lacks (k : Core) (c : Nat) : Prop :=
  ((k.ctx c).st = .running ∨ (k.ctx c).st = .frozenTrap) ∧ (k.ctx c).rndHeld < 4

section
variable {core : Nat} {s : State}

theorem Core.lacks_iff {k : Core} {c : Nat} :
    (((k.ctx c).st == .running || (k.ctx c).st == .frozenTrap) && decide ((k.ctx c).rndHeld < 4)) = true ↔ k.lacks c := by
  simp only [Core.lacks, Bool.and_eq_true, Bool.or_eq_true, beq_iff_eq, decide_eq_true_eq]

theorem State.makeRandom_stays (h : (∀ c < 4, ¬ (s.core core).lacks c) ∨ (s.core core).rndMade = true ∨ (s.core core).owner = none ∨
    (s.core core).halted = true) : s.makeRandom core = s := by
  simp only [State.makeRandom, List.find?_map, Function.comp_def]
  rcases h with h | h
  · rw [find?_rotation_none fun i _ _ => Bool.eq_false_iff.mpr fun hl => h _ (Nat.mod_lt _ (by decide)) (Core.lacks_iff.mp hl)]
    rfl
  · split
    · rfl
    · refine if_pos ?_
      simp only [Bool.or_eq_true, Option.isNone_iff_eq_none]
      tauto

theorem State.makeRandom_makes {i : Nat} (h1 : 1 ≤ i) (h4 : i ≤ 4)
    (hfirst : ∀ j, 1 ≤ j → j < i → ¬ (s.core core).lacks (((s.core core).lastRnd + j) % 4))
    (hlacks : (s.core core).lacks (((s.core core).lastRnd + i) % 4)) (ho : (s.core core).owner ≠ none)
    (hh : (s.core core).halted = false) (hm : (s.core core).rndMade = false) :
    let c := ((s.core core).lastRnd + i) % 4
    s.makeRandom core = (s.modCtx core c (fun x => { x with rndHeld := x.rndHeld + 1 })).modCore core
      (fun k => { k with lastRnd := c, rndMade := true }) := by
  intro c
  have hon : ¬ ((s.core core).owner.isNone || (s.core core).halted || (s.core core).rndMade) = true := by simp [ho, hh, hm]
  simp only [State.makeRandom, List.find?_map, Function.comp_def]
  rw [find?_rotation h1 h4 (Core.lacks_iff.mpr hlacks) fun j hj hlt => Bool.eq_false_iff.mpr fun hl => hfirst j hj hlt (Core.lacks_iff.mp hl)]
  exact if_neg hon

/-- The generator changes the contexts and what it notes of itself. -/
theorem State.makeRandom_core_read {α : Type} {g : Core → α}
    (hg : ∀ (k : Core) xs n b, g { k with ctxs := xs, lastRnd := n, rndMade := b } = g k) (d : Nat) :
    g ((s.makeRandom core).core d) = g (s.core d) := by
  unfold State.makeRandom
  dsimp only
  split
  · rfl
  split
  · rfl
  · exact (State.modCore_core_read (fun k => hg k k.ctxs _ _) _ core d).trans
      (s.modCtx_core_read core _ _ (fun k => hg k _ k.lastRnd k.rndMade) d)

end

/-! ## The engines in a cycle of their core (R237, R253, R254) -/

theorem State.landRead_trans (s : State) (r : ReadReq) (d : Nat) : ((s.landRead r).core d).trans = (s.core d).trans := by
  have hacquired (t : State) : (t.acquired r).cores = t.cores := foldl_keeps (g := State.cores) (by intros; rfl) _ _
  have harrived (f : Ctx → Ctx) : ((s.modCtx r.core r.ctx f).core d).trans = (s.core d).trans :=
    s.modCtx_core_read r.core r.ctx f (g := Core.trans) (fun _ => rfl) d
  unfold State.landRead
  split
  · rfl
  split
  · rfl
  dsimp only
  split
  · rw [State.core, hacquired]
    exact harrived _
  · exact harrived _

theorem State.landDue_trans (s : State) (core d : Nat) : ((s.landDue core).core d).trans = (s.core d).trans :=
  foldl_keeps (g := fun t : State => (t.core d).trans) (fun t (r : ReadReq) => t.landRead_trans r d) _ s

/-- What a cycle of a core leaves of its engines before anything issues. -/
theorem State.engineCycle_core (s : State) (core : Nat) : ((s.engineCycle core).core core).rndMade = false ∧
    (∀ n, (((s.engineCycle core).core core).ring n).freed = 0) ∧
    ((s.core core).trans.store = false → ((s.engineCycle core).core core).trans = (s.core core).trans.settled (s.core core).ticks) := by
  unfold State.engineCycle
  rw [State.modCore_core, if_pos rfl]
  refine ⟨rfl, fun n => congrArg Ring.freed (tget_map (g := fun r : Ring => { r with freed := 0 }) rfl _ n), fun hs => ?_⟩
  have htrans := s.makeRandom_core_read (core := core) (g := Core.trans) (fun _ _ _ _ => rfl) core
  have hticks := s.makeRandom_core_read (core := core) (g := Core.ticks) (fun _ _ _ _ => rfl) core
  have hpull := ((s.core core).trans.settled_store (s.core core).ticks).trans hs
  dsimp only
  rw [State.landDue_trans, State.storeColumn_pull]
  all_goals rw [State.modCore_core, if_pos rfl, htrans, hticks]
  exact hpull

/-- Settles O50, engine by engine. -/
theorem feedEvents : Obligations.FeedEvents := by
  unfold Obligations.FeedEvents
  refine ⟨fun core ring s r hlt hr hnd => ?tail, fun core gen c q s p hf => ⟨exec_streamReadahead_waits hf, exec_streamReadahead_reads hf⟩,
    fun core gen c q s p hf => ⟨exec_streamPushWrite_idle hf, fun i rest => exec_streamPushWrite_waits hf,
      fun i rest => exec_streamPushWrite_writes hf⟩,
    fun core s b bs hb => ⟨fun h => congrArg _ (State.storeColumn_waits hb h),
      fun hs hl ha hr he => congrArg _ (State.storeColumn_writes hb hs hl ha hr he)⟩,
    fun t now at_ => ⟨Transpose.settled_idle, fun drop => Transpose.settled_same, Transpose.settled_drops, Transpose.settled_delivers⟩,
    fun core s => ⟨fun h => congrArg _ (State.makeRandom_stays h),
      fun i h1 h4 hfirst hl ho hh hm => congrArg _ (State.makeRandom_makes h1 h4 hfirst hl ho hh hm)⟩,
    fun core s => s.engineCycle_core core⟩
  obtain ⟨n, hn, hin, hout, heq⟩ := r.advanceTail_spec r.done.length hnd rfl
  refine ⟨n, hn, hin, hout, (exec_ringTailAdvance hlt hr).trans ?_⟩
  rw [Ring.settled, heq]

end Sys2Proof.Machine
end

section
/-! SUPPORT. Copies begin (R248, R249): which entry begins, and what it then holds. -/

namespace Sys2Proof.Machine

/-! ## What an update of the engines of a core leaves alone -/

section
variable (s : State) (core n : Nat)

@[simp] theorem State.setHandle_handle (f : Handle → Handle) (h : Nat) :
    ((s.setHandle core n f).core core).handle h = if h = n then f ((s.core core).handle n) else (s.core core).handle h := by
  rw [State.setHandle, State.modCore_core, if_pos rfl]
  exact tget_tmod ..

@[simp] theorem State.setHandle_ctx (f : Handle → Handle) (c x : Nat) : (s.setHandle core n f).ctx c x = s.ctx c x :=
  State.modCore_ctx s core (by intro; rfl) c x

@[simp] theorem State.setHandle_peek (f : Handle → Handle) (pa : Nat) : (s.setHandle core n f).peek pa = s.peek pa :=
  State.modCore_peek s core (by intro; rfl) pa

@[simp] theorem State.setHandle_ring (f : Handle → Handle) (c r : Nat) : ((s.setHandle core n f).core c).ring r = (s.core c).ring r :=
  congrArg (fun rs => tget Ring.reset rs r) (State.modCore_core_read (g := Core.rings) (by intro; rfl) s core c)

@[simp] theorem State.modRing_ring (f : Ring → Ring) (r : Nat) :
    ((s.modRing core n f).core core).ring r = if r = n then f ((s.core core).ring n) else (s.core core).ring r := by
  rw [State.modRing, State.modCore_core, if_pos rfl]
  exact tget_tmod ..

@[simp] theorem State.modRing_handle (f : Ring → Ring) (c h : Nat) : ((s.modRing core n f).core c).handle h = (s.core c).handle h :=
  congrArg (fun hs => tget Handle.reset hs h) (State.modCore_core_read (g := Core.handles) (by intro; rfl) s core c)

@[simp] theorem State.modRing_ctx (f : Ring → Ring) (c x : Nat) : (s.modRing core n f).ctx c x = s.ctx c x :=
  State.modCore_ctx s core (by intro; rfl) c x

@[simp] theorem State.modCtx_handle (x : Nat) (f : Ctx → Ctx) (c h : Nat) :
    ((s.modCtx core x f).core c).handle h = (s.core c).handle h :=
  congrArg (fun hs => tget Handle.reset hs h) (s.modCtx_core_read core x f (g := Core.handles) (fun _ => rfl) c)

@[simp] theorem State.modCtx_ring (x : Nat) (f : Ctx → Ctx) (c r : Nat) : ((s.modCtx core x f).core c).ring r = (s.core c).ring r :=
  congrArg (fun rs => tget Ring.reset rs r) (s.modCtx_core_read core x f (g := Core.rings) (fun _ => rfl) c)

end

theorem State.modEntry_copyq (s : State) (core ctx uid : Nat) (f : CopyEntry → CopyEntry) :
    ((s.modEntry core ctx uid f).ctx core ctx).copyq = (s.ctx core ctx).copyq.map (fun e => if e.uid = uid then f e else e) := by
  rw [State.modEntry, State.modCtx_ctx, if_pos ⟨rfl, rfl⟩]

theorem State.dropEntry_copyq (s : State) (core ctx uid : Nat) :
    ((s.dropEntry core ctx uid).ctx core ctx).copyq = (s.ctx core ctx).copyq.filter (fun d => d.uid != uid) := by
  rw [State.dropEntry, State.modCtx_ctx, if_pos ⟨rfl, rfl⟩]

/-! ## Which entry begins (R248, R370) -/

/-- An entry that may begin: the first of its context's queue that has not begun, ready when the cycle opened and still so, with the LDAs
and VSYNCs before it done. -/
def State.fitToBegin (s : State) (core c : Nat) (e : CopyEntry) : Prop :=
  ((s.core core).ctx c).copyq.find? (fun e => e.stage == .queued) = some e ∧ e.uid ∈ (s.core core).ready ∧
    (s.core core).mayBegin e = true ∧ (∀ q ∈ s.reads, q.id < e.uid → q.core = core → q.ctx = c → q.acquire = false) ∧
    s.syncing e.uid core c = false

section
variable {s : State} {core : Nat}

theorem exec_copyBegin_full (h : (s.core core).owner = none ∨ 4 ≤ (s.core core).inProgress) : exec (.copyBegin core) s = .next s := by
  show execCopyBegin core s = _
  refine if_pos ?_
  simpa using h

/-- The test of the model on the first queued entry of a context. -/
theorem State.fitToBegin_iff {c : Nat} {e : CopyEntry} (h : ((s.core core).ctx c).copyq.find? (fun e => e.stage == .queued) = some e) :
    ((s.core core).ready.contains e.uid && (s.core core).mayBegin e && !s.acquiring e.uid core c) = true ↔ s.fitToBegin core c e := by
  simp only [State.fitToBegin, h, true_and, Bool.and_eq_true, List.contains_iff_mem, Bool.not_eq_true', State.acquiring_eq_false, and_assoc]

theorem State.head_not_fit {c : Nat} (h : ∀ e, ¬ s.fitToBegin core c e) :
    ((((s.core core).ctx c).copyq.find? (fun e => e.stage == .queued)).map (fun e => (c, e))).any (fun h =>
      (s.core core).ready.contains h.2.uid && (s.core core).mayBegin h.2 && !s.acquiring h.2.uid core h.1) = false := by
  cases hq : ((s.core core).ctx c).copyq.find? (fun e => e.stage == .queued) with
  | none => rfl
  | some e => exact Bool.eq_false_iff.mpr fun hfit => h e ((State.fitToBegin_iff hq).mp hfit)

variable (ho : (s.core core).owner ≠ none) (hn : (s.core core).inProgress < 4)
include ho hn

theorem exec_copyBegin_begins {i : Nat} {e : CopyEntry} (h1 : 1 ≤ i) (h4 : i ≤ 4)
    (hfit : s.fitToBegin core (((s.core core).lastBegan + i) % 4) e)
    (hfirst : ∀ j, 1 ≤ j → j < i → ∀ d, ¬ s.fitToBegin core (((s.core core).lastBegan + j) % 4) d) :
    exec (.copyBegin core) s = .next (s.beginEntry core (((s.core core).lastBegan + i) % 4) e) := by
  have hopen : ¬ ((s.core core).owner.isNone || decide (4 ≤ (s.core core).inProgress)) = true := by simp [ho, hn]
  show execCopyBegin core s = _
  unfold execCopyBegin
  dsimp only
  rw [if_neg hopen, List.find?_filterMap, find?_rotation h1 h4 ?fits fun j hj hlt => State.head_not_fit (hfirst j hj hlt)]
  · rw [Option.bind_some, hfit.1]
    rfl
  case fits =>
    rw [hfit.1]
    exact (State.fitToBegin_iff hfit.1).mpr hfit

theorem exec_copyBegin_none (h : ∀ c < 4, ∀ e, ¬ s.fitToBegin core c e) : exec (.copyBegin core) s = .next s := by
  have hopen : ¬ ((s.core core).owner.isNone || decide (4 ≤ (s.core core).inProgress)) = true := by simp [ho, hn]
  show execCopyBegin core s = _
  unfold execCopyBegin
  dsimp only
  rw [if_neg hopen, List.find?_filterMap, find?_rotation_none fun i _ _ => State.head_not_fit (h _ (Nat.mod_lt _ (by decide)))]
  rfl

end

/-- The entries noted at the end of a core's cycle. -/
theorem Core.mem_readyEntries {k : Core} {uid : Nat} : uid ∈ k.readyEntries ↔
    k.inProgress < 4 ∧ ∃ x ∈ k.ctxs, ∃ e ∈ x.2.copyq, e.uid = uid ∧ e.stage = .queued ∧ k.mayBegin e = true := by
  unfold Core.readyEntries
  split
  · next h => simp [h]
  · next h =>
    simp only [List.mem_map, List.mem_filter, List.mem_flatMap, Bool.and_eq_true, beq_iff_eq, Nat.not_le.mp h, true_and]
    constructor
    · rintro ⟨e, ⟨⟨x, hx, he⟩, hq, hm⟩, hu⟩
      exact ⟨x, hx, e, he, hu, hq, hm⟩
    · rintro ⟨x, hx, e, he, hu, hq, hm⟩
      exact ⟨e, ⟨⟨x, hx, he⟩, hq, hm⟩, hu⟩

theorem State.engineCycle_ready (s : State) (core : Nat) :
    ((s.engineCycle core).core core).ready = ((s.engineCycle core).core core).readyEntries := by
  unfold State.engineCycle
  rw [State.modCore_core, if_pos rfl]
  generalize (State.landDue _ core).core core = k
  rfl

/-! ## The beginning of a copy between addresses (R248, R249, R268) -/

/-- The handles of a copy as it begins: the destination's FILLING, and then the source's, if it names one, DRAINING. -/
def State.holdHandles (s : State) (core : Nat) (cmd : Word) : State :=
  let t := s.setHandle core (cmdDhnd cmd) (fun x => { x with st := .filling })
  if cmdShv cmd = true then t.setHandle core (cmdShnd cmd) (fun x => { x with st := .draining }) else t

section
variable {s : State} {core ctx : Nat} {cmd src dst : Word} {fill : Bool} {e : CopyEntry}

/-- A copy between addresses once it has begun: it holds its layout records and the egress windows. -/
def State.begunCopy (s : State) (core : Nat) (cmd : Word) (e : CopyEntry) : CopyEntry :=
  { e with stage := .running, egress := (s.part (s.partOf core)).egress, srec := tget 0 (s.core core).layouts (cmdSrec cmd),
           drec := tget 0 (s.core core).layouts (cmdDrec cmd) }

theorem State.beginEntry_copy (hk : e.kind = .copy cmd src dst fill) (hs : cmdSkind cmd = 0) (hd : cmdDkind cmd = 0) :
    s.beginEntry core ctx e =
      (({ s.holdHandles core cmd with nextId := s.nextId + 1 } : State).setEntry core ctx (s.begunCopy core cmd e)).modCore core
        (fun k => { k with lastBegan := ctx }) := by
  unfold State.beginEntry State.holdHandles State.begunCopy
  simp only [hk, hs, hd, CopyEntry.destRing, CopyKind.dhnd, CopyKind.shnd, if_true, Nat.zero_ne_one, if_false]
  cases cmdShv cmd <;> rfl

/-- What a copy between addresses finds and holds as it begins. -/
theorem State.beginEntry_holds (hk : e.kind = .copy cmd src dst fill) (hs : cmdSkind cmd = 0) (hd : cmdDkind cmd = 0) :
    let t := s.beginEntry core ctx e
    (∀ d ∈ (t.ctx core ctx).copyq, d.uid = e.uid → d = s.begunCopy core cmd e) ∧
    (∀ h, (t.core core).handle h = ((s.holdHandles core cmd).core core).handle h) ∧
    (t.core core).lastBegan = ctx ∧ ∀ pa, t.peek pa = s.peek pa := by
  rw [State.beginEntry_copy hk hs hd]
  refine ⟨fun d hm hu => ?_, fun h => ?_, ?_, fun pa => ?_⟩
  · rw [State.modCore_ctx _ core (by intro; rfl), State.setEntry, State.modEntry_copyq] at hm
    obtain ⟨d', -, rfl⟩ := List.mem_map.mp hm
    split at hu
    · next h => rw [if_pos h]
    · next h => exact absurd hu h
  · rw [State.modCore_core, if_pos rfl]
    exact State.modCtx_handle ..
  · rw [State.modCore_core, if_pos rfl]
  · rw [State.modCore_peek _ core (by intro; rfl), State.setEntry, State.modEntry, State.modCtx_peek]
    show (s.holdHandles core cmd).peek pa = _
    unfold State.holdHandles
    dsimp only
    split <;> simp only [State.setHandle_peek]

theorem State.holdHandles_destination (h : cmdShv cmd = false) :
    (((s.holdHandles core cmd).core core).handle (cmdDhnd cmd)).st = .filling := by
  simp [State.holdHandles, h]

theorem State.holdHandles_source (h : cmdShv cmd = true) :
    (((s.holdHandles core cmd).core core).handle (cmdShnd cmd)).st = .draining ∧
    (cmdShnd cmd ≠ cmdDhnd cmd → (((s.holdHandles core cmd).core core).handle (cmdDhnd cmd)).st = .filling) := by
  refine ⟨by simp [State.holdHandles, h], fun hne => ?_⟩
  simp [State.holdHandles, h, hne.symm]

end

end Sys2Proof.Machine
end

section
/-! SUPPORT. Elements of queue entries (R246, R248, R250, R273, R362, R384, R434): when the next one is sent, waits or fails, and what the
events of an entry make of that. -/

namespace Sys2Proof.Machine

/-! ## Looking up the stores for an element (R120, R121) -/

namespace State.LookedUp
variable {s t : State}

theorem lookSpan (s : State) (core : Nat) (req : Option Nat) (va n : Nat) : s.LookedUp (s.lookSpan core req va n) :=
  List.foldlRecOn (motive := fun t => s.LookedUp t) _ _ (refl s) fun _ h a _ => h.trans (lookPage _ core req a)

theorem core (h : s.LookedUp t) (c : Nat) : t.core c = s.core c := by
  rw [h.rest]
  rfl

theorem ctx (h : s.LookedUp t) (c x : Nat) : t.ctx c x = s.ctx c x := congrArg (fun k => k.ctx x) (h.core c)

theorem launchCores (h : s.LookedUp t) (c : Nat) : t.launchCores c = s.launchCores c := by
  rw [h.rest]
  rfl

theorem elemLook {core : Nat} {e : CopyEntry} {va : Word} {n : Nat} (h : s.elemLook core e va n = .ok t) : s.LookedUp t := by
  unfold State.elemLook at h
  dsimp only at h
  split at h
  · obtain rfl := Except.ok.inj h
    exact lookSpan ..
  · cases h

theorem elemRead {core : Nat} {e : CopyEntry} {va : Word} {n : Nat} {bs : List Byte} {m : Mask}
    (h : s.elemRead core e va n = .ok (t, bs, m)) : s.LookedUp t := by
  unfold State.elemRead at h
  obtain ⟨hs, -, h⟩ := try_bind_ok.mp h
  obtain ⟨u, hu, h⟩ := try_bind_ok.mp h
  dsimp only at h
  split at h
  · cases h
  · obtain rfl := congrArg Prod.fst (Except.ok.inj h)
    exact elemLook hu

end State.LookedUp

/-! ## The next element -/

/-- The checks of a copy's beginning are behind it (R246). -/
def CopyEntry.passed (e : CopyEntry) : Prop := ∀ cmd src dst fill, e.kind = .copy cmd src dst fill → e.total ≠ 0

theorem CopyEntry.passed_of_total {e : CopyEntry} (ht : e.total ≠ 0) : e.passed := fun _ _ _ _ _ => ht

section
variable {s : State} {core ctx : Nat} {e : CopyEntry}

theorem State.elemReady_passed (hp : e.passed) : s.elemReady core ctx e = .ok (s, e) := by
  unfold State.elemReady
  split
  · next hk => exact if_pos (hp _ _ _ _ hk)
  · rfl

variable (he : (s.ctx core ctx).entry e.uid = some e)
include he

theorem State.elemNext_waits (h : e.stage ≠ .running ∨ s.forkWaits e.uid core ctx = true) :
    s.elemNext core ctx e.uid = .error (.wait s) := by
  simp only [State.elemNext, he]
  refine if_pos ?_
  simpa using h

variable (hst : e.stage = .running) (hfree : s.forkWaits e.uid core ctx = false)
include hst hfree

theorem State.elemNext_beginFault {cmd src dst : Word} {fill : Bool} {c : CopyCause} {side : Bool} {va : Option Word}
    (hk : e.kind = .copy cmd src dst fill) (ht : e.total = 0) (hf : s.beginFault core e cmd src dst = some (c, side, va)) :
    s.elemNext core ctx e.uid = .error (.fault s c side va) := by
  have hready : s.elemReady core ctx e = .error (.fault s c side va) := by
    simp only [State.elemReady, hk, ht, hf]
    rfl
  simp only [State.elemNext, he, hst, hfree, hready]
  rfl

variable (hp : e.passed)
include hp

theorem State.elemNext_runs (hf : e.failing = none) (hk : e.k < e.count) : s.elemNext core ctx e.uid = s.elem core ctx e := by
  simp only [State.elemNext, he, hst, hfree, State.elemReady_passed hp, bind, Except.bind, hf, if_neg (Nat.not_le.mpr hk)]
  rfl

theorem State.elemNext_fails {c : CopyCause} {side : Bool} (hf : e.failing = some (c, side)) (hk : e.k < e.count) :
    s.elemNext core ctx e.uid = .error (.fault s c (s.errorAt core e side).1 (s.errorAt core e side).2) := by
  simp only [State.elemNext, he, hst, hfree, State.elemReady_passed hp, bind, Except.bind, hf, if_neg (Nat.not_le.mpr hk)]
  rfl

theorem State.elemNext_done (hk : e.count ≤ e.k) : s.elemNext core ctx e.uid = .ok s := by
  simp only [State.elemNext, he, hst, hfree, State.elemReady_passed hp, bind, Except.bind, if_pos hk]
  cases e.failing <;> rfl

end

/-! ## What the events of an entry make of its next element -/

theorem State.modEntry_forkWaits (s : State) (core ctx uid : Nat) (f : CopyEntry → CopyEntry) (id c x : Nat) :
    (s.modEntry core ctx uid f).forkWaits id c x = s.forkWaits id c x := by
  have hctx : ((s.modEntry core ctx uid f).ctx c x).wait2 = (s.ctx c x).wait2 ∧
      ((s.modEntry core ctx uid f).ctx c x).syncAt = (s.ctx c x).syncAt := by
    rw [State.modEntry, State.modCtx_ctx]
    split
    · next h => exact ⟨by rw [h.1, h.2], by rw [h.1, h.2]⟩
    · exact ⟨rfl, rfl⟩
  unfold State.forkWaits State.acquiring State.syncing
  rw [hctx.1, hctx.2]
  rfl

theorem State.elemRun_error {core ctx uid n : Nat} {s : State} {x : ElemStop} (h : s.elemNext core ctx uid = .error x) :
    State.elemRun core ctx uid (n + 1) s = .error x := by
  simp only [State.elemRun, h]

theorem State.elemRun_done {core ctx uid : Nat} {s : State} (h : s.elemNext core ctx uid = .ok s) (n : Nat) :
    State.elemRun core ctx uid n s = .ok s := by
  induction n with
  | zero => rfl
  | succ n ih => simp only [State.elemRun, h, ih]

section
variable {s : State} {core ctx ent : Nat} {e : CopyEntry} (hat : s.entryAt core ctx ent = some e)
include hat

theorem exec_copyElem_stopped (hst : e.stage ≠ .running) : exec (.homeWrite (.copyElem core ctx ent)) s = .next s := by
  show execHomeWrite (.copyElem core ctx ent) s = _
  simp only [execHomeWrite, hat, if_neg hst]

theorem exec_copyComplete_stopped (hst : e.stage ≠ .running) : exec (.copyComplete core ctx ent) s = .next s := by
  show execCopyComplete core ctx ent s = _
  simp only [execCopyComplete, hat]
  exact if_pos hst

theorem exec_copyElementFault_stopped (hst : e.stage ≠ .running) (u : Option Bool) :
    exec (.copyElementFault core ctx ent u) s = .next s := by
  show execCopyElementFault core ctx ent u s = _
  simp only [execCopyElementFault, hat]
  exact if_pos hst

variable (hst : e.stage = .running)
include hst

theorem exec_copyElem : exec (.homeWrite (.copyElem core ctx ent)) s = .next (reached (s.elemNext core ctx e.uid)) := by
  show execHomeWrite (.copyElem core ctx ent) s = _
  simp only [execHomeWrite, hat, if_pos hst]

theorem exec_copyComplete_waits (hn : s.elemNext core ctx e.uid = .error (.wait s)) : exec (.copyComplete core ctx ent) s = .next s := by
  show execCopyComplete core ctx ent s = _
  simp only [execCopyComplete, hat, if_neg (not_not.mpr hst), State.elemRun_error hn]
  rfl

theorem exec_copyComplete_done (hn : s.elemNext core ctx e.uid = .ok s) :
    exec (.copyComplete core ctx ent) s = .next (s.entryDone core ctx e.uid) := by
  show execCopyComplete core ctx ent s = _
  simp only [execCopyComplete, hat, if_neg (not_not.mpr hst), State.elemRun_done hn]

/-- An element that fails its checks stops its entry, once what it has sent is performed. -/
theorem exec_copyElementFault_fails {t : State} {c : CopyCause} {side : Bool} {va : Option Word}
    (hn : s.elemNext core ctx e.uid = .error (.fault t c side va)) (ho : t.entryOpen core ctx e.uid = false)
    (ht : (t.ctx core ctx).entry e.uid = some e) :
    exec (.copyElementFault core ctx ent none) s = .next (t.failEntry core ctx e c side va) := by
  show execCopyElementFault core ctx ent none s = _
  simp only [execCopyElementFault, hat, if_neg (not_not.mpr hst), State.elemRun_error hn, reached, ElemStop.state, ho, ht]
  rfl

/-- An error at the next element stops its entry there. -/
theorem exec_copyElementFault_uncorrectable {side : Bool} (he : (s.ctx core ctx).entry e.uid = some e)
    (hfree : s.forkWaits e.uid core ctx = false) (hf : e.failing = none) (hp : e.passed) (hk : e.k < e.count)
    (ho : s.entryOpen core ctx e.uid = false) : exec (.copyElementFault core ctx ent (some side)) s =
      .next (s.failEntry core ctx e .uncorrectable (s.errorAt core e side).1 (s.errorAt core e side).2) := by
  obtain ⟨f, hrest⟩ : ∃ f, e.struckBy .uncorrectable side = { e with failing := f } := ⟨_, e.struckBy_rest _ _⟩
  have huid := e.struckBy_uid .uncorrectable side
  have hfail := CopyEntry.struckBy_failing .uncorrectable side hst hf hk
  have hentry := State.modEntry_entry he fun e => e.struckBy_uid .uncorrectable side
  have hopen : (s.modEntry core ctx e.uid (fun e => e.struckBy .uncorrectable side)).entryOpen core ctx e.uid = false := ho
  have hnext := State.elemNext_fails (s := s.modEntry core ctx e.uid (fun e => e.struckBy .uncorrectable side))
    (e := e.struckBy .uncorrectable side) (core := core) (ctx := ctx) (by rw [huid]; exact hentry)
    (by rw [hrest]; exact hst) (by rw [huid, State.modEntry_forkWaits, hfree]) (by rw [hrest]; exact hp) hfail (by rw [hrest]; exact hk)
  rw [huid, State.errorAt_struckBy] at hnext
  show execCopyElementFault core ctx ent (some side) s = _
  simp only [execCopyElementFault, hat, if_neg (not_not.mpr hst), State.elemRun_error hnext, reached, ElemStop.state, hopen, hentry, Bool.false_eq_true,
    if_false]
  exact congrArg _ (State.failEntry_struckBy ..)

end

end Sys2Proof.Machine
end

section
/-! SUPPORT. The elements of copies, of BCLEARs and of RELEASEs (R237, R250, R273, R362): what sends one, and what stops it. -/

namespace Sys2Proof.Machine

/-! ## An entry that stands at an element -/

/-- An entry that has an element left and waits for nothing: it runs, its first checks are passed, and no error has struck it. -/
structure State.AtElement (s : State) (core ctx ent : Nat) (e : CopyEntry) : Prop where
  place : s.entryAt core ctx ent = some e
  entry : (s.ctx core ctx).entry e.uid = some e
  free : s.forkWaits e.uid core ctx = false
  running : e.stage = .running
  passed : e.passed
  sound : e.failing = none
  more : e.k < e.count

namespace State.AtElement
variable {s t : State} {core ctx ent : Nat} {e : CopyEntry} (h : s.AtElement core ctx ent e)
include h

theorem elemNext : s.elemNext core ctx e.uid = s.elem core ctx e :=
  State.elemNext_runs h.entry h.running h.free h.passed h.sound h.more

theorem exec_sends (ht : s.elem core ctx e = .ok t) : exec (.homeWrite (.copyElem core ctx ent)) s = .next t := by
  rw [exec_copyElem h.place h.running, h.elemNext, ht]
  rfl

theorem exec_waits (ht : s.elem core ctx e = .error (.wait t)) : exec (.homeWrite (.copyElem core ctx ent)) s = .next t := by
  rw [exec_copyElem h.place h.running, h.elemNext, ht]
  rfl

theorem exec_faults {c : CopyCause} {side : Bool} {va : Option Word} (ht : s.elem core ctx e = .error (.fault t c side va))
    (hl : s.LookedUp t) (ho : t.entryOpen core ctx e.uid = false) :
    exec (.copyElementFault core ctx ent none) s = .next (t.failEntry core ctx e c side va) :=
  exec_copyElementFault_fails h.place h.running (h.elemNext.trans ht) ho (by rw [hl.ctx]; exact h.entry)

end State.AtElement

/-! ## The two ends of a copy -/

/-- An engine's phase is a matter of the image of its launch (R410). -/
theorem State.engineEscape_congr {s t : State} {core : Nat} (h : t.imageOf core = s.imageOf core) (ph : Option (Nat × Nat))
    (engine : PhaseEngine) (write : Bool) (pas : List Nat) :
    t.engineEscape core ph engine write pas = s.engineEscape core ph engine write pas := by
  unfold State.engineEscape
  rw [h]

theorem State.modCore_imageOf {f : Core → Core} (hf : ∀ k, (f k).owner = k.owner) (s : State) (c d : Nat) :
    (s.modCore c f).imageOf d = s.imageOf d := by
  unfold State.imageOf State.launchOf
  rw [State.modCore_core_read (g := Core.owner) hf]
  rfl

/-- Opening a tile of a ring keeps the phase of the copy that opens it. -/
theorem State.opened_engineEscape (s : State) (core ctx n : Nat) (e : CopyEntry) (f : Ring → Ring) (ph : Option (Nat × Nat))
    (engine : PhaseEngine) (write : Bool) (pas : List Nat) :
    ((s.setEntry core ctx e).modRing core n f).engineEscape core ph engine write pas = s.engineEscape core ph engine write pas :=
  State.engineEscape_congr ((State.modCore_imageOf (by intro; rfl) _ core core).trans (by simp only [State.imageOf, State.setEntry,
    State.modEntry, State.modCtx_launchOf])) ph engine write pas

section
variable {s s1 t : State} {core ctx : Nat} {e : CopyEntry} {cmd src dst : Word} {fill : Bool} {bs : List Byte} {m : Mask} {x : ElemStop}

section
variable (hk : cmdSkind cmd = 0)
include hk

theorem State.copySource_reads (h : s.elemRead core e (lrAddr e.srec src e.k) e.esize = .ok (s1, bs, m)) :
    s.copySource core ctx e cmd src = .ok (s1, e, bs, m) := by
  simp only [State.copySource, if_pos hk, h]
  rfl

theorem State.copySource_stops (h : s.elemRead core e (lrAddr e.srec src e.k) e.esize = .error x) :
    s.copySource core ctx e cmd src = .error x := by
  simp only [State.copySource, if_pos hk, h]
  rfl

end

/-- A source ring that holds no tile, or that a plane call holds, gives none. -/
theorem State.copySource_waits (hk : cmdSkind cmd ≠ 0)
    (hp : e.popped ≤ e.k * e.esize / ((s.core core).ring (src.toNat % 16)).popBytes)
    (hr : ((s.core core).ring (src.toNat % 16)).held = 0 ∨ (s.core core).ringHeld (src.toNat % 16) = true) :
    s.copySource core ctx e cmd src = .error (.wait s) := by
  have hnone : (decide (((s.core core).ring (src.toNat % 16)).held = 0) || (s.core core).ringHeld (src.toNat % 16) ||
      s.entryOpen core ctx e.uid) = true := by
    simp only [Bool.or_eq_true, decide_eq_true_eq]
    exact Or.inl hr
  simp only [State.copySource, if_neg hk, if_neg (Nat.not_lt.mpr hp)]
  exact if_pos hnone

section
variable (hk : cmdDkind cmd = 0)
include hk

theorem State.copyDest_sends {hs : List Hit} {s2 : State} (hc : s.elemCheck core e .write m (lrAddr e.drec dst e.k) e.esize = .ok hs)
    (hl : s.elemLook core e (lrAddr e.drec dst e.k) e.esize = .ok s2)
    (hsend : s2.elemSend core ctx e ((hs.map (·.pa)).zip bs) m (fill && lastInGranule (s2.launchCores core) core e.drec dst e.k) false =
      .ok t) : s.copyDest core ctx e cmd dst fill bs m = .ok t := by
  simp only [State.copyDest, hk, hc, hl, bind, Except.bind]
  exact hsend

theorem State.copyDest_stops (hc : s.elemCheck core e .write m (lrAddr e.drec dst e.k) e.esize = .error x) :
    s.copyDest core ctx e cmd dst fill bs m = .error x := by
  simp only [State.copyDest, hk, hc, bind, Except.bind]

end

/-- The bytes of a ring's tile that the next element of a copy takes. -/
def CopyEntry.tileCells (e : CopyEntry) (r : Ring) (core : Nat) (first : BitVec 32) : List Nat :=
  ((r.tilePas core first).drop (e.k * e.esize % r.tileBytes)).take e.esize

/-- A tile is written once its last element is. -/
def State.tileDone (t : State) (core n : Nat) (e : CopyEntry) (r : Ring) (first : BitVec 32) : State :=
  if e.k * e.esize % r.tileBytes + e.esize = r.tileBytes then t.modRing core n (fun r => r.written first) else t

section
variable (hk : cmdDkind cmd = 1)
include hk

/-- An element that opens a tile waits for a free one (R237). -/
theorem State.copyDest_full (ho : e.tiles ≤ e.k * e.esize / ((s.core core).ring (dst.toNat % 16)).tileBytes)
    (hr : ((s.core core).ring (dst.toNat % 16)).canReserve 1 = false) : s.copyDest core ctx e cmd dst fill bs m = .error (.wait s) := by
  simp only [State.copyDest, hk]
  exact if_pos (by simp [ho, hr])

theorem State.copyDest_opens {r : Ring} (hring : (s.core core).ring (dst.toNat % 16) = r) (ho : e.tiles ≤ e.k * e.esize / r.tileBytes)
    (hr : r.canReserve 1 = true) (he : s.engineEscape core e.phase 1 true (e.tileCells r core r.resv) = none)
    (hsend : ((s.setEntry core ctx { e with tile0 := r.resv, tiles := e.tiles + 1 }).modRing core (dst.toNat % 16)
        (fun r => r.reserve 1)).elemSend core ctx e ((e.tileCells r core r.resv).zip bs) m
          (fill && (e.k * e.esize % r.tileBytes + e.esize) % 16 == 0) false = .ok t) :
    s.copyDest core ctx e cmd dst fill bs m = .ok (t.tileDone core (dst.toNat % 16) e r r.resv) := by
  have hfree : ¬ (true && !r.canReserve 1) = true := by simp [hr]
  unfold CopyEntry.tileCells at he hsend
  simp only [State.copyDest, hk, hring, decide_eq_true ho, if_neg hfree, if_true, State.opened_engineEscape, he, hsend, bind,
    Except.bind]
  rfl

theorem State.copyDest_goesOn {r : Ring} (hring : (s.core core).ring (dst.toNat % 16) = r) (ho : ¬ e.tiles ≤ e.k * e.esize / r.tileBytes)
    (he : s.engineEscape core e.phase 1 true (e.tileCells r core e.tile0) = none)
    (hsend : s.elemSend core ctx e ((e.tileCells r core e.tile0).zip bs) m
      (fill && (e.k * e.esize % r.tileBytes + e.esize) % 16 == 0) false = .ok t) :
    s.copyDest core ctx e cmd dst fill bs m = .ok (t.tileDone core (dst.toNat % 16) e r e.tile0) := by
  have hfree : ¬ (false && !r.canReserve 1) = true := by simp
  unfold CopyEntry.tileCells at he hsend
  simp only [State.copyDest, hk, hring, decide_eq_false ho, if_neg hfree, if_false, Bool.false_eq_true, he, hsend, bind, Except.bind]
  rfl

end

theorem State.copyDest_pastBank (hk : cmdDkind cmd = 2) (ho : 0x40000 < dst.toNat % 2 ^ 18 + e.k * e.esize + e.esize) :
    s.copyDest core ctx e cmd dst fill bs m = .error (.fault s .ibank true none) := by
  simp only [State.copyDest, hk]
  exact if_pos ho

/-! ## One element -/

section
variable (hk : e.kind = .copy cmd src dst fill)
include hk

theorem State.elem_copy_source_stops (hs : s.copySource core ctx e cmd src = .error x) : s.elem core ctx e = .error x := by
  simp only [State.elem, hk, hs, bind, Except.bind]

variable (hs : s.copySource core ctx e cmd src = .ok (s1, e, bs, m))
include hs

theorem State.elem_copy (hd : s1.copyDest core ctx e cmd dst fill bs (m ||| e.cmask) = .ok t) :
    s.elem core ctx e = .ok (t.modEntry core ctx e.uid (fun e => { e with k := e.k + 1 })) := by
  simp only [State.elem, hk, hs, hd, bind, Except.bind]
  rfl

theorem State.elem_copy_dest_stops (hd : s1.copyDest core ctx e cmd dst fill bs (m ||| e.cmask) = .error x) :
    s.elem core ctx e = .error x := by
  simp only [State.elem, hk, hs, hd, bind, Except.bind]

end

section
variable {first blocks hnd : Nat} (hk : e.kind = .bclear first blocks hnd)
include hk

theorem State.elem_bclear {hs : List Hit} (hc : s.elemCheck core e .write 0 (BitVec.ofNat 64 (first + 16 * e.k)) 16 = .ok hs)
    (hsend : s.elemSend core ctx e (hs.map (fun h => (h.pa, 0))) 0 false true = .ok t) :
    s.elem core ctx e = .ok (t.modEntry core ctx e.uid (fun e => { e with k := e.k + 1 })) := by
  have hz : zeroCells (hs.map (·.pa)) = hs.map (fun h => (h.pa, 0)) := List.map_map
  simp only [State.elem, hk, hc, hz, hsend, bind, Except.bind]
  rfl

theorem State.elem_bclear_stops (hc : s.elemCheck core e .write 0 (BitVec.ofNat 64 (first + 16 * e.k)) 16 = .error x) :
    s.elem core ctx e = .error x := by
  simp only [State.elem, hk, hc, bind, Except.bind]

end

section
variable {pol len hnd : Nat} {off : Word} (hk : e.kind = .release pol len hnd src off)
include hk

theorem State.elem_release (hr : s.elemRead core e (src + BitVec.ofNat 64 (16 * e.k)) 16 = .ok (s1, bs, m)) :
    s.elem core ctx e = .ok (s1.modEntry core ctx e.uid
      (fun e => { e with k := e.k + 1, data := e.data ++ bs, dmask := e.dmask ||| m })) := by
  simp only [State.elem, hk, hr, bind, Except.bind]
  rfl

theorem State.elem_release_stops (hr : s.elemRead core e (src + BitVec.ofNat 64 (16 * e.k)) 16 = .error x) :
    s.elem core ctx e = .error x := by
  simp only [State.elem, hk, hr, bind, Except.bind]

end

end

end Sys2Proof.Machine
end

section
/-! SUPPORT. How queue entries end (R248 to R250, R362, R407, R434): completion, the place of an error, and faults. -/

namespace Sys2Proof.Machine

/-! ## Completion (R248, R249) -/

section
variable {s : State} {core ctx : Nat} {e : CopyEntry} (he : (s.ctx core ctx).entry e.uid = some e) (hst : e.stage = .running)
  (hn : e.count ≤ e.k) (ho : s.entryOpen core ctx e.uid = false)
include he hst hn ho

theorem State.entryDone_copy {cmd src dst : Word} {fill : Bool} (hk : e.kind = .copy cmd src dst fill) (ht : e.total ≠ 0) :
    s.entryDone core ctx e.uid = s.finishEntry core ctx e false := by
  simp only [State.entryDone, he, hst, ho, Nat.not_lt.mpr hn, hk, if_neg ht]
  rfl

theorem State.entryDone_bclear {first blocks hnd : Nat} (hk : e.kind = .bclear first blocks hnd) :
    s.entryDone core ctx e.uid = s.finishEntry core ctx e false := by
  simp only [State.entryDone, he, hst, ho, Nat.not_lt.mpr hn, hk]
  rfl

theorem State.entryDone_release {pol len hnd : Nat} {src off : Word} (hk : e.kind = .release pol len hnd src off) :
    s.entryDone core ctx e.uid = if s.meshPause = true then s else s.handOver core ctx e pol off := by
  simp only [State.entryDone, he, hst, ho, Nat.not_lt.mpr hn, hk]
  rfl

end

section
variable (s : State) (core ctx : Nat) (e : CopyEntry) (skipped : Bool)

theorem State.finishEntry_copyq :
    ((s.finishEntry core ctx e skipped).ctx core ctx).copyq = (s.ctx core ctx).copyq.filter (fun d => d.uid != e.uid) := by
  unfold State.finishEntry
  dsimp only
  rw [State.dropEntry_copyq]
  cases e.kind.shnd <;> cases e.kind.dhnd <;> cases e.destRing <;> simp [State.fillHandle, State.freeHandle]

variable {e} {n h : Nat}

theorem State.finishEntry_ring (hr : e.destRing = some n) :
    ((s.finishEntry core ctx e skipped).core core).ring n = ((s.core core).ring n).settled := by
  unfold State.finishEntry State.dropEntry
  rw [State.modCtx_ring, hr]
  cases e.kind.shnd <;> cases e.kind.dhnd <;> simp [State.fillHandle, State.freeHandle]

/-- The handle that a copy fills is FULL, unless it is the one that it empties. -/
theorem State.finishEntry_destination (hd : e.kind.dhnd = some h) (hne : e.kind.shnd ≠ some h) :
    ((s.finishEntry core ctx e skipped).core core).handle h = { st := .full, skipped := skipped } := by
  unfold State.finishEntry State.dropEntry
  rw [State.modCtx_handle, hd]
  cases hs : e.kind.shnd with
  | none => simp [State.fillHandle]
  | some h' => simp [State.fillHandle, State.freeHandle, show h ≠ h' by rintro rfl; exact hne hs]

theorem State.finishEntry_source (hs : e.kind.shnd = some h) : (((s.finishEntry core ctx e skipped).core core).handle h).st = .free := by
  unfold State.finishEntry State.dropEntry
  rw [State.modCtx_handle, hs]
  simp [State.freeHandle]

end

/-! ## Where an error of an element stands (R250) -/

section
variable (s : State) (core : Nat) {e : CopyEntry}

section
variable {cmd src dst : Word} {fill : Bool} (hk : e.kind = .copy cmd src dst fill)
include hk

theorem State.errorAt_source_address (h : cmdSkind cmd = 0) : s.errorAt core e false = (false, some (lrAddr e.srec src e.k)) := by
  simp only [State.errorAt, hk, h]
  rfl

theorem State.errorAt_source_ring (h : cmdSkind cmd ≠ 0) :
    s.errorAt core e false = (false, some (ownVa (((s.core core).ring (src.toNat % 16)).tileOff
        (e.sourceTile ((s.core core).ring (src.toNat % 16))) +
      e.k * e.esize % ((s.core core).ring (src.toNat % 16)).popBytes * ((s.core core).ring (src.toNat % 16)).tileBytes /
        ((s.core core).ring (src.toNat % 16)).popBytes))) := by
  simp only [State.errorAt, hk, if_neg h]
  rfl

theorem State.errorAt_destination_address (h : cmdDkind cmd = 0) :
    s.errorAt core e true = (true, some (lrAddr e.drec dst e.k)) := by
  simp only [State.errorAt, hk, h]
  rfl

theorem State.errorAt_destination_ring (h : cmdDkind cmd = 1) :
    s.errorAt core e true = (true, some (ownVa (((s.core core).ring (dst.toNat % 16)).tileOff
        (if e.tiles ≤ e.k * e.esize / ((s.core core).ring (dst.toNat % 16)).tileBytes then ((s.core core).ring (dst.toNat % 16)).resv
         else e.tile0) +
      e.k * e.esize % ((s.core core).ring (dst.toNat % 16)).tileBytes))) := by
  simp only [State.errorAt, hk, h]
  rfl

theorem State.errorAt_destination_bank (h : 2 ≤ cmdDkind cmd) : s.errorAt core e true = (true, none) := by
  simp only [State.errorAt, hk, if_neg (show cmdDkind cmd ≠ 0 by omega), if_neg (show cmdDkind cmd ≠ 1 by omega)]
  rfl

end

theorem State.errorAt_bclear {first blocks hnd : Nat} (hk : e.kind = .bclear first blocks hnd) (side : Bool) :
    s.errorAt core e side = (true, some (BitVec.ofNat 64 (first + 16 * e.k))) := by
  simp only [State.errorAt, hk]

theorem State.errorAt_release {pol len hnd : Nat} {src off : Word} (hk : e.kind = .release pol len hnd src off) (side : Bool) :
    s.errorAt core e side = (false, some (src + BitVec.ofNat 64 (16 * e.k))) := by
  simp only [State.errorAt, hk]

end

/-! ## The version of a window (R407) -/

section
variable {s : State} {core ctx ent win : Nat} {hnd : Option Nat} {e : CopyEntry} {w : PubWin}
  (hat : s.entryAt core ctx ent = some e) (hk : e.kind = .publish win hnd) (hw : tfind (s.part (s.partOf core)).pubwins win = some w)

/-- The bytes of a window's counter. -/
def PubWin.cells (w : PubWin) : List Nat := (List.range 8).map (fun i => w.counter + i)

/-- What a PUBLISH waits for: that it has begun, the PUBLISHes of its window before it, what its context did before it, and the mesh. -/
def State.publishes (s : State) (core ctx win : Nat) (e : CopyEntry) : Prop :=
  e.stage = .running ∧ s.earlierPublish (s.partOf core) win e.total = false ∧ s.forkWaits e.uid core ctx = false ∧ s.meshPause = false

theorem State.not_publishes_iff : (decide (e.stage ≠ .running) || s.earlierPublish (s.partOf core) win e.total ||
    s.forkWaits e.uid core ctx || s.meshPause) = true ↔ ¬ s.publishes core ctx win e := by
  simp only [State.publishes, Bool.or_eq_true, decide_eq_true_eq]
  cases s.earlierPublish (s.partOf core) win e.total <;> cases s.forkWaits e.uid core ctx <;> cases s.meshPause <;> simp

include hat hk hw

theorem exec_publish_waits (h : ¬ s.publishes core ctx win e) : exec (.publishVersionWrite core ctx ent) s = .next s := by
  show execPublishVersionWrite core ctx ent s = _
  simp only [execPublishVersionWrite, hat, hk, hw]
  exact if_pos (State.not_publishes_iff.mpr h)

variable (h : s.publishes core ctx win e) (hreach : ∀ a ∈ w.cells, s.reachable a = true)
include h hreach

theorem exec_publish_refused (hl : egressOk e.egress e.cmask w.cells = false) :
    exec (.publishVersionWrite core ctx ent) s = .next (s.failEntry core ctx e .labelStore true none) := by
  have hup : ¬ (!w.cells.all s.reachable) = true := by simpa using hreach
  have hno : (!egressOk e.egress e.cmask w.cells) = true := by rw [hl]; rfl
  show execPublishVersionWrite core ctx ent s = _
  simp only [execPublishVersionWrite, hat, hk, hw]
  exact (if_neg fun hn => State.not_publishes_iff.mp hn h).trans ((if_neg hup).trans (if_pos hno))

theorem exec_publish_writes (hl : egressOk e.egress e.cmask w.cells = true) :
    exec (.publishVersionWrite core ctx ent) s = .next
      (((s.modPart (s.partOf core) (fun p => { p with pubwins := tput p.pubwins win { w with version := w.version + 1 } })).pokes
        (cellsAt w.counter (bytesOf 8 (w.version + 1).toNat))).finishEntry core ctx e false) := by
  have hup : ¬ (!w.cells.all s.reachable) = true := by simpa using hreach
  have hok : ¬ (!egressOk e.egress e.cmask w.cells) = true := by rw [hl]; exact Bool.false_ne_true
  show execPublishVersionWrite core ctx ent s = _
  simp only [execPublishVersionWrite, hat, hk, hw]
  exact (if_neg fun hn => State.not_publishes_iff.mp hn h).trans ((if_neg hup).trans (if_neg hok))

end

end Sys2Proof.Machine
end

section
/-! SUPPORT. The faults of queue entries (R250, R434) and the release gate (R363, R364). -/

namespace Sys2Proof.Machine

/-! ## An entry is put back -/

theorem State.setEntry_entry {s : State} {core ctx : Nat} {d e : CopyEntry} (h : (s.ctx core ctx).entry e.uid = some d) :
    ((s.setEntry core ctx e).ctx core ctx).entry e.uid = some e := by
  have hpred : (fun d : CopyEntry => (if d.uid = e.uid then e else d).uid == e.uid) = fun d => d.uid == e.uid := by
    funext d
    split
    · next hd => rw [hd]
    · rfl
  unfold Ctx.entry at *
  rw [State.setEntry, State.modEntry_copyq, List.find?_map, Function.comp_def, hpred, h, Option.map_some,
    if_pos (by simpa using List.find?_some h)]

theorem State.setEntry_ring (s : State) (core ctx : Nat) (e : CopyEntry) (c r : Nat) :
    ((s.setEntry core ctx e).core c).ring r = (s.core c).ring r := State.modCtx_ring ..

theorem State.errorAt_congr {s t : State} {core : Nat} (h : ∀ r, (t.core core).ring r = (s.core core).ring r) (e : CopyEntry)
    (side : Bool) : t.errorAt core e side = s.errorAt core e side := by
  unfold State.errorAt
  simp only [h]

/-! ## An error at a write on its way (R250, R434) -/

/-- The writes of the entry of a write that are still on their way. -/
def WriteReq.pendsWith (w v : WriteReq) : Bool := v.core == w.core && v.ctx == w.ctx && v.ent == w.ent && !v.performed

theorem WriteReq.pendsWith_iff {w v : WriteReq} :
    w.pendsWith v = true ↔ v.core = w.core ∧ v.ctx = w.ctx ∧ v.ent = w.ent ∧ v.performed = false := by
  simp only [WriteReq.pendsWith, Bool.and_eq_true, beq_iff_eq, Bool.not_eq_true', and_assoc]

/-- The writes of an entry that are on their way write nothing any more. -/
def State.recallWrites (s : State) (w : WriteReq) : State :=
  { s with writes := s.writes.map (fun v => if w.pendsWith v then { v with cells := [], performed := true, acked := true } else v) }

theorem State.recallWrites_none_pends (s : State) (w : WriteReq) : ∀ v ∈ (s.recallWrites w).writes, ¬ w.pendsWith v = true := by
  intro v hv
  obtain ⟨u, -, rfl⟩ := List.mem_map.mp hv
  split
  · simp [WriteReq.pendsWith]
  · assumption

/-- The element whose write meets the error is the entry's next one again, as nothing of the entry from it on is written. -/
theorem State.failWrite_fails {s : State} {w : WriteReq} {uid : Nat} {e : CopyEntry} (hw : w.ent = some uid)
    (he : (s.ctx w.core w.ctx).entry uid = some e) (hst : e.stage = .running)
    (hmin : ∀ v ∈ s.writes, w.pendsWith v = true → w.elem ≤ v.elem)
    (hall : s.writes.countP (fun v => w.pendsWith v && decide (w.elem ≤ v.elem)) + w.elem = e.k) :
    let t := (s.recallWrites w).setEntry w.core w.ctx { e with k := w.elem }
    s.failWrite w = t.failEntry w.core w.ctx { e with k := w.elem } .uncorrectable
      (t.errorAt w.core { e with k := w.elem } true).1 (t.errorAt w.core { e with k := w.elem } true).2 := by
  have hfirst : s.writes.any (fun v => w.pendsWith v && decide (v.elem < w.elem)) = false := by
    refine List.any_eq_false.mpr fun v hv hc => ?_
    rw [Bool.and_eq_true, decide_eq_true_eq] at hc
    exact absurd (hmin v hv hc.1) (Nat.not_le.mpr hc.2)
  have hlast : (s.writes.filter (fun v => w.pendsWith v && decide (w.elem ≤ v.elem))).length + w.elem = e.k := by
    rw [← List.countP_eq_length_filter]
    exact hall
  have hopen : ¬ (decide (e.stage ≠ .running) || s.writes.any (fun v => w.pendsWith v && decide (v.elem < w.elem)) ||
      decide ((s.writes.filter (fun v => w.pendsWith v && decide (w.elem ≤ v.elem))).length + w.elem ≠ e.k)) = true := by
    rw [hfirst, hlast]
    simp [hst]
  have hent : w.ent.bind (s.ctx w.core w.ctx).entry = some e := by rw [hw, Option.bind_some, he]
  dsimp only
  rw [State.errorAt_congr fun r => State.setEntry_ring (s.recallWrites w) w.core w.ctx { e with k := w.elem } w.core r]
  unfold State.failWrite
  rw [hent]
  exact if_neg hopen

/-! ## The report of a fault (R250) -/

/-- What the fault registers take of an entry. -/
def State.faultRec (s : State) (e : CopyEntry) (c : CopyCause) (side : Bool) (va : Option Word) : CopyFaultRec :=
  let recs : Nat × Nat := match e.kind with
    | .copy cmd _ _ _ => (cmdDrec cmd, cmdSrec cmd)
    | _ => (0, 0)
  { cause := c, side := side, handle := e.kind.dhnd.getD 0, drec := recs.1, srec := recs.2, fidx := e.k,
    faddr := va.getD (Config.freeWord s.freeCount) }

/-- An entry that has faulted. -/
def CopyEntry.faultedBy (e : CopyEntry) (f : CopyFaultRec) (reported : Bool) : CopyEntry :=
  { e with stage := .faulted, fault := some f, reported := reported, failing := none }

section
variable {s : State} {core ctx : Nat}

/-- An entry of a launch that does not retire is reported as it faults. -/
theorem State.failEntry_eq {e : CopyEntry} {c : CopyCause} {side : Bool} {va : Option Word}
    (hl : ((s.launchOf core).map (·.stage)) ≠ some .retiring) : s.failEntry core ctx e c side va =
      (({ s with freeCount := s.freeCount + 1 } : State).modEntry core ctx e.uid
        (fun d => d.faultedBy (s.faultRec e c side va) false)).tellFault core ctx := by
  have hstage : ((s.launchOf core).map (fun l => l.stage == .retiring)).getD false = false := by
    cases h : s.launchOf core with
    | none => rfl
    | some l => exact beq_eq_false_iff_ne.mpr fun hr => hl (by rw [h, Option.map_some, hr])
  unfold State.failEntry
  dsimp only
  rw [State.modEntry, State.modCtx_launchOf]
  exact if_neg (by rw [show ({ s with freeCount := s.freeCount + 1 } : State).launchOf core = s.launchOf core from rfl, hstage]; decide)

theorem State.raiseAsync_waits {t : AsyncTrap} (h : (s.ctx core ctx).st = .running) : s.raiseAsync core ctx t =
    s.modCtx core ctx (fun x => { x with asyncQ := x.asyncQ ++ [t] }) := by
  refine if_neg ?_
  simp [Ctx.gone, h]

/-- The only entry of a queue, which has faulted: the fault registers take it, and the trap arises. -/
theorem State.tellFault_ctx {e : CopyEntry} {f : CopyFaultRec} (hp : (s.ctx core ctx).copyPend = false)
    (hst : (s.ctx core ctx).st = .running) (hq : (s.ctx core ctx).copyq = [e.faultedBy f false]) :
    (s.tellFault core ctx).ctx core ctx = { s.ctx core ctx with
      copyq := [e.faultedBy f true], copyFault := some f, copyPend := true,
      asyncQ := (s.ctx core ctx).asyncQ ++ [copyFaultTrap f] } := by
  have hfind : (s.ctx core ctx).copyq.find? (fun e => e.stage == .faulted && !e.reported) = some (e.faultedBy f false) := by
    rw [hq]
    rfl
  have htell : s.tellFault core ctx = ((s.modEntry core ctx e.uid (fun e => { e with reported := true })).modCtx core ctx
      (fun x => { x with copyFault := some f, copyPend := true })).raiseAsync core ctx (copyFaultTrap f) := by
    unfold State.tellFault State.reportFault
    simp only [hp, hfind]
    rfl
  rw [htell, State.raiseAsync_waits (by simp [State.modEntry, hst])]
  simp [State.modEntry, hq, CopyEntry.faultedBy]

/-- A fault of the only entry of a queue, as its context then has it. -/
theorem State.failEntry_ctx {e : CopyEntry} {c : CopyCause} {side : Bool} {va : Option Word}
    (hl : ((s.launchOf core).map (·.stage)) ≠ some .retiring) (hp : (s.ctx core ctx).copyPend = false)
    (hst : (s.ctx core ctx).st = .running) (hq : (s.ctx core ctx).copyq = [e]) :
    (s.failEntry core ctx e c side va).ctx core ctx = { s.ctx core ctx with
      copyq := [e.faultedBy (s.faultRec e c side va) true], copyFault := some (s.faultRec e c side va), copyPend := true,
      asyncQ := (s.ctx core ctx).asyncQ ++ [copyFaultTrap (s.faultRec e c side va)] } := by
  have hctx : (({ s with freeCount := s.freeCount + 1 } : State).modEntry core ctx e.uid
      (fun d => d.faultedBy (s.faultRec e c side va) false)).ctx core ctx =
        { s.ctx core ctx with copyq := [e.faultedBy (s.faultRec e c side va) false] } := by
    rw [State.modEntry, State.modCtx_ctx, if_pos ⟨rfl, rfl⟩]
    show ({ s.ctx core ctx with copyq := (s.ctx core ctx).copyq.map _ } : Ctx) = _
    rw [hq, List.map_singleton, if_pos rfl]
  rw [State.failEntry_eq hl, State.tellFault_ctx (e := e) (f := s.faultRec e c side va) (by rw [hctx]; exact hp)
    (by rw [hctx]; exact hst) (by rw [hctx]), hctx]

end

/-! ## The release gate (R363, R364) -/

theorem State.pokes_parts (cs : List Host.Cell) (s : State) : (s.pokes cs).parts = s.parts := by
  induction cs generalizing s with
  | nil => rfl
  | cons c cs ih =>
    refine (ih _).trans ?_
    unfold State.poke
    split <;> rfl

theorem State.pokes_gate (gs : List GateReq) (cs : List Host.Cell) (s : State) :
    ({ s with gate := gs } : State).pokes cs = { s.pokes cs with gate := gs } := by
  induction cs generalizing s with
  | nil => rfl
  | cons c cs ih =>
    have hpoke : ({ s with gate := gs } : State).poke c.1 c.2 = { s.poke c.1 c.2 with gate := gs } := by
      unfold State.poke
      split <;> rfl
    exact (congrArg (fun t => State.pokes t cs) hpoke).trans (ih _)

theorem tfind_map_at {α : Type} (f : α → α) (t : Table α) (n : Nat) :
    tfind (t.map (fun e => if e.1 = n then (e.1, f e.2) else e)) n = (tfind t n).map f := by
  induction t with
  | nil => rfl
  | cons e t ih =>
    obtain ⟨k, v⟩ := e
    by_cases h : n = k
    · simp [tfind, h]
    · simp [tfind, h, Ne.symm h, ih]

/-- The address of a release under a policy, and nothing but its offset without one. -/
def GateReq.addr (g : GateReq) (pol : Option Policy) : Nat := (pol.map (·.base)).getD 0 + g.off.toNat

/-- The state once the gate has accepted the release at its head: the policy counts, and the bytes are written where they reach. -/
def State.gateAccepts (s : State) (g : GateReq) (gs : List GateReq) (p : Policy) (reached : Bool) : State :=
  let t : State := { s with gate := gs }
  (if reached then t.pokes (cellsAt (p.base + g.off.toNat) g.data) else t).modPart g.part (fun p =>
    { p with policies := p.policies.map (fun e => if e.1 = g.pol then (e.1, { e.2 with count := e.2.count - 1 }) else e)
             relAccepted := p.relAccepted + 1 })

/-- The state once the gate has refused the release at its head, and has logged the reason. -/
def State.gateRefuses (s : State) (g : GateReq) (gs : List GateReq) (pol : Option Policy) : State :=
  ({ s with gate := gs } : State).modPart g.part (fun p =>
    { p with relLog := tput p.relLog (p.relRefused.toNat % 16)
               (BitVec.ofNat 64 (gateReason g pol * 2 ^ 60 + g.pol * 2 ^ 55 + g.addr pol % 2 ^ 52))
             relRefused := p.relRefused + 1 })

/-- What `rel.last` shows of a decision. -/
def State.noteRelease (s : State) (g : GateReq) (n : Nat) : State :=
  s.modCtx g.core g.ctx (fun x => { x with relLast := BitVec.ofNat 5 (16 + n) })

theorem State.noteRelease_relLast (s : State) (g : GateReq) (n : Nat) :
    ((s.noteRelease g n).ctx g.core g.ctx).relLast = BitVec.ofNat 5 (16 + n) := by
  rw [State.noteRelease, State.modCtx_ctx, if_pos ⟨rfl, rfl⟩]

section
variable {s : State} {g : GateReq} {gs : List GateReq} {p : Policy}

theorem State.gateAccepts_ctx (reached : Bool) (c x : Nat) : (s.gateAccepts g gs p reached).ctx c x = s.ctx c x := by
  unfold State.gateAccepts
  cases reached
  · rfl
  · exact (State.SameTraffic.pokes _ ({ s with gate := gs } : State)).ctx c x

theorem State.gateAccepts_gate (reached : Bool) : (s.gateAccepts g gs p reached).gate = gs := by
  unfold State.gateAccepts
  cases reached
  · rfl
  · exact congrArg State.gate (State.pokes_gate gs _ s)

theorem State.gateAccepts_peek_reached :
    (s.gateAccepts g gs p true).peek = (s.pokes (cellsAt (p.base + g.off.toNat) g.data)).peek := by
  show (({ s with gate := gs } : State).pokes (cellsAt (p.base + g.off.toNat) g.data)).peek = _
  rw [State.pokes_gate]
  rfl

theorem State.gateAccepts_part (hp : tfind (s.part g.part).policies g.pol = some p) (reached : Bool) :
    let q := (s.gateAccepts g gs p reached).part g.part
    q.relAccepted = (s.part g.part).relAccepted + 1 ∧ tfind q.policies g.pol = some { p with count := p.count - 1 } ∧
      q.relRefused = (s.part g.part).relRefused := by
  have hparts : (if reached then ({ s with gate := gs } : State).pokes (cellsAt (p.base + g.off.toNat) g.data)
      else { s with gate := gs }).part g.part = s.part g.part := by
    unfold State.part
    cases reached
    · rfl
    · exact congrArg (fun t => tget Part.reset t g.part) (State.pokes_parts _ ({ s with gate := gs } : State))
  unfold State.gateAccepts
  dsimp only
  rw [State.modPart_part, if_pos rfl, hparts]
  exact ⟨rfl, (tfind_map_at (fun p : Policy => { p with count := p.count - 1 }) _ _).trans (by rw [hp]; rfl), rfl⟩

theorem State.gateRefuses_part (pol : Option Policy) :
    let q := (s.gateRefuses g gs pol).part g.part
    q.relRefused = (s.part g.part).relRefused + 1 ∧ q.relAccepted = (s.part g.part).relAccepted ∧
      q.policies = (s.part g.part).policies ∧ tget 0 q.relLog ((s.part g.part).relRefused.toNat % 16) =
        BitVec.ofNat 64 (gateReason g pol * 2 ^ 60 + g.pol * 2 ^ 55 + g.addr pol % 2 ^ 52) := by
  unfold State.gateRefuses
  dsimp only
  rw [State.modPart_part, if_pos rfl]
  exact ⟨rfl, rfl, rfl, (tget_tput ..).trans (if_pos rfl)⟩

variable (hq : s.gate = g :: gs)
include hq

section
variable {e : CopyEntry} (he : (s.ctx g.core g.ctx).entry g.uid = some e)
include he

section
variable (hp : tfind (s.part g.part).policies g.pol = some p) (hn : gateReason g (some p) = 0)
include hp hn

theorem exec_gate_accepts (hreach : s.reachable (p.base + g.off.toNat) = true) :
    exec .releaseGateDecision s = .next (((s.gateAccepts g gs p true).noteRelease g 0).finishEntry g.core g.ctx e false) := by
  have hentry : ((s.gateAccepts g gs p true).ctx g.core g.ctx).entry g.uid = some e := by rw [State.gateAccepts_ctx, he]
  unfold State.gateAccepts at hentry
  show execReleaseGateDecision s = _
  simp only [execReleaseGateDecision, hq, hp, hn, Option.map_some, Option.getD_some, hreach, if_true] at hentry ⊢
  rw [hentry]
  rfl

theorem exec_gate_lost (hreach : s.reachable (p.base + g.off.toNat) = false) : exec .releaseGateDecision s =
    .next ((s.gateAccepts g gs p false).failEntry g.core g.ctx { e with k := 0 } .uncorrectable true none) := by
  have hentry : ((s.gateAccepts g gs p false).ctx g.core g.ctx).entry g.uid = some e := by rw [State.gateAccepts_ctx, he]
  unfold State.gateAccepts at hentry
  show execReleaseGateDecision s = _
  simp only [execReleaseGateDecision, hq, hp, hn, Option.map_some, Option.getD_some, hreach, if_true, Bool.false_eq_true, if_false]
    at hentry ⊢
  rw [hentry]
  rfl

end

theorem exec_gate_refuses {pol : Option Policy} (hp : tfind (s.part g.part).policies g.pol = pol) (hn : gateReason g pol ≠ 0) :
    exec .releaseGateDecision s = .next (((s.gateRefuses g gs pol).noteRelease g (gateReason g pol)).finishEntry g.core g.ctx e true) := by
  have hentry : ((s.gateRefuses g gs pol).ctx g.core g.ctx).entry g.uid = some e := he
  unfold State.gateRefuses GateReq.addr at hentry
  show execReleaseGateDecision s = _
  simp only [execReleaseGateDecision, hq, hp, if_neg hn] at hentry ⊢
  rw [hentry]
  simp only [hn, decide_false, Bool.false_and, Bool.false_eq_true, if_false, bne_iff_ne.mpr hn]
  rfl

end

end

end Sys2Proof.Machine
end

section
/-! SUPPORT. The events of queue entries (R237, R246, R248 to R250, R273, R362 to R364, R384, R407, R434), and O49. -/

namespace Sys2Proof.Machine

/-! ## The element of a copy at which it stands -/

namespace State.AtElement
variable {s s1 t : State} {core ctx ent : Nat} {e : CopyEntry} (h : s.AtElement core ctx ent e)
include h

section
variable {cmd src dst : Word} {fill : Bool} {bs : List Byte} {m : Mask} {c : CopyCause} {va : Option Word}
  (hk : e.kind = .copy cmd src dst fill)
include hk

theorem source_fails (hs : cmdSkind cmd = 0) (hr : s.elemRead core e (lrAddr e.srec src e.k) e.esize = .error (.fault s c false va))
    (ho : s.entryOpen core ctx e.uid = false) :
    exec (.copyElementFault core ctx ent none) s = .next (s.failEntry core ctx e c false va) :=
  h.exec_faults (State.elem_copy_source_stops hk (State.copySource_stops hs hr)) (.refl s) ho

theorem source_waits (hs : cmdSkind cmd ≠ 0) (hp : e.popped ≤ e.k * e.esize / ((s.core core).ring (src.toNat % 16)).popBytes)
    (hr : ((s.core core).ring (src.toNat % 16)).held = 0 ∨ (s.core core).ringHeld (src.toNat % 16) = true) :
    exec (.homeWrite (.copyElem core ctx ent)) s = .next s :=
  h.exec_waits (State.elem_copy_source_stops hk (State.copySource_waits hs hp hr))

variable (hs : cmdSkind cmd = 0) (hr : s.elemRead core e (lrAddr e.srec src e.k) e.esize = .ok (s1, bs, m))
include hs hr

theorem destination_sends (hd : s1.copyDest core ctx e cmd dst fill bs (m ||| e.cmask) = .ok t) :
    exec (.homeWrite (.copyElem core ctx ent)) s = .next (t.modEntry core ctx e.uid (fun e => { e with k := e.k + 1 })) :=
  h.exec_sends (State.elem_copy hk (State.copySource_reads hs hr) hd)

theorem destination_waits (hd : s1.copyDest core ctx e cmd dst fill bs (m ||| e.cmask) = .error (.wait t)) :
    exec (.homeWrite (.copyElem core ctx ent)) s = .next t :=
  h.exec_waits (State.elem_copy_dest_stops hk (State.copySource_reads hs hr) hd)

theorem destination_fails (hd : s1.copyDest core ctx e cmd dst fill bs (m ||| e.cmask) = .error (.fault s1 c true va))
    (ho : s1.entryOpen core ctx e.uid = false) :
    exec (.copyElementFault core ctx ent none) s = .next (s1.failEntry core ctx e c true va) :=
  h.exec_faults (State.elem_copy_dest_stops hk (State.copySource_reads hs hr) hd) (State.LookedUp.elemRead hr) ho

end

end State.AtElement

section
variable {e : CopyEntry}

theorem CopyEntry.passed_of_not_copy (h : ∀ cmd src dst fill, e.kind ≠ .copy cmd src dst fill) : e.passed :=
  fun cmd src dst fill hk => absurd hk (h cmd src dst fill)

theorem CopyEntry.count_bclear {first blocks hnd : Nat} (hk : e.kind = .bclear first blocks hnd) : e.count = 256 * blocks := by
  simp only [CopyEntry.count, hk]

theorem CopyEntry.count_release {pol len hnd : Nat} {src off : Word} (hk : e.kind = .release pol len hnd src off) :
    e.count = len / 16 := by
  simp only [CopyEntry.count, hk]

end

/-- A release whose bytes do not reach their window is accepted, and no byte changes. -/
theorem State.gateAccepts_peek_lost (s : State) (g : GateReq) (gs : List GateReq) (p : Policy) :
    (s.gateAccepts g gs p false).peek = s.peek := rfl

theorem State.noteRelease_peek (s : State) (g : GateReq) (n : Nat) : (s.noteRelease g n).peek = s.peek :=
  funext fun _ => State.modCtx_peek ..

/-- Settles O49, clause by clause: which entry begins and what it holds, its elements and their faults, its end, and the gate. -/
theorem copyEvents : Obligations.CopyEvents := by
  unfold Obligations.CopyEvents
  refine ⟨fun core s => ⟨exec_copyBegin_full, ?begins, ?none, ?ready⟩, ?holds, ?entries, ?finish, ?places, ?late, ?report, ?gate,
    ?publish⟩
  case begins =>
    intro i e ho hn h1 h4 hfit hfirst
    exact exec_copyBegin_begins ho hn h1 h4 hfit hfirst
  case none =>
    intro hnone
    by_cases hfull : (s.core core).owner = none ∨ 4 ≤ (s.core core).inProgress
    · exact exec_copyBegin_full hfull
    · obtain ⟨ho, hn⟩ := not_or.mp hfull
      exact exec_copyBegin_none ho (Nat.not_le.mp hn) hnone
  case ready =>
    intro j uid
    rw [show j.ready = j.readyEntries from s.engineCycle_ready core]
    exact Core.mem_readyEntries
  case holds =>
    intro s core ctx cmd src dst fill e _ hk hs hd
    obtain ⟨hentry, hhandle, hlast, hpeek⟩ := State.beginEntry_holds (s := s) (core := core) (ctx := ctx) hk hs hd
    refine ⟨hentry, fun h => ?_, fun h => ⟨?_, fun hne => ?_⟩, hlast, hpeek⟩
    · rw [hhandle]
      exact State.holdHandles_destination h
    · rw [hhandle]
      exact (State.holdHandles_source h).1
    · rw [hhandle]
      exact (State.holdHandles_source h).2 hne
  case entries =>
    intro core ctx ent s e hat he counts free
    refine ⟨?stopped, ?copy, ?beginFault, ?bclear, ?release, exec_copyElementFault_stopped hat, ?struck, ?copyDone, ?bclearDone,
      ?releaseDone⟩
    case stopped =>
      intro h
      by_cases hst : e.stage = .running
      · have hwait : s.elemNext core ctx e.uid = .error (.wait s) :=
          State.elemNext_waits he (h.imp id (Bool.not_eq_false _).mp)
        exact ⟨by rw [exec_copyElem hat hst, hwait]; rfl, exec_copyComplete_waits hat hst hwait⟩
      · exact ⟨exec_copyElem_stopped hat hst, exec_copyComplete_stopped hat hst⟩
    case copy =>
      intro cmd src dst fill hfree hst hk ht hf hmore n sva dva next fails sr dr
      have hel : s.AtElement core ctx ent e := ⟨hat, he, hfree, hst, CopyEntry.passed_of_total ht, hf, hmore⟩
      refine ⟨fun hs c va hr ho => hel.source_fails hk hs hr ho, fun hs hp hr => hel.source_waits hk hs hp hr,
        fun s1 bs m hs hr => ?_⟩
      have hlook := State.LookedUp.elemRead hr
      have hring : (s1.core core).ring (dst.toNat % 16) = dr := by rw [hlook.core]
      refine ⟨fun hd => ⟨fun hs' s2 t hc hl hsend => ?_, fun c va hc ho => ?_⟩, fun hd => ⟨fun ho hr' => ?_, fun t ho hr' hesc hsend => ?_,
        fun t ho hesc hsend => ?_⟩, fun hd hpast ho => ?_⟩
      · rw [← hlook.launchCores, ← (State.LookedUp.elemLook hl).launchCores] at hsend
        exact hel.destination_sends hk hs hr (State.copyDest_sends hd hc hl hsend)
      · exact hel.destination_fails hk hs hr (State.copyDest_stops hd hc) ho
      · exact hel.destination_waits hk hs hr (State.copyDest_full hd (by rw [hring]; exact ho) (by rw [hring]; exact hr'))
      · exact hel.destination_sends hk hs hr (State.copyDest_opens hd hring ho hr' hesc hsend)
      · exact hel.destination_sends hk hs hr (State.copyDest_goesOn hd hring ho hesc hsend)
      · exact hel.destination_fails hk hs hr (State.copyDest_pastBank hd hpast) ho
    case beginFault =>
      intro cmd src dst fill c side va hfree hst hk ht hf ho
      exact exec_copyElementFault_fails hat hst (State.elemNext_beginFault he hst hfree hk ht hf) ho he
    case bclear =>
      intro first blocks hnd hfree hst hf hk hmore
      have hel : s.AtElement core ctx ent e :=
        ⟨hat, he, hfree, hst, CopyEntry.passed_of_not_copy (by simp [hk]), hf, by rw [CopyEntry.count_bclear hk]; exact hmore⟩
      exact ⟨fun hs t hc hsend => hel.exec_sends (State.elem_bclear hk hc hsend),
        fun c a hc ho => hel.exec_faults (State.elem_bclear_stops hk hc) (.refl s) ho⟩
    case release =>
      intro pol len hnd src off hfree hst hf hk hmore
      have hel : s.AtElement core ctx ent e :=
        ⟨hat, he, hfree, hst, CopyEntry.passed_of_not_copy (by simp [hk]), hf, by rw [CopyEntry.count_release hk]; exact hmore⟩
      exact ⟨fun s1 bs m hr => hel.exec_sends (State.elem_release hk hr),
        fun c a hr ho => hel.exec_faults (State.elem_release_stops hk hr) (.refl s) ho⟩
    case struck =>
      intro side hfree hst hf hp hmore ho
      exact exec_copyElementFault_uncorrectable hat hst he hfree hf hp hmore ho
    case copyDone =>
      intro cmd src dst fill hfree hst hk ht hn ho
      rw [exec_copyComplete_done hat hst (State.elemNext_done he hst hfree (CopyEntry.passed_of_total ht) hn),
        State.entryDone_copy he hst hn ho hk ht]
    case bclearDone =>
      intro first blocks hnd hfree hst hk hn ho
      rw [← CopyEntry.count_bclear hk] at hn
      rw [exec_copyComplete_done hat hst (State.elemNext_done he hst hfree (CopyEntry.passed_of_not_copy (by simp [hk])) hn),
        State.entryDone_bclear he hst hn ho hk]
    case releaseDone =>
      intro pol len hnd src off hfree hst hk hn ho
      rw [← CopyEntry.count_release hk] at hn
      rw [exec_copyComplete_done hat hst (State.elemNext_done he hst hfree (CopyEntry.passed_of_not_copy (by simp [hk])) hn),
        State.entryDone_release he hst hn ho hk]
      split <;> rfl
  case finish =>
    intro s core ctx h e t
    exact ⟨State.finishEntry_destination s core ctx false, State.finishEntry_source s core ctx false,
      fun n => State.finishEntry_ring s core ctx false, State.finishEntry_copyq s core ctx e false⟩
  case places =>
    intro s core e place
    refine ⟨fun cmd src dst fill hk => ?_, fun first blocks hnd hk => s.errorAt_bclear core hk true,
      fun pol len hnd src off hk => s.errorAt_release core hk false⟩
    exact ⟨s.errorAt_source_address core hk, s.errorAt_source_ring core hk, s.errorAt_destination_address core hk,
      s.errorAt_destination_ring core hk, s.errorAt_destination_bank core hk⟩
  case late =>
    intro s w uid e hw he hst mine hmin hall
    obtain rfl := Ctx.entry_uid he
    refine ⟨(s.recallWrites w).setEntry w.core w.ctx { e with k := w.elem }, fun pa => State.modCtx_peek .., fun v hv hm => ?_,
      List.length_map .., ?_, State.setEntry_entry (d := e) he⟩
    · exact s.recallWrites_none_pends w v hv (WriteReq.pendsWith_iff.mpr hm)
    · exact State.failWrite_fails hw he hst (fun v hv hp => hmin v hv (WriteReq.pendsWith_iff.mp hp)) hall
  case report =>
    intro s core ctx e c side va hl hp hst hq t
    rw [show t.ctx core ctx = _ from State.failEntry_ctx hl hp hst hq]
    refine ⟨rfl, ⟨_, rfl, rfl, rfl, rfl, rfl⟩, rfl, fun d hd => ?_⟩
    obtain rfl := List.mem_singleton.mp hd
    exact ⟨rfl, rfl, rfl⟩
  case gate =>
    intro s
    constructor
    · intro hq
      show execReleaseGateDecision s = _
      simp only [execReleaseGateDecision, hq]
    intro g gs e hq he pol reason lost
    have hr : reason = gateReason g pol := rfl
    have hpol : tfind (s.part g.part).policies g.pol = pol := rfl
    clear_value reason pol
    by_cases hn : reason = 0
    · obtain ⟨p, rfl⟩ : ∃ p, pol = some p := by
        cases pol with
        | none => exact absurd (hr.symm.trans hn) Nat.one_ne_zero
        | some p => exact ⟨p, rfl⟩
      have hpart := State.gateAccepts_part (gs := gs) hpol
      cases hreach : s.reachable (p.base + g.off.toNat) with
      | true =>
        have hsent : ¬ lost := by
          rintro ⟨-, q, hq, hl⟩
          obtain rfl := Option.some.inj hq
          exact absurd (hl.symm.trans hreach) Bool.false_ne_true
        refine ⟨(s.gateAccepts g gs p true).noteRelease g 0, State.gateAccepts_gate true, fun _ => ⟨?_, ?_⟩, fun hl => absurd hl hsent,
          fun _ q hq => ?_, fun hne => absurd hn hne⟩
        · rw [hn]
          exact exec_gate_accepts hq he hpol (hr.symm.trans hn) hreach
        · rw [hn]
          exact State.noteRelease_relLast ..
        · obtain rfl := Option.some.inj hq
          exact ⟨fun _ => (State.noteRelease_peek ..).trans State.gateAccepts_peek_reached, hpart true⟩
      | false =>
        have hlost : lost := ⟨hn, p, rfl, hreach⟩
        refine ⟨s.gateAccepts g gs p false, State.gateAccepts_gate false, fun hs => absurd hlost hs, fun _ => ⟨?_, rfl,
          State.gateAccepts_ctx false⟩, fun _ q hq => ?_, fun hne => absurd hn hne⟩
        · exact exec_gate_lost hq he hpol (hr.symm.trans hn) hreach
        · obtain rfl := Option.some.inj hq
          exact ⟨fun hs => absurd hlost hs, hpart false⟩
    · have hrefused : ¬ lost := fun hl => hn hl.1
      subst hr
      refine ⟨(s.gateRefuses g gs pol).noteRelease g (gateReason g pol), rfl, fun _ => ⟨?_, State.noteRelease_relLast ..⟩,
        fun hl => absurd hl hrefused, fun hz => absurd hz hn, fun _ => ⟨State.noteRelease_peek .., State.gateRefuses_part pol⟩⟩
      rw [bne_iff_ne.mpr hn]
      exact exec_gate_refuses hq he hpol hn
  case publish =>
    intro core ctx ent win hnd s e w hat hk hw part pas begun
    exact ⟨exec_publish_waits hat hk hw, exec_publish_refused hat hk hw, exec_publish_writes hat hk hw⟩

end Sys2Proof.Machine
end
